-- ==== Sys2Proof/Word.lean ====
section
/-! DEFINITION. The word types of the Harbour and their plainest arithmetic (R125, R8): 24-bit words, bytes, and the
names of ports, tenants, threads, basins and piers. -/

namespace Sys2Proof

/-- A byte (R8, R125). -/
abbrev Byte := BitVec 8
/-- A Windlass word of 24 bits (R125). -/
abbrev Word := BitVec 24
/-- A 48-bit pair (R129). -/
abbrev Pair := BitVec 48
/-- A 5-bit register field (R129). -/
abbrev RegField := Fin 32
/-- A hardware thread: basin × 256 + pier × 64 + position × 4 + thread (R14, R15). -/
abbrev ThreadId := Fin 1024
/-- A tenant number (R382). -/
abbrev TenantId := Fin 1024
/-- A basin number (R14). -/
abbrev BasinId := Fin 4
/-- A pier of the whole device: basin × 4 + pier (R14). -/
abbrev PierId := Fin 16
/-- A berth pair of the whole device: basin × 72 + pier × 18 + pair (R14, R18). -/
abbrev PairId := Fin 288

/-- The two PCIe ports; each is served by the Quayside half of the same letter (03, 15). -/
inductive Port where
  | a | b
  deriving DecidableEq, Repr

/-- The port's number: 0 for A, 1 for B (R61, R380). -/
def Port.num : Port → Nat
  | .a => 0
  | .b => 1

/-- The other port of a path group (R90). -/
def Port.other : Port → Port
  | .a => .b
  | .b => .a

/-- The basin of a thread (R14). -/
def ThreadId.basin (t : ThreadId) : BasinId := ⟨t.val / 256, by omega⟩
/-- The pier of a thread, numbered over the device (R14). -/
def ThreadId.pier (t : ThreadId) : PierId := ⟨t.val / 64, by omega⟩
/-- The thread's name within its pier, position × 4 + thread (R15). -/
def ThreadId.inPier (t : ThreadId) : Nat := t.val % 64
/-- The berth position of the thread within its pier (R15). -/
def ThreadId.position (t : ThreadId) : Nat := t.val % 64 / 4
/-- The thread number within its berth (R14). -/
def ThreadId.slot (t : ThreadId) : Nat := t.val % 4
/-- The basin of a pier (R14). -/
def PierId.basin (p : PierId) : BasinId := ⟨p.val / 4, by omega⟩
/-- The pier a berth pair lies in, numbered over the device (R18). -/
def PairId.pier (p : PairId) : PierId := ⟨p.val / 18, by omega⟩
/-- The pair's number within its pier (R14). -/
def PairId.inPier (p : PairId) : Nat := p.val % 18

end Sys2Proof
end

