-- ==== Sys2Proof/Syntax.lean ====
section
/-! DEFINITION. The commands of the Harbour: one constructor per row of spec/opcode_table.json, in the table's order,
with the operands the row's rule gives it. -/

namespace Sys2Proof

/-- How a DMA read or flushing read issued by the Harbour ended, with the bytes it brought (R26, R38, R76, R401). -/
inductive ReadResult where
  /-- The read completed with these bytes. -/
  | ok (data : List Byte)
  /-- The read completed with an error after the re-drive of R90. -/
  | error
  /-- The address could not be translated (R401). -/
  | noTranslation
  deriving DecidableEq, Repr

/-- What a DMA read of host source bytes was issued for (R26, R58, R99, R142). -/
inductive ReadPurpose where
  /-- The whole source of a consignment, for STAGED or a built-in. -/
  | source (seq : Nat)
  /-- The source of an engine job of CP3, by job number. -/
  | job (id : Nat)
  /-- A HOST load of a thread. -/
  | hostLoad (th : ThreadId)
  deriving DecidableEq, Repr

/-- A function of a port: its PF0 or the VF of a tenant (R376, R382). -/
inductive FnSel where
  | pf0
  | vf (t : TenantId)
  deriving DecidableEq, Repr

/-- Power management states of a function (R374). -/
inductive DState where
  | d0 | d3hot | d3cold
  deriving DecidableEq, Repr

/-- An OUT segment of a DMA list: its entry, its IOVA and its bytes (R457). -/
structure OutSeg where
  entry : Nat
  addr : BitVec 64
  len : Nat
  deriving DecidableEq, Repr

/-- A mailbox request as the Pilot reads it: the header of R455 and the body, already gathered from the buffer or from
the IN segments of the DMA list (R457). -/
structure MbReq where
  /-- The PF0 the request came through. -/
  port : Port
  flags : BitVec 16 := 0
  tag : BitVec 32 := 0
  length : BitVec 32 := 0
  dmaLo : BitVec 32 := 0
  /-- The body bytes. -/
  body : List Byte := []
  /-- The DMA list entry whose read failed (R459 check 5). -/
  dmaFail : Option Nat := none
  /-- The OUT segments in list order, when DMA is set (R457). -/
  outs : List OutSeg := []
  deriving DecidableEq, Repr

/-- A register as host or runtime reaches it (R358, R378, R379, R475). -/
inductive RegTarget where
  /-- PF0 BAR0 of a port, by offset (R378). -/
  | pfBar (p : Port) (off : BitVec 25)
  /-- VF BAR0 of a tenant on a port, by offset (R379). -/
  | vfBar (p : Port) (t : TenantId) (off : BitVec 20)
  /-- The berth runtime's DEVICE mapping of an island's block (R201, R358). -/
  | device (island : BitVec 10) (off : BitVec 18)
  /-- Bus Master Enable of a function (R382). -/
  | cfgBusMaster (p : Port) (f : FnSel)
  /-- VF Memory Space Enable of a port (R382). -/
  | cfgVfMse (p : Port)
  /-- VF Enable of a port; the value written is NumVFs (R382). -/
  | cfgVfEnable (p : Port)
  /-- PME_Status of a function, cleared by writing 1 (R368). -/
  | cfgPmeStatus (p : Port) (f : FnSel)
  /-- ATS Enable of a function (R400). -/
  | cfgAts (p : Port) (f : FnSel)
  /-- ASPM L1 enable of a port (R398). -/
  | cfgAspm (p : Port)
  deriving DecidableEq, Repr

/-- A CONTROL HELLO as it arrives (R484): what it carries, the peer's signature over both HELLOs, and whether the peer found this
Harbour's combination in its own manifest and the room of R485. -/
structure HelloMsg where
  /-- The identity public key x ‖ y. -/
  key : List Byte
  position : Fin 4
  members : Nat
  /-- SM3 of the UNIT list. -/
  listHash : List Byte
  nonce : List Byte
  combination : List Byte
  /-- GiB of the ledger area, and bytes of the LEDGERED ranges of each basin. -/
  areaGib : Nat
  ranges : List Nat
  signature : List Byte
  accepts : Bool
  deriving DecidableEq, Repr

/-- One message carried on VC0 (R485). -/
inductive MirrorItem where
  /-- A ledger record of a basin of the sender: its place in CHAIN order from 0, and its 128 bytes. -/
  | record (basin : BasinId) (num : Nat) (bytes : List Byte)
  /-- An intake entry of a basin. -/
  | intake (basin : BasinId) (bytes : List Byte)
  /-- A commit line or a seed line: its offset in the LEDGERED ranges and its bytes. -/
  | line (basin : BasinId) (off : Nat) (bytes : List Byte)
  deriving DecidableEq, Repr

/-- The header of the DATA flits of one VC whose messages a command brings (R477): the first one's SEQ, and the flits that
follow it. -/
structure FlitHdr where
  link : Fin 2
  seq : BitVec 12
  more : Nat := 0
  hops : Fin 4
  origin : Fin 4
  dest : Fin 4
  /-- The ACK field, when VALID. -/
  ack : Option (BitVec 12) := none
  /-- CVC and CREDITS of the flit. -/
  cvc : Fin 3 := 0
  credits : BitVec 8 := 0
  deriving DecidableEq, Repr

/-- What SPDM requests carry (R306): port, secure session if any, and the parameter bytes. -/
structure SpdmReq where
  port : Port
  session : Option (Fin 2) := none
  params : List Byte := []
  deriving DecidableEq, Repr

/-- One command of the Harbour: a row of spec/opcode_table.json with its operands. -/
inductive Instr where
  -- Quayside, queues, durability and ledger (02, 03)
  | slipWrite (p : Port) (t : TenantId) (off : BitVec 12) (data : List Byte)
  | slippedDescriptorAccept (half : Port)
  | sqTailDoorbell (p : Port) (t : TenantId) (sq : Fin 16) (size : Nat) (v : BitVec 32)
  | descriptorFetch (t : TenantId) (sq : Fin 16)
  | descriptorFetchComplete (t : TenantId) (sq : Fin 16) (r : ReadResult)
  | eqHeadDoorbell (p : Port) (f : FnSel) (eq : Fin 32) (size : Nat) (v : BitVec 32)
  | chainTail (t : TenantId) (pool : Fin 64) (v : BitVec 32)
  | acceptedRecordStored (seq : Nat)
  | creditTimeExpiry (t : TenantId) (sq : Fin 16)
  | consignmentDispatch (th : ThreadId)
  | sourceReadComplete (w : ReadPurpose) (r : ReadResult)
  | commitPoint (seq : Nat)
  | commitReport (seq : Nat)
  | builtinJobEnd (id : Nat)
  | mirrorBasinAck (basin : BasinId) (upTo : Nat)
  | hostBatchClose (basin : BasinId)
  | hostFlushReadComplete (basin : BasinId) (r : ReadResult)
  | deadlineExpiry (seq : Nat)
  | deadlineGraceExpiry (th : ThreadId)
  | replayDecide (seq : Nat)
  | pathWaitExpiry (t : TenantId)
  | portLinkDown (p : Port)
  | portLinkUp (p : Port)
  | quaysideHalfReset (half : Port)
  | tideBoundary
  | sealReport (basin : BasinId)
  | tideSigned
  | partitionMapChangeEffect (part : Fin 4096)
  -- Windlass (05, 06)
  | illegal (th : ThreadId) (w : Word)
  | add (th : ThreadId) (d a b : RegField)
  | adds (th : ThreadId) (d a b : RegField)
  | addc (th : ThreadId) (d a b : RegField)
  | sub (th : ThreadId) (d a b : RegField)
  | subs (th : ThreadId) (d a b : RegField)
  | subb (th : ThreadId) (d a b : RegField)
  | slt (th : ThreadId) (d a b : RegField)
  | sltu (th : ThreadId) (d a b : RegField)
  | and (th : ThreadId) (d a b : RegField)
  | or (th : ThreadId) (d a b : RegField)
  | xor (th : ThreadId) (d a b : RegField)
  | andn (th : ThreadId) (d a b : RegField)
  | sll (th : ThreadId) (d a b : RegField)
  | srl (th : ThreadId) (d a b : RegField)
  | sra (th : ThreadId) (d a b : RegField)
  | rol (th : ThreadId) (d a b : RegField)
  | mul (th : ThreadId) (d a b : RegField)
  | mulh (th : ThreadId) (d a b : RegField)
  | mulhu (th : ThreadId) (d a b : RegField)
  | mulw (th : ThreadId) (d a b : RegField)
  | mulwu (th : ThreadId) (d a b : RegField)
  | div (th : ThreadId) (d a b : RegField)
  | divu (th : ThreadId) (d a b : RegField)
  | rem (th : ThreadId) (d a b : RegField)
  | remu (th : ThreadId) (d a b : RegField)
  | dadd (th : ThreadId) (d a b : RegField)
  | daddc (th : ThreadId) (d a b : RegField)
  | dsub (th : ThreadId) (d a b : RegField)
  | dsubb (th : ThreadId) (d a b : RegField)
  | dcmp (th : ThreadId) (d a b : RegField)
  | addi (th : ThreadId) (d a : RegField) (imm : BitVec 8)
  | andi (th : ThreadId) (d a : RegField) (imm : BitVec 8)
  | ori (th : ThreadId) (d a : RegField) (imm : BitVec 8)
  | xori (th : ThreadId) (d a : RegField) (imm : BitVec 8)
  | slli (th : ThreadId) (d a : RegField) (imm : BitVec 8)
  | srli (th : ThreadId) (d a : RegField) (imm : BitVec 8)
  | srai (th : ThreadId) (d a : RegField) (imm : BitVec 8)
  | slti (th : ThreadId) (d a : RegField) (imm : BitVec 8)
  | sltui (th : ThreadId) (d a : RegField) (imm : BitVec 8)
  | lui (th : ThreadId) (d : RegField) (imm : BitVec 13)
  | orli (th : ThreadId) (d : RegField) (imm : BitVec 13)
  | lb (th : ThreadId) (d a : RegField) (imm : BitVec 8)
  | lbu (th : ThreadId) (d a : RegField) (imm : BitVec 8)
  | lh (th : ThreadId) (d a : RegField) (imm : BitVec 8)
  | lhu (th : ThreadId) (d a : RegField) (imm : BitVec 8)
  | lw (th : ThreadId) (d a : RegField) (imm : BitVec 8)
  | sb (th : ThreadId) (d a : RegField) (imm : BitVec 8)
  | sh (th : ThreadId) (d a : RegField) (imm : BitVec 8)
  | sw (th : ThreadId) (d a : RegField) (imm : BitVec 8)
  | lp (th : ThreadId) (d a : RegField) (imm : BitVec 8)
  | sp (th : ThreadId) (d a : RegField) (imm : BitVec 8)
  | fld (th : ThreadId) (d a : RegField) (imm : BitVec 8)
  | fsd (th : ThreadId) (d a : RegField) (imm : BitVec 8)
  | fls (th : ThreadId) (d a : RegField) (imm : BitVec 8)
  | fss (th : ThreadId) (d a : RegField) (imm : BitVec 8)
  | lbf (th : ThreadId) (d a b : RegField)
  | lbuf (th : ThreadId) (d a b : RegField)
  | lhf (th : ThreadId) (d a b : RegField)
  | lhuf (th : ThreadId) (d a b : RegField)
  | lwf (th : ThreadId) (d a b : RegField)
  | lpf (th : ThreadId) (d a b : RegField)
  | fldf (th : ThreadId) (d a b : RegField)
  | flsf (th : ThreadId) (d a b : RegField)
  | sbf (th : ThreadId) (d a b : RegField)
  | shf (th : ThreadId) (d a b : RegField)
  | swf (th : ThreadId) (d a b : RegField)
  | spf (th : ThreadId) (d a b : RegField)
  | fsdf (th : ThreadId) (d a b : RegField)
  | fssf (th : ThreadId) (d a b : RegField)
  | amoadd (th : ThreadId) (d a b : RegField)
  | amoswap (th : ThreadId) (d a b : RegField)
  | amocas (th : ThreadId) (d a b : RegField)
  | amomin (th : ThreadId) (d a b : RegField)
  | amomax (th : ThreadId) (d a b : RegField)
  | amopAdd (th : ThreadId) (d a b : RegField)
  | amopSwap (th : ThreadId) (d a b : RegField)
  | amopCas (th : ThreadId) (d a b : RegField)
  | amopMin (th : ThreadId) (d a b : RegField)
  | amopMax (th : ThreadId) (d a b : RegField)
  | amofAdd (th : ThreadId) (d a b : RegField)
  | amofSwap (th : ThreadId) (d a b : RegField)
  | amofCas (th : ThreadId) (d a b : RegField)
  | amofMin (th : ThreadId) (d a b : RegField)
  | amofMax (th : ThreadId) (d a b : RegField)
  | amopfAdd (th : ThreadId) (d a b : RegField)
  | amopfSwap (th : ThreadId) (d a b : RegField)
  | amopfCas (th : ThreadId) (d a b : RegField)
  | amopfMin (th : ThreadId) (d a b : RegField)
  | amopfMax (th : ThreadId) (d a b : RegField)
  | beqz (th : ThreadId) (a : RegField) (off : BitVec 10)
  | bnez (th : ThreadId) (a : RegField) (off : BitVec 10)
  | bltz (th : ThreadId) (a : RegField) (off : BitVec 10)
  | bgez (th : ThreadId) (a : RegField) (off : BitVec 10)
  | bgtz (th : ThreadId) (a : RegField) (off : BitVec 10)
  | blez (th : ThreadId) (a : RegField) (off : BitVec 10)
  | bcs (th : ThreadId) (a : RegField) (off : BitVec 10)
  | bcc (th : ThreadId) (a : RegField) (off : BitVec 10)
  | beq (th : ThreadId) (a b : RegField) (off : BitVec 8)
  | bne (th : ThreadId) (a b : RegField) (off : BitVec 8)
  | blt (th : ThreadId) (a b : RegField) (off : BitVec 8)
  | bge (th : ThreadId) (a b : RegField) (off : BitVec 8)
  | bltu (th : ThreadId) (a b : RegField) (off : BitVec 8)
  | bgeu (th : ThreadId) (a b : RegField) (off : BitVec 8)
  | j (th : ThreadId) (off : BitVec 16)
  | callg1 (th : ThreadId) (off : BitVec 16)
  | callg2 (th : ThreadId) (off : BitVec 16)
  | callg3 (th : ThreadId) (off : BitVec 16)
  | jr (th : ThreadId) (d a b : RegField)
  | callrg1 (th : ThreadId) (d a b : RegField)
  | callrg2 (th : ThreadId) (d a b : RegField)
  | callrg3 (th : ThreadId) (d a b : RegField)
  | ret (th : ThreadId) (d a b : RegField)
  | rets (th : ThreadId) (d a b : RegField)
  | callu (th : ThreadId) (d a b : RegField)
  | syscall (th : ThreadId) (d a b : RegField)
  | yield (th : ThreadId) (d a b : RegField)
  | mfs (th : ThreadId) (d : RegField) (sel : BitVec 10)
  | mts (th : ThreadId) (d : RegField) (sel : BitVec 10)
  | waitcp (th : ThreadId) (d a b : RegField)
  | rdtime (th : ThreadId) (d a b : RegField)
  | tlbinv (th : ThreadId) (d a b : RegField)
  | fence (th : ThreadId) (d a b : RegField)
  | fenceLl (th : ThreadId) (d a b : RegField)
  | fenceSs (th : ThreadId) (d a b : RegField)
  | moor (th : ThreadId) (d a b : RegField)
  | storeCompletion (th : ThreadId) (id : Nat) (r : ReadResult)
  | moorTimerExpiry (th : ThreadId)
  | uncachedAdoptionTimeout (th : ThreadId)
  | commit (th : ThreadId) (d a b : RegField)
  | abort (th : ThreadId) (d a b : RegField)
  | dclean (th : ThreadId) (d a b : RegField)
  | dinv (th : ThreadId) (d a b : RegField)
  | dclinv (th : ThreadId) (d a b : RegField)
  | iinv (th : ThreadId) (d a b : RegField)
  | rclean (th : ThreadId) (d a b : RegField)
  | rinv (th : ThreadId) (d a b : RegField)
  | clock (th : ThreadId) (d a b : RegField)
  | cunlock (th : ThreadId) (d a b : RegField)
  | faddD (th : ThreadId) (d a b : RegField)
  | fsubD (th : ThreadId) (d a b : RegField)
  | fmulD (th : ThreadId) (d a b : RegField)
  | fdivD (th : ThreadId) (d a b : RegField)
  | fsqrtD (th : ThreadId) (d a b : RegField)
  | fminD (th : ThreadId) (d a b : RegField)
  | fmaxD (th : ThreadId) (d a b : RegField)
  | fabsD (th : ThreadId) (d a : RegField)
  | fnegD (th : ThreadId) (d a : RegField)
  | fmovD (th : ThreadId) (d a : RegField)
  | faddS (th : ThreadId) (d a b : RegField)
  | fsubS (th : ThreadId) (d a b : RegField)
  | fmulS (th : ThreadId) (d a b : RegField)
  | fdivS (th : ThreadId) (d a b : RegField)
  | fsqrtS (th : ThreadId) (d a b : RegField)
  | fminS (th : ThreadId) (d a b : RegField)
  | fmaxS (th : ThreadId) (d a b : RegField)
  | fabsS (th : ThreadId) (d a : RegField)
  | fnegS (th : ThreadId) (d a : RegField)
  | fmovS (th : ThreadId) (d a : RegField)
  | fmaddD (th : ThreadId) (d a b : RegField)
  | fmsubD (th : ThreadId) (d a b : RegField)
  | fnmaddD (th : ThreadId) (d a b : RegField)
  | fnmsubD (th : ThreadId) (d a b : RegField)
  | fmaddS (th : ThreadId) (d a b : RegField)
  | fmsubS (th : ThreadId) (d a b : RegField)
  | fnmaddS (th : ThreadId) (d a b : RegField)
  | fnmsubS (th : ThreadId) (d a b : RegField)
  | fcvtDS (th : ThreadId) (d a : RegField)
  | fcvtSD (th : ThreadId) (d a : RegField)
  | fcvtDW (th : ThreadId) (d a : RegField)
  | fcvtDWu (th : ThreadId) (d a : RegField)
  | fcvtWD (th : ThreadId) (d a : RegField)
  | fcvtWuD (th : ThreadId) (d a : RegField)
  | fcvtDP (th : ThreadId) (d a : RegField)
  | fcvtPD (th : ThreadId) (d a : RegField)
  | fmvx (th : ThreadId) (d a : RegField)
  | fmvf (th : ThreadId) (d a : RegField)
  | feqD (th : ThreadId) (d a b : RegField)
  | fltD (th : ThreadId) (d a b : RegField)
  | fleD (th : ThreadId) (d a b : RegField)
  | feqS (th : ThreadId) (d a b : RegField)
  | fltS (th : ThreadId) (d a b : RegField)
  | fleS (th : ThreadId) (d a b : RegField)
  -- Coprocessors and engine port (05, 10, 12)
  | cp4ToCp7 (th : ThreadId) (n : Fin 4) (cd ca : RegField) (cfn : BitVec 8)
  | parse (th : ThreadId) (cd ca : RegField)
  | build (th : ThreadId) (cd ca : RegField)
  | xmlTokens (th : ThreadId) (cd ca : RegField)
  | convert (th : ThreadId) (cd ca : RegField)
  | keyDerive (th : ThreadId) (cd ca : RegField)
  | keyDukpt (th : ThreadId) (cd ca : RegField)
  | keyLoad (th : ThreadId) (cd ca : RegField)
  | keyUnwrap (th : ThreadId) (cd ca : RegField)
  | keyWrap (th : ThreadId) (cd ca : RegField)
  | encrypt (th : ThreadId) (cd ca : RegField)
  | decrypt (th : ThreadId) (cd ca : RegField)
  | cp1MacGenerate (th : ThreadId) (cd ca : RegField)
  | cp1MacVerify (th : ThreadId) (cd ca : RegField)
  | cp1PinTranslate (th : ThreadId) (cd ca : RegField)
  | emvVerify (th : ThreadId) (cd ca : RegField)
  | slotClear (th : ThreadId) (cd ca : RegField)
  | slotInfo (th : ThreadId) (cd ca : RegField)
  | sm3 (th : ThreadId) (cd ca : RegField)
  | hmacSm3 (th : ThreadId) (cd ca : RegField)
  | submit (th : ThreadId) (cd ca : RegField)
  | coprocessorResultPosted (pier : PierId) (cp : Fin 3)
  | jobPosted (id : Nat)
  | strongroomRequest
  | keyDelivery (id : Nat)
  | keyColdLoad (handle : BitVec 32) (authentic : Bool)
  | journalBatchClose
  | journalPageProgrammed
  | componentSequenceTimeout
  -- Built-ins and engines (02, 10, 11, 12)
  | bulkEncrypt (seq : Nat)
  | bulkDecrypt (seq : Nat)
  | compress (seq : Nat)
  | decompress (seq : Nat)
  | sign (seq : Nat)
  | verify (seq : Nat)
  | hash (seq : Nat)
  | pinTranslate (seq : Nat)
  | macGenerate (seq : Nat)
  | macVerify (seq : Nat)
  | proof (seq : Nat)
  | echo (seq : Nat)
  | laneQuantumEnd (lane : Fin 16)
  | scuttleComplete (id : Nat) (confirmed : Bool)
  | derrickStepEnd (derrick : Fin 32)
  | stowageBlockEnd (engine : Fin 8)
  -- Threads, berths and piers (04, 13)
  | parkedAccessResume (th : ThreadId)
  | signalEntry (th : ThreadId)
  | mismatchDetected (pair : PairId) (thread : BitVec 8) (kind : Fin 3) (lane : BitVec 16)
  | selftestDone (pair : PairId) (coreMask partMask : BitVec 8)
  | handover (pier : PierId) (testPasses : Bool) (lane : BitVec 16) (lanes : BitVec 16)
  | berthReconfigure (pair : PairId) (testPasses : Bool) (lane : BitVec 16) (lanes : BitVec 16)
  | dailyComparatorTest (pair : PairId) (lane : BitVec 16) (lanes : BitVec 16)
  -- Coherence messages (08)
  | gets (basin : BasinId) (agent : Fin 4) (line : Nat) (tag : BitVec 6)
  | getm (basin : BasinId) (agent : Fin 4) (line : Nat) (tag : BitVec 6)
  | upgr (basin : BasinId) (agent : Fin 4) (line : Nat) (tag : BitVec 6)
  | putm (basin : BasinId) (agent : Fin 4) (line : Nat) (tag : BitVec 6)
  | puto (basin : BasinId) (agent : Fin 4) (line : Nat) (tag : BitVec 6)
  | pute (basin : BasinId) (agent : Fin 4) (line : Nat) (tag : BitVec 6)
  | puts (basin : BasinId) (agent : Fin 4) (line : Nat) (tag : BitVec 6)
  | iord (basin : BasinId) (line : Nat) (tag : BitVec 6)
  | iowr (basin : BasinId) (line : Nat) (tag : BitVec 6) (off : Fin 64) (data : List Byte)
  | amo (basin : BasinId) (agent : Fin 5) (addr : Nat) (fn : Fin 5) (pair : Bool) (cmp operand : BitVec 48)
  | data (basin : BasinId) (agent : Fin 4) (line : Nat) (tag : BitVec 6)
  | fwdgets (basin : BasinId) (agent : Fin 4) (line : Nat)
  | fwdgetm (basin : BasinId) (agent : Fin 4) (line : Nat)
  | inv (basin : BasinId) (agent : Fin 4) (line : Nat)
  | grant (basin : BasinId) (agent : Fin 4) (line : Nat) (tag : BitVec 6)
  | nack (basin : BasinId) (agent : Fin 4) (line : Nat) (tag : BitVec 6)
  | nackRetry (basin : BasinId) (agent : Fin 4) (line : Nat) (tag : BitVec 6)
  | wback (basin : BasinId) (agent : Fin 4) (line : Nat) (tag : BitVec 6)
  | wbstale (basin : BasinId) (agent : Fin 4) (line : Nat) (tag : BitVec 6)
  | fwddata (basin : BasinId) (agent : Fin 4) (line : Nat) (tag : BitVec 6)
  | fwdack (basin : BasinId) (agent : Fin 4) (line : Nat)
  | invack (basin : BasinId) (agent : Fin 4) (line : Nat)
  | coherenceTimeout (basin : BasinId) (trigger : Fin 2) (pier : Fin 4)
  | adoptionComplete (basin : BasinId)
  | basinResetDone (basin : BasinId) (passed : Bool)
  | fairwayRetrain (segment : BasinId) (up : Bool)
  | patrolScrub (stack : BasinId) (corrected : BitVec 32)
  | l2Clean (pier : PierId)
  | l2Inv (pier : PierId)
  | l2En (pier : PierId) (on : Bool)
  | lockWays (pier : PierId) (n : BitVec 4)
  | pierL1dEn (pier : PierId) (v : BitVec 18)
  | pierL1iEn (pier : PierId) (v : BitVec 18)
  | pierL1Inv (pier : PierId) (v : BitVec 18)
  | pierEvqHead (pier : PierId) (v : BitVec 8)
  -- Event hub and interrupts (14)
  | evtPost (byPort : Option Port) (size : Nat) (v : BitVec 64)
  | sourceArrival (src : BitVec 12) (detail : BitVec 24)
  | sourceTimeThreshold (src : BitVec 12)
  | sourceRecordWrite (src : BitVec 12)
  | evtCtl (byPort : Option Port) (src : BitVec 12) (v : BitVec 32)
  | evtStatPendingClear (byPort : Option Port) (src : BitVec 12)
  | lighthouseAlarm (k : Fin 4)
  | eqVectorDue (p : Port) (f : FnSel) (eq : Fin 32)
  | msixUnmask (p : Port) (f : FnSel) (entry : Fin 33)
  | dStateChange (p : Port) (f : FnSel) (d : DState)
  | pmeEnSet (p : Port) (f : FnSel)
  -- Functions, tenants and ports (15)
  | flr (p : Port) (t : TenantId)
  | flrDrainTimeout (t : TenantId)
  | perst (p : Port) (asserted : Bool)
  | hotReset (p : Port)
  | linkDisable (p : Port)
  | pf0Flr (p : Port)
  | vfEnableClear (p : Port) (numVFs : Fin 1025)
  | vfInService (t : TenantId)
  | quiesceDrainComplete (t : TenantId)
  | quiesceDrainLimit (t : TenantId)
  | resumeSlotsFreed (t : TenantId)
  | helmLeaseExpiry
  | helmLease75
  | atsInvalidationRequest (p : Port) (page : Nat)
  | ideIntegrityFailure (p : Port) (stream : Fin 4)
  | lockInterfaceRequest (p : Port) (t : TenantId)
  | stopInterfaceRequest (p : Port) (t : TenantId)
  -- SPDM (11, 15)
  | getVersion (r : SpdmReq)
  | getCapabilities (r : SpdmReq)
  | negotiateAlgorithms (r : SpdmReq)
  | getDigests (r : SpdmReq)
  | getCertificate (r : SpdmReq)
  | challenge (r : SpdmReq)
  | getMeasurements (r : SpdmReq)
  | keyExchange (r : SpdmReq)
  | finish (r : SpdmReq)
  | endSession (r : SpdmReq)
  | keyUpdate (r : SpdmReq)
  | spdmHeartbeat (r : SpdmReq)
  | vendorDefinedRequest (r : SpdmReq)
  -- Power, clocks and start-up (16, 20)
  | regulatorVoltageReported (basin : BasinId)
  | avsNoAnswer (basin : BasinId)
  | droopDetected (island : BitVec 10)
  | barometerUpdate (island : BitVec 10) (voltMv : BitVec 10) (temp : BitVec 12) (droops : BitVec 10)
  | galeExit
  | islandReset (island : BitVec 10) (cause : Fin 3) (dropped : BitVec 32)
  | islandResetExit (island : BitVec 10)
  | calmEntry (pier : PierId)
  | doldrumsEntry
  | wakeComplete
  | pwrGoodCoreRise
  | pwrGoodCoreFall
  | pwrGoodAonFall
  | harbReset (pulseNs : Nat)
  | serviceStart (failed : List (BitVec 10))
  | bootFailed
  | flashOwnAssert
  | flashOwnRelease
  | ppsEdge
  | ppsLockLost
  | tenmhzLost
  -- Activation and Pilot (17, 18)
  | probationExpiry
  | probationLimitNear
  | armedWaitExpiry
  | componentReady
  | readyCheckTimeout
  | pilotRestart (cause : BitVec 8)
  | mbTimeout (p : Port)
  -- Mailbox commands (18)
  | getDeviceInfo (m : MbReq)
  | getCaps (m : MbReq)
  | helmAcquire (m : MbReq)
  | helmRelease (m : MbReq)
  | timeSet (m : MbReq)
  | tenantCreate (m : MbReq)
  | tenantConfigure (m : MbReq)
  | tenantQuiesce (m : MbReq)
  | tenantResume (m : MbReq)
  | tenantDestroy (m : MbReq)
  | tenantResync (m : MbReq)
  | queueCreate (m : MbReq)
  | queueDestroy (m : MbReq)
  | classSet (m : MbReq)
  | partitionMapSet (m : MbReq)
  | chainPoolCreate (m : MbReq)
  | chainPoolDestroy (m : MbReq)
  | keyImportBlock (m : MbReq)
  | keyGenerate (m : MbReq)
  | keyExportBlock (m : MbReq)
  | keyRetire (m : MbReq)
  | keyQuery (m : MbReq)
  | keystoreConfigure (m : MbReq)
  | tenantLabelSet (m : MbReq)
  | handlerLoad (m : MbReq)
  | handlerBind (m : MbReq)
  | formatLoad (m : MbReq)
  | ledgerConfigure (m : MbReq)
  | tideGet (m : MbReq)
  | proofGet (m : MbReq)
  | ledgerTrim (m : MbReq)
  | berthSplit (m : MbReq)
  | berthJoin (m : MbReq)
  | berthRetire (m : MbReq)
  | basinRecover (m : MbReq)
  | errorInject (m : MbReq)
  | powerPolicySet (m : MbReq)
  | thermalStatus (m : MbReq)
  | logbookRead (m : MbReq)
  | logbookClear (m : MbReq)
  | diagRun (m : MbReq)
  | fwStageBegin (m : MbReq)
  | fwStageData (m : MbReq)
  | fwStageEnd (m : MbReq)
  | fwActivate (m : MbReq)
  | fwConfirm (m : MbReq)
  | fwRevert (m : MbReq)
  | fwStatus (m : MbReq)
  | settingsBurn (m : MbReq)
  | enterSlipway (m : MbReq)
  | lifecycleAdvance (m : MbReq)
  | ownerKeyRotate (m : MbReq)
  | roadsteadJoin (m : MbReq)
  | roadsteadStatus (m : MbReq)
  | partnerTakeover (m : MbReq)
  -- PLDM (17)
  | requestUpdate (length : BitVec 32)
  | passComponentTable
  | updateComponent
  | requestFirmwareData (off : BitVec 32) (bytes : List Byte)
  | activateFirmware
  -- Hawser (19)
  | hello (link : Fin 2) (m : HelloMsg)
  | hawserInit (link : Fin 2)
  | nak (link : Fin 2) (seq : BitVec 12)
  | idleFlit (link : Fin 2) (ack : Option (BitVec 12)) (cvc : Fin 3) (credits : BitVec 8)
  | mirrorData (h : FlitHdr) (items : List MirrorItem)
  | mirrorAck (h : FlitHdr) (basin : BasinId) (count : Nat)
  | tideRecord (h : FlitHdr) (record : List Byte) (retiredTide : BitVec 64)
  | heartbeat (h : FlitHdr) (state : Fin 2) (taken : BitVec 4)
  | heartbeatSend
  | flitReplayTimeout (link : Fin 2)
  | hawserRetrain (link : Fin 2) (lanes : Fin 3)
  | hawserTrainingRetry (link : Fin 2)
  | seedEnd
  | partnerLost (q : Fin 4)
  -- Registers and the remaining events
  | registerWrite (r : RegTarget) (size : Nat) (v : BitVec 64)
  | pwrGoodAonRise
  | slipwayEntered (cause : Fin 4)
  | aspmL1Entry (p : Port)
  | completionTimeout (w : ReadPurpose)
  | islandWakeComplete (island : BitVec 10)
  | clockStretchEnd (island : BitVec 10)
  | hawserLockLost (link : Fin 2)
  | flitCrcFail (link : Fin 2)
  | keyStoreWriteConfirmed (handle : BitVec 32) (r : ReadResult)
  | rcRead (p : Port) (off : BitVec 25)
  | tckEdge (tms tdi : Bool)
  deriving DecidableEq, Repr

end Sys2Proof
end

