-- ==== Sys2Proof/Decode.lean ====
section
/-! DEFINITION. Commands spelled by words. The rows of spec/opcode_table.json give no bits to any command, so no word
spells one (log entry 4). -/

namespace Sys2Proof

/-- The command that a word of the table's bits spells: none, because no row of the table gives bits. -/
def decodeTableWord (_nbits _w : Nat) : Option Instr := none

end Sys2Proof
end

