-- ==== Sys2Proof/Machine/Table.lean ====
section
/-! DEFINITION. Sparse tables in one canonical form, byte and bit helpers, little-endian values (R8) and the CRC of R28. -/

namespace Sys2Proof.Machine

/-- A sparse table: pairs of an index and a value, indices strictly rising. -/
abbrev Table (α : Type) := List (Nat × α)

/-- The entry of a key, if any. -/
def mget {α : Type} : Table α → Nat → Option α
  | [], _ => none
  | (j, v) :: r, k => if k = j then some v else mget r k

/-- Insert or replace the entry of a key, keeping the order of the keys. -/
def mset {α : Type} : Table α → Nat → α → Table α
  | [], k, v => [(k, v)]
  | (j, w) :: r, k, v =>
    if k = j then (k, v) :: r
    else if k < j then (k, v) :: (j, w) :: r
    else (j, w) :: mset r k v

/-- Remove the entry of a key. -/
def mdel {α : Type} (t : Table α) (k : Nat) : Table α := t.filter (fun e => e.1 != k)

/-- Read a table whose unlisted indices hold d. -/
def tget {α : Type} (d : α) (t : Table α) (k : Nat) : α := (mget t k).getD d

/-- Write a table whose unlisted indices hold d; writing d removes the entry, so that equal tables are equal lists. -/
def tset {α : Type} [DecidableEq α] (d : α) (t : Table α) (k : Nat) (v : α) : Table α :=
  if v = d then mdel t k else mset t k v

/-- Change one entry of a map by a function, where it exists. -/
def mmod {α : Type} (t : Table α) (k : Nat) (f : α → α) : Table α :=
  match mget t k with
  | none => t
  | some v => mset t k (f v)

/-- Keys strictly rising. -/
def rising {α : Type} : Table α → Bool
  | [] => true
  | [_] => true
  | a :: b :: r => decide (a.1 < b.1) && rising (b :: r)

/-- The canonical form: keys strictly rising and no entry equal to the default. -/
def tableWf {α : Type} [DecidableEq α] (d : α) (t : Table α) : Bool :=
  rising t && t.all (fun e => decide (e.2 ≠ d))

/-! Memories: byte tables whose unlisted bytes read 0 (log entry 5; R67 for LEDGERED ranges). -/

/-- A memory of bytes. -/
abbrev Bytes := Table Byte

/-- Read n bytes from an address on. -/
def readBytes (m : Bytes) (a : Nat) : Nat → List Byte
  | 0 => []
  | n + 1 => tget 0 m a :: readBytes m (a + 1) n

/-- Write a list of bytes from an address on. -/
def writeBytes (m : Bytes) (a : Nat) : List Byte → Bytes
  | [] => m
  | b :: bs => writeBytes (tset 0 m a b) (a + 1) bs

/-- The little-endian value of a list of bytes (R8). -/
def leNat : List Byte → Nat
  | [] => 0
  | b :: bs => b.toNat + 256 * leNat bs

/-- The n little-endian bytes of a value (R8). -/
def toLe (n v : Nat) : List Byte :=
  match n with
  | 0 => []
  | n + 1 => BitVec.ofNat 8 v :: toLe n (v / 256)

/-- The big-endian value of a list of bytes. -/
def beNat (bs : List Byte) : Nat := leNat bs.reverse

/-- The n big-endian bytes of a value. -/
def toBe (n v : Nat) : List Byte := (toLe n v).reverse

/-- The n bytes of a list from an offset on, with zeros past its end. -/
def slice (bs : List Byte) (off n : Nat) : List Byte :=
  let t := (bs.drop off).take n
  t ++ List.replicate (n - t.length) 0

/-- A little-endian field of n bytes at an offset. -/
def fieldLe (bs : List Byte) (off n : Nat) : Nat := leNat (slice bs off n)

/-- A list of zero bytes. -/
def zeros (n : Nat) : List Byte := List.replicate n 0

/-- Bits hi down to lo of a number. -/
def bitsOf (v hi lo : Nat) : Nat := v / 2 ^ lo % 2 ^ (hi + 1 - lo)

/-- Bit i of a number. -/
def bitOf (v i : Nat) : Bool := v / 2 ^ i % 2 == 1

/-- A Bool as 0 or 1. -/
def bit (b : Bool) : Nat := if b then 1 else 0

/-- Counters that saturate (R45). -/
def satInc (v m : Nat) : Nat := if v < m then v + 1 else m

/-- One step of the CRC of R28 over one bit. -/
def crcBit (crc : BitVec 16) : BitVec 16 :=
  if crc.msb then (crc <<< 1) ^^^ 0x1021#16 else crc <<< 1

/-- Apply a function n times. -/
def iter {α : Type} (f : α → α) : Nat → α → α
  | 0, a => a
  | n + 1, a => iter f n (f a)

/-- CRC-16/CCITT-FALSE (R28). -/
def crc16 (bs : List Byte) : BitVec 16 :=
  bs.foldl (fun crc b => iter crcBit 8 (crc ^^^ ((b.setWidth 16 : BitVec 16) <<< 8))) 0xFFFF#16

/-- One step of the reflected CRC-32 of RFC 1952 over one bit. -/
def crc32Bit (c : BitVec 32) : BitVec 32 :=
  if c.getLsbD 0 then (c >>> 1) ^^^ 0xEDB88320#32 else c >>> 1

/-- CRC-32 of RFC 1952. -/
def crc32 (bs : List Byte) : BitVec 32 :=
  ~~~ (bs.foldl (fun c b => iter crc32Bit 8 (c ^^^ b.setWidth 32)) 0xFFFFFFFF#32)

/-- Adler-32 of RFC 1950. -/
def adler32 (bs : List Byte) : BitVec 32 :=
  let (a, b) := bs.foldl (fun (p : Nat × Nat) x => let a := (p.1 + x.toNat) % 65521; (a, (p.2 + a) % 65521)) (1, 0)
  BitVec.ofNat 32 (b * 65536 + a)

/-- The elements of a list that meet a test, replaced by a function. -/
def mapIf {α : Type} (p : α → Bool) (f : α → α) (l : List α) : List α := l.map (fun x => if p x then f x else x)

/-- The place of the first element that meets a test. -/
def findIdx' {α : Type} (p : α → Bool) : List α → Nat → Option Nat
  | [], _ => none
  | x :: r, i => if p x then some i else findIdx' p r (i + 1)

end Sys2Proof.Machine
end

