-- ==== Sys2Proof/Machine/ThreadTypes.lean ====
section
/-! DEFINITION. The state of a hardware thread (04, 05, 06, 07, 13): its registers, its runtime mappings, its commit
set, its gated stores, its outstanding stores and what it waits for. -/

namespace Sys2Proof.Machine

/-- The architectural registers of a thread (R128 to R145, R163); the checkpoint of R335 holds the same. -/
structure Arch where
  /-- Program counter (R126). -/
  pc : Word := 0
  /-- g1 to g7; g0 reads 0 (R128). -/
  g : Vector Word 7 := Vector.replicate 7 0
  /-- The physical window file of 32 groups of 6 registers (R130). -/
  win : Vector Word 192 := Vector.replicate 192 0
  /-- The LINK of each group (R130, R133). -/
  link : Vector (BitVec 3) 32 := Vector.replicate 32 0
  /-- WSTAT.WP. -/
  wp : Fin 32 := 0
  /-- WSTAT.RES, 0 to 28. -/
  res : Nat := 0
  f : Vector (BitVec 64) 32 := Vector.replicate 32 0
  /-- STATUS: CAUSE 15:8, DECINV 6, V 5, C 4, PRIO 3:1, MODE 0. -/
  status : Word := 0
  fcsr : Word := 0
  hval : Word := 0
  rlen : Word := 0
  dlvec : Word := 0
  nseg : Word := 0
  ucseg : Word := 0
  snseg : Word := 0
  scseg : Word := 0
  vbase : Word := 0
  sretv : Word := 0
  bbase : Word := 0
  blim : Word := 0
  bsp : Word := 0
  excinfo : Word := 0
  faultVa : Pair := 0
  moorFaultAddr : Pair := 0
  /-- Physical address bits 51:12 of the root table (PTROOT_LO and PTROOT_HI). -/
  ptroot : BitVec 40 := 0
  deriving DecidableEq, Repr

/-- The memory types of R140. -/
inductive MemType where
  | cached | ledgered | uncached | device | host
  deriving DecidableEq, Repr

/-- Where the bytes of an access lie. -/
inductive Obj where
  /-- The near segment of a thread (R99), by offset. -/
  | near (th : ThreadId)
  /-- The system near segment of a thread, where its ballast stack lies (R135). -/
  | sysNear (th : ThreadId)
  /-- A loaded handler's code segment (R470). -/
  | code (handler : Nat)
  /-- The intake copy of a dock payload (R81, R101). -/
  | intake (seq : Nat)
  /-- The staging buffer of a COMPRESS_RESULT consignment (R101). -/
  | staging (th : ThreadId)
  /-- The partition ranges, partition × 2^20 + offset (R67). -/
  | ledger
  /-- Host memory by IOVA (R142). -/
  | host
  /-- HBM by physical address (R140). -/
  | phys
  /-- The registers of the islands, by physical address (R142, R201). -/
  | device
  deriving DecidableEq, Repr

/-- One runtime mapping: a range of virtual addresses bounded to the byte (R99, R67, R513). -/
structure MapWin where
  base : Nat := 0
  len : Nat := 0
  type : MemType := .cached
  user : Bool := true
  x : Bool := false
  w : Bool := false
  r : Bool := true
  obj : Obj := .phys
  /-- Offset of the first byte in the object. -/
  off : Nat := 0
  deriving DecidableEq, Repr

/-- Kinds of access (R141). -/
inductive AccKind where
  | fetch | load | store | amo
  deriving DecidableEq, Repr

/-- The five atomic functions (R148). -/
inductive AmoFn where
  | add | swap | cas | min | max
  deriving DecidableEq, Repr

/-- Where a load writes its value (R147). -/
inductive LoadDest where
  /-- A word register; the value is sign-extended from n bytes, or zero-extended. -/
  | reg (d : RegField) (signed : Bool)
  /-- A pair of registers. -/
  | pair (d : RegField)
  /-- An f register, 8 bytes or 4 bytes with bits 63:32 zero. -/
  | freg (d : RegField)
  deriving DecidableEq, Repr

/-- A memory access of an instruction with its operands computed (R147, R148). -/
inductive MemOp where
  | load (va : Nat) (n : Nat) (dest : LoadDest)
  | store (va : Nat) (bytes : List Byte)
  /-- An atomic on n = 3 or 6 bytes: the destination, the value compared and the operand. -/
  | amo (fn : AmoFn) (va : Nat) (n : Nat) (d : RegField) (cmp operand : Nat)
  deriving DecidableEq, Repr

/-- A store that waits in the gated store buffer (R335). -/
structure GStore where
  obj : Obj
  addr : Nat
  byte : Byte
  deriving DecidableEq, Repr

/-- What an outstanding store goes to (R172, R187). -/
inductive StoreKind where
  | device (island : Nat)
  | host (port : Port) (iova : Nat)
  | otherBasin (basin : BasinId)
  deriving DecidableEq, Repr

/-- An incomplete store of a thread (R172, R192). -/
structure OStore where
  id : Nat
  kind : StoreKind
  va : Pair
  /-- The flushing read was re-issued once through the other port (R188). -/
  reissued : Bool := false
  /-- The store failed its entry to the port: the pieces still to be written (a crossing that waits, R188). -/
  waiting : List GStore := []
  deriving DecidableEq, Repr

/-- A recorded store failure (R188, R190): program order, address, reason. -/
structure SFail where
  id : Nat
  va : Pair
  reason : Byte
  host : Bool
  deriving DecidableEq, Repr

/-- Why an access waits. -/
inductive WaitWhy where
  /-- An older thread waits for the hold of a line (R107). -/
  | hold (part line : Nat)
  /-- A younger thread waits for the hold before its restart (R107). -/
  | restart (part line : Nat)
  /-- A HOST load waits for its DMA read (R142). -/
  | hostRead
  /-- An UNCACHED access waits for a checkstopped basin's range to be adopted (R191). -/
  | adoption (basin : BasinId)
  /-- A DEVICE access waits at the crossing of an island that is not ON (R188). -/
  | island (n : Nat)
  deriving DecidableEq, Repr

/-- An access that waits (R107, R142, R191). -/
structure Wait where
  why : WaitWhy
  op : Option MemOp
  /-- Harbour time in ns at which it issued. -/
  since : Nat := 0
  /-- The IOVA a HOST read was issued to. -/
  iova : Nat := 0
  deriving DecidableEq, Repr

/-- The states of a thread (R97). -/
inductive Run where
  | free
  | active
  /-- Parked in WAITCP for a coprocessor, with the destination register. -/
  | waitcp (n : Nat) (d : RegField)
  /-- Parked on a hold. -/
  | hold
  /-- Parked in COMMIT, at a step of R109. -/
  | commit (step : Nat)
  /-- Parked in MOOR. -/
  | moor
  /-- The handler has ended; the thread is not yet free (R110). -/
  | ending
  /-- Parked: its berth position has no pair (R97). -/
  | noPair
  /-- Its berth is being handed over: in none of the three states (R97). -/
  | handover
  deriving DecidableEq, Repr

/-- How far a handler has ended (R104). -/
inductive Ended where
  | no | commitSent | committed | aborted
  deriving DecidableEq, Repr

/-- Outcome of a handler that the runtime or the commit group reports to the Quayside (R103). -/
structure EndReport where
  committed : Bool
  status : Nat
  value : Word
  resultLen : Nat
  compressed : Bool := false
  chained : Bool := false
  deriving DecidableEq, Repr

/-- An ephemeral key slot of a thread (R113, R250, R261, R264, R271). -/
structure KeySlot where
  full : Bool := false
  key : List Byte := []
  /-- Usage as two ASCII bytes, the first in bits 7:0; algorithm code of SLOT_INFO; mode as ASCII. -/
  usage : Nat := 0
  alg : Nat := 0
  mode : Nat := 0
  /-- IV_FIXED of R249 as a number of 4 bytes. -/
  ivFixed : Nat := 0
  /-- The key came by KEY_LOAD of a stored key (R250, R266). -/
  stored : Bool := false
  /-- The next drawn value of a stored key, or the value the base or KEK drew (R250, R271). -/
  v : Nat := 0
  /-- Drawn values not yet taken. -/
  left : Nat := 0
  /-- GCM and CTR encryptions, and CBC encryptions, already made with the key (R250, R271). -/
  encs : Nat := 0
  cbcs : Nat := 0
  deriving DecidableEq, Repr

/-- A request to CP0, CP1 or CP2 and its result (R111, R112). -/
inductive CpReq where
  | idle
  /-- Queued or in service: the function, the near address of the request block, the block, and the inputs as memory stood
  at the submit (R177). -/
  | queued (cfn : Nat) (at_ : Nat) (block : List Byte) (ins : List (List Byte))
  /-- The result waits to be collected: the status word. -/
  | posted (status : Word)
  deriving DecidableEq, Repr

/-- A hardware thread (R97). -/
structure Thread where
  run : Run := .free
  /-- The LEDGER_SEQ of the consignment it holds; 0 when it holds none. -/
  seq : Nat := 0
  arch : Arch := {}
  /-- The checkpoint of R335. -/
  ck : Arch := {}
  /-- Instructions retired since the last retry point (R336). -/
  sinceCk : Nat := 0
  /-- The gated store buffer, oldest first (R335). -/
  gated : List GStore := []
  maps : List MapWin := []
  /-- Lines of the commit set: partition × 2^14 + line number in the range (R105). -/
  csetLines : List Nat := []
  /-- Stored bytes of the commit set, by partition × 2^20 + offset (R106). -/
  csetBytes : Table Byte := []
  ended : Ended := .no
  /-- Pending counters MACHINE_CHECK, DEADLINE and EVENT (R117). -/
  sigMc : Nat := 0
  sigDl : Nat := 0
  sigEv : Nat := 0
  /-- An entry has begun and no routine instruction has retired: the signal's priority and its count (R119). -/
  entering : Option (Nat × Nat) := none
  keySlots : Vector KeySlot 4 := Vector.replicate 4 {}
  cp : Vector CpReq 3 := Vector.replicate 3 .idle
  /-- The job in each mailbox entry: 0 when none (R115). -/
  jobs : Vector Nat 8 := Vector.replicate 8 0
  stores : List OStore := []
  nextStore : Nat := 1
  failures : List SFail := []
  /-- A HOST store could not be issued because its translation failed (R190, R401). -/
  hostXlatFail : Bool := false
  /-- Harbour ns at which the MOOR issued, and at which its HOST timer started (R187). -/
  moorAt : Option Nat := none
  moorHostAt : Nat := 0
  wait : Option Wait := none
  /-- YIELD gave up the thread's next slot (R96). -/
  yielded : Bool := false
  /-- End of the grace of the deadline routine (R121). -/
  graceAt : Option Nat := none
  /-- Translations held, by virtual page number: the leaf entry (R142). -/
  tlb : Table (BitVec 64) := []
  /-- Stores whose MOOR timer expired before they completed: number and harbour ns of the expiry (R94). -/
  lateStores : Table Nat := []
  deriving DecidableEq, Repr

end Sys2Proof.Machine
end

