-- ==== Sys2Proof/Machine/QuayTypes.lean ====
section
/-! DEFINITION. The state of the Quayside: descriptors, consignments, queues, tenants, ledgers and tides (02, 03, 11, 15). -/

namespace Sys2Proof.Machine

/-- A consignment descriptor (R22). -/
structure Desc where
  fmt : Byte := 0
  cls : Byte := 0
  handler : BitVec 16 := 0
  flags : BitVec 16 := 0
  orderTag : BitVec 16 := 0
  affinity : BitVec 64 := 0
  correlation : BitVec 64 := 0
  keyA : BitVec 32 := 0
  keyB : BitVec 32 := 0
  srcAddr : BitVec 64 := 0
  srcLen : BitVec 32 := 0
  dstLen : BitVec 32 := 0
  dstAddr : BitVec 64 := 0
  deadlineUs : BitVec 32 := 0
  chainPool : BitVec 16 := 0
  check : BitVec 16 := 0
  deriving DecidableEq, Repr

/-- The states of an accepted consignment (03, Consignment states); SLIPPED descriptors are kept apart. -/
inductive CState where
  | accepted | committed | failed | replaying | held | completed | retired
  deriving DecidableEq, Repr

/-- Where an ACCEPTED consignment stands. -/
inductive Phase where
  /-- Its source is being read before dispatch (R99) or for its engine (R58). -/
  | source
  /-- Ready and waiting for a thread, on the ready list (R71). -/
  | ready
  | onThread (th : ThreadId)
  /-- A built-in that waits for its row, or whose job runs. -/
  | builtin
  | job (id : Nat)
  /-- Its end is reported and waits for COMMIT_REPORT. -/
  | ended
  /-- Final. -/
  | final
  deriving DecidableEq, Repr

/-- PLACE of a ledger record (R79). -/
structure Place where
  basin : Nat := 0
  pier : Nat := 15
  pair : Nat := 31
  deriving DecidableEq, Repr

/-- An in-flight consignment with the tags of R20 (R62, R63, R81). -/
structure Cons where
  desc : Desc := {}
  tenant : Nat := 0
  sq : Nat := 0
  /-- The port it was submitted through. -/
  port : Port := .a
  /-- The Quayside half whose bank holds its entry (R63). -/
  half : Port := .a
  /-- It holds an in-flight entry. -/
  entry : Bool := true
  part : Nat := 0
  dur : Nat := 0
  prio : Nat := 0
  splitOk : Bool := false
  state : CState := .accepted
  phase : Phase := .ready
  attempt : Nat := 1
  restarts : Nat := 0
  /-- Goes to the head of the basin's ready list (R341). -/
  headOfList : Bool := false
  acceptTime : Nat := 0
  /-- The deadline in ps of the harbour clock (R93). -/
  deadlineAt : Option Nat := none
  /-- The order of acceptance over both halves (R54). -/
  order : Nat := 0
  /-- Its ACCEPTED record and intake entry are written (R40). -/
  recordStored : Bool := false
  /-- The copy of the dock payload in the intake entry (R81). -/
  dock : List Byte := []
  /-- The source bytes of the attempt, once read. -/
  source : Option (List Byte) := none
  /-- A DMA read of its source is outstanding. -/
  reading : Bool := false
  place : Place := {}
  /-- Deadline expiry recorded (R93). -/
  expired : Bool := false
  /-- The end its thread reported (R103). -/
  report : Option EndReport := none
  /-- The commit group was sent and its end marker not yet accepted (R86). -/
  groupSent : Bool := false
  /-- The basin that sent the group, for R86. -/
  groupFrom : Nat := 0
  /-- The bytes of the commit group: partition × 2^20 + offset. -/
  group : Table Byte := []
  /-- Disposition of the outcome (R61). -/
  status : Nat := 0
  resultLen : Nat := 0
  handlerValue : Nat := 0
  late : Bool := false
  chained : Bool := false
  compressed : Bool := false
  replayed : Bool := false
  /-- Basin and number of its final record in that ledger (R74). -/
  finalRec : Option (Nat × Nat) := none
  /-- Levels its final record has reached beside VOLATILE (R72). -/
  local1 : Bool := false
  host : Bool := false
  duplex : Bool := false
  /-- Marked for HELD by a squash (R62, R92). -/
  heldMark : Bool := false
  /-- Its record write is queued behind a full ring (R52). -/
  recordQueued : Bool := false
  /-- Result bytes were discarded or failed for want of a path (R91, R92). -/
  lostResults : Bool := false
  /-- Chain buffers it has taken, in order (R330). -/
  chainBufs : List Nat := []
  /-- Its slot in the credit order of its queue (R41). -/
  slot : Nat := 0
  /-- The thread's commit group needs a scuttle to finish before its record (R110, R278). -/
  scuttling : Bool := false
  /-- The tide a PROOF waits for (R301). -/
  proofTide : Option Nat := none
  /-- Its tenant has been destroyed: it becomes RETIRED where it would become HELD (R394). -/
  orphan : Bool := false
  deriving DecidableEq, Repr

/-- A descriptor held SLIPPED that has passed its checks (R62, R63, R84). -/
structure Slipped where
  desc : Desc
  tenant : Nat
  sq : Nat
  port : Port
  dock : List Byte := []
  dur : Nat := 0
  /-- Its place in the credit order of its queue (R41). -/
  slot : Nat := 0
  deriving DecidableEq, Repr

/-- A slot of a queue in submission order (R41): its number and whether it is freed. -/
structure CreditSlot where
  num : Nat
  seq : Nat := 0
  freed : Bool := false
  /-- The descriptor was pushed without a reserved slot (R44), or used a slot of the free pool. -/
  pooled : Bool := false
  deriving DecidableEq, Repr

/-- A submission queue (R29 to R45, R467). -/
structure Sq where
  exist : Bool := false
  pull : Bool := false
  eq : Nat := 0
  reservation : Nat := 0
  pending : Nat := 0
  enabled : Bool := false
  overrun : Nat := 0
  err : Nat := 0
  head : Nat := 0
  tail : Nat := 0
  base : Nat := 0
  sizeLog2 : Nat := 0
  creditBatch : Nat := 0
  creditTime : Nat := 0
  /-- Credits of a credit-return record that waits to be written (R42, R52). -/
  inTransit : Nat := 0
  /-- Harbour ns at which the oldest pending credit became pending (R42). -/
  oldestPending : Option Nat := none
  /-- Slots held or freed and not yet pending, in submission order (R41). -/
  credits : List CreditSlot := []
  nextSlot : Nat := 0
  /-- Fetching has stopped (R38). -/
  stopped : Bool := false
  /-- A fetch read is outstanding: its first index and length (R37). -/
  fetch : Option (Nat × Nat) := none
  deriving DecidableEq, Repr

/-- What an event record is about, as the Harbour keeps it until its head passes (R46). -/
structure EvRec where
  status : Nat := 0
  type : Nat := 0
  flags : Nat := 0
  resultLen : Nat := 0
  correlation : BitVec 64 := 0
  seq : Nat := 0
  value : Nat := 0
  sqId : Nat := 0
  deriving DecidableEq, Repr

/-- An event queue of a tenant or of PF0 (R45, R49 to R53, R365). -/
structure Eq where
  exist : Bool := false
  enabled : Bool := false
  dbErr : Nat := 0
  sizeLog2 : Nat := 0
  tail : Nat := 0
  head : Nat := 0
  phase : Bool := true
  base : Nat := 0
  timeTh : Nat := 0
  countTh : Nat := 1
  /-- Records written since the last vector (R365). -/
  unsignalled : Nat := 0
  /-- Harbour ns at which the moderation window opened (R365). -/
  window : Option Nat := none
  /-- A vector is due and withheld (R366, R368). -/
  vectorHeld : Bool := false
  /-- Records that wait for ring space or for the function, in order (R52). -/
  waiting : List EvRec := []
  /-- Consignments whose completion record is in the ring: index and LEDGER_SEQ (R51). -/
  unread : List (Nat × Nat) := []
  /-- A write of the queue could not be translated (R401). -/
  stopped : Bool := false
  deriving DecidableEq, Repr

/-- A chain pool (R328). -/
structure Pool where
  exist : Bool := false
  sizeLog2 : Nat := 0
  bufLog2 : Nat := 0
  base : Nat := 0
  head : Nat := 0
  tail : Nat := 0
  deriving DecidableEq, Repr

/-- The tenant states of FN_STATE (R383). -/
inductive TState where
  /-- No tenant is created. -/
  | absent
  | quiesced | running | quiescing | squashed | error
  deriving DecidableEq, Repr

/-- A tenant (02, 15, 18). -/
structure Tenant where
  state : TState := .absent
  /-- The ports its VFs may be used through, bit 0 A, bit 1 B (R380). -/
  ports : Nat := 0
  quota : Nat := 0
  classes : Table Nat := []
  currentPort : Port := .a
  /-- A VF is in service and what waited for it has been written (R91, R393). -/
  pathLive : Bool := false
  /-- A VF of the tenant has come into service since its creation (R89). -/
  portChosen : Bool := false
  errCause : Nat := 0
  /-- The ERR_CAUSE that TENANT_RESUME restores (R393). -/
  resumeCause : Nat := 0
  /-- Squashed and not yet resynced (R92). -/
  needResync : Bool := false
  /-- HELD and SQUASHED notices owed when a VF returns to service (R393). -/
  owesNotices : Bool := false
  /-- Descriptors discarded by the squash, per SQ (R391). -/
  discarded : Table Nat := []
  sqs : Table Sq := []
  eqs : Table Eq := []
  pools : Table Pool := []
  /-- The dock window (R32). -/
  dock : Bytes := []
  /-- Harbour ns at which the FLR or quiesce drain limit expires (R392). -/
  drainAt : Option Nat := none
  /-- PATH_WAIT began: no port of the path group up since (R91). -/
  pathDownAt : Option Nat := none
  /-- Position of the member it was taken over from (R489). -/
  takenFrom : Option Nat := none
  /-- Another Harbour has taken the tenant over; TENANT_RESUME is refused until TENANT_DESTROY (R490). -/
  takenAway : Bool := false
  deriving DecidableEq, Repr

/-- A ledger record (R79). -/
structure LRec where
  seq : Nat := 0
  time : Nat := 0
  tenant : Nat := 0
  sq : Nat := 0
  cls : Nat := 0
  state : Nat := 0
  handler : Nat := 0
  correlation : Nat := 0
  affinity : Nat := 0
  status : Nat := 0
  place : Nat := 0
  attempt : Nat := 0
  inDigest : List Byte := []
  outDigest : List Byte := []
  tide : Nat := 0
  chain : Nat := 0
  deriving DecidableEq, Repr

/-- An intake entry (R81). -/
structure Intake where
  desc : Desc := {}
  dock : List Byte := []
  resultLen : Nat := 0
  value : Nat := 0
  flags : Nat := 0
  tide : Nat := 0
  deriving DecidableEq, Repr

/-- A closed HOST batch: its record numbers, its port, and whether its flushing read has been re-issued for a translation
failure (R76, R401). -/
structure HostBatch where
  recs : List Nat
  port : Port
  xlatRetry : Bool := false
  deriving DecidableEq, Repr

/-- The ledger of one basin (R79 to R87, R76, R295). -/
structure Ledger where
  /-- Records kept, oldest first. -/
  recs : List LRec := []
  /-- Number of the first record kept; the records are numbered from 0 over the basin's life. -/
  first : Nat := 0
  intake : Table Intake := []
  /-- CHAIN of the next record (R79). -/
  chain : Nat := 0
  /-- SM3 of the last record trimmed (R85, R297). -/
  trimHash : List Byte := []
  /-- Records acknowledged by the mirror basin, by the partner: all numbers below (R72, R485). -/
  mirrorAck : Nat := 0
  partnerAck : Nat := 0
  partnerSent : Nat := 0
  /-- Room reserved for accepted consignments, in records (R84). -/
  reserved : Nat := 0
  highRaised : Bool := false
  /-- The open HOST batch: record numbers, oldest first, and when it opened (R76). -/
  batch : List Nat := []
  batchAt : Option Nat := none
  /-- Batches whose flushing read is outstanding, oldest first (R76). -/
  flushing : List HostBatch := []
  /-- HOST records that wait for ring space (R75). -/
  hostWait : List Nat := []
  deriving DecidableEq, Repr

/-- An event queue: of a tenant, or of the PF0 of a port (R363). -/
inductive EqRef where
  | ten (t n : Nat)
  | pf (p : Port) (n : Nat)
  deriving DecidableEq, Repr

/-- The settings of LEDGER_CONFIGURE that take effect at the next tide (R471). -/
structure TideCfg where
  replayMax : Nat
  tidePeriodUs : Nat
  tideMax : Nat
  autoTrim : Nat
  deriving DecidableEq, Repr

/-- The settings of LEDGER_CONFIGURE (R471) and the host region. -/
structure LedgerCfg where
  configured : Bool := false
  areaGib : Nat := 4
  replayMax : Nat := 3
  hostLog2 : Nat := 0
  hostBase : Nat := 0
  hostHead : Nat := 0
  /-- The slot the next HOST record takes (R75). -/
  hostNext : Nat := 0
  mirrorMask : Nat := 0
  tidePeriodUs : Nat := 100
  tideMax : Nat := 65536
  partLog2 : Nat := 16
  autoTrim : Nat := 0
  later : Option TideCfg := none
  deriving DecidableEq, Repr

/-- A tide (R294 to R298): open, closing, or closed and waiting for its signature. -/
structure Tide where
  num : Nat := 0
  openAt : Nat := 0
  /-- The same moment as timers count it. -/
  since : Nat := 0
  closeAt : Nat := 0
  /-- Records applied to it so far (R294). -/
  count : Nat := 0
  /-- Seal reports that have arrived, by basin: record count and SM3 of the last record (R295). -/
  seals : Table (Nat × List Byte) := []
  /-- The record, once the tide is closed; its signature once signed (R297). -/
  record : List Byte := []
  deriving DecidableEq, Repr

/-- Tides of the Harbour (R83, R294 to R300). -/
structure Tides where
  /-- Number of the next tide to open (R83). -/
  next : Nat := 1
  /-- The open tide. -/
  cur : Option Tide := none
  /-- The tides whose boundary is placed, oldest first. -/
  closing : List Tide := []
  /-- Closed tides that wait for their signature, in order (R295). -/
  closed : List Tide := []
  /-- The tide log, newest first: number and record (R298). -/
  log : List (Nat × List Byte) := []
  /-- Number and signed body of the previous tide closed (R297). -/
  prevNum : Nat := 0
  prevBody : List Byte := []
  /-- Tide-key certificates, newest first (R300). -/
  certs : List (List Byte) := []
  deriving DecidableEq, Repr

/-- The sequence counter of R83: the two halves draw blocks of 256 from one counter. -/
structure SeqCounter where
  nextA : Nat := 0
  endA : Nat := 0
  nextB : Nat := 0
  endB : Nat := 0
  shared : Nat := 1
  /-- Blocks of 2^32 numbers, and of 2^24 tide numbers, recorded in flash. -/
  seqBlocks : Nat := 0
  tideBlocks : Nat := 0
  deriving DecidableEq, Repr

/-- A partition map entry (R69). -/
structure Part where
  /-- Home basin, or none. -/
  home : Option Nat := none
  /-- A change that waits to take effect (R69). -/
  next : Option (Option Nat) := none
  /-- The stack that holds its range, when a mirror copy was promoted (R348). -/
  stack : Nat := 0
  stranded : Bool := false
  deriving DecidableEq, Repr

end Sys2Proof.Machine
end

