-- ==== Sys2Proof/Machine/Formats.lean ====
section
/-! DEFINITION. The byte layouts of descriptors, event records and ledger records (R22, R46, R79). -/

namespace Sys2Proof.Machine

/-- Bytes 0x00 to 0x3D of a descriptor (R22). -/
def descHead (d : Desc) : List Byte :=
  [d.fmt, d.cls] ++ toLe 2 d.handler.toNat ++ toLe 2 d.flags.toNat ++ toLe 2 d.orderTag.toNat ++ toLe 8 d.affinity.toNat
    ++ toLe 8 d.correlation.toNat ++ toLe 4 d.keyA.toNat ++ toLe 4 d.keyB.toNat ++ toLe 8 d.srcAddr.toNat
    ++ toLe 4 d.srcLen.toNat ++ toLe 4 d.dstLen.toNat ++ toLe 8 d.dstAddr.toNat ++ toLe 4 d.deadlineUs.toNat
    ++ toLe 2 d.chainPool.toNat

/-- The 64 bytes of a descriptor (R22). -/
def descBytes (d : Desc) : List Byte := descHead d ++ toLe 2 d.check.toNat

/-- The descriptor that 64 bytes spell (R22). -/
def parseDesc (bs : List Byte) : Desc :=
  let f (off n : Nat) := fieldLe bs off n
  { fmt := BitVec.ofNat 8 (f 0 1), cls := BitVec.ofNat 8 (f 1 1), handler := BitVec.ofNat 16 (f 2 2),
    flags := BitVec.ofNat 16 (f 4 2), orderTag := BitVec.ofNat 16 (f 6 2), affinity := BitVec.ofNat 64 (f 8 8),
    correlation := BitVec.ofNat 64 (f 16 8), keyA := BitVec.ofNat 32 (f 24 4), keyB := BitVec.ofNat 32 (f 28 4),
    srcAddr := BitVec.ofNat 64 (f 32 8), srcLen := BitVec.ofNat 32 (f 40 4), dstLen := BitVec.ofNat 32 (f 44 4),
    dstAddr := BitVec.ofNat 64 (f 48 8), deadlineUs := BitVec.ofNat 32 (f 56 4), chainPool := BitVec.ofNat 16 (f 60 2),
    check := BitVec.ofNat 16 (f 62 2) }

/-- CHECK of R28 over bytes 0x00 to 0x3D. -/
def descCheck (d : Desc) : BitVec 16 := crc16 (descHead d)

def fOrdered (d : Desc) : Bool := d.flags.getLsbD 0
def fDur (d : Desc) : Nat := (d.flags.extractLsb' 1 2).toNat
def fDurOverride (d : Desc) : Bool := d.flags.getLsbD 3
def fDock (d : Desc) : Bool := d.flags.getLsbD 4
def fCompress (d : Desc) : Bool := d.flags.getLsbD 5
def fQuiet (d : Desc) : Bool := d.flags.getLsbD 6
def fSplitOk (d : Desc) : Bool := d.flags.getLsbD 7
/-- The class number (R22). -/
def fClass (d : Desc) : Nat := d.cls.toNat % 16
/-- The descriptor names a built-in handler (R22). -/
def isBuiltin (d : Desc) : Bool := 0xF000 ≤ d.handler.toNat

/-- The partition of an AFFINITY: the XOR of its twelve-bit groups (R68). -/
def partitionOf (aff : BitVec 64) : Nat :=
  ((List.range 6).foldl (fun (p : BitVec 64) i => p ^^^ ((aff >>> (12 * i)) &&& 0xFFF#64)) 0).toNat

/-- The 32 bytes of an event record (R46). -/
def evBytes (r : EvRec) (phase : Bool) : List Byte :=
  let h := toLe 2 r.status ++ toLe 1 (bit phase * 128 + r.type) ++ toLe 1 r.flags ++ toLe 4 r.resultLen
    ++ toLe 8 r.correlation.toNat ++ toLe 8 r.seq ++ toLe 4 r.value ++ toLe 2 r.sqId
  h ++ toLe 2 (crc16 h).toNat

/-- The 128 bytes of a ledger record (R79). -/
def recBytes (r : LRec) : List Byte :=
  toLe 8 r.seq ++ toLe 8 r.time ++ toLe 2 r.tenant ++ toLe 2 r.sq ++ toLe 1 r.cls ++ toLe 1 r.state ++ toLe 2 r.handler
    ++ toLe 8 r.correlation ++ toLe 8 r.affinity ++ toLe 2 r.status ++ toLe 2 r.place ++ toLe 4 r.attempt
    ++ slice r.inDigest 0 32 ++ slice r.outDigest 0 32 ++ toLe 8 r.tide ++ toLe 8 r.chain

/-- PLACE as 16 bits: basin 13:12, pier 11:8, pair 4:0 (R79). -/
def placeWord (p : Place) : Nat := p.basin % 4 * 4096 + p.pier % 16 * 256 + p.pair % 32

end Sys2Proof.Machine
end

