-- ==== Sys2Proof/Config.lean ====
section
/-! DEFINITION. What an implementation fixes and the free values: constants without a body. -/

namespace Sys2Proof.Config

/-- A byte the spec leaves open, by the step counter of State.freeCtr (log entry 8). -/
opaque freeByte : Nat → Byte
/-- Whether a new register of a call reads 0 rather than what an earlier frame left there (R131), by draw and register. -/
opaque freshZero : Nat → Nat → Bool
/-- The home basin, modulo 4, of a physical address (log entry 11). -/
opaque basinOfPA : Nat → Nat
/-- The island whose registers a physical address of DEVICE memory names (log entry 11). -/
opaque islandOfPA : Nat → Nat
/-- The partition and the offset in its range, as partition × 2^20 + offset, that hold a physical address, for a value of
PART_LOG2 (R67; log entry 11). -/
opaque ledgerOfPA : Nat → Nat → Option Nat
/-- The berth runtime's value of a system register of a thread when it enters a handler, by selector (R98; log entry 14). -/
opaque runtimeReg : Nat → Nat → Word
/-- The far address of the source window of a thread (R101; log entry 14). -/
opaque sourceVA : Nat → Pair
/-- The far address of the destination window of a thread (R101; log entry 14). -/
opaque destVA : Nat → Pair

/-- SM3 (GB/T 32905) of a byte string, as the big-endian number of its digest (log entry 10). -/
opaque sm3 : List Byte → BitVec 256
/-- HMAC-SM3 of a key and a message (log entry 10). -/
opaque hmacSm3 : List Byte → List Byte → BitVec 256

/-- AES (FIPS 197) of a block under a key of 16, 24 or 32 bytes, and its inverse (log entry 10). -/
opaque aesEnc : List Byte → BitVec 128 → BitVec 128
opaque aesDec : List Byte → BitVec 128 → BitVec 128
/-- SM4 (GB/T 32907) of a block, and its inverse (log entry 10). -/
opaque sm4Enc : List Byte → BitVec 128 → BitVec 128
opaque sm4Dec : List Byte → BitVec 128 → BitVec 128
/-- DES (the single block cipher under TDEA) of a block under a key of 8 bytes, and its inverse (log entry 10). -/
opaque desEnc : List Byte → BitVec 64 → BitVec 64
opaque desDec : List Byte → BitVec 64 → BitVec 64
/-- SM3 of data continued from a state area that CP2 did not write (log entry 15). -/
opaque sm3From : List Byte → List Byte → BitVec 256
/-- Status word of a CP1 or CP2 request whose data the thread may not access, by a counter (log entry 8). -/
opaque accessStatus : Nat → Word
/-- The device root key and the identity seed in OTP (R233, R299, R446). -/
opaque deviceRoot : BitVec 256
/-- A working key of DUKPT-AES by the base key, the 12-byte KSN, the key usage indicator and the algorithm (ANSI X9.24-3; log
entry 10). -/
opaque dukptKey : List Byte → List Byte → Nat → Nat → List Byte
/-- The key bytes inside an X9.143 key block that authenticates under a protection key, else none (log entry 10). -/
opaque openKeyBlock : List Byte → List Byte → Option (List Byte)
/-- The X9.143 key block of a header of 16 characters, optional blocks and key bytes under a protection key (log entry 10). -/
opaque sealKeyBlock : List Byte → List Byte → List Byte → Nat → List Byte
/-- Curve and modulus bits of an asymmetric private key inside a key block (log entry 10). -/
opaque asymKind : List Byte → Nat × Nat
/-- UTC characters of a TS optional block for a harbour time (R245; log entry 10). -/
opaque utcText : Nat → List Byte
/-- The card master key of EMV Book 2 Annex A1.4 by issuer key, PAN and PSN, and the common session key by ATC (R286). -/
opaque emvMaster : List Byte → List Byte → Nat → List Byte
opaque emvSession : List Byte → Nat → List Byte
/-- Signature of VARIANT, AUX, private key and source with a fresh secret drawn by a counter (R290, R291; log entry 10). -/
opaque pkSign : Nat → Nat → List Byte → List Byte → Nat → List Byte
/-- The verification equation of VARIANT, AUX, public key, source and signature (R291, R292; log entry 10). -/
opaque pkVerify : Nat → Nat → List Byte → List Byte → List Byte → Bool
/-- SM2 encryption and decryption (GB/T 32918.4): C1 ‖ C3 ‖ C2 of a plaintext with a fresh secret, and the plaintext where C3
verifies (R293; log entry 10). -/
opaque sm2Encrypt : List Byte → List Byte → Nat → List Byte
opaque sm2Decrypt : List Byte → List Byte → Option (List Byte)
/-- A private key of a curve (1 SM2, 2 P-256, 3 P-384) or of an RSA modulus size drawn by a counter, and the public key of a
private key (R256; log entry 10). -/
opaque newPrivate : Nat → Nat → Nat → List Byte
opaque publicOf : Nat → Nat → List Byte → List Byte
/-- x ‖ y lies on a curve (R292). -/
opaque onCurve : Nat → List Byte → Bool

/-- The identity public key x ‖ y (R303). -/
opaque identityPublic : List Byte
/-- UNIT: SM3 of the identity public key (R303). -/
def unit : BitVec 256 := sm3 identityPublic
/-- The member has the room of R485 for a ledger area of a size in GiB and the LEDGERED ranges of the four basins (log entry 8). -/
opaque mirrorRoom : Nat → List Nat → Bool
/-- Public key x ‖ y of the tide key of an EPOCH (R299). -/
opaque tidePublic : Nat → BitVec 512
/-- SM2 signature by the tide key of an EPOCH over a body, with its per-message secret drawn by a counter (R290, R297). -/
opaque tideSignature : Nat → List Byte → Nat → BitVec 512

/-- The coded form under RFC 1951 of one input block of a class and effort, with dynamic codes or not, BFINAL or not, closed on
a byte boundary by its empty stored block (R323, R325; log entry 10). -/
opaque deflateBlock : Nat → Bool → Bool → List Byte → List Byte
/-- The value of 8 bytes of host memory that the host has written, as a read of an address finds them; the counter tells
reads apart (log entry 8). -/
opaque hostWord : Nat → Nat → BitVec 64

/-- CODE of the degraded Logbook entries for which the spec names none: 0 a regulator that does not answer (R500), 1 a failed
start-up test (R423); log entry 8. -/
opaque degradedCode : Nat → Nat
/-- CLASS of an ISLAND_RESET entry by its cause (R355; log entry 8). -/
opaque resetClass : Nat → Fin 3
/-- The code of a device state that source 0x802 carries: 0 Full, 1 Calm, 2 Doldrums (R357; log entry 8). -/
opaque stateCode : Nat → Nat
/-- The rail voltage in mV of a basin for a berth clock in MHz: each part's own table (R500). -/
opaque railMv : Nat → Nat → Nat
/-- The trimmed target of VDD_HARB in mV (R499, R500). -/
opaque harbMv : Nat
/-- A HARB_RESET# pulse of 200 ns to 1 µs resets (R496; log entry 8). -/
opaque shortReset : Nat → Bool

/-- Manifest and component images that the factory wrote into slot 0 (R427; log entry 7). -/
opaque factoryManifest : List Byte
opaque factoryImages : List (List Byte)
/-- CHAIN_HASH in OTP: SM3 of the vendor chain (R304, R446). -/
opaque chainHash : BitVec 256
/-- Channel, bank and row of a physical address in its stack, and the spare rows of a bank (R351; log entry 11). -/
opaque hbmRow : Nat → Nat × Nat × Nat
opaque rowSpares : Nat
/-- A physical address lies in a ledger area (R84; log entry 11). -/
opaque inLedgerArea : Nat → Bool
/-- Row of R220 that the Logbook names for a checkstop made by ERROR_INJECT (R354; log entry 8). -/
opaque injectedTrigger : Nat
/-- The SIGNER certificate chains to the vendor root with the firmware-signing usage, and its public key (R430; log entry 10). -/
opaque signerOk : List Byte → Bool
opaque signerKey : List Byte → List Byte
/-- An owner signature over a message verifies under the owner key whose SM3 is given (R430; log entry 10). -/
opaque ownerSigOk : List Byte → List Byte → List Byte → Bool
/-- Manifest component ID by place in the switching order of R440, for all but BERTH_RUNTIME (R98; log entry 11). -/
opaque componentId : Nat → Nat
/-- The vendor chain in flash, and its identity certificate names the derived identity public key (R304). -/
opaque vendorChain : List Byte
opaque chainKeyOk : Bool
/-- SM2 signature by the identity key over a certificate body, with its per-message secret drawn by a counter (R300). -/
opaque identitySignature : List Byte → Nat → BitVec 512
/-- The verification data of FINISH agree with a transcript (R306; log entry 10). -/
opaque finishOk : List Byte → List Byte → Bool
/-- How many handlers HANDLER_LOAD finds room for (R464, R470; log entry 8). -/
opaque handlerRoom : Nat
/-- A retry of reading an HBM stack succeeds, by a counter (R350; log entry 8). -/
opaque hbmRetry : Nat → Bool
/-- The store slot of the first live journal record that a host region at a base fails, by a counter (R512; log entry 8). -/
opaque regionFails : Nat → Nat → Option Nat

end Sys2Proof.Config
end

