-- ==== Sys2Proof/Machine/CacheTypes.lean ====
section
/-! DEFINITION. The state of the caches and of basin coherence (08). -/

namespace Sys2Proof.Machine

/-- Stable line states of L1, L2 and L3 (R209). The transient states IS_D, IM_D and SM_G of R210 are outstanding requests
(CohReq); MI_W, OI_W and EI_W are entries of the eviction buffer (Evict). -/
inductive LState where
  | m | o | e | s | i
  deriving DecidableEq, Repr

/-- A line in one way of a cache (R193, R196). -/
structure Line where
  state : LState := .i
  /-- Physical address divided by 64. -/
  line : Nat := 0
  data : BitVec 512 := 0
  age : Nat := 0
  poisoned : Bool := false
  deriving DecidableEq, Repr

/-- A cache: its ways, by set × ways + way. -/
abbrev Cache := Table Line

/-- An entry of the eviction buffer: MI_W, OI_W or EI_W by its state (R210, R217). -/
structure Evict where
  line : Nat
  state : LState
  data : BitVec 512
  poisoned : Bool := false
  /-- The tag of its Put, once sent. -/
  tag : Option Nat := none
  /-- A forward has been answered from it: its Put is stale (R217). -/
  stale : Bool := false
  deriving DecidableEq, Repr

/-- Requests to the home (R211). -/
inductive ReqKind where
  | gets | getm | upgr | iord | iowr | amo
  deriving DecidableEq, Repr

/-- A message of the basin that has been sent and not yet received (R211). -/
inductive CohMsg where
  /-- Data from the home with the granted state. -/
  | data (agent line tag : Nat) (st : LState) (d : BitVec 512) (poison : Bool)
  | fwdGetS (owner line : Nat) (req : Nat) (tag : Nat)
  | fwdGetM (owner line : Nat) (req : Nat) (tag : Nat)
  | inv (agent line : Nat)
  | grant (agent line tag : Nat)
  | nack (agent line tag : Nat) (kind : ReqKind)
  | wback (agent line tag : Nat)
  | wbstale (agent line tag : Nat)
  /-- Cache-to-cache data with the granted state. -/
  | fwdData (agent line tag : Nat) (st : LState) (d : BitVec 512) (poison : Bool)
  /-- Forward done: the owner's new state, with data in a recall. -/
  | fwdAck (owner line : Nat) (st : LState) (d : Option (BitVec 512)) (poison : Bool)
  | invAck (agent line : Nat)
  deriving DecidableEq, Repr

/-- An outstanding request of an agent (R198, R215). -/
structure CohReq where
  agent : Nat
  line : Nat
  tag : Nat
  kind : ReqKind
  nacks : Nat := 0
  /-- Harbour ns at which it was sent. -/
  sent : Nat := 0
  /-- Harbour ns from which a Nacked request may be sent again. -/
  retryAt : Option Nat := none
  /-- What has arrived: the granted state, the data and its poison (R210). -/
  got : Option (LState × BitVec 512 × Bool) := none
  /-- M is taken only with a Grant, and the Grant has arrived (R212). -/
  needGrant : Bool := false
  granted : Bool := false
  /-- The fill is doomed (R208). -/
  doomed : Bool := false
  /-- Offset and bytes of an IOWr. -/
  off : Nat := 0
  bytes : List Byte := []
  deriving DecidableEq, Repr

/-- Directory states (R210). -/
inductive DirState where
  | di | ds | de | dO
  /-- Busy, with the state to return to and what is awaited (B_F, B_I, B_A, B_R). -/
  | bF | bI | bA | bR
  deriving DecidableEq, Repr

/-- A directory entry of the home (R210, R215). -/
structure Dir where
  state : DirState := .di
  owner : Nat := 0
  sharers : List Nat := []
  /-- Acknowledgements awaited: agents that owe a FwdAck and agents that owe an InvAck. -/
  oweFwd : List Nat := []
  oweInv : List Nat := []
  /-- The request in progress. -/
  req : Option CohReq := none
  /-- The owner's new state, once its FwdAck has arrived; M says that its dirty copy passed to the requester. -/
  ownerSt : Option LState := none
  /-- Data is to be sent with the Grant (GetM). -/
  withData : Bool := false
  /-- Puts held while a forward to the same agent is outstanding (R217): agent, tag. -/
  heldPuts : List (Nat × Nat) := []
  /-- The reservation queue (R215). -/
  reserve : List Nat := []
  /-- Harbour ns of the oldest snoop. -/
  since : Nat := 0
  deriving DecidableEq, Repr

/-- The result of an agent-4 request, by tag (R212). -/
structure IoResult where
  data : BitVec 512 := 0
  poisoned : Bool := false
  deriving DecidableEq, Repr

/-- The coherence state of a basin. -/
structure Coh where
  l3 : Cache := []
  dir : Table Dir := []
  msgs : List CohMsg := []
  reqs : List CohReq := []
  ioDone : Table IoResult := []
  /-- The arbitration pointer of R216. -/
  arb : Nat := 0
  /-- The value an AMO at the home returned, by agent (R214). -/
  amoOld : Table Nat := []
  deriving DecidableEq, Repr

/-- The cache registers and caches of a pier (R201, R193, R217). -/
structure PierCache where
  l2En : Bool := true
  lockWays : Nat := 0
  lockRefused : Nat := 0
  pinnedEvict : Nat := 0
  l1dEn : BitVec 18 := 0x3FFFF
  l1iEn : BitVec 18 := 0x3FFFF
  l2 : Cache := []
  /-- Lines of each core's L1D and L1I, by pair × 2 + core, then set × 4 + way. -/
  l1d : Table Cache := []
  l1i : Table Cache := []
  evict : List Evict := []
  deriving DecidableEq, Repr

end Sys2Proof.Machine
end

