-- ==== Sys2Proof/Machine/DeviceTypes.lean ====
section
/-! DEFINITION. The state of islands, ports, functions and engine jobs (10, 11, 12, 15, 16). -/

namespace Sys2Proof.Machine

/-- A clock island (R411 to R420). -/
structure Island where
  /-- STATE: 0 OFF, 1 RETAIN, 2 SLACK, 3 ON. -/
  state : Nat := 0
  reset : Bool := false
  out : Bool := false
  /-- TEST: 0 none, 1 pass, 2 fail (R420). -/
  test : Nat := 0
  resets : Nat := 0
  stretch : Nat := 0
  targetMhz : Nat := 0
  currentMhz : Nat := 0
  overrun : Bool := false
  resync : Bool := false
  disagree : Nat := 0
  drops : Nat := 0
  voltMv : Nat := 0
  temp : Nat := 0
  droops : Nat := 0
  /-- The island's clock is stretched until the supply has recovered (R409). -/
  stretched : Bool := false
  /-- Harbour ns from which a stretched clock may be released. -/
  stretchAt : Option Nat := none
  /-- The credits of its crossings are granted (R413). -/
  credits : Bool := false
  deriving DecidableEq, Repr

/-- An entry of an MSI-X table (R367): its message as the host has written it, its mask and its held bit. -/
structure Msix where
  addr : Nat := 0
  data : Nat := 0
  masked : Bool := true
  held : Bool := false
  sent : Nat := 0
  deriving DecidableEq, Repr

/-- A PCIe port and its PF0 (15). -/
structure PortState where
  link : Bool := false
  perst : Bool := true
  /-- The D-state of PF0 and its Bus Master Enable. -/
  dstate : DState := .d0
  bme : Bool := false
  vfMse : Bool := false
  vfEnable : Bool := false
  numVFs : Nat := 0
  pmeEn : Bool := false
  pmeStatus : Bool := false
  /-- ATS enabled for PF0, and the pages the port holds translations of (R400). -/
  ats : Bool := false
  atsCache : List Nat := []
  invalidations : Nat := 0
  aspmEn : Bool := false
  l1 : Bool := false
  /-- Harbour ns of the last TLP. -/
  lastTlp : Nat := 0
  /-- DMA reads outstanding. -/
  dma : Nat := 0
  aerInternal : Bool := false
  wake : Bool := false
  /-- Requests answered with Request Retry Status until service (R425). -/
  crs : Bool := true
  msix : Table Msix := []
  /-- PM_PME messages sent, or WAKE# assertions made, since PF0 left D0 (R368). -/
  pmeSent : Nat := 0
  deriving DecidableEq, Repr

/-- TDISP interface states (R404, R405). -/
inductive Tdisp where
  | unlocked | locked | run | error
  deriving DecidableEq, Repr

/-- The VF of a tenant on one port (15). -/
structure Vf where
  dstate : DState := .d0
  bme : Bool := false
  tdisp : Tdisp := .unlocked
  /-- The nonce that START_INTERFACE_REQUEST must carry (R404). -/
  tdiNonce : List (BitVec 8) := []
  pmeEn : Bool := false
  pmeStatus : Bool := false
  /-- PM_PME messages sent, or WAKE# assertions made, since the function left D0 (R368). -/
  pmeSent : Nat := 0
  ats : Bool := false
  msix : Table Msix := []
  deriving DecidableEq, Repr

/-- Where an engine job stands. -/
inductive JStage where
  /-- A DMA read of its source is outstanding (R26). -/
  | reading
  /-- It waits for a lane context (R274). -/
  | context
  /-- Its keys and drawn value are asked of the Strongroom (R222, R248). -/
  | key
  /-- It waits for an engine, or runs on it. -/
  | ready
  | running (unit : Nat)
  /-- Zeros are being written over streamed plaintext (R278). -/
  | scuttle
  | done
  deriving DecidableEq, Repr

/-- An engine job: of CP3 for a thread, or of a built-in consignment (R58, R115, R274, R288, R323). -/
structure Job where
  /-- LEDGER_SEQ of the consignment it acts for (R20), its attempt and its tenant. -/
  seq : Nat := 0
  attempt : Nat := 1
  tenant : Nat := 0
  /-- The thread and mailbox entry, for a job of CP3. -/
  th : Option ThreadId := none
  mbox : Nat := 0
  /-- Index of the built-in handler whose operation it is. -/
  fn : Nat := 0
  variant : Nat := 0
  keyA : Nat := 0xFFFFFFFF
  keyB : Nat := 0xFFFFFFFF
  auxLen : Nat := 0
  aux : Nat := 0
  /-- Its source without the parameter block, once read. -/
  src : List Byte := []
  srcLen : Nat := 0
  /-- IOVA of its destination, or far address for a job of CP3. -/
  dst : Nat := 0
  dstLen : Nat := 0
  stage : JStage := .done
  /-- It has begun on an engine (R110). -/
  started : Bool := false
  /-- Bytes, steps or blocks done. -/
  progress : Nat := 0
  /-- Stops at its next step, quantum or block (R110, R516); its deadline expiry is recorded. -/
  cancelled : Bool := false
  expired : Bool := false
  /-- The value drawn for it (R249). -/
  v : Nat := 0
  ivFixed : Nat := 0
  /-- The keys delivered to it (R222). -/
  kA : List Byte := []
  kB : List Byte := []
  /-- The outcome it ends with: status, result length and engine value. -/
  status : Nat := 0
  resultLen : Nat := 0
  value : Nat := 0
  /-- The result, once computed, and how much of it is written to the destination. -/
  result : List Byte := []
  written : Nat := 0
  /-- Destination bytes that earlier runs of it have written (R278). -/
  dirty : Nat := 0
  chained : Bool := false
  /-- Its end is reached and waits for BUILTIN_JOB_END or JOB_POSTED. -/
  finished : Bool := false
  /-- Its place in the order of the wait for a context, of a ready list, or of the waiting jobs. -/
  since : Nat := 0
  deriving DecidableEq, Repr

/-- The standing of a berth pair (R15, R338, R342). -/
inductive PairUse where
  | spare | busy | retired
  deriving DecidableEq, Repr

/-- A berth pair. -/
structure Pair18 where
  use : PairUse := .spare
  /-- Harbour ns of the events it passed its self-test after (R338). -/
  passes : List Nat := []
  /-- Harbour ns of its last comparator test while a spare in SLACK (R344). -/
  tested : Nat := 0
  deriving DecidableEq, Repr

/-- A berth position of a pier (R15, R122, R338, R340). -/
structure Position where
  pair : Option Nat := none
  split : Bool := false
  /-- A mismatch event is open: the tries made (R338). -/
  event : Option Nat := none
  /-- The event was opened by an injection (R354). -/
  injected : Bool := false
  /-- Threads that have not passed a retry point since the last restore (R338). -/
  notPassed : List Nat := []
  /-- The berth is stopped for a self-test (R338). -/
  selfTest : Bool := false
  /-- A hand-over of the berth is wanted: the reason of PAIR_RETIRED, and the harbour ns of the request (R340). -/
  handover : Option (Nat × Nat) := none
  /-- A split (true) or a join (false) drains the berth (R122): with its mailbox port. -/
  reconf : Option (Bool × Port) := none
  /-- The pair is to be retired once its threads have ended (R342): the mailbox port. -/
  retiring : Option Port := none
  /-- It drains for the runtime swap (R441). -/
  swapping : Bool := false
  deriving DecidableEq, Repr

/-- The shared island of a pier but for its caches (R15, R111, R338, R345, R363). -/
structure Pier where
  pos : Vector Position 16 := Vector.replicate 16 {}
  pairs : Vector Pair18 18 := Vector.replicate 18 {}
  /-- Queues of CP0, CP1 and CP2: thread numbers of the pier in arrival order (R111). -/
  cpq : Vector (List Nat) 3 := Vector.replicate 3 []
  /-- PIER_EVQ_BASE, HEAD and TAIL (R363), the pass of its next record, and records that wait. -/
  evqBase : Nat := 0
  evqHead : Nat := 0
  evqTail : Nat := 0
  evqPhase : Bool := true
  /-- The program a request in service of CP0 runs with, where FORMAT_LOAD has replaced it meanwhile (R314). -/
  oldFormat : Option (List Byte) := none
  /-- Number of the pier-internal key of CP2's sealed state areas; it changes at every reset of the island (R270). -/
  sealGen : Nat := 0
  /-- The pier is in Calm (R415), and the harbour ns from which its threads are all free. -/
  calm : Bool := false
  idleSince : Nat := 0
  /-- The berth position the runtime swap has come to, and the pair loaded for it (R441). -/
  swap : Nat := 16
  loaded : Option Nat := none
  deriving DecidableEq, Repr

/-- What a state area that CP2 has written stands for (R270): its bytes, the sealing pier and key number for HMAC_SM3, the
HMAC key, and the data hashed so far (log entry 15). -/
structure HashArea where
  area : List Byte
  hmac : Bool := false
  pier : Nat := 0
  gen : Nat := 0
  key : List Byte := []
  msg : List Byte := []
  deriving DecidableEq, Repr

/-- A key-set slot of a port: one IDE stream (R402). -/
structure IdeSlot where
  used : Bool := false
  /-- A link stream; else a selective one with its range of functions, PF0 being 0 and VF k being k. -/
  link : Bool := false
  first : Nat := 0
  last : Nat := 1024
  /-- The stream is in the Secure state. -/
  secure : Bool := false
  /-- Keys programmed, by key set, direction and sub-stream (R402). -/
  keys : Table (List (BitVec 8)) := []
  deriving DecidableEq, Repr

/-- The helm (R384, R385). -/
structure Helm where
  holder : Option Port := none
  /-- The PF0 that holds or last held it (R388). -/
  last : Port := .a
  /-- Harbour ns at which the lease began and at which it expires. -/
  since : Nat := 0
  expiry : Nat := 0
  /-- Source 0xB02 has arrived for this lease. -/
  told75 : Bool := false
  deriving DecidableEq, Repr

end Sys2Proof.Machine
end

