-- ==== Sys2Proof/Machine/HubTypes.lean ====
section
/-! DEFINITION. The state of the event hub, the Logbook and the device as a whole (13, 14, 16, 20). -/

namespace Sys2Proof.Machine

/-- An event source (R358). -/
structure Source where
  en : Bool := false
  kind : Nat := 0
  target : Nat := 0
  prio : Nat := 0
  timeTh : Nat := 1
  countTh : Nat := 1
  pending : Bool := false
  sw : Bool := false
  fired : Bool := false
  count : Nat := 0
  detail : Nat := 0
  /-- Harbour ns at which the window opened, and its TIME_TH (R358, R361). -/
  window : Option (Nat × Nat) := none
  /-- Opening time of the window that fired, and the firing time (R362). -/
  openedAt : Nat := 0
  firedAt : Nat := 0
  deriving DecidableEq, Repr

/-- A Logbook entry (R355). -/
structure LogEntry where
  entry : Nat := 0
  code : Nat := 0
  cls : Nat := 0
  injected : Bool := false
  time : Nat := 0
  island : Nat := 0
  place : Nat := 0xFFFF
  tenant : Nat := 0xFFFF
  repeats : Nat := 0
  seq : Nat := 0
  detail : List Byte := []
  deriving DecidableEq, Repr

/-- The device states (R415, R422, R448, R353). -/
inductive DevSt where
  | off | starting | full | calm | doldrums | waking | slipway | halted
  deriving DecidableEq, Repr

/-- The device as a whole: its state, its pins and its start-up (16, 20). -/
structure Dev where
  st : DevSt := .off
  pwrAon : Bool := false
  pwrCore : Bool := false
  slipwayStrap : Bool := false
  flashOwn : Bool := false
  /-- ALERT#, THERM_TRIP# and GALE_WARN are asserted. -/
  alert : Bool := false
  thermTrip : Bool := false
  galeWarn : Bool := false
  /-- Levels of GPIO[7:0]. -/
  gpio : BitVec 8 := 0
  /-- Consecutive boot failures and the start in progress (R424). -/
  bootFails : Nat := 0
  startInProgress : Bool := false
  startedAt : Nat := 0
  /-- Harbour ns at which a wake completes (R415). -/
  wakeAt : Option Nat := none
  /-- The start-up test of the islands has run since power-on. -/
  tested : Bool := false
  /-- Thermal level: 0 normal, 1 GALE, 2 STORM (R418). -/
  thermal : Nat := 0
  gales : Nat := 0
  lastGale : Nat := 0
  /-- Harbour ns since which every temperature is 5 degrees below GALE_SET (R418). -/
  coolSince : Option Nat := none
  /-- Harbour ns at which the conditions of Doldrums last changed (R415). -/
  busyAt : Nat := 0
  /-- ENTER_SLIPWAY or a Slipway command asks for the Slipway at the next start (R449). -/
  slipCmd : Bool := false
  /-- The settings bank in force since the last start-up (R446, R447). -/
  bank : List (BitVec 8) := []
  /-- The next Logbook entries carry FLAGS.INJECTED (R354). -/
  injecting : Bool := false
  deriving DecidableEq, Repr

/-- One-time-programmable memory as the Harbour reads and burns it (R446). -/
structure Otp where
  /-- 0 MANUFACTURED, 1 PROVISIONED, 2 DEPLOYED, 3 DECOMMISSIONED. -/
  lifecycle : Nat := 2
  /-- OWNER_HASH generations burnt: 32 bytes each (R305). -/
  owners : List (List Byte) := []
  /-- The four anti-rollback thermometers, as their values. -/
  arb : List Nat := [0, 0, 0, 0]
  /-- SETTINGS generations burnt. -/
  settings : List (List Byte) := []
  deriving DecidableEq, Repr

/-- A mailbox response (R455). -/
structure MbResp where
  status : Nat := 0
  dma : Bool := false
  tag : Nat := 0
  detail : Nat := 0
  body : List Byte := []
  deriving DecidableEq, Repr

/-- A mailbox command in progress (R460, R461): what its response and its time limit need. -/
structure MbRun where
  opcode : Nat
  tag : Nat := 0
  dma : Bool := false
  space : Nat := 4080
  /-- The OUT segments of its response (R457). -/
  outs : List OutSeg := []
  /-- It has no commit step (R461). -/
  readOnly : Bool := false
  since : Nat := 0
  /-- Past its commit step (R461). -/
  committed : Bool := false
  /-- The tenant, handle, pair or basin it waits for, and a count its response carries. -/
  arg : Nat := 0
  aux : Nat := 0
  /-- Its time limit in ms (R461). -/
  limitMs : Nat := 10000
  /-- The request, where it still has to act: once the Pilot runs (R462), once its DC_SEQ is journalled (R257), or once what it
  reads exists. -/
  req : Option MbReq := none
  /-- Checks 1 to 7 of R459 have passed. -/
  checked : Bool := false
  dc : Option Nat := none
  /-- The Pilot restarted before the commit step (R462). -/
  lost : Bool := false
  deriving DecidableEq, Repr

/-- The mailbox of a PF0 (R452 to R457). -/
structure Mailbox where
  /-- STATE: 0 STARTING, 1 READY, 2 BUSY, 3 DONE. -/
  st : Nat := 0
  ignored : Nat := 0
  irqEn : Bool := false
  iovaHi : Nat := 0
  /-- The request buffer. -/
  buf : Table (BitVec 8) := []
  resp : Option MbResp := none
  run : Option MbRun := none
  deriving DecidableEq, Repr

end Sys2Proof.Machine
end

