-- ==== Sys2Proof/Machine/KeyTypes.lean ====
section
/-! DEFINITION. The state of the Strongroom: keys, labels, the key journal, components and requests (09). -/

namespace Sys2Proof.Machine

/-- Key attributes (KATTR, R469). -/
structure KAttr where
  /-- Two ASCII bytes, the first in bits 7:0. -/
  usage : Nat := 0
  /-- ASCII of the algorithm, of the mode and of the exportability. -/
  alg : Nat := 0
  mode : Nat := 0
  exp : Nat := 0
  /-- 0 none, 1 SM2, 2 P-256, 3 P-384. -/
  curve : Nat := 0
  bits : Nat := 0
  capLog2 : Nat := 0
  monotonic : Bool := false
  /-- IV_FIXED bytes 0 to 2 as a number. -/
  ivFixed : Nat := 0
  deriving DecidableEq, Repr

/-- A write of a key store record that waits for its flushing read (R227, R401). -/
structure StoreWrite where
  port : Port := .a
  xlatRetry : Bool := false
  deriving DecidableEq, Repr

/-- A stored key or a tenant root (R225, R251). -/
structure Key where
  attr : KAttr := {}
  /-- Key bytes; for a public key, x ‖ y or modulus and exponent. -/
  value : List Byte := []
  /-- Key version number of its block (R245). -/
  version : Nat := 0
  /-- STATE of KEY_QUERY: 0 ACTIVE, 1 RETIRED_CAP, 2 RETIRED_GENERATE, 3 RETIRED_ALL. -/
  state : Nat := 0
  counter : Nat := 0
  /-- The journalled high-water mark, and the mark of a reservation record that is queued (R253). -/
  high : Nat := 0
  asked : Nat := 0
  /-- It is in a slot or in the spill area, so that no cold load is needed (R226, R230). -/
  resident : Bool := true
  /-- A public key (KEY_IMPORT_BLOCK format 2). -/
  isPublic : Bool := false
  /-- Its creation has completed (R229). -/
  live : Bool := false
  /-- Its destruction has begun (R252). -/
  dying : Bool := false
  /-- The state its newest journal record names; none before its first is journalled. -/
  journalled : Option Nat := none
  /-- A store write that is not yet confirmed, and whether a key record of it is queued and not yet journalled. -/
  store : Option StoreWrite := none
  recQueued : Bool := false
  /-- The port of the mailbox command that waits for both (R229). -/
  cmd : Option Port := none
  deriving DecidableEq, Repr

/-- A record of the key journal (R228). -/
inductive JRec where
  /-- The state of a key; 4 is destroyed. -/
  | key (handle state : Nat)
  | reserve (handle high : Nat)
  /-- A tenant label, empty where it is destroyed. -/
  | label (tenant : Nat) (text : List Byte)
  | dcSeq (n : Nat)
  /-- A new EPOCH of the tide key (R299). -/
  | epoch (n : Nat)
  deriving DecidableEq, Repr

/-- A component sequence in progress (R247). -/
structure Comps where
  target : Nat
  count : Nat
  parts : Table (List Byte) := []
  attr : KAttr := {}
  /-- Harbour ns of the first component. -/
  since : Nat := 0
  deriving DecidableEq, Repr

/-- An entry of the monotonic table (R240, R241). -/
structure Mono where
  handle : Nat
  keyId : Nat
  counter : Nat
  seq : Nat
  deriving DecidableEq, Repr

/-- What a request to the Strongroom is for (R222). -/
inductive SKind where
  /-- A key function of CP1 for a thread: its function and its block. -/
  | cp1 (th : ThreadId) (cfn : Nat) (block : List Byte) (ins : List (List Byte))
  /-- The keys and the drawn value of an engine job. -/
  | job (id : Nat)
  deriving DecidableEq, Repr

/-- What a parked request waits for. -/
inductive SWait where
  | none
  /-- The cold load of a key (R230). -/
  | load (handle : Nat)
  /-- The reservation of counter values (R253). -/
  | journal (handle : Nat)
  deriving DecidableEq, Repr

/-- A request with the tags of R263. -/
structure SReq where
  kind : SKind
  seq : Nat
  restarts : Nat := 0
  wait : SWait := .none
  deriving DecidableEq, Repr

/-- A delivery over the key bus (R222, R263): the slots it fills, with the request it answers. -/
structure SRun where
  req : SReq
  /-- The stored keys it uses (R252). -/
  uses : List Nat := []
  /-- Slots of the thread with their new contents. -/
  slots : List (Nat × KeySlot) := []
  /-- For a job: its keys, the drawn value and IV_FIXED. -/
  kA : List Byte := []
  kB : List Byte := []
  v : Nat := 0
  ivFixed : Nat := 0
  /-- Bytes to be written at a far address with the status (KEY_WRAP). -/
  out : Option (Nat × List Byte) := none
  deriving DecidableEq, Repr

/-- The Strongroom. -/
structure Sroom where
  keys : Table Key := []
  labels : Table (List Byte) := []
  /-- Base of the host key store since KEYSTORE_CONFIGURE (R227, R512). -/
  base : Option Nat := none
  /-- The last DC_SEQ accepted (R257). -/
  dcSeq : Nat := 0
  /-- The open journal batch, the harbour ns of its first record, and the pages being programmed, oldest first (R228). -/
  openRecs : List JRec := []
  openAt : Nat := 0
  pages : List (List JRec) := []
  comps : Option Comps := none
  /-- The monotonic table, the entry updated least recently first. -/
  mono : List Mono := []
  /-- Requests in arrival order, requests that wait, and deliveries under way (R222). -/
  queue : List SReq := []
  parked : List SReq := []
  runs : Table SRun := []
  nextRun : Nat := 1
  deriving DecidableEq, Repr

end Sys2Proof.Machine
end

