-- ==== Sys2Proof/Machine/MgmtTypes.lean ====
section
/-! DEFINITION. The state of power policy, time discipline, wardens, the configuration store, firmware and the test port
(14, 16, 17, 18, 20). -/

namespace Sys2Proof.Machine

/-- POWER_POLICY_SET with its defaults (R351, R370, R372, R415, R417, R418, R472). -/
structure Policy where
  doldrumsEn : Bool := false
  l0pEn : Bool := false
  calmIdleUs : Nat := 50
  doldrumsIdleMs : Nat := 10
  berthMin : Nat := 1400
  berthMax : Nat := 2400
  galeSetC : Nat := 100
  scrubHours : Nat := 24
  voltPct : Nat := 5
  tempBelowGale : Nat := 10
  droopsPerMs : Nat := 16
  /-- Harbour ns of the four alarms; 0 is disarmed (R372). -/
  alarms : List Nat := [0, 0, 0, 0]
  deriving DecidableEq, Repr

/-- A TIME_SET that waits for the next PPS_IN edge (R465): its port, the time and the inputs it selects. -/
structure PpsSet where
  port : Port
  time : Nat
  ppsEn : Bool
  tenEn : Bool
  deriving DecidableEq, Repr

/-- The discipline of the harbour clock (R465, R497, R498). -/
structure Disc where
  ppsEn : Bool := false
  tenEn : Bool := false
  /-- Timer ns of the last PPS_IN edge, and what the harbour clock read there, in ps. -/
  lastPps : Option Nat := none
  ppsHarb : Int := 0
  locked : Bool := false
  tenLost : Bool := false
  waiting : Option PpsSet := none
  /-- What is still to be slewed, in ps. -/
  slew : Int := 0
  deriving DecidableEq, Repr

/-- The warden of a basin: its berth clock and its rail (R408, R500). -/
structure Warden where
  mhz : Nat := 2000
  /-- The last voltage its regulator acknowledged, in mV. -/
  railMv : Nat := 750
  /-- The AVSBus command under way: the clock that goes with it and the voltage (R408). -/
  avs : Option (Nat × Nat) := none
  /-- AVSBus commands retried so far (R500). -/
  retries : Nat := 0
  /-- The regulator does not answer: the clock stays at or below 2.0 GHz (R500). -/
  capped : Bool := false
  deriving DecidableEq, Repr

/-- What the configuration store keeps of a tenant (R426). -/
structure StoredTenant where
  ports : Nat := 0
  quota : Nat := 0
  classes : Table Nat := []
  deriving DecidableEq, Repr

/-- The configuration store (R426). -/
structure Conf where
  tenants : Table StoredTenant := []
  parts : Table (Option Nat) := []
  policy : Policy := {}
  watch : Table Nat := []
  /-- LEDGER_CONFIGURE without its host region. -/
  cfg : LedgerCfg := {}
  deriving DecidableEq, Repr

/-- An installed set: the manifest and the twelve images (R429). -/
structure FwSet where
  manifest : List Byte := []
  images : List (List Byte) := []
  deriving DecidableEq, Repr

/-- What a flash slot holds (R427): the factory image, nothing, or a set. -/
inductive Slot where
  | factory
  | empty
  | held (x : FwSet)
  deriving DecidableEq, Repr

/-- Firmware staging and activation (R428, R434 to R442). -/
structure Fw where
  /-- 0 IDLE, 1 STAGING, 2 STAGED, 3 ARMED, 4 SWITCHING, 5 PROBATION, 6 CONFIRMED (R438). -/
  phase : Nat := 0
  slot0 : Slot := .factory
  slot1 : Slot := .empty
  /-- The boot record: the active slot, its generation, and levels still to be burnt (R428). -/
  active : Nat := 0
  gen : Nat := 1
  burn : List Nat := []
  /-- The set that runs. -/
  running : Slot := .factory
  /-- The set that ran before it, which a revert returns to. -/
  previous : Slot := .factory
  len : Nat := 0
  bytes : Bytes := []
  /-- Ranges of the package that have been written: offset and length (R435). -/
  written : List (Nat × Nat) := []
  /-- The package came by PLDM (R445). -/
  pldm : Bool := false
  limitS : Nat := 600
  /-- Harbour ns at which ARMED, the present switching step, and PROBATION began. -/
  since : Nat := 0
  near : Bool := false
  /-- Components still to be switched, in the order of R440, and those already switched. -/
  todo : List Nat := []
  done : List Nat := []
  deriving DecidableEq, Repr

/-- The PLDM update in progress (R445). -/
structure Pldm where
  /-- 0 idle, 1 RequestUpdate, 2 PassComponentTable, 3 UpdateComponent, 4 applied. -/
  st : Nat := 0
  /-- The completion code of the last request: 0 success, 0x81 ALREADY_IN_UPDATE_MODE, else an error of the form 2. -/
  code : Nat := 0
  deriving DecidableEq, Repr

/-- The states of the IEEE 1149.1 TAP controller (R495). -/
inductive Tap where
  | testLogicReset | runTestIdle | selectDr | captureDr | shiftDr | exit1Dr | pauseDr | exit2Dr | updateDr
  | selectIr | captureIr | shiftIr | exit1Ir | pauseIr | exit2Ir | updateIr
  deriving DecidableEq, Repr

/-- The states of an SPDM secure session (R306). -/
inductive SpdmSt where
  | handshake | established
  deriving DecidableEq, Repr

/-- A secure session: its state, how often its keys have been updated, and the harbour ns of its last message. -/
structure SpdmSession where
  st : SpdmSt := .handshake
  updates : Nat := 0
  heard : Nat := 0
  deriving DecidableEq, Repr

/-- The SPDM responder of a port (R306): 0 no connection, 1 version, 2 capabilities, 3 algorithms negotiated; the AEAD chosen, the
transcript, the sessions, and the last response with its code. -/
structure Spdm where
  conn : Nat := 0
  aead : Nat := 0
  transcript : List Byte := []
  sessions : Table SpdmSession := []
  resp : Option (Nat × List Byte) := none
  deriving DecidableEq, Repr

/-- What a DATA flit carries on its way out (R477, R480). -/
inductive TxMsg where
  /-- A ledger record of a basin, with its intake entry or its commit lines (R485). -/
  | record (basin num : Nat)
  /-- The acknowledgement of the records of a basin of a member, below a count. -/
  | ack (basin count : Nat)
  /-- A tide record with RETIRED_TIDE (R489). -/
  | tide (num retired : Nat)
  /-- A heartbeat at a harbour time with a TAKEN mask (R487). -/
  | beat (time taken : Nat)
  /-- A flit of another member, relayed (R486). -/
  | relayed
  deriving DecidableEq, Repr

/-- A DATA flit that waits to be sent, or that the replay buffer holds (R477, R479). -/
structure TxFlit where
  vc : Nat
  origin : Nat
  dest : Nat
  hops : Nat := 0
  msg : TxMsg
  seq : Nat := 0
  /-- Times it has been resent. -/
  resent : Nat := 0
  deriving DecidableEq, Repr

/-- One virtual channel of a link (R480, R481). -/
structure Vc where
  /-- Credits held toward the far end, and the last count received from it. -/
  credit : Nat := 0
  last : Nat := 0
  /-- Flits freed in the receive buffer since it came up: CREDITS of the flits sent. -/
  freed : Nat := 0
  deriving DecidableEq, Repr

/-- A Hawser link (R476 to R482, R484). -/
structure HLink where
  up : Bool := false
  /-- 8 or 4 lanes, 0 while it is down. -/
  lanes : Nat := 0
  /-- A training or retrain is under way, or waits for the replay buffer to empty. -/
  training : Bool := false
  draining : Bool := false
  /-- Harbour ns of the last training or of its failure. -/
  trainedAt : Nat := 0
  /-- The far end's INIT has arrived since the link came up. -/
  init : Bool := false
  vcs : Table Vc := []
  /-- SEQ of the next DATA flit to send and of the next expected; a NAK is outstanding. -/
  txSeq : Nat := 0
  rxSeq : Nat := 0
  nakSent : Bool := false
  queue : List TxFlit := []
  replay : List TxFlit := []
  /-- Harbour ns of the last progress of ACK, and of the NAKs of the last 1 ms. -/
  ackAt : Nat := 0
  naks : List Nat := []
  /-- New flits sent since the last of VC0. -/
  since0 : Nat := 0
  /-- HELLO: 0 not yet exchanged, 1 CONTROL only, 2 no mirroring, 3 all agree. -/
  hello : Nat := 0
  /-- The nonce of this end's HELLO, and the count of distinct DATA flits sent under the session key (R484). -/
  nonce : List Byte := []
  count : Nat := 0
  deriving DecidableEq, Repr

/-- Another member of the roadstead (R487, R488). -/
structure Peer where
  /-- Harbour ns of its last heartbeat. -/
  heard : Option Nat := none
  lost : Bool := false
  /-- Harbour ns since which its heartbeats have been unbroken after the loss. -/
  streak : Option Nat := none
  /-- Its state byte: 0 serving, 1 leaving. -/
  state : Nat := 0
  /-- The finding of the last HELLO with it, and its combination identity (R484). -/
  hello : Nat := 0
  combination : List Byte := []
  deriving DecidableEq, Repr

/-- The roadstead (R483 to R490). -/
structure Road where
  /-- 0 where none is formed. -/
  members : Nat := 0
  units : List (List Byte) := []
  /-- LINKS of ROADSTEAD_JOIN. -/
  links : Nat := 0
  /-- MIRROR: 0 none, 1 in service, 2 refused by version, 3 partner lost. -/
  mirror : Nat := 0
  target : Option Nat := none
  /-- The seed of the target runs (R485). -/
  seed : Bool := false
  /-- Records per basin that must be acknowledged before mirroring is in service, once the seed has ended. -/
  goal : Option (List Nat) := none
  /-- Mirroring was in service before and resumes. -/
  resumes : Bool := false
  peers : Table Peer := []
  /-- Positions that have been taken over, as heard or done, and those taken over here (R487, R489). -/
  taken : Nat := 0
  takenHere : Nat := 0
  /-- This Harbour has been taken over (R490). -/
  selfTaken : Bool := false
  /-- Newest tide sent on VC1. -/
  tideSent : Nat := 0
  /-- Harbour ns of the last heartbeats sent. -/
  beatAt : Nat := 0
  /-- Source 0xD04 has arrived and the count is still above its limit. -/
  told : Bool := false
  deriving DecidableEq, Repr

/-- What a member's mirror area holds of one basin (R485). -/
structure MirrorBasin where
  recs : List LRec := []
  /-- CHAIN count of the next record. -/
  next : Nat := 0
  intake : List (List Byte) := []
  deriving DecidableEq, Repr

/-- The mirror areas of another member, with its tide records (R485, R489). -/
structure Mirror where
  basins : Table MirrorBasin := []
  /-- Replica of the LEDGERED ranges: partition × 2^20 + offset. -/
  lines : Bytes := []
  /-- Tide records received, newest first, and RETIRED_TIDE. -/
  tides : List (Nat × List Byte) := []
  retired : Nat := 0
  deriving DecidableEq, Repr

end Sys2Proof.Machine
end

