-- ==== Sys2Proof/Machine/State.lean ====
section
/-! DEFINITION. The state of the Harbour as plain data, the outcomes other than a next state, and the state at reset. -/

namespace Sys2Proof.Machine

/-- The addressed memories (R67, R99, R101, R140, R470). -/
structure Mem where
  hbm : Bytes := []
  /-- LEDGERED ranges: partition × 2^20 + offset. -/
  ledgered : Bytes := []
  /-- Near segments, by thread. -/
  near : Table Bytes := []
  /-- System near segments, by thread. -/
  sysNear : Table Bytes := []
  /-- Staging buffers, by thread (R101). -/
  staging : Table Bytes := []
  /-- Host memory as the Harbour has written it, by IOVA. -/
  host : Bytes := []
  /-- DEVICE registers the runtime has written, by physical address, where no row of the table names them. -/
  device : Bytes := []
  /-- Lines of HBM that hold poison (R219). -/
  poison : List Nat := []
  /-- Lines of LEDGERED ranges that hold poison: partition × 2^14 + line. -/
  poisonLedger : List Nat := []
  deriving DecidableEq, Repr

/-- The canonical form of the memories: addresses strictly rising, and no entry equal to what an unlisted address reads as
(0; log entry 5), so that equal memories are equal data. -/
def Memory.wf (m : Mem) : Bool :=
  tableWf 0 m.hbm && tableWf 0 m.ledgered && tableWf 0 m.host && tableWf 0 m.device
    && m.near.all (fun e => tableWf 0 e.2) && m.sysNear.all (fun e => tableWf 0 e.2) && m.staging.all (fun e => tableWf 0 e.2)
    && tableWf [] m.near && tableWf [] m.sysNear && tableWf [] m.staging

/-- A basin (R72, R107, R216, R346 to R352). -/
structure Basin where
  inService : Bool := false
  checkstopped : Bool := false
  /-- Its checkstop was injected (R354). -/
  injected : Bool := false
  /-- RESET rather than ADOPT (R347). -/
  policyReset : Bool := false
  /-- Its ranges have a home again after its checkstop (R347, R348). -/
  adopted : Bool := false
  /-- The basin that adopts it while a recovery is in progress (R347). -/
  adopter : Option Nat := none
  hbmReadable : Bool := true
  /-- Dispatches so far, modulo 16 (R71). -/
  dispatches : Nat := 0
  /-- Harbour ns at which its checkstop was recorded. -/
  stoppedAt : Nat := 0
  /-- Harbour ns of the last patrol scrub of its stack (R351). -/
  scrubbed : Nat := 0
  /-- Corrected errors of the last 24 hours by row, with their ns, and rows remapped to spares (R351). -/
  rowHits : List (Nat × Nat) := []
  rowsSpared : List Nat := []
  /-- Holds: partition × 2^14 + line, with the LEDGER_SEQ (R107). -/
  holds : Table Nat := []
  deriving DecidableEq, Repr

/-- The harbour clock and its discipline (R12, R465, R497). -/
structure Clock where
  /-- Time the timers of the Harbour count, in ps; TIME_SET never steps it. -/
  ps : Nat := 0
  /-- What the harbour clock reads beyond it, in ps; a step of TIME_SET changes it (R465, R466). -/
  off : Int := 0x8000000000000000 * 1000
  timeSet : Bool := false
  deriving DecidableEq, Repr

/-- Why a run stops with a fault. No command of the table stops so in this model (log entry 1). -/
inductive Fault where
  /-- Nothing raises it; the type is closed. Safe. -/
  | none
  deriving DecidableEq, Repr

/-- Why a command is refused. -/
inductive Refusal where
  /-- A command that has no meaning yet, by its mnemonic; raised by exec alone. Safe. -/
  | notModelled (mnemonic : String)
  deriving DecidableEq, Repr

/-- The Harbour. -/
structure State where
  /-- The commands that wait, first in first out. -/
  pending : List Instr := []
  clock : Clock := {}
  threads : Table Thread := []
  mem : Mem := {}
  coh : Table Coh := []
  pcache : Table PierCache := []
  piers : Table Pier := []
  basins : Table Basin := []
  parts : Table Part := []
  cons : Table Cons := []
  /-- Descriptors held SLIPPED after their checks, oldest first (R62, R63). -/
  slipped : List Slipped := []
  /-- Free pool of the anchorage (R95, R475). -/
  anchorFree : Nat := 131072
  seqs : SeqCounter := {}
  /-- Acceptances so far, over both halves (R54). -/
  accepted : Nat := 0
  tides : Tides := {}
  tenants : Table Tenant := []
  ledgers : Table Ledger := []
  cfg : LedgerCfg := {}
  dev : Dev := {}
  sources : Table Source := []
  /-- The Logbook, newest first, and the number of its next entry (R355). -/
  log : List LogEntry := []
  logNext : Nat := 1
  /-- Records written for the Pilot (R363). -/
  pilotRing : List EvRec := []
  /-- The event queues of PF0 A and B: port × 32 + number (R363). -/
  pfEqs : Table Eq := []
  /-- The watch set of the Lighthouse: sources by slot (R370). -/
  watch : Table Nat := []
  handlers : Table (List Byte) := []
  /-- Bound handlers: tenant × 65,536 + index to NEAR_BYTES (R470). -/
  bindings : Table Nat := []
  /-- Mirroring to a partner is in service (R78, R485). -/
  duplexReady : Bool := false
  jobs : Table Job := []
  nextJob : Nat := 1
  islands : Table Island := []
  ports : Table PortState := []
  vfs : Table Vf := []
  otp : Otp := {}
  /-- EPOCH of the tide key (R299). -/
  epoch : Nat := 0
  /-- Roadstead position, 0 where there is no roadstead (R483). -/
  position : Nat := 0
  road : Road := {}
  /-- The Hawser links 0 and 1, and the mirrors of other members by position (R476, R485). -/
  hlinks : Table HLink := []
  mirrors : Table Mirror := []
  /-- IDE stream slots, port × 4 + slot (R402). -/
  ide : Table IdeSlot := []
  /-- The SPDM responder by port (R306). -/
  spdm : Table Spdm := []
  helm : Helm := {}
  /-- The mailboxes of the two PF0s (R452). -/
  mailA : Mailbox := {}
  mailB : Mailbox := {}
  policy : Policy := {}
  disc : Disc := {}
  /-- The wardens of the basins (R408). -/
  wardens : Table Warden := []
  conf : Conf := {}
  fw : Fw := {}
  pldm : Pldm := {}
  tap : Tap := .testLogicReset
  sroom : Sroom := {}
  /-- The 256 format slots of Tally (R313). -/
  formats : Table (List Byte) := []
  /-- State areas written by CP2, newest first (log entry 15). -/
  hashAreas : List HashArea := []
  /-- Host address ranges whose translation fails: base and length (log entry 6). -/
  iovaDenied : List (Nat × Nat) := []
  freeCtr : Nat := 0
  deriving DecidableEq, Repr

/-- The state right after reset: the device is off, before its supplies are good (R419, R421, R422; log entry 4), the clock
holds 0x8000_0000_0000_0000 ns (R466), and every field is at its reset value or at the value its log entry names. -/
def State.reset : State := {}

end Sys2Proof.Machine
end

