-- ==== Sys2Proof/Machine/CacheOps.lean ====
section
/-! DEFINITION. Shared operations of the caches and of the coherence of a basin (R193 to R218): lookup, replacement,
fills, the coherent view of a line, and the effects of whole transactions that a thread's access makes. -/

namespace Sys2Proof.Machine

/-- Byte i of a line. -/
def lineByte (d : BitVec 512) (i : Nat) : Byte := d.extractLsb' (8 * i) 8
/-- A line with byte i replaced. -/
def lineSet (d : BitVec 512) (i : Nat) (b : Byte) : BitVec 512 :=
  (d &&& ~~~ ((0xFF#512) <<< (8 * i))) ||| ((b.setWidth 512) <<< (8 * i))
/-- A line with bytes replaced from an offset on. -/
def lineSetBytes (d : BitVec 512) (off : Nat) : List Byte → BitVec 512
  | [] => d
  | b :: bs => lineSetBytes (lineSet d off b) (off + 1) bs
/-- The 64 bytes of a line. -/
def lineBytes (d : BitVec 512) : List Byte := (List.range 64).map (lineByte d)
/-- The line of 64 bytes. -/
def bytesLine (bs : List Byte) : BitVec 512 := BitVec.ofNat 512 (leNat (slice bs 0 64))

/-- The coherence state of a basin. -/
def cohOf (s : State) (b : Nat) : Coh := tget {} s.coh b
/-- Replace the coherence state of a basin. -/
def setCoh (s : State) (b : Nat) (c : Coh) : State := { s with coh := tset {} s.coh b c }
/-- The caches of a pier, numbered over the device. -/
def pcOf (s : State) (p : Nat) : PierCache := tget {} s.pcache p
/-- Replace the caches of a pier. -/
def setPc (s : State) (p : Nat) (c : PierCache) : State := { s with pcache := tset {} s.pcache p c }

/-- A line of HBM as it stands. -/
def hbmLine (s : State) (line : Nat) : BitVec 512 := bytesLine (readBytes s.mem.hbm (line * 64) 64)
/-- Write a line of HBM, with its poison (R219). -/
def hbmPut (s : State) (line : Nat) (d : BitVec 512) (poison : Bool) : State :=
  { s with mem := { s.mem with
      hbm := writeBytes s.mem.hbm (line * 64) (lineBytes d),
      poison := if poison then (if s.mem.poison.contains line then s.mem.poison else line :: s.mem.poison)
                else s.mem.poison.filter (· != line) } }

/-! A cache of `sets` sets and `ways` ways is a table by set × ways + way (R193). -/

/-- The index of the way that holds a line. -/
def cFind (c : Cache) (sets ways line : Nat) : Option Nat :=
  ((List.range ways).map (fun w => line % sets * ways + w)).find? (fun i =>
    let l := tget {} c i
    decide (l.state ≠ .i) && l.line == line)

/-- Victim choice of R196 among the usable ways of a line's set: the cache with its ages, and the index chosen. -/
def cVictim (c : Cache) (sets ways line : Nat) (usable : Nat → Bool) : Nat → Cache × Option Nat
  | 0 => (c, none)
  | fuel + 1 =>
    let idx := ((List.range ways).filter usable).map (fun w => line % sets * ways + w)
    match idx.find? (fun i => decide ((tget {} c i).state = .i)) with
    | some i => (c, some i)
    | none =>
      match idx.find? (fun i => (tget {} c i).age == 3) with
      | some i => (c, some i)
      | none =>
        cVictim (idx.foldl (fun c i => let l := tget {} c i; tset {} c i { l with age := min 3 (l.age + 1) }) c)
          sets ways line usable fuel

/-- L1 geometry (R193). -/
def l1Sets : Nat := 64
def l1Ways : Nat := 4
def l2Sets : Nat := 2048
def l2Ways : Nat := 16
def l3Sets : Nat := 32768
def l3Ways : Nat := 16

/-- A way of an L2 is locked: ways 15 down to 16 − LOCK_WAYS (R201). -/
def lockedWay (pc : PierCache) (idx : Nat) : Bool := 16 - pc.lockWays ≤ idx % 16

/-- The agent a pier is in its basin, and its basin (R210). -/
def pierBasin (p : Nat) : Nat := p / 4
def pierAgent (p : Nat) : Nat := p % 4

/-- Remove a line from a cache of L1 shape. -/
def l1Clear (c : Cache) (line : Nat) : Cache :=
  match cFind c l1Sets l1Ways line with
  | some i => tset {} c i { tget {} c i with state := .i }
  | none => c

/-- Remove a line from every enabled L1D and L1I of a pier (R194, R199, R202): a disabled cache answers no snoop. -/
def l1Drop (pc : PierCache) (line : Nat) : PierCache :=
  { pc with
    l1d := pc.l1d.map (fun e => (e.1, if pc.l1dEn.getLsbD (e.1 / 2) then l1Clear e.2 line else e.2)),
    l1i := pc.l1i.map (fun e => (e.1, if pc.l1iEn.getLsbD (e.1 / 2) then l1Clear e.2 line else e.2)) }

/-- Downgrade a line to S in every enabled L1D of a pier. -/
def l1Share (pc : PierCache) (line : Nat) : PierCache :=
  { pc with l1d := pc.l1d.map (fun e =>
    (e.1, if pc.l1dEn.getLsbD (e.1 / 2) then
      match cFind e.2 l1Sets l1Ways line with
      | some i => tset {} e.2 i { tget {} e.2 i with state := .s }
      | none => e.2
    else e.2)) }

/-- A line in an eviction buffer has been passed on: its Put is stale (R217). -/
def bufStale (pc : PierCache) (line : Nat) : PierCache := { pc with evict := mapIf (fun e => e.line == line) (fun e => { e with stale := true }) pc.evict }

/-- Set the state of the line an enabled L2 holds; I removes it and its L1 copies (R202). -/
def l2SetState (s : State) (p line : Nat) (st : LState) : State :=
  let pc := bufStale (pcOf s p) line
  let s := setPc s p pc
  if !pc.l2En then s
  else match cFind pc.l2 l2Sets l2Ways line with
    | none => s
    | some i =>
      let pc := { pc with l2 := tset {} pc.l2 i { tget {} pc.l2 i with state := st } }
      setPc s p (if st = .i then l1Drop pc line else if st = .s ∨ st = .o then l1Share pc line else pc)

/-- The line an enabled L2 holds, in its ways or in its eviction buffer (R217). -/
def l2Held (s : State) (p line : Nat) : Option Line :=
  let pc := pcOf s p
  match (if pc.l2En then cFind pc.l2 l2Sets l2Ways line else none) with
  | some i => some (tget {} pc.l2 i)
  | none => (pc.evict.find? (·.line == line)).map (fun e => { state := e.state, line := line, data := e.data, poisoned := e.poisoned })

/-- Write back a line into the L3 copy, or to HBM when the L3 does not hold it. -/
def l3Write (s : State) (b line : Nat) (d : BitVec 512) (poison : Bool) : State :=
  let c := cohOf s b
  match cFind c.l3 l3Sets l3Ways line with
  | some i => setCoh s b { c with l3 := tset {} c.l3 i { tget {} c.l3 i with data := d, state := .m, poisoned := poison } }
  | none => hbmPut s line d poison

/-- Back-invalidate a line from every L2 of a basin, with its dirty data returned (R194). -/
def backInvalidate (s : State) (b line : Nat) : State × Option (BitVec 512 × Bool) :=
  (List.range 4).foldl (fun acc a =>
    let p := b * 4 + a
    match cFind (pcOf acc.1 p).l2 l2Sets l2Ways line with
    | none => acc
    | some i =>
      let l := tget {} (pcOf acc.1 p).l2 i
      let locked := lockedWay (pcOf acc.1 p) i
      let s1 := l2SetState acc.1 p line .i
      let s2 := if locked then setPc s1 p { pcOf s1 p with pinnedEvict := satInc (pcOf s1 p).pinnedEvict 255 } else s1
      (s2, if l.state = .m ∨ l.state = .o then some (l.data, l.poisoned) else acc.2)) (s, none)

/-- A line lies in a locked way of some L2 of the basin: the L3 treats it as pinned (R195). -/
def pinned (s : State) (b line : Nat) : Bool :=
  (List.range 4).any (fun a =>
    let pc := pcOf s (b * 4 + a)
    match cFind pc.l2 l2Sets l2Ways line with
    | some i => lockedWay pc i
    | none => false)

/-- Free a way of the L3 for a line, evicting a victim (R194 to R196): the state and the way. -/
def l3Room (s : State) (b line : Nat) : State × Nat :=
  let c := cohOf s b
  let wayLine (w : Nat) : Line := tget {} c.l3 (line % l3Sets * l3Ways + w)
  let free (w : Nat) : Bool := decide ((wayLine w).state = .i) || !(pinned s b (wayLine w).line)
  let (l3, v) := cVictim c.l3 l3Sets l3Ways line free 5
  let oldest := (List.range 16).foldl (fun best w => if (wayLine best).age < (wayLine w).age then w else best) 0
  let i := v.getD (line % l3Sets * l3Ways + oldest)
  let s := setCoh s b { c with l3 := l3 }
  let l := tget {} l3 i
  if l.state = .i then (s, i)
  else
    let (s, dirty) := backInvalidate s b l.line
    let s := match dirty with
      | some (d, p) => hbmPut s l.line d p
      | none => if l.state = .m then hbmPut s l.line l.data l.poisoned else s
    let c := cohOf s b
    (setCoh s b { c with l3 := tset {} c.l3 i {}, dir := mdel c.dir l.line }, i)

/-- Bring a line into the L3 from HBM (R193), inserted at an age: 1, or 3 for a streaming fill (R196, R197). -/
def l3Fetch (s : State) (b line age : Nat) : State × Line :=
  let c := cohOf s b
  match cFind c.l3 l3Sets l3Ways line with
  | some i =>
    let l := { tget {} c.l3 i with age := 0 }
    (setCoh s b { c with l3 := tset {} c.l3 i l }, l)
  | none =>
    let (s, i) := l3Room s b line
    let l : Line := { state := .e, line := line, data := hbmLine s line, age := age, poisoned := s.mem.poison.contains line }
    let c := cohOf s b
    (setCoh s b { c with l3 := tset {} c.l3 i l }, l)

/-- The directory entry of a line. -/
def dirOf (s : State) (b line : Nat) : Dir := tget {} (cohOf s b).dir line
/-- Replace a directory entry. -/
def setDir (s : State) (b line : Nat) (d : Dir) : State :=
  setCoh s b { cohOf s b with dir := tset {} (cohOf s b).dir line d }

/-- The directory entry is in a stable state (R210). -/
def dirStable (d : Dir) : Bool := match d.state with
  | .di | .ds | .de | .dO => true
  | _ => false

/-- The coherent contents of a line in a basin: the copy of the owner that the directory names, else the L3 copy, else
HBM (R212). -/
def cohLine (s : State) (b line : Nat) : BitVec 512 × Bool :=
  let d := dirOf s b line
  let owned := if d.state = .di ∨ d.state = .ds then none else l2Held s (b * 4 + d.owner) line
  match owned with
  | some l => (l.data, l.poisoned)
  | none =>
    match cFind (cohOf s b).l3 l3Sets l3Ways line with
    | some i => let l := tget {} (cohOf s b).l3 i; (l.data, l.poisoned)
    | none => (hbmLine s line, s.mem.poison.contains line)

/-- Evict a valid line of an L2 into its eviction buffer; a line in S only leaves (R210, R217). -/
def l2Evict (s : State) (p i : Nat) : State :=
  let pc := pcOf s p
  let l := tget {} pc.l2 i
  let pc := l1Drop pc l.line
  let pc := { pc with l2 := tset {} pc.l2 i {} }
  setPc s p (match l.state with
    | .m | .o | .e => { pc with evict := pc.evict ++ [{ line := l.line, state := l.state, data := l.data, poisoned := l.poisoned }] }
    | _ => pc)

/-- Install a line in an L2 in an unlocked way, evicting a victim (R194, R196, R204). -/
def l2Install (s : State) (p line : Nat) (st : LState) (d : BitVec 512) (poison : Bool) (age : Nat) : State :=
  let pc := pcOf s p
  match cFind pc.l2 l2Sets l2Ways line with
  | some i => setPc s p { pc with l2 := tset {} pc.l2 i { state := st, line := line, data := d, age := 0, poisoned := poison } }
  | none =>
    let (l2, v) := cVictim pc.l2 l2Sets l2Ways line (fun w => !(lockedWay pc w)) 5
    match v with
    | none => s
    | some i =>
      let s := setPc s p { pc with l2 := l2 }
      let s := if (tget {} l2 i).state = .i then s else l2Evict s p i
      let pc := pcOf s p
      setPc s p { pc with l2 := tset {} pc.l2 i { state := st, line := line, data := d, age := age, poisoned := poison } }

/-- A whole GetS of an L2 against a stable directory entry (R212): the line becomes readable in the L2. -/
def fetchShared (s : State) (p line age : Nat) : State :=
  let b := pierBasin p
  let a := pierAgent p
  let (s, _) := l3Fetch s b line age
  let d := dirOf s b line
  let (data, poison) := cohLine s b line
  if !(dirStable d) then s
  else match d.state with
    | .di => l2Install (setDir s b line { d with state := .de, owner := a }) p line .e data poison age
    | .ds => l2Install (setDir s b line { d with sharers := if d.sharers.contains a then d.sharers else a :: d.sharers }) p line .s data poison age
    | .de =>
      let o := b * 4 + d.owner
      let inWays := (pcOf s o).l2En && (cFind (pcOf s o).l2 l2Sets l2Ways line).isSome
      let dirty : Bool := inWays && (match l2Held s o line with
        | some l => decide (l.state = .m)
        | none => false)
      let s := if inWays then s else l3Write s b line data poison
      let s := l2SetState s o line (if dirty then .o else .s)
      let s := setDir s b line (if dirty then { d with state := .dO, sharers := [a] } else { d with state := .ds, sharers := if inWays then [d.owner, a] else [a] })
      l2Install s p line .s data poison age
    | _ => l2Install (setDir s b line { d with sharers := if d.sharers.contains a then d.sharers else a :: d.sharers }) p line .s data poison age

/-- Agents the directory lists as holding a line (R210). -/
def listed (d : Dir) : List Nat :=
  match d.state with
  | .di => []
  | .ds => d.sharers
  | _ => d.owner :: d.sharers

/-- Take a line from every other L2 that the directory lists (R212). -/
def dropOthers (s : State) (b a line : Nat) : State :=
  (listed (dirOf s b line)).foldl (fun s x => if x = a then s else l2SetState s (b * 4 + x) line .i) s

/-- A whole GetM or Upgr of an L2 against a stable directory entry (R212): the line becomes M in the L2. -/
def fetchOwned (s : State) (p line : Nat) : State :=
  let b := pierBasin p
  let a := pierAgent p
  let (s, _) := l3Fetch s b line 1
  let d := dirOf s b line
  if !(dirStable d) then s
  else
    let (data, poison) := cohLine s b line
    let s := dropOthers s b a line
    let s := setDir s b line { d with state := .de, owner := a, sharers := [] }
    l2Install s p line .m data poison 1

/-- Fill a line into L1 caches of a pier, by core index pair × 2 + core (R196, R198). -/
def l1Fill (cs : Table Cache) (cores : List Nat) (l : Line) : Table Cache :=
  cores.foldl (fun cs k =>
    let c := tget [] cs k
    match cFind c l1Sets l1Ways l.line with
    | some i => tset [] cs k (tset {} c i { l with age := 0 })
    | none =>
      let (c, v) := cVictim c l1Sets l1Ways l.line (fun _ => true) 5
      match v with
      | some i => tset [] cs k (tset {} c i { l with age := 1 })
      | none => cs) cs

end Sys2Proof.Machine
end

