-- ==== Sys2Proof/Machine/Operands.lean ====
section
/-! DEFINITION. The operand forms of Windlass: integer registers through the window, pairs, triples, floating-point
registers and the selectors of the formats (R128 to R130, R146). -/

namespace Sys2Proof.Machine

/-- Physical register of wN: slot N mod 6 of group (WP + N div 6) mod 32 (R130). -/
def winIdx (wp : Fin 32) (n : Nat) : Fin 192 := ⟨((wp.val + n / 6) % 32) * 6 + n % 6, by omega⟩

/-- Read wN. -/
def rdW (a : Arch) (n : Nat) : Word := a.win.get (winIdx a.wp n)

/-- Write wN. -/
def wrW (a : Arch) (n : Nat) (v : Word) : Arch :=
  { a with win := a.win.set (winIdx a.wp n).val v (winIdx a.wp n).isLt }

/-- Read an integer register field: 0 to 7 are g0 to g7, 8 to 31 are w0 to w23; g0 reads 0 (R128, R129). -/
def rd (a : Arch) (r : RegField) : Word :=
  if r.val = 0 then 0
  else if h : r.val < 8 then a.g.get ⟨r.val - 1, by omega⟩
  else rdW a (r.val - 8)

/-- Write an integer register field; writes to g0 are discarded (R128). -/
def wr (a : Arch) (r : RegField) (v : Word) : Arch :=
  if r.val = 0 then a
  else if h : r.val < 8 then { a with g := a.g.set (r.val - 1) v (by omega) }
  else wrW a (r.val - 8) v

/-- A pair must start at w0 to w22 (R129). -/
def pairOk (r : RegField) : Bool := 8 ≤ r.val && r.val ≤ 30
/-- A triple must start at w0 to w21 (R129). -/
def tripleOk (r : RegField) : Bool := 8 ≤ r.val && r.val ≤ 29

/-- Read a pair: the named register holds bits 23:0 and the next bits 47:24 (R129). -/
def rdPair (a : Arch) (r : RegField) : Pair := rdW a (r.val - 8 + 1) ++ rdW a (r.val - 8)

/-- Write a pair (R129). -/
def wrPair (a : Arch) (r : RegField) (v : Pair) : Arch :=
  wrW (wrW a (r.val - 8) (v.extractLsb' 0 24)) (r.val - 8 + 1) (v.extractLsb' 24 24)

/-- Write a triple: bits 23:0, bits 47:24, and bits 63:48 zero-extended (R129). -/
def wrTriple (a : Arch) (r : RegField) (v : BitVec 64) : Arch :=
  wrW (wrW (wrW a (r.val - 8) (v.extractLsb' 0 24)) (r.val - 8 + 1) (v.extractLsb' 24 24)) (r.val - 8 + 2)
    ((v.extractLsb' 48 16).setWidth 24)

/-- Read a triple, the third word's bits 23:16 ignored (R147, FMVF). -/
def rdTriple (a : Arch) (r : RegField) : BitVec 64 :=
  ((rdW a (r.val - 8 + 2)).extractLsb' 0 16 ++ rdW a (r.val - 8 + 1) : BitVec 40) ++ rdW a (r.val - 8)

/-- Read an f register (R128). -/
def rdF (a : Arch) (r : RegField) : BitVec 64 := a.f.get r
/-- Write an f register (R128). -/
def wrF (a : Arch) (r : RegField) (v : BitVec 64) : Arch := { a with f := a.f.set r.val v r.isLt }
/-- Read a binary32 operand: bits 63:32 are ignored (R128). -/
def rdF32 (a : Arch) (r : RegField) : BitVec 32 := (rdF a r).extractLsb' 0 32
/-- Write a binary32 result: bits 63:32 become 0 (R128). -/
def wrF32 (a : Arch) (r : RegField) (v : BitVec 32) : Arch := wrF a r (v.setWidth 64)

/-- IMM8, sign-extended (R146). -/
def sx8 (i : BitVec 8) : Word := i.signExtend 24

/-- Near effective address of the I format, modulo 2^24 (R137, R147). -/
def eaNear (a : Arch) (ra : RegField) (imm : BitVec 8) : Word := rd a ra + sx8 imm

/-- Far effective address of LDF and STF: pair(A) + rB modulo 2^48 (R138, R147). -/
def eaFar (a : Arch) (ra rb : RegField) : Pair := rdPair a ra + (rd a rb).setWidth 48

/-- A thread is in system mode (R144). -/
def sysMode (a : Arch) : Bool := a.status.getLsbD 0

/-- Virtual address of a near address: (segment << 24) + offset (R137). -/
def nearVa (a : Arch) (off : Word) : Nat :=
  (if sysMode a then a.snseg else a.nseg).toNat * 2 ^ 24 + off.toNat

/-- Virtual address of the PC (R137). -/
def codeVa (a : Arch) (pc : Word) : Nat :=
  (if sysMode a then a.scseg else a.ucseg).toNat * 2 ^ 24 + pc.toNat

/-- A valid PC is a multiple of 3 from 0 to 0xFF_FFFC (R126). -/
def validPc (pc : Nat) : Bool := pc % 3 == 0 && pc ≤ 0xFFFFFC

/-- PC-relative target: the signed sum PC + 3 × sx(offset), which does not wrap (R126). -/
def relTarget (pc : Word) (off : Int) : Int := (pc.toNat : Int) + 3 * off

/-- The running priority, STATUS.PRIO (R117). -/
def prio (a : Arch) : Nat := (a.status.extractLsb' 1 3).toNat

end Sys2Proof.Machine
end

