-- ==== Sys2Proof/Machine/Flags.lean ====
section
/-! DEFINITION. The flags of STATUS and every integer and decimal result with the flags it sets (R159 to R162). -/

namespace Sys2Proof.Machine

/-- STATUS.C. -/
def flagC (a : Arch) : Bool := a.status.getLsbD 4
/-- STATUS.V. -/
def flagV (a : Arch) : Bool := a.status.getLsbD 5
/-- STATUS.DECINV. -/
def flagDecinv (a : Arch) : Bool := a.status.getLsbD 6

/-- A word with one bit set to a value. -/
def putBit (w : Word) (i : Nat) (b : Bool) : Word :=
  let m : Word := 1#24 <<< i
  if b then w ||| m else w &&& ~~~ m

/-- Write C and V (R159). -/
def setCV (a : Arch) (c v : Bool) : Arch := { a with status := putBit (putBit a.status 4 c) 5 v }
/-- Write C, leaving V (R162). -/
def setC (a : Arch) (c : Bool) : Arch := { a with status := putBit a.status 4 c }
/-- DECINV is sticky: it is set, never cleared, here (R162). -/
def stickDecinv (a : Arch) (b : Bool) : Arch := if b then { a with status := putBit a.status 6 true } else a

/-- Sum with carry in: the word, the carry out of bit 23 and the signed overflow (R159). -/
def addWithCarry (x y : Word) (cin : Bool) : Word × Bool × Bool :=
  let u := x.toNat + y.toNat + bit cin
  let i := x.toInt + y.toInt + (bit cin : Int)
  (BitVec.ofNat 24 u, decide (2 ^ 24 ≤ u), decide (i < -2 ^ 23 ∨ 2 ^ 23 - 1 < i))

/-- Difference with borrow in: the word, C = 1 when rA < rB + C_in unsigned, and the signed overflow (R159). -/
def subWithBorrow (x y : Word) (cin : Bool) : Word × Bool × Bool :=
  let i := x.toInt - y.toInt - (bit cin : Int)
  (x - y - BitVec.ofNat 24 (bit cin), decide (x.toNat < y.toNat + bit cin), decide (i < -2 ^ 23 ∨ 2 ^ 23 - 1 < i))

/-- Nibble i of a word. -/
def nibble (w : Word) (i : Nat) : Nat := w.toNat / 16 ^ i % 16

/-- A nibble of the word exceeds 9 (R162). -/
def badDigit (w : Word) : Bool := (List.range 6).any (fun i => decide (9 < nibble w i))

/-- One digit of a decimal sum: the digit and the carry (R161). -/
def dadd1 (a b : Nat) (c : Bool) : Nat × Bool :=
  let s := a + b + bit c
  if 10 ≤ s then ((s + 6) % 16, true) else (s, false)

/-- One digit of a decimal difference: the digit and the borrow (R161). -/
def dsub1 (a b : Nat) (c : Bool) : Nat × Bool :=
  let t := b + bit c
  if a < t then ((a + 10 + 16 - t) % 16, true) else ((a - t) % 16, false)

/-- Digit by digit from digit 0 to digit 5: the digits lowest first, and the carry (R161). -/
def bcdLoop (f : Nat → Nat → Bool → Nat × Bool) (x y : Word) : Nat → Nat → Bool → Nat × Bool
  | 0, _, c => (0, c)
  | n + 1, i, c =>
    let (d, c1) := f (nibble x i) (nibble y i) c
    let (rest, c2) := bcdLoop f x y n (i + 1) c1
    (d + 16 * rest, c2)

/-- The six-digit decimal sum or difference and its carry (R161). -/
def bcd (f : Nat → Nat → Bool → Nat × Bool) (x y : Word) (c : Bool) : Word × Bool :=
  let (v, c1) := bcdLoop f x y 6 0 c
  (BitVec.ofNat 24 v, c1)

/-- DCMP: nibbles as binary values from digit 5 down; the word and C (R161). -/
def dcmp (x y : Word) : Word × Bool :=
  if y.toNat < x.toNat then (1, false) else if x = y then (0, false) else (0xFFFFFF, true)

/-- SLL by n, 0 when n is 24 or more (R147). -/
def sllW (x : Word) (n : Nat) : Word := if 24 ≤ n then 0 else x <<< n
/-- SRL by n. -/
def srlW (x : Word) (n : Nat) : Word := if 24 ≤ n then 0 else x >>> n
/-- SRA by n, all copies of bit 23 when n is 24 or more. -/
def sraW (x : Word) (n : Nat) : Word := if 24 ≤ n then (if x.msb then 0xFFFFFF else 0) else x.sshiftRight n
/-- ROL by n mod 24. -/
def rolW (x : Word) (n : Nat) : Word := x.rotateLeft (n % 24)

/-- Signed 48-bit product (R160). -/
def mulS (x y : Word) : Pair := BitVec.ofInt 48 (x.toInt * y.toInt)
/-- Unsigned 48-bit product (R160). -/
def mulU (x y : Word) : Pair := BitVec.ofNat 48 (x.toNat * y.toNat)

/-- DIV: truncated toward zero; by zero 0xFF_FFFF; 0x80_0000 by −1 gives 0x80_0000 (R147, R160). -/
def divS (x y : Word) : Word := if y = 0 then 0xFFFFFF else BitVec.ofInt 24 (x.toInt.tdiv y.toInt)
/-- DIVU. -/
def divU (x y : Word) : Word := if y = 0 then 0xFFFFFF else BitVec.ofNat 24 (x.toNat / y.toNat)
/-- REM: the sign of the dividend; by zero the dividend (R147, R160). -/
def remS (x y : Word) : Word := if y = 0 then x else BitVec.ofInt 24 (x.toInt.tmod y.toInt)
/-- REMU. -/
def remU (x y : Word) : Word := if y = 0 then x else BitVec.ofNat 24 (x.toNat % y.toNat)

/-- 1 or 0 (R147). -/
def boolW (b : Bool) : Word := if b then 1 else 0

/-- The result of an atomic on n bytes: the new value, or none when memory is unchanged (R148). -/
def amoNew (fn : AmoFn) (n : Nat) (old cmp operand : Nat) : Option Nat :=
  let sgn (v : Nat) : Int := if v < 2 ^ (8 * n - 1) then v else (v : Int) - 2 ^ (8 * n)
  match fn with
  | .add => some ((old + operand) % 2 ^ (8 * n))
  | .swap => some operand
  | .cas => if old = cmp then some operand else none
  | .min => some (if sgn operand < sgn old then operand else old)
  | .max => some (if sgn old < sgn operand then operand else old)

end Sys2Proof.Machine
end

