-- ==== Sys2Proof/Machine/LogBase.lean ====
section
/-! DEFINITION. The clock, the Logbook (R355), arrivals at event sources (R359, R361) and island numbers (R17). -/

namespace Sys2Proof.Machine

/-- The time that timers count, in ns: the harbour clock without its steps (R12, R465). -/
def nowNs (s : State) : Nat := s.clock.ps / 1000
/-- What the harbour clock reads, in ns, at a moment of the timers in ps (R12, R465, R466). -/
def harbourAt (s : State) (ps : Nat) : Nat := ((Int.ofNat ps + s.clock.off) / 1000).toNat
/-- The harbour clock in ns (R12). -/
def harbourNs (s : State) : Nat := harbourAt s s.clock.ps

/-- An event source. -/
def srcOf (s : State) (n : Nat) : Source := tget {} s.sources n
/-- Replace an event source. -/
def setSrc (s : State) (n : Nat) (v : Source) : State := { s with sources := tset {} s.sources n v }

/-- A source number that the table of R357 defines. -/
def srcDefined (n : Nat) : Bool :=
  if n < 0x400 then (n / 128 < 4 && n % 128 < 78) || (n / 128 == 4 && n % 128 < 69)
  else if n < 0x800 then true
  else if n < 0x900 then n ≤ 0x809
  else if n < 0xA00 then n ≤ 0x90F
  else if n < 0xB00 then n ≤ 0xA07
  else if n < 0xC00 then n ≤ 0xB05
  else if n < 0xD00 then n ≤ 0xC03
  else if n < 0xE00 then n ≤ 0xD04
  else if n < 0xF00 then true
  else n ≤ 0xF08 || (0xF10 ≤ n && n ≤ 0xF15) || n == 0xF18 || (0xF20 ≤ n && n ≤ 0xF23)

/-- A source that can wake the device, 0xF00 to 0xFFF and defined (R357, R370). -/
def wakeCapable (n : Nat) : Bool := 0xF00 ≤ n && srcDefined n

/-- A source is in the watch set; slots 0 and 1 hold 0xF10 and 0xF11 (R370). -/
def watched (s : State) (n : Nat) : Bool := n == 0xF10 || n == 0xF11 || s.watch.any (fun e => e.2 == n)

/-- A source fires: FIRED is set and the window closes (R361). A source with KIND 0 is counted as presented (R362). -/
def fireSrc (v : Source) (now : Nat) : Source :=
  let opened := match v.window with
    | some w => w.1
    | none => now
  if v.kind = 0 then { v with pending := false, count := 0, sw := false, fired := false, window := none }
  else { v with fired := true, firedAt := now, openedAt := opened, window := none }

/-- Fire when COUNT has reached COUNT_TH in an open window (R361). -/
def fireByCount (v : Source) (now : Nat) : Source :=
  if v.window.isSome && decide (v.countTh ≤ v.count) then fireSrc v now else v

/-- An arrival at a source, from hardware or posted (R359 to R361). In Doldrums an arrival at a watched source starts the
wake, 150 µs (R371). -/
def arrive (s : State) (n detail : Nat) (posted : Bool) : State :=
  if !(srcDefined n) then s
  else
    let v := srcOf s n
    let now := nowNs s
    let first := !v.pending && v.en
    let v := { v with pending := true, count := satInc v.count 255, detail := detail, sw := v.sw || posted }
    let v := if first && !v.fired then { v with window := some (now, v.timeTh) } else v
    let s := setSrc s n (fireByCount v now)
    if s.dev.st = .doldrums ∧ watched s n then { s with dev := { s.dev with st := .waking, wakeAt := some (now + 150000) } } else s

/-- Write a Logbook entry: merged into the newest entry of the same CODE and ISLAND within 1 s, else appended; its class
arrives at sources 0x900 to 0x903 (R353, R355, R357). -/
def logAdd (s : State) (code cls island place tenant seq : Nat) (detail : List Byte) : State :=
  let now := harbourNs s
  let fresh : LogEntry := { entry := s.logNext, code := code, cls := cls, injected := s.dev.injecting, time := now, island := island,
                            place := place, tenant := tenant, seq := seq, detail := slice detail 0 32 }
  match s.log with
  | e :: r =>
    if e.code = code ∧ e.island = island ∧ now ≤ e.time + 1000000000 ∧ e.time ≤ now + 1000000000 then
      { s with log := { e with repeats := satInc e.repeats 65535, detail := slice detail 0 32 } :: r }
    else arrive { s with log := (fresh :: e :: r).take 16384, logNext := s.logNext + 1 } (0x900 + cls) (s.logNext % 2 ^ 24) false
  | [] => arrive { s with log := [fresh], logNext := s.logNext + 1 } (0x900 + cls) (s.logNext % 2 ^ 24) false

/-- A Logbook entry that concerns no berth, tenant or consignment. -/
def logIsland (s : State) (code cls island : Nat) (detail : List Byte) : State := logAdd s code cls island 0xFFFF 0xFFFF 0 detail

/-- Island numbers (R17, R18). -/
def islPair (p : Nat) : Nat := p / 72 * 128 + p % 72
def islPier (p : Nat) : Nat := p / 4 * 128 + 72 + p % 4
def islHome (b : Nat) : Nat := b * 128 + 76
def islHbm (b : Nat) : Nat := b * 128 + 77
def islDerrick (n : Nat) : Nat := 512 + n
def islLane (n : Nat) : Nat := 544 + n
def islStowage (n : Nat) : Nat := 560 + n
def islHalf (p : Port) : Nat := 568 + p.num
def islPort (p : Port) : Nat := 570 + p.num
def islHawser (l : Nat) : Nat := 572 + l
def islFairway (b : Nat) : Nat := 574 + b
def islStrongroom : Nat := 578
def islPilot : Nat := 579
def islLighthouse : Nat := 580
/-- One of the 381 islands (R18). -/
def islExists (n : Nat) : Bool := (n / 128 < 4 && n % 128 < 78) || (n / 128 == 4 && n % 128 < 69)
/-- All island numbers. -/
def allIslands : List Nat := (List.range 640).filter islExists

end Sys2Proof.Machine
end

