-- ==== Sys2Proof/Machine/Ops.lean ====
section
/-! DEFINITION. The named operations over threads and memory: translation, gated stores, commit sets and holds, windows,
retry points, taking an exception and returning from one (04, 05, 07, 13). -/

namespace Sys2Proof.Machine

/-- The answer of every command that has its effect, or none (log entry 1). -/
abbrev Out := Host.Outcome State Fault Refusal

/-- A thread. -/
def thr (s : State) (th : ThreadId) : Thread := tget {} s.threads th.val
/-- Replace a thread. -/
def setThr (s : State) (th : ThreadId) (t : Thread) : State := { s with threads := tset {} s.threads th.val t }
/-- Change a thread. -/
def modThr (s : State) (th : ThreadId) (f : Thread → Thread) : State := setThr s th (f (thr s th))
/-- Replace the registers of a thread. -/
def setArch (s : State) (th : ThreadId) (a : Arch) : State := modThr s th (fun t => { t with arch := a })

/-- A basin. -/
def basinOf (s : State) (b : Nat) : Basin := tget {} s.basins b
/-- Replace a basin. -/
def setBasin (s : State) (b : Nat) (v : Basin) : State := { s with basins := tset {} s.basins b v }
/-- A pier, numbered over the device. -/
def pierOf (s : State) (p : Nat) : Pier := tget {} s.piers p
/-- Replace a pier. -/
def setPier (s : State) (p : Nat) (v : Pier) : State := { s with piers := tset {} s.piers p v }
/-- An island, by island number (R17). -/
def islandOf (s : State) (n : Nat) : Island := tget {} s.islands n
/-- Replace an island. -/
def setIsland (s : State) (n : Nat) (v : Island) : State := { s with islands := tset {} s.islands n v }
/-- A tenant. -/
def tenantOf (s : State) (t : Nat) : Tenant := tget {} s.tenants t
/-- Replace a tenant. -/
def setTenant (s : State) (t : Nat) (v : Tenant) : State := { s with tenants := tset {} s.tenants t v }
/-- A port. -/
def portOf (s : State) (p : Port) : PortState := tget {} s.ports p.num
/-- Replace a port. -/
def setPort (s : State) (p : Port) (v : PortState) : State := { s with ports := tset {} s.ports p.num v }
/-- The VF of a tenant on a port. -/
def vfOf (s : State) (p : Port) (t : Nat) : Vf := tget {} s.vfs (p.num * 1024 + t)
/-- Replace the VF of a tenant on a port. -/
def setVf (s : State) (p : Port) (t : Nat) (v : Vf) : State := { s with vfs := tset {} s.vfs (p.num * 1024 + t) v }
/-- A consignment in flight, by LEDGER_SEQ. -/
def consOf (s : State) (seq : Nat) : Option Cons := mget s.cons seq
/-- Replace a consignment. -/
def setCons (s : State) (seq : Nat) (c : Cons) : State := { s with cons := mset s.cons seq c }
/-- Change a consignment, where it is in flight. -/
def modCons (s : State) (seq : Nat) (f : Cons → Cons) : State := { s with cons := mmod s.cons seq f }
/-- A partition map entry; at reset partition p is homed by basin p mod 4 (R69). -/
def partOf (s : State) (p : Nat) : Part := (mget s.parts (p % 4096)).getD { home := some (p % 4), stack := p % 4 }
/-- Replace a partition map entry. -/
def setPart (s : State) (p : Nat) (v : Part) : State := { s with parts := mset s.parts (p % 4096) v }

/-- The berth position of a thread within its pier (R15). -/
def posIdx (th : ThreadId) : Fin 16 := ⟨th.position, by unfold ThreadId.position; omega⟩
/-- A berth position of a pier. -/
def posAt (s : State) (pier : Nat) (k : Fin 16) : Position := (pierOf s pier).pos.get k
/-- Replace a berth position of a pier. -/
def setPos (s : State) (pier : Nat) (k : Fin 16) (v : Position) : State :=
  let p := pierOf s pier
  setPier s pier { p with pos := p.pos.set k.val v k.isLt }
/-- The position of a thread's berth, and the pair it occupies (R14, R15). -/
def posOf (s : State) (th : ThreadId) : Position := posAt s th.pier.val (posIdx th)

/-- A VF of a port is in service (R382): VF Enable, within NumVFs, Memory Space Enable, Bus Master Enable, D0, no FLR, its
TDISP state not ERROR, with the port's link up. -/
def vfInServiceB (s : State) (p : Port) (t : Nat) : Bool :=
  let po := portOf s p
  let v := vfOf s p t
  po.link && po.vfEnable && decide (t < po.numVFs) && po.vfMse && v.bme && decide (v.dstate = .d0)
    && decide (v.tdisp ≠ .error) && bitOf (tenantOf s t).ports p.num

/-- A VF of the tenant is CONFIG_LOCKED or RUN: its traffic stays on its current port (R404). -/
def tdispBound (s : State) (t : Nat) : Bool :=
  let b (p : Port) : Bool := decide ((vfOf s p t).tdisp = .locked) || decide ((vfOf s p t).tdisp = .run)
  b .a || b .b

/-- A VF that may carry the tenant's traffic is in service (R91, R404). -/
def pathAny (s : State) (t : Nat) : Bool :=
  if tdispBound s t then vfInServiceB s (tenantOf s t).currentPort t else vfInServiceB s .a t || vfInServiceB s .b t

/-- A port of the tenant's path group is up (R91), and the notices owed at its return have been written (R393). -/
def pathUp (s : State) (t : Nat) : Bool := (tenantOf s t).pathLive && pathAny s t

/-- An IOVA range of n bytes translates (R401, log entry 6). -/
def iovaOk (s : State) (a n : Nat) : Bool :=
  s.iovaDenied.all (fun r => decide (a + n ≤ r.1) || decide (r.1 + r.2 ≤ a))

/-- A function with ATS enabled uses a translated request, and its port then holds the page's translation among at most
16,384 (R400). -/
def noteXlat (s : State) (p : Port) (ats : Bool) (a : Nat) : State :=
  let q := portOf s p
  if ats then setPort s p { q with atsCache := a / 4096 :: (q.atsCache.filter (· != a / 4096)).take 16383 } else s

/-- A request of a tenant's VF on its current port (R400). -/
def vfXlat (s : State) (t a : Nat) : State :=
  let p := (tenantOf s t).currentPort
  noteXlat s p (vfOf s p t).ats a

/-- The tenant's DMA is discarded: its function is squashed (R92), by a TDI in ERROR also (R405). -/
def dmaDiscarded (s : State) (t : Nat) : Bool :=
  let v := tenantOf s t
  decide (v.state = .squashed) || (decide (v.state = .error) && v.errCause == 2)

/-! Exceptions. -/

/-- An exception of Windlass with what it leaves in the registers (R156, R157). -/
structure Exn where
  code : Nat
  detail : Nat := 0
  va : Option Nat := none
  moorVa : Option Pair := none
  /-- The saved PC is the next instruction (SYSCALL). -/
  next : Bool := false
  deriving DecidableEq, Repr

def excIllegal : Exn := { code := 1 }
def excPrivilege : Exn := { code := 2 }
def excUndefCp : Exn := { code := 3 }
def excFetch (reason va : Nat) : Exn := { code := 4, detail := reason, va := some va }
def excLoad (reason va : Nat) : Exn := { code := 5, detail := reason, va := some va }
def excStore (reason va : Nat) : Exn := { code := 6, detail := reason, va := some va }
def excFpTrap : Exn := { code := 7 }
def excWindow : Exn := { code := 8 }
def excOverflow : Exn := { code := 10 }
def excSyscall (n : Nat) : Exn := { code := 11, detail := n, next := true }

/-- The exception of a failed access of a kind (R141, R156). -/
def excOf (k : AccKind) (reason va : Nat) : Exn :=
  match k with
  | .fetch => excFetch reason va
  | .load => excLoad reason va
  | _ => excStore reason va

/-! Translation (R137 to R143, R513). -/

/-- LEDGER_VA (R67). -/
def ledgerVa : Nat := 0x7F0000000000

/-- A byte's place after translation. -/
structure Loc where
  obj : Obj
  addr : Nat
  type : MemType
  deriving DecidableEq, Repr

/-- The physical byte as the basin's walker and caches see it (R140, R212). -/
def physByte (s : State) (b pa : Nat) : Byte := lineByte (cohLine s b (pa / 64)).1 (pa % 64)

/-- A table entry of 8 bytes at a physical address, read as CACHED memory (R140). -/
def readPte (s : State) (b pa : Nat) : BitVec 64 :=
  BitVec.ofNat 64 (leNat ((List.range 8).map (fun i => physByte s b (pa + i))))

/-- A table entry that points to a table: bits 8:2 and the reserved bits are 0 (R140). -/
def pteTableOk (e : BitVec 64) : Bool :=
  e.extractLsb' 52 12 == 0 && e.extractLsb' 9 3 == 0 && e.extractLsb' 2 7 == 0

/-- The TYPE of a leaf (R140). -/
def pteType (e : BitVec 64) : Option MemType :=
  match (e.extractLsb' 2 3).toNat with
  | 0 => some .cached
  | 1 => some .ledgered
  | 2 => some .uncached
  | 3 => some .device
  | 4 => some .host
  | _ => none

/-- A leaf at a level is valid: level 2 or 3, reserved bits 0 but for IOVA_HI of HOST, and at level 2 address bits 20:12
are 0 (R140). -/
def pteLeafOk (e : BitVec 64) (level : Nat) : Bool :=
  (pteType e).isSome && e.extractLsb' 9 3 == 0 && (e.extractLsb' 52 12 == 0 || pteType e == some .host)
    && (level == 3 || (level == 2 && e.extractLsb' 12 9 == 0))

/-- The walk from a level down: the leaf and its level, or a reason (R140, R141). -/
def walk (s : State) (b va : Nat) : Nat → Nat → Nat → Except Nat (BitVec 64 × Nat)
  | 0, _, _ => .error 6
  | fuel + 1, level, table =>
    let e := readPte s b (table + va / 2 ^ (39 - 9 * level) % 512 * 8)
    if !(e.getLsbD 0) then .error 1
    else if e.getLsbD 1 then (if pteLeafOk e level then .ok (e, level) else .error 6)
    else if level == 3 || !(pteTableOk e) then .error 6
    else walk s b va fuel (level + 1) ((e.extractLsb' 12 40).toNat * 4096)

/-- The leaf that maps a page, held or walked (R142). A held translation is used until TLBINV. -/
def leafOf (s : State) (th : ThreadId) (va : Nat) : Except Nat (BitVec 64 × Nat) :=
  let t := thr s th
  match mget t.tlb (va / 4096) with
  | some e => .ok (e, if (mget t.tlb (2 ^ 36 + va / 2 ^ 21)).isSome then 2 else 3)
  | none => walk s th.basin.val va 4 0 (t.arch.ptroot.toNat * 4096)

/-- The access a leaf allows in a mode (R141): user mode needs U, system fetches need U clear. -/
def permOk (sys : Bool) (k : AccKind) (u x w r : Bool) : Bool :=
  (if sys then (match k with
    | .fetch => !u
    | _ => true) else u) &&
  (match k with
    | .fetch => x
    | .load => r
    | _ => w)

/-- Place of a byte by the page tables (R140 to R143). -/
def locWalk (s : State) (th : ThreadId) (k : AccKind) (va : Nat) : Except Nat Loc :=
  let sys := sysMode (thr s th).arch
  match leafOf s th va with
  | .error r => .error r
  | .ok (e, level) =>
    if !(permOk sys k (e.getLsbD 8) (e.getLsbD 7) (e.getLsbD 6) (e.getLsbD 5)) then .error 2
    else
      let off := if level == 2 then va % 2 ^ 21 else va % 4096
      let pa := (e.extractLsb' 12 40).toNat * 4096 + off
      match pteType e with
      | some .cached => .ok { obj := .phys, addr := pa, type := .cached }
      | some .uncached => .ok { obj := .phys, addr := pa, type := .uncached }
      | some .device => .ok { obj := .device, addr := pa, type := .device }
      | some .host => .ok { obj := .host, addr := (e.extractLsb' 12 52).toNat * 4096 + off, type := .host }
      | some .ledgered =>
        match Config.ledgerOfPA s.cfg.partLog2 pa with
        | some a => .ok { obj := .ledger, addr := a, type := .ledgered }
        | none => .error 3
      | none => .error 6

/-- The runtime mapping that holds a byte (R513). -/
def winOf (t : Thread) (va : Nat) : Option MapWin :=
  t.maps.find? (fun m => decide (m.base ≤ va) && decide (va < m.base + m.len))

/-- Where the ranges a thread's consignment reaches begin: this Harbour's own, or the replica taken over with its tenant from the
member at position q, kept at (q + 1) × 2^32 (R489). -/
def rangeBase (s : State) (th : ThreadId) : Nat :=
  match (consOf s (thr s th).seq).bind (fun c => (tenantOf s c.tenant).takenFrom) with
  | some q => (q + 1) * 2 ^ 32
  | none => 0

/-- Place of one byte: the partition ranges of R67, then the runtime mappings, then the page tables. -/
def locByte (s : State) (th : ThreadId) (k : AccKind) (va : Nat) : Except Nat Loc :=
  let t := thr s th
  let sys := sysMode t.arch
  let rel := va - ledgerVa
  if ledgerVa ≤ va ∧ rel < 4096 * 2 ^ s.cfg.partLog2 ∧ t.seq ≠ 0 then
    if k = .fetch then .error 2
    else .ok { obj := .ledger, addr := rangeBase s th + rel / 2 ^ s.cfg.partLog2 * 2 ^ 20 + rel % 2 ^ s.cfg.partLog2, type := .ledgered }
  else match winOf t va with
    | some m =>
      if !(permOk sys k m.user m.x m.w m.r) then .error 2
      else
        let addr := m.off + (va - m.base)
        match m.obj with
        | .near _ =>
          -- R139: offsets 0x00 to 0xFF are read-only in user mode
          if !sys && addr < 256 && (k = .store || k = .amo) then .error 2 else .ok { obj := m.obj, addr := addr, type := m.type }
        | _ => .ok { obj := m.obj, addr := addr, type := m.type }
    | none => locWalk s th k va

/-- The lowest-addressed byte of an access from va on that lies in the page of a failing byte (R145). -/
def faultVaOf (va b : Nat) : Nat := max va (b / 4096 * 4096)

/-- Places of the n bytes of an access; every page is translated before any piece is performed (R141). A byte outside the
runtime mapping that its first byte lies in is refused with PERMISSION (R513). -/
def locBytes (s : State) (th : ThreadId) (k : AccKind) (va : Nat) : Nat → Nat → Except Exn (List Loc)
  | 0, _ => .ok []
  | n + 1, i =>
    let b := (va + i) % 2 ^ 48
    match (if i ≠ 0 ∧ (winOf (thr s th) va).isSome ∧ winOf (thr s th) b ≠ winOf (thr s th) va then
             (if (winOf (thr s th) b).isSome then locByte s th k b else .error 2)
           else locByte s th k b) with
    | .error r => .error (excOf k r (faultVaOf va b))
    | .ok l =>
      match locBytes s th k va n (i + 1) with
      | .error e => .error e
      | .ok ls => .ok (l :: ls)

/-- An access of n bytes lies within one aligned 8-byte chunk (R148, R182). -/
def oneChunk (va n : Nat) : Bool := va % 8 + n ≤ 8

/-- The line of LEDGERED memory a byte lies in: partition × 2^14 + line (R105). -/
def ledgerLine (a : Nat) : Nat := a / 64

/-- The thread's basin homes the partition that holds the byte at this moment (R67, R143). -/
def homedHere (s : State) (th : ThreadId) (a : Nat) : Bool :=
  decide ((partOf s (a / 2 ^ 20)).home = some th.basin.val) && !(basinOf s th.basin.val).checkstopped

/-- Translation of an access with the checks of R143 and R148 in order: places, type, alignment, partition. -/
def translate (s : State) (th : ThreadId) (k : AccKind) (va n : Nat) : Except Exn (List Loc) :=
  match locBytes s th k va n 0 with
  | .error e => .error e
  | .ok ls =>
    let bad := ls.findIdx? (fun l => match k with
      | .fetch => decide (l.type ≠ .cached)
      | .amo => decide (l.type = .device) || decide (l.type = .host)
      | _ => false)
    match bad with
    | some i => .error (excOf k 3 (faultVaOf va ((va + i) % 2 ^ 48)))
    | none =>
      if (k = .amo || ls.any (fun l => decide (l.type = .device))) && !(oneChunk va n) then .error (excOf k 4 va)
      else match ls.findIdx? (fun l => decide (l.type = .ledgered) && !(homedHere s th l.addr)) with
        | some i => .error (excOf k 5 (faultVaOf va ((va + i) % 2 ^ 48)))
        | none => .ok ls

/-! Reading and writing objects. -/

/-- A byte of an object as it is stored, without a thread's own pending stores. -/
def objByte (s : State) (b : Nat) (o : Obj) (a : Nat) : Byte :=
  match o with
  | .near t => tget 0 (tget [] s.mem.near t.val) a
  | .sysNear t => tget 0 (tget [] s.mem.sysNear t.val) a
  | .code h => ((tget [] s.handlers h)[a]?).getD 0
  | .intake seq => match consOf s seq with
    | some c => (c.dock[a]?).getD 0
    | none => 0
  | .staging t => tget 0 (tget [] s.mem.staging t.val) a
  | .ledger => tget 0 s.mem.ledgered a
  | .host => tget 0 s.mem.host a
  | .phys => physByte s b a
  | .device => tget 0 s.mem.device a

/-- L1 caches of a thread: those of both cores in lockstep, of its own core in a split berth (R122, R200). -/
def coresOf (s : State) (th : ThreadId) : List Nat :=
  let v := posOf s th
  match v.pair with
  | none => []
  | some pr => if v.split then [pr * 2 + th.slot / 2] else [pr * 2, pr * 2 + 1]

/-- The L1D of a thread's pair is enabled, and the L2 of its pier (R202). -/
def l1dOn (s : State) (th : ThreadId) : Bool :=
  let pc := pcOf s th.pier.val
  pc.l2En && (match (posOf s th).pair with
    | some pr => pc.l1dEn.getLsbD pr
    | none => false)

/-- The line a thread's own L1D holds. -/
def l1Hit (s : State) (th : ThreadId) (line : Nat) : Option Line :=
  if l1dOn s th then
    match coresOf s th with
    | [] => none
    | k :: _ =>
      let c := tget [] (pcOf s th.pier.val).l1d k
      (cFind c l1Sets l1Ways line).map (tget {} c)
  else none

/-- A line as a thread sees it: its own L1D, its pier's L2, then the coherent contents (R198, R203, R212). -/
def thrLine (s : State) (th : ThreadId) (line : Nat) : BitVec 512 × Bool :=
  match l1Hit s th line with
  | some l => (l.data, l.poisoned)
  | none =>
    match l2Held s th.pier.val line with
    | some l => (l.data, l.poisoned)
    | none => cohLine s th.basin.val line

/-- A byte as a thread reads it: its own gated stores first, then its commit set, then the object (R106, R173, R335). -/
def seenByte (s : State) (th : ThreadId) (l : Loc) : Byte :=
  let t := thr s th
  match t.gated.reverse.find? (fun g => decide (g.obj = l.obj) && g.addr == l.addr) with
  | some g => g.byte
  | none =>
    if l.obj = .ledger then
      match mget t.csetBytes l.addr with
      | some v => v
      | none => objByte s th.basin.val l.obj l.addr
    else if l.obj = .phys then
      if l.type = .uncached then tget 0 s.mem.hbm l.addr
      else lineByte (thrLine s th (l.addr / 64)).1 (l.addr % 64)
    else objByte s th.basin.val l.obj l.addr

/-- Fill a line for a load of a thread: into the pier's L2 by GetS where it misses, and into its L1D (R196, R198). -/
def loadFill (s : State) (th : ThreadId) (line : Nat) : State :=
  let p := th.pier.val
  let s := if (pcOf s p).l2En && (l2Held s p line).isNone then fetchShared s p line 1 else s
  if l1dOn s th && (l1Hit s th line).isNone then
    match l2Held s p line with
    | some l =>
      let st : LState := if l.state = .m ∨ l.state = .e then .e else .s
      let pc := pcOf s p
      setPc s p { pc with l1d := l1Fill pc.l1d (coresOf s th) { state := st, line := line, data := l.data, poisoned := l.poisoned } }
    | none => s
  else s

/-- Store a physical byte: written where the L1D or L2 holds the line in M or E, else after the L2 owns the line (R172,
R203, R209, R212). -/
def physStore (s : State) (th : ThreadId) (pa : Nat) (v : Byte) : State :=
  let p := th.pier.val
  let line := pa / 64
  let own (st : LState) : Bool := decide (st = .m) || decide (st = .e)
  let l1Own := match l1Hit s th line with
    | some l => own l.state
    | none => false
  let l2Own := match l2Held s p line with
    | some l => own l.state
    | none => false
  let s := if !l1Own && !l2Own && (pcOf s p).l2En then fetchOwned s p line else s
  let pc := pcOf s p
  let put (c : Cache) (i : Nat) : Cache := let l := tget {} c i; tset {} c i { l with data := lineSet l.data (pa % 64) v, state := .m }
  let l2i := if pc.l2En then cFind pc.l2 l2Sets l2Ways line else none
  let mine := coresOf s th
  let keep (e : Nat × Cache) : Nat × Cache :=
    if mine.contains e.1 && l1dOn s th then (e.1, match cFind e.2 l1Sets l1Ways line with
      | some j => put e.2 j
      | none => e.2)
    else if pc.l1dEn.getLsbD (e.1 / 2) && l2i.isSome then (e.1, l1Clear e.2 line) else e
  let l1i := pc.l1i.map (fun e => if pc.l1iEn.getLsbD (e.1 / 2) then (e.1, l1Clear e.2 line) else e)
  let pc1 := { pc with l1d := pc.l1d.map keep, l1i := l1i }
  match l2i with
  | some i => setPc s p { pc1 with l2 := put pc1.l2 i }
  | none =>
    if l1Own then setPc s p pc1
    else l3Write s th.basin.val line (lineSet (cohLine s th.basin.val line).1 (pa % 64) v) false

/-- Write one byte of an object for a thread. -/
def objStore (s : State) (th : ThreadId) (o : Obj) (a : Nat) (v : Byte) : State :=
  match o with
  | .near t => { s with mem := { s.mem with near := tset [] s.mem.near t.val (tset 0 (tget [] s.mem.near t.val) a v) } }
  | .sysNear t => { s with mem := { s.mem with sysNear := tset [] s.mem.sysNear t.val (tset 0 (tget [] s.mem.sysNear t.val) a v) } }
  | .staging t => { s with mem := { s.mem with staging := tset [] s.mem.staging t.val (tset 0 (tget [] s.mem.staging t.val) a v) } }
  | .ledger => modThr s th (fun t => { t with csetBytes := mset t.csetBytes a v })
  | .host => { s with mem := { s.mem with host := tset 0 s.mem.host a v } }
  | .phys => physStore s th a v
  | .device => { s with mem := { s.mem with device := tset 0 s.mem.device a v } }
  | .code _ => s
  | .intake _ => s

/-- Release the gated store buffer in order (R335). -/
def releaseGated (s : State) (th : ThreadId) : State :=
  let g := (thr s th).gated
  let s := modThr s th (fun t => { t with gated := [] })
  g.foldl (fun s x => objStore s th x.obj x.addr x.byte) s

/-- A retry point: the gated stores are released and the checkpoint takes the registers (R335, R336). It counts for an
open mismatch event of the berth (R338). -/
def retryPoint (s : State) (th : ThreadId) : State :=
  let s := releaseGated s th
  let s := modThr s th (fun t => { t with ck := t.arch, sinceCk := 0 })
  let v := posOf s th
  if v.event.isSome then
    let left := v.notPassed.filter (· != th.slot)
    setPos s th.pier.val (posIdx th) { v with notPassed := left, event := if left.isEmpty then none else v.event }
  else s

/-- Retire an instruction: one more since the checkpoint, and a retry point at 32 (R336); an entry in progress ends with
the first routine instruction (R119). -/
def retire (s : State) (th : ThreadId) : State :=
  let s := modThr s th (fun t => { t with sinceCk := t.sinceCk + 1, entering := none })
  if 32 ≤ (thr s th).sinceCk then retryPoint s th else s

/-! Holds and commit sets (R105 to R108). -/

/-- Distinct LEDGERED lines that an access touches. -/
def linesOf (ls : List Loc) : List Nat :=
  ((ls.filter (fun l => decide (l.type = .ledgered))).map (fun l => ledgerLine l.addr)).eraseDups

/-- The sequence number that holds a line in a basin. -/
def holdOf (s : State) (b line : Nat) : Option Nat := mget (basinOf s b).holds line

/-- Add lines to a thread's commit set with their holds (R105, R107). -/
def takeLines (s : State) (th : ThreadId) (lines : List Nat) : State :=
  let t := thr s th
  let b := basinOf s th.basin.val
  let s := setThr s th { t with csetLines := t.csetLines ++ lines.filter (fun l => !(t.csetLines.contains l)) }
  setBasin s th.basin.val { b with holds := lines.foldl (fun h l => mset h l t.seq) b.holds }

/-- Release the holds of a sequence number in a basin (R107, R110). -/
def releaseHolds (s : State) (b seq : Nat) : State :=
  let v := basinOf s b
  setBasin s b { v with holds := v.holds.filter (fun e => e.2 != seq) }

/-- Discard a thread's commit set and release its holds (R110). -/
def dropCset (s : State) (th : ThreadId) : State :=
  let t := thr s th
  let s := setThr s th { t with csetLines := [], csetBytes := [], gated := t.gated.filter (fun g => decide (g.obj ≠ .ledger)) }
  if t.seq = 0 then s else releaseHolds s th.basin.val t.seq

/-- Cancel an engine job (R110): removed where it has not started, else stopped at the end of its step, quantum or block. -/
def cancelJob (s : State) (id : Nat) : State :=
  match mget s.jobs id with
  | none => s
  | some j => if j.started && !j.finished then { s with jobs := mset s.jobs id { j with cancelled := true } } else { s with jobs := mdel s.jobs id }

/-- Cancel a thread's engine jobs and coprocessor requests (R110): jobs not started are removed, running ones stop at the
end of their step, and every result is discarded. A request in service keeps its unit, as number + 64 in its queue, until it
finishes; queued ones leave the queues (R111). -/
def cancelWork (s : State) (th : ThreadId) : State :=
  let s := (s.jobs.filter (fun e => decide (e.2.th = some th))).foldl (fun s e => cancelJob s e.1) s
  let p := pierOf s th.pier.val
  let cpq := p.cpq.map (fun q => match q with
    | [] => []
    | h :: r => (if h = th.inPier then h + 64 else h) :: r.filter (· != th.inPier))
  let s := setPier s th.pier.val { p with cpq := cpq }
  modThr s th (fun t => { t with cp := Vector.replicate 3 .idle, jobs := Vector.replicate 8 0, keySlots := Vector.replicate 4 {} })

/-! Windows (R130 to R136). -/

/-- Free groups: 28 − RES (R130). -/
def freeGroups (a : Arch) : Nat := 28 - a.res

/-- Group WP + k (R130). -/
def groupAt (wp : Fin 32) (k : Nat) : Fin 32 := ⟨(wp.val + k) % 32, by omega⟩

/-- The 24 bytes of a group's ballast record (R135). -/
def ballastRecord (a : Arch) (g : Fin 32) : List Byte :=
  (List.range 6).flatMap (fun i => toLe 3 (tget 0 ((a.win.toList.zipIdx).map (fun e => (e.2, e.1))) (g.val * 6 + i)).toNat)
    ++ toLe 3 (a.link.get g).toNat ++ [0, 0, 0]

/-- Places of n bytes of the system near segment, for the spill and fill engines, which act in system mode (R135). -/
def ballastLocs (s : State) (th : ThreadId) (k : AccKind) (a : Arch) (off n : Nat) : Option (List Loc) :=
  let sSys := setArch s th { a with status := a.status ||| 1 }
  match translate sSys th k (a.snseg.toNat * 2 ^ 24 + off) n with
  | .ok ls => if ls.all (fun l => decide (l.type = .cached)) then some ls else none
  | .error _ => none

/-- Spill the oldest resident group (R134): registers and gated stores, or none where R136 raises WINDOW_FAULT. -/
def spill1 (s : State) (th : ThreadId) (a : Arch) (gated : List GStore) : Option (Arch × List GStore) :=
  let off := a.bsp.toNat
  if a.blim.toNat < off + 24 then none
  else match ballastLocs s th .store a off 24 with
    | none => none
    | some ls =>
      let bytes := ballastRecord a (groupAt a.wp (32 - a.res))
      some ({ a with bsp := a.bsp + 24, res := a.res - 1 },
        gated ++ (ls.zip bytes).map (fun e => { obj := e.1.obj, addr := e.1.addr, byte := e.2 }))

/-- Spill until at least n groups are free (R134). -/
def spillTo (s : State) (th : ThreadId) (n : Nat) : Nat → Arch → List GStore → Option (Arch × List GStore)
  | 0, a, g => if n ≤ freeGroups a then some (a, g) else none
  | fuel + 1, a, g =>
    if n ≤ freeGroups a then some (a, g)
    else match spill1 s th a g with
      | none => none
      | some (a, g) => spillTo s th n fuel a g

/-- The registers with group g set from a ballast record (R135). -/
def loadGroup (a : Arch) (g : Fin 32) (bytes : List Byte) : Arch :=
  { a with
    win := Vector.ofFn (fun i : Fin 192 =>
      if i.val / 6 = g.val then BitVec.ofNat 24 (fieldLe bytes (i.val % 6 * 3) 3) else a.win.get i),
    link := a.link.set g.val (BitVec.ofNat 3 (fieldLe bytes 18 3)) g.isLt }

/-- Fill the most recent record (R135), or none where R136 raises WINDOW_FAULT. -/
def fill1 (s : State) (th : ThreadId) (a : Arch) : Option Arch :=
  if a.bsp.toNat < a.bbase.toNat + 24 then none
  else match ballastLocs s th .load a (a.bsp.toNat - 24) 24 with
    | none => none
    | some ls =>
      let bytes := ls.map (seenByte s th)
      let a := loadGroup a (groupAt a.wp (32 - a.res - 1)) bytes
      some { a with bsp := a.bsp - 24, res := a.res + 1 }

/-- Fill until RES is at least k (R135). -/
def fillTo (s : State) (th : ThreadId) (k : Nat) : Nat → Arch → Option Arch
  | 0, a => if k ≤ a.res then some a else none
  | fuel + 1, a =>
    if k ≤ a.res then some a
    else match fill1 s th a with
      | none => none
      | some a => fillTo s th k fuel a

/-- Slide the window up by k groups with a link code, and write the callee's w23 (R149). -/
def slideUp (a : Arch) (k : Nat) (link : BitVec 3) (w23 : Word) : Arch :=
  let wp := groupAt a.wp k
  wrW { a with wp := wp, res := a.res + k, link := a.link.set wp.val link wp.isLt } 23 w23

/-- Slide back by k groups, leaving the group with LINK 0 (R133). -/
def slideDown (a : Arch) (k : Nat) : Arch :=
  { a with link := a.link.set a.wp.val 0 a.wp.isLt, wp := groupAt a.wp (32 - k), res := a.res - k }

/-! Taking an exception or signal (R118, R136, R156, R157). -/

/-- STATUS at entry: system mode, a priority, and the cause (R118, R157). -/
def entryStatus (st : Word) (cause pri : Nat) : Word :=
  (st &&& 0x000070#24) ||| BitVec.ofNat 24 (cause % 256 * 256 + pri % 8 * 2 + 1)

/-- The saved STATUS: the interrupted MODE, PRIO and flags with CAUSE naming the entry (R118, R157). -/
def savedStatus (st : Word) (cause : Nat) : Word :=
  (st &&& 0x00007F#24) ||| BitVec.ofNat 24 (cause % 256 * 256)

/-- Offset of the vector of a cause (R157). -/
def vectorPc (a : Arch) (cause : Nat) : Word := a.vbase + BitVec.ofNat 24 (24 * cause)

/-- The thread-reset entry of R136: WP and RES 0, BSP at BBASE, system mode, EXCINFO.CODE 0x08. -/
def threadReset (a : Arch) : Arch :=
  { a with wp := 0, res := 0, bsp := a.bbase, status := entryStatus a.status 8 (prio a), excinfo := 8,
           pc := vectorPc a 15 }

/-- Entry of a cause: the window slides by one group with LINK 0b111, w23 takes the saved PC, w22 the saved STATUS, w21 a
value, the status and the PC change (R118, R157). None where the entry needs a spill that faults (R136). -/
def enter (s : State) (th : ThreadId) (a : Arch) (cause pri : Nat) (savedPc w21 excinfo : Word) : Option (Arch × List GStore) :=
  match spillTo s th 1 1 a (thr s th).gated with
  | none => none
  | some (b, g) =>
    let b := slideUp b 1 7 savedPc
    let b := wrW (wrW b 22 (savedStatus a.status cause)) 21 w21
    some ({ b with status := entryStatus a.status cause pri, excinfo := excinfo, pc := vectorPc a cause }, g)

/-- EXCINFO of an exception (R145). -/
def excinfoOf (e : Exn) : Word := BitVec.ofNat 24 (e.detail % 65536 * 256 + e.code)

/-- Record the end of a handler for the Quayside: the commit set is discarded, its work cancelled, and the thread waits to
become free (R103, R110). -/
def endThread (s : State) (th : ThreadId) (r : Option EndReport) : State :=
  let seq := (thr s th).seq
  let s := cancelWork (dropCset s th) th
  let s := modThr s th (fun t => { t with run := .ending, wait := none, moorAt := none, graceAt := none, ended := .aborted })
  match r with
  | none => s
  | some r => modCons s seq (fun c => { c with report := some r, phase := .ended })

/-- The thread becomes free when its last running job and request have stopped (R110). -/
def freeIfDone (s : State) (th : ThreadId) : State :=
  let t := thr s th
  let busyJob := s.jobs.any (fun e => decide (e.2.th = some th) && decide (e.2.stage ≠ .scuttle) && !e.2.finished)
  let busyCp := (pierOf s th.pier.val).cpq.toList.any (fun q => q.contains (th.inPier + 64))
  if t.run = .ending && !busyJob && !busyCp then
    let s := setPier s th.pier.val { pierOf s th.pier.val with idleSince := nowNs s }
    setThr s th { run := .free, arch := t.arch, ck := t.ck, stores := t.stores, nextStore := t.nextStore, lateStores := t.lateStores }
  else s

/-- The disposition the runtime ends a consignment with after an exception in its handler (R103). -/
def excReport (e : Exn) : EndReport :=
  { committed := false, status := if e.code = 10 then 0x0602 else 0x0601, value := BitVec.ofNat 24 e.code, resultLen := 0 }

/-- A Logbook entry of a thread: its pair's island, and the place, tenant and LEDGER_SEQ of its consignment (R355). -/
def logThread (s : State) (th : ThreadId) (code cls : Nat) (detail : List Byte) : State :=
  let t := thr s th
  let island := islPair (th.pier.val * 18 + ((posOf s th).pair.getD 0))
  match consOf s t.seq with
  | some c => logAdd s code cls island (placeWord c.place) c.tenant t.seq detail
  | none => logAdd s code cls island 0xFFFF 0xFFFF 0 detail


/-- The registers with the fault addresses an exception records (R145). -/
def faultRegs (a : Arch) (e : Exn) : Arch :=
  { a with faultVa := match e.va with
                      | some v => BitVec.ofNat 48 v
                      | none => a.faultVa,
           moorFaultAddr := e.moorVa.getD a.moorFaultAddr }

/-- Entry of an exception (R157): the registers, the gated stores and the exception that is reported, which is WINDOW_FAULT where
the entry needs a spill that faults (R136). -/
def entryOf (s : State) (th : ThreadId) (e : Exn) : Arch × List GStore × Exn :=
  let a := faultRegs (thr s th).arch e
  match enter s th a e.code (max 6 (prio a)) (if e.next then a.pc + 3 else a.pc) (excinfoOf e) (excinfoOf e) with
  | some (b, g) => (b, g, e)
  | none => (threadReset a, (thr s th).gated, excWindow)

/-- The runtime's part after the entry of an exception of a handler: the end of its consignment under R103; after its COMMIT or
ABORT the outcome stands and the handler only ends (R104). -/
def handlerFails (s : State) (th : ThreadId) (ended : Ended) (e : Exn) : State :=
  match ended with
  | .no => freeIfDone (endThread s th (some (excReport e))) th
  | .commitSent => s
  | _ => freeIfDone (endThread (logThread s th 0x010B 0 (toLe 1 e.code)) th none) th

/-- Take an exception (R156, R157): the entry, a retry point (R336), and what the runtime then does with the handler. -/
def takeExn (s : State) (th : ThreadId) (e : Exn) : State :=
  let t := thr s th
  let x := entryOf s th e
  let s := retryPoint (setThr s th { t with arch := x.1, gated := x.2.1, entering := none }) th
  if !(sysMode t.arch) && t.seq ≠ 0 then handlerFails s th t.ended x.2.2 else s

/-! Issue of an instruction. -/

/-- The device runs work: it is Full or in Calm (R415). -/
def running (s : State) : Bool := decide (s.dev.st = .full) || decide (s.dev.st = .calm)

/-- The thread's berth has a pair, whose island is ON (R97, R414, R503). -/
def pairOn (s : State) (th : ThreadId) : Bool :=
  match (posOf s th).pair with
  | some n => let i := islandOf s (islPair (th.pier.val * 18 + n)); decide (i.state = 3) && !i.reset
  | none => false

/-- A thread may issue: the device runs, the thread holds a consignment or runs the runtime, waits for nothing, and its
basin and berth run (R97, R220, R338, R353). -/
def canIssue (s : State) (th : ThreadId) : Bool :=
  let t := thr s th
  running s && decide (t.run = .active) && t.wait.isNone && !(basinOf s th.basin.val).checkstopped && !(posOf s th).selfTest && pairOn s th

/-- The fetch of the instruction at the PC (R126, R141, R143). -/
def fetchOk (s : State) (th : ThreadId) : Except Exn Unit :=
  let a := (thr s th).arch
  if !(validPc a.pc.toNat) then .error (excFetch 4 (codeVa a a.pc))
  else match translate s th .fetch (codeVa a a.pc) 3 with
    | .error e => .error e
    | .ok _ => .ok ()

/-- Hold the translation of a page that the tables map, until TLBINV (R142). -/
def tlbFill (s : State) (th : ThreadId) (va : Nat) : State :=
  let t := thr s th
  if (winOf t va).isSome ∨ ledgerVa ≤ va ∨ (mget t.tlb (va / 4096)).isSome then s
  else match leafOf s th va with
    | .error _ => s
    | .ok (e, level) =>
      let tlb := mset t.tlb (va / 4096) e
      setThr s th { t with tlb := if level == 2 then mset tlb (2 ^ 36 + va / 2 ^ 21) e else tlb }

/-- Issue an instruction: nothing where the thread cannot issue; else the fetch, then the body. -/
def issue (th : ThreadId) (body : State → State) (s : State) : State :=
  if canIssue s th then
    match fetchOk s th with
    | .error e => takeExn s th e
    | .ok _ =>
      let a := (thr s th).arch
      body (modThr (tlbFill s th (codeVa a a.pc)) th (fun t => { t with yielded := false }))
  else s

/-- Advance the PC by one instruction (R126). -/
def stepPc (a : Arch) : Arch := { a with pc := a.pc + 3 }

/-- An instruction whose effect is on the registers: it retires with the PC advanced, or raises an exception (R147). -/
def regInstr (th : ThreadId) (f : Arch → Except Exn Arch) (s : State) : State :=
  issue th (fun s => match f (thr s th).arch with
    | .error e => takeExn s th e
    | .ok a => retire (setArch s th (stepPc a)) th) s

/-- A transfer of control to a target that may lie outside the segment (R126, R149): the FETCH_FAULT of an invalid target
is raised on the transferring instruction. -/
def goto (a : Arch) (target : Int) : Except Exn Arch :=
  if 0 ≤ target ∧ validPc target.toNat then .ok { a with pc := BitVec.ofNat 24 target.toNat }
  else .error (excFetch 4 ((codeVa a 0 + (target % 2 ^ 48).toNat) % 2 ^ 48))

/-- An instruction that sets the PC itself. -/
def jumpInstr (th : ThreadId) (f : Arch → Except Exn Arch) (s : State) : State :=
  issue th (fun s => match f (thr s th).arch with
    | .error e => takeExn s th e
    | .ok a => retire (setArch s th a) th) s

end Sys2Proof.Machine
end

