-- ==== Sys2Proof/Machine/Runtime.lean ====
section
/-! DEFINITION. What the berth runtime does for a consignment: the dispatch area, the mappings, the entry registers and
the restart of a handler (R99 to R102, R107, R513). -/

namespace Sys2Proof.Machine

/-- NEAR_BYTES of a bound handler, rounded up to whole pages (R470). -/
def nearLen (s : State) (c : Cons) : Nat :=
  0x2000 + ((mget s.bindings (c.tenant * 65536 + c.desc.handler.toNat)).getD 0 + 4095) / 4096 * 4096

/-- The bytes of STAGED (R99). -/
def stagedOf (c : Cons) : List Byte :=
  ((if fDock c.desc then c.dock else c.source.getD []).take (min c.desc.srcLen.toNat 7936))

/-- The MODE byte: SPLIT and DOCK (R100). -/
def modeByte (s : State) (th : ThreadId) (c : Cons) : Nat := bit (posOf s th).split + 2 * bit (fDock c.desc)

/-- The entry block (R100). -/
def entryBlock (s : State) (th : ThreadId) (seq : Nat) (c : Cons) : List Byte :=
  toLe 8 seq ++ toLe 8 c.acceptTime ++ toLe 8 (match c.deadlineAt with
      | some p => harbourAt s p
      | none => 0xFFFFFFFFFFFFFFFF) ++ toLe 4 c.attempt
    ++ toLe 2 c.tenant ++ toLe 2 c.part ++ toLe 1 c.sq ++ toLe 1 c.dur ++ toLe 1 (modeByte s th c) ++ [0]
    ++ toLe 2 (min c.restarts 65535) ++ zeros 26

/-- The dispatch area: DESCRIPTOR, ENTRY, an empty MAILBOX and STAGED (R99). -/
def dispatchArea (s : State) (th : ThreadId) (seq : Nat) (c : Cons) : List Byte :=
  descBytes c.desc ++ entryBlock s th seq c ++ zeros 128 ++ stagedOf c

/-- The runtime mappings of a consignment (R67, R99, R470, R513). -/
def mapsOf (s : State) (th : ThreadId) (seq : Nat) (c : Cons) : List MapWin :=
  let reg (n : Nat) : Nat := (Config.runtimeReg n th.val).toNat * 2 ^ 24
  let d := c.desc
  [ { base := reg 0x008, len := nearLen s c, type := .cached, w := true, obj := .near th },
    { base := reg 0x009, len := (tget [] s.handlers d.handler.toNat).length, type := .cached, x := true, obj := .code d.handler.toNat },
    (if fDock d then
      { base := (Config.sourceVA th.val).toNat, len := d.srcLen.toNat, type := .uncached, obj := .intake seq }
     else
      { base := (Config.sourceVA th.val).toNat, len := d.srcLen.toNat, type := .host, obj := .host, off := d.srcAddr.toNat }),
    (if fCompress d then
      { base := (Config.destVA th.val).toNat, len := d.dstLen.toNat, type := .uncached, w := true, obj := .staging th }
     else
      { base := (Config.destVA th.val).toNat, len := d.dstLen.toNat, type := .host, w := true, obj := .host, off := d.dstAddr.toNat }),
    { base := reg 0x101, len := 2 ^ 24, type := .cached, user := false, w := true, obj := .sysNear th },
    { base := reg 0x102, len := 2 ^ 24, type := .cached, user := false, x := true, obj := .code 65536 } ]

/-- The registers of a thread as the runtime holds them before it enters a handler: its own resident group at WP 0, all
else 0 (R102). -/
def runtimeArch (th : ThreadId) : Arch :=
  let reg (n : Nat) : Word := Config.runtimeReg n th.val
  { nseg := reg 0x008, ucseg := reg 0x009, snseg := reg 0x101, scseg := reg 0x102, vbase := reg 0x103, sretv := reg 0x104,
    bbase := reg 0x105, blim := reg 0x106, bsp := reg 0x105, ptroot := (reg 0x10F).extractLsb' 0 16 ++ reg 0x10E }

/-- Low and high word of a far address. -/
def farLow (v : Pair) : Word := v.extractLsb' 0 24
def farHigh (v : Pair) : Word := v.extractLsb' 24 24

/-- A length that saturates at 0xFF_FFFF (R101). -/
def sat24 (n : Nat) : Word := BitVec.ofNat 24 (min n 0xFFFFFF)

/-- Far address of a partition's range (R67). -/
def partVa (s : State) (p : Nat) : Pair := BitVec.ofNat 48 (ledgerVa + p * 2 ^ s.cfg.partLog2)

/-- The entry registers w0 to w22 in order (R101). -/
def entryRegs (s : State) (th : ThreadId) (c : Cons) : List Word :=
  let d := c.desc
  let dst : Pair := if d.dstLen = 0 then 0 else Config.destVA th.val
  let src : Pair := Config.sourceVA th.val
  [ 0x000100, BitVec.ofNat 24 (min d.srcLen.toNat 7936), farLow src, farHigh src, farLow dst, farHigh dst,
    sat24 d.srcLen.toNat, sat24 d.dstLen.toNat,
    BitVec.ofNat 24 (c.tenant + fClass d * 2 ^ 10 + c.sq * 2 ^ 14 + c.dur * 2 ^ 18),
    BitVec.ofNat 24 c.part, sat24 c.attempt, BitVec.ofNat 24 (modeByte s th c),
    farLow (partVa s c.part), farHigh (partVa s c.part), BitVec.ofNat 24 s.cfg.partLog2 ]

/-- Write consecutive window registers from wN on. -/
def wrWs (a : Arch) (n : Nat) : List Word → Arch
  | [] => a
  | v :: vs => wrWs (wrW a n v) (n + 1) vs

/-- The registers at handler entry: a call with a slide of 6 into user mode at offset 0 of UCSEG (R101, R102). -/
def entryArch (s : State) (th : ThreadId) (c : Cons) : Arch :=
  let a := runtimeArch th
  wrWs (slideUp a 1 5 a.sretv) 0 (entryRegs s th c)

/-- Enter the handler of a consignment on a thread: the dispatch area is written, every other near byte and every register
is cleared, and the entry registers are set (R99 to R102). -/
def enterHandler (s : State) (th : ThreadId) (seq : Nat) (c : Cons) : State :=
  let t := thr s th
  let a := entryArch s th c
  let s := { s with mem := { s.mem with
      near := tset [] s.mem.near th.val (writeBytes [] 0 (dispatchArea s th seq c)),
      sysNear := tset [] s.mem.sysNear th.val [],
      staging := tset [] s.mem.staging th.val [] } }
  setThr s th { run := .active, seq := seq, arch := a, ck := a, maps := mapsOf s th seq c,
                stores := t.stores, nextStore := t.nextStore, lateStores := t.lateStores, failures := t.failures, graceAt := t.graceAt,
                sigMc := t.sigMc, sigDl := t.sigDl, sigEv := t.sigEv }

/-- The conflict restart of a younger thread: everything is discarded, RESTARTS rises, and the thread parks until the hold
it met ends (R107). -/
def conflictRestart (s : State) (th : ThreadId) (line : Nat) : State :=
  let seq := (thr s th).seq
  let s := cancelWork (dropCset s th) th
  let s := modThr s th (fun t => { t with
    run := .hold, gated := [], hostXlatFail := false, ended := .no,
    wait := some { why := .restart (line / 2 ^ 14) (line % 2 ^ 14), op := none, since := nowNs s } })
  modCons s seq (fun c => { c with restarts := c.restarts + 1 })

/-- A hold of R107 that a thread's access meets: the line and the sequence number that holds it. -/
def conflictOf (s : State) (th : ThreadId) (lines : List Nat) : Option (Nat × Nat) :=
  lines.findSome? (fun l => match holdOf s th.basin.val l with
    | some q => if q = (thr s th).seq then none else some (l, q)
    | none => none)

end Sys2Proof.Machine
end

