-- ==== Sys2Proof/Machine/Access.lean ====
section
/-! DEFINITION. Loads, stores and atomics of a thread to every memory type (R105 to R108, R137 to R148, R172 to R191). -/

namespace Sys2Proof.Machine

/-- Kind, address and length of an access. -/
def opKind : MemOp → AccKind
  | .load _ _ _ => .load
  | .store _ _ => .store
  | .amo _ _ _ _ _ _ => .amo
def opVa : MemOp → Nat
  | .load va _ _ => va
  | .store va _ => va
  | .amo _ va _ _ _ _ => va
def opLen : MemOp → Nat
  | .load _ n _ => n
  | .store _ bs => bs.length
  | .amo _ _ n _ _ _ => n

/-- Write the loaded bytes to their destination (R147, R128). -/
def writeLoad (a : Arch) (dest : LoadDest) (bs : List Byte) : Arch :=
  let v := leNat bs
  match dest with
  | .reg d signed =>
    let n := 8 * bs.length
    wr a d (if signed && decide (2 ^ (n - 1) ≤ v) then BitVec.ofNat 24 (v + 2 ^ 24 - 2 ^ n) else BitVec.ofNat 24 v)
  | .pair d => wrPair a d (BitVec.ofNat 48 v)
  | .freg d => wrF a d (BitVec.ofNat 64 v)

/-- Write the old value of an atomic (R148). -/
def writeOld (a : Arch) (n : Nat) (d : RegField) (old : Nat) : Arch :=
  if n = 3 then wr a d (BitVec.ofNat 24 old) else wrPair a d (BitVec.ofNat 48 old)

/-- The basin an UNCACHED byte lies in (R172). -/
def uncachedBasin (a : Nat) : Nat := Config.basinOfPA a % 4

/-- The island whose register a DEVICE byte names. -/
def deviceIsland (a : Nat) : Nat := Config.islandOfPA a

/-- What keeps an access from being performed now (R107, R188, R191): an unadopted basin or an island that is not ON. -/
def blockedBy (s : State) (th : ThreadId) (ls : List Loc) : Option WaitWhy :=
  ls.findSome? (fun l =>
    match l.type with
    | .uncached =>
      if l.obj = .phys then
        let b := uncachedBasin l.addr
        if b ≠ th.basin.val ∧ (basinOf s b).checkstopped ∧ !(basinOf s b).adopted then some (.adoption ⟨b % 4, by omega⟩) else none
      else none
    | .device => if (islandOf s (deviceIsland l.addr)).state = 3 ∧ !(islandOf s (deviceIsland l.addr)).reset then none else some (.island (deviceIsland l.addr))
    | _ => none)

/-- Poison in a line the thread loads from (R219). -/
def loadsPoison (s : State) (th : ThreadId) (ls : List Loc) : Bool :=
  ls.any (fun l => (decide (l.obj = .phys) &&
    (if l.type = .uncached then s.mem.poison.contains (l.addr / 64) else (thrLine s th (l.addr / 64)).2))
    || (decide (l.obj = .ledger) && s.mem.poisonLedger.contains (l.addr / 64)))

/-- Fill the lines of a cached load (R196, R198). -/
def fillAll (s : State) (th : ThreadId) (ls : List Loc) : State :=
  ((ls.filter (fun l => decide (l.obj = .phys) && decide (l.type = .cached))).map (fun l => l.addr / 64)).eraseDups.foldl
    (fun s line => loadFill s th line) s

/-- Complete an instruction: new registers with the PC advanced, then it retires. -/
def finish (s : State) (th : ThreadId) (a : Arch) : State := retire (setArch s th (stepPc a)) th

/-- Wait with an access (R107, R142, R191). -/
def waitFor (s : State) (th : ThreadId) (why : WaitWhy) (op : MemOp) (iova : Nat) : State :=
  modThr s th (fun t => { t with
    run := match why with
      | .hold _ _ => .hold
      | _ => t.run,
    wait := some { why := why, op := some op, since := nowNs s, iova := iova } })

/-- MACHINE_CHECK for an access: it is delivered to the thread, which stays at the access, and logged (R191, R219). -/
def machineCheck (s : State) (th : ThreadId) (cause : Nat) (ls : List Loc) : State :=
  logThread (modThr s th (fun t => { t with sigMc := satInc t.sigMc 255 })) th 0x0204 2
    (toLe 1 cause ++ toLe 8 ((ls.head?.map (·.addr)).getD 0))

/-- Perform a load whose places are known (R147); one of a poisoned line does not retire (R219). -/
def doLoad (s : State) (th : ThreadId) (ls : List Loc) (dest : LoadDest) (op : MemOp) : State :=
  if ls.any (fun l => decide (l.type = .host)) then
    waitFor s th .hostRead op ((ls.head?.map (·.addr)).getD 0)
  else match blockedBy s th ls with
    | some why => waitFor s th why op 0
    | none =>
      let dev := ls.any (fun l => decide (l.type = .device))
      let s := if dev then retryPoint s th else s
      let s := fillAll s th ls
      if loadsPoison s th ls then machineCheck s th 0 ls
      else
        let s := finish s th (writeLoad (thr s th).arch dest (ls.map (seenByte s th)))
        if dev then retryPoint s th else s

/-- Record an outstanding store of a thread (R172, R192). -/
def addStore (s : State) (th : ThreadId) (kind : StoreKind) (va : Nat) (waiting : List GStore) : State :=
  modThr s th (fun t => { t with
    stores := t.stores ++ [{ id := t.nextStore, kind := kind, va := BitVec.ofNat 48 va, waiting := waiting }],
    nextStore := t.nextStore + 1 })

/-- Store pieces to HBM uncached: never looked up in a cache (R193, R213). -/
def hbmStore (s : State) (g : GStore) : State :=
  { s with mem := { s.mem with hbm := tset 0 s.mem.hbm g.addr g.byte } }

/-- Issue a HOST store of a thread for its tenant (R26, R89 to R92, R180, R401). -/
def hostStore (s : State) (th : ThreadId) (va : Nat) (gs : List GStore) : State :=
  let t := thr s th
  let tenant := match consOf s t.seq with
    | some c => c.tenant
    | none => 0
  let iova := (gs.head?.map (·.addr)).getD 0
  if dmaDiscarded s tenant then modCons s t.seq (fun c => { c with lostResults := true })
  else if !(iovaOk s iova gs.length) then modThr s th (fun t => { t with hostXlatFail := true })
  else
    if pathUp s tenant then
      let s := gs.foldl (fun s g => objStore s th .host g.addr g.byte) (vfXlat s tenant iova)
      addStore s th (.host (tenantOf s tenant).currentPort (iova + gs.length - 1)) va []
    else addStore s th (.host (tenantOf s tenant).currentPort (iova + gs.length - 1)) va gs

/-- Perform a store whose places are known (R172, R179 to R183, R188). CACHED and LEDGERED bytes wait in the gated store
buffer (R335); the others leave the berth between two retry points (R336). -/
def doStore (s : State) (th : ThreadId) (va : Nat) (ls : List Loc) (bs : List Byte) : State :=
  let pieces : List (Loc × Byte) := ls.zip bs
  let mk (p : Loc × Byte) : GStore := { obj := p.1.obj, addr := p.1.addr, byte := p.2 }
  let gatedP := pieces.filter (fun p => decide (p.1.type = .cached) || decide (p.1.type = .ledgered))
  let buf := pieces.filter (fun p => decide (p.1.type = .uncached) && decide (p.1.obj ≠ .phys))
  let unc := pieces.filter (fun p => decide (p.1.type = .uncached) && decide (p.1.obj = .phys))
  let dev := pieces.filter (fun p => decide (p.1.type = .device))
  let host := pieces.filter (fun p => decide (p.1.type = .host))
  if buf.isEmpty && unc.isEmpty && dev.isEmpty && host.isEmpty then
    let s := modThr s th (fun t => { t with gated := t.gated ++ gatedP.map mk })
    finish s th (thr s th).arch
  else
    let s := retryPoint s th
    let s := (gatedP ++ buf).foldl (fun s p => objStore s th p.1.obj p.1.addr p.2) s
    let s := match unc with
      | [] => s
      | u :: _ =>
        let b := uncachedBasin u.1.addr
        if b = th.basin.val then (unc.map mk).foldl hbmStore s
        else if (basinOf s b).checkstopped && !(basinOf s b).adopted then addStore s th (.otherBasin ⟨b % 4, by omega⟩) va (unc.map mk)
        else addStore ((unc.map mk).foldl hbmStore s) th (.otherBasin ⟨b % 4, by omega⟩) va []
    let s := match dev with
      | [] => s
      | d :: _ =>
        let n := deviceIsland d.1.addr
        if (islandOf s n).state = 3 ∧ !(islandOf s n).reset then
          addStore ((dev.map mk).foldl (fun s g => objStore s th .device g.addr g.byte) s) th (.device n) va []
        else addStore s th (.device n) va (dev.map mk)
    let s := if host.isEmpty then s else hostStore s th va (host.map mk)
    let s := finish s th (thr s th).arch
    retryPoint s th

/-- Take every cached copy of a line from the basin, with its dirty bytes in the L3, and leave the directory DI (R214). -/
def recallAll (s : State) (b line : Nat) : State :=
  let (s, _) := l3Fetch s b line 1
  let (d, p) := cohLine s b line
  let s := (listed (dirOf s b line)).foldl (fun s a => l2SetState s (b * 4 + a) line .i) s
  let s := l3Write s b line d p
  setDir s b line {}

/-- Write a byte at the place an atomic is performed: the home for CACHED memory, the commit set for LEDGERED, the HBM
controller for UNCACHED (R106, R142, R214). -/
def amoByte (s : State) (th : ThreadId) (l : Loc) (v : Byte) : State :=
  if l.obj = .phys then
    if l.type = .uncached then hbmStore s { obj := .phys, addr := l.addr, byte := v }
    else
      let b := th.basin.val
      l3Write s b (l.addr / 64) (lineSet (cohLine s b (l.addr / 64)).1 (l.addr % 64) v) false
  else objStore s th l.obj l.addr v

/-- Perform an atomic whose places are known (R148, R214), between two retry points (R336). -/
def doAmo (s : State) (th : ThreadId) (ls : List Loc) (fn : AmoFn) (n : Nat) (d : RegField) (cmp operand : Nat) (op : MemOp) : State :=
  match blockedBy s th ls with
  | some why => waitFor s th why op 0
  | none =>
    let s := retryPoint s th
    let s := ((ls.filter (fun l => decide (l.obj = .phys) && decide (l.type = .cached))).map (fun l => l.addr / 64)).eraseDups.foldl
      (fun s line => recallAll s th.basin.val line) s
    if loadsPoison s th ls then machineCheck s th 0 ls
    else
    let old := leNat (ls.map (seenByte s th))
    let s := match amoNew fn n old cmp operand with
      | none => s
      | some v => (ls.zip (toLe n v)).foldl (fun s p => amoByte s th p.1 p.2) s
    let s := finish s th (writeOld (thr s th).arch n d old)
    retryPoint s th

/-- A store or atomic to LEDGERED, HOST or DEVICE memory after COMMIT or ABORT raises ILLEGAL (R104). -/
def afterEnd (s : State) (th : ThreadId) (k : AccKind) (ls : List Loc) : Bool :=
  decide ((thr s th).ended ≠ .no) && decide (k ≠ .load) &&
    ls.any (fun l => decide (l.type = .ledgered) || decide (l.type = .host) || decide (l.type = .device))

/-- A memory access of an instruction, from its translation on (R105 to R107, R141). -/
def access (s : State) (th : ThreadId) (op : MemOp) : State :=
  match translate s th (opKind op) (opVa op) (opLen op) with
  | .error e => takeExn s th e
  | .ok ls =>
    if afterEnd s th (opKind op) ls then takeExn s th excIllegal
    else
      let lines := linesOf ls
      let t := thr s th
      if 64 < t.csetLines.length + (lines.filter (fun l => !(t.csetLines.contains l))).length then takeExn s th excOverflow
      else match conflictOf s th lines with
        | some (line, holder) =>
          if t.seq < holder then waitFor s th (.hold (line / 2 ^ 14) (line % 2 ^ 14)) op 0
          else conflictRestart s th line
        | none =>
          let s := if lines.isEmpty then s else takeLines s th lines
          let s := tlbFill (tlbFill s th (opVa op)) th ((opVa op + opLen op - 1) % 2 ^ 48)
          match op with
          | .load _ _ dest => doLoad s th ls dest op
          | .store va bs => doStore s th va ls bs
          | .amo fn _ n d cmp operand => doAmo s th ls fn n d cmp operand op

/-- A memory instruction: its operands are read and checked, then the access is made (R147). -/
def memInstr (th : ThreadId) (f : Arch → Except Exn MemOp) (s : State) : State :=
  issue th (fun s => match f (thr s th).arch with
    | .error e => takeExn s th e
    | .ok op => access s th op) s

/-- The hold a waiting thread met has ended (R107). -/
def holdEnded (s : State) (th : ThreadId) (part line : Nat) : Bool :=
  (holdOf s th.basin.val (part * 2 ^ 14 + line)).isNone

/-- The waiting access of a thread, performed now (R107, R189). -/
def resumeAccess (s : State) (th : ThreadId) : State :=
  match (thr s th).wait with
  | none => s
  | some w =>
    match w.op with
    | none => s
    | some op => access (modThr s th (fun t => { t with wait := none, run := .active })) th op

end Sys2Proof.Machine
end

