-- ==== Sys2Proof/Machine/Cipher.lean ====
section
/-! DEFINITION. Modes of operation over the block ciphers of R259: CBC, CTR, GCM, CCM, CMAC and ISO 9797-1 MAC algorithm 3,
with counter-mode derivation (R236) and key check values (R246). The block ciphers themselves are opaque (log entry 10). -/

namespace Sys2Proof.Machine

/-- XOR of two byte strings, as long as the shorter. -/
def xorBytes (a b : List Byte) : List Byte := List.zipWith (· ^^^ ·) a b

/-- Algorithm codes of SLOT_INFO: 1 to 3 AES, 4 SM4, 5 2TDEA, 6 3TDEA, 7 and 8 HMAC (R261). -/
def isAes (alg : Nat) : Bool := 1 ≤ alg && alg ≤ 3
def isTdea (alg : Nat) : Bool := alg == 5 || alg == 6

/-- Block length of an algorithm in bytes. -/
def blockLen (alg : Nat) : Nat := if isTdea alg then 8 else 16

/-- The three DES keys of a TDEA key: a double-length key uses its left half again. -/
def desKeys (key : List Byte) : List Byte × List Byte × List Byte :=
  (slice key 0 8, slice key 8 8, if key.length ≤ 16 then slice key 0 8 else slice key 16 8)

/-- TDEA of a block. -/
def tdeaEnc (key : List Byte) (x : BitVec 64) : BitVec 64 :=
  let k := desKeys key
  Config.desEnc k.2.2 (Config.desDec k.2.1 (Config.desEnc k.1 x))
/-- Its inverse. -/
def tdeaDec (key : List Byte) (x : BitVec 64) : BitVec 64 :=
  let k := desKeys key
  Config.desDec k.1 (Config.desEnc k.2.1 (Config.desDec k.2.2 x))

/-- Encrypt one block of bytes under a key of an algorithm. -/
def encBlock (alg : Nat) (key x : List Byte) : List Byte :=
  if isTdea alg then toBe 8 (tdeaEnc key (BitVec.ofNat 64 (beNat (slice x 0 8)))).toNat
  else if alg = 4 then toBe 16 (Config.sm4Enc key (BitVec.ofNat 128 (beNat (slice x 0 16)))).toNat
  else toBe 16 (Config.aesEnc key (BitVec.ofNat 128 (beNat (slice x 0 16)))).toNat

/-- Decrypt one block. -/
def decBlock (alg : Nat) (key x : List Byte) : List Byte :=
  if isTdea alg then toBe 8 (tdeaDec key (BitVec.ofNat 64 (beNat (slice x 0 8)))).toNat
  else if alg = 4 then toBe 16 (Config.sm4Dec key (BitVec.ofNat 128 (beNat (slice x 0 16)))).toNat
  else toBe 16 (Config.aesDec key (BitVec.ofNat 128 (beNat (slice x 0 16)))).toNat

/-- Pieces of n bytes of a list; fuel is at least their number. -/
def pieces (n : Nat) : Nat → List Byte → List (List Byte)
  | 0, _ => []
  | k + 1, bs => if bs.isEmpty then [] else bs.take n :: pieces n k (bs.drop n)

/-- The blocks of a byte string, the last one perhaps short. -/
def blocksOf (n : Nat) (bs : List Byte) : List (List Byte) := pieces n (bs.length + 1) bs

/-- CBC encryption of whole blocks. -/
def cbcEnc (alg : Nat) (key : List Byte) : List Byte → List (List Byte) → List Byte
  | _, [] => []
  | iv, x :: r => let c := encBlock alg key (xorBytes iv x); c ++ cbcEnc alg key c r

/-- CBC decryption. -/
def cbcDec (alg : Nat) (key : List Byte) : List Byte → List (List Byte) → List Byte
  | _, [] => []
  | iv, c :: r => xorBytes iv (decBlock alg key c) ++ cbcDec alg key c r

/-- inc32: the last four bytes of a counter block plus 1, modulo 2^32 (R271). -/
def inc32 (b : List Byte) : List Byte := b.take 12 ++ toBe 4 ((beNat (b.drop 12) + 1) % 2 ^ 32)

/-- CTR over a byte string from an initial counter block, with inc32 (R271). -/
def ctrRun (alg : Nat) (key : List Byte) : List Byte → List (List Byte) → List Byte
  | _, [] => []
  | cb, x :: r => xorBytes x (encBlock alg key cb) ++ ctrRun alg key (inc32 cb) r

/-- CTR encryption and decryption. -/
def ctrMode (alg : Nat) (key cb data : List Byte) : List Byte := ctrRun alg key cb (blocksOf 16 data)

/-- One step of the product in GF(2^128) of SP 800-38D: the accumulated sum and the shifted operand. -/
def gfStep (x : BitVec 128) (p : BitVec 128 × BitVec 128) (i : Nat) : BitVec 128 × BitVec 128 :=
  (if x.getLsbD (127 - i) then p.1 ^^^ p.2 else p.1,
   if p.2.getLsbD 0 then (p.2 >>> 1) ^^^ (0xE1#128 <<< 120) else p.2 >>> 1)

/-- The product in GF(2^128) of SP 800-38D. -/
def gfMul (x y : BitVec 128) : BitVec 128 := ((List.range 128).foldl (gfStep x) (0, y)).1

/-- GHASH of whole blocks, each padded with zeros on its right. -/
def ghash (h : BitVec 128) (blocks : List (List Byte)) : BitVec 128 :=
  blocks.foldl (fun acc b => gfMul (acc ^^^ BitVec.ofNat 128 (beNat (slice b 0 16))) h) 0

/-- The GCM tag of 16 bytes over AAD and ciphertext with a 12-byte IV. -/
def gcmTag (alg : Nat) (key iv aad ct : List Byte) : List Byte :=
  let h := BitVec.ofNat 128 (beNat (encBlock alg key (zeros 16)))
  let lens := toBe 8 (8 * aad.length) ++ toBe 8 (8 * ct.length)
  let g := ghash h (blocksOf 16 aad ++ blocksOf 16 ct ++ [lens])
  xorBytes (toBe 16 g.toNat) (encBlock alg key (iv ++ [0, 0, 0, 1]))

/-- GCM encryption or decryption of the data part. -/
def gcmData (alg : Nat) (key iv data : List Byte) : List Byte := ctrMode alg key (inc32 (iv ++ [0, 0, 0, 1])) data

/-- The doubling of SP 800-38B. -/
def cmacDouble (x : BitVec 128) : BitVec 128 := if x.msb then (x <<< 1) ^^^ 0x87#128 else x <<< 1

/-- AES-CMAC or SM4-CMAC (SP 800-38B): 16 bytes. -/
def cmac (alg : Nat) (key data : List Byte) : List Byte :=
  let l := BitVec.ofNat 128 (beNat (encBlock alg key (zeros 16)))
  let k1 := cmacDouble l
  let bs := blocksOf 16 data
  let whole := data.length % 16 = 0 ∧ !data.isEmpty
  let last : List Byte := bs.getLast?.getD []
  let fin := if whole then xorBytes last (toBe 16 k1.toNat)
             else xorBytes (last ++ [0x80] ++ zeros (15 - last.length)) (toBe 16 (cmacDouble k1).toNat)
  let chain := bs.dropLast.foldl (fun acc b => encBlock alg key (xorBytes acc b)) (zeros 16)
  encBlock alg key (xorBytes chain fin)

/-- The CBC-MAC of CCM. -/
def cbcMac (alg : Nat) (key : List Byte) (blocks : List (List Byte)) : List Byte :=
  blocks.foldl (fun acc b => encBlock alg key (xorBytes acc (slice b 0 16))) (zeros 16)

/-- The tag of CCM (SP 800-38C), t bytes, for a nonce of 7 to 13 bytes. -/
def ccmTag (alg : Nat) (key nonce aad pt : List Byte) (t : Nat) : List Byte :=
  let q := 15 - nonce.length
  let b0 := [BitVec.ofNat 8 (bit (!aad.isEmpty) * 64 + (t - 2) / 2 * 8 + (q - 1))] ++ nonce ++ toBe q pt.length
  let a := if aad.isEmpty then [] else if aad.length < 0xFF00 then toBe 2 aad.length ++ aad else [0xFF, 0xFE] ++ toBe 4 aad.length ++ aad
  let m := cbcMac alg key ([b0] ++ blocksOf 16 a ++ blocksOf 16 pt)
  let s0 := encBlock alg key ([BitVec.ofNat 8 (q - 1)] ++ nonce ++ zeros q)
  (xorBytes m s0).take t

/-- One counter block of CCM. -/
def ccmCtr (nonce : List Byte) (i : Nat) : List Byte := [BitVec.ofNat 8 (14 - nonce.length)] ++ nonce ++ toBe (15 - nonce.length) i

/-- The data part of CCM. -/
def ccmData (alg : Nat) (key nonce data : List Byte) : List Byte :=
  (blocksOf 16 data).zipIdx.flatMap (fun e => xorBytes e.1 (encBlock alg key (ccmCtr nonce (e.2 + 1))))

/-- Padding method 1 or 2 of ISO 9797-1 to blocks of 8 bytes. -/
def pad9797 (method2 : Bool) (data : List Byte) : List Byte :=
  let d := if method2 then data ++ [0x80] else data
  let d := if d.isEmpty then zeros 8 else d
  d ++ zeros ((8 - d.length % 8) % 8)

/-- ISO 9797-1 MAC algorithm 3: single-DES chaining under the left half and a final triple-DES step (R285). -/
def mac3 (key : List Byte) (method2 : Bool) (data : List Byte) : List Byte :=
  let left := slice key 0 8
  let chain := (blocksOf 8 (pad9797 method2 data)).foldl
    (fun acc b => Config.desEnc left (acc ^^^ BitVec.ofNat 64 (beNat b))) (0 : BitVec 64)
  toBe 8 (Config.desEnc left (Config.desDec (slice key 8 8) chain)).toNat

/-- HMAC-SM3: 32 bytes. -/
def hmacBytes (key data : List Byte) : List Byte := toBe 32 (Config.hmacSm3 key data).toNat

/-- The PRF input of R236 without its leading counter. -/
def kdfTail (label : List Byte) (tenant : Nat) (usage : List Byte) (a : Nat) (context : List Byte) (l : Nat) : List Byte :=
  label ++ [0] ++ toBe 2 tenant ++ usage ++ toBe 1 a ++ toBe 1 context.length ++ context ++ toBe 4 l

/-- Counter-mode derivation (R236): the leftmost L bits of K(1) ‖ K(2) ‖ …; PRF 0 AES-CMAC, 1 HMAC-SM3. -/
def kdf (prf alg : Nat) (base tail : List Byte) (l : Nat) : List Byte :=
  let k (i : Nat) : List Byte := if prf = 0 then cmac alg base (toBe 4 i ++ tail) else hmacBytes base (toBe 4 i ++ tail)
  ((k 1 ++ k 2).take (l / 8))

/-- The root of a tenant (R233). -/
def tenantRoot (t : Nat) (label : List Byte) : List Byte :=
  let name : List Byte := [0x4B, 0x4D, 0x42, 0x20, 0x53, 0x58, 0x4F, 0x20, 0x54, 0x45, 0x4E, 0x41, 0x4E, 0x54, 0x20, 0x52, 0x4F, 0x4F, 0x54]
  let m (i : Nat) : List Byte := toBe 4 i ++ name ++ [0] ++ toBe 2 t ++ toBe 1 label.length ++ label ++ toBe 4 256
  let dev := toBe 32 Config.deviceRoot.toNat
  cmac 3 dev (m 1) ++ cmac 3 dev (m 2)

/-- The 5 KCV bytes of a key of an algorithm code; asymmetric keys have 0 (R246). -/
def kcvOf (alg : Nat) (key : List Byte) : List Byte :=
  if isAes alg then (cmac alg key (zeros 16)).take 5
  else if isTdea alg then (encBlock alg key (zeros 8)).take 3 ++ [0, 0]
  else if alg = 4 then (encBlock 4 key (zeros 16)).take 5
  else if alg = 7 ∨ alg = 8 then (hmacBytes key (zeros 32)).take 5
  else zeros 5

/-- n random bytes of the Strongroom's generator, free values by a counter (log entry 8). -/
def randomBytes (ctr n : Nat) : List Byte := (List.range n).map (fun i => Config.freeByte (ctr * 65536 + i))

end Sys2Proof.Machine
end

