-- ==== Sys2Proof/Machine/ControlOps.lean ====
section
/-! DEFINITION. Branches, calls, returns and the system instructions of Windlass (05). -/

namespace Sys2Proof.Machine

/-- A branch that is taken when a condition holds; an offset that leads outside the segment raises FETCH_FAULT only when it
is taken (R126, R147). -/
def branch (th : ThreadId) (off : Int) (ok : Bool) (cond : Arch → Bool) (s : State) : Out :=
  .next (jumpInstr th (fun r =>
    if !ok then .error excIllegal
    else if cond r then goto r (relTarget r.pc off) else .ok (stepPc r)) s)

/-- A compare of rA with zero and branch (R147). -/
def branchZ (th : ThreadId) (a : RegField) (off : BitVec 10) (cond : Int → Bool) (s : State) : Out :=
  branch th off.toInt true (fun r => cond (rd r a).toInt) s

/-- A compare of two registers and branch (R147). -/
def branchC (th : ThreadId) (a b : RegField) (off : BitVec 8) (cond : Word → Word → Bool) (s : State) : Out :=
  branch th off.toInt true (fun r => cond (rd r a) (rd r b)) s

/-- BEQZ (R147). -/
def execBeqz (th : ThreadId) (a : RegField) (off : BitVec 10) (s : State) : Out := branchZ th a off (fun x => decide (x = 0)) s
/-- BNEZ (R147). -/
def execBnez (th : ThreadId) (a : RegField) (off : BitVec 10) (s : State) : Out := branchZ th a off (fun x => decide (x ≠ 0)) s
/-- BLTZ (R147). -/
def execBltz (th : ThreadId) (a : RegField) (off : BitVec 10) (s : State) : Out := branchZ th a off (fun x => decide (x < 0)) s
/-- BGEZ (R147). -/
def execBgez (th : ThreadId) (a : RegField) (off : BitVec 10) (s : State) : Out := branchZ th a off (fun x => decide (0 ≤ x)) s
/-- BGTZ (R147). -/
def execBgtz (th : ThreadId) (a : RegField) (off : BitVec 10) (s : State) : Out := branchZ th a off (fun x => decide (0 < x)) s
/-- BLEZ (R147). -/
def execBlez (th : ThreadId) (a : RegField) (off : BitVec 10) (s : State) : Out := branchZ th a off (fun x => decide (x ≤ 0)) s
/-- BCS: A must be g0 (R147). -/
def execBcs (th : ThreadId) (a : RegField) (off : BitVec 10) (s : State) : Out := branch th off.toInt (a.val == 0) flagC s
/-- BCC: A must be g0 (R147). -/
def execBcc (th : ThreadId) (a : RegField) (off : BitVec 10) (s : State) : Out := branch th off.toInt (a.val == 0) (fun r => !(flagC r)) s
/-- BEQ (R147). -/
def execBeq (th : ThreadId) (a b : RegField) (off : BitVec 8) (s : State) : Out := branchC th a b off (fun x y => x == y) s
/-- BNE (R147). -/
def execBne (th : ThreadId) (a b : RegField) (off : BitVec 8) (s : State) : Out := branchC th a b off (fun x y => x != y) s
/-- BLT (R147). -/
def execBlt (th : ThreadId) (a b : RegField) (off : BitVec 8) (s : State) : Out := branchC th a b off (fun x y => x.slt y) s
/-- BGE (R147). -/
def execBge (th : ThreadId) (a b : RegField) (off : BitVec 8) (s : State) : Out := branchC th a b off (fun x y => !(x.slt y)) s
/-- BLTU (R147). -/
def execBltu (th : ThreadId) (a b : RegField) (off : BitVec 8) (s : State) : Out := branchC th a b off (fun x y => x.ult y) s
/-- BGEU (R147). -/
def execBgeu (th : ThreadId) (a b : RegField) (off : BitVec 8) (s : State) : Out := branchC th a b off (fun x y => !(x.ult y)) s
/-- J (R147). -/
def execJ (th : ThreadId) (off : BitVec 16) (s : State) : Out := branch th off.toInt true (fun _ => true) s

/-- The new registers of a call with k groups, w(24 − 6k) to w22: each is 0 or what an earlier frame of the consignment left
there (R131), which the spec leaves open. -/
def freshRegs (c k : Nat) (a : Arch) : Arch :=
  (List.range (6 * k - 1)).foldl (fun a i => if Config.freshZero c (24 - 6 * k + i) then wrW a (24 - 6 * k + i) 0 else a) a

/-- A call with k groups to a target: the target is checked, then the spill is made, then the window slides (R131, R134,
R149, R156). -/
def callTo (th : ThreadId) (k : Nat) (target : Arch → Int) (ok : Bool) (s : State) : Out :=
  .next (issue th (fun s =>
    let t := thr s th
    let a := t.arch
    if !ok then takeExn s th excIllegal
    else match goto a (target a) with
      | .error e => takeExn s th e
      | .ok j =>
        match spillTo s th (k + 1) 28 a t.gated with
        | none => takeExn s th excWindow
        | some (b, g) =>
          let b := { freshRegs s.freeCtr k (slideUp b k (BitVec.ofNat 3 k) (a.pc + 3)) with pc := j.pc }
          retire (setThr { s with freeCtr := s.freeCtr + 1 } th { t with arch := b, gated := g }) th) s)

/-- CALLG1 (R149). -/
def execCallg1 (th : ThreadId) (off : BitVec 16) (s : State) : Out := callTo th 1 (fun r => relTarget r.pc off.toInt) true s
/-- CALLG2 (R149). -/
def execCallg2 (th : ThreadId) (off : BitVec 16) (s : State) : Out := callTo th 2 (fun r => relTarget r.pc off.toInt) true s
/-- CALLG3 (R149). -/
def execCallg3 (th : ThreadId) (off : BitVec 16) (s : State) : Out := callTo th 3 (fun r => relTarget r.pc off.toInt) true s

/-- D and B must be 0 in every JUMP form (R147). -/
def jumpForm (d b : RegField) : Bool := d.val == 0 && b.val == 0

/-- JR (R147). -/
def execJr (th : ThreadId) (d a b : RegField) (s : State) : Out :=
  .next (jumpInstr th (fun r => if jumpForm d b then goto r (rd r a).toNat else .error excIllegal) s)
/-- CALLRG1 (R149). -/
def execCallrg1 (th : ThreadId) (d a b : RegField) (s : State) : Out := callTo th 1 (fun r => (rd r a).toNat) (jumpForm d b) s
/-- CALLRG2 (R149). -/
def execCallrg2 (th : ThreadId) (d a b : RegField) (s : State) : Out := callTo th 2 (fun r => (rd r a).toNat) (jumpForm d b) s
/-- CALLRG3 (R149). -/
def execCallrg3 (th : ThreadId) (d a b : RegField) (s : State) : Out := callTo th 3 (fun r => (rd r a).toNat) (jumpForm d b) s

/-- The registers with STATUS.MODE set to system or user. -/
def withMode (a : Arch) (sys : Bool) : Arch := { a with status := putBit a.status 0 sys }

/-- The end of a handler by RET into the runtime: with neither COMMIT nor ABORT it is FAILED as for ABORT, with HVAL at RET
(R103). -/
def endByRet (s : State) (th : ThreadId) : State :=
  let t := thr s th
  if t.seq = 0 then s
  else
    let expired := match consOf s t.seq with
      | some c => c.expired
      | none => false
    let r : Option EndReport := if t.ended = .no then
        some { committed := false, status := if expired then 0x0503 else 0x0603, value := t.arch.hval, resultLen := 0 }
      else none
    freeIfDone (endThread s th r) th

/-- RET (R133, R135, R149): on LINK 0b101 to SRETV in system mode whatever w23 holds, which ends the handler (R103). -/
def execRet (th : ThreadId) (d a b : RegField) (s : State) : Out :=
  .next (issue th (fun s =>
    let r := (thr s th).arch
    let l := (r.link.get r.wp).toNat
    if d.val ≠ 0 ∨ a.val ≠ 0 ∨ b.val ≠ 0 ∨ l = 0 ∨ l = 4 ∨ 6 ≤ l then takeExn s th excIllegal
    else
      let k := if l = 5 then 1 else l
      let r' := if l = 5 then withMode r true else r
      match goto r' (if l = 5 then r.sretv.toNat else (rdW r 23).toNat) with
      | .error e => takeExn s th e
      | .ok j =>
        match fillTo s th k 28 r with
        | none => takeExn s th excWindow
        | some f =>
          let f := { slideDown f k with pc := j.pc, status := j.status }
          let s := retire (setArch s th f) th
          if l = 5 then endByRet s th else s) s)

/-- The signals of R117 by priority, cause code and pending count, highest first. -/
def signals (t : Thread) : List (Nat × Nat × Nat) := [(7, 0x0D, t.sigMc), (5, 0x0C, t.sigDl), (3, 0x00, t.sigEv)]

/-- The highest pending signal above a priority (R117, R120). -/
def signalAbove (t : Thread) (p : Nat) : Option (Nat × Nat × Nat) :=
  (signals t).find? (fun x => decide (p < x.1) && decide (0 < x.2.2))

/-- The pending counter of a signal set to a value. -/
def setSignal (t : Thread) (pri n : Nat) : Thread :=
  if pri = 7 then { t with sigMc := n } else if pri = 5 then { t with sigDl := n } else { t with sigEv := n }

/-- Take a signal without sliding the window: the saved PC and status stay, w21 takes the count (R119, R120). -/
def signalDirect (s : State) (th : ThreadId) (sig : Nat × Nat × Nat) : State :=
  let t := thr s th
  let a := wrW t.arch 21 (BitVec.ofNat 24 sig.2.2)
  let a := { a with status := entryStatus a.status sig.2.1 sig.1, excinfo := BitVec.ofNat 24 sig.2.1, pc := vectorPc a sig.2.1 }
  retryPoint (setThr s th (setSignal { t with arch := a, entering := some (sig.1, sig.2.2) } sig.1 0)) th

/-- RETS (R120, R133, R158); where several conditions hold, the first of R156 is raised. -/
def execRets (th : ThreadId) (d a b : RegField) (s : State) : Out :=
  .next (issue th (fun s =>
    let t := thr s th
    let r := t.arch
    let l := (r.link.get r.wp).toNat
    if d.val ≠ 0 ∨ a.val ≠ 0 ∨ b.val ≠ 0 then takeExn s th excIllegal
    else if l ≠ 7 then takeExn s th excIllegal
    else if !(sysMode r) then takeExn s th excPrivilege
    else
      let saved := rdW r 22
      match signalAbove t (saved.extractLsb' 1 3).toNat with
      | some sig => signalDirect s th sig
      | none =>
        let r' := { r with status := (r.status &&& ~~~ 0x00007F#24) ||| (saved &&& 0x00007F#24) }
        match goto r' (rdW r 23).toNat with
        | .error e => takeExn s th e
        | .ok j =>
          match fillTo s th 1 28 r with
          | none => takeExn s th excWindow
          | some f => retire (setArch s th { slideDown f 1 with pc := j.pc, status := r'.status }) th) s)

/-- CALLU: a call with slide 6 to rA in UCSEG in user mode, LINK 0b101, callee w23 = SRETV (R133). -/
def execCallu (th : ThreadId) (d a b : RegField) (s : State) : Out :=
  .next (issue th (fun s =>
    let t := thr s th
    let r := t.arch
    if !(jumpForm d b) then takeExn s th excIllegal
    else if !(sysMode r) then takeExn s th excPrivilege
    else match goto (withMode r false) (rd r a).toNat with
      | .error e => takeExn s th e
      | .ok j =>
        match spillTo s th 2 28 r t.gated with
        | none => takeExn s th excWindow
        | some (f, g) =>
          let f := { freshRegs s.freeCtr 1 (slideUp f 1 5 r.sretv) with pc := j.pc, status := j.status }
          retire (setThr { s with freeCtr := s.freeCtr + 1 } th { t with arch := f, gated := g }) th) s)

/-- ILLEGAL: an undefined word raises ILLEGAL (R127). -/
def execIllegal (th : ThreadId) (_w : Word) (s : State) : Out := .next (issue th (fun s => takeExn s th excIllegal) s)

/-- SYSCALL: D must be 0; EXCINFO.DETAIL takes A:B and the saved PC is the next instruction (R150, R156). -/
def execSyscall (th : ThreadId) (d a b : RegField) (s : State) : Out :=
  .next (issue th (fun s => takeExn s th (if d.val = 0 then excSyscall (a.val * 32 + b.val) else excIllegal)) s)

/-- YIELD gives up the thread's next issue slot and nothing more (R96). -/
def execYield (th : ThreadId) (_d _a _b : RegField) (s : State) : Out :=
  .next (issue th (fun s =>
    let s := retire (setArch s th (stepPc (thr s th).arch)) th
    modThr s th (fun t => { t with yielded := true })) s)

/-- USTAT as its register reads (R145). -/
def ustat (a : Arch) : Word := BitVec.ofNat 24 (bit (flagDecinv a) * 4 + bit (flagV a) * 2 + bit (flagC a))

/-- WSTAT as its register reads (R145). -/
def wstat (a : Arch) : Word := BitVec.ofNat 24 (a.res % 32 * 32 + a.wp.val)

/-- PLACE as its register reads (R145). -/
def placeReg (s : State) (th : ThreadId) : Word :=
  let v := posOf s th
  BitVec.ofNat 24 (bit v.split * 2048 + th.val / 256 * 512 + th.val / 64 % 4 * 128 + (v.pair.getD 0) % 32 * 4 + th.slot)

/-- The value of a system register, where the selector is listed (R145). -/
def sysRead (s : State) (th : ThreadId) (a : Arch) (sel : Nat) : Option Word :=
  match sel with
  | 0x000 => some (ustat a)
  | 0x001 => some a.fcsr
  | 0x002 => some a.hval
  | 0x003 => some a.rlen
  | 0x004 => some a.dlvec
  | 0x008 => some a.nseg
  | 0x009 => some a.ucseg
  | 0x00A => some (placeReg s th)
  | 0x100 => some a.status
  | 0x101 => some a.snseg
  | 0x102 => some a.scseg
  | 0x103 => some a.vbase
  | 0x104 => some a.sretv
  | 0x105 => some a.bbase
  | 0x106 => some a.blim
  | 0x107 => some a.bsp
  | 0x108 => some (wstat a)
  | 0x109 => some a.excinfo
  | 0x10A => some (a.faultVa.extractLsb' 0 24)
  | 0x10B => some (a.faultVa.extractLsb' 24 24)
  | 0x10C => some (a.moorFaultAddr.extractLsb' 0 24)
  | 0x10D => some (a.moorFaultAddr.extractLsb' 24 24)
  | 0x10E => some (a.ptroot.extractLsb' 0 24)
  | 0x10F => some ((a.ptroot.extractLsb' 24 16).setWidth 24)
  | _ => none

/-- Write a system register, where it is writable in system mode; reserved bits stay 0 (R9, R145, R163). -/
def sysWrite (a : Arch) (sel : Nat) (v : Word) : Option Arch :=
  match sel with
  | 0x000 => some { a with status := putBit (putBit (putBit a.status 4 (v.getLsbD 0)) 5 (v.getLsbD 1)) 6 (v.getLsbD 2) }
  | 0x001 => some { a with fcsr := v &&& 0x007FFF }
  | 0x002 => some { a with hval := v }
  | 0x003 => some { a with rlen := v }
  | 0x004 => some { a with dlvec := v }
  | 0x008 => some { a with nseg := v }
  | 0x009 => some { a with ucseg := v }
  | 0x100 => some { a with status := v &&& 0x00FF7F }
  | 0x101 => some { a with snseg := v }
  | 0x102 => some { a with scseg := v }
  | 0x103 => some { a with vbase := v }
  | 0x104 => some { a with sretv := v }
  | 0x105 => some { a with bbase := v }
  | 0x106 => some { a with blim := v }
  | 0x107 => some { a with bsp := v }
  | 0x10E => some { a with ptroot := a.ptroot.extractLsb' 24 16 ++ v }
  | 0x10F => some { a with ptroot := v.extractLsb' 0 16 ++ a.ptroot.extractLsb' 0 24 }
  | _ => none

/-- MFS (R144, R145). -/
def execMfs (th : ThreadId) (d : RegField) (sel : BitVec 10) (s : State) : Out :=
  .next (regInstr th (fun a =>
    if !(sysMode a) ∧ 0x100 ≤ sel.toNat then .error excPrivilege
    else match sysRead s th a sel.toNat with
      | none => .error excIllegal
      | some v => .ok (wr a d v)) s)

/-- MTS (R144, R145): PLACE is read-only in both modes, and ILLEGAL comes before PRIVILEGE but for the selector range (R156). -/
def execMts (th : ThreadId) (d : RegField) (sel : BitVec 10) (s : State) : Out :=
  .next (regInstr th (fun a =>
    let n := sel.toNat
    if !(sysMode a) ∧ (0x100 ≤ n ∨ n = 0x008 ∨ n = 0x009) then .error excPrivilege
    else match sysWrite a n (rd a d) with
      | none => .error excIllegal
      | some a => .ok a) s)

/-- STATE of mailbox entry i of a thread (R115). -/
def mboxState (s : State) (th : ThreadId) (i : Nat) : Nat := (tget 0 (tget [] s.mem.near th.val) (0x80 + 16 * i)).toNat

/-- Write bytes of a thread's near segment for the Harbour. -/
def nearWrite (s : State) (th : ThreadId) (off : Nat) (bs : List Byte) : State :=
  { s with mem := { s.mem with near := tset [] s.mem.near th.val (writeBytes (tget [] s.mem.near th.val) off bs) } }

/-- Collect a result for a thread at WAITCP: the status word, or the lowest done mailbox entry, is written and freed; none
where nothing is posted (R112, R116). -/
def collect (s : State) (th : ThreadId) (n : Nat) (d : RegField) : Option State :=
  let t := thr s th
  if h : n < 3 then
    match t.cp.get ⟨n, h⟩ with
    | .posted st => some (finish (setThr s th { t with run := .active, cp := t.cp.set n .idle h }) th (wr t.arch d st))
    | _ => none
  else
    match (List.range 8).find? (fun i => mboxState s th i == 2) with
    | none => none
    | some i =>
      let s := nearWrite s th (0x80 + 16 * i) [3]
      let s := modThr s th (fun t => { t with run := .active, jobs := if hi : i < 8 then t.jobs.set i 0 hi else t.jobs })
      some (finish s th (wr t.arch d (BitVec.ofNat 24 i)))

/-- WAITCP: A of 0 to 3 names CP0 to CP3, 4 to 7 raise UNDEF_CP, 8 to 31 and B not 0 raise ILLEGAL; it parks until the
result is posted (R112, R116). -/
def execWaitcp (th : ThreadId) (d a b : RegField) (s : State) : Out :=
  .next (issue th (fun s =>
    if 8 ≤ a.val ∨ b.val ≠ 0 then takeExn s th excIllegal
    else if 4 ≤ a.val then takeExn s th excUndefCp
    else match collect s th a.val d with
      | some s => s
      | none => modThr s th (fun t => { t with run := .waitcp a.val d })) s)

/-- RDTIME: triple(D) := harbour clock; A and B must be 0 (R129, R151). -/
def execRdtime (th : ThreadId) (d a b : RegField) (s : State) : Out :=
  .next (regInstr th (fun r =>
    if tripleOk d && a.val == 0 && b.val == 0 then .ok (wrTriple r d (BitVec.ofNat 64 (harbourNs s))) else .error excIllegal) s)

/-- TLBINV discards the thread's translations; fields must be 0 (R142, R144). -/
def execTlbinv (th : ThreadId) (d a b : RegField) (s : State) : Out :=
  .next (issue th (fun s =>
    if d.val ≠ 0 ∨ a.val ≠ 0 ∨ b.val ≠ 0 then takeExn s th excIllegal
    else if !(sysMode (thr s th).arch) then takeExn s th excPrivilege
    else finish (modThr s th (fun t => { t with tlb := [] })) th (thr s th).arch) s)

end Sys2Proof.Machine
end

