-- ==== Sys2Proof/Machine/LogOps.lean ====
section
/-! DEFINITION. Event records in queues (R46 to R53, R365) and
the Harbour halt (R353). -/

namespace Sys2Proof.Machine

/-- The Harbour halts: every island but the Lighthouse and the Pilot stops, ALERT# is asserted, PF0 of each port reports an
uncorrectable internal error, and the halt is logged with the code of the entry that caused it (R353). Sources 0xB04 and 0xB05 carry the AER bit (R357). -/
def haltHarbour (s : State) (code : Nat) : State :=
  let s := logIsland s 0x0A02 3 islLighthouse (toLe 2 code)
  let s := { s with
    dev := { s.dev with st := .halted, alert := true },
    islands := s.islands.map (fun e => if e.1 = islLighthouse ∨ e.1 = islPilot then e else (e.1, { e.2 with state := 0 })),
    ports := tset {} (tset {} s.ports 0 { portOf s .a with aerInternal := true }) 1 { portOf s .b with aerInternal := true } }
  arrive (arrive s 0xB04 22 false) 0xB05 22 false

/-! Event queues. -/

/-- Ring size in records (R49). -/
def eqSize (q : Eq) : Nat := 2 ^ q.sizeLog2

/-- The ring has room for one more record (R50). -/
def eqRoom (q : Eq) : Bool := (q.tail + 1) % eqSize q != q.head

/-- A queue with one record written at TAIL: the index moves on, PHASE flips at the wrap, and the record is unsignalled
(R49, R365). -/
def eqAdvance (q : Eq) (now : Nat) : Eq :=
  let t := (q.tail + 1) % eqSize q
  { q with tail := t, phase := if t = 0 then !q.phase else q.phase, unsignalled := q.unsignalled + 1,
           window := match q.window with
             | some w => some w
             | none => some now }

/-- Write a record's 32 bytes into a ring in host memory (R46, R49). -/
def ringWrite (s : State) (q : Eq) (r : EvRec) : State :=
  { s with mem := { s.mem with host := writeBytes s.mem.host (q.base + 32 * q.tail) (evBytes r q.phase) } }

/-- An event queue of a tenant. -/
def tenEq (s : State) (t n : Nat) : Eq := tget {} (tenantOf s t).eqs n
/-- Replace an event queue of a tenant. -/
def setTenEq (s : State) (t n : Nat) (q : Eq) : State :=
  setTenant s t { tenantOf s t with eqs := tset {} (tenantOf s t).eqs n q }
/-- A submission queue of a tenant. -/
def sqOf (s : State) (t n : Nat) : Sq := tget {} (tenantOf s t).sqs n
/-- Replace a submission queue of a tenant. -/
def setSq (s : State) (t n : Nat) (q : Sq) : State :=
  setTenant s t { tenantOf s t with sqs := tset {} (tenantOf s t).sqs n q }

/-- One tick of the harbour clock: a hub cycle of 10 ns, with a slew of at most 100 ppm (R465, log entry 2). -/
def tick (s : State) : State :=
  let d : Int := if 0 < s.disc.slew then 1 else if s.disc.slew < 0 then -1 else 0
  { s with clock := { s.clock with ps := (Int.ofNat (s.clock.ps + 10000) + d).toNat }, disc := { s.disc with slew := s.disc.slew - d } }

end Sys2Proof.Machine
end

