-- ==== Sys2Proof/Machine/OrderOps.lean ====
section
/-! DEFINITION. Fences, MOOR and its timers, and the completion of stores (07), and the cache maintenance instructions
(05 System, ordering and cache; 08 Locked ways and maintenance). -/

namespace Sys2Proof.Machine

/-- D, A and B of an ORDER form must be 0 (R147). -/
def orderForm (d a b : RegField) : Bool := d.val == 0 && a.val == 0 && b.val == 0

/-- A fence that orders stores: the thread's gated stores are performed before it retires (R172, R176, R335). -/
def execFence (th : ThreadId) (d a b : RegField) (s : State) : Out :=
  .next (issue th (fun s =>
    if orderForm d a b then (let s := retryPoint s th; finish s th (thr s th).arch) else takeExn s th excIllegal) s)
/-- FENCE.LL: earlier loads are performed before later loads (R176). -/
def execFenceLl (th : ThreadId) (d a b : RegField) (s : State) : Out :=
  .next (issue th (fun s => if orderForm d a b then finish s th (thr s th).arch else takeExn s th excIllegal) s)
/-- FENCE.SS: earlier stores are performed before later stores (R176). -/
def execFenceSs (th : ThreadId) (d a b : RegField) (s : State) : Out :=
  .next (issue th (fun s =>
    if orderForm d a b then (let s := retryPoint s th; finish s th (thr s th).arch) else takeExn s th excIllegal) s)

/-- The oldest recorded failure in program order (R188). -/
def oldestFail (l : List SFail) : Option SFail :=
  l.foldl (fun acc f => match acc with
    | none => some f
    | some g => if f.id < g.id then some f else some g) none

/-- BARRIER_FAULT with the oldest recorded failure; the failures are then reported (R188, R190). -/
def barrierFault (s : State) (th : ThreadId) (f : SFail) : State :=
  let s := modThr s th (fun t => { t with failures := [], moorAt := none, run := .active })
  takeExn s th { code := 9, detail := f.reason.toNat, moorVa := some f.va }

/-- Retire a MOOR whose stores are complete, or raise BARRIER_FAULT where a failure is recorded (R186, R188). -/
def moorSettle (s : State) (th : ThreadId) : State :=
  let t := thr s th
  if t.run = .moor then
    match oldestFail t.failures with
    | some f => barrierFault s th f
    | none =>
      if t.stores.isEmpty then
        retryPoint (finish (modThr s th (fun t => { t with run := .active, moorAt := none })) th t.arch) th
      else s
  else s

/-- MOOR (R186, R187, R190). -/
def execMoor (th : ThreadId) (d a b : RegField) (s : State) : Out :=
  .next (issue th (fun s =>
    if !(orderForm d a b) then takeExn s th excIllegal
    else
      let s := retryPoint s th
      let s := modThr s th (fun t => { t with run := .moor, moorAt := some (nowNs s), moorHostAt := nowNs s })
      moorSettle s th) s)

/-- A store to HOST memory. -/
def isHostStore (k : StoreKind) : Bool :=
  match k with
  | .host _ _ => true
  | _ => false

/-- Record failures against a thread. Once its consignment has ended, by COMMIT or ABORT or with its handler, they are only
logged (R104, R188, R190). -/
def recordFails (s : State) (th : ThreadId) (fs : List SFail) : State :=
  let t := thr s th
  if t.seq = 0 ∨ t.run = .ending ∨ t.ended ≠ .no then
    fs.foldl (fun s f => logThread s th 0x010C 0 (toLe 1 f.reason.toNat ++ toLe 6 f.va.toNat)) s
  else setThr s th { t with failures := t.failures ++ fs }

/-- A store has failed (R188, R190). -/
def failStore (s : State) (th : ThreadId) (o : OStore) (reason : Nat) : State :=
  let s := modThr s th (fun t => { t with stores := t.stores.filter (fun x => x.id != o.id) })
  moorSettle (recordFails s th [{ id := o.id, va := o.va, reason := BitVec.ofNat 8 reason, host := isHostStore o.kind }]) th

/-- The tenant of a thread's consignment. -/
def tenantOfThr (s : State) (th : ThreadId) : Nat :=
  match consOf s (thr s th).seq with
  | some c => c.tenant
  | none => 0

/-- A HOST store through a port. -/
def hostOn (p : Port) (o : OStore) : Bool :=
  match o.kind with
  | .host q _ => decide (q = p)
  | _ => false

/-- A HOST store re-driven through the other port (R188, R90). -/
def otherPort (o : OStore) : OStore :=
  match o.kind with
  | .host q a => { o with reissued := true, kind := .host q.other a }
  | _ => o

/-- A store that answers after its timer's expiry was recorded is late: it is discarded and logged, timer 2 of R94. -/
def lateStore (s : State) (th : ThreadId) (id : Nat) : State :=
  match mget (thr s th).lateStores id with
  | none => s
  | some e =>
    logThread (modThr s th (fun t => { t with lateStores := mdel t.lateStores id })) th 0x0502 0 (toLe 1 2 ++ toLe 8 (nowNs s - e))

/-- STORE_COMPLETION: the endpoint of an outstanding store answers (R172, R186, R188, R189). A DEVICE or cross-basin store
is confirmed, or its drop is reported. For HOST stores it is the flushing read of a waiting MOOR: success completes every
HOST store of that port; an error is re-issued once through the other port, and then fails. -/
def execStoreCompletion (th : ThreadId) (id : Nat) (r : ReadResult) (s : State) : Out :=
  .next (
    let t := thr s th
    match t.stores.find? (fun o => o.id == id) with
    | none => lateStore s th id
    | some o =>
      match o.kind with
      | .device _ =>
        match r with
        | .ok _ => if o.waiting.isEmpty then moorSettle (setThr s th { t with stores := t.stores.filter (fun x => x.id != id) }) th else s
        | _ => failStore s th o 4
      | .otherBasin _ =>
        match r with
        | .ok _ => if o.waiting.isEmpty then moorSettle (setThr s th { t with stores := t.stores.filter (fun x => x.id != id) }) th else s
        | _ => s
      | .host p _ =>
        if t.run ≠ .moor ∨ !o.waiting.isEmpty then s
        else match r with
          | .ok _ => moorSettle (setThr s th { t with stores := t.stores.filter (fun x => !(hostOn p x)) }) th
          | _ =>
            if !o.reissued && vfInServiceB s p.other (tenantOfThr s th) then
              setThr s th { t with stores := mapIf (hostOn p) otherPort t.stores }
            else failStore s th o 2)

/-- The limit in ns of an awaited store, where it has one (R187). -/
def moorLimit : StoreKind → Nat
  | .device _ => 50000
  | .host _ _ => 50000
  | .otherBasin _ => 20000

/-- The reason a store fails with when its MOOR timer expires (R188). -/
def moorReason (s : State) : StoreKind → Nat
  | .device _ => 3
  | .host _ _ => 1
  | .otherBasin b => if (basinOf s b.val).checkstopped && !(basinOf s b.val).adopted then 5 else 6

/-- MOOR_TIMER_EXPIRY: a completion timer of a waiting MOOR expires with a store incomplete (R187, R188). -/
def execMoorTimerExpiry (th : ThreadId) (s : State) : Out :=
  .next (
    let t := thr s th
    match t.moorAt with
    | none => s
    | some start =>
      if t.run ≠ .moor then s
      else
        let begun (k : StoreKind) : Nat := if isHostStore k then t.moorHostAt else start
        let due := t.stores.filter (fun o => decide (begun o.kind + moorLimit o.kind ≤ nowNs s))
        match due with
        | [] => s
        | _ =>
          let fs : List SFail := due.map (fun o => { id := o.id, va := o.va, reason := BitVec.ofNat 8 (moorReason s o.kind), host := isHostStore o.kind })
          moorSettle (recordFails (setThr s th
            { t with stores := t.stores.filter (fun o => !(due.any (fun x => x.id == o.id))),
                     lateStores := due.foldl (fun (l : Table Nat) o => mset l o.id (begun o.kind + moorLimit o.kind)) t.lateStores }) th fs) th)

/-- UNCACHED_ADOPTION_TIMEOUT: 20 µs after its issue an UNCACHED load or atomic finds no home, and MACHINE_CHECK is
delivered to the thread, whose saved PC names the waiting instruction (R191). -/
def execUncachedAdoptionTimeout (th : ThreadId) (s : State) : Out :=
  .next (
    let t := thr s th
    match t.wait with
    | some w =>
      match w.why with
      | .adoption b =>
        if w.since + 20000 ≤ nowNs s ∧ (basinOf s b.val).checkstopped ∧ !(basinOf s b.val).adopted then
          let ls := match w.op with
            | some op => (translate s th (opKind op) (opVa op) (opLen op)).toOption.getD []
            | none => []
          machineCheck (setThr s th { t with wait := none }) th 1 ls
        else s
      | _ => s
    | none => s)

/-! Cache maintenance (R205 to R208). -/

/-- Clean a line: every M or O copy of the basin is written to HBM; M becomes E, O becomes S, the L3 copy is clean (R206). -/
def cleanLine (s : State) (b line : Nat) : State :=
  let d := dirOf s b line
  let (data, poison) := cohLine s b line
  let dirtyL3 := match cFind (cohOf s b).l3 l3Sets l3Ways line with
    | some i => decide ((tget {} (cohOf s b).l3 i).state = .m)
    | none => false
  let ownerSt := if d.state = .di ∨ d.state = .ds then none else (l2Held s (b * 4 + d.owner) line).map (·.state)
  let dirty := dirtyL3 || ownerSt = some .m || ownerSt = some .o
  let s := if dirty then hbmPut s line data poison else s
  let s := match ownerSt with
    | some .m => l2SetState s (b * 4 + d.owner) line .e
    | some .o => setDir (l2SetState s (b * 4 + d.owner) line .s) b line { d with state := .ds, sharers := d.owner :: d.sharers }
    | _ => s
  let c := cohOf s b
  match cFind c.l3 l3Sets l3Ways line with
  | some i => setCoh s b { c with l3 := tset {} c.l3 i { tget {} c.l3 i with data := data, state := .e, poisoned := poison } }
  | none => s

/-- Invalidate a line: every copy in every L1, L2 and the L3 of the basin is removed and dirty data discarded; fills in
progress are doomed (R206, R208). -/
def invLine (s : State) (b line : Nat) : State :=
  let s := (List.range 4).foldl (fun s a =>
    let p := b * 4 + a
    let pc := pcOf s p
    let pc := bufStale (l1Drop pc line) line
    setPc s p (match cFind pc.l2 l2Sets l2Ways line with
      | some i => { pc with l2 := tset ({} : Line) pc.l2 i ({} : Line) }
      | none => pc)) s
  let c := cohOf s b
  let c := { c with reqs := mapIf (fun r => r.line == line) (fun r => { r with doomed := true }) c.reqs }
  let l3 := match cFind c.l3 l3Sets l3Ways line with
    | some i => tset ({} : Line) c.l3 i ({} : Line)
    | none => c.l3
  setCoh s b { c with l3 := l3, dir := if dirStable (tget {} c.dir line) then mdel c.dir line else c.dir }

/-- Address of a CACHE form: D = 0 near rA, D = 1 far pair(A); other values of D and a bad pair raise ILLEGAL (R147). -/
def cacheVa (r : Arch) (d a : RegField) : Option Nat :=
  if d.val = 0 then some (nearVa r (rd r a))
  else if d.val = 1 ∧ pairOk a then some (rdPair r a).toNat
  else none

/-- Lines of HBM among places: those of CACHED pages (R206). -/
def physLines (ls : List Loc) : List Nat :=
  ((ls.filter (fun l => decide (l.obj = .phys) && decide (l.type = .cached))).map (fun l => l.addr / 64)).eraseDups

/-- A LEDGERED line of the places is in a commit set (R206). -/
def inCset (s : State) (ls : List Loc) : Bool :=
  (linesOf ls).any (fun l => (List.range 4).any (fun b => (holdOf s b l).isSome))

/-- Places of one byte in each line of a range, with every page translated first (R207). -/
def rangeLocs (s : State) (th : ThreadId) (va len : Nat) : Except Exn (List Loc) :=
  let starts := if len = 0 then [] else
    va :: ((List.range ((va + len - 1) / 64 - va / 64)).map (fun i => (va / 64 + i + 1) * 64))
  starts.foldl (fun acc x => match acc with
    | .error e => .error e
    | .ok ls => match locBytes s th .load (x % 2 ^ 48) 1 0 with
      | .error e => .error e
      | .ok l => .ok (ls ++ l)) (.ok [])

/-- A maintenance instruction on one address or on a range: privilege, places, the commit-set check, then the action on
each line (R206, R207). -/
def maint (th : ThreadId) (d a b : RegField) (range needSys noCset : Bool) (act : State → Nat → State) (s : State) : Out :=
  .next (issue th (fun s =>
    let r := (thr s th).arch
    match cacheVa r d a with
    | none => takeExn s th excIllegal
    | some va =>
      if !range ∧ b.val ≠ 0 then takeExn s th excIllegal
      else if needSys ∧ !(sysMode r) then takeExn s th excPrivilege
      else match (if range then rangeLocs s th va (rd r b).toNat else locBytes s th .load va 1 0) with
        | .error e => takeExn s th e
        | .ok ls =>
          if noCset ∧ inCset s ls then takeExn s th (excStore 3 va)
          else
            let s := retryPoint s th
            finish ((physLines ls).foldl act s) th (thr s th).arch) s)

/-- DCLEAN (R206). -/
def execDclean (th : ThreadId) (d a b : RegField) (s : State) : Out := maint th d a b false false false (fun s l => cleanLine s th.basin.val l) s
/-- DINV (R144, R206). -/
def execDinv (th : ThreadId) (d a b : RegField) (s : State) : Out := maint th d a b false true true (fun s l => invLine s th.basin.val l) s
/-- DCLINV (R206). -/
def execDclinv (th : ThreadId) (d a b : RegField) (s : State) : Out :=
  maint th d a b false false false (fun s l => invLine (cleanLine s th.basin.val l) th.basin.val l) s
/-- RCLEAN (R206, R207). -/
def execRclean (th : ThreadId) (d a b : RegField) (s : State) : Out := maint th d a b true false false (fun s l => cleanLine s th.basin.val l) s
/-- RINV (R144, R206, R207). -/
def execRinv (th : ThreadId) (d a b : RegField) (s : State) : Out := maint th d a b true true true (fun s l => invLine s th.basin.val l) s

/-- IINV removes the line from the L1I of the issuing berth's cores (R199, R206); its faults are FETCH_FAULT. -/
def execIinv (th : ThreadId) (d a b : RegField) (s : State) : Out :=
  .next (issue th (fun s =>
    let r := (thr s th).arch
    match cacheVa r d a with
    | none => takeExn s th excIllegal
    | some va =>
      if b.val ≠ 0 then takeExn s th excIllegal
      else match locBytes s th .fetch va 1 0 with
        | .error e => takeExn s th e
        | .ok ls =>
          let p := th.pier.val
          let s := (physLines ls).foldl (fun s line =>
            let pc := pcOf s p
            setPc s p { pc with l1i := pc.l1i.map (fun e => (e.1, if (coresOf s th).contains e.1 then l1Clear e.2 line else e.2)) }) s
          finish s th (thr s th).arch) s)

/-- Lock a line into an empty locked way of the pier's L2 (R205). -/
def lockLine (s : State) (th : ThreadId) (line : Nat) : State :=
  let p := th.pier.val
  let s := if (l2Held s p line).isNone then fetchShared s p line 1 else s
  let pc := pcOf s p
  match cFind pc.l2 l2Sets l2Ways line with
  | none => s
  | some i =>
    if lockedWay pc i then s
    else
      let base := line % l2Sets * l2Ways
      match ((List.range 16).map (base + ·)).find? (fun j => lockedWay pc j && decide ((tget {} pc.l2 j).state = .i)) with
      | some j => setPc s p { pc with l2 := tset {} (tset {} pc.l2 j (tget {} pc.l2 i)) i {} }
      | none => setPc s p { pc with lockRefused := satInc pc.lockRefused 255 }

/-- Write back and remove a line from its locked way; it stays in the L3 (R205). -/
def unlockLine (s : State) (th : ThreadId) (line : Nat) : State :=
  let p := th.pier.val
  let pc := pcOf s p
  match cFind pc.l2 l2Sets l2Ways line with
  | none => s
  | some i =>
    if !(lockedWay pc i) then s
    else
      let l := tget {} pc.l2 i
      let b := pierBasin p
      let s := if l.state = .m ∨ l.state = .o then l3Write s b line l.data l.poisoned else s
      let s := setPc s p { l1Drop pc line with l2 := tset {} pc.l2 i {} }
      let d := dirOf s b line
      let left := d.sharers.filter (· != pierAgent p)
      setDir s b line (match d.state with
        | .de => {}
        | .dO => if d.owner = pierAgent p then { d with state := if left.isEmpty then .di else .ds, sharers := left, owner := 0 }
                 else { d with sharers := left }
        | .ds => { d with state := if left.isEmpty then .di else .ds, sharers := left }
        | _ => d)

/-- CLOCK (R205). -/
def execClock (th : ThreadId) (d a b : RegField) (s : State) : Out := maint th d a b false true false (fun s l => lockLine s th l) s
/-- CUNLOCK (R205). -/
def execCunlock (th : ThreadId) (d a b : RegField) (s : State) : Out := maint th d a b false true false (fun s l => unlockLine s th l) s

end Sys2Proof.Machine
end

