-- ==== Sys2Proof/Machine/LedgerOps.lean ====
section
/-! DEFINITION. The ledger of a basin, its mirror and host region, and the tides that gather its records (03, 11). -/

namespace Sys2Proof.Machine

/-- The ledger kept with a stack. -/
def ledgerOf (s : State) (b : Nat) : Ledger := tget {} s.ledgers b
/-- Replace the ledger kept with a stack. -/
def setLedger (s : State) (b : Nat) (l : Ledger) : State := { s with ledgers := tset {} s.ledgers b l }

/-- The basin whose ledger keeps the records of a partition: the one whose stack holds its range (R80). -/
def stackOf (s : State) (part : Nat) : Nat := (partOf s part).stack

/-- A basin that is in service and not checkstopped. -/
def basinUp (s : State) (b : Nat) : Bool := (basinOf s b).inService && !(basinOf s b).checkstopped

/-- The mirror basin of a basin: the first in the order b + 1, b + 2, b + 3 that is in service (R72). -/
def mirrorOf (s : State) (b : Nat) : Option Nat := ([b + 1, b + 2, b + 3].map (· % 4)).find? (basinUp s)

/-- The 32 bytes of an SM3 value. -/
def sm3Bytes (bs : List Byte) : List Byte := toBe 32 (Config.sm3 bs).toNat

/-- The low 64 bits of an SM3 value (R79, R297). -/
def sm3Low (bs : List Byte) : Nat := (Config.sm3 bs).toNat % 2 ^ 64

/-- The number the next record of a ledger takes. -/
def nextRec (l : Ledger) : Nat := l.first + l.recs.length

/-- The tide that a record applied now belongs to; the first record after a boundary opens it (R294). -/
def openTide (s : State) : State × Tide :=
  match s.tides.cur with
  | some t => (s, t)
  | none =>
    let s := match s.cfg.later with
      | some l => { s with cfg := { s.cfg with replayMax := l.replayMax, tidePeriodUs := l.tidePeriodUs, tideMax := l.tideMax, autoTrim := l.autoTrim, later := none } }
      | none => s
    let t : Tide := { num := s.tides.next, openAt := harbourNs s, since := nowNs s }
    let blocks := max s.seqs.tideBlocks ((s.tides.next + 1) / 2 ^ 24 + 1)
    ({ s with tides := { s.tides with cur := some t, next := s.tides.next + 1 }, seqs := { s.seqs with tideBlocks := blocks } }, t)

/-- Append a record to the ledger of a basin: the writer fills in TIDE and CHAIN as it applies it (R79, R294). The answer
names the record's number. -/
def appendRec (s : State) (b : Nat) (r : LRec) : State × Nat :=
  let (s, t) := openTide s
  let l := ledgerOf s b
  let r := { r with tide := t.num, chain := l.chain }
  let n := nextRec l
  let s := { s with tides := { s.tides with cur := some { t with count := t.count + 1 } } }
  (setLedger s b { l with recs := l.recs ++ [r], chain := sm3Low (recBytes r) }, n)

/-- The record of a consignment in a state with a status (R79). -/
def formRec (s : State) (seq : Nat) (c : Cons) (st status : Nat) (inBytes out : List Byte) : LRec :=
  { seq := seq, time := harbourNs s, tenant := c.tenant, sq := c.sq, cls := fClass c.desc, state := st, handler := c.desc.handler.toNat,
    correlation := c.desc.correlation.toNat, affinity := c.desc.affinity.toNat, status := status, place := placeWord c.place,
    attempt := c.attempt, inDigest := sm3Bytes (descBytes c.desc ++ inBytes), outDigest := out }

/-- Bytes a consignment's records and intake entry take beside the reservation (R81, R84). -/
def intakeSize (e : Intake) : Nat := 80 + e.dock.length

/-- Bytes of a ledger area in use, counting reservations (R84). -/
def ledgerUsed (s : State) (b : Nat) : Nat :=
  let l := ledgerOf s b
  128 * l.recs.length + (l.intake.map (fun e => intakeSize e.2)).sum + 128 * l.reserved

/-- Bytes of a ledger area outside the adoption reserve (R84). -/
def ledgerArea (s : State) : Nat := s.cfg.areaGib * 2 ^ 30 - 262144 * (s.cfg.replayMax + 1) * 128

/-- The area can hold one more ACCEPTED record, intake entry and reservation (R84). -/
def ledgerRoom (s : State) (b dockLen : Nat) : Bool :=
  ledgerUsed s b + 128 + 80 + dockLen + 128 * (s.cfg.replayMax + 1) ≤ ledgerArea s

/-- Source 0xA00 + basin arrives when an area becomes 75 % full (R84, R355). -/
def ledgerHigh (s : State) (b : Nat) : State :=
  let l := ledgerOf s b
  let total := s.cfg.areaGib * 2 ^ 30
  let high := 3 * total ≤ 4 * ledgerUsed s b
  if high && !l.highRaised then
    let s := setLedger s b { l with highRaised := true }
    arrive (logIsland s 0x0504 0 (islHbm b) (toLe 1 b ++ toLe 1 (100 * ledgerUsed s b / total))) (0xA00 + b) 0 false
  else if !high && l.highRaised then setLedger s b { l with highRaised := false }
  else s

/-- The newest record of a sequence number in a ledger, with its record number. -/
def newestRec (l : Ledger) (seq : Nat) : Option (Nat × LRec) :=
  ((l.recs.zipIdx).reverse.find? (fun e => e.1.seq == seq)).map (fun e => (l.first + e.2, e.1))

/-- PF0 of a port can carry writes and reads: link up, D0, Bus Master Enable (R76, R388). -/
def pf0Ok (s : State) (p : Port) : Bool := let q := portOf s p; q.link && decide (q.dstate = .d0) && q.bme

/-- The manager's current port (R388). -/
def managerPort (s : State) : Port :=
  let h := s.helm.holder.getD s.helm.last
  if pf0Ok s h then h else h.other

/-- A slot of the host ledger ring is free (R75). -/
def hostRoom (s : State) : Bool := (s.cfg.hostNext + 1) % 2 ^ s.cfg.hostLog2 != s.cfg.hostHead

/-- Write one HOST record into the next slot of the region and into its basin's open batch (R75, R76). Source 0xA06 arrives when
the region becomes full (R357). -/
def hostPut (s : State) (b n : Nat) : State :=
  let l := ledgerOf s b
  match l.recs[n - l.first]? with
  | none => s
  | some r =>
    let host := writeBytes s.mem.host (s.cfg.hostBase + 128 * s.cfg.hostNext) (recBytes r)
    let s := { s with mem := { s.mem with host := host },
                      cfg := { s.cfg with hostNext := (s.cfg.hostNext + 1) % 2 ^ s.cfg.hostLog2 } }
    let s := setLedger s b { l with batch := l.batch ++ [n], batchAt := match l.batchAt with
      | some t => some t
      | none => some (nowNs s) }
    if hostRoom s then s else arrive s 0xA06 100 false

/-- Send the HOST records of a basin that wait, while the ring has room and a PF0 can carry them (R75, R76). -/
def hostSend (s : State) (b : Nat) : Nat → State
  | 0 => s
  | k + 1 =>
    let l := ledgerOf s b
    match l.hostWait with
    | [] => s
    | n :: rest =>
      if s.cfg.hostLog2 ≠ 0 ∧ hostRoom s ∧ pf0Ok s (managerPort s) then
        hostSend (hostPut (setLedger s b { l with hostWait := rest }) b n) b k
      else s

/-- A record joins its basin's stream to the host region (R75). -/
def hostQueue (s : State) (b n : Nat) : State :=
  let l := ledgerOf s b
  hostSend (setLedger s b { l with hostWait := l.hostWait ++ [n] }) b 1

/-! Tides (R294 to R298). -/

/-- The largest power of two below n, for n above 1 (R296). -/
def splitAt2 (n : Nat) : Nat := 2 ^ (Nat.log2 (n - 1))

/-- SM3 of an interior node (R296). -/
def nodeHash (l r : List Byte) : List Byte := sm3Bytes (1 :: (l ++ r))

/-- mth of R296 over leaf hashes; fuel is at least the number of leaves. -/
def mth : Nat → List (List Byte) → List Byte
  | 0, _ => zeros 32
  | fuel + 1, ds =>
    match ds with
    | [] => zeros 32
    | [d] => d
    | _ => let k := splitAt2 ds.length; nodeHash (mth fuel (ds.take k)) (mth fuel (ds.drop k))

/-- The path of sibling hashes of leaf i, from the leaf upward (R301). -/
def merklePath : Nat → List (List Byte) → Nat → List (List Byte)
  | 0, _, _ => []
  | fuel + 1, ds, i =>
    if ds.length ≤ 1 then []
    else
      let k := splitAt2 ds.length
      if i < k then merklePath fuel (ds.take k) i ++ [mth fuel (ds.drop k)]
      else merklePath fuel (ds.drop k) (i - k) ++ [mth fuel (ds.take k)]

/-- The records of a tide that a basin keeps, in CHAIN order. -/
def tideRecs (s : State) (b num : Nat) : List LRec := (ledgerOf s b).recs.filter (fun r => r.tide == num)

/-- The leaves of a tide: SM3 of its records, by basin, then in CHAIN order (R296). -/
def tideLeaves (s : State) (num : Nat) : List (List Byte) :=
  (List.range 4).flatMap (fun b => (tideRecs s b num).map (fun r => sm3Bytes (recBytes r)))

/-- Place the boundary of the open tide and send it to every ledger writer (R294). -/
def placeBoundary (s : State) : State :=
  match s.tides.cur with
  | none => s
  | some t => { s with tides := { s.tides with cur := none, closing := s.tides.closing ++ [{ t with closeAt := harbourNs s }] } }

/-- SM3 of a basin's newest record of the tides up to a number, or 32 zero bytes where it has none (R295, R297). -/
def headOf (s : State) (b num : Nat) : List Byte :=
  match (ledgerOf s b).recs.reverse.find? (fun r => r.tide ≤ num) with
  | some r => sm3Bytes (recBytes r)
  | none => if (ledgerOf s b).trimHash.isEmpty then zeros 32 else (ledgerOf s b).trimHash

end Sys2Proof.Machine
end

