-- ==== Sys2Proof/Machine/QuayOps.lean ====
section
/-! DEFINITION. Operations of the Quayside: event queues, credits, ordering and completion (02, 03). -/

namespace Sys2Proof.Machine

/-! Event queues (R46 to R53). -/

/-- An event queue. -/
def getEq (s : State) : EqRef → Eq
  | .ten t n => tenEq s t n
  | .pf p n => tget {} s.pfEqs (p.num * 32 + n)

/-- Replace an event queue. -/
def setEq (s : State) (r : EqRef) (q : Eq) : State :=
  match r with
  | .ten t n => setTenEq s t n q
  | .pf p n => { s with pfEqs := tset {} s.pfEqs (p.num * 32 + n) q }

/-- The function of a queue can write records (R91, R368, R396). -/
def eqCarry (s : State) : EqRef → Bool
  | .ten t _ => pathUp s t && !(dmaDiscarded s t)
  | .pf p _ => pf0Ok s p

/-- The queue can take its next record now (R50, R401). -/
def eqReady (s : State) (r : EqRef) (q : Eq) : Bool := q.exist && q.enabled && !q.stopped && eqRoom q && eqCarry s r

/-- The vector-16 interrupt of a function (R53, R381): sent, or held while masked or outside D0 (R367, R368). -/
def vectorSend (m : Msix) : Msix := if m.masked then { m with held := true } else { m with sent := m.sent + 1 }

/-- Send the function vector through every VF of a tenant that is in service (R381). -/
def functionVector (s : State) (t : Nat) : State :=
  [Port.a, Port.b].foldl (fun s p =>
    if vfInServiceB s p t then
      let v := vfOf s p t
      setVf s p t { v with msix := tset {} v.msix 16 (vectorSend (tget {} v.msix 16)) }
    else s) s

/-- HELD completions of a tenant not yet released (R380). -/
def heldCount (s : State) (t : Nat) : Nat := (s.cons.filter (fun e => e.2.tenant == t && decide (e.2.state = .held))).length

/-- What R381 watches in FN_STATE: STATE, CURRENT_PORT, HELD and ERR_CAUSE. -/
def fnWatch (s : State) (t : Nat) : TState × Port × Bool × Nat :=
  ((tenantOf s t).state, (tenantOf s t).currentPort, decide (0 < heldCount s t), (tenantOf s t).errCause)

/-- Run an operation and send the function vector where it changed what R381 names. -/
def withVector (t : Nat) (f : State → State) (s : State) : State :=
  let s' := f s
  if fnWatch s t = fnWatch s' t then s' else functionVector s' t

/-- Enter ERROR with a cause (R383). -/
def enterError (s : State) (t cause : Nat) : State :=
  let v := tenantOf s t
  match v.state with
  | .running | .quiescing => setTenant s t { v with state := .error, errCause := cause }
  | _ => s

/-- The translation of an event-queue write failed: the queue stops and its records wait (R401). -/
def stopEq (s : State) (r : EqRef) : State :=
  let s := setEq s r { getEq s r with stopped := true }
  match r with
  | .ten t _ => withVector t (fun s => enterError s t 3) s
  | .pf _ _ => s

/-- A record has been written: a credit record's credits are reported, an outcome record completes its
consignment (R42, R51, R62). -/
def recordWritten (s : State) (r : EqRef) (w : EvRec) : State :=
  match r with
  | .pf _ _ => s
  | .ten t _ =>
    if w.type = 1 then setSq s t w.sqId { sqOf s t w.sqId with inTransit := 0 }
    else if (w.type = 0 ∨ w.type = 3) ∧ w.seq ≠ 0 then
      modCons { s with dev := { s.dev with busyAt := nowNs s } } w.seq
        (fun c => { c with state := .completed, entry := false, recordQueued := false })
    else s

/-- A request of a queue's function to an address (R400). -/
def eqXlat (s : State) (r : EqRef) (a : Nat) : State :=
  match r with
  | .ten t _ => vfXlat s t a
  | .pf p _ => noteXlat s p (portOf s p).ats a

/-- Write the waiting records of a queue while it can take them (R52). -/
def drainEq : Nat → State → EqRef → State
  | 0, s, _ => s
  | k + 1, s, r =>
    let q := getEq s r
    match q.waiting with
    | [] => s
    | w :: rest =>
      if !(eqReady s r q) then s
      else if !(iovaOk s (q.base + 32 * q.tail) 32) then stopEq s r
      else
        let outcome := (w.type = 0 ∨ w.type = 3) ∧ w.seq ≠ 0
        let s1 := ringWrite (eqXlat s r (q.base + 32 * q.tail)) q w
        let q1 := { eqAdvance q (nowNs s) with waiting := rest, unread := if outcome then q.unread ++ [(q.tail, w.seq)] else q.unread }
        drainEq k (recordWritten (setEq s1 r q1) r w) r

/-- Give a record to a queue: it is written now, or waits behind the others (R52). -/
def postEq (s : State) (r : EqRef) (w : EvRec) : State :=
  let q := getEq s r
  if q.exist then drainEq (q.waiting.length + 1) (setEq s r { q with waiting := q.waiting ++ [w] }) r else s

/-- A notice record to a queue of a tenant (R46). -/
def notice (s : State) (t n status len sq : Nat) : State :=
  postEq s (.ten t n) { status := status, type := 2, resultLen := len, sqId := sq }

/-! Credits (R40 to R44). -/

/-- C_host of R43. -/
def chost (q : Sq) : Nat := q.reservation - q.credits.length - q.pending - q.inTransit

/-- PENDING as SQ_CREDIT reads it: freed and not yet reported (R45). -/
def pendingReg (q : Sq) : Nat := min 8191 (q.pending + q.inTransit + (q.credits.filter (·.freed)).length)

/-- Write the credit-return record of a queue with its pending count (R42); credits that become pending while such a record
waits merge into the next one (R52). -/
def reportCredits (s : State) (t n : Nat) : State :=
  let q := sqOf s t n
  if q.exist ∧ q.pending ≠ 0 ∧ q.inTransit = 0 ∧ (tenantOf s t).state ≠ .squashed then
    let s := setSq s t n { q with pending := 0, inTransit := q.pending, oldestPending := none }
    postEq s (.ten t q.eq) { type := 1, resultLen := q.pending % 65536 + n * 65536, sqId := n }
  else s

/-- The record of R42 where the pending count has reached CREDIT_BATCH. -/
def creditCheck (s : State) (t n : Nat) : State :=
  let q := sqOf s t n
  if q.creditBatch ≤ q.pending then reportCredits s t n else s

/-- Free slots at the front of the credit order become pending credits (R41). -/
def popCredits (q : Sq) (now : Nat) : Sq :=
  let n := (q.credits.takeWhile (·.freed)).length
  if n = 0 then q
  else { q with credits := q.credits.drop n, pending := q.pending + n, oldestPending := match q.oldestPending with
    | some x => some x
    | none => some now }

/-- Free the slot of a descriptor (R40): its credit becomes pending in submission order, and a slot of the free pool returns
there. -/
def freeSlot (s : State) (t n slot : Nat) : State :=
  let q := sqOf s t n
  let pooled := q.credits.any (fun c => c.num == slot && c.pooled && !c.freed)
  let q := popCredits { q with credits := mapIf (fun c => c.num == slot) (fun c => { c with freed := true, pooled := false }) q.credits } (nowNs s)
  let s := setSq { s with anchorFree := if pooled then s.anchorFree + 1 else s.anchorFree } t n q
  creditCheck s t n

/-! Completion (R51, R54, R55, R62, R72, R74). -/

/-- The effective level of a consignment is reached for its final record (R72, R74). -/
def levelReached (c : Cons) : Bool :=
  match c.dur with
  | 0 => true
  | 1 => c.local1
  | 2 => c.local1 && c.host
  | _ => c.local1 && c.duplex

/-- An earlier ORDERED consignment with the same tag on the same SQ has not completed (R54, R55). -/
def heldBack (s : State) (c : Cons) : Bool :=
  fOrdered c.desc && s.cons.any (fun e => e.2.tenant == c.tenant && e.2.sq == c.sq && fOrdered e.2.desc
    && e.2.desc.orderTag == c.desc.orderTag && decide (e.2.order < c.order) && decide (e.2.state ≠ .completed))

/-- STATUS as the outcome record shows it (R87, R92, R93, R103). -/
def shownStatus (c : Cons) : Nat :=
  if c.status ≠ 0 then c.status
  else if c.lostResults then 0x0502
  else if c.late then 0x0002
  else if c.replayed ∨ 1 < c.attempt then 0x0001
  else 0

/-- FLAGS of the outcome record (R46, R48). -/
def outcomeFlags (c : Cons) (held : Bool) : Nat :=
  bit c.replayed + 2 * bit c.late + 4 * bit c.chained + 8 * bit c.compressed + 32 * bit held

/-- The outcome record of a consignment (R46). -/
def outcomeRec (seq : Nat) (c : Cons) (type : Nat) : EvRec :=
  { status := shownStatus c, type := type, flags := outcomeFlags c (type == 3), resultLen := c.resultLen,
    correlation := c.desc.correlation, seq := seq, value := c.handlerValue % 2 ^ 24 + min c.attempt 255 * 2 ^ 24, sqId := c.sq }

/-- A power management event of a VF outside D0 (R368): PME_Status is set; with PME_En a PM_PME message is sent from D3hot, with
source 0x400 + t told, or WAKE# is asserted in D3cold; at most one since the function left D0. -/
def vfPme (s : State) (p : Port) (t : Nat) : State :=
  let v := vfOf s p t
  if v.dstate = .d0 ∨ v.pmeSent ≠ 0 then s
  else if !v.pmeEn then setVf s p t { v with pmeStatus := true }
  else
    let s := setVf s p t { v with pmeStatus := true, pmeSent := 1 }
    if v.dstate = .d3hot then arrive s (0x400 + t) (5 + 3 * 16 + 64 * p.num) false else setPort s p { portOf s p with wake := true }

/-- The same for PF0, which has no tenant source (R368). -/
def pf0Pme (s : State) (p : Port) : State :=
  let q := portOf s p
  if q.dstate = .d0 ∨ q.pmeSent ≠ 0 then s
  else if !q.pmeEn then setPort s p { q with pmeStatus := true }
  else setPort s p { q with pmeStatus := true, pmeSent := 1, wake := q.wake || decide (q.dstate = .d3cold) }

/-- Complete a COMMITTED or FAILED consignment where its level, its order, its path and its function allow (R62). -/
def tryComplete (s : State) (seq : Nat) : State :=
  match consOf s seq with
  | none => s
  | some c =>
    if (c.state ≠ .committed ∧ c.state ≠ .failed) ∨ c.recordQueued ∨ !(levelReached c) ∨ c.scuttling then s
    else if c.orphan then { s with cons := mdel s.cons seq, dev := { s.dev with busyAt := nowNs s } }
    else
      let v := tenantOf s c.tenant
      if c.heldMark ∧ v.needResync then setCons s seq { c with state := .held }
      else if heldBack s c ∨ v.state = .squashed ∨ v.state = .absent then s
      else if !(pathUp s c.tenant) then vfPme s v.currentPort c.tenant
      else
        let quiet := fQuiet c.desc && (shownStatus c == 0 || shownStatus c == 1) && !c.heldMark
        if quiet then { s with cons := mdel s.cons seq, dev := { s.dev with busyAt := nowNs s } }
        else
          let s1 := setCons s seq { c with recordQueued := true }
          postEq s1 (.ten c.tenant (sqOf s c.tenant c.sq).eq) (outcomeRec seq c (if c.heldMark then 3 else 0))

/-- Insert by order of acceptance. -/
def insertOrd (x : Nat × Nat) : List (Nat × Nat) → List (Nat × Nat)
  | [] => [x]
  | y :: r => if x.2 ≤ y.2 then x :: y :: r else y :: insertOrd x r

/-- Sequence numbers of a tenant's consignments in order of acceptance. -/
def consOfTenant (s : State) (t : Nat) : List Nat :=
  ((s.cons.filter (fun e => e.2.tenant == t)).foldl (fun l e => insertOrd (e.1, e.2.order) l) []).map (·.1)

/-- Complete every consignment of a tenant that can complete, in order of acceptance (R54). -/
def settleTenant (s : State) (t : Nat) : State := withVector t (fun s => (consOfTenant s t).foldl tryComplete s) s

/-- Write what waits for a tenant: the records of its queues, then completions, then credits (R52). -/
def pumpTenant (s : State) (t : Nat) : State :=
  let s := (List.range 16).foldl (fun s n => drainEq ((tenEq s t n).waiting.length) s (.ten t n)) s
  let s := settleTenant s t
  (List.range 16).foldl (fun s n => creditCheck s t n) s

/-! Final states (R62, R79, R81, R84). -/

/-- The result bytes of a consignment as written at its destination (R79). -/
def resultBytes (s : State) (c : Cons) : List Byte :=
  readBytes s.mem.host c.desc.dstAddr.toNat (min c.resultLen c.desc.dstLen.toNat)

/-- Append the final record of a consignment to its ledger and fill in the completion shadow (R79 to R81): the reservation is
released (R84). -/
def appendFinal (s : State) (seq : Nat) (c : Cons) (committed : Bool) : State :=
  let b := stackOf s c.part
  let src := if fDock c.desc then c.dock else c.source.getD []
  let out := if committed ∨ c.resultLen ≠ 0 then sm3Bytes (resultBytes s c) else zeros 32
  let st := if c.status = 0 ∧ c.lostResults then 0x0502 else if c.status = 0 ∧ c.expired then 0x0002 else c.status
  let (s, n) := appendRec s b (formRec s seq c (if committed then 3 else 4) st src out)
  let l := ledgerOf s b
  let e := (mget l.intake seq).getD { desc := c.desc, dock := c.dock }
  let s := setLedger s b { l with reserved := l.reserved - (s.cfg.replayMax + 1 - (c.attempt - 1)),
                                  intake := mset l.intake seq { e with resultLen := c.resultLen, value := c.handlerValue, flags := outcomeFlags c false, tide := (s.tides.cur.map (·.num)).getD 0 } }
  setCons s seq { c with finalRec := some (b, n) }

/-- The Quayside records the final state: its record goes to the mirror and, by level, to the host batch and the partner
(R62, R72, R75). -/
def recordFinal (s : State) (seq : Nat) (committed : Bool) : State :=
  match consOf s seq with
  | none => s
  | some c =>
    let c := { c with state := if committed then .committed else .failed, phase := .final, late := c.late || (committed && c.expired) }
    let s := setCons s seq c
    let s := match c.finalRec with
      | some (b, n) => if c.dur = 2 then hostQueue s b n else s
      | none => s
    settleTenant s c.tenant

/-- Decide a consignment FAILED with a status: FAILED record, then what follows it (R62). -/
def failCons (s : State) (seq status value resultLen : Nat) : State :=
  match consOf s seq with
  | none => s
  | some c =>
    let c := { c with status := status, handlerValue := value, resultLen := resultLen, replayed := false }
    recordFinal (appendFinal s seq c false) seq false

end Sys2Proof.Machine
end

