-- ==== Sys2Proof/Machine/StowageOps.lean ====
section
/-! DEFINITION. Compressed streams with their block index, and results written to a destination or chained into buffers
(12). -/

namespace Sys2Proof.Machine

/-- Pieces of at most n bytes of a list; fuel is at least their number. -/
def chunks (n : Nat) : Nat → List Byte → List (List Byte)
  | 0, _ => []
  | k + 1, bs => if bs.isEmpty then [] else bs.take n :: chunks n k (bs.drop n)

/-- One stored DEFLATE block (R325). -/
def storedBlock (final : Bool) (bs : List Byte) : List Byte :=
  toLe 1 (bit final) ++ toLe 2 bs.length ++ toLe 2 (65535 - bs.length) ++ bs

/-- A block as stored DEFLATE blocks of at most 65,535 bytes (R325). -/
def storedForm (final : Bool) (bs : List Byte) : List Byte :=
  let ps := chunks 65535 (bs.length / 65535 + 1) bs
  (ps.zipIdx).flatMap (fun e => storedBlock (final && e.2 + 1 == ps.length) e.1)

/-- The coded form of one block: stored where coding would exceed the input (R325). -/
def codeBlock (cls : Nat) (dyn final : Bool) (bs : List Byte) : List Byte :=
  let c := Config.deflateBlock cls dyn final bs
  if bs.length < c.length then storedForm final bs else c

/-- A compressed stream: header, coded blocks with the CRC-32 of their input, trailer (R325, R326). -/
structure Stream where
  header : List Byte := []
  blocks : List (List Byte × BitVec 32) := []
  trailer : List Byte := []
  blockSize : Nat := 65536
  framing : Nat := 0
  cls : Nat := 0
  deriving DecidableEq, Repr

/-- Compress under R323 to R326: class or effort, dynamic codes, framing, block size, input. -/
def compressStream (cls : Nat) (dyn : Bool) (framing size : Nat) (input : List Byte) : Stream :=
  let cut := chunks size (input.length / size + 1) input
  let ps := if cut.isEmpty then [[]] else cut
  let xfl : Byte := if cls = 0 then 4 else if cls = 4 then 2 else 0
  { header := match framing with
      | 1 => [0x78, 0x01]
      | 2 => [0x1F, 0x8B, 8, 0, 0, 0, 0, 0, xfl, 0xFF]
      | _ => [],
    blocks := ps.zipIdx.map (fun e => (codeBlock cls dyn (e.2 + 1 == ps.length) e.1, crc32 e.1)),
    trailer := match framing with
      | 1 => toBe 4 (adler32 input).toNat
      | 2 => toLe 4 (crc32 input).toNat ++ toLe 4 input.length
      | _ => [],
    blockSize := size, framing := framing, cls := cls }

/-- The stream's bytes. -/
def streamBytes (x : Stream) : List Byte := x.header ++ x.blocks.flatMap (·.1) ++ x.trailer

/-- Offsets at which the blocks end. -/
def blockEnds (x : Stream) : List Nat :=
  (x.blocks.foldl (fun (acc : Nat × List Nat) b => (acc.1 + b.1.length, acc.2 ++ [acc.1 + b.1.length])) (x.header.length, [])).2

/-- The block index and its footer (R327). -/
def indexBytes (x : Stream) : List Byte :=
  let entries := (x.blocks.foldl (fun (acc : Nat × List Byte) b =>
    (acc.1 + b.1.length, acc.2 ++ toLe 8 acc.1 ++ toLe 4 b.1.length ++ toLe 4 b.2.toNat)) (x.header.length, [])).2
  entries ++ toLe 4 0x58495453 ++ toLe 4 x.blocks.length ++ toLe 4 x.blockSize ++ toLe 1 x.framing ++ toLe 1 x.cls ++ toLe 2 0
    ++ toLe 8 (streamBytes x).length

/-- Write result bytes to host memory for a consignment: discarded after a squash (R92), DMA_ERROR where an address does not
translate (R401). -/
def resultWrite (s : State) (seq : Nat) (segs : List (Nat × List Byte)) : State × Nat :=
  match consOf s seq with
  | none => (s, 0)
  | some c =>
    if dmaDiscarded s c.tenant then (setCons s seq { c with lostResults := true }, 0)
    else if segs.any (fun e => !(iovaOk s e.1 e.2.length)) then (s, 0x0504)
    else ({ s with mem := { s.mem with host := segs.foldl (fun h e => writeBytes h e.1 e.2) s.mem.host } }, 0)

/-- Take a buffer of a chain pool: the IOVA that the ring holds at HEAD, 4 KiB aligned (R328). -/
def takeBuffer (s : State) (t p : Nat) : State × Nat :=
  let v := tenantOf s t
  let q := tget {} v.pools p
  let a := (Config.hostWord (q.base + 8 * q.head) s.freeCtr).toNat / 4096 * 4096
  let s := setTenant s t { v with pools := tset {} v.pools p { q with head := (q.head + 1) % 2 ^ q.sizeLog2 } }
  ({ s with freeCtr := s.freeCtr + 1 }, a)

/-- Take n buffers. -/
def takeBuffers (s : State) (t p : Nat) : Nat → State × List Nat
  | 0 => (s, [])
  | n + 1 =>
    let (s, a) := takeBuffer s t p
    let (s, r) := takeBuffers s t p n
    (s, a :: r)

/-- Buffers posted and not taken (R328). -/
def poolPosted (q : Pool) : Nat := (q.tail + 2 ^ q.sizeLog2 - q.head) % 2 ^ q.sizeLog2

/-- The writes of a chained result: the destination with its header, then each buffer with its header before its data
(R329). -/
def chainSegs (dst dstLen per : Nat) (bufs : List Nat) (data : List Byte) : List (Nat × List Byte) :=
  let d0 := dstLen - 16
  let hdr (next used : Nat) : List Byte := toLe 8 next ++ toLe 4 used ++ zeros 4
  let first := [(dst, data.take d0), (dst + d0, hdr (bufs.head?.getD 0) (min d0 data.length))]
  first ++ bufs.zipIdx.flatMap (fun e =>
    let bs := (data.drop (d0 + per * e.2)).take per
    [(e.1, hdr ((bufs[e.2 + 1]?).getD 0) bs.length), (e.1 + 16, bs)])

/-- How a result was placed: status, length, blocks complete where the pool ran out, chained. -/
structure Placed where
  status : Nat := 0
  len : Nat := 0
  blocks : Option Nat := none
  chained : Bool := false
  deriving DecidableEq, Repr

/-- Place a result of a consignment at its destination, chained where it does not fit (R27, R329, R330). `ends` are the
offsets of complete blocks; without them the whole result is needed. -/
def placeResult (s : State) (seq : Nat) (data : List Byte) (ends : List Nat) : State × Placed :=
  match consOf s seq with
  | none => (s, {})
  | some c =>
    let n := data.length
    let dstLen := c.desc.dstLen.toNat
    let dst := c.desc.dstAddr.toNat
    let p := c.desc.chainPool.toNat
    if n ≤ dstLen then
      let (s, st) := resultWrite s seq [(dst, data)]
      (s, { status := st, len := if st = 0 then n else 0 })
    else if dstLen < 16 ∨ p = 0 then (s, { status := 0x0403, len := n })
    else
      let q := tget {} (tenantOf s c.tenant).pools p
      let per := 2 ^ q.bufLog2 - 16
      let need := (n - (dstLen - 16) + per - 1) / per
      let have_ := c.chainBufs.length + poolPosted q
      let room := dstLen - 16 + per * have_
      let whole := need ≤ have_
      let fit := ends.filter (fun e => e ≤ room)
      let body := if whole then data else data.take (fit.getLast?.getD 0)
      let count := if whole then need else have_
      let (s, new) := takeBuffers s c.tenant p (count - c.chainBufs.length)
      let bufs := c.chainBufs ++ new
      let s := modCons s seq (fun c => { c with chainBufs := bufs })
      let (s, st) := resultWrite s seq (chainSegs dst dstLen per bufs body)
      (s, { status := if st ≠ 0 then st else if whole then 0 else 0x0402, len := if st ≠ 0 then 0 else body.length,
            blocks := if whole then none else some fit.length, chained := true })

end Sys2Proof.Machine
end

