-- ==== Sys2Proof/Machine/CommitOps.lean ====
section
/-! DEFINITION. COMMIT and ABORT, commit points and reports, signals and parked accesses (04, 03). -/

namespace Sys2Proof.Machine

/-- ABORT, and every COMMIT that acts as one: the commit set is discarded, work is cancelled, the outcome is decided, and the
instruction retires (R103, R110). -/
def abortNow (s : State) (th : ThreadId) (status resultLen : Nat) : State :=
  let t := thr s th
  let r : EndReport := { committed := false, status := status, value := t.arch.hval, resultLen := resultLen }
  let s := cancelWork (dropCset s th) th
  let s := modThr s th (fun t => { t with run := .active, ended := .aborted, hostXlatFail := false })
  let s := modCons s t.seq (fun c => { c with report := some r, phase := .ended })
  retryPoint (finish s th (thr s th).arch) th

/-- The runtime ends the consignment of a thread with DEADLINE_EXPIRED (R103, R121). -/
def deadlineAbort (s : State) (th : ThreadId) : State :=
  let t := thr s th
  freeIfDone (endThread s th (some { committed := false, status := 0x0503, value := t.arch.hval, resultLen := 0 })) th

/-- A job of the thread has not yet posted (R109 step 1). -/
def jobsRun (s : State) (th : ThreadId) : Bool := s.jobs.any (fun e => decide (e.2.th = some th) && !e.2.cancelled)

/-- A HOST store of the thread has not entered a replay buffer (R109 step 2). -/
def hostWaits (t : Thread) : Bool := t.stores.any (fun o => isHostStore o.kind && !o.waiting.isEmpty)

/-- The bytes of the staging buffer that COMMIT compresses (R101, R109). -/
def stagedResult (s : State) (th : ThreadId) (n : Nat) : List Byte := readBytes (tget [] s.mem.staging th.val) 0 n

/-- Send the commit group (R86, R109 step 4). -/
def sendGroup (s : State) (th : ThreadId) (seq : Nat) (r : EndReport) : State :=
  let t := thr s th
  let s := modThr s th (fun t => { t with run := .commit 4, ended := .commitSent })
  modCons s seq (fun c => { c with
    group := t.csetBytes, groupSent := true, groupFrom := th.basin.val, report := some r, status := r.status,
    resultLen := r.resultLen, handlerValue := r.value.toNat, chained := r.chained, compressed := r.compressed })

/-- COMMIT goes on through the steps of R109 as far as it can. -/
def commitAdvance (s : State) (th : ThreadId) : State :=
  let t := thr s th
  match t.run with
  | .commit k =>
    if 4 ≤ k then s
    else match consOf s t.seq with
      | none => s
      | some c =>
        if jobsRun s th then setThr s th { t with run := .commit 1 }
        else match oldestFail (t.failures.filter (fun f => !f.host)) with
          | some f => barrierFault s th f
          | none =>
            if t.hostXlatFail then abortNow s th 0x0504 0
            else if hostWaits t then setThr s th { t with run := .commit 2 }
            else
              let rlen := t.arch.rlen.toNat
              if fCompress c.desc then
                if !(pathUp s c.tenant) && !(dmaDiscarded s c.tenant) then setThr s th { t with run := .commit 2 }
                else
                  let x := compressStream 0 false 0 65536 (stagedResult s th rlen)
                  let (s, p) := placeResult s t.seq (streamBytes x ++ indexBytes x) (blockEnds x)
                  if p.status = 0x0403 then abortNow s th 0x0403 p.len
                  else if p.status = 0x0504 then abortNow s th 0x0504 0
                  else sendGroup s th t.seq { committed := true, status := p.status, value := t.arch.hval, resultLen := p.len, compressed := true, chained := p.chained }
              else sendGroup s th t.seq { committed := true, status := 0, value := t.arch.hval, resultLen := rlen }
  | _ => s

/-- COMMIT (R103, R104, R109). -/
def execCommit (th : ThreadId) (d a b : RegField) (s : State) : Out :=
  .next (issue th (fun s =>
    let t := thr s th
    match consOf s t.seq with
    | none => takeExn s th excIllegal
    | some c =>
      if !(orderForm d a b) ∨ t.ended ≠ .no then takeExn s th excIllegal
      else
        let s := retryPoint s th
        if c.desc.dstLen.toNat < t.arch.rlen.toNat then abortNow s th 0x0403 t.arch.rlen.toNat
        else commitAdvance (modThr s th (fun t => { t with run := .commit 1 })) th) s)

/-- ABORT (R103, R104, R110). -/
def execAbort (th : ThreadId) (d a b : RegField) (s : State) : Out :=
  .next (issue th (fun s =>
    let t := thr s th
    match consOf s t.seq with
    | none => takeExn s th excIllegal
    | some c =>
      if !(orderForm d a b) ∨ t.ended ≠ .no then takeExn s th excIllegal
      else abortNow (retryPoint s th) th (if c.expired then 0x0503 else 0x0603) 0) s)

/-- The thread that waits at the commit point of a consignment. -/
def committing (s : State) (seq : Nat) : Option ThreadId :=
  (s.threads.find? (fun e => e.2.seq == seq && decide (e.2.run = .commit 4))).bind (fun e =>
    if h : e.1 < 1024 then some ⟨e.1, h⟩ else none)

/-- COMMIT_POINT: the controller accepts the end marker of a commit group and applies it whole (R86): the COMMITTED record
and the shadow are written, the ledgered lines change, the holds end, and the COMMIT retires (R107, R109). -/
def execCommitPoint (seq : Nat) (s : State) : Out :=
  .next (
    match consOf s seq with
    | none => s
    | some c =>
      if !c.groupSent ∨ !(basinOf s (stackOf s c.part)).hbmReadable then s
      else
        let whole (line : Nat) : Bool := (c.group.filter (fun e => e.1 / 64 == line)).length == 64
        let s := { s with mem := { s.mem with ledgered := c.group.foldl (fun m e => tset 0 m e.1 e.2) s.mem.ledgered,
                                              poisonLedger := s.mem.poisonLedger.filter (fun l => !(whole l)) } }
        let c := { c with group := [], groupSent := false, phase := if c.state = .accepted then .ended else c.phase }
        let s := appendFinal (setCons s seq c) seq c true
        let s := releaseHolds s c.groupFrom seq
        match committing s seq with
        | none => s
        | some th =>
          let s := modThr s th (fun t => { t with run := .active, ended := .committed, csetLines := [], csetBytes := [] })
          retryPoint (finish s th (thr s th).arch) th)

/-- COMMIT_REPORT: the Quayside learns how a thread's consignment ended and records COMMITTED or FAILED (R62, R103). -/
def execCommitReport (seq : Nat) (s : State) : Out :=
  .next (
    match consOf s seq with
    | none => s
    | some c =>
      if c.state ≠ .accepted ∨ c.phase ≠ .ended ∨ c.scuttling then s
      else match c.report with
        | none => s
        | some r =>
          if r.committed then (if c.finalRec.isSome then recordFinal s seq true else s)
          else failCons s seq r.status r.value.toNat r.resultLen)

/-- DEADLINE_GRACE_EXPIRY: the 5 µs of the deadline routine end (R121). -/
def execDeadlineGraceExpiry (th : ThreadId) (s : State) : Out :=
  .next (
    let t := thr s th
    match t.graceAt with
    | none => s
    | some g =>
      if nowNs s < g then s
      else
        let s := setThr s th { t with graceAt := none }
        if t.ended = .no ∧ t.seq ≠ 0 ∧ t.run ≠ .free ∧ t.run ≠ .ending then deadlineAbort s th else s)

/-! Signals (R117 to R121). -/

/-- A thread may take a signal now (R117): active or parked, not in COMMIT from step 4 on, not in a hand-over. -/
def takesSignal (s : State) (th : ThreadId) : Bool :=
  let t := thr s th
  running s && !(basinOf s th.basin.val).checkstopped && !(posOf s th).selfTest && decide (t.seq ≠ 0) &&
    (match t.run with
     | .active => true
     | .waitcp _ _ => true
     | .hold => true
     | .moor => true
     | .commit k => decide (k < 4)
     | _ => false)

/-- The runtime's act on DLVEC once DEADLINE is taken (R121): abort, or a CALLU of the routine with 5 µs of grace. -/
def deadlineAct (s : State) (th : ThreadId) : State :=
  let t := thr s th
  let a := t.arch
  if t.ended ≠ .no then s
  else if a.dlvec = 0 ∨ !(validPc a.dlvec.toNat) then deadlineAbort s th
  else match spillTo s th 2 28 a t.gated with
    | none => deadlineAbort s th
    | some (b, g) =>
      let b := withMode (slideUp b 1 5 a.sretv) false
      let b := wrW { b with pc := a.dlvec } 0 0x00000C
      retryPoint (setThr s th { t with arch := b, gated := g, entering := none, graceAt := some (nowNs s + 5000) }) th

/-- What follows the entry of a signal: MACHINE_CHECK ends the consignment, DEADLINE acts on DLVEC (R98, R121, R191). -/
def signalAct (s : State) (th : ThreadId) (pri : Nat) : State :=
  if pri = 7 then
    (if (thr s th).ended = .no then
      freeIfDone (endThread s th (some { committed := false, status := 0x0601, value := 0x00000D, resultLen := 0 })) th
     else freeIfDone (endThread s th none) th)
  else if pri = 5 then deadlineAct s th
  else s

/-- A thread leaves what it was parked on, to take a signal (R117). -/
def unpark (t : Thread) : Thread := { t with run := .active, wait := none, moorAt := none }

/-- A higher signal replaces the one being entered (R119): the window does not slide again, the saved PC and status stay, and
the replaced signal is pending as before. -/
def replaceSignal (s : State) (th : ThreadId) (old : Nat × Nat) (sig : Nat × Nat × Nat) : State :=
  let t := setSignal (thr s th) old.1 old.2
  let a := wrW t.arch 21 (BitVec.ofNat 24 sig.2.2)
  let a := { a with status := entryStatus a.status sig.2.1 sig.1, excinfo := BitVec.ofNat 24 sig.2.1, pc := vectorPc a sig.2.1 }
  retryPoint (setThr s th (setSignal { t with arch := a, entering := some (sig.1, sig.2.2) } sig.1 0)) th

/-- Enter a signal (R118): its count goes to w21 and its counter to 0; a spill that faults is the thread-reset entry of R136,
which ends the consignment as WINDOW_FAULT does. -/
def enterSignal (s : State) (th : ThreadId) (sig : Nat × Nat × Nat) : State :=
  let t := unpark (thr s th)
  let a := t.arch
  match enter s th a sig.2.1 sig.1 a.pc (BitVec.ofNat 24 sig.2.2) (BitVec.ofNat 24 sig.2.1) with
  | some (b, g) =>
    signalAct (retryPoint (setThr s th (setSignal { t with arch := b, gated := g, entering := some (sig.1, sig.2.2) } sig.1 0)) th) th sig.1
  | none =>
    let s := retryPoint (setThr s th { t with arch := threadReset a, entering := none }) th
    if t.ended = .no then freeIfDone (endThread s th (some (excReport excWindow))) th else freeIfDone (endThread s th none) th

/-- SIGNAL_ENTRY (R117 to R121). -/
def execSignalEntry (th : ThreadId) (s : State) : Out :=
  .next (
    if !(takesSignal s th) then s
    else
      let t := thr s th
      match signalAbove t (prio t.arch) with
      | none => s
      | some sig =>
        match t.entering with
        | some old => signalAct (replaceSignal s th old sig) th sig.1
        | none => enterSignal s th sig)

/-- PARKED_ACCESS_RESUME: what a parked access waited for has come (R107, R142, R189): an older thread performs its access, a
younger one restarts its handler, an access to an adopted range or to an island that is ON goes on. -/
def execParkedAccessResume (th : ThreadId) (s : State) : Out :=
  .next (
    let t := thr s th
    match t.wait with
    | none => s
    | some w =>
      if !(running s) ∨ (basinOf s th.basin.val).checkstopped then s
      else match w.why with
        | .hold p l => if holdEnded s th p l then resumeAccess s th else s
        | .restart p l =>
          if holdEnded s th p l then (match consOf s t.seq with
            | some c => enterHandler s th t.seq c
            | none => s)
          else s
        | .adoption b => if (basinOf s b.val).checkstopped ∧ !(basinOf s b.val).adopted then s else resumeAccess s th
        | .island n => if (islandOf s n).state = 3 ∧ !(islandOf s n).reset then resumeAccess s th else s
        | .hostRead => s)

end Sys2Proof.Machine
end

