-- ==== Sys2Proof/Machine/MailOps.lean ====
section
/-! DEFINITION. The mailboxes of the two PF0s: their state and their responses (18). -/

namespace Sys2Proof.Machine

/-- The mailbox of a PF0. -/
def mailOf (s : State) : Port → Mailbox
  | .a => s.mailA
  | .b => s.mailB
/-- Replace the mailbox of a PF0. -/
def setMail (s : State) (p : Port) (m : Mailbox) : State :=
  match p with
  | .a => { s with mailA := m }
  | .b => { s with mailB := m }

/-- A message of an MSI-X entry of a PF0, or its held bit where it is masked (R53, R367). -/
def pfVector (s : State) (p : Port) (n : Nat) : State :=
  let q := portOf s p
  setPort s p { q with msix := tset {} q.msix n (vectorSend (tget {} q.msix n)) }

/-- A response is complete: STATE becomes DONE, entry 32 is sent with IRQ_EN, and source 0xC00 arrives (R453, R455). -/
def mbAnswer (s : State) (p : Port) (r : MbResp) : State :=
  let s := setMail { s with dev := { s.dev with busyAt := nowNs s } } p { mailOf s p with st := 3, resp := some r, run := none }
  let s := if (mailOf s p).irqEn then pfVector s p 32 else s
  arrive s 0xC00 (r.status / 256) false

/-- A DMA write of the Pilot through a PF0 is performed: the link is up, the PF may master the bus, and the IOVA translates (R401,
R457). -/
def pilotDma (s : State) (p : Port) (a n : Nat) : Bool := (portOf s p).link && (portOf s p).bme && iovaOk s a n

/-- Write a response body over the OUT segments in list order; the entry of the first write that fails (R457). -/
def outWrite (s : State) (p : Port) : List OutSeg → List Byte → State × Option Nat
  | [], _ => (s, none)
  | g :: r, b =>
    let n := min g.len b.length
    if b.isEmpty then (s, none)
    else if pilotDma s p g.addr.toNat n then
      outWrite { s with mem := { s.mem with host := writeBytes s.mem.host g.addr.toNat (b.take n) } } p r (b.drop n)
    else (s, some g.entry)

/-- Give a response: inline, or by DMA into the OUT segments. Where that DMA fails, a command with no commit step ends with
MB_DMA_ERROR, and another answers inline with as much of the body as fits and DST_TOO_SMALL (R457, R463). -/
def mbDeliver (s : State) (p : Port) (r : MbRun) (x : MbResp) : State :=
  if !r.dma then mbAnswer s p x
  else
    match outWrite s p r.outs x.body with
    | (t, none) => mbAnswer t p x
    | (t, some i) =>
      mbAnswer t p (if r.readOnly then { status := 0x0807, tag := x.tag, detail := i }
                    else { x with status := 0x0403, dma := false, detail := x.body.length, body := x.body.take 4080 })

/-- The command in progress of a PF0 ends; a body that exceeds its space gives DST_TOO_SMALL with the length needed (R457,
R463). -/
def mbFinish (s : State) (p : Port) (status detail : Nat) (body : List Byte) : State :=
  match (mailOf s p).run with
  | none => s
  | some r =>
    if r.space < body.length then mbAnswer s p { status := 0x0403, tag := r.tag, detail := body.length }
    else mbDeliver s p r { status := status, dma := r.dma, tag := r.tag, detail := detail, body := body }

/-- The command in progress of a PF0 is this one. -/
def mbRuns (s : State) (p : Port) (op arg : Nat) : Bool :=
  match (mailOf s p).run with
  | some r => r.opcode == op && r.arg == arg
  | none => false

/-- End the command of either PF0 that waits with an opcode and an argument. -/
def mbFinishOp (s : State) (op arg status detail : Nat) (body : List Byte) : State :=
  [Port.a, Port.b].foldl (fun s p => if mbRuns s p op arg then mbFinish s p status detail body else s) s

end Sys2Proof.Machine
end

