-- ==== Sys2Proof/Machine/Builtins.lean ====
section
/-! DEFINITION. Acceptance of descriptors: the checks of R39, the parameter block of R58, the lengths of R514, and the step
from SLIPPED to ACCEPTED (02, 03). -/

namespace Sys2Proof.Machine

/-- The built-in handlers (02). -/
def builtins : List Nat :=
  [0xF001, 0xF002, 0xF010, 0xF011, 0xF020, 0xF021, 0xF030, 0xF040, 0xF041, 0xF042, 0xF050, 0xF060]

/-- VARIANT values of each built-in (02, R293). -/
def variants (fn : Nat) : List Nat :=
  match fn with
  | 0xF001 => [0, 1, 2]
  | 0xF002 => [0, 1, 2]
  | 0xF010 => [0, 1, 2, 3, 4]
  | 0xF020 => [0, 1, 2, 3]
  | 0xF021 => [0, 1, 2, 3]
  | 0xF030 => [0, 1]
  | 0xF040 => [0, 1, 3, 4]
  | 0xF041 => [0, 1]
  | 0xF042 => [0, 1]
  | 0xF011 => [0]
  | 0xF050 => [0]
  | _ => []

/-- KEY_NONE (R23). -/
def keyNone : Nat := 0xFFFFFFFF

/-- The bits of AUX that a built-in's row uses, with their values allowed (02, R285, R291, R323, R331). -/
def auxOk (fn v aux : Nat) : Bool :=
  match fn with
  | 0xF010 => aux % 4 ≤ 2 && (aux / 4 % 64 == 0 || (12 ≤ aux / 4 % 64 && aux / 4 % 64 ≤ 20))
      && decide (aux < 512) && (v != 0 || aux < 256)
  | 0xF011 => decide (aux < 8) && (if bitOf aux 2 then aux % 4 == 0 else aux % 4 ≤ 2)
  | 0xF020 => if v = 3 then aux % 65536 == 0 && aux / 65536 ≤ 2 else aux == 0
  | 0xF021 => if v = 3 then aux / 65536 ≤ 2 else aux < 65536
  | 0xF041 => aux < (if v = 1 then 64 else 32)
  | 0xF042 => aux < (if v = 1 then 64 else 32)
  | 0xF050 => true
  | _ => aux == 0

/-- The built-ins whose row gives AUX_LEN no use (R58). -/
def noAuxLen (fn : Nat) : Bool := [0xF010, 0xF011, 0xF030, 0xF041, 0xF042, 0xF050].contains fn

/-- KEY_A is used for a VARIANT (R23). -/
def usesKeyA (fn v : Nat) : Bool := !([0xF010, 0xF011, 0xF050, 0xF060].contains fn) && !(fn == 0xF030 && v == 0)

/-- A parameter block of 16 bytes (R58). -/
structure Block where
  variant : Nat
  auxLen : Nat
  aux : Nat
  deriving DecidableEq, Repr

/-- The block that 16 bytes spell. -/
def parseBlock (bs : List Byte) : Block := { variant := fieldLe bs 0 1, auxLen := fieldLe bs 4 4, aux := fieldLe bs 8 8 }

/-- The parameter block is valid for a built-in with a KEY_A (R23, R58): a breach gives BAD_HANDLER. -/
def blockOk (fn keyA : Nat) (bs : List Byte) : Bool :=
  let b := parseBlock bs
  (variants fn).contains b.variant && fieldLe bs 1 3 == 0 && (!(noAuxLen fn) || b.auxLen == 0) && auxOk fn b.variant b.aux
    && (usesKeyA fn b.variant || keyA == keyNone)

/-- Digest length of SIGN and VERIFY by VARIANT and AUX (R291). -/
def digestLen (v aux : Nat) : Nat :=
  match v with
  | 1 => 32
  | 2 => 48
  | _ => if aux / 65536 % 4 = 1 then 48 else 32

/-- Lengths of a built-in's source after the block, n bytes (R273, R291, R293, R514): a breach gives LENGTH_LIMIT. -/
def lengthsOk (fn v auxLen aux n : Nat) : Bool :=
  match fn with
  | 0xF001 => if v = 0 then auxLen ≤ 65536 && auxLen ≤ n else if v = 1 then auxLen == 0 else auxLen == 0 && n ≤ 65536
  | 0xF002 => if v = 0 then auxLen ≤ 65536 && auxLen + 28 ≤ n
              else if v = 1 then auxLen == 0 && 16 ≤ n else auxLen == 0 && 97 ≤ n && n ≤ 65536 + 97
  | 0xF020 => if v = 0 then auxLen ≤ 1024 && auxLen ≤ n else auxLen == 0 && n == digestLen v aux
  | 0xF021 => if v = 0 then auxLen ≤ 1024 && auxLen + aux % 65536 ≤ n else auxLen == 0 && n == digestLen v aux + aux % 65536
  | 0xF040 => (auxLen == 0 || (12 ≤ auxLen && auxLen ≤ 19)) && (n == auxLen + 8 || n == auxLen + 16)
  | 0xF041 => 4 ≤ aux % 32 && aux % 32 ≤ (if v = 1 then 8 else 16) && n ≤ 65536
  | 0xF042 => 4 ≤ aux % 32 && aux % 32 ≤ (if v = 1 then 8 else 16) && aux % 32 ≤ n && n ≤ 65536
  | _ => true

/-- Lengths that the descriptor alone settles (R39 check 8, R57, R59, R514). -/
def descLengthsOk (d : Desc) : Bool :=
  let fn := d.handler.toNat
  let n := d.srcLen.toNat
  (!(fDock d) || (d.srcAddr.toNat + n ≤ 0x40000)) &&
    (!(isBuiltin d) || fn == 0xF060 || 16 ≤ n) &&
    (!(fn == 0xF001 || fn == 0xF002) || n ≤ 2 ^ 30) &&
    (!(fn == 0xF040 || fn == 0xF041 || fn == 0xF042) || n ≤ 65536 + 16) &&
    (!(fn == 0xF021 || fn == 0xF042) || d.dstLen.toNat == 0)

/-- Fixed fields of a descriptor (R22, R24): a breach gives BAD_FORMAT. -/
def formatOk (s : State) (t : Nat) (d : Desc) : Bool :=
  d.fmt == 1 && d.cls.toNat < 16 && d.flags.toNat < 256 && (fOrdered d || d.orderTag == 0) && (fDurOverride d || fDur d == 0)
    && (d.dstLen != 0 || d.dstAddr == 0)
    && (d.chainPool == 0 || (d.chainPool.toNat < 64 && (tget {} (tenantOf s t).pools d.chainPool.toNat).exist))

/-- FN_CLASSES of a class as its 32 bits (R29). -/
def classOf (s : State) (t c : Nat) : Nat := tget 0 (tenantOf s t).classes c

/-- The handler a descriptor names may be used with its KEY fields (R23, R39 check 7). -/
def handlerOk (s : State) (t : Nat) (d : Desc) (dock : List Byte) : Bool :=
  let fn := d.handler.toNat
  if isBuiltin d then
    builtins.contains fn && (fn == 0xF040 || d.keyB.toNat == keyNone)
      && (!([0xF010, 0xF011, 0xF050, 0xF060].contains fn) || d.keyA.toNat == keyNone)
      && (!(fDock d) || fn == 0xF060 || dock.length < 16 || blockOk fn d.keyA.toNat dock)
  else (mget s.bindings (t * 65536 + fn)).isSome && (mget s.handlers fn).isSome

/-- The lengths of a DOCK built-in (R514). -/
def dockLengthsOk (d : Desc) (dock : List Byte) : Bool :=
  let b := parseBlock dock
  !(isBuiltin d && fDock d && d.handler.toNat != 0xF060) || lengthsOk d.handler.toNat b.variant b.auxLen b.aux (dock.length - 16)

/-- The effective level of a descriptor (R25). -/
def effDur (s : State) (t : Nat) (d : Desc) : Nat := if fDurOverride d then fDur d else bitsOf (classOf s t (fClass d)) 29 28

/-- Mirroring to a partner is in service (R78, R485). -/
def duplexUp (s : State) : Bool := s.duplexReady

/-- The acceptance checks of R39 in order: the disposition of the first that fails. -/
def acceptCheck (s : State) (t n : Nat) (free : Bool) (d : Desc) (dock : List Byte) : Option Nat :=
  if (tenantOf s t).state ≠ .running then some 0x0106
  else if !(sqOf s t n).enabled then some 0x0105
  else if !free then some 0x0107
  else if descCheck d ≠ d.check then some 0x0101
  else if !(formatOk s t d) then some 0x0102
  else if !(bitOf (classOf s t (fClass d)) 31) then some 0x0103
  else if !(handlerOk s t d dock) then some 0x0104
  else if !(descLengthsOk d) ∨ !(dockLengthsOk d dock) then some 0x0401
  else if effDur s t d = 2 ∧ s.cfg.hostLog2 = 0 then some 0x0108
  else if effDur s t d = 3 ∧ !(duplexUp s) then some 0x0108
  else none

/-- A Quayside half is out: its island is held in reset or out of service (R63, R423). -/
def halfOut (s : State) (p : Port) : Bool := (islandOf s (islHalf p)).reset || (islandOf s (islHalf p)).out

/-- The half that serves a port (R63). -/
def halfFor (s : State) (p : Port) : Port := if halfOut s p then p.other else p

/-- In-flight entries held in a bank (R63). -/
def entriesUsed (s : State) (h : Port) : Nat := (s.cons.filter (fun e => e.2.entry && decide (e.2.half = h))).length

/-- Draw the next LEDGER_SEQ for a half (R83). -/
def drawSeq (s : State) (h : Port) : State × Nat :=
  let q := s.seqs
  let fresh (n e : Nat) : Nat × Nat × Nat := if n = e then (q.shared, q.shared + 256, q.shared + 256) else (n, e, q.shared)
  match h with
  | .a =>
    let (n, e, sh) := fresh q.nextA q.endA
    ({ s with seqs := { q with nextA := n + 1, endA := e, shared := sh, seqBlocks := max q.seqBlocks (sh / 2 ^ 32 + 1) } }, n)
  | .b =>
    let (n, e, sh) := fresh q.nextB q.endB
    ({ s with seqs := { q with nextB := n + 1, endB := e, shared := sh, seqBlocks := max q.seqBlocks (sh / 2 ^ 32 + 1) } }, n)

/-- Round a time in ps up to a cycle of a Quayside half, 800 ps (R93). -/
def halfCycle (ps : Nat) : Nat := (ps + 799) / 800 * 800

/-- The deadline of a descriptor accepted now (R22, R29, R93). -/
def deadlineOf (s : State) (t : Nat) (d : Desc) : Option Nat :=
  let us := if d.deadlineUs = 0 then bitsOf (classOf s t (fClass d)) 23 0 else d.deadlineUs.toNat
  if us = 0 then none else some (halfCycle (s.clock.ps + us * 1000000))

/-- Where an accepted consignment begins (R58, R64, R99): its source is read by DMA first, or it waits for a thread or an
engine. -/
def startPhase (d : Desc) : Phase :=
  if !(fDock d) && d.srcLen != 0 then .source else if isBuiltin d then .builtin else .ready

/-- Accept a descriptor that has passed its checks (R62, R64, R75, R79, R81, R84). Source 0xA04 arrives when the in-flight table becomes
90 % full (R357). -/
def accept (s : State) (h : Port) (x : Slipped) : State :=
  let (s, seq) := drawSeq s h
  let d := x.desc
  let part := partitionOf d.affinity
  let cl := classOf s x.tenant (fClass d)
  let c : Cons :=
    { desc := d, tenant := x.tenant, sq := x.sq, port := x.port, half := h, part := part, dur := x.dur,
      prio := bitsOf cl 27 24, splitOk := fSplitOk d && bitOf cl 30, phase := startPhase d, reading := decide (startPhase d = .source),
      acceptTime := harbourNs s, deadlineAt := deadlineOf s x.tenant d, order := s.accepted, dock := x.dock, slot := x.slot,
      place := { basin := ((partOf s part).home).getD 0 } }
  let b := stackOf s part
  let (s, n) := appendRec s b (formRec s seq c 1 0 x.dock (zeros 32))
  let s := if c.dur = 2 then hostQueue s b n else s
  let l := ledgerOf s b
  let s := setLedger s b { l with reserved := l.reserved + s.cfg.replayMax + 1, intake := mset l.intake seq { desc := d, dock := x.dock } }
  let s := ledgerHigh (setCons { s with accepted := s.accepted + 1 } seq c) b
  if (s.cons.filter (fun e => e.2.entry)).length = 235930 then arrive s 0xA04 90 false else s

/-- A checked descriptor finds an entry and ledger room (R63, R84); in Doldrums it stays SLIPPED (R371). -/
def acceptRoom (s : State) (h : Port) (x : Slipped) : Bool :=
  running s && decide (entriesUsed s h < 131072) && ledgerRoom s (stackOf s (partitionOf x.desc.affinity)) x.dock.length

/-- Accept a checked descriptor at once, or hold it SLIPPED (R62, R63). -/
def acceptOrSlip (s : State) (x : Slipped) : State :=
  let h := halfFor s x.port
  if acceptRoom s h x && !(s.slipped.any (fun y => y.tenant == x.tenant && y.sq == x.sq)) then accept s h x
  else { s with slipped := s.slipped ++ [x] }

/-- The refusal record of a descriptor (R39). -/
def refuse (s : State) (t n : Nat) (d : Desc) (status : Nat) : State :=
  postEq s (.ten t (sqOf s t n).eq) { status := status, correlation := d.correlation, sqId := n }

/-- Dock bytes of a descriptor within the window (R32). -/
def dockBytes (s : State) (t : Nat) (d : Desc) : List Byte :=
  if fDock d ∧ d.srcAddr.toNat + d.srcLen.toNat ≤ 0x40000 then readBytes (tenantOf s t).dock d.srcAddr.toNat d.srcLen.toNat else []

/-- A pushed descriptor (R39 to R44): it spends a credit and takes a reserved slot, unless none is free. -/
def pushOne (s : State) (p : Port) (t n : Nat) (bs : List Byte) : State :=
  let d := parseDesc bs
  let q := sqOf s t n
  let dock := dockBytes s t d
  let free := decide (0 < chost q)
  match acceptCheck s t n free d dock with
  | some st =>
    let s := if free then setSq s t n { q with credits := q.credits ++ [{ num := q.nextSlot, freed := true }], nextSlot := q.nextSlot + 1 }
             else if st = 0x0107 then setSq s t n { q with overrun := satInc q.overrun 127 } else s
    let s := refuse s t n d st
    if free then creditCheck (setSq s t n (popCredits (sqOf s t n) (nowNs s))) t n else s
  | none =>
    let s := setSq s t n { q with credits := q.credits ++ [{ num := q.nextSlot }], nextSlot := q.nextSlot + 1 }
    acceptOrSlip s { desc := d, tenant := t, sq := n, port := p, dock := dock, dur := effDur s t d, slot := q.nextSlot }

/-- A fetched descriptor in its slot (R38, R39). -/
def fetchedOne (s : State) (t n slot : Nat) (bs : List Byte) : State :=
  let d := parseDesc bs
  let dock := dockBytes s t d
  match acceptCheck s t n true d dock with
  | some st => freeSlot (refuse s t n d st) t n slot
  | none => acceptOrSlip s { desc := d, tenant := t, sq := n, port := (tenantOf s t).currentPort, dock := dock, dur := effDur s t d, slot := slot }

end Sys2Proof.Machine
end

