-- ==== Sys2Proof/Machine/QuayCmds.lean ====
section
/-! DEFINITION. Slips, doorbells, descriptor fetches, credits, dispatch, durability and the ledger's events (02, 03, 11). -/

namespace Sys2Proof.Machine

/-- The Quayside takes host writes: in service, with its minimal part in Doldrums and during the wake (R371, R407). -/
def awake (s : State) : Bool := running s || decide (s.dev.st = .doldrums) || decide (s.dev.st = .waking)

/-- A memory write reaches a VF's BAR0: link up, the VF exists with memory space enabled, in D0 (R382, R396); an FLR is one command, so none is in progress between commands. -/
def vfMmio (s : State) (p : Port) (t : Nat) : Bool :=
  let po := portOf s p
  let v := vfOf s p t
  awake s && po.link && po.vfEnable && decide (t < po.numVFs) && po.vfMse && decide (v.dstate = .d0)
    && bitOf (tenantOf s t).ports p.num

/-- A tenant's descriptors and doorbells are looked at: not ABSENT, QUIESCED or SQUASHED (R383). -/
def tenantListens (s : State) (t : Nat) : Bool :=
  match (tenantOf s t).state with
  | .running | .quiescing | .error => true
  | _ => false

/-- A host write of a port: it leaves L1, its idle time starts again (R398), and source 0xF10 or 0xF11 arrives (R357, R370,
R371). -/
def touchPort (s : State) (p : Port) : State :=
  let s := setPort s p { portOf s p with l1 := false, lastTlp := nowNs s }
  arrive s (0xF10 + p.num) p.num false

/-- The 64-byte pieces of a slip write (R30). -/
def pieces64 : Nat → List Byte → List (List Byte)
  | 0, _ => []
  | k + 1, bs => bs.take 64 :: pieces64 k (bs.drop 64)

/-- SLIP_WRITE (R30, R31, R39). -/
def execSlipWrite (p : Port) (t : TenantId) (off : BitVec 12) (data : List Byte) (s : State) : Out :=
  let t := t.val
  let n := off.toNat / 256
  let rel := off.toNat % 256
  .next (
    if !(vfMmio s p t) ∨ !(tenantListens s t) then s
    else
      let s := touchPort s p
      let q := sqOf s t n
      if !q.exist then s
      else if q.pull then setSq s t n { q with err := satInc q.err 255 }
      else if !([64, 128, 192, 256].contains data.length) ∨ rel % 64 ≠ 0 ∨ 256 < rel + data.length then
        notice (setSq s t n { q with err := satInc q.err 255 }) t q.eq 0x0109 0 n
      else (pieces64 (data.length / 64) data).foldl (fun s bs => pushOne s p t n bs) s)

/-- Remove the first element that meets a test. -/
def removeFirst {α : Type} (p : α → Bool) : List α → List α
  | [] => []
  | x :: r => if p x then r else x :: removeFirst p r

/-- SLIPPED_DESCRIPTOR_ACCEPT: the oldest SLIPPED descriptor of a half that finds an entry and ledger room (R63, R84); no
descriptor passes an earlier one of its own queue (R54). -/
def execSlippedDescriptorAccept (half : Port) (s : State) : Out :=
  .next (
    match s.slipped.find? (fun x => decide (halfFor s x.port = half) && acceptRoom s half x &&
        ((s.slipped.find? (fun y => y.tenant == x.tenant && y.sq == x.sq)) == some x)) with
    | some x => if halfOut s half then s else accept { s with slipped := removeFirst (· == x) s.slipped } half x
    | none => s)

/-- SQ_TAIL_DOORBELL (R36). -/
def execSqTailDoorbell (p : Port) (t : TenantId) (sq : Fin 16) (size : Nat) (v : BitVec 32) (s : State) : Out :=
  let t := t.val
  let n := sq.val
  .next (
    if !(vfMmio s p t) ∨ !(tenantListens s t) then s
    else
      let s := touchPort s p
      let q := sqOf s t n
      let sz := 2 ^ q.sizeLog2
      let u := q.credits.length + q.pending + q.inTransit
      if !q.exist then s
      else if !q.pull ∨ size ≠ 4 ∨ sz ≤ v.toNat ∨ sz - 1 - u < (v.toNat + sz - q.head) % sz then
        notice (setSq s t n { q with err := satInc q.err 255 }) t q.eq 0x010A v.toNat n
      else setSq s t n { q with tail := v.toNat })

/-- Reserved slots of a pull queue that hold no descriptor (R37). -/
def reservedFree (q : Sq) : Nat := q.reservation - (q.credits.filter (fun c => !c.freed && !c.pooled)).length

/-- Slots for fetched descriptors, taken from the reservation and then from the free pool (R37). -/
def takeSlots (q : Sq) (n : Nat) : List CreditSlot :=
  (List.range n).map (fun i => { num := q.nextSlot + i, pooled := decide (reservedFree q ≤ i) })

/-- Descriptors one fetch may read (R37): pending entries up to the end of the ring, 64, and slots held. -/
def fetchCount (s : State) (q : Sq) : Nat :=
  let sz := 2 ^ q.sizeLog2
  min (min 64 ((q.tail + sz - q.head) % sz)) (min (sz - q.head) (min (reservedFree q + s.anchorFree) (8191 - pendingReg q)))

/-- DESCRIPTOR_FETCH (R37): the entries count as fetched from now on. -/
def execDescriptorFetch (t : TenantId) (sq : Fin 16) (s : State) : Out :=
  let t := t.val
  let n := sq.val
  .next (
    let q := sqOf s t n
    let k := fetchCount s q
    if running s ∧ q.exist ∧ q.pull ∧ q.enabled ∧ !q.stopped ∧ q.fetch.isNone ∧ k ≠ 0 ∧ (tenantOf s t).state = .running ∧ pathUp s t then
      let slots := takeSlots q k
      let pooled := (slots.filter (·.pooled)).length
      let s := { s with anchorFree := s.anchorFree - pooled }
      let s := setSq s t n { q with head := (q.head + k) % 2 ^ q.sizeLog2, fetch := some (q.head, k), credits := q.credits ++ slots, nextSlot := q.nextSlot + k }
      if s.anchorFree = 0 ∧ pooled ≠ 0 then arrive s 0xA05 0 false else s
    else s)

/-- Stop a queue's fetching after a failed fetch (R38): the entries return to the ring, and the notice names the first. -/
def fetchFail (s : State) (t n h k : Nat) : State :=
  let q := sqOf s t n
  let back := q.credits.drop (q.credits.length - k)
  let s := { s with anchorFree := s.anchorFree + (back.filter (·.pooled)).length }
  let s := setSq s t n { q with head := h, fetch := none, stopped := true, credits := q.credits.take (q.credits.length - k) }
  notice s t q.eq 0x0504 h n

/-- DESCRIPTOR_FETCH_COMPLETE (R38, R39). -/
def execDescriptorFetchComplete (t : TenantId) (sq : Fin 16) (r : ReadResult) (s : State) : Out :=
  let t := t.val
  let n := sq.val
  .next (
    let q := sqOf s t n
    match q.fetch with
    | none => s
    | some (h, k) =>
      match r with
      | .ok data =>
        let first := q.nextSlot - k
        let s := setSq s t n { q with fetch := none }
        (List.range k).foldl (fun s i => fetchedOne s t n (first + i) (slice data (64 * i) 64)) s
      | _ => fetchFail s t n h k)

/-- Consignments of the records that a head passes are RETIRED (R51). -/
def retirePassed (s : State) (r : EqRef) (v : Nat) : State :=
  let q := getEq s r
  let sz := eqSize q
  let passed (i : Nat) : Bool := decide ((i + sz - q.head) % sz < (v + sz - q.head) % sz)
  let gone := (q.unread.filter (fun e => passed e.1)).map (·.2)
  setEq { s with cons := s.cons.filter (fun e => !(gone.contains e.1)) } r
    { q with head := v, unread := q.unread.filter (fun e => !(passed e.1)) }

/-- Moderation after a valid head doorbell (R366). -/
def headModeration (q : Eq) (now : Nat) : Eq :=
  if q.head = q.tail then { q with unsignalled := 0, window := none, vectorHeld := false }
  else if q.unsignalled = 0 then { q with unsignalled := 1, window := match q.window with
    | some w => some w
    | none => some now }
  else q

/-- The queue a function's doorbell or vector names, where the function has it. -/
def refOf (p : Port) (f : FnSel) (eq : Nat) : Option EqRef :=
  match f with
  | .pf0 => some (.pf p eq)
  | .vf t => if eq < 16 then some (.ten t.val eq) else none

/-- EQ_HEAD_DOORBELL (R50, R51, R366). -/
def execEqHeadDoorbell (p : Port) (f : FnSel) (eq : Fin 32) (size : Nat) (v : BitVec 32) (s : State) : Out :=
  .next (
    let ok := match f with
      | .pf0 => awake s && (portOf s p).link && decide ((portOf s p).dstate = .d0)
      | .vf t => vfMmio s p t.val && tenantListens s t.val
    match refOf p f eq.val with
    | none => s
    | some r =>
      let q := getEq s r
      if !ok ∨ !q.exist then s
      else
        let s := touchPort s p
        let sz := eqSize q
        if size ≠ 4 ∨ sz ≤ v.toNat ∨ (q.tail + sz - q.head) % sz < (v.toNat + sz - q.head) % sz then
          setEq s r { q with dbErr := satInc q.dbErr 255 }
        else
          let s := retirePassed s r v.toNat
          let s := setEq s r (headModeration (getEq s r) (nowNs s))
          match f with
          | .pf0 => s
          | .vf t => pumpTenant s t.val)

/-- CHAIN_TAIL: a tail below the size is taken; HEAD to HEAD + size − 1 is the whole ring, so no other value is refused
(R328). -/
def execChainTail (t : TenantId) (pool : Fin 64) (v : BitVec 32) (s : State) : Out :=
  .next (
    let x := tenantOf s t.val
    let q := tget {} x.pools pool.val
    if awake s ∧ tenantListens s t.val ∧ q.exist ∧ v.toNat < 2 ^ q.sizeLog2 then
      setTenant s t.val { x with pools := tset {} x.pools pool.val { q with tail := v.toNat } }
    else s)

/-- ACCEPTED_RECORD_STORED (R40): the slot frees, and its credit becomes pending in order. -/
def execAcceptedRecordStored (seq : Nat) (s : State) : Out :=
  .next (
    match consOf s seq with
    | none => s
    | some c =>
      if c.recordStored then s
      else freeSlot (setCons s seq { c with recordStored := true }) c.tenant c.sq c.slot)

/-- CREDIT_TIME_EXPIRY (R42). -/
def execCreditTimeExpiry (t : TenantId) (sq : Fin 16) (s : State) : Out :=
  .next (
    let q := sqOf s t.val sq.val
    match q.oldestPending with
    | none => s
    | some x => if x + q.creditTime * 1000 ≤ nowNs s then reportCredits s t.val sq.val else s)

/-! Dispatch (R71, R99 to R102, R123). -/

/-- A consignment waits for a thread of a basin (R69 to R71). -/
def readyIn (s : State) (b : Nat) (c : Cons) : Bool :=
  decide (c.state = .accepted) && decide (c.phase = .ready) && decide ((partOf s c.part).home = some b)
    && (partOf s c.part).next.isNone

/-- The ready consignment a basin dispatches (R71, R341): one at the head of the list, else on every 16th dispatch the one
accepted earliest, else the highest priority and then the earliest. -/
def better (s16 : Bool) (x y : Nat × Cons) : Bool :=
  if x.2.headOfList ≠ y.2.headOfList then x.2.headOfList
  else if s16 ∨ x.2.prio = y.2.prio then decide (x.2.order < y.2.order) else decide (y.2.prio < x.2.prio)

/-- The choice of R71 among the consignments that a thread may take (R123). -/
def pickReady (s : State) (th : ThreadId) : Option (Nat × Cons) :=
  let b := th.basin.val
  let s16 := decide ((basinOf s b).dispatches % 16 = 15)
  let split := (posOf s th).split
  (s.cons.filter (fun e => readyIn s b e.2 && (!split || e.2.splitOk))).foldl (fun acc x => match acc with
    | none => some x
    | some y => if better s16 x y then some x else some y) none

/-- A thread can take a consignment: it is free, its berth has a pair and is neither stopped nor draining, and its pier and
basin run (R97, R122, R340, R342, R415). -/
def canTake (s : State) (th : ThreadId) : Bool :=
  let v := posOf s th
  running s && basinUp s th.basin.val && decide ((thr s th).run = .free) && pairOn s th && !v.selfTest && v.handover.isNone
    && v.reconf.isNone && v.retiring.isNone && !v.swapping && !(pierOf s th.pier.val).calm

/-- CONSIGNMENT_DISPATCH (R71): the berth runtime stages the dispatch area and enters the handler (R99 to R102). -/
def execConsignmentDispatch (th : ThreadId) (s : State) : Out :=
  .next (
    if !(canTake s th) then s
    else match pickReady s th with
      | none => s
      | some (seq, c) =>
        let b := basinOf s th.basin.val
        let s := setBasin s th.basin.val { b with dispatches := (b.dispatches + 1) % 16 }
        let place : Place := { basin := th.basin.val, pier := th.pier.val % 4, pair := ((posOf s th).pair).getD 31 }
        let c := { c with phase := .onThread th, place := place, headOfList := false }
        enterHandler (setCons s seq c) th seq c)

/-! Durability (R72 to R78). -/

/-- Mark the consignments whose final record a destination has acknowledged, and complete what can complete. -/
def ackFinals (s : State) (b upTo : Nat) (mark : Cons → Cons) : State :=
  let hit := s.cons.filter (fun e => match e.2.finalRec with
    | some (x, n) => x == b && decide (n < upTo)
    | none => false)
  let s := hit.foldl (fun s e => modCons s e.1 mark) s
  ((hit.map (fun e => e.2.tenant)).eraseDups).foldl settleTenant s

/-- MIRROR_BASIN_ACK: the mirror has acknowledged every record of a basin below a number (R72, R73, R74). -/
def execMirrorBasinAck (basin : BasinId) (upTo : Nat) (s : State) : Out :=
  .next (
    let l := ledgerOf s basin.val
    let n := min upTo (nextRec l)
    if (mirrorOf s basin.val).isSome ∧ l.mirrorAck < n then
      ackFinals (setLedger s basin.val { l with mirrorAck := n }) basin.val n (fun c => { c with local1 := true })
    else s)

/-- HOST_BATCH_CLOSE: at 32 records, or 500 ns after its first record; the flushing read issues (R76). -/
def execHostBatchClose (basin : BasinId) (s : State) : Out :=
  .next (
    let l := ledgerOf s basin.val
    match l.batchAt with
    | none => s
    | some t =>
      if 32 ≤ l.batch.length ∨ t + 500 ≤ nowNs s then
        let rest := l.batch.drop 32
        setLedger s basin.val { l with
          batch := rest, batchAt := if rest.isEmpty then none else some (nowNs s),
          flushing := l.flushing ++ [{ recs := l.batch.take 32, port := managerPort s }] }
      else s)

/-- The port that carries a batch re-issued: the other PF0 where it can, else the same (R76). -/
def reissuePort (s : State) (p : Port) : Port := if pf0Ok s p.other then p.other else p

/-- HOST_FLUSH_READ_COMPLETE: the oldest outstanding batch of a basin (R73, R74, R76, R401). -/
def execHostFlushReadComplete (basin : BasinId) (r : ReadResult) (s : State) : Out :=
  let b := basin.val
  .next (
    let l := ledgerOf s b
    match l.flushing with
    | [] => s
    | h :: rest =>
      if !(pf0Ok s h.port) then s
      else match r with
        | .ok _ =>
          let s := setLedger s b { l with flushing := rest }
          let hit := s.cons.filter (fun e => match e.2.finalRec with
            | some (x, n) => x == b && h.recs.contains n
            | none => false)
          let s := hit.foldl (fun s e => modCons s e.1 (fun c => { c with host := true })) s
          ((hit.map (fun e => e.2.tenant)).eraseDups).foldl settleTenant s
        | .error => setLedger s b { l with flushing := { h with port := reissuePort s h.port } :: rest }
        | .noTranslation =>
          if h.xlatRetry then
            haltHarbour (logIsland s 0x0505 3 (islPort h.port) (toLe 1 0 ++ toLe 1 h.port.num ++ toLe 8 s.cfg.hostBase)) 0x0505
          else setLedger s b { l with flushing := { h with port := h.port.other, xlatRetry := true } :: rest })

/-! Deadlines and replay (R86, R93, R516). -/

/-- The engine job of a consignment stops at its next step, or at once when it has not started (R516). -/
def expireJob (s : State) (seq id : Nat) : State :=
  match mget s.jobs id with
  | none => s
  | some j =>
    if j.finished then s
    else if j.started then { s with jobs := mset s.jobs id { j with expired := true } }
    else failCons { s with jobs := mdel s.jobs id } seq 0x0503 0 0

/-- DEADLINE_EXPIRY (R93, R516). -/
def execDeadlineExpiry (seq : Nat) (s : State) : Out :=
  .next (
    match consOf s seq with
    | none => s
    | some c =>
      match c.deadlineAt with
      | none => s
      | some d =>
        if s.clock.ps < d ∨ c.expired then s
        else match c.state with
          | .accepted =>
            let s := setCons s seq { c with expired := true }
            match c.phase with
            | .onThread th => modThr s th (fun t => { t with sigDl := satInc t.sigDl 255 })
            | .job id => expireJob s seq id
            | .ended => s
            | _ => failCons s seq 0x0503 0 0
          | .replaying => failCons (setCons s seq { c with expired := true }) seq 0x0503 0 0
          | _ => s)

/-- A consignment re-emitted from its final record and completion shadow (R86). -/
def reemit (s : State) (seq : Nat) (c : Cons) (b n : Nat) (r : LRec) : State :=
  let e := (mget (ledgerOf s b).intake seq).getD {}
  let c := { c with
    state := if r.state = 3 then .committed else .failed, phase := .final, status := if r.status = 0x0002 then 0 else r.status,
    late := r.status = 0x0002, resultLen := e.resultLen, handlerValue := e.value, chained := bitOf e.flags 2, compressed := bitOf e.flags 3,
    replayed := true, finalRec := some (b, n), local1 := c.local1 || decide (n < (ledgerOf s b).mirrorAck) }
  let s := setCons s seq c
  let s := if c.dur = 2 && !c.host then hostQueue s b n else s
  settleTenant s c.tenant

/-- Re-execute a REPLAYING consignment (R86): REPLAYING record, next attempt, its source read again (R82). -/
def reexecute (s : State) (seq : Nat) (c : Cons) : State :=
  let c := { c with
    attempt := c.attempt + 1, state := .accepted, phase := startPhase c.desc, reading := decide (startPhase c.desc = .source),
    source := none, report := none, groupSent := false, group := [], restarts := 0, place := {}, status := 0, lostResults := false }
  let b := stackOf s c.part
  let (s, n) := appendRec s b (formRec s seq c 2 0 [] (zeros 32))
  let s := if c.dur = 2 then hostQueue s b n else s
  let l := ledgerOf s b
  setCons (setLedger s b { l with reserved := l.reserved - 1 }) seq c

/-- REPLAY_DECIDE: a REPLAYING consignment is decided from the newest record in the ledger kept with its range (R86). It
waits while that stack cannot be read (R77), while it has no in-flight entry (R63), and while a commit group of it is in
flight. -/
def execReplayDecide (seq : Nat) (s : State) : Out :=
  .next (
    match consOf s seq with
    | none => s
    | some c =>
      let b := stackOf s c.part
      if c.state ≠ .replaying ∨ !(basinOf s b).hbmReadable ∨ (partOf s c.part).stranded ∨ c.groupSent then s
      else if !c.entry ∧ 131072 ≤ entriesUsed s c.half then s
      else
        let c := { c with entry := true }
        match newestRec (ledgerOf s b) seq with
        | some (n, r) =>
          if r.state = 3 ∨ r.state = 4 then reemit s seq c b n r
          else if s.cfg.replayMax ≤ c.attempt then failCons (setCons s seq c) seq 0x0701 0 0
          else reexecute s seq c
        | none => if s.cfg.replayMax ≤ c.attempt then failCons (setCons s seq c) seq 0x0701 0 0 else reexecute s seq c)

/-! Tides (R294 to R301). -/

/-- TIDE_BOUNDARY: TIDE_PERIOD after the open, or at TIDE_MAX records (R294). -/
def execTideBoundary (s : State) : Out :=
  .next (
    match s.tides.cur with
    | none => s
    | some t => if t.since + s.cfg.tidePeriodUs * 1000 ≤ nowNs s ∨ s.cfg.tideMax ≤ t.count then placeBoundary s else s)

/-- Seal report of a basin for a tide: its record count and the SM3 of its last record (R295). -/
def sealOf (s : State) (b num : Nat) : Nat × List Byte := ((tideRecs s b num).length, headOf s b num)

/-- The signed body of a closed tide, bytes 0x000 to 0x11F (R297). -/
def tideBody (s : State) (t : Tide) : List Byte :=
  let cnt (b : Nat) : Nat := ((mget t.seals b).getD (0, [])).1
  let hd (b : Nat) : List Byte := ((mget t.seals b).getD (0, zeros 32)).2
  let leaves := tideLeaves s t.num
  toLe 1 1 ++ toLe 1 0 ++ toLe 1 s.position ++ toLe 1 0 ++ toLe 4 (cnt 0 + cnt 1 + cnt 2 + cnt 3) ++ toLe 8 t.num ++ toLe 8 t.openAt
    ++ toLe 8 t.closeAt ++ (List.range 4).flatMap (fun b => toLe 4 (cnt b))
    ++ toLe 8 (sm3Low (toBe 64 (Config.tidePublic s.epoch).toNat)) ++ toLe 8 s.tides.prevNum ++ mth leaves.length leaves
    ++ (if s.tides.prevBody.isEmpty then zeros 32 else sm3Bytes s.tides.prevBody)
    ++ (List.range 4).flatMap hd ++ toBe 32 Config.unit.toNat

/-- Close a tide whose four seal reports have arrived: its record is formed and waits for its signature (R295, R297). -/
def closeTide (s : State) (t : Tide) : State :=
  let body := tideBody s t
  { s with tides := { s.tides with closing := s.tides.closing.drop 1, closed := s.tides.closed ++ [{ t with record := body }],
                                   prevNum := t.num, prevBody := body } }

/-- Oldest tide that holds a record of a consignment not yet COMPLETED or RETIRED (R85). -/
def oldestLive (s : State) : Option Nat :=
  let live (q : Nat) : Bool := match consOf s q with
    | some c => decide (c.state ≠ .completed)
    | none => false
  (List.range 4).foldl (fun acc b => match (ledgerOf s b).recs.find? (fun r => live r.seq) with
    | none => acc
    | some r => match acc with
      | none => some r.tide
      | some x => some (min x r.tide)) none

/-- Trim the records and intake entries of tides up to a number from every ledger (R85): the tide trimmed. -/
def trimTo (s : State) (num : Nat) : State × Nat :=
  let lim := match oldestLive s with
    | none => num
    | some x => min num (x - 1)
  let cut (s : State) (b : Nat) : State :=
    let l := ledgerOf s b
    let keep := l.recs.dropWhile (fun r => r.tide ≤ lim)
    let gone := l.recs.length - keep.length
    let last := (l.recs.take gone).getLast?
    let s := setLedger s b { l with
      recs := keep, first := l.first + gone, intake := l.intake.filter (fun e => lim < e.2.tide ∨ (consOf s e.1).isSome),
      trimHash := match last with
        | some r => sm3Bytes (recBytes r)
        | none => l.trimHash }
    ledgerHigh s b
  ((List.range 4).foldl cut s, lim)

/-- SEAL_REPORT: a ledger writer reports for the oldest closing tide; with all four the tide closes (R295, R296), and
automatic trimming keeps the most recent tides (R85). -/
def execSealReport (basin : BasinId) (s : State) : Out :=
  .next (
    match s.tides.closing with
    | [] => s
    | t :: rest =>
      let t := { t with seals := mset t.seals basin.val (sealOf s basin.val t.num) }
      let s := { s with tides := { s.tides with closing := t :: rest } }
      if t.seals.length = 4 then
        let s := closeTide s t
        if s.cfg.autoTrim ≠ 0 ∧ s.cfg.autoTrim < t.num then (trimTo s (t.num - s.cfg.autoTrim)).1 else s
      else s)

/-- TIDE_SIGNED: the EPOCH is journalled (R299), and a Derrick has signed the oldest closed tide, whose record goes to the tide logs; PROOF work that waits for
it may go on (R297, R298, R301). The per-message secret makes the signature a free value (log entry 8). -/
def execTideSigned (s : State) : Out :=
  .next (
    match s.tides.closed with
    | [] => s
    | t :: rest =>
      let waits := (s.sroom.openRecs ++ s.sroom.pages.flatten).any (fun r => decide (r = .epoch s.epoch))
      if s.dev.st = .halted ∨ s.otp.lifecycle = 3 ∨ waits ∨ (islandOf s islStrongroom).reset then s
      else
        let sig := toBe 64 (Config.tideSignature s.epoch t.record s.freeCtr).toNat
        let s := { s with tides := { s.tides with closed := rest, log := ((t.num, t.record ++ sig) :: s.tides.log).take 1048576 },
                          freeCtr := s.freeCtr + 1 }
        let s := { s with cons := s.cons.map (fun e => (e.1, if e.2.proofTide = some t.num then { e.2 with proofTide := none } else e.2)) }
        arrive s 0xA07 (t.num % 2 ^ 24) false)

/-- PARTITION_MAP_CHANGE_EFFECT: a change takes effect once every consignment of the partition dispatched under the old home
is COMMITTED or FAILED and no commit set in the old home holds a line of its range (R67, R69). -/
def execPartitionMapChangeEffect (part : Fin 4096) (s : State) : Out :=
  .next (
    let v := partOf s part.val
    match v.next with
    | none => s
    | some h =>
      let dispatched := s.cons.any (fun e => e.2.part == part.val && decide (e.2.state = .accepted) && (match e.2.phase with
        | .onThread _ => true
        | .job _ => true
        | .ended => true
        | _ => false))
      let held : Bool := match v.home with
        | some b => (basinOf s b).holds.any (fun e => e.1 / 2 ^ 14 % 4096 == part.val)
        | none => false
      if dispatched ∨ held then s
      else
        let s := setPart s part.val { v with home := h, next := none, stranded := false }
        if s.parts.any (fun e => e.2.next.isSome) then s else mbFinishOp s 0x0214 0 0 0 [])

end Sys2Proof.Machine
end

