-- ==== Sys2Proof/Machine/PathOps.lean ====
section
/-! DEFINITION. Path groups, squashes, resets of functions and ports, and the helm's lapse (03, 15). -/

namespace Sys2Proof.Machine

/-- All thread names. -/
def allThreads : List ThreadId := List.finRange 1024

/-- Threads that run a tenant's consignments. -/
def threadsOf (s : State) (t : Nat) : List ThreadId :=
  s.threads.filterMap (fun e => match consOf s e.2.seq with
    | some c => if h : e.1 < 1024 then (if c.tenant = t ∧ e.2.seq ≠ 0 then some ⟨e.1, h⟩ else none) else none
    | none => none)

/-- The source 0x400 + t, with a kind, a D-state and a port in its detail (R357). -/
def tenantEvent (s : State) (t kind : Nat) (p : Port) : State := arrive s (0x400 + t) (kind + 64 * p.num) false

/-- A HOST store on a port. -/
def onPort (p : Port) (o : OStore) : OStore :=
  match o.kind with
  | .host _ a => { o with kind := .host p a }
  | _ => o

/-- HOST stores of a thread that wait enter the replay buffer of the current port; COMMIT then goes on (R91, R109). -/
def releaseHost (s : State) (t : Nat) (th : ThreadId) : State :=
  let v := thr s th
  let waits := v.stores.filter (fun o => isHostStore o.kind)
  let s := (waits.flatMap (·.waiting)).foldl (fun s g => objStore s th .host g.addr g.byte) s
  let cur := (tenantOf s t).currentPort
  let s := modThr s th (fun v => { v with stores := mapIf (fun o => isHostStore o.kind) (fun o => { onPort cur o with waiting := [] }) v.stores })
  commitAdvance s th

/-- HOST stores in flight move to the other port, and the timer of a waiting MOOR restarts once (R188). -/
def redriveHost (s : State) (th : ThreadId) : State :=
  modThr s th (fun v =>
    let again := v.stores.any (fun o => isHostStore o.kind && !o.reissued)
    { v with stores := mapIf (fun o => isHostStore o.kind) otherPort v.stores, moorHostAt := if again then nowNs s else v.moorHostAt })

/-- PATH_REDRIVEN: one notice to each enabled EQ, naming the port that failed (R90, R355). -/
def redriven (s : State) (t : Nat) (failed : Port) : State :=
  let s := logAdd s 0x0503 0 (islPort failed) 0xFFFF t 0 (toLe 1 failed.num)
  (List.range 16).foldl (fun s n => if (tenEq s t n).exist ∧ (tenEq s t n).enabled then notice s t n 0x0501 failed.num 0xFFFF else s) s

/-- The current port leaves service: the tenant's traffic moves to the other port, unless a TDISP binding forbids it; with
no port up its DMA waits from now on (R89 to R91, R404). -/
def pathLost (s : State) (t : Nat) : State :=
  withVector t (fun s =>
    let v := tenantOf s t
    let cur := v.currentPort
    if vfInServiceB s cur t then s
    else if vfInServiceB s cur.other t ∧ !(tdispBound s t) then
      let s := setTenant s t { v with currentPort := cur.other }
      let s := (threadsOf s t).foldl redriveHost s
      redriven s t cur
    else match v.pathDownAt with
      | some _ => setTenant s t { v with pathLive := false }
      | none => setTenant s t { v with pathLive := false, pathDownAt := some (nowNs s) }) s

/-- The SQUASHED and HELD notices owed after TENANT_RESUME (R92, R393). -/
def oweNotices (s : State) (t : Nat) : State :=
  let v := tenantOf s t
  if !v.owesNotices then s
  else
    let s := setTenant s t { v with owesNotices := false, discarded := [] }
    let s := v.discarded.foldl (fun s e => notice s t (sqOf s t e.1).eq 0x0702 e.2 e.1) s
    let eqOf (c : Cons) : Nat := (sqOf s t c.sq).eq
    let held := s.cons.filter (fun e => e.2.tenant == t && e.2.heldMark)
    (List.range 16).foldl (fun s n =>
      let k := (held.filter (fun e => eqOf e.2 == n)).length
      if k = 0 then s else notice s t n 0x0703 k 0xFFFF) s

/-- A VF of the tenant is in service: the current port is chosen or changes, the notices owed are written, then what waited
(R89, R91, R369, R393). -/
def pathBack (s : State) (t : Nat) : State :=
  if !(pathAny s t) then s
  else
    withVector t (fun s =>
      let v := tenantOf s t
      let cur := v.currentPort
      let first : Port := if vfInServiceB s .a t then .a else .b
      let now := if !v.portChosen then first else if vfInServiceB s cur t then cur else cur.other
      let fresh := !v.pathLive
      let s := setTenant s t { v with currentPort := now, portChosen := true, pathLive := true, pathDownAt := none }
      let s := if v.portChosen ∧ now ≠ cur then redriven s t cur else s
      if fresh then
        let s := if (tenantOf s t).state = .running ∨ (tenantOf s t).state = .error then oweNotices s t else s
        let s := if dmaDiscarded s t then s else (threadsOf s t).foldl (fun s th => releaseHost s t th) s
        pumpTenant s t
      else s) s

/-- Every tenant on a port loses that path. -/
def portLost (s : State) (p : Port) : State :=
  s.tenants.foldl (fun s e => if bitOf e.2.ports p.num then pathLost s e.1 else s) s

/-- Every tenant on a port has that path back. -/
def portBack (s : State) (p : Port) : State :=
  s.tenants.foldl (fun s e => if bitOf e.2.ports p.num then pathBack s e.1 else s) s

/-- The helm lapses where this port's PF0 holds it (R385). -/
def helmLapse (s : State) (p : Port) : State :=
  if s.helm.holder = some p then { s with helm := { s.helm with holder := none, last := p } } else s

/-- Discard the SLIPPED descriptors of a tenant that meet a test, with their count per SQ; their slots are freed (R390,
R391). -/
def dropSlipped (s : State) (t : Nat) (p : Slipped → Bool) (credit : Bool) : State × Table Nat :=
  let gone := s.slipped.filter (fun x => x.tenant == t && p x)
  let counts := gone.foldl (fun (c : Table Nat) x => mset c x.sq ((mget c x.sq).getD 0 + 1)) []
  let s := { s with slipped := s.slipped.filter (fun x => !(x.tenant == t && p x)) }
  let free (s : State) (x : Slipped) : State :=
    if credit then freeSlot s t x.sq x.slot
    else
      let q := sqOf s t x.sq
      let pooled := q.credits.any (fun c => c.num == x.slot && c.pooled)
      setSq { s with anchorFree := if pooled then s.anchorFree + 1 else s.anchorFree } t x.sq
        { q with credits := q.credits.filter (fun c => c.num != x.slot) }
  (gone.foldl free s, counts)

/-- Outstanding descriptor fetches of a tenant are discarded, and their pool slots return (R391). -/
def dropFetches (s : State) (t : Nat) : State :=
  (List.range 16).foldl (fun s n =>
    let q := sqOf s t n
    match q.fetch with
    | none => s
    | some (_, k) =>
      let back := q.credits.drop (q.credits.length - k)
      setSq { s with anchorFree := s.anchorFree + (back.filter (·.pooled)).length } t n
        { q with fetch := none, credits := q.credits.take (q.credits.length - k) }) s

/-- Squash of a tenant (R391): the cause TENANT_RESUME restores is given (R392, R393). -/
def squash (s : State) (t cause : Nat) : State :=
  withVector t (fun s =>
    let (s, counts) := dropSlipped s t (fun _ => true) false
    let s := dropFetches s t
    -- HOST stores not yet issued are discarded, and the results they carried are lost (R92)
    let s := (threadsOf s t).foldl (fun s th =>
      let lost := hostWaits (thr s th)
      let s := if lost then modCons s (thr s th).seq (fun c => { c with lostResults := true }) else s
      commitAdvance (modThr s th (fun v => { v with stores := v.stores.filter (fun o => !(isHostStore o.kind && !o.waiting.isEmpty)) })) th) s
    let v := tenantOf s t
    let off (q : Eq) : Eq := { q with enabled := false, waiting := q.waiting.filter (fun w => !((w.type == 0 || w.type == 3) && w.seq != 0)) }
    let s := setTenant s t { v with
      state := .squashed, errCause := 0, resumeCause := cause, needResync := true, owesNotices := true,
      discarded := counts.foldl (fun (d : Table Nat) e => mset d e.1 ((mget d e.1).getD 0 + e.2)) v.discarded,
      sqs := v.sqs.map (fun e => (e.1, { e.2 with enabled := false })), eqs := v.eqs.map (fun e => (e.1, off e.2)),
      drainAt := none, pathDownAt := match v.pathDownAt with
        | some x => some x
        | none => some (nowNs s) }
    let s := { s with cons := s.cons.map (fun e =>
      if e.2.tenant == t && decide (e.2.state ≠ .completed) then (e.1, { e.2 with heldMark := true, recordQueued := false }) else e) }
    (consOfTenant s t).foldl tryComplete s) s

/-- A VF on a port is reset by FLR (R390, R404): its configuration space takes its reset values. -/
def resetVf (s : State) (p : Port) (t : Nat) : State := setVf s p t { msix := [] }

/-- The effect of an FLR of a tenant's VF (R390). -/
def flrEffect (s : State) (p : Port) (t : Nat) : State :=
  let v := tenantOf s t
  match v.state with
  | .absent | .quiesced => pathLost (resetVf s p t) t
  | _ =>
    if vfInServiceB s p.other t ∧ !(tdispBound s t) then
      let s := pathLost (resetVf s p t) t
      let (s, counts) := dropSlipped s t (fun x => decide (x.port = p)) true
      counts.foldl (fun s e => notice s t (sqOf s t e.1).eq 0x0702 e.2 e.1) s
    else
      let s := squash s t 0
      pathLost (resetVf s p t) t

/-- FLR (R390): sources 0x400 + t report that it began and that it is done (R357). -/
def execFlr (p : Port) (t : TenantId) (s : State) : Out :=
  .next (
    let po := portOf s p
    if !(running s) ∨ !po.link ∨ !po.vfEnable ∨ po.numVFs ≤ t.val ∨ !(bitOf (tenantOf s t.val).ports p.num) then s
    else tenantEvent (flrEffect (tenantEvent s t.val 0 p) p t.val) t.val 1 p)

/-- The drain limit of a TENANT_QUIESCE expires first: the tenant is squashed, out of ERROR with its cause kept (R392). -/
def drainExpire (s : State) (t : Nat) : State :=
  let v := tenantOf s t
  match v.drainAt with
  | none => s
  | some d =>
    if nowNs s < d then s
    else
      let s := squash s t (if v.state = .error then v.errCause else 0)
      mbFinishOp s 0x0203 t 0x0702 0 []

/-- The drain of a tenant is complete (R392): nothing accepted is unfinished, every credit is reported and every record
written. -/
def drained (s : State) (t : Nat) : Bool :=
  let v := tenantOf s t
  s.cons.all (fun e => e.2.tenant != t || decide (e.2.state = .completed)) && !(s.slipped.any (fun x => x.tenant == t))
    && v.sqs.all (fun e => e.2.credits.isEmpty && e.2.pending == 0 && e.2.inTransit == 0 && e.2.fetch.isNone)
    && v.eqs.all (fun e => e.2.waiting.isEmpty)

/-- QUIESCE_DRAIN_COMPLETE (R392). -/
def execQuiesceDrainComplete (t : TenantId) (s : State) : Out :=
  let t := t.val
  .next (
    let v := tenantOf s t
    if v.drainAt.isNone ∨ !(drained s t) then s
    else
      let s := withVector t (fun s => setTenant s t { v with
        drainAt := none, state := if v.state = .error then .error else .quiesced,
        sqs := v.sqs.map (fun e => (e.1, { e.2 with enabled := false })),
        eqs := v.eqs.map (fun e => (e.1, { e.2 with enabled := false })) }) s
      mbFinishOp (tenantEvent s t 3 v.currentPort) 0x0203 t 0 0 [])

/-- QUIESCE_DRAIN_LIMIT (R392): the command completes with SQUASHED. -/
def execQuiesceDrainLimit (t : TenantId) (s : State) : Out := .next (drainExpire s t.val)

/-- FLR_DRAIN_TIMEOUT: the drain timer of R94 expires in the Quayside half, and the function is squashed (R392). -/
def execFlrDrainTimeout (t : TenantId) (s : State) : Out := .next (drainExpire s t.val)

/-- The tenant holds no anchorage slot (R393). -/
def slotsFree (s : State) (t : Nat) : Bool :=
  !(s.slipped.any (fun x => x.tenant == t)) && s.cons.all (fun e => e.2.tenant != t || e.2.recordStored)

/-- TENANT_RESUME acts: queues are reset and enabled, and the tenant is in service or in ERROR with the cause kept (R393). -/
def resumeNow (s : State) (t : Nat) : State :=
  let s := withVector t (fun s =>
    let v := tenantOf s t
    let cause := if v.state = .error then 0 else v.resumeCause
    let sq (q : Sq) : Sq := { q with head := 0, tail := 0, pending := 0, inTransit := 0, credits := [], oldestPending := none, stopped := false, fetch := none, enabled := true }
    let eq (q : Eq) : Eq := { q with tail := 0, head := 0, phase := true, enabled := true, stopped := false, unsignalled := 0, window := none, unread := [],
                                     waiting := q.waiting.filter (fun w => w.type != 1) }
    setTenant s t { v with
      state := if cause = 0 then .running else .error, errCause := cause, resumeCause := 0,
      sqs := v.sqs.map (fun e => (e.1, sq e.2)), eqs := v.eqs.map (fun e => (e.1, eq e.2)) }) s
  if pathUp s t then pumpTenant (oweNotices s t) t else pathBack s t

/-- RESUME_SLOTS_FREED: the tenant holds no anchorage slot, and a TENANT_RESUME that waited completes (R393). -/
def execResumeSlotsFreed (t : TenantId) (s : State) : Out :=
  let t := t.val
  .next (
    if [Port.a, Port.b].any (fun p => mbRuns s p 0x0204 t) && slotsFree s t then mbFinishOp (resumeNow s t) 0x0204 t 0 0 [] else s)

/-- VF_IN_SERVICE (R89, R382, R393). -/
def execVfInService (t : TenantId) (s : State) : Out := .next (pathBack s t.val)

/-- A failed source read ends its consignment or its HOST load for want of a path (R91). -/
def failReads (s : State) (t : Nat) : State :=
  let late := (s.cons.filter (fun e => e.2.tenant == t && e.2.reading && decide (e.2.state = .accepted))).map (·.1)
  let s := late.foldl (fun s q => failCons (modCons s q (fun c => { c with reading := false })) q 0x0502 0 0) s
  (threadsOf s t).foldl (fun s th =>
    match (thr s th).wait with
    | some w =>
      if w.why = .hostRead then
        takeExn (modThr s th (fun v => { v with wait := none })) th (excLoad 7 ((w.op.map opVa).getD 0))
      else s
    | none => s) s

/-- HOST stores that waited for a path fail: their bytes are lost, and COMMIT goes ahead (R91, R190). -/
def failHostStores (s : State) (t : Nat) : State :=
  (threadsOf s t).foldl (fun s th =>
    if hostWaits (thr s th) then
      let s := modCons s (thr s th).seq (fun c => { c with lostResults := true })
      commitAdvance (modThr s th (fun v => { v with stores := v.stores.filter (fun o => !(isHostStore o.kind && !o.waiting.isEmpty)) })) th
    else s) s

/-- PATH_WAIT_EXPIRY: no port of the path group up for 50 µs (R38, R58, R91). -/
def execPathWaitExpiry (t : TenantId) (s : State) : Out :=
  let t := t.val
  .next (
    match (tenantOf s t).pathDownAt with
    | none => s
    | some d =>
      if nowNs s < d + 50000 ∨ (pathUp s t ∧ !(dmaDiscarded s t)) then s
      else
        let s := failHostStores (failReads s t) t
        (List.range 16).foldl (fun s n => match (sqOf s t n).fetch with
          | some (h, k) => fetchFail s t n h k
          | none => s) s)

/-- PORT_LINK_DOWN (R90, R385, R395). -/
def execPortLinkDown (p : Port) (s : State) : Out :=
  .next (
    if !(portOf s p).link then s
    else
      let s := setPort s p { portOf s p with link := false, dma := 0 }
      let s := logIsland s 0x0901 1 (islPort p) (toLe 1 p.num)
      let s := arrive s (0xB00 + p.num) 0 false
      portLost (helmLapse s p) p)

/-- PORT_LINK_UP: the port trains; what waited for it is written after the notice (R91). WAKE# deasserts (R397), and HOST
batches that no PF0 could carry are sent (R76). -/
def execPortLinkUp (p : Port) (s : State) : Out :=
  .next (
    let q := portOf s p
    if q.link ∨ q.perst ∨ (islandOf s (islPort p)).state ≠ 3 ∨ !s.dev.pwrCore then s
    else
      let s := setPort s p { q with link := true, wake := false, lastTlp := nowNs s }
      let s := arrive s (0xB00 + p.num) 0x11 false
      let s := (List.range 4).foldl (fun s b => hostSend s b (ledgerOf s b).hostWait.length) s
      portBack s p)

/-- The other half re-decides a consignment of a lost bank: it is REPLAYING, in the other bank where an entry is free (R63).
The work of its earlier attempt stops, but for a commit group already sent. -/
def rebank (half : Port) (s : State) (seq : Nat) : State :=
  match consOf s seq with
  | none => s
  | some c =>
    let s := match c.phase with
      | .onThread th => if (thr s th).ended = .commitSent then s else freeIfDone (endThread s th none) th
      | .job id => cancelJob s id
      | _ => s
    modCons s seq (fun c => { c with
      state := .replaying, half := half.other, recordQueued := false, reading := false,
      entry := decide (entriesUsed s half.other < 131072) })

/-- A Quayside half is reset: its bank is lost and the other half re-decides its consignments (R63, R353). -/
def halfReset (half : Port) (s : State) : State :=
  let i := islandOf s (islHalf half)
  let lost := (s.cons.filter (fun e => e.2.entry && decide (e.2.half = half))).map (·.1)
  let s := setIsland s (islHalf half) { i with reset := true, resets := satInc i.resets 65535, credits := false }
  let s := { s with cons := s.cons.map (fun (e : Nat × Cons) => if lost.contains e.1 then (e.1, { e.2 with entry := false, half := half.other }) else e) }
  let dropRec (q : Eq) : Eq := { q with waiting := q.waiting.filter (fun w => !((w.type == 0 || w.type == 3) && lost.contains w.seq)) }
  let s := { s with tenants := s.tenants.map (fun (e : Nat × Tenant) => (e.1, { e.2 with eqs := e.2.eqs.map (fun (x : Nat × Eq) => (x.1, dropRec x.2)) })) }
  let s := lost.foldl (rebank half) s
  let s := logIsland s 0x0501 2 (islHalf half) (toLe 1 half.num ++ toLe 4 lost.length)
  if halfOut s half.other then haltHarbour s 0x0501 else s

/-- QUAYSIDE_HALF_RESET (R63, R353). -/
def execQuaysideHalfReset (half : Port) (s : State) : Out :=
  .next (if !s.dev.pwrCore ∨ (islandOf s (islHalf half)).reset then s else halfReset half s)

/-- Each VF of a port is reset as by FLR (R395). -/
def flrAll (s : State) (p : Port) : State :=
  s.tenants.foldl (fun s e => if bitOf e.2.ports p.num ∧ e.1 < (portOf s p).numVFs ∧ (portOf s p).vfEnable then flrEffect s p e.1 else s) s

/-- Every function of a port is in D3hot (R395, R397). -/
def allD3hot (s : State) (p : Port) : Bool :=
  decide ((portOf s p).dstate = .d3hot) && s.tenants.all (fun e => !(bitOf e.2.ports p.num) || decide ((vfOf s p e.1).dstate = .d3hot))

/-- PF0 of a port takes its reset values; PME state survives in D3cold (R395, R397). -/
def resetPf0 (s : State) (p : Port) (perst : Bool) : State :=
  let q := portOf s p
  let s := { s with spdm := mdel s.spdm p.num, ide := s.ide.filter (fun e => e.1 / 4 != p.num) }
  setPort (helmLapse s p) p { perst := perst, link := false, pmeEn := q.pmeEn, pmeStatus := q.pmeStatus, pmeSent := q.pmeSent, wake := q.wake, crs := q.crs, lastTlp := nowNs s }

/-- A reset of a whole port (R395): D3cold where every function is in D3hot, else an FLR of every VF. -/
def portReset (s : State) (p : Port) (perst : Bool) : State :=
  if allD3hot s p ∧ (portOf s p).link then
    let s := { s with vfs := s.vfs.map (fun e => if e.1 / 1024 = p.num then (e.1, { e.2 with dstate := .d3cold, bme := false }) else e) }
    portLost (setPort (resetPf0 s p perst) p { portOf (resetPf0 s p perst) p with dstate := .d3cold }) p
  else portLost (resetPf0 (flrAll s p) p perst) p

/-- PERST_x#: asserted, it resets the port; deasserted, the port may train (R395, R422, R425). -/
def execPerst (p : Port) (asserted : Bool) (s : State) : Out :=
  .next (
    let q := portOf s p
    if q.perst = asserted then s
    else if asserted then portReset s p true
    else
      let s := { s with vfs := s.vfs.map (fun e => if e.1 / 1024 = p.num ∧ e.2.dstate = .d3cold then (e.1, { e.2 with dstate := .d0 }) else e) }
      setPort s p { q with perst := false, dstate := if q.dstate = .d3cold then .d0 else q.dstate })

/-- HOT_RESET (R395). -/
def execHotReset (p : Port) (s : State) : Out := .next (if (portOf s p).link then portReset s p false else s)

/-- LINK_DISABLE (R395). -/
def execLinkDisable (p : Port) (s : State) : Out := .next (if (portOf s p).link then portReset s p false else s)

/-- PF0_FLR: PF0 is reset, the helm lapses, VF Enable clears and each VF is removed (R391, R395). The link stays up. -/
def execPf0Flr (p : Port) (s : State) : Out :=
  .next (
    let q := portOf s p
    if !q.link then s
    else
      let s := flrAll s p
      let s := resetPf0 s p false
      portLost (setPort s p { portOf s p with link := true }) p)

/-- VF_ENABLE_CLEAR: VF Enable clears, or NumVFs is lowered; each VF removed is removed as by FLR (R391). -/
def execVfEnableClear (p : Port) (numVFs : Fin 1025) (s : State) : Out :=
  .next (
    let q := portOf s p
    if !q.link ∨ !q.vfEnable ∨ q.numVFs ≤ numVFs.val then s
    else
      let s := s.tenants.foldl (fun s e => if bitOf e.2.ports p.num ∧ numVFs.val ≤ e.1 ∧ e.1 < q.numVFs then flrEffect s p e.1 else s) s
      portLost (setPort s p { portOf s p with vfEnable := decide (numVFs.val ≠ 0), numVFs := numVFs.val }) p)

/-- HELM_LEASE_EXPIRY (R385). -/
def execHelmLeaseExpiry (s : State) : Out :=
  .next (match s.helm.holder with
    | some p => if s.helm.expiry ≤ nowNs s then helmLapse s p else s
    | none => s)

/-- HELM_LEASE_75: source 0xB02 arrives when 75 % of the lease has elapsed (R385). -/
def execHelmLease75 (s : State) : Out :=
  .next (
    if s.helm.holder.isSome ∧ !s.helm.told75 ∧ 3 * (s.helm.expiry - s.helm.since) ≤ 4 * (nowNs s - s.helm.since) then
      arrive { s with helm := { s.helm with told75 := true } } 0xB02 75 false
    else s)

/-- ATS_INVALIDATION_REQUEST: the port drops its translation of a page, and answers once older requests are done (R400). -/
def execAtsInvalidationRequest (p : Port) (page : Nat) (s : State) : Out :=
  .next (
    let q := portOf s p
    if q.link then setPort s p { q with atsCache := q.atsCache.filter (· != page), invalidations := q.invalidations + 1 } else s)

/-- A TDI enters ERROR: its tenant is squashed whatever the state of the other VF, and STATE becomes ERROR with cause 2
(R405). -/
def tdiError (s : State) (p : Port) (t : Nat) : State :=
  let s := setVf s p t { vfOf s p t with tdisp := .error }
  let s := withVector t (fun s =>
    let s := squash s t 2
    setTenant s t { tenantOf s t with state := .error, errCause := 2 }) s
  tenantEvent (pathLost s t) t 2 p

/-- An IDE stream slot of a port covers a VF (R402, R404). -/
def streamCovers (s : State) (p : Port) (k t : Nat) : Bool :=
  let x := tget {} s.ide (p.num * 4 + k)
  x.used && decide (x.first ≤ t + 1) && decide (t + 1 ≤ x.last)

/-- IDE_INTEGRITY_FAILURE: the stream is Insecure, the functions it carries have lost this port, and its bound TDIs go to
ERROR (R403). -/
def execIdeIntegrityFailure (p : Port) (stream : Fin 4) (s : State) : Out :=
  .next (
    let k := p.num * 4 + stream.val
    let x := tget {} s.ide k
    if !x.used ∨ !x.secure then s
    else
      let s := { s with ide := tset {} s.ide k { x with secure := false } }
      s.tenants.foldl (fun s e =>
        if bitOf e.2.ports p.num ∧ streamCovers s p stream.val e.1 then
          let v := vfOf s p e.1
          if v.tdisp = .locked ∨ v.tdisp = .run then tdiError s p e.1 else pathLost s e.1
        else s) s)

/-- LOCK_INTERFACE_REQUEST: only a VF that a Secure selective stream covers is locked (R404). -/
def execLockInterfaceRequest (p : Port) (t : TenantId) (s : State) : Out :=
  .next (
    let v := vfOf s p t.val
    let covered := (List.range 4).any (fun k => streamCovers s p k t.val && (tget {} s.ide (p.num * 4 + k)).secure && !(tget {} s.ide (p.num * 4 + k)).link)
    if (portOf s p).link ∧ v.tdisp = .unlocked ∧ covered ∧ bitOf (tenantOf s t.val).ports p.num then
      setVf { s with freeCtr := s.freeCtr + 1 } p t.val { v with tdisp := .locked, tdiNonce := randomBytes s.freeCtr 32 }
    else s)

/-- STOP_INTERFACE_REQUEST: the interface returns to CONFIG_UNLOCKED; out of CONFIG_LOCKED or RUN nothing else changes, out of
ERROR the squash is complete (R405). -/
def execStopInterfaceRequest (p : Port) (t : TenantId) (s : State) : Out :=
  .next (
    let v := vfOf s p t.val
    if (portOf s p).link ∧ v.tdisp ≠ .unlocked then setVf s p t.val { v with tdisp := .unlocked } else s)

end Sys2Proof.Machine
end

