-- ==== Sys2Proof/Machine/EventOps.lean ====
section
/-! DEFINITION. Event sources, their coalescing and records, vectors of host event queues, and D-states of functions (14). -/

namespace Sys2Proof.Machine

/-- A host access reaches PF0 BAR0: the link is up and PF0 is in D0 (R378, R396); in the Slipway PF0 alone is enabled (R448). -/
def pfMmio (s : State) (p : Port) : Bool :=
  (awake s || decide (s.dev.st = .slipway)) && (portOf s p).link && decide ((portOf s p).dstate = .d0)

/-- The writer of an event register has its effect: PF0 of the port that holds the helm, or the berth runtime (R358). -/
def evtWriter (s : State) : Option Port → Bool
  | some p => pfMmio s p && decide (s.helm.holder = some p)
  | none => running s

/-- EVT_POST (R360). -/
def execEvtPost (byPort : Option Port) (size : Nat) (v : BitVec 64) (s : State) : Out :=
  .next (
    let n := v.toNat
    if !(evtWriter s byPort) ∨ size ≠ 8 ∨ bitsOf n 15 12 ≠ 0 ∨ bitsOf n 63 40 ≠ 0 then s
    else arrive s (n % 4096) (bitsOf n 39 16) true)

/-- SOURCE_ARRIVAL (R359): a GPIO source carries the level of the pins (R357). -/
def execSourceArrival (src : BitVec 12) (detail : BitVec 24) (s : State) : Out :=
  .next (
    let n := src.toNat
    if !s.dev.pwrAon ∨ (0xE00 ≤ n ∧ n < 0xF00) then s
    else
      let s := if 0xF00 ≤ n ∧ n < 0xF08 then { s with dev := { s.dev with gpio := detail.setWidth 8 } } else s
      arrive s n detail.toNat false)

/-- SOURCE_TIME_THRESHOLD (R361). -/
def execSourceTimeThreshold (src : BitVec 12) (s : State) : Out :=
  .next (
    let v := srcOf s src.toNat
    match v.window with
    | none => s
    | some (t, th) => if v.en ∧ t + th * 1000 ≤ nowNs s then setSrc s src.toNat (fireSrc v (nowNs s)) else s)

/-- The queue a source's target names: kind and number (R363). -/
def srcQueue (v : Source) : Nat × Nat :=
  match v.kind with
  | 1 => (1, v.target / 256 % 16)
  | 2 => (2, 0)
  | _ => (3, v.target % 64)

/-- The event queue of PF0 that a KIND 3 target names. -/
def srcEq (v : Source) : EqRef := .pf (if v.target / 32 % 2 = 1 then .b else .a) (v.target % 32)

/-- The thread a KIND 1 target names (R358). -/
def srcThread (v : Source) : ThreadId := ⟨(v.target / 256 % 16) * 64 + v.target % 64, by omega⟩

/-- The target's queue can take a record now (R363, R371). -/
def srcReady (s : State) (v : Source) : Bool :=
  match v.kind with
  | 1 =>
    let th := srcThread v
    let p := pierOf s th.pier.val
    running s && basinUp s th.basin.val && (posOf s th).pair.isSome && p.evqBase != 0 && (p.evqTail + 1) % 256 != p.evqHead
  | 2 => (islandOf s islPilot).state == 3 && !(islandOf s islPilot).reset
  | 3 => running s && eqReady s (srcEq v) (getEq s (srcEq v))
  | _ => false

/-- A source that waits for the same queue and goes first: higher PRIO, or equal PRIO and a lower number (R364). -/
def srcBeaten (s : State) (n : Nat) (v : Source) : Bool :=
  s.sources.any (fun e => e.2.fired && e.2.en && e.2.kind != 0 && decide (srcQueue e.2 = srcQueue v)
    && (decide (v.prio < e.2.prio) || (e.2.prio == v.prio && decide (e.1 < n))))

/-- The record of a source (R362). -/
def srcRecord (s : State) (n : Nat) (v : Source) : EvRec :=
  { status := 0x0901, type := 2, flags := if v.sw then 16 else 0, resultLen := n + v.count * 4096,
    correlation := BitVec.ofNat 64 (harbourAt s (v.openedAt * 1000)), seq := harbourAt s (v.firedAt * 1000), value := v.detail % 2 ^ 24,
    sqId := if v.kind = 1 then v.target % 64 else 0 }

/-- Write bytes within one line of CACHED memory of a basin, coherently. -/
def cachedWrite (s : State) (b pa : Nat) (bs : List Byte) : State :=
  let line := pa / 64
  let s := recallAll s b line
  l3Write s b line (lineSetBytes (cohLine s b line).1 (pa % 64) bs) false

/-- Put a record into a pier's runtime event ring, with one more EVENT for the thread (R117, R363). -/
def pierRecord (s : State) (th : ThreadId) (r : EvRec) : State :=
  let p := pierOf s th.pier.val
  let s := cachedWrite s th.basin.val (p.evqBase * 4096 + 32 * p.evqTail) (evBytes r p.evqPhase)
  let t := (p.evqTail + 1) % 256
  let s := setPier s th.pier.val { pierOf s th.pier.val with evqTail := t, evqPhase := if t = 0 then !p.evqPhase else p.evqPhase }
  modThr s th (fun t => { t with sigEv := satInc t.sigEv 255 })

/-- SOURCE_RECORD_WRITE (R362 to R364, R401). -/
def execSourceRecordWrite (src : BitVec 12) (s : State) : Out :=
  .next (
    let n := src.toNat
    let v := srcOf s n
    if !v.fired ∨ !v.en ∨ v.kind = 0 ∨ !(srcReady s v) ∨ srcBeaten s n v then s
    else
      let q := getEq s (srcEq v)
      if v.kind = 3 ∧ !(iovaOk s (q.base + 32 * q.tail) 32) then stopEq s (srcEq v)
      else
        let r := srcRecord s n v
        let s := setSrc s n { v with pending := false, sw := false, fired := false, count := 0, window := none }
        if v.kind = 1 then pierRecord s (srcThread v) r
        else if v.kind = 2 then { s with pilotRing := s.pilotRing ++ [r] }
        else postEq s (srcEq v) r)

/-- TARGET as stored: its bits of a KIND, the others 0 (R358). -/
def targetOf (kind t : Nat) : Nat :=
  match kind with
  | 1 => t / 256 * 256 + t % 64
  | 3 => t % 64
  | _ => 0

/-- A write of EVT_CTL (R358, R359): setting EN with arrivals pending opens a window; clearing it closes one. -/
def ctlWrite (v : Source) (w now : Nat) : Source :=
  let kind := bitsOf w 29 28
  let en := bitOf w 31
  let v1 := { v with en := en, kind := kind, target := targetOf kind (bitsOf w 27 16), prio := bitsOf w 15 12 }
  if en ∧ !v.en ∧ v.pending ∧ !v.fired then fireByCount { v1 with window := some (now, v.timeTh) } now
  else if !en then { v1 with window := none } else v1

/-- EVT_CTL (R358, R359). -/
def execEvtCtl (byPort : Option Port) (src : BitVec 12) (v : BitVec 32) (s : State) : Out :=
  .next (
    if !(evtWriter s byPort) ∨ !(srcDefined src.toNat) then s
    else setSrc s src.toNat (ctlWrite (srcOf s src.toNat) v.toNat (nowNs s)))

/-- EVT_STAT_PENDING_CLEAR (R358): the arrivals are discarded. -/
def execEvtStatPendingClear (byPort : Option Port) (src : BitVec 12) (s : State) : Out :=
  .next (
    if !(evtWriter s byPort) ∨ !(srcDefined src.toNat) then s
    else setSrc s src.toNat { srcOf s src.toNat with pending := false, sw := false, fired := false, count := 0, window := none })

/-- LIGHTHOUSE_ALARM (R372). -/
def execLighthouseAlarm (k : Fin 4) (s : State) : Out :=
  .next (
    let a := s.policy.alarms[k.val]?.getD 0
    if a = 0 ∨ harbourNs s < a ∨ !s.dev.pwrAon then s
    else arrive { s with policy := { s.policy with alarms := s.policy.alarms.set k.val 0 } } (0xF20 + k.val) k.val false)

/-! Vectors (R365 to R369). -/

/-- A vector of a queue is due (R365). -/
def vectorDue (q : Eq) (now : Nat) : Bool :=
  decide (0 < q.unsignalled) && (decide (q.countTh ≤ q.unsignalled) || (match q.window with
    | some w => decide (w + q.timeTh * 1000 ≤ now)
    | none => false))

/-- Every record written so far is signalled, and the window closes (R365). -/
def signalled (q : Eq) (held : Bool) : Eq := { q with unsignalled := 0, window := none, vectorHeld := held }

/-- Send entry n of a VF (R53, R367). -/
def vfVector (s : State) (p : Port) (t n : Nat) : State :=
  let v := vfOf s p t
  setVf s p t { v with msix := tset {} v.msix n (vectorSend (tget {} v.msix n)) }

/-- A TLP sent through a port takes it out of L1 (R368, R398). -/
def sentTlp (s : State) (p : Port) : State := setPort s p { portOf s p with l1 := false, lastTlp := nowNs s }

/-- EQ_VECTOR_DUE: the vector is sent or pended in D0, and withheld outside it with a PME (R365 to R368). A tenant's queue is
decided by its current port. -/
def execEqVectorDue (p : Port) (f : FnSel) (eq : Fin 32) (s : State) : Out :=
  .next (
    match refOf p f eq.val with
    | none => s
    | some r =>
      let q := getEq s r
      if !q.exist ∨ !(vectorDue q (nowNs s)) then s
      else match f with
        | .pf0 =>
          if (portOf s p).dstate = .d0 then
            (if (portOf s p).link then setEq (sentTlp (pfVector s p eq.val) p) r (signalled q false) else s)
          else if q.vectorHeld then s else pf0Pme (setEq s r { q with vectorHeld := true }) p
        | .vf t =>
          if p ≠ (tenantOf s t.val).currentPort then s
          else if (vfOf s p t.val).dstate = .d0 then
            (if vfInServiceB s p t.val then setEq (sentTlp (vfVector s p t.val eq.val) p) r (signalled q false) else s)
          else if q.vectorHeld then s else vfPme (setEq s r { q with vectorHeld := true }) p t.val)

/-- MSIX_UNMASK: a held message is sent (R367); outside RUN, a change of the table of a locked TDI is security-relevant (R404). -/
def execMsixUnmask (p : Port) (f : FnSel) (entry : Fin 33) (s : State) : Out :=
  let open1 (m : Msix) : Msix := { m with masked := false, held := false, sent := if m.held then m.sent + 1 else m.sent }
  .next (
    match f with
    | .pf0 =>
      if !(pfMmio s p) then s
      else
        let q := portOf s p
        setPort s p { q with msix := tset {} q.msix entry.val (open1 (tget {} q.msix entry.val)) }
    | .vf t =>
      if !(vfMmio s p t.val) ∨ 16 < entry.val then s
      else
        let v := vfOf s p t.val
        let s := setVf s p t.val { v with msix := tset {} v.msix entry.val (open1 (tget {} v.msix entry.val)) }
        if v.tdisp = .locked then tdiError s p t.val else s)

/-- Send the vector of every queue of a tenant that has unsignalled records, at once (R369). -/
def sendAll (s : State) (p : Port) (t : Nat) : State :=
  (List.range 16).foldl (fun s n =>
    let q := tenEq s t n
    if q.exist ∧ q.unsignalled ≠ 0 then setTenEq (vfVector s p t n) t n (signalled q false) else s) s

/-- The same for the queues of PF0. -/
def sendAllPf (s : State) (p : Port) : State :=
  (List.range 32).foldl (fun s n =>
    let q := getEq s (.pf p n)
    let s := drainEq q.waiting.length s (.pf p n)
    let q := getEq s (.pf p n)
    if q.exist ∧ q.unsignalled ≠ 0 then setEq (pfVector s p n) (.pf p n) (signalled q false) else s) s

/-- The D-state code of a tenant event (R357). -/
def dCode : DState → Nat
  | .d0 => 0
  | .d3hot => 3
  | .d3cold => 3

/-- A VF leaves D0: its records and vectors wait (R368, R396); a locked or running TDI goes to ERROR (R404). -/
def vfSleep (s : State) (p : Port) (t : Nat) : State :=
  let v := vfOf s p t
  let s := setVf s p t { v with dstate := .d3hot, pmeSent := 0 }
  let s := arrive s (0x400 + t) (4 + 16 * 3 + 64 * p.num) false
  if v.tdisp = .locked ∨ v.tdisp = .run then tdiError s p t else pathLost s t

/-- A VF returns to D0: what waited is written in order, then the vectors are sent at once (R369). -/
def vfWake (s : State) (p : Port) (t : Nat) : State :=
  let s := setVf s p t { vfOf s p t with dstate := .d0 }
  let s := arrive s (0x400 + t) (4 + 64 * p.num) false
  let s := pathBack s t
  if vfInServiceB s p t ∧ (tenantOf s t).currentPort = p then sendAll s p t else s

/-- D_STATE_CHANGE (R368, R369, R384, R396, R397): PF0 outside D0 holds no helm. D3cold is entered by a port whose every
function is in D3hot with PME_En set. -/
def execDStateChange (p : Port) (f : FnSel) (d : DState) (s : State) : Out :=
  .next (
    let q := portOf s p
    if !q.link ∨ !(awake s) then s
    else match f with
      | .vf t =>
        let v := vfOf s p t.val
        if !q.vfEnable ∨ q.numVFs ≤ t.val then s
        else (match d with
          | .d3hot => if v.dstate = .d0 then vfSleep s p t.val else s
          | .d0 => if v.dstate = .d3hot then vfWake s p t.val else s
          | .d3cold => s)
      | .pf0 => (match d with
          | .d3hot => if q.dstate = .d0 then setPort (helmLapse s p) p { q with dstate := .d3hot, pmeSent := 0 } else s
          | .d0 => if q.dstate = .d3hot then sendAllPf (setPort s p { q with dstate := .d0 }) p else s
          | .d3cold => if allD3hot s p ∧ q.pmeEn then portReset s p q.perst else s))

/-- PME_EN_SET: a withheld PM_PME is sent while PME_Status is set and the function is still in D3hot (R368). -/
def execPmeEnSet (p : Port) (f : FnSel) (s : State) : Out :=
  .next (
    let q := portOf s p
    if !q.link then s
    else match f with
      | .pf0 =>
        let s := setPort s p { q with pmeEn := true }
        if q.pmeStatus ∧ q.dstate = .d3hot then pf0Pme s p else s
      | .vf t =>
        if !q.vfEnable ∨ q.numVFs ≤ t.val then s
        else
          let v := vfOf s p t.val
          let s := setVf s p t.val { v with pmeEn := true }
          if v.pmeStatus ∧ v.dstate = .d3hot then vfPme s p t.val else s)

/-- A DMA read of a port is outstanding: of a source, a descriptor fetch, a HOST load or a flushing read (R398). -/
def dmaBusy (s : State) (p : Port) : Bool :=
  s.cons.any (fun e => e.2.reading && decide ((tenantOf s e.2.tenant).currentPort = p))
    || s.tenants.any (fun e => decide (e.2.currentPort = p) && e.2.sqs.any (fun x => x.2.fetch.isSome))
    || s.ledgers.any (fun e => e.2.flushing.any (fun h => decide (h.port = p)))
    || s.threads.any (fun e => e.2.stores.any (fun o => match o.kind with
        | .host q _ => decide (q = p)
        | _ => false))

/-- ASPM_L1_ENTRY (R398). -/
def execAspmL1Entry (p : Port) (s : State) : Out :=
  .next (
    let q := portOf s p
    if q.link ∧ q.aspmEn ∧ !q.l1 ∧ q.lastTlp + 8000 ≤ nowNs s ∧ !(dmaBusy s p) then setPort s p { q with l1 := true } else s)

/-- The latency in µs that LTR of a port reports (R399). -/
def ltrOf (s : State) (p : Port) : Nat :=
  if s.cons.any (fun e => e.2.entry && bitOf (tenantOf s e.2.tenant).ports p.num) then 10 else 1000

end Sys2Proof.Machine
end

