-- ==== Sys2Proof/Machine/CohOps.lean ====
section
/-! DEFINITION. Coherence messages of a basin, NACKs and reservations, cache control registers, and the basin checkstop (08, 13). -/

namespace Sys2Proof.Machine

/-! Basin checkstop (R220, R346). -/

/-- Every consignment dispatched to a basin and not COMMITTED or FAILED is REPLAYING, but for one whose commit group is whole;
groups of its threads without their end marker are discarded (R62, R86, R346). -/
def replayBasin (s : State) (b : Nat) : State :=
  { s with cons := s.cons.map (fun (e : Nat × Cons) =>
      let c := e.2
      let c := if c.groupSent && c.groupFrom == b then { c with groupSent := false, group := [] } else c
      let here := match c.phase with
        | .onThread th => th.basin.val == b
        | .ended => c.place.basin == b
        | _ => false
      if decide (c.state = .accepted) && here then (e.1, { c with state := .replaying, report := none, reading := false })
      else (e.1, c)) }

/-- A thread stops without a trace, but for its outstanding stores and recorded failures (R192). -/
def stopThread (s : State) (th : ThreadId) : State :=
  let s := cancelWork s th
  let t := thr s th
  setThr s th { run := if t.run = .noPair then .noPair else .free, stores := t.stores, nextStore := t.nextStore }

/-- The caches of a pier after a discard: contents gone, registers kept. -/
def emptyPier (pc : PierCache) : PierCache := { pc with l2 := [], l1d := [], l1i := [], evict := [] }

/-- Basins in service and running. -/
def basinsUp (s : State) : List Nat := (List.range 4).filter (basinUp s)

/-- A basin checkstops (R220, R346, R349, R353): the entry names the trigger, a row of R220 from 1, and the deciding island. An
adoption that this basin was making restarts with the next basin. -/
def checkstop (s : State) (b trigger island : Nat) : State :=
  if !(basinUp s b) then s
  else
    let n := s.logNext
    let s := logIsland s 0x0301 2 island (toLe 1 b ++ toLe 1 trigger ++ toLe 2 island)
    let s := setBasin s b { basinOf s b with checkstopped := true, injected := s.dev.injecting, adopted := false, holds := [], adopter := none, stoppedAt := nowNs s }
    let s := replayBasin s b
    let s := (List.finRange 1024).foldl (fun s th => if th.basin.val = b then stopThread s th else s) s
    let s := (List.range 4).foldl (fun s a => setPc s (b * 4 + a) (emptyPier (pcOf s (b * 4 + a)))) s
    let s := (List.range 4).foldl (fun s a =>
      let p := pierOf s (b * 4 + a)
      setPier s (b * 4 + a) { p with cpq := Vector.replicate 3 [], pos := p.pos.map (fun v => { v with event := none, notPassed := [], selfTest := false, handover := none }) }) s
    let s := setCoh s b {}
    let s := { s with basins := s.basins.map (fun (e : Nat × Basin) => if e.2.adopter = some b then (e.1, { e.2 with adopter := none }) else e) }
    let s := arrive s (0x904 + b) (n % 2 ^ 24) false
    if (basinsUp s).isEmpty then haltHarbour s 0x0301 else s

/-! Sending and receiving. -/

/-- The pier of an L2 agent of a basin. -/
def agentPier (b : BasinId) (a : Nat) : Nat := b.val * 4 + a

/-- Send a message. -/
def sendMsg (s : State) (b : Nat) (m : CohMsg) : State := setCoh s b { cohOf s b with msgs := (cohOf s b).msgs ++ [m] }

/-- Take the first message that meets a test. -/
def takeMsg (s : State) (b : Nat) (p : CohMsg → Bool) : Option (CohMsg × State) :=
  match (cohOf s b).msgs.find? p with
  | some m => some (m, setCoh s b { cohOf s b with msgs := removeFirst p (cohOf s b).msgs })
  | none => none

/-- The outstanding request of an agent with a line and tag. -/
def reqOf (s : State) (b a line tag : Nat) : Option CohReq :=
  (cohOf s b).reqs.find? (fun r => r.agent == a && r.line == line && r.tag == tag)

/-- Change an outstanding request. -/
def modReq (s : State) (b a line tag : Nat) (f : CohReq → CohReq) : State :=
  let c := cohOf s b
  setCoh s b { c with reqs := mapIf (fun r => r.agent == a && r.line == line && r.tag == tag) f c.reqs }

/-- Remove a request. -/
def dropReq (s : State) (b a line tag : Nat) : State :=
  let c := cohOf s b
  setCoh s b { c with reqs := c.reqs.filter (fun r => !(r.agent == a && r.line == line && r.tag == tag)) }

/-- The L3 copy of a line, fetched if needed. -/
def l3Copy (s : State) (b line : Nat) : State × Line := l3Fetch s b line 1

/-! The home (R212, R215). -/

/-- Send forwards and invalidations and make the line busy with a request. -/
def makeBusy (s : State) (b : Nat) (r : CohReq) (st : DirState) (owner : Option Nat) (own : Bool) (invs : List Nat) (withData : Bool) : State :=
  let d := dirOf s b r.line
  let s := setDir s b r.line { d with state := st, oweFwd := owner.toList, oweInv := invs, req := some r, withData := withData, since := nowNs s }
  let s := match owner with
    | some o => sendMsg s b (if own then .fwdGetM o r.line r.agent r.tag else .fwdGetS o r.line r.agent r.tag)
    | none => s
  invs.foldl (fun s a => sendMsg s b (.inv a r.line)) s

/-- Finish an agent-4 write or read at the home, on the L3 copy (R212). -/
def ioFinish (s : State) (b : Nat) (r : CohReq) : State :=
  let (s, l) := l3Copy s b r.line
  let s := if r.kind = .iowr then l3Write s b r.line (lineSetBytes l.data r.off r.bytes) (l.poisoned && r.bytes.length < 64) else s
  let c := cohOf s b
  dropReq (setCoh s b { c with ioDone := mset c.ioDone r.tag { data := l.data, poisoned := l.poisoned } }) b 4 r.line r.tag

/-- The home serves a request to a line in a stable state (R212). -/
def homeServe (s : State) (b : Nat) (r : CohReq) : State :=
  let (s, l) := l3Copy s b r.line
  let d := dirOf s b r.line
  let a := r.agent
  let others := d.sharers.filter (· != a)
  let give (s : State) (st : LState) : State := sendMsg s b (.data a r.line r.tag st l.data l.poisoned)
  match r.kind with
  | .gets => (match d.state with
    | .di => setDir (give s .e) b r.line { d with state := .de, owner := a, sharers := [] }
    | .ds => setDir (give s .s) b r.line { d with sharers := if d.sharers.contains a then d.sharers else a :: d.sharers }
    | _ => makeBusy s b r .bF (some d.owner) false [] false)
  | .iord => (match d.state with
    | .di | .ds => ioFinish s b r
    | _ => makeBusy s b r .bA (some d.owner) false [] false)
  | .iowr => (match d.state with
    | .di => ioFinish s b r
    | .ds => makeBusy s b r .bA none true d.sharers false
    | _ => makeBusy s b r .bA (some d.owner) true d.sharers false)
  | .amo => s
  | k =>
    let held := (k == .upgr) && (match d.state with
      | .ds => d.sharers.contains a
      | .dO => d.sharers.contains a || d.owner == a
      | _ => false)
    (match d.state with
    | .di => setDir (give s .m) b r.line { d with state := .de, owner := a, sharers := [] }
    | .ds =>
      if others.isEmpty then
        let s := setDir s b r.line { d with state := .de, owner := a, sharers := [] }
        if held then sendMsg s b (.grant a r.line r.tag) else give s .m
      else makeBusy (modReq s b a r.line r.tag (fun x => { x with needGrant := true })) b r .bI none true others (!held)
    | .de => if d.owner = a then give (setDir s b r.line { d with state := .de, owner := a }) .m else makeBusy s b r .bF (some d.owner) true [] false
    | _ =>
      let s := modReq s b a r.line r.tag (fun x => { x with needGrant := true })
      if d.owner = a then
        (if others.isEmpty then sendMsg (setDir s b r.line { d with state := .de, owner := a, sharers := [] }) b (.grant a r.line r.tag)
         else makeBusy s b r .bI none true others false)
      else makeBusy s b r .bF (some d.owner) true others false)

/-- A request reaches the home: served, or NACKed while the line is busy or reserved for another; the eighth Nack of a request
enters its agent in the line's reservation queue (R215). -/
def homeArrive (s : State) (b : Nat) (r : CohReq) : State :=
  let d := dirOf s b r.line
  let mine := d.reserve.head? = some r.agent
  if dirStable d ∧ (d.reserve.isEmpty ∨ mine) then
    homeServe (if mine then setDir s b r.line { d with reserve := d.reserve.drop 1 } else s) b r
  else
    let inUse := ((cohOf s b).dir.filter (fun e => !e.2.reserve.isEmpty)).length
    let enterQ := 8 ≤ r.nacks + 1 && !(d.reserve.contains r.agent) && (!d.reserve.isEmpty || decide (inUse < 64))
    let s := if enterQ then setDir s b r.line { d with reserve := d.reserve ++ [r.agent] } else s
    if r.agent = 4 then modReq s b 4 r.line r.tag (fun x => { x with nacks := x.nacks + 1 })
    else sendMsg s b (.nack r.agent r.line r.tag r.kind)

/-- The line leaves its busy state: every acknowledgement has arrived, and the request in progress is completed (R212); Puts
that were held are answered WbStale (R217). -/
def homeFinish (s : State) (b line : Nat) (ownerSt : Option LState) (owner : Nat) : State :=
  let d := dirOf s b line
  if !d.oweFwd.isEmpty ∨ !d.oweInv.isEmpty then s
  else match d.req with
    | none => s
    | some r =>
      let a := r.agent
      let base : Dir := { reserve := d.reserve, owner := d.owner }
      let next : Dir := match r.kind with
        | .gets => (match ownerSt with
          | some .o => { base with state := .dO, owner := owner, sharers := a :: d.sharers.filter (· != a) }
          | some .s => { base with state := .ds, sharers := [owner, a] }
          | some .m => { base with state := .dO, owner := a, sharers := d.sharers.filter (· != a) }
          | _ => { base with state := .ds, sharers := a :: d.sharers.filter (· != a) })
        | .iord => (match ownerSt with
          | some .o => { base with state := .dO, owner := owner, sharers := d.sharers }
          | some .s => { base with state := .ds, sharers := [owner] }
          | _ => if d.sharers.isEmpty then { base with state := .di } else { base with state := .ds, sharers := d.sharers })
        | .iowr => { base with state := .di }
        | _ => { base with state := .de, owner := a }
      let s := setDir s b line next
      let s := d.heldPuts.foldl (fun s e => sendMsg s b (.wbstale e.1 line e.2)) s
      match r.kind with
      | .gets | .amo => s
      | .iord | .iowr => ioFinish s b r
      | _ =>
        let (s, l) := l3Copy s b line
        let s := if d.withData then sendMsg s b (.data a line r.tag .m l.data l.poisoned) else s
        if ((reqOf s b a line r.tag).map (·.needGrant)).getD false then sendMsg s b (.grant a line r.tag) else s

/-! The L2s. -/

/-- A request is complete at its L2 when what it waits for has arrived: the line is installed, unless its fill is doomed
(R208, R210, R212). -/
def l2Finish (s : State) (b a line tag : Nat) : State :=
  let p := b * 4 + a
  match reqOf s b a line tag with
  | none => s
  | some r =>
    match r.got with
    | some (st, d, poison) =>
      if r.needGrant && !r.granted then s
      else
        let s := dropReq s b a line tag
        if r.doomed ∨ !(pcOf s p).l2En then s else l2Install s p line (if r.kind = .gets then st else .m) d poison 1
    | none =>
      if r.kind = .upgr && r.granted then
        (if (cFind (pcOf s p).l2 l2Sets l2Ways line).isSome then l2SetState (dropReq s b a line tag) p line .m else s)
      else s

/-- The basin's coherence runs. -/
def cohRuns (s : State) (b : BasinId) : Bool := running s && basinUp s b.val

/-- An L2 may send a request: enabled, at most 64 outstanding, one to a line, and the tag free (R198, R211). -/
def mayRequest (s : State) (b : BasinId) (a line tag : Nat) : Bool :=
  let mine := (cohOf s b.val).reqs.filter (fun r => r.agent == a)
  cohRuns s b && (pcOf s (agentPier b a)).l2En && decide (mine.length < 64) && !(mine.any (fun r => r.line == line || r.tag == tag))

/-- Send a request of an L2 to the home. -/
def l2Request (s : State) (b : BasinId) (a line tag : Nat) (k : ReqKind) : State :=
  let r : CohReq := { agent := a, line := line, tag := tag, kind := k, sent := nowNs s }
  let s := setCoh s b.val { cohOf s b.val with reqs := (cohOf s b.val).reqs ++ [r] }
  homeArrive s b.val r

/-- The state of a line in an L2's ways. -/
def wayState (s : State) (b : BasinId) (a line : Nat) : LState :=
  match cFind (pcOf s (agentPier b a)).l2 l2Sets l2Ways line with
  | some i => (tget {} (pcOf s (agentPier b a)).l2 i).state
  | none => .i

/-- GETS (R212): an L2 that does not hold a line asks for it. -/
def execGets (basin : BasinId) (agent : Fin 4) (line : Nat) (tag : BitVec 6) (s : State) : Out :=
  .next (if mayRequest s basin agent.val line tag.toNat ∧ (l2Held s (agentPier basin agent.val) line).isNone then
    l2Request s basin agent.val line tag.toNat .gets else s)

/-- GETM (R212). -/
def execGetm (basin : BasinId) (agent : Fin 4) (line : Nat) (tag : BitVec 6) (s : State) : Out :=
  .next (if mayRequest s basin agent.val line tag.toNat ∧ (l2Held s (agentPier basin agent.val) line).isNone then
    l2Request s basin agent.val line tag.toNat .getm else s)

/-- UPGR (R212): ownership of a line held in S or O. -/
def execUpgr (basin : BasinId) (agent : Fin 4) (line : Nat) (tag : BitVec 6) (s : State) : Out :=
  .next (
    let st := wayState s basin agent.val line
    if mayRequest s basin agent.val line tag.toNat ∧ (st = .s ∨ st = .o) then l2Request s basin agent.val line tag.toNat .upgr else s)

/-- The directory without an agent that held a line in a state. -/
def dirWithout (d : Dir) (a : Nat) (st : LState) : Dir :=
  if st = .s then
    let left := d.sharers.filter (· != a)
    { d with sharers := left, state := if d.state = .ds ∧ left.isEmpty then .di else d.state }
  else { d with state := if d.sharers.isEmpty then .di else .ds }

/-- The directory lists an agent as holding a line in a state. -/
def dirLists (d : Dir) (a : Nat) (st : LState) : Bool :=
  match st with
  | .s => ((d.state == .ds || d.state == .dO) && d.sharers.contains a)
  | .o => d.state == .dO && d.owner == a
  | _ => d.state == .de && d.owner == a

/-- A Put reaches the home (R216, R217, R220). -/
def homePut (s : State) (b a line tag : Nat) (st : LState) (data : BitVec 512) (poison stale : Bool) : State :=
  let d := dirOf s b line
  if d.oweFwd.contains a then setDir s b line { d with heldPuts := d.heldPuts ++ [(a, tag)] }
  else if stale then sendMsg s b (.wbstale a line tag)
  else if !dirStable d ∧ d.owner = a then setDir s b line { d with heldPuts := d.heldPuts ++ [(a, tag)] }
  else if !(dirLists d a st) then checkstop s b 4 (islHome b)
  else
    let s := setDir s b line (dirWithout d a st)
    let s := if st = .m ∨ st = .o then l3Write s b line data poison else s
    if st = .s then s else sendMsg s b (.wback a line tag)

/-- An L2 evicts a line held in a state: from its ways into the eviction buffer, where its Put is sent (R210, R217). -/
def l2Put (s : State) (b : BasinId) (a line tag : Nat) (st : LState) : State :=
  let p := agentPier b a
  if !(cohRuns s b) then s
  else
    let s := if wayState s b a line = st ∧ (pcOf s p).l2En then
        (match cFind (pcOf s p).l2 l2Sets l2Ways line with
        | some i => l2Evict s p i
        | none => s)
      else s
    match (pcOf s p).evict.find? (fun e => e.line == line && decide (e.state = st) && e.tag.isNone) with
    | some e =>
      let s := setPc s p { pcOf s p with evict := mapIf (fun x => x.line == line && decide (x.state = st) && x.tag.isNone) (fun x => { x with tag := some tag }) (pcOf s p).evict }
      homePut s b.val a line tag st e.data e.poisoned e.stale
    | none => s

/-- PUTM (R217). -/
def execPutm (basin : BasinId) (agent : Fin 4) (line : Nat) (tag : BitVec 6) (s : State) : Out :=
  .next (l2Put s basin agent.val line tag.toNat .m)
/-- PUTO (R217). -/
def execPuto (basin : BasinId) (agent : Fin 4) (line : Nat) (tag : BitVec 6) (s : State) : Out :=
  .next (l2Put s basin agent.val line tag.toNat .o)
/-- PUTE (R217). -/
def execPute (basin : BasinId) (agent : Fin 4) (line : Nat) (tag : BitVec 6) (s : State) : Out :=
  .next (l2Put s basin agent.val line tag.toNat .e)
/-- PUTS (R217): a clean S line leaves, and the home drops the sharer. -/
def execPuts (basin : BasinId) (agent : Fin 4) (line : Nat) (tag : BitVec 6) (s : State) : Out :=
  .next (
    let p := agentPier basin agent.val
    if cohRuns s basin ∧ (pcOf s p).l2En ∧ wayState s basin agent.val line = .s ∧
        !((cohOf s basin.val).reqs.any (fun r => r.agent == agent.val && r.line == line)) then
      (match cFind (pcOf s p).l2 l2Sets l2Ways line with
      | some i => homePut (l2Evict s p i) basin.val agent.val line tag.toNat .s 0 false false
      | none => s)
    else s)

/-- An agent-4 request: sent, or sent again where it was NACKed (R212, R215). -/
def ioRequest (s : State) (b : Nat) (r : CohReq) : State :=
  match reqOf s b 4 r.line r.tag with
  | some x => if x.nacks = 0 ∨ (dirOf s b r.line).req = some x then s else homeArrive s b x
  | none => homeArrive (setCoh s b { cohOf s b with reqs := (cohOf s b).reqs ++ [r] }) b r

/-- IORD (R212). -/
def execIord (basin : BasinId) (line : Nat) (tag : BitVec 6) (s : State) : Out :=
  .next (if cohRuns s basin then ioRequest s basin.val { agent := 4, line := line, tag := tag.toNat, kind := .iord, sent := nowNs s } else s)

/-- IOWR (R212): the bytes lie within the line. -/
def execIowr (basin : BasinId) (line : Nat) (tag : BitVec 6) (off : Fin 64) (data : List Byte) (s : State) : Out :=
  .next (if cohRuns s basin ∧ off.val + data.length ≤ 64 then
    ioRequest s basin.val { agent := 4, line := line, tag := tag.toNat, kind := .iowr, sent := nowNs s, off := off.val, bytes := data } else s)

/-- The atomic functions by number (R148). -/
def amoFnOf (n : Nat) : AmoFn :=
  match n with
  | 0 => .add
  | 1 => .swap
  | 2 => .cas
  | 3 => .min
  | _ => .max

/-- AMO at the home: every copy is recalled, the operation is performed on the L3 copy, the old value is returned and the line is
left DI (R148, R214). A busy line NACKs it (R215). -/
def execAmo (basin : BasinId) (agent : Fin 5) (addr : Nat) (fn : Fin 5) (pair : Bool) (cmp operand : BitVec 48) (s : State) : Out :=
  let n := if pair then 6 else 3
  let line := addr / 64
  .next (
    if !(cohRuns s basin) ∨ !(oneChunk addr n) ∨ !(dirStable (dirOf s basin.val line)) then s
    else
      let s := recallAll s basin.val line
      let (d, poison) := cohLine s basin.val line
      let old := leNat ((List.range n).map (fun i => lineByte d (addr % 64 + i)))
      let new := amoNew (amoFnOf fn.val) n old (cmp.toNat % 2 ^ (8 * n)) (operand.toNat % 2 ^ (8 * n))
      let s := match new with
        | some v => l3Write s basin.val line (lineSetBytes d (addr % 64) (toLe n v)) poison
        | none => s
      let c := cohOf s basin.val
      setCoh s basin.val { c with amoOld := mset c.amoOld agent.val old })

/-- A message arrives for a tag with no outstanding request, or a stray acknowledgement: a protocol violation at the receiving
island (R220). -/
def strayAt (s : State) (b island : Nat) : State := checkstop s b 5 island

/-- DATA: fill data arrives with the granted state (R212). -/
def execData (basin : BasinId) (agent : Fin 4) (line : Nat) (tag : BitVec 6) (s : State) : Out :=
  let b := basin.val
  let a := agent.val
  let g := tag.toNat
  .next (
    if !(cohRuns s basin) then s
    else match takeMsg s b (fun m => match m with
        | .data x l t _ _ _ => x == a && l == line && t == g
        | _ => false) with
      | some (.data _ _ _ st d p, s) => l2Finish (modReq s b a line g (fun r => { r with got := some (st, d, p) })) b a line g
      | _ => if (reqOf s b a line g).isSome then s else strayAt s b (islPier (b * 4 + a)))

/-- FWDDATA: cache-to-cache data arrives (R212). -/
def execFwddata (basin : BasinId) (agent : Fin 4) (line : Nat) (tag : BitVec 6) (s : State) : Out :=
  let b := basin.val
  let a := agent.val
  let g := tag.toNat
  .next (
    if !(cohRuns s basin) then s
    else match takeMsg s b (fun m => match m with
        | .fwdData x l t _ _ _ => x == a && l == line && t == g
        | _ => false) with
      | some (.fwdData _ _ _ st d p, s) => l2Finish (modReq s b a line g (fun r => { r with got := some (st, d, p) })) b a line g
      | _ => if (reqOf s b a line g).isSome then s else strayAt s b (islPier (b * 4 + a)))

/-- GRANT (R212). -/
def execGrant (basin : BasinId) (agent : Fin 4) (line : Nat) (tag : BitVec 6) (s : State) : Out :=
  let b := basin.val
  let a := agent.val
  let g := tag.toNat
  .next (
    if !(cohRuns s basin) then s
    else match takeMsg s b (fun m => match m with
        | .grant x l t => x == a && l == line && t == g
        | _ => false) with
      | some (_, s) => l2Finish (modReq s b a line g (fun r => { r with granted := true })) b a line g
      | none => if (reqOf s b a line g).isSome then s else strayAt s b (islPier (b * 4 + a)))

/-- What an owner answers a forward with: its line, from its ways or its eviction buffer (R212, R217). -/
def fwdFrom (s : State) (p line : Nat) : Option Line := l2Held s p line

/-- FWDGETS: the owner supplies the line and keeps it, M becoming O and E becoming S; from the eviction buffer the copy passes to
the requester (R212, R217). -/
def execFwdgets (basin : BasinId) (agent : Fin 4) (line : Nat) (s : State) : Out :=
  let b := basin.val
  let a := agent.val
  let p := agentPier basin a
  .next (
    if !(cohRuns s basin) then s
    else match takeMsg s b (fun m => match m with
        | .fwdGetS o l _ _ => o == a && l == line
        | _ => false) with
      | some (.fwdGetS _ _ r t, s) =>
        (match fwdFrom s p line with
        | none => s
        | some l =>
          let dirty := decide (l.state = .m) || decide (l.state = .o)
          let inWays := (cFind (pcOf s p).l2 l2Sets l2Ways line).isSome && (pcOf s p).l2En
          let st : LState := if !inWays then (if dirty then .m else .i) else if dirty then .o else .s
          let s := l2SetState s p line (if dirty then .o else .s)
          if r = 4 then sendMsg s b (.fwdAck a line (if inWays then st else .i) (if dirty then some l.data else none) l.poisoned)
          else
            let s := sendMsg s b (.fwdData r line t (if !inWays && dirty then .o else .s) l.data l.poisoned)
            sendMsg s b (.fwdAck a line st none false))
      | _ => s)

/-- FWDGETM: the owner supplies the line and gives it up (R212, R217). -/
def execFwdgetm (basin : BasinId) (agent : Fin 4) (line : Nat) (s : State) : Out :=
  let b := basin.val
  let a := agent.val
  let p := agentPier basin a
  .next (
    if !(cohRuns s basin) then s
    else match takeMsg s b (fun m => match m with
        | .fwdGetM o l _ _ => o == a && l == line
        | _ => false) with
      | some (.fwdGetM _ _ r t, s) =>
        (match fwdFrom s p line with
        | none => s
        | some l =>
          let dirty := decide (l.state = .m) || decide (l.state = .o)
          let s := l2SetState s p line .i
          if r = 4 then sendMsg s b (.fwdAck a line .i (if dirty then some l.data else none) l.poisoned)
          else sendMsg (sendMsg s b (.fwdData r line t .m l.data l.poisoned)) b (.fwdAck a line .i none false))
      | _ => s)

/-- INV: a sharer removes its copy; a fill in progress of the line is doomed (R212, R217, R218). -/
def execInv (basin : BasinId) (agent : Fin 4) (line : Nat) (s : State) : Out :=
  let b := basin.val
  let a := agent.val
  .next (
    if !(cohRuns s basin) then s
    else match takeMsg s b (fun m => match m with
        | .inv x l => x == a && l == line
        | _ => false) with
      | some (_, s) =>
        let s := l2SetState s (agentPier basin a) line .i
        let c := cohOf s b
        let s := setCoh s b { c with reqs := mapIf (fun r => r.agent == a && r.line == line && decide (r.kind = .gets)) (fun r => { r with doomed := true }) c.reqs }
        sendMsg s b (.invAck a line)
      | none => s)

/-- NACK: the requester counts it, and sends again after 16 of its cycles, 10.67 ns (R215, R407). -/
def execNack (basin : BasinId) (agent : Fin 4) (line : Nat) (tag : BitVec 6) (s : State) : Out :=
  let b := basin.val
  let a := agent.val
  let g := tag.toNat
  .next (
    if !(cohRuns s basin) then s
    else match takeMsg s b (fun m => match m with
        | .nack x l t _ => x == a && l == line && t == g
        | _ => false) with
      | some (_, s) => modReq s b a line g (fun r => { r with nacks := r.nacks + 1, retryAt := some (nowNs s + 11) })
      | none => s)

/-- NACK_RETRY (R215). -/
def execNackRetry (basin : BasinId) (agent : Fin 4) (line : Nat) (tag : BitVec 6) (s : State) : Out :=
  let b := basin.val
  .next (
    match reqOf s b agent.val line tag.toNat with
    | none => s
    | some r =>
      match r.retryAt with
      | none => s
      | some t =>
        if nowNs s < t ∨ !(cohRuns s basin) then s
        else
          let r := { r with retryAt := none, sent := nowNs s }
          homeArrive (modReq s b agent.val line tag.toNat (fun _ => r)) b r)

/-- The answer to a Put arrives: the L2 frees its buffer entry (R217). -/
def putAnswered (s : State) (b : BasinId) (a line tag : Nat) : State :=
  let p := agentPier b a
  setPc s p { pcOf s p with evict := (pcOf s p).evict.filter (fun e => !(e.line == line && decide (e.tag = some tag))) }

/-- A Put with this tag waits for its answer. -/
def putWaits (s : State) (b : BasinId) (a line tag : Nat) : Bool :=
  (pcOf s (agentPier b a)).evict.any (fun e => e.line == line && decide (e.tag = some tag))

/-- WBACK (R217). -/
def execWback (basin : BasinId) (agent : Fin 4) (line : Nat) (tag : BitVec 6) (s : State) : Out :=
  .next (
    if !(cohRuns s basin) then s
    else match takeMsg s basin.val (fun m => match m with
        | .wback x l t => x == agent.val && l == line && t == tag.toNat
        | _ => false) with
      | some (_, s) => putAnswered s basin agent.val line tag.toNat
      | none => if putWaits s basin agent.val line tag.toNat then s else strayAt s basin.val (islPier (agentPier basin agent.val)))

/-- WBSTALE (R217). -/
def execWbstale (basin : BasinId) (agent : Fin 4) (line : Nat) (tag : BitVec 6) (s : State) : Out :=
  .next (
    if !(cohRuns s basin) then s
    else match takeMsg s basin.val (fun m => match m with
        | .wbstale x l t => x == agent.val && l == line && t == tag.toNat
        | _ => false) with
      | some (_, s) => putAnswered s basin agent.val line tag.toNat
      | none => if putWaits s basin agent.val line tag.toNat then s else strayAt s basin.val (islPier (agentPier basin agent.val)))

/-- FWDACK: the home learns the owner's new state; a recall's bytes go into the L3 first (R212, R220). -/
def execFwdack (basin : BasinId) (agent : Fin 4) (line : Nat) (s : State) : Out :=
  let b := basin.val
  let a := agent.val
  .next (
    if !(cohRuns s basin) then s
    else match takeMsg s b (fun m => match m with
        | .fwdAck x l _ _ _ => x == a && l == line
        | _ => false) with
      | some (.fwdAck _ _ st data poison, s) =>
        let s := match data with
          | some d => l3Write s b line d poison
          | none => s
        let d := dirOf s b line
        homeFinish (setDir s b line { d with oweFwd := d.oweFwd.filter (· != a), ownerSt := some st }) b line (some st) a
      | _ => if (dirOf s b line).oweFwd.contains a then s else strayAt s b (islHome b))

/-- INVACK (R212, R220). -/
def execInvack (basin : BasinId) (agent : Fin 4) (line : Nat) (s : State) : Out :=
  let b := basin.val
  let a := agent.val
  .next (
    if !(cohRuns s basin) then s
    else match takeMsg s b (fun m => match m with
        | .invAck x l => x == a && l == line
        | _ => false) with
      | some (_, s) =>
        let d := dirOf s b line
        homeFinish (setDir s b line { d with oweInv := d.oweInv.filter (· != a) }) b line d.ownerSt d.owner
      | none => if (dirOf s b line).oweInv.contains a then s else strayAt s b (islHome b))

/-- COHERENCE_TIMEOUT: a forward or invalidation (row 1 of R220), or a request of a pier's L2 (row 2), has had no answer for
64 µs. -/
def execCoherenceTimeout (basin : BasinId) (trigger : Fin 2) (pier : Fin 4) (s : State) : Out :=
  let b := basin.val
  .next (
    if !(cohRuns s basin) then s
    else if trigger.val = 0 then
      (if (cohOf s b).dir.any (fun e => !(dirStable e.2) && (!e.2.oweFwd.isEmpty || !e.2.oweInv.isEmpty) && decide (e.2.since + 64000 ≤ nowNs s)) then
        checkstop s b 1 (islHome b) else s)
    else if (cohOf s b).reqs.any (fun r => r.agent == pier.val && r.retryAt.isNone && decide (r.sent + 64000 ≤ nowNs s)) then
      checkstop s b 2 (islPier (b * 4 + pier.val))
    else s)

/-! Cache control registers (R201 to R204). -/

/-- The berth runtime writes a register of a pier shared island. -/
def pierWrite (s : State) (p : PierId) : Bool := running s && basinUp s p.basin.val && (islandOf s (islPier p.val)).state == 3

/-- The home drops an agent from the tracking of a line. -/
def dirDrop (s : State) (b a line : Nat) (st : LState) : State :=
  let d := dirOf s b line
  if dirLists d a st then setDir s b line (dirWithout d a st) else s

/-- Write back the line of a way: its dirty bytes go to the L3; M becomes E, O becomes S. -/
def wayClean (s : State) (p i : Nat) : State :=
  let b := pierBasin p
  let l := tget {} (pcOf s p).l2 i
  match l.state with
  | .m =>
    let s := l3Write s b l.line l.data l.poisoned
    setPc s p { pcOf s p with l2 := tset {} (pcOf s p).l2 i { l with state := .e } }
  | .o =>
    let s := l3Write s b l.line l.data l.poisoned
    let d := dirOf s b l.line
    let s := if dirLists d (pierAgent p) .o then setDir s b l.line { d with state := .ds, sharers := pierAgent p :: d.sharers } else s
    setPc s p { pcOf s p with l2 := tset {} (pcOf s p).l2 i { l with state := .s } }
  | _ => s

/-- Clean and invalidate a way with its L1 copies, and release it from the home's tracking. -/
def wayEmpty (s : State) (p i : Nat) : State :=
  let l := tget {} (pcOf s p).l2 i
  if l.state = .i then s
  else
    let s := wayClean s p i
    let st := (tget {} (pcOf s p).l2 i).state
    let s := dirDrop s (pierBasin p) (pierAgent p) l.line (if st = .e then .m else st)
    let pc := l1Drop (pcOf s p) l.line
    setPc s p { pc with l2 := tset {} pc.l2 i {} }

/-- L2_CLEAN (R201): every M and O line is written back. -/
def execL2Clean (pier : PierId) (s : State) : Out :=
  .next (if pierWrite s pier then (pcOf s pier.val).l2.foldl (fun s e => wayClean s pier.val e.1) s else s)

/-- L2_INV: every line is invalidated without write-back; ignored while L2_EN is 1 (R201, R203). -/
def execL2Inv (pier : PierId) (s : State) : Out :=
  .next (
    let pc := pcOf s pier.val
    if pierWrite s pier ∧ !pc.l2En then setPc s pier.val { pc with l2 := [] } else s)

/-- L2_EN: cleared, every M and O line is written back and every line released from the home's tracking, and the lines stay as
they are; set, nothing is invalidated (R202, R203). -/
def execL2En (pier : PierId) (on : Bool) (s : State) : Out :=
  .next (
    let p := pier.val
    let pc := pcOf s p
    if !(pierWrite s pier) ∨ pc.l2En = on then s
    else if on then setPc s p { pc with l2En := true }
    else
      let s := pc.l2.foldl (fun s e =>
        let l := e.2
        let s := if l.state = .m ∨ l.state = .o then l3Write s (pierBasin p) l.line l.data l.poisoned else s
        dirDrop s (pierBasin p) (pierAgent p) l.line (if l.state = .e then .m else l.state)) s
      setPc s p { pcOf s p with l2En := false })

/-- LOCK_WAYS: 9 to 15 are stored as 8; ways that become locked are cleaned and emptied, lines of ways that become unlocked stay
at age 1 (R201, R204). -/
def execLockWays (pier : PierId) (n : BitVec 4) (s : State) : Out :=
  .next (
    let p := pier.val
    let pc := pcOf s p
    let k := min 8 n.toNat
    if !(pierWrite s pier) then s
    else
      let newly (i : Nat) : Bool := decide (16 - k ≤ i % 16) && !(lockedWay pc i)
      let s := pc.l2.foldl (fun s e => if newly e.1 then wayEmpty s p e.1 else s) s
      let pc := pcOf s p
      let freed (i : Nat) : Bool := lockedWay pc i && decide (i % 16 < 16 - k)
      setPc s p { pc with lockWays := k, l2 := pc.l2.map (fun (e : Nat × Line) => if freed e.1 then (e.1, { e.2 with age := 1 }) else e) })

/-- PIER_L1D_EN: an L1D's dirty lines are already in its L2 copy (log entry 9); its lines stay in place (R201, R202). -/
def execPierL1dEn (pier : PierId) (v : BitVec 18) (s : State) : Out :=
  .next (if pierWrite s pier then setPc s pier.val { pcOf s pier.val with l1dEn := v } else s)

/-- PIER_L1I_EN (R201, R202). -/
def execPierL1iEn (pier : PierId) (v : BitVec 18) (s : State) : Out :=
  .next (if pierWrite s pier then setPc s pier.val { pcOf s pier.val with l1iEn := v } else s)

/-- PIER_L1_INV: ignored for a pair whose L1D or L1I is enabled (R201, R203). -/
def execPierL1Inv (pier : PierId) (v : BitVec 18) (s : State) : Out :=
  .next (
    let pc := pcOf s pier.val
    let gone (k : Nat) : Bool := v.getLsbD (k / 2) && !(pc.l1dEn.getLsbD (k / 2)) && !(pc.l1iEn.getLsbD (k / 2))
    if pierWrite s pier then
      setPc s pier.val { pc with l1d := pc.l1d.filter (fun e => !(gone e.1)), l1i := pc.l1i.filter (fun e => !(gone e.1)) }
    else s)

/-- PIER_EVQ_HEAD: a head in the circular range from HEAD to TAIL is taken (R363). -/
def execPierEvqHead (pier : PierId) (v : BitVec 8) (s : State) : Out :=
  .next (
    let p := pierOf s pier.val
    if pierWrite s pier ∧ (v.toNat + 256 - p.evqHead) % 256 ≤ (p.evqTail + 256 - p.evqHead) % 256 then
      setPier s pier.val { p with evqHead := v.toNat }
    else s)

end Sys2Proof.Machine
end

