-- ==== Sys2Proof/Machine/BerthOps.lean ====
section
/-! DEFINITION. Lockstep mismatches, self-tests, hand-overs, splits and joins, basin recovery, Fairway retraining and patrol
scrub (04, 13). -/

namespace Sys2Proof.Machine

/-- Berth positions. -/
def allPositions : List (Fin 16) := List.finRange 16

/-- The position that a pair of a pier holds. -/
def posOfPair (s : State) (pr : PairId) : Option (Fin 16) := allPositions.find? (fun k => decide ((posAt s pr.pier.val k).pair = some pr.inPier))

/-- The thread of a position. -/
def threadAt (p : PierId) (k : Fin 16) (n : Fin 4) : ThreadId := ⟨p.val * 64 + k.val * 4 + n.val, by omega⟩

/-- The four threads of a position. -/
def threadsAt (p : PierId) (k : Fin 16) : List ThreadId := (List.finRange 4).map (threadAt p k)

/-- PLACE of a pair (R79). -/
def placeOfPair (pr : PairId) : Nat := placeWord { basin := pr.val / 72, pier := pr.val / 18 % 4, pair := pr.inPier }

/-- A Logbook entry of a pair. -/
def logPair (s : State) (code cls : Nat) (pr : PairId) (detail : List Byte) : State :=
  logAdd s code cls (islPair pr.val) (placeOfPair pr) 0xFFFF 0 detail

/-- The standing of a pair. -/
def pairAt (s : State) (pier n : Nat) : Pair18 := if h : n < 18 then (pierOf s pier).pairs.get ⟨n, h⟩ else {}
/-- Change the standing of a pair. -/
def setPair (s : State) (pier n : Nat) (v : Pair18) : State :=
  if h : n < 18 then let p := pierOf s pier; setPier s pier { p with pairs := p.pairs.set n v h } else s

/-- The pairs of a pier. -/
def pairId (p : PierId) (n : Fin 18) : PairId := ⟨p.val * 18 + n.val, by omega⟩

/-- A thread restores its checkpoint and its gated stores are discarded (R337). A thread parked at its checkpoint stays so. -/
def restoreThread (s : State) (th : ThreadId) : State :=
  modThr s th (fun t =>
    if t.run = .free ∨ t.run = .noPair ∨ t.arch = t.ck then { t with gated := [], sinceCk := 0 }
    else { t with arch := t.ck, gated := [], sinceCk := 0, wait := none, moorAt := none,
                  run := match t.run with
                    | .waitcp _ _ => .active
                    | .hold => .active
                    | .moor => .active
                    | r => r })

/-- Restore the threads of a berth; those that hold a consignment have still to pass a retry point (R337, R338). -/
def restoreBerth (s : State) (p : PierId) (k : Fin 16) (which : ThreadId → Bool) : State :=
  let ths := (threadsAt p k).filter which
  let s := ths.foldl restoreThread s
  let wait := (ths.filter (fun th => (thr s th).seq != 0)).map ThreadId.slot
  let v := posAt s p.val k
  setPos s p.val k { v with notPassed := wait, event := if wait.isEmpty then none else v.event }

/-- The threads a detection concerns: all of a berth in lockstep, those of one core in a split berth (R339). -/
def coreThreads (v : Position) (thread : Nat) (th : ThreadId) : Bool := !v.split || 4 ≤ thread || th.slot / 2 == thread / 2

/-- Entries that an injected error causes later carry INJECTED too (R354). -/
def asInjected (b : Bool) (f : State → State) (s : State) : State :=
  let t := f { s with dev := { s.dev with injecting := s.dev.injecting || b } }
  { t with dev := { t.dev with injecting := s.dev.injecting } }

/-- A detection on a pair: two restores within an event, then a self-test (R334, R337 to R339). A split berth has no
comparator. -/
def mismatchAt (s : State) (pair : PairId) (thread kind lane : Nat) : State :=
  match posOfPair s pair with
  | none => s
  | some k =>
    let p := pair.pier
    let v := posAt s p.val k
    if !(running s) ∨ !(basinUp s p.basin.val) ∨ v.selfTest ∨ (v.split ∧ kind = 0) then s
    else
      let tries := v.event.getD 0
      let v := { v with injected := if v.event.isSome then v.injected else s.dev.injecting }
      if tries < 2 then
        asInjected v.injected (fun s =>
        let s := logPair s 0x0101 0 pair (toLe 1 thread ++ toLe 1 kind ++ toLe 1 (tries + 1) ++ toLe 2 lane)
        restoreBerth (setPos s p.val k { v with event := some (tries + 1) }) p k (coreThreads v thread)) s
      else setPos s p.val k { v with selfTest := true }

/-- MISMATCH_DETECTED (R334, R337 to R339). -/
def execMismatchDetected (pair : PairId) (thread : BitVec 8) (kind : Fin 3) (lane : BitVec 16) (s : State) : Out :=
  .next (mismatchAt s pair thread.toNat kind.val lane.toNat)

/-- A pair is retired (R340, R342): its island is OFF and out of service until power loss. -/
def retirePair (s : State) (pr : PairId) (reason : Nat) : State :=
  let s := setPair s pr.pier.val pr.inPier { pairAt s pr.pier.val pr.inPier with use := .retired }
  let i := islandOf s (islPair pr.val)
  let s := setIsland s (islPair pr.val) { i with state := 0, out := true, currentMhz := 0 }
  logPair s 0x0105 1 pr (toLe 1 pr.inPier ++ toLe 1 reason)

/-- The lowest-numbered spare of a pier (R340). -/
def lowestSpare (s : State) (p : PierId) : Option PairId :=
  ((List.finRange 18).find? (fun n => decide ((pairAt s p.val n.val).use = .spare))).map (pairId p)

/-- The L1s of a pair are empty (R200). -/
def clearL1 (s : State) (p : PierId) (n : Nat) : State :=
  let pc := pcOf s p.val
  setPc s p.val { pc with l1d := pc.l1d.filter (fun e => e.1 / 2 != n), l1i := pc.l1i.filter (fun e => e.1 / 2 != n) }

/-- A thread of a lost berth: its consignment restarts on any free thread of its basin, at the head of the ready list, unless its
outcome is decided; the thread is parked with no pair (R97, R341). -/
def loseThread (s : State) (th : ThreadId) : State :=
  let t := thr s th
  let s := if t.ended = .no ∧ t.seq ≠ 0 then
      modCons (dropCset s th) t.seq (fun c => { c with phase := .ready, headOfList := true, restarts := c.restarts + 1 })
    else s
  setThr (cancelWork s th) th { run := .noPair, stores := t.stores, nextStore := t.nextStore, lateStores := t.lateStores, failures := if t.ended = .no then t.failures else [] }

/-- A split or join, or a retirement, that waited for a berth completes (R122, R342, R343). -/
def endBerthOps (s : State) (pr : PairId) : State :=
  let s := mbFinishOp s 0x0601 (islPair pr.val) 0 0 []
  let s := mbFinishOp s 0x0602 (islPair pr.val) 0 0 []
  mbFinishOp s 0x0603 (islPair pr.val) 0 0 []

/-- A berth that cannot move (R341): BERTH_LOST is logged as contained, and the pier runs with one berth fewer. -/
def loseBerth (s : State) (p : PierId) (k : Fin 16) (pr : PairId) (reason : Nat) : State :=
  let ths := threadsAt p k
  let n := (ths.filter (fun th => (thr s th).seq != 0 && decide ((thr s th).ended = .no))).length
  let s := ths.foldl loseThread s
  let s := setPos s p.val k {}
  let s := logPair s 0x0106 2 pr (toLe 1 k.val ++ toLe 1 n)
  endBerthOps (retirePair (clearL1 s p pr.inPier) pr reason) pr

/-- A berth's pair is to be retired: a hand-over is requested, or the berth is lost where the pier has no spare (R338, R341). -/
def wantHandover (s : State) (p : PierId) (k : Fin 16) (pr : PairId) (reason : Nat) : State :=
  match lowestSpare s p with
  | some _ => setPos s p.val k { posAt s p.val k with handover := some (reason, nowNs s), selfTest := true }
  | none => loseBerth s p k pr reason

/-- SELFTEST_DONE (R338). -/
def execSelftestDone (pair : PairId) (coreMask partMask : BitVec 8) (s : State) : Out :=
  .next (
    match posOfPair s pair with
    | none => s
    | some k =>
      let p := pair.pier
      let v := posAt s p.val k
      if !v.selfTest ∨ v.handover.isSome ∨ !(running s) then s
      else asInjected v.injected (fun s =>
        let s := clearL1 s p pair.inPier
        let q := pairAt s p.val pair.inPier
        let recent := q.passes.filter (fun t => nowNs s < t + 3600000000000)
        if coreMask ≠ 0 then
          wantHandover (logPair s 0x0103 1 pair (toLe 1 coreMask.toNat ++ toLe 1 partMask.toNat)) p k pair 0
        else if recent.length = 2 then wantHandover s p k pair 1
        else
          let s := setPair s p.val pair.inPier { q with passes := recent ++ [nowNs s] }
          let s := logPair s 0x0102 0 pair (toLe 1 (recent.length + 1))
          restoreBerth (setPos s p.val k { v with selfTest := false }) p k (fun _ => true)) s)

/-- The position of a pier whose hand-over was requested first (R340). -/
def nextHandover (s : State) (p : PierId) : Option (Fin 16) :=
  allPositions.foldl (fun acc k => match (posAt s p.val k).handover with
    | none => acc
    | some (_, t) => match acc with
      | some j => (match (posAt s p.val j).handover with
        | some (_, u) => if t < u then some k else acc
        | none => some k)
      | none => some k) none

/-- The threads of a berth resume on the new pair, and records written from now on name it (R124, R340). -/
def moveBerth (s : State) (p : PierId) (k : Fin 16) (old new : PairId) (reason since : Nat) : State :=
  let v := posAt s p.val k
  let s := clearL1 (clearL1 s p old.inPier) p new.inPier
  let s := setPair s p.val new.inPier { pairAt s p.val new.inPier with use := .busy }
  let s := setPos s p.val k { v with pair := some new.inPier, handover := none, selfTest := false, event := none, notPassed := [], retiring := none,
                                     reconf := none }
  let s := (threadsAt p k).foldl restoreThread s
  let s := (threadsAt p k).foldl (fun s th => if (thr s th).seq = 0 then s else modCons s (thr s th).seq (fun c => { c with place := { c.place with pair := new.inPier } })) s
  let i := islandOf s (islPair new.val)
  let s := setIsland s (islPair new.val) { i with state := 3, currentMhz := i.targetMhz, test := 1 }
  let s := logPair s 0x0104 1 old (toLe 1 old.inPier ++ toLe 1 new.inPier ++ toLe 4 (nowNs s - since))
  endBerthOps (retirePair s old reason) old

/-- HANDOVER (R339 to R341): the lowest spare is woken and tested; one that fails is retired, and the next is tried. -/
def execHandover (pier : PierId) (testPasses : Bool) (lane lanes : BitVec 16) (s : State) : Out :=
  .next (
    if !(running s) ∨ !(basinUp s pier.basin.val) then s
    else match nextHandover s pier with
      | none => s
      | some k =>
        let v := posAt s pier.val k
        match v.handover, v.pair, lowestSpare s pier with
        | some (reason, t), some n, some sp =>
          if h : n < 18 then
            let old := pairId pier ⟨n, h⟩
            asInjected v.injected (fun s =>
            if testPasses then moveBerth s pier k old sp reason t
            else
              let s := logPair s 0x0107 1 sp (toLe 1 sp.inPier ++ toLe 2 lane.toNat ++ toLe 1 2 ++ toLe 2 lanes.toNat)
              let s := retirePair s sp 4
              if (lowestSpare s pier).isNone then loseBerth s pier k old reason else s) s
          else s
        | some (reason, _), some n, none => if h : n < 18 then asInjected v.injected (fun s => loseBerth s pier k (pairId pier ⟨n, h⟩) reason) s else s
        | _, _, _ => s)

/-- BERTH_RECONFIGURE: a drained berth splits, joins after its comparator test, or loses its pair to BERTH_RETIRE (R122, R200,
R342, R343). -/
def execBerthReconfigure (pair : PairId) (testPasses : Bool) (lane lanes : BitVec 16) (s : State) : Out :=
  .next (
    match posOfPair s pair with
    | none => s
    | some k =>
      let p := pair.pier
      let v := posAt s p.val k
      let drained := (threadsAt p k).all (fun th => decide ((thr s th).run = .free))
      if !(running s) ∨ !(basinUp s p.basin.val) ∨ !drained ∨ v.handover.isSome ∨ v.selfTest then s
      else match v.retiring with
        | some _ =>
          let s := (threadsAt p k).foldl (fun s th => modThr s th (fun t => { t with run := .noPair })) s
          endBerthOps (retirePair (clearL1 (setPos s p.val k {}) p pair.inPier) pair 2) pair
        | none =>
          match v.reconf with
          | none => s
          | some (true, _) =>
            let s := setPos (clearL1 s p pair.inPier) p.val k { v with split := true, reconf := none }
            endBerthOps (logPair s 0x0109 0 pair (toLe 1 pair.inPier)) pair
          | some (false, _) =>
            let s := clearL1 s p pair.inPier
            if testPasses then
              endBerthOps (logPair (setPos s p.val k { v with split := false, reconf := none }) 0x010A 0 pair (toLe 1 pair.inPier)) pair
            else
              let s := logPair s 0x0107 1 pair (toLe 1 pair.inPier ++ toLe 2 lane.toNat ++ toLe 1 1 ++ toLe 2 lanes.toNat)
              wantHandover (setPos s p.val k { v with split := false }) p k pair 3)

/-- DAILY_COMPARATOR_TEST: a spare in SLACK, once every 24 hours; one with a lane that fails is retired (R344). -/
def execDailyComparatorTest (pair : PairId) (lane lanes : BitVec 16) (s : State) : Out :=
  .next (
    let p := pair.pier
    let q := pairAt s p.val pair.inPier
    if !(running s) ∨ q.use ≠ .spare ∨ nowNs s < q.tested + 86400000000000 then s
    else
      let s := setPair s p.val pair.inPier { q with tested := nowNs s }
      if lanes = 0 then setIsland s (islPair pair.val) { islandOf s (islPair pair.val) with test := 1 }
      else retirePair (logPair s 0x0107 1 pair (toLe 1 pair.inPier ++ toLe 2 lane.toNat ++ toLe 1 3 ++ toLe 2 lanes.toNat)) pair 5)

/-! Basin recovery (R347 to R350). -/

/-- Partitions a basin homes. -/
def homedBy (s : State) (b : Nat) : List Nat := (List.range 4096).filter (fun p => decide ((partOf s p).home = some b))

/-- Stores held for a checkstopped basin are sent to the adopter (R188). -/
def resendStores (s : State) (b : Nat) : State :=
  (List.finRange 1024).foldl (fun s th =>
    let mine (o : OStore) : Bool := (match o.kind with
      | .otherBasin x => x.val == b
      | _ => false)
    let held := ((thr s th).stores.filter mine).flatMap (·.waiting)
    if held.isEmpty then s
    else
      let s := held.foldl (fun s g => hbmStore s g) s
      modThr s th (fun t => { t with stores := mapIf mine (fun o => { o with waiting := [] }) t.stores })) s

/-- The basin's ledgered ranges have a mirror copy (R352). -/
def rangesMirrored (s : State) (b : Nat) : Bool := bitOf s.cfg.mirrorMask b

/-- An adopter homes every partition of a basin: in place, or from its mirror copy where the stack cannot be read (R348). -/
def adoptBy (s : State) (b a : Nat) : State :=
  let moved := homedBy s b
  let promote := !(basinOf s b).hbmReadable
  let s := moved.foldl (fun s p => let v := partOf s p; setPart s p { v with home := some a, stranded := false, stack := if promote then a else v.stack }) s
  let n := s.logNext
  let s := logIsland s 0x0302 1 (islHome b) (toLe 1 b ++ toLe 1 a ++ toLe 2 moved.length ++ toLe 4 ((nowNs s - (basinOf s b).stoppedAt) / 1000))
  let s := setBasin s b { basinOf s b with adopted := true, adopter := none }
  resendStores (arrive s (0x908 + b) (n % 2 ^ 24) false) b

/-- ADOPTION_COMPLETE: under policy ADOPT the mirror of a checkstopped basin homes its partitions (R347 to R349); stores and
accesses held for it go on (R188, R191), and its REPLAYING consignments may be decided. -/
def execAdoptionComplete (basin : BasinId) (s : State) : Out :=
  let b := basin.val
  .next (
    let v := basinOf s b
    if !(running s) ∨ !v.checkstopped ∨ v.adopted ∨ v.policyReset ∨ (!v.hbmReadable ∧ !(rangesMirrored s b)) then s
    else match mirrorOf s b with
      | some a => asInjected v.injected (fun s => adoptBy s b a) s
      | none => s)

/-- BASIN_RESET_DONE: a basin that passes returns to service, homing nothing after an adoption and its own partitions under
RESET; one that fails stays out, and RESET falls back to ADOPT (R347). -/
def execBasinResetDone (basin : BasinId) (passed : Bool) (s : State) : Out :=
  let b := basin.val
  .next (
    let v := basinOf s b
    if !(running s) ∨ !v.checkstopped ∨ (!v.adopted ∧ !v.policyReset) then s
    else
      let s := asInjected v.injected (fun s => logIsland s 0x0303 1 (islHome b) (toLe 1 b ++ toLe 1 (bit (!passed)))) s
      let isl := (List.range 77).map (fun n => b * 128 + n)
      let s := isl.foldl (fun s n => setIsland s n { islandOf s n with resets := satInc (islandOf s n).resets 65535, test := if passed then 1 else 2 }) s
      let s := (List.range 4).foldl (fun s a =>
        let p := pierOf s (b * 4 + a)
        setPc (setPier s (b * 4 + a) { p with sealGen := p.sealGen + 1, evqBase := 0, evqHead := 0, evqTail := 0, evqPhase := true, oldFormat := none }) (b * 4 + a) {}) s
      if passed then setBasin s b { v with checkstopped := false, adopted := false, adopter := none, holds := [], dispatches := 0 }
      else if v.policyReset then setBasin s b { v with policyReset := false }
      else setBasin s b { v with inService := false })

/-- Strand the partitions of a basin (R77, R349). -/
def strand (s : State) (b : Nat) : State :=
  let parts := homedBy s b
  let n := s.logNext
  let s := parts.foldl (fun s p => setPart s p { partOf s p with stranded := true }) s
  let s := logIsland s 0x0304 2 (islHome b) (toLe 1 b ++ toLe 2 parts.length)
  arrive s (0x90C + b) (n % 2 ^ 24) false

/-- FAIRWAY_RETRAIN: a segment whose failure made its basin's HBM unreachable is retrained; if that fails, ranges not mirrored are
stranded (R349). -/
def execFairwayRetrain (segment : BasinId) (up : Bool) (s : State) : Out :=
  let b := segment.val
  .next (
    let v := basinOf s b
    if !(running s) ∨ !v.checkstopped ∨ v.hbmReadable then s
    else
      let s := logIsland s 0x0707 2 (islFairway b) (toLe 1 b ++ toLe 1 (bit (!up)))
      if up then
        let i := islandOf s (islFairway b)
        setBasin (setIsland s (islFairway b) { i with reset := false, state := 3, credits := true }) b { v with hbmReadable := true }
      else
        let s := setIsland s (islFairway b) { islandOf s (islFairway b) with out := true, state := 0 }
        if rangesMirrored s b ∨ (homedBy s b).all (fun p => (partOf s p).stranded) then s else strand s b)

/-- PATROL_SCRUB: a stack has been read and corrected, once every SCRUB_HOURS (R351). -/
def execPatrolScrub (stack : BasinId) (corrected : BitVec 32) (s : State) : Out :=
  let b := stack.val
  .next (
    let v := basinOf s b
    if !(running s) ∨ !v.hbmReadable ∨ nowNs s < v.scrubbed + s.policy.scrubHours * 3600000000000 then s
    else logIsland (setBasin s b { v with scrubbed := nowNs s }) 0x0406 0 (islHbm b) (toLe 1 b ++ toLe 4 corrected.toNat))

end Sys2Proof.Machine
end

