-- ==== Sys2Proof/Machine/Inflate.lean ====
section
/-! DEFINITION. Decoding of RFC 1951 streams with zlib and gzip framing (R331). -/

namespace Sys2Proof.Machine

/-- Bit i of a byte string, least significant bit of each byte first. -/
def bitAt (bs : List Byte) (i : Nat) : Option Nat := (bs[i / 8]?).map (fun b => bit (b.getLsbD (i % 8)))

/-- n bits from a position, the first the least significant; none past the end. -/
def readBits (bs : List Byte) : Nat → Nat → Option Nat
  | _, 0 => some 0
  | pos, n + 1 => match bitAt bs pos, readBits bs (pos + 1) n with
    | some b, some r => some (b + 2 * r)
    | _, _ => none

/-- Symbols of a canonical code of given lengths, by length and then by symbol. -/
def canonSyms (lens : List Nat) : List Nat :=
  (List.range 15).flatMap (fun l => (lens.zipIdx.filter (fun e => e.1 == l + 1)).map (·.2))

/-- Codes of a length. -/
def codeCount (lens : List Nat) (l : Nat) : Nat := (lens.filter (· == l)).length

/-- What a set of code lengths leaves unused, over 2^15; none where it is over-subscribed. -/
def codeLeft (lens : List Nat) : Option Nat :=
  let used := lens.foldl (fun n l => if l = 0 then n else n + 2 ^ (15 - l)) 0
  if 2 ^ 15 < used then none else some (2 ^ 15 - used)

/-- A set of lengths is a valid code: complete, or, where `single` allows it, of at most one code. -/
def codeOk (lens : List Nat) (single : Bool) : Bool :=
  match codeLeft lens with
  | none => false
  | some 0 => true
  | some _ => single && (lens.filter (· != 0)).length ≤ 1

/-- Decode one symbol: the symbol and the next position. -/
def decodeSym (lens syms : List Nat) (bs : List Byte) : Nat → Nat → Nat → Nat → Nat → Option (Nat × Nat)
  | 0, _, _, _, _ => none
  | fuel + 1, pos, code, first, index =>
    match bitAt bs pos with
    | none => none
    | some b =>
      let code := code + b
      let count := codeCount lens (15 - fuel)
      if code < first + count then (syms[index + (code - first)]?).map (fun x => (x, pos + 1))
      else decodeSym lens syms bs fuel (pos + 1) (code * 2) ((first + count) * 2) (index + count)

/-- Decode one symbol of a code from a position. -/
def sym (lens : List Nat) (bs : List Byte) (pos : Nat) : Option (Nat × Nat) := decodeSym lens (canonSyms lens) bs 15 pos 0 0 0

/-- Base and extra bits of length codes 257 to 285, and of distance codes. -/
def lenBase : List (Nat × Nat) :=
  [(3, 0), (4, 0), (5, 0), (6, 0), (7, 0), (8, 0), (9, 0), (10, 0), (11, 1), (13, 1), (15, 1), (17, 1), (19, 2), (23, 2), (27, 2), (31, 2),
   (35, 3), (43, 3), (51, 3), (59, 3), (67, 4), (83, 4), (99, 4), (115, 4), (131, 5), (163, 5), (195, 5), (227, 5), (258, 0)]
def distBase : List (Nat × Nat) :=
  [(1, 0), (2, 0), (3, 0), (4, 0), (5, 1), (7, 1), (9, 2), (13, 2), (17, 3), (25, 3), (33, 4), (49, 4), (65, 5), (97, 5), (129, 6), (193, 6),
   (257, 7), (385, 7), (513, 8), (769, 8), (1025, 9), (1537, 9), (2049, 10), (3073, 10), (4097, 11), (6145, 11), (8193, 12), (12289, 12),
   (16385, 13), (24577, 13)]

/-- Copy n bytes from a distance back. -/
def copyBack (out : List Byte) (dist : Nat) : Nat → List Byte
  | 0 => out
  | n + 1 => copyBack (out ++ [(out[out.length - dist]?).getD 0]) dist n

/-- Decode the symbols of a block to its end: the output and the next position; none where the stream is corrupt. -/
def inflateCodes (lit dist : List Nat) (bs : List Byte) : Nat → Nat → List Byte → Option (Nat × List Byte)
  | 0, _, _ => none
  | fuel + 1, pos, out =>
    match sym lit bs pos with
    | none => none
    | some (x, pos) =>
      if x < 256 then inflateCodes lit dist bs fuel pos (out ++ [BitVec.ofNat 8 x])
      else if x = 256 then some (pos, out)
      else match lenBase[x - 257]? with
        | none => none
        | some (lb, le) =>
          match readBits bs pos le with
          | none => none
          | some ex =>
            match sym dist bs (pos + le) with
            | none => none
            | some (dx, pos) =>
              match distBase[dx]? with
              | none => none
              | some (db, de) =>
                match readBits bs pos de with
                | none => none
                | some dex =>
                  if out.length < db + dex then none
                  else inflateCodes lit dist bs fuel (pos + de) (copyBack out (db + dex) (lb + ex))

/-- The fixed codes of RFC 1951. -/
def fixedLit : List Nat := List.replicate 144 8 ++ List.replicate 112 9 ++ List.replicate 24 7 ++ List.replicate 8 8
def fixedDist : List Nat := List.replicate 30 5

/-- Order of the code length code. -/
def clOrder : List Nat := [16, 17, 18, 0, 8, 7, 9, 6, 10, 5, 11, 4, 12, 3, 13, 2, 14, 1, 15]

/-- Read the code lengths of a dynamic block. -/
def readLens (cl : List Nat) (bs : List Byte) (n : Nat) : Nat → Nat → List Nat → Option (Nat × List Nat)
  | 0, _, _ => none
  | fuel + 1, pos, acc =>
    if acc.length = n then some (pos, acc)
    else match sym cl bs pos with
      | none => none
      | some (x, pos) =>
        if x < 16 then readLens cl bs n fuel pos (acc ++ [x])
        else
          let (bits, base, v) := if x = 16 then (2, 3, (acc.getLast?.getD 0)) else if x = 17 then (3, 3, 0) else (7, 11, 0)
          match readBits bs pos bits with
          | none => none
          | some r =>
            if (x = 16 ∧ acc.isEmpty) ∨ n < acc.length + base + r then none
            else readLens cl bs n fuel (pos + bits) (acc ++ List.replicate (base + r) v)

/-- The codes of a dynamic block: literals, distances and the next position. -/
def dynCodes (bs : List Byte) (pos : Nat) : Option (List Nat × List Nat × Nat) :=
  match readBits bs pos 5, readBits bs (pos + 5) 5, readBits bs (pos + 10) 4 with
  | some hlit, some hdist, some hclen =>
    let pos := pos + 14
    let raw := (List.range (hclen + 4)).map (fun i => readBits bs (pos + 3 * i) 3)
    if raw.any (·.isNone) ∨ 29 < hlit ∨ 29 < hdist then none
    else
      let cl := (List.range 19).map (fun c => match clOrder.findIdx? (· == c) with
        | some i => ((raw[i]?).getD none).getD 0
        | none => 0)
      if !(codeOk cl false) then none
      else match readLens cl bs (hlit + 257 + (hdist + 1)) 400 (pos + 3 * (hclen + 4)) [] with
        | none => none
        | some (pos, lens) =>
          let lit := lens.take (hlit + 257)
          let dist := lens.drop (hlit + 257)
          if ((lit[256]?).getD 0) = 0 ∨ !(codeOk lit true) ∨ !(codeOk dist true) then none else some (lit, dist, pos)
  | _, _, _ => none

/-- One block from a position: BFINAL, the next position and the output so far. -/
def inflateBlock (bs : List Byte) (pos : Nat) (out : List Byte) : Option (Bool × Nat × List Byte) :=
  match readBits bs pos 1, readBits bs (pos + 1) 2 with
  | some f, some ty =>
    let p := pos + 3
    match ty with
    | 0 =>
      let a := (p + 7) / 8
      let len := fieldLe bs a 2
      if bs.length < a + 4 ∨ fieldLe bs (a + 2) 2 ≠ 65535 - len ∨ bs.length < a + 4 + len then none
      else some (f == 1, (a + 4 + len) * 8, out ++ (bs.drop (a + 4)).take len)
    | 1 => (inflateCodes fixedLit fixedDist bs (8 * bs.length + 1) p out).map (fun r => (f == 1, r.1, r.2))
    | 2 => match dynCodes bs p with
      | none => none
      | some (lit, dist, p) => (inflateCodes lit dist bs (8 * bs.length + 1) p out).map (fun r => (f == 1, r.1, r.2))
    | _ => none
  | _, _ => none

/-- Blocks from a position: to the final one, or, for PARTIAL, to the end of the input. The output, where its blocks end, and the
next position. -/
def inflateAll (bs : List Byte) (partial_ : Bool) : Nat → Nat → List Byte → List Nat → Option (List Byte × List Nat × Nat)
  | 0, _, _, _ => none
  | fuel + 1, pos, out, ends =>
    if partial_ && 8 * bs.length ≤ pos then some (out, ends, pos)
    else match inflateBlock bs pos out with
      | none => none
      | some (f, pos, out) =>
        let ends := ends ++ [out.length]
        if f && (!partial_ || 8 * bs.length < pos + 8) then some (out, ends, pos) else inflateAll bs partial_ fuel pos out ends

/-- Offset behind a zero-terminated text. -/
def skipText (bs : List Byte) : Nat → Nat → Option Nat
  | 0, _ => none
  | fuel + 1, off => match bs[off]? with
    | none => none
    | some b => if b = 0 then some (off + 1) else skipText bs fuel (off + 1)

/-- Length of a gzip header with its optional fields. -/
def gzipHeader (bs : List Byte) : Option Nat :=
  let fl := fieldLe bs 3 1
  if bs.length < 10 ∨ bs.take 3 ≠ [0x1F, 0x8B, 8] ∨ 32 ≤ fl then none
  else
    let a := if bitOf fl 2 then 12 + fieldLe bs 10 2 else 10
    let b := if bitOf fl 3 then skipText bs (bs.length + 1) a else some a
    match b with
    | none => none
    | some b => match (if bitOf fl 4 then skipText bs (bs.length + 1) b else some b) with
      | none => none
      | some c => some (if bitOf fl 1 then c + 2 else c)

/-- Decode a stream of a framing (0 raw, 1 zlib, 2 gzip): the output and where its blocks end; none gives STREAM_CORRUPT. -/
def decodeStream (framing : Nat) (partial_ : Bool) (bs : List Byte) : Option (List Byte × List Nat) :=
  let fuel := 8 * bs.length + 2
  match framing with
  | 1 =>
    let cmf := fieldLe bs 0 1
    let flg := fieldLe bs 1 1
    if bs.length < 2 ∨ cmf % 16 ≠ 8 ∨ 7 < cmf / 16 ∨ (cmf * 256 + flg) % 31 ≠ 0 ∨ bitOf flg 5 then none
    else match inflateAll bs false fuel 16 [] [] with
      | none => none
      | some (out, ends, pos) =>
        let t := (pos + 7) / 8
        if bs.length < t + 4 ∨ beNat (slice bs t 4) ≠ (adler32 out).toNat then none else some (out, ends)
  | 2 =>
    match gzipHeader bs with
    | none => none
    | some h => match inflateAll bs false fuel (8 * h) [] [] with
      | none => none
      | some (out, ends, pos) =>
        let t := (pos + 7) / 8
        if bs.length < t + 8 ∨ fieldLe bs t 4 ≠ (crc32 out).toNat ∨ fieldLe bs (t + 4) 4 ≠ out.length % 2 ^ 32 then none else some (out, ends)
  | _ => (inflateAll bs partial_ fuel 0 [] []).map (fun r => (r.1, r.2.1))

end Sys2Proof.Machine
end

