-- ==== Sys2Proof/Machine/KeyOps.lean ====
section
/-! DEFINITION. Handles, the usage of keys, the checks of R510, draws and the key journal (09). -/

namespace Sys2Proof.Machine

/-- A usage of two ASCII characters, the first in bits 7:0. -/
def us (a b : Nat) : Nat := a + 256 * b
def usB0 : Nat := us 0x42 0x30
def us91 : Nat := us 0x39 0x31
def usK0 : Nat := us 0x4B 0x30
def usK1 : Nat := us 0x4B 0x31
def usP0 : Nat := us 0x50 0x30
def usM3 : Nat := us 0x4D 0x33
def usM6 : Nat := us 0x4D 0x36
def usM7 : Nat := us 0x4D 0x37
def usD0 : Nat := us 0x44 0x30
def usE0 : Nat := us 0x45 0x30
def usS0 : Nat := us 0x53 0x30
/-- ASCII of modes and algorithms. -/
def chA : Nat := 0x41
def chB : Nat := 0x42
def chC : Nat := 0x43
def chD : Nat := 0x44
def chE : Nat := 0x45
def chG : Nat := 0x47
def chH : Nat := 0x48
def chN : Nat := 0x4E
def chR : Nat := 0x52
def chS : Nat := 0x53
def chT : Nat := 0x54
def chV : Nat := 0x56
def chX : Nat := 0x58
def ch4 : Nat := 0x34

/-- Algorithm code of SLOT_INFO of attributes; 0 for asymmetric keys (R261). -/
def algCode (a : KAttr) : Nat :=
  if a.alg = chA then (if a.bits = 128 then 1 else if a.bits = 192 then 2 else 3)
  else if a.alg = ch4 then 4
  else if a.alg = chT then (if a.bits = 128 then 5 else 6)
  else if a.alg = chH then (if a.bits = 128 then 7 else 8)
  else 0

/-- A handle's fields (R223). -/
def hMgr (h : Nat) : Bool := bitOf h 31
def hTenant (h : Nat) : Nat := bitsOf h 30 21
def hIndex (h : Nat) : Nat := h % 2 ^ 21

/-- The key of a handle, where it exists and its destruction has not begun (R251). -/
def keyOf (s : State) (h : Nat) : Option Key :=
  match mget s.sroom.keys h with
  | some k => if k.live && !k.dying then some k else none
  | none => none

/-- Replace a key. -/
def setKey (s : State) (h : Nat) (k : Key) : State := { s with sroom := { s.sroom with keys := mset s.sroom.keys h k } }
/-- Change a key, where it is held. -/
def modKey (s : State) (h : Nat) (f : Key → Key) : State := { s with sroom := { s.sroom with keys := mmod s.sroom.keys h f } }

/-- The key that a tenant may name by a handle (R114, R224). -/
def tenantKey (s : State) (t h : Nat) : Option Key := if !(hMgr h) && hTenant h == t then keyOf s h else none

/-- What a key is used for (R244, R293). -/
inductive KeyUse where
  | dukpt | derive | unwrap | wrap | blockImport | blockExport | pinSource | pinTarget | mac3Gen | mac3Ver | cmacGen | cmacVer
  | hmac | encrypt | decrypt | emv | sign | verify | sm2Encrypt | sm2Decrypt
  deriving DecidableEq, Repr

/-- A usage and mode allow an operation (R244). -/
def useOk (u : KeyUse) (usage mode : Nat) : Bool :=
  let dir (us_ a : Nat) : Bool := usage == us_ && (mode == chB || mode == a)
  let mac (us_ a : Nat) : Bool := usage == us_ && (mode == chC || mode == a)
  match u with
  | .dukpt => usage == usB0 && mode == chX
  | .derive => usage == us91 && mode == chX
  | .unwrap => dir usK0 chD
  | .wrap => dir usK0 chE
  | .blockImport => dir usK1 chD
  | .blockExport => dir usK1 chE
  | .pinSource => dir usP0 chD
  | .pinTarget => dir usP0 chE
  | .mac3Gen => mac usM3 chG
  | .mac3Ver => mac usM3 chV
  | .cmacGen => mac usM6 chG
  | .cmacVer => mac usM6 chV
  | .hmac => mac usM7 chG
  | .encrypt => dir usD0 chE
  | .decrypt => dir usD0 chD
  | .emv => usage == usE0 && mode == chX
  | .sign => usage == usS0 && mode == chS
  | .verify => usage == usS0 && mode == chV
  | .sm2Encrypt => usage == usD0 && mode == chE
  | .sm2Decrypt => dir usD0 chD

/-- The algorithms of each operation by the code of SLOT_INFO (R244, R259); asymmetric operations by the key's own type. -/
def useAlg (u : KeyUse) (k : Key) : Bool :=
  let c := algCode k.attr
  match u with
  | .dukpt | .derive | .cmacGen | .cmacVer => isAes c || (c == 4 && (u == .cmacGen || u == .cmacVer))
  | .unwrap | .wrap | .blockImport | .blockExport | .pinSource | .pinTarget => isAes c || isTdea c
  | .mac3Gen | .mac3Ver => c == 5
  | .hmac => c == 7 || c == 8
  | .encrypt | .decrypt => isAes c || c == 4
  | .emv => isAes c || c == 5
  | .sign => (k.attr.alg == chE || k.attr.alg == chR) && !k.isPublic
  | .verify => (k.attr.alg == chE || k.attr.alg == chR) && k.isPublic
  | .sm2Encrypt => k.attr.alg == chE && k.attr.curve == 1 && k.isPublic
  | .sm2Decrypt => k.attr.alg == chE && k.attr.curve == 1 && !k.isPublic

/-- The checks of R510, steps 1 to 4, for a key a tenant names: the key, or a disposition. -/
def checkUse (s : State) (t h : Nat) (u : KeyUse) (draws : Bool) : Except Nat Key :=
  match tenantKey s t h with
  | none => .error 0x0201
  | some k =>
    if k.state = 3 then .error 0x0204
    else if !(useOk u k.attr.usage k.attr.mode) ∨ !(useAlg u k) then .error 0x0202
    else if draws ∧ k.state = 1 then .error 0x0203
    else if draws ∧ k.state = 2 then .error 0x0204
    else .ok k

/-- CAP of a key (R251). -/
def capOf (a : KAttr) : Nat := if a.capLog2 ≠ 0 then 2 ^ a.capLog2 else if a.usage = usD0 then 2 ^ 32 else 2 ^ 64 - 1

/-- IV_FIXED with the roadstead position (R249), as a number of 4 bytes. -/
def ivFixedOf (s : State) (a : KAttr) : Nat := a.ivFixed * 256 + s.position

/-- The 12-byte IV of R249 for a drawn value. -/
def ivBytes (ivFixed v : Nat) : List Byte := toBe 4 ivFixed ++ toBe 8 v

/-! Strength (R245). -/

/-- A key of algorithm code a may protect one of code b, asymmetric keys being 0 (R245). -/
def strongEnough (a b : Nat) : Bool :=
  if a = 3 then true else if a = 2 then b == 1 || b == 2 || isTdea b else if a = 1 then b == 1 || isTdea b else isTdea a && isTdea b

/-! The journal (R228). -/

/-- Queue a journal record: it joins the open batch. -/
def journalAdd (s : State) (r : JRec) : State :=
  let x := s.sroom
  { s with sroom := { x with openRecs := x.openRecs ++ [r], openAt := if x.openRecs.isEmpty then nowNs s else x.openAt } }

/-- Start the store write and the journal record of a key in a state, 4 for its destruction (R228, R229). -/
def persistKey (s : State) (h st : Nat) : State :=
  journalAdd (modKey s h (fun k => { k with store := some { port := managerPort s }, recQueued := true })) (.key h st)

/-! Draws (R248 to R254). -/

/-- The end of the block of 65,536 values that holds the last of n values from c on (R253). -/
def blockEnd (c n : Nat) : Nat := (c + n + 65535) / 65536 * 65536

/-- Draw up to n values from a key: the first value and how many are drawn, or none where a reservation must be journalled
first, whose record is then queued (R250, R251, R253). -/
def draw (s : State) (h n : Nat) : State × Option (Nat × Nat) :=
  match mget s.sroom.keys h with
  | none => (s, none)
  | some k =>
    let m := min n (capOf k.attr - k.counter)
    let need := blockEnd k.counter m
    if m = 0 then (s, some (k.counter, 0))
    else if need ≤ k.high then
      let c := k.counter + m
      (setKey s h { k with counter := c, state := if k.state = 0 ∧ capOf k.attr ≤ c then 1 else k.state }, some (k.counter, m))
    else if need ≤ k.asked then (s, none)
    else (journalAdd (setKey s h { k with asked := need }) (.reserve h need), none)

/-! Destruction and completion of key commands (R229, R252). -/

/-- An operation that uses a key is in progress. -/
def keyBusy (s : State) (h : Nat) : Bool :=
  s.sroom.runs.any (fun e => e.2.uses.contains h)
    || s.jobs.any (fun e => e.2.started && !e.2.finished && (e.2.keyA == h || e.2.keyB == h))

/-- Begin the erasure of dying keys that no operation uses: the slot, the spill record and the store record are zeroised and
the key is journalled as destroyed (R252). A tenant root has no store record. -/
def reapKeys (s : State) : State :=
  (s.sroom.keys.filter (fun e => e.2.dying && !e.2.recQueued && e.2.store.isNone && !(keyBusy s e.1))).foldl
    (fun s e =>
      let s := persistKey (modKey s e.1 (fun k => { k with value := zeros k.value.length, resident := false })) e.1 4
      if hIndex e.1 = 0 ∧ !(hMgr e.1) then modKey s e.1 (fun k => { k with store := none }) else s) s

/-- Response body of a key command whose store and journal records are complete (R469). -/
def keyBody (h : Nat) (k : Key) (op aux : Nat) : List Byte :=
  match op with
  | 0x0301 => toLe 4 h ++ kcvOf (algCode k.attr) k.value ++ toLe 1 aux
  | 0x0302 =>
    let pub := if k.attr.alg = chE then Config.publicOf k.attr.curve 0 k.value
               else if k.attr.alg = chR then Config.publicOf 0 k.attr.bits k.value else []
    toLe 4 h ++ kcvOf (algCode k.attr) k.value ++ toLe 2 pub.length ++ pub
  | _ => []

/-- Keys of a tenant still held. -/
def keysOfTenant (s : State) (t : Nat) : List Nat := (s.sroom.keys.filter (fun e => !(hMgr e.1) && hTenant e.1 == t)).map (·.1)

/-- A TENANT_DESTROY that waits ends once no key of the tenant is left and the destruction of its label is journalled (R256). -/
def destroyDone (s : State) : State :=
  let queued (t : Nat) : Bool := (s.sroom.openRecs ++ s.sroom.pages.flatten).any (fun r => match r with
    | .label u _ => u == t
    | _ => false)
  [Port.a, Port.b].foldl (fun s p => match (mailOf s p).run with
    | some r => if r.opcode = 0x0205 ∧ r.req.isNone ∧ (keysOfTenant s r.arg).isEmpty ∧ !(queued r.arg) then mbFinish s p 0 0 (toLe 4 r.aux) else s
    | none => s) s

/-- A key whose store record is confirmed and whose journal record is journalled: its command completes (R229). -/
def settleKey (s : State) (h : Nat) : State :=
  match mget s.sroom.keys h with
  | none => s
  | some k =>
    if k.store.isSome ∨ k.recQueued then s
    else
      let s := if k.dying ∧ k.journalled = some 4 then { s with sroom := { s.sroom with keys := mdel s.sroom.keys h } }
               else setKey s h { k with live := true, cmd := none }
      match k.cmd with
      | none => s
      | some p =>
        match (mailOf s p).run with
        | none => s
        | some r => if r.opcode = 0x0205 then s else mbFinish s p 0 0 (keyBody h k r.opcode r.aux)

end Sys2Proof.Machine
end

