-- ==== Sys2Proof/Machine/CpOps.lean ====
section
/-! DEFINITION. Submits to the pier coprocessors: the request block, the data ranges, the queues and the status words (R111, R112,
R154, R177). -/

namespace Sys2Proof.Machine

/-- Places of the n bytes of a range; an empty range has none. -/
def spanLocs (s : State) (th : ThreadId) (k : AccKind) (va n : Nat) : Except Exn (List Loc) :=
  if n = 0 then .ok [] else translate s th k va n

/-- Streaming fills of a non-thread reader: into the pier's L2 at age 3, never into an L1 (R196, R197). -/
def streamFills (s : State) (th : ThreadId) (ls : List Loc) : State :=
  ((ls.filter (fun l => decide (l.obj = .phys) && decide (l.type = .cached))).map (fun l => l.addr / 64)).eraseDups.foldl
    (fun s line => if (pcOf s th.pier.val).l2En && (l2Held s th.pier.val line).isNone then fetchShared s th.pier.val line 3 else s) s

/-- A byte of host memory as a read of now finds it: a free value, since the host may have written it (log entry 8). -/
def hostByteNow (s : State) (a : Nat) : Byte := (Config.hostWord (a / 8 * 8) s.freeCtr).extractLsb' (8 * (a % 8)) 8

/-- Read the bytes of a range for a coprocessor or an engine, with the thread's own view (R106, R177, R197). -/
def readRange (s : State) (th : ThreadId) (ls : List Loc) : State × List Byte :=
  let s := streamFills s th ls
  let bs := ls.map (fun l => if l.obj = .host then hostByteNow s l.addr else seenByte s th l)
  (if ls.any (fun l => decide (l.obj = .host)) then { s with freeCtr := s.freeCtr + 1 } else s, bs)

/-- Tenant of the consignment a thread holds. -/
def tenantOfThread (s : State) (th : ThreadId) : Nat := ((consOf s (thr s th).seq).map (·.tenant)).getD 0

/-- Write bytes to known places for a coprocessor or an engine; a host address that does not translate gives DMA_ERROR and
writes nothing (R92, R401). -/
def writeLocs (s : State) (th : ThreadId) (ls : List Loc) (bs : List Byte) : State × Nat :=
  let host := ls.filter (fun l => decide (l.obj = .host))
  if host.any (fun l => !(iovaOk s l.addr 1)) then (s, 0x0504)
  else if !host.isEmpty && dmaDiscarded s (tenantOfThread s th) then (modCons s (thr s th).seq (fun c => { c with lostResults := true }), 0)
  else ((ls.zip bs).foldl (fun s p => objStore s th p.1.obj p.1.addr p.2) s, 0)

/-- The same from a far address: a range the thread may not write gives a status word the spec does not state (log entry 8). -/
def writeRange (s : State) (th : ThreadId) (va : Nat) (bs : List Byte) : State × Word :=
  match spanLocs s th .store va bs.length with
  | .error _ => ({ s with freeCtr := s.freeCtr + 1 }, Config.accessStatus s.freeCtr)
  | .ok ls => let (s, st) := writeLocs s th ls bs; (s, BitVec.ofNat 24 st)

/-- A data range of a request: written or read, its far address and its length. -/
structure DataRange where
  write : Bool := false
  va : Nat := 0
  len : Nat := 0
  deriving DecidableEq, Repr

/-- Places of every range, in order. -/
def gatherLocs (s : State) (th : ThreadId) : List DataRange → Except Exn (List (Bool × List Loc))
  | [] => .ok []
  | r :: rs =>
    match spanLocs s th (if r.write then .store else .load) r.va r.len with
    | .error e => .error e
    | .ok ls => match gatherLocs s th rs with
      | .error e => .error e
      | .ok xs => .ok ((r.write, ls) :: xs)

/-- Read the ranges that are inputs, in order. -/
def readInputs (s : State) (th : ThreadId) : List (Bool × List Loc) → State × List (List Byte)
  | [] => (s, [])
  | (w, ls) :: rs =>
    if w then readInputs s th rs
    else
      let (s, bs) := readRange s th ls
      let (s, r) := readInputs s th rs
      (s, bs :: r)

/-- LEDGERED lines that a request touches meet the holds of R107 as an access of the thread does (log entry 16): a 65th line
overflows, an older thread waits at the submit, a younger one restarts; else the lines are taken and the work goes on. -/
def withLines (s : State) (th : ThreadId) (lines : List Nat) (go : State → State) : State :=
  let t := thr s th
  if lines.isEmpty then go s
  else if 64 < t.csetLines.length + (lines.filter (fun l => !(t.csetLines.contains l))).length then takeExn s th excOverflow
  else match conflictOf s th lines with
    | some (line, holder) => if t.seq < holder then s else conflictRestart s th line
    | none => go (takeLines s th lines)

/-- Set the state of a thread's request to a coprocessor. -/
def setCp (s : State) (th : ThreadId) (n : Fin 3) (r : CpReq) : State :=
  modThr s th (fun t => { t with cp := t.cp.set n.val r n.isLt })

/-- Post a status word; a thread parked in WAITCP for it goes on (R112). -/
def cpPost (s : State) (th : ThreadId) (n : Fin 3) (w : Word) : State :=
  let s := setCp s th n (.posted w)
  match (thr s th).run with
  | .waitcp m d => if m = n.val then (collect s th m d).getD s else s
  | _ => s

/-- Retire a submit: rCD := 0, between two retry points (R261, R309, R336). -/
def submitDone (s : State) (th : ThreadId) (cd : RegField) (v : Word) : State :=
  retryPoint (finish s th (wr (thr s th).arch cd v)) th

/-- A submit to CP0, CP1 or CP2 (R104, R111, R154): the block of `size` bytes at near address rCA, aligned to 8 bytes, is read
and, for CP0, must be writable too; `prep` answers a status word that posts at once, or the ranges of the request. A range
that cannot be accessed raises its exception where `precise` (R311). The request then queues for its unit, or goes to the
Strongroom (R263). -/
def cpSubmit (th : ThreadId) (n : Fin 3) (cd ca : RegField) (size cfn : Nat) (rw precise toUnit : Bool)
    (prep : State → List Byte → Except Word (List DataRange)) (s : State) : State :=
  issue th (fun s =>
    let t := thr s th
    let off := rd t.arch ca
    let va := nearVa t.arch off
    if t.ended ≠ .no ∨ t.cp.get n ≠ .idle then takeExn s th excIllegal
    else if off.toNat % 8 ≠ 0 then takeExn s th (excLoad 4 va)
    else match translate s th .load va size with
      | .error e => takeExn s th e
      | .ok bl =>
        match (if rw then translate s th .store va size else .ok []) with
        | .error e => takeExn s th e
        | .ok _ =>
          let block := bl.map (seenByte s th)
          let post (s : State) (w : Word) : State := submitDone (setCp (retryPoint s th) th n (.posted w)) th cd 0
          match prep s block with
          | .error w => post s w
          | .ok ranges =>
            match gatherLocs s th ranges with
            | .error e => if precise then takeExn s th e else post { s with freeCtr := s.freeCtr + 1 } (Config.accessStatus s.freeCtr)
            | .ok all =>
              withLines s th (linesOf (all.flatMap (·.2))) (fun s =>
                let s := retryPoint s th
                let (s, ins) := readInputs s th all
                let s := setCp s th n (.queued cfn off.toNat block ins)
                let s :=
                  if toUnit then
                    let p := pierOf s th.pier.val
                    setPier s th.pier.val { p with cpq := p.cpq.set n.val (p.cpq.get n ++ [th.inPier]) n.isLt }
                  else
                    let c := consOf s t.seq
                    { s with sroom := { s.sroom with queue := s.sroom.queue ++
                        [{ kind := .cp1 th cfn block ins, seq := t.seq, restarts := (c.map (·.restarts)).getD 0 }] } }
                submitDone s th cd 0)) s

/-- A status word of a disposition and a value in bits 23:16 (R112). -/
def cpWord (st v : Nat) : Word := BitVec.ofNat 24 (st % 65536 + v % 256 * 65536)

/-- BAD_FORMAT and LENGTH_LIMIT as status words. -/
def cpBadFormat : Word := cpWord 0x0102 0
def cpLength : Word := cpWord 0x0401 0

/-- Every byte of a block from an offset on, n bytes, is 0. -/
def zeroAt (b : List Byte) (off n : Nat) : Bool := fieldLe b off n == 0

/-- A far address field whose bits 63:48 are 0. -/
def farOk (b : List Byte) (off : Nat) : Bool := fieldLe b off 8 < 2 ^ 48

end Sys2Proof.Machine
end

