-- ==== Sys2Proof/Machine/PinOps.lean ====
section
/-! DEFINITION. ISO 9564-1 PIN blocks (R281 to R284). -/

namespace Sys2Proof.Machine

/-- The nibbles of a byte string, high nibble first. -/
def nibbles (bs : List Byte) : List Nat := bs.flatMap (fun b => [b.toNat / 16, b.toNat % 16])

/-- The bytes of a list of nibbles, high nibble first. -/
def packNibbles : List Nat → List Byte
  | a :: b :: r => BitVec.ofNat 8 (a * 16 + b) :: packNibbles r
  | [a] => [BitVec.ofNat 8 (a * 16)]
  | [] => []

/-- Digits of a PAN supplied as ASCII, where all are digits. -/
def panDigits (pan : List Byte) : Option (List Nat) :=
  if pan.all (fun b => 0x30 ≤ b.toNat && b.toNat ≤ 0x39) then some (pan.map (fun b => b.toNat - 0x30)) else none

/-- A PAN of 12 to 19 digits (R283 check 2). -/
def panOk (pan : List Byte) : Bool := 12 ≤ pan.length && pan.length ≤ 19 && (panDigits pan).isSome

/-- The PAN field of formats 0 and 3: four zero digits and the rightmost 12 digits without the check digit. -/
def panField8 (pan : List Byte) : List Byte :=
  let d := ((panDigits pan).getD []).dropLast
  packNibbles ([0, 0, 0, 0] ++ d.drop (d.length - 12))

/-- The PAN field of format 4: the digits beyond 12 as a count, the PAN, and zeros. -/
def panField16 (pan : List Byte) : List Byte :=
  let d := (panDigits pan).getD []
  packNibbles ([d.length - 12] ++ d ++ List.replicate (31 - d.length) 0)

/-- A format is bound to the PAN (R281). -/
def panBound (f : Nat) : Bool := f == 0 || f == 3 || f == 4

/-- The pairs of R282. -/
def pinPairOk (i o : Nat) : Bool :=
  match i with
  | 0 => o == 0 || o == 3 || o == 4
  | 1 => o == 0 || o == 1 || o == 3 || o == 4
  | 3 => o == 0 || o == 3 || o == 4
  | 4 => o == 4
  | _ => false

/-- The clear PIN field of an enciphered block, with the PAN taken out (R281). -/
def pinClear (alg : Nat) (key block pan : List Byte) : List Nat :=
  if isAes alg then nibbles (decBlock alg key (xorBytes (decBlock alg key block) (panField16 pan)))
  else
    let p := decBlock alg key block
    let f := (nibbles p).headD 15
    nibbles (if f = 0 ∨ f = 3 then xorBytes p (panField8 pan) else p)

/-- The fill of a format is well formed (R281, R283 check 5). -/
def pinFillOk (f : Nat) (fill : List Nat) : Bool :=
  match f with
  | 0 => fill.all (· == 15)
  | 3 => fill.all (fun x => 10 ≤ x)
  | 4 => fill.all (· == 10)
  | _ => true

/-- n random digits from a counter: 0 to 15, or 10 to 15 (R281). -/
def randomDigits (ctr n : Nat) (letters : Bool) : List Nat :=
  (randomBytes ctr n).map (fun b => if letters then 10 + b.toNat % 6 else b.toNat % 16)

/-- Encipher a PIN in a format (R281). -/
def pinEncipher (alg : Nat) (key : List Byte) (f : Nat) (pin : List Nat) (pan : List Byte) (ctr : Nat) : List Byte :=
  let head := [f, pin.length] ++ pin
  let n := 14 - pin.length
  match f with
  | 4 =>
    let field := packNibbles (head ++ List.replicate n 10 ++ randomDigits ctr 16 false)
    encBlock alg key (xorBytes (encBlock alg key field) (panField16 pan))
  | 1 => encBlock alg key (packNibbles (head ++ randomDigits ctr n false))
  | 3 => encBlock alg key (xorBytes (packNibbles (head ++ randomDigits ctr n true)) (panField8 pan))
  | _ => encBlock alg key (xorBytes (packNibbles (head ++ List.replicate n 15)) (panField8 pan))

/-- Translate a PIN block: the new block, or a disposition with its reason (R282 to R284). -/
def pinTranslate (algIn : Nat) (keyIn : List Byte) (algOut : Nat) (keyOut block pan : List Byte) (out ctr : Nat) : Except (Nat × Nat) (List Byte) :=
  if block.length ≠ (if isAes algIn then 16 else 8) then .error (0x0306, 5)
  else
    let control := if isAes algIn then 4 else (nibbles (decBlock algIn keyIn block)).headD 15
    if (panBound control ∨ panBound out) ∧ !(panOk pan) then .error (0x0306, 4)
    else
      let field := pinClear algIn keyIn block pan
      let control := field.headD 15
      if !([0, 1, 3, 4].contains control) ∨ (decide (control = 4) != isAes algIn) then .error (0x0306, 1)
      else if !(pinPairOk control out) then .error (0x0305, 0)
      else
        let n := (field[1]?).getD 0
        let pin := (field.drop 2).take n
        if n < 4 ∨ 12 < n then .error (0x0306, 2)
        else if pin.any (fun d => 9 < d) ∨ !(pinFillOk control ((field.take 16).drop (2 + n))) then .error (0x0306, 3)
        else .ok (pinEncipher algOut keyOut out pin pan ctr)

end Sys2Proof.Machine
end

