-- ==== Sys2Proof/Machine/Cp1Ops.lean ====
section
/-! DEFINITION. The pier cipher unit CP1 and the hash unit CP2: their submits and what they do with a request (10). -/

namespace Sys2Proof.Machine

/-- The fields of a CP1 operation block (R262). -/
structure OpBlock where
  slot : Nat
  slot2 : Nat
  mode : Nat
  tagLen : Nat
  opt : Nat
  len : Nat
  src : Nat
  dst : Nat
  aad : Nat
  aadLen : Nat
  ivLen : Nat
  iv : Nat
  atc : Nat
  psn : Nat
  crypt : List Byte
  deriving DecidableEq, Repr

/-- The block that 64 bytes spell. -/
def opBlock (b : List Byte) : OpBlock :=
  let k := fieldLe b 0 1
  { slot := k % 4, slot2 := k / 4 % 4, mode := fieldLe b 1 1, tagLen := fieldLe b 2 1, opt := fieldLe b 3 1, len := fieldLe b 4 4,
    src := fieldLe b 8 8, dst := fieldLe b 16 8, aad := fieldLe b 24 8, aadLen := fieldLe b 32 4, ivLen := fieldLe b 36 1, iv := fieldLe b 40 8,
    atc := fieldLe b 48 2, psn := fieldLe b 50 1, crypt := slice b 56 8 }

/-- Reserved fields and far addresses of an operation block, and what only EMV_VERIFY and PIN_TRANSLATE use (R262). -/
def opCommonOk (b : List Byte) (emv pin : Bool) : Bool :=
  fieldLe b 0 1 / 16 == 0 && zeroAt b 37 3 && zeroAt b 51 5 && farOk b 8 && farOk b 16 && farOk b 24 && farOk b 40
    && (emv || (zeroAt b 48 3 && zeroAt b 56 8)) && (pin || fieldLe b 0 1 / 4 % 4 == 0)

/-- AAD unused. -/
def noAad (o : OpBlock) : Bool := o.aad == 0 && o.aadLen == 0

/-- Tag lengths of GCM and CCM in the pier (R273). -/
def tagLenOk (mode t : Nat) : Bool := if mode = 2 then 12 ≤ t && t ≤ 16 else [4, 6, 8, 10, 12, 14, 16].contains t

/-- ENCRYPT: BAD_FORMAT, LENGTH_LIMIT, or the ranges (R262, R271, R273). -/
def encryptPrep (b : List Byte) : Except Word (List DataRange) :=
  let o := opBlock b
  let aead := o.mode == 2 || o.mode == 3
  let ivOk := match o.mode with
    | 0 => o.ivLen == 16 || o.ivLen == 8
    | 1 => o.ivLen == 16
    | _ => o.ivLen == 12
  if !(opCommonOk b false false) ∨ 3 < o.mode ∨ o.opt ≠ 0 ∨ (!aead && !(noAad o && o.tagLen == 0)) ∨ !ivOk then .error cpBadFormat
  else if 65536 < o.len ∨ 65536 < o.aadLen ∨ (aead && !(tagLenOk o.mode o.tagLen)) then .error cpLength
  else .ok [{ va := o.src, len := o.len }, { va := o.aad, len := o.aadLen }, { write := true, va := o.dst, len := o.len + o.tagLen },
            { write := true, va := o.iv, len := o.ivLen }]

/-- DECRYPT (R262, R272, R273). -/
def decryptPrep (b : List Byte) : Except Word (List DataRange) :=
  let o := opBlock b
  let aead := o.mode == 2 || o.mode == 3
  let ivOk := match o.mode with
    | 0 => o.ivLen == 16 || o.ivLen == 8
    | 1 => o.ivLen == 16
    | 2 => o.ivLen == 12
    | _ => 7 ≤ o.ivLen && o.ivLen ≤ 13
  if !(opCommonOk b false false) ∨ 3 < o.mode ∨ o.opt ≠ 0 ∨ (!aead && !(noAad o && o.tagLen == 0)) ∨ !ivOk then .error cpBadFormat
  else if 65536 < o.len ∨ 65536 < o.aadLen ∨ (aead && !(tagLenOk o.mode o.tagLen)) then .error cpLength
  else .ok [{ va := o.src, len := o.len + o.tagLen }, { va := o.aad, len := o.aadLen }, { va := o.iv, len := o.ivLen },
            { write := true, va := o.dst, len := o.len }]

/-- MAC lengths (R273). -/
def macLenOk (mode t : Nat) : Bool := 4 ≤ t && t ≤ (if mode = 0 then 16 else 8)

/-- MAC_GENERATE and MAC_VERIFY (R262, R273, R285). -/
def macPrep (gen : Bool) (b : List Byte) : Except Word (List DataRange) :=
  let o := opBlock b
  if !(opCommonOk b false false) ∨ 1 < o.mode ∨ (if o.mode = 1 then 1 else 0) < o.opt ∨ !(noAad o)
      ∨ (gen && !(o.iv == 0 && o.ivLen == 0)) ∨ (!gen && !(o.dst == 0 && o.tagLen ≤ o.ivLen)) then .error cpBadFormat
  else if 65536 < o.len ∨ !(macLenOk o.mode o.tagLen) then .error cpLength
  else if gen then .ok [{ va := o.src, len := o.len }, { write := true, va := o.dst, len := o.tagLen }]
  else .ok [{ va := o.src, len := o.len }, { va := o.iv, len := o.tagLen }]

/-- PIN_TRANSLATE (R262, R273, R281). -/
def pinPrep (b : List Byte) : Except Word (List DataRange) :=
  let o := opBlock b
  if !(opCommonOk b false true) ∨ o.mode ≠ 0 ∨ o.tagLen ≠ 0 ∨ !(noAad o) ∨ !([0, 1, 3, 4].contains o.opt) then .error cpBadFormat
  else if (o.len ≠ 8 ∧ o.len ≠ 16) ∨ (o.ivLen ≠ 0 ∧ (o.ivLen < 12 ∨ 19 < o.ivLen)) then .error cpLength
  else .ok [{ va := o.src, len := o.len }, { va := o.iv, len := o.ivLen }, { write := true, va := o.dst, len := if o.opt = 4 then 16 else 8 }]

/-- EMV_VERIFY (R262, R273, R286). -/
def emvPrep (b : List Byte) : Except Word (List DataRange) :=
  let o := opBlock b
  if !(opCommonOk b true false) ∨ o.mode ≠ 0 ∨ o.tagLen ≠ 0 ∨ o.opt ≠ 0 ∨ !(noAad o) ∨ o.dst ≠ 0 ∨ (99 < o.psn ∧ o.psn ≠ 255) then .error cpBadFormat
  else if o.len = 0 ∨ 256 < o.len ∨ o.ivLen < 12 ∨ 19 < o.ivLen then .error cpLength
  else .ok [{ va := o.src, len := o.len }, { va := o.iv, len := o.ivLen }]

/-! Key request blocks (R262). -/

/-- KEY_DERIVE: reserved fields and the unused bytes of LABEL and CONTEXT are 0. -/
def derivePrep (b : List Byte) : Except Word (List DataRange) :=
  let n := min (fieldLe b 6 1) 32
  let m := min (fieldLe b 7 1) 64
  if 3 < fieldLe b 0 1 ∨ !(zeroAt b 12 4) ∨ !(zeroAt b (16 + n) (32 - n)) ∨ !(zeroAt b (48 + m) (64 - m)) then .error cpBadFormat else .ok []

/-- KEY_DUKPT: COUNT of 1 to 4, slots below 4, entries beyond COUNT 0. -/
def dukptPrep (b : List Byte) : Except Word (List DataRange) :=
  let n := fieldLe b 0 1
  if n = 0 ∨ 4 < n ∨ !(zeroAt b 1 3) ∨ !(zeroAt b 20 4) ∨ !(zeroAt b (24 + 4 * n) (16 - 4 * n))
      ∨ (List.range n).any (fun i => decide (3 < fieldLe b (24 + 4 * i + 3) 1)) then .error cpBadFormat else .ok []

/-- KEY_LOAD. -/
def loadPrep (b : List Byte) : Except Word (List DataRange) := if 3 < fieldLe b 0 1 ∨ !(zeroAt b 2 2) then .error cpBadFormat else .ok []

/-- KEY_UNWRAP: 16 to 512 characters. -/
def unwrapPrep (b : List Byte) : Except Word (List DataRange) :=
  let n := fieldLe b 2 2
  if 3 < fieldLe b 0 1 ∨ !(zeroAt b 1 1) ∨ n < 16 ∨ 512 < n ∨ !(farOk b 8) then .error cpBadFormat else .ok [{ va := fieldLe b 8 8, len := n }]

/-- KEY_WRAP. -/
def wrapPrep (b : List Byte) : Except Word (List DataRange) :=
  if 3 < fieldLe b 0 1 ∨ !(zeroAt b 1 1) ∨ !(farOk b 8) then .error cpBadFormat else .ok [{ write := true, va := fieldLe b 8 8, len := fieldLe b 2 2 }]

/-! Operations of CP1. -/

/-- A key slot of a thread. -/
def slotOf (s : State) (th : ThreadId) (n : Nat) : KeySlot := if h : n < 4 then (thr s th).keySlots.get ⟨n, h⟩ else {}
/-- Replace a key slot. -/
def setSlot (s : State) (th : ThreadId) (n : Nat) (k : KeySlot) : State :=
  modThr s th (fun t => { t with keySlots := if h : n < 4 then t.keySlots.set n k h else t.keySlots })

/-- The slot checks of R264 in order: the key, or a disposition. -/
def slotUse (s : State) (th : ThreadId) (n : Nat) (u : KeyUse) (algOk : Nat → Bool) : Except Nat KeySlot :=
  let k := slotOf s th n
  if !k.full then .error 0x0201
  else if !(useOk u k.usage k.mode) ∨ !(algOk k.alg) then .error 0x0202
  else .ok k

/-- Algorithms of each CP1 mode (R259). -/
def modeAlg (mode alg : Nat) : Bool := isAes alg || alg == 4 || (mode == 0 && isTdea alg)

/-- Take the value an encryption, MAC generation or wrap uses: the next drawn value of a stored key, or the fixed value of a key
without a counter, which allows one GCM or CTR encryption (R250, R271, R272). None where it is refused. -/
def takeValue (k : KeySlot) (once : Bool) : Option (KeySlot × Nat) :=
  if k.stored then (if k.left = 0 then none else some ({ k with v := k.v + 1, left := k.left - 1 }, k.v))
  else if once then (if k.encs = 0 then some ({ k with encs := 1 }, k.v) else none)
  else some (k, k.v)

/-- The IV or nonce of an encryption for a mode (R271). -/
def builtIv (k : KeySlot) (mode v : Nat) : List Byte :=
  match mode with
  | 0 => if isTdea k.alg then encBlock k.alg k.key (toBe 4 (v % 2 ^ 32) ++ toBe 4 k.cbcs)
         else encBlock k.alg k.key (ivBytes k.ivFixed v ++ toBe 4 k.cbcs)
  | 1 => ivBytes k.ivFixed v ++ zeros 4
  | _ => ivBytes k.ivFixed v

/-- Write several pieces in order; the first failure's status word. -/
def writeAll (s : State) (th : ThreadId) : List (Nat × List Byte) → State × Word
  | [] => (s, 0)
  | (va, bs) :: r =>
    let (s, w) := writeRange s th va bs
    if w = 0 then writeAll s th r else (s, w)

/-- The first, second and third input of a request. -/
def in0 (ins : List (List Byte)) : List Byte := (ins[0]?).getD []
def in1 (ins : List (List Byte)) : List Byte := (ins[1]?).getD []
def in2 (ins : List (List Byte)) : List Byte := (ins[2]?).getD []

/-- ENCRYPT in the unit (R271). -/
def runEncrypt (s : State) (th : ThreadId) (b : List Byte) (ins : List (List Byte)) : State × Word :=
  let o := opBlock b
  match slotUse s th o.slot .encrypt (modeAlg o.mode) with
  | .error e => (s, cpWord e 0)
  | .ok k =>
    if o.mode = 0 ∧ o.len % blockLen k.alg ≠ 0 then (s, cpLength)
    else if o.mode = 0 ∧ o.ivLen ≠ blockLen k.alg then (s, cpBadFormat)
    else match takeValue k (o.mode == 1 || o.mode == 2) with
      | none => (s, cpWord 0x0202 0)
      | some (k', v) =>
        let iv := builtIv k o.mode v
        let data := in0 ins
        let aad := in1 ins
        let out := match o.mode with
          | 0 => cbcEnc k.alg k.key iv (blocksOf (blockLen k.alg) data)
          | 1 => ctrMode k.alg k.key iv data
          | 2 => let ct := gcmData k.alg k.key iv data; ct ++ (gcmTag k.alg k.key iv aad ct).take o.tagLen
          | _ => ccmData k.alg k.key iv data ++ ccmTag k.alg k.key iv aad data o.tagLen
        let s := setSlot s th o.slot { k' with cbcs := if o.mode = 0 ∧ !k.stored then k.cbcs + 1 else k.cbcs }
        writeAll s th [(o.iv, iv), (o.dst, out)]

/-- DECRYPT in the unit: GCM and CCM write nothing before the tag has verified (R277). -/
def runDecrypt (s : State) (th : ThreadId) (b : List Byte) (ins : List (List Byte)) : State × Word :=
  let o := opBlock b
  match slotUse s th o.slot .decrypt (modeAlg o.mode) with
  | .error e => (s, cpWord e 0)
  | .ok k =>
    if o.mode = 0 ∧ o.len % blockLen k.alg ≠ 0 then (s, cpLength)
    else if o.mode = 0 ∧ o.ivLen ≠ blockLen k.alg then (s, cpBadFormat)
    else
      let data := (in0 ins).take o.len
      let tag := (in0 ins).drop o.len
      let aad := in1 ins
      let iv := in2 ins
      match o.mode with
      | 0 => writeAll s th [(o.dst, cbcDec k.alg k.key iv (blocksOf (blockLen k.alg) data))]
      | 1 => writeAll s th [(o.dst, ctrMode k.alg k.key iv data)]
      | 2 =>
        if (gcmTag k.alg k.key iv aad data).take o.tagLen = tag then writeAll s th [(o.dst, gcmData k.alg k.key iv data)]
        else (s, cpWord 0x0301 0)
      | _ =>
        let pt := ccmData k.alg k.key iv data
        if ccmTag k.alg k.key iv aad pt o.tagLen = tag then writeAll s th [(o.dst, pt)] else (s, cpWord 0x0301 0)

/-- The MAC of a request's data under a slot key (R285). -/
def slotMac (k : KeySlot) (mode opt : Nat) (data : List Byte) : List Byte :=
  if mode = 0 then cmac k.alg k.key data else mac3 k.key (opt % 2 == 1) data

/-- Algorithms of the two MACs (R259). -/
def macAlg (mode alg : Nat) : Bool := if mode = 0 then isAes alg || alg == 4 else alg == 5

/-- MAC_GENERATE in the unit (R250, R285). -/
def runMacGen (s : State) (th : ThreadId) (b : List Byte) (ins : List (List Byte)) : State × Word :=
  let o := opBlock b
  match slotUse s th o.slot (if o.mode = 0 then .cmacGen else .mac3Gen) (macAlg o.mode) with
  | .error e => (s, cpWord e 0)
  | .ok k =>
    match takeValue k false with
    | none => (s, cpWord 0x0202 0)
    | some (k', _) => writeAll (setSlot s th o.slot k') th [(o.dst, (slotMac k o.mode o.opt (in0 ins)).take o.tagLen)]

/-- MAC_VERIFY in the unit: OK or MAC_FAIL, and nothing is written (R277, R285). -/
def runMacVer (s : State) (th : ThreadId) (b : List Byte) (ins : List (List Byte)) : State × Word :=
  let o := opBlock b
  match slotUse s th o.slot (if o.mode = 0 then .cmacVer else .mac3Ver) (macAlg o.mode) with
  | .error e => (s, cpWord e 0)
  | .ok k => (s, if (slotMac k o.mode o.opt (in0 ins)).take o.tagLen = in1 ins then 0 else cpWord 0x0302 0)

/-- PIN_TRANSLATE in the unit (R250, R281 to R283). -/
def runPin (s : State) (th : ThreadId) (b : List Byte) (ins : List (List Byte)) : State × Word :=
  let o := opBlock b
  let algOk (alg : Nat) : Bool := isAes alg || isTdea alg
  match slotUse s th o.slot .pinSource algOk with
  | .error e => (s, cpWord e 0)
  | .ok ki =>
    match slotUse s th o.slot2 .pinTarget (fun alg => if o.opt = 4 then isAes alg else isTdea alg) with
    | .error e => (s, cpWord e 0)
    | .ok ko =>
      if !(strongEnough ko.alg ki.alg) then (s, cpWord 0x0202 0)
      else match pinTranslate ki.alg ki.key ko.alg ko.key (in0 ins) (in1 ins) o.opt s.freeCtr with
        | .error (st, r) => (s, cpWord st r)
        | .ok out =>
          match takeValue ko false with
          | none => (s, cpWord 0x0202 0)
          | some (ko', _) => writeAll (setSlot { s with freeCtr := s.freeCtr + 1 } th o.slot2 ko') th [(o.dst, out)]

/-- EMV_VERIFY in the unit (R286). -/
def runEmv (s : State) (th : ThreadId) (b : List Byte) (ins : List (List Byte)) : State × Word :=
  let o := opBlock b
  match slotUse s th o.slot .emv (fun alg => isAes alg || alg == 5) with
  | .error e => (s, cpWord e 0)
  | .ok k =>
    let session := Config.emvSession (Config.emvMaster k.key (in1 ins) (if o.psn = 255 then 0 else o.psn)) o.atc
    let mac := if isAes k.alg then (cmac k.alg session (in0 ins)).take 8 else mac3 session true (in0 ins)
    (s, if mac = o.crypt then 0 else cpWord 0x0302 0)

/-- What CP1 does with a request in service. -/
def runCp1 (s : State) (th : ThreadId) (cfn : Nat) (b : List Byte) (ins : List (List Byte)) : State × Word :=
  match cfn with
  | 0x10 => runEncrypt s th b ins
  | 0x11 => runDecrypt s th b ins
  | 0x12 => runMacGen s th b ins
  | 0x13 => runMacVer s th b ins
  | 0x14 => runPin s th b ins
  | _ => runEmv s th b ins

/-! CP2 (R270). -/

/-- The request block of CP2: reserved fields, addresses and the length. -/
def hashPrep (hmac : Bool) (b : List Byte) : Except Word (List DataRange) :=
  let fl := fieldLe b 1 1
  let len := fieldLe b 4 4
  if (if hmac then 3 else 0) < fieldLe b 0 1 ∨ 3 < fl ∨ !(zeroAt b 2 2) ∨ !(farOk b 8) ∨ !(farOk b 16) ∨ !(farOk b 24)
      ∨ fieldLe b 16 8 % 8 ≠ 0 ∨ (!(bitOf fl 1) && !(zeroAt b 24 8)) then .error cpBadFormat
  else if 65536 < len then .error cpLength
  else .ok ([{ va := fieldLe b 8 8, len := len }, { va := fieldLe b 16 8, len := if bitOf fl 0 then 0 else 128 },
             { write := true, va := fieldLe b 16 8, len := 128 }] ++
            (if bitOf fl 1 then [{ write := true, va := fieldLe b 24 8, len := 32 }] else []))

/-- End a request of CP2: the digest at FINAL, else a new state area, whose bytes are a free value (log entry 15). -/
def hashEnd (s : State) (th : ThreadId) (b : List Byte) (x : HashArea) (digest : List Byte) : State × Word :=
  if bitOf (fieldLe b 1 1) 1 then writeAll s th [(fieldLe b 24 8, digest)]
  else
    let area := randomBytes s.freeCtr 128
    let s := { s with freeCtr := s.freeCtr + 1, hashAreas := { x with area := area } :: s.hashAreas.filter (fun y => y.area != area) }
    writeAll s th [(fieldLe b 16 8, area)]

/-- SM3 in the unit: the data so far with the new data; a state area that the unit did not write gives a free digest. -/
def runSm3 (s : State) (th : ThreadId) (b : List Byte) (ins : List (List Byte)) : State × Word :=
  let start := bitOf (fieldLe b 1 1) 0
  match s.hashAreas.find? (fun y => !y.hmac && y.area == in1 ins), start with
  | _, true => hashEnd s th b { area := [], msg := in0 ins } (toBe 32 (Config.sm3 (in0 ins)).toNat)
  | some y, false => hashEnd s th b { y with msg := y.msg ++ in0 ins } (toBe 32 (Config.sm3 (y.msg ++ in0 ins)).toNat)
  | none, false => hashEnd s th b { area := [], msg := in1 ins ++ in0 ins } (toBe 32 (Config.sm3From (in1 ins) (in0 ins)).toNat)

/-- HMAC_SM3 in the unit: the state area must be sealed by this pier's present key (R270). -/
def runHmac (s : State) (th : ThreadId) (b : List Byte) (ins : List (List Byte)) : State × Word :=
  match slotUse s th (fieldLe b 0 1 % 4) .hmac (fun alg => alg == 7 || alg == 8) with
  | .error e => (s, cpWord e 0)
  | .ok k =>
    let p := th.pier.val
    let gen := (pierOf s p).sealGen
    let start := bitOf (fieldLe b 1 1) 0
    match s.hashAreas.find? (fun y => y.hmac && y.pier == p && y.gen == gen && y.area == in1 ins), start with
    | _, true => hashEnd s th b { area := [], hmac := true, pier := p, gen := gen, key := k.key, msg := in0 ins } (hmacBytes k.key (in0 ins))
    | some y, false => hashEnd s th b { y with msg := y.msg ++ in0 ins } (hmacBytes y.key (y.msg ++ in0 ins))
    | none, false => (s, cpWord 0x0202 0x10)

/-! The submits. -/

/-- KEY_DERIVE (R236, R261, R263). -/
def execKeyDerive (th : ThreadId) (cd ca : RegField) (s : State) : Out :=
  .next (cpSubmit th 1 cd ca 112 0x00 false false false (fun _ b => derivePrep b) s)
/-- KEY_DUKPT (R238, R261, R263). -/
def execKeyDukpt (th : ThreadId) (cd ca : RegField) (s : State) : Out :=
  .next (cpSubmit th 1 cd ca 40 0x01 false false false (fun _ b => dukptPrep b) s)
/-- KEY_LOAD (R250, R261, R263). -/
def execKeyLoad (th : ThreadId) (cd ca : RegField) (s : State) : Out :=
  .next (cpSubmit th 1 cd ca 8 0x02 false false false (fun _ b => loadPrep b) s)
/-- KEY_UNWRAP (R261, R263, R265). -/
def execKeyUnwrap (th : ThreadId) (cd ca : RegField) (s : State) : Out :=
  .next (cpSubmit th 1 cd ca 16 0x03 false false false (fun _ b => unwrapPrep b) s)
/-- KEY_WRAP (R261, R263, R266). -/
def execKeyWrap (th : ThreadId) (cd ca : RegField) (s : State) : Out :=
  .next (cpSubmit th 1 cd ca 16 0x04 false false false (fun _ b => wrapPrep b) s)
/-- ENCRYPT (R261, R271). -/
def execEncrypt (th : ThreadId) (cd ca : RegField) (s : State) : Out :=
  .next (cpSubmit th 1 cd ca 64 0x10 false false true (fun _ b => encryptPrep b) s)
/-- DECRYPT (R261, R277). -/
def execDecrypt (th : ThreadId) (cd ca : RegField) (s : State) : Out :=
  .next (cpSubmit th 1 cd ca 64 0x11 false false true (fun _ b => decryptPrep b) s)
/-- MAC_GENERATE of CP1 (R261, R285). -/
def execCp1MacGenerate (th : ThreadId) (cd ca : RegField) (s : State) : Out :=
  .next (cpSubmit th 1 cd ca 64 0x12 false false true (fun _ b => macPrep true b) s)
/-- MAC_VERIFY of CP1 (R261, R285). -/
def execCp1MacVerify (th : ThreadId) (cd ca : RegField) (s : State) : Out :=
  .next (cpSubmit th 1 cd ca 64 0x13 false false true (fun _ b => macPrep false b) s)
/-- PIN_TRANSLATE of CP1 (R261, R283). -/
def execCp1PinTranslate (th : ThreadId) (cd ca : RegField) (s : State) : Out :=
  .next (cpSubmit th 1 cd ca 64 0x14 false false true (fun _ b => pinPrep b) s)
/-- EMV_VERIFY (R261, R286). -/
def execEmvVerify (th : ThreadId) (cd ca : RegField) (s : State) : Out :=
  .next (cpSubmit th 1 cd ca 64 0x15 false false true (fun _ b => emvPrep b) s)

/-- An instruction of CP1 that is no submit: rCA[1:0] names a slot. -/
def slotInstr (th : ThreadId) (cd ca : RegField) (f : State → Nat → State × Word) (s : State) : State :=
  issue th (fun s =>
    let (s, v) := f s ((rd (thr s th).arch ca).toNat % 4)
    finish s th (wr (thr s th).arch cd v)) s

/-- SLOT_CLEAR (R261). -/
def execSlotClear (th : ThreadId) (cd ca : RegField) (s : State) : Out :=
  .next (slotInstr th cd ca (fun s n => (setSlot s th n {}, 0)) s)

/-- The mode code of SLOT_INFO for an ASCII mode (R261). -/
def modeCode (m : Nat) : Nat := ([chB, chC, chD, chE, chG, chS, chV, chX].findIdx? (· == m)).getD 0

/-- SLOT_INFO (R261). -/
def execSlotInfo (th : ThreadId) (cd ca : RegField) (s : State) : Out :=
  .next (slotInstr th cd ca (fun s n =>
    let k := slotOf s th n
    (s, if k.full then BitVec.ofNat 24 (k.usage + k.alg * 2 ^ 16 + modeCode k.mode * 2 ^ 20) else 0)) s)

/-- SM3 of CP2 (R270). -/
def execSm3 (th : ThreadId) (cd ca : RegField) (s : State) : Out :=
  .next (cpSubmit th 2 cd ca 32 0x00 false false true (fun _ b => hashPrep false b) s)
/-- HMAC_SM3 of CP2 (R270). -/
def execHmacSm3 (th : ThreadId) (cd ca : RegField) (s : State) : Out :=
  .next (cpSubmit th 2 cd ca 32 0x01 false false true (fun _ b => hashPrep true b) s)

end Sys2Proof.Machine
end

