-- ==== Sys2Proof/Machine/KeyServe.lean ====
section
/-! DEFINITION. What the Strongroom does with a request: key blocks, derivations, loads, wraps, and the keys of engine jobs
(09, R262 to R266). -/

namespace Sys2Proof.Machine

/-! Key attributes and key blocks (R243 to R245, R511). -/

/-- Usage, algorithm, mode and curve form a row of R244, or the SM2 pair of R293; a public key takes S0 with V or D0 with E. -/
def attrRowOk (a : KAttr) (pub : Bool) : Bool :=
  let curveOk := if a.alg = chE then 1 ≤ a.curve && a.curve ≤ 3 else a.curve == 0
  let bde := a.mode == chB || a.mode == chD || a.mode == chE
  let cgv := a.mode == chC || a.mode == chG || a.mode == chV
  let sym := if a.usage = usB0 ∨ a.usage = us91 then a.alg == chA && a.mode == chX
    else if a.usage = usK0 ∨ a.usage = usK1 ∨ a.usage = usP0 then (a.alg == chA || a.alg == chT) && bde
    else if a.usage = usM3 then a.alg == chT && cgv
    else if a.usage = usM6 then a.alg == chA && cgv
    else if a.usage = usM7 then a.alg == chH && (a.mode == chC || a.mode == chG)
    else if a.usage = usD0 then ((a.alg == chA || a.alg == ch4) && bde) || (a.alg == chE && a.curve == 1 && (a.mode == chB || a.mode == chD))
    else if a.usage = usE0 then (a.alg == chA || a.alg == chT) && a.mode == chX
    else a.usage == usS0 && (a.alg == chE || a.alg == chR) && a.mode == chS
  let asym := (a.usage == usS0 && a.mode == chV && (a.alg == chE || a.alg == chR)) || (a.usage == usD0 && a.mode == chE && a.alg == chE && a.curve == 1)
  curveOk && (if pub then asym else sym)

/-- KEY_BITS match the algorithm (R469, R511). -/
def attrBitsOk (a : KAttr) : Bool :=
  if a.alg = chA then [128, 192, 256].contains a.bits
  else if a.alg = ch4 then a.bits == 128
  else if a.alg = chT then a.bits == 128 || a.bits == 192
  else if a.alg = chH then a.bits == 128 || a.bits == 256
  else if a.alg = chR then [2048, 3072, 4096].contains a.bits
  else a.bits == 0

/-- CAP_LOG2 and MONOTONIC fit the usage (R240, R251). -/
def attrCapOk (a : KAttr) : Bool :=
  (a.capLog2 == 0 || (16 ≤ a.capLog2 && a.capLog2 ≤ (if a.usage = usD0 then 32 else 64))) && (!a.monotonic || a.usage == usB0)

/-- A decimal number in ASCII, where every character is a digit. -/
def decimalOf (bs : List Byte) : Option Nat :=
  if bs.all (fun b => 0x30 ≤ b.toNat && b.toNat ≤ 0x39) then some (bs.foldl (fun n b => n * 10 + (b.toNat - 0x30)) 0) else none

/-- A hexadecimal digit in ASCII. -/
def hexDigit (b : Byte) : Option Nat :=
  let v := b.toNat
  if 0x30 ≤ v ∧ v ≤ 0x39 then some (v - 0x30) else if 0x41 ≤ v ∧ v ≤ 0x46 then some (v - 0x37)
  else if 0x61 ≤ v ∧ v ≤ 0x66 then some (v - 0x57) else none

/-- A hexadecimal number in ASCII. -/
def hexOf : List Byte → Option Nat
  | [] => some 0
  | bs => bs.foldl (fun acc b => match acc, hexDigit b with
    | some n, some d => some (n * 16 + d)
    | _, _ => none) (some 0)

/-- Bytes as upper-case hexadecimal ASCII. -/
def hexText (bs : List Byte) : List Byte :=
  (nibbles bs).map (fun n => BitVec.ofNat 8 (if n < 10 then 0x30 + n else 0x37 + n))

/-- Two characters as a number of R244's kind. -/
def us2 (bs : List Byte) (off : Nat) : Nat := fieldLe bs off 2

/-- The optional blocks KS, IK, KC, KP, PB and TS (R243 check 7). -/
def optIds : List Nat := [us 0x4B 0x53, us 0x49 0x4B, us 0x4B 0x43, us 0x4B 0x50, us 0x50 0x42, us 0x54 0x53]

/-- Split n optional blocks off a text: identifier and data of each, or none where one is malformed. -/
def optBlocks : Nat → List Byte → Option (List (Nat × List Byte))
  | 0, _ => some []
  | n + 1, bs =>
    match hexOf (slice bs 2 2) with
    | none => none
    | some l =>
      if l < 4 ∨ bs.length < l ∨ !(optIds.contains (us2 bs 0)) then none
      else match optBlocks n (bs.drop l) with
        | none => none
        | some r => some ((us2 bs 0, (bs.take l).drop 4) :: r)

/-- Attributes that a key block's header and key give. -/
def blockAttr (bs key : List Byte) : KAttr :=
  let alg := fieldLe bs 7 1
  let asym := Config.asymKind key
  { usage := us2 bs 5, alg := alg, mode := fieldLe bs 8 1, exp := fieldLe bs 11 1,
    curve := if alg = chE then asym.1 else 0,
    bits := if alg = chR then asym.2 else if alg = chE then 0 else key.length * 8 }

/-- The checks of R243 from the length to the strength, in order: attributes, key and key version number, or a reason.
`prot` answers the protection key for a version ID, or none where check 4 fails. -/
def openBlock (bs : List Byte) (prot : Nat → Option Key) : Except Nat (KAttr × List Byte × Nat) :=
  let ver := fieldLe bs 0 1
  if decimalOf (slice bs 1 4) ≠ some bs.length ∨ bs.length < 16 ∨ bs.any (fun b => b.toNat < 0x20 || 0x7E < b.toNat) then .error 1
  else if ver ≠ chD ∧ ver ≠ chB then .error 2
  else match prot ver with
    | none => .error 3
    | some p =>
      match Config.openKeyBlock p.value bs with
      | none => .error 4
      | some key =>
        let a := blockAttr bs key
        let expOk := a.exp = chE ∨ a.exp = chN ∨ a.exp = chS
        if !(attrRowOk a false) ∨ !expOk ∨ fieldLe bs 9 1 = 0x63 ∨ slice bs 14 2 ≠ [0x30, 0x30] ∨ (ver = chB ∧ a.alg ≠ chT) then .error 5
        else match decimalOf (slice bs 12 2) with
          | none => .error 5
          | some n =>
            match optBlocks n (bs.drop 16) with
            | none => .error 6
            | some opts =>
              let kcBad := opts.any (fun o => o.1 == us 0x4B 0x43 &&
                (let want := hexText (if isTdea (algCode a) then (kcvOf (algCode a) key).take 3 else kcvOf (algCode a) key)
                 o.2.drop 2 != want))
              if kcBad then .error 6
              else if !(attrBitsOk a) ∨ !(strongEnough (algCode p.attr) (algCode a)) then .error 7
              else .ok (a, key, us2 bs 9)

/-- The 16 header characters of a block the Harbour writes, without its length, and its TS and KC optional blocks (R245). -/
def blockText (s : State) (ver : Nat) (usage alg mode version exp : Nat) (code : Nat) (key : List Byte) : List Byte :=
  let kc := hexText (if isTdea code then (kcvOf code key).take 3 else kcvOf code key)
  let ts := Config.utcText (harbourNs s)
  toLe 1 ver ++ toLe 2 usage ++ toLe 1 alg ++ toLe 1 mode ++ toLe 2 version ++ toLe 1 exp ++ [0x30, 0x32, 0x30, 0x30]
    ++ [0x54, 0x53] ++ hexText (toBe 1 (ts.length + 4)) ++ ts ++ [0x4B, 0x43] ++ hexText (toBe 1 (kc.length + 6)) ++ [0x30, 0x31] ++ kc

/-! Requests of CP1. -/

/-- How a request is answered. -/
inductive Served where
  | fail (w : Word)
  | wait (w : SWait)
  | ok (r : SRun)
  deriving DecidableEq, Repr

/-- A use that draws n values of a checked key: it waits for a cold load or a reservation, or goes on with the first value and
the count (R230, R253). -/
def withDraw (s : State) (h : Nat) (k : Key) (n : Nat) (go : State → Nat → Nat → State × Served) : State × Served :=
  if !k.resident then (s, .wait (.load h))
  else if n = 0 then go s k.counter 0
  else match draw s h n with
    | (s, none) => (s, .wait (.journal h))
    | (s, some (v, m)) => go s v m

/-- KEY_DERIVE (R236, R237, R248). -/
def serveDerive (s : State) (r : SReq) (t : Nat) (b : List Byte) : State × Served :=
  let h := fieldLe b 8 4
  match checkUse s t h .derive true with
  | .error e => (s, .fail (cpWord e 0))
  | .ok k =>
    let prf := fieldLe b 1 1
    let usage := us2 b 2
    let a := fieldLe b 4 1
    let l := match fieldLe b 5 1 with
      | 0 => 128
      | 1 => 192
      | _ => 256
    let label := slice b 16 (fieldLe b 6 1)
    let context := slice b 48 (fieldLe b 7 1)
    let ok := prf ≤ 1 && (usage == usD0 || usage == usK0 || usage == usM6) && (a == 1 || a == 2) && fieldLe b 5 1 ≤ 2
      && (a == 1 || l == 128) && (usage != usM6 || l != 192) && 1 ≤ fieldLe b 6 1 && fieldLe b 6 1 ≤ 32 && fieldLe b 7 1 ≤ 64
      && label.all (· != 0) && label.take 4 != [0x4B, 0x4D, 0x42, 0x20]
    if !ok then (s, .fail (cpWord 0x0202 0))
    else withDraw s h k 1 (fun s v _ =>
      let key := kdf prf (algCode k.attr) k.value (kdfTail label t (slice b 2 2) a context l) l
      let alg := if a = 2 then 4 else l / 64 - 1
      (s, .ok { req := r, uses := [h], slots := [(fieldLe b 0 1, { full := true, key := key, usage := usage, alg := alg, mode := chB, ivFixed := ivFixedOf s k.attr, v := v })] }))

/-- Slot usage of a DUKPT key usage indicator and algorithm (R238). -/
def dukptUsage (ind alg : Nat) : Option Nat :=
  if 4 < alg then none
  else if ind = 0x1000 then some usP0
  else if ind = 0x2000 ∨ ind = 0x2001 ∨ ind = 0x2002 then some (if alg ≤ 1 then usM3 else usM6)
  else if ind = 0x3000 ∨ ind = 0x3001 ∨ ind = 0x3002 then some usD0
  else if ind = 0x0002 then some usK0 else none

/-- Bits and SLOT_INFO code of a working-key algorithm. -/
def dukptBits (alg : Nat) : Nat := if alg = 0 ∨ alg = 2 then 128 else if alg = 1 ∨ alg = 3 then 192 else 256
def dukptCode (alg : Nat) : Nat := if alg = 0 then 5 else if alg = 1 then 6 else alg - 1

/-- One-bits of a number of 32 bits. -/
def popcount32 (n : Nat) : Nat := (List.range 32).foldl (fun c i => c + bit (bitOf n i)) 0

/-- The monotonic rule of R240: a request may pass. -/
def monoOk (s : State) (h kid c seq : Nat) : Bool :=
  match s.sroom.mono.find? (fun m => m.handle == h && m.keyId == kid) with
  | none => true
  | some m => m.counter < c || (m.counter == c && m.seq == seq)

/-- Set the entry of R240; the entry updated least recently leaves a full table, and the Logbook says so (R241). -/
def monoSet (s : State) (h kid c seq : Nat) : State :=
  let rest := s.sroom.mono.filter (fun m => !(m.handle == h && m.keyId == kid))
  let put (s : State) (l : List Mono) : State := { s with sroom := { s.sroom with mono := l ++ [{ handle := h, keyId := kid, counter := c, seq := seq }] } }
  match rest with
  | old :: r => if rest.length < 16777216 then put s rest else put (logIsland s 0x0602 0 islStrongroom (toLe 4 old.handle)) r
  | [] => put s []

/-- KEY_DUKPT (R238 to R241, R248). -/
def serveDukpt (s : State) (r : SReq) (t : Nat) (b : List Byte) : State × Served :=
  let h := fieldLe b 4 4
  match checkUse s t h .dukpt true with
  | .error e => (s, .fail (cpWord e 0))
  | .ok k =>
    let ksn := slice b 8 12
    let kid := beNat (ksn.take 8)
    let c := beNat (ksn.drop 8)
    let work := (List.range (fieldLe b 0 1)).map (fun i => (fieldLe b (24 + 4 * i) 2, fieldLe b (26 + 4 * i) 1, fieldLe b (27 + 4 * i) 1))
    if work.any (fun w => (dukptUsage w.1 w.2.1).isNone || decide (k.attr.bits < dukptBits w.2.1)) then (s, .fail (cpWord 0x0202 0))
    else if 16 < popcount32 c ∨ (k.attr.monotonic ∧ !(monoOk s h kid c r.seq)) then (s, .fail (cpWord 0x0206 0))
    else withDraw s h k 1 (fun s v _ =>
      let s := if k.attr.monotonic then monoSet s h kid c r.seq else s
      let slots := work.map (fun w =>
        let u := (dukptUsage w.1 w.2.1).getD 0
        (w.2.2, ({ full := true, key := Config.dukptKey k.value ksn w.1 w.2.1, usage := u, alg := dukptCode w.2.1, mode := if u = usM3 ∨ u = usM6 then chC else chB, ivFixed := ivFixedOf s k.attr, v := v } : KeySlot)))
      (s, .ok { req := r, uses := [h], slots := slots }))

/-- KEY_LOAD (R250): keys of usage K1 and asymmetric keys are never placed in a slot (R244). -/
def serveLoad (s : State) (r : SReq) (t : Nat) (b : List Byte) : State × Served :=
  let h := fieldLe b 4 4
  let n := fieldLe b 1 1
  match tenantKey s t h with
  | none => (s, .fail (cpWord 0x0201 0))
  | some k =>
    if k.state = 3 then (s, .fail (cpWord 0x0204 0))
    else if k.attr.usage = usK1 ∨ algCode k.attr = 0 ∨ hIndex h = 0 then (s, .fail (cpWord 0x0202 0))
    else if n ≠ 0 ∧ k.state = 1 then (s, .fail (cpWord 0x0203 0))
    else if n ≠ 0 ∧ k.state = 2 then (s, .fail (cpWord 0x0204 0))
    else withDraw s h k n (fun s v m =>
      (s, .ok { req := r, uses := [h], slots := [(fieldLe b 0 1, { full := true, key := k.value, usage := k.attr.usage, alg := algCode k.attr, mode := k.attr.mode, ivFixed := ivFixedOf s k.attr, stored := true, v := v, left := m })] }))

/-- KEY_UNWRAP (R265). The value its key takes is that of the KEK's most recent draw. -/
def serveUnwrap (s : State) (r : SReq) (t : Nat) (b : List Byte) (text : List Byte) : State × Served :=
  let h := fieldLe b 4 4
  match tenantKey s t h with
  | none => (s, .fail (cpWord 0x0201 0))
  | some k =>
    if k.state = 3 then (s, .fail (cpWord 0x0204 0))
    else if !k.resident then (s, .wait (.load h))
    else
      let prot (ver : Nat) : Option Key :=
        if useOk .unwrap k.attr.usage k.attr.mode ∧ k.attr.alg = (if ver = chD then chA else chT) then some k else none
      match openBlock text prot with
      | .error e => (s, .fail (cpWord 0x0202 e))
      | .ok (a, key, _) =>
        if !([usD0, usM3, usM6, usP0].contains a.usage) ∨ algCode a = 0 then (s, .fail (cpWord 0x0202 5))
        else (s, .ok { req := r, uses := [h], slots := [(fieldLe b 0 1, { full := true, key := key, usage := a.usage, alg := algCode a, mode := a.mode, ivFixed := ivFixedOf s k.attr, v := k.counter - 1 })] })

/-- ASCII of the algorithm of a slot code. -/
def codeChar (c : Nat) : Nat := if isAes c then chA else if c = 4 then ch4 else if isTdea c then chT else chH

/-- KEY_WRAP (R266). -/
def serveWrap (s : State) (r : SReq) (th : ThreadId) (t : Nat) (b : List Byte) : State × Served :=
  let h := fieldLe b 4 4
  let x := slotOf s th (fieldLe b 0 1)
  if !x.full then (s, .fail (cpWord 0x0201 0))
  else if x.stored then (s, .fail (cpWord 0x0202 0))
  else match checkUse s t h .wrap true with
    | .error e => (s, .fail (cpWord e 0))
    | .ok k =>
      if !(strongEnough (algCode k.attr) x.alg) then (s, .fail (cpWord 0x0202 0))
      else if !k.resident then (s, .wait (.load h))
      else
        let ver := if isTdea (algCode k.attr) then chB else chD
        let text := Config.sealKeyBlock k.value (blockText s ver x.usage (codeChar x.alg) x.mode (us 0x30 0x30) chN x.alg x.key) x.key s.freeCtr
        if fieldLe b 2 2 < text.length then (s, .fail (cpWord 0x0403 0))
        else withDraw s h k 1 (fun s _ _ =>
          ({ s with freeCtr := s.freeCtr + 1 }, .ok { req := r, uses := [h], out := some (fieldLe b 8 8, text) }))

/-! Keys of engine jobs (R244, R248, R291 to R293). -/

/-- The keys a job uses, in order: handle, use, and whether it draws. -/
def jobKeys (j : Job) : List (Nat × KeyUse × Bool) :=
  match j.fn with
  | 0xF001 => [(j.keyA, if j.variant = 2 then .sm2Encrypt else .encrypt, j.variant != 2)]
  | 0xF002 => [(j.keyA, if j.variant = 2 then .sm2Decrypt else .decrypt, false)]
  | 0xF020 => [(j.keyA, .sign, true)]
  | 0xF021 => [(j.keyA, .verify, false)]
  | 0xF030 => if j.variant = 1 then [(j.keyA, .hmac, false)] else []
  | 0xF040 => [(j.keyA, .pinSource, false), (j.keyB, .pinTarget, true)]
  | 0xF041 => [(j.keyA, if j.variant = 0 then .cmacGen else .mac3Gen, true)]
  | 0xF042 => [(j.keyA, if j.variant = 0 then .cmacVer else .mac3Ver, false)]
  | _ => []

/-- A signature key fits its VARIANT (R292). -/
def variantFits (v : Nat) (a : KAttr) : Bool := if v = 3 then a.alg == chR else a.alg == chE && a.curve == v + 1

/-- The key checks of a job, with draws or without (R510, R515 step 3): the keys, or a disposition. -/
def jobCheck (s : State) (j : Job) (drawing : Bool) : Except Nat (List (Nat × Key)) :=
  let go := (jobKeys j).foldl (fun (acc : Except Nat (List (Nat × Key))) u => match acc with
    | .error e => .error e
    | .ok l => match checkUse s j.tenant u.1 u.2.1 (drawing && u.2.2) with
      | .error e => .error e
      | .ok k => .ok (l ++ [(u.1, k)])) (.ok [])
  match go with
  | .error e => .error e
  | .ok l =>
    let bad := match j.fn, l with
      | 0xF020, [(_, k)] => !(variantFits j.variant k.attr)
      | 0xF021, [(_, k)] => !(variantFits j.variant k.attr)
      | 0xF040, [(_, a), (_, b)] => (if j.variant = 4 then !(isAes (algCode b.attr)) else !(isTdea (algCode b.attr))) || !(strongEnough (algCode b.attr) (algCode a.attr))
      | _, _ => false
    if bad then .error 0x0202 else .ok l

/-- Serve the keys of a job: the draw of R248, and its keys. -/
def serveJob (s : State) (r : SReq) (j : Job) : State × Served :=
  match jobCheck s j true with
  | .error e => (s, .fail (cpWord e 0))
  | .ok l =>
    match l.find? (fun e => !e.2.resident) with
    | some e => (s, .wait (.load e.1))
    | none =>
      let run (v : Nat) (iv : Nat) : SRun := { req := r, uses := l.map (·.1), kA := ((l[0]?).map (·.2.value)).getD [], kB := ((l[1]?).map (·.2.value)).getD [], v := v, ivFixed := iv }
      match (jobKeys j).find? (·.2.2) with
      | none => (s, .ok (run 0 0))
      | some u =>
        match draw s u.1 1 with
        | (s, none) => (s, .wait (.journal u.1))
        | (s, some (v, _)) =>
          let iv := ((l.find? (fun e => e.1 == u.1)).map (fun e => ivFixedOf s e.2.attr)).getD 0
          (s, .ok (run v iv))

/-! STRONGROOM_REQUEST, cold loads and the journal batch. -/

/-- The Strongroom serves requests: its island is ON and out of reset. -/
def sroomUp (s : State) : Bool := let i := islandOf s islStrongroom; decide (i.state = 3) && !i.reset && !i.out && decide (s.dev.st ≠ .halted)

/-- A request is still wanted: its thread's request is outstanding under the same tags, or its job waits for it (R263). -/
def reqCurrent (s : State) (r : SReq) : Bool :=
  match r.kind with
  | .cp1 th _ _ _ =>
    decide ((thr s th).seq = r.seq) && ((consOf s r.seq).map (·.restarts)).getD 0 == r.restarts && (match (thr s th).cp.get (1 : Fin 3) with
      | .queued _ _ _ _ => true
      | _ => false)
  | .job id => match mget s.jobs id with
    | some j => decide (j.stage = .key) && (!j.cancelled || j.started)
    | none => false

/-- Serve a request. -/
def serve (s : State) (r : SReq) : State × Served :=
  match r.kind with
  | .cp1 th cfn b ins =>
    let t := tenantOfThread s th
    match cfn with
    | 0x00 => serveDerive s r t b
    | 0x01 => serveDukpt s r t b
    | 0x02 => serveLoad s r t b
    | 0x03 => serveUnwrap s r t b (in0 ins)
    | _ => serveWrap s r th t b
  | .job id => match mget s.jobs id with
    | some j => serveJob s r j
    | none => (s, .fail 0)

/-- An engine job ends with a status; its end waits for BUILTIN_JOB_END or JOB_POSTED. -/
def jobEnd (s : State) (id status resultLen value : Nat) : State :=
  { s with jobs := mmod s.jobs id (fun j => { j with stage := .done, started := true, finished := true, status := status, resultLen := resultLen, value := value }) }

/-- Answer a request with a refusal (R112, R258). -/
def refuseReq (s : State) (r : SReq) (w : Word) : State :=
  match r.kind with
  | .cp1 th _ _ _ => cpPost s th 1 w
  | .job id => jobEnd s id (w.toNat % 65536) 0 0

/-- STRONGROOM_REQUEST: a free engine of the 64 takes the request that arrived first and runs it whole (R222); one that waits for
a cold load or a reservation is set aside, and others go on (R253). A request no longer wanted is dropped. -/
def execStrongroomRequest (s : State) : Out :=
  .next (
    match s.sroom.queue with
    | [] => s
    | r :: rest =>
      if !(sroomUp s) ∨ 64 ≤ s.sroom.runs.length then s
      else
        let s := { s with sroom := { s.sroom with queue := rest } }
        if !(reqCurrent s r) then reapKeys s
        else match serve s r with
          | (s, .fail w) => reapKeys (refuseReq s r w)
          | (s, .wait w) => { s with sroom := { s.sroom with parked := s.sroom.parked ++ [{ r with wait := w }] } }
          | (s, .ok x) => { s with sroom := { s.sroom with runs := mset s.sroom.runs s.sroom.nextRun x, nextRun := s.sroom.nextRun + 1 } })

/-- Parked requests that wait for something return to the head of the queue in their order. -/
def unparkReqs (s : State) (w : SWait) : State :=
  let x := s.sroom
  { s with sroom := { x with queue := (x.parked.filter (fun r => r.wait == w)).map (fun r => { r with wait := .none }) ++ x.queue,
                             parked := x.parked.filter (fun r => r.wait != w) } }

/-- KEY_COLD_LOAD: the store record of a key that a request waits for is read and checked (R230). A record that does not match
refuses the requests with KEY_LOAD_FAILED, and the Logbook says so. -/
def execKeyColdLoad (handle : BitVec 32) (authentic : Bool) (s : State) : Out :=
  .next (
    let h := handle.toNat
    let mine := s.sroom.parked.filter (fun r => r.wait == .load h)
    if mine.isEmpty ∨ !(sroomUp s) then s
    else if authentic && s.sroom.base.isSome then unparkReqs (modKey s h (fun k => { k with resident := true })) (.load h)
    else
      let s := { s with sroom := { s.sroom with parked := s.sroom.parked.filter (fun r => r.wait != .load h) } }
      let s := logAdd s 0x0601 2 islStrongroom 0xFFFF (if hMgr h then 0xFFFF else hTenant h) 0 (toLe 4 h ++ [0])
      mine.foldl (fun s r => if reqCurrent s r then refuseReq s r (cpWord 0x0207 0) else s) s)

/-- JOURNAL_BATCH_CLOSE: at 128 records, or 200 µs after the first; the batch is programmed as one page (R228). -/
def execJournalBatchClose (s : State) : Out :=
  .next (
    let x := s.sroom
    if sroomUp s ∧ !x.openRecs.isEmpty ∧ (128 ≤ x.openRecs.length ∨ x.openAt + 200000 ≤ nowNs s) then
      { s with sroom := { x with openRecs := x.openRecs.drop 128, openAt := nowNs s, pages := x.pages ++ [x.openRecs.take 128] } }
    else s)

/-- COMPONENT_SEQUENCE_TIMEOUT: 600 s after the first component (R247). -/
def execComponentSequenceTimeout (s : State) : Out :=
  .next (
    match s.sroom.comps with
    | none => s
    | some c => if c.since + 600000000000 ≤ nowNs s then { s with sroom := { s.sroom with comps := none } } else s)

/-- KEY_STORE_WRITE_CONFIRMED: the flushing read behind a key store write ends (R76, R227, R401): confirmed; with an error, the
write goes again through the other PF0; without a translation, once through the other PF0, and then the Harbour halts. -/
def execKeyStoreWriteConfirmed (handle : BitVec 32) (r : ReadResult) (s : State) : Out :=
  .next (
    let h := handle.toNat
    match mget s.sroom.keys h with
    | none => s
    | some k =>
      match k.store with
      | none => s
      | some w =>
        if !(pf0Ok s w.port) then s
        else match r with
          | .ok _ => destroyDone (settleKey (setKey s h { k with store := none }) h)
          | .error => setKey s h { k with store := some { w with port := if pf0Ok s w.port.other then w.port.other else w.port } }
          | .noTranslation =>
            if w.xlatRetry then
              haltHarbour (logIsland s 0x0505 3 (islPort w.port) ([1] ++ toLe 1 w.port.num ++ toLe 8 (s.sroom.base.getD 0))) 0x0505
            else setKey s h { k with store := some { port := w.port.other, xlatRetry := true } })

end Sys2Proof.Machine
end

