-- ==== Sys2Proof/Machine/EngineOps.lean ====
section
/-! DEFINITION. Engine jobs: their checks, keys, engines and ends (R58, R115, R116, R274 to R280, R288 to R293, R323, R324, R514 to
R516). -/

namespace Sys2Proof.Machine

/-- The kind of engine a job runs on. -/
inductive EngineKind where
  | lane | derrick | stowage | other
  deriving DecidableEq, Repr

/-- The engine of a built-in's operation (R59, R259, R288, R293). -/
def engineOf (fn v : Nat) : EngineKind :=
  match fn with
  | 0xF001 | 0xF002 => if v = 2 then .derrick else .lane
  | 0xF020 | 0xF021 => .derrick
  | 0xF010 | 0xF011 => .stowage
  | _ => .other

/-- An engine's island is ON, out of reset and in service (R411, R413). -/
def unitUp (s : State) (n : Nat) : Bool := let i := islandOf s n; decide (i.state = 3) && !i.reset && !i.out

/-- A job. -/
def jobOf (s : State) (id : Nat) : Option Job := mget s.jobs id
/-- Change a job, where it is held. -/
def modJob (s : State) (id : Nat) (f : Job → Job) : State := { s with jobs := mmod s.jobs id f }

/-- Jobs of a kind at a stage, with their numbers. -/
def jobsAt (s : State) (k : EngineKind) (st : JStage) : List (Nat × Job) :=
  s.jobs.filter (fun e => decide (engineOf e.2.fn e.2.variant = k) && decide (e.2.stage = st))

/-- The job of a list that has waited longest. -/
def firstJob (l : List (Nat × Job)) : Option (Nat × Job) :=
  l.foldl (fun acc e => match acc with
    | none => some e
    | some x => if e.2.since < x.2.since then some e else some x) none

/-- A stamp for the order of waits. -/
def stamp (s : State) : State × Nat := ({ s with nextJob := s.nextJob + 1 }, s.nextJob)

/-! Lane contexts and the assignment of engines (R274, R289, R324). -/

/-- A lane job holds a context (R274). -/
def holdsContext (j : Job) : Bool :=
  decide (engineOf j.fn j.variant = .lane) && !j.finished && (match j.stage with
    | .key | .ready | .running _ | .scuttle => true
    | _ => false)

/-- Contexts held, and held for a tenant. -/
def contextsUsed (s : State) : Nat := (s.jobs.filter (fun e => holdsContext e.2)).length
def contextsOf (s : State) (t : Nat) : Nat := (s.jobs.filter (fun e => holdsContext e.2 && e.2.tenant == t)).length

/-- Ask the Strongroom for the keys of a job (R222). -/
def askKeys (s : State) (id : Nat) : State :=
  match jobOf s id with
  | none => s
  | some j => { modJob s id (fun j => { j with stage := .key }) with
      sroom := { s.sroom with queue := s.sroom.queue ++ [{ kind := .job id, seq := j.seq }] } }

/-- A freed context goes to the earliest-arrived waiting job whose tenant holds fewer than 256 (R274). -/
def grantContexts : Nat → State → State
  | 0, s => s
  | n + 1, s =>
    if 4096 ≤ contextsUsed s then s
    else match firstJob ((jobsAt s .lane .context).filter (fun e => decide (contextsOf s e.2.tenant < 256))) with
      | none => s
      | some (id, _) => grantContexts n (askKeys s id)

/-- A unit of a kind runs no job. -/
def unitFree (s : State) (k : EngineKind) (u : Nat) : Bool := (jobsAt s k (.running u)).isEmpty

/-- Units of a kind that could take a job, lowest first. -/
def freeUnits (s : State) (k : EngineKind) : List Nat :=
  match k with
  | .lane => (List.range 16).filter (fun u => unitUp s (islLane u) && unitFree s k u)
  | .derrick => (List.range 32).filter (fun u => unitUp s (islDerrick u) && unitFree s k u)
  | .stowage => (List.range 8).filter (fun u => unitUp s (islStowage u) && unitFree s k u)
  | .other => []

/-- The job that has waited longest goes to the lowest free unit; closed tides that wait for a signature take Derricks first
(R289). -/
def assignOne (s : State) (k : EngineKind) : State :=
  match firstJob (jobsAt s k .ready) with
  | none => s
  | some (id, _) =>
    let us := freeUnits s k
    match (if k = .derrick then us.drop s.tides.closed.length else us) with
    | u :: _ => modJob s id (fun j => { j with stage := .running u, started := true })
    | [] => s

/-- Assign every free engine that a job waits for. -/
def assignUnits (s : State) : State :=
  let s := grantContexts 16 s
  let s := iter (fun s => assignOne s .lane) 16 s
  let s := iter (fun s => assignOne s .derrick) 32 s
  iter (fun s => assignOne s .stowage) 8 s

/-! What the jobs compute. -/

/-- Result length that the inputs and the key's attributes fix before any work (R515 step 4). -/
def neededLen (j : Job) (k : Option Key) : Option Nat :=
  let n := j.src.length
  match j.fn, j.variant with
  | 0xF001, 0 => some (n - j.auxLen + 28)
  | 0xF001, 1 => some (n + 16)
  | 0xF001, _ => some (n + 97)
  | 0xF002, 0 => some (n - j.auxLen - 28)
  | 0xF002, 1 => some (n - 16)
  | 0xF002, _ => some (n - 97)
  | 0xF020, 3 => some (((k.map (·.attr.bits)).getD 0) / 8)
  | 0xF020, 2 => some 96
  | 0xF020, _ => some 64
  | 0xF030, _ => some 32
  | 0xF040, v => some (if v = 4 then 16 else 8)
  | 0xF041, _ => some (j.aux % 32)
  | 0xF060, _ => some n
  | _, _ => none

/-- Steps 3 and 4 of R515 for a job with its source: a disposition with its RESULT_LEN, or none. -/
def jobRefusal (s : State) (j : Job) : Option (Nat × Nat) :=
  match jobCheck s j false with
  | .error e => some (e, 0)
  | .ok l =>
    match neededLen j ((l.head?).map (·.2)) with
    | some n => if j.dstLen < n then some (0x0403, n) else none
    | none => none

/-- Signature length of a VARIANT and public key (R291). -/
def sigLen (v : Nat) (a : KAttr) : Nat := if v = 3 then a.bits / 8 else if v = 2 then 96 else 64

/-- Steps of a Derrick job: hashing steps of 80 KiB beyond 256 bytes of message, then the steps of R288. -/
def derrickSteps (s : State) (j : Job) : Nat :=
  let a : KAttr := ((mget s.sroom.keys j.keyA).map (·.attr)).getD {}
  let msg := j.src.length - j.auxLen - (if j.fn = 0xF021 then j.aux % 65536 else 0)
  let hashing := if j.variant = 0 then (msg - 256 + 81919) / 81920 else 0
  match j.fn with
  | 0xF020 => hashing + (if j.variant = 3 then (if a.bits = 2048 then 7 else if a.bits = 3072 then 20 else 45) else 1)
  | 0xF021 => hashing + (if j.variant = 2 then 4 else 1)
  | _ => 2

/-- Block size of a COMPRESS job (R325). -/
def blockSize (aux : Nat) : Nat := if aux / 4 % 64 = 0 then 65536 else 2 ^ (aux / 4 % 64)

/-- Blocks of a Stowage job; a DECOMPRESS runs as one (log entry 17). -/
def stowageBlocks (j : Job) : Nat := if j.fn = 0xF010 then max 1 ((j.src.length + blockSize j.aux - 1) / blockSize j.aux) else 1

/-- The stream of a COMPRESS job. -/
def jobStream (j : Job) : Stream := compressStream j.variant (bitOf j.aux 8) (j.aux % 4) (blockSize j.aux) j.src

/-- The parts of a bulk source: AAD, IV or counter block, data, tag (02). -/
def bulkAad (j : Job) : List Byte := j.src.take j.auxLen
def bulkRest (j : Job) : List Byte := j.src.drop j.auxLen

/-- Result bytes of a lane job under its key of an algorithm (R249, R274). -/
def laneResult (j : Job) (alg : Nat) : List Byte :=
  let iv := ivBytes j.ivFixed j.v
  let x := bulkRest j
  match j.fn, j.variant with
  | 0xF001, 0 => let ct := gcmData alg j.kA iv x; iv ++ ct ++ gcmTag alg j.kA iv (bulkAad j) ct
  | 0xF001, _ => iv ++ zeros 4 ++ ctrMode alg j.kA (iv ++ zeros 4) x
  | _, 0 => gcmData alg j.kA (x.take 12) ((x.drop 12).take (x.length - 28))
  | _, _ => ctrMode alg j.kA (x.take 16) (x.drop 16)

/-- The tag of a GCM decryption verifies. -/
def laneTagOk (j : Job) (alg : Nat) : Bool :=
  let x := bulkRest j
  j.fn != 0xF002 || j.variant != 0 ||
    gcmTag alg j.kA (x.take 12) (bulkAad j) ((x.drop 12).take (x.length - 28)) == x.drop (x.length - 16)

/-- A GCM decryption of at most 256 KiB of ciphertext is release-on-verify (R275). -/
def onVerify (j : Job) : Bool := j.fn == 0xF002 && j.variant == 0 && decide (j.src.length - j.auxLen - 28 ≤ 262144)
/-- A GCM decryption that streams its plaintext (R278). -/
def streamed (j : Job) : Bool := j.fn == 0xF002 && j.variant == 0 && !(onVerify j)

/-- Result bytes that the first n input bytes of a lane job give. -/
def laneOut (j : Job) (n : Nat) : Nat :=
  if j.src.length ≤ n then j.result.length
  else
    let hdr := if j.variant = 0 then 12 else 16
    if j.fn = 0xF001 then min j.result.length (hdr + (n - j.auxLen)) else min j.result.length (n - j.auxLen - hdr)

/-- Outcome of a Derrick job at its last step: status, result, value (R290 to R293). -/
def derrickOutcome (s : State) (j : Job) : Nat × List Byte × Nat :=
  match j.fn with
  | 0xF001 => (0, Config.sm2Encrypt j.kA j.src s.freeCtr, 0)
  | 0xF002 => match Config.sm2Decrypt j.kA j.src with
    | some pt => (0, pt, 0)
    | none => (0x0301, [], 0)
  | 0xF020 => (0, Config.pkSign j.variant (if j.variant = 0 then j.auxLen else j.aux / 65536 % 4) j.kA j.src s.freeCtr, 0)
  | _ =>
    let n := j.aux % 65536
    let a : KAttr := ((mget s.sroom.keys j.keyA).map (·.attr)).getD {}
    let body := j.src.take (j.src.length - n)
    let sig := j.src.drop (j.src.length - n)
    if n = sigLen j.variant a ∧ Config.pkVerify j.variant (if j.variant = 0 then j.auxLen else j.aux / 65536 % 4) j.kA body sig then (0, [], 1)
    else (0x0303, [], 0)

/-- Outcome of an operation that is one piece: HASH, PIN_TRANSLATE, MAC_GENERATE, MAC_VERIFY, ECHO (R59, R283 to R285). -/
def pieceOutcome (s : State) (j : Job) (algA algB : Nat) : Nat × List Byte × Nat :=
  let mac (data : List Byte) : List Byte := (if j.variant = 0 then cmac algA j.kA data else mac3 j.kA (bitOf j.aux 5) data).take (j.aux % 32)
  match j.fn with
  | 0xF030 => (0, if j.variant = 1 then hmacBytes j.kA j.src else sm3Bytes j.src, 0)
  | 0xF040 =>
    let n := j.src.length - j.auxLen
    match pinTranslate algA j.kA algB j.kB (j.src.take n) (j.src.drop n) j.variant s.freeCtr with
    | .ok out => (0, out, 0)
    | .error (st, _) => (st, [], 0)
  | 0xF041 => (0, mac j.src, 0)
  | 0xF042 => let n := j.aux % 32; if mac (j.src.drop n) = j.src.take n then (0, [], 1) else (0x0302, [], 0)
  | _ => (0, j.src, 0)

/-! The course of a job. -/

/-- A job's end with a result. -/
def jobResult (s : State) (id : Nat) (o : Nat × List Byte × Nat) : State :=
  jobEnd (modJob { s with freeCtr := s.freeCtr + 1 } id (fun j => { j with result := o.2.1 })) id o.1 o.2.1.length o.2.2

/-- A job whose keys are there, or that needs none: it waits for its engine, or is done where it is one piece. -/
def jobReady (s : State) (id : Nat) : State :=
  match jobOf s id with
  | none => s
  | some j =>
    let alg (h : Nat) : Nat := ((mget s.sroom.keys h).map (fun k => algCode k.attr)).getD 0
    match engineOf j.fn j.variant with
    | .other => jobResult s id (pieceOutcome s j (alg j.keyA) (alg j.keyB))
    | .lane =>
      let (s, n) := stamp s
      assignUnits (modJob s id (fun j => { j with stage := .ready, since := if j.started then 0 else n, result := laneResult j (alg j.keyA), value := bit (laneTagOk j (alg j.keyA)) }))
    | _ =>
      let (s, n) := stamp s
      assignUnits (modJob s id (fun j => { j with stage := .ready, since := if j.started then 0 else n }))

/-- A job that has passed its checks enters: it takes a lane context, asks for its keys, or is ready (R222, R274). -/
def jobEnter (s : State) (id : Nat) : State :=
  match jobOf s id with
  | none => s
  | some j =>
    if engineOf j.fn j.variant = .lane then
      let (s, n) := stamp s
      grantContexts 16 (modJob s id (fun j => { j with stage := .context, since := n }))
    else if (jobKeys j).isEmpty then jobReady s id
    else askKeys s id

/-- Remove a job and give what it held to those that wait. -/
def dropJob (s : State) (id : Nat) : State := reapKeys (assignUnits { s with jobs := mdel s.jobs id })

/-- What the tenant's path allows now: 0 writes go out, 1 they wait for a port, 2 they are lost (R91, R92). -/
def pathState (s : State) (t : Nat) : Nat :=
  if dmaDiscarded s t ∨ pathUp s t then 0
  else match (tenantOf s t).pathDownAt with
    | some d => if d + 50000 ≤ nowNs s then 2 else 1
    | none => 1

/-- Write result bytes at an offset of a job's destination: the host for a built-in, a far address for a job of CP3; the status of
a failure, 0 else (R26, R92, R401). -/
def jobWrite (s : State) (j : Job) (off : Nat) (bs : List Byte) : State × Nat :=
  match j.th with
  | none => resultWrite s j.seq [(j.dst + off, bs)]
  | some th => if bs.isEmpty then (s, 0) else let (s, w) := writeRange s th (j.dst + off) bs; (s, w.toNat % 65536)

/-- A consignment's record waits for a scuttle of a cancelled job, or no longer (R110). -/
def setScuttling (s : State) (j : Job) (b : Bool) : State := modCons s j.seq (fun c => { c with scuttling := b })

/-- Destination bytes a job has written, in this run or an earlier one. -/
def touched (j : Job) : Nat := max j.written j.dirty

/-- Begin a scuttle: zeros over every destination byte written (R278). The status is the one the job ends with once they are
complete. -/
def startScuttle (s : State) (id : Nat) (j : Job) (status : Nat) : State :=
  let (s, st) := jobWrite s j 0 (zeros (touched j))
  let s := setScuttling s j (j.th.isSome && j.cancelled)
  let s := modJob s id (fun j => { j with stage := .scuttle, status := status, written := if st = 0 then touched j else 0, value := st, expired := false })
  match j.th with
  | some th => freeIfDone s th
  | none => s

/-- A job stops short of its end: cancelled it goes without a trace, expired it ends with DEADLINE_EXPIRED; streamed plaintext is
scuttled first (R110, R278, R280, R516). -/
def jobStop (s : State) (id : Nat) (j : Job) : State :=
  if streamed j ∧ touched j ≠ 0 then startScuttle s id j (if j.cancelled then 0 else 0x0503)
  else if j.cancelled then
    let s := dropJob s id
    match j.th with
    | some th => freeIfDone s th
    | none => s
  else assignUnits (jobEnd s id 0x0503 0 0)

/-- LANE_QUANTUM_END: the running job of a lane ends a quantum of 16 KiB, or the whole job where it is release-on-verify; its
output goes out, and it ends, stops, or gives way to the head of the ready list (R274 to R280). -/
def execLaneQuantumEnd (lane : Fin 16) (s : State) : Out :=
  .next (
    if !(unitUp s (islLane lane.val)) ∨ s.dev.st = .halted then s
    else match (jobsAt s .lane (.running lane.val)).head? with
      | none => assignUnits s
      | some (id, j) =>
        let total := j.src.length
        let pos := if onVerify j then total else min total (j.progress + 16384)
        let ok := j.value == 1
        let upTo := if onVerify j ∧ !ok then 0 else laneOut j pos
        let path := if j.th.isNone then pathState s j.tenant else 0
        if j.cancelled then jobStop s id j
        else if pos < total ∧ j.expired then jobStop s id j
        else if path = 1 ∧ j.written < upTo then s
        else
          let (s, st) := if path = 2 then (modCons s j.seq (fun c => { c with lostResults := true }), 0)
            else jobWrite s j j.written ((j.result.drop j.written).take (upTo - j.written))
          let j := { j with progress := pos, written := upTo }
          let s := modJob s id (fun _ => j)
          if st ≠ 0 then
            if streamed j then startScuttle s id j st else assignUnits (jobEnd s id st 0 0)
          else if pos < total then
            let (s, n) := stamp s
            assignUnits (if (jobsAt s .lane .ready).isEmpty then s else modJob s id (fun j => { j with stage := .ready, since := n }))
          else if ok then reapKeys (assignUnits (jobEnd s id 0 j.result.length 0))
          else if streamed j ∧ touched j ≠ 0 then startScuttle s id j 0x0301
          else reapKeys (assignUnits (jobEnd s id 0x0301 0 0)))

/-- A failed scuttle: the tenant enters ERROR with cause 1, at once or, while SQUASHED, at its TENANT_RESUME (R279). -/
def scuttleFailed (s : State) (t : Nat) : State :=
  let v := tenantOf s t
  if v.state = .squashed then setTenant s t { v with resumeCause := 1 }
  else withVector t (fun s => enterError s t 1) s

/-- SCUTTLE_COMPLETE: the zero writes are confirmed complete and the job ends with its status, or the scuttle fails with
AUTH_FAIL_SCUTTLE_INCOMPLETE (R278, R279). -/
def execScuttleComplete (id : Nat) (confirmed : Bool) (s : State) : Out :=
  .next (
    match jobOf s id with
    | none => s
    | some j =>
      if j.stage ≠ .scuttle then s
      else
        let good := confirmed && !(dmaDiscarded s j.tenant) && j.value == 0
        let s := if good then s else scuttleFailed s j.tenant
        let s := setScuttling s j false
        if j.cancelled then settleTenant (dropJob s id) j.tenant
        else reapKeys (assignUnits (jobEnd s id (if good then j.status else 0x0304) 0 0)))

/-- DERRICK_STEP_END: the job of a Derrick ends a step; it ends at its last, stops where it is cancelled or expired, and else goes
on; a free Derrick takes waiting work (R289, R290). -/
def execDerrickStepEnd (derrick : Fin 32) (s : State) : Out :=
  .next (
    if !(unitUp s (islDerrick derrick.val)) ∨ s.dev.st = .halted then s
    else match (jobsAt s .derrick (.running derrick.val)).head? with
      | none => assignUnits s
      | some (id, j) =>
        let j := { j with progress := j.progress + 1 }
        let s := modJob s id (fun _ => j)
        if j.cancelled then jobStop s id j
        else if derrickSteps s j ≤ j.progress then reapKeys (assignUnits (jobResult s id (derrickOutcome s j)))
        else if j.expired then jobStop s id j
        else s)

/-- STOWAGE_BLOCK_END: the job of an engine ends a block; the engine takes the next block of the job that has waited longest
(R324, R331). -/
def execStowageBlockEnd (engine : Fin 8) (s : State) : Out :=
  .next (
    if !(unitUp s (islStowage engine.val)) ∨ s.dev.st = .halted then s
    else match (jobsAt s .stowage (.running engine.val)).head? with
      | none => assignUnits s
      | some (id, j) =>
        let j := { j with progress := j.progress + 1 }
        let s := modJob s id (fun _ => j)
        if j.cancelled then jobStop s id j
        else if stowageBlocks j ≤ j.progress then
          if j.fn = 0xF010 then
            let x := jobStream j
            assignUnits (jobResult s id (0, streamBytes x ++ indexBytes x, x.blocks.length))
          else match decodeStream (j.aux % 4) (bitOf j.aux 2) j.src with
            | none => assignUnits (jobEnd s id 0x0404 0 0)
            | some (out, _) => if 2 ^ 30 < out.length then assignUnits (jobEnd s id 0x0401 0 0) else assignUnits (jobResult s id (0, out, 0))
        else if j.expired then jobStop s id j
        else
          let (s, n) := stamp s
          assignUnits (modJob s id (fun j => { j with stage := .ready, since := n })))

/-- KEY_DELIVERY: a key is in its slot or its engine over the key bus, and the request's status posts; a delivery whose tags are
no longer current is discarded (R222, R263). -/
def execKeyDelivery (id : Nat) (s : State) : Out :=
  .next (
    match mget s.sroom.runs id with
    | none => s
    | some x =>
      if !(sroomUp s) then s
      else
        let s := { s with sroom := { s.sroom with runs := mdel s.sroom.runs id } }
        let cur := reqCurrent s x.req
        let s := match x.req.kind with
          | .cp1 th _ _ _ =>
            if !cur then s
            else
              let s := x.slots.foldl (fun s e => setSlot s th e.1 e.2) s
              match x.out with
              | none => cpPost s th 1 0
              | some (va, bs) => let (s, w) := writeRange s th va bs; cpPost s th 1 w
          | .job jid =>
            if !cur then s else jobReady (modJob s jid (fun j => { j with kA := x.kA, kB := x.kB, v := x.v, ivFixed := x.ivFixed })) jid
        reapKeys s)

/-! Built-in consignments (R58, R515). -/

/-- A built-in consignment reaches its engine: the decisions of R515 in order, then its job. -/
def builtinStart (s : State) (fn seq : Nat) : State :=
  match consOf s seq with
  | none => s
  | some c =>
    if !(running s) ∨ c.state ≠ .accepted ∨ c.phase ≠ .builtin ∨ c.desc.handler.toNat ≠ fn ∨ c.expired then s
    else
      let full := if fDock c.desc then c.dock else c.source.getD []
      let b := parseBlock full
      let keyA := c.desc.keyA.toNat
      if fn ≠ 0xF060 ∧ !(blockOk fn keyA full) then failCons s seq 0x0104 0 0
      else
        let src := if fn = 0xF060 then full else full.drop 16
        let (v, auxLen, aux) := if fn = 0xF060 then (0, 0, 0) else (b.variant, b.auxLen, b.aux)
        if fn ≠ 0xF060 ∧ !(lengthsOk fn v auxLen aux src.length) then failCons s seq 0x0401 0 0
        else
          let j : Job := { seq := seq, attempt := c.attempt, tenant := c.tenant, fn := fn, variant := v, keyA := keyA, keyB := c.desc.keyB.toNat,
                           auxLen := auxLen, aux := aux, src := src, srcLen := src.length, dst := c.desc.dstAddr.toNat, dstLen := c.desc.dstLen.toNat }
          match jobRefusal s j with
          | some (st, n) => failCons s seq st 0 n
          | none =>
            let (s, id) := stamp s
            jobEnter (setCons { s with jobs := mset s.jobs id j } seq { c with phase := .job id }) id

/-- BULK_ENCRYPT (R249, R274, R293). -/
def execBulkEncrypt (seq : Nat) (s : State) : Out := .next (builtinStart s 0xF001 seq)
/-- BULK_DECRYPT (R274, R278, R293). -/
def execBulkDecrypt (seq : Nat) (s : State) : Out := .next (builtinStart s 0xF002 seq)
/-- COMPRESS (R323). -/
def execCompress (seq : Nat) (s : State) : Out := .next (builtinStart s 0xF010 seq)
/-- DECOMPRESS (R331). -/
def execDecompress (seq : Nat) (s : State) : Out := .next (builtinStart s 0xF011 seq)
/-- SIGN (R291). -/
def execSign (seq : Nat) (s : State) : Out := .next (builtinStart s 0xF020 seq)
/-- VERIFY (R292). -/
def execVerify (seq : Nat) (s : State) : Out := .next (builtinStart s 0xF021 seq)
/-- HASH (R59). -/
def execHash (seq : Nat) (s : State) : Out := .next (builtinStart s 0xF030 seq)
/-- PIN_TRANSLATE (R284). -/
def execPinTranslate (seq : Nat) (s : State) : Out := .next (builtinStart s 0xF040 seq)
/-- MAC_GENERATE (R285). -/
def execMacGenerate (seq : Nat) (s : State) : Out := .next (builtinStart s 0xF041 seq)
/-- MAC_VERIFY (R285). -/
def execMacVerify (seq : Nat) (s : State) : Out := .next (builtinStart s 0xF042 seq)
/-- ECHO (R58). -/
def execEcho (seq : Nat) (s : State) : Out := .next (builtinStart s 0xF060 seq)

/-! Proofs (R301). -/

/-- The newest record of a sequence number in the four ledgers of a member, with its basin and its place there. -/
def newestIn (recs : Nat → List LRec) (q : Nat) : Option (Nat × Nat × LRec) :=
  (List.range 4).foldl (fun acc b => match ((recs b).zipIdx).reverse.find? (fun e => e.1.seq == q) with
    | none => acc
    | some (r, n) => match acc with
      | none => some (b, n, r)
      | some (_, _, x) => if decide (x.tide < r.tide) || (x.tide == r.tide && (decide (x.attempt < r.attempt) || (x.attempt == r.attempt && decide (x.state < r.state)))) then some (b, n, r) else acc) none

/-- The records of a tide in one ledger. -/
def ofTide (num : Nat) (l : List LRec) : List LRec := l.filter (fun r => r.tide == num)

/-- What a proof of a sequence number comes to: PROOF_NOT_FOUND, a wait for a tide, or the proof and its tide (R301). -/
inductive ProofResult where
  | absent
  | wait (tide : Nat)
  | proof (tide : Nat) (bytes : List Byte)
  deriving DecidableEq, Repr

/-- The proof of a tenant's record, or of any tenant's, from the ledgers and the tide log of a member; tides that are not yet signed
are waited for (R296, R301). -/
def proofIn (recs : Nat → List LRec) (log : List (Nat × List Byte)) (unsigned : Nat → Bool) (t : Option Nat) (q : Nat) : ProofResult :=
  match newestIn recs q with
  | none => .absent
  | some (b, n, r) =>
    if (match t with
        | some t => r.tenant != t
        | none => false) then .absent
    else match log.find? (fun e => e.1 == r.tide) with
      | some (_, rec) =>
        let leaves := (List.range 4).flatMap (fun b => (ofTide r.tide (recs b)).map (fun r => sm3Bytes (recBytes r)))
        let i := ((List.range b).map (fun x => (ofTide r.tide (recs x)).length)).foldl (· + ·) 0 + (ofTide r.tide ((recs b).take n)).length
        let path := merklePath leaves.length leaves i
        if leaves.length ≠ fieldLe rec 4 4 then .absent
        else .proof r.tide (toLe 1 1 ++ [0] ++ toLe 2 path.length ++ toLe 4 i ++ recBytes r ++ rec ++ path.flatten)
      | none => if unsigned r.tide then .wait r.tide else .absent

/-- The proof from this Harbour's ledgers, else from the mirror of a member it has taken over (R301, R489). -/
def proofOf (s : State) (t : Option Nat) (q : Nat) : ProofResult :=
  let unsigned (n : Nat) : Bool := (s.tides.cur.map (·.num)) = some n || s.tides.closing.any (fun x => x.num == n) || s.tides.closed.any (fun x => x.num == n)
  let own := proofIn (fun b => (ledgerOf s b).recs) s.tides.log unsigned t q
  s.mirrors.foldl (fun acc e => match acc with
    | .absent => if bitOf s.road.takenHere e.1 then proofIn (fun b => (tget {} e.2.basins b).recs) e.2.tides (fun _ => false) t q else acc
    | r => r) own

/-- PROOF: the proof is ready for its destination, or waits for its tide's signature (R301). -/
def execProof (seq : Nat) (s : State) : Out :=
  .next (
    match consOf s seq with
    | none => s
    | some c =>
      if !(running s) ∨ c.state ≠ .accepted ∨ c.phase ≠ .builtin ∨ c.desc.handler.toNat ≠ 0xF050 ∨ c.expired ∨ c.proofTide.isSome then s
      else
        let full := if fDock c.desc then c.dock else c.source.getD []
        if !(blockOk 0xF050 c.desc.keyA.toNat full) then failCons s seq 0x0104 0 0
        else match proofOf s (some c.tenant) (parseBlock full).aux with
          | .absent => failCons s seq 0x0704 0 0
          | .wait t => setCons s seq { c with proofTide := some t }
          | .proof t bs =>
            if c.desc.dstLen.toNat < bs.length then failCons s seq 0x0403 0 bs.length
            else
              let (s, id) := stamp s
              let j : Job := { seq := seq, attempt := c.attempt, tenant := c.tenant, fn := 0xF050, dst := c.desc.dstAddr.toNat, dstLen := c.desc.dstLen.toNat }
              jobResult (setCons { s with jobs := mset s.jobs id j } seq { c with phase := .job id }) id (0, bs, t % 2 ^ 24))

/-- BUILTIN_JOB_END: a finished job's result is at its destination and its consignment becomes COMMITTED or FAILED (R59, R62,
R329, R330). A job whose consignment no longer waits for it is discarded. -/
def execBuiltinJobEnd (id : Nat) (s : State) : Out :=
  .next (
    match jobOf s id with
    | none => s
    | some j =>
      if !j.finished ∨ j.th.isSome then s
      else match consOf s j.seq with
        | none => dropJob s id
        | some c =>
          if c.state ≠ .accepted ∨ c.phase ≠ .job id then dropJob s id
          else if j.status ≠ 0 then failCons (dropJob s id) j.seq j.status j.value j.resultLen
          else
            let path := pathState s j.tenant
            if path = 1 ∧ j.written < j.result.length then s
            else
              let s := dropJob s id
              let stow := engineOf j.fn j.variant = .stowage
              let ends := if j.fn = 0xF010 then blockEnds (jobStream j) else ((decodeStream (j.aux % 4) (bitOf j.aux 2) j.src).map (·.2)).getD []
              let (s, p) : State × Placed :=
                if j.written = j.result.length then (s, { len := j.resultLen })
                else if path = 2 then (modCons s j.seq (fun c => { c with lostResults := true }), { len := j.resultLen })
                else if stow then placeResult s j.seq j.result ends
                else let (s, st) := jobWrite s j 0 j.result; (s, { status := st, len := if st = 0 then j.resultLen else 0 })
              if p.status ≠ 0 ∧ p.status ≠ 0x0402 then failCons s j.seq p.status 0 p.len
              else match consOf s j.seq with
                | none => s
                | some c =>
                  let value := match p.blocks with
                    | some n => n
                    | none => j.value
                  let c := { c with status := p.status, resultLen := p.len, handlerValue := value, chained := p.chained, compressed := decide (j.fn = 0xF010) }
                  recordFinal (appendFinal (setCons s j.seq c) j.seq c true) j.seq true)

/-! Engine jobs of CP3 (R115, R116). -/

/-- Write a mailbox entry: bytes 8 to 15, then bytes 0 to 7 (R116). -/
def mailEntry (s : State) (th : ThreadId) (i state status len value : Nat) : State :=
  let s := nearWrite s th (0x80 + 16 * i + 8) (toLe 4 value ++ zeros 4)
  nearWrite s th (0x80 + 16 * i) (toLe 1 state ++ [0] ++ toLe 2 status ++ toLe 4 len)

/-- JOB_POSTED: a finished job's result is written and its entry posted in state 2; WAITCP 3 and a COMMIT that wait go on
(R109, R112, R116, R177). CP3 jobs do not chain: a result longer than DST_LEN gives DST_TOO_SMALL. -/
def execJobPosted (id : Nat) (s : State) : Out :=
  .next (
    match jobOf s id with
    | none => s
    | some j =>
      match j.th with
      | none => s
      | some th =>
        if !j.finished then s
        else if j.cancelled then freeIfDone (dropJob s id) th
        else
          let s := dropJob s id
          let (s, st, len) : State × Nat × Nat :=
            if j.status ≠ 0 ∨ j.written = j.result.length then (s, j.status, j.resultLen)
            else if j.dstLen < j.result.length then (s, 0x0403, j.result.length)
            else let (s, st) := jobWrite s j 0 j.result; (s, st, if st = 0 then j.resultLen else 0)
          let s := mailEntry s th j.mbox 2 st len (if st = 0 then j.value else 0)
          let s := modThr s th (fun t => { t with jobs := if h : j.mbox < 8 then t.jobs.set j.mbox 0 h else t.jobs })
          match (thr s th).run with
          | .waitcp 3 d => (collect s th 3 d).getD s
          | .commit _ => commitAdvance s th
          | _ => s)

/-- The functions an engine job may name (R115). -/
def jobFunctions : List Nat := [0xF001, 0xF002, 0xF010, 0xF011, 0xF020, 0xF021, 0xF030]

/-- What the submit of a job block decides: a disposition that posts at once, or a job (R115, R514). -/
def jobBlock (b : List Byte) : Except Nat Job :=
  let fn := fieldLe b 0 2
  let v := fieldLe b 2 1
  let key := fieldLe b 4 4
  let n := fieldLe b 16 4
  let auxLen := fieldLe b 32 4
  let aux := fieldLe b 40 8
  if !(jobFunctions.contains fn) ∨ !((variants fn).contains v) ∨ fieldLe b 3 1 ≠ 0 ∨ fieldLe b 36 4 ≠ 0 ∨ !(farOk b 8) ∨ !(farOk b 24)
      ∨ (noAuxLen fn ∧ auxLen ≠ 0) ∨ !(auxOk fn v aux) ∨ (!(usesKeyA fn v) ∧ key ≠ keyNone) then .error 0x0104
  else if !(lengthsOk fn v auxLen aux n) ∨ (2 ^ 30 < n ∧ (fn = 0xF001 ∨ fn = 0xF002)) ∨ (fn = 0xF021 ∧ fieldLe b 20 4 ≠ 0) then .error 0x0401
  else .ok { fn := fn, variant := v, keyA := key, srcLen := n, dst := fieldLe b 24 8, dstLen := fieldLe b 20 4, auxLen := auxLen, aux := aux }

/-- The source of a CP3 job is there: steps 3 and 4 of R515, then its engine. -/
def jobSource (s : State) (id : Nat) (src : List Byte) : State :=
  let s := modJob s id (fun j => { j with src := src })
  match jobOf s id with
  | none => s
  | some j =>
    match jobRefusal s j with
    | some (st, n) => jobEnd s id st n 0
    | none => jobEnter s id

/-- SUBMIT of CP3 (R104, R115, R155): the block's checks, a mailbox entry in state 0 or 3, the ranges, and the job; 0xFF_FFFF where
no entry is free. A source in HOST memory is read by DMA first. -/
def execSubmit (th : ThreadId) (cd ca : RegField) (s : State) : Out :=
  .next (issue th (fun s =>
    let t := thr s th
    let off := rd t.arch ca
    let va := nearVa t.arch off
    if t.ended ≠ .no then takeExn s th excIllegal
    else if off.toNat % 8 ≠ 0 then takeExn s th (excLoad 4 va)
    else match translate s th .load va 48 with
      | .error e => takeExn s th e
      | .ok bl =>
        let block := bl.map (seenByte s th)
        match (List.range 8).find? (fun i => mboxState s th i == 0 || mboxState s th i == 3) with
        | none => submitDone (retryPoint s th) th cd 0xFFFFFF
        | some i =>
          let mark (s : State) (id : Nat) : State := modThr s th (fun t => { t with jobs := if h : i < 8 then t.jobs.set i id h else t.jobs })
          let done (s : State) : State := submitDone s th cd (BitVec.ofNat 24 i)
          match jobBlock block with
          | .error st => done (mailEntry (retryPoint s th) th i 2 st 0 0)
          | .ok j =>
            match gatherLocs s th [{ va := fieldLe block 8 8, len := j.srcLen }, { write := true, va := j.dst, len := j.dstLen }] with
            | .error _ => done (mailEntry (retryPoint { s with freeCtr := s.freeCtr + 1 } th) th i 2 ((Config.accessStatus s.freeCtr).toNat % 65536) 0 0)
            | .ok all =>
              withLines s th (linesOf (all.flatMap (·.2))) (fun s =>
                let s := retryPoint s th
                let (s, id) := stamp s
                let c := consOf s t.seq
                let j : Job := { j with seq := t.seq, attempt := (c.map (·.attempt)).getD 1, tenant := (c.map (·.tenant)).getD 0, th := some th, mbox := i }
                let s := mark (mailEntry { s with jobs := mset s.jobs id { j with stage := .reading } } th i 1 0 0 0) id
                let srcLocs := (all.head?.map (·.2)).getD []
                let s := if srcLocs.any (fun l => decide (l.obj = .host)) then s
                  else let (s, bs) := readRange s th srcLocs; jobSource s id bs
                done s)) s)

/-! Completion of requests and source reads (R26, R112, R374). -/

/-- The operation of a coprocessor other than Tally. -/
def runHash (s : State) (th : ThreadId) (cfn : Nat) (b : List Byte) (ins : List (List Byte)) : State × Word :=
  if cfn = 0 then runSm3 s th b ins else runHmac s th b ins

/-- The source of a consignment has been read, or its read has failed (R26, R58, R99). -/
def sourceRead (s : State) (seq : Nat) (r : ReadResult) : State :=
  match consOf s seq with
  | none => s
  | some c =>
    if !c.reading ∨ c.state ≠ .accepted ∨ !(pathUp s c.tenant) then s
    else match r with
      | .ok data => setCons s seq { c with reading := false, source := some (slice data 0 c.desc.srcLen.toNat), phase := if isBuiltin c.desc then .builtin else .ready }
      | _ => failCons (setCons s seq { c with reading := false }) seq 0x0504 0 0

/-- The DMA read of a CP3 job's source has ended (R401). -/
def jobRead (s : State) (id : Nat) (r : ReadResult) : State :=
  match jobOf s id with
  | none => s
  | some j =>
    if j.stage ≠ .reading ∨ !(pathUp s j.tenant) then s
    else match r with
      | .ok data => jobSource s id (slice data 0 j.srcLen)
      | _ => jobEnd s id 0x0504 0 0

/-- The DMA read of a HOST load has ended (R142, R401). -/
def hostLoadRead (s : State) (th : ThreadId) (r : ReadResult) : State :=
  match (thr s th).wait with
  | none => s
  | some w =>
    if w.why ≠ .hostRead ∨ !(pathUp s (tenantOfThread s th)) then s
    else match w.op with
      | some (.load va n dest) =>
        let s := modThr s th (fun t => { t with wait := none })
        match r with
        | .ok data => finish s th (writeLoad (thr s th).arch dest (slice data 0 n))
        | _ => takeExn s th (excLoad 7 va)
      | _ => s

/-- SOURCE_READ_COMPLETE (R26, R58, R99, R142, R401). -/
def execSourceReadComplete (w : ReadPurpose) (r : ReadResult) (s : State) : Out :=
  .next (match w with
    | .source seq => sourceRead s seq r
    | .job id => jobRead s id r
    | .hostLoad th => hostLoadRead s th r)

end Sys2Proof.Machine
end

