-- ==== Sys2Proof/Machine/TallyOps.lean ====
section
/-! DEFINITION. Tally: format programs, PARSE, BUILD, XML_TOKENS and CONVERT (12, R309 to R322), and the end of a coprocessor
operation (R112). -/

namespace Sys2Proof.Machine

/-! Characters and digits (R321). -/

/-- EBCDIC code page 037 of the 95 printable ASCII characters, from the space on (R321). -/
def ebcdicTable : List Nat :=
  [64, 90, 127, 123, 91, 108, 80, 125, 77, 93, 92, 78, 107, 96, 75, 97, 240, 241, 242] ++
  [243, 244, 245, 246, 247, 248, 249, 122, 94, 76, 126, 110, 111, 124, 193, 194, 195, 196, 197] ++
  [198, 199, 200, 201, 209, 210, 211, 212, 213, 214, 215, 216, 217, 226, 227, 228, 229, 230, 231] ++
  [232, 233, 186, 224, 187, 176, 109, 121, 129, 130, 131, 132, 133, 134, 135, 136, 137, 145, 146] ++
  [147, 148, 149, 150, 151, 152, 153, 162, 163, 164, 165, 166, 167, 168, 169, 192, 79, 208, 161]

/-- EBCDIC of a printable ASCII character. -/
def toEbcdic (b : Byte) : Option Byte := if b.toNat < 0x20 then none else (ebcdicTable[b.toNat - 0x20]?).map (BitVec.ofNat 8)

/-- ASCII of one of the 95 EBCDIC characters. -/
def fromEbcdic (b : Byte) : Option Byte := (ebcdicTable.findIdx? (fun c => c == b.toNat)).map (fun i => BitVec.ofNat 8 (i + 0x20))

/-- Apply a conversion of characters to all of them: none where one has no image. -/
def mapChars (f : Byte → Option Byte) : List Byte → Option (List Byte)
  | [] => some []
  | b :: r => match f b, mapChars f r with
    | some x, some xs => some (x :: xs)
    | _, _ => none

/-- The printable ASCII form of a character of an encoding, 1 ASCII and 2 EBCDIC. -/
def charOf (venc : Nat) (b : Byte) : Option Byte :=
  if venc = 2 then fromEbcdic b else if 0x20 ≤ b.toNat ∧ b.toNat ≤ 0x7E then some b else none

/-- The value of a decimal digit of an encoding. -/
def digitOf (venc : Nat) (b : Byte) : Option Nat :=
  let z := if venc = 2 then 0xF0 else 0x30
  if z ≤ b.toNat ∧ b.toNat ≤ z + 9 then some (b.toNat - z) else none

/-- The character of a decimal digit in an encoding. -/
def digitChar (venc d : Nat) : Byte := BitVec.ofNat 8 ((if venc = 2 then 0xF0 else 0x30) + d)

/-- Digits of characters: none where one is no digit. -/
def digitsOf (venc : Nat) : List Byte → Option (List Nat)
  | [] => some []
  | b :: r => match digitOf venc b, digitsOf venc r with
    | some x, some xs => some (x :: xs)
    | _, _ => none

/-- Digits as BCD; an odd count gains a leading 0 nibble (R321). -/
def bcdOf (ds : List Nat) : List Byte := packNibbles (if ds.length % 2 = 1 then 0 :: ds else ds)

/-- Digits of BCD bytes, without the leading nibble where the count is odd; none where a nibble is above 9. -/
def bcdDigits (odd : Bool) (bs : List Byte) : Option (List Nat) :=
  let ns := nibbles bs
  if ns.any (fun n => 9 < n) then none else some (if odd then ns.drop 1 else ns)

/-! Format programs (R313 to R316). -/

/-- A descriptor (R315). -/
structure FmtDesc where
  kind : Nat := 0
  venc : Nat := 0
  cls : Nat := 0
  penc : Nat := 0
  len : Nat := 0
  deriving DecidableEq, Repr

/-- KIND, CODE_LEN and DESC_COUNT of a program (R313). -/
def fmtKind (p : List Byte) : Nat := fieldLe p 1 1
def fmtCodeLen (p : List Byte) : Nat := fieldLe p 2 2
def fmtDescs (p : List Byte) : Nat := fieldLe p 4 2

/-- Descriptor of field n, all zero beyond DESC_COUNT. -/
def fmtDesc (p : List Byte) (n : Nat) : FmtDesc :=
  if n = 0 ∨ fmtDescs p < n then {}
  else
    let o := 16 + fmtCodeLen p + 8 * (n - 1)
    { kind := fieldLe p o 1, venc := fieldLe p (o + 1) 1, cls := fieldLe p (o + 2) 1, penc := fieldLe p (o + 3) 1, len := fieldLe p (o + 4) 2 }

/-- The instruction at a code offset: OP, A and B. -/
def fmtInstr (p : List Byte) (pc : Nat) : Nat × Nat × Nat := (fieldLe p (16 + pc) 1, fieldLe p (17 + pc) 1, fieldLe p (18 + pc) 2)

/-- Bytes of a value of n units in an encoding. -/
def valueBytes (venc n : Nat) : Nat := if venc = 3 then (n + 1) / 2 else n

/-! PARSE (R317 to R319). -/

/-- A fault of a parse: REASON, ERROR_AT and the field number. -/
structure ParseFault where
  reason : Nat
  at_ : Nat
  field : Nat
  deriving DecidableEq, Repr

/-- A parse as it stands. -/
structure Parse where
  cur : Nat := 0
  limit : Nat := 0
  mti : Nat := 0
  /-- Fields whose bit is set, and fields that RECORD has read. -/
  bits : List Nat := []
  recorded : List Nat := []
  entries : Table (List Byte) := []
  tlvs : Nat := 0
  deriving DecidableEq, Repr

/-- A field is present (R316, R318). -/
def Parse.has (x : Parse) (n : Nat) : Bool := x.bits.contains n || x.recorded.contains n

/-- The three words of an index entry (R318). -/
def indexEntry (off len type : Nat) : List Byte := toLe 3 off ++ toLe 3 len ++ toLe 3 type

/-- Take n bytes of the input before the limit, or reason 0x01 at the item. -/
def takeIn (inp : List Byte) (x : Parse) (n field : Nat) : Except ParseFault (List Byte) :=
  if x.cur + n ≤ x.limit then .ok (slice inp x.cur n) else .error { reason := 1, at_ := x.cur, field := field }

/-- The set bits of a bitmap whose first bit is the most significant one of its first byte, as fields from `base` + 1 on. -/
def mapFields (base : Nat) (bs : List Byte) : List Nat :=
  ((List.range 64).filter (fun i => bitOf (fieldLe bs (i / 8) 1) (7 - i % 8))).map (fun i => base + i + 1)

/-- The 8 bytes of a bitmap: binary, or 16 hexadecimal characters. -/
def mapBytes (venc : Nat) (bs : List Byte) : Option (List Byte) :=
  if venc = 0 then some bs
  else match mapChars (charOf venc) bs with
    | none => none
    | some cs => match mapChars (fun c => (hexDigit c).map (BitVec.ofNat 8)) cs with
      | none => none
      | some ds => some (packNibbles (ds.map (·.toNat)))

/-- Read a bitmap of an encoding at the cursor: its fields become present; one that has no descriptor is reason 0x04. -/
def readMap (p inp : List Byte) (x : Parse) (venc base field : Nat) : Except ParseFault Parse :=
  match takeIn inp x (if venc = 0 then 8 else 16) field with
  | .error e => .error e
  | .ok bs =>
    match mapBytes venc bs with
    | none => .error { reason := 7, at_ := x.cur, field := field }
    | some m =>
      let fs := mapFields base m
      match fs.find? (fun n => (fmtDesc p n).kind == 0) with
      | some n => .error { reason := 4, at_ := x.cur, field := n }
      | none => .ok { x with cur := x.cur + bs.length, bits := x.bits ++ fs.filter (fun n => !(x.bits.contains n)) }

/-- Offset of the first byte of a value that breaks CLASS or the BCD rule (R315, R317). -/
def classFault (d : FmtDesc) (bs : List Byte) : Option Nat :=
  let ok (b : Byte) : Bool :=
    if d.venc = 3 then b.toNat / 16 ≤ 9 && b.toNat % 16 ≤ 9
    else match d.cls with
      | 0 => true
      | 1 => (digitOf d.venc b).isSome
      | 2 => (charOf d.venc b).isSome
      | _ => (digitOf d.venc b).isSome || charOf d.venc b == some 0x3D || charOf d.venc b == some 0x44
  bs.findIdx? (fun b => !(ok b))

/-- Bytes of a length lead (R315). -/
def leadBytes (d : FmtDesc) : Nat :=
  if d.penc = 0 then 0 else if d.penc ≤ 2 then d.kind else d.kind - 1

/-- The number in a length lead; none where it is not valid. -/
def leadValue (d : FmtDesc) (bs : List Byte) : Option Nat :=
  let num (ds : List Nat) : Nat := ds.foldl (fun n x => n * 10 + x) 0
  if d.penc = 4 then some (beNat bs)
  else if d.penc = 3 then (bcdDigits false bs).map num
  else (digitsOf d.penc bs).map num

/-- Enter the index entry of a field. -/
def putEntry (x : Parse) (n : Nat) (d : FmtDesc) (off len units : Nat) : Parse :=
  let odd := bit (d.venc == 3 && units % 2 == 1)
  { x with cur := off + len, entries := mset x.entries (n - 1) (indexEntry off len (d.kind * 2 ^ 21 + d.venc * 2 ^ 17 + odd * 2 ^ 16 + n)) }

/-- Read field n at the cursor (R315, R316). -/
def readField (p inp : List Byte) (x : Parse) (n : Nat) : Except ParseFault Parse :=
  let d := fmtDesc p n
  let fail (reason at_ : Nat) : Except ParseFault Parse := .error { reason := reason, at_ := at_, field := n }
  let value (x : Parse) (units : Nat) : Except ParseFault Parse :=
    match takeIn inp x (valueBytes d.venc units) n with
    | .error e => .error e
    | .ok bs => match classFault d bs with
      | some i => fail 3 (x.cur + i)
      | none => .ok (putEntry x n d x.cur bs.length units)
  match d.kind with
  | 0 => fail 4 x.cur
  | 1 => value x d.len
  | 6 =>
    let off := x.cur
    let base := if n = 1 then some 64 else if n = 65 then some 128 else none
    match base with
    | some b => (readMap p inp x d.venc b n).map (fun x => putEntry x n d off (x.cur - off) 0)
    | none => match takeIn inp x (if d.venc = 0 then 8 else 16) n with
      | .error e => .error e
      | .ok bs => if (mapBytes d.venc bs).isNone then fail 7 off else .ok (putEntry x n d off bs.length 0)
  | _ =>
    match takeIn inp x (leadBytes d) n with
    | .error e => .error e
    | .ok pre => match leadValue d pre with
      | none => fail 2 x.cur
      | some u => if d.len < u then fail 2 x.cur else value { x with cur := x.cur + pre.length } u

/-- FIELDS and RECORD: fields in ascending order, those whose bit is set, or all of them (R316). -/
def readFields (p inp : List Byte) (all : Bool) : List Nat → Parse → Except ParseFault Parse
  | [], x => .ok x
  | n :: r, x =>
    if all then
      match readField p inp x n with
      | .error e => .error e
      | .ok x => readFields p inp all r { x with recorded := if x.recorded.contains n then x.recorded else x.recorded ++ [n] }
    else if x.bits.contains n then
      match readField p inp x n with
      | .error e => .error e
      | .ok x => readFields p inp all r x
    else readFields p inp all r x

/-- Bytes of a BER tag at a place, where it ends before `stop` (R319). -/
def tagBytes (inp : List Byte) (pos stop : Nat) : Option Nat :=
  if stop ≤ pos then none
  else if fieldLe inp pos 1 % 32 ≠ 31 then some 1
  else ((List.range (stop - pos - 1)).find? (fun i => fieldLe inp (pos + 1 + i) 1 < 128)).map (· + 2)

/-- Bytes of a BER length at a place and its value: at most 3 bytes after the first, never indefinite (R319). -/
def berLength (inp : List Byte) (pos stop : Nat) : Option (Nat × Nat) :=
  if stop ≤ pos then none
  else
    let b := fieldLe inp pos 1
    if b < 128 then some (1, b)
    else if b = 128 ∨ 131 < b ∨ stop < pos + 1 + (b - 128) then none
    else some (1 + (b - 128), beNat (slice inp (pos + 1) (b - 128)))

/-- Index the BER-TLV objects of [pos, stop), in encounter order; a constructed object of depth below the limit is entered
(R319). `n` bounds the work, `first` is DESC_COUNT and `field` the field the fault is reported in. -/
def readTlv (inp : List Byte) (maxDepth first field : Nat) : Nat → Nat → Nat → Nat → Parse → Except ParseFault Parse
  | 0, _, _, _, x => .ok x
  | n + 1, pos, stop, depth, x =>
    if stop ≤ pos then .ok x
    else if fieldLe inp pos 1 = 0 then readTlv inp maxDepth first field n (pos + 1) stop depth x
    else
      let fail (reason : Nat) : Except ParseFault Parse := .error { reason := reason, at_ := pos, field := field }
      match tagBytes inp pos stop with
      | none => fail 6
      | some tl =>
        match berLength inp (pos + tl) stop with
        | none => fail 6
        | some (ll, len) =>
          let off := pos + tl + ll
          if stop < off + len then fail 6
          else if 192 ≤ first + x.tlvs then fail 9
          else
            let cons := bitOf (fieldLe inp pos 1) 5
            let tag := beNat (slice inp (pos + tl - min tl 2) (min tl 2))
            let type := (if cons then 5 else 4) * 2 ^ 21 + depth % 8 * 2 ^ 18 + bit (decide (2 < tl)) * 2 ^ 17 + tag
            let x := { x with entries := mset x.entries (first + x.tlvs) (indexEntry off len type), tlvs := x.tlvs + 1 }
            match (if cons ∧ depth < maxDepth then readTlv inp maxDepth first field n off (off + len) (depth + 1) x else .ok x) with
            | .error e => .error e
            | .ok x => readTlv inp maxDepth first field n (off + len) stop depth x

/-- Run a parse program from a code offset (R316); jumps only go forward, so `n` bounds the instructions. -/
def runParse (p inp : List Byte) : Nat → Nat → Parse → Except (ParseFault × Parse) Parse
  | 0, _, x => .ok x
  | n + 1, pc, x =>
    let (op, a, b) := fmtInstr p pc
    let bad (reason field : Nat) : Except (ParseFault × Parse) Parse := .error ({ reason := reason, at_ := x.cur, field := field }, x)
    let go (r : Except ParseFault Parse) : Except (ParseFault × Parse) Parse :=
      match r with
      | .error e => .error (e, x)
      | .ok x => runParse p inp n (pc + 4) x
    match op with
    | 0x01 => go ((takeIn inp x a 0).bind (fun bs =>
        let lim := x.cur + a + beNat bs
        if inp.length < lim then .error { reason := 1, at_ := x.cur, field := 0 } else .ok { x with cur := x.cur + a, limit := lim }))
    | 0x02 => go ((takeIn inp x b 0).map (fun bs => { x with cur := x.cur + bs.length }))
    | 0x03 => go ((takeIn inp x (if a = 3 then 2 else 4) 0).bind (fun bs =>
        match (if a = 3 then bcdDigits false bs else digitsOf a bs) with
        | none => .error { reason := 7, at_ := x.cur, field := 0 }
        | some ds => .ok { x with cur := x.cur + bs.length, mti := ds.foldl (fun v d => v * 16 + d) 0 }))
    | 0x04 => go (readMap p inp x a 0 0)
    | 0x05 => go (readFields p inp false ((List.range (b + 1)).filter (fun f => a ≤ f)) x)
    | 0x06 =>
      if a = 0 then go ((readTlv inp b (fmtDescs p) 0 (inp.length + 1) x.cur x.limit 1 x).map (fun y => { y with cur := x.limit }))
      else match mget x.entries (a - 1) with
        | some e => if x.has a then go (readTlv inp b (fmtDescs p) a (inp.length + 1) (fieldLe e 0 3) (fieldLe e 0 3 + fieldLe e 3 3) 1 x) else go (.ok x)
        | none => go (.ok x)
    | 0x07 => go (readFields p inp true ((List.range (b + 1)).filter (fun f => a ≤ f)) x)
    | 0x08 => runParse p inp n (if x.has a then b else pc + 4) x
    | 0x09 => runParse p inp n (if x.has a then pc + 4 else b) x
    | 0x0A => runParse p inp n b x
    | 0x0B => if x.limit < inp.length ∧ !(bitOf a 0) then .error ({ reason := 5, at_ := x.limit, field := 0 }, x) else .ok x
    | _ => bad a 0

/-- PRESENT: bit n − 1 for field n (R318). -/
def presentBytes (x : Parse) : List Byte := toLe 24 ((List.range 192).foldl (fun v i => v + bit (x.has (i + 1)) * 2 ^ i) 0)

/-- The 1,760 bytes of a successful parse (R318). -/
def parseOutput (p : List Byte) (x : Parse) : List Byte :=
  toLe 2 x.mti ++ toLe 1 (fmtDescs p + x.tlvs) ++ [0] ++ toLe 4 0xFFFFFFFF ++ presentBytes x
    ++ (List.range 192).flatMap (fun i => tget (zeros 9) x.entries i)

/-! BUILD (R320). -/

/-- Why a build ends without a message. -/
inductive BuildEnd where
  | invalid (v : Nat)
  | malformed
  deriving DecidableEq, Repr

/-- A build as it stands: the message so far, the places and widths of its length headers, and the list by field. -/
structure Build where
  out : List Byte := []
  hdrs : List (Nat × Nat) := []
  /-- Source bytes, VENC and ODD of each field listed. -/
  src : Table (List Byte × Nat × Bool) := []
  deriving DecidableEq, Repr

/-- Field n counts as present in a build (R316). -/
def Build.has (x : Build) (n : Nat) : Bool :=
  let listed (k : Nat) : Bool := (mget x.src k).isSome
  let third : Bool := (List.range 64).any (fun i => listed (129 + i))
  let second : Bool := (List.range 64).any (fun i => listed (65 + i))
  listed n || (n == 65 && third) || (n == 1 && (second || third))

/-- The build list by field: a field listed twice, an undefined descriptor, or bytes beyond LEN end the build (R320). -/
def buildList (p inp : List Byte) : List (List Byte) → Table (List Byte × Nat × Bool) → Except BuildEnd (Table (List Byte × Nat × Bool))
  | [], t => .ok t
  | e :: r, t =>
    let off := fieldLe e 0 3
    let len := fieldLe e 3 3
    let type := fieldLe e 6 3
    let n := type % 256
    if (mget t n).isSome ∨ (fmtDesc p n).kind = 0 ∨ inp.length < off + len then .error (.invalid n)
    else buildList p inp r (mset t n (slice inp off len, bitsOf type 20 17, bitOf type 16))

/-- Convert a value between encodings under R321: its bytes and its units. -/
def convertValue (sv dv : Nat) (odd : Bool) (n : Nat) (bs : List Byte) : Except BuildEnd (List Byte × Nat) :=
  let chars (o : Option (List Byte)) : Except BuildEnd (List Byte × Nat) := match o with
    | some cs => .ok (cs, cs.length)
    | none => .error .malformed
  if sv = dv then .ok (bs, if sv = 3 then 2 * bs.length - bit odd else bs.length)
  else if sv = 1 ∧ dv = 2 then chars (mapChars toEbcdic bs)
  else if sv = 2 ∧ dv = 1 then chars (mapChars fromEbcdic bs)
  else if (sv = 1 ∨ sv = 2) ∧ dv = 3 then
    match digitsOf sv bs with
    | some ds => .ok (bcdOf ds, ds.length)
    | none => .error .malformed
  else if sv = 3 ∧ (dv = 1 ∨ dv = 2) then chars ((bcdDigits odd bs).map (fun ds => ds.map (digitChar dv)))
  else .error (.invalid n)

/-- A length lead of a count (R315). -/
def leadOf (d : FmtDesc) (u : Nat) : List Byte :=
  let ds (k : Nat) : List Nat := (List.range k).map (fun i => u / 10 ^ (k - 1 - i) % 10)
  if d.penc = 0 then []
  else if d.penc = 4 then toBe (d.kind - 1) u
  else if d.penc = 3 then packNibbles (ds (2 * (d.kind - 1)))
  else (ds d.kind).map (digitChar d.penc)

/-- A bitmap of 64 fields from `base` + 1 on, in an encoding: binary, or upper-case hexadecimal. -/
def mapText (x : Build) (base venc : Nat) : List Byte :=
  let bs : List Byte := (List.range 8).map (fun i => BitVec.ofNat 8 ((List.range 8).foldl (fun v j => v * 2 + bit (x.has (base + 8 * i + j + 1))) 0))
  if venc = 0 then bs else if venc = 1 then hexText bs else ((mapChars toEbcdic (hexText bs)).getD [])

/-- Write field n (R320). -/
def writeField (p : List Byte) (x : Build) (n : Nat) : Except BuildEnd Build :=
  let d := fmtDesc p n
  let put (bs : List Byte) : Except BuildEnd Build := .ok { x with out := x.out ++ bs }
  if d.kind = 6 ∧ (n = 1 ∨ n = 65) then put (mapText x (if n = 1 then 64 else 128) d.venc)
  else match mget x.src n with
    | none => .error (.invalid n)
    | some (bs, sv, odd) =>
      if d.kind = 0 then .error (.invalid n)
      else if d.kind = 6 then
        if sv = d.venc ∧ bs.length = (if d.venc = 0 then 8 else 16) ∧ (mapBytes d.venc bs).isSome then put bs else .error (.invalid n)
      else match convertValue sv d.venc odd n bs with
        | .error e => .error e
        | .ok (v, u) =>
          if (classFault d v).isSome ∨ (if d.kind = 1 then u ≠ d.len else d.len < u) then .error (.invalid n)
          else put (leadOf d u ++ v)

/-- FIELDS and RECORD of a build. -/
def writeFields (p : List Byte) (all : Bool) : List Nat → Build → Except BuildEnd Build
  | [], x => .ok x
  | n :: r, x =>
    if all ∨ x.has n then
      match writeField p x n with
      | .error e => .error e
      | .ok x => writeFields p all r x
    else writeFields p all r x

/-- Put bytes over others at a place. -/
def overlay (bs : List Byte) (off : Nat) (v : List Byte) : List Byte := bs.take off ++ v ++ bs.drop (off + v.length)

/-- END of a build: each length header takes the number of bytes that follow it (R316). -/
def backFill (x : Build) : List Byte := x.hdrs.foldl (fun out h => overlay out h.1 (toBe h.2 (out.length - h.1 - h.2))) x.out

/-- MTI in an encoding (R316). -/
def mtiText (venc mti : Nat) : List Byte :=
  let ds : List Nat := [mti / 4096 % 16, mti / 256 % 16, mti / 16 % 16, mti % 16]
  if venc = 3 then packNibbles ds else ds.map (digitChar venc)

/-- Run a build program from a code offset (R316). -/
def runBuild (p : List Byte) (mti : Nat) : Nat → Nat → Build → Except BuildEnd (List Byte)
  | 0, _, x => .ok (backFill x)
  | n + 1, pc, x =>
    let (op, a, b) := fmtInstr p pc
    let put (bs : List Byte) : Except BuildEnd (List Byte) := runBuild p mti n (pc + 4) { x with out := x.out ++ bs }
    let go (r : Except BuildEnd Build) : Except BuildEnd (List Byte) :=
      match r with
      | .error e => .error e
      | .ok x => runBuild p mti n (pc + 4) x
    match op with
    | 0x05 => go (writeFields p false ((List.range (b + 1)).filter (fun f => a ≤ f)) x)
    | 0x07 => go (writeFields p true ((List.range (b + 1)).filter (fun f => a ≤ f)) x)
    | 0x08 => runBuild p mti n (if x.has a then b else pc + 4) x
    | 0x09 => runBuild p mti n (if x.has a then pc + 4 else b) x
    | 0x0A => runBuild p mti n b x
    | 0x0B => .ok (backFill x)
    | 0x21 => runBuild p mti n (pc + 4) { x with out := x.out ++ zeros a, hdrs := x.hdrs ++ [(x.out.length, a)] }
    | 0x22 => put ((toLe 2 b).take a)
    | 0x23 => put (mtiText a mti)
    | 0x24 => put (mapText x 0 a)
    | _ => .error (.invalid a)

/-! CONVERT (R321). -/

/-- The conversion of a code; none is MESSAGE_MALFORMED, reason 0x03. -/
def convert (code : Nat) (odd : Bool) (inp : List Byte) : Option (List Byte) :=
  match code with
  | 0 => mapChars toEbcdic inp
  | 1 => mapChars fromEbcdic inp
  | 2 => (digitsOf 1 inp).map bcdOf
  | 3 => (bcdDigits odd inp).map (fun ds => ds.map (digitChar 1))
  | 4 => if inp.length % 2 = 1 then none else (mapChars (fun c => (hexDigit c).map (BitVec.ofNat 8)) inp).map (fun ds => packNibbles (ds.map (·.toNat)))
  | _ => some (hexText inp)

/-! XML_TOKENS (R322). -/

/-- White space of XML. -/
def xmlWs (c : Nat) : Bool := c == 0x20 || c == 9 || c == 10 || c == 13
/-- A byte that may start a name, and one that may go on with it. -/
def xmlNameStart (c : Nat) : Bool := (0x41 ≤ c && c ≤ 0x5A) || (0x61 ≤ c && c ≤ 0x7A) || c == 0x5F || c == 0x3A || 0x80 ≤ c
def xmlNameChar (c : Nat) : Bool := xmlNameStart c || (0x30 ≤ c && c ≤ 0x39) || c == 0x2D || c == 0x2E

/-- A piece of markup: its tokens (kind, offset, length), the rest of the input, and the change of depth. -/
inductive XmlItem where
  | item (tokens : List (Nat × Nat × Nat)) (used : Nat) (up down : Bool)
  /-- The input ends inside it. -/
  | cut
  | broken
  deriving DecidableEq, Repr

/-- The attributes of a tag from a place on: the tokens, the place after the closing ">", and whether the tag is empty. -/
def xmlAttrs (base : Nat) : Nat → List Byte → List (Nat × Nat × Nat) → Nat → Option (Option (List (Nat × Nat × Nat) × Nat × Bool))
  | 0, _, _, _ => some none
  | n + 1, bs, acc, pos =>
    let ws := (bs.takeWhile (fun b => xmlWs b.toNat)).length
    match bs.drop ws with
    | [] => some none
    | c :: r =>
      let pos := pos + ws
      if c.toNat = 0x3E then some (some (acc, pos + 1, false))
      else if c.toNat = 0x2F then
        match r with
        | [] => some none
        | d :: _ => if d.toNat = 0x3E then some (some (acc, pos + 2, true)) else none
      else if !(xmlNameStart c.toNat) then none
      else
        let name := (c :: r).takeWhile (fun b => xmlNameChar b.toNat)
        let r1 := (c :: r).drop name.length
        let w1 := (r1.takeWhile (fun b => xmlWs b.toNat)).length
        match r1.drop w1 with
        | [] => some none
        | e :: r2 =>
          if e.toNat ≠ 0x3D then none
          else
            let w2 := (r2.takeWhile (fun b => xmlWs b.toNat)).length
            match r2.drop w2 with
            | [] => some none
            | q :: r3 =>
              if q.toNat ≠ 0x22 ∧ q.toNat ≠ 0x27 then none
              else
                let v := r3.takeWhile (fun b => b != q)
                if v.length = r3.length then some none
                else
                  let vOff := pos + name.length + w1 + 1 + w2 + 1
                  xmlAttrs base n (r3.drop (v.length + 1)) (acc ++ [(4, base + pos, name.length), (5, base + vOff, v.length)]) (vOff + v.length + 1)

/-- Place of a byte string in another. -/
def findSub (needle : List Byte) : List Byte → Nat → Option Nat
  | [], k => if needle.isEmpty then some k else none
  | b :: r, k => if (b :: r).take needle.length == needle then some k else findSub needle r (k + 1)

/-- Place of the ">" that ends a declaration, outside its quotes and brackets. -/
def declEnd : List Byte → Nat → Nat → Option Byte → Option Nat
  | [], _, _, _ => none
  | b :: r, k, depth, some q => declEnd r (k + 1) depth (if b = q then none else some q)
  | b :: r, k, depth, none =>
    let c := b.toNat
    if c = 0x22 ∨ c = 0x27 then declEnd r (k + 1) depth (some b)
    else if c = 0x5B then declEnd r (k + 1) (depth + 1) none
    else if c = 0x5D then declEnd r (k + 1) (depth - 1) none
    else if c = 0x3E ∧ depth = 0 then some k
    else declEnd r (k + 1) depth none

/-- A body between an opening of `o` bytes and a closing string. -/
def xmlBody (base kind o : Nat) (close bs : List Byte) : XmlItem :=
  match findSub close (bs.drop o) 0 with
  | none => .cut
  | some n => .item [(kind, base + o, n)] (o + n + close.length) false false

/-- The markup that begins with "<" at a place of the input. -/
def xmlMarkup (base : Nat) (bs : List Byte) : XmlItem :=
  let startsWith (v : List Byte) : Bool := bs.take v.length == v
  let couldBe (v : List Byte) : Bool := bs.length < v.length && v.take bs.length == bs
  match bs with
  | _ :: c :: _ =>
    if c.toNat = 0x2F then
      match bs.drop 2 with
      | [] => .cut
      | d :: _ =>
        if !(xmlNameStart d.toNat) then .broken
        else
          let name := (bs.drop 2).takeWhile (fun b => xmlNameChar b.toNat)
          let r := bs.drop (2 + name.length)
          let ws := (r.takeWhile (fun b => xmlWs b.toNat)).length
          match r.drop ws with
          | [] => .cut
          | e :: _ => if e.toNat = 0x3E then .item [(2, base + 2, name.length)] (2 + name.length + ws + 1) false true else .broken
    else if c.toNat = 0x3F then xmlBody base 8 2 [0x3F, 0x3E] bs
    else if c.toNat = 0x21 then
      let comment : List Byte := [0x3C, 0x21, 0x2D, 0x2D]
      let cdata : List Byte := [0x3C, 0x21, 0x5B, 0x43, 0x44, 0x41, 0x54, 0x41, 0x5B]
      if startsWith comment then xmlBody base 7 4 [0x2D, 0x2D, 0x3E] bs
      else if startsWith cdata then xmlBody base 9 9 [0x5D, 0x5D, 0x3E] bs
      else if couldBe comment ∨ couldBe cdata then .cut
      else match declEnd (bs.drop 2) 0 0 none with
        | none => .cut
        | some n => .item [(8, base + 2, n)] (n + 3) false false
    else if xmlNameStart c.toNat then
      let name := (bs.drop 1).takeWhile (fun b => xmlNameChar b.toNat)
      let r := bs.drop (1 + name.length)
      match r with
      | [] => .cut
      | e :: _ =>
        if !(xmlWs e.toNat) ∧ e.toNat ≠ 0x3E ∧ e.toNat ≠ 0x2F then .broken
        else match xmlAttrs base (bs.length + 1) r [] (1 + name.length) with
          | none => .broken
          | some none => .cut
          | some (some (toks, used, emp)) => .item ((if emp then 3 else 1, base + 1, name.length) :: toks) used (!emp) false
    else .broken
  | _ => .cut

/-- How an XML request ends: its value, or a broken tag. -/
inductive XmlEnd where
  | complete | filled | cutOff | broken
  deriving DecidableEq, Repr

/-- Tokenise from a place on: tokens written (9 bytes each, at most `room`), and the end of the last complete piece. Depth is
the number of start tags minus end tags before the piece, never below 0. -/
def xmlRun (room : Nat) : Nat → List Byte → Nat → Nat → List (List Byte) → List (List Byte) × Nat × XmlEnd
  | 0, _, pos, _, acc => (acc, pos, .complete)
  | n + 1, bs, pos, depth, acc =>
    match bs with
    | [] => (acc, pos, .complete)
    | c :: _ =>
      let word (t : Nat × Nat × Nat) : List Byte := indexEntry t.2.1 t.2.2 (t.1 * 2 ^ 20 + depth % 2 ^ 20)
      if c.toNat = 0x3C then
        match xmlMarkup pos bs with
        | .cut => (acc, pos, .cutOff)
        | .broken => (acc, pos, .broken)
        | .item toks used up down =>
          if room < acc.length + toks.length then (acc, pos, .filled)
          else xmlRun room n (bs.drop used) (pos + used) (if up then depth + 1 else if down then depth - 1 else depth) (acc ++ toks.map word)
      else
        let text := bs.takeWhile (fun b => b.toNat != 0x3C)
        if text.all (fun b => xmlWs b.toNat) then xmlRun room n (bs.drop text.length) (pos + text.length) depth acc
        else if text.length = bs.length then (acc, pos, .cutOff)
        else if room < acc.length + 1 then (acc, pos, .filled)
        else xmlRun room n (bs.drop text.length) (pos + text.length) depth (acc ++ [word (6, pos, text.length)])

/-! Requests (R309 to R311). -/

/-- The request block of CP0 by function: fields not used must be 0 (R310). -/
def tallyPrep (cfn : Nat) (b : List Byte) : Except Word (List DataRange) :=
  let build := decide (cfn = 1)
  let formatOk := cfn != 2 || zeroAt b 0 1
  let optOk := if cfn = 3 then decide (fieldLe b 1 1 ≤ 1) else zeroAt b 1 1
  let buildOk := if build then decide (fieldLe b 2 2 ≤ 192) && farOk b 0x20 else zeroAt b 2 2 && zeroAt b 0x20 8 && zeroAt b 0x28 2
  if !(formatOk && optOk && buildOk && zeroAt b 0x2A 6 && farOk b 8 && farOk b 0x10) then .error cpBadFormat
  else if cfn = 3 ∧ 5 < fieldLe b 0 1 then .error cpBadFormat
  else if 65536 < fieldLe b 4 4 then .error cpLength
  else .ok ([{ va := fieldLe b 8 8, len := fieldLe b 4 4 }, { write := true, va := fieldLe b 0x10 8, len := fieldLe b 0x18 4 }]
    ++ (if build then [{ va := fieldLe b 0x20 8, len := 9 * fieldLe b 2 2 }] else []))

/-- What a request comes to: RESULT, the output bytes, the status and the value. -/
structure TallyOut where
  result : Nat := 0
  out : List Byte := []
  status : Nat := 0
  value : Nat := 0
  deriving DecidableEq, Repr

/-- A request that fails: RESULT and the output bytes are free values, but for what is given (R311). -/
def tallyFail (ctr dstLen status value : Nat) (head : List Byte) : TallyOut :=
  { result := leNat (randomBytes (ctr + 1) 4), out := (head ++ (randomBytes ctr dstLen).drop head.length), status := status, value := value }

/-- The operation of a request (R317 to R322); none where nothing is written but the status (R318). -/
def tallyOp (formats : Table (List Byte)) (ctr cfn : Nat) (b : List Byte) (ins : List (List Byte)) : Option TallyOut :=
  let inp := in0 ins
  let dstLen := fieldLe b 0x18 4
  let prog := tget [] formats (fieldLe b 0 1)
  let loaded := !prog.isEmpty && fmtKind prog == cfn
  match cfn with
  | 0 =>
    if dstLen < 1760 then none
    else if !loaded then some (tallyFail ctr 1760 0x0406 0 [])
    else match runParse prog inp (fmtCodeLen prog / 4) 0 { limit := inp.length } with
      | .ok x => some { result := x.cur, out := parseOutput prog x, value := fmtDescs prog + x.tlvs }
      | .error (e, _) =>
        some (tallyFail ctr 1760 0x0405 e.field ((randomBytes ctr 3) ++ toLe 1 e.reason ++ toLe 4 e.at_))
  | 1 =>
    if !loaded then some (tallyFail ctr dstLen 0x0406 0 [])
    else
      let built : Except BuildEnd (List Byte) :=
        match buildList prog inp ((List.range (fieldLe b 2 2)).map (fun i => slice (in1 ins) (9 * i) 9)) [] with
        | .error e => .error e
        | .ok t => runBuild prog (fieldLe b 0x28 2) (fmtCodeLen prog / 4) 0 { src := t }
      match built with
      | .ok m =>
        if dstLen < m.length then some { tallyFail ctr dstLen 0x0403 0 [] with result := m.length }
        else some { result := m.length, out := m }
      | .error (.invalid v) => some (tallyFail ctr dstLen 0x0407 v [])
      | .error .malformed => some (tallyFail ctr dstLen 0x0405 0 [])
  | 2 =>
    let (toks, pos, e) := xmlRun ((dstLen - 4) / 9) (inp.length + 1) inp 0 0 []
    let out := if dstLen < 4 then [] else toLe 4 toks.length ++ toks.flatten
    if dstLen < 4 then some { value := 1 }
    else match e with
      | .complete => some { result := pos, out := out }
      | .filled => some { result := pos, out := out, value := 1 }
      | .cutOff => some { result := pos, out := out, value := 2 }
      | .broken => some (tallyFail ctr dstLen 0x0405 0 [])
  | _ =>
    match convert (fieldLe b 0 1) (bitOf (fieldLe b 1 1) 0) inp with
    | none => some (tallyFail ctr dstLen 0x0405 0 [])
    | some m =>
      if dstLen < m.length then some { tallyFail ctr dstLen 0x0403 0 [] with result := m.length }
      else some { result := m.length, out := m }

/-- The writes of a request of Tally, and its status word (R112, R309). -/
def tallyEnd (s : State) (th : ThreadId) (o : TallyOut) (l : List (Nat × List Byte)) : State × Word :=
  let (s, w) := writeAll s th l
  (s, if w = 0 then cpWord o.status o.value else w)

/-- Tally writes RESULT and its output before it posts the status word (R177, R311). -/
def runTally (s : State) (th : ThreadId) (cfn at_ : Nat) (b : List Byte) (ins : List (List Byte)) : State × Word :=
  let p := pierOf s th.pier.val
  let formats := match p.oldFormat with
    | some f => mset s.formats (fieldLe b 0 1) f
    | none => s.formats
  let s := setPier s th.pier.val { p with oldFormat := none }
  match tallyOp formats s.freeCtr cfn b ins with
  | none => (s, cpWord 0x0403 0)
  | some o =>
    tallyEnd { s with freeCtr := s.freeCtr + 2 } th o
      [(nearVa (thr s th).arch (BitVec.ofNat 24 at_) + 0x1C, toLe 4 o.result), (fieldLe b 0x10 8, o.out)]

/-- A submit to CP0. -/
def tallySubmit (th : ThreadId) (cd ca : RegField) (cfn : Nat) (s : State) : State :=
  cpSubmit th 0 cd ca 48 cfn true true true (fun _ b => tallyPrep cfn b) s

/-- PARSE (R309, R318). -/
def execParse (th : ThreadId) (cd ca : RegField) (s : State) : Out := .next (tallySubmit th cd ca 0 s)
/-- BUILD (R309, R320). -/
def execBuild (th : ThreadId) (cd ca : RegField) (s : State) : Out := .next (tallySubmit th cd ca 1 s)
/-- XML_TOKENS (R309, R322). -/
def execXmlTokens (th : ThreadId) (cd ca : RegField) (s : State) : Out := .next (tallySubmit th cd ca 2 s)
/-- CONVERT (R309, R321). -/
def execConvert (th : ThreadId) (cd ca : RegField) (s : State) : Out := .next (tallySubmit th cd ca 3 s)

/-! The end of a coprocessor operation (R111, R112, R177). -/

/-- Run the request of a thread in its unit and post its status word. -/
def runRequest (s : State) (th : ThreadId) (n : Fin 3) : State :=
  match (thr s th).cp.get n with
  | .queued cfn at_ b ins =>
    let (s, w) := if n = 0 then runTally s th cfn at_ b ins else if n = 1 then runCp1 s th cfn b ins else runHash s th cfn b ins
    cpPost s th n w
  | _ => s

/-- COPROCESSOR_RESULT_POSTED: the unit finishes the request at the head of its queue and posts its status word, waking a
thread in WAITCP (R111, R112). The end of a cancelled request only frees the unit, and its thread where nothing else runs (R110). -/
def execCoprocessorResultPosted (pier : PierId) (cp : Fin 3) (s : State) : Out :=
  .next (
    let p := pierOf s pier.val
    match p.cpq.get cp with
    | [] => s
    | h :: r =>
      if !(running s) ∨ (basinOf s (pier.val / 4)).checkstopped then s
      else
        let s := setPier s pier.val { p with cpq := p.cpq.set cp.val r cp.isLt }
        let th : ThreadId := ⟨pier.val * 64 + h % 64, by omega⟩
        if 64 ≤ h then freeIfDone (if cp = 0 then setPier s pier.val { pierOf s pier.val with oldFormat := none } else s) th
        else runRequest s th cp)

/-! Completion timeouts (R90, R374, R401). -/

/-- Tenant a DMA read is made for. -/
def readTenant (s : State) : ReadPurpose → Nat
  | .source seq => ((consOf s seq).map (·.tenant)).getD 0
  | .job id => ((jobOf s id).map (·.tenant)).getD 0
  | .hostLoad th => tenantOfThread s th

/-- Both VFs of a tenant are in service and either may carry its traffic (R90, R404). -/
def redrivable (s : State) (t : Nat) : Bool := !(tdispBound s t) && vfInServiceB s .a t && vfInServiceB s .b t

/-- COMPLETION_TIMEOUT: the read is re-issued through the other port, and stays outstanding, where the tenant has one in service;
otherwise it fails with DMA_ERROR (R90, R374, R401). -/
def execCompletionTimeout (w : ReadPurpose) (s : State) : Out :=
  if redrivable s (readTenant s w) then .next s else execSourceReadComplete w .error s

end Sys2Proof.Machine
end

