-- ==== Sys2Proof/Machine/MailBase.lean ====
section
/-! DEFINITION. How the Pilot takes, checks, runs and answers a mailbox command (18). -/

namespace Sys2Proof.Machine

/-- A write to the mailbox page of PF0 reaches the Harbour: powered, not halted, link up, PF0 in D0 (R378, R396). -/
def mailMmio (s : State) (p : Port) : Bool :=
  (match s.dev.st with
    | .off | .halted => false
    | _ => true) && (portOf s p).link && decide ((portOf s p).dstate = .d0)

/-- The Pilot runs commands: in service or in the Slipway, and not restarting (R449, R462); from Doldrums it first wakes (R415). -/
def pilotUp (s : State) : Bool := (running s || decide (s.dev.st = .slipway)) && !(islandOf s islPilot).reset

/-- A bit of the settings bank in force (R447). -/
def settingBit (s : State) (i : Nat) : Bool := bitOf (fieldLe s.dev.bank 0 256) i

/-- A secure IDE link stream protects a port (R402, R459). -/
def ideLink (s : State) (p : Port) : Bool :=
  (List.range 4).any (fun k => let x := tget {} s.ide (p.num * 4 + k); x.used && x.link && x.secure)

/-- What a command's own conditions and effect come to (R459 check 8, R460, R461). -/
inductive MbAct where
  /-- Refused: the status and DETAIL. -/
  | fail (status detail : Nat)
  /-- Done, with OK and this body. -/
  | done (s : State) (body : List Byte)
  /-- Done, with another status. -/
  | ends (s : State) (status detail : Nat) (body : List Byte)
  /-- It stays BUSY for what `arg` names; its response needs `need` bytes; the commit step is past or not. -/
  | wait (s : State) (arg aux need : Nat) (committed : Bool)
  /-- It stays BUSY and is looked at again. -/
  | again (s : State)
  /-- It resets the Harbour and has no response (R449). -/
  | gone (s : State)

/-- A mailbox command (R464). -/
structure MbCmd where
  op : Nat
  /-- It requires the helm. -/
  helm : Bool := true
  /-- It is accepted in the Slipway. -/
  slip : Bool := false
  /-- It requires an owner co-signature. -/
  dual : State → MbReq → List Byte → Bool := fun _ _ _ => false
  /-- Time limit in ms. -/
  limit : List Byte → Nat := fun _ => 10000
  /-- Offset of the first field of a body that is malformed or out of range (R456). -/
  bad : State → MbReq → List Byte → Option Nat
  /-- Its own conditions and its effect. -/
  act : State → MbReq → List Byte → MbAct

/-- Bytes a response body may take (R457). -/
def mbSpace (m : MbReq) : Nat := if m.flags.getLsbD 0 then (m.outs.map (·.len)).sum else 4080

/-- The body with its co-signature block, and without it (R456, R458). -/
def mbWhole (m : MbReq) : List Byte := slice m.body 0 m.length.toNat
def mbBody (m : MbReq) : List Byte := if m.flags.getLsbD 1 then (mbWhole m).take (m.length.toNat - 136) else mbWhole m

/-- The request header (R455). -/
def mbHeader (m : MbReq) (op : Nat) : List Byte := toLe 2 op ++ toLe 2 m.flags.toNat ++ toLe 4 m.tag.toNat ++ toLe 4 m.length.toNat ++ toLe 4 m.dmaLo.toNat

/-- Check 1: the header (R455, R459). -/
def mbHeaderBad (m : MbReq) (op : Nat) : Option Nat :=
  let f := m.flags.toNat
  if 8 ≤ f ∨ (bitOf f 2 ∧ op ≠ 0x0B01) then some 2
  else if (if bitOf f 0 then 67108864 else 4080) < m.length.toNat then some 8
  else if (if bitOf f 0 then m.dmaLo.toNat % 16 ≠ 0 else m.dmaLo ≠ 0) then some 12
  else none

/-- A body of exactly n bytes, else the offset at which it ends or goes on. -/
def lenBad (n : Nat) (b : List Byte) : Option Nat := if b.length = n then none else some (min n b.length)

/-- The offset of the first condition that fails. -/
def firstBad : List (Bool × Nat) → Option Nat
  | [] => none
  | (ok, off) :: r => if ok then firstBad r else some off

/-- A body of n bytes whose fields pass. -/
def bodyBad (n : Nat) (b : List Byte) (l : List (Bool × Nat)) : Option Nat :=
  match lenBad n b with
  | some o => some o
  | none => firstBad l

/-- DC_SEQ of a co-signature block (R458). -/
def dcOf (m : MbReq) : Nat := fieldLe (mbWhole m) (m.length.toNat - 136) 8

/-- UNIT as the Harbour reports it: zero when DECOMMISSIONED (R303, R305). -/
def unitBytes (s : State) : List Byte := if s.otp.lifecycle = 3 then zeros 32 else toBe 32 Config.unit.toNat

/-- The co-signature verifies under the current owner key, for a DC_SEQ above the last one (R257, R305, R458). -/
def cosigOk (s : State) (m : MbReq) (op : Nat) : Bool :=
  let n := m.length.toNat
  let b := mbWhole m
  let pub := slice b (n - 128) 64
  let msg := toLe 8 (dcOf m) ++ unitBytes s ++ mbHeader m op ++ b.take (n - 64) ++ zeros 64
  decide (136 ≤ n) && (match s.otp.owners.getLast? with
    | some h => sm3Bytes pub == h
    | none => false) && decide (s.sroom.dcSeq < dcOf m) && Config.pkVerify 0 0 pub msg (slice b (n - 64) 64)

/-- A response with no body (R455). -/
def mbRefuse (s : State) (m : MbReq) (status detail : Nat) : State := mbAnswer s m.port { status := status, tag := m.tag.toNat, detail := detail }

/-- A command stays BUSY. -/
def mbBusy (s : State) (p : Port) (r : MbRun) : State := setMail s p { mailOf s p with st := 2, run := some r }

/-- The run of a request. -/
def mbRunOf (s : State) (c : MbCmd) (m : MbReq) : MbRun :=
  { opcode := c.op, tag := m.tag.toNat, dma := m.flags.getLsbD 0, space := mbSpace m, outs := m.outs,
    readOnly := !c.helm && c.op != 0x0B01, since := nowNs s, limitMs := c.limit (mbBody m) }

/-- Run a command whose checks 1 to 7 have passed (R459 check 8, R457). -/
def mbProceed (c : MbCmd) (m : MbReq) (s : State) : State :=
  let r := mbRunOf s c m
  let fits (n : Nat) (go : State) : State := if r.space < n then mbRefuse s m 0x0403 n else go
  match c.act s m (mbBody m) with
  | .fail st d => mbRefuse s m st d
  | .done s' body => fits body.length (mbDeliver s' m.port r { dma := r.dma, tag := r.tag, body := body })
  | .ends s' st d body => fits body.length (mbDeliver s' m.port r { status := st, dma := r.dma, tag := r.tag, detail := d, body := body })
  | .wait s' arg aux need committed => fits need (mbBusy s' m.port { r with arg := arg, aux := aux, committed := committed })
  | .again s' => mbBusy s' m.port { r with req := some m, checked := true }
  | .gone s' => s'

/-- Checks 1 to 7 of R459: the refusal, if any. -/
def mbCheck (c : MbCmd) (m : MbReq) (s : State) : Option (Nat × Nat) :=
  let slipway := decide (s.dev.st = .slipway)
  match mbHeaderBad m c.op with
  | some o => some (0x0806, o)
  | none =>
    if slipway && !c.slip then some (0x0801, 0)
    else if settingBit s 4 && !(ideLink s m.port) && c.op != 0x0101 then some (0x080B, 0)
    else if c.helm && !slipway && decide (s.helm.holder ≠ some m.port) then some (0x0802, 0)
    else match m.dmaFail with
      | some i => some (0x0807, i)
      | none =>
        if (m.flags.getLsbD 1 && decide (m.length.toNat < 136)) || (m.flags.getLsbD 0 && m.body.length != m.length.toNat) then some (0x0806, 0)
        else match c.bad s m (mbBody m) with
          | some o => some (0x0806, o)
          | none =>
            if m.flags.getLsbD 1 then (if cosigOk s m c.op then none else some (0x0803, 0))
            else if c.dual s m (mbBody m) then some (0x0803, 0)
            else none

/-- The Pilot takes a request: the checks, then the command. An accepted DC_SEQ is journalled before the command acts (R257). -/
def mbStart (c : MbCmd) (m : MbReq) (s : State) : State :=
  match mbCheck c m s with
  | some (st, d) => mbRefuse s m st d
  | none =>
    if m.flags.getLsbD 1 && decide (s.dev.st ≠ .slipway) then
      match c.act s m (mbBody m) with
      | .fail st d => mbRefuse s m st d
      | _ => mbBusy (journalAdd s (.dcSeq (dcOf m))) m.port { mbRunOf s c m with req := some m, dc := some (dcOf m) }
    else mbProceed c m s

/-- A GO with a request in the buffer (R452 to R454): ignored while BUSY, answered with MB_NOT_READY while STARTING; a GO made
while the Pilot restarts or the Harbour wakes stays BUSY until it can run (R415, R462). Sources 0xF10 or 0xF11 and 0xF12 or
0xF13 arrive (R357). -/
def mbGo (c : MbCmd) (m : MbReq) (s : State) : State :=
  if !(mailMmio s m.port) then s
  else
    let b := mailOf s m.port
    if b.st = 0 then setMail s m.port { b with resp := some { status := 0x0808, tag := m.tag.toNat } }
    else
      let s := arrive (touchPort s m.port) (0xF12 + m.port.num) m.port.num false
      if b.st = 2 then setMail s m.port { b with ignored := satInc b.ignored 255 }
      else if !(pilotUp s) then mbBusy s m.port { mbRunOf s c m with req := some m }
      else mbStart c m s

/-- FN_STATE.STATE of a tenant (R380). -/
def stateCode : TState → Nat
  | .absent => 0
  | .quiesced => 1
  | .running => 2
  | .quiescing => 3
  | .squashed => 4
  | .error => 5

/-- MB_BAD_STATE with a tenant's state (R468). -/
def badTenant (s : State) (t : Nat) : MbAct := .fail 0x0809 (stateCode (tenantOf s t).state)

/-- No consignment is in flight, and no tenant is IN_SERVICE, QUIESCING or ERROR (R465, R471). -/
def quiet (s : State) : Bool :=
  !(s.cons.any (fun e => e.2.entry)) && s.tenants.all (fun e => match e.2.state with
    | .running | .quiescing | .error => false
    | _ => true)

/-- Write the configuration store (R426). -/
def saveConf (s : State) : State :=
  let keep (v : Tenant) : Option StoredTenant := if v.state = .absent then none else some { ports := v.ports, quota := v.quota, classes := v.classes }
  { s with conf := {
      tenants := s.tenants.filterMap (fun e => (keep e.2).map (fun x => (e.1, x))),
      parts := s.parts.map (fun e => (e.1, match e.2.next with
        | some h => h
        | none => e.2.home)),
      policy := s.policy, watch := s.watch, cfg := { s.cfg with configured := false, hostLog2 := 0, hostBase := 0, hostHead := 0, hostNext := 0 } } }

end Sys2Proof.Machine
end

