-- ==== Sys2Proof/Machine/TenantCmds.lean ====
section
/-! DEFINITION. Mailbox commands of device, helm, time, tenants and queues (15, 18, R464 to R468). -/

namespace Sys2Proof.Machine

/-- A body that must be empty. -/
def noBody (_ : State) (_ : MbReq) (b : List Byte) : Option Nat := lenBad 0 b

/-! Device, helm and time. -/

/-- Manifest and images of a slot (R427, R429). -/
def slotSet : Slot → Option FwSet
  | .factory => some { manifest := Config.factoryManifest, images := Config.factoryImages }
  | .empty => none
  | .held x => some x

/-- Manifest of a slot, empty where it holds none. -/
def manifestOf (x : Slot) : List Byte := ((slotSet x).map (·.manifest)).getD []

/-- A thermometer of a level in 32 bytes (R431, R446). -/
def thermometer (n : Nat) : List Byte := toLe 32 (2 ^ min n 256 - 1)

/-- n generations of k bytes; blank ones are 0. -/
def generations (n k : Nat) (l : List (List Byte)) : List Byte := (List.range n).flatMap (fun i => slice ((l[i]?).getD []) 0 k)

/-- The body of GET_DEVICE_INFO (R464). -/
def deviceInfo (s : State) (p : Port) : List Byte :=
  toLe 2 0x4256 ++ toLe 1 2 ++ toLe 1 s.otp.lifecycle ++ toLe 4 (fieldLe (manifestOf s.fw.running) 0x0C 4)
    ++ toLe 1 (bit (decide (s.dev.st = .slipway))) ++ toLe 1 (match s.helm.holder with
      | none => 0
      | some h => h.num + 1) ++ toLe 1 p.num ++ toLe 1 s.fw.active ++ toLe 8 (harbourNs s) ++ unitBytes s
    ++ toBe 32 Config.chainHash.toNat ++ generations 4 32 s.otp.owners ++ (List.range 4).flatMap (fun c => thermometer ((s.otp.arb[c]?).getD 0))
    ++ generations 4 256 s.otp.settings

def cmdGetDeviceInfo : MbCmd := {
  op := 0x0101, helm := false, slip := true, bad := noBody, act := fun s m _ => .done s (deviceInfo s m.port) }
/-- GET_DEVICE_INFO (R464). -/
def execGetDeviceInfo (m : MbReq) (s : State) : Out := .next (mbGo cmdGetDeviceInfo m s)

/-- A mask of the units in service: island `base` + n for bit n. -/
def unitMask (s : State) (base n : Nat) : Nat := (List.range n).foldl (fun v i => v + bit (!(islandOf s (base + i)).out) * 2 ^ i) 0

/-- Berths that hold a pair, and spare pairs (R15, R464). -/
def activeBerths (s : State) : Nat := ((List.range 16).map (fun p => ((pierOf s p).pos.toList.filter (fun v => v.pair.isSome)).length)).foldl (· + ·) 0
def sparePairs (s : State) : Nat :=
  ((List.range 16).map (fun p => (((pierOf s p).pairs.toList.zipIdx).filter (fun e => decide (e.1.use = .spare) && !(islandOf s (islPair (p * 18 + e.2))).out)).length)).foldl (· + ·) 0

/-- In-flight entries held (R475). -/
def inflightUsed (s : State) : Nat := (s.cons.filter (fun e => e.2.entry)).length

/-- Handlers loaded, images that HANDLER_LOAD has replaced not counted (R470). -/
def loadedHandlers (s : State) : Nat := (s.handlers.filter (fun e => decide (e.1 < 65536))).length

/-- The body of GET_CAPS (R464). -/
def deviceCaps (s : State) : List Byte :=
  toLe 2 (activeBerths s) ++ toLe 2 (sparePairs s) ++ toLe 4 (unitMask s 512 32) ++ toLe 2 (unitMask s 544 16) ++ toLe 1 (unitMask s 560 8)
    ++ toLe 1 ((List.range 4).foldl (fun v b => v + bit (basinUp s b) * 2 ^ b) 0) ++ toLe 1 (unitMask s 568 2) ++ toLe 1 (unitMask s 570 2)
    ++ toLe 1 (unitMask s 572 2) ++ [0] ++ toLe 4 s.anchorFree ++ toLe 4 (inflightUsed s)
    ++ toLe 2 (min 65535 (Config.handlerRoom - loadedHandlers s)) ++ toLe 2 (256 - s.formats.length)

def cmdGetCaps : MbCmd := { op := 0x0102, helm := false, bad := noBody, act := fun s _ _ => .done s (deviceCaps s) }
/-- GET_CAPS (R464). -/
def execGetCaps (m : MbReq) (s : State) : Out := .next (mbGo cmdGetCaps m s)

/-- Unconfirmed batches and store writes go through the manager's current port again (R76, R227, R388). -/
def followManager (s : State) : State :=
  let p := managerPort s
  { s with ledgers := s.ledgers.map (fun e => (e.1, { e.2 with flushing := e.2.flushing.map (fun x => { x with port := p }) })),
           sroom := { s.sroom with keys := s.sroom.keys.map (fun e => (e.1, { e.2 with store := e.2.store.map (fun w => { w with port := p }) })) } }

/-- Sources that name PF0 of the other port are moved to the same queue of this one (R386). -/
def retarget (s : State) (p : Port) : State :=
  { s with sources := s.sources.map (fun e =>
      if e.2.kind = 3 ∧ e.2.target / 32 % 2 = p.other.num then (e.1, { e.2 with target := e.2.target % 32 + 32 * p.num }) else e) }

/-- A PF0 takes or renews the helm for a lease in ms (R384 to R386, R388). -/
def takeHelm (s : State) (p : Port) (ms : Nat) : State :=
  let h := s.helm
  let now := nowNs s
  let s := { s with helm := { holder := some p, last := p, since := now, expiry := now + ms * 1000000, told75 := false } }
  if h.holder = some p then s
  else
    let s := if h.last = p then s else followManager (retarget s p)
    arrive s 0xB03 p.num false

def cmdHelmAcquire : MbCmd := {
  op := 0x0B01, helm := false, dual := fun _ m _ => m.flags.getLsbD 2,
  bad := fun _ _ b => let ms := fieldLe b 0 4; bodyBad 4 b [(ms == 0 || (decide (100 ≤ ms) && decide (ms ≤ 60000)), 0)],
  act := fun s m b =>
    let ms := if fieldLe b 0 4 = 0 then 10000 else fieldLe b 0 4
    if s.helm.holder = some m.port.other ∧ !(m.flags.getLsbD 2) then .fail 0x0804 0
    else
      let s := takeHelm s m.port ms
      .done s (toLe 4 ms ++ toLe 8 (harbourAt s (s.helm.expiry * 1000))) }
/-- HELM_ACQUIRE (R384, R385). -/
def execHelmAcquire (m : MbReq) (s : State) : Out := .next (mbGo cmdHelmAcquire m s)

def cmdHelmRelease : MbCmd := { op := 0x0B02, bad := noBody, act := fun s m _ => .done (helmLapse s m.port) [] }
/-- HELM_RELEASE (R385). -/
def execHelmRelease (m : MbReq) (s : State) : Out := .next (mbGo cmdHelmRelease m s)

/-- Set the harbour clock to a time in ns: a step while nothing is in service or in flight, else a slew (R465). -/
def setTime (s : State) (ns : Nat) (ppsEn tenEn : Bool) : State :=
  let d : Int := Int.ofNat (ns * 1000) - (Int.ofNat s.clock.ps + s.clock.off)
  let disc := { s.disc with ppsEn := ppsEn, tenEn := tenEn, waiting := none, locked := s.disc.locked && ppsEn }
  if quiet s then { s with clock := { s.clock with off := s.clock.off + d, timeSet := true }, disc := { disc with slew := 0 } }
  else { s with clock := { s.clock with timeSet := true }, disc := { disc with slew := d } }

def cmdTimeSet : MbCmd := {
  op := 0x0C01, limit := fun b => if fieldLe b 8 1 = 1 then 2000 else 10000,
  bad := fun _ _ b => bodyBad 12 b [(decide (fieldLe b 8 1 ≤ 1), 8), (decide (fieldLe b 9 1 ≤ 1), 9), (decide (fieldLe b 10 1 ≤ 1), 10), (fieldLe b 11 1 == 0, 11)],
  act := fun s m b =>
    let ns := fieldLe b 0 8
    let pps := bitOf (fieldLe b 9 1) 0
    let ten := bitOf (fieldLe b 10 1) 0
    if fieldLe b 8 1 = 1 then .wait { s with disc := { s.disc with waiting := some { port := m.port, time := ns, ppsEn := pps, tenEn := ten } } } 0 0 8 false
    else .done (setTime s ns pps ten) (toLe 8 (harbourNs s)) }
/-- TIME_SET (R465, R466). -/
def execTimeSet (m : MbReq) (s : State) : Out := .next (mbGo cmdTimeSet m s)

/-! Tenants. -/

/-- Fields of TENANT_CREATE and TENANT_CONFIGURE. -/
def tenantBad (_ : State) (_ : MbReq) (b : List Byte) : Option Nat :=
  bodyBad 8 b [(decide (fieldLe b 0 2 < 1024), 0), (decide (fieldLe b 2 1 ≤ 3), 2), (fieldLe b 3 1 == 0, 3), (decide (fieldLe b 4 4 ≤ 2097151), 4)]

def cmdTenantCreate : MbCmd := {
  op := 0x0201, bad := tenantBad,
  act := fun s _ b =>
    let t := fieldLe b 0 2
    if !s.cfg.configured then .fail 0x0809 0xFFFFFFFF
    else if (tenantOf s t).state ≠ .absent then badTenant s t
    else if fieldLe b 4 4 < (keysOfTenant s t).length then .fail 0x080A 0
    else
      let s := withVector t (fun s => setTenant s t { state := .quiesced, ports := fieldLe b 2 1, quota := fieldLe b 4 4 }) s
      .done (pathBack (saveConf s) t) [] }
/-- TENANT_CREATE (R75, R382, R468). -/
def execTenantCreate (m : MbReq) (s : State) : Out := .next (mbGo cmdTenantCreate m s)

/-- Stored keys of a tenant, its root not counted (R225, R226). -/
def storedKeys (s : State) (t : Nat) : Nat := ((keysOfTenant s t).filter (fun h => hIndex h != 0)).length

/-- Take a tenant off a port: an FLR of its VF where that is in service (R390, R468). -/
def dropPort (s : State) (t : Nat) (p : Port) : State :=
  if vfInServiceB s p t then tenantEvent (flrEffect (tenantEvent s t 0 p) p t) t 1 p else s

def cmdTenantConfigure : MbCmd := {
  op := 0x0202, bad := tenantBad,
  act := fun s _ b =>
    let t := fieldLe b 0 2
    let ports := fieldLe b 2 1
    if (tenantOf s t).state = .absent then badTenant s t
    else if fieldLe b 4 4 < storedKeys s t then .fail 0x080A 0
    else
      let s := [Port.a, Port.b].foldl (fun s p => if bitOf ports p.num then s else dropPort s t p) s
      let s := setTenant s t { tenantOf s t with ports := ports, quota := fieldLe b 4 4 }
      .done (saveConf (pathBack s t)) [] }
/-- TENANT_CONFIGURE (R382, R468). -/
def execTenantConfigure (m : MbReq) (s : State) : Out := .next (mbGo cmdTenantConfigure m s)

def cmdTenantQuiesce : MbCmd := {
  op := 0x0203, limit := fun b => (if fieldLe b 4 4 = 0 then 100 else fieldLe b 4 4) + 1000,
  bad := fun _ _ b => bodyBad 8 b [(decide (fieldLe b 0 2 < 1024), 0), (fieldLe b 2 2 == 0, 2), (decide (fieldLe b 4 4 ≤ 60000), 4)],
  act := fun s _m b =>
    let t := fieldLe b 0 2
    let v := tenantOf s t
    let ms := if fieldLe b 4 4 = 0 then 100 else fieldLe b 4 4
    if v.state ≠ .running ∧ v.state ≠ .error then badTenant s t
    else
      let s := withVector t (fun s => setTenant s t { v with
        state := if v.state = .running then .quiescing else .error, drainAt := some (nowNs s + ms * 1000000) }) s
      .wait s t 0 0 true }
/-- TENANT_QUIESCE (R392). -/
def execTenantQuiesce (m : MbReq) (s : State) : Out := .next (mbGo cmdTenantQuiesce m s)

/-- A body that is one tenant number. -/
def oneTenant (_ : State) (_ : MbReq) (b : List Byte) : Option Nat := bodyBad 2 b [(decide (fieldLe b 0 2 < 1024), 0)]

def cmdTenantResume : MbCmd := {
  op := 0x0204, bad := oneTenant,
  act := fun s _ b =>
    let t := fieldLe b 0 2
    match (tenantOf s t).state with
    | .quiesced | .squashed | .error =>
      if (tenantOf s t).takenAway then badTenant s t
      else if !s.cfg.configured then .fail 0x0809 0xFFFFFFFF
      else if !s.clock.timeSet then .fail 0x0809 0xFFFFFFFE
      else if slotsFree s t then .done (resumeNow s t) []
      else .wait s t 0 0 false
    | _ => badTenant s t }
/-- TENANT_RESUME (R75, R393, R466). -/
def execTenantResume (m : MbReq) (s : State) : Out := .next (mbGo cmdTenantResume m s)

/-- The keys of a tenant begin to be destroyed, its monotonic entries go, and its label's destruction is journalled (R256). -/
def destroyKeys (s : State) (t : Nat) : State :=
  let mine (h : Nat) : Bool := !(hMgr h) && hTenant h == t
  let x := s.sroom
  let s := { s with sroom := { x with keys := x.keys.map (fun e => if mine e.1 then (e.1, { e.2 with dying := true, cmd := none }) else e),
                                      mono := x.mono.filter (fun e => !(mine e.handle)) } }
  reapKeys (if (mget x.labels t).isSome then journalAdd s (.label t []) else s)

/-- A tenant becomes ABSENT: its queues, pools, classes and bindings go, its reservations return to the free pool, and its
consignments still in progress or HELD become RETIRED (R62, R394). -/
def dropTenant (s : State) (t : Nat) : State :=
  withVector t (fun s =>
    let v := tenantOf s t
    let back := v.sqs.foldl (fun n e => n + e.2.reservation) 0
    let keep (c : Cons) : Bool := c.tenant != t || (decide (c.state ≠ .held) && decide (c.state ≠ .completed))
    setTenant { s with
      anchorFree := s.anchorFree + back, bindings := s.bindings.filter (fun e => e.1 / 65536 != t),
      cons := (s.cons.filter (fun e => keep e.2)).map (fun e => if e.2.tenant = t then (e.1, { e.2 with orphan := true }) else e) } t {}) s

def cmdTenantDestroy : MbCmd := {
  op := 0x0205, bad := oneTenant,
  act := fun s _ b =>
    let t := fieldLe b 0 2
    match (tenantOf s t).state with
    | .quiesced | .squashed =>
      let n := storedKeys s t
      let labelled := (mget s.sroom.labels t).isSome
      let s := destroyKeys (saveConf (dropTenant s t)) t
      if (keysOfTenant s t).isEmpty ∧ !labelled then .done s (toLe 4 n) else .wait s t n 4 true
    | _ => badTenant s t }
/-- TENANT_DESTROY (R256, R394). -/
def execTenantDestroy (m : MbReq) (s : State) : Out := .next (mbGo cmdTenantDestroy m s)

/-- Release the HELD consignments of a tenant, lowest LEDGER_SEQ first, but ORDERED ones of one tag in their order (R54, R92). -/
def releaseHeld : Nat → State → Nat → State
  | 0, s, _ => s
  | n + 1, s, t =>
    let held := s.cons.filter (fun e => e.2.tenant == t && decide (e.2.state = .held) && !e.2.recordQueued)
    let first (c : Cons) : Bool := !(fOrdered c.desc && held.any (fun e => e.2.sq == c.sq && fOrdered e.2.desc
      && e.2.desc.orderTag == c.desc.orderTag && decide (e.2.order < c.order)))
    match held.find? (fun e => first e.2) with
    | none => s
    | some (q, c) =>
      let s := setCons s q { c with recordQueued := true }
      releaseHeld n (postEq s (.ten t (sqOf s t c.sq).eq) (outcomeRec q c 3)) t

def cmdTenantResync : MbCmd := {
  op := 0x0206, bad := oneTenant,
  act := fun s _ b =>
    let t := fieldLe b 0 2
    let n := heldCount s t
    if (tenantOf s t).state ≠ .running ∨ n = 0 then badTenant s t
    else
      .done (withVector t (fun s =>
        let s := setTenant s t { tenantOf s t with needResync := false }
        releaseHeld n s t) s) (toLe 4 n) }
/-- TENANT_RESYNC (R92, R393). -/
def execTenantResync (m : MbReq) (s : State) : Out := .next (mbGo cmdTenantResync m s)

/-! Queues, classes, partitions and pools. -/

/-- The port whose PF0 a TENANT of 0xFFFE or 0xFFFF names (R467). -/
def pfTenant (t : Nat) : Option Port := if t = 0xFFFE then some .a else if t = 0xFFFF then some .b else none

/-- 0 is stored as 1 (R467). -/
def orOne (n : Nat) : Nat := if n = 0 then 1 else n

/-- Fields of QUEUE_CREATE by KIND (R467). -/
def queueBad (_ : State) (_ : MbReq) (b : List Byte) : Option Nat :=
  let f (off n : Nat) : Nat := fieldLe b off n
  let t := f 0 2
  let pf := (pfTenant t).isSome
  let kind := f 2 1
  let sq := kind < 2
  bodyBad 24 b [
    (t < 1024 || pf, 0), (kind ≤ 2 && (!pf || kind == 2), 2), (f 3 1 < (if pf then 32 else 16), 3), (if sq then f 4 1 < 16 else f 4 1 == 0, 4),
    (if kind = 0 then f 5 1 == 0 else 6 ≤ f 5 1 && f 5 1 ≤ 16, 5),
    (if kind = 0 then 1 ≤ f 6 2 && f 6 2 ≤ 4096 else if kind = 1 then f 6 2 ≤ 4096 else f 6 2 == 0, 6),
    (if sq then f 8 2 ≤ 4096 else f 8 2 == 0, 8), (if sq then f 10 2 ≤ 4095 else f 10 2 == 0, 10), (!sq || f 12 1 == 0, 12), (f 13 1 == 0, 13),
    (if sq then f 14 2 == 0 else f 14 2 ≤ 4095, 14), (if kind = 0 then f 16 8 == 0 else f 16 8 % 4096 == 0, 16)]

def cmdQueueCreate : MbCmd := {
  op := 0x0211, bad := queueBad,
  act := fun s _ b =>
    let f (off n : Nat) : Nat := fieldLe b off n
    let t := f 0 2
    let n := f 3 1
    let eq : Eq := { exist := true, enabled := true, sizeLog2 := f 5 1, base := f 16 8, timeTh := orOne (f 14 2), countTh := orOne (f 12 1) }
    match pfTenant t with
    | some p =>
      if (getEq s (.pf p n)).exist then .fail 0x0809 0 else .done (setEq s (.pf p n) eq) []
    | none =>
      let v := tenantOf s t
      let live := decide (v.state = .running)
      if v.state = .absent then badTenant s t
      else if f 2 1 = 2 then
        if (tenEq s t n).exist then badTenant s t else .done (setTenEq s t n { eq with enabled := live }) []
      else if (sqOf s t n).exist ∨ !(tenEq s t (f 4 1)).exist then badTenant s t
      else if s.anchorFree < f 6 2 then .fail 0x080A 0
      else
        .done (setSq { s with anchorFree := s.anchorFree - f 6 2 } t n
          { exist := true, pull := f 2 1 == 1, eq := f 4 1, reservation := f 6 2, enabled := live, base := f 16 8, sizeLog2 := f 5 1,
            creditBatch := orOne (f 8 2), creditTime := orOne (f 10 2) }) [] }
/-- QUEUE_CREATE (R467, R468). -/
def execQueueCreate (m : MbReq) (s : State) : Out := .next (mbGo cmdQueueCreate m s)

def cmdQueueDestroy : MbCmd := {
  op := 0x0212,
  bad := fun _ _ b =>
    let t := fieldLe b 0 2
    let pf := (pfTenant t).isSome
    bodyBad 4 b [(t < 1024 || pf, 0), (fieldLe b 2 1 ≤ 2 && (!pf || fieldLe b 2 1 == 2), 2), (fieldLe b 3 1 < (if pf then 32 else 16), 3)],
  act := fun s _ b =>
    let t := fieldLe b 0 2
    let n := fieldLe b 3 1
    match pfTenant t with
    | some p => if (getEq s (.pf p n)).exist then .done (setEq s (.pf p n) {}) [] else .fail 0x0809 0
    | none =>
      let v := tenantOf s t
      let idle := decide (v.state = .quiesced) || decide (v.state = .squashed)
      if fieldLe b 2 1 = 2 then
        let q := tenEq s t n
        let bound := v.sqs.any (fun e => e.2.exist && e.2.eq == n)
        let waits := q.waiting.any (fun w => w.type == 0 || w.type == 3) || s.cons.any (fun e => e.2.tenant == t && e.2.heldMark && (sqOf s t e.2.sq).eq == n && decide (e.2.state ≠ .completed))
        if !idle ∨ !q.exist ∨ bound ∨ waits then badTenant s t else .done (setTenEq s t n {}) []
      else
        let q := sqOf s t n
        if !idle ∨ !q.exist ∨ (q.pull ≠ (fieldLe b 2 1 == 1)) then badTenant s t
        else .done (setSq { s with anchorFree := s.anchorFree + q.reservation } t n {}) [] }
/-- QUEUE_DESTROY (R467, R468). -/
def execQueueDestroy (m : MbReq) (s : State) : Out := .next (mbGo cmdQueueDestroy m s)

def cmdClassSet : MbCmd := {
  op := 0x0213,
  bad := fun _ _ b => bodyBad 8 b [(decide (fieldLe b 0 2 < 1024), 0), (decide (fieldLe b 2 1 < 16), 2), (fieldLe b 3 1 == 0, 3)],
  act := fun s _ b =>
    let t := fieldLe b 0 2
    let v := tenantOf s t
    if v.state = .absent then badTenant s t
    else .done (saveConf (setTenant s t { v with classes := tset 0 v.classes (fieldLe b 2 1) (fieldLe b 4 4) })) [] }
/-- CLASS_SET (R29, R468). -/
def execClassSet (m : MbReq) (s : State) : Out := .next (mbGo cmdClassSet m s)

def cmdPartitionMapSet : MbCmd := {
  op := 0x0214,
  bad := fun _ _ b =>
    let n := fieldLe b 2 2
    if b.length < 4 then some b.length
    else if fieldLe b 0 2 ≥ 4096 then some 0
    else if n = 0 ∨ 4096 < fieldLe b 0 2 + n then some 2
    else bodyBad (4 + n) b (((b.drop 4).zipIdx).map (fun e => (e.1.toNat < 4 || e.1 == 0xFF, 4 + e.2))),
  act := fun s _ b =>
    let first := fieldLe b 0 2
    let homes := (b.drop 4).zipIdx
    if homes.any (fun e => e.1 != 0xFF && !(basinUp s e.1.toNat)) then .fail 0x0809 0
    else
      let s := homes.foldl (fun s e =>
        let v := partOf s (first + e.2)
        let h : Option Nat := if e.1 = 0xFF then none else some e.1.toNat
        setPart s (first + e.2) { v with next := if v.home = h then none else some h }) s
      let s := saveConf s
      if s.parts.any (fun e => e.2.next.isSome) then .wait s 0 0 0 true else .done s [] }
/-- PARTITION_MAP_SET (R69, R468). -/
def execPartitionMapSet (m : MbReq) (s : State) : Out := .next (mbGo cmdPartitionMapSet m s)

/-- A chain pool of a tenant. -/
def setPool (s : State) (t p : Nat) (v : Pool) : State := setTenant s t { tenantOf s t with pools := tset {} (tenantOf s t).pools p v }

def cmdChainPoolCreate : MbCmd := {
  op := 0x0215,
  bad := fun _ _ b =>
    let f (off n : Nat) : Nat := fieldLe b off n
    bodyBad 16 b [(f 0 2 < 1024, 0), (1 ≤ f 2 1 && f 2 1 ≤ 63, 2), (4 ≤ f 3 1 && f 3 1 ≤ 16, 3), (12 ≤ f 4 1 && f 4 1 ≤ 20, 4), (f 5 3 == 0, 5), (f 8 8 % 4096 == 0, 8)],
  act := fun s _ b =>
    let t := fieldLe b 0 2
    let p := fieldLe b 2 1
    if (tenantOf s t).state = .absent ∨ (tget {} (tenantOf s t).pools p).exist then badTenant s t
    else .done (setPool s t p { exist := true, sizeLog2 := fieldLe b 3 1, bufLog2 := fieldLe b 4 1, base := fieldLe b 8 8 }) [] }
/-- CHAIN_POOL_CREATE (R328, R468). -/
def execChainPoolCreate (m : MbReq) (s : State) : Out := .next (mbGo cmdChainPoolCreate m s)

def cmdChainPoolDestroy : MbCmd := {
  op := 0x0216,
  bad := fun _ _ b => bodyBad 4 b [(decide (fieldLe b 0 2 < 1024), 0), (1 ≤ fieldLe b 2 1 && fieldLe b 2 1 ≤ 63, 2), (fieldLe b 3 1 == 0, 3)],
  act := fun s _ b =>
    let t := fieldLe b 0 2
    let v := tenantOf s t
    if (v.state ≠ .quiesced ∧ v.state ≠ .squashed) ∨ !(tget {} v.pools (fieldLe b 2 1)).exist then badTenant s t
    else .done (setPool s t (fieldLe b 2 1) {}) [] }
/-- CHAIN_POOL_DESTROY (R328, R468). -/
def execChainPoolDestroy (m : MbReq) (s : State) : Out := .next (mbGo cmdChainPoolDestroy m s)

end Sys2Proof.Machine
end

