-- ==== Sys2Proof/Machine/ConfCmds.lean ====
section
/-! DEFINITION. Mailbox commands of handlers, format programs, the ledger and its tides (03, 11, 12, R470, R471, R517). -/

namespace Sys2Proof.Machine

/-! Handlers (R470). -/

/-- A thread runs an image of a handler. -/
def runsCode (s : State) (k : Nat) : Bool := s.threads.any (fun e => e.2.maps.any (fun m => decide (m.obj = .code k)))

/-- A free key above the handler numbers, where an image is kept until no thread runs it. -/
def spareImage (s : State) : Nat := ((List.range (s.handlers.length + 1)).find? (fun i => (mget s.handlers (0x20000 + i)).isNone)).getD 0 + 0x20000

/-- Threads that run the image of an index go on with its copy under another key (R470). -/
def keepImage (s : State) (idx k : Nat) : State :=
  let move (m : MapWin) : MapWin := if m.obj = .code idx then { m with obj := .code k } else m
  { s with handlers := mset s.handlers k (tget [] s.handlers idx), threads := s.threads.map (fun e => (e.1, { e.2 with maps := e.2.maps.map move })) }

def cmdHandlerLoad : MbCmd := {
  op := 0x0401,
  bad := fun _ _ b =>
    let n := fieldLe b 4 4
    if b.length < 8 then some b.length
    else if 0xEFFF < fieldLe b 0 2 then some 0
    else if fieldLe b 2 2 ≠ 0 then some 2
    else if n = 0 ∨ 65536 < n then some 4
    else lenBad (8 + 3 * n) b,
  act := fun s _ b =>
    let idx := fieldLe b 0 2
    let load (s : State) : State := { s with handlers := mset s.handlers idx (b.drop 8) }
    if (mget s.handlers idx).isNone ∧ Config.handlerRoom ≤ loadedHandlers s then .fail 0x080A 0
    else if runsCode s idx then
      let k := spareImage s
      .wait (load (keepImage s idx k)) k 0 0 true
    else .done (load s) [] }
/-- HANDLER_LOAD (R470). -/
def execHandlerLoad (m : MbReq) (s : State) : Out := .next (mbGo cmdHandlerLoad m s)

def cmdHandlerBind : MbCmd := {
  op := 0x0402,
  bad := fun _ _ b => bodyBad 12 b [(decide (fieldLe b 0 2 < 1024), 0), (decide (fieldLe b 2 2 ≤ 0xEFFF), 2), (decide (fieldLe b 4 4 ≤ 16769024), 4),
    (decide (fieldLe b 8 1 ≤ 1), 8), (fieldLe b 9 3 == 0, 9)],
  act := fun s _ b =>
    let t := fieldLe b 0 2
    let k := t * 65536 + fieldLe b 2 2
    if (tenantOf s t).state = .absent then badTenant s t
    else .done { s with bindings := if fieldLe b 8 1 = 1 then mdel s.bindings k else mset s.bindings k (fieldLe b 4 4) } [] }
/-- HANDLER_BIND (R470). -/
def execHandlerBind (m : MbReq) (s : State) : Out := .next (mbGo cmdHandlerBind m s)

/-! Format programs (R313 to R316). -/

/-- Offset of the first byte of a descriptor at fault, within it (R315). An all-zero descriptor is in order. -/
def descFault (d : List Byte) : Option Nat :=
  let f (i : Nat) : Nat := fieldLe d i 1
  let len := fieldLe d 4 2
  if d.all (· == 0) then none
  else firstBad [
    (f 0 == 1 || f 0 == 2 || f 0 == 3 || f 0 == 6, 0), (f 1 ≤ 3 && !(f 0 == 6 && f 1 == 3), 1), (f 2 ≤ 3 && (f 1 != 0 || f 2 == 0), 2),
    (if f 0 = 2 ∨ f 0 = 3 then 1 ≤ f 3 && f 3 ≤ 4 else f 3 == 0, 3), (if f 0 = 6 then len == 8 else 1 ≤ len && len ≤ 999, 4), (fieldLe d 6 2 == 0, 6)]

/-- Offset of the byte of an instruction at fault, within it: OP, A or B (R313, R316). -/
def instrFault (p : List Byte) (pc : Nat) : Option Nat :=
  let (op, a, b) := fmtInstr p pc
  let build := fmtKind p = 1
  let known := [0x05, 0x07, 0x08, 0x09, 0x0A, 0x0B, 0x0C].contains op || (if build then [0x21, 0x22, 0x23, 0x24].contains op else [1, 2, 3, 4, 6].contains op)
  let target := b % 4 == 0 && decide (pc < b) && decide (b < fmtCodeLen p)
  if !known then some 0
  else match op with
    | 0x01 | 0x21 => if a = 2 ∨ a = 4 then none else some 1
    | 0x03 | 0x23 => if 1 ≤ a ∧ a ≤ 3 then none else some 1
    | 0x04 | 0x24 => if a ≤ 2 then none else some 1
    | 0x05 | 0x07 => if a = 0 ∨ fmtDescs p < a then some 1 else if fmtDescs p < b then some 2 else none
    | 0x06 => if fmtDescs p < a then some 1 else if 1 ≤ b ∧ b ≤ 7 then none else some 2
    | 0x08 | 0x09 => if target then none else some 2
    | 0x0A => if target then none else some 2
    | 0x0C => if 0x80 ≤ a then none else some 1
    | 0x22 => if a = 1 ∨ a = 2 then none else some 1
    | _ => none

/-- The offset at fault of a format program, none where it may be loaded (R313). -/
def programFault (p : List Byte) : Option Nat :=
  let n := fmtCodeLen p
  let k := fmtDescs p
  match firstBad [(fieldLe p 0 1 == 1, 0), (fmtKind p ≤ 1, 1), (n % 4 == 0 && 4 ≤ n && decide (n + 8 * k ≤ 16368), 2), (decide (k ≤ 192), 4), (fieldLe p 6 2 == 0, 6)] with
  | some o => some o
  | none =>
    if p.length ≠ 16 + n + 8 * k then some (min p.length (16 + n + 8 * k))
    else match (List.range (n / 4)).findSome? (fun i => (instrFault p (4 * i)).map (fun o => 16 + 4 * i + o)) with
      | some o => some o
      | none =>
        let last := (fmtInstr p (n - 4)).1
        if last ≠ 0x0B ∧ last ≠ 0x0C then some (16 + n - 4)
        else (List.range k).findSome? (fun i => (descFault (slice p (16 + n + 8 * i) 8)).map (fun o => 16 + n + 8 * i + o))

/-- CP0 of a pier runs a request that uses a format slot (R314). -/
def slotInUse (s : State) (pier slot : Nat) : Bool :=
  match (pierOf s pier).cpq.get 0 with
  | [] => false
  | h :: _ =>
    if 64 ≤ h then false
    else match (thr s ⟨(pier * 64 + h) % 1024, by omega⟩).cp.get 0 with
      | .queued cfn _ b _ => decide (cfn < 2) && fieldLe b 0 1 == slot
      | _ => false

def cmdFormatLoad : MbCmd := {
  op := 0x0411,
  bad := fun _ _ b =>
    let n := fieldLe b 2 2
    if b.length < 4 then some b.length
    else if fieldLe b 1 1 ≠ 0 then some 1
    else if n < 16 ∨ 16384 < n then some 2
    else lenBad (4 + n) b,
  act := fun s _ b =>
    let slot := fieldLe b 0 1
    let p := b.drop 4
    match programFault p with
    | some o => .fail 0x0408 o
    | none =>
      let old := tget [] s.formats slot
      let s := (List.range 16).foldl (fun s k =>
        let q := pierOf s k
        if slotInUse s k slot ∧ q.oldFormat.isNone then setPier s k { q with oldFormat := some old } else s) s
      let s := { s with formats := mset s.formats slot p }
      if (List.range 16).any (fun k => slotInUse s k slot) then .wait s slot 0 0 true else .done s [] }
/-- FORMAT_LOAD (R313 to R316). -/
def execFormatLoad (m : MbReq) (s : State) : Out := .next (mbGo cmdFormatLoad m s)

/-! The ledger (R471, R84, R75, R517). -/

/-- A field whose 0 selects a default. -/
def orDefault (n d : Nat) : Nat := if n = 0 then d else n

def ledgerBad (_ : State) (_ : MbReq) (b : List Byte) : Option Nat :=
  let f (off n : Nat) : Nat := fieldLe b off n
  let zeroOr (v lo hi : Nat) : Bool := v == 0 || (decide (lo ≤ v) && decide (v ≤ hi))
  bodyBad 24 b [(f 0 1 ≤ 16, 0), (f 1 1 ≤ 15, 1), (zeroOr (f 2 1) 12 24, 2), (f 3 1 < 16, 3), (zeroOr (f 4 2) 10 1000, 4), (zeroOr (f 6 1) 12 20, 6),
    (f 7 1 == 0, 7), (zeroOr (f 8 4) 1024 65536, 8), (f 12 4 == 0 || 16 ≤ f 12 4, 12), (if f 2 1 = 0 then f 16 8 == 0 else f 16 8 % 4096 == 0, 16)]

def cmdLedgerConfigure : MbCmd := {
  op := 0x0501, bad := ledgerBad,
  act := fun s _ b =>
    let f (off n : Nat) : Nat := fieldLe b off n
    let area := orDefault (f 0 1) 4
    let part := orDefault (f 6 1) 16
    let c := s.cfg
    let region := c.hostLog2 ≠ f 2 1 ∨ c.hostBase ≠ f 16 8
    let fits := (List.range 4).all (fun k => decide (ledgerUsed s k ≤ ledgerArea { s with cfg := { c with areaGib := area } }))
    if (c.areaGib ≠ area ∨ c.partLog2 ≠ part ∨ c.mirrorMask ≠ f 3 1 ∨ region) ∧ !(quiet s) then .fail 0x0809 0
    else if c.areaGib ≠ area ∧ !fits then .fail 0x080A 0
    else
      let c := { c with
        configured := true, areaGib := area, mirrorMask := f 3 1, partLog2 := part, hostLog2 := f 2 1, hostBase := f 16 8,
        hostHead := if region then 0 else c.hostHead, hostNext := if region then 0 else c.hostNext,
        later := some { replayMax := orDefault (f 1 1) 3, tidePeriodUs := orDefault (f 4 2) 100, tideMax := orDefault (f 8 4) 65536, autoTrim := f 12 4 } }
      let mem := if s.cfg.partLog2 = part then s.mem else { s.mem with ledgered := [], poisonLedger := [] }
      .done (saveConf ((List.range 4).foldl ledgerHigh { s with cfg := c, mem := mem })) [] }
/-- LEDGER_CONFIGURE (R75, R84, R294, R471). -/
def execLedgerConfigure (m : MbReq) (s : State) : Out := .next (mbGo cmdLedgerConfigure m s)

/-- The certificates that a run of tides names, oldest first: of each EPOCH from the last FIRST_TIDE at or before its first
tide (R298, R300). -/
def certsFor (s : State) (first last : Nat) : List (List Byte) :=
  let cs := s.tides.certs.filter (fun c => decide (fieldLe c 8 8 ≤ last))
  let named (c : List Byte) (i : Nat) : Bool := match cs[i]? with
    | none => true
    | some newer => decide (first < fieldLe newer 8 8) && decide (fieldLe c 8 8 < fieldLe newer 8 8)
  ((cs.zipIdx.filter (fun e => e.2 = 0 || named e.1 (e.2 - 1))).map (·.1)).reverse

def cmdTideGet : MbCmd := {
  op := 0x0502, helm := false,
  bad := fun _ _ b => bodyBad 12 b [(1 ≤ fieldLe b 8 4 && decide (fieldLe b 8 4 ≤ 4096), 8)],
  act := fun s _ b =>
    let ts := ((s.tides.log.reverse).filter (fun e => decide (fieldLe b 0 8 ≤ e.1))).take (fieldLe b 8 4)
    match ts.head?, ts.getLast? with
    | some x, some y =>
      let cs := certsFor s x.1 y.1
      .done s (toLe 4 ts.length ++ toLe 4 cs.length ++ ts.flatMap (·.2) ++ cs.flatten)
    | _, _ => .fail 0x0704 0 }
/-- TIDE_GET (R298, R300, R471). -/
def execTideGet (m : MbReq) (s : State) : Out := .next (mbGo cmdTideGet m s)

def cmdProofGet : MbCmd := {
  op := 0x0503, helm := false,
  bad := fun _ _ b => bodyBad 12 b [(decide (fieldLe b 0 2 < 1024), 0), (fieldLe b 2 2 == 0, 2)],
  act := fun s _ b =>
    match proofOf s (some (fieldLe b 0 2)) (fieldLe b 4 8) with
    | .absent => .fail 0x0704 0
    | .wait _ => .again s
    | .proof _ bs => .done s bs }
/-- PROOF_GET (R301). -/
def execProofGet (m : MbReq) (s : State) : Out := .next (mbGo cmdProofGet m s)

/-- HOST_HEAD lies in the circular range from the current head to the slot of the next HOST record (R517). -/
def headOk (s : State) (h : Nat) : Bool :=
  let c := s.cfg
  if c.hostLog2 = 0 then h == 0
  else
    let n := 2 ^ c.hostLog2
    decide (h < n) && decide ((h + n - c.hostHead) % n ≤ (c.hostNext + n - c.hostHead) % n)

/-- The newest tide that is closed (R295). -/
def newestClosed (s : State) : Nat :=
  match s.tides.closing.head?, s.tides.cur with
  | some t, _ => t.num - 1
  | none, some t => t.num - 1
  | none, none => s.tides.next - 1

/-- The mirrors held are trimmed by the same LEDGER_TRIM (R485). -/
def trimMirrors (s : State) (num : Nat) : State :=
  let cut (m : MirrorBasin) : MirrorBasin := { m with recs := m.recs.dropWhile (fun r => r.tide ≤ num) }
  { s with mirrors := s.mirrors.map (fun e => (e.1, { e.2 with basins := e.2.basins.map (fun x => (x.1, cut x.2)) })) }

def cmdLedgerTrim : MbCmd := {
  op := 0x0504,
  bad := fun s _ b => bodyBad 12 b [(headOk s (fieldLe b 8 4), 8)],
  act := fun s _ b =>
    let s := { s with cfg := { s.cfg with hostHead := fieldLe b 8 4 } }
    let (s, n) := if fieldLe b 0 8 = 0 then (s, 0) else trimTo (trimMirrors s (fieldLe b 0 8)) (min (fieldLe b 0 8) (newestClosed s))
    .done ((List.range 4).foldl (fun s k => hostSend s k (ledgerOf s k).hostWait.length) s) (toLe 8 n) }
/-- LEDGER_TRIM (R75, R85, R517). -/
def execLedgerTrim (m : MbReq) (s : State) : Out := .next (mbGo cmdLedgerTrim m s)

end Sys2Proof.Machine
end

