-- ==== Sys2Proof/Machine/CoprocOps.lean ====
section
/-! DEFINITION. The coprocessor instructions of Windlass that name no existing coprocessor (05). -/

namespace Sys2Proof.Machine

/-- CP4 to CP7 do not exist: UNDEF_CP, whatever the fields (R154). -/
def execCp4ToCp7 (th : ThreadId) (_n : Fin 4) (_cd _ca : RegField) (_cfn : BitVec 8) (s : State) : Out :=
  .next (issue th (fun s => takeExn s th excUndefCp) s)

end Sys2Proof.Machine
end

