-- ==== Sys2Proof/Machine/FaultOps.lean ====
section
/-! DEFINITION. ECC errors of caches and of HBM stacks, and what they do (R219, R334, R351). -/

namespace Sys2Proof.Machine

/-! HBM (R351). -/

/-- The row of a physical address: channel, bank and row as one number. -/
def rowOf (pa : Nat) : Nat := let (c, k, r) := Config.hbmRow pa; c % 256 * 2 ^ 40 + k % 256 * 2 ^ 32 + r % 2 ^ 32

/-- DETAIL of the entries about a row (R355). -/
def rowDetail (b row n : Nat) : List Byte := toLe 1 b ++ toLe 1 (row / 2 ^ 40) ++ toLe 1 (row / 2 ^ 32 % 256) ++ (if n = 0 then [] else toLe 4 (row % 2 ^ 32))

/-- A row's data is copied to a spare row of its bank, where one is left (R351). -/
def spareRow (s : State) (b row : Nat) : State :=
  let v := basinOf s b
  let used := (v.rowsSpared.filter (fun r => r / 2 ^ 32 == row / 2 ^ 32)).length
  let v := { v with rowHits := v.rowHits.filter (fun e => e.1 != row) }
  if used < Config.rowSpares then
    logIsland (setBasin s b { v with rowsSpared := row :: v.rowsSpared }) 0x0404 1 (islHbm b) (rowDetail b row 1)
  else logIsland (setBasin s b v) 0x0405 1 (islHbm b) (rowDetail b row 0)

/-- A corrected error of a stack: logged, and counted against its row; 16 within 24 hours spare it (R351). The symbol is a free
value. -/
def hbmCorrected (s : State) (b pa : Nat) : State :=
  let s := logIsland { s with freeCtr := s.freeCtr + 1 } 0x0401 0 (islHbm b) (toLe 1 b ++ toLe 8 pa ++ [Config.freeByte (s.freeCtr * 65536)])
  let v := basinOf s b
  let row := rowOf pa
  let hits := (row, nowNs s) :: v.rowHits.filter (fun e => decide (nowNs s < e.2 + 86400000000000))
  let s := setBasin s b { v with rowHits := hits }
  if 16 ≤ (hits.filter (fun e => e.1 == row)).length then spareRow s b row else s

/-- The ledgered line of a physical address: partition × 2^14 + line. -/
def ledgerLineOf (s : State) (pa : Nat) : Option Nat := (Config.ledgerOfPA s.cfg.partLog2 pa).map (· / 64)

/-- An uncorrectable read of a line: from the mirror where its range is mirrored or it is a ledger record, else poison; its row
is spared (R351). -/
def hbmUncorrected (s : State) (b pa : Nat) : State :=
  let recovered (s : State) : State := logIsland s 0x0402 0 (islHbm b) (toLe 1 b ++ toLe 8 pa)
  let poisoned (s : State) : State := logIsland s 0x0403 2 (islHbm b) (toLe 1 b ++ toLe 8 pa)
  let s := match ledgerLineOf s pa with
    | some l =>
      if bitOf s.cfg.mirrorMask b then recovered s
      else poisoned { s with mem := { s.mem with poisonLedger := if s.mem.poisonLedger.contains l then s.mem.poisonLedger else l :: s.mem.poisonLedger } }
    | none =>
      if Config.inLedgerArea pa ∧ (mirrorOf s b).isSome then recovered s
      else poisoned (hbmPut s (pa / 64) (hbmLine s (pa / 64)) true)
  spareRow s b (rowOf pa)

/-! Caches (R219). -/

/-- The way of a cache of an island that holds a line: the cache of R355 (0 L1I, 1 L1D, 2 L2, 3 L3), the core, and the index. -/
def cacheSpot (s : State) (island pa : Nat) : Option (Nat × Nat × Nat) :=
  let line := pa / 64
  let b := island / 128
  let n := island % 128
  if n < 72 then
    let pc := pcOf s (b * 4 + n / 18)
    let cores := [n % 18 * 2, n % 18 * 2 + 1]
    let at1 (k : Nat) (t : Table Cache) : Option (Nat × Nat × Nat) := cores.findSome? (fun c => (cFind (tget [] t c) l1Sets l1Ways line).map (fun i => (k, c, i)))
    match at1 1 pc.l1d with
    | some x => some x
    | none => at1 0 pc.l1i
  else if n < 76 then (cFind (pcOf s (b * 4 + (n - 72))).l2 l2Sets l2Ways line).map (fun i => (2, 0, i))
  else if n = 76 then (cFind (cohOf s b).l3 l3Sets l3Ways line).map (fun i => (3, 0, i))
  else none

/-- DETAIL of a cache entry: cache, set and way (R355). -/
def cacheDetail (k i : Nat) : List Byte := let ways := if k < 2 then l1Ways else 16; toLe 1 k ++ toLe 2 (i / ways) ++ toLe 1 (i % ways)

/-- A correctable error: corrected in place and logged (R219). -/
def cacheCorrected (s : State) (island k i : Nat) : State := logIsland s 0x0201 0 island (cacheDetail k i)

/-- An uncorrectable error of an L1 is a mismatch of a lockstep berth; a split berth refetches the line, whose data the L2 holds
(R219, R334; log entry 9). -/
def l1Uncorrected (s : State) (island k core i : Nat) : State :=
  let p := island / 128 * 4 + island % 128 / 18
  let pair := island / 128 * 72 + island % 128
  let pc := pcOf s p
  let drop (t : Table Cache) : Table Cache := t.map (fun (e : Nat × Cache) => if e.1 = core then (e.1, tset {} e.2 i {}) else e)
  let s := setPc s p (if k = 1 then { pc with l1d := drop pc.l1d } else { pc with l1i := drop pc.l1i })
  if h : pair < 288 then
    let pr : PairId := ⟨pair, h⟩
    match posOfPair s pr with
    | some pos => if (posAt s p pos).split then logIsland s 0x0202 0 island (cacheDetail k i) else mismatchAt s pr 0xFF 2 0xFFFF
    | none => s
  else s

/-- An uncorrectable error of L2 or L3 data: a clean line is refetched, a dirty one poisoned (R219). -/
def cacheUncorrected (s : State) (island k core i pa : Nat) : State :=
  let b := island / 128
  let refetched (s : State) : State := logIsland s 0x0202 0 island (cacheDetail k i)
  let poisoned (s : State) : State := logIsland s 0x0203 2 island (cacheDetail k i ++ toLe 8 (pa / 64 * 64))
  if k < 2 then l1Uncorrected s island k core i
  else if k = 2 then
    let p := b * 4 + (island % 128 - 72)
    let pc := pcOf s p
    let l := tget {} pc.l2 i
    if l.state = .m ∨ l.state = .o then poisoned (setPc s p { pc with l2 := tset {} pc.l2 i { l with poisoned := true } })
    else refetched (wayEmpty s p i)
  else
    let c := cohOf s b
    let l := tget {} c.l3 i
    if l.state = .m then poisoned (setCoh s b { c with l3 := tset {} c.l3 i { l with poisoned := true } })
    else refetched (setCoh s b { c with l3 := tset {} c.l3 i { l with data := hbmLine s l.line } })

end Sys2Proof.Machine
end

