-- ==== Sys2Proof/Machine/DiagCmds.lean ====
section
/-! DEFINITION. Mailbox commands of berths, basins, error injection, the Logbook and diagnostics (13, R472). -/

namespace Sys2Proof.Machine

/-! Berths (R122, R342, R343). -/

/-- The pair of a berth-pair island (R17). -/
def pairOfIsland (n : Nat) : Option PairId := if h : n / 128 < 4 ∧ n % 128 < 72 then some ⟨n / 128 * 72 + n % 128, by omega⟩ else none

/-- A body that is one island number. -/
def oneIsland (_ : State) (_ : MbReq) (b : List Byte) : Option Nat := lenBad 2 b

/-- MB_BAD_STATE where no tenant is named. -/
def badState : MbAct := .fail 0x0809 0

/-- The berth position of a pair in a basin that is up. -/
def berthOf (s : State) (n : Nat) : Option (PairId × Fin 16) :=
  match pairOfIsland n with
  | none => none
  | some pr => if basinUp s pr.pier.basin.val then (posOfPair s pr).map (fun k => (pr, k)) else none

/-- What a split or join waits for: the berth's drain, or first its hand-over, by 0x10000 + pier × 16 + position (R122, R343). -/
def askReconf (s : State) (p : Port) (n : Nat) (split : Bool) : MbAct :=
  match berthOf s n with
  | none => badState
  | some (pr, k) =>
    let v := posAt s pr.pier.val k
    if v.split = split ∨ v.reconf.isSome ∨ v.retiring.isSome then badState
    else if v.handover.isSome then .wait s (0x10000 + pr.pier.val * 16 + k.val) 0 0 true
    else .wait (setPos s pr.pier.val k { v with reconf := some (split, p) }) n 0 0 true

def cmdBerthSplit : MbCmd := { op := 0x0601, bad := oneIsland, act := fun s m b => askReconf s m.port (fieldLe b 0 2) true }
/-- BERTH_SPLIT (R122, R472). -/
def execBerthSplit (m : MbReq) (s : State) : Out := .next (mbGo cmdBerthSplit m s)

def cmdBerthJoin : MbCmd := { op := 0x0602, bad := oneIsland, act := fun s m b => askReconf s m.port (fieldLe b 0 2) false }
/-- BERTH_JOIN (R122, R472). -/
def execBerthJoin (m : MbReq) (s : State) : Out := .next (mbGo cmdBerthJoin m s)

/-- A split or join that waited for a hand-over goes on with the berth on its new pair (R343). -/
def resumeReconf (s : State) (p : Port) (r : MbRun) : State :=
  let at_ := r.arg - 0x10000
  let k : Fin 16 := ⟨at_ % 16, by omega⟩
  let v := posAt s (at_ / 16) k
  if v.handover.isSome then s
  else match v.pair with
    | none => mbFinish s p 0 0 []
    | some n =>
      let s := setPos s (at_ / 16) k { v with reconf := some (r.opcode == 0x0601, p) }
      setMail s p { mailOf s p with run := some { r with arg := islPair (at_ / 16 * 18 + n) } }

def cmdBerthRetire : MbCmd := {
  op := 0x0603, bad := oneIsland,
  act := fun s m b =>
    let n := fieldLe b 0 2
    match pairOfIsland n with
    | none => badState
    | some pr =>
      let p := pr.pier
      let use := (pairAt s p.val pr.inPier).use
      if use = .retired ∨ !(basinUp s p.basin.val) then badState
      else match posOfPair s pr with
        | none => .done (retirePair s pr 2) []
        | some k =>
          let v := posAt s p.val k
          if v.handover.isSome then .wait s n 0 0 true
          else if (lowestSpare s p).isSome then .wait (wantHandover s p k pr 2) n 0 0 true
          else .wait (setPos s p.val k { v with retiring := some m.port }) n 0 0 true }
/-- BERTH_RETIRE (R342, R472). -/
def execBerthRetire (m : MbReq) (s : State) : Out := .next (mbGo cmdBerthRetire m s)

/-! Basins (R347, R350). -/

/-- Partitions of a basin that are stranded. -/
def strandedOf (s : State) (b : Nat) : List Nat := (homedBy s b).filter (fun p => (partOf s p).stranded)

/-- RETRY_HBM: the HBM controller island is reset, and the stack read again (R350). -/
def retryHbm (s : State) (b : Nat) : State :=
  let i := islandOf s (islHbm b)
  let s := setIsland s (islHbm b) { i with resets := satInc i.resets 65535 }
  let s := logIsland s 0x0703 (Config.resetClass 1).val (islHbm b) [1]
  let ok := Config.hbmRetry s.freeCtr
  let s := { s with freeCtr := s.freeCtr + 1 }
  if ok then
    let s := (strandedOf s b).foldl (fun s p => setPart s p { partOf s p with stranded := false }) s
    setBasin s b { basinOf s b with hbmReadable := true }
  else s

/-- One stranded consignment, decided from the records the mirror has acknowledged, else FAILED with STATE_LOST (R350): the
state and the number written FAILED. -/
def failStranded (b : Nat) (acc : State × Nat) (q : Nat) : State × Nat :=
  let (s, n) := acc
  match consOf s q with
  | none => acc
  | some c =>
    let l := ledgerOf s b
    match newestRec { l with recs := l.recs.take (l.mirrorAck - l.first) } q with
    | some (i, r) => if r.state = 3 ∨ r.state = 4 then (reemit s q c b i r, n) else (failCons s q 0x0705 0 0, n + 1)
    | none => (failCons s q 0x0705 0 0, n + 1)

/-- FAIL_STRANDED: the partitions keep no home, and their records go on in the adopter's ledger (R350). -/
def resolveStranded (s : State) (b a : Nat) : State × Nat :=
  let parts := strandedOf s b
  let qs := (s.cons.filter (fun e => parts.contains e.2.part && decide (e.2.state = .replaying))).map (·.1)
  let s := parts.foldl (fun s p => setPart s p { partOf s p with home := none, stranded := false, stack := a }) s
  let (s, n) := qs.foldl (failStranded b) (s, 0)
  (logIsland s 0x0305 2 (islHome b) (toLe 1 b ++ toLe 4 n), n)

def cmdBasinRecover : MbCmd := {
  op := 0x0604, limit := fun _ => 60000,
  bad := fun _ _ b => bodyBad 2 b [(decide (fieldLe b 0 1 < 4), 0), (fieldLe b 1 1 ≤ 3, 1)],
  act := fun s _ b =>
    let k := fieldLe b 0 1
    match fieldLe b 1 1 with
    | 0 => .done (setBasin s k { basinOf s k with policyReset := false }) (toLe 4 0)
    | 1 => .done (setBasin s k { basinOf s k with policyReset := true }) (toLe 4 0)
    | 2 => if (strandedOf s k).isEmpty then badState else .done (retryHbm s k) (toLe 4 0)
    | _ => if (strandedOf s k).isEmpty then badState
           else match mirrorOf s k with
             | none => badState
             | some a => let (s, n) := resolveStranded s k a; .done s (toLe 4 n) }
/-- BASIN_RECOVER (R347, R350). -/
def execBasinRecover (m : MbReq) (s : State) : Out := .next (mbGo cmdBasinRecover m s)

/-! Error injection (R354). -/

/-- The error itself, on the path of a real one; none where the island or the address cannot hold it. The thread and lane of
a comparator mismatch are free values. -/
def injectError (s : State) (n kind pa : Nat) : Option (State → State) :=
  let b := n / 128
  match kind with
  | 0 => (berthOf s n).bind (fun e => if (posAt s e.1.pier.val e.2).split then none
      else some (fun s => mismatchAt { s with freeCtr := s.freeCtr + 2 } e.1 ((Config.freeByte (s.freeCtr * 65536)).toNat % 4) 0 ((Config.freeByte ((s.freeCtr + 1) * 65536)).toNat)))
  | 1 => (berthOf s n).map (fun e s => mismatchAt s e.1 0xFF 1 0xFFFF)
  | 2 => (cacheSpot s n pa).map (fun e s => cacheCorrected s n e.1 e.2.2)
  | 3 => (cacheSpot s n pa).map (fun e s => cacheUncorrected s n e.1 e.2.1 e.2.2 pa)
  | 4 => if b < 4 ∧ n = islHbm b then some (fun s => hbmCorrected s b pa) else none
  | 5 => if b < 4 ∧ n = islHbm b then some (fun s => hbmUncorrected s b pa) else none
  | _ => if b < 4 ∧ islExists n ∧ basinUp s b then some (fun s => checkstop s b Config.injectedTrigger n) else none

def cmdErrorInject : MbCmd := {
  op := 0x0605,
  bad := fun _ _ b =>
    let k := fieldLe b 2 1
    bodyBad 12 b [(k ≤ 6, 2), (fieldLe b 3 1 == 0, 3), ((2 ≤ k && k ≤ 5) || fieldLe b 4 8 == 0, 4)],
  act := fun s _ b =>
    let n := fieldLe b 0 2
    let k := fieldLe b 2 1
    match injectError s n k (fieldLe b 4 8) with
    | none => badState
    | some go =>
      let s := logIsland s 0x0A03 0 n (toLe 1 k ++ toLe 2 n)
      let s := go { s with dev := { s.dev with injecting := true } }
      .done { s with dev := { s.dev with injecting := false } } [] }
/-- ERROR_INJECT (R354, R472). -/
def execErrorInject (m : MbReq) (s : State) : Out := .next (mbGo cmdErrorInject m s)

/-! Thermal level, Logbook and diagnostics (R355, R472). -/

/-- TEMP of a BAROMETER register as a signed number of 0.1 °C, and as an i16 (R420). -/
def tempOf (v : Nat) : Int := (BitVec.ofNat 12 v).toInt
def tempWord (t : Int) : Nat := (t % 65536).toNat

/-- The hottest island and its temperature; the lowest number of equal ones (R472). -/
def hottest (s : State) : Nat × Int :=
  allIslands.foldl (fun (acc : Nat × Int) n => if acc.2 < tempOf (islandOf s n).temp then (n, tempOf (islandOf s n).temp) else acc) (0, tempOf (islandOf s 0).temp)

def cmdThermalStatus : MbCmd := {
  op := 0x0702, helm := false, bad := noBody,
  act := fun s _ _ => .done s (toLe 1 (bit (decide (s.dev.thermal = 1))) ++ [0] ++ toLe 2 (tempWord (hottest s).2) ++ toLe 2 (hottest s).1 ++ zeros 2
    ++ toLe 4 s.dev.gales ++ toLe 8 s.dev.lastGale) }
/-- THERMAL_STATUS. -/
def execThermalStatus (m : MbReq) (s : State) : Out := .next (mbGo cmdThermalStatus m s)

/-- The 64 bytes of a Logbook entry (R355). -/
def logBytes (e : LogEntry) : List Byte :=
  toLe 4 e.entry ++ toLe 2 e.code ++ toLe 1 e.cls ++ toLe 1 (bit e.injected) ++ toLe 8 e.time ++ toLe 2 e.island ++ toLe 2 e.place
    ++ toLe 2 e.tenant ++ toLe 2 e.repeats ++ toLe 8 e.seq ++ slice e.detail 0 32

def cmdLogbookRead : MbCmd := {
  op := 0x0A01, helm := false, slip := true,
  bad := fun _ _ b => bodyBad 8 b [(1 ≤ fieldLe b 4 4 && decide (fieldLe b 4 4 ≤ 16384), 4)],
  act := fun s _ b =>
    let es := ((s.log.reverse).filter (fun e => decide (fieldLe b 0 4 ≤ e.entry))).take (fieldLe b 4 4)
    .done s (toLe 4 es.length ++ es.flatMap logBytes) }
/-- LOGBOOK_READ (R355, R472). -/
def execLogbookRead (m : MbReq) (s : State) : Out := .next (mbGo cmdLogbookRead m s)

def cmdLogbookClear : MbCmd := {
  op := 0x0A02, bad := noBody,
  act := fun s _ _ => .done (logIsland { s with log := [] } 0x0A04 0 islPilot (toLe 4 s.log.length)) (toLe 4 s.log.length) }
/-- LOGBOOK_CLEAR (R355). -/
def execLogbookClear (m : MbReq) (s : State) : Out := .next (mbGo cmdLogbookClear m s)

/-- DIAG_RUN takes a spare pair in SLACK or an island that is out of service (R472). -/
def diagOk (s : State) (n : Nat) : Bool :=
  islExists n && ((islandOf s n).out || (match pairOfIsland n with
    | some pr => decide ((pairAt s pr.pier.val pr.inPier).use = .spare) && (islandOf s n).state == 2
    | none => false))

def cmdDiagRun : MbCmd := {
  op := 0x0A03, limit := fun _ => 30000,
  bad := fun _ _ b => bodyBad 4 b [(fieldLe b 2 1 ≤ 2, 2), (fieldLe b 3 1 == 0, 3)],
  act := fun s _ b =>
    let n := fieldLe b 0 2
    if !(diagOk s n) then badState
    else
      let fail := (Config.freeByte (s.freeCtr * 65536)).toNat % 2
      let s' := setIsland { s with freeCtr := s.freeCtr + 2 } n { islandOf s n with test := fail + 1 }
      .done s' (toLe 1 fail ++ zeros 3 ++ randomBytes (s.freeCtr + 1) 32) }
/-- DIAG_RUN (R472): the test's result and its DETAIL are free values. -/
def execDiagRun (m : MbReq) (s : State) : Out := .next (mbGo cmdDiagRun m s)

end Sys2Proof.Machine
end

