-- ==== Sys2Proof/Machine/Float.lean ====
section
/-! DEFINITION. IEEE 754-2019 binary32 and binary64 arithmetic, exact to the bit, with the flags, the flush controls and
the NaN rules of R163 to R171. Flags are numbers: NV 16, DZ 8, OF 4, UF 2, NX 1, as in FCSR. -/

namespace Sys2Proof.Machine

/-- A binary format: fraction bits and exponent bits. -/
structure Fmt where
  mb : Nat
  eb : Nat
  deriving DecidableEq, Repr

/-- binary32. -/
def f32 : Fmt := ⟨23, 8⟩
/-- binary64. -/
def f64 : Fmt := ⟨52, 11⟩

/-- Exponent bias. -/
def fBias (f : Fmt) : Int := 2 ^ (f.eb - 1) - 1
/-- Exponent of the smallest normal number. -/
def fEmin (f : Fmt) : Int := 1 - fBias f
/-- The sign bit as a number. -/
def fSign (f : Fmt) : Nat := 2 ^ (f.mb + f.eb)
/-- The encoding of +∞. -/
def fInf (f : Fmt) : Nat := (2 ^ f.eb - 1) * 2 ^ f.mb
/-- The encoding of the largest finite number. -/
def fMax (f : Fmt) : Nat := fInf f - 1
/-- The default NaN (R168). -/
def fNan (f : Fmt) : Nat := fInf f + 2 ^ (f.mb - 1)

/-- A sign put on an encoding. -/
def withSign (f : Fmt) (neg : Bool) (v : Nat) : Nat := if neg then fSign f + v else v

/-- What an operand is: a NaN, an infinity, a zero, or ± m × 2^e with m not 0. -/
inductive FVal where
  | nan (bits : Nat) (signalling : Bool)
  | inf (neg : Bool)
  | zero (neg : Bool)
  | fin (neg : Bool) (m : Nat) (e : Int)
  deriving DecidableEq, Repr

/-- Read an operand; with DAZ a subnormal reads as a zero of its sign (R166). -/
def fRead (f : Fmt) (daz : Bool) (v : Nat) : FVal :=
  let neg := v / fSign f % 2 == 1
  let ex := v / 2 ^ f.mb % 2 ^ f.eb
  let fr := v % 2 ^ f.mb
  if ex = 2 ^ f.eb - 1 then (if fr = 0 then .inf neg else .nan v (fr / 2 ^ (f.mb - 1) == 0))
  else if ex = 0 then
    if fr = 0 ∨ daz then .zero neg else .fin neg fr (fEmin f - f.mb)
  else .fin neg (2 ^ f.mb + fr) ((ex : Int) - fBias f - f.mb)

/-- Quiet a NaN by setting the most significant fraction bit (R168). -/
def fQuietNan (f : Fmt) (v : Nat) : Nat := if v / 2 ^ (f.mb - 1) % 2 = 1 then v else v + 2 ^ (f.mb - 1)

/-- Round up the magnitude M with remainder rem of 2^sh under a rounding mode (R163). -/
def roundUp (rm : Nat) (neg : Bool) (m rem sh : Nat) : Bool :=
  let half := 2 ^ (sh - 1)
  match rm with
  | 0 => decide (half < rem) || (rem == half && m % 2 == 1)
  | 1 => false
  | 2 => neg && rem != 0
  | 3 => !neg && rem != 0
  | _ => decide (half ≤ rem)

/-- The magnitude m × 2^e in units of 2^q, rounded: the count and whether it is inexact. -/
def quantize (rm : Nat) (neg : Bool) (m : Nat) (e q : Int) : Nat × Bool :=
  if q ≤ e then (m * 2 ^ (e - q).toNat, false)
  else
    let sh := (q - e).toNat
    let r := m % 2 ^ sh
    let k := m / 2 ^ sh
    (if r ≠ 0 ∧ roundUp rm neg k r sh then k + 1 else k, r != 0)

/-- Round ± m × 2^e (m not 0) to a format: the encoding and the flags (R165, R166). -/
def fRound (f : Fmt) (rm : Nat) (ftz neg : Bool) (m : Nat) (e : Int) : Nat × Nat :=
  let ex : Int := e + Nat.log2 m
  let q := max (ex - f.mb) (fEmin f - f.mb)
  let (k, inexact) := quantize rm neg m e q
  let (k, q) := if k = 2 ^ (f.mb + 1) then (2 ^ f.mb, q + 1) else (k, q)
  let (ku, _) := quantize rm neg m e (ex - f.mb)
  let tiny := decide (ex < fEmin f) && !(decide (ex = fEmin f - 1) && ku == 2 ^ (f.mb + 1))
  if k < 2 ^ f.mb then
    if k ≠ 0 ∧ ftz then (withSign f neg 0, 3)
    else (withSign f neg k, if inexact then (if tiny then 3 else 1) else 0)
  else
    let be := q + f.mb + fBias f
    if (2 ^ f.eb - 1 : Int) ≤ be then
      let toInf := match rm with
        | 1 => false
        | 2 => neg
        | 3 => !neg
        | _ => true
      (withSign f neg (if toInf then fInf f else fMax f), 5)
    else (withSign f neg (be.toNat * 2 ^ f.mb + (k - 2 ^ f.mb)), if inexact then (if tiny then 3 else 1) else 0)

/-- The first NaN among operands in order, quieted, and NV when any of them is signalling (R168). -/
def nanOf (f : Fmt) (ops : List FVal) : Option (Nat × Nat) :=
  let sig := ops.any (fun x => match x with
    | .nan _ s => s
    | _ => false)
  ops.findSome? (fun x => match x with
    | .nan v _ => some (fQuietNan f v, if sig then 16 else 0)
    | _ => none)

/-- An operand with its sign flipped. -/
def fNegV : FVal → FVal
  | .nan v s => .nan v s
  | .inf n => .inf !n
  | .zero n => .zero !n
  | .fin n m e => .fin (!n) m e

/-- The sum of two operands that are not NaN (R167 to R171). -/
def fSum (f : Fmt) (rm : Nat) (ftz : Bool) (x y : FVal) : Nat × Nat :=
  match x, y with
  | .inf a, .inf b => if a = b then (withSign f a (fInf f), 0) else (fNan f, 16)
  | .inf a, _ => (withSign f a (fInf f), 0)
  | _, .inf b => (withSign f b (fInf f), 0)
  | .zero a, .zero b => (withSign f (if a = b then a else rm == 2) 0, 0)
  | .zero _, .fin n m e => fRound f rm ftz n m e
  | .fin n m e, .zero _ => fRound f rm ftz n m e
  | .fin n1 m1 e1, .fin n2 m2 e2 =>
    let e := min e1 e2
    let v1 : Int := (m1 * 2 ^ (e1 - e).toNat : Nat)
    let v2 : Int := (m2 * 2 ^ (e2 - e).toNat : Nat)
    let v := (if n1 then -v1 else v1) + (if n2 then -v2 else v2)
    if v = 0 then (withSign f (rm == 2) 0, 0) else fRound f rm ftz (decide (v < 0)) v.natAbs e
  | _, _ => (fNan f, 16)

/-- FADD (R152, R168). -/
def fAdd (f : Fmt) (rm : Nat) (ftz : Bool) (x y : FVal) : Nat × Nat :=
  match nanOf f [x, y] with
  | some r => r
  | none => fSum f rm ftz x y

/-- FSUB. -/
def fSub (f : Fmt) (rm : Nat) (ftz : Bool) (x y : FVal) : Nat × Nat :=
  match nanOf f [x, y] with
  | some r => r
  | none => fSum f rm ftz x (fNegV y)

/-- The exact product of two operands that are not NaN; none for 0 × ∞. -/
def fProd (x y : FVal) : Option FVal :=
  match x, y with
  | .inf a, .inf b => some (.inf (a != b))
  | .inf a, .fin b _ _ => some (.inf (a != b))
  | .fin a _ _, .inf b => some (.inf (a != b))
  | .inf _, .zero _ => none
  | .zero _, .inf _ => none
  | .zero a, .zero b => some (.zero (a != b))
  | .zero a, .fin b _ _ => some (.zero (a != b))
  | .fin a _ _, .zero b => some (.zero (a != b))
  | .fin a m e, .fin b n d => some (.fin (a != b) (m * n) (e + d))
  | .nan v s, _ => some (.nan v s)
  | _, .nan v s => some (.nan v s)

/-- The rounded encoding of a value that is not a NaN. -/
def fPack (f : Fmt) (rm : Nat) (ftz : Bool) (x : FVal) : Nat × Nat :=
  match x with
  | .nan v _ => (v, 0)
  | .inf n => (withSign f n (fInf f), 0)
  | .zero n => (withSign f n 0, 0)
  | .fin n m e => fRound f rm ftz n m e

/-- FMUL. -/
def fMul (f : Fmt) (rm : Nat) (ftz : Bool) (x y : FVal) : Nat × Nat :=
  match nanOf f [x, y] with
  | some r => r
  | none => match fProd x y with
    | none => (fNan f, 16)
    | some p => fPack f rm ftz p

/-- FDIV: a quotient with two bits more than the precision and a sticky bit. -/
def fDiv (f : Fmt) (rm : Nat) (ftz : Bool) (x y : FVal) : Nat × Nat :=
  match nanOf f [x, y] with
  | some r => r
  | none =>
    match x, y with
    | .inf _, .inf _ => (fNan f, 16)
    | .zero _, .zero _ => (fNan f, 16)
    | .inf a, .zero b => (withSign f (a != b) (fInf f), 0)
    | .inf a, .fin b _ _ => (withSign f (a != b) (fInf f), 0)
    | .zero a, .inf b => (withSign f (a != b) 0, 0)
    | .zero a, .fin b _ _ => (withSign f (a != b) 0, 0)
    | .fin a _ _, .inf b => (withSign f (a != b) 0, 0)
    | .fin a _ _, .zero b => (withSign f (a != b) (fInf f), 8)
    | .fin a m e, .fin b n d =>
      let k := f.mb + 3 + Nat.log2 n
      let q := m * 2 ^ k / n
      let s := if m * 2 ^ k % n = 0 then 0 else 1
      fRound f rm ftz (a != b) (2 * q + s) (e - d - k - 1)
    | _, _ => (fNan f, 16)

/-- The integer square root of n, below 2^k. -/
def isqrt (n : Nat) : Nat → Nat → Nat
  | 0, r => r
  | k + 1, r => let t := r + 2 ^ k; isqrt n k (if t * t ≤ n then t else r)

/-- FSQRT. -/
def fSqrt (f : Fmt) (rm : Nat) (ftz : Bool) (x : FVal) : Nat × Nat :=
  match nanOf f [x] with
  | some r => r
  | none =>
    match x with
    | .zero n => (withSign f n 0, 0)
    | .inf false => (fInf f, 0)
    | .fin false m e =>
      -- scale to an even exponent with enough bits for the precision and a sticky bit
      let k := 2 * (f.mb + 3) + (if e % 2 = 0 then 0 else 1)
      let n := m * 2 ^ k
      let r := isqrt n (Nat.log2 n / 2 + 1) 0
      let s := if r * r = n then 0 else 1
      fRound f rm ftz false (2 * r + s) ((e - k) / 2 - 1)
    | _ => (fNan f, 16)

/-- Fused multiply-add ± (a × b) ± c with one rounding (R152, R168). -/
def fFma (f : Fmt) (rm : Nat) (ftz negP negC : Bool) (a b c : FVal) : Nat × Nat :=
  let bad := (match a, b with
    | .inf _, .zero _ => true
    | .zero _, .inf _ => true
    | _, _ => false)
  match nanOf f [a, b, c] with
  | some (v, fl) => (v, if bad then 16 else fl)
  | none =>
    match fProd a b with
    | none => (fNan f, 16)
    | some p => fSum f rm ftz (if negP then fNegV p else p) (if negC then fNegV c else c)

/-- Order of two operands that are not NaN: −1, 0 or 1, with −0 equal to +0. -/
def fCmp (x y : FVal) : Int :=
  let key : FVal → Int × Nat × Int := fun v => match v with
    | .inf n => (if n then -2 else 2, 0, 0)
    | .zero _ => (0, 0, 0)
    | .fin n m e => (if n then -1 else 1, m, e)
    | .nan _ _ => (0, 0, 0)
  let (a, m, e) := key x
  let (b, n, d) := key y
  if a < b then -1 else if b < a then 1
  else if a = 0 ∨ a = 2 ∨ a = -2 then 0
  else
    let q := min e d
    let u := m * 2 ^ (e - q).toNat
    let v := n * 2 ^ (d - q).toNat
    let c : Int := if u < v then -1 else if v < u then 1 else 0
    if a = 1 then c else -c

/-- The encoding of an operand as read, for FMIN and FMAX. -/
def fEnc (f : Fmt) (raw : Nat) (v : FVal) : Nat :=
  match v with
  | .zero n => withSign f n 0
  | _ => raw

/-- FMIN and FMAX: minimumNumber and maximumNumber, −0 below +0 (R169). -/
def fMinMax (f : Fmt) (isMax : Bool) (ra rb : Nat) (a b : FVal) : Nat × Nat :=
  match a, b with
  | .nan v s, .nan _ t => (fQuietNan f v, if s || t then 16 else 0)
  | .nan _ s, _ => (fEnc f rb b, if s then 16 else 0)
  | _, .nan _ s => (fEnc f ra a, if s then 16 else 0)
  | _, _ =>
    let c := fCmp a b
    let aBelow := match a, b with
      | .zero n, .zero _ => n
      | _, _ => decide (c ≤ 0)
    (if aBelow != isMax then fEnc f ra a else fEnc f rb b, 0)

/-- FEQ, FLT, FLE by kind 0, 1, 2: the result and the flags (R169). -/
def fCompare (kind : Nat) (a b : FVal) : Bool × Nat :=
  let isNan : FVal → Bool := fun v => match v with
    | .nan _ _ => true
    | _ => false
  let sig : FVal → Bool := fun v => match v with
    | .nan _ s => s
    | _ => false
  if isNan a || isNan b then (false, if kind ≠ 0 ∨ sig a ∨ sig b then 16 else 0)
  else
    let c := fCmp a b
    (match kind with
      | 0 => decide (c = 0)
      | 1 => decide (c < 0)
      | _ => decide (c ≤ 0), 0)

/-- FCVT.S.D (R168, R170). -/
def fNarrow (rm : Nat) (ftz : Bool) (x : FVal) : Nat × Nat :=
  match x with
  | .nan v s =>
    let fr := v / 2 ^ 29 % 2 ^ 23
    (withSign f32 (v / 2 ^ 63 == 1) (fInf f32 + (if 2 ^ 22 ≤ fr then fr else fr + 2 ^ 22)), if s then 16 else 0)
  | _ => fPack f32 rm ftz x

/-- FCVT.D.S: exact (R168, R170). -/
def fWiden (x : FVal) : Nat × Nat :=
  match x with
  | .nan v s =>
    let fr := v % 2 ^ 23
    (withSign f64 (v / 2 ^ 31 == 1) (fInf f64 + (if 2 ^ 22 ≤ fr then fr else fr + 2 ^ 22) * 2 ^ 29), if s then 16 else 0)
  | _ => fPack f64 0 false x

/-- An integer as binary64; exact for 24 and 48 bits (R170). -/
def fOfInt (v : Int) : Nat :=
  if v = 0 then 0 else (fRound f64 0 false (decide (v < 0)) v.natAbs 0).1

/-- Conversion to an integer in lo to hi under a rounding mode: the value and the flags (R170). -/
def fToInt (rm : Nat) (lo hi : Int) (x : FVal) : Int × Nat :=
  match x with
  | .nan _ _ => (hi, 16)
  | .inf n => (if n then lo else hi, 16)
  | .zero _ => (0, 0)
  | .fin n m e =>
    let (k, inexact) := quantize rm n m e 0
    let v : Int := if n then -(k : Int) else k
    if v < lo then (lo, 16) else if hi < v then (hi, 16) else (v, if inexact then 1 else 0)

end Sys2Proof.Machine
end

