-- ==== Sys2Proof/Machine/FloatOps.lean ====
section
/-! DEFINITION. The floating-point instructions of Windlass (05 Floating point, 06). -/

namespace Sys2Proof.Machine

/-- FCSR.RM, FTZ and DAZ (R163). -/
def fcsrRm (a : Arch) : Nat := (a.fcsr.extractLsb' 10 3).toNat
def fcsrFtz (a : Arch) : Bool := a.fcsr.getLsbD 13
def fcsrDaz (a : Arch) : Bool := a.fcsr.getLsbD 14

/-- Raise flags: FP_TRAP when an enabled one is among them, with no effect; else they stick in FCSR (R152, R167). -/
def raiseFp (a : Arch) (flags : Nat) : Except Exn Arch :=
  if a.fcsr.extractLsb' 5 5 &&& BitVec.ofNat 5 flags ≠ 0 then .error excFpTrap
  else .ok { a with fcsr := a.fcsr ||| BitVec.ofNat 24 (flags % 32) }

/-- The floating-point operand of a format, as its register holds it. -/
def fOp (f : Fmt) (a : Arch) (r : RegField) : Nat := if f.mb = 52 then (rdF a r).toNat else (rdF32 a r).toNat
/-- The same, read as a value with DAZ (R166). -/
def fIn (f : Fmt) (a : Arch) (r : RegField) : FVal := fRead f (fcsrDaz a) (fOp f a r)
/-- Write a floating-point result of a format (R128). -/
def fOut (f : Fmt) (a : Arch) (r : RegField) (v : Nat) : Arch :=
  if f.mb = 52 then wrF a r (BitVec.ofNat 64 v) else wrF32 a r (BitVec.ofNat 32 v)

/-- An instruction that rounds: ILLEGAL while RM is 5 to 7 (R164), then the result with its flags. -/
def fpRound (th : ThreadId) (ok : Bool) (f : Fmt) (d : RegField) (op : Arch → Nat → Bool → Nat × Nat) (s : State) : Out :=
  .next (regInstr th (fun a =>
    if !ok || decide (5 ≤ fcsrRm a) then .error excIllegal
    else
      let (v, fl) := op a (fcsrRm a) (fcsrFtz a)
      match raiseFp a fl with
      | .error e => .error e
      | .ok a => .ok (fOut f a d v)) s)

/-- An instruction that does not read RM, with its flags. -/
def fpPlain (th : ThreadId) (f : Fmt) (d : RegField) (op : Arch → Nat × Nat) (s : State) : Out :=
  .next (regInstr th (fun a =>
    let (v, fl) := op a
    match raiseFp a fl with
    | .error e => .error e
    | .ok a => .ok (fOut f a d v)) s)

/-- A sign-bit operation: no flags (R168). -/
def fpBits (th : ThreadId) (f : Fmt) (d a : RegField) (op : Nat → Nat) (s : State) : Out :=
  .next (regInstr th (fun r => .ok (fOut f r d (op (fOp f r a)))) s)

/-- A compare into an integer register (R169). -/
def fpCompare (th : ThreadId) (f : Fmt) (kind : Nat) (d a b : RegField) (s : State) : Out :=
  .next (regInstr th (fun r =>
    let (v, fl) := fCompare kind (fIn f r a) (fIn f r b)
    match raiseFp r fl with
    | .error e => .error e
    | .ok r => .ok (wr r d (boolW v))) s)

/-- A conversion to an integer in lo to hi (R164, R170). -/
def fpToInt (th : ThreadId) (ok : Bool) (a : RegField) (lo hi : Int) (put : Arch → Int → Arch) (s : State) : Out :=
  .next (regInstr th (fun r =>
    if !ok || decide (5 ≤ fcsrRm r) then .error excIllegal
    else
      let (v, fl) := fToInt (fcsrRm r) lo hi (fIn f64 r a)
      match raiseFp r fl with
      | .error e => .error e
      | .ok r => .ok (put r v)) s)

/-- FADD_D (R152). -/
def execFaddD (th : ThreadId) (d a b : RegField) (s : State) : Out :=
  fpRound th true f64 d (fun r rm ftz => fAdd f64 rm ftz (fIn f64 r a) (fIn f64 r b)) s
/-- FSUB_D (R152). -/
def execFsubD (th : ThreadId) (d a b : RegField) (s : State) : Out :=
  fpRound th true f64 d (fun r rm ftz => fSub f64 rm ftz (fIn f64 r a) (fIn f64 r b)) s
/-- FMUL_D (R152). -/
def execFmulD (th : ThreadId) (d a b : RegField) (s : State) : Out :=
  fpRound th true f64 d (fun r rm ftz => fMul f64 rm ftz (fIn f64 r a) (fIn f64 r b)) s
/-- FDIV_D (R152). -/
def execFdivD (th : ThreadId) (d a b : RegField) (s : State) : Out :=
  fpRound th true f64 d (fun r rm ftz => fDiv f64 rm ftz (fIn f64 r a) (fIn f64 r b)) s
/-- FSQRT_D: B must be 0 (R152). -/
def execFsqrtD (th : ThreadId) (d a b : RegField) (s : State) : Out :=
  fpRound th (b.val == 0) f64 d (fun r rm ftz => fSqrt f64 rm ftz (fIn f64 r a)) s
/-- FMIN_D (R169). -/
def execFminD (th : ThreadId) (d a b : RegField) (s : State) : Out :=
  fpPlain th f64 d (fun r => fMinMax f64 false (fOp f64 r a) (fOp f64 r b) (fIn f64 r a) (fIn f64 r b)) s
/-- FMAX_D (R169). -/
def execFmaxD (th : ThreadId) (d a b : RegField) (s : State) : Out :=
  fpPlain th f64 d (fun r => fMinMax f64 true (fOp f64 r a) (fOp f64 r b) (fIn f64 r a) (fIn f64 r b)) s
/-- FABS_D (R168). -/
def execFabsD (th : ThreadId) (d a : RegField) (s : State) : Out := fpBits th f64 d a (fun v => v % fSign f64) s
/-- FNEG_D (R168). -/
def execFnegD (th : ThreadId) (d a : RegField) (s : State) : Out :=
  fpBits th f64 d a (fun v => if v < fSign f64 then v + fSign f64 else v - fSign f64) s
/-- FMOV_D (R168). -/
def execFmovD (th : ThreadId) (d a : RegField) (s : State) : Out := fpBits th f64 d a (fun v => v) s
/-- FMADD_D (R152). -/
def execFmaddD (th : ThreadId) (d a b : RegField) (s : State) : Out :=
  fpRound th true f64 d (fun r rm ftz => fFma f64 rm ftz false false (fIn f64 r a) (fIn f64 r b) (fIn f64 r d)) s
/-- FMSUB_D (R152). -/
def execFmsubD (th : ThreadId) (d a b : RegField) (s : State) : Out :=
  fpRound th true f64 d (fun r rm ftz => fFma f64 rm ftz false true (fIn f64 r a) (fIn f64 r b) (fIn f64 r d)) s
/-- FNMADD_D (R152). -/
def execFnmaddD (th : ThreadId) (d a b : RegField) (s : State) : Out :=
  fpRound th true f64 d (fun r rm ftz => fFma f64 rm ftz true true (fIn f64 r a) (fIn f64 r b) (fIn f64 r d)) s
/-- FNMSUB_D (R152). -/
def execFnmsubD (th : ThreadId) (d a b : RegField) (s : State) : Out :=
  fpRound th true f64 d (fun r rm ftz => fFma f64 rm ftz true false (fIn f64 r a) (fIn f64 r b) (fIn f64 r d)) s
/-- FEQ_D (R169). -/
def execFeqD (th : ThreadId) (d a b : RegField) (s : State) : Out := fpCompare th f64 0 d a b s
/-- FLT_D (R169). -/
def execFltD (th : ThreadId) (d a b : RegField) (s : State) : Out := fpCompare th f64 1 d a b s
/-- FLE_D (R169). -/
def execFleD (th : ThreadId) (d a b : RegField) (s : State) : Out := fpCompare th f64 2 d a b s
/-- FADD_S (R152). -/
def execFaddS (th : ThreadId) (d a b : RegField) (s : State) : Out :=
  fpRound th true f32 d (fun r rm ftz => fAdd f32 rm ftz (fIn f32 r a) (fIn f32 r b)) s
/-- FSUB_S (R152). -/
def execFsubS (th : ThreadId) (d a b : RegField) (s : State) : Out :=
  fpRound th true f32 d (fun r rm ftz => fSub f32 rm ftz (fIn f32 r a) (fIn f32 r b)) s
/-- FMUL_S (R152). -/
def execFmulS (th : ThreadId) (d a b : RegField) (s : State) : Out :=
  fpRound th true f32 d (fun r rm ftz => fMul f32 rm ftz (fIn f32 r a) (fIn f32 r b)) s
/-- FDIV_S (R152). -/
def execFdivS (th : ThreadId) (d a b : RegField) (s : State) : Out :=
  fpRound th true f32 d (fun r rm ftz => fDiv f32 rm ftz (fIn f32 r a) (fIn f32 r b)) s
/-- FSQRT_S: B must be 0 (R152). -/
def execFsqrtS (th : ThreadId) (d a b : RegField) (s : State) : Out :=
  fpRound th (b.val == 0) f32 d (fun r rm ftz => fSqrt f32 rm ftz (fIn f32 r a)) s
/-- FMIN_S (R169). -/
def execFminS (th : ThreadId) (d a b : RegField) (s : State) : Out :=
  fpPlain th f32 d (fun r => fMinMax f32 false (fOp f32 r a) (fOp f32 r b) (fIn f32 r a) (fIn f32 r b)) s
/-- FMAX_S (R169). -/
def execFmaxS (th : ThreadId) (d a b : RegField) (s : State) : Out :=
  fpPlain th f32 d (fun r => fMinMax f32 true (fOp f32 r a) (fOp f32 r b) (fIn f32 r a) (fIn f32 r b)) s
/-- FABS_S (R168). -/
def execFabsS (th : ThreadId) (d a : RegField) (s : State) : Out := fpBits th f32 d a (fun v => v % fSign f32) s
/-- FNEG_S (R168). -/
def execFnegS (th : ThreadId) (d a : RegField) (s : State) : Out :=
  fpBits th f32 d a (fun v => if v < fSign f32 then v + fSign f32 else v - fSign f32) s
/-- FMOV_S (R168). -/
def execFmovS (th : ThreadId) (d a : RegField) (s : State) : Out := fpBits th f32 d a (fun v => v) s
/-- FMADD_S (R152). -/
def execFmaddS (th : ThreadId) (d a b : RegField) (s : State) : Out :=
  fpRound th true f32 d (fun r rm ftz => fFma f32 rm ftz false false (fIn f32 r a) (fIn f32 r b) (fIn f32 r d)) s
/-- FMSUB_S (R152). -/
def execFmsubS (th : ThreadId) (d a b : RegField) (s : State) : Out :=
  fpRound th true f32 d (fun r rm ftz => fFma f32 rm ftz false true (fIn f32 r a) (fIn f32 r b) (fIn f32 r d)) s
/-- FNMADD_S (R152). -/
def execFnmaddS (th : ThreadId) (d a b : RegField) (s : State) : Out :=
  fpRound th true f32 d (fun r rm ftz => fFma f32 rm ftz true true (fIn f32 r a) (fIn f32 r b) (fIn f32 r d)) s
/-- FNMSUB_S (R152). -/
def execFnmsubS (th : ThreadId) (d a b : RegField) (s : State) : Out :=
  fpRound th true f32 d (fun r rm ftz => fFma f32 rm ftz true false (fIn f32 r a) (fIn f32 r b) (fIn f32 r d)) s
/-- FEQ_S (R169). -/
def execFeqS (th : ThreadId) (d a b : RegField) (s : State) : Out := fpCompare th f32 0 d a b s
/-- FLT_S (R169). -/
def execFltS (th : ThreadId) (d a b : RegField) (s : State) : Out := fpCompare th f32 1 d a b s
/-- FLE_S (R169). -/
def execFleS (th : ThreadId) (d a b : RegField) (s : State) : Out := fpCompare th f32 2 d a b s
/-- FCVT_D_S (R168). -/
def execFcvtDS (th : ThreadId) (d a : RegField) (s : State) : Out := fpPlain th f64 d (fun r => fWiden (fIn f32 r a)) s
/-- FCVT_S_D (R168, R170). -/
def execFcvtSD (th : ThreadId) (d a : RegField) (s : State) : Out := fpRound th true f32 d (fun r rm ftz => fNarrow rm ftz (fIn f64 r a)) s
/-- FCVT_D_W (R170). -/
def execFcvtDW (th : ThreadId) (d a : RegField) (s : State) : Out := fpPlain th f64 d (fun r => (fOfInt (rd r a).toInt, 0)) s
/-- FCVT_D_WU (R170). -/
def execFcvtDWu (th : ThreadId) (d a : RegField) (s : State) : Out := fpPlain th f64 d (fun r => (fOfInt (rd r a).toNat, 0)) s
/-- FCVT_W_D (R170). -/
def execFcvtWD (th : ThreadId) (d a : RegField) (s : State) : Out :=
  fpToInt th true a (-2 ^ 23) (2 ^ 23 - 1) (fun r v => wr r d (BitVec.ofInt 24 v)) s
/-- FCVT_WU_D (R170). -/
def execFcvtWuD (th : ThreadId) (d a : RegField) (s : State) : Out :=
  fpToInt th true a 0 (2 ^ 24 - 1) (fun r v => wr r d (BitVec.ofInt 24 v)) s
/-- FCVT_D_P: A must name a pair (R129, R170). -/
def execFcvtDP (th : ThreadId) (d a : RegField) (s : State) : Out :=
  .next (regInstr th (fun r => if pairOk a then .ok (fOut f64 r d (fOfInt (rdPair r a).toInt)) else .error excIllegal) s)
/-- FCVT_P_D: D must name a pair (R129, R170). -/
def execFcvtPD (th : ThreadId) (d a : RegField) (s : State) : Out :=
  fpToInt th (pairOk d) a (-2 ^ 47) (2 ^ 47 - 1) (fun r v => wrPair r d (BitVec.ofInt 48 v)) s
/-- FMVX: D must name a triple (R129, R147). -/
def execFmvx (th : ThreadId) (d a : RegField) (s : State) : Out :=
  .next (regInstr th (fun r => if tripleOk d then .ok (wrTriple r d (rdF r a)) else .error excIllegal) s)
/-- FMVF: A must name a triple (R129, R147). -/
def execFmvf (th : ThreadId) (d a : RegField) (s : State) : Out :=
  .next (regInstr th (fun r => if tripleOk a then .ok (wrF r d (rdTriple r a)) else .error excIllegal) s)

end Sys2Proof.Machine
end

