-- ==== Sys2Proof/Machine/FwBase.lean ====
section
/-! DEFINITION. Manifests, package checks, delta images and the slots of flash (17). -/

namespace Sys2Proof.Machine

/-! The manifest (R429 to R433). -/

/-- Offset of component entry i. -/
def entryAt (i : Nat) : Nat := 0x40 + 112 * i
/-- A field of component entry i. -/
def entryF (m : List Byte) (i off n : Nat) : Nat := fieldLe m (entryAt i + off) n
/-- SOURCE of entry i: 0 full image, 1 delta, 2 unchanged. -/
def entrySource (m : List Byte) (i : Nat) : Nat := entryF m i 2 2 % 4
/-- SM3 of the target image of entry i, and BASE_SM3. -/
def entrySm3 (m : List Byte) (i : Nat) : List Byte := slice m (entryAt i + 0x30) 32
def entryBase (m : List Byte) (i : Nat) : List Byte := slice m (entryAt i + 0x50) 32
/-- TESTED_COUNT and the length of the signed body. -/
def testedCount (m : List Byte) : Nat := fieldLe m 0x580 2
def bodyLen (m : List Byte) : Nat := 0x584 + 32 * testedCount m
/-- Length of the manifest. -/
def manifestLen (m : List Byte) : Nat := bodyLen m + 2048 + 64 + 4 + 64
/-- ARB of a class. -/
def arbOf (m : List Byte) (c : Nat) : Nat := fieldLe m (0x18 + 2 * c) 2
/-- RELEASE. -/
def releaseOf (m : List Byte) : Nat := fieldLe m 0x0C 4

/-- Interfaces provided (off 0x10) or required (off 0x20) by the twelve entries: IF, MAJOR, MINOR (R432). -/
def interfaces (m : List Byte) (off : Nat) : List (Nat × Nat × Nat) :=
  (List.range 12).flatMap (fun i => (List.range 4).filterMap (fun k =>
    let o := off + 4 * k
    if entryF m i o 1 = 0 then none else some (entryF m i o 1, entryF m i (o + 1) 1, entryF m i (o + 2) 2)))

/-- Every requirement is met and no interface has two providers (R432). -/
def interfacesOk (m : List Byte) : Bool :=
  let prov := interfaces m 0x10
  let ids := prov.map (·.1)
  decide (ids.eraseDups.length = ids.length)
    && (interfaces m 0x20).all (fun r => prov.any (fun p => p.1 == r.1 && p.2.1 == r.2.1 && decide (r.2.2 ≤ p.2.2)))

/-- The form of an entry (R429). -/
def entryOk (m : List Byte) (i : Nat) : Bool :=
  entryF m i 0 1 == i + 1 && decide (entryF m i 1 1 ≤ 3) && decide (entryF m i 2 2 ≤ 2) && decide (entryF m i 0x0E 2 ≤ 256)
    && (entrySource m i == 1 || (entryBase m i).all (· == 0))

/-- The form of a manifest (R429, R432). -/
def manifestOk (m : List Byte) : Bool :=
  let n := bodyLen m
  fieldLe m 0 4 == 0x464E4D4B && fieldLe m 4 1 == 1 && fieldLe m 5 1 == 12 && fieldLe m 6 2 == 0
    && (List.range 4).all (fun c => decide (arbOf m c ≤ 256)) && (List.range 12).all (entryOk m)
    && decide (1 ≤ testedCount m) && decide (testedCount m ≤ 256) && fieldLe m 0x582 2 == 0
    && decide (fieldLe m (n + 2112) 4 ≤ 1) && (fieldLe m (n + 2112) 4 == 1 || (slice m (n + 2116) 64).all (· == 0))
    && interfacesOk m

/-- The vendor signature, and the owner signature where it is present or required (R430). -/
def signaturesOk (s : State) (m : List Byte) : Bool :=
  let n := bodyLen m
  let body := slice m 0 n
  let signer := slice m n 2048
  let vendor := slice m (n + 2048) 64
  let present := fieldLe m (n + 2112) 4 == 1
  Config.signerOk signer && Config.pkVerify 0 0 (Config.signerKey signer) body vendor
    && (if present then (match s.otp.owners.getLast? with
          | some h => Config.ownerSigOk h (body ++ vendor) (slice m (n + 2116) 64)
          | none => false)
        else !(settingBit s 0))

/-- The vendor signature alone, as the ROM checks it (R422). -/
def vendorSigned (m : List Byte) : Bool :=
  let n := bodyLen m
  Config.signerOk (slice m n 2048) && Config.pkVerify 0 0 (Config.signerKey (slice m n 2048)) (slice m 0 n) (slice m (n + 2048) 64)

/-- The package is for this family, stepping and unit (R435, R447). -/
def bindingOk (s : State) (m : List Byte) : Bool :=
  let unit := slice m 0x20 32
  fieldLe m 8 2 == 0x4256 && bitOf (fieldLe m 0x0A 2) 2
    && (if unit.all (· == 0) then !(settingBit s 1) else unit == unitBytes s)

/-- The combination identity (R433). -/
def combination (m : List Byte) : List Byte := sm3Bytes ((List.range 12).flatMap (fun i => toLe 1 (i + 1) ++ toLe 4 (entryF m i 4 4)))
/-- A manifest lists a combination. -/
def listsCombination (m c : List Byte) : Bool := (List.range (testedCount m)).any (fun k => slice m (0x584 + 32 * k) 32 == c)

/-- The level of a class in OTP (R431). -/
def levelOf (s : State) (c : Nat) : Nat := (s.otp.arb[c]?).getD 0

/-- R431 for every class. -/
def rollbackOk (s : State) (m : List Byte) : Bool :=
  (List.range 4).all (fun c => decide (levelOf s c ≤ arbOf m c)
    && (List.range 12).all (fun i => entryF m i 1 1 != c || decide (arbOf m c ≤ entryF m i 0x0E 2)))

/-- Every SVN meets the level of its class (R431). -/
def svnOk (s : State) (m : List Byte) : Bool := (List.range 12).all (fun i => decide (levelOf s (entryF m i 1 1) ≤ entryF m i 0x0E 2))

/-! Delta images (R436, R437). -/

/-- The operations of a delta over its decoded bytes: the target, where END is the last byte. -/
def deltaOps (base ops : List Byte) : Nat → Nat → List Byte → Option (List Byte)
  | 0, _, _ => none
  | fuel + 1, i, out =>
    match ops[i]? with
    | none => none
    | some b =>
      let off := fieldLe ops (i + 1) 4
      let len := fieldLe ops (i + 5) 4
      let litLen := off
      match b.toNat with
      | 0 => if i + 1 = ops.length then some out else none
      | 1 => if ops.length < i + 9 ∨ len = 0 ∨ base.length < off + len then none else deltaOps base ops fuel (i + 9) (out ++ (base.drop off).take len)
      | 2 =>
        if ops.length < i + 9 + len ∨ len = 0 ∨ base.length < off + len then none
        else deltaOps base ops fuel (i + 9 + len) (out ++ List.zipWith (· + ·) ((base.drop off).take len) ((ops.drop (i + 9)).take len))
      | 3 => if ops.length < i + 5 + litLen ∨ litLen = 0 then none else deltaOps base ops fuel (i + 5 + litLen) (out ++ (ops.drop (i + 5)).take litLen)
      | _ => none

/-- The target image of a delta over a base, for a component, where the delta is well formed (R436, R437). -/
def deltaImage (comp : Nat) (base d target : List Byte) (len : Nat) : Option (List Byte) :=
  let f (off n : Nat) : Nat := fieldLe d off n
  if f 0 4 ≠ 0x544C4450 ∨ f 4 1 ≠ 1 ∨ f 5 1 ≠ comp ∨ f 6 2 ≠ 0 ∨ f 8 4 ≠ base.length ∨ f 0x0C 4 ≠ len ∨ f 0x34 12 ≠ 0
      ∨ slice d 0x10 16 ≠ (sm3Bytes base).take 16 ∨ slice d 0x20 16 ≠ target.take 16 ∨ d.length ≠ 64 + f 0x30 4 then none
  else match inflateAll (d.drop 64) false (d.length + 1) 0 [] [] with
    | none => none
    | some (ops, _, pos) =>
      if 8 * (d.length - 64) < pos + 8 then
        (match deltaOps base ops (ops.length + 1) 0 [] with
          | some out => if out.length = len then some out else none
          | none => none)
      else none

/-! Packages (R434, R435). -/

/-- Round up to 4 KiB. -/
def up4k (n : Nat) : Nat := (n + 4095) / 4096 * 4096

/-- The piece a package holds of each component, in ID order (R434). -/
def packagePieces (p : List Byte) : Nat → Nat → Nat → List (List Byte)
  | 0, _, _ => []
  | fuel + 1, i, at_ =>
    let at' := up4k at_
    let len := match entrySource p i with
      | 0 => entryF p i 8 4
      | 1 => 64 + fieldLe p (at' + 0x30) 4
      | _ => 0
    if len = 0 then [] :: packagePieces p fuel (i + 1) at_ else slice p at' len :: packagePieces p fuel (i + 1) (at' + len)

/-- The images the active slot holds. -/
def imagesOf (x : Slot) : List (List Byte) := ((slotSet x).map (·.images)).getD []
/-- Image i of a list. -/
def imageAt (l : List (List Byte)) (i : Nat) : List Byte := (l[i]?).getD []

/-- A target image of a package: none where it does not decode or differs from its entry (R435 check 7). -/
def buildImage (m : List Byte) (base piece : List Byte) (i : Nat) : Option (List Byte) :=
  let img : Option (List Byte) := match entrySource m i with
    | 0 => some piece
    | 1 => deltaImage (i + 1) base piece (entrySm3 m i) (entryF m i 8 4)
    | _ => some base
  match img with
  | some x => if x.length = entryF m i 8 4 ∧ sm3Bytes x = entrySm3 m i then some x else none
  | none => none

/-- What the checks of R435 come to: a status with order and component ID, or the set. -/
inductive Checked where
  | bad (status order comp : Nat)
  | good (x : FwSet)
  deriving DecidableEq, Repr

/-- Checks 6 and 7 over the pieces (R435). -/
def buildSet (m : List Byte) (base pieces : List (List Byte)) : Checked :=
  let wrongBase (i : Nat) : Bool := match entrySource m i with
    | 1 => sm3Bytes (imageAt base i) != entryBase m i
    | 2 => sm3Bytes (imageAt base i) != entrySm3 m i
    | _ => false
  match (List.range 12).find? wrongBase with
  | some i => .bad 0x0813 6 (i + 1)
  | none =>
    let built := (List.range 12).map (fun i => buildImage m (imageAt base i) (imageAt pieces i) i)
    match (List.range 12).find? (fun i => ((built[i]?).getD none).isNone) with
    | some i => .bad 0x0815 7 (i + 1)
    | none => .good { manifest := slice m 0 (manifestLen m), images := built.filterMap id }

/-- Every byte below a length has been written (R435). -/
def coveredTo (w : List (Nat × Nat)) (len : Nat) : Nat → Nat → Bool
  | 0, at_ => decide (len ≤ at_)
  | fuel + 1, at_ =>
    if len ≤ at_ then true
    else match w.find? (fun e => decide (e.1 ≤ at_) && decide (at_ < e.1 + e.2)) with
      | some e => coveredTo w len fuel (e.1 + e.2)
      | none => false

/-- The slot that runs a start, 0 or 1, and the one a package is written into (R434, R449). -/
def slotAt (s : State) (n : Nat) : Slot := if n = 0 then s.fw.slot0 else s.fw.slot1
def setSlotAt (s : State) (n : Nat) (x : Slot) : State :=
  { s with fw := if n = 0 then { s.fw with slot0 := x } else { s.fw with slot1 := x } }
def inactive (s : State) : Nat := 1 - s.fw.active % 2

/-- The checks of R435 in order on the staged package; in the Slipway a SOURCE other than 0 is malformed (R449). -/
def checkPackage (s : State) : Checked :=
  let p := readBytes s.fw.bytes 0 s.fw.len
  let slipway := decide (s.dev.st = .slipway)
  if !(coveredTo s.fw.written s.fw.len (s.fw.written.length + 1) 0) ∨ !(manifestOk p) then .bad 0x0815 1 0
  else if slipway && (List.range 12).any (fun i => entrySource p i != 0) then .bad 0x0815 1 0
  else if !(signaturesOk s p) then .bad 0x0803 2 0
  else if !(bindingOk s p) then .bad 0x0811 3 0
  else if !(listsCombination p (combination p)) then .bad 0x0812 4 0
  else if !(rollbackOk s p) then .bad 0x0814 5 0
  else buildSet p (imagesOf (slotAt s s.fw.active)) (packagePieces p 12 0 (manifestLen p))

/-- A slot that the ROM verifies: signature, the SM3 of each component, and the levels of OTP (R422, R424, R431). -/
def slotBoots (s : State) (x : Slot) : Bool :=
  match slotSet x with
  | none => false
  | some v =>
    decide (x = .factory) || (vendorSigned v.manifest && (List.range 12).all (fun i => sm3Bytes (imageAt v.images i) == entrySm3 v.manifest i) && svnOk s v.manifest)

/-- The components loaded agree in their interfaces and the combination is tested (R444). -/
def slotAgrees (x : Slot) : Bool :=
  match slotSet x with
  | none => false
  | some v => decide (x = .factory) || (interfacesOk v.manifest && listsCombination v.manifest (combination v.manifest))

/-- Manifest ID of a component by its place in the switching order (R440). -/
def compId (k : Nat) : Nat := if k = 10 then 5 else Config.componentId k

end Sys2Proof.Machine
end

