-- ==== Sys2Proof/Machine/HawserOps.lean ====
section
/-! DEFINITION. Hawser links: flits, credits, replay, training and the HELLO exchange (R476 to R486). -/

namespace Sys2Proof.Machine

/-- A link of the Harbour, and its replacement. -/
def linkOf (s : State) (l : Nat) : HLink := tget {} s.hlinks l
def setLink (s : State) (l : Nat) (v : HLink) : State := { s with hlinks := tset {} s.hlinks l v }

/-- Another member, and its replacement. -/
def peerOf (s : State) (q : Nat) : Peer := tget {} s.road.peers q
def setPeer (s : State) (q : Nat) (v : Peer) : State := { s with road := { s.road with peers := tset {} s.road.peers q v } }

/-- The mirror held of a member, and its replacement. -/
def mirrorAt (s : State) (q : Nat) : Mirror := tget {} s.mirrors q
def setMirror (s : State) (q : Nat) (v : Mirror) : State := { s with mirrors := tset {} s.mirrors q v }

/-- The link's island works: in service, ON and out of reset, with the Harbour in service or in Doldrums (R407, R482). -/
def linkIsland (s : State) (l : Nat) : Bool :=
  let i := islandOf s (islHawser l)
  awake s && decide (i.state = 3) && !i.reset && !i.out

/-- Receive buffer of a virtual channel in flits (R480). -/
def vcRoom (vc : Nat) : Nat := if vc = 0 then 1024 else if vc = 1 then 128 else 16

/-- DATA flits pass on a link: it is up and both INITs have arrived (R481), and its HELLO allows more than CONTROL (R484). -/
def linkData (s : State) (l : Nat) : Bool := linkIsland s l && (linkOf s l).up && (linkOf s l).init && decide (2 ≤ (linkOf s l).hello)

/-- Position of the member a link is cabled to (R482 topology). -/
def cabled (s : State) (l : Nat) : Nat :=
  let m := s.road.members
  if m = 0 then 0 else if m = 2 then 1 - s.position else if l = 0 then (s.position + 1) % m else (s.position + m - 1) % m

/-- Links a member may be reached over, the direct one first (R486). -/
def linksTo (s : State) (q : Nat) : List Nat := ([0, 1].filter (fun l => cabled s l == q)) ++ ([0, 1].filter (fun l => cabled s l != q))
/-- The link that carries DATA to a member. -/
def linkTo (s : State) (q : Nat) : Option Nat := (linksTo s q).find? (fun l => linkData s l && !(linkOf s l).draining)

/-- Activity of a link (R357); a message other than a heartbeat wakes the Harbour from Doldrums (R415, R487). -/
def linkActive (s : State) (l : Nat) : State :=
  let s := arrive s (0xF14 + l) l false
  if s.dev.st = .doldrums then { s with dev := { s.dev with st := .waking, wakeAt := some (nowNs s + 150000) } } else s

/-- Source 0xD00 or 0xD01 arrives with the lanes (R357, R482). -/
def linkTold (s : State) (l : Nat) : State := arrive s (0xD00 + l) (linkOf s l).lanes false

/-! Sending (R477, R479, R480). -/

/-- DATA flits a message of n bytes takes: 228 bytes each, with its 4-byte header (R477). -/
def flitsFor (n : Nat) : Nat := (n + 4 + 227) / 228

/-- Bytes that travel with a record: its basin tag, then the intake entry with an ACCEPTED record, the commit lines with a COMMITTED one
(R485). -/
def recordBytes (s : State) (b n : Nat) : Nat :=
  let l := ledgerOf s b
  match l.recs[n - l.first]? with
  | none => 132
  | some r =>
    let entry := ((mget l.intake r.seq).map intakeSize).getD 0
    let lines := match consOf s r.seq with
      | some c => ((c.group.map (fun e => e.1 / 64)).eraseDups).length * 72
      | none => 0
    132 + (if r.state = 1 then entry else if r.state = 3 then lines else 0)

/-- Put a message for a member into the queue of its link; with no path it waits on link 0. -/
def sendRoad (s : State) (q vc : Nat) (msg : TxMsg) (bytes : Nat) : State :=
  let l := (linkTo s q).getD 0
  let v := linkOf s l
  let f : TxFlit := { vc := vc, origin := s.position, dest := q, msg := msg }
  setLink s l { v with queue := v.queue ++ List.replicate (flitsFor bytes) f }

/-- The virtual channel whose flit goes next: VC0 at least once in every 16, else the highest priority (R480). -/
def pickVc (v : HLink) : Option Nat :=
  let can (vc : Nat) : Bool := v.queue.any (fun f => f.vc == vc) && decide (0 < (tget {} v.vcs vc).credit)
  if 15 ≤ v.since0 ∧ can 0 then some 0 else [2, 1, 0].find? can

/-- Send one new flit: it takes a credit and the next SEQ, and enters the replay buffer (R479, R480); the session key is renewed
before its count of flits reaches 2^40 (R484). -/
def sendOne (now : Nat) (v : HLink) : HLink :=
  if 2048 ≤ v.replay.length ∨ v.draining then v
  else match pickVc v with
    | none => v
    | some vc =>
      match v.queue.find? (fun f => f.vc == vc) with
      | none => v
      | some f =>
        let c := tget {} v.vcs vc
        { v with
          queue := removeFirst (fun f => f.vc == vc) v.queue, replay := v.replay ++ [{ f with seq := v.txSeq }], txSeq := (v.txSeq + 1) % 4096,
          vcs := tset {} v.vcs vc { c with credit := c.credit - 1 }, since0 := if vc = 0 then 0 else v.since0 + 1,
          ackAt := if v.replay.isEmpty then now else v.ackAt, count := (v.count + 1) % 2 ^ 40 }

/-- Send what a link can send now. -/
def pumpLink (s : State) (l : Nat) : State :=
  if linkData s l then setLink s l (iter (sendOne (nowNs s)) (min 2048 (linkOf s l).queue.length) (linkOf s l)) else s

/-! Retrains (R479, R482). -/

/-- A retrain starts: the link goes down for it, and what it had not yet sent moves to the other link where that carries DATA. -/
def startRetrain (s : State) (l : Nat) : State :=
  let v := linkOf s l
  if v.training then s
  else
    let s := if linkData s (1 - l) then setLink s (1 - l) { linkOf s (1 - l) with queue := (linkOf s (1 - l)).queue ++ v.queue } else s
    let q := if linkData s (1 - l) then [] else v.queue
    let s := setLink s l { v with up := false, lanes := 0, training := true, draining := false, init := false, hello := 0, trainedAt := nowNs s, queue := q }
    linkTold s l

/-- A NAK passes on a link: 64 within 1 ms start a retrain (R479). -/
def countNak (s : State) (l : Nat) : State :=
  let v := linkOf s l
  let naks := (v.naks.filter (fun t => decide (nowNs s < t + 1000000))) ++ [nowNs s]
  let s := setLink s l { v with naks := naks }
  if 64 ≤ naks.length then startRetrain s l else s

/-- Resend the flits of the replay buffer from a place onward; one resent 8 times starts a retrain (R479). -/
def resendFrom (s : State) (l n : Nat) : State :=
  let v := linkOf s l
  let again := (v.replay.drop n).map (fun f => { f with resent := f.resent + 1 })
  let s := setLink s l { v with replay := v.replay.take n ++ again, ackAt := nowNs s }
  if again.any (fun f => decide (8 ≤ f.resent)) then startRetrain s l else s

/-- NAK: the sender resends from the SEQ named (R479). -/
def execNak (link : Fin 2) (seq : BitVec 12) (s : State) : Out :=
  .next (
    let l := link.val
    if !(linkIsland s l) ∨ !(linkOf s l).up then s
    else
      let s := countNak (linkActive s l) l
      if !(linkOf s l).up then s
      else match findIdx' (fun (f : TxFlit) => f.seq == seq.toNat) (linkOf s l).replay 0 with
        | none => s
        | some n => resendFrom s l n)

/-- FLIT_REPLAY_TIMEOUT: 20 µs without progress of ACK (R479). -/
def execFlitReplayTimeout (link : Fin 2) (s : State) : Out :=
  .next (
    let l := link.val
    let v := linkOf s l
    if !(linkIsland s l) ∨ !v.up ∨ v.replay.isEmpty ∨ nowNs s ≤ v.ackAt + 20000 then s else resendFrom s l 0)

/-- The books of a link's credits: a count above the allocation is an imbalance, which halts the Harbour (R95, R353). -/
def creditBooks (s : State) (l vc : Nat) : State :=
  let v := linkOf s l
  let out := (v.replay.filter (fun f => f.vc == vc)).length
  let got := (tget {} v.vcs vc).credit
  if vcRoom vc < got then
    haltHarbour (logIsland s 0x0A01 3 (islHawser l) (toLe 1 5 ++ toLe 8 (vcRoom vc) ++ toLe 8 (got + out))) 0x0A01
  else s

/-- ACK and credit fields of a flit that arrives (R477, R479, R480). -/
def takeAck (s : State) (l : Nat) (ack : Option (BitVec 12)) (cvc credits : Nat) : State :=
  let v := linkOf s l
  let v : HLink := match ack.bind (fun a => findIdx' (fun (f : TxFlit) => f.seq == a.toNat) v.replay 0) with
    | some n => { v with replay := v.replay.drop (n + 1), ackAt := nowNs s }
    | none => v
  let c := tget {} v.vcs cvc
  let gain := (credits + 256 - c.last) % 256
  let v := { v with vcs := tset {} v.vcs cvc { c with credit := c.credit + gain, last := credits } }
  -- a link that waited for its replay buffer to empty goes into training (R482)
  let s := setLink s l { v with up := v.up && !(v.draining && v.replay.isEmpty), training := v.training || (v.draining && v.replay.isEmpty) }
  creditBooks s l cvc

/-- IDLE_FLIT (R477, R480). -/
def execIdleFlit (link : Fin 2) (ack : Option (BitVec 12)) (cvc : Fin 3) (credits : BitVec 8) (s : State) : Out :=
  .next (
    let l := link.val
    if !(linkIsland s l) ∨ !(linkOf s l).up ∨ !(linkOf s l).init then s
    else pumpLink (takeAck s l ack cvc.val credits.toNat) l)

/-- A discard or a gap: the first one sends a NAK that names the SEQ expected (R479). -/
def gapSeen (s : State) (l : Nat) : State :=
  let v := linkOf s l
  if v.nakSent then s else countNak (setLink s l { v with nakSent := true }) l

/-- FLIT_CRC_FAIL: the flit is discarded (R478, R479). -/
def execFlitCrcFail (link : Fin 2) (s : State) : Out :=
  .next (
    let l := link.val
    if !(linkIsland s l) ∨ !(linkOf s l).up then s else gapSeen s l)

/-- What becomes of DATA flits that arrive (R477, R479, R486). -/
inductive Arrived where
  /-- Not received, or discarded. -/
  | no (s : State)
  /-- Relayed to the other link. -/
  | relay (s : State)
  /-- Their messages are for this member. -/
  | here (s : State)

/-- DATA flits arrive on a VC: they are taken only in order; their buffer is freed, and those for another member go out on the
other link with HOPS + 1 (R479, R480, R486). -/
def takeData (s : State) (h : FlitHdr) (vc : Nat) : Arrived :=
  let l := h.link.val
  if !(linkData s l) then .no s
  else
    let s := if vc = 2 then s else linkActive s l
    let s := takeAck s l h.ack h.cvc.val h.credits.toNat
    let v := linkOf s l
    if v.rxSeq ≠ h.seq.toNat then .no (gapSeen s l)
    else
      let n := h.more + 1
      let c := tget {} v.vcs vc
      let s := setLink s l { v with rxSeq := (v.rxSeq + n) % 4096, nakSent := false, vcs := tset {} v.vcs vc { c with freed := c.freed + n } }
      let s := pumpLink s l
      if h.dest.val = s.position then .here s
      else if h.hops.val = 3 then .no s
      else
        let o := linkOf s (1 - l)
        let f : TxFlit := { vc := vc, origin := h.origin.val, dest := h.dest.val, hops := h.hops.val + 1, msg := .relayed }
        .relay (pumpLink (setLink s (1 - l) { o with queue := o.queue ++ List.replicate n f }) (1 - l))

/-! Training (R481, R482). -/

/-- A link comes up: credits are 0, INIT is sent, and HELLO is exchanged afresh with a new nonce (R481, R484). -/
def linkUp (s : State) (l lanes : Nat) : State :=
  let v := linkOf s l
  setLink { s with freeCtr := s.freeCtr + 1 } l { v with
    up := true, lanes := lanes, training := false, draining := false, trainedAt := nowNs s, init := false, nakSent := false, vcs := [], naks := [],
    hello := 0, nonce := randomBytes s.freeCtr 32, count := 0, replay := v.replay.map (fun f => { f with resent := 0 }) }

/-- HAWSER_RETRAIN: a training ends at x8, at x4 or with the link down (R482). -/
def execHawserRetrain (link : Fin 2) (lanes : Fin 3) (s : State) : Out :=
  .next (
    let l := link.val
    let v := linkOf s l
    if !(linkIsland s l) ∨ !v.training then s
    else if lanes.val = 0 then linkTold (setLink s l { v with up := false, lanes := 0, training := false, draining := false, init := false, trainedAt := nowNs s }) l
    else
      let s := linkTold (linkUp s l (4 * lanes.val)) l
      if lanes.val = 1 then logIsland s 0x0903 1 (islHawser l) (toLe 1 l ++ toLe 1 4) else s)

/-- Every member a link carries traffic for has another path up (R482). -/
def otherPath (s : State) (l : Nat) : Bool := s.road.members == 0 || linkData s (1 - l)

/-- HAWSER_TRAINING_RETRY: a link that is down trains again after 1 s; a degraded one tries x8 after 60 s where every member has
another path: its VCs move there, and it trains once its replay buffer is empty (R482). -/
def execHawserTrainingRetry (link : Fin 2) (s : State) : Out :=
  .next (
    let l := link.val
    let v := linkOf s l
    if !(linkIsland s l) ∨ v.training ∨ v.draining then s
    else if !v.up then
      (if v.trainedAt + 1000000000 ≤ nowNs s then setLink s l { v with training := true } else s)
    else if v.lanes = 4 ∧ v.trainedAt + 60000000000 ≤ nowNs s ∧ otherPath s l then
      let o := linkOf s (1 - l)
      let s := setLink s (1 - l) { o with queue := o.queue ++ v.queue }
      if v.replay.isEmpty then startRetrain (setLink s l { v with queue := [] }) l
      else setLink s l { v with queue := [], draining := true }
    else s)

/-- HAWSER_LOCK_LOST (R482). -/
def execHawserLockLost (link : Fin 2) (s : State) : Out :=
  .next (if linkIsland s link.val && (linkOf s link.val).up then startRetrain s link.val else s)

/-- INIT: it grants the full buffer of every VC (R481). -/
def execHawserInit (link : Fin 2) (s : State) : Out :=
  .next (
    let l := link.val
    let v := linkOf s l
    if !(linkIsland s l) ∨ !v.up ∨ v.init then s
    else
      let full := [0, 1, 2].foldl (fun t k => tset {} t k { tget {} v.vcs k with credit := vcRoom k, last := 0 }) v.vcs
      setLink (linkActive s l) l { v with init := true, ackAt := nowNs s, vcs := full })

/-! HELLO (R433, R484). -/

/-- Bytes of the LEDGERED ranges of each basin (R67). -/
def rangeSizes (s : State) : List Nat :=
  (List.range 4).map (fun b => ((List.range 4096).filter (fun p => stackOf s p == b)).length * 2 ^ s.cfg.partLog2)

/-- The bytes of a HELLO that are signed. -/
def helloBytes (key nonce listHash combo : List Byte) (pos members area : Nat) (ranges : List Nat) : List Byte :=
  key ++ toLe 1 pos ++ toLe 1 members ++ listHash ++ nonce ++ combo ++ toLe 4 area ++ ranges.flatMap (toLe 8)

/-- SM3 of the UNIT list. -/
def unitListHash (s : State) : List Byte := sm3Bytes s.road.units.flatten

/-- This end's HELLO. -/
def ourHello (s : State) (l : Nat) : List Byte :=
  helloBytes Config.identityPublic (linkOf s l).nonce (unitListHash s) (combination (manifestOf s.fw.running)) s.position s.road.members s.cfg.areaGib
    (rangeSizes s)

/-- What a HELLO comes to: 1 the signature fails, or UNIT, the list or MEMBERS differ; 2 a combination is not listed or there is no
room for the mirror; 3 all agree (R484). -/
def helloFinding (s : State) (l : Nat) (m : HelloMsg) : Nat :=
  let theirs := helloBytes m.key m.nonce m.listHash m.combination m.position.val m.members m.areaGib m.ranges
  let both := if s.position < m.position.val then ourHello s l ++ theirs else theirs ++ ourHello s l
  let peer := cabled s l
  if !(Config.pkVerify 0 0 m.key both m.signature) || m.position.val != peer || (s.road.units[peer]?) != some (sm3Bytes m.key)
    || m.members != s.road.members || m.listHash != unitListHash s then 1
  else if !(listsCombination (manifestOf s.fw.running) m.combination) || !m.accepts || !(Config.mirrorRoom m.areaGib m.ranges) then 2
  else 3

/-- Member a position's records are mirrored to: the next in ring order that is neither lost nor taken over (R482, R488). -/
def nextTarget (s : State) : Option Nat :=
  (((List.range (s.road.members - 1)).map (fun i => (s.position + 1 + i) % s.road.members))).find? (fun q => !(peerOf s q).lost && !(bitOf s.road.taken q))

/-- The status of mirroring, with the acceptance of DUPLEX descriptors (R484, R485). -/
def setMirroring (s : State) (m : Nat) : State := { s with road := { s.road with mirror := m }, duplexReady := decide (m = 1) }

/-- Mirroring to the target begins with its seed, where its HELLO agreed or none is exchanged with it (R484, R485). -/
def beginSeed (s : State) : State :=
  match s.road.target with
  | none => s
  | some q =>
    let h := (peerOf s q).hello
    if s.road.seed ∨ s.road.selfTaken ∨ s.road.mirror = 1 ∨ s.road.goal.isSome ∨ (linkTo s q).isNone then s
    else if h = 3 ∨ (h = 0 ∧ cabled s 0 ≠ q ∧ cabled s 1 ≠ q) then { s with road := { s.road with seed := true } }
    else s

/-- A lost member is regained after 1 s of unbroken heartbeats followed by a HELLO, and never after it has been taken over (R488). -/
def regain (s : State) (q : Nat) : State :=
  let v := peerOf s q
  match v.streak with
  | none => s
  | some t =>
    if v.lost ∧ t + 1000000000 ≤ nowNs s ∧ !(bitOf s.road.taken q) then
      let s := setPeer s q { v with lost := false, streak := none }
      if s.road.target.isNone then { s with road := { s.road with target := some q } } else s
    else s

/-- HELLO (R484). -/
def execHello (link : Fin 2) (m : HelloMsg) (s : State) : Out :=
  .next (
    let l := link.val
    let v := linkOf s l
    if !(linkIsland s l) ∨ !v.up ∨ s.road.members = 0 then s
    else
      let f := helloFinding s l m
      let q := cabled s l
      let s := setLink (linkActive s l) l { v with hello := f, count := 0 }
      let s := setPeer s q { peerOf s q with hello := f, combination := m.combination }
      let s := if f = 3 then regain s q else s
      if s.road.target ≠ some q then s
      else if f = 3 then beginSeed s
      else if s.road.mirror = 1 ∨ s.road.seed then s
      else setMirroring s (if f = 2 then 2 else 0))

end Sys2Proof.Machine
end

