-- ==== Sys2Proof/Machine/RoadOps.lean ====
section
/-! DEFINITION. The roadstead: mirroring, heartbeats, the loss of a partner and its takeover (R78, R483 to R491). -/

namespace Sys2Proof.Machine

/-! Mirroring (R485). -/

/-- The record that 128 bytes spell (R79). -/
def parseRec (bs : List Byte) : LRec :=
  let f (off n : Nat) : Nat := fieldLe bs off n
  { seq := f 0 8, time := f 8 8, tenant := f 16 2, sq := f 18 2, cls := f 20 1, state := f 21 1, handler := f 22 2, correlation := f 24 8,
    affinity := f 32 8, status := f 40 2, place := f 42 2, attempt := f 44 4, inDigest := slice bs 48 32, outDigest := slice bs 80 32,
    tide := f 112 8, chain := f 120 8 }

/-- A member's mirror takes nothing more: it is lost, or it has been taken over (R488 to R490). -/
def frozen (s : State) (q : Nat) : Bool := (peerOf s q).lost || bitOf s.road.taken q

/-- One item of VC0 from a member goes into its mirror area; a record already held is not taken twice (R485). -/
def takeItem (q : Nat) (s : State) (x : MirrorItem) : State :=
  let m := mirrorAt s q
  match x with
  | .record b n bs =>
    let v := tget {} m.basins b.val
    if n < v.next then s else setMirror s q { m with basins := tset {} m.basins b.val { v with recs := v.recs ++ [parseRec bs], next := n + 1 } }
  | .intake b bs => let v := tget {} m.basins b.val; setMirror s q { m with basins := tset {} m.basins b.val { v with intake := v.intake ++ [bs] } }
  | .line _ off bs => setMirror s q { m with lines := writeBytes m.lines off bs }

/-- The basin a record item belongs to. -/
def itemBasin : MirrorItem → Option Nat
  | .record b _ _ => some b.val
  | _ => none

/-- MIRROR_DATA: the items go into the sender's mirror area, and MIRROR_ACK answers for each basin with records; or the flits are
relayed (R485, R486). -/
def execMirrorData (h : FlitHdr) (items : List MirrorItem) (s : State) : Out :=
  .next (
    match takeData s h 0 with
    | .no s => s
    | .relay s => s
    | .here s =>
      let q := h.origin.val
      if s.road.members = 0 ∨ frozen s q then s
      else
        let s := items.foldl (takeItem q) s
        ((items.filterMap itemBasin).eraseDups).foldl (fun s b => sendRoad s q 0 (.ack b (tget {} (mirrorAt s q).basins b).next) 12) s)

/-- Consignments at DUPLEX whose final record the partner has not acknowledged (R78). -/
def duplexPending (s : State) : Nat :=
  (s.cons.filter (fun e => e.2.dur == 3 && !e.2.duplex && (decide (e.2.state = .committed) || decide (e.2.state = .failed)))).length

/-- Once every record of the goal is acknowledged, mirroring is in service; source 0xD03 arrives where it resumes (R484, R488). -/
def mirrorCheck (s : State) : State :=
  match s.road.goal with
  | none => s
  | some g =>
    if g.zipIdx.any (fun e => decide ((ledgerOf s e.2).partnerAck < e.1)) then s
    else
      let again := s.road.resumes
      let s := setMirroring { s with road := { s.road with goal := none, resumes := true } } 1
      if again then arrive s 0xD03 ((s.road.target).getD 0) false else s

/-- MIRROR_ACK: DUPLEX is reached by every final record of a basin below a count (R72, R73, R485). -/
def execMirrorAck (h : FlitHdr) (basin : BasinId) (count : Nat) (s : State) : Out :=
  .next (
    match takeData s h 0 with
    | .no s => s
    | .relay s => s
    | .here s =>
      let b := basin.val
      let l := ledgerOf s b
      let n := min count (nextRec l)
      if s.road.target ≠ some h.origin.val ∨ (peerOf s h.origin.val).lost ∨ (s.road.mirror ≠ 1 ∧ s.road.goal.isNone) then s
      else if n ≤ l.partnerAck then s
      else mirrorCheck (ackFinals (setLedger s b { l with partnerAck := n }) b n (fun c => { c with duplex := true })))

/-- SEED_END: every unacknowledged record is resent in CHAIN order, and mirroring is in service once they are acknowledged (R78,
R485, R488). -/
def execSeedEnd (s : State) : Out :=
  .next (
    if !s.road.seed ∨ !(awake s) then s
    else
      let goal := (List.range 4).map (fun b => nextRec (ledgerOf s b))
      let s := (List.range 4).foldl (fun s b => let l := ledgerOf s b; setLedger s b { l with partnerSent := max l.first l.partnerAck }) s
      mirrorCheck { s with road := { s.road with seed := false, goal := some goal } })

/-- Newest tide such that every consignment with a record in a tide up to it is RETIRED (R489). -/
def retiredTide (s : State) : Nat :=
  let held (q : Nat) : Bool := (consOf s q).isSome
  let oldest := (List.range 4).foldl (fun (acc : Option Nat) b => match (ledgerOf s b).recs.find? (fun r => held r.seq) with
    | none => acc
    | some r => some (match acc with
      | none => r.tide
      | some x => min x r.tide)) none
  match oldest with
  | some t => t - 1
  | none => s.tides.prevNum

/-- Queue the records and tide records not yet sent to the target (R298, R485), at most 64 of a basin in a tick. -/
def pumpMirror (s : State) : State :=
  match s.road.target with
  | none => s
  | some q =>
    if (linkTo s q).isNone then s
    else
      let s := if s.road.mirror ≠ 1 ∧ s.road.goal.isNone then s
        else (List.range 4).foldl (fun s b =>
          let l := ledgerOf s b
          let upTo := min (nextRec l) (l.partnerSent + 64)
          let s := (List.range (upTo - l.partnerSent)).foldl (fun s i => sendRoad s q 0 (.record b (l.partnerSent + i)) (recordBytes s b (l.partnerSent + i))) s
          setLedger s b { ledgerOf s b with partnerSent := max l.partnerSent upTo }) s
      let news := (s.tides.log.takeWhile (fun e => decide (s.road.tideSent < e.1))).reverse
      news.foldl (fun s e => { sendRoad s q 1 (.tide e.1 (retiredTide s)) (e.2.length + 8) with road := { s.road with tideSent := e.1 } }) s

/-- What the roadstead does in a tick: the mirror and the links send, a seed begins where it can, and source 0xD04 arrives when the
pending DUPLEX records pass 65,536 (R357). -/
def pumpRoad (s : State) : State :=
  if s.road.members = 0 ∨ !(awake s) then s
  else
    let s := pumpLink (pumpLink (pumpMirror (beginSeed s)) 0) 1
    let high := decide (65536 < duplexPending s)
    let s' := { s with road := { s.road with told := high } }
    if high ∧ !s.road.told then arrive s' 0xD04 s.position false else s'

/-- TIDE_RECORD: a member's tide record with its RETIRED_TIDE is kept, or relayed (R298, R486, R489). -/
def execTideRecord (h : FlitHdr) (record : List Byte) (retiredTide : BitVec 64) (s : State) : Out :=
  .next (
    match takeData s h 1 with
    | .no s => s
    | .relay s => s
    | .here s =>
      let q := h.origin.val
      let m := mirrorAt s q
      if s.road.members = 0 ∨ frozen s q then s
      else setMirror s q { m with tides := ((fieldLe record 8 8, record) :: m.tides).take 1048576, retired := retiredTide.toNat })

/-! Heartbeats and losses (R487, R488, R490). -/

/-- The other positions of the roadstead. -/
def others (s : State) : List Nat := (List.range s.road.members).filter (· != s.position)

/-- HEARTBEAT_SEND: every 10 µs, to every other member, with the harbour clock and the TAKEN mask (R487). -/
def execHeartbeatSend (s : State) : Out :=
  .next (
    if s.road.members = 0 ∨ !(awake s) ∨ nowNs s < s.road.beatAt + 10000 then s
    else
      let s := (others s).foldl (fun s q => if (linkTo s q).isSome then sendRoad s q 2 (.beat (harbourNs s) s.road.takenHere) 20 else s) s
      pumpLink (pumpLink { s with road := { s.road with beatAt := nowNs s } } 0) 1)

/-- This Harbour has been taken over: every tenant it has is squashed, and TENANT_RESUME is refused for it until TENANT_DESTROY; it
mirrors no more until ROADSTEAD_JOIN (R490). -/
def takenOver (s : State) : State :=
  if s.road.selfTaken then s
  else
    let s := setMirroring { s with road := { s.road with selfTaken := true, seed := false, goal := none } } 0
    s.tenants.foldl (fun s e => if e.2.state = .absent then s else
      let s := squash s e.1 0
      setTenant s e.1 { tenantOf s e.1 with takenAway := true }) s

/-- HEARTBEAT: one from a member already lost is late, but counts toward its 1 s of unbroken ones (R94, R487, R488); TAKEN marks
are heeded (R489, R490). -/
def execHeartbeat (h : FlitHdr) (state : Fin 2) (taken : BitVec 4) (s : State) : Out :=
  .next (
    match takeData s h 2 with
    | .no s => s
    | .relay s => s
    | .here s =>
      let q := h.origin.val
      let v := peerOf s q
      let now := nowNs s
      if s.road.members ≤ q ∨ q = s.position then s
      else
        let since := now - v.heard.getD now
        let fresh := decide (since ≤ 50000)
        let s :=
          if v.lost then
            let start := if fresh then v.streak.getD now else now
            logIsland (setPeer s q { v with heard := some now, state := state.val, streak := some start })
              0x0502 0 (islHawser h.link.val) (toLe 1 4 ++ toLe 8 (since - 50000))
          else setPeer s q { v with heard := some now, state := state.val }
        let s := { s with road := { s.road with taken := (BitVec.ofNat 4 s.road.taken ||| taken).toNat } }
        if taken.getLsbD s.position then takenOver s else s)

/-- PARTNER_LOST: 50 µs without a heartbeat of a member, or no path to it (R78, R488). -/
def execPartnerLost (q : Fin 4) (s : State) : Out :=
  .next (
    let v := peerOf s q.val
    let noPath := (linkTo s q.val).isNone
    match v.heard with
    | none => s
    | some t =>
      if s.road.members ≤ q.val ∨ q.val = s.position ∨ v.lost ∨ !(awake s) ∨ (nowNs s ≤ t + 50000 ∧ !noPath) then s
      else
        let s := setPeer s q.val { v with lost := true, streak := none, heard := none }
        let keeper := if (islandOf s (islHawser 0)).out then 1 else 0
        let s := logIsland s 0x0902 2 (islHawser keeper) (toLe 1 q.val ++ toLe 4 (duplexPending s))
        let s := arrive s 0xD02 q.val false
        if s.road.target ≠ some q.val then s
        else
          let s := setMirroring { s with road := { s.road with seed := false, goal := none, resumes := true } } 3
          beginSeed { s with road := { s.road with target := nextTarget s } })

/-! Roadstead commands (R464, R483, R489). -/

/-- The 32-byte UNITs of ROADSTEAD_JOIN. -/
def joinUnits (b : List Byte) : List (List Byte) := (List.range 4).map (fun i => slice b (4 + 32 * i) 32)

/-- The conditions of R483. -/
def joinOk (s : State) (b : List Byte) : Bool :=
  let pos := fieldLe b 0 1
  let n := fieldLe b 1 1
  let links := fieldLe b 2 1
  let us := (joinUnits b).take n
  2 ≤ n && n ≤ 4 && decide (pos < n) && us[pos]? == some (unitBytes s) && decide (us.eraseDups.length = n)
    && ((joinUnits b).drop n).all (· == zeros 32) && links != 0 && (decide (n = 2) || links == 3)

def cmdRoadsteadJoin : MbCmd := {
  op := 0x0901,
  bad := fun _ _ b => bodyBad 132 b [(decide (fieldLe b 2 1 ≤ 3), 2), (fieldLe b 3 1 == 0, 3)],
  act := fun s _ b =>
    if !(joinOk s b) then badState
    else
      let n := fieldLe b 1 1
      let s := { s with
        position := fieldLe b 0 1, duplexReady := false, mirrors := s.mirrors.filter (fun e => bitOf s.road.takenHere e.1),
        road := { members := n, units := (joinUnits b).take n, links := fieldLe b 2 1, target := some ((fieldLe b 0 1 + 1) % n),
                  tideSent := ((s.tides.log.head?).map (·.1)).getD 0, takenHere := s.road.takenHere, taken := s.road.takenHere } }
      .done ([0, 1].foldl (fun s l => setLink s l { linkOf s l with hello := 0, queue := [] }) s) [] }
/-- ROADSTEAD_JOIN (R483). -/
def execRoadsteadJoin (m : MbReq) (s : State) : Out := .next (mbGo cmdRoadsteadJoin m s)

def cmdRoadsteadStatus : MbCmd := {
  op := 0x0902, helm := false, bad := noBody,
  act := fun s _ _ =>
    let combo := match s.road.target with
      | some q => slice (peerOf s q).combination 0 32
      | none => zeros 32
    .done s (toLe 1 s.position ++ toLe 1 s.road.members ++ toLe 1 s.road.mirror ++ toLe 1 (linkOf s 0).lanes ++ toLe 1 (linkOf s 1).lanes ++ zeros 3
      ++ toLe 8 (duplexPending s) ++ combo) }
/-- ROADSTEAD_STATUS (R78, R484). -/
def execRoadsteadStatus (m : MbReq) (s : State) : Out := .next (mbGo cmdRoadsteadStatus m s)

/-- Standby tenants: QUIESCED and created with PORTS 0 (R489). -/
def standbys (s : State) : List Nat := (s.tenants.filter (fun e => decide (e.2.state = .quiesced) && e.2.ports == 0 && e.2.takenFrom.isNone)).map (·.1)

/-- The newest mirrored record of every sequence number of a tenant, with the intake entries of its member's basins. -/
def newestOf (m : Mirror) (t : Nat) : List LRec :=
  let all := (List.range 4).flatMap (fun b => (tget {} m.basins b).recs.filter (fun r => r.tenant == t))
  ((all.map (·.seq)).eraseDups).filterMap (fun q => (all.reverse.find? (fun r => r.seq == q)))

/-- The consignment that a mirrored record stands for, its completion HELD (R489): it keeps its member's LEDGER_SEQ in the low 64
bits of its key. -/
def takenCons (r : LRec) (fin : Option (Nat × Nat)) (order : Nat) : Cons :=
  { desc := { correlation := BitVec.ofNat 64 r.correlation, affinity := BitVec.ofNat 64 r.affinity, handler := BitVec.ofNat 16 r.handler,
              cls := BitVec.ofNat 8 r.cls },
    tenant := r.tenant, sq := r.sq, entry := false, part := partitionOf (BitVec.ofNat 64 r.affinity), state := .held, phase := .final,
    attempt := r.attempt, recordStored := true, status := if r.state = 3 ∨ r.state = 4 then (if r.status = 0x0002 then 0 else r.status) else 0x0706,
    late := (r.state = 3 ∨ r.state = 4) ∧ r.status = 0x0002, replayed := true, finalRec := fin, order := order, heldMark := true }

/-- Step 3 of R489 for one record. RESULT_LEN and HANDLER_VALUE of a final record taken over are free values: nothing mirrors them. -/
def takeRecord (q : Nat) (m : Mirror) (s : State) (r : LRec) : State :=
  if r.tide ≤ m.retired then s
  else
    let b := ((partOf s (partitionOf (BitVec.ofNat 64 r.affinity))).home).getD 0
    let final := r.state = 3 ∨ r.state = 4
    let known := m.tides.any (fun e => e.1 == r.tide)
    let copy := if final then r else { r with state := 4, status := 0x0706, time := harbourNs s, outDigest := zeros 32 }
    let (s, n) := if final ∧ known then (s, none) else (let (s, n) := appendRec s b copy; (s, some (b, n)))
    let c := takenCons r n s.accepted
    let c := if final then { c with resultLen := leNat (randomBytes s.freeCtr 4), handlerValue := leNat (randomBytes (s.freeCtr + 1) 3) } else c
    { setCons s (r.seq + 2 ^ 64 * (q + 1)) c with accepted := s.accepted + 1, freeCtr := s.freeCtr + 2 }

/-- A tenant of a lost member goes on here from its mirror (R489). -/
def takeTenant (q : Nat) (m : Mirror) (s : State) (t : Nat) : State :=
  let s := setTenant s t { tenantOf s t with takenFrom := some q }
  (newestOf m t).foldl (takeRecord q m) s

def cmdPartnerTakeover : MbCmd := {
  op := 0x0903, dual := fun _ _ _ => true,
  bad := fun _ _ b => bodyBad 1 b [(fieldLe b 0 1 < 4, 0)],
  act := fun s _ b =>
    let q := fieldLe b 0 1
    if s.road.members ≤ q ∨ !(peerOf s q).lost ∨ (mget s.mirrors q).isNone ∨ bitOf s.road.taken q then badState
    else
      let m := mirrorAt s q
      let s := { s with road := { s.road with taken := s.road.taken + 2 ^ q, takenHere := s.road.takenHere + 2 ^ q } }
      let s := { s with mem := { s.mem with ledgered := m.lines.foldl (fun x e => tset 0 x ((q + 1) * 2 ^ 32 + e.1) e.2) s.mem.ledgered } }
      let ts := standbys s
      .done (ts.foldl (takeTenant q m) s) (toLe 4 ts.length) }
/-- PARTNER_TAKEOVER (R489, R491). -/
def execPartnerTakeover (m : MbReq) (s : State) : Out := .next (mbGo cmdPartnerTakeover m s)

end Sys2Proof.Machine
end

