-- ==== Sys2Proof/Machine/PowerOps.lean ====
section
/-! DEFINITION. Berth clocks and rails, Barometers and thermal levels, device power states, and the discipline of the harbour
clock (16, 18, 20). -/

namespace Sys2Proof.Machine

/-! Berth clocks (R408, R500). -/

/-- Nominal clock of an island in MHz (R407). -/
def nomMhz (n : Nat) : Nat :=
  let k := n % 128
  if n < 512 then (if k < 72 then 2000 else if k < 77 then 1500 else 1200)
  else if n < 568 then 1500
  else if n < 570 then 1250
  else if n < 574 then 1000
  else if n < 578 then 1250
  else if n < 580 then 1000
  else 100

/-- An island at a power state with a clock; CURRENT_MHZ is 0 when it is not ON (R414, R420). -/
def islAt (i : Island) (st mhz : Nat) : Island := { i with state := st, targetMhz := mhz, currentMhz := if st = 3 then mhz else 0 }

/-- The warden of a basin. -/
def wardenOf (s : State) (b : Nat) : Warden := tget {} s.wardens b
/-- Replace the warden of a basin. -/
def setWarden (s : State) (b : Nat) (w : Warden) : State := { s with wardens := tset {} s.wardens b w }

/-- The berth pairs of a basin step to a clock (R408). -/
def stepClock (s : State) (b mhz : Nat) : State :=
  (List.range 72).foldl (fun s n => let i := islandOf s (b * 128 + n); if i.out then s else setIsland s (b * 128 + n) (islAt i i.state mhz)) s

/-- The clock a warden wants: 2.0 GHz within the bounds of POWER_POLICY_SET (DESIGN CHOICE, log entry 18), 1.4 GHz in GALE
(R418), at most 2.0 GHz where its regulator does not answer (R500). -/
def wantMhz (s : State) (b : Nat) : Nat :=
  if s.dev.thermal ≠ 0 then 1400
  else
    let m := max s.policy.berthMin (min 2000 s.policy.berthMax)
    if (wardenOf s b).capped then min 2000 m else m

/-- A warden changes its berth clock: a raise waits for the regulator, a lowering steps the clock first (R408). -/
def setClock (s : State) (b : Nat) : State :=
  let w := wardenOf s b
  let m := wantMhz s b
  let cmd := some (m, Config.railMv b m)
  if m = w.mhz then setWarden s b { w with avs := none }
  else if w.mhz < m then setWarden s b { w with avs := cmd, retries := 0 }
  else setWarden (stepClock s b m) b { w with mhz := m, avs := cmd, retries := 0 }

/-- Every warden looks at its clock again. -/
def setClocks (s : State) : State := (List.range 4).foldl setClock s

/-- REGULATOR_VOLTAGE_REPORTED (R408). -/
def execRegulatorVoltageReported (basin : BasinId) (s : State) : Out :=
  .next (
    let w := wardenOf s basin.val
    match w.avs with
    | none => s
    | some (mhz, mv) =>
      let s := if w.mhz < mhz then stepClock s basin.val mhz else s
      setWarden s basin.val { w with mhz := mhz, railMv := mv, avs := none, retries := 0 })

/-- AVS_NO_ANSWER: three retries, then the clock is held at or below 2.0 GHz (R500). -/
def execAvsNoAnswer (basin : BasinId) (s : State) : Out :=
  .next (
    let b := basin.val
    let w := wardenOf s b
    if w.avs.isNone then s
    else if w.retries < 3 then setWarden s b { w with retries := w.retries + 1 }
    else
      let s := if 2000 < w.mhz then stepClock s b 2000 else s
      let s := setWarden s b { w with mhz := min 2000 w.mhz, avs := none, retries := 0, capped := true }
      logIsland s (Config.degradedCode 0) 1 (islHome b) [])

/-! Droops, Barometers and thermal levels (R409, R417, R418, R503). -/

/-- The island runs: ON and not held in reset. -/
def islRuns (s : State) (n : Nat) : Bool := islExists n && (islandOf s n).state == 3 && !(islandOf s n).reset

/-- DROOP_DETECTED: the island stretches its clock; a stretch already made goes on (R409). -/
def execDroopDetected (island : BitVec 10) (s : State) : Out :=
  .next (
    let n := island.toNat
    let i := islandOf s n
    if !(islRuns s n) then s
    else setIsland s n { i with stretched := true, stretchAt := some (nowNs s), stretch := if i.stretched then i.stretch else satInc i.stretch 255 })

/-- CLOCK_STRETCH_END: the supply has recovered for 1 µs (R409). -/
def execClockStretchEnd (island : BitVec 10) (s : State) : Out :=
  .next (
    let n := island.toNat
    let i := islandOf s n
    match i.stretchAt with
    | none => s
    | some t => if i.stretched ∧ t + 1000 ≤ nowNs s then setIsland s n { i with stretched := false, stretchAt := none } else s)

/-- Supply target of an island in mV: its basin's rail, VDD_HARB, or VDD_AON (R499, R500). -/
def targetMv (s : State) (n : Nat) : Nat :=
  if n = islLighthouse then 800 else if n < 512 ∧ n % 128 < 77 then (wardenOf s (n / 128)).railMv else Config.harbMv

/-- An arrival at an island's alarm source: the kind in bits 3:0, the reading in bits 23:4 (R357, R420). -/
def islandAlarm (s : State) (n kind : Nat) (reading : Int) : State := arrive s n (kind + 16 * (reading % 1048576).toNat) false

/-- The limits of POWER_POLICY_SET that a reading crosses (R417). -/
def alarms (s : State) (n volt : Nat) (temp : Int) (droops : Nat) : State :=
  let t := targetMv s n
  let off := max t volt - min t volt
  let s := if t * s.policy.voltPct < 100 * off then islandAlarm s n 0 volt else s
  let s := if (Int.ofNat s.policy.galeSetC - Int.ofNat s.policy.tempBelowGale) * 10 < temp then islandAlarm s n 1 temp else s
  if s.policy.droopsPerMs < droops then islandAlarm s n 2 droops else s

/-- GALE begins: every berth clock steps to 1.4 GHz, and GALE_WARN# is asserted (R418). -/
def enterGale (s : State) (n : Nat) (temp : Int) : State :=
  let s := { s with dev := { s.dev with thermal := 1, galeWarn := true, gales := s.dev.gales + 1, lastGale := harbourNs s, coolSince := none } }
  setClocks (logIsland (arrive s 0x800 1 false) 0x0705 1 n (toLe 2 n ++ toLe 2 (tempWord temp)))

/-- STORM: THERM_TRIP# is asserted and the Harbour halts (R418, R419). -/
def enterStorm (s : State) (n : Nat) (temp : Int) : State :=
  let s := logIsland { s with dev := { s.dev with thermal := 2, thermTrip := true } } 0x0706 3 n (toLe 2 n ++ toLe 2 (tempWord temp))
  haltHarbour s 0x0706

/-- Every temperature is at or below GALE_SET − 5 °C (R418). -/
def cool (s : State) : Bool := s.islands.all (fun e => decide (tempOf e.2.temp ≤ (Int.ofNat s.policy.galeSetC - 5) * 10))

/-- An island whose supply falls below 85 % of target stops (R503). -/
def brownOut (s : State) (n volt : Nat) : State :=
  if 100 * volt < 85 * targetMv s n ∧ n ≠ islLighthouse then let i := islandOf s n; setIsland s n (islAt i 0 i.targetMhz) else s

/-- BAROMETER_UPDATE (R417, R418, R503). -/
def execBarometerUpdate (island : BitVec 10) (voltMv : BitVec 10) (temp : BitVec 12) (droops : BitVec 10) (s : State) : Out :=
  .next (
    let n := island.toNat
    let t := temp.toInt
    if !(islExists n) ∨ !s.dev.pwrAon ∨ (n ≠ islLighthouse ∧ !s.dev.pwrCore) then s
    else
      let was := (islandOf s n).state
      let s := setIsland s n { islandOf s n with voltMv := voltMv.toNat, temp := temp.toNat, droops := droops.toNat }
      let s := if 2 ≤ was then brownOut (alarms s n voltMv.toNat t droops.toNat) n voltMv.toNat else s
      if s.dev.thermal ≠ 2 ∧ 1150 ≤ t then enterStorm s n t
      else if s.dev.thermal = 0 ∧ Int.ofNat s.policy.galeSetC * 10 ≤ t then enterGale s n t
      else if s.dev.thermal = 1 then
        { s with dev := { s.dev with coolSince := if cool s then (match s.dev.coolSince with
          | some x => some x
          | none => some (nowNs s)) else none } }
      else s)

/-- GALE_EXIT: every temperature has been 5 °C below GALE_SET for 1 ms (R418). -/
def execGaleExit (s : State) : Out :=
  .next (
    match s.dev.coolSince with
    | none => s
    | some t =>
      if s.dev.thermal = 1 ∧ t + 1000000 ≤ nowNs s then
        setClocks (arrive { s with dev := { s.dev with thermal := 0, galeWarn := false, coolSince := none } } 0x801 0 false)
      else s)

/-! Calm, Doldrums and wakes (R414 to R416). -/

/-- The pairs of a pier that are not retired go to a power state: those that hold a berth to one, spares to another. -/
def pairStates (s : State) (p busy spare : Nat) : State :=
  (List.range 18).foldl (fun s n =>
    let i := islandOf s (islPair (p * 18 + n))
    if i.out then s
    else
      let held := (pierOf s p).pos.toList.any (fun v => v.pair == some n)
      setIsland s (islPair (p * 18 + n)) (islAt i (if held then busy else spare) i.targetMhz)) s

/-- The shared island of a pier goes to a power state, where it is in service. -/
def sharedState (s : State) (p st : Nat) : State :=
  let i := islandOf s (islPier p)
  if i.out then s else setIsland s (islPier p) (islAt i st i.targetMhz)

/-- Piers of a basin in Calm. -/
def calmPiers (s : State) (b : Nat) : List Nat := [0, 1, 2, 3].filterMap (fun a => if (pierOf s (b * 4 + a)).calm then some (b * 4 + a) else none)

/-- A change of device state is reported (R357). -/
def devState (s : State) (st : DevSt) (code : Nat) : State :=
  if s.dev.st = st then s else arrive { s with dev := { s.dev with st := st } } 0x802 (Config.stateCode code % 256) false

/-- Threads of a pier. -/
def pierThreads (p : PierId) : List ThreadId := (List.finRange 64).map (fun k => ⟨p.val * 64 + k.val, by omega⟩)

/-- CALM_ENTRY: the L1s and the unlocked ways of the L2 are cleaned and invalidated, and the pier enters RETAIN (R415). -/
def execCalmEntry (pier : PierId) (s : State) : Out :=
  .next (
    let p := pier.val
    let v := pierOf s p
    let idle := (pierThreads pier).all (fun th => decide ((thr s th).run = .free) || decide ((thr s th).run = .noPair))
    let quietL2 := (pcOf s p).evict.isEmpty && (cohOf s (pierBasin p)).reqs.all (fun r => r.agent != pierAgent p)
    if !(running s) ∨ !(basinUp s pier.basin.val) ∨ v.calm ∨ !idle ∨ !quietL2 ∨ nowNs s < v.idleSince + s.policy.calmIdleUs * 1000 then s
    else
      let s := ((pcOf s p).l2.map (·.1)).foldl (fun s i => if lockedWay (pcOf s p) i then s else wayEmpty s p i) s
      let s := setPc s p { pcOf s p with l1d := [], l1i := [] }
      let s := setPier s p { v with calm := true }
      let s := pairStates (sharedState s p 1) p 1 1
      let s := devState { s with dev := { s.dev with busyAt := nowNs s } } .calm 1
      arrive s (0x806 + pier.basin.val) (calmPiers s pier.basin.val).length false)

/-- A pier leaves Calm. -/
def wakePier (s : State) (p : Nat) : State :=
  let s := setPier s p { pierOf s p with calm := false, idleSince := nowNs s }
  pairStates (sharedState { s with dev := { s.dev with busyAt := nowNs s } } p 3) p 3 2

/-- An island at its Doldrums state (R407). -/
def doldrumsState (n : Nat) : Nat :=
  if n < 512 then 1 else if n < 568 then 0 else if n < 574 then 3 else if n < 578 then 2 else if n = islStrongroom then 1
  else if n = islPilot then 2 else 3

/-- DOLDRUMS_ENTRY (R415). -/
def execDoldrumsEntry (s : State) : Out :=
  .next (
    let piers := (List.range 16).filter (fun p => basinUp s (p / 4))
    if s.dev.st = .calm ∧ s.policy.doldrumsEn ∧ piers.all (fun p => (pierOf s p).calm) ∧ s.cons.all (fun e => !e.2.entry)
        ∧ s.mailA.st ≠ 2 ∧ s.mailB.st ≠ 2 ∧ s.dev.busyAt + s.policy.doldrumsIdleMs * 1000000 ≤ nowNs s then
      let s := { s with islands := s.islands.map (fun e => if e.2.out then e else (e.1, islAt e.2 (doldrumsState e.1) e.2.targetMhz)) }
      devState s .doldrums 2
    else s)

/-- A ready consignment of a basin finds no free thread on a pier that is ON (R415). -/
def wantsPier (s : State) (b : Nat) : Bool :=
  s.cons.any (fun e => readyIn s b e.2) && !((List.finRange 1024).any (fun (th : ThreadId) => th.basin.val == b && canTake s th))

/-- The first pier in Calm of a basin that wants one. -/
def pierToWake (s : State) : Option Nat := (List.range 4).findSome? (fun b => if wantsPier s b then (calmPiers s b).head? else none)

/-- Every island wakes from Doldrums (R415). -/
def wakeAll (s : State) : State :=
  let s := { s with islands := s.islands.map (fun e => if e.2.out then e else (e.1, islAt e.2 3 e.2.targetMhz)) }
  let s := (List.range 16).foldl (fun s p => if (pierOf s p).calm then wakePier s p else pairStates s p 3 2) s
  devState { s with dev := { s.dev with wakeAt := none } } .full 0

/-- A wake from Doldrums whose time has come, or of the pier that the dispatcher of a basin wants (R415). -/
def wakeDone (s : State) : State :=
  match s.dev.st, s.dev.wakeAt with
  | .waking, some t => if t ≤ nowNs s then wakeAll s else s
  | .calm, _ =>
    (match pierToWake s with
      | none => s
      | some p =>
        let s := wakePier s p
        let s := arrive s (0x806 + p / 4) (calmPiers s (p / 4)).length false
        if (List.range 16).any (fun q => (pierOf s q).calm) then s else devState s .full 0)
  | _, _ => s

/-- DEVICE stores of every thread that wait at the crossing of an island are delivered (R188, R414). -/
def deliverStores (s : State) (n : Nat) : State :=
  let mine (o : OStore) : Bool := decide (o.kind = .device n) && !o.waiting.isEmpty
  (List.finRange 1024).foldl (fun s th =>
    let held := ((thr s th).stores.filter mine).flatMap (·.waiting)
    if held.isEmpty then s
    else
      let s := held.foldl (fun s g => objStore s th .device g.addr g.byte) s
      modThr s th (fun t => { t with stores := mapIf mine (fun o => { o with waiting := [] }) t.stores })) s

/-- A transfer waits at the crossing of an island (R414). -/
def islandWanted (s : State) (n : Nat) : Bool :=
  s.threads.any (fun e => (match e.2.wait with
      | some w => decide (w.why = .island n)
      | none => false) || e.2.stores.any (fun o => decide (o.kind = .device n) && !o.waiting.isEmpty))

/-- ISLAND_WAKE_COMPLETE (R188, R414). -/
def execIslandWakeComplete (island : BitVec 10) (s : State) : Out :=
  .next (
    let n := island.toNat
    let i := islandOf s n
    if !(running s) ∨ !(islExists n) ∨ i.out ∨ i.reset ∨ i.state = 3 ∨ !(islandWanted s n) then s
    else deliverStores (setIsland s n (islAt i 3 i.targetMhz)) n)

/-! Time inputs (R465, R497, R498). -/

/-- What the harbour clock reads, in ps. -/
def harbourPs (s : State) : Int := Int.ofNat s.clock.ps + s.clock.off

/-- A TIME_SET that waited for the edge sets the clock and completes (R465). -/
def timeAtEdge (s : State) : State :=
  match s.disc.waiting with
  | none => s
  | some w =>
    let before := harbourNs s
    let s := setTime s w.time w.ppsEn w.tenEn
    mbFinishOp s 0x0C01 0 0 0 (toLe 8 before)

/-- PPS lock is lost (R498). -/
def losePps (s : State) : State := arrive { s with disc := { s.disc with locked := false } } 0x804 0 false

/-- The edge disciplines the clock: an edge within 1 µs of the prediction, a whole second after the last one, is followed by a
slew of the error, and gains lock (R497, R498). -/
def disciplineEdge (s : State) : State :=
  let d := s.disc
  match d.lastPps with
  | none => s
  | some _ =>
    let err := harbourPs s - (d.ppsHarb + 1000000000000)
    if -1000000 ≤ err ∧ err ≤ 1000000 then
      let s := { s with disc := { d with slew := -err, locked := true } }
      if d.locked then s else arrive s 0x803 1 false
    else if d.locked then losePps s else s

/-- PPS_EDGE (R357, R465, R497, R498). -/
def execPpsEdge (s : State) : Out :=
  .next (
    if !s.dev.pwrAon then s
    else
      let s := arrive s 0xF08 0 false
      if !s.dev.pwrCore ∨ s.dev.st = .off ∨ s.dev.st = .halted then s
      else if s.disc.waiting.isSome then
        let s := timeAtEdge s
        { s with disc := { s.disc with lastPps := some (nowNs s), ppsHarb := harbourPs s } }
      else if s.disc.ppsEn then
        let err := harbourPs s
        let s := disciplineEdge s
        { s with disc := { s.disc with lastPps := some (nowNs s), ppsHarb := if s.disc.locked then (s.disc.ppsHarb + 1000000000000) else err } }
      else s)

/-- PPS_LOCK_LOST: no edge within 1.5 s of the last one (R498). -/
def execPpsLockLost (s : State) : Out :=
  .next (
    match s.disc.lastPps with
    | none => s
    | some t => if s.disc.ppsEn ∧ s.disc.locked ∧ t + 1500000000 < nowNs s then losePps s else s)

/-- TENMHZ_LOST: no edge for 1 µs; the clock runs free from SYSCLK (R498). -/
def execTenmhzLost (s : State) : Out :=
  .next (
    if s.disc.tenEn ∧ !s.disc.tenLost ∧ s.dev.pwrCore then arrive { s with disc := { s.disc with tenLost := true } } 0x805 0 false else s)

end Sys2Proof.Machine
end

