-- ==== Sys2Proof/Machine/StartOps.lean ====
section
/-! DEFINITION. Power-good, resets of the whole Harbour, start-up and the Slipway (16, 17, 20). -/

namespace Sys2Proof.Machine

/-! What a reset of the whole Harbour keeps (R231, R254, R421, R426). -/

/-- A stored key after power loss: its counter at the journalled high-water mark, its state from the journal, and RETIRED_CAP
decided anew (R254). -/
def keyAfter (k : Key) : Option Key :=
  match k.journalled with
  | none => none
  | some st =>
    if st = 4 then none
    else some { k with state := if st = 0 ∧ capOf k.attr ≤ k.high then 1 else st, counter := k.high, asked := k.high, resident := false,
                       live := true, dying := false, store := none, recQueued := false, cmd := none }

/-- Records of the key journal that are not yet journalled. -/
def queuedRecs (s : State) : List JRec := s.sroom.openRecs ++ s.sroom.pages.flatten

/-- The Strongroom after power loss: the keys and labels of the journal, and DC_SEQ (R228, R231, R241). -/
def sroomAfter (s : State) : Sroom :=
  let made (t : Nat) : Bool := (queuedRecs s).any (fun r => match r with
    | .label u x => u == t && !x.isEmpty
    | _ => false)
  { keys := s.sroom.keys.filterMap (fun e => (keyAfter e.2).map (fun k => (e.1, k))), labels := s.sroom.labels.filter (fun e => !(made e.1)),
    dcSeq := s.sroom.dcSeq }

/-- Flash and what runs: a switched set is given up, and a staged one is lost (R438). -/
def fwAfter (s : State) : Fw :=
  let f := s.fw
  let keep : Fw := { slot0 := f.slot0, slot1 := f.slot1, active := f.active, gen := f.gen, burn := f.burn,
                     running := slotAt s f.active, previous := slotAt s f.active, phase := if f.phase = 6 then 6 else 0 }
  if 1 ≤ f.phase ∧ f.phase ≤ 5 then (if f.active % 2 = 0 then { keep with slot1 := .empty } else { keep with slot0 := .empty }) else keep

/-- A port after a reset of the Harbour: pins, and the power-management state of functions in D3cold (R397). -/
def portAfter (q : PortState) : PortState :=
  { perst := q.perst, wake := q.wake, dstate := if q.dstate = .d3cold then .d3cold else .d0,
    pmeEn := q.pmeEn && decide (q.dstate = .d3cold), pmeStatus := q.pmeStatus && decide (q.dstate = .d3cold),
    pmeSent := if q.dstate = .d3cold then q.pmeSent else 0 }

/-- VFs of ports in D3cold (R397). -/
def vfsAfter (t : Table Vf) : Table Vf :=
  t.filterMap (fun e => if e.2.dstate = .d3cold then some (e.1, { dstate := .d3cold, pmeEn := e.2.pmeEn, pmeStatus := e.2.pmeStatus, pmeSent := e.2.pmeSent }) else none)

/-- Piers after a warm reset: retired pairs stay retired and positions keep their pairs (R15, R340). -/
def pierAfter (p : Pier) : Pier :=
  { pos := p.pos.map (fun v => { pair := v.pair }), pairs := p.pairs.map (fun v => { use := v.use }), sealGen := p.sealGen + 1 }

/-- Islands after a reset: the Lighthouse alone runs; a warm reset keeps the counts of RESETS and what is out (R421). -/
def islandsAfter (s : State) (warm : Bool) : Table Island :=
  s.islands.filterMap (fun e =>
    if e.1 = islLighthouse then some e
    else if warm then some (e.1, { resets := e.2.resets, out := e.2.out && decide (e.1 % 128 < 72 ∧ e.1 < 512) })
    else none)

/-- A reset of all but the Lighthouse (R421): the data path, every consignment and all configuration that R426 does not keep are
lost. A warm one keeps the Logbook, retired pairs and the places of the berths. -/
def powerReset (s : State) (warm : Bool) : State :=
  { pending := s.pending, clock := { s.clock with timeSet := false }, mem := { host := s.mem.host },
    piers := if warm then s.piers.map (fun e => (e.1, pierAfter e.2)) else [],
    seqs := { shared := max 1 (s.seqs.seqBlocks * 2 ^ 32), seqBlocks := s.seqs.seqBlocks, tideBlocks := s.seqs.tideBlocks },
    tides := { next := max 1 (s.seqs.tideBlocks * 2 ^ 24) },
    dev := { pwrAon := s.dev.pwrAon, pwrCore := s.dev.pwrCore, slipwayStrap := s.dev.slipwayStrap, flashOwn := s.dev.flashOwn,
             thermTrip := s.dev.thermTrip, galeWarn := s.dev.galeWarn, thermal := s.dev.thermal, gpio := s.dev.gpio, bootFails := s.dev.bootFails,
             startInProgress := s.dev.startInProgress, tested := warm && s.dev.tested, slipCmd := s.dev.slipCmd, gales := if warm then s.dev.gales else 0,
             lastGale := if warm then s.dev.lastGale else 0, bank := s.dev.bank },
    sources := s.sources, log := if warm then s.log else [], logNext := if warm then s.logNext else 1, watch := s.watch,
    islands := islandsAfter s warm, ports := s.ports.map (fun e => (e.1, portAfter e.2)), vfs := vfsAfter s.vfs, otp := s.otp, epoch := s.epoch,
    policy := { alarms := s.policy.alarms }, conf := s.conf, fw := fwAfter s, sroom := sroomAfter s, iovaDenied := s.iovaDenied,
    freeCtr := s.freeCtr }

/-! Entry to start-up (R422, R424, R442, R466). -/

/-- An island that is ON at its nominal clock. -/
def islOn (s : State) (n : Nat) : State := setIsland s n (islAt (islandOf s n) 3 (nomMhz n))

/-- Levels that the boot record still names are burnt before any image is loaded (R442). -/
def finishBurn (s : State) : State :=
  { s with otp := { s.otp with arb := s.otp.arb.zipIdx.map (fun e => max e.1 ((s.fw.burn[e.2]?).getD 0)) }, fw := { s.fw with burn := [] } }

/-- Entry to step 2, with steps 3 and 4: the boot-failure counter and the flag, the Pilot island, the settings bank, the clock at
its start value, and the ports and Quayside halves ON, where configuration requests complete (R422, R424, R425, R466). -/
def enterStep2 (s : State) : State :=
  let d := s.dev
  let s := { s with
    dev := { d with st := .starting, bootFails := if d.startInProgress then d.bootFails + 1 else d.bootFails, startInProgress := true,
                    startedAt := nowNs s, bank := s.otp.settings.getLast?.getD [] },
    clock := { s.clock with off := 0x8000000000000000 * 1000 - Int.ofNat s.clock.ps, timeSet := false } }
  let s := [Port.a, Port.b].foldl (fun s p => setPort s p { portOf s p with crs := false }) (finishBurn s)
  [islPilot, islPort .a, islPort .b, islHalf .a, islHalf .b].foldl islOn s

/-- PWR_GOOD_AON_RISE: the Lighthouse runs (R422). -/
def execPwrGoodAonRise (s : State) : Out :=
  .next (if s.dev.pwrAon then s else islOn { s with dev := { s.dev with pwrAon := true } } islLighthouse)

/-- PWR_GOOD_CORE_RISE: start-up begins at step 2 (R421, R422). -/
def execPwrGoodCoreRise (s : State) : Out :=
  .next (
    if !s.dev.pwrAon ∨ s.dev.pwrCore then s
    else let s := powerReset s false; enterStep2 { s with dev := { s.dev with pwrCore := true } })

/-- The core rails are lost: every island but the Lighthouse stops, and THERM_TRIP# is released (R419, R421, R497, R505). -/
def coreLost (s : State) : State :=
  let s := powerReset s false
  { s with dev := { s.dev with pwrCore := false, st := .off, thermTrip := false, galeWarn := false, thermal := 0 } }

/-- PWR_GOOD_CORE_FALL (R421). -/
def execPwrGoodCoreFall (s : State) : Out := .next (if s.dev.pwrCore then coreLost s else s)

/-- PWR_GOOD_AON_FALL: as for the core rails, then the Lighthouse resets (R504). -/
def execPwrGoodAonFall (s : State) : Out :=
  .next (
    if !s.dev.pwrAon then s
    else
      let s := coreLost s
      { s with islands := [], sources := [], watch := [], policy := {}, ports := s.ports.map (fun e => (e.1, { perst := e.2.perst })), vfs := [],
               dev := { slipwayStrap := s.dev.slipwayStrap, flashOwn := s.dev.flashOwn, gpio := s.dev.gpio } })

/-- HARB_RESET: a pulse of 1 µs resets; one below 200 ns never does (R421, R496). STORM is left by power removal alone (R418). -/
def execHarbReset (pulseNs : Nat) (s : State) : Out :=
  .next (
    if !s.dev.pwrCore ∨ !s.dev.pwrAon ∨ s.dev.thermal = 2 ∨ pulseNs < 200 then s
    else if 1000 ≤ pulseNs ∨ Config.shortReset s.freeCtr then
      enterStep2 (powerReset { s with freeCtr := if 1000 ≤ pulseNs then s.freeCtr else s.freeCtr + 1 } true)
    else { s with freeCtr := s.freeCtr + 1 })

/-- BOOT_FAILED: logged, and the Harbour restarts from step 2 (R424). -/
def execBootFailed (s : State) : Out :=
  .next (
    if s.dev.st ≠ .starting then s
    else
      let s := logIsland s 0x0803 1 islPilot (toLe 1 (s.dev.bootFails + 1))
      enterStep2 (powerReset s true))

/-! Epochs of the tide key (R299, R300). -/

/-- The first tide that a key of a new EPOCH signs. -/
def firstUnsigned (s : State) : Nat :=
  match s.tides.closed ++ s.tides.closing ++ s.tides.cur.toList with
  | t :: _ => t.num
  | [] => s.tides.next

/-- Low 64 bits of the SM3 of the tide public key (R297). -/
def tideKeyId (e : Nat) : List Byte := toLe 8 (sm3Low (toBe 64 (Config.tidePublic e).toNat))

/-- Closed tides that still wait for a signature name the new key, and each the new body before it. -/
def rekeyClosed (e : Nat) : List Tide → Option (List Byte) → List Tide
  | [], _ => []
  | t :: r, prev =>
    let b := t.record
    let b := b.take 0x30 ++ tideKeyId e ++ (b.drop 0x38).take 0x28 ++ (match prev with
      | some x => sm3Bytes x
      | none => (b.drop 0x60).take 32) ++ b.drop 0x80
    { t with record := b } :: rekeyClosed e r (some b)

/-- A new EPOCH: its certificate is signed, except in DECOMMISSIONED (R299, R300, R305). -/
def newEpoch (s : State) : State :=
  let e := s.epoch + 1
  let s := { s with epoch := e }
  if s.otp.lifecycle = 3 then s
  else
    let body := toLe 4 1 ++ toLe 4 e ++ toLe 8 (firstUnsigned s) ++ toLe 8 (harbourNs s) ++ zeros 8 ++ toBe 64 (Config.tidePublic e).toNat ++ toBe 32 Config.unit.toNat
    let cert := body ++ toBe 64 (Config.identitySignature body s.freeCtr).toNat
    let closed := rekeyClosed e s.tides.closed none
    { s with freeCtr := s.freeCtr + 1,
             tides := { s.tides with certs := cert :: s.tides.certs, closed := closed, prevBody := match closed.getLast? with
               | some t => t.record
               | none => s.tides.prevBody } }

/-! Start of service (R15, R345, R422 to R426). -/

/-- A basin whose home, HBM controller or Fairway segment fails is out (R423). -/
def basinFails (failed : List Nat) (b : Nat) : Bool := failed.contains (islHome b) || failed.contains (islHbm b) || failed.contains (islFairway b)

/-- A start-up failure that fails the boot (R423). -/
def fatalStart (failed : List Nat) : Bool :=
  failed.contains islPilot || failed.contains islStrongroom || (failed.contains (islHalf .a) && failed.contains (islHalf .b))
    || (List.range 4).all (basinFails failed)

/-- The slot that boots: the one the boot record names, else the other (R424). -/
def bootSlot (s : State) : Option Nat :=
  if slotBoots s (slotAt s s.fw.active) then some s.fw.active
  else if slotBoots s (slotAt s (inactive s)) then some (inactive s)
  else none

/-- Pairs that positions take at the first start after power-on: the passing ones in order (R15). -/
def firstPlaces (pass : List Nat) : Vector Position 16 := Vector.ofFn (fun (k : Fin 16) => { pair := pass[k.val]? })

/-- Positions after a later start: a failing pair gives way to the lowest passing spare, or to none. -/
def keepPlaces (pass : List Nat) (v : Vector Position 16) : Vector Position 16 :=
  let held := v.toList.filterMap (fun x => match x.pair with
    | some n => if pass.contains n then some n else none
    | none => none)
  let spares := pass.filter (fun n => !(held.contains n))
  let need (k : Nat) : Nat := ((v.toList.take k).filter (fun x => match x.pair with
    | some n => !(pass.contains n)
    | none => false)).length
  Vector.ofFn (fun (k : Fin 16) => match (v.get k).pair with
    | some n => if pass.contains n then { pair := some n } else { pair := spares[need k.val]? }
    | none => {})

/-- A pier starts: its pairs, its positions and their islands (R15, R345, R422, R423). -/
def startPier (failed : List Nat) (s : State) (p : Nat) : State :=
  let v := pierOf s p
  let ok (n : Nat) : Bool := !(failed.contains (islPair (p * 18 + n))) && decide ((pairAt s p n).use ≠ .retired)
  let pass := if failed.contains (islPier p) then [] else (List.range 18).filter ok
  let pos := if s.dev.tested ∧ !(failed.contains (islPier p)) then keepPlaces pass v.pos else firstPlaces pass
  let held (n : Nat) : Bool := pos.toList.any (fun x => x.pair == some n)
  let pairs : Vector Pair18 18 := Vector.ofFn (fun (n : Fin 18) =>
    { use := if ok n.val then (if held n.val then .busy else .spare) else .retired, tested := nowNs s })
  let s := setPier s p { v with pos := pos, pairs := pairs, calm := false, idleSince := nowNs s }
  let s := (List.range 18).foldl (fun s n =>
    let k := islPair (p * 18 + n)
    let i := islandOf s k
    if ok n then setIsland s k { islAt i (if held n then 3 else 2) 2000 with test := 1, out := false }
    else setIsland s k { islAt i 0 2000 with test := 2, out := true }) s
  let s := ((List.finRange 1024).filter (fun (th : ThreadId) => th.pier.val == p && (pos.get (posIdx th)).pair.isNone)).foldl
    (fun s th => modThr s th (fun t => { t with run := .noPair })) s
  let lost := (List.range 18).filter (fun n => failed.contains (islPair (p * 18 + n)))
  let s := lost.foldl (fun s n =>
    let lanes := fieldLe (randomBytes s.freeCtr 4) 0 4
    logAdd { s with freeCtr := s.freeCtr + 1 } 0x0107 1 (islPair (p * 18 + n)) (placeWord { basin := p / 4, pier := p % 4, pair := n }) 0xFFFF 0
      (toLe 1 n ++ toLe 2 (lanes % 65536) ++ toLe 1 0 ++ toLe 2 (lanes / 65536))) s
  let active := (pos.toList.filter (fun x => x.pair.isSome)).length
  if active < 16 then logIsland s 0x0108 1 (islPier p) (toLe 1 (p % 4) ++ toLe 1 active) else s

/-- The islands that are neither pairs nor the Lighthouse are ON, or out of service with an entry (R423). -/
def startIsland (failed : List Nat) (s : State) (n : Nat) : State :=
  let i := islandOf s n
  if failed.contains n then
    let s := setIsland s n { islAt i 0 (nomMhz n) with test := 2, out := true }
    if n < 512 ∧ n % 128 = 77 then logIsland s 0x0407 2 n (toLe 1 (n / 128)) else logIsland s (Config.degradedCode 1) 1 n []
  else setIsland s n { islAt i 3 (nomMhz n) with test := 1, out := false, credits := true }

/-- The home of a partition: as configured, or the next basin in service in the order of R72 (R69, R423). -/
def startHome (failed : List Nat) (s : State) (p : Nat) : Part :=
  let want : Option Nat := (mget s.conf.parts p).getD (some (p % 4))
  match want with
  | none => { home := none, stack := p % 4 }
  | some b =>
    let h := ([b, b + 1, b + 2, b + 3].map (· % 4)).find? (fun x => !(basinFails failed x))
    { home := h, stack := h.getD b }

/-- Basins and the partition map (R69, R423). -/
def startBasins (failed : List Nat) (s : State) : State :=
  let s := (List.range 4).foldl (fun s b =>
    setBasin s b { inService := !(basinFails failed b), hbmReadable := !(failed.contains (islHbm b)), scrubbed := nowNs s }) s
  { s with parts := (List.range 4096).filterMap (fun p =>
      let v := startHome failed s p
      if v = { home := some (p % 4), stack := p % 4 } then none else some (p, v)) }

/-- The default target and enable of a defined source (R357): bits 31:16 of its EVT_CTL. -/
def defaultCtl (s : State) (n : Nat) : Nat :=
  let en := if n = 0x900 ∨ n = 0xA07 then 0 else 2 ^ 31
  let eq (k : Nat) : Nat := en + 3 * 2 ^ 28 + (32 * s.helm.last.num + k) * 2 ^ 16
  if n < 0x400 ∨ 0xF00 ≤ n then en + 2 * 2 ^ 28
  else if n < 0x800 then eq 0
  else if n < 0xA00 then eq 1
  else if n < 0xC00 then eq 2
  else if n < 0xE00 then eq 3
  else en

/-- Craentou sets each defined source to its default target (R357). -/
def startSources (s : State) : State :=
  { s with sources := (List.range 4096).filterMap (fun n =>
      if srcDefined n then some (n, ctlWrite { srcOf s n with timeTh := 1, countTh := 1 } (defaultCtl s n) (nowNs s)) else none) }

/-- The configuration store is applied (R426). -/
def applyConf (s : State) : State :=
  { s with
    tenants := s.conf.tenants.map (fun e => (e.1, { state := .quiesced, ports := e.2.ports, quota := e.2.quota, classes := e.2.classes })),
    policy := { s.conf.policy with alarms := s.policy.alarms }, watch := s.conf.watch, cfg := s.conf.cfg }

/-- The vendor chain is checked (R304): the check that fails. -/
def chainFault : Option Nat :=
  if sm3Bytes Config.vendorChain ≠ toBe 32 Config.chainHash.toNat then some 0 else if Config.chainKeyOk then none else some 1

/-- The mailboxes are ready (R422, R425). -/
def openPorts (s : State) : State := { s with mailA := { s.mailA with st := 1 }, mailB := { s.mailB with st := 1 } }

/-- FLASH_OWN is honoured: in the Slipway or without the core rails, unless FLASH_OWN_DIS is set (R450). -/
def flashGone (s : State) : Bool := s.dev.flashOwn && (decide (s.dev.st = .slipway) || !s.dev.pwrCore) && !(settingBit s 3)

/-- Service begins (R422 step 13). -/
def startService (failed : List Nat) (s : State) : State :=
  let s := ((List.range 640).filter (fun n => islExists n && decide (¬(n < 512 ∧ n % 128 < 72)) && decide (n ≠ islLighthouse))).foldl (startIsland failed) s
  let s := (List.range 16).foldl (startPier failed) { s with tenants := [] }
  let s := [Port.a, Port.b].foldl (fun s p => if failed.contains (islPort p) then setPort s p { portOf s p with link := false } else s) s
  let s := startSources (startBasins failed s)
  let s := setClocks (newEpoch (applyConf s))
  let s := match chainFault with
    | some k => logIsland s 0x0603 1 islPilot (toLe 1 k)
    | none => s
  let s := openPorts { s with dev := { s.dev with tested := true, bootFails := 0, startInProgress := false, busyAt := nowNs s } }
  -- the Hawser links train once service has begun (R422)
  devState { s with hlinks := tset {} (tset {} [] 0 { training := true }) 1 { training := true } } .full 0

/-- SERVICE_START: start-up reaches step 13 within 5 s with the islands named failing their tests (R422 to R426). -/
def execServiceStart (failed : List (BitVec 10)) (s : State) : Out :=
  .next (
    let failed := failed.map (·.toNat)
    if s.dev.st ≠ .starting ∨ 2 ≤ s.dev.bootFails ∨ s.dev.slipCmd ∨ s.dev.startedAt + 5000000000 < nowNs s ∨ fatalStart failed then s
    else match bootSlot s with
      | none => s
      | some k =>
        if !(slotAgrees (slotAt s k)) then s
        else
          let s := if k = s.fw.active then s
            else logIsland { s with fw := { s.fw with active := k, gen := s.fw.gen + 1, burn := [] } } 0x0803 1 islPilot (toLe 1 s.dev.bootFails)
          startService failed { s with fw := { s.fw with running := slotAt s k, previous := slotAt s k } })

/-- SLIPWAY_ENTERED: 0 flash, 1 boots, 2 strap, 3 command (R424, R444, R448). -/
def execSlipwayEntered (cause : Fin 4) (s : State) : Out :=
  .next (
    let ok := match cause.val with
      | 0 => (match bootSlot s with
        | none => true
        | some k => !(slotAgrees (slotAt s k)))
      | 1 => decide (2 ≤ s.dev.bootFails)
      | 2 => !(settingBit s 2)
      | _ => s.dev.slipCmd
    if s.dev.st ≠ .starting ∨ !ok then s
    else
      let s := { s with dev := { s.dev with st := .slipway, slipCmd := false, slipwayStrap := decide (cause.val = 2) } }
      openPorts (logIsland s 0x0804 3 islPilot (toLe 1 cause.val)))

/-- FLASH_OWN_ASSERT: the flash pins are released where it is honoured (R450). -/
def execFlashOwnAssert (s : State) : Out := .next { s with dev := { s.dev with flashOwn := true } }

/-- FLASH_OWN_RELEASE: in the Slipway the ROM reads the boot record again and restarts from step 3 (R450). -/
def execFlashOwnRelease (s : State) : Out :=
  .next (
    let s' := { s with dev := { s.dev with flashOwn := false } }
    if flashGone s ∧ s.dev.st = .slipway then
      { s' with dev := { s'.dev with st := .starting, startedAt := nowNs s }, mailA := { s.mailA with st := 0, resp := none, run := none },
                mailB := { s.mailB with st := 0, resp := none, run := none }, fw := fwAfter s }
    else s')

end Sys2Proof.Machine
end

