-- ==== Sys2Proof/Machine/ResetOps.lean ====
section
/-! DEFINITION. Resets of single islands and what their neighbours and work do (R63, R188, R231, R299, R353, R411 to R413, R462). -/

namespace Sys2Proof.Machine

/-- The neighbour that reports an island's drops (R411, R413; log entry 36). -/
def neighbour (n : Nat) : Nat :=
  let b := n / 128
  let k := n % 128
  if n < 512 then
    (if k < 72 then b * 128 + 72 + k / 18 else if k < 76 then islHome b else if k = 76 then islFairway b else islHome b)
  else if n = islHalf .a ∨ n = islPort .a ∨ n = islHawser 0 then (if n = islHalf .a then islFairway 0 else islHalf .a)
  else if n = islHalf .b ∨ n = islPort .b ∨ n = islHawser 1 then (if n = islHalf .b then islFairway 1 else islHalf .b)
  else if islFairway 0 ≤ n ∧ n ≤ islFairway 3 then islHome (n - islFairway 0)
  else islFairway 0

/-- The neighbour counts the transfers it drops, and logs them (R413). -/
def dropsAt (s : State) (n dropped : Nat) : State :=
  if dropped = 0 then s
  else
    let m := neighbour n
    let i := islandOf s m
    logIsland (setIsland s m { i with drops := min 65535 (i.drops + dropped) }) 0x0702 0 m (toLe 2 m ++ toLe 2 n ++ toLe 4 dropped)

/-- DEVICE stores that wait at the crossing of an island are dropped and fail (R188, R413). -/
def dropStores (s : State) (n : Nat) : State :=
  let mine (o : OStore) : Bool := decide (o.kind = .device n)
  (List.finRange 1024).foldl (fun s th => ((thr s th).stores.filter mine).foldl (fun s o => failStore s th o 4) s) s

/-- The running job of an engine starts again from its beginning, with new drawn values, and keeps its place (R255, R413); one that is
cancelled stops. -/
def restartJob (s : State) (id : Nat) : State :=
  match jobOf s id with
  | none => s
  | some j =>
    let s := modJob s id (fun j => { j with stage := .ready, progress := 0, written := 0, dirty := touched j, result := [], since := 0 })
    if j.cancelled then jobStop s id { j with dirty := touched j, written := 0 }
    else if (jobKeys j).isEmpty then jobReady s id
    else askKeys s id

/-- An engine is reset with a job on it. -/
def engineReset (s : State) (k : EngineKind) (code u : Nat) (island : Nat) : State :=
  match (jobsAt s k (.running u)).head? with
  | none => s
  | some (id, _) => restartJob (logIsland s 0x0704 2 island (toLe 1 code ++ toLe 1 u)) id

/-- A reset of the Strongroom island: every slot and spill record is lost, and the requests in progress are issued again; queued
journal records, the store and the monotonic table stay (R228, R231, R240). -/
def strongroomReset (s : State) : State :=
  let x := s.sroom
  let back := x.runs.map (fun e => e.2.req) ++ x.parked.map (fun r => { r with wait := .none })
  { s with sroom := { x with
      queue := back ++ x.queue, parked := [], runs := [], comps := none,
      keys := x.keys.map (fun e => (e.1, { e.2 with resident := false, counter := e.2.high, asked := e.2.high })) } }

/-- The Strongroom starts again: a new EPOCH, whose record joins the journal (R228, R299). -/
def strongroomStart (s : State) : State :=
  let s := newEpoch s
  logIsland (journalAdd s (.epoch s.epoch)) 0x0604 2 islStrongroom (toLe 4 s.epoch)

/-- The Pilot goes down: a command not past its commit step is lost (R462). -/
def pilotDown (s : State) : State :=
  [Port.a, Port.b].foldl (fun s p =>
    let m := mailOf s p
    setMail s p { m with run := m.run.map (fun r => { r with lost := r.lost || (!r.committed && r.checked) || (!r.committed && r.req.isNone) }) }) s

/-- Threads of a berth pair lose their work as at the loss of a berth, and are free (R341). -/
def pairReset (s : State) (pr : PairId) : State :=
  match posOfPair s pr with
  | none => s
  | some k => (threadsAt pr.pier k).foldl (fun s th => modThr (loseThread s th) th (fun t => { t with run := .free })) (clearL1 s pr.pier pr.inPier)

/-- What a reset does to the work of an island, by its kind (R17). -/
def resetWork (s : State) (n : Nat) : State :=
  let b := n / 128
  let k := n % 128
  if h : n / 128 < 4 ∧ k < 72 then pairReset s ⟨n / 128 * 72 + k, by have := h.2; have := h.1; omega⟩
  else if n < 512 ∧ k < 76 then
    let p := b * 4 + (k - 72)
    checkstop (setPier s p { pierOf s p with sealGen := (pierOf s p).sealGen + 1 }) b 6 n
  else if n < 512 ∧ k = 76 then checkstop s b 6 n
  else if n < 512 then s
  else if n < 544 then engineReset s .derrick 1 (n - 512) n
  else if n < 560 then engineReset s .lane 0 (n - 544) n
  else if n < 568 then engineReset s .stowage 2 (n - 560) n
  else if n = islHalf .a then halfReset .a s
  else if n = islHalf .b then halfReset .b s
  else if n = islPort .a then portReset s .a false
  else if n = islPort .b then portReset s .b false
  else if n = islHawser 0 ∨ n = islHawser 1 then
    linkTold (setLink s (n - islHawser 0) { training := true, trainedAt := nowNs s }) (n - islHawser 0)
  else if islFairway 0 ≤ n ∧ n ≤ islFairway 3 then
    let f := n - islFairway 0
    checkstop (setBasin s f { basinOf s f with hbmReadable := false }) f 6 n
  else if n = islStrongroom then strongroomReset s
  else if n = islPilot then pilotDown s
  else s

/-- ISLAND_RESET: the island is held in reset, its neighbours flush, count and report the drops and zero their credits, and its work
ends or starts again (R411 to R413). The Lighthouse has no such reset. -/
def execIslandReset (island : BitVec 10) (cause : Fin 3) (dropped : BitVec 32) (s : State) : Out :=
  .next (
    let n := island.toNat
    let i := islandOf s n
    if !(islExists n) ∨ n = islLighthouse ∨ s.dev.st = .off ∨ s.dev.st = .halted ∨ i.reset ∨ i.out ∨ i.state = 0 then s
    else
      let s := logIsland s 0x0703 (Config.resetClass cause.val).val n (toLe 1 cause.val)
      let s := dropStores (dropsAt s n dropped.toNat) n
      let half : Bool := n == islHalf .a || n == islHalf .b
      let s := setIsland s n { islandOf s n with reset := !half, resets := if half then i.resets else satInc i.resets 65535, credits := false, resync := true }
      resetWork s n)

/-- The Pilot is back: lost commands are answered with MB_RESTARTED (R462). -/
def pilotBack (s : State) : State :=
  [Port.a, Port.b].foldl (fun s p => match (mailOf s p).run with
    | none => s
    | some r =>
      if !r.lost then s
      else
        let s := if r.opcode = 0x0C01 then { s with disc := { s.disc with waiting := none } } else s
        let s := if r.opcode = 0x0804 ∧ s.fw.phase = 3 then { s with fw := { s.fw with phase := 2 } } else s
        mbFinish s p 0x080C 0 []) s

/-- ISLAND_RESET_EXIT: the island leaves reset, and the crossings' credits are granted both ways (R413). -/
def islandBack (s : State) (n : Nat) : State :=
  let i := islandOf s n
  let spare : Bool := match pairOfIsland n with
    | some pr => decide ((pairAt s pr.pier.val pr.inPier).use = .spare)
    | none => false
  let s := setIsland s n { islAt i (if spare then 2 else 3) i.targetMhz with reset := false, resync := false, credits := true }
  let s := deliverStores s n
  if n = islStrongroom then strongroomStart s
  else if n = islPilot then pilotBack s
  else if n < 512 ∨ 568 ≤ n then s
  else assignUnits s

/-- PILOT_RESTART (R462). -/
def execPilotRestart (cause : BitVec 8) (s : State) : Out :=
  .next (
    let i := islandOf s islPilot
    if s.dev.st = .off ∨ i.reset ∨ i.out ∨ i.state = 0 then s
    else
      let s := logIsland s 0x0708 0 islPilot (toLe 1 cause.toNat)
      pilotDown (setIsland s islPilot { i with reset := true, credits := false, resync := true, resets := satInc i.resets 65535 }))

end Sys2Proof.Machine
end

