-- ==== Sys2Proof/Machine/FwCmds.lean ====
section
/-! DEFINITION. Firmware staging and activation, the Slipway, settings, lifecycle and owner keys, the power policy, and PLDM
(17, R434 to R450, R472, R473). -/

namespace Sys2Proof.Machine

/-! Power policy (R370, R372, R398, R408, R415, R417, R418, R472). -/

/-- A value, or its default where it is 0. -/
def dflt (n d : Nat) : Nat := if n = 0 then d else n

/-- MAX_BERTH_MHZ of the settings bank in MHz (R447). -/
def maxBerth (s : State) : Nat := let n := fieldLe s.dev.bank 1 1; if n = 0 then 2400 else n * 10

/-- The sources of slots 2 to 63, by slot. -/
def watchOf (b : List Byte) : Table Nat := (List.range 62).filterMap (fun i => let v := fieldLe b (20 + 2 * i) 2; if v = 0 then none else some (i + 2, v))

def cmdPowerPolicySet : MbCmd := {
  op := 0x0701,
  bad := fun s _ b =>
    let f (off n : Nat) : Nat := fieldLe b off n
    bodyBad 176 b [(f 0 1 ≤ 1, 0), (f 1 1 ≤ 1, 1), (1400 ≤ f 8 2 && decide (f 8 2 ≤ maxBerth s), 8), (f 8 2 ≤ f 10 2 && decide (f 10 2 ≤ maxBerth s), 10),
      (85 ≤ f 12 1 && decide (f 12 1 ≤ 105), 12), (1 ≤ f 13 1 && decide (f 13 1 ≤ 168), 13), (f 18 2 == 0, 18)],
  act := fun s _ b =>
    let f (off n : Nat) : Nat := fieldLe b off n
    let w := watchOf b
    if w.any (fun e => !(wakeCapable e.2)) then badState
    else
      let p : Policy := {
        doldrumsEn := decide (f 0 1 = 1), l0pEn := decide (f 1 1 = 1), calmIdleUs := dflt (f 2 2) 50, doldrumsIdleMs := dflt (f 4 4) 10,
        berthMin := f 8 2, berthMax := f 10 2, galeSetC := f 12 1, scrubHours := f 13 1, voltPct := dflt (f 14 1) 5, tempBelowGale := dflt (f 15 1) 10,
        droopsPerMs := dflt (f 16 2) 16, alarms := [f 144 8, f 152 8, f 160 8, f 168 8] }
      .done (setClocks (saveConf { s with policy := p, watch := w })) [] }
/-- POWER_POLICY_SET (R472). -/
def execPowerPolicySet (m : MbReq) (s : State) : Out := .next (mbGo cmdPowerPolicySet m s)

/-! Staging (R434, R435). -/

/-- A change of activation phase (R357, R439). -/
def setPhase (s : State) (n : Nat) : State :=
  if s.fw.phase = n then s else arrive { s with fw := { s.fw with phase := n } } 0xC01 n false

/-- Staging opens for a length: the inactive slot holds what is staged (R434). -/
def openStage (s : State) (len : Nat) (pldm : Bool) : State :=
  let s := setSlotAt s (inactive s) .empty
  setPhase { s with fw := { s.fw with len := len, bytes := [], written := [], pldm := pldm, todo := [], done := [], near := false } } 1

/-- Bytes written at an offset (R434). -/
def stageBytes (s : State) (off : Nat) (bs : List Byte) : State :=
  { s with fw := { s.fw with bytes := writeBytes s.fw.bytes off bs, written := s.fw.written ++ [(off, bs.length)] } }

/-- The checks of R435, with their outcome: 0, or the status and its DETAIL. -/
def closeStage (s : State) : State × Nat × Nat :=
  match checkPackage s with
  | .bad st order comp => (setPhase { s with fw := { s.fw with len := 0, bytes := [], written := [] } } 0, st, order + 256 * comp)
  | .good x => (setPhase (setSlotAt s (inactive s) (.held x)) 2, 0, 0)

def cmdFwStageBegin : MbCmd := {
  op := 0x0801, slip := true,
  bad := fun _ _ b => bodyBad 4 b [(decide (fieldLe b 0 4 ≤ 67108864), 0)],
  act := fun s _ b =>
    let ph := s.fw.phase
    if s.dev.st = .slipway ∧ flashGone s then .again s
    else if s.otp.lifecycle = 3 then badState
    else if ph = 1 ∨ ph = 3 ∨ ph = 4 ∨ ph = 5 ∨ (ph = 2 ∧ s.dev.st = .slipway) then .fail 0x0816 0
    else .done (openStage s (fieldLe b 0 4) false) [] }
/-- FW_STAGE_BEGIN (R434). -/
def execFwStageBegin (m : MbReq) (s : State) : Out := .next (mbGo cmdFwStageBegin m s)

def cmdFwStageData : MbCmd := {
  op := 0x0802, slip := true,
  bad := fun s _ b =>
    let n := fieldLe b 4 4
    if b.length < 8 then some b.length
    else if s.fw.phase = 1 ∧ s.fw.len < fieldLe b 0 4 + n then some 0
    else lenBad (8 + n) b,
  act := fun s _ b =>
    if s.dev.st = .slipway ∧ flashGone s then .again s
    else if s.fw.phase ≠ 1 then .fail 0x0817 0
    else if s.fw.pldm then .fail 0x0816 0
    else .done (stageBytes s (fieldLe b 0 4) (b.drop 8)) [] }
/-- FW_STAGE_DATA (R434). -/
def execFwStageData (m : MbReq) (s : State) : Out := .next (mbGo cmdFwStageData m s)

def cmdFwStageEnd : MbCmd := {
  op := 0x0803, slip := true, limit := fun _ => 60000, bad := noBody,
  act := fun s _ _ =>
    if s.dev.st = .slipway ∧ flashGone s then .again s
    else if s.fw.phase ≠ 1 then .fail 0x0817 0
    else if s.fw.pldm then .fail 0x0816 0
    else let (s, st, d) := closeStage s; if st = 0 then .done s [] else .ends s st d [] }
/-- FW_STAGE_END (R435). -/
def execFwStageEnd (m : MbReq) (s : State) : Out := .next (mbGo cmdFwStageEnd m s)

/-! Activation (R438 to R442, R449). -/

/-- Components whose staged image differs from the active one, by place in the switching order (R440). -/
def changed (s : State) : List Nat :=
  let now := imagesOf (slotAt s s.fw.active)
  let new := imagesOf (slotAt s (inactive s))
  (List.range 12).filter (fun k => imageAt now (compId k - 1) != imageAt new (compId k - 1))

/-- Something that makes an activation wait in ARMED is in progress (R438). -/
def activationBlocked (s : State) : Bool :=
  s.basins.any (fun e => e.2.checkstopped) || s.piers.any (fun e => e.2.pos.toList.any (fun v => v.handover.isSome || v.reconf.isSome))

/-- FW_ACTIVATE of a mailbox ends with its phase and component (R473); none waits for one by PLDM. -/
def endActivate (s : State) (st phase comp : Nat) : State := mbFinishOp s 0x0804 0 st 0 (toLe 1 phase ++ toLe 1 comp ++ zeros 2)

/-- The boot record names the inactive slot, and the level of each class is burnt up to the new manifest's (R442). -/
def nameSlot (s : State) : State :=
  let m := manifestOf (slotAt s (inactive s))
  let s := { s with fw := { s.fw with active := inactive s, gen := s.fw.gen + 1 } }
  { s with otp := { s.otp with arb := s.otp.arb.zipIdx.map (fun e => max e.1 (arbOf m e.2)) } }

/-- FW_CONFIRM (R442). -/
def confirmFw (s : State) : State :=
  let m := manifestOf (slotAt s (inactive s))
  logIsland (setPhase (nameSlot s) 6) 0x0801 0 islPilot (sm3Bytes m)

/-- Every ready check has passed: probation begins, and a PLDM activation confirms at once (R438, R439, R445). -/
def beginProbation (s : State) : State :=
  let s := setPhase { s with fw := { s.fw with previous := s.fw.running, running := slotAt s (inactive s), since := nowNs s, near := false } } 5
  if s.fw.pldm then { confirmFw s with pldm := {} } else endActivate s 0 5 0

/-- The head of the components to switch has come up; the runtime swap begins with position 0 of every pier (R441). -/
def beginHead (s : State) : State :=
  let s := { s with fw := { s.fw with since := nowNs s } }
  match s.fw.todo with
  | [] => beginProbation s
  | k :: _ =>
    if k = 10 then { s with piers := s.piers.map (fun e => (e.1, { e.2 with swap := 0, loaded := (e.2.pairs.toList.findIdx? (fun x => decide (x.use = .spare))) })) }
    else s

/-- SWITCHING begins (R438, R440). -/
def beginSwitching (s : State) : State :=
  let s := [Port.a, Port.b].foldl (fun s p => setMail s p { mailOf s p with run := (mailOf s p).run.map (fun r => if r.opcode = 0x0804 ∧ r.req.isNone then { r with committed := true } else r) }) s
  beginHead (setPhase { s with fw := { s.fw with todo := changed s, done := [] } } 4)

/-- FW_ACTIVATE in the Slipway: the written slot is verified, named and burnt, the counter cleared, and the Harbour reset (R449). -/
def slipActivate (s : State) : State :=
  let s := { nameSlot s with dev := { s.dev with bootFails := 0, startInProgress := false } }
  enterStep2 (powerReset { s with fw := { s.fw with phase := 0 } } true)

/-- Threads of a berth are all free. -/
def berthIdle (s : State) (p : PierId) (k : Fin 16) : Bool := (threadsAt p k).all (fun th => decide ((thr s th).run = .free))

/-- A drained berth moves to the pair loaded for it, and the pair it left is loaded for the next one (R441). -/
def swapPair (s : State) (p : PierId) (k : Fin 16) (old new : Nat) : State :=
  let io := islandOf s (islPair (p.val * 18 + old))
  let im := islandOf s (islPair (p.val * 18 + new))
  let s := setPair s p.val new { pairAt s p.val new with use := .busy }
  let s := setPair s p.val old { pairAt s p.val old with use := .spare }
  let s := clearL1 (clearL1 s p old) p new
  let s := setIsland (setIsland s (islPair (p.val * 18 + new)) (islAt im io.state im.targetMhz)) (islPair (p.val * 18 + old)) (islAt io im.state io.targetMhz)
  let s := setPos s p.val k { posAt s p.val k with pair := some new }
  setPier s p.val { pierOf s p.val with loaded := some old }

/-- One step of the runtime swap of a pier: a berth drains, and once drained moves or reloads in place (R441). -/
def swapStep (s : State) (p : PierId) : State :=
  let v := pierOf s p.val
  if h : v.swap < 16 then
    let k : Fin 16 := ⟨v.swap, h⟩
    let x := posAt s p.val k
    match x.pair with
    | none => setPier s p.val { v with swap := v.swap + 1 }
    | some old =>
      if !x.swapping then setPos s p.val k { x with swapping := true }
      else if !(berthIdle s p k) ∨ x.handover.isSome ∨ x.selfTest then s
      else
        let s := match v.loaded with
          | some new => swapPair s p k old new
          | none => s
        let s := setPos s p.val k { posAt s p.val k with swapping := false }
        setPier s p.val { pierOf s p.val with swap := v.swap + 1 }
  else s

/-- The runtime swap of every pier of a basin that is up is done. -/
def swapDone (s : State) : Bool := s.piers.all (fun e => decide (16 ≤ e.2.swap) || !(basinUp s (e.1 / 4)))

/-- What the Pilot does of an activation in a tick: ARMED goes on to SWITCHING once nothing blocks it, and the runtime swap goes
on. -/
def fwPoll (s : State) : State :=
  if !(running s) then s
  else if s.fw.phase = 3 then (if activationBlocked s then s else beginSwitching s)
  else if s.fw.phase = 4 ∧ s.fw.todo.head? = some 10 then (List.finRange 16).foldl swapStep s
  else s

/-- How a component switches (R440): the Hawser PHYs retrain one after the other where the other carries traffic, the Strongroom is
reset, and the Pilot restarts. The others switch between two operations, with no effect on what they hold. -/
def switchEffect (s : State) (k : Nat) : State :=
  if k = 4 then [0, 1].foldl (fun s l => if (linkOf s l).up && linkData s (1 - l) then startRetrain s l else s) s
  else if k = 8 then
    let i := islandOf s islStrongroom
    strongroomStart (strongroomReset (setIsland s islStrongroom { i with resets := satInc i.resets 65535 }))
  else if k = 11 then
    let i := islandOf s islPilot
    pilotBack (pilotDown (setIsland s islPilot { i with resets := satInc i.resets 65535 }))
  else s

/-- COMPONENT_READY: the component being switched has reported ready, and the next one's turn comes (R438, R440). -/
def execComponentReady (s : State) : Out :=
  .next (
    match s.fw.todo with
    | [] => s
    | k :: rest =>
      if s.fw.phase ≠ 4 ∨ !(running s) ∨ (k = 10 ∧ !(swapDone s)) then s
      else beginHead (switchEffect { s with fw := { s.fw with todo := rest, done := s.fw.done ++ [k] } } k))

/-- Everything that was switched is switched back; the phase is STAGED, and FW_REVERTED says the component and the phase
(R438). -/
def revertFw (s : State) (comp : Nat) : State :=
  let ph := s.fw.phase
  let s := { s with fw := { s.fw with todo := [], done := [], running := if ph = 5 then s.fw.previous else s.fw.running },
                    piers := s.piers.map (fun e => (e.1, { e.2 with swap := 16, loaded := none, pos := e.2.pos.map (fun v => { v with swapping := false }) })) }
  let s := logIsland (setPhase s 2) 0x0802 1 islPilot (toLe 1 comp ++ toLe 1 ph)
  if s.fw.pldm then { s with pldm := { s.pldm with code := 1 } } else s

/-- READY_MS of a component of the staged manifest, or its default. -/
def readyMs (s : State) (k : Nat) : Nat := dflt (entryF (manifestOf (slotAt s (inactive s))) (compId k - 1) 0x0C 2) 5000

/-- READY_CHECK_TIMEOUT: the component being switched misses its ready check (R438, R440, R473). -/
def execReadyCheckTimeout (s : State) : Out :=
  .next (
    match s.fw.todo with
    | [] => s
    | k :: _ =>
      if s.fw.phase ≠ 4 ∨ nowNs s ≤ s.fw.since + readyMs s k * 1000000 then s
      else endActivate (revertFw s (compId k)) 0x0819 2 (compId k))

/-- ARMED_WAIT_EXPIRY: 10 s in ARMED (R438). -/
def execArmedWaitExpiry (s : State) : Out :=
  .next (
    if s.fw.phase ≠ 3 ∨ nowNs s ≤ s.fw.since + 10000000000 then s
    else
      let s := setPhase s 2
      if s.fw.pldm then { s with pldm := { s.pldm with code := 1 } } else endActivate s 0x0816 2 0)

/-- PROBATION_EXPIRY: a FW_CONFIRM in the cycle of expiry wins (R94, R439). -/
def execProbationExpiry (s : State) : Out :=
  .next (if s.fw.phase = 5 ∧ s.fw.since + s.fw.limitS * 1000000000 < nowNs s then revertFw s 0 else s)

/-- PROBATION_LIMIT_NEAR: 60 s before the limit (R439). -/
def execProbationLimitNear (s : State) : Out :=
  .next (
    if s.fw.phase = 5 ∧ !s.fw.near ∧ s.fw.since + s.fw.limitS * 1000000000 ≤ nowNs s + 60000000000 then
      arrive { s with fw := { s.fw with near := true } } 0xC02 5 false
    else s)

/-- ARMED with a probation limit. -/
def armFw (s : State) (limit : Nat) : State := setPhase { s with fw := { s.fw with limitS := dflt limit 600, since := nowNs s } } 3

def cmdFwActivate : MbCmd := {
  op := 0x0804, slip := true, limit := fun _ => 120000,
  bad := fun _ _ b => let n := fieldLe b 0 4; bodyBad 4 b [(n == 0 || (decide (60 ≤ n) && decide (n ≤ 86400)), 0)],
  act := fun s _ b =>
    if s.dev.st = .slipway ∧ flashGone s then .again s
    else if s.fw.phase ≠ 2 then .fail 0x0817 0
    else if s.fw.pldm then .fail 0x0816 0
    else if s.dev.st = .slipway then (if slotBoots s (slotAt s (inactive s)) then .gone (slipActivate s) else .fail 0x0815 7)
    else .wait (armFw s (fieldLe b 0 4)) 0 0 4 false }
/-- FW_ACTIVATE (R438, R449, R473). -/
def execFwActivate (m : MbReq) (s : State) : Out := .next (mbGo cmdFwActivate m s)

def cmdFwConfirm : MbCmd := {
  op := 0x0805, bad := noBody, act := fun s _ _ => if s.fw.phase = 5 then .done (confirmFw s) [] else .fail 0x0817 0 }
/-- FW_CONFIRM (R442). -/
def execFwConfirm (m : MbReq) (s : State) : Out := .next (mbGo cmdFwConfirm m s)

/-- FW_REVERT after CONFIRMED: the boot record names the slot that ran before (R442). -/
def revertConfirmed (s : State) : State :=
  let s := { s with fw := { s.fw with active := inactive s, gen := s.fw.gen + 1, running := s.fw.previous } }
  logIsland (setPhase s 2) 0x0802 1 islPilot (toLe 1 0 ++ toLe 1 6)

def cmdFwRevert : MbCmd := {
  op := 0x0806, bad := noBody,
  act := fun s _ _ =>
    if s.fw.phase = 5 then .done (revertFw s 0) []
    else if s.fw.phase ≠ 6 then .fail 0x0817 0
    else if (slotSet (slotAt s (inactive s))).isNone ∨ !(svnOk s (manifestOf (slotAt s (inactive s)))) then .fail 0x0814 0
    else .done (revertConfirmed s) [] }
/-- FW_REVERT (R438, R442). -/
def execFwRevert (m : MbReq) (s : State) : Out := .next (mbGo cmdFwRevert m s)

/-- The body of FW_STATUS. -/
def fwStatusBody (s : State) : List Byte :=
  let left := if s.fw.phase = 5 then (s.fw.since + s.fw.limitS * 1000000000 - nowNs s) / 1000000000 else 0
  let staged := if s.fw.phase = 2 ∨ s.fw.phase = 3 ∨ s.fw.phase = 4 ∨ s.fw.phase = 5 then manifestOf (slotAt s (inactive s)) else []
  let run := manifestOf s.fw.running
  toLe 1 s.fw.phase ++ toLe 1 s.fw.active ++ zeros 2 ++ toLe 4 left ++ toLe 4 (if staged.isEmpty then 0 else s.fw.len) ++ toLe 4 (releaseOf run)
    ++ toLe 4 (releaseOf staged) ++ sm3Bytes run ++ (if staged.isEmpty then zeros 32 else sm3Bytes staged)

def cmdFwStatus : MbCmd := { op := 0x0807, helm := false, slip := true, bad := noBody, act := fun s _ _ => .done s (fwStatusBody s) }
/-- FW_STATUS (R438, R472). -/
def execFwStatus (m : MbReq) (s : State) : Out := .next (mbGo cmdFwStatus m s)

/-! One-time-programmable memory and the Slipway (R446 to R449). -/

def cmdSettingsBurn : MbCmd := {
  op := 0x0808, dual := fun s _ _ => decide (s.otp.lifecycle ≠ 0),
  bad := fun _ _ b =>
    let mhz := fieldLe b 1 1
    match lenBad 256 b with
    | some o => some o
    | none => if 32 ≤ fieldLe b 0 1 then some 0
      else if mhz ≠ 0 ∧ (mhz < 140 ∨ 240 < mhz) then some 1
      else ((b.zipIdx.drop 2).find? (fun e => e.1 != 0)).map (·.2),
  act := fun s _ b =>
    if 4 ≤ s.otp.settings.length then .fail 0x0818 0
    else
      let s := if b.all (· == 0) then s else { s with otp := { s.otp with settings := s.otp.settings ++ [b] } }
      .done (arrive s 0xC03 s.otp.settings.length false) [] }
/-- SETTINGS_BURN (R447). -/
def execSettingsBurn (m : MbReq) (s : State) : Out := .next (mbGo cmdSettingsBurn m s)

def cmdEnterSlipway : MbCmd := {
  op := 0x0809, dual := fun _ _ _ => true, bad := noBody,
  act := fun s _ _ => .gone (enterStep2 (powerReset { s with dev := { s.dev with slipCmd := true, startInProgress := false } } true)) }
/-- ENTER_SLIPWAY (R448). -/
def execEnterSlipway (m : MbReq) (s : State) : Out := .next (mbGo cmdEnterSlipway m s)

def cmdLifecycleAdvance : MbCmd := {
  op := 0x080A, dual := fun s _ _ => decide (s.otp.lifecycle ≠ 0),
  bad := fun _ _ b => bodyBad 1 b [(1 ≤ fieldLe b 0 1 && decide (fieldLe b 0 1 ≤ 3), 0)],
  act := fun s _ b =>
    let n := s.otp.lifecycle
    if 3 ≤ n then .fail 0x0818 0
    else if fieldLe b 0 1 ≠ n + 1 ∨ (n = 1 ∧ s.otp.owners.isEmpty) then badState
    else .done { s with otp := { s.otp with lifecycle := n + 1 } } [] }
/-- LIFECYCLE_ADVANCE (R447, R473). -/
def execLifecycleAdvance (m : MbReq) (s : State) : Out := .next (mbGo cmdLifecycleAdvance m s)

def cmdOwnerKeyRotate : MbCmd := {
  op := 0x080B, dual := fun s _ _ => !s.otp.owners.isEmpty, bad := fun _ _ b => lenBad 64 b,
  act := fun s _ b => if 4 ≤ s.otp.owners.length then .fail 0x0818 0 else .done { s with otp := { s.otp with owners := s.otp.owners ++ [sm3Bytes b] } } [] }
/-- OWNER_KEY_ROTATE (R305, R447). -/
def execOwnerKeyRotate (m : MbReq) (s : State) : Out := .next (mbGo cmdOwnerKeyRotate m s)

/-! PLDM for Firmware Update (R445). -/

/-- A PLDM completion code. -/
def pldmCode (s : State) (n : Nat) : State := { s with pldm := { s.pldm with code := n } }

/-- PLDM is offered: in service, with the Pilot running (R445, R448). -/
def pldmUp (s : State) : Bool := running s && !(islandOf s islPilot).reset

/-- RequestUpdate opens staging, or is refused as FW_STAGE_BEGIN would be (R434, R445). -/
def execRequestUpdate (length : BitVec 32) (s : State) : Out :=
  .next (
    let ph := s.fw.phase
    if !(pldmUp s) then s
    else if ph = 1 ∨ ph = 2 ∨ ph = 3 ∨ ph = 4 ∨ ph = 5 then pldmCode s 0x81
    else if s.otp.lifecycle = 3 ∨ 67108864 < length.toNat then pldmCode s 1
    else { openStage s length.toNat true with pldm := { st := 1 } })

/-- PassComponentTable (R445). -/
def execPassComponentTable (s : State) : Out :=
  .next (if !(pldmUp s) then s else if s.pldm.st = 1 then { s with pldm := { st := 2 } } else pldmCode s 0x84)

/-- UpdateComponent (R445). -/
def execUpdateComponent (s : State) : Out :=
  .next (if !(pldmUp s) then s else if s.pldm.st = 2 then { s with pldm := { st := 3 } } else pldmCode s 0x84)

/-- RequestFirmwareData brings bytes; once every byte is there, VerifyComplete reports the checks of R435 and ApplyComplete
STAGED (R445). -/
def execRequestFirmwareData (off : BitVec 32) (bytes : List Byte) (s : State) : Out :=
  .next (
    if !(pldmUp s) then s
    else if s.pldm.st ≠ 3 ∨ s.fw.phase ≠ 1 ∨ s.fw.len < off.toNat + bytes.length then pldmCode s 0x84
    else
      let s := stageBytes s off.toNat bytes
      if !(coveredTo s.fw.written s.fw.len (s.fw.written.length + 1) 0) then pldmCode s 0
      else
        let (s, st, _) := closeStage s
        if st = 0 then { s with pldm := { st := 4 } } else { s with pldm := { st := 0, code := 1 } })

/-- ActivateFirmware: a probation limit of 60 s, confirmed as soon as every ready check passes (R445). -/
def execActivateFirmware (s : State) : Out :=
  .next (
    if !(pldmUp s) then s
    else if s.pldm.st ≠ 4 ∨ s.fw.phase ≠ 2 then pldmCode s 0x84
    else pldmCode (armFw s 60) 0)

end Sys2Proof.Machine
end

