-- ==== Sys2Proof/Machine/IntegerOps.lean ====
section
/-! DEFINITION. The integer, decimal and immediate instructions of Windlass (05 Integer, 06). -/

namespace Sys2Proof.Machine

/-- A three-register instruction: rD := f rA rB, the flags unchanged (R147, R159). -/
def alu (th : ThreadId) (d a b : RegField) (f : Word → Word → Word) (s : State) : Out :=
  .next (regInstr th (fun r => .ok (wr r d (f (rd r a) (rd r b)))) s)

/-- As alu, with C and V written (R159). -/
def aluCV (th : ThreadId) (d a b : RegField) (f : Arch → Word → Word → Word × Bool × Bool) (s : State) : Out :=
  .next (regInstr th (fun r => let (v, c, o) := f r (rd r a) (rd r b); .ok (setCV (wr r d v) c o)) s)

/-- A three-register instruction on decimal words: C written, V unchanged, DECINV sticky (R162). -/
def aluDec (th : ThreadId) (d a b : RegField) (f : Arch → Word → Word → Word × Bool) (s : State) : Out :=
  .next (regInstr th (fun r =>
    let (v, c) := f r (rd r a) (rd r b)
    .ok (stickDecinv (setC (wr r d v) c) (badDigit (rd r a) || badDigit (rd r b)))) s)

/-- An instruction with an immediate: rD := f rA (R147). -/
def aluImm (th : ThreadId) (d a : RegField) (f : Word → Word) (s : State) : Out :=
  .next (regInstr th (fun r => .ok (wr r d (f (rd r a)))) s)

/-- A shift by IMM8[4:0], 0 to 23; IMM8[7:5] not 0 or a shift above 23 raises ILLEGAL (R147, R127). -/
def shiftImm (th : ThreadId) (d a : RegField) (imm : BitVec 8) (f : Word → Nat → Word) (s : State) : Out :=
  .next (regInstr th (fun r => if imm.toNat ≤ 23 then .ok (wr r d (f (rd r a) imm.toNat)) else .error excIllegal) s)

/-- A multiply into a pair; the pair must start at w0 to w22 (R129, R160). -/
def mulPair (th : ThreadId) (d a b : RegField) (f : Word → Word → Pair) (s : State) : Out :=
  .next (regInstr th (fun r => if pairOk d then .ok (wrPair r d (f (rd r a) (rd r b))) else .error excIllegal) s)

/-- ADD (R147). -/
def execAdd (th : ThreadId) (d a b : RegField) (s : State) : Out := alu th d a b (· + ·) s
/-- ADDS (R159). -/
def execAdds (th : ThreadId) (d a b : RegField) (s : State) : Out := aluCV th d a b (fun _ x y => addWithCarry x y false) s
/-- ADDC (R159). -/
def execAddc (th : ThreadId) (d a b : RegField) (s : State) : Out := aluCV th d a b (fun r x y => addWithCarry x y (flagC r)) s
/-- SUB (R147). -/
def execSub (th : ThreadId) (d a b : RegField) (s : State) : Out := alu th d a b (· - ·) s
/-- SUBS (R159). -/
def execSubs (th : ThreadId) (d a b : RegField) (s : State) : Out := aluCV th d a b (fun _ x y => subWithBorrow x y false) s
/-- SUBB (R159). -/
def execSubb (th : ThreadId) (d a b : RegField) (s : State) : Out := aluCV th d a b (fun r x y => subWithBorrow x y (flagC r)) s
/-- SLT (R147). -/
def execSlt (th : ThreadId) (d a b : RegField) (s : State) : Out := alu th d a b (fun x y => boolW (x.slt y)) s
/-- SLTU (R147). -/
def execSltu (th : ThreadId) (d a b : RegField) (s : State) : Out := alu th d a b (fun x y => boolW (x.ult y)) s
/-- AND (R147). -/
def execAnd (th : ThreadId) (d a b : RegField) (s : State) : Out := alu th d a b (· &&& ·) s
/-- OR (R147). -/
def execOr (th : ThreadId) (d a b : RegField) (s : State) : Out := alu th d a b (· ||| ·) s
/-- XOR (R147). -/
def execXor (th : ThreadId) (d a b : RegField) (s : State) : Out := alu th d a b (· ^^^ ·) s
/-- ANDN (R147). -/
def execAndn (th : ThreadId) (d a b : RegField) (s : State) : Out := alu th d a b (fun x y => x &&& ~~~ y) s
/-- SLL (R147). -/
def execSll (th : ThreadId) (d a b : RegField) (s : State) : Out := alu th d a b (fun x y => sllW x (y.toNat % 32)) s
/-- SRL (R147). -/
def execSrl (th : ThreadId) (d a b : RegField) (s : State) : Out := alu th d a b (fun x y => srlW x (y.toNat % 32)) s
/-- SRA (R147). -/
def execSra (th : ThreadId) (d a b : RegField) (s : State) : Out := alu th d a b (fun x y => sraW x (y.toNat % 32)) s
/-- ROL (R147). -/
def execRol (th : ThreadId) (d a b : RegField) (s : State) : Out := alu th d a b (fun x y => rolW x (y.toNat % 32)) s
/-- MUL (R160). -/
def execMul (th : ThreadId) (d a b : RegField) (s : State) : Out := alu th d a b (· * ·) s
/-- MULH (R160). -/
def execMulh (th : ThreadId) (d a b : RegField) (s : State) : Out := alu th d a b (fun x y => (mulS x y).extractLsb' 24 24) s
/-- MULHU (R160). -/
def execMulhu (th : ThreadId) (d a b : RegField) (s : State) : Out := alu th d a b (fun x y => (mulU x y).extractLsb' 24 24) s
/-- MULW (R160). -/
def execMulw (th : ThreadId) (d a b : RegField) (s : State) : Out := mulPair th d a b mulS s
/-- MULWU (R160). -/
def execMulwu (th : ThreadId) (d a b : RegField) (s : State) : Out := mulPair th d a b mulU s
/-- DIV (R160). -/
def execDiv (th : ThreadId) (d a b : RegField) (s : State) : Out := alu th d a b divS s
/-- DIVU (R160). -/
def execDivu (th : ThreadId) (d a b : RegField) (s : State) : Out := alu th d a b divU s
/-- REM (R160). -/
def execRem (th : ThreadId) (d a b : RegField) (s : State) : Out := alu th d a b remS s
/-- REMU (R160). -/
def execRemu (th : ThreadId) (d a b : RegField) (s : State) : Out := alu th d a b remU s
/-- DADD (R161). -/
def execDadd (th : ThreadId) (d a b : RegField) (s : State) : Out := aluDec th d a b (fun _ x y => bcd dadd1 x y false) s
/-- DADDC (R161). -/
def execDaddc (th : ThreadId) (d a b : RegField) (s : State) : Out := aluDec th d a b (fun r x y => bcd dadd1 x y (flagC r)) s
/-- DSUB (R161). -/
def execDsub (th : ThreadId) (d a b : RegField) (s : State) : Out := aluDec th d a b (fun _ x y => bcd dsub1 x y false) s
/-- DSUBB (R161). -/
def execDsubb (th : ThreadId) (d a b : RegField) (s : State) : Out := aluDec th d a b (fun r x y => bcd dsub1 x y (flagC r)) s
/-- DCMP (R161). -/
def execDcmp (th : ThreadId) (d a b : RegField) (s : State) : Out := aluDec th d a b (fun _ x y => dcmp x y) s
/-- ADDI (R147). -/
def execAddi (th : ThreadId) (d a : RegField) (imm : BitVec 8) (s : State) : Out := aluImm th d a (· + sx8 imm) s
/-- ANDI (R147). -/
def execAndi (th : ThreadId) (d a : RegField) (imm : BitVec 8) (s : State) : Out := aluImm th d a (· &&& sx8 imm) s
/-- ORI (R147). -/
def execOri (th : ThreadId) (d a : RegField) (imm : BitVec 8) (s : State) : Out := aluImm th d a (· ||| sx8 imm) s
/-- XORI (R147). -/
def execXori (th : ThreadId) (d a : RegField) (imm : BitVec 8) (s : State) : Out := aluImm th d a (· ^^^ sx8 imm) s
/-- SLLI (R147). -/
def execSlli (th : ThreadId) (d a : RegField) (imm : BitVec 8) (s : State) : Out := shiftImm th d a imm sllW s
/-- SRLI (R147). -/
def execSrli (th : ThreadId) (d a : RegField) (imm : BitVec 8) (s : State) : Out := shiftImm th d a imm srlW s
/-- SRAI (R147). -/
def execSrai (th : ThreadId) (d a : RegField) (imm : BitVec 8) (s : State) : Out := shiftImm th d a imm sraW s
/-- SLTI (R147). -/
def execSlti (th : ThreadId) (d a : RegField) (imm : BitVec 8) (s : State) : Out := aluImm th d a (fun x => boolW (x.slt (sx8 imm))) s
/-- SLTUI (R147). -/
def execSltui (th : ThreadId) (d a : RegField) (imm : BitVec 8) (s : State) : Out := aluImm th d a (fun x => boolW (x.ult (sx8 imm))) s
/-- LUI (R147). -/
def execLui (th : ThreadId) (d : RegField) (imm : BitVec 13) (s : State) : Out := aluImm th d d (fun _ => imm.setWidth 24 <<< 11) s
/-- ORLI (R147). -/
def execOrli (th : ThreadId) (d : RegField) (imm : BitVec 13) (s : State) : Out := aluImm th d d (fun x => x ||| imm.setWidth 24) s

end Sys2Proof.Machine
end

