-- ==== Sys2Proof/Machine/KeyCmds.lean ====
section
/-! DEFINITION. Mailbox commands of keys and labels (09, 18, R243 to R258, R469, R511, R512). -/

namespace Sys2Proof.Machine

/-- KATTR at an offset of a body (R469). -/
def attrOf (b : List Byte) (o : Nat) : KAttr :=
  let f (off n : Nat) : Nat := fieldLe b (o + off) n
  { usage := f 0 2, alg := f 2 1, mode := f 3 1, exp := f 4 1, curve := f 5 1, bits := f 6 2, capLog2 := f 8 1, monotonic := bitOf (f 9 1) 0,
    ivFixed := beNat (slice b (o + 10) 3) }

/-- KATTR as 16 bytes. -/
def attrBytes (a : KAttr) : List Byte :=
  toLe 2 a.usage ++ toLe 1 a.alg ++ toLe 1 a.mode ++ toLe 1 a.exp ++ toLe 1 a.curve ++ toLe 2 a.bits ++ toLe 1 a.capLog2 ++ toLe 1 (bit a.monotonic)
    ++ toBe 3 a.ivFixed ++ zeros 3

/-- The usages of R244. -/
def allUsages : List Nat := [usB0, us91, usK0, usK1, usP0, usM3, usM6, usM7, usD0, usE0, usS0]

/-- Stage one of R511: each field of KATTR holds a value its row lists; for a key block the fields the block supplies are 0. -/
def attrFields (b : List Byte) (o : Nat) (block : Bool) : List (Bool × Nat) :=
  let a := attrOf b o
  let given : List (Bool × Nat) :=
    if block then [(a.usage == 0, o), (a.alg == 0, o + 2), (a.mode == 0, o + 3), (a.exp == 0, o + 4), (a.curve == 0, o + 5), (a.bits == 0, o + 6)]
    else [(allUsages.contains a.usage, o), ([chA, chT, chE, chR, ch4, chH].contains a.alg, o + 2), ([chB, chC, chD, chE, chG, chN, chS, chV, chX].contains a.mode, o + 3),
          ([chE, chN, chS].contains a.exp, o + 4), (a.curve ≤ 3, o + 5), ([0, 128, 192, 256, 2048, 3072, 4096].contains a.bits, o + 6)]
  given ++ [(a.capLog2 == 0 || (16 ≤ a.capLog2 && a.capLog2 ≤ 64), o + 8), (fieldLe b (o + 9) 1 ≤ 1, o + 9), (fieldLe b (o + 13) 3 == 0, o + 13)]

/-- Stage two of R511: the combination, HEADER before STRENGTH. -/
def attrReason (a : KAttr) (pub : Bool) : Option Nat :=
  if !(attrRowOk a pub) ∨ !(attrCapOk a) then some 5 else if !(attrBitsOk a) then some 7 else none

/-- A handle's fields agree: a manager handle names tenant 0 (R223). -/
def handleOk (h : Nat) : Bool := !(hMgr h) || hTenant h == 0

/-- The requested index of a target already holds a key (R469). -/
def targetTaken (s : State) (h : Nat) : Bool := hIndex h != 0 && (mget s.sroom.keys h).isSome

/-- The handle a new key takes: the one requested, or the lowest free index of its owner (R469). -/
def newHandle (s : State) (h : Nat) : Option Nat :=
  if hIndex h ≠ 0 then some h
  else
    let n := s.sroom.keys.length + 2
    ((List.range n).map (fun i => h + i)).find? (fun x => decide (hIndex x < 2 ^ 21) && (hMgr h || hIndex x != 0) && hTenant x == hTenant h && (mget s.sroom.keys x).isNone)

/-- Room for one more stored key: the tenant's quota and the device's 4,194,304 records (R226, R243 check 9). -/
def keyRoom (s : State) (h : Nat) : Bool :=
  decide ((s.sroom.keys.filter (fun e => hMgr e.1 || hIndex e.1 != 0)).length < 4194304) &&
    (hMgr h || decide (storedKeys s (hTenant h) < (tenantOf s (hTenant h)).quota))

/-- A new key is written to its store record and journalled; its command waits for both (R229). -/
def addKey (s : State) (p : Port) (h : Nat) (k : Key) : State := persistKey (setKey s h { k with live := false, cmd := some p }) h 0

/-- KEY_BLOCK_REJECTED with a reason (R243). -/
def blockRejected (reason : Nat) : MbAct := .fail 0x0205 reason

/-- A key of a command, where the handle is free and there is room (R243, R469). -/
def makeKey (s : State) (p : Port) (target : Nat) (k : Key) (aux need : Nat) : MbAct :=
  if !(keyRoom s target) then blockRejected 8
  else match newHandle s target with
    | none => blockRejected 8
    | some h => .wait (addKey s p h k) h aux need true

/-- Bytes of a component's check value (R246). -/
def kcvLen (a : KAttr) : Nat := if isTdea (algCode a) then 3 else 5

/-- Bytes of DATA of a public key (R469). -/
def pubLen (a : KAttr) : Nat := if a.alg = chR then a.bits / 8 + 4 else if a.curve = 3 then 96 else 64

/-- Fields of KEY_IMPORT_BLOCK (R469, R511). -/
def importBad (_ : State) (_ : MbReq) (b : List Byte) : Option Nat :=
  let f (off n : Nat) : Nat := fieldLe b off n
  let fmt := f 0 1
  let a := attrOf b 16
  if b.length < 32 then some b.length
  else
    let comp := fmt == 1
    let dataLen := f 12 2
    let dataOk := if fmt = 1 then dataLen == a.bits / 8 + kcvLen a else if fmt = 2 then dataLen == pubLen a else true
    firstBad ([(decide (fmt ≤ 2), 0), (if comp then 2 ≤ f 1 1 && f 1 1 ≤ 3 else f 1 1 == 0, 1), (if comp then 1 ≤ f 2 1 && f 2 1 ≤ f 1 1 else f 2 1 == 0, 2),
      (f 3 1 == 0, 3), (handleOk (f 4 4), 4), (if fmt = 0 then handleOk (f 8 4) else f 8 4 == 0, 8), (dataOk, 12), (f 14 2 == 0, 14)]
      ++ attrFields b 16 (fmt == 0) ++ [(b.length == 32 + dataLen, min b.length (32 + dataLen))])

/-- The protection key that check 4 of R243 accepts for a version: a manager key or a key of the target's owner. -/
def blockKey (s : State) (target kbpk : Nat) (mode : KeyUse) (ver : Option Nat) : Option Key :=
  match keyOf s kbpk with
  | none => none
  | some k =>
    let owner := hMgr kbpk || (!(hMgr target) && hTenant kbpk == hTenant target)
    let algOk := match ver with
      | none => useAlg mode k
      | some v => k.attr.alg == (if v = chD then chA else chT)
    if owner && useOk mode k.attr.usage k.attr.mode && algOk && k.state != 3 then some k else none

/-- Format 0: an X9.143 key block (R243). -/
def importBlock (s : State) (p : Port) (b : List Byte) : MbAct :=
  let target := fieldLe b 4 4
  let own := attrOf b 16
  match openBlock (b.drop 32) (fun ver => blockKey s target (fieldLe b 8 4) .blockImport (some ver)) with
  | .error e => blockRejected e
  | .ok (a, key, ver) =>
    let a := { a with capLog2 := own.capLog2, monotonic := own.monotonic, ivFixed := own.ivFixed }
    if !(attrCapOk a) then blockRejected 5 else makeKey s p target { attr := a, value := key, version := ver } 0 10

/-- Format 1: a component of a key (R247). -/
def importComponent (s : State) (p : Port) (b : List Byte) : MbAct :=
  let target := fieldLe b 4 4
  let count := fieldLe b 1 1
  let a := attrOf b 16
  let part := slice b 32 (a.bits / 8)
  if !(ideLink s p) then blockRejected 3
  else match attrReason a false with
    | some e => blockRejected e
    | none =>
      if algCode a = 0 then blockRejected 5
      else if (kcvOf (algCode a) part).take (kcvLen a) ≠ b.drop (32 + a.bits / 8) then blockRejected 6
      else
        let fresh : Comps := { target := target, count := count, attr := a, since := nowNs s }
        let c := match s.sroom.comps with
          | some c => if c.target = target ∧ c.count = count then c else fresh
          | none => fresh
        let c := { c with parts := mset c.parts (fieldLe b 2 1) part }
        let put (x : Option Comps) : State := { s with sroom := { s.sroom with comps := x } }
        if c.parts.length < count then .done (put (some c)) (toLe 4 target ++ zeros 5 ++ toLe 1 c.parts.length)
        else
          let key := c.parts.foldl (fun k e => if k.isEmpty then e.2 else xorBytes k e.2) []
          makeKey (put none) p target { attr := c.attr, value := key } count 10

/-- Format 2: a public key (R244, R469). -/
def importPublic (s : State) (p : Port) (b : List Byte) : MbAct :=
  let a := attrOf b 16
  match attrReason a true with
  | some e => blockRejected e
  | none => makeKey s p (fieldLe b 4 4) { attr := a, value := b.drop 32, isPublic := true } 0 10

def cmdKeyImportBlock : MbCmd := {
  op := 0x0301, bad := importBad, dual := fun _ _ b => hMgr (fieldLe b 4 4) || fieldLe b 0 1 == 1,
  act := fun s m b =>
    if targetTaken s (fieldLe b 4 4) then .fail 0x0809 0
    else if s.sroom.base.isNone then blockRejected 9
    else match fieldLe b 0 1 with
      | 0 => importBlock s m.port b
      | 1 => importComponent s m.port b
      | _ => importPublic s m.port b }
/-- KEY_IMPORT_BLOCK (R243, R247, R256, R469, R511). -/
def execKeyImportBlock (m : MbReq) (s : State) : Out := .next (mbGo cmdKeyImportBlock m s)

def cmdKeyGenerate : MbCmd := {
  op := 0x0302, dual := fun _ _ b => hMgr (fieldLe b 0 4),
  bad := fun _ _ b => bodyBad 20 b ((handleOk (fieldLe b 0 4), 0) :: attrFields b 4 false),
  act := fun s m b =>
    let target := fieldLe b 0 4
    let a := attrOf b 4
    if targetTaken s target then .fail 0x0809 0
    else if s.sroom.base.isNone then blockRejected 9
    else match attrReason a false with
      | some e => blockRejected e
      | none =>
        let value := if a.alg = chE ∨ a.alg = chR then Config.newPrivate a.curve a.bits s.freeCtr else randomBytes s.freeCtr (a.bits / 8)
        let k : Key := { attr := a, value := value }
        makeKey { s with freeCtr := s.freeCtr + 1 } m.port target k 0 (keyBody target k 0x0302 0).length }
/-- KEY_GENERATE (R256, R469, R511). -/
def execKeyGenerate (m : MbReq) (s : State) : Out := .next (mbGo cmdKeyGenerate m s)

def cmdKeyExportBlock : MbCmd := {
  op := 0x0303, dual := fun _ _ _ => true,
  bad := fun _ _ b => bodyBad 8 b [(handleOk (fieldLe b 0 4), 0), (handleOk (fieldLe b 4 4), 4)],
  act := fun s _ b =>
    let h := fieldLe b 0 4
    let kb := fieldLe b 4 4
    match keyOf s h, keyOf s kb with
    | none, _ => .fail 0x0201 0
    | _, none => .fail 0x0201 0
    | some k, some _ =>
      match blockKey s h kb .blockExport none with
      | none => .fail 0x0202 0
      | some p =>
        if k.attr.exp ≠ chE ∨ k.isPublic ∨ !(strongEnough (algCode p.attr) (algCode k.attr)) ∨ (hIndex h = 0 ∧ !(hMgr h)) then .fail 0x0202 0
        else if k.state = 3 ∨ p.state = 2 then .fail 0x0204 0
        else if p.state = 1 then .fail 0x0203 0
        else
          let s := modKey (modKey s h (fun k => { k with resident := true })) kb (fun k => { k with resident := true })
          let ver := if isTdea (algCode p.attr) then chB else chD
          let text := Config.sealKeyBlock p.value (blockText s ver k.attr.usage k.attr.alg k.attr.mode k.version k.attr.exp (algCode k.attr) k.value) k.value s.freeCtr
          match draw s kb 1 with
          | (s, none) => .again s
          | (s, some _) => .done { s with freeCtr := s.freeCtr + 1 } (toLe 2 text.length ++ text) }
/-- KEY_EXPORT_BLOCK (R245, R248, R256). -/
def execKeyExportBlock (m : MbReq) (s : State) : Out := .next (mbGo cmdKeyExportBlock m s)

/-- The state a retirement moves a key to (R251): modes 0 and 1. -/
def retiredState (st mode : Nat) : Nat := if mode = 1 then 3 else if st = 0 then 2 else st

def cmdKeyRetire : MbCmd := {
  op := 0x0304, dual := fun _ _ b => hMgr (fieldLe b 0 4),
  bad := fun _ _ b => bodyBad 8 b [(handleOk (fieldLe b 0 4), 0), (fieldLe b 4 1 ≤ 2, 4), (fieldLe b 5 3 == 0, 5)],
  act := fun s m b =>
    let h := fieldLe b 0 4
    let mode := fieldLe b 4 1
    match keyOf s h with
    | none => .fail 0x0201 0
    | some k =>
      if mode = 2 then .wait (reapKeys (setKey s h { k with dying := true, cmd := some m.port })) h 0 0 true
      else
        let st := retiredState k.state mode
        if st = k.state then .done s []
        else
          let s := persistKey (setKey s h { k with state := st, cmd := some m.port }) h st
          .wait (if hIndex h = 0 ∧ !(hMgr h) then modKey s h (fun k => { k with store := none }) else s) h 0 0 true }
/-- KEY_RETIRE (R251, R252, R256). -/
def execKeyRetire (m : MbReq) (s : State) : Out := .next (mbGo cmdKeyRetire m s)

def cmdKeyQuery : MbCmd := {
  op := 0x0305, helm := false, bad := fun _ _ b => bodyBad 4 b [(handleOk (fieldLe b 0 4), 0)],
  act := fun s _ b =>
    match keyOf s (fieldLe b 0 4) with
    | none => .fail 0x0201 0
    | some k => .done s (toLe 1 k.state ++ zeros 3 ++ attrBytes k.attr ++ toLe 8 k.counter ++ toLe 8 k.high ++ kcvOf (algCode k.attr) k.value) }
/-- KEY_QUERY (R256). -/
def execKeyQuery (m : MbReq) (s : State) : Out := .next (mbGo cmdKeyQuery m s)

/-- A live key record is journalled (R512). -/
def journalLive (s : State) : Bool := s.sroom.keys.any (fun e => (hMgr e.1 || hIndex e.1 != 0) && e.2.journalled.isSome && e.2.journalled != some 4)

def cmdKeystoreConfigure : MbCmd := {
  op := 0x0306, dual := fun _ _ _ => true, limit := fun _ => 120000,
  bad := fun _ _ b => bodyBad 8 b [(fieldLe b 0 8 % 4096 == 0, 0)],
  act := fun s _ b =>
    let base := fieldLe b 0 8
    let s' := { s with freeCtr := s.freeCtr + 1 }
    match (if journalLive s then Config.regionFails base s.freeCtr else none) with
    | some slot => .ends s' 0x0809 slot []
    | none => .done { s' with sroom := { s'.sroom with base := some base } } [] }
/-- KEYSTORE_CONFIGURE (R227, R256, R512). -/
def execKeystoreConfigure (m : MbReq) (s : State) : Out := .next (mbGo cmdKeystoreConfigure m s)

def cmdTenantLabelSet : MbCmd := {
  op := 0x0310, dual := fun _ _ _ => true,
  bad := fun _ _ b =>
    let n := fieldLe b 2 1
    bodyBad 36 b [(decide (fieldLe b 0 2 < 1024), 0), (1 ≤ n && n ≤ 32, 2), (fieldLe b 3 1 == 0, 3), ((b.drop (4 + n)).all (· == 0), 4 + n)],
  act := fun s _ b =>
    let t := fieldLe b 0 2
    if (tenantOf s t).state = .absent then badTenant s t
    else if (mget s.sroom.labels t).isSome then .fail 0x0202 0
    else
      let text := slice b 4 (fieldLe b 2 1)
      .wait (journalAdd { s with sroom := { s.sroom with labels := mset s.sroom.labels t text } } (.label t text)) t 0 0 true }
/-- TENANT_LABEL_SET (R234, R256). -/
def execTenantLabelSet (m : MbReq) (s : State) : Out := .next (mbGo cmdTenantLabelSet m s)

end Sys2Proof.Machine
end

