-- ==== Sys2Proof/Machine/MailDispatch.lean ====
section
/-! DEFINITION. The mailbox commands by opcode, commands that wait, and the events that let them go on (R228, R257, R413, R415, R460 to
R462). -/

namespace Sys2Proof.Machine

/-- Every mailbox command (R464). -/
def mbTable : List MbCmd := [
  cmdGetDeviceInfo, cmdGetCaps, cmdHelmAcquire, cmdHelmRelease, cmdTimeSet, cmdTenantCreate, cmdTenantConfigure, cmdTenantQuiesce,
  cmdTenantResume, cmdTenantDestroy, cmdTenantResync, cmdQueueCreate, cmdQueueDestroy, cmdClassSet, cmdPartitionMapSet, cmdChainPoolCreate,
  cmdChainPoolDestroy] ++ [
  cmdKeyImportBlock, cmdKeyGenerate, cmdKeyExportBlock, cmdKeyRetire, cmdKeyQuery, cmdKeystoreConfigure, cmdTenantLabelSet, cmdHandlerLoad,
  cmdHandlerBind, cmdFormatLoad, cmdLedgerConfigure, cmdTideGet, cmdProofGet, cmdLedgerTrim, cmdBerthSplit, cmdBerthJoin, cmdBerthRetire] ++ [
  cmdBasinRecover, cmdErrorInject, cmdPowerPolicySet, cmdThermalStatus, cmdLogbookRead, cmdLogbookClear, cmdDiagRun, cmdFwStageBegin,
  cmdFwStageData, cmdFwStageEnd, cmdFwActivate, cmdFwConfirm, cmdFwRevert, cmdFwStatus, cmdSettingsBurn, cmdEnterSlipway,
  cmdLifecycleAdvance, cmdOwnerKeyRotate, cmdRoadsteadJoin, cmdRoadsteadStatus, cmdPartnerTakeover]

/-- The command of an opcode. -/
def mbFind (op : Nat) : Option MbCmd := mbTable.find? (fun c => c.op == op)

/-- A command with its request held is looked at again (R415, R460, R462). -/
def mbAgain (s : State) (r : MbRun) (c : MbCmd) (m : MbReq) : State :=
  if !r.checked then mbStart c m s
  else match c.act s m (mbBody m) with
    | .again _ => s
    | _ => mbProceed c m s

/-- One mailbox: a command that waits for the Pilot, for what it reads, or for work that has ended goes on (R301, R314, R343, R462,
R470). -/
def mbPollPort (s : State) (p : Port) : State :=
  match (mailOf s p).run with
  | none => s
  | some r =>
    if !(pilotUp s) ∨ r.lost then s
    else match r.req with
      | some m => (match r.dc, mbFind r.opcode with
        | none, some c => mbAgain s r c m
        | none, none => mbRefuse s m 0x0801 0
        | _, _ => s)
      | none =>
        if r.opcode = 0x0401 then
          (if runsCode s r.arg then s else mbFinish { s with handlers := mdel s.handlers r.arg } p 0 0 [])
        else if r.opcode = 0x0411 then
          (if (List.range 16).any (fun k => (pierOf s k).oldFormat.isSome && slotInUse s k r.arg) then s else mbFinish s p 0 0 [])
        else if (r.opcode = 0x0601 ∨ r.opcode = 0x0602) ∧ 0x10000 ≤ r.arg then resumeReconf s p r
        else s

/-- What the Pilot does between commands: waiting commands and the activation in progress go on; mailbox A goes first (R438,
R460). -/
def mbPoll (s : State) : State := fwPoll (mbPollPort (mbPollPort s .a) .b)

/-- WAKE_COMPLETE (R415): commands that waited for the wake run. -/
def execWakeComplete (s : State) : Out := .next (mbPoll (wakeDone s))

/-- ISLAND_RESET_EXIT (R413, R462). -/
def execIslandResetExit (island : BitVec 10) (s : State) : Out :=
  .next (
    let n := island.toNat
    let i := islandOf s n
    if !(islExists n) ∨ !i.reset ∨ i.out ∨ s.dev.st = .off ∨ s.dev.st = .halted then s else mbPoll (islandBack s n))

/-- MB_TIMEOUT: a command not past its commit step is abandoned when its limit expires (R461). -/
def execMbTimeout (p : Port) (s : State) : Out :=
  .next (
    match (mailOf s p).run with
    | none => s
    | some r =>
      if r.committed ∨ !(pilotUp s) ∨ nowNs s < r.since + r.limitMs * 1000000 then s
      else
        let s := if r.opcode = 0x0C01 then { s with disc := { s.disc with waiting := none } } else s
        let s := if r.opcode = 0x0804 ∧ s.fw.phase = 3 then setPhase s 2 else s
        mbFinish s p 0x0805 0 [])

/-! The key journal (R228, R229, R253, R256, R257). -/

/-- The tenant root that TENANT_LABEL_SET makes: a key-derivation key that derives (R234, R235). -/
def rootKey (t : Nat) (text : List Byte) : Key :=
  { attr := { usage := us91, alg := chA, mode := chX, bits := 256 }, value := tenantRoot t text, live := true, journalled := some 0 }

/-- A record has reached its page. -/
def journalled (s : State) (r : JRec) : State :=
  match r with
  | .key h st => destroyDone (settleKey (modKey s h (fun k => { k with journalled := some st, recQueued := false })) h)
  | .reserve h high => unparkReqs (modKey s h (fun k => { k with high := max k.high high })) (.journal h)
  | .label t text =>
    if text.isEmpty then destroyDone { s with sroom := { s.sroom with labels := mdel s.sroom.labels t } }
    else mbFinishOp (setKey s (t * 2 ^ 21) (rootKey t text)) 0x0310 t 0 0 []
  | .dcSeq n =>
    [Port.a, Port.b].foldl (fun s p => match (mailOf s p).run with
      | some run => (match run.dc, run.req, mbFind run.opcode with
        | some k, some m, some c => if k = n ∧ !run.lost then mbProceed c m s else s
        | _, _, _ => s)
      | none => s) { s with sroom := { s.sroom with dcSeq := max s.sroom.dcSeq n } }
  | .epoch _ => s

/-- JOURNAL_PAGE_PROGRAMMED: the oldest page is in flash, and what waited for its records goes on (R228). -/
def execJournalPageProgrammed (s : State) : Out :=
  .next (
    match s.sroom.pages with
    | [] => s
    | pg :: rest =>
      if !(sroomUp s) then s else mbPoll (pg.foldl journalled { s with sroom := { s.sroom with pages := rest } }))

end Sys2Proof.Machine
end

