-- ==== Sys2Proof/Machine/MemoryOps.lean ====
section
/-! DEFINITION. The load, store and atomic instructions of Windlass (05 Loads, stores and atomics). -/

namespace Sys2Proof.Machine

/-- A near load of n bytes at (rA + sx(IMM8)) mod 2^24 (R137, R147). -/
def nearLoad (th : ThreadId) (a : RegField) (imm : BitVec 8) (n : Nat) (ok : Bool) (dest : LoadDest) (s : State) : Out :=
  .next (memInstr th (fun r => if ok then .ok (.load (nearVa r (eaNear r a imm)) n dest) else .error excIllegal) s)

/-- In user mode a near store to offsets 0x00 to 0xFF is refused, whatever the page grants (R139). -/
def nearWritable (r : Arch) (ea : Word) : Bool := sysMode r || decide (256 ≤ ea.toNat)

/-- A near store of the low n bytes of a value (R137, R139, R147). -/
def nearStore (th : ThreadId) (a : RegField) (imm : BitVec 8) (n : Nat) (ok : Bool) (v : Arch → Nat) (s : State) : Out :=
  .next (memInstr th (fun r =>
    let va := nearVa r (eaNear r a imm)
    if !ok then .error excIllegal
    else if !(nearWritable r (eaNear r a imm)) then .error (excStore 2 va)
    else .ok (.store va (toLe n (v r)))) s)

/-- A far load of n bytes at (pair(A) + rB) mod 2^48 (R138, R147). -/
def farLoad (th : ThreadId) (a b : RegField) (n : Nat) (ok : Bool) (dest : LoadDest) (s : State) : Out :=
  .next (memInstr th (fun r => if ok && pairOk a then .ok (.load (eaFar r a b).toNat n dest) else .error excIllegal) s)

/-- A far store of the low n bytes of a value (R138, R147). -/
def farStore (th : ThreadId) (a b : RegField) (n : Nat) (ok : Bool) (v : Arch → Nat) (s : State) : Out :=
  .next (memInstr th (fun r => if ok && pairOk a then .ok (.store (eaFar r a b).toNat (toLe n (v r))) else .error excIllegal) s)

/-- An atomic on a word: near ea := rA, or far ea := pair(A) (R139, R148). -/
def amoWord (th : ThreadId) (d a b : RegField) (far : Bool) (fn : AmoFn) (s : State) : Out :=
  .next (memInstr th (fun r =>
    if far && !(pairOk a) then .error excIllegal
    else if !far && !(nearWritable r (rd r a)) then .error (excStore 2 (nearVa r (rd r a)))
    else .ok (.amo fn (if far then (rdPair r a).toNat else nearVa r (rd r a)) 3 d (rd r d).toNat (rd r b).toNat)) s)

/-- An atomic on a 48-bit pair (R139, R148). -/
def amoPair (th : ThreadId) (d a b : RegField) (far : Bool) (fn : AmoFn) (s : State) : Out :=
  .next (memInstr th (fun r =>
    if (far && !(pairOk a)) || !(pairOk d) || !(pairOk b) then .error excIllegal
    else if !far && !(nearWritable r (rd r a)) then .error (excStore 2 (nearVa r (rd r a)))
    else .ok (.amo fn (if far then (rdPair r a).toNat else nearVa r (rd r a)) 6 d (rdPair r d).toNat (rdPair r b).toNat)) s)

/-- LB (R147). -/
def execLb (th : ThreadId) (d a : RegField) (imm : BitVec 8) (s : State) : Out := nearLoad th a imm 1 true (.reg d true) s
/-- LBU (R147). -/
def execLbu (th : ThreadId) (d a : RegField) (imm : BitVec 8) (s : State) : Out := nearLoad th a imm 1 true (.reg d false) s
/-- LH (R147). -/
def execLh (th : ThreadId) (d a : RegField) (imm : BitVec 8) (s : State) : Out := nearLoad th a imm 2 true (.reg d true) s
/-- LHU (R147). -/
def execLhu (th : ThreadId) (d a : RegField) (imm : BitVec 8) (s : State) : Out := nearLoad th a imm 2 true (.reg d false) s
/-- LW (R147). -/
def execLw (th : ThreadId) (d a : RegField) (imm : BitVec 8) (s : State) : Out := nearLoad th a imm 3 true (.reg d false) s
/-- LP (R147). -/
def execLp (th : ThreadId) (d a : RegField) (imm : BitVec 8) (s : State) : Out := nearLoad th a imm 6 (pairOk d) (.pair d) s
/-- FLD (R147). -/
def execFld (th : ThreadId) (d a : RegField) (imm : BitVec 8) (s : State) : Out := nearLoad th a imm 8 true (.freg d) s
/-- FLS (R147). -/
def execFls (th : ThreadId) (d a : RegField) (imm : BitVec 8) (s : State) : Out := nearLoad th a imm 4 true (.freg d) s
/-- SB (R147). -/
def execSb (th : ThreadId) (d a : RegField) (imm : BitVec 8) (s : State) : Out := nearStore th a imm 1 true (fun r => (rd r d).toNat) s
/-- SH (R147). -/
def execSh (th : ThreadId) (d a : RegField) (imm : BitVec 8) (s : State) : Out := nearStore th a imm 2 true (fun r => (rd r d).toNat) s
/-- SW (R147). -/
def execSw (th : ThreadId) (d a : RegField) (imm : BitVec 8) (s : State) : Out := nearStore th a imm 3 true (fun r => (rd r d).toNat) s
/-- SP (R147). -/
def execSp (th : ThreadId) (d a : RegField) (imm : BitVec 8) (s : State) : Out := nearStore th a imm 6 (pairOk d) (fun r => (rdPair r d).toNat) s
/-- FSD (R147). -/
def execFsd (th : ThreadId) (d a : RegField) (imm : BitVec 8) (s : State) : Out := nearStore th a imm 8 true (fun r => (rdF r d).toNat) s
/-- FSS (R147). -/
def execFss (th : ThreadId) (d a : RegField) (imm : BitVec 8) (s : State) : Out := nearStore th a imm 4 true (fun r => (rdF32 r d).toNat) s
/-- LBF (R147). -/
def execLbf (th : ThreadId) (d a b : RegField) (s : State) : Out := farLoad th a b 1 true (.reg d true) s
/-- LBUF (R147). -/
def execLbuf (th : ThreadId) (d a b : RegField) (s : State) : Out := farLoad th a b 1 true (.reg d false) s
/-- LHF (R147). -/
def execLhf (th : ThreadId) (d a b : RegField) (s : State) : Out := farLoad th a b 2 true (.reg d true) s
/-- LHUF (R147). -/
def execLhuf (th : ThreadId) (d a b : RegField) (s : State) : Out := farLoad th a b 2 true (.reg d false) s
/-- LWF (R147). -/
def execLwf (th : ThreadId) (d a b : RegField) (s : State) : Out := farLoad th a b 3 true (.reg d false) s
/-- LPF (R147). -/
def execLpf (th : ThreadId) (d a b : RegField) (s : State) : Out := farLoad th a b 6 (pairOk d) (.pair d) s
/-- FLDF (R147). -/
def execFldf (th : ThreadId) (d a b : RegField) (s : State) : Out := farLoad th a b 8 true (.freg d) s
/-- FLSF (R147). -/
def execFlsf (th : ThreadId) (d a b : RegField) (s : State) : Out := farLoad th a b 4 true (.freg d) s
/-- SBF (R147). -/
def execSbf (th : ThreadId) (d a b : RegField) (s : State) : Out := farStore th a b 1 true (fun r => (rd r d).toNat) s
/-- SHF (R147). -/
def execShf (th : ThreadId) (d a b : RegField) (s : State) : Out := farStore th a b 2 true (fun r => (rd r d).toNat) s
/-- SWF (R147). -/
def execSwf (th : ThreadId) (d a b : RegField) (s : State) : Out := farStore th a b 3 true (fun r => (rd r d).toNat) s
/-- SPF (R147). -/
def execSpf (th : ThreadId) (d a b : RegField) (s : State) : Out := farStore th a b 6 (pairOk d) (fun r => (rdPair r d).toNat) s
/-- FSDF (R147). -/
def execFsdf (th : ThreadId) (d a b : RegField) (s : State) : Out := farStore th a b 8 true (fun r => (rdF r d).toNat) s
/-- FSSF (R147). -/
def execFssf (th : ThreadId) (d a b : RegField) (s : State) : Out := farStore th a b 4 true (fun r => (rdF32 r d).toNat) s
/-- AMOADD (R148). -/
def execAmoadd (th : ThreadId) (d a b : RegField) (s : State) : Out := amoWord th d a b false .add s
/-- AMOSWAP (R148). -/
def execAmoswap (th : ThreadId) (d a b : RegField) (s : State) : Out := amoWord th d a b false .swap s
/-- AMOCAS (R148). -/
def execAmocas (th : ThreadId) (d a b : RegField) (s : State) : Out := amoWord th d a b false .cas s
/-- AMOMIN (R148). -/
def execAmomin (th : ThreadId) (d a b : RegField) (s : State) : Out := amoWord th d a b false .min s
/-- AMOMAX (R148). -/
def execAmomax (th : ThreadId) (d a b : RegField) (s : State) : Out := amoWord th d a b false .max s
/-- AMOP_ADD (R148). -/
def execAmopAdd (th : ThreadId) (d a b : RegField) (s : State) : Out := amoPair th d a b false .add s
/-- AMOP_SWAP (R148). -/
def execAmopSwap (th : ThreadId) (d a b : RegField) (s : State) : Out := amoPair th d a b false .swap s
/-- AMOP_CAS (R148). -/
def execAmopCas (th : ThreadId) (d a b : RegField) (s : State) : Out := amoPair th d a b false .cas s
/-- AMOP_MIN (R148). -/
def execAmopMin (th : ThreadId) (d a b : RegField) (s : State) : Out := amoPair th d a b false .min s
/-- AMOP_MAX (R148). -/
def execAmopMax (th : ThreadId) (d a b : RegField) (s : State) : Out := amoPair th d a b false .max s
/-- AMOF_ADD (R148). -/
def execAmofAdd (th : ThreadId) (d a b : RegField) (s : State) : Out := amoWord th d a b true .add s
/-- AMOF_SWAP (R148). -/
def execAmofSwap (th : ThreadId) (d a b : RegField) (s : State) : Out := amoWord th d a b true .swap s
/-- AMOF_CAS (R148). -/
def execAmofCas (th : ThreadId) (d a b : RegField) (s : State) : Out := amoWord th d a b true .cas s
/-- AMOF_MIN (R148). -/
def execAmofMin (th : ThreadId) (d a b : RegField) (s : State) : Out := amoWord th d a b true .min s
/-- AMOF_MAX (R148). -/
def execAmofMax (th : ThreadId) (d a b : RegField) (s : State) : Out := amoWord th d a b true .max s
/-- AMOPF_ADD (R148). -/
def execAmopfAdd (th : ThreadId) (d a b : RegField) (s : State) : Out := amoPair th d a b true .add s
/-- AMOPF_SWAP (R148). -/
def execAmopfSwap (th : ThreadId) (d a b : RegField) (s : State) : Out := amoPair th d a b true .swap s
/-- AMOPF_CAS (R148). -/
def execAmopfCas (th : ThreadId) (d a b : RegField) (s : State) : Out := amoPair th d a b true .cas s
/-- AMOPF_MIN (R148). -/
def execAmopfMin (th : ThreadId) (d a b : RegField) (s : State) : Out := amoPair th d a b true .min s
/-- AMOPF_MAX (R148). -/
def execAmopfMax (th : ThreadId) (d a b : RegField) (s : State) : Out := amoPair th d a b true .max s

end Sys2Proof.Machine
end

