-- ==== Sys2Proof/Machine/RegOps.lean ====
section
/-! DEFINITION. Writes to registers that have no row of their own, reads that clear counters, and the test port (13 to 16, 18, 20). -/

namespace Sys2Proof.Machine

/-! The mailbox page (R452 to R457). -/

/-- A write of the mailbox page is ignored while BUSY, and counted (R454). -/
def mbIgnored (s : State) (p : Port) : State := let b := mailOf s p; setMail s p { b with ignored := satInc b.ignored 255 }

/-- Bytes of host memory as the Pilot reads them for a request (R457; log entry 8). -/
def hostBytes (s : State) (a n : Nat) : List Byte := (List.range n).map (fun i => hostByteNow s (a + i))

/-- What the walk of a DMA list has found: the IN bytes, the OUT segments, and the entry that failed (R457). -/
structure DmaWalk where
  body : List Byte := []
  outs : List OutSeg := []
  fail : Option Nat := none

/-- Walk the entries of a DMA list from entry i on, k entries at most (R457, R459 check 5). -/
def dmaWalk (s : State) (p : Port) (base : Nat) : Nat → Nat → DmaWalk → DmaWalk
  | 0, i, w => { w with fail := some (i - 1) }
  | k + 1, i, w =>
    let e := hostBytes s (base + 16 * i) 16
    let a := fieldLe e 0 8
    let len := fieldLe e 8 4
    let ctl := fieldLe e 12 4
    if !(pilotDma s p (base + 16 * i) 16) ∨ len = 0 ∨ 16777216 < len ∨ bitsOf ctl 30 1 ≠ 0 ∨ (!(bitOf ctl 0) ∧ !(pilotDma s p a len)) then { w with fail := some i }
    else
      let w := if bitOf ctl 0 then { w with outs := w.outs ++ [{ entry := i, addr := BitVec.ofNat 64 a, len := len }] } else { w with body := w.body ++ hostBytes s a len }
      if bitOf ctl 31 then w else dmaWalk s p base k (i + 1) w

/-- The opcode and the request that the buffer of a mailbox holds (R455, R457). -/
def mbRequest (s : State) (p : Port) : Nat × MbReq :=
  let b := mailOf s p
  let h := readBytes b.buf 0 4096
  let dma := bitOf (fieldLe h 2 2) 0
  let len := fieldLe h 8 4
  let w := if dma then dmaWalk s p (b.iovaHi * 2 ^ 32 + fieldLe h 12 4) 256 0 {} else {}
  let m : MbReq := { port := p, flags := BitVec.ofNat 16 (fieldLe h 2 2), tag := BitVec.ofNat 32 (fieldLe h 4 4), length := BitVec.ofNat 32 len,
                     dmaLo := BitVec.ofNat 32 (fieldLe h 12 4), body := if dma then w.body else slice h 16 (min len 4080),
                     dmaFail := w.fail, outs := w.outs }
  (fieldLe h 0 2, m)

/-- A command that no row defines: MB_BAD_OPCODE after the header (R459 check 2). -/
def mbUnknown (s : State) (op : Nat) (m : MbReq) : State :=
  match mbHeaderBad m op with
  | some o => mbRefuse s m 0x0806 o
  | none => mbRefuse s m 0x0801 0

/-- GO (R452 to R454). -/
def goWrite (s : State) (p : Port) : State :=
  let x := mbRequest s p
  let s := { s with freeCtr := s.freeCtr + 1 }
  match mbFind x.1 with
  | some c => mbGo c x.2 s
  | none =>
    let b := mailOf s p
    if b.st = 0 then setMail s p { b with resp := some { status := 0x0808, tag := x.2.tag.toNat } }
    else
      let s := arrive (touchPort s p) (0xF12 + p.num) p.num false
      if b.st = 2 then mbIgnored s p
      else if !(pilotUp s) then mbBusy s p { opcode := x.1, tag := x.2.tag.toNat, since := nowNs s, req := some x.2 }
      else mbUnknown s x.1 x.2

/-- A write to the mailbox page of PF0 (R378, R452, R454). -/
def mailWrite (s : State) (p : Port) (off size v : Nat) : State :=
  let b := mailOf s p
  if off < 0x1000 then
    (if b.st = 2 then mbIgnored s p
     else setMail s p { b with buf := writeBytes b.buf off (toLe (min size (0x1000 - off)) v) })
  else if size ≠ 4 then s
  else if off = 0x2000 then (if bitOf v 0 then goWrite s p else s)
  else if off = 0x2008 then setMail s p { b with irqEn := bitOf v 0 }
  else if off = 0x200C then (if b.st = 2 then mbIgnored s p else setMail s p { b with iovaHi := v })
  else s

/-! MSI-X tables (R53, R367, R378, R379, R404). -/

/-- A 4-byte write of an entry: its address, its data, or its vector control with the mask in bit 0; clearing the mask sends a held
message (R367). -/
def msixWrite (m : Msix) (field v : Nat) : Msix :=
  match field with
  | 0 => { m with addr := m.addr / 2 ^ 32 * 2 ^ 32 + v }
  | 1 => { m with addr := m.addr % 2 ^ 32 + v * 2 ^ 32 }
  | 2 => { m with data := v }
  | _ => if bitOf v 0 then { m with masked := true } else { m with masked := false, held := false, sent := if m.held then m.sent + 1 else m.sent }

/-- A write to the table: one field, or an aligned pair of fields (size 8). -/
def msixPut (t : Table Msix) (off size v : Nat) : Table Msix :=
  let e := off / 16
  let m := tget {} t e
  let f := off / 4 % 4
  if off % 4 = 0 ∧ size = 4 then tset {} t e (msixWrite m f v)
  else if off % 8 = 0 ∧ size = 8 then tset {} t e (msixWrite (msixWrite m f (v % 2 ^ 32)) (f + 1) (v / 2 ^ 32))
  else t

/-! Event registers and pier registers (R201, R358, R363). -/

/-- EVT_COAL of a source: TIME_TH and COUNT_TH, 0 stored as 1 (R358). -/
def coalWrite (s : State) (src v : Nat) : State :=
  if srcDefined src then setSrc s src { srcOf s src with timeTh := max 1 (bitsOf v 23 12), countTh := max 1 (bitsOf v 7 0) } else s

/-- A write into the Lighthouse's block (R358, R475): EVT_CTL, EVT_STAT and EVT_POST have rows of their own. -/
def lighthouseWrite (s : State) (off size v : Nat) : State :=
  if 0x10000 ≤ off ∧ off < 0x20000 ∧ off % 16 = 4 ∧ size = 4 then coalWrite s ((off - 0x10000) / 16) v else s

/-- A write through PF0 BAR0 (R378, R475): every register but the mailbox page, the MSI-X table and the event registers is
read-only. -/
def pfWrite (s : State) (p : Port) (off size v : Nat) : State :=
  if off < 0x3000 then (if mailMmio s p then mailWrite s p off size v else s)
  else if 0xA10000 ≤ off ∧ off < 0xA50000 then (if evtWriter s (some p) then lighthouseWrite (touchPort s p) (off - 0xA10000) size v else s)
  else if 0x1800000 ≤ off ∧ off < 0x1800210 ∧ pfMmio s p then
    let s := touchPort s p
    setPort s p { portOf s p with msix := msixPut (portOf s p).msix (off - 0x1800000) size v }
  else s

/-- A write through VF BAR0 (R32, R379): the dock window and the MSI-X table. A change of the table outside RUN is
security-relevant (R404). -/
def vfWrite (s : State) (p : Port) (t : Nat) (off size v : Nat) : State :=
  if !(vfMmio s p t) then s
  else
    let s := touchPort s p
    if 0x40000 ≤ off ∧ off < 0x80000 then
      let x := tenantOf s t
      setTenant s t { x with dock := writeBytes x.dock (off - 0x40000) (toLe (min size (0x80000 - off)) v) }
    else if 0x3000 ≤ off ∧ off < 0x3110 then
      let x := vfOf s p t
      let s := setVf s p t { x with msix := msixPut x.msix (off - 0x3000) size v }
      if x.tdisp = .locked then tdiError s p t else s
    else s

/-- A write by the berth runtime through DEVICE mappings (R201, R358, R363). -/
def deviceWrite (s : State) (island off size v : Nat) : State :=
  if island = islLighthouse then (if evtWriter s none then lighthouseWrite s off size v else s)
  else
    match (List.finRange 16).find? (fun (a : PierId) => decide (islPier a.val = island)) with
    | some a => if pierWrite s a ∧ off = 0x60 ∧ size = 4 then setPier s a.val { pierOf s a.val with evqBase := v } else s
    | none => s

/-! Configuration space (R368, R382, R395, R398, R400, R404). -/

/-- A configuration write is carried out: the link is up, and service or the Slipway has begun (R425). -/
def cfgUp (s : State) (p : Port) : Bool :=
  (portOf s p).link && !(portOf s p).crs && (awake s || decide (s.dev.st = .slipway))

/-- A VF answers configuration writes: it exists, and the Slipway does not hold (R382, R448). -/
def vfCfg (s : State) (p : Port) (t : Nat) : Bool :=
  cfgUp s p && awake s && (portOf s p).vfEnable && decide (t < (portOf s p).numVFs)

/-- A path of a VF comes or goes after a change of its configuration (R89 to R91, R382). -/
def pathChange (s : State) (p : Port) (t : Nat) : State := if vfInServiceB s p t then pathBack s t else pathLost s t

/-- Bus Master Enable (R382); a change on a locked or running TDI is security-relevant (R404). -/
def busMaster (s : State) (p : Port) (f : FnSel) (b : Bool) : State :=
  match f with
  | .pf0 =>
    if !(cfgUp s p) then s
    else
      let s := setPort s p { portOf s p with bme := b }
      let s := (List.range 32).foldl (fun s n => drainEq (getEq s (.pf p n)).waiting.length s (.pf p n)) s
      (List.range 4).foldl (fun s b => hostSend s b (ledgerOf s b).hostWait.length) s
  | .vf t =>
    let v := vfOf s p t.val
    if !(vfCfg s p t.val) ∨ v.bme = b then s
    else
      let s := setVf s p t.val { v with bme := b }
      if v.tdisp = .locked ∨ v.tdisp = .run then tdiError s p t.val else pathChange s p t.val

/-- Tenants placed on a port within a number of VFs. -/
def tenantsOn (s : State) (p : Port) (n : Nat) : List Nat := (s.tenants.filter (fun e => bitOf e.2.ports p.num && decide (e.1 < n))).map (·.1)

/-- VF Memory Space Enable (R382); a change is security-relevant for every locked or running TDI (R404). -/
def vfMseWrite (s : State) (p : Port) (b : Bool) : State :=
  if !(cfgUp s p) ∨ !(awake s) ∨ (portOf s p).vfMse = b then s
  else
    let s := setPort s p { portOf s p with vfMse := b }
    (tenantsOn s p 1024).foldl (fun s t =>
      let v := vfOf s p t
      if v.tdisp = .locked ∨ v.tdisp = .run then tdiError s p t else pathChange s p t) s

/-- VF Enable with NumVFs (R382): VFs are added, or removed as by FLR (R391). -/
def vfEnableWrite (s : State) (p : Port) (n : Nat) : State :=
  let q := portOf s p
  if !(cfgUp s p) ∨ !(awake s) ∨ 1024 < n then s
  else if n < q.numVFs then
    let s := (tenantsOn s p q.numVFs).foldl (fun s t => if n ≤ t then flrEffect s p t else s) s
    portLost (setPort s p { portOf s p with vfEnable := decide (n ≠ 0), numVFs := n }) p
  else portBack (setPort s p { q with vfEnable := decide (n ≠ 0), numVFs := n }) p

/-- PME_Status is cleared by writing 1 (R368). -/
def pmeStatusWrite (s : State) (p : Port) (f : FnSel) (b : Bool) : State :=
  match f with
  | .pf0 => if cfgUp s p ∧ b then setPort s p { portOf s p with pmeStatus := false } else s
  | .vf t => if vfCfg s p t.val ∧ b then setVf s p t.val { vfOf s p t.val with pmeStatus := false } else s

/-- ATS Enable (R400). -/
def atsWrite (s : State) (p : Port) (f : FnSel) (b : Bool) : State :=
  match f with
  | .pf0 => if cfgUp s p then setPort s p { portOf s p with ats := b } else s
  | .vf t => if vfCfg s p t.val then setVf s p t.val { vfOf s p t.val with ats := b } else s

/-- ASPM L1 enable (R398). -/
def aspmWrite (s : State) (p : Port) (b : Bool) : State :=
  if cfgUp s p then setPort s p { portOf s p with aspmEn := b, l1 := (portOf s p).l1 && b } else s

/-- REGISTER_WRITE: a register that has no row of its own; reserved bits stay 0 (R9). -/
def execRegisterWrite (r : RegTarget) (size : Nat) (v : BitVec 64) (s : State) : Out :=
  .next (
    let n := v.toNat % 256 ^ size
    match r with
    | .pfBar p off => pfWrite s p off.toNat size n
    | .vfBar p t off => vfWrite s p t.val off.toNat size n
    | .device island off => deviceWrite s island.toNat off.toNat size n
    | .cfgBusMaster p f => busMaster s p f (v.getLsbD 0)
    | .cfgVfMse p => vfMseWrite s p (v.getLsbD 0)
    | .cfgVfEnable p => vfEnableWrite s p v.toNat
    | .cfgPmeStatus p f => pmeStatusWrite s p f (v.getLsbD 0)
    | .cfgAts p f => atsWrite s p f (v.getLsbD 0)
    | .cfgAspm p => aspmWrite s p (v.getLsbD 0))

/-- RC_READ: MB_STATUS.IGNORED, ISLAND_CLOCK.STRETCH, and OVERRUN, DISAGREE and DROPS of XING_STATUS clear on a read through PF
BAR0 (R420, R452, R475). -/
def execRcRead (p : Port) (off : BitVec 25) (s : State) : Out :=
  .next (
    let o := off.toNat
    if !(mailMmio s p) then s
    else if o = 0x2004 then setMail s p { mailOf s p with ignored := 0 }
    else
      let n := (o - 0x100000) / 0x4000
      if o < 0x100000 ∨ !(islExists n) ∨ !(pfMmio s p) then s
      else
        let i := islandOf s n
        let k := (o - 0x100000) % 0x4000
        if k = 4 then setIsland s n { i with stretch := 0 }
        else if k = 8 then setIsland s n { i with overrun := false, disagree := 0, drops := 0 }
        else s)

/-! An empty queue. -/

/-- The harbour clock advances by a tick, the Pilot goes on with what waits, and the roadstead sends what it can (log entry 2). -/
def idle (s : State) : State := pumpRoad (mbPoll (tick s))

/-! The test port (R495). -/

/-- The IEEE 1149.1 controller at a rising edge of TCK (R495; log entry 10). -/
def tapNext (t : Tap) (tms : Bool) : Tap :=
  match t, tms with
  | .testLogicReset, true => .testLogicReset
  | .testLogicReset, false => .runTestIdle
  | .runTestIdle, true => .selectDr
  | .runTestIdle, false => .runTestIdle
  | .selectDr, true => .selectIr
  | .selectDr, false => .captureDr
  | .captureDr, true => .exit1Dr
  | .captureDr, false => .shiftDr
  | .shiftDr, true => .exit1Dr
  | .shiftDr, false => .shiftDr
  | .exit1Dr, true => .updateDr
  | .exit1Dr, false => .pauseDr
  | .pauseDr, true => .exit2Dr
  | .pauseDr, false => .pauseDr
  | .exit2Dr, true => .updateDr
  | .exit2Dr, false => .shiftDr
  | .updateDr, true => .selectDr
  | .updateDr, false => .runTestIdle
  | .selectIr, true => .testLogicReset
  | .selectIr, false => .captureIr
  | .captureIr, true => .exit1Ir
  | .captureIr, false => .shiftIr
  | .shiftIr, true => .exit1Ir
  | .shiftIr, false => .shiftIr
  | .exit1Ir, true => .updateIr
  | .exit1Ir, false => .pauseIr
  | .pauseIr, true => .exit2Ir
  | .pauseIr, false => .pauseIr
  | .exit2Ir, true => .updateIr
  | .exit2Ir, false => .shiftIr
  | .updateIr, true => .selectDr
  | .updateIr, false => .runTestIdle

/-- TCK_EDGE: before PROVISIONED the controller moves; from PROVISIONED onward it stays in Test-Logic-Reset (R495). The test port
works while its domain is powered. The data registers behind TDI are not described. -/
def execTckEdge (tms _tdi : Bool) (s : State) : Out :=
  .next { s with tap := if s.otp.lifecycle = 0 ∧ s.dev.pwrCore ∧ !s.dev.thermTrip then tapNext s.tap tms else .testLogicReset }

end Sys2Proof.Machine
end

