-- ==== Sys2Proof/Machine/SpdmOps.lean ====
section
/-! DEFINITION. The SPDM responder: its messages, measurements and sessions, and IDE_KM and TDISP inside them (R303 to R307, R402 to
R405). Codes and field layouts of the messages are those of SPDM 1.2, IDE_KM and TDISP 1.0 (PRESUMED, log entry 37). -/

namespace Sys2Proof.Machine

/-- The responder of a port, and its replacement. -/
def spdmOf (s : State) (p : Port) : Spdm := tget {} s.spdm p.num
def setSpdm (s : State) (p : Port) (v : Spdm) : State := { s with spdm := tset {} s.spdm p.num v }

/-- The DOE mailbox of a port answers: the Harbour is in service, its Pilot runs, and PF0 is reached (R306, R307). -/
def doeUp (s : State) (p : Port) : Bool := running s && !(islandOf s islPilot).reset && (portOf s p).link && decide ((portOf s p).dstate = .d0)

/-- A response with its code; what was asked and answered joins the transcript. -/
def spdmAnswer (s : State) (r : SpdmReq) (code : Nat) (body : List Byte) : State :=
  let v := spdmOf s r.port
  setSpdm s r.port { v with resp := some (code, body), transcript := v.transcript ++ r.params ++ body }

/-- An ERROR response with its error code. -/
def spdmError (s : State) (r : SpdmReq) (code : Nat) : State := setSpdm s r.port { spdmOf s r.port with resp := some (0x7F, toLe 1 code) }

/-- A message of a port is taken: where it names a session, that session is established. -/
def spdmTake (s : State) (r : SpdmReq) (go : State → State) : State :=
  if !(doeUp s r.port) then s
  else match r.session with
    | none => go s
    | some k =>
      match mget (spdmOf s r.port).sessions k.val with
      | some x =>
        if x.st = .established then
          let v := spdmOf s r.port
          go (setSpdm s r.port { v with sessions := mset v.sessions k.val { x with heard := nowNs s } })
        else spdmError s r 0x04
      | none => spdmError s r 0x02

/-- Slot 0 holds the vendor chain (R304, R306). -/
def slot0 : Bool := chainFault.isNone

/-- The hash of the certificate chain of slot 0. -/
def chainDigest : List Byte := sm3Bytes Config.vendorChain

/-- The identity key signs; in DECOMMISSIONED it is not derived (R303, R305). -/
def canSign (s : State) : Bool := decide (s.otp.lifecycle ≠ 3)

/-- A signature over a transcript, with its per-message secret (R303). -/
def spdmSign (s : State) (r : SpdmReq) (body : List Byte) : List Byte :=
  toBe 64 (Config.identitySignature ((spdmOf s r.port).transcript ++ r.params ++ body) s.freeCtr).toNat

/-- GET_VERSION: 1.2 alone; it begins a connection (R306). -/
def execGetVersion (r : SpdmReq) (s : State) : Out :=
  .next (
    if !(doeUp s r.port) then s
    else spdmAnswer (setSpdm s r.port { spdmOf s r.port with conn := 1, transcript := [] }) r 0x04 ([1] ++ toLe 2 0x1200))

/-- GET_CAPABILITIES: CERT, CHAL, MEAS (signed), MEAS_FRESH, ENCRYPT, MAC, KEY_EX, HBEAT, KEY_UPD (R306). -/
def execGetCapabilities (r : SpdmReq) (s : State) : Out :=
  .next (spdmTake s r (fun s =>
    let v := spdmOf s r.port
    if v.conn ≠ 1 then spdmError s r 0x04 else spdmAnswer (setSpdm s r.port { v with conn := 2 }) r 0x61 (toLe 4 0x62F6)))

/-- NEGOTIATE_ALGORITHMS: of the algorithms offered, SM2, SM3, SM2_P256, and AES_256_GCM before SM4_GCM (R306). Parameters: u32
BaseAsymAlgo, u32 BaseHashAlgo, u16 DHE, u16 AEAD. -/
def execNegotiateAlgorithms (r : SpdmReq) (s : State) : Out :=
  .next (spdmTake s r (fun s =>
    let v := spdmOf s r.port
    let f (off n : Nat) : Nat := fieldLe r.params off n
    if v.conn ≠ 2 then spdmError s r 0x04
    else if !(bitOf (f 0 4) 9) ∨ !(bitOf (f 4 4) 6) then spdmError s r 0x01
    else
      let aead := if bitOf (f 10 2) 1 then 2 else if bitOf (f 10 2) 3 then 8 else 0
      spdmAnswer (setSpdm s r.port { v with conn := 3, aead := aead }) r 0x63
        (toLe 4 512 ++ toLe 4 64 ++ toLe 4 64 ++ toLe 2 (if bitOf (f 8 2) 6 then 64 else 0) ++ toLe 2 aead)))

/-- After the negotiation only. -/
def spdmReady (s : State) (r : SpdmReq) (go : State → State) : State :=
  spdmTake s r (fun s => if (spdmOf s r.port).conn ≠ 3 then spdmError s r 0x04 else go s)

/-- GET_DIGESTS: slot 0 alone, empty where the chain fails its checks (R304, R306). -/
def execGetDigests (r : SpdmReq) (s : State) : Out :=
  .next (spdmReady s r (fun s => if slot0 then spdmAnswer s r 0x01 ([1] ++ chainDigest) else spdmAnswer s r 0x01 [0]))

/-- GET_CERTIFICATE: u8 slot, u16 offset, u16 length (R304, R306). -/
def execGetCertificate (r : SpdmReq) (s : State) : Out :=
  .next (spdmReady s r (fun s =>
    let off := fieldLe r.params 1 2
    let n := min (fieldLe r.params 3 2) (Config.vendorChain.length - off)
    if fieldLe r.params 0 1 ≠ 0 ∨ !slot0 ∨ Config.vendorChain.length ≤ off then spdmError s r 0x01
    else spdmAnswer s r 0x02 (toLe 2 n ++ toLe 2 (Config.vendorChain.length - off - n) ++ (Config.vendorChain.drop off).take n)))

/-! Measurements (R307). -/

/-- One measurement in DMTF format: index, value type, value. -/
def measurement (s : State) (i : Nat) : List Byte :=
  let m := manifestOf s.fw.running
  let (ty, v) :=
    if i ≤ 12 then (1, entrySm3 m (i - 1))
    else if i = 13 then (4, sm3Bytes m)
    else (0x82, toLe 1 s.otp.lifecycle ++ (List.range 4).flatMap (fun c => thermometer (levelOf s c)))
  toLe 1 i ++ [1] ++ toLe 2 (v.length + 3) ++ toLe 1 ty ++ toLe 2 v.length ++ v

/-- Every measurement. -/
def measurements (s : State) : List Byte := (List.range 14).flatMap (fun i => measurement s (i + 1))

/-- CHALLENGE: u8 slot, u8 measurement summary type (0 none, 1 or 0xFF all), 32-byte nonce; none is completed in DECOMMISSIONED
(R303, R305, R306). -/
def execChallenge (r : SpdmReq) (s : State) : Out :=
  .next (spdmReady s r (fun s =>
    if fieldLe r.params 0 1 ≠ 0 ∨ !slot0 then spdmError s r 0x01
    else if !(canSign s) then spdmError s r 0x05
    else
      let body := chainDigest ++ randomBytes (s.freeCtr + 1) 32 ++ (if fieldLe r.params 1 1 = 0 then [] else sm3Bytes (measurements s))
      let sig := spdmSign s r body
      spdmAnswer { s with freeCtr := s.freeCtr + 2 } r 0x03 (body ++ sig)))

/-- GET_MEASUREMENTS: u8 attributes (bit 0 signed), u8 operation (0 the count, an index, 0xFF all); Busy while SWITCHING (R307). -/
def execGetMeasurements (r : SpdmReq) (s : State) : Out :=
  .next (spdmReady s r (fun s =>
    let op := fieldLe r.params 1 1
    let signed := bitOf (fieldLe r.params 0 1) 0
    if s.fw.phase = 4 then spdmError s r 0x03
    else if 14 < op ∧ op ≠ 0xFF then spdmError s r 0x01
    else if signed && !(canSign s) then spdmError s r 0x05
    else
      let recs := if op = 0 then [] else if op = 0xFF then measurements s else measurement s op
      let body := toLe 1 (if op = 0 then 14 else 0) ++ toLe 1 (if op = 0 then 0 else if op = 0xFF then 14 else 1) ++ toLe 3 recs.length ++ recs
        ++ randomBytes (s.freeCtr + 1) 32
      spdmAnswer { s with freeCtr := s.freeCtr + 2 } r 0x60 (body ++ (if signed then spdmSign s r body else []))))

/-! Sessions (R306). -/

/-- KEY_EXCHANGE: a free session of the two of the port enters its handshake (R306). -/
def execKeyExchange (r : SpdmReq) (s : State) : Out :=
  .next (spdmReady s r (fun s =>
    let v := spdmOf s r.port
    match [0, 1].find? (fun k => (mget v.sessions k).isNone) with
    | none => spdmError s r 0x0A
    | some k =>
      if !slot0 then spdmError s r 0x01
      else if !(canSign s) ∨ v.aead = 0 then spdmError s r 0x05
      else
        let s := setSpdm s r.port { v with sessions := mset v.sessions k { heard := nowNs s } }
        let body := toLe 2 k ++ randomBytes (s.freeCtr + 1) 96
        let sig := spdmSign s r body
        spdmAnswer { s with freeCtr := s.freeCtr + 2 } r 0x64 (body ++ sig)))

/-- FINISH: the requester's verification data end the handshake, or the session (R306). -/
def execFinish (r : SpdmReq) (s : State) : Out :=
  .next (
    if !(doeUp s r.port) then s
    else
      let v := spdmOf s r.port
      match r.session with
      | none => spdmError s r 0x02
      | some k =>
        match mget v.sessions k.val with
        | none => spdmError s r 0x02
        | some x =>
          if x.st ≠ .handshake then spdmError s r 0x04
          else if Config.finishOk v.transcript r.params then
            spdmAnswer (setSpdm s r.port { v with sessions := mset v.sessions k.val { x with st := .established, heard := nowNs s } }) r 0x65 []
          else spdmError (setSpdm s r.port { v with sessions := mdel v.sessions k.val }) r 0x06)

/-- A message that only a session carries. -/
def inSession (s : State) (r : SpdmReq) (go : Nat → SpdmSession → State → State) : State :=
  spdmTake s r (fun s => match r.session with
    | none => spdmError s r 0x0B
    | some k => match mget (spdmOf s r.port).sessions k.val with
      | some x => go k.val x s
      | none => spdmError s r 0x02)

/-- END_SESSION (R306). -/
def execEndSession (r : SpdmReq) (s : State) : Out :=
  .next (inSession s r (fun k _ s =>
    let v := spdmOf s r.port
    spdmAnswer (setSpdm s r.port { v with sessions := mdel v.sessions k }) r 0x6C []))

/-- KEY_UPDATE: u8 operation, 1 UpdateKey, 2 UpdateAllKeys, 3 VerifyNewKey (R306). -/
def execKeyUpdate (r : SpdmReq) (s : State) : Out :=
  .next (inSession s r (fun k x s =>
    let op := fieldLe r.params 0 1
    let v := spdmOf s r.port
    if op = 0 ∨ 3 < op then spdmError s r 0x01
    else spdmAnswer (setSpdm s r.port { v with sessions := mset v.sessions k { x with updates := if op = 3 then x.updates else x.updates + 1 } }) r 0x69 (toLe 1 op)))

/-- HEARTBEAT of SPDM (R306). -/
def execSpdmHeartbeat (r : SpdmReq) (s : State) : Out := .next (inSession s r (fun _ _ s => spdmAnswer s r 0x68 []))

/-! IDE_KM and TDISP (R402 to R405). -/

/-- Place of a key of a stream: key set in bit 0, direction in bit 1, sub-stream in bits 7:4. -/
def ideKeyAt (n : Nat) : Nat := bitsOf n 7 4 * 4 + n % 4

/-- A key set has the keys of the three sub-streams in both directions. -/
def keysComplete (x : IdeSlot) (set : Nat) : Bool :=
  [0, 1, 2].all (fun sub => [0, 2].all (fun dir => (mget x.keys (sub * 4 + dir + set)).isSome))

/-- An IDE_KM message: object ID, stream slot, key information; KEY_PROG then names the stream's kind and functions, and its key. A
port has at most one link stream (R402). -/
def ideKm (s : State) (r : SpdmReq) : State :=
  let f (off n : Nat) : Nat := fieldLe r.params off n
  let k := r.port.num * 4 + f 2 1
  let x := tget {} s.ide k
  let info := f 3 1
  let otherLink := (List.range 4).any (fun j => j != f 2 1 && (tget {} s.ide (r.port.num * 4 + j)).link)
  if 4 ≤ f 2 1 then spdmError s r 0x01
  else match f 1 1 with
    | 0 => spdmAnswer s r 0x7E ([0, 1] ++ toLe 1 (f 2 1) ++ [4])
    | 2 =>
      if 2 < bitsOf info 7 4 ∨ (f 4 1 = 1 ∧ otherLink) then spdmAnswer s r 0x7E ([0, 3] ++ toLe 1 (f 2 1) ++ [1])
      else
        let x := { x with used := true, link := decide (f 4 1 = 1), first := f 5 2, last := f 7 2, keys := mset x.keys (ideKeyAt info) (slice r.params 9 32) }
        spdmAnswer { s with ide := tset {} s.ide k x } r 0x7E ([0, 3] ++ toLe 1 (f 2 1) ++ [0])
    | 4 =>
      if !(keysComplete x (info % 2)) then spdmError s r 0x01
      else spdmAnswer { s with ide := tset {} s.ide k { x with secure := true } } r 0x7E ([0, 6] ++ toLe 1 (f 2 1))
    | 5 => spdmAnswer { s with ide := tset {} s.ide k { x with secure := false } } r 0x7E ([0, 6] ++ toLe 1 (f 2 1))
    | _ => spdmError s r 0x07

/-- TDISP code of an interface state. -/
def tdispCode : Tdisp → Nat
  | .unlocked => 0
  | .locked => 1
  | .run => 2
  | .error => 3

/-- A TDISP message: message type, and the VF it names; START_INTERFACE_REQUEST carries the nonce of the lock. LOCK and STOP are rows
of their own (R404, R405). -/
def tdispMsg (s : State) (r : SpdmReq) : State :=
  let f (off n : Nat) : Nat := fieldLe r.params off n
  let t := f 2 2
  let v := vfOf s r.port t
  let report := toLe 4 0 ++ toLe 4 0x3000 ++ toLe 4 0x3000 ++ toLe 4 0x1000 ++ toLe 4 0x40000 ++ toLe 4 0x40000
  if 1024 ≤ t then spdmError s r 0x01
  else match f 1 1 with
    | 0x81 => spdmAnswer s r 0x7E [1, 0x01, 0x10]
    | 0x84 => if v.tdisp = .locked ∨ v.tdisp = .run then spdmAnswer s r 0x7E ([1, 0x04] ++ report) else spdmAnswer s r 0x7E [1, 0x7F, 4]
    | 0x85 => spdmAnswer s r 0x7E ([1, 0x05] ++ toLe 1 (tdispCode v.tdisp))
    | 0x86 =>
      if v.tdisp = .locked ∧ slice r.params 4 32 = v.tdiNonce then spdmAnswer (setVf s r.port t { v with tdisp := .run, tdiNonce := [] }) r 0x7E [1, 0x06]
      else spdmAnswer s r 0x7E [1, 0x7F, 4]
    | _ => spdmAnswer s r 0x7E [1, 0x7F, 7]

/-- VENDOR_DEFINED_REQUEST: IDE_KM (protocol 0) or TDISP (protocol 1), inside a secure session (R306, R402, R404). -/
def execVendorDefinedRequest (r : SpdmReq) (s : State) : Out :=
  .next (inSession s r (fun _ _ s =>
    match fieldLe r.params 0 1 with
    | 0 => ideKm s r
    | 1 => tdispMsg s r
    | _ => spdmError s r 0x07))

end Sys2Proof.Machine
end

