-- ==== Sys2Proof/Machine/Dispatch.lean ====
section
/-! DEFINITION. exec: one arm per command, each a direct call of its meaning. -/

namespace Sys2Proof.Machine

def exec (i : Instr) (s : State) : Host.Outcome State Fault Refusal :=
  match i with
  -- Quayside, queues, durability and ledger (02, 03)
  | .slipWrite p t off data => Sys2Proof.Machine.execSlipWrite p t off data s
  | .slippedDescriptorAccept half => Sys2Proof.Machine.execSlippedDescriptorAccept half s
  | .sqTailDoorbell p t sq size v => Sys2Proof.Machine.execSqTailDoorbell p t sq size v s
  | .descriptorFetch t sq => Sys2Proof.Machine.execDescriptorFetch t sq s
  | .descriptorFetchComplete t sq r => Sys2Proof.Machine.execDescriptorFetchComplete t sq r s
  | .eqHeadDoorbell p f eq size v => Sys2Proof.Machine.execEqHeadDoorbell p f eq size v s
  | .chainTail t pool v => Sys2Proof.Machine.execChainTail t pool v s
  | .acceptedRecordStored seq => Sys2Proof.Machine.execAcceptedRecordStored seq s
  | .creditTimeExpiry t sq => Sys2Proof.Machine.execCreditTimeExpiry t sq s
  | .consignmentDispatch th => Sys2Proof.Machine.execConsignmentDispatch th s
  | .sourceReadComplete w r => Sys2Proof.Machine.execSourceReadComplete w r s
  | .commitPoint seq => Sys2Proof.Machine.execCommitPoint seq s
  | .commitReport seq => Sys2Proof.Machine.execCommitReport seq s
  | .builtinJobEnd id => Sys2Proof.Machine.execBuiltinJobEnd id s
  | .mirrorBasinAck basin upTo => Sys2Proof.Machine.execMirrorBasinAck basin upTo s
  | .hostBatchClose basin => Sys2Proof.Machine.execHostBatchClose basin s
  | .hostFlushReadComplete basin r => Sys2Proof.Machine.execHostFlushReadComplete basin r s
  | .deadlineExpiry seq => Sys2Proof.Machine.execDeadlineExpiry seq s
  | .deadlineGraceExpiry th => Sys2Proof.Machine.execDeadlineGraceExpiry th s
  | .replayDecide seq => Sys2Proof.Machine.execReplayDecide seq s
  | .pathWaitExpiry t => Sys2Proof.Machine.execPathWaitExpiry t s
  | .portLinkDown p => Sys2Proof.Machine.execPortLinkDown p s
  | .portLinkUp p => Sys2Proof.Machine.execPortLinkUp p s
  | .quaysideHalfReset half => Sys2Proof.Machine.execQuaysideHalfReset half s
  | .tideBoundary => Sys2Proof.Machine.execTideBoundary s
  | .sealReport basin => Sys2Proof.Machine.execSealReport basin s
  | .tideSigned => Sys2Proof.Machine.execTideSigned s
  | .partitionMapChangeEffect part => Sys2Proof.Machine.execPartitionMapChangeEffect part s
  -- Windlass (05, 06)
  | .illegal th w => Sys2Proof.Machine.execIllegal th w s
  | .add th d a b => Sys2Proof.Machine.execAdd th d a b s
  | .adds th d a b => Sys2Proof.Machine.execAdds th d a b s
  | .addc th d a b => Sys2Proof.Machine.execAddc th d a b s
  | .sub th d a b => Sys2Proof.Machine.execSub th d a b s
  | .subs th d a b => Sys2Proof.Machine.execSubs th d a b s
  | .subb th d a b => Sys2Proof.Machine.execSubb th d a b s
  | .slt th d a b => Sys2Proof.Machine.execSlt th d a b s
  | .sltu th d a b => Sys2Proof.Machine.execSltu th d a b s
  | .and th d a b => Sys2Proof.Machine.execAnd th d a b s
  | .or th d a b => Sys2Proof.Machine.execOr th d a b s
  | .xor th d a b => Sys2Proof.Machine.execXor th d a b s
  | .andn th d a b => Sys2Proof.Machine.execAndn th d a b s
  | .sll th d a b => Sys2Proof.Machine.execSll th d a b s
  | .srl th d a b => Sys2Proof.Machine.execSrl th d a b s
  | .sra th d a b => Sys2Proof.Machine.execSra th d a b s
  | .rol th d a b => Sys2Proof.Machine.execRol th d a b s
  | .mul th d a b => Sys2Proof.Machine.execMul th d a b s
  | .mulh th d a b => Sys2Proof.Machine.execMulh th d a b s
  | .mulhu th d a b => Sys2Proof.Machine.execMulhu th d a b s
  | .mulw th d a b => Sys2Proof.Machine.execMulw th d a b s
  | .mulwu th d a b => Sys2Proof.Machine.execMulwu th d a b s
  | .div th d a b => Sys2Proof.Machine.execDiv th d a b s
  | .divu th d a b => Sys2Proof.Machine.execDivu th d a b s
  | .rem th d a b => Sys2Proof.Machine.execRem th d a b s
  | .remu th d a b => Sys2Proof.Machine.execRemu th d a b s
  | .dadd th d a b => Sys2Proof.Machine.execDadd th d a b s
  | .daddc th d a b => Sys2Proof.Machine.execDaddc th d a b s
  | .dsub th d a b => Sys2Proof.Machine.execDsub th d a b s
  | .dsubb th d a b => Sys2Proof.Machine.execDsubb th d a b s
  | .dcmp th d a b => Sys2Proof.Machine.execDcmp th d a b s
  | .addi th d a imm => Sys2Proof.Machine.execAddi th d a imm s
  | .andi th d a imm => Sys2Proof.Machine.execAndi th d a imm s
  | .ori th d a imm => Sys2Proof.Machine.execOri th d a imm s
  | .xori th d a imm => Sys2Proof.Machine.execXori th d a imm s
  | .slli th d a imm => Sys2Proof.Machine.execSlli th d a imm s
  | .srli th d a imm => Sys2Proof.Machine.execSrli th d a imm s
  | .srai th d a imm => Sys2Proof.Machine.execSrai th d a imm s
  | .slti th d a imm => Sys2Proof.Machine.execSlti th d a imm s
  | .sltui th d a imm => Sys2Proof.Machine.execSltui th d a imm s
  | .lui th d imm => Sys2Proof.Machine.execLui th d imm s
  | .orli th d imm => Sys2Proof.Machine.execOrli th d imm s
  | .lb th d a imm => Sys2Proof.Machine.execLb th d a imm s
  | .lbu th d a imm => Sys2Proof.Machine.execLbu th d a imm s
  | .lh th d a imm => Sys2Proof.Machine.execLh th d a imm s
  | .lhu th d a imm => Sys2Proof.Machine.execLhu th d a imm s
  | .lw th d a imm => Sys2Proof.Machine.execLw th d a imm s
  | .sb th d a imm => Sys2Proof.Machine.execSb th d a imm s
  | .sh th d a imm => Sys2Proof.Machine.execSh th d a imm s
  | .sw th d a imm => Sys2Proof.Machine.execSw th d a imm s
  | .lp th d a imm => Sys2Proof.Machine.execLp th d a imm s
  | .sp th d a imm => Sys2Proof.Machine.execSp th d a imm s
  | .fld th d a imm => Sys2Proof.Machine.execFld th d a imm s
  | .fsd th d a imm => Sys2Proof.Machine.execFsd th d a imm s
  | .fls th d a imm => Sys2Proof.Machine.execFls th d a imm s
  | .fss th d a imm => Sys2Proof.Machine.execFss th d a imm s
  | .lbf th d a b => Sys2Proof.Machine.execLbf th d a b s
  | .lbuf th d a b => Sys2Proof.Machine.execLbuf th d a b s
  | .lhf th d a b => Sys2Proof.Machine.execLhf th d a b s
  | .lhuf th d a b => Sys2Proof.Machine.execLhuf th d a b s
  | .lwf th d a b => Sys2Proof.Machine.execLwf th d a b s
  | .lpf th d a b => Sys2Proof.Machine.execLpf th d a b s
  | .fldf th d a b => Sys2Proof.Machine.execFldf th d a b s
  | .flsf th d a b => Sys2Proof.Machine.execFlsf th d a b s
  | .sbf th d a b => Sys2Proof.Machine.execSbf th d a b s
  | .shf th d a b => Sys2Proof.Machine.execShf th d a b s
  | .swf th d a b => Sys2Proof.Machine.execSwf th d a b s
  | .spf th d a b => Sys2Proof.Machine.execSpf th d a b s
  | .fsdf th d a b => Sys2Proof.Machine.execFsdf th d a b s
  | .fssf th d a b => Sys2Proof.Machine.execFssf th d a b s
  | .amoadd th d a b => Sys2Proof.Machine.execAmoadd th d a b s
  | .amoswap th d a b => Sys2Proof.Machine.execAmoswap th d a b s
  | .amocas th d a b => Sys2Proof.Machine.execAmocas th d a b s
  | .amomin th d a b => Sys2Proof.Machine.execAmomin th d a b s
  | .amomax th d a b => Sys2Proof.Machine.execAmomax th d a b s
  | .amopAdd th d a b => Sys2Proof.Machine.execAmopAdd th d a b s
  | .amopSwap th d a b => Sys2Proof.Machine.execAmopSwap th d a b s
  | .amopCas th d a b => Sys2Proof.Machine.execAmopCas th d a b s
  | .amopMin th d a b => Sys2Proof.Machine.execAmopMin th d a b s
  | .amopMax th d a b => Sys2Proof.Machine.execAmopMax th d a b s
  | .amofAdd th d a b => Sys2Proof.Machine.execAmofAdd th d a b s
  | .amofSwap th d a b => Sys2Proof.Machine.execAmofSwap th d a b s
  | .amofCas th d a b => Sys2Proof.Machine.execAmofCas th d a b s
  | .amofMin th d a b => Sys2Proof.Machine.execAmofMin th d a b s
  | .amofMax th d a b => Sys2Proof.Machine.execAmofMax th d a b s
  | .amopfAdd th d a b => Sys2Proof.Machine.execAmopfAdd th d a b s
  | .amopfSwap th d a b => Sys2Proof.Machine.execAmopfSwap th d a b s
  | .amopfCas th d a b => Sys2Proof.Machine.execAmopfCas th d a b s
  | .amopfMin th d a b => Sys2Proof.Machine.execAmopfMin th d a b s
  | .amopfMax th d a b => Sys2Proof.Machine.execAmopfMax th d a b s
  | .beqz th a off => Sys2Proof.Machine.execBeqz th a off s
  | .bnez th a off => Sys2Proof.Machine.execBnez th a off s
  | .bltz th a off => Sys2Proof.Machine.execBltz th a off s
  | .bgez th a off => Sys2Proof.Machine.execBgez th a off s
  | .bgtz th a off => Sys2Proof.Machine.execBgtz th a off s
  | .blez th a off => Sys2Proof.Machine.execBlez th a off s
  | .bcs th a off => Sys2Proof.Machine.execBcs th a off s
  | .bcc th a off => Sys2Proof.Machine.execBcc th a off s
  | .beq th a b off => Sys2Proof.Machine.execBeq th a b off s
  | .bne th a b off => Sys2Proof.Machine.execBne th a b off s
  | .blt th a b off => Sys2Proof.Machine.execBlt th a b off s
  | .bge th a b off => Sys2Proof.Machine.execBge th a b off s
  | .bltu th a b off => Sys2Proof.Machine.execBltu th a b off s
  | .bgeu th a b off => Sys2Proof.Machine.execBgeu th a b off s
  | .j th off => Sys2Proof.Machine.execJ th off s
  | .callg1 th off => Sys2Proof.Machine.execCallg1 th off s
  | .callg2 th off => Sys2Proof.Machine.execCallg2 th off s
  | .callg3 th off => Sys2Proof.Machine.execCallg3 th off s
  | .jr th d a b => Sys2Proof.Machine.execJr th d a b s
  | .callrg1 th d a b => Sys2Proof.Machine.execCallrg1 th d a b s
  | .callrg2 th d a b => Sys2Proof.Machine.execCallrg2 th d a b s
  | .callrg3 th d a b => Sys2Proof.Machine.execCallrg3 th d a b s
  | .ret th d a b => Sys2Proof.Machine.execRet th d a b s
  | .rets th d a b => Sys2Proof.Machine.execRets th d a b s
  | .callu th d a b => Sys2Proof.Machine.execCallu th d a b s
  | .syscall th d a b => Sys2Proof.Machine.execSyscall th d a b s
  | .yield th d a b => Sys2Proof.Machine.execYield th d a b s
  | .mfs th d sel => Sys2Proof.Machine.execMfs th d sel s
  | .mts th d sel => Sys2Proof.Machine.execMts th d sel s
  | .waitcp th d a b => Sys2Proof.Machine.execWaitcp th d a b s
  | .rdtime th d a b => Sys2Proof.Machine.execRdtime th d a b s
  | .tlbinv th d a b => Sys2Proof.Machine.execTlbinv th d a b s
  | .fence th d a b => Sys2Proof.Machine.execFence th d a b s
  | .fenceLl th d a b => Sys2Proof.Machine.execFenceLl th d a b s
  | .fenceSs th d a b => Sys2Proof.Machine.execFenceSs th d a b s
  | .moor th d a b => Sys2Proof.Machine.execMoor th d a b s
  | .storeCompletion th id r => Sys2Proof.Machine.execStoreCompletion th id r s
  | .moorTimerExpiry th => Sys2Proof.Machine.execMoorTimerExpiry th s
  | .uncachedAdoptionTimeout th => Sys2Proof.Machine.execUncachedAdoptionTimeout th s
  | .commit th d a b => Sys2Proof.Machine.execCommit th d a b s
  | .abort th d a b => Sys2Proof.Machine.execAbort th d a b s
  | .dclean th d a b => Sys2Proof.Machine.execDclean th d a b s
  | .dinv th d a b => Sys2Proof.Machine.execDinv th d a b s
  | .dclinv th d a b => Sys2Proof.Machine.execDclinv th d a b s
  | .iinv th d a b => Sys2Proof.Machine.execIinv th d a b s
  | .rclean th d a b => Sys2Proof.Machine.execRclean th d a b s
  | .rinv th d a b => Sys2Proof.Machine.execRinv th d a b s
  | .clock th d a b => Sys2Proof.Machine.execClock th d a b s
  | .cunlock th d a b => Sys2Proof.Machine.execCunlock th d a b s
  | .faddD th d a b => Sys2Proof.Machine.execFaddD th d a b s
  | .fsubD th d a b => Sys2Proof.Machine.execFsubD th d a b s
  | .fmulD th d a b => Sys2Proof.Machine.execFmulD th d a b s
  | .fdivD th d a b => Sys2Proof.Machine.execFdivD th d a b s
  | .fsqrtD th d a b => Sys2Proof.Machine.execFsqrtD th d a b s
  | .fminD th d a b => Sys2Proof.Machine.execFminD th d a b s
  | .fmaxD th d a b => Sys2Proof.Machine.execFmaxD th d a b s
  | .fabsD th d a => Sys2Proof.Machine.execFabsD th d a s
  | .fnegD th d a => Sys2Proof.Machine.execFnegD th d a s
  | .fmovD th d a => Sys2Proof.Machine.execFmovD th d a s
  | .faddS th d a b => Sys2Proof.Machine.execFaddS th d a b s
  | .fsubS th d a b => Sys2Proof.Machine.execFsubS th d a b s
  | .fmulS th d a b => Sys2Proof.Machine.execFmulS th d a b s
  | .fdivS th d a b => Sys2Proof.Machine.execFdivS th d a b s
  | .fsqrtS th d a b => Sys2Proof.Machine.execFsqrtS th d a b s
  | .fminS th d a b => Sys2Proof.Machine.execFminS th d a b s
  | .fmaxS th d a b => Sys2Proof.Machine.execFmaxS th d a b s
  | .fabsS th d a => Sys2Proof.Machine.execFabsS th d a s
  | .fnegS th d a => Sys2Proof.Machine.execFnegS th d a s
  | .fmovS th d a => Sys2Proof.Machine.execFmovS th d a s
  | .fmaddD th d a b => Sys2Proof.Machine.execFmaddD th d a b s
  | .fmsubD th d a b => Sys2Proof.Machine.execFmsubD th d a b s
  | .fnmaddD th d a b => Sys2Proof.Machine.execFnmaddD th d a b s
  | .fnmsubD th d a b => Sys2Proof.Machine.execFnmsubD th d a b s
  | .fmaddS th d a b => Sys2Proof.Machine.execFmaddS th d a b s
  | .fmsubS th d a b => Sys2Proof.Machine.execFmsubS th d a b s
  | .fnmaddS th d a b => Sys2Proof.Machine.execFnmaddS th d a b s
  | .fnmsubS th d a b => Sys2Proof.Machine.execFnmsubS th d a b s
  | .fcvtDS th d a => Sys2Proof.Machine.execFcvtDS th d a s
  | .fcvtSD th d a => Sys2Proof.Machine.execFcvtSD th d a s
  | .fcvtDW th d a => Sys2Proof.Machine.execFcvtDW th d a s
  | .fcvtDWu th d a => Sys2Proof.Machine.execFcvtDWu th d a s
  | .fcvtWD th d a => Sys2Proof.Machine.execFcvtWD th d a s
  | .fcvtWuD th d a => Sys2Proof.Machine.execFcvtWuD th d a s
  | .fcvtDP th d a => Sys2Proof.Machine.execFcvtDP th d a s
  | .fcvtPD th d a => Sys2Proof.Machine.execFcvtPD th d a s
  | .fmvx th d a => Sys2Proof.Machine.execFmvx th d a s
  | .fmvf th d a => Sys2Proof.Machine.execFmvf th d a s
  | .feqD th d a b => Sys2Proof.Machine.execFeqD th d a b s
  | .fltD th d a b => Sys2Proof.Machine.execFltD th d a b s
  | .fleD th d a b => Sys2Proof.Machine.execFleD th d a b s
  | .feqS th d a b => Sys2Proof.Machine.execFeqS th d a b s
  | .fltS th d a b => Sys2Proof.Machine.execFltS th d a b s
  | .fleS th d a b => Sys2Proof.Machine.execFleS th d a b s
  -- Coprocessors and engine port (05, 10, 12)
  | .cp4ToCp7 th n cd ca cfn => Sys2Proof.Machine.execCp4ToCp7 th n cd ca cfn s
  | .parse th cd ca => Sys2Proof.Machine.execParse th cd ca s
  | .build th cd ca => Sys2Proof.Machine.execBuild th cd ca s
  | .xmlTokens th cd ca => Sys2Proof.Machine.execXmlTokens th cd ca s
  | .convert th cd ca => Sys2Proof.Machine.execConvert th cd ca s
  | .keyDerive th cd ca => Sys2Proof.Machine.execKeyDerive th cd ca s
  | .keyDukpt th cd ca => Sys2Proof.Machine.execKeyDukpt th cd ca s
  | .keyLoad th cd ca => Sys2Proof.Machine.execKeyLoad th cd ca s
  | .keyUnwrap th cd ca => Sys2Proof.Machine.execKeyUnwrap th cd ca s
  | .keyWrap th cd ca => Sys2Proof.Machine.execKeyWrap th cd ca s
  | .encrypt th cd ca => Sys2Proof.Machine.execEncrypt th cd ca s
  | .decrypt th cd ca => Sys2Proof.Machine.execDecrypt th cd ca s
  | .cp1MacGenerate th cd ca => Sys2Proof.Machine.execCp1MacGenerate th cd ca s
  | .cp1MacVerify th cd ca => Sys2Proof.Machine.execCp1MacVerify th cd ca s
  | .cp1PinTranslate th cd ca => Sys2Proof.Machine.execCp1PinTranslate th cd ca s
  | .emvVerify th cd ca => Sys2Proof.Machine.execEmvVerify th cd ca s
  | .slotClear th cd ca => Sys2Proof.Machine.execSlotClear th cd ca s
  | .slotInfo th cd ca => Sys2Proof.Machine.execSlotInfo th cd ca s
  | .sm3 th cd ca => Sys2Proof.Machine.execSm3 th cd ca s
  | .hmacSm3 th cd ca => Sys2Proof.Machine.execHmacSm3 th cd ca s
  | .submit th cd ca => Sys2Proof.Machine.execSubmit th cd ca s
  | .coprocessorResultPosted pier cp => Sys2Proof.Machine.execCoprocessorResultPosted pier cp s
  | .jobPosted id => Sys2Proof.Machine.execJobPosted id s
  | .strongroomRequest => Sys2Proof.Machine.execStrongroomRequest s
  | .keyDelivery id => Sys2Proof.Machine.execKeyDelivery id s
  | .keyColdLoad handle authentic => Sys2Proof.Machine.execKeyColdLoad handle authentic s
  | .journalBatchClose => Sys2Proof.Machine.execJournalBatchClose s
  | .journalPageProgrammed => Sys2Proof.Machine.execJournalPageProgrammed s
  | .componentSequenceTimeout => Sys2Proof.Machine.execComponentSequenceTimeout s
  -- Built-ins and engines (02, 10, 11, 12)
  | .bulkEncrypt seq => Sys2Proof.Machine.execBulkEncrypt seq s
  | .bulkDecrypt seq => Sys2Proof.Machine.execBulkDecrypt seq s
  | .compress seq => Sys2Proof.Machine.execCompress seq s
  | .decompress seq => Sys2Proof.Machine.execDecompress seq s
  | .sign seq => Sys2Proof.Machine.execSign seq s
  | .verify seq => Sys2Proof.Machine.execVerify seq s
  | .hash seq => Sys2Proof.Machine.execHash seq s
  | .pinTranslate seq => Sys2Proof.Machine.execPinTranslate seq s
  | .macGenerate seq => Sys2Proof.Machine.execMacGenerate seq s
  | .macVerify seq => Sys2Proof.Machine.execMacVerify seq s
  | .proof seq => Sys2Proof.Machine.execProof seq s
  | .echo seq => Sys2Proof.Machine.execEcho seq s
  | .laneQuantumEnd lane => Sys2Proof.Machine.execLaneQuantumEnd lane s
  | .scuttleComplete id confirmed => Sys2Proof.Machine.execScuttleComplete id confirmed s
  | .derrickStepEnd derrick => Sys2Proof.Machine.execDerrickStepEnd derrick s
  | .stowageBlockEnd engine => Sys2Proof.Machine.execStowageBlockEnd engine s
  -- Threads, berths and piers (04, 13)
  | .parkedAccessResume th => Sys2Proof.Machine.execParkedAccessResume th s
  | .signalEntry th => Sys2Proof.Machine.execSignalEntry th s
  | .mismatchDetected pair thread kind lane => Sys2Proof.Machine.execMismatchDetected pair thread kind lane s
  | .selftestDone pair coreMask partMask => Sys2Proof.Machine.execSelftestDone pair coreMask partMask s
  | .handover pier testPasses lane lanes => Sys2Proof.Machine.execHandover pier testPasses lane lanes s
  | .berthReconfigure pair testPasses lane lanes => Sys2Proof.Machine.execBerthReconfigure pair testPasses lane lanes s
  | .dailyComparatorTest pair lane lanes => Sys2Proof.Machine.execDailyComparatorTest pair lane lanes s
  -- Coherence messages (08)
  | .gets basin agent line tag => Sys2Proof.Machine.execGets basin agent line tag s
  | .getm basin agent line tag => Sys2Proof.Machine.execGetm basin agent line tag s
  | .upgr basin agent line tag => Sys2Proof.Machine.execUpgr basin agent line tag s
  | .putm basin agent line tag => Sys2Proof.Machine.execPutm basin agent line tag s
  | .puto basin agent line tag => Sys2Proof.Machine.execPuto basin agent line tag s
  | .pute basin agent line tag => Sys2Proof.Machine.execPute basin agent line tag s
  | .puts basin agent line tag => Sys2Proof.Machine.execPuts basin agent line tag s
  | .iord basin line tag => Sys2Proof.Machine.execIord basin line tag s
  | .iowr basin line tag off data => Sys2Proof.Machine.execIowr basin line tag off data s
  | .amo basin agent addr fn pair cmp operand => Sys2Proof.Machine.execAmo basin agent addr fn pair cmp operand s
  | .data basin agent line tag => Sys2Proof.Machine.execData basin agent line tag s
  | .fwdgets basin agent line => Sys2Proof.Machine.execFwdgets basin agent line s
  | .fwdgetm basin agent line => Sys2Proof.Machine.execFwdgetm basin agent line s
  | .inv basin agent line => Sys2Proof.Machine.execInv basin agent line s
  | .grant basin agent line tag => Sys2Proof.Machine.execGrant basin agent line tag s
  | .nack basin agent line tag => Sys2Proof.Machine.execNack basin agent line tag s
  | .nackRetry basin agent line tag => Sys2Proof.Machine.execNackRetry basin agent line tag s
  | .wback basin agent line tag => Sys2Proof.Machine.execWback basin agent line tag s
  | .wbstale basin agent line tag => Sys2Proof.Machine.execWbstale basin agent line tag s
  | .fwddata basin agent line tag => Sys2Proof.Machine.execFwddata basin agent line tag s
  | .fwdack basin agent line => Sys2Proof.Machine.execFwdack basin agent line s
  | .invack basin agent line => Sys2Proof.Machine.execInvack basin agent line s
  | .coherenceTimeout basin trigger pier => Sys2Proof.Machine.execCoherenceTimeout basin trigger pier s
  | .adoptionComplete basin => Sys2Proof.Machine.execAdoptionComplete basin s
  | .basinResetDone basin passed => Sys2Proof.Machine.execBasinResetDone basin passed s
  | .fairwayRetrain segment up => Sys2Proof.Machine.execFairwayRetrain segment up s
  | .patrolScrub stack corrected => Sys2Proof.Machine.execPatrolScrub stack corrected s
  | .l2Clean pier => Sys2Proof.Machine.execL2Clean pier s
  | .l2Inv pier => Sys2Proof.Machine.execL2Inv pier s
  | .l2En pier on => Sys2Proof.Machine.execL2En pier on s
  | .lockWays pier n => Sys2Proof.Machine.execLockWays pier n s
  | .pierL1dEn pier v => Sys2Proof.Machine.execPierL1dEn pier v s
  | .pierL1iEn pier v => Sys2Proof.Machine.execPierL1iEn pier v s
  | .pierL1Inv pier v => Sys2Proof.Machine.execPierL1Inv pier v s
  | .pierEvqHead pier v => Sys2Proof.Machine.execPierEvqHead pier v s
  -- Event hub and interrupts (14)
  | .evtPost byPort size v => Sys2Proof.Machine.execEvtPost byPort size v s
  | .sourceArrival src detail => Sys2Proof.Machine.execSourceArrival src detail s
  | .sourceTimeThreshold src => Sys2Proof.Machine.execSourceTimeThreshold src s
  | .sourceRecordWrite src => Sys2Proof.Machine.execSourceRecordWrite src s
  | .evtCtl byPort src v => Sys2Proof.Machine.execEvtCtl byPort src v s
  | .evtStatPendingClear byPort src => Sys2Proof.Machine.execEvtStatPendingClear byPort src s
  | .lighthouseAlarm k => Sys2Proof.Machine.execLighthouseAlarm k s
  | .eqVectorDue p f eq => Sys2Proof.Machine.execEqVectorDue p f eq s
  | .msixUnmask p f entry => Sys2Proof.Machine.execMsixUnmask p f entry s
  | .dStateChange p f d => Sys2Proof.Machine.execDStateChange p f d s
  | .pmeEnSet p f => Sys2Proof.Machine.execPmeEnSet p f s
  -- Functions, tenants and ports (15)
  | .flr p t => Sys2Proof.Machine.execFlr p t s
  | .flrDrainTimeout t => Sys2Proof.Machine.execFlrDrainTimeout t s
  | .perst p asserted => Sys2Proof.Machine.execPerst p asserted s
  | .hotReset p => Sys2Proof.Machine.execHotReset p s
  | .linkDisable p => Sys2Proof.Machine.execLinkDisable p s
  | .pf0Flr p => Sys2Proof.Machine.execPf0Flr p s
  | .vfEnableClear p numVFs => Sys2Proof.Machine.execVfEnableClear p numVFs s
  | .vfInService t => Sys2Proof.Machine.execVfInService t s
  | .quiesceDrainComplete t => Sys2Proof.Machine.execQuiesceDrainComplete t s
  | .quiesceDrainLimit t => Sys2Proof.Machine.execQuiesceDrainLimit t s
  | .resumeSlotsFreed t => Sys2Proof.Machine.execResumeSlotsFreed t s
  | .helmLeaseExpiry => Sys2Proof.Machine.execHelmLeaseExpiry s
  | .helmLease75 => Sys2Proof.Machine.execHelmLease75 s
  | .atsInvalidationRequest p page => Sys2Proof.Machine.execAtsInvalidationRequest p page s
  | .ideIntegrityFailure p stream => Sys2Proof.Machine.execIdeIntegrityFailure p stream s
  | .lockInterfaceRequest p t => Sys2Proof.Machine.execLockInterfaceRequest p t s
  | .stopInterfaceRequest p t => Sys2Proof.Machine.execStopInterfaceRequest p t s
  -- SPDM (11, 15)
  | .getVersion r => Sys2Proof.Machine.execGetVersion r s
  | .getCapabilities r => Sys2Proof.Machine.execGetCapabilities r s
  | .negotiateAlgorithms r => Sys2Proof.Machine.execNegotiateAlgorithms r s
  | .getDigests r => Sys2Proof.Machine.execGetDigests r s
  | .getCertificate r => Sys2Proof.Machine.execGetCertificate r s
  | .challenge r => Sys2Proof.Machine.execChallenge r s
  | .getMeasurements r => Sys2Proof.Machine.execGetMeasurements r s
  | .keyExchange r => Sys2Proof.Machine.execKeyExchange r s
  | .finish r => Sys2Proof.Machine.execFinish r s
  | .endSession r => Sys2Proof.Machine.execEndSession r s
  | .keyUpdate r => Sys2Proof.Machine.execKeyUpdate r s
  | .spdmHeartbeat r => Sys2Proof.Machine.execSpdmHeartbeat r s
  | .vendorDefinedRequest r => Sys2Proof.Machine.execVendorDefinedRequest r s
  -- Power, clocks and start-up (16, 20)
  | .regulatorVoltageReported basin => Sys2Proof.Machine.execRegulatorVoltageReported basin s
  | .avsNoAnswer basin => Sys2Proof.Machine.execAvsNoAnswer basin s
  | .droopDetected island => Sys2Proof.Machine.execDroopDetected island s
  | .barometerUpdate island voltMv temp droops => Sys2Proof.Machine.execBarometerUpdate island voltMv temp droops s
  | .galeExit => Sys2Proof.Machine.execGaleExit s
  | .islandReset island cause dropped => Sys2Proof.Machine.execIslandReset island cause dropped s
  | .islandResetExit island => Sys2Proof.Machine.execIslandResetExit island s
  | .calmEntry pier => Sys2Proof.Machine.execCalmEntry pier s
  | .doldrumsEntry => Sys2Proof.Machine.execDoldrumsEntry s
  | .wakeComplete => Sys2Proof.Machine.execWakeComplete s
  | .pwrGoodCoreRise => Sys2Proof.Machine.execPwrGoodCoreRise s
  | .pwrGoodCoreFall => Sys2Proof.Machine.execPwrGoodCoreFall s
  | .pwrGoodAonFall => Sys2Proof.Machine.execPwrGoodAonFall s
  | .harbReset pulseNs => Sys2Proof.Machine.execHarbReset pulseNs s
  | .serviceStart failed => Sys2Proof.Machine.execServiceStart failed s
  | .bootFailed => Sys2Proof.Machine.execBootFailed s
  | .flashOwnAssert => Sys2Proof.Machine.execFlashOwnAssert s
  | .flashOwnRelease => Sys2Proof.Machine.execFlashOwnRelease s
  | .ppsEdge => Sys2Proof.Machine.execPpsEdge s
  | .ppsLockLost => Sys2Proof.Machine.execPpsLockLost s
  | .tenmhzLost => Sys2Proof.Machine.execTenmhzLost s
  -- Activation and Pilot (17, 18)
  | .probationExpiry => Sys2Proof.Machine.execProbationExpiry s
  | .probationLimitNear => Sys2Proof.Machine.execProbationLimitNear s
  | .armedWaitExpiry => Sys2Proof.Machine.execArmedWaitExpiry s
  | .componentReady => Sys2Proof.Machine.execComponentReady s
  | .readyCheckTimeout => Sys2Proof.Machine.execReadyCheckTimeout s
  | .pilotRestart cause => Sys2Proof.Machine.execPilotRestart cause s
  | .mbTimeout p => Sys2Proof.Machine.execMbTimeout p s
  -- Mailbox commands (18)
  | .getDeviceInfo m => Sys2Proof.Machine.execGetDeviceInfo m s
  | .getCaps m => Sys2Proof.Machine.execGetCaps m s
  | .helmAcquire m => Sys2Proof.Machine.execHelmAcquire m s
  | .helmRelease m => Sys2Proof.Machine.execHelmRelease m s
  | .timeSet m => Sys2Proof.Machine.execTimeSet m s
  | .tenantCreate m => Sys2Proof.Machine.execTenantCreate m s
  | .tenantConfigure m => Sys2Proof.Machine.execTenantConfigure m s
  | .tenantQuiesce m => Sys2Proof.Machine.execTenantQuiesce m s
  | .tenantResume m => Sys2Proof.Machine.execTenantResume m s
  | .tenantDestroy m => Sys2Proof.Machine.execTenantDestroy m s
  | .tenantResync m => Sys2Proof.Machine.execTenantResync m s
  | .queueCreate m => Sys2Proof.Machine.execQueueCreate m s
  | .queueDestroy m => Sys2Proof.Machine.execQueueDestroy m s
  | .classSet m => Sys2Proof.Machine.execClassSet m s
  | .partitionMapSet m => Sys2Proof.Machine.execPartitionMapSet m s
  | .chainPoolCreate m => Sys2Proof.Machine.execChainPoolCreate m s
  | .chainPoolDestroy m => Sys2Proof.Machine.execChainPoolDestroy m s
  | .keyImportBlock m => Sys2Proof.Machine.execKeyImportBlock m s
  | .keyGenerate m => Sys2Proof.Machine.execKeyGenerate m s
  | .keyExportBlock m => Sys2Proof.Machine.execKeyExportBlock m s
  | .keyRetire m => Sys2Proof.Machine.execKeyRetire m s
  | .keyQuery m => Sys2Proof.Machine.execKeyQuery m s
  | .keystoreConfigure m => Sys2Proof.Machine.execKeystoreConfigure m s
  | .tenantLabelSet m => Sys2Proof.Machine.execTenantLabelSet m s
  | .handlerLoad m => Sys2Proof.Machine.execHandlerLoad m s
  | .handlerBind m => Sys2Proof.Machine.execHandlerBind m s
  | .formatLoad m => Sys2Proof.Machine.execFormatLoad m s
  | .ledgerConfigure m => Sys2Proof.Machine.execLedgerConfigure m s
  | .tideGet m => Sys2Proof.Machine.execTideGet m s
  | .proofGet m => Sys2Proof.Machine.execProofGet m s
  | .ledgerTrim m => Sys2Proof.Machine.execLedgerTrim m s
  | .berthSplit m => Sys2Proof.Machine.execBerthSplit m s
  | .berthJoin m => Sys2Proof.Machine.execBerthJoin m s
  | .berthRetire m => Sys2Proof.Machine.execBerthRetire m s
  | .basinRecover m => Sys2Proof.Machine.execBasinRecover m s
  | .errorInject m => Sys2Proof.Machine.execErrorInject m s
  | .powerPolicySet m => Sys2Proof.Machine.execPowerPolicySet m s
  | .thermalStatus m => Sys2Proof.Machine.execThermalStatus m s
  | .logbookRead m => Sys2Proof.Machine.execLogbookRead m s
  | .logbookClear m => Sys2Proof.Machine.execLogbookClear m s
  | .diagRun m => Sys2Proof.Machine.execDiagRun m s
  | .fwStageBegin m => Sys2Proof.Machine.execFwStageBegin m s
  | .fwStageData m => Sys2Proof.Machine.execFwStageData m s
  | .fwStageEnd m => Sys2Proof.Machine.execFwStageEnd m s
  | .fwActivate m => Sys2Proof.Machine.execFwActivate m s
  | .fwConfirm m => Sys2Proof.Machine.execFwConfirm m s
  | .fwRevert m => Sys2Proof.Machine.execFwRevert m s
  | .fwStatus m => Sys2Proof.Machine.execFwStatus m s
  | .settingsBurn m => Sys2Proof.Machine.execSettingsBurn m s
  | .enterSlipway m => Sys2Proof.Machine.execEnterSlipway m s
  | .lifecycleAdvance m => Sys2Proof.Machine.execLifecycleAdvance m s
  | .ownerKeyRotate m => Sys2Proof.Machine.execOwnerKeyRotate m s
  | .roadsteadJoin m => Sys2Proof.Machine.execRoadsteadJoin m s
  | .roadsteadStatus m => Sys2Proof.Machine.execRoadsteadStatus m s
  | .partnerTakeover m => Sys2Proof.Machine.execPartnerTakeover m s
  -- PLDM (17)
  | .requestUpdate length => Sys2Proof.Machine.execRequestUpdate length s
  | .passComponentTable => Sys2Proof.Machine.execPassComponentTable s
  | .updateComponent => Sys2Proof.Machine.execUpdateComponent s
  | .requestFirmwareData off bytes => Sys2Proof.Machine.execRequestFirmwareData off bytes s
  | .activateFirmware => Sys2Proof.Machine.execActivateFirmware s
  -- Hawser (19)
  | .hello link m => Sys2Proof.Machine.execHello link m s
  | .hawserInit link => Sys2Proof.Machine.execHawserInit link s
  | .nak link seq => Sys2Proof.Machine.execNak link seq s
  | .idleFlit link ack cvc credits => Sys2Proof.Machine.execIdleFlit link ack cvc credits s
  | .mirrorData h items => Sys2Proof.Machine.execMirrorData h items s
  | .mirrorAck h basin count => Sys2Proof.Machine.execMirrorAck h basin count s
  | .tideRecord h record retiredTide => Sys2Proof.Machine.execTideRecord h record retiredTide s
  | .heartbeat h state taken => Sys2Proof.Machine.execHeartbeat h state taken s
  | .heartbeatSend => Sys2Proof.Machine.execHeartbeatSend s
  | .flitReplayTimeout link => Sys2Proof.Machine.execFlitReplayTimeout link s
  | .hawserRetrain link lanes => Sys2Proof.Machine.execHawserRetrain link lanes s
  | .hawserTrainingRetry link => Sys2Proof.Machine.execHawserTrainingRetry link s
  | .seedEnd => Sys2Proof.Machine.execSeedEnd s
  | .partnerLost q => Sys2Proof.Machine.execPartnerLost q s
  -- Registers and the remaining events
  | .registerWrite r size v => Sys2Proof.Machine.execRegisterWrite r size v s
  | .pwrGoodAonRise => Sys2Proof.Machine.execPwrGoodAonRise s
  | .slipwayEntered cause => Sys2Proof.Machine.execSlipwayEntered cause s
  | .aspmL1Entry p => Sys2Proof.Machine.execAspmL1Entry p s
  | .completionTimeout w => Sys2Proof.Machine.execCompletionTimeout w s
  | .islandWakeComplete island => Sys2Proof.Machine.execIslandWakeComplete island s
  | .clockStretchEnd island => Sys2Proof.Machine.execClockStretchEnd island s
  | .hawserLockLost link => Sys2Proof.Machine.execHawserLockLost link s
  | .flitCrcFail link => Sys2Proof.Machine.execFlitCrcFail link s
  | .keyStoreWriteConfirmed handle r => Sys2Proof.Machine.execKeyStoreWriteConfirmed handle r s
  | .rcRead p off => Sys2Proof.Machine.execRcRead p off s
  | .tckEdge tms tdi => Sys2Proof.Machine.execTckEdge tms tdi s

end Sys2Proof.Machine
end

