-- ==== Sys2Proof/Machine/Step.lean ====
section
/-! DEFINITION. One step: the command at the front of the queue, or one tick of the harbour clock on an empty queue. -/

namespace Sys2Proof.Machine

/-- One step (log entry 2): the command at the front of the queue acts on the state with the queue's rest; on an empty
queue the harbour clock advances. -/
def step (s : State) : Host.Outcome State Fault Refusal :=
  match s.pending with
  | c :: rest => exec c { s with pending := rest }
  | [] => .next (idle s)

/-- The state with the command that a table word spells put at the front of its queue; the table gives no command bits, so
no word spells one and the state is unchanged (log entry 4). -/
def State.withFetchWord (s : State) (nbits w : Nat) : State :=
  match Sys2Proof.decodeTableWord nbits w with
  | some c => { s with pending := c :: s.pending }
  | none => s

end Sys2Proof.Machine
end

