-- ==== Sys2Proof/Safety.lean ====
section
/-! DEFINITION. What the claims say of a run: what a legal step may not change, and what burnt memory may become. -/

namespace Sys2Proof.Machine

/-- What no command changes but the burns of OTP: the waiting commands, the time that the timers count, and OTP. -/
def kept (s : State) : List Instr × Nat × Otp := (s.pending, s.clock.ps, s.otp)

/-- One-time-programmable memory after some more burns (R446): the lifecycle does not go back, no thermometer loses a step,
and no burnt generation of the owner hash or of the settings is lost or changed. -/
def OtpGrown (o p : Otp) : Prop :=
  o.lifecycle ≤ p.lifecycle ∧ o.owners <+: p.owners ∧ o.settings <+: p.settings ∧
    o.arb.length = p.arb.length ∧ ∀ i : Nat, (o.arb[i]?).getD 0 ≤ (p.arb[i]?).getD 0

/-- OTP holds a legal contents (R446): one of the four lifecycle states, four thermometers, and no more generations than
there are fields for. -/
def OtpLegal (o : Otp) : Prop :=
  o.lifecycle ≤ 3 ∧ o.arb.length = 4 ∧ o.owners.length ≤ 4 ∧ o.settings.length ≤ 4

/-- A state from which nothing but burns of OTP can follow from another. -/
def Keeps (s t : State) : Prop :=
  t.pending = s.pending ∧ t.clock.ps = s.clock.ps ∧ OtpGrown s.otp t.otp ∧ (OtpLegal s.otp → OtpLegal t.otp)

/-! The terms in which the claims about the instructions of Windlass are stated. -/

/-- The registers of a thread. -/
def regsOf (s : State) (th : ThreadId) : Arch := (thr s th).arch

/-- A thread may issue, and the fetch at its PC succeeds (R126, R141): the instruction that a command names is executed. -/
def ready (s : State) (th : ThreadId) : Prop := canIssue s th = true ∧ fetchOk s th = .ok ()

/-- The state after the fetch of the instruction at the PC, which alone holds its page's translation (R142). -/
def fetched (s : State) (th : ThreadId) : State :=
  modThr (tlbFill s th (codeVa (regsOf s th) (regsOf s th).pc)) th (fun t => { t with yielded := false })

/-- The fetched instruction retires, leaving the registers a (R336). -/
def retired (s : State) (th : ThreadId) (a : Arch) : State := retire (setArch (fetched s th) th a) th

/-- The answer of an instruction that changes registers alone: a, with the PC advanced by 3 (R126). -/
def leaves (s : State) (th : ThreadId) (a : Arch) : Out := .next (retired s th { a with pc := (regsOf s th).pc + 3 })

/-- The answer of an instruction that writes rD, the PC advanced by 3, and changes no other register (R126, R128). -/
def writes (s : State) (th : ThreadId) (d : RegField) (v : Word) : Out := leaves s th (wr (regsOf s th) d v)

/-- The answer of an instruction that raises an exception (R156, R157). -/
def raises (s : State) (th : ThreadId) (e : Exn) : Out := .next (takeExn (fetched s th) th e)

/-- An access is performed at the places ls: its bytes are translated, it is no store after the end of the handler (R104), its
lines fit the commit set (R105) and none of them is held by another consignment (R107). -/
def admitted (s : State) (th : ThreadId) (op : MemOp) (ls : List Loc) : Prop :=
  translate s th (opKind op) (opVa op) (opLen op) = .ok ls ∧ afterEnd s th (opKind op) ls = false ∧
  (thr s th).csetLines.length + ((linesOf ls).filter (fun l => !((thr s th).csetLines.contains l))).length ≤ 64 ∧
  conflictOf s th (linesOf ls) = none

/-- The state an admitted access is performed in: its LEDGERED lines have joined the commit set with their holds (R105, R107), and
the thread holds its pages' translations (R142). -/
def reached (s : State) (th : ThreadId) (op : MemOp) (ls : List Loc) : State :=
  let s := if (linesOf ls).isEmpty then s else takeLines s th (linesOf ls)
  tlbFill (tlbFill s th (opVa op)) th ((opVa op + opLen op - 1) % 2 ^ 48)

/-- Every byte lies in memory that the berth may cache: CACHED or LEDGERED (R140). -/
def cacheable (ls : List Loc) : Prop := ∀ l ∈ ls, l.type = .cached ∨ l.type = .ledgered

/-- The state after the home has recalled the cached lines of an atomic (R214). -/
def recalled (s : State) (th : ThreadId) (ls : List Loc) : State :=
  ((ls.filter (fun l => decide (l.obj = .phys) && decide (l.type = .cached))).map (fun l => l.addr / 64)).eraseDups.foldl
    (fun s line => recallAll s th.basin.val line) (retryPoint s th)

/-- The stores that a store of bytes at places makes, in address order. -/
def piecesOf (ls : List Loc) (bs : List Byte) : List GStore := (ls.zip bs).map (fun p => { obj := p.1.obj, addr := p.1.addr, byte := p.2 })

/-! The terms in which the claims about the other commands are stated. -/

/-- The answer of a command is a next state with a property. -/
def answers (c : Instr) (s : State) (p : State → Prop) : Prop := ∃ t, exec c s = .next t ∧ p t

/-- The newest entry of the Logbook has a code (R355). -/
def logged (s : State) (code : Nat) : Prop := s.log.head?.map (fun e => e.code) = some code

/-- An event source has arrived and not been answered (R357, R358). -/
def arrived (s : State) (n : Nat) : Prop := (srcOf s n).pending = true

/-- A state apart from the Logbook, the event sources and the operating state of the device, which an arrival may wake (R371): what
a report of something else may change. -/
def unreported (s : State) : State :=
  { s with log := [], logNext := 0, sources := [], dev := { s.dev with st := .off, wakeAt := none } }

/-- The state in which a mailbox command is checked: its GO has reached the Harbour (R357, R453). -/
def heard (s : State) (m : MbReq) : State := arrive (touchPort s m.port) (0xF12 + m.port.num) m.port.num false

/-- A GO finds its mailbox neither STARTING nor BUSY and the Pilot running (R452, R453, R462). -/
def presented (m : MbReq) (s : State) : Prop :=
  mailMmio s m.port = true ∧ (mailOf s m.port).st ≠ 0 ∧ (mailOf s m.port).st ≠ 2 ∧ pilotUp (heard s m) = true

/-- A request without a co-signature passes the checks of R459 that come before the command's own conditions. -/
def taken (c : MbCmd) (m : MbReq) (s : State) : Prop :=
  presented m s ∧ m.flags.getLsbD 1 = false ∧ mbCheck c m (heard s m) = none

/-- A request with a co-signature passes those checks, but perhaps for the co-signature itself. -/
def signedFor (c : MbCmd) (m : MbReq) (s : State) : Prop :=
  presented m s ∧ m.flags.getLsbD 1 = true ∧ (heard s m).dev.st ≠ .slipway ∧
  (mbCheck c m (heard s m) = none ∨ mbCheck c m (heard s m) = some (0x0803, 0))

/-- Bytes that the response of a command takes. -/
def bodyRoom : MbAct → Nat
  | .done _ b => b.length
  | .ends _ _ _ b => b.length
  | .wait _ _ _ n _ => n
  | _ => 0

/-- What a mailbox shows of what its command comes to, where the response is inline: DONE with its status, or BUSY (R453, R455). -/
def shows (c : MbCmd) (m : MbReq) (u : State) : MbAct → State
  | .fail st d => mbAnswer u m.port { status := st, tag := m.tag.toNat, detail := d }
  | .done t b => mbAnswer t m.port { tag := m.tag.toNat, body := b }
  | .ends t st d b => mbAnswer t m.port { status := st, tag := m.tag.toNat, detail := d, body := b }
  | .wait t arg aux _ k => mbBusy t m.port { mbRunOf u c m with arg := arg, aux := aux, committed := k }
  | .again t => mbBusy t m.port { mbRunOf u c m with req := some m, checked := true }
  | .gone t => t

/-- The answer of a command of the mailbox whose request the Pilot takes, with an inline response that fits (R457, R459). -/
def gives (i : Instr) (c : MbCmd) (m : MbReq) (s : State) (x : MbAct) : Prop :=
  taken c m s → m.flags.getLsbD 0 = false → bodyRoom x ≤ 4080 → exec i s = .next (shows c m (heard s m) x)

/-- The same for a command that only a co-signed request may give: its DC_SEQ is journalled before it acts (R257, R458). -/
def givesSigned (i : Instr) (c : MbCmd) (m : MbReq) (s : State) (x : MbAct) : Prop :=
  let u := heard s m
  signedFor c m s → m.flags.getLsbD 0 = false → bodyRoom x ≤ 4080 →
    exec i s = .next (
      if mbCheck c m u = none then
        (match x with
        | .fail st d => mbRefuse u m st d
        | _ => mbBusy (journalAdd u (.dcSeq (dcOf m))) m.port { mbRunOf u c m with req := some m, dc := some (dcOf m) })
      else mbRefuse u m 0x0803 0) ∧
    mbProceed c m u = shows c m u x

end Sys2Proof.Machine
end

