-- ==== Sys2Proof/Certificates/Slice0/Obligations.lean ====
section
/-! DEFINITION. The statements for the provers. -/

open Sys2Proof Sys2Proof.Machine

/-! The block as a whole. -/

/-- Log entry 2 (DESIGN CHOICE): a step takes the command at the front of the queue and executes it on the state with the
queue's rest; on an empty queue the block idles one tick. -/
def Obligations.StepRunsFrontCommand : Prop :=
  (∀ (c : Instr) (rest : List Instr) (s : State), s.pending = c :: rest → step s = exec c { s with pending := rest }) ∧
  (∀ s : State, s.pending = [] → step s = .next (idle s))

/-- Log entry 1 (DESIGN CHOICE): every command answers a next state in every state. No command takes or adds a waiting command, and no
command moves the time that the timers count (R465): only the idle step does (log entry 2). -/
def Obligations.EveryCommandAnswersNext : Prop :=
  ∀ (c : Instr) (s : State), ∃ t, exec c s = .next t ∧ t.pending = s.pending ∧ t.clock.ps = s.clock.ps

/-- R446: no step unburns OTP. The lifecycle does not go back, no anti-rollback thermometer loses a step and no burnt
generation of owner or settings is lost or changed, and OTP stays within its fields, on every step. -/
def Obligations.StepsOnlyGrowOtp : Prop :=
  ∀ (o : Otp) (s t : State), OtpLegal s.otp → OtpGrown o s.otp → step s = .next t → OtpLegal t.otp ∧ OtpGrown o t.otp

/-- R466 and R421: at reset the device is off, the harbour clock reads 0x8000_0000_0000_0000 ns, no thread holds a
consignment, nothing is in flight and no tenant is configured; log entry 4 (DESIGN CHOICE) names the rest.

OTP at reset is legal (log entry 7 names its contents). -/
def Obligations.ResetState : Prop :=
  (State.reset.pending = [] ∧ harbourNs State.reset = 0x8000000000000000 ∧ State.reset.dev.st = .off ∧ running State.reset = false ∧
    (∀ th : ThreadId, (thr State.reset th).run = .free ∧ (thr State.reset th).seq = 0 ∧ (thr State.reset th).arch.fcsr = 0) ∧
    (∀ q : Nat, consOf State.reset q = none) ∧ (∀ t : Nat, (tenantOf State.reset t).state = .absent) ∧
    (∀ p : Nat, (partOf State.reset p).home = some (p % 4))) ∧
  (OtpLegal State.reset.otp)

/-! The registers of Windlass. -/

/-- R128, R129: g0 reads 0 and discards writes; every other integer register reads what was last written to it, a write
leaves every other register, the f registers, the flags and the system registers alone.

R128, R129: a pair holds bits 23:0 in the register named and bits 47:24 in the next, a triple bits 23:0, 47:24 and, zero
extended, 63:48, and a write of either leaves every other register alone; a binary32 result clears bits 63:32, and a
binary32 operand is read from bits 31:0. -/
def Obligations.RegisterFile : Prop :=
  (∀ (a : Arch) (d e : RegField) (v : Word),
      rd a 0 = 0 ∧ wr a 0 v = a ∧ (d ≠ 0 → rd (wr a d v) d = v) ∧ (e ≠ d → rd (wr a d v) e = rd a e) ∧
      { wr a d v with g := a.g, win := a.win } = a) ∧
  (∀ (a : Arch) (d e : RegField) (v : Pair) (x : BitVec 64) (w : BitVec 32),
      (pairOk d = true → rdPair (wrPair a d v) d = v ∧ rd (wrPair a d v) d = v.extractLsb' 0 24 ∧
        (e.val ≠ d.val → e.val ≠ d.val + 1 → rd (wrPair a d v) e = rd a e)) ∧
      (tripleOk d = true → rdTriple (wrTriple a d x) d = x ∧ rd (wrTriple a d x) d = x.extractLsb' 0 24 ∧
        (e.val < d.val ∨ d.val + 2 < e.val → rd (wrTriple a d x) e = rd a e)) ∧
      rdF (wrF32 a d w) d = w.setWidth 64 ∧ fOp f32 a d = ((rdF a d).extractLsb' 0 32).toNat ∧ (e ≠ d → rdF (wrF32 a d w) e = rdF a e) ∧ { wrF a d x with f := a.f } = a ∧
      rdF (wrF a d x) d = x ∧ (e ≠ d → rdF (wrF a d x) e = rdF a e))

/-- R335, R336: what an instruction that changes only registers leaves unchanged. Between two retry points every other
thread, memory and all other state stay, and of the thread itself all but the registers and the translations it holds; the 32nd
instruction since the last retry point takes one: the gated stores are released and the checkpoint takes the registers. -/
def Obligations.RetiredFrame : Prop :=
  ∀ (s : State) (th : ThreadId) (a : Arch),
    (thr (retired s th a) th).arch = a ∧ (∀ x : ThreadId, x ≠ th → thr (retired s th a) x = thr s x) ∧
    ((thr s th).sinceCk < 31 →
      { retired s th a with threads := s.threads } = s ∧
      ∃ l, thr (retired s th a) th = { thr s th with arch := a, sinceCk := (thr s th).sinceCk + 1, entering := none, yielded := false, tlb := l }) ∧
    (31 ≤ (thr s th).sinceCk →
      (thr (retired s th a) th).ck = a ∧ (thr (retired s th a) th).sinceCk = 0 ∧ (thr (retired s th a) th).gated = [])

/-- R147, R159, R160: the three-register instructions that leave the flags alone.

R129, R160: MULW and MULWU write the 48-bit product to a pair; a field that names no pair raises ILLEGAL. -/
def Obligations.IntegerResults : Prop :=
  (∀ (s : State) (th : ThreadId) (d a b : RegField), ready s th →
      let x := rd (regsOf s th) a
      let y := rd (regsOf s th) b
      let n := y.toNat % 32
      exec (.add th d a b) s = writes s th d (x + y) ∧
      exec (.sub th d a b) s = writes s th d (x - y) ∧
      exec (.slt th d a b) s = writes s th d (if x.toInt < y.toInt then 1 else 0) ∧
      exec (.sltu th d a b) s = writes s th d (if x.toNat < y.toNat then 1 else 0) ∧
      exec (.and th d a b) s = writes s th d (x &&& y) ∧
      exec (.or th d a b) s = writes s th d (x ||| y) ∧
      exec (.xor th d a b) s = writes s th d (x ^^^ y) ∧
      exec (.andn th d a b) s = writes s th d (x &&& ~~~ y) ∧
      exec (.sll th d a b) s = writes s th d (x <<< n) ∧
      exec (.srl th d a b) s = writes s th d (x >>> n) ∧
      exec (.sra th d a b) s = writes s th d (x.sshiftRight n) ∧
      exec (.rol th d a b) s = writes s th d (x.rotateLeft (n % 24)) ∧
      exec (.mul th d a b) s = writes s th d (x * y) ∧
      exec (.mulh th d a b) s = writes s th d (BitVec.ofInt 24 (x.toInt * y.toInt / 2 ^ 24)) ∧
      exec (.mulhu th d a b) s = writes s th d (BitVec.ofNat 24 (x.toNat * y.toNat / 2 ^ 24)) ∧
      exec (.div th d a b) s = writes s th d (if y = 0 then 0xFFFFFF else BitVec.ofInt 24 (x.toInt.tdiv y.toInt)) ∧
      exec (.divu th d a b) s = writes s th d (if y = 0 then 0xFFFFFF else BitVec.ofNat 24 (x.toNat / y.toNat)) ∧
      exec (.rem th d a b) s = writes s th d (if y = 0 then x else BitVec.ofInt 24 (x.toInt.tmod y.toInt)) ∧
      exec (.remu th d a b) s = writes s th d (if y = 0 then x else BitVec.ofNat 24 (x.toNat % y.toNat))) ∧
  (∀ (s : State) (th : ThreadId) (d a b : RegField), ready s th →
      let x := rd (regsOf s th) a
      let y := rd (regsOf s th) b
      (8 ≤ d.val ∧ d.val ≤ 30 →
        exec (.mulw th d a b) s = leaves s th (wrPair (regsOf s th) d (BitVec.ofInt 48 (x.toInt * y.toInt))) ∧
        exec (.mulwu th d a b) s = leaves s th (wrPair (regsOf s th) d (BitVec.ofNat 48 (x.toNat * y.toNat)))) ∧
      (d.val < 8 ∨ d.val = 31 →
        exec (.mulw th d a b) s = raises s th { code := 1 } ∧ exec (.mulwu th d a b) s = raises s th { code := 1 }))

/-- R159: ADDS, ADDC, SUBS and SUBB write rD, C and V, and leave the other bits of STATUS alone. -/
def Obligations.FlagArithmetic : Prop :=
  ∀ (s : State) (th : ThreadId) (d a b : RegField), ready s th →
    let r := regsOf s th
    let x := rd r a
    let y := rd r b
    let cin := r.status.getLsbD 4
    let out (i : Instr) (sum : Word) (c : Bool) (exact : Int) : Prop :=
      ∃ st : Word, exec i s = leaves s th { wr r d sum with status := st } ∧
        st.getLsbD 4 = c ∧ st.getLsbD 5 = decide (exact < -2 ^ 23 ∨ 2 ^ 23 - 1 < exact) ∧
        ∀ j : Nat, j ≠ 4 → j ≠ 5 → st.getLsbD j = r.status.getLsbD j
    out (.adds th d a b) (x + y) (decide (2 ^ 24 ≤ x.toNat + y.toNat)) (x.toInt + y.toInt) ∧
    out (.addc th d a b) (x + y + BitVec.ofNat 24 cin.toNat) (decide (2 ^ 24 ≤ x.toNat + y.toNat + cin.toNat)) (x.toInt + y.toInt + cin.toNat) ∧
    out (.subs th d a b) (x - y) (decide (x.toNat < y.toNat)) (x.toInt - y.toInt) ∧
    out (.subb th d a b) (x - y - BitVec.ofNat 24 cin.toNat) (decide (x.toNat < y.toNat + cin.toNat)) (x.toInt - y.toInt - cin.toNat)

/-- R161, R162: one digit of DADD and DADDC, and of DSUB and DSUBB, with the carry; DCMP; the decimal instructions write rD
and C, leave V alone, and set DECINV, never clearing it, when a nibble of an operand exceeds 9. -/
def Obligations.DecimalArithmetic : Prop :=
  ∀ (s : State) (th : ThreadId) (d a b : RegField), ready s th →
    let r := regsOf s th
    let x := rd r a
    let y := rd r b
    let digit (w : Word) (i : Nat) : Nat := w.toNat / 16 ^ i % 16
    let bad : Bool := (List.range 6).any (fun i => decide (9 < digit x i ∨ 9 < digit y i))
    let out (i : Instr) (v : Word) (c : Bool) : Prop :=
      ∃ st : Word, exec i s = leaves s th { wr r d v with status := st } ∧ st.getLsbD 4 = c ∧ st.getLsbD 6 = (r.status.getLsbD 6 || bad) ∧
        ∀ j : Nat, j ≠ 4 → j ≠ 6 → st.getLsbD j = r.status.getLsbD j
    let chain (f : Int → Int → Int → Int × Bool) (v : Word) (c : Nat → Bool) : Prop :=
      ∀ i < 6, f (digit x i) (digit y i) (c i).toNat = ((digit v i : Int), c (i + 1))
    let sum (p q k : Int) : Int × Bool := if 10 ≤ p + q + k then ((p + q + k + 6) % 16, true) else (p + q + k, false)
    let dif (p q k : Int) : Int × Bool := if p - q - k < 0 then ((p - q - k + 10) % 16, true) else ((p - q - k) % 16, false)
    (∃ v c, c 0 = false ∧ chain sum v c ∧ out (.dadd th d a b) v (c 6)) ∧
    (∃ v c, c 0 = r.status.getLsbD 4 ∧ chain sum v c ∧ out (.daddc th d a b) v (c 6)) ∧
    (∃ v c, c 0 = false ∧ chain dif v c ∧ out (.dsub th d a b) v (c 6)) ∧
    (∃ v c, c 0 = r.status.getLsbD 4 ∧ chain dif v c ∧ out (.dsubb th d a b) v (c 6)) ∧
    out (.dcmp th d a b) (if x.toNat < y.toNat then 0xFFFFFF else if x = y then 0 else 1) (decide (x.toNat < y.toNat))

/-- R146, R147: the instructions with an immediate; a shift by 24 or more raises ILLEGAL. -/
def Obligations.ImmediateResults : Prop :=
  ∀ (s : State) (th : ThreadId) (d a : RegField) (imm : BitVec 8) (up : BitVec 13), ready s th →
    let x := rd (regsOf s th) a
    let i : Word := imm.signExtend 24
    let n := imm.toNat
    exec (.addi th d a imm) s = writes s th d (x + i) ∧
    exec (.andi th d a imm) s = writes s th d (x &&& i) ∧
    exec (.ori th d a imm) s = writes s th d (x ||| i) ∧
    exec (.xori th d a imm) s = writes s th d (x ^^^ i) ∧
    exec (.slti th d a imm) s = writes s th d (if x.toInt < imm.toInt then 1 else 0) ∧
    exec (.sltui th d a imm) s = writes s th d (if x.toNat < i.toNat then 1 else 0) ∧
    exec (.lui th d up) s = writes s th d (BitVec.ofNat 24 (up.toNat * 2048)) ∧
    exec (.orli th d up) s = writes s th d (rd (regsOf s th) d ||| up.setWidth 24) ∧
    (n ≤ 23 → exec (.slli th d a imm) s = writes s th d (x <<< n) ∧ exec (.srli th d a imm) s = writes s th d (x >>> n) ∧
      exec (.srai th d a imm) s = writes s th d (x.sshiftRight n)) ∧
    (24 ≤ n → exec (.slli th d a imm) s = raises s th { code := 1 } ∧ exec (.srli th d a imm) s = raises s th { code := 1 } ∧
      exec (.srai th d a imm) s = raises s th { code := 1 })

/-! Control flow. -/

/-- R126, R147: a taken branch or jump continues at PC + 3 × sx(offset), one that is not taken at PC + 3; taken to an offset
outside the segment it raises FETCH_FAULT with reason ALIGNMENT itself, and BCS and BCC with A not g0 raise ILLEGAL. JR
continues at rA. -/
def Obligations.BranchesAndJumps : Prop :=
  ∀ (s : State) (th : ThreadId) (a b : RegField) (z : BitVec 10) (c : BitVec 8) (j : BitVec 16), ready s th →
    let r := regsOf s th
    let x := rd r a
    let y := rd r b
    let lands (i : Instr) (target : Int) : Prop :=
      (0 ≤ target ∧ target ≤ 0xFFFFFC ∧ target % 3 = 0 → exec i s = .next (retired s th { r with pc := BitVec.ofInt 24 target })) ∧
      (target < 0 ∨ 0xFFFFFC < target ∨ target % 3 ≠ 0 → ∃ va, exec i s = raises s th { code := 4, detail := 4, va := some va })
    let goes (i : Instr) (taken : Prop) (off : Int) : Prop :=
      (taken → lands i ((r.pc.toNat : Int) + 3 * off)) ∧ (¬ taken → exec i s = leaves s th r)
    goes (.beqz th a z) (x.toInt = 0) z.toInt ∧ goes (.bnez th a z) (x.toInt ≠ 0) z.toInt ∧
    goes (.bltz th a z) (x.toInt < 0) z.toInt ∧ goes (.bgez th a z) (0 ≤ x.toInt) z.toInt ∧
    goes (.bgtz th a z) (0 < x.toInt) z.toInt ∧ goes (.blez th a z) (x.toInt ≤ 0) z.toInt ∧
    goes (.bcs th 0 z) (r.status.getLsbD 4 = true) z.toInt ∧ goes (.bcc th 0 z) (r.status.getLsbD 4 = false) z.toInt ∧
    (a ≠ 0 → exec (.bcs th a z) s = raises s th { code := 1 } ∧ exec (.bcc th a z) s = raises s th { code := 1 }) ∧
    goes (.beq th a b c) (x = y) c.toInt ∧ goes (.bne th a b c) (x ≠ y) c.toInt ∧
    goes (.blt th a b c) (x.toInt < y.toInt) c.toInt ∧ goes (.bge th a b c) (y.toInt ≤ x.toInt) c.toInt ∧
    goes (.bltu th a b c) (x.toNat < y.toNat) c.toInt ∧ goes (.bgeu th a b c) (y.toNat ≤ x.toNat) c.toInt ∧
    goes (.j th j) True j.toInt ∧ lands (.jr th 0 a 0) x.toNat

/-- The registers b after a call with k groups from registers a (R131, R149): the window slides up, the caller's w(6k) to w23
become w0 on, each new register but w23 is 0 or what stood in it, w23 holds the return address, LINK the code. -/
def calledFrom (a : Arch) (k : Nat) (link : BitVec 3) (ret : Word) (b : Arch) : Prop :=
  b.wp.val = (a.wp.val + k) % 32 ∧ b.res = a.res + k ∧ b.link.get b.wp = link ∧
  (∀ g : Fin 32, g ≠ b.wp → b.link.get g = a.link.get g) ∧ rdW b 23 = ret ∧
  (∀ i : Nat, i + 6 * k < 24 → rdW b i = rdW a (i + 6 * k)) ∧
  (∀ i : Nat, 24 ≤ i + 6 * k → i < 23 → rdW b i = 0 ∨ rdW b i = a.win.get (winIdx b.wp i)) ∧
  { b with wp := a.wp, res := a.res, link := a.link, win := a.win, pc := a.pc, status := a.status } = a

/-- R131, R133, R134, R149: a call with k groups, k + 1 groups being free so that nothing is spilled; to a target that is not a
valid PC it raises FETCH_FAULT instead. CALLU calls with one group into user mode, with LINK 0b101 and SRETV in w23, and raises
PRIVILEGE in user mode. -/
def Obligations.CallsSlideTheWindow : Prop :=
  ∀ (s : State) (th : ThreadId) (a : RegField) (off : BitVec 16), ready s th →
    let r := regsOf s th
    let rel : Int := (r.pc.toNat : Int) + 3 * off.toInt
    let call (i : Instr) (k : Nat) (link : BitVec 3) (ret : Word) (status : Word) (target : Int) : Prop :=
      (0 ≤ target ∧ target ≤ 0xFFFFFC ∧ target % 3 = 0 → k + 1 ≤ 28 - r.res →
        ∃ b : Arch, calledFrom r k link ret b ∧ b.pc = BitVec.ofInt 24 target ∧ b.status = status ∧
          exec i s = .next (retire (setArch { fetched s th with freeCtr := s.freeCtr + 1 } th b) th)) ∧
      (target < 0 ∨ 0xFFFFFC < target ∨ target % 3 ≠ 0 → ∃ va, exec i s = raises s th { code := 4, detail := 4, va := some va })
    call (.callg1 th off) 1 1 (r.pc + 3) r.status rel ∧ call (.callg2 th off) 2 2 (r.pc + 3) r.status rel ∧
    call (.callg3 th off) 3 3 (r.pc + 3) r.status rel ∧
    call (.callrg1 th 0 a 0) 1 1 (r.pc + 3) r.status (rd r a).toNat ∧ call (.callrg2 th 0 a 0) 2 2 (r.pc + 3) r.status (rd r a).toNat ∧
    call (.callrg3 th 0 a 0) 3 3 (r.pc + 3) r.status (rd r a).toNat ∧
    (r.status.getLsbD 0 = true → call (.callu th 0 a 0) 1 5 r.sretv (putBit r.status 0 false) (rd r a).toNat) ∧
    (r.status.getLsbD 0 = false → exec (.callu th 0 a 0) s = raises s th { code := 2 })

/-- R133, R135, R149: RET with LINK k of 1 to 3 and k resident groups slides back by k groups, leaves LINK 0 behind and continues
at w23; a RET on LINK 0, 0b100, 0b110 or 0b111 raises ILLEGAL. RETS in a frame made by an entry, with no signal pending above the
saved priority, restores MODE, PRIO and the flags from w22 and continues at w23 one group lower (R158); on another LINK it raises
ILLEGAL, else in user mode PRIVILEGE (R144, R156). The decided LINK 0b100 and 0b110 are the model's reading (log entry 19, DEDUCED). -/
def Obligations.ReturnsSlideBack : Prop :=
  ∀ (s : State) (th : ThreadId), ready s th →
    let r := regsOf s th
    let l := (r.link.get r.wp).toNat
    let valid (w : Word) : Prop := w.toNat ≤ 0xFFFFFC ∧ w.toNat % 3 = 0
    let back (k : Nat) (status : Word) : Arch :=
      { r with link := r.link.set r.wp.val 0 r.wp.isLt, wp := ⟨(r.wp.val + (32 - k)) % 32, Nat.mod_lt _ (by decide)⟩, res := r.res - k,
               pc := rdW r 23, status := status }
    (1 ≤ l → l ≤ 3 → l ≤ r.res → valid (rdW r 23) → exec (.ret th 0 0 0) s = .next (retired s th (back l r.status))) ∧
    (l = 0 ∨ l = 4 ∨ 6 ≤ l → exec (.ret th 0 0 0) s = raises s th { code := 1 }) ∧
    (r.status.getLsbD 0 = true → l = 7 → 1 ≤ r.res → valid (rdW r 23) →
      signalAbove (thr s th) ((rdW r 22).extractLsb' 1 3).toNat = none →
      exec (.rets th 0 0 0) s = .next (retired s th (back 1 ((r.status &&& 0xFFFF80) ||| (rdW r 22 &&& 0x00007F))))) ∧
    (r.status.getLsbD 0 = false → l = 7 → exec (.rets th 0 0 0) s = raises s th { code := 2 }) ∧
    (l ≠ 7 → exec (.rets th 0 0 0) s = raises s th { code := 1 })

/-- R133, R103, R104: a RET on LINK 0b101 returns to SRETV in system mode whatever w23 holds, and ends the handler: with neither
COMMIT nor ABORT its consignment is reported FAILED with HVAL, and the thread no longer runs it. -/
def Obligations.RetToTheRuntimeEndsTheHandler : Prop :=
  ∀ (s : State) (th : ThreadId) (c : Cons), ready s th →
    let r := regsOf s th
    (r.link.get r.wp) = 5 → 1 ≤ r.res → r.sretv.toNat ≤ 0xFFFFFC → r.sretv.toNat % 3 = 0 →
    (thr s th).seq ≠ 0 → (thr s th).ended = .no → consOf s (thr s th).seq = some c →
    ∃ t c', exec (.ret th 0 0 0) s = .next t ∧ ((thr t th).run = .ending ∨ (thr t th).run = .free) ∧
      (thr t th).arch.pc = r.sretv ∧ (thr t th).arch.status.getLsbD 0 = true ∧ (thr t th).csetLines = [] ∧
      consOf t (thr s th).seq = some c' ∧
      c'.report = some { committed := false, status := if c.expired then 0x0503 else 0x0603, value := r.hval, resultLen := 0 }

/-- R118, R136, R156, R157: taking an exception while a group is free. The window slides by one group with LINK 0b111; w23 takes
the saved PC (the next instruction for SYSCALL), w22 the saved STATUS with CAUSE, w21 and EXCINFO the code and its detail; STATUS
enters system mode at priority 6 or above, the flags staying, and the PC is the vector.

R103, R110: an exception of a handler that has not ended ends its consignment FAILED, as COMMIT_OVERFLOW or HANDLER_FAULT with
the exception code as HANDLER_VALUE; its commit set and its holds are gone. -/
def Obligations.ExceptionEntry : Prop :=
  (∀ (s : State) (th : ThreadId) (e : Exn), e.code < 16 → e.detail < 65536 →
      let r := regsOf s th
      let b := regsOf (takeExn s th e) th
      let pri := max 6 (r.status.extractLsb' 1 3).toNat
      1 ≤ 28 - r.res →
        b.pc = r.vbase + BitVec.ofNat 24 (24 * e.code) ∧ b.wp.val = (r.wp.val + 1) % 32 ∧ b.res = r.res + 1 ∧ b.link.get b.wp = 7 ∧
        rdW b 23 = (if e.next then r.pc + 3 else r.pc) ∧
        rdW b 22 = ((r.status &&& 0x00007F) ||| BitVec.ofNat 24 (e.code * 256)) ∧
        rdW b 21 = BitVec.ofNat 24 (e.detail * 256 + e.code) ∧ b.excinfo = BitVec.ofNat 24 (e.detail * 256 + e.code) ∧
        b.status = ((r.status &&& 0x000070) ||| BitVec.ofNat 24 (e.code * 256 + pri * 2 + 1)) ∧
        b.faultVa = (match e.va with
          | some v => BitVec.ofNat 48 v
          | none => r.faultVa) ∧
        b.g = r.g ∧ b.f = r.f ∧ b.hval = r.hval ∧ b.rlen = r.rlen ∧ b.fcsr = r.fcsr ∧ (∀ i : Nat, i < 18 → rdW b i = rdW r (i + 6))) ∧
  (∀ (s : State) (th : ThreadId) (e : Exn) (c : Cons),
      (regsOf s th).status.getLsbD 0 = false → (regsOf s th).res < 28 → (thr s th).seq ≠ 0 → (thr s th).ended = .no → consOf s (thr s th).seq = some c →
      ∃ c', consOf (takeExn s th e) (thr s th).seq = some c' ∧
        c'.report = some { committed := false, status := if e.code = 10 then 0x0602 else 0x0601, value := BitVec.ofNat 24 e.code, resultLen := 0 } ∧
        c'.phase = .ended ∧ (thr (takeExn s th e) th).csetLines = [] ∧ (thr (takeExn s th e) th).csetBytes = [] ∧
        ((thr (takeExn s th e) th).run = .ending ∨ (thr (takeExn s th e) th).run = .free) ∧
        ∀ h ∈ (basinOf (takeExn s th e) th.basin.val).holds, h.2 ≠ (thr s th).seq)

/-- R127, R150, R156: an undefined word raises ILLEGAL; SYSCALL raises SYSCALL with the service number A:B, and ILLEGAL where D is
not 0. -/
def Obligations.IllegalAndSyscall : Prop :=
  ∀ (s : State) (th : ThreadId) (w : Word) (d a b : RegField), ready s th →
    exec (.illegal th w) s = raises s th { code := 1 } ∧
    (d = 0 → exec (.syscall th d a b) s = raises s th { code := 11, detail := a.val * 32 + b.val, next := true }) ∧
    (d ≠ 0 → exec (.syscall th d a b) s = raises s th { code := 1 })

/-- R126, R141: while a thread may issue and the fetch at its PC fails, every instruction raises FETCH_FAULT instead of its own
effect; while it may not issue, an instruction of it does nothing. Stated of an instruction of each shape. -/
def Obligations.FetchFaultComesFirst : Prop :=
  ∀ (s : State) (th : ThreadId) (d a b : RegField) (imm : BitVec 8) (j : BitVec 16) (w : Word),
    (∀ e : Exn, canIssue s th = true → fetchOk s th = .error e →
      ∀ i ∈ [Instr.add th d a b, .addi th d a imm, .j th j, .lw th d a imm, .sw th d a imm, .amoadd th d a b, .ret th d a b, .illegal th w],
        exec i s = .next (takeExn s th e)) ∧
    (canIssue s th = false →
      ∀ i ∈ [Instr.add th d a b, .addi th d a imm, .j th j, .lw th d a imm, .sw th d a imm, .amoadd th d a b, .ret th d a b, .illegal th w],
        exec i s = .next s) ∧
    ((regsOf s th).pc.toNat % 3 ≠ 0 ∨ 0xFFFFFC < (regsOf s th).pc.toNat → ∃ va, fetchOk s th = .error { code := 4, detail := 4, va := some va })

/-! System instructions. -/

/-- The registers that MFS reads in system mode, by selector (R145). -/
def systemRegisters (s : State) (th : ThreadId) (r : Arch) : List (Nat × Word) :=
  [(0x000, BitVec.ofNat 24 ((r.status.getLsbD 6).toNat * 4 + (r.status.getLsbD 5).toNat * 2 + (r.status.getLsbD 4).toNat)),
   (0x001, r.fcsr), (0x002, r.hval), (0x003, r.rlen), (0x004, r.dlvec), (0x008, r.nseg), (0x009, r.ucseg), (0x00A, placeReg s th),
   (0x100, r.status), (0x101, r.snseg), (0x102, r.scseg), (0x103, r.vbase), (0x104, r.sretv), (0x105, r.bbase), (0x106, r.blim),
   (0x107, r.bsp), (0x108, BitVec.ofNat 24 (r.res % 32 * 32 + r.wp.val)), (0x109, r.excinfo),
   (0x10A, r.faultVa.extractLsb' 0 24), (0x10B, r.faultVa.extractLsb' 24 24), (0x10C, r.moorFaultAddr.extractLsb' 0 24),
   (0x10D, r.moorFaultAddr.extractLsb' 24 24), (0x10E, r.ptroot.extractLsb' 0 24), (0x10F, (r.ptroot.extractLsb' 24 16).setWidth 24)]

/-- R144, R145: MFS writes the register that its selector names to rD; a selector of 0x100 or above raises PRIVILEGE in user mode,
before any other check, and an unlisted one ILLEGAL.

R9, R144, R145, R163: MTS writes the register that its selector names, reserved bits staying 0; in user mode it raises
PRIVILEGE for a selector of 0x100 or above or one that is read-only there, and ILLEGAL for PLACE, for a read-only register and
for an unlisted selector. -/
def Obligations.SystemRegisters : Prop :=
  (∀ (s : State) (th : ThreadId) (d : RegField) (sel : BitVec 10), ready s th →
      let r := regsOf s th
      (∀ v : Word, (sel.toNat, v) ∈ systemRegisters s th r → (r.status.getLsbD 0 = true ∨ sel.toNat < 0x100) →
        exec (.mfs th d sel) s = writes s th d v) ∧
      (r.status.getLsbD 0 = false → 0x100 ≤ sel.toNat → exec (.mfs th d sel) s = raises s th { code := 2 }) ∧
      ((r.status.getLsbD 0 = true ∨ sel.toNat < 0x100) → (∀ v : Word, (sel.toNat, v) ∉ systemRegisters s th r) →
        exec (.mfs th d sel) s = raises s th { code := 1 })) ∧
  (∀ (s : State) (th : ThreadId) (d : RegField), ready s th →
      let r := regsOf s th
      let v := rd r d
      let sys := r.status.getLsbD 0 = true
      exec (.mts th d 0x000) s = leaves s th { r with status := putBit (putBit (putBit r.status 4 (v.getLsbD 0)) 5 (v.getLsbD 1)) 6 (v.getLsbD 2) } ∧
      exec (.mts th d 0x001) s = leaves s th { r with fcsr := v &&& 0x007FFF } ∧
      exec (.mts th d 0x002) s = leaves s th { r with hval := v } ∧ exec (.mts th d 0x003) s = leaves s th { r with rlen := v } ∧
      exec (.mts th d 0x004) s = leaves s th { r with dlvec := v } ∧
      (sys → exec (.mts th d 0x008) s = leaves s th { r with nseg := v } ∧ exec (.mts th d 0x009) s = leaves s th { r with ucseg := v } ∧
        exec (.mts th d 0x100) s = leaves s th { r with status := v &&& 0x00FF7F } ∧
        exec (.mts th d 0x101) s = leaves s th { r with snseg := v } ∧ exec (.mts th d 0x102) s = leaves s th { r with scseg := v } ∧
        exec (.mts th d 0x103) s = leaves s th { r with vbase := v } ∧ exec (.mts th d 0x104) s = leaves s th { r with sretv := v } ∧
        exec (.mts th d 0x105) s = leaves s th { r with bbase := v } ∧ exec (.mts th d 0x106) s = leaves s th { r with blim := v } ∧
        exec (.mts th d 0x107) s = leaves s th { r with bsp := v } ∧
        exec (.mts th d 0x10E) s = leaves s th { r with ptroot := r.ptroot.extractLsb' 24 16 ++ v } ∧
        exec (.mts th d 0x10F) s = leaves s th { r with ptroot := v.extractLsb' 0 16 ++ r.ptroot.extractLsb' 0 24 }) ∧
      (¬ sys → ∀ sel : BitVec 10, 0x100 ≤ sel.toNat ∨ sel.toNat = 0x008 ∨ sel.toNat = 0x009 →
        exec (.mts th d sel) s = raises s th { code := 2 }) ∧
      (¬ sys → ∀ sel : BitVec 10, sel.toNat = 0x00A ∨ (4 < sel.toNat ∧ sel.toNat < 8) ∨ (0x00A < sel.toNat ∧ sel.toNat < 0x100) →
        exec (.mts th d sel) s = raises s th { code := 1 }) ∧
      (sys → ∀ sel : BitVec 10, sel.toNat = 0x00A ∨ (0x108 ≤ sel.toNat ∧ sel.toNat ≤ 0x10D) ∨ 0x10F < sel.toNat ∨
          (4 < sel.toNat ∧ sel.toNat < 8) ∨ (0x00A < sel.toNat ∧ sel.toNat < 0x100) →
        exec (.mts th d sel) s = raises s th { code := 1 }))

/-- R96, R129, R142, R144, R151: YIELD advances the PC and gives up a slot; RDTIME writes the harbour clock to a triple; TLBINV
discards every translation of the thread in system mode and raises PRIVILEGE in user mode; a wrong field raises ILLEGAL. -/
def Obligations.YieldRdtimeTlbinv : Prop :=
  ∀ (s : State) (th : ThreadId) (d a b : RegField), ready s th →
    let r := regsOf s th
    exec (.yield th d a b) s = .next (modThr (retired s th { r with pc := r.pc + 3 }) th (fun t => { t with yielded := true })) ∧
    (8 ≤ d.val ∧ d.val ≤ 29 → exec (.rdtime th d 0 0) s = leaves s th (wrTriple r d (BitVec.ofNat 64 (harbourNs s)))) ∧
    (d.val < 8 ∨ 29 < d.val ∨ a ≠ 0 ∨ b ≠ 0 → exec (.rdtime th d a b) s = raises s th { code := 1 }) ∧
    (r.status.getLsbD 0 = true → ∃ t, exec (.tlbinv th 0 0 0) s = .next t ∧ (thr t th).tlb = [] ∧ (thr t th).arch = { r with pc := r.pc + 3 }) ∧
    (r.status.getLsbD 0 = false → exec (.tlbinv th 0 0 0) s = raises s th { code := 2 }) ∧
    (d ≠ 0 ∨ a ≠ 0 ∨ b ≠ 0 → exec (.tlbinv th d a b) s = raises s th { code := 1 })

/-- R112, R116: WAITCP of CP0 to CP2 with a posted result writes its status word to rD and frees the result; of CP3 it returns the
lowest mailbox entry in state 2 and sets it to state 3; with nothing posted the thread parks at the instruction. A of 4 to 7 raises
UNDEF_CP, A of 8 or more or B not 0 raises ILLEGAL. -/
def Obligations.WaitcpCollectsOrParks : Prop :=
  ∀ (s : State) (th : ThreadId) (d a b : RegField), ready s th →
    let r := regsOf s th
    (∀ (n : Fin 3) (w : Word), a.val = n.val → (thr s th).cp.get n = .posted w →
      ∃ t, exec (.waitcp th d a 0) s = .next t ∧ (thr t th).arch = { wr r d w with pc := r.pc + 3 } ∧ (thr t th).cp.get n = .idle ∧ (thr t th).run = .active) ∧
    (∀ n : Fin 3, a.val = n.val → (∀ w : Word, (thr s th).cp.get n ≠ .posted w) →
      exec (.waitcp th d a 0) s = .next (modThr (fetched s th) th (fun t => { t with run := .waitcp n.val d }))) ∧
    (a.val = 3 → (∀ i < 8, mboxState s th i ≠ 2) →
      exec (.waitcp th d a 0) s = .next (modThr (fetched s th) th (fun t => { t with run := .waitcp 3 d }))) ∧
    (∀ i < 8, a.val = 3 → mboxState s th i = 2 → (∀ j < i, mboxState s th j ≠ 2) → (thr s th).sinceCk < 31 →
      ∃ t, exec (.waitcp th d a 0) s = .next t ∧ (thr t th).arch = { wr r d (BitVec.ofNat 24 i) with pc := r.pc + 3 } ∧
        mboxState t th i = 3 ∧ (thr t th).run = .active) ∧
    (4 ≤ a.val → a.val < 8 → exec (.waitcp th d a 0) s = raises s th { code := 3 }) ∧
    (8 ≤ a.val ∨ b ≠ 0 → exec (.waitcp th d a b) s = raises s th { code := 1 })

/-! Loads, stores and atomics. -/

/-- What a load instruction answers: the access at va of n bytes; to CACHED or LEDGERED bytes without poison it writes the bytes,
least significant first (R125), as `res` says and retires; with poison it stays at its PC with MACHINE_CHECK pending (R219). -/
def loadsAs (s : State) (th : ThreadId) (ls : List Loc) (i : Instr) (va n : Nat) (dest : LoadDest) (res : Nat → Arch) : Prop :=
  let op := MemOp.load va n dest
  let u := fillAll (reached (fetched s th) th op ls) th ls
  exec i s = .next (access (fetched s th) th op) ∧
  (admitted (fetched s th) th op ls → cacheable ls →
    (loadsPoison u th ls = false →
      exec i s = .next (retire (setArch u th { res (leNat (ls.map (seenByte u th))) with pc := (regsOf s th).pc + 3 }) th)) ∧
    (loadsPoison u th ls = true → exec i s = .next (machineCheck u th 0 ls)))

/-- R125, R137, R147: the near loads, at (rA + sx(IMM8)) mod 2^24 of the near segment; LP with a field that names no pair raises
ILLEGAL.

R125, R138, R147: the far loads, at (pair(A) + rB) mod 2^48; an A, or the D of LPF, that names no pair raises ILLEGAL. -/
def Obligations.Loads : Prop :=
  (∀ (s : State) (th : ThreadId) (d a : RegField) (imm : BitVec 8) (ls : List Loc), ready s th →
      let r := regsOf s th
      let va := (if r.status.getLsbD 0 then r.snseg else r.nseg).toNat * 2 ^ 24 + (rd r a + imm.signExtend 24).toNat
      loadsAs s th ls (.lb th d a imm) va 1 (.reg d true) (fun v => wr r d ((BitVec.ofNat 8 v).signExtend 24)) ∧
      loadsAs s th ls (.lbu th d a imm) va 1 (.reg d false) (fun v => wr r d (BitVec.ofNat 24 v)) ∧
      loadsAs s th ls (.lh th d a imm) va 2 (.reg d true) (fun v => wr r d ((BitVec.ofNat 16 v).signExtend 24)) ∧
      loadsAs s th ls (.lhu th d a imm) va 2 (.reg d false) (fun v => wr r d (BitVec.ofNat 24 v)) ∧
      loadsAs s th ls (.lw th d a imm) va 3 (.reg d false) (fun v => wr r d (BitVec.ofNat 24 v)) ∧
      loadsAs s th ls (.fld th d a imm) va 8 (.freg d) (fun v => wrF r d (BitVec.ofNat 64 v)) ∧
      loadsAs s th ls (.fls th d a imm) va 4 (.freg d) (fun v => wrF32 r d (BitVec.ofNat 32 v)) ∧
      (8 ≤ d.val ∧ d.val ≤ 30 → loadsAs s th ls (.lp th d a imm) va 6 (.pair d) (fun v => wrPair r d (BitVec.ofNat 48 v))) ∧
      (d.val < 8 ∨ d.val = 31 → exec (.lp th d a imm) s = raises s th { code := 1 })) ∧
  (∀ (s : State) (th : ThreadId) (d a b : RegField) (ls : List Loc), ready s th →
      let r := regsOf s th
      let va := (rdPair r a + (rd r b).setWidth 48).toNat
      (8 ≤ a.val ∧ a.val ≤ 30 →
        loadsAs s th ls (.lbf th d a b) va 1 (.reg d true) (fun v => wr r d ((BitVec.ofNat 8 v).signExtend 24)) ∧
        loadsAs s th ls (.lbuf th d a b) va 1 (.reg d false) (fun v => wr r d (BitVec.ofNat 24 v)) ∧
        loadsAs s th ls (.lhf th d a b) va 2 (.reg d true) (fun v => wr r d ((BitVec.ofNat 16 v).signExtend 24)) ∧
        loadsAs s th ls (.lhuf th d a b) va 2 (.reg d false) (fun v => wr r d (BitVec.ofNat 24 v)) ∧
        loadsAs s th ls (.lwf th d a b) va 3 (.reg d false) (fun v => wr r d (BitVec.ofNat 24 v)) ∧
        loadsAs s th ls (.fldf th d a b) va 8 (.freg d) (fun v => wrF r d (BitVec.ofNat 64 v)) ∧
        loadsAs s th ls (.flsf th d a b) va 4 (.freg d) (fun v => wrF32 r d (BitVec.ofNat 32 v)) ∧
        (8 ≤ d.val ∧ d.val ≤ 30 → loadsAs s th ls (.lpf th d a b) va 6 (.pair d) (fun v => wrPair r d (BitVec.ofNat 48 v)))) ∧
      (a.val < 8 ∨ a.val = 31 → ∀ i ∈ [Instr.lbf th d a b, .lbuf th d a b, .lhf th d a b, .lhuf th d a b, .lwf th d a b, .fldf th d a b, .flsf th d a b, .lpf th d a b],
        exec i s = raises s th { code := 1 }) ∧
      (d.val < 8 ∨ d.val = 31 → exec (.lpf th d a b) s = raises s th { code := 1 }))

/-- What a store instruction answers: the access of the low n bytes of v at va, least significant first (R125); to CACHED or
LEDGERED bytes they join the gated store buffer in order (R335) and the instruction retires, no register changed. -/
def storesAs (s : State) (th : ThreadId) (ls : List Loc) (i : Instr) (va n v : Nat) : Prop :=
  let op := MemOp.store va (toLe n v)
  exec i s = .next (access (fetched s th) th op) ∧
  (admitted (fetched s th) th op ls → cacheable ls →
    exec i s = .next (retire (setArch (modThr (reached (fetched s th) th op ls) th (fun t => { t with gated := t.gated ++ piecesOf ls (toLe n v) }))
      th { regsOf s th with pc := (regsOf s th).pc + 3 }) th))

/-- R125, R137, R138, R147, R335: the near and the far stores.

R106, R173, R335: what stores in the gated store buffer change of what a thread reads: each stored byte reads as the last one
stored to it, every other byte as before, and no other thread reads any of them. -/
def Obligations.NearAndFarStores : Prop :=
  (∀ (s : State) (th : ThreadId) (d a b : RegField) (imm : BitVec 8) (ls : List Loc), ready s th →
      let r := regsOf s th
      let va := (if r.status.getLsbD 0 then r.snseg else r.nseg).toNat * 2 ^ 24 + (rd r a + imm.signExtend 24).toNat
      let far := (rdPair r a + (rd r b).setWidth 48).toNat
      (r.status.getLsbD 0 = true ∨ 0x100 ≤ (rd r a + imm.signExtend 24).toNat →
        storesAs s th ls (.sb th d a imm) va 1 (rd r d).toNat ∧ storesAs s th ls (.sh th d a imm) va 2 (rd r d).toNat ∧
        storesAs s th ls (.sw th d a imm) va 3 (rd r d).toNat ∧ storesAs s th ls (.fsd th d a imm) va 8 (rdF r d).toNat ∧
        storesAs s th ls (.fss th d a imm) va 4 ((rdF r d).extractLsb' 0 32).toNat ∧
        (8 ≤ d.val ∧ d.val ≤ 30 → storesAs s th ls (.sp th d a imm) va 6 (rdPair r d).toNat)) ∧
      (d.val < 8 ∨ d.val = 31 → exec (.sp th d a imm) s = raises s th { code := 1 } ∧ exec (.spf th d a b) s = raises s th { code := 1 }) ∧
      (8 ≤ a.val ∧ a.val ≤ 30 →
        storesAs s th ls (.sbf th d a b) far 1 (rd r d).toNat ∧ storesAs s th ls (.shf th d a b) far 2 (rd r d).toNat ∧
        storesAs s th ls (.swf th d a b) far 3 (rd r d).toNat ∧ storesAs s th ls (.fsdf th d a b) far 8 (rdF r d).toNat ∧
        storesAs s th ls (.fssf th d a b) far 4 ((rdF r d).extractLsb' 0 32).toNat ∧
        (8 ≤ d.val ∧ d.val ≤ 30 → storesAs s th ls (.spf th d a b) far 6 (rdPair r d).toNat)) ∧
      (a.val < 8 ∨ a.val = 31 → ∀ i ∈ [Instr.sbf th d a b, .shf th d a b, .swf th d a b, .fsdf th d a b, .fssf th d a b, .spf th d a b],
        exec i s = raises s th { code := 1 })) ∧
  (∀ (s : State) (th x : ThreadId) (l : Loc) (before after : List GStore) (g : GStore),
      let t := modThr s th (fun u => { u with gated := u.gated ++ (before ++ g :: after) })
      ((∀ h ∈ before ++ g :: after, ¬ (h.obj = l.obj ∧ h.addr = l.addr)) → seenByte t th l = seenByte s th l) ∧
      (g.obj = l.obj → g.addr = l.addr → (∀ h ∈ after, ¬ (h.obj = l.obj ∧ h.addr = l.addr)) → seenByte t th l = g.byte) ∧
      (x ≠ th → seenByte t x l = seenByte s x l) ∧ t.mem = s.mem)

/-- R172, R188, R193: a store to UNCACHED HBM of the thread's own basin, or to a DEVICE register of an island that is ON, while no
gated store waits: the bytes are written at once and every other byte of memory stays; the DEVICE store is outstanding until it
completes. A register that its own row of the table covers changes by that row, not here (log entry 9). -/
def Obligations.StoresOutsideTheCaches : Prop :=
  ∀ (s : State) (th : ThreadId) (va : Nat) (bs : List Byte) (ls : List Loc),
    let op := MemOp.store va bs
    let t := access s th op
    let r := regsOf s th
    admitted s th op ls → ls ≠ [] → (thr s th).gated = [] →
    ((∀ l ∈ ls, l.type = .uncached ∧ l.obj = .phys ∧ uncachedBasin l.addr = th.basin.val) →
      t.mem = { s.mem with hbm := (piecesOf ls bs).foldl (fun m g => tset 0 m g.addr g.byte) s.mem.hbm } ∧
      regsOf t th = { r with pc := r.pc + 3 } ∧ (thr t th).stores = (thr s th).stores) ∧
    (∀ n : Nat, (∀ l ∈ ls, l.type = .device ∧ l.obj = .device ∧ deviceIsland l.addr = n) → (islandOf s n).state = 3 → (islandOf s n).reset = false →
      t.mem = { s.mem with device := (piecesOf ls bs).foldl (fun m g => tset 0 m g.addr g.byte) s.mem.device } ∧
      regsOf t th = { r with pc := r.pc + 3 } ∧
      (thr t th).stores = (thr s th).stores ++ [{ id := (thr s th).nextStore, kind := .device n, va := BitVec.ofNat 48 va }])

/-- R105 to R107: an access whose lines would pass 64 raises COMMIT_OVERFLOW; one that meets a hold of a younger consignment waits
for it, and one that meets the hold of an older consignment restarts; a fault of its translation is raised. -/
def Obligations.AccessesThatDoNotComplete : Prop :=
  ∀ (s : State) (th : ThreadId) (op : MemOp) (ls : List Loc) (e : Exn) (line holder : Nat),
    (translate s th (opKind op) (opVa op) (opLen op) = .error e → access s th op = takeExn s th e) ∧
    (translate s th (opKind op) (opVa op) (opLen op) = .ok ls →
      (afterEnd s th (opKind op) ls = true → access s th op = takeExn s th { code := 1 }) ∧
      (afterEnd s th (opKind op) ls = false →
        (64 < (thr s th).csetLines.length + ((linesOf ls).filter (fun l => !((thr s th).csetLines.contains l))).length →
          access s th op = takeExn s th { code := 10 }) ∧
        ((thr s th).csetLines.length + ((linesOf ls).filter (fun l => !((thr s th).csetLines.contains l))).length ≤ 64 →
          conflictOf s th (linesOf ls) = some (line, holder) →
          ((thr s th).seq < holder → (thr (access s th op) th).run = .hold ∧ (thr (access s th op) th).arch = (thr s th).arch ∧
            ∃ w, (thr (access s th op) th).wait = some w ∧ w.op = some op ∧ w.why = .hold (line / 2 ^ 14) (line % 2 ^ 14)) ∧
          (holder ≤ (thr s th).seq → (thr (access s th op) th).run = .hold ∧ (thr (access s th op) th).csetLines = [] ∧
            (thr (access s th op) th).gated = [] ∧ (thr (access s th op) th).csetBytes = []))))

/-- What an AMO answers on n bytes at va: between two retry points, with the cached lines recalled to the home, rD (or pair(D)) takes
the old value, and memory `new` of it where that is some value (R148, R214, R336). -/
def amoAs (s : State) (th : ThreadId) (ls : List Loc) (i : Instr) (fn : AmoFn) (va n : Nat) (d : RegField) (cmp operand : Nat)
    (res : Nat → Arch) (new : Nat → Option Nat) : Prop :=
  let op := MemOp.amo fn va n d cmp operand
  let u := recalled (reached (fetched s th) th op ls) th ls
  let old := leNat (ls.map (seenByte u th))
  let w := match new old with
    | none => u
    | some v => (ls.zip (toLe n v)).foldl (fun s p => amoByte s th p.1 p.2) u
  exec i s = .next (access (fetched s th) th op) ∧
  (admitted (fetched s th) th op ls → cacheable ls → loadsPoison u th ls = false →
    exec i s = .next (retryPoint (retire (setArch w th { res old with pc := (regsOf s th).pc + 3 }) th) th))

/-- R148: the twenty atomics, near and far, on a word and on a pair; a register group that names no pair raises ILLEGAL. -/
def Obligations.Atomics : Prop :=
  ∀ (s : State) (th : ThreadId) (d a b : RegField) (ls : List Loc), ready s th →
    let r := regsOf s th
    let near := (if r.status.getLsbD 0 then r.snseg else r.nseg).toNat * 2 ^ 24 + (rd r a).toNat
    let far := (rdPair r a).toNat
    let isPair (x : RegField) : Prop := 8 ≤ x.val ∧ x.val ≤ 30
    let word (i : Instr) (fn : AmoFn) (va : Nat) (new : Word → Option Word) : Prop :=
      amoAs s th ls i fn va 3 d (rd r d).toNat (rd r b).toNat (fun o => wr r d (BitVec.ofNat 24 o)) (fun o => (new (BitVec.ofNat 24 o)).map BitVec.toNat)
    let pair (i : Instr) (fn : AmoFn) (va : Nat) (new : Pair → Option Pair) : Prop :=
      amoAs s th ls i fn va 6 d (rdPair r d).toNat (rdPair r b).toNat (fun o => wrPair r d (BitVec.ofNat 48 o)) (fun o => (new (BitVec.ofNat 48 o)).map BitVec.toNat)
    let y := rd r b
    let z := rdPair r b
    (r.status.getLsbD 0 = true ∨ 0x100 ≤ (rd r a).toNat →
      word (.amoadd th d a b) .add near (fun o => some (o + y)) ∧ word (.amoswap th d a b) .swap near (fun _ => some y) ∧
      word (.amocas th d a b) .cas near (fun o => if o = rd r d then some y else none) ∧
      word (.amomin th d a b) .min near (fun o => some (if y.toInt < o.toInt then y else o)) ∧
      word (.amomax th d a b) .max near (fun o => some (if o.toInt < y.toInt then y else o)) ∧
      (isPair d → isPair b →
        pair (.amopAdd th d a b) .add near (fun o => some (o + z)) ∧ pair (.amopSwap th d a b) .swap near (fun _ => some z) ∧
        pair (.amopCas th d a b) .cas near (fun o => if o = rdPair r d then some z else none) ∧
        pair (.amopMin th d a b) .min near (fun o => some (if z.toInt < o.toInt then z else o)) ∧
        pair (.amopMax th d a b) .max near (fun o => some (if o.toInt < z.toInt then z else o)))) ∧
    (isPair a →
      word (.amofAdd th d a b) .add far (fun o => some (o + y)) ∧ word (.amofSwap th d a b) .swap far (fun _ => some y) ∧
      word (.amofCas th d a b) .cas far (fun o => if o = rd r d then some y else none) ∧
      word (.amofMin th d a b) .min far (fun o => some (if y.toInt < o.toInt then y else o)) ∧
      word (.amofMax th d a b) .max far (fun o => some (if o.toInt < y.toInt then y else o)) ∧
      (isPair d → isPair b →
        pair (.amopfAdd th d a b) .add far (fun o => some (o + z)) ∧ pair (.amopfSwap th d a b) .swap far (fun _ => some z) ∧
        pair (.amopfCas th d a b) .cas far (fun o => if o = rdPair r d then some z else none) ∧
        pair (.amopfMin th d a b) .min far (fun o => some (if z.toInt < o.toInt then z else o)) ∧
        pair (.amopfMax th d a b) .max far (fun o => some (if o.toInt < z.toInt then z else o)))) ∧
    (¬ isPair a → ∀ i ∈ [Instr.amofAdd th d a b, .amofSwap th d a b, .amofCas th d a b, .amofMin th d a b, .amofMax th d a b],
      exec i s = raises s th { code := 1 }) ∧
    (¬ isPair d ∨ ¬ isPair b → ∀ i ∈ [Instr.amopAdd th d a b, .amopSwap th d a b, .amopCas th d a b, .amopMin th d a b, .amopMax th d a b,
      .amopfAdd th d a b, .amopfSwap th d a b, .amopfCas th d a b, .amopfMin th d a b, .amopfMax th d a b],
      exec i s = raises s th { code := 1 })

/-- R139: in user mode a near store or near atomic to offsets 0x00 to 0xFF raises STORE_FAULT with reason PERMISSION, whatever the page
grants; a form that raises ILLEGAL does so first (the near atomics: log entry 20, DEDUCED). -/
def Obligations.UserStoresBelow0x100 : Prop :=
  ∀ (s : State) (th : ThreadId) (d a b : RegField) (imm : BitVec 8), ready s th → (regsOf s th).status.getLsbD 0 = false →
    let r := regsOf s th
    let refused (i : Instr) (off : Word) : Prop := exec i s = raises s th { code := 6, detail := 2, va := some (r.nseg.toNat * 2 ^ 24 + off.toNat) }
    ((rd r a + imm.signExtend 24).toNat < 0x100 →
      (∀ i ∈ [Instr.sb th d a imm, .sh th d a imm, .sw th d a imm, .fsd th d a imm, .fss th d a imm], refused i (rd r a + imm.signExtend 24)) ∧
      (8 ≤ d.val ∧ d.val ≤ 30 → refused (.sp th d a imm) (rd r a + imm.signExtend 24))) ∧
    ((rd r a).toNat < 0x100 →
      (∀ i ∈ [Instr.amoadd th d a b, .amoswap th d a b, .amocas th d a b, .amomin th d a b, .amomax th d a b], refused i (rd r a)) ∧
      (8 ≤ d.val ∧ d.val ≤ 30 → 8 ≤ b.val ∧ b.val ≤ 30 →
        ∀ i ∈ [Instr.amopAdd th d a b, .amopSwap th d a b, .amopCas th d a b, .amopMin th d a b, .amopMax th d a b], refused i (rd r a)))

/-! Order, stores that leave the berth, and the end of a handler. -/

/-- R147, R176, R335: FENCE and FENCE.SS perform the thread's gated stores before they retire, FENCE.LL retires; none of them
changes a register. With a field that is not 0 they, MOOR, COMMIT and ABORT raise ILLEGAL.

R186, R188, R190: MOOR with every store complete and no failure recorded retires; with a failure recorded it raises
BARRIER_FAULT for the oldest, whose address MOOR_FAULT_ADDR takes, and the failures are then reported; with a store incomplete the
thread parks at the MOOR, and the limits of R187 begin. -/
def Obligations.FencesAndMoor : Prop :=
  (∀ (s : State) (th : ThreadId) (d a b : RegField), ready s th →
      let r := regsOf s th
      let released := Host.Outcome.next (retire (setArch (retryPoint (fetched s th) th) th { r with pc := r.pc + 3 }) th)
      exec (.fence th 0 0 0) s = released ∧ exec (.fenceSs th 0 0 0) s = released ∧ exec (.fenceLl th 0 0 0) s = leaves s th r ∧
      (thr (retryPoint (fetched s th) th) th).gated = [] ∧ (thr (retryPoint (fetched s th) th) th).arch = r ∧
      (d ≠ 0 ∨ a ≠ 0 ∨ b ≠ 0 → ∀ i ∈ [Instr.fence th d a b, .fenceLl th d a b, .fenceSs th d a b, .moor th d a b, .commit th d a b, .abort th d a b],
        exec i s = raises s th { code := 1 })) ∧
  (∀ (s : State) (th : ThreadId) (f : SFail), ready s th →
      let r := regsOf s th
      let t := thr s th
      (t.stores = [] → t.failures = [] →
        ∃ u, exec (.moor th 0 0 0) s = .next u ∧ regsOf u th = { r with pc := r.pc + 3 } ∧ (thr u th).run = .active ∧ (thr u th).gated = [] ∧
          (thr u th).moorAt = none) ∧
      (t.stores ≠ [] → t.failures = [] →
        ∃ u, exec (.moor th 0 0 0) s = .next u ∧ regsOf u th = r ∧ (thr u th).run = .moor ∧ (thr u th).stores = t.stores ∧ (thr u th).gated = [] ∧
          (thr u th).moorAt = some (nowNs s) ∧ (thr u th).moorHostAt = nowNs s) ∧
      (f ∈ t.failures → (∀ g ∈ t.failures, g ≠ f → f.id < g.id) →
        ∃ u, exec (.moor th 0 0 0) s = .next (takeExn u th { code := 9, detail := f.reason.toNat, moorVa := some f.va }) ∧
          regsOf u th = r ∧ (thr u th).failures = [] ∧ (thr u th).run = .active ∧ (thr u th).gated = []))

/-- R104, R172, R186 to R188, R190: the confirmation of a DEVICE or cross-basin store completes it, and the successful flushing read
of a HOST store completes every HOST store of its port; when nothing else is incomplete and no failure is recorded, the waiting MOOR
retires. A dropped DEVICE store of a running handler is recorded as failed, with reason 4. -/
def Obligations.StoresComplete : Prop :=
  ∀ (s : State) (th : ThreadId) (o : OStore) (bs : List Byte),
    let t := thr s th
    let r := regsOf s th
    let host := isHostStore o.kind
    let left := t.stores.filter (fun x => if host then !(match o.kind with
      | .host p _ => hostOn p x
      | _ => false) else x.id != o.id)
    t.stores.find? (fun x => x.id == o.id) = some o → o.waiting = [] →
    (t.run = .active → host = false → exec (.storeCompletion th o.id (.ok bs)) s = .next (setThr s th { t with stores := left })) ∧
    (t.run = .moor → left ≠ [] → t.failures = [] → exec (.storeCompletion th o.id (.ok bs)) s = .next (setThr s th { t with stores := left })) ∧
    (t.run = .moor → left = [] → t.failures = [] →
      ∃ u, exec (.storeCompletion th o.id (.ok bs)) s = .next u ∧ regsOf u th = { r with pc := r.pc + 3 } ∧ (thr u th).run = .active ∧
        (thr u th).stores = [] ∧ (thr u th).moorAt = none) ∧
    (∀ n : Nat, o.kind = .device n → t.run = .active → t.seq ≠ 0 → t.ended = .no →
      ∃ u, exec (.storeCompletion th o.id .error) s = .next u ∧ thr u th = { t with
        stores := t.stores.filter (fun x => x.id != o.id), failures := t.failures ++ [{ id := o.id, va := o.va, reason := 4, host := false }] } ∧
        { u with threads := s.threads } = s)

/-- R187, R188, R191: 50 µs after a MOOR a store it awaits that is a DEVICE store (reason 3) or a HOST store (reason 1), or
20 µs after it a store to another basin (reason 5 while that basin is checkstopped and not adopted, else 6), fails, and the MOOR of a
running handler raises BARRIER_FAULT. 20 µs after its issue an UNCACHED load or atomic that finds no home leaves its wait, with
MACHINE_CHECK pending and its registers unchanged. -/
def Obligations.StoresTimeOut : Prop :=
  ∀ (s : State) (th : ThreadId) (o : OStore) (start : Nat) (b : BasinId) (op : Option MemOp) (since iova : Nat),
    let t := thr s th
    (t.run = .moor → t.moorAt = some start → t.stores = [o] → t.failures = [] → t.seq ≠ 0 → t.ended = .no →
      let due (reason : Nat) : Prop := ∃ u, exec (.moorTimerExpiry th) s =
        .next (takeExn u th { code := 9, detail := reason, moorVa := some o.va }) ∧
          regsOf u th = regsOf s th ∧ (thr u th).stores = [] ∧ (thr u th).failures = [] ∧ (thr u th).run = .active ∧ (thr u th).moorAt = none
      (∀ n : Nat, o.kind = .device n → start + 50000 ≤ nowNs s → due 3) ∧
      (∀ (p : Port) (a : Nat), o.kind = .host p a → t.moorHostAt + 50000 ≤ nowNs s → due 1) ∧
      (o.kind = .otherBasin b → start + 20000 ≤ nowNs s →
        due (if (basinOf s b.val).checkstopped && !(basinOf s b.val).adopted then 5 else 6)) ∧
      (∀ n : Nat, o.kind = .device n → nowNs s < start + 50000 → exec (.moorTimerExpiry th) s = .next s)) ∧
    (t.wait = some { why := .adoption b, op := op, since := since, iova := iova } → since + 20000 ≤ nowNs s →
      (basinOf s b.val).checkstopped = true → (basinOf s b.val).adopted = false →
      ∃ u, exec (.uncachedAdoptionTimeout th) s = .next u ∧ (thr u th).wait = none ∧ (thr u th).sigMc = min (t.sigMc + 1) 255 ∧
        regsOf u th = regsOf s th)

/-- R103, R104, R109: COMMIT with its jobs posted, no failed store and no HOST store waiting, for a result that is not compressed and
fits the destination, sends its commit group with the stored bytes of the commit set and parks until the commit point; a result longer
than the destination acts as an ABORT with RESULT_OVERFLOW. ABORT drops the commit set with its holds and decides
FAILED. Either one after COMMIT or ABORT raises ILLEGAL. -/
def Obligations.CommitAndAbort : Prop :=
  ∀ (s : State) (th : ThreadId) (c : Cons), ready s th →
    let r := regsOf s th
    let t := thr s th
    let rlen := r.rlen.toNat
    consOf s t.seq = some c →
    let aborts (i : Instr) (status len : Nat) : Prop :=
      ∃ u, exec i s = .next u ∧ (thr u th).ended = .aborted ∧ (thr u th).csetLines = [] ∧ (thr u th).csetBytes = [] ∧ (thr u th).run = .active ∧
        regsOf u th = { r with pc := r.pc + 3 } ∧
        consOf u t.seq = some { c with report := some { committed := false, status := status, value := r.hval, resultLen := len }, phase := .ended }
    (t.ended = .no → rlen ≤ c.desc.dstLen.toNat → jobsRun s th = false → t.failures = [] → t.hostXlatFail = false →
      t.stores.all (fun o => !(isHostStore o.kind) || o.waiting.isEmpty) = true → fCompress c.desc = false →
      ∃ u c', exec (.commit th 0 0 0) s = .next u ∧ (thr u th).run = .commit 4 ∧ (thr u th).ended = .commitSent ∧ regsOf u th = r ∧
        consOf u t.seq = some c' ∧ c'.group = (thr (retryPoint (fetched s th) th) th).csetBytes ∧ c'.groupSent = true ∧
        c'.report = some { committed := true, status := 0, value := r.hval, resultLen := rlen }) ∧
    (t.ended = .no → c.desc.dstLen.toNat < rlen → aborts (.commit th 0 0 0) 0x0403 rlen) ∧
    (t.ended = .no → aborts (.abort th 0 0 0) (if c.expired then 0x0503 else 0x0603) 0) ∧
    (t.ended ≠ .no → exec (.commit th 0 0 0) s = raises s th { code := 1 } ∧ exec (.abort th 0 0 0) s = raises s th { code := 1 })

/-- R144, R147, R205 to R207: cache maintenance acts on the CACHED HBM lines of the address, or of every page of the range. DCLEAN and
RCLEAN clean them, DINV and RINV invalidate them, DCLINV does both, IINV takes them from the issuing cores' L1I, CLOCK and CUNLOCK
lock and unlock them. DINV, RINV, CLOCK and CUNLOCK raise PRIVILEGE in user mode, DINV and RINV STORE_FAULT for a ledgered line of a
commit set. D is 0 for a near address and 1 for a far one; another D, a far A that names no pair, and a B of a one-address form that is
not 0, raise ILLEGAL. -/
def Obligations.CacheMaintenance : Prop :=
  ∀ (s : State) (th : ThreadId) (d a b : RegField) (va : Nat) (ls : List Loc), ready s th →
    let r := regsOf s th
    let sys := r.status.getLsbD 0 = true
    let h := th.basin.val
    let isPair := 8 ≤ a.val ∧ a.val ≤ 30
    let acts (i : Instr) (act : State → Nat → State) : Prop :=
      let u := (physLines ls).foldl act (retryPoint (fetched s th) th)
      exec i s = .next (retire (setArch u th { r with pc := r.pc + 3 }) th)
    let clean (u : State) (l : Nat) : State := cleanLine u h l
    let inv (u : State) (l : Nat) : State := invLine u h l
    ((d.val = 0 ∧ va = (if r.status.getLsbD 0 then r.snseg else r.nseg).toNat * 2 ^ 24 + (rd r a).toNat) ∨
        (d.val = 1 ∧ isPair ∧ va = (rdPair r a).toNat) →
      (locBytes (fetched s th) th .load va 1 0 = .ok ls →
        acts (.dclean th d a 0) clean ∧ acts (.dclinv th d a 0) (fun u l => invLine (cleanLine u h l) h l) ∧
        (sys → acts (.clock th d a 0) (fun u l => lockLine u th l) ∧ acts (.cunlock th d a 0) (fun u l => unlockLine u th l)) ∧
        (sys → inCset (fetched s th) ls = false → acts (.dinv th d a 0) inv) ∧
        (sys → inCset (fetched s th) ls = true → exec (.dinv th d a 0) s = raises s th { code := 6, detail := 3, va := some va })) ∧
      (rangeLocs (fetched s th) th va (rd r b).toNat = .ok ls →
        acts (.rclean th d a b) clean ∧ (sys → inCset (fetched s th) ls = false → acts (.rinv th d a b) inv) ∧
        (sys → inCset (fetched s th) ls = true → exec (.rinv th d a b) s = raises s th { code := 6, detail := 3, va := some va })) ∧
      (locBytes (fetched s th) th .fetch va 1 0 = .ok ls →
        let u := (physLines ls).foldl (fun (u : State) (l : Nat) => setPc u th.pier.val { pcOf u th.pier.val with
          l1i := (pcOf u th.pier.val).l1i.map (fun e => (e.1, if (coresOf u th).contains e.1 then l1Clear e.2 l else e.2)) }) (fetched s th)
        exec (.iinv th d a 0) s = .next (retire (setArch u th { r with pc := r.pc + 3 }) th)) ∧
      (¬ sys → ∀ i ∈ [Instr.dinv th d a 0, .rinv th d a b, .clock th d a 0, .cunlock th d a 0], exec i s = raises s th { code := 2 }) ∧
      (b ≠ 0 → ∀ i ∈ [Instr.dclean th d a b, .dinv th d a b, .dclinv th d a b, .iinv th d a b, .clock th d a b, .cunlock th d a b],
        exec i s = raises s th { code := 1 })) ∧
    (2 ≤ d.val ∨ (d.val = 1 ∧ ¬ isPair) → ∀ i ∈ [Instr.dclean th d a b, .dinv th d a b, .dclinv th d a b, .iinv th d a b, .rclean th d a b,
      .rinv th d a b, .clock th d a b, .cunlock th d a b], exec i s = raises s th { code := 1 })

/-! The Quayside. -/

/-- R30, R31, R36, R39, R43, R54, R63, R84: a one-piece slip write to a push queue with a credit and no refusal is accepted while its
half and ledger have room and nothing of its queue waits, else it waits SLIPPED; without a credit it is refused with 0x0107 and counted;
to a pull queue, or with a wrong shape, it is counted in ERR. The oldest SLIPPED descriptor is accepted when room comes. A tail doorbell
within the ring sets the tail, another is counted in ERR. -/
def Obligations.DescriptorsArrive : Prop :=
  ∀ (s : State) (p half : Port) (t : TenantId) (off : BitVec 12) (data : List Byte) (sq : Fin 16) (size : Nat) (v : BitVec 32) (x : Slipped) (rest : List Slipped),
    let u := touchPort s p
    let n := off.toNat / 256
    let rel := off.toNat % 256
    let q := sqOf u t.val n
    let d := parseDesc data
    let dock := dockBytes u t.val d
    let new : Slipped := { desc := d, tenant := t.val, sq := n, port := p, dock := dock, dur := effDur u t.val d, slot := q.nextSlot }
    let held (w : State) (seq : Nat) (y : Slipped) : Prop := ∃ c, consOf w seq = some c ∧ c.desc = y.desc ∧ c.tenant = y.tenant ∧ c.sq = y.sq ∧
      c.slot = y.slot ∧ c.dock = y.dock ∧ c.dur = y.dur ∧ c.state = .accepted ∧ c.acceptTime = harbourNs s ∧ c.attempt = 1
    (vfMmio s p t.val = true → tenantListens s t.val = true →
      (q.exist = true → q.pull = false → data.length = 64 → rel % 64 = 0 → rel ≤ 192 →
        (0 < chost q → acceptCheck u t.val n true d dock = none →
          (acceptRoom u (halfFor u p) new = true → (∀ y ∈ s.slipped, ¬ (y.tenant = t.val ∧ y.sq = n)) →
            answers (.slipWrite p t off data) s (fun w => held w (drawSeq u (halfFor u p)).2 new)) ∧
          (acceptRoom u (halfFor u p) new = false →
            answers (.slipWrite p t off data) s (fun w => w.slipped = s.slipped ++ [new] ∧ w.cons = s.cons))) ∧
        (chost q = 0 → (tenantOf s t.val).state = .running → q.enabled = true →
          exec (.slipWrite p t off data) s = .next (refuse (setSq u t.val n { q with overrun := satInc q.overrun 127 }) t.val n d 0x0107))) ∧
      (q.exist = true → q.pull = true → exec (.slipWrite p t off data) s = .next (setSq u t.val n { q with err := satInc q.err 255 })) ∧
      (q.exist = true → q.pull = false → data.length ∉ [64, 128, 192, 256] →
        exec (.slipWrite p t off data) s = .next (notice (setSq u t.val n { q with err := satInc q.err 255 }) t.val q.eq 0x0109 0 n)) ∧
      (let r := sqOf u t.val sq.val
       let sz := 2 ^ r.sizeLog2
       r.exist = true → r.pull = true → size = 4 →
        (v.toNat < sz → (v.toNat + sz - r.head) % sz ≤ sz - 1 - (r.credits.length + r.pending + r.inTransit) →
          exec (.sqTailDoorbell p t sq size v) s = .next (setSq u t.val sq.val { r with tail := v.toNat })) ∧
        (sz ≤ v.toNat → exec (.sqTailDoorbell p t sq size v) s =
          .next (notice (setSq u t.val sq.val { r with err := satInc r.err 255 }) t.val r.eq 0x010A v.toNat sq.val)))) ∧
    (s.slipped = x :: rest → halfFor s x.port = half → halfOut s half = false → acceptRoom s half x = true →
      answers (.slippedDescriptorAccept half) s (fun w => w.slipped = rest ∧ held w (drawSeq s half).2 x))

/-- R37, R38, R40, R42, R50, R51, R328, R366: a fetch takes its entries off the ring into slots, and when it completes each is accepted
or refused; a failed fetch gives them back and stops the queue. A PF head doorbell moves HEAD and retires what it passes, a tail write of a
chain pool moves its tail. A stored ACCEPTED record is marked, and an expired credit time reports the pending credits. -/
def Obligations.QueuesMoveOn : Prop :=
  ∀ (s : State) (p : Port) (t : TenantId) (sq : Fin 16) (data : List Byte) (eq : Fin 32) (v : BitVec 32) (pool : Fin 64) (seq h k : Nat) (c : Cons) (old : Nat),
    let q := sqOf s t.val sq.val
    let n := fetchCount s q
    (running s = true → q.exist = true → q.pull = true → q.enabled = true → q.stopped = false → q.fetch = none → 0 < n →
      (tenantOf s t.val).state = .running → pathUp s t.val = true →
      answers (.descriptorFetch t sq) s (fun w =>
        sqOf w t.val sq.val = { q with head := (q.head + n) % 2 ^ q.sizeLog2, fetch := some (q.head, n), credits := q.credits ++ takeSlots q n, nextSlot := q.nextSlot + n } ∧
        w.anchorFree = s.anchorFree - ((takeSlots q n).filter (·.pooled)).length)) ∧
    (q.fetch = some (h, 1) → exec (.descriptorFetchComplete t sq (.ok data)) s =
      .next (fetchedOne (setSq s t.val sq.val { q with fetch := none }) t.val sq.val (q.nextSlot - 1) (slice data 0 64))) ∧
    (q.fetch = some (h, k) → ∀ r ∈ [ReadResult.error, .noTranslation], answers (.descriptorFetchComplete t sq r) s (fun w =>
      (sqOf w t.val sq.val).head = h ∧ (sqOf w t.val sq.val).fetch = none ∧ (sqOf w t.val sq.val).stopped = true)) ∧
    (let e := getEq s (.pf p eq.val)
     awake s = true → (portOf s p).link = true → (portOf s p).dstate = .d0 → e.exist = true → v.toNat < eqSize e →
      (v.toNat + eqSize e - e.head) % eqSize e ≤ (e.tail + eqSize e - e.head) % eqSize e →
      answers (.eqHeadDoorbell p .pf0 eq 4 v) s (fun w => (getEq w (.pf p eq.val)).head = v.toNat ∧
        (v.toNat = e.tail → (getEq w (.pf p eq.val)).unsignalled = 0 ∧ (getEq w (.pf p eq.val)).vectorHeld = false))) ∧
    (let e := tget {} (tenantOf s t.val).pools pool.val
     awake s = true → tenantListens s t.val = true → e.exist = true → v.toNat < 2 ^ e.sizeLog2 →
      answers (.chainTail t pool v) s (fun w => (tget {} (tenantOf w t.val).pools pool.val).tail = v.toNat ∧ w.cons = s.cons)) ∧
    (consOf s seq = some c → c.recordStored = false →
      answers (.acceptedRecordStored seq) s (fun w => ∃ d, consOf w seq = some d ∧ d.recordStored = true ∧ d.desc = c.desc)) ∧
    (q.oldestPending = some old → old + q.creditTime * 1000 ≤ nowNs s → q.exist = true → q.pending ≠ 0 → q.inTransit = 0 →
      (tenantOf s t.val).state ≠ .squashed →
      answers (.creditTimeExpiry t sq) s (fun w => (sqOf w t.val sq.val).pending = 0 ∧ (sqOf w t.val sq.val).oldestPending = none))

/-- R71, R86, R99 to R103, R107, R109: dispatch gives the ready consignment to the thread in user mode with FCSR 0. A source read that
completes makes it ready, one without a translation fails it with 0x0504. The commit point writes the group's bytes to
ledgered memory, and the waiting COMMIT retires; the report then records COMMITTED, or FAILED with the reported status. -/
def Obligations.ConsignmentsRun : Prop :=
  ∀ (s : State) (th : ThreadId) (seq : Nat) (c : Cons) (data : List Byte) (r : EndReport),
    (canTake s th = true → pickReady s th = some (seq, c) →
      answers (.consignmentDispatch th) s (fun w => (thr w th).run = .active ∧ (thr w th).seq = seq ∧ (thr w th).ended = .no ∧
        (thr w th).gated = [] ∧ (thr w th).csetLines = [] ∧ (regsOf w th).status.getLsbD 0 = false ∧ (regsOf w th).fcsr = 0 ∧
        ∃ d, consOf w seq = some d ∧ d.phase = .onThread th ∧ d.place.basin = th.basin.val ∧ d.headOfList = false)) ∧
    (consOf s seq = some c → c.reading = true → c.state = .accepted → pathUp s c.tenant = true →
      exec (.sourceReadComplete (.source seq) (.ok data)) s = .next (setCons s seq { c with
        reading := false, source := some (slice data 0 c.desc.srcLen.toNat), phase := if isBuiltin c.desc then .builtin else .ready }) ∧
      exec (.sourceReadComplete (.source seq) .noTranslation) s = .next (failCons (setCons s seq { c with reading := false }) seq 0x0504 0 0)) ∧
    (consOf s seq = some c → c.groupSent = true → (basinOf s (stackOf s c.part)).hbmReadable = true →
      answers (.commitPoint seq) s (fun w =>
        w.mem.ledgered = c.group.foldl (fun m e => tset 0 m e.1 e.2) s.mem.ledgered ∧
        (∀ x : ThreadId, committing s seq = some x → (thr w x).run = .active ∧ (thr w x).ended = .committed ∧ (thr w x).csetLines = [] ∧
          regsOf w x = { regsOf s x with pc := (regsOf s x).pc + 3 }) ∧
        ∃ d, consOf w seq = some d ∧ d.groupSent = false ∧ d.group = [] ∧ d.finalRec.isSome = true)) ∧
    (consOf s seq = some c → c.state = .accepted → c.phase = .ended → c.scuttling = false → c.report = some r →
      (r.committed = true → c.finalRec.isSome = true → exec (.commitReport seq) s = .next (recordFinal s seq true)) ∧
      (r.committed = false → exec (.commitReport seq) s = .next (failCons s seq r.status r.value.toNat r.resultLen)))

/-- R62, R72 to R76, R86, R93, R121, R516: acknowledgements of the mirror and of the host raise the level reached; a host batch closes at 32
records or 500 ns; a deadline delivers DEADLINE to the thread that runs the consignment or fails it with 0x0503, and its grace ends the
handler; a REPLAYING consignment without a final record is run again, or fails with 0x0701 after its last attempt. -/
def Obligations.LevelsDeadlinesAndReplay : Prop :=
  ∀ (s : State) (b : BasinId) (upTo seq d g first : Nat) (c : Cons) (th : ThreadId) (h : HostBatch) (more : List HostBatch),
    let l := ledgerOf s b.val
    ((mirrorOf s b.val).isSome = true → l.mirrorAck < min upTo (nextRec l) →
      answers (.mirrorBasinAck b upTo) s (fun w => (ledgerOf w b.val).mirrorAck = min upTo (nextRec l))) ∧
    (l.batchAt = some first → 32 ≤ l.batch.length ∨ first + 500 ≤ nowNs s →
      answers (.hostBatchClose b) s (fun w => (ledgerOf w b.val).batch = l.batch.drop 32 ∧
        (ledgerOf w b.val).flushing = l.flushing ++ [{ recs := l.batch.take 32, port := managerPort s }])) ∧
    (l.flushing = h :: more → pf0Ok s h.port = true →
      answers (.hostFlushReadComplete b (.ok [])) s (fun w => (ledgerOf w b.val).flushing = more) ∧
      exec (.hostFlushReadComplete b .error) s = .next (setLedger s b.val { l with flushing := { h with port := reissuePort s h.port } :: more }) ∧
      (h.xlatRetry = true → answers (.hostFlushReadComplete b .noTranslation) s (fun w => w.dev.st = .halted))) ∧
    (consOf s seq = some c → c.deadlineAt = some d → d ≤ s.clock.ps → c.expired = false → c.state = .accepted →
      (c.phase = .onThread th → answers (.deadlineExpiry seq) s (fun w => consOf w seq = some { c with expired := true } ∧
        (thr w th).sigDl = min ((thr s th).sigDl + 1) 255)) ∧
      (c.phase = .ready → exec (.deadlineExpiry seq) s = .next (failCons (setCons s seq { c with expired := true }) seq 0x0503 0 0))) ∧
    ((thr s th).graceAt = some g → g ≤ nowNs s → (thr s th).ended = .no → (thr s th).seq ≠ 0 → (thr s th).run = .active → consOf s (thr s th).seq = some c →
      answers (.deadlineGraceExpiry th) s (fun w => ((thr w th).run = .ending ∨ (thr w th).run = .free) ∧ ∃ e, consOf w (thr s th).seq = some e ∧
        e.report = some { committed := false, status := 0x0503, value := (regsOf s th).hval, resultLen := 0 })) ∧
    (consOf s seq = some c → c.state = .replaying → (basinOf s (stackOf s c.part)).hbmReadable = true → (partOf s c.part).stranded = false →
      c.groupSent = false → c.entry = true → newestRec (ledgerOf s (stackOf s c.part)) seq = none →
      (s.cfg.replayMax ≤ c.attempt → exec (.replayDecide seq) s = .next (failCons (setCons s seq c) seq 0x0701 0 0)) ∧
      (c.attempt < s.cfg.replayMax → answers (.replayDecide seq) s (fun w => ∃ e, consOf w seq = some e ∧ e.state = .accepted ∧
        e.attempt = c.attempt + 1 ∧ e.desc = c.desc ∧ e.phase = startPhase c.desc)))

/-- R63, R67, R69, R89 to R91, R294 to R299, R347: a link that goes down or comes up is recorded and reported; a half reset moves
the half's consignments to the other half as REPLAYING; 50 µs after the path went down fetches give up; a tide closes at its boundary, is sealed
by the four ledger writers and signed; a partition whose consignments of the old home have ended moves to its new home. -/
def Obligations.PathsTidesAndPartitions : Prop :=
  ∀ (s : State) (p : Port) (t : TenantId) (b : BasinId) (x : Tide) (rest : List Tide) (part : Fin 4096) (home : Option Nat) (seq since : Nat) (c : Cons),
    ((portOf s p).link = true → answers (.portLinkDown p) s (fun w => (portOf w p).link = false ∧ (∀ q, s.helm.holder = some q → q = p → w.helm.holder = none))) ∧
    ((portOf s p).link = false → (portOf s p).perst = false → (islandOf s (islPort p)).state = 3 → s.dev.pwrCore = true →
      answers (.portLinkUp p) s (fun w => (portOf w p).link = true ∧ (portOf w p).lastTlp = nowNs s)) ∧
    (s.dev.pwrCore = true → (islandOf s (islHalf p)).reset = false →
      answers (.quaysideHalfReset p) s (fun w => consOf s seq = some c → c.entry = true → c.half = p → c.phase = .ready →
        ∃ d, consOf w seq = some d ∧ d.half = p.other ∧ d.state = .replaying ∧ d.recordQueued = false)) ∧
    ((tenantOf s t.val).pathDownAt = some since → since + 50000 ≤ nowNs s → pathUp s t.val = false →
      (∀ th : ThreadId, (thr s th).wait = none ∧ (thr s th).stores = []) → (∀ e ∈ s.cons, e.2.reading = false) →
      answers (.pathWaitExpiry t) s (fun w => w.cons = s.cons ∧ ∀ n : Nat, n < 16 → (sqOf w t.val n).fetch = none)) ∧
    (s.tides.cur = some x → x.since + s.cfg.tidePeriodUs * 1000 ≤ nowNs s ∨ s.cfg.tideMax ≤ x.count →
      exec .tideBoundary s = .next { s with tides := { s.tides with cur := none, closing := s.tides.closing ++ [{ x with closeAt := harbourNs s }] } }) ∧
    (s.tides.closing = x :: rest → (mset x.seals b.val (sealOf s b.val x.num)).length < 4 →
      exec (.sealReport b) s = .next { s with tides := { s.tides with closing := { x with seals := mset x.seals b.val (sealOf s b.val x.num) } :: rest } }) ∧
    (s.tides.closing = x :: rest → (mset x.seals b.val (sealOf s b.val x.num)).length = 4 → s.cfg.autoTrim = 0 →
      answers (.sealReport b) s (fun w => w.tides.closing = rest ∧ w.tides.prevNum = x.num ∧ ∃ y, w.tides.closed = s.tides.closed ++ [y] ∧ y.num = x.num ∧ y.record = w.tides.prevBody)) ∧
    (s.tides.closed = x :: rest → s.dev.st ≠ .halted → s.otp.lifecycle ≠ 3 →
      (s.sroom.openRecs ++ s.sroom.pages.flatten).any (fun r => decide (r = .epoch s.epoch)) = false → (islandOf s islStrongroom).reset = false →
      answers .tideSigned s (fun w => w.tides.closed = rest ∧ w.tides.log.head?.map (·.1) = some x.num ∧ w.freeCtr = s.freeCtr + 1)) ∧
    ((partOf s part.val).next = some home → (∀ e ∈ s.cons, e.2.part ≠ part.val) →
      (∀ q, (partOf s part.val).home = some q → (basinOf s q).holds = []) → (∃ e ∈ s.parts, e.1 ≠ part.val ∧ e.2.next.isSome = true) →
      answers (.partitionMapChangeEffect part) s (fun w => (partOf w part.val).home = home ∧ (partOf w part.val).next = none ∧ w.mem = s.mem))

/-! Floating point. -/

/-- R152, R163 to R167: the instructions that read RM. With RM 5 to 7 they raise ILLEGAL; when a flag of the result is enabled as a trap
they raise FP_TRAP, nothing written; else they write the rounded result and their flags stick in FCSR. The result and its flags are those of
the exact operation on the operands as DAZ reads them. FSQRT with B not 0 and FCVT_P_D with a D that names no pair raise ILLEGAL. -/
def Obligations.FloatsThatRound : Prop :=
  ∀ (s : State) (th : ThreadId) (d a b : RegField), ready s th →
    let r := regsOf s th
    let rm := (r.fcsr.extractLsb' 10 3).toNat
    let ftz := r.fcsr.getLsbD 13
    let daz := r.fcsr.getLsbD 14
    let x (i : RegField) : FVal := fRead f64 daz (rdF r i).toNat
    let y (i : RegField) : FVal := fRead f32 daz ((rdF r i).extractLsb' 0 32).toNat
    let out (i : Instr) (flags : Nat) (put : Arch → Arch) : Prop :=
      (5 ≤ rm → exec i s = raises s th { code := 1 }) ∧
      (rm < 5 →
        (r.fcsr.extractLsb' 5 5 &&& BitVec.ofNat 5 flags ≠ 0 → exec i s = raises s th { code := 7 }) ∧
        (r.fcsr.extractLsb' 5 5 &&& BitVec.ofNat 5 flags = 0 → exec i s = leaves s th (put { r with fcsr := r.fcsr ||| BitVec.ofNat 24 (flags % 32) })))
    let dbl (i : Instr) (v : Nat × Nat) : Prop := out i v.2 (fun q => wrF q d (BitVec.ofNat 64 v.1))
    let sgl (i : Instr) (v : Nat × Nat) : Prop := out i v.2 (fun q => wrF32 q d (BitVec.ofNat 32 v.1))
    dbl (.faddD th d a b) (fAdd f64 rm ftz (x a) (x b)) ∧ dbl (.fsubD th d a b) (fSub f64 rm ftz (x a) (x b)) ∧
    dbl (.fmulD th d a b) (fMul f64 rm ftz (x a) (x b)) ∧ dbl (.fdivD th d a b) (fDiv f64 rm ftz (x a) (x b)) ∧
    dbl (.fsqrtD th d a 0) (fSqrt f64 rm ftz (x a)) ∧
    dbl (.fmaddD th d a b) (fFma f64 rm ftz false false (x a) (x b) (x d)) ∧ dbl (.fmsubD th d a b) (fFma f64 rm ftz false true (x a) (x b) (x d)) ∧
    dbl (.fnmaddD th d a b) (fFma f64 rm ftz true true (x a) (x b) (x d)) ∧ dbl (.fnmsubD th d a b) (fFma f64 rm ftz true false (x a) (x b) (x d)) ∧
    sgl (.faddS th d a b) (fAdd f32 rm ftz (y a) (y b)) ∧ sgl (.fsubS th d a b) (fSub f32 rm ftz (y a) (y b)) ∧
    sgl (.fmulS th d a b) (fMul f32 rm ftz (y a) (y b)) ∧ sgl (.fdivS th d a b) (fDiv f32 rm ftz (y a) (y b)) ∧
    sgl (.fsqrtS th d a 0) (fSqrt f32 rm ftz (y a)) ∧
    sgl (.fmaddS th d a b) (fFma f32 rm ftz false false (y a) (y b) (y d)) ∧ sgl (.fmsubS th d a b) (fFma f32 rm ftz false true (y a) (y b) (y d)) ∧
    sgl (.fnmaddS th d a b) (fFma f32 rm ftz true true (y a) (y b) (y d)) ∧ sgl (.fnmsubS th d a b) (fFma f32 rm ftz true false (y a) (y b) (y d)) ∧
    sgl (.fcvtSD th d a) (fNarrow rm ftz (x a)) ∧
    out (.fcvtWD th d a) (fToInt rm (-2 ^ 23) (2 ^ 23 - 1) (x a)).2 (fun q => wr q d (BitVec.ofInt 24 (fToInt rm (-2 ^ 23) (2 ^ 23 - 1) (x a)).1)) ∧
    out (.fcvtWuD th d a) (fToInt rm 0 (2 ^ 24 - 1) (x a)).2 (fun q => wr q d (BitVec.ofInt 24 (fToInt rm 0 (2 ^ 24 - 1) (x a)).1)) ∧
    (8 ≤ d.val ∧ d.val ≤ 30 →
      out (.fcvtPD th d a) (fToInt rm (-2 ^ 47) (2 ^ 47 - 1) (x a)).2 (fun q => wrPair q d (BitVec.ofInt 48 (fToInt rm (-2 ^ 47) (2 ^ 47 - 1) (x a)).1))) ∧
    (d.val < 8 ∨ d.val = 31 → exec (.fcvtPD th d a) s = raises s th { code := 1 }) ∧
    (b ≠ 0 → exec (.fsqrtD th d a b) s = raises s th { code := 1 } ∧ exec (.fsqrtS th d a b) s = raises s th { code := 1 })

/-- R147, R152, R164, R166 to R170: the floating-point instructions that do not read RM run whatever it holds. FMIN, FMAX, the compares and
FCVT_D_S have flags and so may trap; the others have none, and the sign-bit operations and moves change no other bit. FCVT_D_W,
FCVT_D_WU and FCVT_D_P are exact. A group that names no pair or triple raises ILLEGAL. -/
def Obligations.FloatsThatDoNotRound : Prop :=
  ∀ (s : State) (th : ThreadId) (d a b : RegField), ready s th →
    let r := regsOf s th
    let daz := r.fcsr.getLsbD 14
    let u (i : RegField) : Nat := (rdF r i).toNat
    let w (i : RegField) : Nat := ((rdF r i).extractLsb' 0 32).toNat
    let x (i : RegField) : FVal := fRead f64 daz (u i)
    let y (i : RegField) : FVal := fRead f32 daz (w i)
    let out (i : Instr) (flags : Nat) (put : Arch → Arch) : Prop :=
      (r.fcsr.extractLsb' 5 5 &&& BitVec.ofNat 5 flags ≠ 0 → exec i s = raises s th { code := 7 }) ∧
      (r.fcsr.extractLsb' 5 5 &&& BitVec.ofNat 5 flags = 0 → exec i s = leaves s th (put { r with fcsr := r.fcsr ||| BitVec.ofNat 24 (flags % 32) }))
    let dbl (i : Instr) (v : Nat × Nat) : Prop := out i v.2 (fun q => wrF q d (BitVec.ofNat 64 v.1))
    let sgl (i : Instr) (v : Nat × Nat) : Prop := out i v.2 (fun q => wrF32 q d (BitVec.ofNat 32 v.1))
    let cmp (i : Instr) (v : Bool × Nat) : Prop := out i v.2 (fun q => wr q d (if v.1 then 1 else 0))
    dbl (.fminD th d a b) (fMinMax f64 false (u a) (u b) (x a) (x b)) ∧ dbl (.fmaxD th d a b) (fMinMax f64 true (u a) (u b) (x a) (x b)) ∧
    sgl (.fminS th d a b) (fMinMax f32 false (w a) (w b) (y a) (y b)) ∧ sgl (.fmaxS th d a b) (fMinMax f32 true (w a) (w b) (y a) (y b)) ∧
    cmp (.feqD th d a b) (fCompare 0 (x a) (x b)) ∧ cmp (.fltD th d a b) (fCompare 1 (x a) (x b)) ∧ cmp (.fleD th d a b) (fCompare 2 (x a) (x b)) ∧
    cmp (.feqS th d a b) (fCompare 0 (y a) (y b)) ∧ cmp (.fltS th d a b) (fCompare 1 (y a) (y b)) ∧ cmp (.fleS th d a b) (fCompare 2 (y a) (y b)) ∧
    dbl (.fcvtDS th d a) (fWiden (y a)) ∧
    exec (.fabsD th d a) s = leaves s th (wrF r d (rdF r a &&& 0x7FFFFFFFFFFFFFFF)) ∧
    exec (.fnegD th d a) s = leaves s th (wrF r d (rdF r a ^^^ 0x8000000000000000)) ∧ exec (.fmovD th d a) s = leaves s th (wrF r d (rdF r a)) ∧
    exec (.fabsS th d a) s = leaves s th (wrF r d (rdF r a &&& 0x7FFFFFFF)) ∧
    exec (.fnegS th d a) s = leaves s th (wrF r d ((rdF r a &&& 0xFFFFFFFF) ^^^ 0x80000000)) ∧
    exec (.fmovS th d a) s = leaves s th (wrF r d (rdF r a &&& 0xFFFFFFFF)) ∧
    (∃ v : BitVec 64, exec (.fcvtDW th d a) s = leaves s th (wrF r d v) ∧ fToInt 0 (-2 ^ 23) (2 ^ 23 - 1) (fRead f64 false v.toNat) = ((rd r a).toInt, 0)) ∧
    (∃ v : BitVec 64, exec (.fcvtDWu th d a) s = leaves s th (wrF r d v) ∧ fToInt 0 0 (2 ^ 24 - 1) (fRead f64 false v.toNat) = (((rd r a).toNat : Int), 0)) ∧
    (8 ≤ a.val ∧ a.val ≤ 30 →
      ∃ v : BitVec 64, exec (.fcvtDP th d a) s = leaves s th (wrF r d v) ∧ fToInt 0 (-2 ^ 47) (2 ^ 47 - 1) (fRead f64 false v.toNat) = ((rdPair r a).toInt, 0)) ∧
    (a.val < 8 ∨ a.val = 31 → exec (.fcvtDP th d a) s = raises s th { code := 1 }) ∧
    (8 ≤ d.val ∧ d.val ≤ 29 → exec (.fmvx th d a) s = leaves s th (wrTriple r d (rdF r a))) ∧
    (8 ≤ a.val ∧ a.val ≤ 29 → exec (.fmvf th d a) s = leaves s th (wrF r d (rdTriple r a))) ∧
    (d.val < 8 ∨ 29 < d.val → exec (.fmvx th d a) s = raises s th { code := 1 }) ∧
    (a.val < 8 ∨ 29 < a.val → exec (.fmvf th d a) s = raises s th { code := 1 })

/-- R163, R165, R166: rounding. The magnitude m × 2^e in units of 2^q is rounded as the five modes say, and is inexact when it is no
multiple; a value that a format represents rounds to itself under every mode with no flag. -/
def Obligations.RoundingModes : Prop :=
  (∀ (rm : Nat) (neg : Bool) (m : Nat) (e q : Int), e ≤ q →
    let unit : Int := 2 ^ (q - e).toNat
    let k : Int := (quantize rm neg m e q).1
    let off : Int := k * unit - m
    ((quantize rm neg m e q).2 = false ↔ unit ∣ m) ∧ ((quantize rm neg m e q).2 = false → off = 0) ∧
    (rm = 0 → 2 * (off.natAbs : Int) ≤ unit ∧ (2 * (off.natAbs : Int) = unit → k % 2 = 0)) ∧
    (rm = 1 → off ≤ 0 ∧ -unit < off) ∧
    (rm = 2 → if neg then 0 ≤ off ∧ off < unit else off ≤ 0 ∧ -unit < off) ∧
    (rm = 3 → if neg then off ≤ 0 ∧ -unit < off else 0 ≤ off ∧ off < unit) ∧
    (rm = 4 → -unit < 2 * off ∧ 2 * off ≤ unit)) ∧
  (∀ (f : Fmt) (rm v m : Nat) (neg : Bool) (e : Int), f = f32 ∨ f = f64 → v < 2 * fSign f → fRead f false v = .fin neg m e →
    fRound f rm false neg m e = (v, 0))

/-! Coprocessors, engines and the Strongroom. -/

/-- A submit of a thread to coprocessor n with a block of `size` bytes (R111, R154, R177, R261, R309): with the thread's request idle, a
block that the coprocessor's checks turn down posts their status at once, and a good one whose ranges can be accessed and touch no ledgered
line is queued with its inputs as memory stands; rCD takes 0 and the instruction retires. -/
def submitsAs (s : State) (th : ThreadId) (cd ca : RegField) (i : Instr) (n : Fin 3) (size cfn : Nat) (prep : List Byte → Except Word (List DataRange)) : Prop :=
  let r := regsOf s th
  let u := fetched s th
  let va := (if r.status.getLsbD 0 then r.snseg else r.nseg).toNat * 2 ^ 24 + (rd r ca).toNat
  ((thr s th).ended ≠ .no ∨ (thr s th).cp.get n ≠ .idle → exec i s = raises s th { code := 1 }) ∧
  ((thr s th).ended = .no → (thr s th).cp.get n = .idle →
    ((rd r ca).toNat % 8 ≠ 0 → exec i s = raises s th { code := 5, detail := 4, va := some va }) ∧
    (∀ bl bw : List Loc, (rd r ca).toNat % 8 = 0 → translate u th .load va size = .ok bl → (n = 0 → translate u th .store va size = .ok bw) →
      (∀ w : Word, prep (bl.map (seenByte u th)) = .error w →
        answers i s (fun t => (thr t th).cp.get n = .posted w ∧ regsOf t th = { wr r cd 0 with pc := r.pc + 3 })) ∧
      (∀ (rs : List DataRange) (all : List (Bool × List Loc)), prep (bl.map (seenByte u th)) = .ok rs → gatherLocs u th rs = .ok all →
        linesOf (all.flatMap (·.2)) = [] →
        answers i s (fun t => regsOf t th = { wr r cd 0 with pc := r.pc + 3 } ∧
          ∃ ins, (thr t th).cp.get n = .queued cfn (rd r ca).toNat (bl.map (seenByte u th)) ins ∧
            (n ≠ 1 ∨ 0x10 ≤ cfn → (pierOf t th.pier.val).cpq.get n = (pierOf s th.pier.val).cpq.get n ++ [th.inPier]) ∧
            (n = 1 ∧ cfn < 0x10 → ∃ q, t.sroom.queue = s.sroom.queue ++ [q] ∧ q.kind = .cp1 th cfn (bl.map (seenByte u th)) ins ∧ q.seq = (thr s th).seq)))))

/-- R111, R112, R154, R261, R263, R270, R309: the submits of CP0 (Tally), CP1 (keys to the Strongroom, the others to its unit) and CP2;
SLOT_CLEAR and SLOT_INFO of the slot that rCA[1:0] names; CP4 to CP7 raise UNDEF_CP. -/
def Obligations.CoprocessorSubmits : Prop :=
  ∀ (s : State) (th : ThreadId) (cd ca : RegField) (n : Fin 4) (cfn : BitVec 8), ready s th →
    let r := regsOf s th
    let slot := (rd r ca).toNat % 4
    let put (v : Word) : Arch := { wr r cd v with pc := r.pc + 3 }
    submitsAs s th cd ca (.parse th cd ca) 0 48 0 (fun b => tallyPrep 0 b) ∧ submitsAs s th cd ca (.build th cd ca) 0 48 1 (fun b => tallyPrep 1 b) ∧
    submitsAs s th cd ca (.xmlTokens th cd ca) 0 48 2 (fun b => tallyPrep 2 b) ∧ submitsAs s th cd ca (.convert th cd ca) 0 48 3 (fun b => tallyPrep 3 b) ∧
    submitsAs s th cd ca (.keyDerive th cd ca) 1 112 0x00 derivePrep ∧ submitsAs s th cd ca (.keyDukpt th cd ca) 1 40 0x01 dukptPrep ∧
    submitsAs s th cd ca (.keyLoad th cd ca) 1 8 0x02 loadPrep ∧ submitsAs s th cd ca (.keyUnwrap th cd ca) 1 16 0x03 unwrapPrep ∧
    submitsAs s th cd ca (.keyWrap th cd ca) 1 16 0x04 wrapPrep ∧ submitsAs s th cd ca (.encrypt th cd ca) 1 64 0x10 encryptPrep ∧
    submitsAs s th cd ca (.decrypt th cd ca) 1 64 0x11 decryptPrep ∧ submitsAs s th cd ca (.cp1MacGenerate th cd ca) 1 64 0x12 (macPrep true) ∧
    submitsAs s th cd ca (.cp1MacVerify th cd ca) 1 64 0x13 (macPrep false) ∧ submitsAs s th cd ca (.cp1PinTranslate th cd ca) 1 64 0x14 pinPrep ∧
    submitsAs s th cd ca (.emvVerify th cd ca) 1 64 0x15 emvPrep ∧ submitsAs s th cd ca (.sm3 th cd ca) 2 32 0x00 (hashPrep false) ∧
    submitsAs s th cd ca (.hmacSm3 th cd ca) 2 32 0x01 (hashPrep true) ∧
    answers (.slotClear th cd ca) s (fun t => slotOf t th slot = {} ∧ regsOf t th = put 0 ∧ (∀ k < 4, k ≠ slot → slotOf t th k = slotOf s th k)) ∧
    answers (.slotInfo th cd ca) s (fun t => (thr t th).keySlots = (thr s th).keySlots ∧
      ((slotOf s th slot).full = false → regsOf t th = put 0) ∧
      ((slotOf s th slot).full = true → regsOf t th = put (BitVec.ofNat 24 ((slotOf s th slot).usage + (slotOf s th slot).alg * 2 ^ 16 +
        modeCode (slotOf s th slot).mode * 2 ^ 20)))) ∧
    exec (.cp4ToCp7 th n cd ca cfn) s = raises s th { code := 3 }

/-- R104, R115, R116, R155: SUBMIT of CP3 takes the lowest free mailbox entry, whose index rCD takes, and 0xFF_FFFF without one; a block
that R115 turns down posts its disposition in state 2, a good one gets a job in state 1. A finished job is posted to its entry; a result
of the head of a coprocessor's queue is computed as its request leaves the queue. -/
def Obligations.JobsOfThreads : Prop :=
  ∀ (s : State) (th : ThreadId) (cd ca : RegField) (bl : List Loc) (i st : Nat) (j : Job) (all : List (Bool × List Loc)) (id : Nat)
    (pier : PierId) (cp : Fin 3) (head : Nat) (more : List Nat),
    let r := regsOf s th
    let u := fetched s th
    let va := (if r.status.getLsbD 0 then r.snseg else r.nseg).toNat * 2 ^ 24 + (rd r ca).toNat
    let free (k : Nat) : Prop := mboxState u th k = 0 ∨ mboxState u th k = 3
    let put (v : Word) : Arch := { wr r cd v with pc := r.pc + 3 }
    (ready s th → (thr s th).ended = .no →
      ((rd r ca).toNat % 8 ≠ 0 → exec (.submit th cd ca) s = raises s th { code := 5, detail := 4, va := some va }) ∧
      ((rd r ca).toNat % 8 = 0 → translate u th .load va 48 = .ok bl →
        ((∀ k < 8, ¬ free k) → answers (.submit th cd ca) s (fun t => regsOf t th = put 0xFFFFFF ∧ t.jobs = s.jobs)) ∧
        (i < 8 → free i → (∀ k < i, ¬ free k) →
          (jobBlock (bl.map (seenByte u th)) = .error st → st < 65536 →
            answers (.submit th cd ca) s (fun t => regsOf t th = put (BitVec.ofNat 24 i) ∧ mboxState t th i = 2 ∧ t.jobs = s.jobs)) ∧
          (jobBlock (bl.map (seenByte u th)) = .ok j →
            gatherLocs u th [{ va := fieldLe (bl.map (seenByte u th)) 8 8, len := j.srcLen }, { write := true, va := j.dst, len := j.dstLen }] = .ok all →
            linesOf (all.flatMap (·.2)) = [] →
            answers (.submit th cd ca) s (fun t => regsOf t th = put (BitVec.ofNat 24 i) ∧ mboxState t th i = 1 ∧
              ∃ k, jobOf t s.nextJob = some k ∧ k.th = some th ∧ k.mbox = i ∧ k.fn = j.fn ∧ k.seq = (thr s th).seq))))) ∧
    (jobOf s id = some j → j.th = some th → j.finished = true → j.cancelled = false → j.status ≠ 0 → j.mbox < 8 → (thr s th).run = .active →
      answers (.jobPosted id) s (fun t => mboxState t th j.mbox = 2 ∧ jobOf t id = none ∧ (thr t th).jobs.toList[j.mbox]? = some 0)) ∧
    ((pierOf s pier.val).cpq.get cp = head :: more → head < 64 → running s = true → (basinOf s (pier.val / 4)).checkstopped = false →
      exec (.coprocessorResultPosted pier cp) s = .next (runRequest (setPier s pier.val { pierOf s pier.val with
        cpq := (pierOf s pier.val).cpq.set cp.val more cp.isLt }) ⟨pier.val * 64 + head % 64, by omega⟩ cp))

/-- R58, R59, R62, R301, R515: a built-in that reaches its engine is failed by the first of its checks that fails, with BAD_HANDLER,
LENGTH_LIMIT or what the key and length checks decide; else its job begins. ECHO's result is its source, HASH's the SM3 of its data. PROOF of
a record that no ledger holds fails with PROOF_NOT_FOUND; one whose tide is not yet signed waits. A job that ends with a status fails its
consignment with it. -/
def Obligations.BuiltinsRun : Prop :=
  ∀ (s : State) (seq : Nat) (c : Cons) (id : Nat) (j : Job),
    let full := if fDock c.desc then c.dock else c.source.getD []
    let b := parseBlock full
    let reach (fn : Nat) : Prop := running s = true ∧ consOf s seq = some c ∧ c.state = .accepted ∧ c.phase = .builtin ∧ c.desc.handler.toNat = fn ∧ c.expired = false
    let job (fn : Nat) : Job := {
      seq := seq, attempt := c.attempt, tenant := c.tenant, fn := fn, variant := b.variant, keyA := c.desc.keyA.toNat,
      keyB := c.desc.keyB.toNat, auxLen := b.auxLen, aux := b.aux, src := full.drop 16, srcLen := (full.drop 16).length, dst := c.desc.dstAddr.toNat,
      dstLen := c.desc.dstLen.toNat }
    let begun (t : State) (fn : Nat) : Prop := consOf t seq = some { c with phase := .job s.nextJob } ∧ ∃ k, jobOf t s.nextJob = some k ∧ k.fn = fn ∧ k.seq = seq
    let runs (i : Instr) (fn : Nat) : Prop := reach fn →
      (blockOk fn c.desc.keyA.toNat full = false → exec i s = .next (failCons s seq 0x0104 0 0)) ∧
      (blockOk fn c.desc.keyA.toNat full = true → lengthsOk fn b.variant b.auxLen b.aux (full.drop 16).length = false →
        exec i s = .next (failCons s seq 0x0401 0 0)) ∧
      (blockOk fn c.desc.keyA.toNat full = true → lengthsOk fn b.variant b.auxLen b.aux (full.drop 16).length = true →
        (∀ st n : Nat, jobRefusal s (job fn) = some (st, n) → exec i s = .next (failCons s seq st 0 n)) ∧
        (jobRefusal s (job fn) = none → answers i s (fun t => begun t fn)))
    runs (.bulkEncrypt seq) 0xF001 ∧ runs (.bulkDecrypt seq) 0xF002 ∧ runs (.compress seq) 0xF010 ∧ runs (.decompress seq) 0xF011 ∧
    runs (.sign seq) 0xF020 ∧ runs (.verify seq) 0xF021 ∧ runs (.hash seq) 0xF030 ∧ runs (.pinTranslate seq) 0xF040 ∧
    runs (.macGenerate seq) 0xF041 ∧ runs (.macVerify seq) 0xF042 ∧
    (reach 0xF030 → blockOk 0xF030 c.desc.keyA.toNat full = true → lengthsOk 0xF030 0 b.auxLen b.aux (full.drop 16).length = true → b.variant = 0 →
      jobRefusal s (job 0xF030) = none →
      answers (.hash seq) s (fun t => ∃ k, jobOf t s.nextJob = some k ∧ k.finished = true ∧ k.status = 0 ∧ k.result = sm3Bytes (full.drop 16))) ∧
    (reach 0xF060 → full.length ≤ c.desc.dstLen.toNat →
      answers (.echo seq) s (fun t => begun t 0xF060 ∧ ∃ k, jobOf t s.nextJob = some k ∧ k.finished = true ∧ k.status = 0 ∧ k.result = full)) ∧
    (reach 0xF050 → blockOk 0xF050 c.desc.keyA.toNat full = true → c.proofTide = none →
      (proofOf s (some c.tenant) b.aux = .absent → exec (.proof seq) s = .next (failCons s seq 0x0704 0 0)) ∧
      (∀ t : Nat, proofOf s (some c.tenant) b.aux = .wait t → exec (.proof seq) s = .next (setCons s seq { c with proofTide := some t })) ∧
      (∀ (t : Nat) (bs : List Byte), proofOf s (some c.tenant) b.aux = .proof t bs → bs.length ≤ c.desc.dstLen.toNat →
        answers (.proof seq) s (fun u => begun u 0xF050 ∧ ∃ k, jobOf u s.nextJob = some k ∧ k.finished = true ∧ k.result = bs ∧ k.value = t % 2 ^ 24))) ∧
    (jobOf s id = some j → j.finished = true → j.th = none → j.seq = seq → consOf s seq = some c → c.state = .accepted → c.phase = .job id → j.status ≠ 0 →
      exec (.builtinJobEnd id) s = .next (failCons (dropJob s id) seq j.status j.value j.resultLen))

/-- R274 to R280, R289 to R293, R324: the last quantum of a lane job whose tag holds, the last step of a Derrick's job and the last block of a
compression finish the job with its result; a finished scuttle ends its job with the status it held, an incomplete one
with 0x0304, and the tenant enters ERROR. -/
def Obligations.EnginesFinishJobs : Prop :=
  ∀ (s w : State) (id : Nat) (j : Job) (lane : Fin 16) (derrick : Fin 32) (engine : Fin 8),
    let done (t : State) (status : Nat) : Prop := ∃ k, jobOf t id = some k ∧ k.finished = true ∧ k.status = status ∧ k.fn = j.fn ∧ k.seq = j.seq
    jobOf s id = some j → s.dev.st ≠ .halted → j.cancelled = false →
    (unitUp s (islLane lane.val) = true → (jobsAt s .lane (.running lane.val)).head? = some (id, j) → j.th = none → pathState s j.tenant = 0 →
      j.src.length ≤ j.progress + 16384 → j.value = 1 → jobWrite s j j.written ((j.result.drop j.written).take (j.result.length - j.written)) = (w, 0) →
      answers (.laneQuantumEnd lane) s (fun t => done t 0 ∧ ∃ k, jobOf t id = some k ∧ k.written = j.result.length ∧ k.resultLen = j.result.length)) ∧
    (unitUp s (islDerrick derrick.val) = true → (jobsAt s .derrick (.running derrick.val)).head? = some (id, j) → derrickSteps s j ≤ j.progress + 1 →
      answers (.derrickStepEnd derrick) s (fun t => ∃ k, jobOf t id = some k ∧ k.finished = true ∧ k.fn = j.fn ∧ k.progress = j.progress + 1)) ∧
    (unitUp s (islStowage engine.val) = true → (jobsAt s .stowage (.running engine.val)).head? = some (id, j) → stowageBlocks j ≤ j.progress + 1 →
      j.fn = 0xF010 →
      answers (.stowageBlockEnd engine) s (fun t => done t 0 ∧ ∃ k, jobOf t id = some k ∧
        k.result = streamBytes (jobStream j) ++ indexBytes (jobStream j) ∧ k.value = (jobStream j).blocks.length)) ∧
    (j.stage = .scuttle → j.value = 0 → dmaDiscarded s j.tenant = false →
      answers (.scuttleComplete id true) s (fun t => done t j.status) ∧
      ((tenantOf s j.tenant).state = .running → answers (.scuttleComplete id false) s (fun t => done t 0x0304 ∧
        (tenantOf t j.tenant).state = .error ∧ (tenantOf t j.tenant).errCause = 1)))

/-- R222, R226, R227, R246, R263, R374: the Strongroom takes requests in order: served, parked or refused. A delivery whose tags are current
fills its slots and posts success. A record read back from the host key store makes its key resident, and one that fails its check is
turned down. Journal records go to pages, at 128 or after 200 µs. A component sequence ends 10 minutes after its last request. A read that
times out is re-driven, or ends with an error. -/
def Obligations.StrongroomWorks : Prop :=
  ∀ (s u : State) (q : SReq) (rest : List SReq) (x : SRun) (w : SWait) (e : Word) (id : Nat) (th : ThreadId) (cfn : Nat) (block : List Byte) (ins : List (List Byte))
    (n : Nat) (k : KeySlot) (handle : BitVec 32) (key : Key) (pg : List JRec) (pages : List (List JRec)) (store : StoreWrite) (p : ReadPurpose) (seqs : Comps),
    let took : State := { s with sroom := { s.sroom with queue := rest } }
    (s.sroom.queue = q :: rest → sroomUp s = true → s.sroom.runs.length < 64 → reqCurrent took q = true →
      (serve took q = (u, .ok x) →
        exec .strongroomRequest s = .next { u with sroom := { u.sroom with runs := mset u.sroom.runs u.sroom.nextRun x, nextRun := u.sroom.nextRun + 1 } }) ∧
      (serve took q = (u, .wait w) → exec .strongroomRequest s = .next { u with sroom := { u.sroom with parked := u.sroom.parked ++ [{ q with wait := w }] } }) ∧
      (serve took q = (u, .fail e) → exec .strongroomRequest s = .next (reapKeys (refuseReq u q e)))) ∧
    (mget s.sroom.runs id = some x → sroomUp s = true → x.req.kind = .cp1 th cfn block ins → reqCurrent s x.req = true → x.out = none →
      x.slots = [(n, k)] → n < 4 → (thr s th).run = .active →
      answers (.keyDelivery id) s (fun t => slotOf t th n = k ∧ (thr t th).cp.get (1 : Fin 3) = .posted 0 ∧ regsOf t th = regsOf s th)) ∧
    (mget s.sroom.keys handle.toNat = some key → sroomUp s = true → (∃ r ∈ s.sroom.parked, r.wait = .load handle.toNat) → s.sroom.base.isSome = true →
      answers (.keyColdLoad handle true) s (fun t => mget t.sroom.keys handle.toNat = some { key with resident := true } ∧
        t.sroom.parked = s.sroom.parked.filter (fun r => r.wait != .load handle.toNat))) ∧
    (sroomUp s = true → s.sroom.openRecs ≠ [] → 128 ≤ s.sroom.openRecs.length ∨ s.sroom.openAt + 200000 ≤ nowNs s →
      exec .journalBatchClose s = .next { s with sroom := { s.sroom with
        openRecs := s.sroom.openRecs.drop 128, openAt := nowNs s, pages := s.sroom.pages ++ [s.sroom.openRecs.take 128] } }) ∧
    (s.sroom.pages = pg :: pages → sroomUp s = true →
      exec .journalPageProgrammed s = .next (mbPoll (pg.foldl journalled { s with sroom := { s.sroom with pages := pages } }))) ∧
    (s.sroom.comps = some seqs → seqs.since + 600000000000 ≤ nowNs s →
      exec .componentSequenceTimeout s = .next { s with sroom := { s.sroom with comps := none } }) ∧
    (mget s.sroom.keys handle.toNat = some key → key.store = some store → pf0Ok s store.port = true →
      exec (.keyStoreWriteConfirmed handle (.ok [])) s = .next (destroyDone (settleKey (setKey s handle.toNat { key with store := none }) handle.toNat)) ∧
      exec (.keyStoreWriteConfirmed handle .error) s = .next (setKey s handle.toNat { key with
        store := some { store with port := if pf0Ok s store.port.other then store.port.other else store.port } })) ∧
    (redrivable s (readTenant s p) = true → exec (.completionTimeout p) s = .next s) ∧
    (redrivable s (readTenant s p) = false → exec (.completionTimeout p) s = exec (.sourceReadComplete p .error) s)

/-! Threads and berths. -/

/-- R107, R142, R189: a parked access goes on once what it waits for has come, and a younger thread restarts its handler instead. R117 to
R119: a signal above PRIO is entered through the vectors, and its counter is cleared. -/
def Obligations.ParkedThreadsAndSignals : Prop :=
  ∀ (s : State) (th : ThreadId) (w : Wait) (c : Cons) (sig : Nat × Nat × Nat) (b : Arch) (g : List GStore),
    let t := thr s th
    (t.wait = some w → running s = true → (basinOf s th.basin.val).checkstopped = false →
      (∀ p l : Nat, w.why = .hold p l → exec (.parkedAccessResume th) s = .next (if holdEnded s th p l then resumeAccess s th else s)) ∧
      (∀ p l : Nat, w.why = .restart p l → consOf s t.seq = some c → holdEnded s th p l = true →
        answers (.parkedAccessResume th) s (fun u => (thr u th).run = .active ∧ (thr u th).wait = none ∧ (thr u th).seq = t.seq ∧
          regsOf u th = entryArch s th c ∧ (thr u th).gated = [])) ∧
      (∀ a : BasinId, w.why = .adoption a → (basinOf s a.val).adopted = true ∨ (basinOf s a.val).checkstopped = false →
        exec (.parkedAccessResume th) s = .next (resumeAccess s th)) ∧
      (∀ n : Nat, w.why = .island n → (islandOf s n).state = 3 → (islandOf s n).reset = false →
        exec (.parkedAccessResume th) s = .next (resumeAccess s th))) ∧
    (takesSignal s th = true →
      (signalAbove t (prio t.arch) = none → exec (.signalEntry th) s = .next s) ∧
      (signalAbove t (prio t.arch) = some sig → sig.1 = 3 → t.entering = none →
        enter s th t.arch sig.2.1 3 t.arch.pc (BitVec.ofNat 24 sig.2.2) (BitVec.ofNat 24 sig.2.1) = some (b, g) →
        answers (.signalEntry th) s (fun u => regsOf u th = b ∧ (thr u th).ck = b ∧ (thr u th).run = .active ∧ (thr u th).wait = none ∧
          (thr u th).sigEv = 0 ∧ (thr u th).sigDl = t.sigDl ∧ (thr u th).sigMc = t.sigMc)))

/-- R337 to R344: a detection logs BERTH_RETRY and restores the checkpoints of the threads concerned, and the third detection of an event
stops the berth for its self-test; a test that passes restores the berth, a test that fails asks for a hand-over. A hand-over moves the
berth to the lowest spare and retires its pair; a spare that fails its test is retired. A drained berth splits, joins, or gives up its
pair. A spare is tested once in 24 hours. -/
def Obligations.BerthsRecover : Prop :=
  ∀ (s : State) (pair sp : PairId) (k : Fin 16) (thread core parts : BitVec 8) (kind : Fin 3) (lane lanes : BitVec 16) (pass : Bool) (reason n t0 : Nat) (port : Port),
    let p := pair.pier
    let v := posAt s p.val k
    let isl (u : State) := islandOf u (islPair pair.val)
    let restored (u : State) (x : ThreadId) : Prop :=
      (thr s x).run ≠ .free → (thr s x).run ≠ .noPair → (thr u x).arch = (thr s x).ck ∧ (thr u x).gated = []
    (running s = true → posOfPair s pair = some k → v.selfTest = false → basinUp s p.basin.val = true → (v.split = true → kind.val ≠ 0) →
      (v.event.getD 0 < 2 → answers (.mismatchDetected pair thread kind lane) s (fun u => logged u 0x0101 ∧
        (∀ x ∈ threadsAt p k, coreThreads v thread.toNat x = true → restored u x) ∧ (∀ x ∈ threadsAt p k, coreThreads v thread.toNat x = false → thr u x = thr s x))) ∧
      (2 ≤ v.event.getD 0 → exec (.mismatchDetected pair thread kind lane) s = .next (setPos s p.val k { v with selfTest := true }))) ∧
    (running s = true → posOfPair s pair = some k → v.selfTest = true → v.handover = none →
      (core = 0 → ((pairAt s p.val pair.inPier).passes.filter (fun t => nowNs s < t + 3600000000000)).length < 2 →
        answers (.selftestDone pair core parts) s (fun u => logged u 0x0102 ∧ (posAt u p.val k).selfTest = false ∧ ∀ x ∈ threadsAt p k, restored u x)) ∧
      (core ≠ 0 → lowestSpare s p = some sp →
        answers (.selftestDone pair core parts) s (fun u => logged u 0x0103 ∧ (posAt u p.val k).handover = some (0, nowNs s)))) ∧
    (running s = true → basinUp s p.basin.val = true → nextHandover s p = some k → v.handover = some (reason, t0) → v.pair = some pair.inPier →
      (pairAt s p.val pair.inPier).use ≠ .spare → lowestSpare s p = some sp →
      answers (.handover p true lane lanes) s (fun u => (posAt u p.val k).pair = some sp.inPier ∧ (posAt u p.val k).handover = none ∧
        (posAt u p.val k).selfTest = false ∧ (pairAt u p.val sp.inPier).use = .busy ∧ (pairAt u p.val pair.inPier).use = .retired ∧
        (isl u).state = 0 ∧ (isl u).out = true ∧ logged u 0x0105) ∧
      answers (.handover p false lane lanes) s (fun u => (pairAt u p.val sp.inPier).use = .retired)) ∧
    (running s = true → basinUp s p.basin.val = true → posOfPair s pair = some k → (∀ x ∈ threadsAt p k, (thr s x).run = .free) → v.handover = none →
      v.selfTest = false →
      (v.retiring = some port → answers (.berthReconfigure pair pass lane lanes) s (fun u =>
        posAt u p.val k = {} ∧ (pairAt u p.val pair.inPier).use = .retired ∧ (isl u).state = 0 ∧ logged u 0x0105)) ∧
      (v.retiring = none → v.reconf = some (true, port) → answers (.berthReconfigure pair pass lane lanes) s (fun u =>
        posAt u p.val k = { v with split := true, reconf := none } ∧ logged u 0x0109)) ∧
      (v.retiring = none → v.reconf = some (false, port) → answers (.berthReconfigure pair true lane lanes) s (fun u =>
        posAt u p.val k = { v with split := false, reconf := none } ∧ logged u 0x010A))) ∧
    (running s = true → (pairAt s p.val n).use = .spare → n = pair.inPier → (pairAt s p.val n).tested + 86400000000000 ≤ nowNs s →
      answers (.dailyComparatorTest pair lane 0) s (fun u => (isl u).test = 1 ∧ (pairAt u p.val n).use = .spare ∧ (pairAt u p.val n).tested = nowNs s) ∧
      (lanes ≠ 0 → answers (.dailyComparatorTest pair lane lanes) s (fun u => (pairAt u p.val n).use = .retired ∧ (isl u).out = true ∧ logged u 0x0105)))

/-! Coherence of a basin. -/

/-- R210 to R212, R214 to R217: what a request of an L2, of a bridge or of an atomic does at the home of a line. A request for a line in a
stable state is answered or makes the line busy, with the forwards and invalidations R212 lists; one for a busy line is NACKed. A Put of a
line that the directory lists is acknowledged and leaves the directory. -/
def Obligations.CoherenceRequests : Prop :=
  ∀ (s : State) (basin : BasinId) (agent : Fin 4) (line addr : Nat) (tag : BitVec 6) (off : Fin 64) (data : List Byte) (who fn : Fin 5) (pair : Bool) (cmp operand : BitVec 48),
    let b := basin.val
    let a := agent.val
    let g := tag.toNat
    let p := agentPier basin a
    let d := dirOf s b line
    let others := d.sharers.filter (· != a)
    let sent (u : State) (m : CohMsg) : Prop := m ∈ (cohOf u b).msgs
    let asked (u : State) (k : ReqKind) : Prop := ∃ r ∈ (cohOf u b).reqs, r.agent = a ∧ r.line = line ∧ r.tag = g ∧ r.kind = k
    let inL3 : Prop := ∃ i, cFind (cohOf s b).l3 l3Sets l3Ways line = some i
    let puts (i : Instr) (st : LState) : Prop := wayState s basin a line = st → (pcOf s p).l2En = true → (∀ e ∈ (pcOf s p).evict, e.line ≠ line) →
      dirLists d a st = true → answers i s (fun u => sent u (.wback a line g) ∧ dirOf u b line = dirWithout d a st ∧
        ∃ e ∈ (pcOf u p).evict, e.line = line ∧ e.state = st ∧ e.tag = some g)
    (mayRequest s basin a line g = true → l2Held s p line = none →
      (dirStable d = false →
        answers (.gets basin agent line tag) s (fun u => asked u .gets ∧ dirOf u b line = d ∧ sent u (.nack a line g .gets)) ∧
        answers (.getm basin agent line tag) s (fun u => asked u .getm ∧ dirOf u b line = d ∧ sent u (.nack a line g .getm))) ∧
      (d.reserve = [] → d.state = .di →
        answers (.gets basin agent line tag) s (fun u => asked u .gets ∧ dirOf u b line = { d with state := .de, owner := a, sharers := [] } ∧
          ∃ x q, sent u (.data a line g .e x q)) ∧
        answers (.getm basin agent line tag) s (fun u => asked u .getm ∧ dirOf u b line = { d with state := .de, owner := a, sharers := [] } ∧
          ∃ x q, sent u (.data a line g .m x q))) ∧
      (d.reserve = [] → d.state = .ds →
        answers (.gets basin agent line tag) s (fun u => (dirOf u b line).state = .ds ∧ a ∈ (dirOf u b line).sharers ∧ ∃ x q, sent u (.data a line g .s x q)) ∧
        (others ≠ [] → answers (.getm basin agent line tag) s (fun u => (dirOf u b line).state = .bI ∧ (dirOf u b line).oweInv = others ∧
          ∀ x ∈ others, sent u (.inv x line)))) ∧
      (d.reserve = [] → d.state = .de ∨ d.state = .dO → d.owner ≠ a →
        answers (.gets basin agent line tag) s (fun u => (dirOf u b line).state = .bF ∧ (dirOf u b line).oweFwd = [d.owner] ∧
          sent u (.fwdGetS d.owner line a g)) ∧
        answers (.getm basin agent line tag) s (fun u => (dirOf u b line).state = .bF ∧ (dirOf u b line).oweFwd = [d.owner] ∧
          sent u (.fwdGetM d.owner line a g)))) ∧
    (mayRequest s basin a line g = true → wayState s basin a line = .s → d.reserve = [] → d.state = .ds → a ∈ d.sharers →
      (others = [] → answers (.upgr basin agent line tag) s (fun u => dirOf u b line = { d with state := .de, owner := a, sharers := [] } ∧
        sent u (.grant a line g))) ∧
      (others ≠ [] → answers (.upgr basin agent line tag) s (fun u => (dirOf u b line).state = .bI ∧ (dirOf u b line).oweInv = others ∧
        ∀ x ∈ others, sent u (.inv x line)))) ∧
    (cohRuns s basin = true → d.oweFwd = [] → dirStable d = true →
      puts (.putm basin agent line tag) .m ∧ puts (.puto basin agent line tag) .o ∧ puts (.pute basin agent line tag) .e ∧
      ((pcOf s p).l2En = true → wayState s basin a line = .s → (∀ r ∈ (cohOf s b).reqs, ¬ (r.agent = a ∧ r.line = line)) → dirLists d a .s = true →
        answers (.puts basin agent line tag) s (fun u => dirOf u b line = dirWithout d a .s ∧ (cohOf u b).msgs = (cohOf s b).msgs))) ∧
    (cohRuns s basin = true → d.reserve = [] → reqOf s b 4 line g = none →
      (d.state = .di ∨ d.state = .ds → answers (.iord basin line tag) s (fun u => reqOf u b 4 line g = none ∧
        ∃ x, mget (cohOf u b).ioDone g = some x ∧ (inL3 → x.data = (cohLine s b line).1 ∧ x.poisoned = (cohLine s b line).2))) ∧
      (d.state = .di → off.val + data.length ≤ 64 → answers (.iowr basin line tag off data) s (fun u => reqOf u b 4 line g = none ∧ dirOf u b line = d ∧
        (mget (cohOf u b).ioDone g).isSome = true ∧ (inL3 → (cohLine u b line).1 = lineSetBytes (cohLine s b line).1 off.val data))) ∧
      (d.state = .ds → off.val + data.length ≤ 64 → answers (.iowr basin line tag off data) s (fun u =>
        (dirOf u b line).state = .bA ∧ (dirOf u b line).oweInv = d.sharers ∧ ∀ x ∈ d.sharers, sent u (.inv x line)))) ∧
    (cohRuns s basin = true → dirStable d = true → line = addr / 64 → oneChunk addr (if pair then 6 else 3) = true →
      let n := if pair then 6 else 3
      let old := leNat ((List.range n).map (fun i => lineByte (cohLine s b line).1 (addr % 64 + i)))
      answers (.amo basin who addr fn pair cmp operand) s (fun u => dirOf u b line = {} ∧ (inL3 → mget (cohOf u b).amoOld who.val = some old ∧
        ∀ v, amoNew (amoFnOf fn.val) n old (cmp.toNat % 2 ^ (8 * n)) (operand.toNat % 2 ^ (8 * n)) = some v →
          (cohLine u b line).1 = lineSetBytes (cohLine s b line).1 (addr % 64) (toLe n v))))

/-- R212, R215, R217, R220: what a message of a basin does where it arrives; a message is one of those sent, the first of its kind for its
agent, line and tag. Data and a Grant complete a request; an owner supplies a line and keeps it (M becoming O, E becoming S) or gives it
up; a sharer removes its copy and acknowledges; a NACK is counted and sent again after 11 ns, and the eighth reserves the line; the answer
to a Put frees its buffer entry; the last acknowledgement ends a line's busy state. Data that nothing asked for checkstops the basin. -/
def Obligations.CoherenceAnswers : Prop :=
  ∀ (s : State) (basin : BasinId) (agent : Fin 4) (line i rq t : Nat) (tag : BitVec 6) (before rest : List CohMsg) (st : LState) (x : BitVec 512) (q : Bool)
    (r : CohReq) (back : Option (BitVec 512)),
    let b := basin.val
    let a := agent.val
    let g := tag.toNat
    let p := agentPier basin a
    let d := dirOf s b line
    let l := tget {} (pcOf s p).l2 i
    let dirty := l.state = .m ∨ l.state = .o
    let sent (u : State) (m : CohMsg) : Prop := m ∈ (cohOf u b).msgs
    let held : Prop := (pcOf s p).l2En = true ∧ cFind (pcOf s p).l2 l2Sets l2Ways line = some i
    let way (u : State) : LState := (tget {} (pcOf u p).l2 i).state
    let came (m : CohMsg) : Prop := (cohOf s b).msgs = before ++ m :: rest
    let filled (k : Instr) : Prop := reqOf s b a line g = some r → (pcOf s p).l2En = true → r.doomed = false → r.needGrant = false ∨ r.granted = true →
      answers k s (fun u => reqOf u b a line g = none ∧ (cohOf u b).msgs = before ++ rest ∧
        u.pcache = (l2Install s p line (if r.kind = .gets then st else .m) x q 1).pcache)
    cohRuns s basin = true →
    (came (.data a line g st x q) → (∀ st x q, CohMsg.data a line g st x q ∉ before) → filled (.data basin agent line tag)) ∧
    (came (.fwdData a line g st x q) → (∀ st x q, CohMsg.fwdData a line g st x q ∉ before) → filled (.fwddata basin agent line tag)) ∧
    ((∀ st x q, CohMsg.data a line g st x q ∉ (cohOf s b).msgs) → reqOf s b a line g = none →
      exec (.data basin agent line tag) s = .next (checkstop s b 5 (islPier (b * 4 + a)))) ∧
    (came (.grant a line g) → CohMsg.grant a line g ∉ before → reqOf s b a line g = some r → r.kind = .upgr → r.got = none → held →
      answers (.grant basin agent line tag) s (fun u => reqOf u b a line g = none ∧ way u = .m)) ∧
    (came (.fwdGetS a line rq t) → (∀ rq t, CohMsg.fwdGetS a line rq t ∉ before) → held → rq ≠ 4 →
      answers (.fwdgets basin agent line) s (fun u => (dirty → way u = .o ∧ sent u (.fwdAck a line .o none false)) ∧
        (¬ dirty → way u = .s ∧ sent u (.fwdAck a line .s none false)) ∧ sent u (.fwdData rq line t .s l.data l.poisoned))) ∧
    (came (.fwdGetM a line rq t) → (∀ rq t, CohMsg.fwdGetM a line rq t ∉ before) → held → rq ≠ 4 →
      answers (.fwdgetm basin agent line) s (fun u => way u = .i ∧ sent u (.fwdData rq line t .m l.data l.poisoned) ∧ sent u (.fwdAck a line .i none false))) ∧
    (came (.inv a line) → CohMsg.inv a line ∉ before → held →
      answers (.inv basin agent line) s (fun u => way u = .i ∧ sent u (.invAck a line) ∧
        ∀ r ∈ (cohOf u b).reqs, r.agent = a → r.line = line → r.kind = .gets → r.doomed = true)) ∧
    (∀ k, came (.nack a line g k) → (∀ k, CohMsg.nack a line g k ∉ before) → reqOf s b a line g = some r →
      answers (.nack basin agent line tag) s (fun u => reqOf u b a line g = some { r with nacks := r.nacks + 1, retryAt := some (nowNs s + 11) })) ∧
    (reqOf s b a line g = some r → r.retryAt = some t → t ≤ nowNs s →
      let r' : CohReq := { r with retryAt := none, sent := nowNs s }
      exec (.nackRetry basin agent line tag) s = .next (homeArrive (modReq s b a line g (fun _ => r')) b r') ∧
      (dirStable d = false → 7 ≤ r.nacks → d.reserve ≠ [] → a ∉ d.reserve →
        answers (.nackRetry basin agent line tag) s (fun u => (dirOf u b line).reserve = d.reserve ++ [a] ∧ sent u (.nack a line g r.kind)))) ∧
    (came (.wback a line g) → CohMsg.wback a line g ∉ before →
      answers (.wback basin agent line tag) s (fun u => ∀ e ∈ (pcOf u p).evict, e.line = line → e.tag ≠ some g)) ∧
    (came (.wbstale a line g) → CohMsg.wbstale a line g ∉ before →
      answers (.wbstale basin agent line tag) s (fun u => ∀ e ∈ (pcOf u p).evict, e.line = line → e.tag ≠ some g)) ∧
    (came (.fwdAck a line st back q) → (∀ st back q, CohMsg.fwdAck a line st back q ∉ before) → d.oweFwd = [a] → d.oweInv = [] → d.req = some r →
      (r.kind = .gets → st = .s → answers (.fwdack basin agent line) s (fun u =>
        dirOf u b line = { reserve := d.reserve, owner := d.owner, state := .ds, sharers := [a, r.agent] })) ∧
      (r.kind = .gets → st = .o → answers (.fwdack basin agent line) s (fun u =>
        dirOf u b line = { reserve := d.reserve, owner := a, state := .dO, sharers := r.agent :: d.sharers.filter (· != r.agent) })) ∧
      (r.kind = .getm → answers (.fwdack basin agent line) s (fun u => dirOf u b line = { reserve := d.reserve, owner := r.agent, state := .de }))) ∧
    (came (.invAck a line) → CohMsg.invAck a line ∉ before → d.oweFwd = [] → d.oweInv = [a] → d.req = some r → r.kind = .getm →
      answers (.invack basin agent line) s (fun u => dirOf u b line = { reserve := d.reserve, owner := r.agent, state := .de } ∧
        (d.withData = true → ∃ x q, sent u (.data r.agent line r.tag .m x q))))

/-- R220, R346: a forward, an invalidation or a request that has waited 64 µs checkstops its basin: the threads there stop without a
trace and their consignments are REPLAYING. R347 to R352: an adopter homes the basin's partitions, a reset basin returns or stays out, a segment
that does not retrain strands ranges without a mirror, and a stack is scrubbed when due. R201 to R204, R363: the cache registers and the
event ring HEAD of a pier. -/
def Obligations.CachesAndBasins : Prop :=
  ∀ (s : State) (basin adopter : BasinId) (sub : Fin 4) (pier : PierId) (corrected : BitVec 32) (on : Bool) (n : BitVec 4) (m : BitVec 18) (h : BitVec 8),
    let b := basin.val
    let v := basinOf s b
    let pc := pcOf s pier.val
    let stopped (u : State) : Prop := (basinOf u b).checkstopped = true ∧
      (∀ th : ThreadId, th.basin = basin → (thr u th).seq = 0 ∧ (thr u th).gated = [] ∧ ((thr u th).run = .free ∨ (thr u th).run = .noPair)) ∧
      (∀ (q : Nat) (c : Cons) (th : ThreadId), consOf s q = some c → c.state = .accepted → c.phase = .onThread th → th.basin = basin →
        ∃ c', consOf u q = some c' ∧ c'.state = .replaying ∧ c'.report = none)
    (cohRuns s basin = true →
      ((∃ e ∈ (cohOf s b).dir, dirStable e.2 = false ∧ (e.2.oweFwd ≠ [] ∨ e.2.oweInv ≠ []) ∧ e.2.since + 64000 ≤ nowNs s) →
        answers (.coherenceTimeout basin 0 sub) s stopped) ∧
      ((∃ r ∈ (cohOf s b).reqs, r.agent = sub.val ∧ r.retryAt = none ∧ r.sent + 64000 ≤ nowNs s) →
        answers (.coherenceTimeout basin 1 sub) s stopped)) ∧
    (running s = true → v.checkstopped = true →
      (v.adopted = false → v.policyReset = false → v.hbmReadable = true ∨ rangesMirrored s b = true → mirrorOf s b = some adopter.val →
        answers (.adoptionComplete basin) s (fun u => (basinOf u b).adopted = true ∧ logged u 0x0302 ∧
          ∀ q < 4096, (partOf s q).home = some b → (partOf u q).home = some adopter.val)) ∧
      (v.adopted = true ∨ v.policyReset = true →
        answers (.basinResetDone basin true) s (fun u => (basinOf u b).checkstopped = false ∧ (basinOf u b).adopted = false ∧ logged u 0x0303) ∧
        answers (.basinResetDone basin false) s (fun u => (basinOf u b).checkstopped = true ∧ logged u 0x0303 ∧
          (v.policyReset = true → (basinOf u b).policyReset = false) ∧ (v.policyReset = false → (basinOf u b).inService = false))) ∧
      (v.hbmReadable = false →
        answers (.fairwayRetrain basin true) s (fun u => (basinOf u b).hbmReadable = true ∧ (islandOf u (islFairway b)).state = 3 ∧ logged u 0x0707) ∧
        (rangesMirrored s b = false → (∃ q ∈ homedBy s b, (partOf s q).stranded = false) →
          answers (.fairwayRetrain basin false) s (fun u => (islandOf u (islFairway b)).out = true ∧ logged u 0x0304 ∧
            ∀ q < 4096, (partOf s q).home = some b → (partOf u q).stranded = true)))) ∧
    (running s = true → v.hbmReadable = true → v.scrubbed + s.policy.scrubHours * 3600000000000 ≤ nowNs s →
      answers (.patrolScrub basin corrected) s (fun u => (basinOf u b).scrubbed = nowNs s ∧ logged u 0x0406)) ∧
    (pierWrite s pier = true →
      answers (.l2Clean pier) s (fun u => ∀ i : Nat, (tget {} (pcOf u pier.val).l2 i).state ≠ .m ∧ (tget {} (pcOf u pier.val).l2 i).state ≠ .o) ∧
      exec (.l2Inv pier) s = .next (if pc.l2En then s else setPc s pier.val { pc with l2 := [] }) ∧
      answers (.l2En pier on) s (fun u => (pcOf u pier.val).l2En = on ∧ (pcOf u pier.val).l2 = pc.l2) ∧
      answers (.lockWays pier n) s (fun u => (pcOf u pier.val).lockWays = min 8 n.toNat ∧
        ∀ i : Nat, i % 16 < 16 - pc.lockWays → 16 - min 8 n.toNat ≤ i % 16 → (tget {} (pcOf u pier.val).l2 i).state = .i) ∧
      exec (.pierL1dEn pier m) s = .next (setPc s pier.val { pc with l1dEn := m }) ∧
      exec (.pierL1iEn pier m) s = .next (setPc s pier.val { pc with l1iEn := m }) ∧
      answers (.pierL1Inv pier m) s (fun u => ∀ e : Nat × Cache,
        (e ∈ (pcOf u pier.val).l1d ↔ e ∈ pc.l1d ∧ ¬ (m.getLsbD (e.1 / 2) = true ∧ pc.l1dEn.getLsbD (e.1 / 2) = false ∧ pc.l1iEn.getLsbD (e.1 / 2) = false)) ∧
        (e ∈ (pcOf u pier.val).l1i ↔ e ∈ pc.l1i ∧ ¬ (m.getLsbD (e.1 / 2) = true ∧ pc.l1dEn.getLsbD (e.1 / 2) = false ∧ pc.l1iEn.getLsbD (e.1 / 2) = false))) ∧
      exec (.pierEvqHead pier h) s = .next (
        if (h.toNat + 256 - (pierOf s pier.val).evqHead) % 256 ≤ ((pierOf s pier.val).evqTail + 256 - (pierOf s pier.val).evqHead) % 256 then
          setPier s pier.val { pierOf s pier.val with evqHead := h.toNat }
        else s))

/-! Events, ports and functions. -/

/-- R358 to R367, R372: a post, an arrival and an alarm reach their source, which opens a window on its first arrival and fires when COUNT
reaches its threshold or the window has been open for its time; a fired source writes its record to the queue of its target and is cleared;
writes of EVT_CTL and EVT_STAT; a vector that is due is sent, and one held by a mask is sent when it is unmasked. -/
def Obligations.EventSources : Prop :=
  ∀ (s : State) (src : BitVec 12) (detail : BitVec 24) (by' : Option Port) (v64 : BitVec 64) (v32 : BitVec 32) (k : Fin 4) (w0 th : Nat) (p : Port) (t : TenantId)
    (eq : Fin 32) (entry : Fin 33) (r : EqRef),
    let n := src.toNat
    let v := srcOf s n
    let cleared : Source := { v with pending := false, sw := false, fired := false, count := 0, window := none }
    let came (u : State) (n det : Nat) (posted : Bool) : Prop :=
      let v := srcOf s n
      let v1 : Source := { v with pending := true, count := satInc v.count 255, detail := det, sw := v.sw || posted }
      (v.en = false → v.window = none → srcOf u n = v1) ∧
      (v.en = true → v.pending = false → v.fired = false → v.kind ≠ 0 →
        (satInc v.count 255 < v.countTh → srcOf u n = { v1 with window := some (nowNs s, v.timeTh) }) ∧
        (v.countTh ≤ satInc v.count 255 → srcOf u n = { v1 with fired := true, firedAt := nowNs s, openedAt := nowNs s, window := none }))
    let q := getEq s r
    let masked (m m' : Msix) : Prop := m' = { m with masked := false, held := false, sent := if m.held then m.sent + 1 else m.sent }
    (evtWriter s by' = true →
      (bitsOf v64.toNat 15 12 = 0 → bitsOf v64.toNat 63 40 = 0 → srcDefined (v64.toNat % 4096) = true →
        answers (.evtPost by' 8 v64) s (fun u => came u (v64.toNat % 4096) (bitsOf v64.toNat 39 16) true)) ∧
      (bitsOf v64.toNat 15 12 ≠ 0 ∨ bitsOf v64.toNat 63 40 ≠ 0 → exec (.evtPost by' 8 v64) s = .next s) ∧
      (srcDefined n = true →
        answers (.evtCtl by' src v32) s (fun u => (srcOf u n).en = v32.getLsbD 31 ∧ (srcOf u n).kind = bitsOf v32.toNat 29 28 ∧
          (srcOf u n).prio = bitsOf v32.toNat 15 12 ∧ (v32.getLsbD 31 = false → (srcOf u n).window = none ∧ (srcOf u n).pending = v.pending)) ∧
        answers (.evtStatPendingClear by' src) s (fun u => srcOf u n = cleared))) ∧
    (s.dev.pwrAon = true → srcDefined n = true → n < 0xE00 ∨ 0xF00 ≤ n → answers (.sourceArrival src detail) s (fun u => came u n detail.toNat false)) ∧
    (v.en = true → v.window = some (w0, th) → w0 + th * 1000 ≤ nowNs s → v.kind ≠ 0 →
      answers (.sourceTimeThreshold src) s (fun u => srcOf u n = { v with fired := true, firedAt := nowNs s, openedAt := w0, window := none })) ∧
    (v.fired = true → v.en = true → srcReady s v = true → srcBeaten s n v = false →
      (v.kind = 1 → answers (.sourceRecordWrite src) s (fun u => srcOf u n = cleared ∧
        (thr u (srcThread v)).sigEv = satInc (thr s (srcThread v)).sigEv 255 ∧
        (pierOf u (srcThread v).pier.val).evqTail = ((pierOf s (srcThread v).pier.val).evqTail + 1) % 256)) ∧
      (v.kind = 2 → answers (.sourceRecordWrite src) s (fun u => srcOf u n = cleared ∧ u.pilotRing = s.pilotRing ++ [srcRecord s n v])) ∧
      (v.kind = 3 → iovaOk s ((getEq s (srcEq v)).base + 32 * (getEq s (srcEq v)).tail) 32 = true →
        exec (.sourceRecordWrite src) s = .next (postEq (setSrc s n cleared) (srcEq v) (srcRecord s n v)))) ∧
    (s.dev.pwrAon = true → s.policy.alarms[k.val]?.getD 0 ≠ 0 → s.policy.alarms[k.val]?.getD 0 ≤ harbourNs s →
      answers (.lighthouseAlarm k) s (fun u => u.policy.alarms = s.policy.alarms.set k.val 0 ∧ came u (0xF20 + k.val) k.val false)) ∧
    (q.exist = true → vectorDue q (nowNs s) = true →
      (r = .pf p eq.val → (portOf s p).dstate = .d0 → (portOf s p).link = true →
        answers (.eqVectorDue p .pf0 eq) s (fun u => getEq u r = signalled q false ∧
          tget {} (portOf u p).msix eq.val = vectorSend (tget {} (portOf s p).msix eq.val))) ∧
      (r = .ten t.val eq.val → eq.val < 16 → p = (tenantOf s t.val).currentPort → vfInServiceB s p t.val = true →
        answers (.eqVectorDue p (.vf t) eq) s (fun u => getEq u r = signalled q false ∧
          tget {} (vfOf u p t.val).msix eq.val = vectorSend (tget {} (vfOf s p t.val).msix eq.val)))) ∧
    (pfMmio s p = true → answers (.msixUnmask p .pf0 entry) s (fun u => masked (tget {} (portOf s p).msix entry.val) (tget {} (portOf u p).msix entry.val))) ∧
    (vfMmio s p t.val = true → entry.val ≤ 16 → (vfOf s p t.val).tdisp ≠ .locked →
      answers (.msixUnmask p (.vf t) entry) s (fun u => masked (tget {} (vfOf s p t.val).msix entry.val) (tget {} (vfOf u p t.val).msix entry.val)))

/-- R368, R369, R385, R390 to R405: what a change of the D-state, a reset or a disabled link, an FLR, a shrunken or cleared VF Enable, the
drain limit of a QUIESCE, a completed drain or resume, a lapse of the helm, an ATS invalidation, an IDE failure and a TDISP request do, in the
terms of the shared operations: a lost path moves to the other port or waits, a squash stops the queues of a tenant. -/
def Obligations.PortsAndFunctions : Prop :=
  ∀ (s : State) (p : Port) (t : TenantId) (n : Fin 1025) (page : Nat) (stream : Fin 4) (d : Nat),
    let q := portOf s p
    let v := tenantOf s t.val
    let f := vfOf s p t.val
    let listed : Prop := q.link = true ∧ q.vfEnable = true ∧ t.val < q.numVFs
    let ide := tget {} s.ide (p.num * 4 + stream.val)
    let covered : Prop := ∃ k < 4, streamCovers s p k t.val = true ∧ (tget {} s.ide (p.num * 4 + k)).secure = true ∧ (tget {} s.ide (p.num * 4 + k)).link = false
    (q.link = true → awake s = true →
      (q.dstate = .d0 → exec (.dStateChange p .pf0 .d3hot) s = .next (setPort (helmLapse s p) p { q with dstate := .d3hot, pmeSent := 0 })) ∧
      (q.dstate = .d3hot → exec (.dStateChange p .pf0 .d0) s = .next (sendAllPf (setPort s p { q with dstate := .d0 }) p)) ∧
      (allD3hot s p = true → q.pmeEn = true → exec (.dStateChange p .pf0 .d3cold) s = .next (portReset s p q.perst)) ∧
      (listed → f.dstate = .d0 → exec (.dStateChange p (.vf t) .d3hot) s = .next (vfSleep s p t.val)) ∧
      (listed → f.dstate = .d3hot → exec (.dStateChange p (.vf t) .d0) s = .next (vfWake s p t.val))) ∧
    (q.link = true → answers (.pmeEnSet p .pf0) s (fun u => (portOf u p).pmeEn = true ∧ (q.pmeStatus = true → q.dstate = .d3hot → q.pmeSent = 0 → (portOf u p).pmeSent = 1))) ∧
    (listed → answers (.pmeEnSet p (.vf t)) s (fun u => (vfOf u p t.val).pmeEn = true ∧
      (f.pmeStatus = true → f.dstate = .d3hot → f.pmeSent = 0 → (vfOf u p t.val).pmeSent = 1))) ∧
    (running s = true → listed → bitOf v.ports p.num = true →
      exec (.flr p t) s = .next (tenantEvent (flrEffect (tenantEvent s t.val 0 p) p t.val) t.val 1 p)) ∧
    (tenantOf (squash s t.val 0) t.val).state = .squashed ∧ (∀ k, (sqOf (squash s t.val 0) t.val k).enabled = false) ∧
    (v.drainAt = some d → d ≤ nowNs s →
      exec (.flrDrainTimeout t) s = .next (mbFinishOp (squash s t.val (if v.state = .error then v.errCause else 0)) 0x0203 t.val 0x0702 0 []) ∧
      exec (.quiesceDrainLimit t) s = exec (.flrDrainTimeout t) s) ∧
    (v.drainAt = some d → drained s t.val = true → answers (.quiesceDrainComplete t) s (fun u => (tenantOf u t.val).drainAt = none ∧
      (tenantOf u t.val).state = (if v.state = .error then .error else .quiesced) ∧ ∀ k, (sqOf u t.val k).enabled = false)) ∧
    (mbRuns s p 0x0204 t.val = true → slotsFree s t.val = true →
      exec (.resumeSlotsFreed t) s = .next (mbFinishOp (resumeNow s t.val) 0x0204 t.val 0 0 [])) ∧
    exec (.vfInService t) s = .next (pathBack s t.val) ∧
    (q.link = true → exec (.hotReset p) s = .next (portReset s p false) ∧ exec (.linkDisable p) s = .next (portReset s p false)) ∧
    (q.link = true →
      let r := resetPf0 (flrAll s p) p false
      exec (.pf0Flr p) s = .next (portLost (setPort r p { portOf r p with link := true }) p) ∧
      (portOf r p).vfEnable = false ∧ (portOf r p).numVFs = 0 ∧ (portOf r p).bme = false ∧ r.helm.holder ≠ some p) ∧
    (q.link = true → q.vfEnable = true → n.val < q.numVFs →
      (∀ e ∈ s.tenants, bitOf e.2.ports p.num = true → e.1 < n.val ∨ q.numVFs ≤ e.1) →
      exec (.vfEnableClear p n) s = .next (portLost (setPort s p { q with vfEnable := decide (n.val ≠ 0), numVFs := n.val }) p)) ∧
    (s.helm.holder = some p → s.helm.expiry ≤ nowNs s → answers .helmLeaseExpiry s (fun u => u.helm.holder = none ∧ u.helm.last = p)) ∧
    (s.helm.holder = some p → s.helm.told75 = false → 3 * (s.helm.expiry - s.helm.since) ≤ 4 * (nowNs s - s.helm.since) →
      answers .helmLease75 s (fun u => u.helm = { s.helm with told75 := true } ∧ (srcOf u 0xB02).detail = 75)) ∧
    (q.link = true → answers (.atsInvalidationRequest p page) s (fun u => page ∉ (portOf u p).atsCache ∧ (∀ x ≠ page, x ∈ q.atsCache → x ∈ (portOf u p).atsCache) ∧
      (portOf u p).invalidations = q.invalidations + 1)) ∧
    (ide.used = true → ide.secure = true →
      let s' : State := { s with ide := tset {} s.ide (p.num * 4 + stream.val) { ide with secure := false } }
      ((∀ e ∈ s.tenants, bitOf e.2.ports p.num = false) → exec (.ideIntegrityFailure p stream) s = .next s') ∧
      (s.tenants = [(t.val, v)] → bitOf v.ports p.num = true → streamCovers s' p stream.val t.val = true →
        (f.tdisp = .run → exec (.ideIntegrityFailure p stream) s = .next (tdiError s' p t.val)) ∧
        (f.tdisp = .unlocked → exec (.ideIntegrityFailure p stream) s = .next (pathLost s' t.val)))) ∧
    (tenantOf (tdiError s p t.val) t.val).state = .error ∧ (tenantOf (tdiError s p t.val) t.val).errCause = 2 ∧
    (q.link = true → f.tdisp = .unlocked → covered → bitOf v.ports p.num = true →
      answers (.lockInterfaceRequest p t) s (fun u => (vfOf u p t.val).tdisp = .locked)) ∧
    (q.link = true → f.tdisp ≠ .unlocked → exec (.stopInterfaceRequest p t) s = .next (setVf s p t.val { f with tdisp := .unlocked })) ∧
    (q.link = true → q.aspmEn = true → q.l1 = false → q.lastTlp + 8000 ≤ nowNs s → dmaBusy s p = false →
      exec (.aspmL1Entry p) s = .next (setPort s p { q with l1 := true }))

/-! The mailbox. -/

/-- R384 to R394, R453 to R468: a GO while BUSY is counted, one while STARTING is answered with MB_NOT_READY, one while the Pilot restarts
waits, and a request that fails a check is refused with that check's status. The commands of device, helm, time, tenants and queues: where
each is refused, and what the state and the response are where it is done. -/
def Obligations.MailboxTenantCommands : Prop :=
  ∀ (s : State) (m : MbReq) (p' : Port) (st d : Nat),
    let u := heard s m
    let p := m.port
    let b := mbBody m
    let f (off n : Nat) : Nat := fieldLe b off n
    let t := f 0 2
    let v := tenantOf u t
    let code := stateCode v.state
    let ms := if f 0 4 = 0 then 10000 else f 0 4
    let sq := sqOf u t (f 3 1)
    let eq : Eq := { exist := true, enabled := true, sizeLog2 := f 5 1, base := f 16 8, timeTh := orOne (f 14 2), countTh := orOne (f 12 1) }
    let idle := v.state = .quiesced ∨ v.state = .squashed
    let homes := (b.drop 4).zipIdx
    let homed := saveConf (homes.foldl (fun s e =>
      let w := partOf s (t + e.2)
      let h : Option Nat := if e.1 = 0xFF then none else some e.1.toNat
      setPart s (t + e.2) { w with next := if w.home = h then none else some h }) u)
    (mailMmio s p = true →
      ((mailOf s p).st = 0 → exec (.getCaps m) s = .next (setMail s p { mailOf s p with resp := some { status := 0x0808, tag := m.tag.toNat } })) ∧
      ((mailOf s p).st = 2 → exec (.getCaps m) s = .next (setMail u p { mailOf s p with ignored := satInc (mailOf s p).ignored 255 })) ∧
      ((mailOf s p).st = 3 → pilotUp u = false → exec (.getCaps m) s = .next (mbBusy u p { mbRunOf u cmdGetCaps m with req := some m }))) ∧
    (presented m s → mbCheck cmdTimeSet m u = some (st, d) → exec (.timeSet m) s = .next (mbAnswer u p { status := st, tag := m.tag.toNat, detail := d })) ∧
    gives (.getDeviceInfo m) cmdGetDeviceInfo m s (.done u (deviceInfo u p)) ∧
    gives (.getCaps m) cmdGetCaps m s (.done u (deviceCaps u)) ∧
    (u.helm.holder ≠ some p.other →
      gives (.helmAcquire m) cmdHelmAcquire m s (.done (takeHelm u p ms) (toLe 4 ms ++ toLe 8 (harbourAt (takeHelm u p ms) ((nowNs u + ms * 1000000) * 1000)))) ∧
      (takeHelm u p ms).helm.holder = some p) ∧
    (m.flags.getLsbD 2 = true →
      givesSigned (.helmAcquire m) cmdHelmAcquire m s (.done (takeHelm u p ms) (toLe 4 ms ++ toLe 8 (harbourAt (takeHelm u p ms) ((nowNs u + ms * 1000000) * 1000))))) ∧
    (u.helm.holder = some p.other → m.flags.getLsbD 2 = false → gives (.helmAcquire m) cmdHelmAcquire m s (.fail 0x0804 0)) ∧
    gives (.helmRelease m) cmdHelmRelease m s (.done (helmLapse u p) []) ∧ (helmLapse u p).helm.holder ≠ some p ∧
    (f 8 1 = 0 → gives (.timeSet m) cmdTimeSet m s (.done (setTime u (f 0 8) (bitOf (f 9 1) 0) (bitOf (f 10 1) 0)) (toLe 8 (harbourNs u)))) ∧
    (quiet u = true → harbourNs (setTime u (f 0 8) (bitOf (f 9 1) 0) (bitOf (f 10 1) 0)) = f 0 8) ∧
    (f 8 1 = 1 → gives (.timeSet m) cmdTimeSet m s (.wait { u with disc := { u.disc with
      waiting := some { port := p, time := f 0 8, ppsEn := bitOf (f 9 1) 0, tenEn := bitOf (f 10 1) 0 } } } 0 0 8 false)) ∧
    (u.cfg.configured = false → gives (.tenantCreate m) cmdTenantCreate m s (.fail 0x0809 0xFFFFFFFF)) ∧
    (u.cfg.configured = true → v.state ≠ .absent → gives (.tenantCreate m) cmdTenantCreate m s (.fail 0x0809 code)) ∧
    (u.cfg.configured = true → v.state = .absent → (keysOfTenant u t).length ≤ f 4 4 → gives (.tenantCreate m) cmdTenantCreate m s
      (.done (pathBack (saveConf (withVector t (fun s => setTenant s t { state := .quiesced, ports := f 2 1, quota := f 4 4 }) u)) t) [])) ∧
    (v.state ≠ .absent → storedKeys u t ≤ f 4 4 → f 2 1 = 3 → gives (.tenantConfigure m) cmdTenantConfigure m s
      (.done (saveConf (pathBack (setTenant u t { v with ports := 3, quota := f 4 4 }) t)) [])) ∧
    (v.state ≠ .absent → f 4 4 < storedKeys u t → gives (.tenantConfigure m) cmdTenantConfigure m s (.fail 0x080A 0)) ∧
    (v.state = .running ∨ v.state = .error → gives (.tenantQuiesce m) cmdTenantQuiesce m s (.wait
      (withVector t (fun s => setTenant s t { v with
        state := if v.state = .running then .quiescing else .error, drainAt := some (nowNs u + (if f 4 4 = 0 then 100 else f 4 4) * 1000000) }) u) t 0 0 true)) ∧
    (v.state ≠ .running → v.state ≠ .error → gives (.tenantQuiesce m) cmdTenantQuiesce m s (.fail 0x0809 code)) ∧
    (idle ∨ v.state = .error → v.takenAway = false →
      (u.cfg.configured = false → gives (.tenantResume m) cmdTenantResume m s (.fail 0x0809 0xFFFFFFFF)) ∧
      (u.cfg.configured = true → u.clock.timeSet = false → gives (.tenantResume m) cmdTenantResume m s (.fail 0x0809 0xFFFFFFFE)) ∧
      (u.cfg.configured = true → u.clock.timeSet = true → gives (.tenantResume m) cmdTenantResume m s
        (if slotsFree u t then .done (resumeNow u t) [] else .wait u t 0 0 false))) ∧
    (idle → keysOfTenant (destroyKeys (saveConf (dropTenant u t)) t) t = [] → mget u.sroom.labels t = none →
      gives (.tenantDestroy m) cmdTenantDestroy m s (.done (destroyKeys (saveConf (dropTenant u t)) t) (toLe 4 (storedKeys u t)))) ∧
    (tenantOf (dropTenant u t) t).state = .absent ∧
    (v.state = .running → heldCount u t ≠ 0 → gives (.tenantResync m) cmdTenantResync m s
      (.done (withVector t (fun s => releaseHeld (heldCount u t) (setTenant s t { tenantOf s t with needResync := false }) t) u) (toLe 4 (heldCount u t)))) ∧
    (pfTenant t = some p' → gives (.queueCreate m) cmdQueueCreate m s
      (if (getEq u (.pf p' (f 3 1))).exist then .fail 0x0809 0 else .done (setEq u (.pf p' (f 3 1)) eq) [])) ∧
    (pfTenant t = none → v.state ≠ .absent → f 2 1 = 2 → (tenEq u t (f 3 1)).exist = false → gives (.queueCreate m) cmdQueueCreate m s
      (.done (setTenEq u t (f 3 1) { eq with enabled := decide (v.state = .running) }) [])) ∧
    (pfTenant t = none → v.state ≠ .absent → f 2 1 ≠ 2 → sq.exist = false → (tenEq u t (f 4 1)).exist = true → gives (.queueCreate m) cmdQueueCreate m s
      (if u.anchorFree < f 6 2 then .fail 0x080A 0
       else .done (setSq { u with anchorFree := u.anchorFree - f 6 2 } t (f 3 1)
        { exist := true, pull := f 2 1 == 1, eq := f 4 1, reservation := f 6 2, enabled := decide (v.state = .running), base := f 16 8, sizeLog2 := f 5 1,
          creditBatch := orOne (f 8 2), creditTime := orOne (f 10 2) }) [])) ∧
    (pfTenant t = some p' → (getEq u (.pf p' (f 3 1))).exist = true → gives (.queueDestroy m) cmdQueueDestroy m s (.done (setEq u (.pf p' (f 3 1)) {}) [])) ∧
    (pfTenant t = none → idle → f 2 1 ≠ 2 → sq.exist = true → sq.pull = (f 2 1 == 1) → gives (.queueDestroy m) cmdQueueDestroy m s
      (.done (setSq { u with anchorFree := u.anchorFree + sq.reservation } t (f 3 1) {}) [])) ∧
    (pfTenant t = none → ¬ idle → gives (.queueDestroy m) cmdQueueDestroy m s (.fail 0x0809 code)) ∧
    (v.state ≠ .absent → gives (.classSet m) cmdClassSet m s (.done (saveConf (setTenant u t { v with classes := tset 0 v.classes (f 2 1) (f 4 4) })) [])) ∧
    ((∃ e ∈ homes, e.1 ≠ 0xFF ∧ basinUp u e.1.toNat = false) → gives (.partitionMapSet m) cmdPartitionMapSet m s (.fail 0x0809 0)) ∧
    ((∀ e ∈ homes, e.1 ≠ 0xFF → basinUp u e.1.toNat = true) → gives (.partitionMapSet m) cmdPartitionMapSet m s
      (if homed.parts.any (fun e => e.2.next.isSome) then .wait homed 0 0 0 true else .done homed [])) ∧
    (v.state ≠ .absent → (tget {} v.pools (f 2 1)).exist = false → gives (.chainPoolCreate m) cmdChainPoolCreate m s
      (.done (setPool u t (f 2 1) { exist := true, sizeLog2 := f 3 1, bufLog2 := f 4 1, base := f 8 8 }) [])) ∧
    (idle → (tget {} v.pools (f 2 1)).exist = true → gives (.chainPoolDestroy m) cmdChainPoolDestroy m s (.done (setPool u t (f 2 1) {}) []))

/-- R223 to R257, R469 to R472, R511: the commands of keys. An index that holds a key and a store not yet configured are refused; a key made
or imported takes its handle and waits for its record; a block or a component is judged by the checks of R243 and R247; an export, the store
region and a label take a co-signature; a retirement changes the state of the key or destroys it. -/
def Obligations.MailboxKeyCommands : Prop :=
  ∀ (s : State) (m : MbReq) (h : Nat) (k kb q : Key) (x : State),
    let u := heard s m
    let p := m.port
    let b := mbBody m
    let f (off n : Nat) : Nat := fieldLe b off n
    let a := attrOf b 4
    let value := if a.alg = chE ∨ a.alg = chR then Config.newPrivate a.curve a.bits u.freeCtr else randomBytes u.freeCtr (a.bits / 8)
    let made : Key := { attr := a, value := value }
    let base := f 0 8
    let u1 : State := { u with freeCtr := u.freeCtr + 1 }
    let text := slice b 4 (f 2 1)
    (targetTaken u (f 4 4) = true → gives (.keyImportBlock m) cmdKeyImportBlock m s (.fail 0x0809 0)) ∧
    (targetTaken u (f 4 4) = false →
      (u.sroom.base = none → gives (.keyImportBlock m) cmdKeyImportBlock m s (.fail 0x0205 9)) ∧
      (u.sroom.base.isSome = true →
        (f 0 1 = 0 → gives (.keyImportBlock m) cmdKeyImportBlock m s (importBlock u p b)) ∧
        (f 0 1 = 1 → givesSigned (.keyImportBlock m) cmdKeyImportBlock m s (importComponent u p b)) ∧
        (f 0 1 = 2 → attrReason (attrOf b 16) true = none → keyRoom u (f 4 4) = true → newHandle u (f 4 4) = some h →
          gives (.keyImportBlock m) cmdKeyImportBlock m s
            (.wait (addKey u p h { attr := attrOf b 16, value := b.drop 32, isPublic := true }) h 0 10 true)))) ∧
    (targetTaken u (f 0 4) = false → u.sroom.base.isSome = true →
      (∀ e, attrReason a false = some e → gives (.keyGenerate m) cmdKeyGenerate m s (.fail 0x0205 e)) ∧
      (attrReason a false = none → keyRoom u1 (f 0 4) = false → gives (.keyGenerate m) cmdKeyGenerate m s (.fail 0x0205 8)) ∧
      (attrReason a false = none → keyRoom u1 (f 0 4) = true → newHandle u1 (f 0 4) = some h →
        gives (.keyGenerate m) cmdKeyGenerate m s (.wait (addKey u1 p h made) h 0 (keyBody (f 0 4) made 0x0302 0).length true) ∧
        givesSigned (.keyGenerate m) cmdKeyGenerate m s (.wait (addKey u1 p h made) h 0 (keyBody (f 0 4) made 0x0302 0).length true))) ∧
    (keyOf u (f 0 4) = none → givesSigned (.keyExportBlock m) cmdKeyExportBlock m s (.fail 0x0201 0)) ∧
    (keyOf u (f 0 4) = some k → keyOf u (f 4 4) = some kb → blockKey u (f 0 4) (f 4 4) .blockExport none = some q →
      (k.attr.exp ≠ chE → givesSigned (.keyExportBlock m) cmdKeyExportBlock m s (.fail 0x0202 0)) ∧
      (k.attr.exp = chE → k.isPublic = false → strongEnough (algCode q.attr) (algCode k.attr) = true → hIndex (f 0 4) ≠ 0 ∨ hMgr (f 0 4) = true →
        (k.state = 3 → givesSigned (.keyExportBlock m) cmdKeyExportBlock m s (.fail 0x0204 0)) ∧
        (k.state ≠ 3 → q.state = 0 →
          let r := modKey (modKey u (f 0 4) (fun k => { k with resident := true })) (f 4 4) (fun k => { k with resident := true })
          let ver := if isTdea (algCode q.attr) then chB else chD
          let sealed := Config.sealKeyBlock q.value (blockText r ver k.attr.usage k.attr.alg k.attr.mode k.version k.attr.exp (algCode k.attr) k.value) k.value r.freeCtr
          (∀ n, draw r (f 4 4) 1 = (x, some n) → givesSigned (.keyExportBlock m) cmdKeyExportBlock m s
            (.done { x with freeCtr := x.freeCtr + 1 } (toLe 2 sealed.length ++ sealed)))))) ∧
    (keyOf u (f 0 4) = none → gives (.keyRetire m) cmdKeyRetire m s (.fail 0x0201 0) ∧ gives (.keyQuery m) cmdKeyQuery m s (.fail 0x0201 0)) ∧
    (keyOf u (f 0 4) = some k →
      gives (.keyQuery m) cmdKeyQuery m s (.done u (toLe 1 k.state ++ zeros 3 ++ attrBytes k.attr ++ toLe 8 k.counter ++ toLe 8 k.high ++ kcvOf (algCode k.attr) k.value)) ∧
      (f 4 1 = 2 → gives (.keyRetire m) cmdKeyRetire m s (.wait (reapKeys (setKey u (f 0 4) { k with dying := true, cmd := some p })) (f 0 4) 0 0 true) ∧
        givesSigned (.keyRetire m) cmdKeyRetire m s (.wait (reapKeys (setKey u (f 0 4) { k with dying := true, cmd := some p })) (f 0 4) 0 0 true)) ∧
      (f 4 1 < 2 → retiredState k.state (f 4 1) = k.state → gives (.keyRetire m) cmdKeyRetire m s (.done u [])) ∧
      (f 4 1 < 2 → retiredState k.state (f 4 1) ≠ k.state → hIndex (f 0 4) ≠ 0 → gives (.keyRetire m) cmdKeyRetire m s
        (.wait (persistKey (setKey u (f 0 4) { k with state := retiredState k.state (f 4 1), cmd := some p }) (f 0 4) (retiredState k.state (f 4 1))) (f 0 4) 0 0 true))) ∧
    (journalLive u = false → givesSigned (.keystoreConfigure m) cmdKeystoreConfigure m s (.done { u1 with sroom := { u.sroom with base := some base } } [])) ∧
    (journalLive u = true → givesSigned (.keystoreConfigure m) cmdKeystoreConfigure m s
      (match Config.regionFails base u.freeCtr with
      | some slot => .ends u1 0x0809 slot []
      | none => .done { u1 with sroom := { u.sroom with base := some base } } [])) ∧
    ((tenantOf u (f 0 2)).state = .absent → givesSigned (.tenantLabelSet m) cmdTenantLabelSet m s (.fail 0x0809 0)) ∧
    ((tenantOf u (f 0 2)).state ≠ .absent → (mget u.sroom.labels (f 0 2)).isSome = true → givesSigned (.tenantLabelSet m) cmdTenantLabelSet m s (.fail 0x0202 0)) ∧
    ((tenantOf u (f 0 2)).state ≠ .absent → mget u.sroom.labels (f 0 2) = none → givesSigned (.tenantLabelSet m) cmdTenantLabelSet m s
      (.wait (journalAdd { u with sroom := { u.sroom with labels := mset u.sroom.labels (f 0 2) text } } (.label (f 0 2) text)) (f 0 2) 0 0 true))

/-- R75, R85, R122, R301, R313, R342, R347, R350, R354, R370, R434 to R449, R470 to R473, R483, R488: the commands of handlers and format programs,
of the ledger, of berths and basins, of error injection, the Logbook, power and diagnostics, of firmware and OTP, and of the Roadstead. -/
def Obligations.MailboxPlatformCommands : Prop :=
  ∀ (s : State) (m : MbReq) (pr : PairId) (k : Fin 16) (x y : Nat × List Byte) (a : Nat) (go : State → State) (bs : List Byte) (o n : Nat),
    let u := heard s m
    let p := m.port
    let b := mbBody m
    let f (off n : Nat) : Nat := fieldLe b off n
    let bad : MbAct := .fail 0x0809 0
    let slipway := u.dev.st = .slipway
    let prog := b.drop 4
    let ts := ((u.tides.log.reverse).filter (fun e => decide (f 0 8 ≤ e.1))).take (f 8 4)
    let w := posAt u pr.pier.val k
    let es := ((u.log.reverse).filter (fun e => decide (f 0 4 ≤ e.entry))).take (f 4 4)
    let q := f 0 1
    let trim (s : State) : State × Nat := if f 0 8 = 0 then (s, 0) else trimTo (trimMirrors s (f 0 8)) (min (f 0 8) (newestClosed s))
    let cut := trim { u with cfg := { u.cfg with hostHead := f 8 4 } }
    let life := u.otp.lifecycle
    let here : State := { u with road := { u.road with taken := u.road.taken + 2 ^ q, takenHere := u.road.takenHere + 2 ^ q } }
    let took : State := { here with mem := { u.mem with ledgered := (mirrorAt u q).lines.foldl (fun x e => tset 0 x ((q + 1) * 2 ^ 32 + e.1) e.2) u.mem.ledgered } }
    let fail : Nat := (Config.freeByte (u.freeCtr * 65536)).toNat % 2
    let burnt : MbAct := if 4 ≤ u.otp.settings.length then .fail 0x0818 0
      else if b.all (· == 0) then .done (arrive u 0xC03 u.otp.settings.length false) []
      else .done (arrive { u with otp := { u.otp with settings := u.otp.settings ++ [b] } } 0xC03 (u.otp.settings.length + 1) false) []
    let advanced : MbAct := if f 0 1 ≠ life + 1 ∨ (life = 1 ∧ u.otp.owners.isEmpty) then bad
      else .done { u with otp := { u.otp with lifecycle := life + 1 } } []
    let rotated : MbAct := if 4 ≤ u.otp.owners.length then .fail 0x0818 0
      else .done { u with otp := { u.otp with owners := u.otp.owners ++ [sm3Bytes b] } } [];
    (runsCode u (f 0 2) = false → (mget u.handlers (f 0 2)).isSome = true →
      gives (.handlerLoad m) cmdHandlerLoad m s (.done { u with handlers := mset u.handlers (f 0 2) (b.drop 8) } [])) ∧
    (mget u.handlers (f 0 2) = none → runsCode u (f 0 2) = false → gives (.handlerLoad m) cmdHandlerLoad m s
      (if Config.handlerRoom ≤ loadedHandlers u then .fail 0x080A 0 else .done { u with handlers := mset u.handlers (f 0 2) (b.drop 8) } [])) ∧
    ((tenantOf u (f 0 2)).state ≠ .absent → gives (.handlerBind m) cmdHandlerBind m s (.done { u with
      bindings := if f 8 1 = 1 then mdel u.bindings (f 0 2 * 65536 + f 2 2) else mset u.bindings (f 0 2 * 65536 + f 2 2) (f 4 4) } [])) ∧
    (programFault prog = some o → gives (.formatLoad m) cmdFormatLoad m s (.fail 0x0408 o)) ∧
    (programFault prog = none → (∀ i < 16, slotInUse u i (f 0 1) = false) → gives (.formatLoad m) cmdFormatLoad m s
      (.done { u with formats := mset u.formats (f 0 1) prog } [])) ∧
    (quiet u = false → (u.cfg.areaGib ≠ orDefault (f 0 1) 4 ∨ u.cfg.partLog2 ≠ orDefault (f 6 1) 16 ∨ u.cfg.mirrorMask ≠ f 3 1 ∨ u.cfg.hostLog2 ≠ f 2 1 ∨ u.cfg.hostBase ≠ f 16 8) →
      gives (.ledgerConfigure m) cmdLedgerConfigure m s bad) ∧
    (u.cfg.areaGib = orDefault (f 0 1) 4 → u.cfg.partLog2 = orDefault (f 6 1) 16 → u.cfg.mirrorMask = f 3 1 → u.cfg.hostLog2 = f 2 1 → u.cfg.hostBase = f 16 8 →
      gives (.ledgerConfigure m) cmdLedgerConfigure m s (.done (saveConf ((List.range 4).foldl ledgerHigh { u with cfg := { u.cfg with
        configured := true, later := some { replayMax := orDefault (f 1 1) 3, tidePeriodUs := orDefault (f 4 2) 100, tideMax := orDefault (f 8 4) 65536, autoTrim := f 12 4 } } })) [])) ∧
    (ts = [] → gives (.tideGet m) cmdTideGet m s (.fail 0x0704 0)) ∧
    (ts.head? = some x → ts.getLast? = some y → gives (.tideGet m) cmdTideGet m s
      (.done u (toLe 4 ts.length ++ toLe 4 (certsFor u x.1 y.1).length ++ ts.flatMap (·.2) ++ (certsFor u x.1 y.1).flatten))) ∧
    (proofOf u (some (f 0 2)) (f 4 8) = .absent → gives (.proofGet m) cmdProofGet m s (.fail 0x0704 0)) ∧
    (proofOf u (some (f 0 2)) (f 4 8) = .wait n → gives (.proofGet m) cmdProofGet m s (.again u)) ∧
    (proofOf u (some (f 0 2)) (f 4 8) = .proof n bs → gives (.proofGet m) cmdProofGet m s (.done u bs)) ∧
    gives (.ledgerTrim m) cmdLedgerTrim m s
      (.done ((List.range 4).foldl (fun s k => hostSend s k (ledgerOf s k).hostWait.length) cut.1) (toLe 8 cut.2)) ∧
    (berthOf u (f 0 2) = none → gives (.berthSplit m) cmdBerthSplit m s bad ∧ gives (.berthJoin m) cmdBerthJoin m s bad) ∧
    (berthOf u (f 0 2) = some (pr, k) → w.reconf = none → w.retiring = none → w.handover = none →
      gives (.berthSplit m) cmdBerthSplit m s (if w.split then bad else .wait (setPos u pr.pier.val k { w with reconf := some (true, p) }) (f 0 2) 0 0 true) ∧
      gives (.berthJoin m) cmdBerthJoin m s (if w.split then .wait (setPos u pr.pier.val k { w with reconf := some (false, p) }) (f 0 2) 0 0 true else bad)) ∧
    (pairOfIsland (f 0 2) = none → gives (.berthRetire m) cmdBerthRetire m s bad) ∧
    (pairOfIsland (f 0 2) = some pr → (pairAt u pr.pier.val pr.inPier).use ≠ .retired → basinUp u pr.pier.basin.val = true →
      (posOfPair u pr = none → gives (.berthRetire m) cmdBerthRetire m s (.done (retirePair u pr 2) [])) ∧
      (posOfPair u pr = some k → w.handover = none → gives (.berthRetire m) cmdBerthRetire m s
        (if (lowestSpare u pr.pier).isSome then .wait (wantHandover u pr.pier k pr 2) (f 0 2) 0 0 true
         else .wait (setPos u pr.pier.val k { w with retiring := some p }) (f 0 2) 0 0 true))) ∧
    (f 1 1 < 2 → gives (.basinRecover m) cmdBasinRecover m s (.done (setBasin u q { basinOf u q with policyReset := decide (f 1 1 = 1) }) (toLe 4 0))) ∧
    (strandedOf u q = [] → 2 ≤ f 1 1 → gives (.basinRecover m) cmdBasinRecover m s bad) ∧
    (strandedOf u q ≠ [] →
      (f 1 1 = 2 → gives (.basinRecover m) cmdBasinRecover m s (.done (retryHbm u q) (toLe 4 0))) ∧
      (f 1 1 = 3 → mirrorOf u q = some a → gives (.basinRecover m) cmdBasinRecover m s (.done (resolveStranded u q a).1 (toLe 4 (resolveStranded u q a).2)))) ∧
    (injectError u (f 0 2) (f 2 1) (f 4 8) = none → gives (.errorInject m) cmdErrorInject m s bad) ∧
    (injectError u (f 0 2) (f 2 1) (f 4 8) = some go →
      let l := logIsland u 0x0A03 0 (f 0 2) (toLe 1 (f 2 1) ++ toLe 2 (f 0 2))
      let r := go { l with dev := { l.dev with injecting := true } }
      gives (.errorInject m) cmdErrorInject m s (.done { r with dev := { r.dev with injecting := false } } [])) ∧
    ((∃ e ∈ watchOf b, wakeCapable e.2 = false) → gives (.powerPolicySet m) cmdPowerPolicySet m s bad) ∧
    ((∀ e ∈ watchOf b, wakeCapable e.2 = true) → gives (.powerPolicySet m) cmdPowerPolicySet m s (.done (setClocks (saveConf { u with
      watch := watchOf b, policy := {
      doldrumsEn := decide (f 0 1 = 1), l0pEn := decide (f 1 1 = 1), calmIdleUs := dflt (f 2 2) 50, doldrumsIdleMs := dflt (f 4 4) 10,
      berthMin := f 8 2, berthMax := f 10 2, galeSetC := f 12 1, scrubHours := f 13 1, voltPct := dflt (f 14 1) 5, tempBelowGale := dflt (f 15 1) 10,
      droopsPerMs := dflt (f 16 2) 16, alarms := [f 144 8, f 152 8, f 160 8, f 168 8] } })) [])) ∧
    gives (.thermalStatus m) cmdThermalStatus m s (.done u (toLe 1 (bit (decide (u.dev.thermal = 1))) ++ [0] ++ toLe 2 (tempWord (hottest u).2) ++ toLe 2 (hottest u).1
      ++ zeros 2 ++ toLe 4 u.dev.gales ++ toLe 8 u.dev.lastGale)) ∧
    gives (.logbookRead m) cmdLogbookRead m s (.done u (toLe 4 es.length ++ es.flatMap logBytes)) ∧
    gives (.logbookClear m) cmdLogbookClear m s (.done (logIsland { u with log := [] } 0x0A04 0 islPilot (toLe 4 u.log.length)) (toLe 4 u.log.length)) ∧
    (diagOk u (f 0 2) = false → gives (.diagRun m) cmdDiagRun m s bad) ∧
    (diagOk u (f 0 2) = true → gives (.diagRun m) cmdDiagRun m s (.done
      (setIsland { u with freeCtr := u.freeCtr + 2 } (f 0 2) { islandOf u (f 0 2) with test := fail + 1 }) (toLe 1 fail ++ zeros 3 ++ randomBytes (u.freeCtr + 1) 32))) ∧
    (¬ slipway →
      (life = 3 → gives (.fwStageBegin m) cmdFwStageBegin m s bad) ∧
      (life ≠ 3 → gives (.fwStageBegin m) cmdFwStageBegin m s (if u.fw.phase = 1 ∨ u.fw.phase = 3 ∨ u.fw.phase = 4 ∨ u.fw.phase = 5 then .fail 0x0816 0
        else .done (openStage u (f 0 4) false) [])) ∧
      (u.fw.phase ≠ 1 → gives (.fwStageData m) cmdFwStageData m s (.fail 0x0817 0) ∧ gives (.fwStageEnd m) cmdFwStageEnd m s (.fail 0x0817 0)) ∧
      (u.fw.phase = 1 → u.fw.pldm = false →
        gives (.fwStageData m) cmdFwStageData m s (.done (stageBytes u (f 0 4) (b.drop 8)) []) ∧
        gives (.fwStageEnd m) cmdFwStageEnd m s (if (closeStage u).2.1 = 0 then .done (closeStage u).1 [] else .ends (closeStage u).1 (closeStage u).2.1 (closeStage u).2.2 [])) ∧
      (u.fw.phase ≠ 2 → gives (.fwActivate m) cmdFwActivate m s (.fail 0x0817 0)) ∧
      (u.fw.phase = 2 → u.fw.pldm = false → gives (.fwActivate m) cmdFwActivate m s (.wait (armFw u (f 0 4)) 0 0 4 false))) ∧
    gives (.fwConfirm m) cmdFwConfirm m s (if u.fw.phase = 5 then .done (confirmFw u) [] else .fail 0x0817 0) ∧
    (u.fw.phase = 5 → gives (.fwRevert m) cmdFwRevert m s (.done (revertFw u 0) [])) ∧
    (u.fw.phase ≠ 5 → u.fw.phase ≠ 6 → gives (.fwRevert m) cmdFwRevert m s (.fail 0x0817 0)) ∧
    gives (.fwStatus m) cmdFwStatus m s (.done u (fwStatusBody u)) ∧
    gives (.settingsBurn m) cmdSettingsBurn m s burnt ∧ givesSigned (.settingsBurn m) cmdSettingsBurn m s burnt ∧
    givesSigned (.enterSlipway m) cmdEnterSlipway m s (.gone (enterStep2 (powerReset { u with dev := { u.dev with slipCmd := true, startInProgress := false } } true))) ∧
    (3 ≤ life → givesSigned (.lifecycleAdvance m) cmdLifecycleAdvance m s (.fail 0x0818 0)) ∧
    (life = 0 → gives (.lifecycleAdvance m) cmdLifecycleAdvance m s advanced) ∧
    (0 < life → life < 3 → givesSigned (.lifecycleAdvance m) cmdLifecycleAdvance m s advanced) ∧
    (u.otp.owners = [] → gives (.ownerKeyRotate m) cmdOwnerKeyRotate m s rotated) ∧ givesSigned (.ownerKeyRotate m) cmdOwnerKeyRotate m s rotated ∧
    (joinOk u b = false → gives (.roadsteadJoin m) cmdRoadsteadJoin m s bad) ∧
    (joinOk u b = true → gives (.roadsteadJoin m) cmdRoadsteadJoin m s (.done ([0, 1].foldl (fun s l => setLink s l { linkOf s l with hello := 0, queue := [] }) { u with
      position := f 0 1, duplexReady := false, mirrors := u.mirrors.filter (fun e => bitOf u.road.takenHere e.1),
      road := { members := f 1 1, units := (joinUnits b).take (f 1 1), links := f 2 1, target := some ((f 0 1 + 1) % f 1 1),
                tideSent := ((u.tides.log.head?).map (·.1)).getD 0, takenHere := u.road.takenHere, taken := u.road.takenHere } }) [])) ∧
    gives (.roadsteadStatus m) cmdRoadsteadStatus m s (.done u (toLe 1 u.position ++ toLe 1 u.road.members ++ toLe 1 u.road.mirror ++ toLe 1 (linkOf u 0).lanes
      ++ toLe 1 (linkOf u 1).lanes ++ zeros 3 ++ toLe 8 (duplexPending u) ++ (match u.road.target with
        | some t => slice (peerOf u t).combination 0 32
        | none => zeros 32))) ∧
    ((peerOf u q).lost = false → givesSigned (.partnerTakeover m) cmdPartnerTakeover m s bad) ∧
    (q < u.road.members → (peerOf u q).lost = true → (mget u.mirrors q).isSome = true → bitOf u.road.taken q = false →
      givesSigned (.partnerTakeover m) cmdPartnerTakeover m s (.done ((standbys took).foldl (takeTenant q (mirrorAt u q)) took) (toLe 4 (standbys took).length)))

/-! The SPDM responder, firmware activation and PLDM. -/

/-- R303 to R307, R402 to R405; log entry 37 (PRESUMED) names the codes and layouts of the messages. The responder of a port takes a message
with no session, or of an established session; it negotiates once and in order; it signs nothing in DECOMMISSIONED and measures nothing while
SWITCHING; a session is opened, established or refused, kept and ended; IDE_KM and TDISP go inside a session. -/
def Obligations.SpdmResponder : Prop :=
  ∀ (s : State) (r : SpdmReq) (k : Fin 2) (x : SpdmSession),
    let q := r.port
    let v := spdmOf s q
    let f (off n : Nat) : Nat := fieldLe r.params off n
    let err (i : Instr) (code : Nat) : Prop := answers i s (fun u => (spdmOf u q).resp = some (0x7F, toLe 1 code))
    let tells (i : Instr) (code : Nat) (body : List Byte) (p : State → Prop) : Prop := answers i s (fun u => (spdmOf u q).resp = some (code, body) ∧ p u)
    let off := f 1 2
    let len := min (f 3 2) (Config.vendorChain.length - off)
    let aead := if bitOf (f 10 2) 1 then 2 else if bitOf (f 10 2) 3 then 8 else 0
    let t := f 2 2
    let vf := vfOf s q t
    let ide := tget {} s.ide (q.num * 4 + f 2 1)
    (doeUp s q = true → tells (.getVersion r) 0x04 ([1] ++ toLe 2 0x1200) (fun u => (spdmOf u q).conn = 1 ∧ (spdmOf u q).sessions = v.sessions)) ∧
    (doeUp s q = true → r.session = none →
      (v.conn ≠ 1 → err (.getCapabilities r) 4) ∧
      (v.conn = 1 → tells (.getCapabilities r) 0x61 (toLe 4 0x62F6) (fun u => (spdmOf u q).conn = 2)) ∧
      (v.conn ≠ 2 → err (.negotiateAlgorithms r) 4) ∧
      (v.conn = 2 → bitOf (f 0 4) 9 = false ∨ bitOf (f 4 4) 6 = false → err (.negotiateAlgorithms r) 1) ∧
      (v.conn = 2 → bitOf (f 0 4) 9 = true → bitOf (f 4 4) 6 = true →
        tells (.negotiateAlgorithms r) 0x63 (toLe 4 512 ++ toLe 4 64 ++ toLe 4 64 ++ toLe 2 (if bitOf (f 8 2) 6 then 64 else 0) ++ toLe 2 aead)
          (fun u => (spdmOf u q).conn = 3 ∧ (spdmOf u q).aead = aead)) ∧
      (v.conn ≠ 3 → err (.getDigests r) 4 ∧ err (.getCertificate r) 4 ∧ err (.challenge r) 4 ∧ err (.getMeasurements r) 4 ∧ err (.keyExchange r) 4) ∧
      (v.conn = 3 →
        tells (.getDigests r) 1 (if slot0 then [1] ++ chainDigest else [0]) (fun _ => True) ∧
        answers (.getCertificate r) s (fun u => (spdmOf u q).resp =
          if f 0 1 = 0 ∧ slot0 = true ∧ off < Config.vendorChain.length then
            some (2, toLe 2 len ++ toLe 2 (Config.vendorChain.length - off - len) ++ (Config.vendorChain.drop off).take len)
          else some (0x7F, toLe 1 1)) ∧
        (s.otp.lifecycle = 3 → f 0 1 = 0 → answers (.challenge r) s (fun u => (spdmOf u q).resp = some (0x7F, toLe 1 (if slot0 then 5 else 1)))) ∧
        (s.otp.lifecycle ≠ 3 → f 0 1 = 0 → answers (.challenge r) s (fun u =>
          (slot0 = true → u.freeCtr = s.freeCtr + 2 ∧
            let body := chainDigest ++ randomBytes (s.freeCtr + 1) 32 ++ (if f 1 1 = 0 then [] else sm3Bytes (measurements s))
            (spdmOf u q).resp = some (3, body ++ spdmSign s r body)))) ∧
        (s.fw.phase = 4 → err (.getMeasurements r) 3) ∧
        (s.fw.phase ≠ 4 → f 1 1 = 0xFF → bitOf (f 0 1) 0 = false → tells (.getMeasurements r) 0x60
          (toLe 1 0 ++ toLe 1 14 ++ toLe 3 (measurements s).length ++ measurements s ++ randomBytes (s.freeCtr + 1) 32) (fun u => u.freeCtr = s.freeCtr + 2)) ∧
        (s.fw.phase ≠ 4 → f 1 1 ≤ 14 → bitOf (f 0 1) 0 = true → s.otp.lifecycle = 3 → err (.getMeasurements r) 5) ∧
        (mget v.sessions 0 = none → s.otp.lifecycle ≠ 3 → v.aead ≠ 0 → answers (.keyExchange r) s (fun u =>
          slot0 = true → mget (spdmOf u q).sessions 0 = some { heard := nowNs s } ∧ ((spdmOf u q).resp.map (·.1)) = some 0x64)) ∧
        ((mget v.sessions 0).isSome = true → (mget v.sessions 1).isSome = true → err (.keyExchange r) 0x0A))) ∧
    (doeUp s q = true → r.session = some k → mget v.sessions k.val = some x →
      (x.st = .handshake → answers (.finish r) s (fun u =>
        (Config.finishOk v.transcript r.params = true → mget (spdmOf u q).sessions k.val = some { x with st := .established, heard := nowNs s } ∧
          (spdmOf u q).resp = some (0x65, [])) ∧
        (Config.finishOk v.transcript r.params = false → mget (spdmOf u q).sessions k.val = none ∧ (spdmOf u q).resp = some (0x7F, toLe 1 6)))) ∧
      (x.st ≠ .handshake → err (.finish r) 4) ∧
      (x.st ≠ .established → err (.endSession r) 4 ∧ err (.keyUpdate r) 4 ∧ err (.spdmHeartbeat r) 4 ∧ err (.vendorDefinedRequest r) 4) ∧
      (x.st = .established →
        tells (.endSession r) 0x6C [] (fun u => mget (spdmOf u q).sessions k.val = none) ∧
        (f 0 1 = 1 ∨ f 0 1 = 2 → tells (.keyUpdate r) 0x69 (toLe 1 (f 0 1)) (fun u =>
          mget (spdmOf u q).sessions k.val = some { x with heard := nowNs s, updates := x.updates + 1 })) ∧
        (f 0 1 = 3 → tells (.keyUpdate r) 0x69 (toLe 1 3) (fun u => mget (spdmOf u q).sessions k.val = some { x with heard := nowNs s })) ∧
        (f 0 1 = 0 ∨ 3 < f 0 1 → err (.keyUpdate r) 1) ∧
        tells (.spdmHeartbeat r) 0x68 [] (fun u => mget (spdmOf u q).sessions k.val = some { x with heard := nowNs s }) ∧
        (f 0 1 = 1 → f 1 1 = 0x86 → t < 1024 → vf.tdisp = .locked → slice r.params 4 32 = vf.tdiNonce →
          tells (.vendorDefinedRequest r) 0x7E [1, 0x06] (fun u => (vfOf u q t).tdisp = .run)) ∧
        (f 0 1 = 1 → f 1 1 = 0x86 → t < 1024 → vf.tdisp ≠ .locked → tells (.vendorDefinedRequest r) 0x7E [1, 0x7F, 4] (fun u => vfOf u q t = vf)) ∧
        (f 0 1 = 0 → f 1 1 = 4 → f 2 1 < 4 → keysComplete ide (f 3 1 % 2) = true →
          answers (.vendorDefinedRequest r) s (fun u => tget {} u.ide (q.num * 4 + f 2 1) = { ide with secure := true })) ∧
        (f 0 1 = 0 → f 1 1 = 5 → f 2 1 < 4 →
          answers (.vendorDefinedRequest r) s (fun u => tget {} u.ide (q.num * 4 + f 2 1) = { ide with secure := false })) ∧
        (1 < f 0 1 → err (.vendorDefinedRequest r) 7)))

/-- R438 to R445, R461, R462, R473: the events of an activation, and PLDM. Ten seconds in ARMED, a missed ready check, the end of probation and its
last minute; a component that is ready; the Pilot's restart and a mailbox command that outlives its limit; the PLDM commands in their order. -/
def Obligations.FirmwareEventsAndPldm : Prop :=
  ∀ (s : State) (length off : BitVec 32) (bytes : List Byte) (k : Nat) (rest : List Nat) (p : Port) (r : MbRun) (cause : BitVec 8) (t : State) (st d : Nat),
    let w := stageBytes s off.toNat bytes
    let full (x : State) : Bool := coveredTo x.fw.written x.fw.len (x.fw.written.length + 1) 0
    let coded (i : Instr) (n : Nat) : Prop := exec i s = .next { s with pldm := { s.pldm with code := n } }
    (s.fw.phase = 3 → s.fw.since + 10000000000 < nowNs s →
      answers .armedWaitExpiry s (fun u => u.fw.phase = 2 ∧ (s.fw.pldm = true → u.pldm.code = 1) ∧
        (∀ q, s.fw.pldm = false → mbRuns s q 0x0804 0 = true → (mailOf u q).st = 3))) ∧
    (s.fw.phase = 4 → running s = true → s.fw.todo = k :: rest → k ≠ 10 ∨ swapDone s = true →
      exec .componentReady s = .next (beginHead (switchEffect { s with fw := { s.fw with todo := rest, done := s.fw.done ++ [k] } } k))) ∧
    (s.fw.phase = 4 → s.fw.todo = k :: rest → s.fw.since + readyMs s k * 1000000 < nowNs s →
      answers .readyCheckTimeout s (fun u => u.fw.phase = 2 ∧ u.fw.todo = [] ∧ u.fw.running = s.fw.running ∧ logged u 0x0802)) ∧
    (s.fw.phase = 5 → s.fw.since + s.fw.limitS * 1000000000 < nowNs s →
      answers .probationExpiry s (fun u => u.fw.phase = 2 ∧ u.fw.running = s.fw.previous ∧ logged u 0x0802)) ∧
    (s.fw.phase = 5 → s.fw.near = false → s.fw.since + s.fw.limitS * 1000000000 ≤ nowNs s + 60000000000 →
      answers .probationLimitNear s (fun u => u.fw = { s.fw with near := true } ∧ (srcOf u 0xC02).detail = 5)) ∧
    (s.dev.st ≠ .off → (islandOf s islPilot).reset = false → (islandOf s islPilot).out = false → (islandOf s islPilot).state ≠ 0 →
      answers (.pilotRestart cause) s (fun u => (islandOf u islPilot).reset = true ∧ (islandOf u islPilot).resets = satInc (islandOf s islPilot).resets 65535 ∧
        logged u 0x0708 ∧ (∀ q, (mailOf u q).st = (mailOf s q).st))) ∧
    ((mailOf s p).run = some r → r.committed = false → pilotUp s = true → r.since + r.limitMs * 1000000 ≤ nowNs s →
      answers (.mbTimeout p) s (fun u => (mailOf u p).st = 3 ∧ (mailOf u p).run = none ∧ ∃ x, (mailOf u p).resp = some x ∧ (r.dma = false → x.status = 0x0805) ∧ x.tag = r.tag)) ∧
    (pldmUp s = true →
      ((1 ≤ s.fw.phase ∧ s.fw.phase ≤ 5) → coded (.requestUpdate length) 0x81) ∧
      (s.fw.phase = 0 ∨ s.fw.phase = 6 → s.otp.lifecycle ≠ 3 → length.toNat ≤ 67108864 →
        answers (.requestUpdate length) s (fun u => u.pldm = { st := 1 } ∧ u.fw.phase = 1 ∧ u.fw.len = length.toNat ∧ u.fw.bytes = [] ∧ u.fw.pldm = true)) ∧
      (s.pldm.st = 1 → exec .passComponentTable s = .next { s with pldm := { st := 2 } }) ∧ (s.pldm.st ≠ 1 → coded .passComponentTable 0x84) ∧
      (s.pldm.st = 2 → exec .updateComponent s = .next { s with pldm := { st := 3 } }) ∧ (s.pldm.st ≠ 2 → coded .updateComponent 0x84) ∧
      (s.pldm.st ≠ 3 → coded (.requestFirmwareData off bytes) 0x84) ∧
      (s.pldm.st = 3 → s.fw.phase = 1 → off.toNat + bytes.length ≤ s.fw.len →
        (full w = false → answers (.requestFirmwareData off bytes) s (fun u => u.fw = w.fw ∧ u.pldm.st = 3 ∧ u.pldm.code = 0)) ∧
        (full w = true → closeStage w = (t, st, d) →
          exec (.requestFirmwareData off bytes) s = .next { t with pldm := if st = 0 then { st := 4 } else { st := 0, code := 1 } })) ∧
      (s.pldm.st ≠ 4 ∨ s.fw.phase ≠ 2 → coded .activateFirmware 0x84) ∧
      (s.pldm.st = 4 → s.fw.phase = 2 → answers .activateFirmware s (fun u => u.fw.phase = 3 ∧ u.fw.limitS = 60 ∧ u.fw.since = nowNs s ∧ u.pldm.code = 0)))

/-! Power, time, registers and start-up. -/

/-- R408, R409, R414 to R418, R465, R497 to R503; log entries 13 and 18 name the choices of latency and berth clock. The regulator's answers, droops, temperatures and their
levels, Calm and Doldrums and the ways out of them, and the edges that discipline the harbour clock. -/
def Obligations.PowerStatesAndTime : Prop :=
  ∀ (s : State) (basin : BasinId) (island volt droops : BitVec 10) (temp : BitVec 12) (pier : PierId) (mhz mv t : Nat) (x : Wait),
    let b := basin.val
    let w := wardenOf s b
    let n := island.toNat
    let i := islandOf s n
    let p := pier.val
    let d := s.disc
    let err := harbourPs s - (d.ppsHarb + 1000000000000)
    let clocked : Prop := s.dev.pwrAon = true ∧ s.dev.pwrCore = true ∧ s.dev.st ≠ .off ∧ s.dev.st ≠ .halted
    let reads : Prop := islExists n = true ∧ s.dev.pwrAon = true ∧ s.dev.pwrCore = true
    (w.avs = some (mhz, mv) → answers (.regulatorVoltageReported basin) s (fun u => wardenOf u b = { w with mhz := mhz, railMv := mv, avs := none, retries := 0 } ∧
      (w.mhz < mhz → ∀ k < 72, (islandOf s (b * 128 + k)).out = false → (islandOf u (b * 128 + k)).targetMhz = mhz))) ∧
    (w.avs.isSome = true →
      (w.retries < 3 → exec (.avsNoAnswer basin) s = .next (setWarden s b { w with retries := w.retries + 1 })) ∧
      (3 ≤ w.retries → answers (.avsNoAnswer basin) s (fun u => wardenOf u b = { w with mhz := min 2000 w.mhz, avs := none, retries := 0, capped := true } ∧
        logged u (Config.degradedCode 0)))) ∧
    (islRuns s n = true → answers (.droopDetected island) s (fun u => islandOf u n =
      { i with stretched := true, stretchAt := some (nowNs s), stretch := if i.stretched then i.stretch else satInc i.stretch 255 })) ∧
    (i.stretched = true → i.stretchAt = some t → t + 1000 ≤ nowNs s → answers (.clockStretchEnd island) s (fun u => islandOf u n = { i with stretched := false, stretchAt := none })) ∧
    (reads → s.dev.thermal = 0 →
      (temp.toInt < Int.ofNat s.policy.galeSetC * 10 → temp.toInt < 1150 → answers (.barometerUpdate island volt temp droops) s (fun u =>
        u.dev.thermal = 0 ∧ (islandOf u n).temp = temp.toNat)) ∧
      (Int.ofNat s.policy.galeSetC * 10 ≤ temp.toInt → temp.toInt < 1150 → answers (.barometerUpdate island volt temp droops) s (fun u =>
        u.dev.thermal = 1 ∧ u.dev.galeWarn = true ∧ u.dev.gales = s.dev.gales + 1 ∧ logged u 0x0705)) ∧
      (1150 ≤ temp.toInt → answers (.barometerUpdate island volt temp droops) s (fun u => u.dev.thermal = 2 ∧ u.dev.thermTrip = true ∧ u.dev.st = .halted))) ∧
    (s.dev.thermal = 1 → s.dev.coolSince = some t → t + 1000000 ≤ nowNs s → answers .galeExit s (fun u => u.dev.thermal = 0 ∧ u.dev.galeWarn = false)) ∧
    (running s = true → basinUp s pier.basin.val = true → (pierOf s p).calm = false → (∀ th ∈ pierThreads pier, (thr s th).run = .free) → (pcOf s p).evict = [] →
      (∀ r ∈ (cohOf s (pierBasin p)).reqs, r.agent ≠ pierAgent p) → (pierOf s p).idleSince + s.policy.calmIdleUs * 1000 ≤ nowNs s →
      answers (.calmEntry pier) s (fun u => (pierOf u p).calm = true ∧ u.dev.st = .calm ∧ (pcOf u p).l1d = [] ∧ (pcOf u p).l1i = [] ∧
        ((islandOf s (islPier p)).out = false → (islandOf u (islPier p)).state = 1))) ∧
    (s.dev.st = .calm → s.policy.doldrumsEn = true → (∀ q < 16, basinUp s (q / 4) = true → (pierOf s q).calm = true) → (∀ e ∈ s.cons, e.2.entry = false) →
      s.mailA.st ≠ 2 → s.mailB.st ≠ 2 → s.dev.busyAt + s.policy.doldrumsIdleMs * 1000000 ≤ nowNs s → watched s 0x802 = false →
      answers .doldrumsEntry s (fun u => u.dev.st = .doldrums ∧ (i.out = false → (∃ e ∈ s.islands, e.1 = n) → (islandOf u n).state = doldrumsState n))) ∧
    exec .wakeComplete s = .next (mbPoll (wakeDone s)) ∧
    (s.dev.st = .waking → s.dev.wakeAt = some t → t ≤ nowNs s → (wakeDone s).dev.st = .full ∧ (wakeDone s).dev.wakeAt = none) ∧
    (running s = true → islExists n = true → i.out = false → i.reset = false → i.state ≠ 3 → islandWanted s n = true →
      answers (.islandWakeComplete island) s (fun u => (islandOf u n).state = 3)) ∧
    (clocked → d.waiting.isSome = true → answers .ppsEdge s (fun u => u.disc.waiting = none ∧ u.clock.timeSet = true ∧ u.disc.lastPps = some (nowNs s))) ∧
    (clocked → d.waiting = none → d.ppsEn = true → d.lastPps.isSome = true → -1000000 ≤ err → err ≤ 1000000 →
      answers .ppsEdge s (fun u => u.disc.locked = true ∧ u.disc.slew = -err ∧ u.disc.lastPps = some (nowNs s))) ∧
    (d.ppsEn = true → d.locked = true → d.lastPps = some t → t + 1500000000 < nowNs s → answers .ppsLockLost s (fun u => u.disc = { d with locked := false })) ∧
    (d.tenEn = true → d.tenLost = false → s.dev.pwrCore = true → answers .tenmhzLost s (fun u => u.disc = { d with tenLost := true }))

/-- R420, R452, R454, R475, R495: registers that have no row of their own, reads that clear a count, and the test port, which stays in
Test-Logic-Reset from PROVISIONED on. -/
def Obligations.RegistersAndTestPort : Prop :=
  ∀ (s : State) (p : Port) (t : TenantId) (off : BitVec 25) (voff : BitVec 20) (size n : Nat) (v : BitVec 64) (tms tdi on : Bool),
    let m := mailOf s p
    let o := off.toNat
    let x := v.toNat % 256 ^ size
    let q := portOf s p
    let f := vfOf s p t.val
    let isl := islandOf s n
    (mailMmio s p = true →
      (o < 0x1000 → m.st ≠ 2 → exec (.registerWrite (.pfBar p off) size v) s = .next (setMail s p { m with buf := writeBytes m.buf o (toLe (min size (0x1000 - o)) x) })) ∧
      (o < 0x1000 → m.st = 2 → exec (.registerWrite (.pfBar p off) size v) s = .next (setMail s p { m with ignored := satInc m.ignored 255 })) ∧
      (o = 0x2008 → exec (.registerWrite (.pfBar p off) 4 v) s = .next (setMail s p { m with irqEn := v.getLsbD 0 })) ∧
      (o = 0x200C → m.st ≠ 2 → answers (.registerWrite (.pfBar p off) 4 v) s (fun u => (mailOf u p).iovaHi = v.toNat % 2 ^ 32)) ∧
      (o = 0x2004 → exec (.rcRead p off) s = .next (setMail s p { m with ignored := 0 })) ∧
      (pfMmio s p = true → islExists n = true →
        (o = 0x100000 + 0x4000 * n + 4 → exec (.rcRead p off) s = .next (setIsland s n { isl with stretch := 0 })) ∧
        (o = 0x100000 + 0x4000 * n + 8 → exec (.rcRead p off) s = .next (setIsland s n { isl with overrun := false, disagree := 0, drops := 0 })))) ∧
    (vfMmio s p t.val = true → 0x40000 ≤ voff.toNat → voff.toNat < 0x80000 → answers (.registerWrite (.vfBar p t voff) size v) s (fun u =>
      (tenantOf u t.val).dock = writeBytes (tenantOf s t.val).dock (voff.toNat - 0x40000) (toLe (min size (0x80000 - voff.toNat)) x))) ∧
    (cfgUp s p = true →
      exec (.registerWrite (.cfgAspm p) size v) s = .next (setPort s p { q with aspmEn := v.getLsbD 0, l1 := q.l1 && v.getLsbD 0 }) ∧
      exec (.registerWrite (.cfgAts p .pf0) size v) s = .next (setPort s p { q with ats := v.getLsbD 0 }) ∧
      exec (.registerWrite (.cfgPmeStatus p .pf0) size v) s = .next (if v.getLsbD 0 then setPort s p { q with pmeStatus := false } else s) ∧
      (awake s = true → v.toNat ≤ 1024 → q.numVFs ≤ v.toNat → exec (.registerWrite (.cfgVfEnable p) size v) s =
        .next (portBack (setPort s p { q with vfEnable := decide (v.toNat ≠ 0), numVFs := v.toNat }) p))) ∧
    (vfCfg s p t.val = true → v.getLsbD 0 = on → f.bme ≠ on → f.tdisp = .unlocked → exec (.registerWrite (.cfgBusMaster p (.vf t)) size v) s =
      .next (pathChange (setVf s p t.val { f with bme := on }) p t.val)) ∧
    (s.otp.lifecycle ≠ 0 → exec (.tckEdge tms tdi) s = .next { s with tap := .testLogicReset }) ∧
    (s.otp.lifecycle = 0 → s.dev.pwrCore = true → s.dev.thermTrip = false → exec (.tckEdge tms tdi) s = .next { s with tap := tapNext s.tap tms }) ∧
    (∀ y : Tap, tapNext (tapNext (tapNext (tapNext (tapNext y true) true) true) true) true = .testLogicReset)

/-- R411 to R413, R418, R421 to R426, R448, R450, R466, R496, R504: resets and start-up. Loss of the core rails loses everything but what R426 keeps; a rise, a
reset pulse of 1 µs or a failed boot goes to step 2, counts and restarts the clock at its start value; service begins with the slot that
boots, or the Slipway is entered; FLASH_OWN in the Slipway starts the ROM again. An island reset holds the island, and leaving it grants
its credits. -/
def Obligations.ResetsAndStartUp : Prop :=
  ∀ (s : State) (island : BitVec 10) (cause : Fin 3) (dropped : BitVec 32) (pulse k : Nat) (why : Fin 4) (failed : List (BitVec 10)),
    let n := island.toNat
    let i := islandOf s n
    let out := failed.map (·.toNat)
    let fresh (u : State) (fails : Nat) : Prop := u.dev.st = .starting ∧ u.dev.bootFails = fails ∧ u.dev.startInProgress = true ∧ harbourNs u = 0x8000000000000000 ∧
      u.clock.timeSet = false ∧ u.cons = [] ∧ u.tenants = [] ∧ u.threads = [] ∧ u.mem.hbm = [] ∧ u.mem.ledgered = [] ∧ u.conf = s.conf ∧ u.pending = s.pending
    let counted := if s.dev.startInProgress then s.dev.bootFails + 1 else s.dev.bootFails
    (s.dev.pwrAon = false → answers .pwrGoodAonRise s (fun u => u.dev = { s.dev with pwrAon := true } ∧ (islandOf u islLighthouse).state = 3)) ∧
    (s.dev.pwrAon = true → s.dev.pwrCore = false → answers .pwrGoodCoreRise s (fun u => fresh u counted ∧ u.dev.pwrCore = true ∧ u.log = [])) ∧
    (s.dev.pwrCore = true → answers .pwrGoodCoreFall s (fun u => u.dev.st = .off ∧ u.dev.pwrCore = false ∧ u.dev.thermTrip = false ∧ u.cons = [] ∧
      u.tenants = [] ∧ u.threads = [] ∧ u.otp = s.otp ∧ u.conf = s.conf ∧ u.sources = s.sources)) ∧
    (s.dev.pwrAon = true → answers .pwrGoodAonFall s (fun u => u.dev.st = .off ∧ u.dev.pwrAon = false ∧ u.islands = [] ∧ u.sources = [] ∧ u.cons = [] ∧ u.otp = s.otp)) ∧
    (s.dev.pwrCore = true → s.dev.pwrAon = true → s.dev.thermal ≠ 2 → 1000 ≤ pulse → answers (.harbReset pulse) s (fun u => fresh u counted ∧ u.log = s.log)) ∧
    (pulse < 200 ∨ s.dev.thermal = 2 → exec (.harbReset pulse) s = .next s) ∧
    (s.dev.st = .starting → answers .bootFailed s (fun u => fresh u counted ∧ logged u 0x0803)) ∧
    (s.dev.st = .starting → s.dev.bootFails < 2 → s.dev.slipCmd = false → nowNs s ≤ s.dev.startedAt + 5000000000 → fatalStart out = false → bootSlot s = some k →
      slotAgrees (slotAt s k) = true → k = s.fw.active →
      answers (.serviceStart failed) s (fun u => u.dev.st = .full ∧ u.dev.bootFails = 0 ∧ u.dev.startInProgress = false ∧ u.fw.running = slotAt s k ∧
        u.mailA.st = 1 ∧ u.mailB.st = 1 ∧ u.epoch = s.epoch + 1)) ∧
    (s.dev.st = .starting → (why = 1 ∧ 2 ≤ s.dev.bootFails) ∨ (why = 2 ∧ settingBit s 2 = false) ∨ (why = 3 ∧ s.dev.slipCmd = true) → answers (.slipwayEntered why) s (fun u =>
      u.dev.st = .slipway ∧ u.mailA.st = 1 ∧ u.mailB.st = 1 ∧ logged u 0x0804)) ∧
    exec .flashOwnAssert s = .next { s with dev := { s.dev with flashOwn := true } } ∧
    (flashGone s = true → s.dev.st = .slipway → answers .flashOwnRelease s (fun u => u.dev.flashOwn = false ∧ u.dev.st = .starting ∧ u.mailA.st = 0 ∧ u.mailB.st = 0)) ∧
    (s.dev.st ≠ .slipway → s.dev.pwrCore = true → exec .flashOwnRelease s = .next { s with dev := { s.dev with flashOwn := false } }) ∧
    (islExists n = true → n ≠ islLighthouse → running s = true → i.reset = false → i.out = false → i.state ≠ 0 → n < 568 → 512 ≤ n →
      answers (.islandReset island cause dropped) s (fun u => (islandOf u n).reset = true ∧ (islandOf u n).credits = false ∧
        (islandOf u n).resets = satInc i.resets 65535)) ∧
    (islExists n = true → i.reset = true → i.out = false → s.dev.st ≠ .off → s.dev.st ≠ .halted →
      exec (.islandResetExit island) s = .next (mbPoll (islandBack s n)) ∧
      (568 ≤ n → n < 578 → (islandOf (islandBack s n) n).reset = false ∧ (islandOf (islandBack s n) n).credits = true ∧
        (islandOf (islandBack s n) n).state = 3))

/-! The roadstead. -/

/-- R479 to R489 and R94, R353: the roadstead. A training ends with the link at x8, x4 or down; INIT grants every buffer; HELLO decides what a link carries and
whether mirroring begins; NAK and the replay timer resend in order, and too many of them retrain; credits are cumulative and above the
allocation they halt the Harbour. Flits that are taken bring records, tides and heartbeats; a member lost is logged and the target moves on. -/
def Obligations.Roadstead : Prop :=
  ∀ (s w : State) (link : Fin 2) (lanes : Fin 3) (m : HelloMsg) (seq a : BitVec 12) (cvc : Fin 3) (credits : BitVec 8) (h : FlitHdr)
    (basin : BasinId) (n k t : Nat) (bs : List Byte) (ret : BitVec 64) (mode : Fin 2) (mask : BitVec 4) (q : Fin 4),
    let l := link.val
    let v := linkOf s l
    let now := nowNs s
    let calm : Prop := (srcOf s (0xD00 + l)).en = false ∧ (srcOf s (0xD00 + l)).window = none
    let recent := v.naks.filter (fun t => decide (now < t + 1000000))
    let resent (f : TxFlit) : TxFlit := { f with resent := f.resent + 1 }
    let down (u : State) : Prop := (linkOf u l).up = false ∧ (linkOf u l).training = true ∧ (linkOf u l).lanes = 0 ∧ (calm → arrived u (0xD00 + l))
    let c := tget {} v.vcs cvc.val
    let gain := (credits.toNat + 256 - c.last) % 256
    let o := h.origin.val
    let r := mirrorAt w o
    let x := tget {} r.basins basin.val
    let peer := peerOf w o
    let p := peerOf s q.val
    let found := helloFinding s l m
    let kin := cabled s l
    let heardNow := setPeer w o { peer with heard := some (nowNs w), state := mode.val }
    let marked := { heardNow with road := { heardNow.road with taken := (BitVec.ofNat 4 w.road.taken ||| mask).toNat } }
    (linkIsland s l = true →
      (v.training = true → lanes.val = 0 → answers (.hawserRetrain link lanes) s (fun u => (calm → arrived u (0xD00 + l)) ∧
        linkOf u l = { v with up := false, lanes := 0, training := false, draining := false, init := false, trainedAt := now })) ∧
      (v.training = true → lanes.val ≠ 0 → answers (.hawserRetrain link lanes) s (fun u => (linkOf u l).up = true ∧ (linkOf u l).lanes = 4 * lanes.val ∧
        (linkOf u l).training = false ∧ (linkOf u l).init = false ∧ (linkOf u l).hello = 0 ∧ (linkOf u l).vcs = [] ∧ (calm → arrived u (0xD00 + l)) ∧
        (lanes.val = 1 → logged u 0x0903))) ∧
      (v.training = false → v.draining = false → v.up = false →
        exec (.hawserTrainingRetry link) s = .next (if v.trainedAt + 1000000000 ≤ now then setLink s l { v with training := true } else s)) ∧
      (v.training = false → v.draining = false → v.up = true → v.lanes = 4 → v.trainedAt + 60000000000 ≤ now →
        (otherPath s l = true → v.replay = [] → answers (.hawserTrainingRetry link) s down) ∧
        (otherPath s l = true → v.replay ≠ [] → answers (.hawserTrainingRetry link) s (fun u => linkOf u l = { v with queue := [], draining := true })) ∧
        (otherPath s l = false → exec (.hawserTrainingRetry link) s = .next s)) ∧
      (v.up = true →
        (v.training = false → answers (.hawserLockLost link) s down) ∧
        (v.init = false → answers (.hawserInit link) s (fun u => (linkOf u l).init = true ∧ ∀ i : Fin 3, (tget {} (linkOf u l).vcs i.val).credit = vcRoom i.val)) ∧
        (s.road.members ≠ 0 → answers (.hello link m) s (fun u => (linkOf u l).hello = found ∧ (peerOf u kin).hello = found ∧
          (found = 3 → v.init = true → v.draining = false → s.road.target = some kin → s.road.mirror ≠ 1 → s.road.goal = none → s.road.selfTaken = false →
            u.road.seed = true) ∧
          (found ≠ 3 → s.road.target = some kin → s.road.mirror ≠ 1 → s.road.seed = false → u.road.mirror = (if found = 2 then 2 else 0) ∧ u.duplexReady = false))) ∧
        (findIdx' (fun (f : TxFlit) => f.seq == seq.toNat) v.replay 0 = some n → (∀ f ∈ v.replay.drop n, f.resent < 7) → recent.length < 63 →
          answers (.nak link seq) s (fun u => (linkOf u l).replay = v.replay.take n ++ (v.replay.drop n).map resent)) ∧
        (v.training = false → 63 ≤ recent.length → answers (.nak link seq) s down) ∧
        (v.replay ≠ [] → v.ackAt + 20000 < now →
          ((∀ f ∈ v.replay, f.resent < 7) → answers (.flitReplayTimeout link) s (fun u => linkOf u l = { v with replay := v.replay.map resent, ackAt := now })) ∧
          (v.training = false → (∃ f ∈ v.replay, 7 ≤ f.resent) → answers (.flitReplayTimeout link) s down)) ∧
        (now ≤ v.ackAt + 20000 → exec (.flitReplayTimeout link) s = .next s) ∧
        (v.nakSent = false → recent.length < 63 → answers (.flitCrcFail link) s (fun u => linkOf u l = { v with nakSent := true, naks := recent ++ [now] })) ∧
        (v.nakSent = true → exec (.flitCrcFail link) s = .next s) ∧
        (v.init = true → v.queue = [] → v.draining = false →
          (c.credit + gain ≤ vcRoom cvc.val → answers (.idleFlit link (some a) cvc credits) s (fun u =>
            (tget {} (linkOf u l).vcs cvc.val).credit = c.credit + gain ∧ (tget {} (linkOf u l).vcs cvc.val).last = credits.toNat ∧
            (findIdx' (fun (f : TxFlit) => f.seq == a.toNat) v.replay 0 = some k → (linkOf u l).replay = v.replay.drop (k + 1)))) ∧
          (vcRoom cvc.val < c.credit + gain → answers (.idleFlit link (some a) cvc credits) s (fun u => u.dev.st = .halted))))) ∧
    (∀ i, linkData s h.link.val = true → (linkOf s h.link.val).rxSeq = h.seq.toNat → h.dest.val = s.position → ∃ y, takeData s h i = .here y) ∧
    (takeData s h 0 = .here w → w.road.members ≠ 0 → frozen w o = false →
      (x.next ≤ n → answers (.mirrorData h [.record basin n bs]) s (fun u =>
        tget {} (mirrorAt u o).basins basin.val = { x with recs := x.recs ++ [parseRec bs], next := n + 1 })) ∧
      (n < x.next → answers (.mirrorData h [.record basin n bs]) s (fun u => mirrorAt u o = r)) ∧
      exec (.mirrorData h [.intake basin bs]) s = .next (setMirror w o { r with basins := tset {} r.basins basin.val { x with intake := x.intake ++ [bs] } }) ∧
      exec (.mirrorData h [.line basin n bs]) s = .next (setMirror w o { r with lines := writeBytes r.lines n bs })) ∧
    (takeData s h 0 = .here w → frozen w o = true → exec (.mirrorData h [.record basin n bs]) s = .next w) ∧
    (takeData s h 1 = .here w → w.road.members ≠ 0 → frozen w o = false → exec (.tideRecord h bs ret) s =
      .next (setMirror w o { r with tides := ((fieldLe bs 8 8, bs) :: r.tides).take 1048576, retired := ret.toNat })) ∧
    (takeData s h 2 = .here w → o < w.road.members → o ≠ w.position →
      (peer.lost = false → exec (.heartbeat h mode mask) s = .next (if mask.getLsbD w.position then takenOver marked else marked)) ∧
      (peer.lost = true → mask.getLsbD w.position = false → answers (.heartbeat h mode mask) s (fun u =>
        logged u 0x0502 ∧ (peerOf u o).lost = true ∧ (peerOf u o).heard = some (nowNs w)))) ∧
    (takeData s h 2 = .relay w ∨ takeData s h 2 = .no w → exec (.heartbeat h mode mask) s = .next w) ∧
    (s.road.members = 2 → s.position < 2 → awake s = true → s.road.beatAt + 10000 ≤ now →
      answers .heartbeatSend s (fun u => u.road.beatAt = now ∧
        (linkTo s (1 - s.position) = some k → (linkOf s k).queue = [] → (linkOf s k).replay.length < 2048 → 0 < (tget {} (linkOf s k).vcs 2).credit →
          (linkOf u k).replay = (linkOf s k).replay ++
            [{ vc := 2, origin := s.position, dest := 1 - s.position, msg := .beat (harbourNs s) s.road.takenHere, seq := (linkOf s k).txSeq }]))) ∧
    (s.road.seed = true → awake s = true → answers .seedEnd s (fun u => u.road.seed = false ∧
      (∀ b < 4, (ledgerOf u b).partnerSent = max (ledgerOf s b).first (ledgerOf s b).partnerAck) ∧
      ((∀ b < 4, nextRec (ledgerOf s b) ≤ (ledgerOf s b).partnerAck) → u.road.mirror = 1 ∧ u.duplexReady = true))) ∧
    (p.heard = some t → q.val < s.road.members → q.val ≠ s.position → p.lost = false → awake s = true →
      (t + 50000 < now ∨ linkTo s q.val = none → answers (.partnerLost q) s (fun u => (peerOf u q.val).lost = true ∧ logged u 0x0902 ∧
        (s.road.target = some q.val → u.road.mirror = 3 ∧ u.duplexReady = false ∧ u.road.target ≠ some q.val))) ∧
      (now ≤ t + 50000 → linkTo s q.val ≠ none → exec (.partnerLost q) s = .next s))
end

