-- ==== Sys2Proof/Laws/Kept.lean ====
section
/-! SUPPORT. What every shared operation of the model leaves alone: the queue of waiting commands, the time that the timers count,
and OTP (Safety.kept). One lemma per operation. -/

set_option linter.unusedTactic false
set_option linter.unreachableTactic false
set_option linter.unusedVariables false

namespace Sys2Proof.Machine

/-- A state written out field by field keeps what its queue, its clock and its OTP are. -/
@[simp ↓] theorem kept_mk (x0 x1 x2 x3 x4 x5 x6 x7 x8 x9 x10 x11 x12 x13 x14 x15 x16 x17 x18 x19 x20 x21 x22 x23 x24 x25 x26 x27 x28 x29
    x30 x31 x32 x33 x34 x35 x36 x37 x38 x39 x40 x41 x42 x43 x44 x45 x46 x47 x48 x49 x50 x51 x52 x53 x54 x55) :
    kept (State.mk x0 x1 x2 x3 x4 x5 x6 x7 x8 x9 x10 x11 x12 x13 x14 x15 x16 x17 x18 x19 x20 x21 x22 x23 x24 x25 x26 x27 x28 x29
    x30 x31 x32 x33 x34 x35 x36 x37 x38 x39 x40 x41 x42 x43 x44 x45 x46 x47 x48 x49 x50 x51 x52 x53 x54 x55) = (x0, x1.ps, x33) := rfl

@[simp] theorem kept_fold (s : State) : (s.pending, s.clock.ps, s.otp) = kept s := rfl

@[simp] theorem kept_ite (c : Prop) [Decidable c] (a b : State) : kept (if c then a else b) = if c then kept a else kept b := by
  split <;> rfl

theorem kept_ite_fst {α : Type} (c : Prop) [Decidable c] (a b : State × α) :
    kept (if c then a else b).1 = if c then kept a.1 else kept b.1 := by
  split <;> rfl

@[simp] theorem kept_foldl {α : Type} (f : State → α → State) (h : ∀ s x, kept (f s x) = kept s) (l : List α) (s : State) :
    kept (l.foldl f s) = kept s := by
  induction l generalizing s with
  | nil => rfl
  | cons a l ih => simp [ih, h]


theorem OtpGrown.refl (o : Otp) : OtpGrown o o :=
  ⟨Nat.le_refl _, List.prefix_refl _, List.prefix_refl _, rfl, fun _ => Nat.le_refl _⟩

theorem OtpGrown.trans {o p q : Otp} (h : OtpGrown o p) (k : OtpGrown p q) : OtpGrown o q :=
  ⟨Nat.le_trans h.1 k.1, List.IsPrefix.trans h.2.1 k.2.1, List.IsPrefix.trans h.2.2.1 k.2.2.1,
   h.2.2.2.1.trans k.2.2.2.1, fun i => Nat.le_trans (h.2.2.2.2 i) (k.2.2.2.2 i)⟩

theorem Keeps.refl (s : State) : Keeps s s := ⟨rfl, rfl, OtpGrown.refl _, id⟩

theorem Keeps.trans {s t u : State} (h : Keeps s t) (k : Keeps t u) : Keeps s u :=
  ⟨k.1.trans h.1, k.2.1.trans h.2.1, h.2.2.1.trans k.2.2.1, k.2.2.2 ∘ h.2.2.2⟩

/-- What keeps the queue, the time and OTP as they are keeps them in the sense of the claims. -/
theorem Keeps.of_kept {s t : State} (h : kept t = kept s) : Keeps s t := by
  simp only [kept, Prod.mk.injEq] at h
  obtain ⟨h1, h2, h3⟩ := h
  exact ⟨h1, h2, h3 ▸ OtpGrown.refl _, fun k => h3 ▸ k⟩

theorem Keeps.foldl {α : Type} (f : State → α → State) (h : ∀ s x, Keeps s (f s x)) (l : List α) (s : State) :
    Keeps s (l.foldl f s) := by
  induction l generalizing s with
  | nil => exact Keeps.refl s
  | cons a l ih => exact (h s a).trans (ih _)

/-- Thermometers that only rise make a grown OTP. -/
theorem otpGrown_arb (o : Otp) (f : Nat × Nat → Nat) (h : ∀ e, e.1 ≤ f e) : OtpGrown o { o with arb := o.arb.zipIdx.map f } := by
  refine ⟨Nat.le_refl _, List.prefix_refl _, List.prefix_refl _, by simp, fun i => ?_⟩
  simp only [List.getElem?_map, List.getElem?_zipIdx]
  cases o.arb[i]? with
  | none => simp
  | some v => simpa using h (v, 0 + i)

/-- Both ways of a choice keep it. -/
theorem kept_if (c : Prop) [Decidable c] {a b s : State} (ha : kept a = kept s) (hb : kept b = kept s) :
    kept (if c then a else b) = kept s := by
  split
  · exact ha
  · exact hb

end Sys2Proof.Machine
end

