-- ==== Sys2Proof/Laws/KeptThreads.lean ====
section
/-! SUPPORT. What the operations of threads, caches and the Logbook leave alone (Safety.kept). -/

set_option linter.unusedSimpArgs false

set_option linter.unusedTactic false
set_option linter.unreachableTactic false
set_option linter.unusedVariables false

namespace Sys2Proof.Machine

@[simp] theorem kept_setCoh (s : State) (b : Nat) (c : Coh) : kept (setCoh s b c) = kept s := by simp [setCoh]

@[simp] theorem kept_setPc (s : State) (p : Nat) (c : PierCache) : kept (setPc s p c) = kept s := by simp [setPc]

@[simp] theorem kept_hbmPut (s : State) (line : Nat) (d : BitVec 512) (poison : Bool) :
    kept (hbmPut s line d poison) = kept s := by simp [hbmPut]

@[simp] theorem kept_l2SetState (s : State) (p line : Nat) (st : LState) : kept (l2SetState s p line st) = kept s := by
  unfold l2SetState
  repeat' (first
    | (simp; done)
    | (refine (kept_foldl _ (fun s x => ?_) _ _).trans ?_)
    | (split <;> (try (rename_i h; have e := congrArg (fun p => kept p.1) h; simp at e; rw [e]; clear e h)))
    | dsimp only)

@[simp] theorem kept_l3Write (s : State) (b line : Nat) (d : BitVec 512) (poison : Bool) :
    kept (l3Write s b line d poison) = kept s := by
  unfold l3Write
  repeat' (first
    | (simp; done)
    | (refine (kept_foldl _ (fun s x => ?_) _ _).trans ?_)
    | (split <;> (try (rename_i h; have e := congrArg (fun p => kept p.1) h; simp at e; rw [e]; clear e h)))
    | dsimp only)

@[simp] theorem kept_backInvalidate (s : State) (b line : Nat) : kept (backInvalidate s b line).1 = kept s := by
  have step : ∀ (l : List Nat) (acc : State × Option (BitVec 512 × Bool)),
      kept (l.foldl (fun acc a =>
        let p := b * 4 + a
        match cFind (pcOf acc.1 p).l2 l2Sets l2Ways line with
        | none => acc
        | some i =>
          let l := tget {} (pcOf acc.1 p).l2 i
          let locked := lockedWay (pcOf acc.1 p) i
          let s1 := l2SetState acc.1 p line .i
          let s2 := if locked then setPc s1 p { pcOf s1 p with pinnedEvict := satInc (pcOf s1 p).pinnedEvict 255 } else s1
          (s2, if l.state = .m ∨ l.state = .o then some (l.data, l.poisoned) else acc.2)) acc).1 = kept acc.1 := by
    intro l
    induction l with
    | nil => intro acc; rfl
    | cons a l ih => intro acc; rw [List.foldl_cons, ih]; dsimp only; split <;> simp
  exact step _ (s, none)

@[simp] theorem kept_l3Room (s : State) (b line : Nat) : kept (l3Room s b line).1 = kept s := by
  unfold l3Room
  extract_lets c wayLine free
  generalize cVictim c.l3 l3Sets l3Ways line free 5 = v
  obtain ⟨l3, w⟩ := v
  simp only
  split
  · simp
  · generalize h : backInvalidate _ _ _ = r
    obtain ⟨t, d⟩ := r
    have e := congrArg (fun p => kept p.1) h
    simp at e
    cases d <;> simp [← e]

@[simp] theorem kept_l3Fetch (s : State) (b line age : Nat) : kept (l3Fetch s b line age).1 = kept s := by
  have h := kept_l3Room s b line
  unfold l3Fetch
  dsimp only
  split <;> simp [h]

@[simp] theorem kept_setDir (s : State) (b line : Nat) (d : Dir) : kept (setDir s b line d) = kept s := by simp [setDir]

@[simp] theorem kept_l2Evict (s : State) (p i : Nat) : kept (l2Evict s p i) = kept s := by simp [l2Evict]

@[simp] theorem kept_l2Install (s : State) (p line : Nat) (st : LState) (d : BitVec 512) (poison : Bool) (age : Nat) :
    kept (l2Install s p line st d poison age) = kept s := by
  unfold l2Install
  repeat' (first
    | (simp; done)
    | (refine (kept_foldl _ (fun s x => ?_) _ _).trans ?_)
    | (split <;> (try (rename_i h; have e := congrArg (fun p => kept p.1) h; simp at e; rw [e]; clear e h)))
    | dsimp only)

@[simp] theorem kept_fetchShared (s : State) (p line age : Nat) : kept (fetchShared s p line age) = kept s := by
  unfold fetchShared
  repeat' (first
    | (simp; done)
    | (refine (kept_foldl _ (fun s x => ?_) _ _).trans ?_)
    | (split <;> (try (rename_i h; have e := congrArg (fun p => kept p.1) h; simp at e; rw [e]; clear e h)))
    | dsimp only)

@[simp] theorem kept_dropOthers (s : State) (b a line : Nat) : kept (dropOthers s b a line) = kept s := by simp [dropOthers]

@[simp] theorem kept_fetchOwned (s : State) (p line : Nat) : kept (fetchOwned s p line) = kept s := by simp [fetchOwned]

@[simp] theorem kept_setSrc (s : State) (n : Nat) (v : Source) : kept (setSrc s n v) = kept s := by simp [setSrc]

@[simp] theorem kept_arrive (s : State) (n detail : Nat) (posted : Bool) :
    kept (arrive s n detail posted) = kept s := by simp [arrive]

@[simp] theorem kept_logAdd (s : State) (code cls island place tenant seq : Nat) (detail : List Byte) :
    kept (logAdd s code cls island place tenant seq detail) = kept s := by
  unfold logAdd; split <;> simp

@[simp] theorem kept_logIsland (s : State) (code cls island : Nat) (detail : List Byte) :
    kept (logIsland s code cls island detail) = kept s := by simp [logIsland]

@[simp] theorem kept_setThr (s : State) (th : ThreadId) (t : Thread) : kept (setThr s th t) = kept s := by simp [setThr]

@[simp] theorem kept_modThr (s : State) (th : ThreadId) (f : Thread → Thread) :
    kept (modThr s th f) = kept s := by simp [modThr]

@[simp] theorem kept_setArch (s : State) (th : ThreadId) (a : Arch) : kept (setArch s th a) = kept s := by simp [setArch]

@[simp] theorem kept_setBasin (s : State) (b : Nat) (v : Basin) : kept (setBasin s b v) = kept s := by simp [setBasin]

@[simp] theorem kept_setPier (s : State) (p : Nat) (v : Pier) : kept (setPier s p v) = kept s := by simp [setPier]

@[simp] theorem kept_setIsland (s : State) (n : Nat) (v : Island) : kept (setIsland s n v) = kept s := by simp [setIsland]

@[simp] theorem kept_setTenant (s : State) (t : Nat) (v : Tenant) : kept (setTenant s t v) = kept s := by simp [setTenant]

@[simp] theorem kept_setPort (s : State) (p : Port) (v : PortState) : kept (setPort s p v) = kept s := by simp [setPort]

@[simp] theorem kept_setVf (s : State) (p : Port) (t : Nat) (v : Vf) : kept (setVf s p t v) = kept s := by simp [setVf]

@[simp] theorem kept_setCons (s : State) (seq : Nat) (c : Cons) : kept (setCons s seq c) = kept s := by simp [setCons]

@[simp] theorem kept_modCons (s : State) (seq : Nat) (f : Cons → Cons) : kept (modCons s seq f) = kept s := by simp [modCons]

@[simp] theorem kept_setPart (s : State) (p : Nat) (v : Part) : kept (setPart s p v) = kept s := by simp [setPart]

@[simp] theorem kept_setPos (s : State) (pier : Nat) (k : Fin 16) (v : Position) :
    kept (setPos s pier k v) = kept s := by simp [setPos]

@[simp] theorem kept_noteXlat (s : State) (p : Port) (ats : Bool) (a : Nat) :
    kept (noteXlat s p ats a) = kept s := by simp [noteXlat]

@[simp] theorem kept_vfXlat (s : State) (t a : Nat) : kept (vfXlat s t a) = kept s := by simp [vfXlat]

@[simp] theorem kept_loadFill (s : State) (th : ThreadId) (line : Nat) : kept (loadFill s th line) = kept s := by
  unfold loadFill
  repeat' (first
    | (simp; done)
    | (refine (kept_foldl _ (fun s x => ?_) _ _).trans ?_)
    | (split <;> (try (rename_i h; have e := congrArg (fun p => kept p.1) h; simp at e; rw [e]; clear e h)))
    | dsimp only)

@[simp] theorem kept_physStore (s : State) (th : ThreadId) (pa : Nat) (v : Byte) : kept (physStore s th pa v) = kept s := by
  unfold physStore
  repeat' (first
    | (simp; done)
    | (refine (kept_foldl _ (fun s x => ?_) _ _).trans ?_)
    | (split <;> (try (rename_i h; have e := congrArg (fun p => kept p.1) h; simp at e; rw [e]; clear e h)))
    | dsimp only)

@[simp] theorem kept_objStore (s : State) (th : ThreadId) (o : Obj) (a : Nat) (v : Byte) :
    kept (objStore s th o a v) = kept s := by
  unfold objStore; split <;> simp

@[simp] theorem kept_releaseGated (s : State) (th : ThreadId) : kept (releaseGated s th) = kept s := by simp [releaseGated]

@[simp] theorem kept_retryPoint (s : State) (th : ThreadId) : kept (retryPoint s th) = kept s := by simp [retryPoint]

@[simp] theorem kept_retire (s : State) (th : ThreadId) : kept (retire s th) = kept s := by simp [retire]

@[simp] theorem kept_takeLines (s : State) (th : ThreadId) (lines : List Nat) :
    kept (takeLines s th lines) = kept s := by simp [takeLines]

@[simp] theorem kept_releaseHolds (s : State) (b seq : Nat) : kept (releaseHolds s b seq) = kept s := by simp [releaseHolds]

@[simp] theorem kept_dropCset (s : State) (th : ThreadId) : kept (dropCset s th) = kept s := by simp [dropCset]

@[simp] theorem kept_cancelJob (s : State) (id : Nat) : kept (cancelJob s id) = kept s := by
  unfold cancelJob; split <;> simp

@[simp] theorem kept_cancelWork (s : State) (th : ThreadId) : kept (cancelWork s th) = kept s := by simp [cancelWork]

@[simp] theorem kept_endThread (s : State) (th : ThreadId) (r : Option EndReport) : kept (endThread s th r) = kept s := by
  unfold endThread; split <;> simp

@[simp] theorem kept_freeIfDone (s : State) (th : ThreadId) : kept (freeIfDone s th) = kept s := by simp [freeIfDone]

@[simp] theorem kept_logThread (s : State) (th : ThreadId) (code cls : Nat) (detail : List Byte) :
    kept (logThread s th code cls detail) = kept s := by
  unfold logThread
  repeat' (first
    | (simp; done)
    | (refine (kept_foldl _ (fun s x => ?_) _ _).trans ?_)
    | (split <;> (try (rename_i h; have e := congrArg (fun p => kept p.1) h; simp at e; rw [e]; clear e h)))
    | dsimp only)

@[simp] theorem kept_handlerFails (s : State) (th : ThreadId) (ended : Ended) (e : Exn) : kept (handlerFails s th ended e) = kept s := by
  unfold handlerFails
  split <;> simp

@[simp] theorem kept_takeExn (s : State) (th : ThreadId) (e : Exn) : kept (takeExn s th e) = kept s := by
  unfold takeExn
  repeat' (first
    | (simp; done)
    | (refine (kept_foldl _ (fun s x => ?_) _ _).trans ?_)
    | (split <;> (try (rename_i h; have e := congrArg (fun p => kept p.1) h; simp at e; rw [e]; clear e h)))
    | dsimp only)

@[simp] theorem kept_tlbFill (s : State) (th : ThreadId) (va : Nat) : kept (tlbFill s th va) = kept s := by
  unfold tlbFill; split <;> simp

/-- An instruction keeps what its body keeps. -/

@[simp] theorem kept_issue (th : ThreadId) (body : State → State) (h : ∀ s, kept (body s) = kept s) (s : State) :
    kept (issue th body s) = kept s := by
  unfold issue
  split
  · split <;> simp [h]
  · rfl

@[simp] theorem kept_regInstr (th : ThreadId) (f : Arch → Except Exn Arch) (s : State) : kept (regInstr th f s) = kept s :=
  kept_issue th _ (fun s => by split <;> simp) s

@[simp] theorem kept_jumpInstr (th : ThreadId) (f : Arch → Except Exn Arch) (s : State) : kept (jumpInstr th f s) = kept s :=
  kept_issue th _ (fun s => by split <;> simp) s

@[simp] theorem kept_enterHandler (s : State) (th : ThreadId) (seq : Nat) (c : Cons) :
    kept (enterHandler s th seq c) = kept s := by simp [enterHandler]

@[simp] theorem kept_conflictRestart (s : State) (th : ThreadId) (line : Nat) :
    kept (conflictRestart s th line) = kept s := by simp [conflictRestart]

@[simp] theorem kept_fillAll (s : State) (th : ThreadId) (ls : List Loc) : kept (fillAll s th ls) = kept s := by simp [fillAll]

@[simp] theorem kept_finish (s : State) (th : ThreadId) (a : Arch) : kept (finish s th a) = kept s := by simp [finish]

@[simp] theorem kept_waitFor (s : State) (th : ThreadId) (why : WaitWhy) (op : MemOp) (iova : Nat) :
    kept (waitFor s th why op iova) = kept s := by simp [waitFor]

@[simp] theorem kept_machineCheck (s : State) (th : ThreadId) (cause : Nat) (ls : List Loc) :
    kept (machineCheck s th cause ls) = kept s := by simp [machineCheck]

@[simp] theorem kept_doLoad (s : State) (th : ThreadId) (ls : List Loc) (dest : LoadDest) (op : MemOp) :
    kept (doLoad s th ls dest op) = kept s := by
  unfold doLoad; split <;> (try split) <;> simp

@[simp] theorem kept_addStore (s : State) (th : ThreadId) (kind : StoreKind) (va : Nat) (waiting : List GStore) :
    kept (addStore s th kind va waiting) = kept s := by simp [addStore]

@[simp] theorem kept_hbmStore (s : State) (g : GStore) : kept (hbmStore s g) = kept s := by simp [hbmStore]

@[simp] theorem kept_hostStore (s : State) (th : ThreadId) (va : Nat) (gs : List GStore) :
    kept (hostStore s th va gs) = kept s := by simp [hostStore]

@[simp] theorem kept_doStore (s : State) (th : ThreadId) (va : Nat) (ls : List Loc) (bs : List Byte) :
    kept (doStore s th va ls bs) = kept s := by
  unfold doStore
  extract_lets pieces mk gatedP buf unc dev host s0 s1 s2 s3 s4 s5 s6
  by_cases hc : (buf.isEmpty && unc.isEmpty && dev.isEmpty && host.isEmpty) = true
  · rw [if_pos hc]; simp [s0]
  · rw [if_neg hc]
    have h2 : kept s2 = kept s := by simp [s2, s1]
    have h3 : kept s3 = kept s2 := by
      simp only [s3]; clear_value s2; generalize unc = l; cases l
      · rfl
      · dsimp only; repeat' split
        all_goals simp
    have h4 : kept s4 = kept s3 := by
      simp only [s4]; clear_value s3; generalize dev = l; cases l
      · rfl
      · dsimp only; split <;> simp
    have h5 : kept s5 = kept s4 := by
      simp only [s5]; clear_value s4; split <;> simp
    simp [s6, h5, h4, h3, h2]

@[simp] theorem kept_recallAll (s : State) (b line : Nat) : kept (recallAll s b line) = kept s := by simp [recallAll]

@[simp] theorem kept_amoByte (s : State) (th : ThreadId) (l : Loc) (v : Byte) :
    kept (amoByte s th l v) = kept s := by simp [amoByte]

@[simp] theorem kept_doAmo (s : State) (th : ThreadId) (ls : List Loc) (fn : AmoFn) (n : Nat) (d : RegField)
    (cmp operand : Nat) (op : MemOp) : kept (doAmo s th ls fn n d cmp operand op) = kept s := by
  unfold doAmo
  split
  · simp
  · extract_lets s1 s2
    have h2 : kept s2 = kept s := by simp [s2, s1]
    clear_value s2
    split
    · simp [h2]
    · rename_i old s3 s4 _
      have h3 : kept s3 = kept s := by
        simp only [s3]; split
        · exact h2
        · simp [h2]
      simp [s4, h3]

@[simp] theorem kept_access (s : State) (th : ThreadId) (op : MemOp) : kept (access s th op) = kept s := by
  unfold access
  repeat' (first
    | (simp; done)
    | (refine (kept_foldl _ (fun s x => ?_) _ _).trans ?_)
    | (split <;> (try (rename_i h; have e := congrArg (fun p => kept p.1) h; simp at e; rw [e]; clear e h)))
    | dsimp only)

@[simp] theorem kept_memInstr (th : ThreadId) (f : Arch → Except Exn MemOp) (s : State) : kept (memInstr th f s) = kept s :=
  kept_issue th _ (fun s => by split <;> simp) s

@[simp] theorem kept_resumeAccess (s : State) (th : ThreadId) : kept (resumeAccess s th) = kept s := by
  unfold resumeAccess; split <;> (try split) <;> simp

@[simp] theorem kept_haltHarbour (s : State) (code : Nat) : kept (haltHarbour s code) = kept s := by simp [haltHarbour]

@[simp] theorem kept_ringWrite (s : State) (q : Eq) (r : EvRec) : kept (ringWrite s q r) = kept s := by simp [ringWrite]

@[simp] theorem kept_setTenEq (s : State) (t n : Nat) (q : Eq) : kept (setTenEq s t n q) = kept s := by simp [setTenEq]

@[simp] theorem kept_setSq (s : State) (t n : Nat) (q : Sq) : kept (setSq s t n q) = kept s := by simp [setSq]

/-- The tick changes the time, and nothing else of these. -/

theorem tick_pending (s : State) : (tick s).pending = s.pending := rfl

theorem tick_otp (s : State) : (tick s).otp = s.otp := rfl

@[simp] theorem kept_endByRet (s : State) (th : ThreadId) : kept (endByRet s th) = kept s := by simp [endByRet]

@[simp] theorem kept_signalDirect (s : State) (th : ThreadId) (sig : Nat × Nat × Nat) :
    kept (signalDirect s th sig) = kept s := by simp [signalDirect]

@[simp] theorem kept_nearWrite (s : State) (th : ThreadId) (off : Nat) (bs : List Byte) :
    kept (nearWrite s th off bs) = kept s := by simp [nearWrite]

theorem kept_collect (s : State) (th : ThreadId) (n : Nat) (d : RegField) (t : State) (h : collect s th n d = some t) :
    kept t = kept s := by
  unfold collect at h
  dsimp only at h
  split at h
  · split at h
    · injection h with h; rw [← h]; simp
    · cases h
  · split at h
    · cases h
    · injection h with h; rw [← h]; simp

@[simp] theorem kept_collect_getD (s : State) (th : ThreadId) (n : Nat) (d : RegField) :
    kept ((collect s th n d).getD s) = kept s := by
  cases h : collect s th n d with
  | none => rfl
  | some t => exact kept_collect s th n d t h

end Sys2Proof.Machine
end

