-- ==== Sys2Proof/Laws/KeptQuay.lean ====
section
/-! SUPPORT. What the Quayside, the ledger, paths and event queues leave alone (Safety.kept). -/

set_option linter.unusedSimpArgs false

set_option linter.unusedTactic false
set_option linter.unreachableTactic false
set_option linter.unusedVariables false

namespace Sys2Proof.Machine

@[simp] theorem kept_barrierFault (s : State) (th : ThreadId) (f : SFail) :
    kept (barrierFault s th f) = kept s := by simp [barrierFault]

@[simp] theorem kept_moorSettle (s : State) (th : ThreadId) : kept (moorSettle s th) = kept s := by
  unfold moorSettle
  repeat' (first
    | (simp; done)
    | (refine (kept_foldl _ (fun s x => ?_) _ _).trans ?_)
    | (split <;> (try (rename_i h; have e := congrArg (fun p => kept p.1) h; simp at e; rw [e]; clear e h)))
    | dsimp only)

@[simp] theorem kept_recordFails (s : State) (th : ThreadId) (fs : List SFail) :
    kept (recordFails s th fs) = kept s := by simp [recordFails]

@[simp] theorem kept_failStore (s : State) (th : ThreadId) (o : OStore) (reason : Nat) :
    kept (failStore s th o reason) = kept s := by simp [failStore]

@[simp] theorem kept_lateStore (s : State) (th : ThreadId) (id : Nat) : kept (lateStore s th id) = kept s := by
  unfold lateStore; split <;> simp

@[simp] theorem kept_cleanLine (s : State) (b line : Nat) : kept (cleanLine s b line) = kept s := by
  unfold cleanLine
  repeat' (first
    | (simp; done)
    | (refine (kept_foldl _ (fun s x => ?_) _ _).trans ?_)
    | (split <;> (try (rename_i h; have e := congrArg (fun p => kept p.1) h; simp at e; rw [e]; clear e h)))
    | dsimp only)

@[simp] theorem kept_invLine (s : State) (b line : Nat) : kept (invLine s b line) = kept s := by simp [invLine]

@[simp] theorem kept_lockLine (s : State) (th : ThreadId) (line : Nat) : kept (lockLine s th line) = kept s := by
  unfold lockLine
  extract_lets p s1 pc
  have h : kept s1 = kept s := by simp only [s1]; split <;> simp
  clear_value s1
  split
  · exact h
  · split
    · exact h
    · split <;> simp [h]

@[simp] theorem kept_unlockLine (s : State) (th : ThreadId) (line : Nat) : kept (unlockLine s th line) = kept s := by
  unfold unlockLine
  repeat' (first
    | (simp; done)
    | (refine (kept_foldl _ (fun s x => ?_) _ _).trans ?_)
    | (split <;> (try (rename_i h; have e := congrArg (fun p => kept p.1) h; simp at e; rw [e]; clear e h)))
    | dsimp only)

@[simp] theorem kept_setLedger (s : State) (b : Nat) (l : Ledger) : kept (setLedger s b l) = kept s := by simp [setLedger]

@[simp] theorem kept_openTide (s : State) : kept (openTide s).1 = kept s := by
  unfold openTide; split <;> (try split) <;> simp

@[simp] theorem kept_appendRec (s : State) (b : Nat) (r : LRec) : kept (appendRec s b r).1 = kept s := by simp [appendRec]

@[simp] theorem kept_ledgerHigh (s : State) (b : Nat) : kept (ledgerHigh s b) = kept s := by simp [ledgerHigh]

@[simp] theorem kept_hostPut (s : State) (b n : Nat) : kept (hostPut s b n) = kept s := by
  unfold hostPut
  repeat' (first
    | (simp; done)
    | (refine (kept_foldl _ (fun s x => ?_) _ _).trans ?_)
    | (split <;> (try (rename_i h; have e := congrArg (fun p => kept p.1) h; simp at e; rw [e]; clear e h)))
    | dsimp only)

@[simp] theorem kept_hostSend (s : State) (b n : Nat) : kept (hostSend s b n) = kept s := by
  induction n generalizing s with
  | zero => rfl
  | succ n ih => 
    unfold hostSend
    dsimp only
    split
    · rfl
    · split <;> simp [ih]

@[simp] theorem kept_hostQueue (s : State) (b n : Nat) : kept (hostQueue s b n) = kept s := by simp [hostQueue]

@[simp] theorem kept_placeBoundary (s : State) : kept (placeBoundary s) = kept s := by
  unfold placeBoundary; split <;> simp

@[simp] theorem kept_setEq (s : State) (r : EqRef) (q : Eq) : kept (setEq s r q) = kept s := by
  unfold setEq; split <;> simp

@[simp] theorem kept_functionVector (s : State) (t : Nat) : kept (functionVector s t) = kept s := by simp [functionVector]

/-- A change of a function keeps what the change keeps. -/

@[simp] theorem kept_withVector (t : Nat) (f : State → State) (h : ∀ s, kept (f s) = kept s) (s : State) :
    kept (withVector t f s) = kept s := by
  unfold withVector
  dsimp only
  split <;> simp [h]

@[simp] theorem kept_enterError (s : State) (t cause : Nat) : kept (enterError s t cause) = kept s := by
  unfold enterError
  repeat' (first
    | (simp; done)
    | (refine (kept_foldl _ (fun s x => ?_) _ _).trans ?_)
    | (split <;> (try (rename_i h; have e := congrArg (fun p => kept p.1) h; simp at e; rw [e]; clear e h)))
    | dsimp only)

@[simp] theorem kept_stopEq (s : State) (r : EqRef) : kept (stopEq s r) = kept s := by
  unfold stopEq; split <;> simp

@[simp] theorem kept_recordWritten (s : State) (r : EqRef) (w : EvRec) : kept (recordWritten s r w) = kept s := by
  unfold recordWritten; split <;> simp

@[simp] theorem kept_eqXlat (s : State) (r : EqRef) (a : Nat) : kept (eqXlat s r a) = kept s := by
  unfold eqXlat; split <;> simp

@[simp] theorem kept_drainEq (n : Nat) (s : State) (r : EqRef) : kept (drainEq n s r) = kept s := by
  induction n generalizing s with
  | zero => rfl
  | succ n ih =>
    unfold drainEq
    dsimp only
    split
    · rfl
    · split
      · rfl
      · split <;> simp [ih]

@[simp] theorem kept_postEq (s : State) (r : EqRef) (w : EvRec) : kept (postEq s r w) = kept s := by simp [postEq]

@[simp] theorem kept_notice (s : State) (t n status len sq : Nat) :
    kept (notice s t n status len sq) = kept s := by simp [notice]

@[simp] theorem kept_reportCredits (s : State) (t n : Nat) : kept (reportCredits s t n) = kept s := by simp [reportCredits]

@[simp] theorem kept_creditCheck (s : State) (t n : Nat) : kept (creditCheck s t n) = kept s := by simp [creditCheck]

@[simp] theorem kept_freeSlot (s : State) (t n slot : Nat) : kept (freeSlot s t n slot) = kept s := by simp [freeSlot]

@[simp] theorem kept_vfPme (s : State) (p : Port) (t : Nat) : kept (vfPme s p t) = kept s := by simp [vfPme]

@[simp] theorem kept_pf0Pme (s : State) (p : Port) : kept (pf0Pme s p) = kept s := by simp [pf0Pme]

@[simp] theorem kept_tryComplete (s : State) (seq : Nat) : kept (tryComplete s seq) = kept s := by
  unfold tryComplete; split <;> simp

@[simp] theorem kept_settleTenant (s : State) (t : Nat) : kept (settleTenant s t) = kept s := by simp [settleTenant]

@[simp] theorem kept_pumpTenant (s : State) (t : Nat) : kept (pumpTenant s t) = kept s := by simp [pumpTenant]

@[simp] theorem kept_appendFinal (s : State) (seq : Nat) (c : Cons) (committed : Bool) :
    kept (appendFinal s seq c committed) = kept s := by simp [appendFinal]

@[simp] theorem kept_recordFinal (s : State) (seq : Nat) (committed : Bool) : kept (recordFinal s seq committed) = kept s := by
  unfold recordFinal
  repeat' (first
    | (simp; done)
    | (refine (kept_foldl _ (fun s x => ?_) _ _).trans ?_)
    | (split <;> (try (rename_i h; have e := congrArg (fun p => kept p.1) h; simp at e; rw [e]; clear e h)))
    | dsimp only)

@[simp] theorem kept_failCons (s : State) (seq status value resultLen : Nat) :
    kept (failCons s seq status value resultLen) = kept s := by
  unfold failCons; split <;> simp

@[simp] theorem kept_resultWrite (s : State) (seq : Nat) (segs : List (Nat × List Byte)) :
    kept (resultWrite s seq segs).1 = kept s := by
  unfold resultWrite
  repeat' (first
    | (simp [kept_ite_fst]; done)
    | (refine (kept_foldl _ (fun s x => ?_) _ _).trans ?_)
    | (split <;> (try (rename_i h; have e := congrArg (fun p => kept p.1) h; simp at e; rw [e]; clear e h)))
    | dsimp only)

@[simp] theorem kept_takeBuffer (s : State) (t p : Nat) : kept (takeBuffer s t p).1 = kept s := by simp [takeBuffer]

@[simp] theorem kept_takeBuffers (s : State) (t p n : Nat) : kept (takeBuffers s t p n).1 = kept s := by
  induction n generalizing s with
  | zero => rfl
  | succ n ih =>
    have h := kept_takeBuffer s t p
    simp only [takeBuffers]
    rw [ih, h]

@[simp] theorem kept_placeResult (s : State) (seq : Nat) (data : List Byte) (ends : List Nat) :
    kept (placeResult s seq data ends).1 = kept s := by
  unfold placeResult
  split
  · rfl
  · dsimp only
    split
    · simp
    · split <;> simp

@[simp] theorem kept_abortNow (s : State) (th : ThreadId) (status resultLen : Nat) :
    kept (abortNow s th status resultLen) = kept s := by simp [abortNow]

@[simp] theorem kept_deadlineAbort (s : State) (th : ThreadId) : kept (deadlineAbort s th) = kept s := by simp [deadlineAbort]

@[simp] theorem kept_sendGroup (s : State) (th : ThreadId) (seq : Nat) (r : EndReport) :
    kept (sendGroup s th seq r) = kept s := by simp [sendGroup]

@[simp] theorem kept_commitAdvance (s : State) (th : ThreadId) : kept (commitAdvance s th) = kept s := by
  unfold commitAdvance
  repeat' (first
    | (simp; done)
    | (refine (kept_foldl _ (fun s x => ?_) _ _).trans ?_)
    | (split <;> (try (rename_i h; have e := congrArg (fun p => kept p.1) h; simp at e; rw [e]; clear e h)))
    | dsimp only)

@[simp] theorem kept_deadlineAct (s : State) (th : ThreadId) : kept (deadlineAct s th) = kept s := by
  unfold deadlineAct
  repeat' (first
    | (simp; done)
    | (refine (kept_foldl _ (fun s x => ?_) _ _).trans ?_)
    | (split <;> (try (rename_i h; have e := congrArg (fun p => kept p.1) h; simp at e; rw [e]; clear e h)))
    | dsimp only)

@[simp] theorem kept_signalAct (s : State) (th : ThreadId) (pri : Nat) :
    kept (signalAct s th pri) = kept s := by simp [signalAct]

@[simp] theorem kept_replaceSignal (s : State) (th : ThreadId) (old : Nat × Nat) (sig : Nat × Nat × Nat) :
    kept (replaceSignal s th old sig) = kept s := by simp [replaceSignal]

@[simp] theorem kept_enterSignal (s : State) (th : ThreadId) (sig : Nat × Nat × Nat) :
    kept (enterSignal s th sig) = kept s := by
  unfold enterSignal
  repeat' (first
    | (simp; done)
    | (refine (kept_foldl _ (fun s x => ?_) _ _).trans ?_)
    | (split <;> (try (rename_i h; have e := congrArg (fun p => kept p.1) h; simp at e; rw [e]; clear e h)))
    | dsimp only)

@[simp] theorem kept_drawSeq (s : State) (h : Port) : kept (drawSeq s h).1 = kept s := by
  unfold drawSeq; split <;> simp

@[simp] theorem kept_accept (s : State) (h : Port) (x : Slipped) : kept (accept s h x) = kept s := by simp [accept]

@[simp] theorem kept_acceptOrSlip (s : State) (x : Slipped) : kept (acceptOrSlip s x) = kept s := by simp [acceptOrSlip]

@[simp] theorem kept_refuse (s : State) (t n : Nat) (d : Desc) (status : Nat) :
    kept (refuse s t n d status) = kept s := by simp [refuse]

@[simp] theorem kept_pushOne (s : State) (p : Port) (t n : Nat) (bs : List Byte) : kept (pushOne s p t n bs) = kept s := by
  unfold pushOne
  repeat' (first
    | (simp; done)
    | (refine (kept_foldl _ (fun s x => ?_) _ _).trans ?_)
    | (split <;> (try (rename_i h; have e := congrArg (fun p => kept p.1) h; simp at e; rw [e]; clear e h)))
    | dsimp only)

@[simp] theorem kept_fetchedOne (s : State) (t n slot : Nat) (bs : List Byte) : kept (fetchedOne s t n slot bs) = kept s := by
  unfold fetchedOne
  repeat' (first
    | (simp; done)
    | (refine (kept_foldl _ (fun s x => ?_) _ _).trans ?_)
    | (split <;> (try (rename_i h; have e := congrArg (fun p => kept p.1) h; simp at e; rw [e]; clear e h)))
    | dsimp only)

@[simp] theorem kept_setMail (s : State) (p : Port) (m : Mailbox) : kept (setMail s p m) = kept s := by
  unfold setMail; split <;> simp

@[simp] theorem kept_pfVector (s : State) (p : Port) (n : Nat) : kept (pfVector s p n) = kept s := by simp [pfVector]

@[simp] theorem kept_mbAnswer (s : State) (p : Port) (r : MbResp) : kept (mbAnswer s p r) = kept s := by simp [mbAnswer]

@[simp] theorem kept_outWrite (s : State) (p : Port) (l : List OutSeg) (b : List Byte) :
    kept (outWrite s p l b).1 = kept s := by
  induction l generalizing s b with
  | nil => rfl
  | cons g r ih =>
    unfold outWrite
    dsimp only
    split
    · rfl
    · split
      · simp [ih]
      · rfl

@[simp] theorem kept_mbDeliver (s : State) (p : Port) (r : MbRun) (x : MbResp) : kept (mbDeliver s p r x) = kept s := by
  have h := kept_outWrite s p r.outs x.body
  unfold mbDeliver
  split
  · simp
  · split
    · rename_i e; rw [e] at h; simpa using h
    · rename_i e; rw [e] at h; simpa using h

@[simp] theorem kept_mbFinish (s : State) (p : Port) (status detail : Nat) (body : List Byte) :
    kept (mbFinish s p status detail body) = kept s := by
  unfold mbFinish; split <;> simp

@[simp] theorem kept_mbFinishOp (s : State) (op arg status detail : Nat) (body : List Byte) :
    kept (mbFinishOp s op arg status detail body) = kept s := by simp [mbFinishOp]

@[simp] theorem kept_touchPort (s : State) (p : Port) : kept (touchPort s p) = kept s := by simp [touchPort]

@[simp] theorem kept_fetchFail (s : State) (t n h k : Nat) : kept (fetchFail s t n h k) = kept s := by simp [fetchFail]

@[simp] theorem kept_retirePassed (s : State) (r : EqRef) (v : Nat) :
    kept (retirePassed s r v) = kept s := by simp [retirePassed]

@[simp] theorem kept_ackFinals (s : State) (b upTo : Nat) (mark : Cons → Cons) :
    kept (ackFinals s b upTo mark) = kept s := by simp [ackFinals]

@[simp] theorem kept_expireJob (s : State) (seq id : Nat) : kept (expireJob s seq id) = kept s := by
  unfold expireJob; split <;> simp

@[simp] theorem kept_reemit (s : State) (seq : Nat) (c : Cons) (b n : Nat) (r : LRec) :
    kept (reemit s seq c b n r) = kept s := by simp [reemit]

@[simp] theorem kept_reexecute (s : State) (seq : Nat) (c : Cons) : kept (reexecute s seq c) = kept s := by simp [reexecute]

@[simp] theorem kept_closeTide (s : State) (t : Tide) : kept (closeTide s t) = kept s := by simp [closeTide]

@[simp] theorem kept_trimTo (s : State) (num : Nat) : kept (trimTo s num).1 = kept s := by simp [trimTo]

@[simp] theorem kept_tenantEvent (s : State) (t kind : Nat) (p : Port) :
    kept (tenantEvent s t kind p) = kept s := by simp [tenantEvent]

@[simp] theorem kept_releaseHost (s : State) (t : Nat) (th : ThreadId) :
    kept (releaseHost s t th) = kept s := by simp [releaseHost]

@[simp] theorem kept_redriveHost (s : State) (th : ThreadId) : kept (redriveHost s th) = kept s := by simp [redriveHost]

@[simp] theorem kept_redriven (s : State) (t : Nat) (failed : Port) : kept (redriven s t failed) = kept s := by simp [redriven]

@[simp] theorem kept_pathLost (s : State) (t : Nat) : kept (pathLost s t) = kept s := by
  unfold pathLost
  repeat' (first
    | (simp; done)
    | (refine (kept_foldl _ (fun s x => ?_) _ _).trans ?_)
    | (refine (kept_withVector _ _ (fun s => ?_) _).trans ?_)
    | (split <;> (try (rename_i h; have e := congrArg (fun p => kept p.1) h; simp at e; rw [e]; clear e h)))
    | dsimp only)

@[simp] theorem kept_oweNotices (s : State) (t : Nat) : kept (oweNotices s t) = kept s := by simp [oweNotices]

@[simp] theorem kept_pathBack (s : State) (t : Nat) : kept (pathBack s t) = kept s := by simp [pathBack]

@[simp] theorem kept_portLost (s : State) (p : Port) : kept (portLost s p) = kept s := by simp [portLost]

@[simp] theorem kept_portBack (s : State) (p : Port) : kept (portBack s p) = kept s := by simp [portBack]

@[simp] theorem kept_helmLapse (s : State) (p : Port) : kept (helmLapse s p) = kept s := by simp [helmLapse]

@[simp] theorem kept_dropSlipped (s : State) (t : Nat) (p : Slipped → Bool) (credit : Bool) :
    kept (dropSlipped s t p credit).1 = kept s := by simp [dropSlipped]

@[simp] theorem kept_dropFetches (s : State) (t : Nat) : kept (dropFetches s t) = kept s := by
  unfold dropFetches
  repeat' (first
    | (simp; done)
    | (refine (kept_foldl _ (fun s x => ?_) _ _).trans ?_)
    | (split <;> (try (rename_i h; have e := congrArg (fun p => kept p.1) h; simp at e; rw [e]; clear e h)))
    | dsimp only)

@[simp] theorem kept_squash (s : State) (t cause : Nat) : kept (squash s t cause) = kept s := by simp [squash]

@[simp] theorem kept_resetVf (s : State) (p : Port) (t : Nat) : kept (resetVf s p t) = kept s := by simp [resetVf]

@[simp] theorem kept_flrEffect (s : State) (p : Port) (t : Nat) : kept (flrEffect s p t) = kept s := by
  unfold flrEffect
  repeat' (first
    | (simp; done)
    | (refine (kept_foldl _ (fun s x => ?_) _ _).trans ?_)
    | (split <;> (try (rename_i h; have e := congrArg (fun p => kept p.1) h; simp at e; rw [e]; clear e h)))
    | dsimp only)

@[simp] theorem kept_drainExpire (s : State) (t : Nat) : kept (drainExpire s t) = kept s := by
  unfold drainExpire
  repeat' (first
    | (simp; done)
    | (refine (kept_foldl _ (fun s x => ?_) _ _).trans ?_)
    | (split <;> (try (rename_i h; have e := congrArg (fun p => kept p.1) h; simp at e; rw [e]; clear e h)))
    | dsimp only)

@[simp] theorem kept_resumeNow (s : State) (t : Nat) : kept (resumeNow s t) = kept s := by simp [resumeNow]

@[simp] theorem kept_failReads (s : State) (t : Nat) : kept (failReads s t) = kept s := by
  unfold failReads
  repeat' (first
    | (simp; done)
    | (refine (kept_foldl _ (fun s x => ?_) _ _).trans ?_)
    | (split <;> (try (rename_i h; have e := congrArg (fun p => kept p.1) h; simp at e; rw [e]; clear e h)))
    | dsimp only)

@[simp] theorem kept_failHostStores (s : State) (t : Nat) : kept (failHostStores s t) = kept s := by simp [failHostStores]

@[simp] theorem kept_rebank (half : Port) (s : State) (seq : Nat) : kept (rebank half s seq) = kept s := by
  unfold rebank; split <;> (try split) <;> simp

@[simp] theorem kept_halfReset (half : Port) (s : State) : kept (halfReset half s) = kept s := by simp [halfReset]

@[simp] theorem kept_flrAll (s : State) (p : Port) : kept (flrAll s p) = kept s := by simp [flrAll]

@[simp] theorem kept_resetPf0 (s : State) (p : Port) (perst : Bool) : kept (resetPf0 s p perst) = kept s := by simp [resetPf0]

@[simp] theorem kept_portReset (s : State) (p : Port) (perst : Bool) :
    kept (portReset s p perst) = kept s := by simp [portReset]

@[simp] theorem kept_tdiError (s : State) (p : Port) (t : Nat) : kept (tdiError s p t) = kept s := by simp [tdiError]

@[simp] theorem kept_cachedWrite (s : State) (b pa : Nat) (bs : List Byte) :
    kept (cachedWrite s b pa bs) = kept s := by simp [cachedWrite]

@[simp] theorem kept_pierRecord (s : State) (th : ThreadId) (r : EvRec) :
    kept (pierRecord s th r) = kept s := by simp [pierRecord]

@[simp] theorem kept_vfVector (s : State) (p : Port) (t n : Nat) : kept (vfVector s p t n) = kept s := by simp [vfVector]

@[simp] theorem kept_sentTlp (s : State) (p : Port) : kept (sentTlp s p) = kept s := by simp [sentTlp]

@[simp] theorem kept_sendAll (s : State) (p : Port) (t : Nat) : kept (sendAll s p t) = kept s := by simp [sendAll]

@[simp] theorem kept_sendAllPf (s : State) (p : Port) : kept (sendAllPf s p) = kept s := by simp [sendAllPf]

@[simp] theorem kept_vfSleep (s : State) (p : Port) (t : Nat) : kept (vfSleep s p t) = kept s := by simp [vfSleep]

@[simp] theorem kept_vfWake (s : State) (p : Port) (t : Nat) : kept (vfWake s p t) = kept s := by simp [vfWake]

end Sys2Proof.Machine
end

