-- ==== Sys2Proof/Laws/KeptBasins.lean ====
section
/-! SUPPORT. What basin coherence and berths leave alone (Safety.kept). -/

set_option linter.unusedSimpArgs false

set_option linter.unusedTactic false
set_option linter.unreachableTactic false
set_option linter.unusedVariables false

namespace Sys2Proof.Machine

@[simp] theorem kept_replayBasin (s : State) (b : Nat) : kept (replayBasin s b) = kept s := by
  unfold replayBasin
  repeat' (first
    | (simp; done)
    | (refine (kept_foldl _ (fun s x => ?_) _ _).trans ?_)
    | (split <;> (try (rename_i h; have e := congrArg (fun p => kept p.1) h; simp at e; rw [e]; clear e h)))
    | dsimp only)

@[simp] theorem kept_stopThread (s : State) (th : ThreadId) : kept (stopThread s th) = kept s := by simp [stopThread]

@[simp] theorem kept_checkstop (s : State) (b trigger island : Nat) :
    kept (checkstop s b trigger island) = kept s := by
  unfold checkstop
  split
  · rfl
  · extract_lets n s1 w s2 s3 s4 s5 s6 s7 s8 s9
    have h2 : kept s2 = kept s := (kept_setBasin s1 b _).trans (kept_logIsland s _ _ _ _)
    have h4 : kept s4 = kept s2 := by
      refine (kept_foldl _ (fun s x => ?_) _ _).trans (kept_replayBasin s2 b)
      split <;> simp
    have h5 : kept s5 = kept s4 := kept_foldl _ (fun s x => kept_setPc _ _ _) _ _
    have h6 : kept s6 = kept s5 := kept_foldl _ (fun s x => kept_setPier _ _ _) _ _
    have h7 : kept s7 = kept s6 := kept_setCoh s6 b {}
    have h8 : kept s8 = kept s7 := by simp only [s8, kept]
    have h9 : kept s9 = kept s6 := (kept_arrive s8 _ _ _).trans (h8.trans h7)
    have h : kept s9 = kept s := h9.trans (h6.trans (h5.trans (h4.trans h2)))
    split
    · exact (kept_haltHarbour s9 _).trans h
    · exact h

@[simp] theorem kept_sendMsg (s : State) (b : Nat) (m : CohMsg) : kept (sendMsg s b m) = kept s := by simp [sendMsg]

theorem kept_takeMsg (s : State) (b : Nat) (p : CohMsg → Bool) (m : CohMsg) (t : State) (h : takeMsg s b p = some (m, t)) :
    kept t = kept s := by
  unfold takeMsg at h
  split at h
  · cases h; simp
  · cases h

@[simp] theorem kept_modReq (s : State) (b a line tag : Nat) (f : CohReq → CohReq) :
    kept (modReq s b a line tag f) = kept s := by simp [modReq]

@[simp] theorem kept_dropReq (s : State) (b a line tag : Nat) : kept (dropReq s b a line tag) = kept s := by simp [dropReq]

@[simp] theorem kept_l3Copy (s : State) (b line : Nat) : kept (l3Copy s b line).1 = kept s := by simp [l3Copy]

@[simp] theorem kept_makeBusy (s : State) (b : Nat) (r : CohReq) (st : DirState) (owner : Option Nat) (own : Bool)
    (invs : List Nat) (withData : Bool) : kept (makeBusy s b r st owner own invs withData) = kept s := by
  unfold makeBusy; split <;> simp

@[simp] theorem kept_ioFinish (s : State) (b : Nat) (r : CohReq) : kept (ioFinish s b r) = kept s := by simp [ioFinish]

@[simp] theorem kept_homeServe (s : State) (b : Nat) (r : CohReq) : kept (homeServe s b r) = kept s := by
  unfold homeServe
  repeat' (first
    | (simp; done)
    | (refine (kept_foldl _ (fun s x => ?_) _ _).trans ?_)
    | (split <;> (try (rename_i h; have e := congrArg (fun p => kept p.1) h; simp at e; rw [e]; clear e h)))
    | dsimp only)

@[simp] theorem kept_homeArrive (s : State) (b : Nat) (r : CohReq) : kept (homeArrive s b r) = kept s := by simp [homeArrive]

@[simp] theorem kept_homeFinish (s : State) (b line : Nat) (ownerSt : Option LState) (owner : Nat) :
    kept (homeFinish s b line ownerSt owner) = kept s := by
  unfold homeFinish
  repeat' (first
    | (simp; done)
    | (refine (kept_foldl _ (fun s x => ?_) _ _).trans ?_)
    | (split <;> (try (rename_i h; have e := congrArg (fun p => kept p.1) h; simp at e; rw [e]; clear e h)))
    | dsimp only)

@[simp] theorem kept_l2Finish (s : State) (b a line tag : Nat) : kept (l2Finish s b a line tag) = kept s := by
  unfold l2Finish; split <;> (try split) <;> simp

@[simp] theorem kept_l2Request (s : State) (b : BasinId) (a line tag : Nat) (k : ReqKind) :
    kept (l2Request s b a line tag k) = kept s := by simp [l2Request]

@[simp] theorem kept_homePut (s : State) (b a line tag : Nat) (st : LState) (data : BitVec 512) (poison stale : Bool) :
    kept (homePut s b a line tag st data poison stale) = kept s := by simp [homePut]

@[simp] theorem kept_l2Put (s : State) (b : BasinId) (a line tag : Nat) (st : LState) :
    kept (l2Put s b a line tag st) = kept s := by
  unfold l2Put
  repeat' (first
    | (simp; done)
    | (refine (kept_foldl _ (fun s x => ?_) _ _).trans ?_)
    | (split <;> (try (rename_i h; have e := congrArg (fun p => kept p.1) h; simp at e; rw [e]; clear e h)))
    | dsimp only)

@[simp] theorem kept_ioRequest (s : State) (b : Nat) (r : CohReq) : kept (ioRequest s b r) = kept s := by
  unfold ioRequest; split <;> simp

@[simp] theorem kept_strayAt (s : State) (b island : Nat) : kept (strayAt s b island) = kept s := by simp [strayAt]

@[simp] theorem kept_putAnswered (s : State) (b : BasinId) (a line tag : Nat) :
    kept (putAnswered s b a line tag) = kept s := by simp [putAnswered]

@[simp] theorem kept_dirDrop (s : State) (b a line : Nat) (st : LState) :
    kept (dirDrop s b a line st) = kept s := by simp [dirDrop]

@[simp] theorem kept_wayClean (s : State) (p i : Nat) : kept (wayClean s p i) = kept s := by
  unfold wayClean
  repeat' (first
    | (simp; done)
    | (refine (kept_foldl _ (fun s x => ?_) _ _).trans ?_)
    | (split <;> (try (rename_i h; have e := congrArg (fun p => kept p.1) h; simp at e; rw [e]; clear e h)))
    | dsimp only)

@[simp] theorem kept_wayEmpty (s : State) (p i : Nat) : kept (wayEmpty s p i) = kept s := by simp [wayEmpty]

@[simp] theorem kept_logPair (s : State) (code cls : Nat) (pr : PairId) (detail : List Byte) :
    kept (logPair s code cls pr detail) = kept s := by simp [logPair]

@[simp] theorem kept_setPair (s : State) (pier n : Nat) (v : Pair18) : kept (setPair s pier n v) = kept s := by
  unfold setPair; split <;> simp

@[simp] theorem kept_restoreThread (s : State) (th : ThreadId) : kept (restoreThread s th) = kept s := by simp [restoreThread]

@[simp] theorem kept_restoreBerth (s : State) (p : PierId) (k : Fin 16) (which : ThreadId → Bool) :
    kept (restoreBerth s p k which) = kept s := by simp [restoreBerth]

/-- An injected change keeps what the change keeps. -/

@[simp] theorem kept_asInjected (b : Bool) (f : State → State) (h : ∀ s, kept (f s) = kept s) (s : State) :
    kept (asInjected b f s) = kept s := by
  unfold asInjected
  simp [h]

@[simp] theorem kept_mismatchAt (s : State) (pair : PairId) (thread kind lane : Nat) :
    kept (mismatchAt s pair thread kind lane) = kept s := by
  unfold mismatchAt; split <;> simp

@[simp] theorem kept_retirePair (s : State) (pr : PairId) (reason : Nat) :
    kept (retirePair s pr reason) = kept s := by simp [retirePair]

@[simp] theorem kept_clearL1 (s : State) (p : PierId) (n : Nat) : kept (clearL1 s p n) = kept s := by simp [clearL1]

@[simp] theorem kept_loseThread (s : State) (th : ThreadId) : kept (loseThread s th) = kept s := by simp [loseThread]

@[simp] theorem kept_endBerthOps (s : State) (pr : PairId) : kept (endBerthOps s pr) = kept s := by simp [endBerthOps]

@[simp] theorem kept_loseBerth (s : State) (p : PierId) (k : Fin 16) (pr : PairId) (reason : Nat) :
    kept (loseBerth s p k pr reason) = kept s := by simp [loseBerth]

@[simp] theorem kept_wantHandover (s : State) (p : PierId) (k : Fin 16) (pr : PairId) (reason : Nat) :
    kept (wantHandover s p k pr reason) = kept s := by
  unfold wantHandover; split <;> simp

@[simp] theorem kept_moveBerth (s : State) (p : PierId) (k : Fin 16) (old new : PairId) (reason since : Nat) :
    kept (moveBerth s p k old new reason since) = kept s := by simp [moveBerth]

@[simp] theorem kept_resendStores (s : State) (b : Nat) : kept (resendStores s b) = kept s := by simp [resendStores]

@[simp] theorem kept_adoptBy (s : State) (b a : Nat) : kept (adoptBy s b a) = kept s := by simp [adoptBy]

@[simp] theorem kept_strand (s : State) (b : Nat) : kept (strand s b) = kept s := by simp [strand]

end Sys2Proof.Machine
end

