-- ==== Sys2Proof/Laws/KeptKeys.lean ====
section
/-! SUPPORT. What keys, coprocessors and engines leave alone (Safety.kept). -/

set_option linter.unusedSimpArgs false

set_option linter.unusedTactic false
set_option linter.unreachableTactic false
set_option linter.unusedVariables false

namespace Sys2Proof.Machine

@[simp] theorem kept_setKey (s : State) (h : Nat) (k : Key) : kept (setKey s h k) = kept s := by simp [setKey]

@[simp] theorem kept_modKey (s : State) (h : Nat) (f : Key → Key) : kept (modKey s h f) = kept s := by simp [modKey]

@[simp] theorem kept_journalAdd (s : State) (r : JRec) : kept (journalAdd s r) = kept s := by simp [journalAdd]

@[simp] theorem kept_persistKey (s : State) (h st : Nat) : kept (persistKey s h st) = kept s := by simp [persistKey]

@[simp] theorem kept_draw (s : State) (h n : Nat) : kept (draw s h n).1 = kept s := by
  unfold draw
  repeat' (first
    | (simp [kept_ite_fst]; done)
    | (refine (kept_foldl _ (fun s x => ?_) _ _).trans ?_)
    | (split <;> (try (rename_i h; have e := congrArg (fun p => kept p.1) h; simp at e; rw [e]; clear e h)))
    | dsimp only)

@[simp] theorem kept_reapKeys (s : State) : kept (reapKeys s) = kept s := by simp [reapKeys]

@[simp] theorem kept_destroyDone (s : State) : kept (destroyDone s) = kept s := by
  unfold destroyDone
  repeat' (first
    | (simp; done)
    | (refine (kept_foldl _ (fun s x => ?_) _ _).trans ?_)
    | (split <;> (try (rename_i h; have e := congrArg (fun p => kept p.1) h; simp at e; rw [e]; clear e h)))
    | dsimp only)

@[simp] theorem kept_settleKey (s : State) (h : Nat) : kept (settleKey s h) = kept s := by
  unfold settleKey
  repeat' (first
    | (simp; done)
    | (refine (kept_foldl _ (fun s x => ?_) _ _).trans ?_)
    | (split <;> (try (rename_i h; have e := congrArg (fun p => kept p.1) h; simp at e; rw [e]; clear e h)))
    | dsimp only)

@[simp] theorem kept_streamFills (s : State) (th : ThreadId) (ls : List Loc) :
    kept (streamFills s th ls) = kept s := by simp [streamFills]

@[simp] theorem kept_readRange (s : State) (th : ThreadId) (ls : List Loc) :
    kept (readRange s th ls).1 = kept s := by simp [readRange]

@[simp] theorem kept_writeLocs (s : State) (th : ThreadId) (ls : List Loc) (bs : List Byte) :
    kept (writeLocs s th ls bs).1 = kept s := by
  unfold writeLocs
  repeat' (first
    | (simp [kept_ite_fst]; done)
    | (refine (kept_foldl _ (fun s x => ?_) _ _).trans ?_)
    | (split <;> (try (rename_i h; have e := congrArg (fun p => kept p.1) h; simp at e; rw [e]; clear e h)))
    | dsimp only)

@[simp] theorem kept_writeRange (s : State) (th : ThreadId) (va : Nat) (bs : List Byte) :
    kept (writeRange s th va bs).1 = kept s := by
  unfold writeRange; split <;> simp

@[simp] theorem kept_readInputs (s : State) (th : ThreadId) (l : List (Bool × List Loc)) :
    kept (readInputs s th l).1 = kept s := by
  induction l generalizing s with
  | nil => rfl
  | cons a r ih =>
    obtain ⟨w, ls⟩ := a
    have h := kept_readRange s th ls
    simp only [readInputs]
    split
    · exact ih s
    · rw [ih, h]

/-- An access under holds keeps what it keeps by itself. -/

@[simp] theorem kept_withLines (s : State) (th : ThreadId) (lines : List Nat) (go : State → State)
    (h : ∀ s, kept (go s) = kept s) :
    kept (withLines s th lines go) = kept s := by
  unfold withLines
  dsimp only
  split
  · exact h s
  · split
    · simp
    · split
      · split <;> simp
      · simp [h]

@[simp] theorem kept_setCp (s : State) (th : ThreadId) (n : Fin 3) (r : CpReq) :
    kept (setCp s th n r) = kept s := by simp [setCp]

@[simp] theorem kept_cpPost (s : State) (th : ThreadId) (n : Fin 3) (w : Word) : kept (cpPost s th n w) = kept s := by
  unfold cpPost
  repeat' (first
    | (simp; done)
    | (refine (kept_foldl _ (fun s x => ?_) _ _).trans ?_)
    | (split <;> (try (rename_i h; have e := congrArg (fun p => kept p.1) h; simp at e; rw [e]; clear e h)))
    | dsimp only)

@[simp] theorem kept_submitDone (s : State) (th : ThreadId) (cd : RegField) (v : Word) :
    kept (submitDone s th cd v) = kept s := by simp [submitDone]

@[simp] theorem kept_cpSubmit (th : ThreadId) (n : Fin 3) (cd ca : RegField) (size cfn : Nat)
    (rw precise toUnit : Bool) (prep : State → List Byte → Except Word (List DataRange)) (s : State) : kept (cpSubmit th n cd ca size cfn rw precise toUnit prep s) = kept s := by
  unfold cpSubmit
  repeat' (first
    | (simp; done)
    | (refine (kept_foldl _ (fun s x => ?_) _ _).trans ?_)
    | (refine (kept_issue _ _ (fun s => ?_) _).trans ?_)
    | (refine (kept_withLines _ _ _ _ (fun s => ?_)).trans ?_)
    | (split <;> (try (rename_i h; have e := congrArg (fun p => kept p.1) h; simp at e; rw [e]; clear e h)))
    | dsimp only)

@[simp] theorem kept_setSlot (s : State) (th : ThreadId) (n : Nat) (k : KeySlot) :
    kept (setSlot s th n k) = kept s := by simp [setSlot]

@[simp] theorem kept_writeAll (s : State) (th : ThreadId) (l : List (Nat × List Byte)) : kept (writeAll s th l).1 = kept s := by
  induction l generalizing s with
  | nil => rfl
  | cons a r ih =>
    obtain ⟨va, bs⟩ := a
    have h := kept_writeRange s th va bs
    simp only [writeAll]
    split
    · rw [ih, h]
    · exact h

@[simp] theorem kept_runEncrypt (s : State) (th : ThreadId) (b : List Byte) (ins : List (List Byte)) :
    kept (runEncrypt s th b ins).1 = kept s := by
  unfold runEncrypt
  repeat' (first
    | (simp [kept_ite_fst]; done)
    | (refine (kept_foldl _ (fun s x => ?_) _ _).trans ?_)
    | (split <;> (try (rename_i h; have e := congrArg (fun p => kept p.1) h; simp at e; rw [e]; clear e h)))
    | dsimp only)

@[simp] theorem kept_runDecrypt (s : State) (th : ThreadId) (b : List Byte) (ins : List (List Byte)) :
    kept (runDecrypt s th b ins).1 = kept s := by
  unfold runDecrypt
  repeat' (first
    | (simp [kept_ite_fst]; done)
    | (refine (kept_foldl _ (fun s x => ?_) _ _).trans ?_)
    | (split <;> (try (rename_i h; have e := congrArg (fun p => kept p.1) h; simp at e; rw [e]; clear e h)))
    | dsimp only)

@[simp] theorem kept_runMacGen (s : State) (th : ThreadId) (b : List Byte) (ins : List (List Byte)) :
    kept (runMacGen s th b ins).1 = kept s := by
  unfold runMacGen
  repeat' (first
    | (simp [kept_ite_fst]; done)
    | (refine (kept_foldl _ (fun s x => ?_) _ _).trans ?_)
    | (split <;> (try (rename_i h; have e := congrArg (fun p => kept p.1) h; simp at e; rw [e]; clear e h)))
    | dsimp only)

@[simp] theorem kept_runMacVer (s : State) (th : ThreadId) (b : List Byte) (ins : List (List Byte)) :
    kept (runMacVer s th b ins).1 = kept s := by
  unfold runMacVer
  repeat' (first
    | (simp [kept_ite_fst]; done)
    | (refine (kept_foldl _ (fun s x => ?_) _ _).trans ?_)
    | (split <;> (try (rename_i h; have e := congrArg (fun p => kept p.1) h; simp at e; rw [e]; clear e h)))
    | dsimp only)

@[simp] theorem kept_runPin (s : State) (th : ThreadId) (b : List Byte) (ins : List (List Byte)) :
    kept (runPin s th b ins).1 = kept s := by
  unfold runPin
  repeat' (first
    | (simp [kept_ite_fst]; done)
    | (refine (kept_foldl _ (fun s x => ?_) _ _).trans ?_)
    | (split <;> (try (rename_i h; have e := congrArg (fun p => kept p.1) h; simp at e; rw [e]; clear e h)))
    | dsimp only)

@[simp] theorem kept_runEmv (s : State) (th : ThreadId) (b : List Byte) (ins : List (List Byte)) :
    kept (runEmv s th b ins).1 = kept s := by
  unfold runEmv
  repeat' (first
    | (simp [kept_ite_fst]; done)
    | (refine (kept_foldl _ (fun s x => ?_) _ _).trans ?_)
    | (split <;> (try (rename_i h; have e := congrArg (fun p => kept p.1) h; simp at e; rw [e]; clear e h)))
    | dsimp only)

@[simp] theorem kept_runCp1 (s : State) (th : ThreadId) (cfn : Nat) (b : List Byte) (ins : List (List Byte)) :
    kept (runCp1 s th cfn b ins).1 = kept s := by
  unfold runCp1; split <;> simp

@[simp] theorem kept_hashEnd (s : State) (th : ThreadId) (b : List Byte) (x : HashArea) (digest : List Byte) :
    kept (hashEnd s th b x digest).1 = kept s := by
  unfold hashEnd; split <;> simp

@[simp] theorem kept_runSm3 (s : State) (th : ThreadId) (b : List Byte) (ins : List (List Byte)) :
    kept (runSm3 s th b ins).1 = kept s := by
  unfold runSm3
  repeat' (first
    | (simp [kept_ite_fst]; done)
    | (refine (kept_foldl _ (fun s x => ?_) _ _).trans ?_)
    | (split <;> (try (rename_i h; have e := congrArg (fun p => kept p.1) h; simp at e; rw [e]; clear e h)))
    | dsimp only)

@[simp] theorem kept_runHmac (s : State) (th : ThreadId) (b : List Byte) (ins : List (List Byte)) :
    kept (runHmac s th b ins).1 = kept s := by
  unfold runHmac
  repeat' (first
    | (simp [kept_ite_fst]; done)
    | (refine (kept_foldl _ (fun s x => ?_) _ _).trans ?_)
    | (split <;> (try (rename_i h; have e := congrArg (fun p => kept p.1) h; simp at e; rw [e]; clear e h)))
    | dsimp only)

/-- A slot instruction keeps what its request keeps. -/

@[simp] theorem kept_slotInstr (th : ThreadId) (cd ca : RegField) (f : State → Nat → State × Word)
    (h : ∀ s n, kept (f s n).1 = kept s) (s : State) : kept (slotInstr th cd ca f s) = kept s := by
  unfold slotInstr
  refine kept_issue _ _ (fun s => ?_) _
  simp [h]

/-- A request that draws values keeps what its service keeps. -/

@[simp] theorem kept_withDraw (s : State) (h : Nat) (k : Key) (n : Nat) (go : State → Nat → Nat → State × Served)
    (hg : ∀ s a b, kept (go s a b).1 = kept s) : kept (withDraw s h k n go).1 = kept s := by
  have e := kept_draw s h n
  unfold withDraw
  split
  · rfl
  · split
    · exact hg _ _ _
    · split
      · rename_i x; rw [x] at e; exact e
      · rename_i x; rw [x] at e; rw [hg]; exact e

@[simp] theorem kept_serveDerive (s : State) (r : SReq) (t : Nat) (b : List Byte) : kept (serveDerive s r t b).1 = kept s := by
  unfold serveDerive
  repeat' (first
    | (simp [kept_ite_fst]; done)
    | (refine (kept_foldl _ (fun s x => ?_) _ _).trans ?_)
    | (refine (kept_withDraw _ _ _ _ _ (fun s a b => ?_)).trans ?_)
    | (split <;> (try (rename_i h; have e := congrArg (fun p => kept p.1) h; simp at e; rw [e]; clear e h)))
    | dsimp only)

@[simp] theorem kept_monoSet (s : State) (h kid c seq : Nat) : kept (monoSet s h kid c seq) = kept s := by
  unfold monoSet
  repeat' (first
    | (simp; done)
    | (refine (kept_foldl _ (fun s x => ?_) _ _).trans ?_)
    | (split <;> (try (rename_i h; have e := congrArg (fun p => kept p.1) h; simp at e; rw [e]; clear e h)))
    | dsimp only)

@[simp] theorem kept_serveDukpt (s : State) (r : SReq) (t : Nat) (b : List Byte) : kept (serveDukpt s r t b).1 = kept s := by
  unfold serveDukpt
  repeat' (first
    | (simp [kept_ite_fst]; done)
    | (refine (kept_foldl _ (fun s x => ?_) _ _).trans ?_)
    | (refine (kept_withDraw _ _ _ _ _ (fun s a b => ?_)).trans ?_)
    | (split <;> (try (rename_i h; have e := congrArg (fun p => kept p.1) h; simp at e; rw [e]; clear e h)))
    | dsimp only)

@[simp] theorem kept_serveLoad (s : State) (r : SReq) (t : Nat) (b : List Byte) : kept (serveLoad s r t b).1 = kept s := by
  unfold serveLoad
  repeat' (first
    | (simp [kept_ite_fst]; done)
    | (refine (kept_foldl _ (fun s x => ?_) _ _).trans ?_)
    | (refine (kept_withDraw _ _ _ _ _ (fun s a b => ?_)).trans ?_)
    | (split <;> (try (rename_i h; have e := congrArg (fun p => kept p.1) h; simp at e; rw [e]; clear e h)))
    | dsimp only)

@[simp] theorem kept_serveUnwrap (s : State) (r : SReq) (t : Nat) (b : List Byte) (text : List Byte) :
    kept (serveUnwrap s r t b text).1 = kept s := by
  unfold serveUnwrap
  repeat' (first
    | (simp [kept_ite_fst]; done)
    | (refine (kept_foldl _ (fun s x => ?_) _ _).trans ?_)
    | (split <;> (try (rename_i h; have e := congrArg (fun p => kept p.1) h; simp at e; rw [e]; clear e h)))
    | dsimp only)

@[simp] theorem kept_serveWrap (s : State) (r : SReq) (th : ThreadId) (t : Nat) (b : List Byte) :
    kept (serveWrap s r th t b).1 = kept s := by
  unfold serveWrap
  repeat' (first
    | (simp [kept_ite_fst]; done)
    | (refine (kept_foldl _ (fun s x => ?_) _ _).trans ?_)
    | (refine (kept_withDraw _ _ _ _ _ (fun s a b => ?_)).trans ?_)
    | (split <;> (try (rename_i h; have e := congrArg (fun p => kept p.1) h; simp at e; rw [e]; clear e h)))
    | dsimp only)

@[simp] theorem kept_serveJob (s : State) (r : SReq) (j : Job) : kept (serveJob s r j).1 = kept s := by
  unfold serveJob
  split
  · rfl
  · split
    · rfl
    · dsimp only
      split
      · rfl
      · rename_i u _
        have e := kept_draw s u.1 1
        split
        · rename_i x; rw [x] at e; exact e
        · rename_i x; rw [x] at e; exact e

@[simp] theorem kept_serve (s : State) (r : SReq) : kept (serve s r).1 = kept s := by
  unfold serve; split <;> (try split) <;> simp

@[simp] theorem kept_jobEnd (s : State) (id status resultLen value : Nat) :
    kept (jobEnd s id status resultLen value) = kept s := by simp [jobEnd]

@[simp] theorem kept_refuseReq (s : State) (r : SReq) (w : Word) : kept (refuseReq s r w) = kept s := by
  unfold refuseReq; split <;> simp

@[simp] theorem kept_unparkReqs (s : State) (w : SWait) : kept (unparkReqs s w) = kept s := by simp [unparkReqs]

@[simp] theorem kept_modJob (s : State) (id : Nat) (f : Job → Job) : kept (modJob s id f) = kept s := by simp [modJob]

@[simp] theorem kept_stamp (s : State) : kept (stamp s).1 = kept s := by simp [stamp]

@[simp] theorem kept_askKeys (s : State) (id : Nat) : kept (askKeys s id) = kept s := by
  unfold askKeys; split <;> simp

@[simp] theorem kept_grantContexts (n : Nat) (s : State) : kept (grantContexts n s) = kept s := by
  induction n generalizing s with
  | zero => rfl
  | succ n ih => 
    unfold grantContexts
    split
    · rfl
    · split <;> simp [ih]

@[simp] theorem kept_assignOne (s : State) (k : EngineKind) : kept (assignOne s k) = kept s := by
  unfold assignOne
  repeat' (first
    | (simp; done)
    | (refine (kept_foldl _ (fun s x => ?_) _ _).trans ?_)
    | (split <;> (try (rename_i h; have e := congrArg (fun p => kept p.1) h; simp at e; rw [e]; clear e h)))
    | dsimp only)

@[simp] theorem kept_iter (f : State → State) (h : ∀ s, kept (f s) = kept s) (n : Nat) (s : State) :
    kept (iter f n s) = kept s := by
  induction n generalizing s with
  | zero => rfl
  | succ n ih => rw [iter, ih, h]

@[simp] theorem kept_assignUnits (s : State) : kept (assignUnits s) = kept s := by
  unfold assignUnits
  simp

@[simp] theorem kept_jobResult (s : State) (id : Nat) (o : Nat × List Byte × Nat) :
    kept (jobResult s id o) = kept s := by simp [jobResult]

@[simp] theorem kept_jobReady (s : State) (id : Nat) : kept (jobReady s id) = kept s := by
  unfold jobReady; split <;> (try split) <;> simp

@[simp] theorem kept_jobEnter (s : State) (id : Nat) : kept (jobEnter s id) = kept s := by
  unfold jobEnter
  split
  · rfl
  · split
    · simp
    · split <;> simp

@[simp] theorem kept_dropJob (s : State) (id : Nat) : kept (dropJob s id) = kept s := by simp [dropJob]

@[simp] theorem kept_jobWrite (s : State) (j : Job) (off : Nat) (bs : List Byte) : kept (jobWrite s j off bs).1 = kept s := by
  unfold jobWrite; split <;> (try split) <;> simp

@[simp] theorem kept_setScuttling (s : State) (j : Job) (b : Bool) :
    kept (setScuttling s j b) = kept s := by simp [setScuttling]

@[simp] theorem kept_startScuttle (s : State) (id : Nat) (j : Job) (status : Nat) :
    kept (startScuttle s id j status) = kept s := by
  unfold startScuttle
  repeat' (first
    | (simp; done)
    | (refine (kept_foldl _ (fun s x => ?_) _ _).trans ?_)
    | (split <;> (try (rename_i h; have e := congrArg (fun p => kept p.1) h; simp at e; rw [e]; clear e h)))
    | dsimp only)

@[simp] theorem kept_jobStop (s : State) (id : Nat) (j : Job) : kept (jobStop s id j) = kept s := by
  unfold jobStop
  repeat' (first
    | (simp; done)
    | (refine (kept_foldl _ (fun s x => ?_) _ _).trans ?_)
    | (split <;> (try (rename_i h; have e := congrArg (fun p => kept p.1) h; simp at e; rw [e]; clear e h)))
    | dsimp only)

@[simp] theorem kept_scuttleFailed (s : State) (t : Nat) : kept (scuttleFailed s t) = kept s := by simp [scuttleFailed]

@[simp] theorem kept_builtinStart (s : State) (fn seq : Nat) : kept (builtinStart s fn seq) = kept s := by
  unfold builtinStart
  split
  · rfl
  · rename_i c _
    split
    · rfl
    · dsimp only
      generalize (if fDock c.desc then c.dock else c.source.getD []) = full
      split
      · simp
      · generalize (if fn = 0xF060 then full else full.drop 16) = src
        generalize (if fn = 0xF060 then ((0 : Nat), (0 : Nat), (0 : Nat)) else ((parseBlock full).variant, (parseBlock full).auxLen, (parseBlock full).aux)) = w
        obtain ⟨v, auxLen, aux⟩ := w
        dsimp only
        split
        · simp
        · split <;> simp

@[simp] theorem kept_mailEntry (s : State) (th : ThreadId) (i state status len value : Nat) :
    kept (mailEntry s th i state status len value) = kept s := by simp [mailEntry]

@[simp] theorem kept_jobSource (s : State) (id : Nat) (src : List Byte) : kept (jobSource s id src) = kept s := by
  unfold jobSource
  repeat' (first
    | (simp; done)
    | (refine (kept_foldl _ (fun s x => ?_) _ _).trans ?_)
    | (split <;> (try (rename_i h; have e := congrArg (fun p => kept p.1) h; simp at e; rw [e]; clear e h)))
    | dsimp only)

@[simp] theorem kept_runHash (s : State) (th : ThreadId) (cfn : Nat) (b : List Byte) (ins : List (List Byte)) :
    kept (runHash s th cfn b ins).1 = kept s := by
  unfold runHash; split <;> simp

@[simp] theorem kept_sourceRead (s : State) (seq : Nat) (r : ReadResult) : kept (sourceRead s seq r) = kept s := by
  unfold sourceRead
  repeat' (first
    | (simp; done)
    | (refine (kept_foldl _ (fun s x => ?_) _ _).trans ?_)
    | (split <;> (try (rename_i h; have e := congrArg (fun p => kept p.1) h; simp at e; rw [e]; clear e h)))
    | dsimp only)

@[simp] theorem kept_jobRead (s : State) (id : Nat) (r : ReadResult) : kept (jobRead s id r) = kept s := by
  unfold jobRead
  repeat' (first
    | (simp; done)
    | (refine (kept_foldl _ (fun s x => ?_) _ _).trans ?_)
    | (split <;> (try (rename_i h; have e := congrArg (fun p => kept p.1) h; simp at e; rw [e]; clear e h)))
    | dsimp only)

@[simp] theorem kept_hostLoadRead (s : State) (th : ThreadId) (r : ReadResult) : kept (hostLoadRead s th r) = kept s := by
  unfold hostLoadRead
  repeat' (first
    | (simp; done)
    | (refine (kept_foldl _ (fun s x => ?_) _ _).trans ?_)
    | (split <;> (try (rename_i h; have e := congrArg (fun p => kept p.1) h; simp at e; rw [e]; clear e h)))
    | dsimp only)

@[simp] theorem kept_tallyEnd (s : State) (th : ThreadId) (o : TallyOut) (l : List (Nat × List Byte)) :
    kept (tallyEnd s th o l).1 = kept s := by simp [tallyEnd]

@[simp] theorem kept_runTally (s : State) (th : ThreadId) (cfn at_ : Nat) (b : List Byte) (ins : List (List Byte)) :
    kept (runTally s th cfn at_ b ins).1 = kept s := by
  unfold runTally
  extract_lets p formats s1
  have h : kept s1 = kept s := by simp [s1]
  clear_value s1 formats
  generalize tallyOp formats s1.freeCtr cfn b ins = o
  cases o with
  | none => exact h
  | some o => exact (kept_tallyEnd _ _ _ _).trans h

@[simp] theorem kept_tallySubmit (th : ThreadId) (cd ca : RegField) (cfn : Nat) (s : State) :
    kept (tallySubmit th cd ca cfn s) = kept s := by simp [tallySubmit]

@[simp] theorem kept_runRequest (s : State) (th : ThreadId) (n : Fin 3) : kept (runRequest s th n) = kept s := by
  unfold runRequest
  split
  · rename_i cfn at_ b ins _
    have h : kept (if n = 0 then runTally s th cfn at_ b ins else if n = 1 then runCp1 s th cfn b ins
        else runHash s th cfn b ins).1 = kept s := by
      split
      · simp
      · split <;> simp
    dsimp only
    simp only [kept_cpPost]
    exact h
  · rfl

end Sys2Proof.Machine
end

