-- ==== Sys2Proof/Laws/KeptMail.lean ====
section
/-! SUPPORT. What mailbox commands and faults leave alone (Safety.kept). -/

set_option linter.unusedSimpArgs false

set_option linter.unusedTactic false
set_option linter.unreachableTactic false
set_option linter.unusedVariables false

namespace Sys2Proof.Machine

@[simp] theorem kept_mbRefuse (s : State) (m : MbReq) (status detail : Nat) :
    kept (mbRefuse s m status detail) = kept s := by simp [mbRefuse]

@[simp] theorem kept_mbBusy (s : State) (p : Port) (r : MbRun) : kept (mbBusy s p r) = kept s := by simp [mbBusy]

/-- What a command's effect makes of a state is reached by burns of OTP alone. -/

def ActKeeps (s : State) : MbAct → Prop
  | .fail _ _ => True
  | .done t _ => Keeps s t
  | .ends t _ _ _ => Keeps s t
  | .wait t _ _ _ _ => Keeps s t
  | .again t => Keeps s t
  | .gone t => Keeps s t

/-- The same of a mailbox command. -/

def CmdKeeps (c : MbCmd) : Prop := ∀ s m b, ActKeeps s (c.act s m b)

theorem keeps_mbProceed (c : MbCmd) (h : CmdKeeps c) (m : MbReq) (s : State) : Keeps s (mbProceed c m s) := by
  have k := h s m (mbBody m)
  unfold mbProceed
  dsimp only
  cases e : c.act s m (mbBody m) <;> rw [e] at k <;> dsimp only
  · exact Keeps.of_kept (by simp)
  all_goals first
    | (split
       · exact Keeps.of_kept (by simp)
       · exact Keeps.trans k (Keeps.of_kept (by simp)))
    | exact Keeps.trans k (Keeps.of_kept (by simp))
    | exact k

theorem keeps_mbStart (c : MbCmd) (h : CmdKeeps c) (m : MbReq) (s : State) : Keeps s (mbStart c m s) := by
  unfold mbStart
  split
  · exact Keeps.of_kept (by simp)
  · split
    · split <;> exact Keeps.of_kept (by simp)
    · exact keeps_mbProceed c h m s

theorem keeps_mbGo (c : MbCmd) (h : CmdKeeps c) (m : MbReq) (s : State) : Keeps s (mbGo c m s) := by
  unfold mbGo
  split
  · exact Keeps.refl s
  · dsimp only
    split
    · exact Keeps.of_kept (by simp)
    · split
      · exact Keeps.of_kept (by simp)
      · split
        · exact Keeps.of_kept (by simp)
        · exact Keeps.trans (Keeps.of_kept (by simp)) (keeps_mbStart c h m _)

@[simp] theorem kept_saveConf (s : State) : kept (saveConf s) = kept s := by simp [saveConf]

theorem cmdKeeps_GetDeviceInfo : CmdKeeps cmdGetDeviceInfo := by
  intro s m b
  simp only [cmdGetDeviceInfo]
  repeat' split
  all_goals first
    | trivial
    | exact Keeps.of_kept (by simp)

theorem cmdKeeps_GetCaps : CmdKeeps cmdGetCaps := by
  intro s m b
  simp only [cmdGetCaps]
  repeat' split
  all_goals first
    | trivial
    | exact Keeps.of_kept (by simp)

@[simp] theorem kept_followManager (s : State) : kept (followManager s) = kept s := by simp [followManager]

@[simp] theorem kept_retarget (s : State) (p : Port) : kept (retarget s p) = kept s := by simp [retarget]

@[simp] theorem kept_takeHelm (s : State) (p : Port) (ms : Nat) : kept (takeHelm s p ms) = kept s := by simp [takeHelm]

theorem cmdKeeps_HelmAcquire : CmdKeeps cmdHelmAcquire := by
  intro s m b
  simp only [cmdHelmAcquire]
  repeat' split
  all_goals first
    | trivial
    | exact Keeps.of_kept (by simp)

theorem cmdKeeps_HelmRelease : CmdKeeps cmdHelmRelease := by
  intro s m b
  simp only [cmdHelmRelease]
  repeat' split
  all_goals first
    | trivial
    | exact Keeps.of_kept (by simp)

@[simp] theorem kept_setTime (s : State) (ns : Nat) (ppsEn tenEn : Bool) :
    kept (setTime s ns ppsEn tenEn) = kept s := by simp [setTime]

theorem cmdKeeps_TimeSet : CmdKeeps cmdTimeSet := by
  intro s m b
  simp only [cmdTimeSet]
  repeat' split
  all_goals first
    | trivial
    | exact Keeps.of_kept (by simp)

theorem cmdKeeps_TenantCreate : CmdKeeps cmdTenantCreate := by
  intro s m b
  simp only [cmdTenantCreate]
  repeat' split
  all_goals first
    | trivial
    | exact Keeps.of_kept (by simp)

@[simp] theorem kept_dropPort (s : State) (t : Nat) (p : Port) : kept (dropPort s t p) = kept s := by simp [dropPort]

theorem cmdKeeps_TenantConfigure : CmdKeeps cmdTenantConfigure := by
  intro s m b
  simp only [cmdTenantConfigure]
  repeat' split
  all_goals first
    | trivial
    | exact Keeps.of_kept (by simp)

theorem cmdKeeps_TenantQuiesce : CmdKeeps cmdTenantQuiesce := by
  intro s m b
  simp only [cmdTenantQuiesce]
  repeat' split
  all_goals first
    | trivial
    | exact Keeps.of_kept (by simp)

theorem cmdKeeps_TenantResume : CmdKeeps cmdTenantResume := by
  intro s m b
  simp only [cmdTenantResume]
  repeat' split
  all_goals first
    | trivial
    | exact Keeps.of_kept (by simp)

@[simp] theorem kept_destroyKeys (s : State) (t : Nat) : kept (destroyKeys s t) = kept s := by simp [destroyKeys]

@[simp] theorem kept_dropTenant (s : State) (t : Nat) : kept (dropTenant s t) = kept s := by simp [dropTenant]

theorem cmdKeeps_TenantDestroy : CmdKeeps cmdTenantDestroy := by
  intro s m b
  simp only [cmdTenantDestroy]
  repeat' split
  all_goals first
    | trivial
    | exact Keeps.of_kept (by simp)

@[simp] theorem kept_releaseHeld (n : Nat) (s : State) (t : Nat) : kept (releaseHeld n s t) = kept s := by
  induction n generalizing s with
  | zero => rfl
  | succ n ih => unfold releaseHeld; dsimp only; split <;> simp [ih]

theorem cmdKeeps_TenantResync : CmdKeeps cmdTenantResync := by
  intro s m b
  simp only [cmdTenantResync]
  repeat' split
  all_goals first
    | trivial
    | exact Keeps.of_kept (by simp)

theorem cmdKeeps_QueueCreate : CmdKeeps cmdQueueCreate := by
  intro s m b
  simp only [cmdQueueCreate]
  repeat' split
  all_goals first
    | trivial
    | exact Keeps.of_kept (by simp)

theorem cmdKeeps_QueueDestroy : CmdKeeps cmdQueueDestroy := by
  intro s m b
  simp only [cmdQueueDestroy]
  repeat' split
  all_goals first
    | trivial
    | exact Keeps.of_kept (by simp)

theorem cmdKeeps_ClassSet : CmdKeeps cmdClassSet := by
  intro s m b
  simp only [cmdClassSet]
  repeat' split
  all_goals first
    | trivial
    | exact Keeps.of_kept (by simp)

theorem cmdKeeps_PartitionMapSet : CmdKeeps cmdPartitionMapSet := by
  intro s m b
  simp only [cmdPartitionMapSet]
  repeat' split
  all_goals first
    | trivial
    | exact Keeps.of_kept (by simp)

@[simp] theorem kept_setPool (s : State) (t p : Nat) (v : Pool) : kept (setPool s t p v) = kept s := by simp [setPool]

theorem cmdKeeps_ChainPoolCreate : CmdKeeps cmdChainPoolCreate := by
  intro s m b
  simp only [cmdChainPoolCreate]
  repeat' split
  all_goals first
    | trivial
    | exact Keeps.of_kept (by simp)

theorem cmdKeeps_ChainPoolDestroy : CmdKeeps cmdChainPoolDestroy := by
  intro s m b
  simp only [cmdChainPoolDestroy]
  repeat' split
  all_goals first
    | trivial
    | exact Keeps.of_kept (by simp)

@[simp] theorem kept_keepImage (s : State) (idx k : Nat) : kept (keepImage s idx k) = kept s := by simp [keepImage]

theorem cmdKeeps_HandlerLoad : CmdKeeps cmdHandlerLoad := by
  intro s m b
  simp only [cmdHandlerLoad]
  repeat' split
  all_goals first
    | trivial
    | exact Keeps.of_kept (by simp)

theorem cmdKeeps_HandlerBind : CmdKeeps cmdHandlerBind := by
  intro s m b
  simp only [cmdHandlerBind]
  repeat' split
  all_goals first
    | trivial
    | exact Keeps.of_kept (by simp)

theorem cmdKeeps_FormatLoad : CmdKeeps cmdFormatLoad := by
  intro s m b
  simp only [cmdFormatLoad]
  split
  · trivial
  · generalize hs : List.foldl _ s (List.range 16) = s1
    have h : kept s1 = kept s := by
      rw [← hs]
      exact kept_foldl _ (fun s x => by simp) _ _
    split <;> exact Keeps.of_kept (by simpa using h)

theorem cmdKeeps_LedgerConfigure : CmdKeeps cmdLedgerConfigure := by
  intro s m b
  simp only [cmdLedgerConfigure]
  split
  · trivial
  · split
    · trivial
    · exact Keeps.of_kept (by simp)

theorem cmdKeeps_TideGet : CmdKeeps cmdTideGet := by
  intro s m b
  simp only [cmdTideGet]
  repeat' split
  all_goals first
    | trivial
    | exact Keeps.of_kept (by simp)

theorem cmdKeeps_ProofGet : CmdKeeps cmdProofGet := by
  intro s m b
  simp only [cmdProofGet]
  repeat' split
  all_goals first
    | trivial
    | exact Keeps.of_kept (by simp)

@[simp] theorem kept_trimMirrors (s : State) (num : Nat) : kept (trimMirrors s num) = kept s := by simp [trimMirrors]

theorem cmdKeeps_LedgerTrim : CmdKeeps cmdLedgerTrim := by
  intro s m b
  simp only [cmdLedgerTrim]
  refine Keeps.of_kept ?_
  split
  · simp
  · simp

@[simp] theorem kept_spareRow (s : State) (b row : Nat) : kept (spareRow s b row) = kept s := by simp [spareRow]

@[simp] theorem kept_hbmCorrected (s : State) (b pa : Nat) : kept (hbmCorrected s b pa) = kept s := by simp [hbmCorrected]

@[simp] theorem kept_hbmUncorrected (s : State) (b pa : Nat) : kept (hbmUncorrected s b pa) = kept s := by
  unfold hbmUncorrected; split <;> simp

@[simp] theorem kept_cacheCorrected (s : State) (island k i : Nat) :
    kept (cacheCorrected s island k i) = kept s := by simp [cacheCorrected]

@[simp] theorem kept_l1Uncorrected (s : State) (island k core i : Nat) : kept (l1Uncorrected s island k core i) = kept s := by
  unfold l1Uncorrected
  repeat' (first
    | (simp; done)
    | (refine (kept_foldl _ (fun s x => ?_) _ _).trans ?_)
    | (split <;> (try (rename_i h; have e := congrArg (fun p => kept p.1) h; simp at e; rw [e]; clear e h)))
    | dsimp only)

@[simp] theorem kept_cacheUncorrected (s : State) (island k core i pa : Nat) :
    kept (cacheUncorrected s island k core i pa) = kept s := by simp [cacheUncorrected]

theorem actKeeps_askReconf (s : State) (p : Port) (n : Nat) (b : Bool) : ActKeeps s (askReconf s p n b) := by
  unfold askReconf
  split
  · trivial
  · dsimp only
    split
    · trivial
    · split
      · exact Keeps.refl s
      · exact Keeps.of_kept (by simp)

theorem cmdKeeps_BerthSplit : CmdKeeps cmdBerthSplit := fun s m b => actKeeps_askReconf s m.port _ _

theorem cmdKeeps_BerthJoin : CmdKeeps cmdBerthJoin := fun s m b => actKeeps_askReconf s m.port _ _

@[simp] theorem kept_resumeReconf (s : State) (p : Port) (r : MbRun) : kept (resumeReconf s p r) = kept s := by
  unfold resumeReconf
  repeat' (first
    | (simp; done)
    | (refine (kept_foldl _ (fun s x => ?_) _ _).trans ?_)
    | (split <;> (try (rename_i h; have e := congrArg (fun p => kept p.1) h; simp at e; rw [e]; clear e h)))
    | dsimp only)

theorem cmdKeeps_BerthRetire : CmdKeeps cmdBerthRetire := by
  intro s m b
  simp only [cmdBerthRetire]
  repeat' split
  all_goals first
    | trivial
    | exact Keeps.of_kept (by simp)

@[simp] theorem kept_retryHbm (s : State) (b : Nat) : kept (retryHbm s b) = kept s := by simp [retryHbm]

@[simp] theorem kept_failStranded (b : Nat) (acc : State × Nat) (q : Nat) : kept (failStranded b acc q).1 = kept acc.1 := by
  obtain ⟨s, n⟩ := acc
  unfold failStranded
  dsimp only
  split
  · rfl
  · split
    · split <;> simp
    · simp

@[simp] theorem kept_resolveStranded (s : State) (b a : Nat) : kept (resolveStranded s b a).1 = kept s := by
  have fold : ∀ (l : List Nat) (acc : State × Nat), kept (l.foldl (failStranded b) acc).1 = kept acc.1 := by
    intro l
    induction l with
    | nil => intro acc; rfl
    | cons q l ih => intro acc; rw [List.foldl_cons, ih, kept_failStranded]
  unfold resolveStranded
  simp [fold]

theorem cmdKeeps_BasinRecover : CmdKeeps cmdBasinRecover := by
  intro s m b
  simp only [cmdBasinRecover]
  generalize fieldLe b 0 1 = k
  generalize hc : (strandedOf s k).isEmpty = c
  split
  · exact Keeps.of_kept (kept_setBasin _ _ _)
  · exact Keeps.of_kept (kept_setBasin _ _ _)
  · cases c
    · exact Keeps.of_kept (kept_retryHbm _ _)
    · exact True.intro
  · cases c
    · cases mirrorOf s k with
      | none => exact True.intro
      | some a => exact Keeps.of_kept (kept_resolveStranded _ _ _)
    · exact True.intro

theorem kept_injectError (s : State) (n kind pa : Nat) (f : State → State) (h : injectError s n kind pa = some f) (t : State) :
    kept (f t) = kept t := by
  unfold injectError at h
  dsimp only at h
  split at h
  · cases hb : berthOf s n with
    | none => simp [hb] at h
    | some e => simp [hb] at h; rw [← h.2]; simp
  · cases hb : berthOf s n with
    | none => simp [hb] at h
    | some e => simp [hb] at h; rw [← h]; simp
  · cases hb : cacheSpot s n pa with
    | none => simp [hb] at h
    | some e => simp [hb] at h; rw [← h]; simp
  · cases hb : cacheSpot s n pa with
    | none => simp [hb] at h
    | some e => simp [hb] at h; rw [← h]; simp
  all_goals
    split at h
    · injection h with h; rw [← h]; simp
    · cases h

theorem cmdKeeps_ErrorInject : CmdKeeps cmdErrorInject := by
  intro s m b
  simp only [cmdErrorInject]
  split
  · trivial
  · rename_i go hg
    have h := kept_injectError s _ _ _ go hg
    exact Keeps.of_kept (by simp [h])

theorem cmdKeeps_ThermalStatus : CmdKeeps cmdThermalStatus := by
  intro s m b
  simp only [cmdThermalStatus]
  repeat' split
  all_goals first
    | trivial
    | exact Keeps.of_kept (by simp)

theorem cmdKeeps_LogbookRead : CmdKeeps cmdLogbookRead := by
  intro s m b
  simp only [cmdLogbookRead]
  repeat' split
  all_goals first
    | trivial
    | exact Keeps.of_kept (by simp)

theorem cmdKeeps_LogbookClear : CmdKeeps cmdLogbookClear := by
  intro s m b
  simp only [cmdLogbookClear]
  repeat' split
  all_goals first
    | trivial
    | exact Keeps.of_kept (by simp)

theorem cmdKeeps_DiagRun : CmdKeeps cmdDiagRun := by
  intro s m b
  simp only [cmdDiagRun]
  repeat' split
  all_goals first
    | trivial
    | exact Keeps.of_kept (by simp)

@[simp] theorem kept_setSlotAt (s : State) (n : Nat) (x : Slot) : kept (setSlotAt s n x) = kept s := by simp [setSlotAt]

end Sys2Proof.Machine
end

