-- ==== Sys2Proof/Laws/KeptRoad.lean ====
section
/-! SUPPORT. What the Hawser and the roadstead leave alone (Safety.kept). -/

set_option linter.unusedSimpArgs false

set_option linter.unusedTactic false
set_option linter.unreachableTactic false
set_option linter.unusedVariables false

namespace Sys2Proof.Machine

@[simp] theorem kept_setLink (s : State) (l : Nat) (v : HLink) : kept (setLink s l v) = kept s := by simp [setLink]

@[simp] theorem kept_setPeer (s : State) (q : Nat) (v : Peer) : kept (setPeer s q v) = kept s := by simp [setPeer]

@[simp] theorem kept_setMirror (s : State) (q : Nat) (v : Mirror) : kept (setMirror s q v) = kept s := by simp [setMirror]

@[simp] theorem kept_linkActive (s : State) (l : Nat) : kept (linkActive s l) = kept s := by simp [linkActive]

@[simp] theorem kept_linkTold (s : State) (l : Nat) : kept (linkTold s l) = kept s := by simp [linkTold]

@[simp] theorem kept_sendRoad (s : State) (q vc : Nat) (msg : TxMsg) (bytes : Nat) :
    kept (sendRoad s q vc msg bytes) = kept s := by simp [sendRoad]

@[simp] theorem kept_pumpLink (s : State) (l : Nat) : kept (pumpLink s l) = kept s := by simp [pumpLink]

@[simp] theorem kept_startRetrain (s : State) (l : Nat) : kept (startRetrain s l) = kept s := by simp [startRetrain]

@[simp] theorem kept_countNak (s : State) (l : Nat) : kept (countNak s l) = kept s := by simp [countNak]

@[simp] theorem kept_resendFrom (s : State) (l n : Nat) : kept (resendFrom s l n) = kept s := by simp [resendFrom]

@[simp] theorem kept_creditBooks (s : State) (l vc : Nat) : kept (creditBooks s l vc) = kept s := by simp [creditBooks]

@[simp] theorem kept_takeAck (s : State) (l : Nat) (ack : Option (BitVec 12)) (cvc credits : Nat) :
    kept (takeAck s l ack cvc credits) = kept s := by simp [takeAck]

@[simp] theorem kept_gapSeen (s : State) (l : Nat) : kept (gapSeen s l) = kept s := by simp [gapSeen]

/-- The state in which a message arrives, is relayed or is discarded. -/

def Arrived.state : Arrived → State
  | .no s => s
  | .relay s => s
  | .here s => s

theorem kept_takeData (s : State) (h : FlitHdr) (vc : Nat) : kept (takeData s h vc).state = kept s := by
  unfold takeData
  extract_lets l s1 s2 v n c s3 s4 o f
  split
  · rfl
  · have e : kept s2 = kept s := by
      simp only [s2, s1]; split <;> simp
    have e4 : kept s4 = kept s := by simp [s4, s3, e]
    clear_value s2 s4
    repeat' split
    all_goals simp [Arrived.state, e, e4]

@[simp] theorem kept_linkUp (s : State) (l lanes : Nat) : kept (linkUp s l lanes) = kept s := by simp [linkUp]

@[simp] theorem kept_setMirroring (s : State) (m : Nat) : kept (setMirroring s m) = kept s := by simp [setMirroring]

@[simp] theorem kept_beginSeed (s : State) : kept (beginSeed s) = kept s := by
  unfold beginSeed; split <;> simp

@[simp] theorem kept_regain (s : State) (q : Nat) : kept (regain s q) = kept s := by
  unfold regain
  repeat' (first
    | (simp; done)
    | (refine (kept_foldl _ (fun s x => ?_) _ _).trans ?_)
    | (split <;> (try (rename_i h; have e := congrArg (fun p => kept p.1) h; simp at e; rw [e]; clear e h)))
    | dsimp only)

@[simp] theorem kept_takeItem (q : Nat) (s : State) (x : MirrorItem) : kept (takeItem q s x) = kept s := by
  unfold takeItem; split <;> simp

@[simp] theorem kept_mirrorCheck (s : State) : kept (mirrorCheck s) = kept s := by
  unfold mirrorCheck; split <;> simp

@[simp] theorem kept_pumpMirror (s : State) : kept (pumpMirror s) = kept s := by
  unfold pumpMirror
  repeat' (first
    | (simp; done)
    | (refine (kept_foldl _ (fun s x => ?_) _ _).trans ?_)
    | (split <;> (try (rename_i h; have e := congrArg (fun p => kept p.1) h; simp at e; rw [e]; clear e h)))
    | dsimp only)

@[simp] theorem kept_pumpRoad (s : State) : kept (pumpRoad s) = kept s := by simp [pumpRoad]

@[simp] theorem kept_takenOver (s : State) : kept (takenOver s) = kept s := by simp [takenOver]

theorem cmdKeeps_RoadsteadJoin : CmdKeeps cmdRoadsteadJoin := by
  intro s m b
  simp only [cmdRoadsteadJoin]
  repeat' split
  all_goals first
    | trivial
    | exact Keeps.of_kept (by simp)

theorem cmdKeeps_RoadsteadStatus : CmdKeeps cmdRoadsteadStatus := by
  intro s m b
  simp only [cmdRoadsteadStatus]
  repeat' split
  all_goals first
    | trivial
    | exact Keeps.of_kept (by simp)

@[simp] theorem kept_takeRecord (q : Nat) (m : Mirror) (s : State) (r : LRec) : kept (takeRecord q m s r) = kept s := by
  unfold takeRecord
  repeat' (first
    | (simp; done)
    | (refine (kept_foldl _ (fun s x => ?_) _ _).trans ?_)
    | (split <;> (try (rename_i h; have e := congrArg (fun p => kept p.1) h; simp at e; rw [e]; clear e h)))
    | dsimp only)

@[simp] theorem kept_takeTenant (q : Nat) (m : Mirror) (s : State) (t : Nat) :
    kept (takeTenant q m s t) = kept s := by simp [takeTenant]

theorem cmdKeeps_PartnerTakeover : CmdKeeps cmdPartnerTakeover := by
  intro s m b
  simp only [cmdPartnerTakeover]
  repeat' split
  all_goals first
    | trivial
    | exact Keeps.of_kept (by simp)

end Sys2Proof.Machine
end

