-- ==== Sys2Proof/Laws/KeptPower.lean ====
section
/-! SUPPORT. What power, start-up and resets leave alone (Safety.kept). -/

set_option linter.unusedSimpArgs false

set_option linter.unusedTactic false
set_option linter.unreachableTactic false
set_option linter.unusedVariables false

namespace Sys2Proof.Machine

@[simp] theorem kept_setWarden (s : State) (b : Nat) (w : Warden) : kept (setWarden s b w) = kept s := by simp [setWarden]

@[simp] theorem kept_stepClock (s : State) (b mhz : Nat) : kept (stepClock s b mhz) = kept s := by simp [stepClock]

@[simp] theorem kept_setClock (s : State) (b : Nat) : kept (setClock s b) = kept s := by simp [setClock]

@[simp] theorem kept_setClocks (s : State) : kept (setClocks s) = kept s := by simp [setClocks]

@[simp] theorem kept_islandAlarm (s : State) (n kind : Nat) (reading : Int) :
    kept (islandAlarm s n kind reading) = kept s := by simp [islandAlarm]

@[simp] theorem kept_alarms (s : State) (n volt : Nat) (temp : Int) (droops : Nat) :
    kept (alarms s n volt temp droops) = kept s := by simp [alarms]

@[simp] theorem kept_enterGale (s : State) (n : Nat) (temp : Int) : kept (enterGale s n temp) = kept s := by simp [enterGale]

@[simp] theorem kept_enterStorm (s : State) (n : Nat) (temp : Int) : kept (enterStorm s n temp) = kept s := by simp [enterStorm]

@[simp] theorem kept_brownOut (s : State) (n volt : Nat) : kept (brownOut s n volt) = kept s := by simp [brownOut]

@[simp] theorem kept_pairStates (s : State) (p busy spare : Nat) :
    kept (pairStates s p busy spare) = kept s := by simp [pairStates]

@[simp] theorem kept_sharedState (s : State) (p st : Nat) : kept (sharedState s p st) = kept s := by simp [sharedState]

@[simp] theorem kept_devState (s : State) (st : DevSt) (code : Nat) : kept (devState s st code) = kept s := by simp [devState]

@[simp] theorem kept_wakePier (s : State) (p : Nat) : kept (wakePier s p) = kept s := by simp [wakePier]

@[simp] theorem kept_wakeAll (s : State) : kept (wakeAll s) = kept s := by simp [wakeAll]

@[simp] theorem kept_wakeDone (s : State) : kept (wakeDone s) = kept s := by
  unfold wakeDone; split <;> (try split) <;> simp

@[simp] theorem kept_deliverStores (s : State) (n : Nat) : kept (deliverStores s n) = kept s := by simp [deliverStores]

@[simp] theorem kept_timeAtEdge (s : State) : kept (timeAtEdge s) = kept s := by
  unfold timeAtEdge; split <;> simp

@[simp] theorem kept_losePps (s : State) : kept (losePps s) = kept s := by simp [losePps]

@[simp] theorem kept_disciplineEdge (s : State) : kept (disciplineEdge s) = kept s := by
  unfold disciplineEdge
  repeat' (first
    | (simp; done)
    | (refine (kept_foldl _ (fun s x => ?_) _ _).trans ?_)
    | (split <;> (try (rename_i h; have e := congrArg (fun p => kept p.1) h; simp at e; rw [e]; clear e h)))
    | dsimp only)

@[simp] theorem kept_powerReset (s : State) (warm : Bool) : kept (powerReset s warm) = kept s := by simp [powerReset]

@[simp] theorem kept_islOn (s : State) (n : Nat) : kept (islOn s n) = kept s := by simp [islOn]

theorem keeps_finishBurn (s : State) : Keeps s (finishBurn s) :=
  ⟨rfl, rfl, otpGrown_arb _ _ (fun _ => Nat.le_max_left _ _), fun h => ⟨h.1, by simpa [finishBurn] using h.2.1, h.2.2⟩⟩

theorem keeps_enterStep2 (s : State) : Keeps s (enterStep2 s) := by
  refine Keeps.trans (t := finishBurn { s with
    dev := { s.dev with st := .starting, bootFails := if s.dev.startInProgress then s.dev.bootFails + 1 else s.dev.bootFails,
                        startInProgress := true, startedAt := nowNs s, bank := s.otp.settings.getLast?.getD [] },
    clock := { s.clock with off := 0x8000000000000000 * 1000 - Int.ofNat s.clock.ps, timeSet := false } }) ?_ ?_
  · exact Keeps.trans (Keeps.of_kept (by simp)) (keeps_finishBurn _)
  · exact Keeps.of_kept (by simp [enterStep2])

@[simp] theorem kept_coreLost (s : State) : kept (coreLost s) = kept s := by simp [coreLost]

@[simp] theorem kept_newEpoch (s : State) : kept (newEpoch s) = kept s := by simp [newEpoch]

@[simp] theorem kept_startPier (failed : List Nat) (s : State) (p : Nat) :
    kept (startPier failed s p) = kept s := by simp [startPier]

@[simp] theorem kept_startIsland (failed : List Nat) (s : State) (n : Nat) :
    kept (startIsland failed s n) = kept s := by simp [startIsland]

@[simp] theorem kept_startBasins (failed : List Nat) (s : State) : kept (startBasins failed s) = kept s := by simp [startBasins]

@[simp] theorem kept_startSources (s : State) : kept (startSources s) = kept s := by simp [startSources]

@[simp] theorem kept_applyConf (s : State) : kept (applyConf s) = kept s := by simp [applyConf]

@[simp] theorem kept_openPorts (s : State) : kept (openPorts s) = kept s := by simp [openPorts]

@[simp] theorem kept_startService (failed : List Nat) (s : State) : kept (startService failed s) = kept s := by
  unfold startService; split <;> simp

@[simp] theorem kept_dropsAt (s : State) (n dropped : Nat) : kept (dropsAt s n dropped) = kept s := by simp [dropsAt]

@[simp] theorem kept_dropStores (s : State) (n : Nat) : kept (dropStores s n) = kept s := by simp [dropStores]

@[simp] theorem kept_restartJob (s : State) (id : Nat) : kept (restartJob s id) = kept s := by
  unfold restartJob; split <;> simp

@[simp] theorem kept_engineReset (s : State) (k : EngineKind) (code u : Nat) (island : Nat) :
    kept (engineReset s k code u island) = kept s := by
  unfold engineReset; split <;> simp

@[simp] theorem kept_strongroomReset (s : State) : kept (strongroomReset s) = kept s := by simp [strongroomReset]

@[simp] theorem kept_strongroomStart (s : State) : kept (strongroomStart s) = kept s := by simp [strongroomStart]

@[simp] theorem kept_pilotDown (s : State) : kept (pilotDown s) = kept s := by simp [pilotDown]

@[simp] theorem kept_pairReset (s : State) (pr : PairId) : kept (pairReset s pr) = kept s := by
  unfold pairReset; split <;> simp

@[simp] theorem kept_resetWork (s : State) (n : Nat) : kept (resetWork s n) = kept s := by
  unfold resetWork
  dsimp only
  by_cases h : n / 128 < 4 ∧ n % 128 < 72
  · rw [dif_pos h]; exact kept_pairReset _ _
  · rw [dif_neg h]
    clear h
    simp only [kept_ite]
    repeat' (first | rfl | (simp; done) | split)

@[simp] theorem kept_pilotBack (s : State) : kept (pilotBack s) = kept s := by
  unfold pilotBack
  repeat' (first
    | (simp; done)
    | (refine (kept_foldl _ (fun s x => ?_) _ _).trans ?_)
    | (split <;> (try (rename_i h; have e := congrArg (fun p => kept p.1) h; simp at e; rw [e]; clear e h)))
    | dsimp only)

@[simp] theorem kept_islandBack (s : State) (n : Nat) : kept (islandBack s n) = kept s := by simp [islandBack]

end Sys2Proof.Machine
end

