-- ==== Sys2Proof/Laws/KeptFirmware.lean ====
section
/-! SUPPORT. What firmware, registers, SPDM and the mailbox commands together leave alone (Safety.kept). -/

set_option linter.unusedSimpArgs false

set_option linter.unusedTactic false
set_option linter.unreachableTactic false
set_option linter.unusedVariables false

namespace Sys2Proof.Machine

theorem cmdKeeps_PowerPolicySet : CmdKeeps cmdPowerPolicySet := by
  intro s m b
  simp only [cmdPowerPolicySet]
  split
  · trivial
  · exact Keeps.of_kept (by simp)

@[simp] theorem kept_setPhase (s : State) (n : Nat) : kept (setPhase s n) = kept s := by simp [setPhase]

@[simp] theorem kept_openStage (s : State) (len : Nat) (pldm : Bool) :
    kept (openStage s len pldm) = kept s := by simp [openStage]

@[simp] theorem kept_stageBytes (s : State) (off : Nat) (bs : List Byte) :
    kept (stageBytes s off bs) = kept s := by simp [stageBytes]

@[simp] theorem kept_closeStage (s : State) : kept (closeStage s).1 = kept s := by
  unfold closeStage; split <;> simp

theorem cmdKeeps_FwStageBegin : CmdKeeps cmdFwStageBegin := by
  intro s m b
  simp only [cmdFwStageBegin]
  repeat' split
  all_goals first
    | trivial
    | exact Keeps.of_kept (by simp)

theorem cmdKeeps_FwStageData : CmdKeeps cmdFwStageData := by
  intro s m b
  simp only [cmdFwStageData]
  repeat' split
  all_goals first
    | trivial
    | exact Keeps.of_kept (by simp)

theorem cmdKeeps_FwStageEnd : CmdKeeps cmdFwStageEnd := by
  intro s m b
  simp only [cmdFwStageEnd]
  repeat' split
  all_goals first
    | trivial
    | exact Keeps.of_kept (by simp)

@[simp] theorem kept_endActivate (s : State) (st phase comp : Nat) :
    kept (endActivate s st phase comp) = kept s := by simp [endActivate]

theorem keeps_nameSlot (s : State) : Keeps s (nameSlot s) :=
  ⟨rfl, rfl, otpGrown_arb _ _ (fun _ => Nat.le_max_left _ _), fun h => ⟨h.1, by simpa [nameSlot] using h.2.1, h.2.2⟩⟩

theorem keeps_confirmFw (s : State) : Keeps s (confirmFw s) :=
  (keeps_nameSlot s).trans (Keeps.of_kept (by simp [confirmFw]))

theorem keeps_beginProbation (s : State) : Keeps s (beginProbation s) := by
  unfold beginProbation
  extract_lets f s1
  have h : Keeps s s1 := Keeps.of_kept (by simp [s1])
  clear_value s1
  split
  · exact h.trans ((keeps_confirmFw s1).trans (Keeps.of_kept (by simp only [kept_mk]; rfl)))
  · exact h.trans (Keeps.of_kept (by simp))

theorem keeps_beginHead (s : State) : Keeps s (beginHead s) := by
  unfold beginHead
  extract_lets f s1
  have h : Keeps s s1 := Keeps.of_kept (by simp [s1])
  clear_value s1
  split
  · exact h.trans (keeps_beginProbation s1)
  · split
    · exact h.trans (Keeps.of_kept (by simp))
    · exact h

theorem keeps_beginSwitching (s : State) : Keeps s (beginSwitching s) :=
  Keeps.trans (Keeps.of_kept (by simp)) (keeps_beginHead _)

theorem keeps_slipActivate (s : State) : Keeps s (slipActivate s) :=
  (keeps_nameSlot s).trans (Keeps.trans (Keeps.of_kept (by simp)) (keeps_enterStep2 _))

@[simp] theorem kept_swapPair (s : State) (p : PierId) (k : Fin 16) (old new : Nat) :
    kept (swapPair s p k old new) = kept s := by simp [swapPair]

@[simp] theorem kept_swapStep (s : State) (p : PierId) : kept (swapStep s p) = kept s := by
  unfold swapStep
  repeat' (first
    | (simp; done)
    | (refine (kept_foldl _ (fun s x => ?_) _ _).trans ?_)
    | (split <;> (try (rename_i h; have e := congrArg (fun p => kept p.1) h; simp at e; rw [e]; clear e h)))
    | dsimp only)

theorem keeps_fwPoll (s : State) : Keeps s (fwPoll s) := by
  unfold fwPoll
  split
  · exact Keeps.refl s
  · split
    · split
      · exact Keeps.refl s
      · exact keeps_beginSwitching s
    · split
      · exact Keeps.of_kept (by simp)
      · exact Keeps.refl s

@[simp] theorem kept_switchEffect (s : State) (k : Nat) : kept (switchEffect s k) = kept s := by simp [switchEffect]

@[simp] theorem kept_revertFw (s : State) (comp : Nat) : kept (revertFw s comp) = kept s := by simp [revertFw]

@[simp] theorem kept_armFw (s : State) (limit : Nat) : kept (armFw s limit) = kept s := by simp [armFw]

theorem cmdKeeps_FwActivate : CmdKeeps cmdFwActivate := by
  intro s m b
  simp only [cmdFwActivate]
  split
  · exact Keeps.refl s
  · split
    · trivial
    · split
      · trivial
      · split
        · split
          · exact keeps_slipActivate s
          · trivial
        · exact Keeps.of_kept (by simp)

theorem cmdKeeps_FwConfirm : CmdKeeps cmdFwConfirm := by
  intro s m b
  simp only [cmdFwConfirm]
  split
  · exact keeps_confirmFw s
  · trivial

@[simp] theorem kept_revertConfirmed (s : State) : kept (revertConfirmed s) = kept s := by simp [revertConfirmed]

theorem cmdKeeps_FwRevert : CmdKeeps cmdFwRevert := by
  intro s m b
  simp only [cmdFwRevert]
  repeat' split
  all_goals first
    | trivial
    | exact Keeps.of_kept (by simp)

theorem cmdKeeps_FwStatus : CmdKeeps cmdFwStatus := by
  intro s m b
  simp only [cmdFwStatus]
  repeat' split
  all_goals first
    | trivial
    | exact Keeps.of_kept (by simp)

theorem cmdKeeps_SettingsBurn : CmdKeeps cmdSettingsBurn := by
  intro s m b
  simp only [cmdSettingsBurn]
  split
  · trivial
  · rename_i hn
    refine Keeps.trans (t := if b.all (· == 0) then s else { s with otp := { s.otp with settings := s.otp.settings ++ [b] } }) ?_
      (Keeps.of_kept (by simp))
    split
    · exact Keeps.refl s
    · refine ⟨rfl, rfl, ⟨Nat.le_refl _, List.prefix_refl _, List.prefix_append _ _, rfl, fun _ => Nat.le_refl _⟩, fun h => ?_⟩
      refine ⟨h.1, h.2.1, h.2.2.1, ?_⟩
      simp only [List.length_append, List.length_singleton]
      omega

theorem cmdKeeps_EnterSlipway : CmdKeeps cmdEnterSlipway := by
  intro s m b
  simp only [cmdEnterSlipway]
  exact Keeps.trans (Keeps.of_kept (by simp)) (keeps_enterStep2 _)

theorem cmdKeeps_LifecycleAdvance : CmdKeeps cmdLifecycleAdvance := by
  intro s m b
  simp only [cmdLifecycleAdvance]
  split
  · trivial
  · rename_i hn
    split
    · trivial
    · refine ⟨rfl, rfl, ⟨Nat.le_succ _, List.prefix_refl _, List.prefix_refl _, rfl, fun _ => Nat.le_refl _⟩, fun h => ?_⟩
      refine ⟨?_, h.2⟩
      simp only
      omega

theorem cmdKeeps_OwnerKeyRotate : CmdKeeps cmdOwnerKeyRotate := by
  intro s m b
  simp only [cmdOwnerKeyRotate]
  split
  · trivial
  · rename_i hn
    refine ⟨rfl, rfl, ⟨Nat.le_refl _, List.prefix_append _ _, List.prefix_refl _, rfl, fun _ => Nat.le_refl _⟩, fun h => ?_⟩
    refine ⟨h.1, h.2.1, ?_, h.2.2.2⟩
    simp only [List.length_append, List.length_singleton]
    omega

@[simp] theorem kept_pldmCode (s : State) (n : Nat) : kept (pldmCode s n) = kept s := by simp [pldmCode]

@[simp] theorem kept_addKey (s : State) (p : Port) (h : Nat) (k : Key) : kept (addKey s p h k) = kept s := by simp [addKey]

theorem actKeeps_makeKey (s u : State) (h : Keeps s u) (p : Port) (target : Nat) (k : Key) (aux need : Nat) :
    ActKeeps s (makeKey u p target k aux need) := by
  unfold makeKey
  split
  · trivial
  · split
    · trivial
    · exact h.trans (Keeps.of_kept (by simp))

theorem actKeeps_importBlock (s : State) (p : Port) (b : List Byte) : ActKeeps s (importBlock s p b) := by
  unfold importBlock
  dsimp only
  split
  · trivial
  · split
    · trivial
    · exact actKeeps_makeKey s s (Keeps.refl s) _ _ _ _ _

theorem actKeeps_ite (s : State) (c : Prop) [Decidable c] (a b : MbAct) (ha : ActKeeps s a) (hb : ActKeeps s b) :
    ActKeeps s (if c then a else b) := by
  split
  · exact ha
  · exact hb

theorem actKeeps_importComponent (s : State) (p : Port) (b : List Byte) : ActKeeps s (importComponent s p b) := by
  unfold importComponent
  extract_lets target count a part fresh c1 c2 sr put key
  have hp : ∀ x, kept (put x) = kept s := fun _ => rfl
  clear_value put key c2
  refine actKeeps_ite _ _ _ _ True.intro ?_
  split
  · exact True.intro
  · refine actKeeps_ite _ _ _ _ True.intro (actKeeps_ite _ _ _ _ True.intro (actKeeps_ite _ _ _ _ ?_ ?_))
    · exact Keeps.of_kept (hp _)
    · exact actKeeps_makeKey s _ (Keeps.of_kept (hp _)) _ _ _ _ _

theorem actKeeps_importPublic (s : State) (p : Port) (b : List Byte) : ActKeeps s (importPublic s p b) := by
  unfold importPublic
  dsimp only
  split
  · trivial
  · exact actKeeps_makeKey s s (Keeps.refl s) _ _ _ _ _

theorem cmdKeeps_KeyImportBlock : CmdKeeps cmdKeyImportBlock := by
  intro s m b
  simp only [cmdKeyImportBlock]
  repeat' split
  all_goals first
    | trivial
    | exact actKeeps_importBlock s m.port b
    | exact actKeeps_importComponent s m.port b
    | exact actKeeps_importPublic s m.port b

theorem cmdKeeps_KeyGenerate : CmdKeeps cmdKeyGenerate := by
  intro s m b
  simp only [cmdKeyGenerate]
  split
  · trivial
  · split
    · trivial
    · split
      · trivial
      · exact actKeeps_makeKey s _ (Keeps.of_kept (by simp)) _ _ _ _ _

theorem cmdKeeps_KeyExportBlock : CmdKeeps cmdKeyExportBlock := by
  intro s m b
  simp only [cmdKeyExportBlock]
  split
  · trivial
  · trivial
  · split
    · trivial
    · split
      · trivial
      · split
        · trivial
        · split
          · trivial
          · generalize hd : draw _ _ _ = r
            have e := congrArg (fun p => kept p.1) hd
            simp at e
            obtain ⟨t, x⟩ := r
            cases x <;> exact Keeps.of_kept (by simpa using e.symm)

theorem cmdKeeps_KeyRetire : CmdKeeps cmdKeyRetire := by
  intro s m b
  simp only [cmdKeyRetire]
  split
  · trivial
  · split
    · exact Keeps.of_kept (by simp)
    · split
      · exact Keeps.refl s
      · exact Keeps.of_kept (by split <;> simp)

theorem cmdKeeps_KeyQuery : CmdKeeps cmdKeyQuery := by
  intro s m b
  simp only [cmdKeyQuery]
  repeat' split
  all_goals first
    | trivial
    | exact Keeps.of_kept (by simp)

theorem cmdKeeps_KeystoreConfigure : CmdKeeps cmdKeystoreConfigure := by
  intro s m b
  simp only [cmdKeystoreConfigure]
  repeat' split
  all_goals first
    | trivial
    | exact Keeps.of_kept (by simp)

theorem cmdKeeps_TenantLabelSet : CmdKeeps cmdTenantLabelSet := by
  intro s m b
  simp only [cmdTenantLabelSet]
  repeat' split
  all_goals first
    | trivial
    | exact Keeps.of_kept (by simp)

/-- Every command of the mailbox reaches its next state by burns of OTP alone. -/

theorem cmdKeeps_find (op : Nat) (c : MbCmd) (h : mbFind op = some c) : CmdKeeps c := by
  have hm : c ∈ mbTable := List.mem_of_find?_eq_some h
  simp only [mbTable, List.cons_append, List.nil_append, List.mem_cons, List.not_mem_nil, or_false] at hm
  rcases hm with rfl | rfl | rfl | rfl | rfl | rfl | rfl | rfl | rfl | rfl | rfl | rfl | rfl | rfl | rfl | rfl | rfl | rfl | rfl | rfl | rfl | rfl | rfl | rfl | rfl | rfl | rfl | rfl | rfl | rfl | rfl | rfl | rfl | rfl | rfl | rfl | rfl | rfl | rfl | rfl | rfl | rfl | rfl | rfl | rfl | rfl | rfl | rfl | rfl | rfl | rfl | rfl | rfl | rfl | rfl
  · exact cmdKeeps_GetDeviceInfo
  · exact cmdKeeps_GetCaps
  · exact cmdKeeps_HelmAcquire
  · exact cmdKeeps_HelmRelease
  · exact cmdKeeps_TimeSet
  · exact cmdKeeps_TenantCreate
  · exact cmdKeeps_TenantConfigure
  · exact cmdKeeps_TenantQuiesce
  · exact cmdKeeps_TenantResume
  · exact cmdKeeps_TenantDestroy
  · exact cmdKeeps_TenantResync
  · exact cmdKeeps_QueueCreate
  · exact cmdKeeps_QueueDestroy
  · exact cmdKeeps_ClassSet
  · exact cmdKeeps_PartitionMapSet
  · exact cmdKeeps_ChainPoolCreate
  · exact cmdKeeps_ChainPoolDestroy
  · exact cmdKeeps_KeyImportBlock
  · exact cmdKeeps_KeyGenerate
  · exact cmdKeeps_KeyExportBlock
  · exact cmdKeeps_KeyRetire
  · exact cmdKeeps_KeyQuery
  · exact cmdKeeps_KeystoreConfigure
  · exact cmdKeeps_TenantLabelSet
  · exact cmdKeeps_HandlerLoad
  · exact cmdKeeps_HandlerBind
  · exact cmdKeeps_FormatLoad
  · exact cmdKeeps_LedgerConfigure
  · exact cmdKeeps_TideGet
  · exact cmdKeeps_ProofGet
  · exact cmdKeeps_LedgerTrim
  · exact cmdKeeps_BerthSplit
  · exact cmdKeeps_BerthJoin
  · exact cmdKeeps_BerthRetire
  · exact cmdKeeps_BasinRecover
  · exact cmdKeeps_ErrorInject
  · exact cmdKeeps_PowerPolicySet
  · exact cmdKeeps_ThermalStatus
  · exact cmdKeeps_LogbookRead
  · exact cmdKeeps_LogbookClear
  · exact cmdKeeps_DiagRun
  · exact cmdKeeps_FwStageBegin
  · exact cmdKeeps_FwStageData
  · exact cmdKeeps_FwStageEnd
  · exact cmdKeeps_FwActivate
  · exact cmdKeeps_FwConfirm
  · exact cmdKeeps_FwRevert
  · exact cmdKeeps_FwStatus
  · exact cmdKeeps_SettingsBurn
  · exact cmdKeeps_EnterSlipway
  · exact cmdKeeps_LifecycleAdvance
  · exact cmdKeeps_OwnerKeyRotate
  · exact cmdKeeps_RoadsteadJoin
  · exact cmdKeeps_RoadsteadStatus
  · exact cmdKeeps_PartnerTakeover

theorem keeps_mbAgain (s : State) (r : MbRun) (c : MbCmd) (h : CmdKeeps c) (m : MbReq) : Keeps s (mbAgain s r c m) := by
  unfold mbAgain
  split
  · exact keeps_mbStart c h m s
  · split
    · exact Keeps.refl s
    · exact keeps_mbProceed c h m s

theorem keeps_mbPollPort (s : State) (p : Port) : Keeps s (mbPollPort s p) := by
  unfold mbPollPort
  split
  · exact Keeps.refl s
  · split
    · exact Keeps.refl s
    · split
      · split
        · rename_i h
          exact keeps_mbAgain s _ _ (cmdKeeps_find _ _ h) _
        · exact Keeps.of_kept (by simp)
        · exact Keeps.refl s
      · repeat' split
        all_goals exact Keeps.of_kept (by simp)

theorem keeps_mbPoll (s : State) : Keeps s (mbPoll s) :=
  (keeps_mbPollPort s .a).trans ((keeps_mbPollPort _ .b).trans (keeps_fwPoll _))

theorem keeps_journalled (s : State) (r : JRec) : Keeps s (journalled s r) := by
  unfold journalled
  split
  · exact Keeps.of_kept (by simp)
  · exact Keeps.of_kept (by simp)
  · split <;> exact Keeps.of_kept (by simp)
  · refine Keeps.trans (Keeps.of_kept ?_) (Keeps.foldl _ ?_ _ _)
    · simp
    · intro s p
      split
      · split
        · rename_i h
          split
          · exact keeps_mbProceed _ (cmdKeeps_find _ _ h) _ s
          · exact Keeps.refl s
        · exact Keeps.refl s
      · exact Keeps.refl s
  · exact Keeps.refl s

@[simp] theorem kept_mbIgnored (s : State) (p : Port) : kept (mbIgnored s p) = kept s := by simp [mbIgnored]

@[simp] theorem kept_mbUnknown (s : State) (op : Nat) (m : MbReq) : kept (mbUnknown s op m) = kept s := by
  unfold mbUnknown; split <;> simp

theorem keeps_goWrite (s : State) (p : Port) : Keeps s (goWrite s p) := by
  unfold goWrite
  extract_lets x s1 b s2
  have h : Keeps s s1 := Keeps.of_kept (by simp [s1])
  clear_value s1
  split
  · rename_i e
    exact h.trans (keeps_mbGo _ (cmdKeeps_find _ _ e) _ _)
  · refine h.trans (Keeps.of_kept ?_)
    repeat' split
    all_goals simp [s2]

theorem keeps_mailWrite (s : State) (p : Port) (off size v : Nat) : Keeps s (mailWrite s p off size v) := by
  unfold mailWrite
  dsimp only
  repeat' split
  all_goals first
    | exact Keeps.of_kept (by simp)
    | exact keeps_goWrite s p

@[simp] theorem kept_coalWrite (s : State) (src v : Nat) : kept (coalWrite s src v) = kept s := by simp [coalWrite]

@[simp] theorem kept_lighthouseWrite (s : State) (off size v : Nat) :
    kept (lighthouseWrite s off size v) = kept s := by simp [lighthouseWrite]

theorem keeps_pfWrite (s : State) (p : Port) (off size v : Nat) : Keeps s (pfWrite s p off size v) := by
  unfold pfWrite
  dsimp only
  repeat' split
  all_goals first
    | exact Keeps.of_kept (by simp)
    | exact keeps_mailWrite s p off size v

@[simp] theorem kept_vfWrite (s : State) (p : Port) (t : Nat) (off size v : Nat) :
    kept (vfWrite s p t off size v) = kept s := by simp [vfWrite]

@[simp] theorem kept_deviceWrite (s : State) (island off size v : Nat) : kept (deviceWrite s island off size v) = kept s := by
  unfold deviceWrite; split <;> (try split) <;> simp

@[simp] theorem kept_pathChange (s : State) (p : Port) (t : Nat) : kept (pathChange s p t) = kept s := by simp [pathChange]

@[simp] theorem kept_busMaster (s : State) (p : Port) (f : FnSel) (b : Bool) : kept (busMaster s p f b) = kept s := by
  unfold busMaster; split <;> simp

@[simp] theorem kept_vfMseWrite (s : State) (p : Port) (b : Bool) : kept (vfMseWrite s p b) = kept s := by simp [vfMseWrite]

@[simp] theorem kept_vfEnableWrite (s : State) (p : Port) (n : Nat) :
    kept (vfEnableWrite s p n) = kept s := by simp [vfEnableWrite]

@[simp] theorem kept_pmeStatusWrite (s : State) (p : Port) (f : FnSel) (b : Bool) : kept (pmeStatusWrite s p f b) = kept s := by
  unfold pmeStatusWrite; split <;> simp

@[simp] theorem kept_atsWrite (s : State) (p : Port) (f : FnSel) (b : Bool) : kept (atsWrite s p f b) = kept s := by
  unfold atsWrite; split <;> simp

@[simp] theorem kept_aspmWrite (s : State) (p : Port) (b : Bool) : kept (aspmWrite s p b) = kept s := by simp [aspmWrite]

theorem keeps_idle_queue (s : State) : (idle s).pending = s.pending ∧ (idle s).clock.ps = (tick s).clock.ps := by
  have h := keeps_mbPoll (tick s)
  have k : kept (idle s) = kept (mbPoll (tick s)) := by simp [idle]
  simp only [kept, Prod.mk.injEq] at k
  exact ⟨k.1.trans h.1, k.2.1.trans h.2.1⟩

@[simp] theorem kept_setSpdm (s : State) (p : Port) (v : Spdm) : kept (setSpdm s p v) = kept s := by simp [setSpdm]

@[simp] theorem kept_spdmAnswer (s : State) (r : SpdmReq) (code : Nat) (body : List Byte) :
    kept (spdmAnswer s r code body) = kept s := by simp [spdmAnswer]

@[simp] theorem kept_spdmError (s : State) (r : SpdmReq) (code : Nat) :
    kept (spdmError s r code) = kept s := by simp [spdmError]

/-- A request of SPDM keeps what its answer keeps. -/

@[simp] theorem kept_spdmTake (s : State) (r : SpdmReq) (go : State → State) (h : ∀ s, kept (go s) = kept s) :
    kept (spdmTake s r go) = kept s := by
  unfold spdmTake
  split
  · rfl
  · split
    · exact h s
    · split
      · split <;> simp [h]
      · simp

@[simp] theorem kept_spdmReady (s : State) (r : SpdmReq) (go : State → State) (h : ∀ s, kept (go s) = kept s) :
    kept (spdmReady s r go) = kept s := by
  unfold spdmReady
  refine kept_spdmTake _ _ _ (fun s => ?_)
  split <;> simp [h]

@[simp] theorem kept_inSession (s : State) (r : SpdmReq) (go : Nat → SpdmSession → State → State)
    (h : ∀ k x s, kept (go k x s) = kept s) : kept (inSession s r go) = kept s := by
  unfold inSession
  refine kept_spdmTake _ _ _ (fun s => ?_)
  split
  · simp
  · split
    · simp [h]
    · simp

@[simp] theorem kept_ideKm (s : State) (r : SpdmReq) : kept (ideKm s r) = kept s := by
  unfold ideKm
  repeat' (first
    | (simp; done)
    | (refine (kept_foldl _ (fun s x => ?_) _ _).trans ?_)
    | (split <;> (try (rename_i h; have e := congrArg (fun p => kept p.1) h; simp at e; rw [e]; clear e h)))
    | dsimp only)

@[simp] theorem kept_tdispMsg (s : State) (r : SpdmReq) : kept (tdispMsg s r) = kept s := by
  unfold tdispMsg
  repeat' (first
    | (simp; done)
    | (refine (kept_foldl _ (fun s x => ?_) _ _).trans ?_)
    | (split <;> (try (rename_i h; have e := congrArg (fun p => kept p.1) h; simp at e; rw [e]; clear e h)))
    | dsimp only)

end Sys2Proof.Machine
end

