-- ==== Sys2Proof/Laws/KeptCommands1.lean ====
section
/-! SUPPORT. What each command leaves alone (Safety.Keeps): the queue and the time of the timers stay, and OTP only gains burns. -/

set_option linter.unusedSimpArgs false

set_option linter.unusedTactic false
set_option linter.unreachableTactic false
set_option linter.unusedVariables false

namespace Sys2Proof.Machine

theorem keeps_execFence (th : ThreadId) (d a b : RegField) (s : State) (u : State) (h : execFence th d a b s = .next u) :
    Keeps s u := by
  cases h; exact Keeps.of_kept (by simp)

theorem keeps_execFenceLl (th : ThreadId) (d a b : RegField) (s : State) (u : State) (h : execFenceLl th d a b s = .next u) :
    Keeps s u := by
  cases h; exact Keeps.of_kept (by simp)

theorem keeps_execFenceSs (th : ThreadId) (d a b : RegField) (s : State) (u : State) (h : execFenceSs th d a b s = .next u) :
    Keeps s u := by
  cases h; exact Keeps.of_kept (by simp)

theorem keeps_execMoor (th : ThreadId) (d a b : RegField) (s : State) (u : State) (h : execMoor th d a b s = .next u) :
    Keeps s u := by
  cases h; exact Keeps.of_kept (by simp)

theorem keeps_execStoreCompletion (th : ThreadId) (id : Nat) (r : ReadResult) (s : State) (u : State)
    (h : execStoreCompletion th id r s = .next u) : Keeps s u := by
  cases h
  refine Keeps.of_kept ?_
  dsimp only; repeat' split
  all_goals first | (simp; done) | rfl

theorem keeps_execMoorTimerExpiry (th : ThreadId) (s : State) (u : State) (h : execMoorTimerExpiry th s = .next u) :
    Keeps s u := by
  cases h
  refine Keeps.of_kept ?_
  dsimp only; repeat' split
  all_goals first | (simp; done) | rfl

theorem keeps_execUncachedAdoptionTimeout (th : ThreadId) (s : State) (u : State)
    (h : execUncachedAdoptionTimeout th s = .next u) : Keeps s u := by
  cases h
  refine Keeps.of_kept ?_
  dsimp only; repeat' split
  all_goals first | (simp; done) | rfl

theorem keeps_execDclean (th : ThreadId) (d a b : RegField) (s : State) (u : State) (h : execDclean th d a b s = .next u) :
    Keeps s u := by
  unfold execDclean maint at h
  injection h with h
  refine Keeps.of_kept ?_
  rw [← h]
  repeat' (first
    | (simp; done)
    | (refine (kept_foldl _ (fun s x => ?_) _ _).trans ?_)
    | (refine (kept_issue _ _ (fun s => ?_) _).trans ?_)
    | (split <;> (try (rename_i h; have e := congrArg (fun p => kept p.1) h; simp at e; rw [e]; clear e h)) <;> (try (rename_i h; have e := kept_takeMsg _ _ _ _ _ h; rw [← e]; clear e h)))
    | dsimp only)

theorem keeps_execDinv (th : ThreadId) (d a b : RegField) (s : State) (u : State) (h : execDinv th d a b s = .next u) :
    Keeps s u := by
  unfold execDinv maint at h
  injection h with h
  refine Keeps.of_kept ?_
  rw [← h]
  repeat' (first
    | (simp; done)
    | (refine (kept_foldl _ (fun s x => ?_) _ _).trans ?_)
    | (refine (kept_issue _ _ (fun s => ?_) _).trans ?_)
    | (split <;> (try (rename_i h; have e := congrArg (fun p => kept p.1) h; simp at e; rw [e]; clear e h)) <;> (try (rename_i h; have e := kept_takeMsg _ _ _ _ _ h; rw [← e]; clear e h)))
    | dsimp only)

theorem keeps_execDclinv (th : ThreadId) (d a b : RegField) (s : State) (u : State) (h : execDclinv th d a b s = .next u) :
    Keeps s u := by
  unfold execDclinv maint at h
  injection h with h
  refine Keeps.of_kept ?_
  rw [← h]
  repeat' (first
    | (simp; done)
    | (refine (kept_foldl _ (fun s x => ?_) _ _).trans ?_)
    | (refine (kept_issue _ _ (fun s => ?_) _).trans ?_)
    | (split <;> (try (rename_i h; have e := congrArg (fun p => kept p.1) h; simp at e; rw [e]; clear e h)) <;> (try (rename_i h; have e := kept_takeMsg _ _ _ _ _ h; rw [← e]; clear e h)))
    | dsimp only)

theorem keeps_execRclean (th : ThreadId) (d a b : RegField) (s : State) (u : State) (h : execRclean th d a b s = .next u) :
    Keeps s u := by
  unfold execRclean maint at h
  injection h with h
  refine Keeps.of_kept ?_
  rw [← h]
  repeat' (first
    | (simp; done)
    | (refine (kept_foldl _ (fun s x => ?_) _ _).trans ?_)
    | (refine (kept_issue _ _ (fun s => ?_) _).trans ?_)
    | (split <;> (try (rename_i h; have e := congrArg (fun p => kept p.1) h; simp at e; rw [e]; clear e h)) <;> (try (rename_i h; have e := kept_takeMsg _ _ _ _ _ h; rw [← e]; clear e h)))
    | dsimp only)

theorem keeps_execRinv (th : ThreadId) (d a b : RegField) (s : State) (u : State) (h : execRinv th d a b s = .next u) :
    Keeps s u := by
  unfold execRinv maint at h
  injection h with h
  refine Keeps.of_kept ?_
  rw [← h]
  repeat' (first
    | (simp; done)
    | (refine (kept_foldl _ (fun s x => ?_) _ _).trans ?_)
    | (refine (kept_issue _ _ (fun s => ?_) _).trans ?_)
    | (split <;> (try (rename_i h; have e := congrArg (fun p => kept p.1) h; simp at e; rw [e]; clear e h)) <;> (try (rename_i h; have e := kept_takeMsg _ _ _ _ _ h; rw [← e]; clear e h)))
    | dsimp only)

theorem keeps_execIinv (th : ThreadId) (d a b : RegField) (s : State) (u : State) (h : execIinv th d a b s = .next u) :
    Keeps s u := by
  unfold execIinv at h
  injection h with h
  refine Keeps.of_kept ?_
  rw [← h]
  repeat' (first
    | (simp; done)
    | (refine (kept_foldl _ (fun s x => ?_) _ _).trans ?_)
    | (refine (kept_issue _ _ (fun s => ?_) _).trans ?_)
    | (split <;> (try (rename_i h; have e := congrArg (fun p => kept p.1) h; simp at e; rw [e]; clear e h)) <;> (try (rename_i h; have e := kept_takeMsg _ _ _ _ _ h; rw [← e]; clear e h)))
    | dsimp only)

theorem keeps_execClock (th : ThreadId) (d a b : RegField) (s : State) (u : State) (h : execClock th d a b s = .next u) :
    Keeps s u := by
  unfold execClock maint at h
  injection h with h
  refine Keeps.of_kept ?_
  rw [← h]
  repeat' (first
    | (simp; done)
    | (refine (kept_foldl _ (fun s x => ?_) _ _).trans ?_)
    | (refine (kept_issue _ _ (fun s => ?_) _).trans ?_)
    | (split <;> (try (rename_i h; have e := congrArg (fun p => kept p.1) h; simp at e; rw [e]; clear e h)) <;> (try (rename_i h; have e := kept_takeMsg _ _ _ _ _ h; rw [← e]; clear e h)))
    | dsimp only)

theorem keeps_execCunlock (th : ThreadId) (d a b : RegField) (s : State) (u : State) (h : execCunlock th d a b s = .next u) :
    Keeps s u := by
  unfold execCunlock maint at h
  injection h with h
  refine Keeps.of_kept ?_
  rw [← h]
  repeat' (first
    | (simp; done)
    | (refine (kept_foldl _ (fun s x => ?_) _ _).trans ?_)
    | (refine (kept_issue _ _ (fun s => ?_) _).trans ?_)
    | (split <;> (try (rename_i h; have e := congrArg (fun p => kept p.1) h; simp at e; rw [e]; clear e h)) <;> (try (rename_i h; have e := kept_takeMsg _ _ _ _ _ h; rw [← e]; clear e h)))
    | dsimp only)

theorem keeps_execBeqz (th : ThreadId) (a : RegField) (off : BitVec 10) (s : State) (u : State)
    (h : execBeqz th a off s = .next u) : Keeps s u := by
  cases h; exact Keeps.of_kept (by simp)

theorem keeps_execBnez (th : ThreadId) (a : RegField) (off : BitVec 10) (s : State) (u : State)
    (h : execBnez th a off s = .next u) : Keeps s u := by
  cases h; exact Keeps.of_kept (by simp)

theorem keeps_execBltz (th : ThreadId) (a : RegField) (off : BitVec 10) (s : State) (u : State)
    (h : execBltz th a off s = .next u) : Keeps s u := by
  cases h; exact Keeps.of_kept (by simp)

theorem keeps_execBgez (th : ThreadId) (a : RegField) (off : BitVec 10) (s : State) (u : State)
    (h : execBgez th a off s = .next u) : Keeps s u := by
  cases h; exact Keeps.of_kept (by simp)

theorem keeps_execBgtz (th : ThreadId) (a : RegField) (off : BitVec 10) (s : State) (u : State)
    (h : execBgtz th a off s = .next u) : Keeps s u := by
  cases h; exact Keeps.of_kept (by simp)

theorem keeps_execBlez (th : ThreadId) (a : RegField) (off : BitVec 10) (s : State) (u : State)
    (h : execBlez th a off s = .next u) : Keeps s u := by
  cases h; exact Keeps.of_kept (by simp)

theorem keeps_execBcs (th : ThreadId) (a : RegField) (off : BitVec 10) (s : State) (u : State)
    (h : execBcs th a off s = .next u) : Keeps s u := by
  cases h; exact Keeps.of_kept (by simp)

theorem keeps_execBcc (th : ThreadId) (a : RegField) (off : BitVec 10) (s : State) (u : State)
    (h : execBcc th a off s = .next u) : Keeps s u := by
  cases h; exact Keeps.of_kept (by simp)

theorem keeps_execBeq (th : ThreadId) (a b : RegField) (off : BitVec 8) (s : State) (u : State)
    (h : execBeq th a b off s = .next u) : Keeps s u := by
  cases h; exact Keeps.of_kept (by simp)

theorem keeps_execBne (th : ThreadId) (a b : RegField) (off : BitVec 8) (s : State) (u : State)
    (h : execBne th a b off s = .next u) : Keeps s u := by
  cases h; exact Keeps.of_kept (by simp)

theorem keeps_execBlt (th : ThreadId) (a b : RegField) (off : BitVec 8) (s : State) (u : State)
    (h : execBlt th a b off s = .next u) : Keeps s u := by
  cases h; exact Keeps.of_kept (by simp)

theorem keeps_execBge (th : ThreadId) (a b : RegField) (off : BitVec 8) (s : State) (u : State)
    (h : execBge th a b off s = .next u) : Keeps s u := by
  cases h; exact Keeps.of_kept (by simp)

theorem keeps_execBltu (th : ThreadId) (a b : RegField) (off : BitVec 8) (s : State) (u : State)
    (h : execBltu th a b off s = .next u) : Keeps s u := by
  cases h; exact Keeps.of_kept (by simp)

theorem keeps_execBgeu (th : ThreadId) (a b : RegField) (off : BitVec 8) (s : State) (u : State)
    (h : execBgeu th a b off s = .next u) : Keeps s u := by
  cases h; exact Keeps.of_kept (by simp)

theorem keeps_execJ (th : ThreadId) (off : BitVec 16) (s : State) (u : State) (h : execJ th off s = .next u) : Keeps s u := by
  cases h; exact Keeps.of_kept (by simp)

theorem keeps_execCallg1 (th : ThreadId) (off : BitVec 16) (s : State) (u : State) (h : execCallg1 th off s = .next u) :
    Keeps s u := by
  unfold execCallg1 callTo at h
  injection h with h
  refine Keeps.of_kept ?_
  rw [← h]
  repeat' (first
    | (simp; done)
    | (refine (kept_foldl _ (fun s x => ?_) _ _).trans ?_)
    | (refine (kept_issue _ _ (fun s => ?_) _).trans ?_)
    | (split <;> (try (rename_i h; have e := congrArg (fun p => kept p.1) h; simp at e; rw [e]; clear e h)) <;> (try (rename_i h; have e := kept_takeMsg _ _ _ _ _ h; rw [← e]; clear e h)))
    | dsimp only)

theorem keeps_execCallg2 (th : ThreadId) (off : BitVec 16) (s : State) (u : State) (h : execCallg2 th off s = .next u) :
    Keeps s u := by
  unfold execCallg2 callTo at h
  injection h with h
  refine Keeps.of_kept ?_
  rw [← h]
  repeat' (first
    | (simp; done)
    | (refine (kept_foldl _ (fun s x => ?_) _ _).trans ?_)
    | (refine (kept_issue _ _ (fun s => ?_) _).trans ?_)
    | (split <;> (try (rename_i h; have e := congrArg (fun p => kept p.1) h; simp at e; rw [e]; clear e h)) <;> (try (rename_i h; have e := kept_takeMsg _ _ _ _ _ h; rw [← e]; clear e h)))
    | dsimp only)

theorem keeps_execCallg3 (th : ThreadId) (off : BitVec 16) (s : State) (u : State) (h : execCallg3 th off s = .next u) :
    Keeps s u := by
  unfold execCallg3 callTo at h
  injection h with h
  refine Keeps.of_kept ?_
  rw [← h]
  repeat' (first
    | (simp; done)
    | (refine (kept_foldl _ (fun s x => ?_) _ _).trans ?_)
    | (refine (kept_issue _ _ (fun s => ?_) _).trans ?_)
    | (split <;> (try (rename_i h; have e := congrArg (fun p => kept p.1) h; simp at e; rw [e]; clear e h)) <;> (try (rename_i h; have e := kept_takeMsg _ _ _ _ _ h; rw [← e]; clear e h)))
    | dsimp only)

theorem keeps_execJr (th : ThreadId) (d a b : RegField) (s : State) (u : State) (h : execJr th d a b s = .next u) :
    Keeps s u := by
  cases h; exact Keeps.of_kept (by simp)

theorem keeps_execCallrg1 (th : ThreadId) (d a b : RegField) (s : State) (u : State) (h : execCallrg1 th d a b s = .next u) :
    Keeps s u := by
  unfold execCallrg1 callTo at h
  injection h with h
  refine Keeps.of_kept ?_
  rw [← h]
  repeat' (first
    | (simp; done)
    | (refine (kept_foldl _ (fun s x => ?_) _ _).trans ?_)
    | (refine (kept_issue _ _ (fun s => ?_) _).trans ?_)
    | (split <;> (try (rename_i h; have e := congrArg (fun p => kept p.1) h; simp at e; rw [e]; clear e h)) <;> (try (rename_i h; have e := kept_takeMsg _ _ _ _ _ h; rw [← e]; clear e h)))
    | dsimp only)

theorem keeps_execCallrg2 (th : ThreadId) (d a b : RegField) (s : State) (u : State) (h : execCallrg2 th d a b s = .next u) :
    Keeps s u := by
  unfold execCallrg2 callTo at h
  injection h with h
  refine Keeps.of_kept ?_
  rw [← h]
  repeat' (first
    | (simp; done)
    | (refine (kept_foldl _ (fun s x => ?_) _ _).trans ?_)
    | (refine (kept_issue _ _ (fun s => ?_) _).trans ?_)
    | (split <;> (try (rename_i h; have e := congrArg (fun p => kept p.1) h; simp at e; rw [e]; clear e h)) <;> (try (rename_i h; have e := kept_takeMsg _ _ _ _ _ h; rw [← e]; clear e h)))
    | dsimp only)

theorem keeps_execCallrg3 (th : ThreadId) (d a b : RegField) (s : State) (u : State) (h : execCallrg3 th d a b s = .next u) :
    Keeps s u := by
  unfold execCallrg3 callTo at h
  injection h with h
  refine Keeps.of_kept ?_
  rw [← h]
  repeat' (first
    | (simp; done)
    | (refine (kept_foldl _ (fun s x => ?_) _ _).trans ?_)
    | (refine (kept_issue _ _ (fun s => ?_) _).trans ?_)
    | (split <;> (try (rename_i h; have e := congrArg (fun p => kept p.1) h; simp at e; rw [e]; clear e h)) <;> (try (rename_i h; have e := kept_takeMsg _ _ _ _ _ h; rw [← e]; clear e h)))
    | dsimp only)

theorem keeps_execRet (th : ThreadId) (d a b : RegField) (s : State) (u : State) (h : execRet th d a b s = .next u) :
    Keeps s u := by
  unfold execRet at h
  injection h with h
  refine Keeps.of_kept ?_
  rw [← h]
  repeat' (first
    | (simp; done)
    | (refine (kept_foldl _ (fun s x => ?_) _ _).trans ?_)
    | (refine (kept_issue _ _ (fun s => ?_) _).trans ?_)
    | (split <;> (try (rename_i h; have e := congrArg (fun p => kept p.1) h; simp at e; rw [e]; clear e h)) <;> (try (rename_i h; have e := kept_takeMsg _ _ _ _ _ h; rw [← e]; clear e h)))
    | dsimp only)

theorem keeps_execRets (th : ThreadId) (d a b : RegField) (s : State) (u : State) (h : execRets th d a b s = .next u) :
    Keeps s u := by
  unfold execRets at h
  injection h with h
  refine Keeps.of_kept ?_
  rw [← h]
  repeat' (first
    | (simp; done)
    | (refine (kept_foldl _ (fun s x => ?_) _ _).trans ?_)
    | (refine (kept_issue _ _ (fun s => ?_) _).trans ?_)
    | (split <;> (try (rename_i h; have e := congrArg (fun p => kept p.1) h; simp at e; rw [e]; clear e h)) <;> (try (rename_i h; have e := kept_takeMsg _ _ _ _ _ h; rw [← e]; clear e h)))
    | dsimp only)

theorem keeps_execCallu (th : ThreadId) (d a b : RegField) (s : State) (u : State) (h : execCallu th d a b s = .next u) :
    Keeps s u := by
  unfold execCallu at h
  injection h with h
  refine Keeps.of_kept ?_
  rw [← h]
  repeat' (first
    | (simp; done)
    | (refine (kept_foldl _ (fun s x => ?_) _ _).trans ?_)
    | (refine (kept_issue _ _ (fun s => ?_) _).trans ?_)
    | (split <;> (try (rename_i h; have e := congrArg (fun p => kept p.1) h; simp at e; rw [e]; clear e h)) <;> (try (rename_i h; have e := kept_takeMsg _ _ _ _ _ h; rw [← e]; clear e h)))
    | dsimp only)

theorem keeps_execIllegal (th : ThreadId) (_w : Word) (s : State) (u : State) (h : execIllegal th _w s = .next u) :
    Keeps s u := by
  cases h; exact Keeps.of_kept (by simp)

theorem keeps_execSyscall (th : ThreadId) (d a b : RegField) (s : State) (u : State) (h : execSyscall th d a b s = .next u) :
    Keeps s u := by
  cases h; exact Keeps.of_kept (by simp)

theorem keeps_execYield (th : ThreadId) (_d _a _b : RegField) (s : State) (u : State)
    (h : execYield th _d _a _b s = .next u) : Keeps s u := by
  cases h; exact Keeps.of_kept (by simp)

theorem keeps_execMfs (th : ThreadId) (d : RegField) (sel : BitVec 10) (s : State) (u : State)
    (h : execMfs th d sel s = .next u) : Keeps s u := by
  cases h; exact Keeps.of_kept (by simp)

theorem keeps_execMts (th : ThreadId) (d : RegField) (sel : BitVec 10) (s : State) (u : State)
    (h : execMts th d sel s = .next u) : Keeps s u := by
  cases h; exact Keeps.of_kept (by simp)

theorem keeps_execWaitcp (th : ThreadId) (d a b : RegField) (s : State) (u : State) (h : execWaitcp th d a b s = .next u) :
    Keeps s u := by
  cases h
  refine Keeps.of_kept (kept_issue _ _ (fun s => ?_) _)
  split
  · simp
  · split
    · simp
    · split
      · exact kept_collect _ _ _ _ _ (by assumption)
      · simp

theorem keeps_execRdtime (th : ThreadId) (d a b : RegField) (s : State) (u : State) (h : execRdtime th d a b s = .next u) :
    Keeps s u := by
  unfold execRdtime at h
  injection h with h
  refine Keeps.of_kept ?_
  rw [← h]
  repeat' (first
    | (simp; done)
    | (refine (kept_foldl _ (fun s x => ?_) _ _).trans ?_)
    | (split <;> (try (rename_i h; have e := congrArg (fun p => kept p.1) h; simp at e; rw [e]; clear e h)) <;> (try (rename_i h; have e := kept_takeMsg _ _ _ _ _ h; rw [← e]; clear e h)))
    | dsimp only)

theorem keeps_execTlbinv (th : ThreadId) (d a b : RegField) (s : State) (u : State) (h : execTlbinv th d a b s = .next u) :
    Keeps s u := by
  cases h; exact Keeps.of_kept (by simp)

theorem keeps_execCommit (th : ThreadId) (d a b : RegField) (s : State) (u : State) (h : execCommit th d a b s = .next u) :
    Keeps s u := by
  unfold execCommit at h
  injection h with h
  refine Keeps.of_kept ?_
  rw [← h]
  repeat' (first
    | (simp; done)
    | (refine (kept_foldl _ (fun s x => ?_) _ _).trans ?_)
    | (refine (kept_issue _ _ (fun s => ?_) _).trans ?_)
    | (split <;> (try (rename_i h; have e := congrArg (fun p => kept p.1) h; simp at e; rw [e]; clear e h)) <;> (try (rename_i h; have e := kept_takeMsg _ _ _ _ _ h; rw [← e]; clear e h)))
    | dsimp only)

theorem keeps_execAbort (th : ThreadId) (d a b : RegField) (s : State) (u : State) (h : execAbort th d a b s = .next u) :
    Keeps s u := by
  unfold execAbort at h
  injection h with h
  refine Keeps.of_kept ?_
  rw [← h]
  repeat' (first
    | (simp; done)
    | (refine (kept_foldl _ (fun s x => ?_) _ _).trans ?_)
    | (refine (kept_issue _ _ (fun s => ?_) _).trans ?_)
    | (split <;> (try (rename_i h; have e := congrArg (fun p => kept p.1) h; simp at e; rw [e]; clear e h)) <;> (try (rename_i h; have e := kept_takeMsg _ _ _ _ _ h; rw [← e]; clear e h)))
    | dsimp only)

theorem keeps_execCommitPoint (seq : Nat) (s : State) (u : State) (h : execCommitPoint seq s = .next u) : Keeps s u := by
  cases h
  refine Keeps.of_kept ?_
  repeat' (first | (simp; done) | split | dsimp only)

theorem keeps_execCommitReport (seq : Nat) (s : State) (u : State) (h : execCommitReport seq s = .next u) : Keeps s u := by
  cases h
  refine Keeps.of_kept ?_
  repeat' (first | (simp; done) | split | dsimp only)

theorem keeps_execDeadlineGraceExpiry (th : ThreadId) (s : State) (u : State) (h : execDeadlineGraceExpiry th s = .next u) :
    Keeps s u := by
  rw [execDeadlineGraceExpiry, Host.Outcome.next.injEq] at h
  subst h
  refine Keeps.of_kept ?_
  repeat' (first | (simp; done) | split | dsimp only)

theorem keeps_execSignalEntry (th : ThreadId) (s : State) (u : State) (h : execSignalEntry th s = .next u) : Keeps s u := by
  cases h
  refine Keeps.of_kept ?_
  dsimp only; repeat' split
  all_goals first | (simp; done) | rfl

theorem keeps_execParkedAccessResume (th : ThreadId) (s : State) (u : State) (h : execParkedAccessResume th s = .next u) :
    Keeps s u := by
  cases h
  refine Keeps.of_kept ?_
  dsimp only; repeat' split
  all_goals first | (simp; done) | rfl

theorem keeps_execKeyDerive (th : ThreadId) (cd ca : RegField) (s : State) (u : State)
    (h : execKeyDerive th cd ca s = .next u) : Keeps s u := by
  cases h; exact Keeps.of_kept (by simp)

theorem keeps_execKeyDukpt (th : ThreadId) (cd ca : RegField) (s : State) (u : State)
    (h : execKeyDukpt th cd ca s = .next u) : Keeps s u := by
  cases h; exact Keeps.of_kept (by simp)

theorem keeps_execKeyLoad (th : ThreadId) (cd ca : RegField) (s : State) (u : State) (h : execKeyLoad th cd ca s = .next u) :
    Keeps s u := by
  cases h; exact Keeps.of_kept (by simp)

theorem keeps_execKeyUnwrap (th : ThreadId) (cd ca : RegField) (s : State) (u : State)
    (h : execKeyUnwrap th cd ca s = .next u) : Keeps s u := by
  cases h; exact Keeps.of_kept (by simp)

theorem keeps_execKeyWrap (th : ThreadId) (cd ca : RegField) (s : State) (u : State) (h : execKeyWrap th cd ca s = .next u) :
    Keeps s u := by
  cases h; exact Keeps.of_kept (by simp)

theorem keeps_execEncrypt (th : ThreadId) (cd ca : RegField) (s : State) (u : State) (h : execEncrypt th cd ca s = .next u) :
    Keeps s u := by
  cases h; exact Keeps.of_kept (by simp)

theorem keeps_execDecrypt (th : ThreadId) (cd ca : RegField) (s : State) (u : State) (h : execDecrypt th cd ca s = .next u) :
    Keeps s u := by
  cases h; exact Keeps.of_kept (by simp)

theorem keeps_execCp1MacGenerate (th : ThreadId) (cd ca : RegField) (s : State) (u : State)
    (h : execCp1MacGenerate th cd ca s = .next u) : Keeps s u := by
  cases h; exact Keeps.of_kept (by simp)

theorem keeps_execCp1MacVerify (th : ThreadId) (cd ca : RegField) (s : State) (u : State)
    (h : execCp1MacVerify th cd ca s = .next u) : Keeps s u := by
  cases h; exact Keeps.of_kept (by simp)

theorem keeps_execCp1PinTranslate (th : ThreadId) (cd ca : RegField) (s : State) (u : State)
    (h : execCp1PinTranslate th cd ca s = .next u) : Keeps s u := by
  cases h; exact Keeps.of_kept (by simp)

theorem keeps_execEmvVerify (th : ThreadId) (cd ca : RegField) (s : State) (u : State)
    (h : execEmvVerify th cd ca s = .next u) : Keeps s u := by
  cases h; exact Keeps.of_kept (by simp)

theorem keeps_execSlotClear (th : ThreadId) (cd ca : RegField) (s : State) (u : State)
    (h : execSlotClear th cd ca s = .next u) : Keeps s u := by
  cases h; exact Keeps.of_kept (by simp)

theorem keeps_execSlotInfo (th : ThreadId) (cd ca : RegField) (s : State) (u : State)
    (h : execSlotInfo th cd ca s = .next u) : Keeps s u := by
  cases h; exact Keeps.of_kept (by simp)

theorem keeps_execSm3 (th : ThreadId) (cd ca : RegField) (s : State) (u : State) (h : execSm3 th cd ca s = .next u) :
    Keeps s u := by
  cases h; exact Keeps.of_kept (by simp)

theorem keeps_execHmacSm3 (th : ThreadId) (cd ca : RegField) (s : State) (u : State) (h : execHmacSm3 th cd ca s = .next u) :
    Keeps s u := by
  cases h; exact Keeps.of_kept (by simp)

theorem keeps_execStrongroomRequest (s : State) (u : State) (h : execStrongroomRequest s = .next u) : Keeps s u := by
  unfold execStrongroomRequest at h
  injection h with h
  refine Keeps.of_kept ?_
  rw [← h]
  repeat' (first
    | (simp; done)
    | (refine (kept_foldl _ (fun s x => ?_) _ _).trans ?_)
    | (split <;> (try (rename_i h; have e := congrArg (fun p => kept p.1) h; simp at e; rw [e]; clear e h)) <;> (try (rename_i h; have e := kept_takeMsg _ _ _ _ _ h; rw [← e]; clear e h)))
    | dsimp only)

theorem keeps_execKeyColdLoad (handle : BitVec 32) (authentic : Bool) (s : State) (u : State)
    (h : execKeyColdLoad handle authentic s = .next u) : Keeps s u := by
  cases h; exact Keeps.of_kept (by simp)

theorem keeps_execJournalBatchClose (s : State) (u : State) (h : execJournalBatchClose s = .next u) : Keeps s u := by
  cases h; exact Keeps.of_kept (by simp)

theorem keeps_execComponentSequenceTimeout (s : State) (u : State) (h : execComponentSequenceTimeout s = .next u) :
    Keeps s u := by
  cases h; exact Keeps.of_kept (by split <;> simp)

theorem keeps_execKeyStoreWriteConfirmed (handle : BitVec 32) (r : ReadResult) (s : State) (u : State)
    (h : execKeyStoreWriteConfirmed handle r s = .next u) : Keeps s u := by
  cases h
  refine Keeps.of_kept ?_
  dsimp only; repeat' split
  all_goals first | (simp; done) | rfl

theorem keeps_execLaneQuantumEnd (lane : Fin 16) (s : State) (u : State) (h : execLaneQuantumEnd lane s = .next u) :
    Keeps s u := by
  unfold execLaneQuantumEnd at h
  injection h with h
  refine Keeps.of_kept ?_
  rw [← h]
  refine kept_if _ rfl ?_
  cases (jobsAt s .lane (.running lane.val)).head? with
  | none => exact kept_assignUnits s
  | some e =>
    obtain ⟨id, j⟩ := e
    dsimp only
    generalize (if j.th.isNone = true then pathState s j.tenant else 0) = path
    refine kept_if _ (kept_jobStop _ _ _) (kept_if _ (kept_jobStop _ _ _) (kept_if _ rfl ?_))
    generalize hr : (if path = 2 then _ else _) = r
    have e : kept r.1 = kept s := by rw [← hr]; split <;> simp
    clear hr
    obtain ⟨t, st⟩ := r
    dsimp only at e ⊢
    refine kept_if _ (kept_if _ ?_ ?_) (kept_if _ ?_ (kept_if _ ?_ (kept_if _ ?_ ?_)))
    · rw [kept_startScuttle, kept_modJob]; exact e
    · rw [kept_assignUnits, kept_jobEnd, kept_modJob]; exact e
    · rw [kept_assignUnits]
      refine kept_if _ ?_ ?_
      · rw [kept_stamp, kept_modJob]; exact e
      · rw [kept_modJob, kept_stamp, kept_modJob]; exact e
    · rw [kept_reapKeys, kept_assignUnits, kept_jobEnd, kept_modJob]; exact e
    · rw [kept_startScuttle, kept_modJob]; exact e
    · rw [kept_reapKeys, kept_assignUnits, kept_jobEnd, kept_modJob]; exact e

theorem keeps_execScuttleComplete (id : Nat) (confirmed : Bool) (s : State) (u : State)
    (h : execScuttleComplete id confirmed s = .next u) : Keeps s u := by
  unfold execScuttleComplete at h
  injection h with h
  refine Keeps.of_kept ?_
  rw [← h]
  repeat' (first
    | (simp; done)
    | (refine (kept_foldl _ (fun s x => ?_) _ _).trans ?_)
    | (split <;> (try (rename_i h; have e := congrArg (fun p => kept p.1) h; simp at e; rw [e]; clear e h)) <;> (try (rename_i h; have e := kept_takeMsg _ _ _ _ _ h; rw [← e]; clear e h)))
    | dsimp only)

theorem keeps_execDerrickStepEnd (derrick : Fin 32) (s : State) (u : State) (h : execDerrickStepEnd derrick s = .next u) :
    Keeps s u := by
  cases h; exact Keeps.of_kept (by split <;> (try split) <;> simp)

theorem keeps_execStowageBlockEnd (engine : Fin 8) (s : State) (u : State) (h : execStowageBlockEnd engine s = .next u) :
    Keeps s u := by
  cases h
  refine Keeps.of_kept ?_
  repeat' (first | (simp; done) | split | dsimp only)

theorem keeps_execKeyDelivery (id : Nat) (s : State) (u : State) (h : execKeyDelivery id s = .next u) : Keeps s u := by
  cases h
  refine Keeps.of_kept ?_
  dsimp only; repeat' split
  all_goals first | (simp; done) | rfl

theorem keeps_execBulkEncrypt (seq : Nat) (s : State) (u : State) (h : execBulkEncrypt seq s = .next u) : Keeps s u := by
  cases h; exact Keeps.of_kept (by simp)

theorem keeps_execBulkDecrypt (seq : Nat) (s : State) (u : State) (h : execBulkDecrypt seq s = .next u) : Keeps s u := by
  cases h; exact Keeps.of_kept (by simp)

theorem keeps_execCompress (seq : Nat) (s : State) (u : State) (h : execCompress seq s = .next u) : Keeps s u := by
  cases h; exact Keeps.of_kept (by simp)

theorem keeps_execDecompress (seq : Nat) (s : State) (u : State) (h : execDecompress seq s = .next u) : Keeps s u := by
  cases h; exact Keeps.of_kept (by simp)

theorem keeps_execSign (seq : Nat) (s : State) (u : State) (h : execSign seq s = .next u) : Keeps s u := by
  cases h; exact Keeps.of_kept (by simp)

theorem keeps_execVerify (seq : Nat) (s : State) (u : State) (h : execVerify seq s = .next u) : Keeps s u := by
  cases h; exact Keeps.of_kept (by simp)

theorem keeps_execHash (seq : Nat) (s : State) (u : State) (h : execHash seq s = .next u) : Keeps s u := by
  cases h; exact Keeps.of_kept (by simp)

theorem keeps_execPinTranslate (seq : Nat) (s : State) (u : State) (h : execPinTranslate seq s = .next u) : Keeps s u := by
  cases h; exact Keeps.of_kept (by simp)

theorem keeps_execMacGenerate (seq : Nat) (s : State) (u : State) (h : execMacGenerate seq s = .next u) : Keeps s u := by
  cases h; exact Keeps.of_kept (by simp)

theorem keeps_execMacVerify (seq : Nat) (s : State) (u : State) (h : execMacVerify seq s = .next u) : Keeps s u := by
  cases h; exact Keeps.of_kept (by simp)

theorem keeps_execEcho (seq : Nat) (s : State) (u : State) (h : execEcho seq s = .next u) : Keeps s u := by
  cases h; exact Keeps.of_kept (by simp)

theorem keeps_execProof (seq : Nat) (s : State) (u : State) (h : execProof seq s = .next u) : Keeps s u := by
  cases h
  refine Keeps.of_kept ?_
  cases consOf s seq with
  | none => rfl
  | some c =>
    dsimp only
    rw [kept_ite]
    split
    · rfl
    · generalize (if fDock c.desc then c.dock else c.source.getD []) = full
      rw [kept_ite]
      split
      · simp
      · generalize proofOf _ _ _ = o
        cases o with
        | absent => simp
        | wait t => simp
        | proof t bs => dsimp only; rw [kept_ite]; split <;> simp

theorem keeps_execBuiltinJobEnd (id : Nat) (s : State) (u : State) (h : execBuiltinJobEnd id s = .next u) : Keeps s u := by
  unfold execBuiltinJobEnd at h
  injection h with h
  refine Keeps.of_kept ?_
  rw [← h]
  cases jobOf s id with
  | none => rfl
  | some j =>
    refine kept_if _ rfl ?_
    cases consOf s j.seq with
    | none => exact kept_dropJob _ _
    | some c =>
      refine kept_if _ (kept_dropJob _ _) (kept_if _ ((kept_failCons _ _ _ _ _).trans (kept_dropJob _ _)) ?_)
      extract_lets path t stow ends
      have et : kept t = kept s := kept_dropJob _ _
      clear_value path t ends
      refine kept_if _ rfl ?_
      generalize hr : (if j.written = j.result.length then _ else _) = r
      have e : kept r.1 = kept s := by
        rw [← hr]
        split
        · exact et
        · split
          · simp [et]
          · split <;> simp [et]
      clear hr
      obtain ⟨t, p⟩ := r
      dsimp only at e ⊢
      refine kept_if _ ((kept_failCons _ _ _ _ _).trans e) ?_
      cases consOf t j.seq with
      | none => exact e
      | some c => simp [e]

theorem keeps_execJobPosted (id : Nat) (s : State) (u : State) (h : execJobPosted id s = .next u) : Keeps s u := by
  cases h
  refine Keeps.of_kept ?_
  cases jobOf s id with
  | none => rfl
  | some j =>
    dsimp only
    cases j.th with
    | none => rfl
    | some th =>
      dsimp only
      rw [kept_ite]
      split
      · rfl
      · rw [kept_ite]
        split
        · simp
        · generalize hr : (if j.status ≠ 0 ∨ j.written = j.result.length then _ else _) = r
          have e : kept r.1 = kept s := by
            rw [← hr]
            split
            · simp
            · split <;> simp
          clear hr
          obtain ⟨t, st, len⟩ := r
          dsimp only at e ⊢
          generalize hm : modThr (mailEntry t th j.mbox 2 st len (if st = 0 then j.value else 0)) th _ = v
          have k : kept v = kept s := by rw [← hm]; simp [e]
          clear hm
          split <;> simp [k]

theorem keeps_execSubmit (th : ThreadId) (cd ca : RegField) (s : State) (u : State) (h : execSubmit th cd ca s = .next u) :
    Keeps s u := by
  unfold execSubmit at h
  injection h with h
  rw [← h]
  refine Keeps.of_kept (kept_issue _ _ (fun s => ?_) _)
  extract_lets t off va
  clear_value t off va
  split
  · simp
  · split
    · simp
    · split
      · simp
      · extract_lets block
        clear_value block
        split
        · simp
        · extract_lets mark done_
          have hd : ∀ s, kept (done_ s) = kept s := fun s => by simp [done_]
          have hm : ∀ s n, kept (mark s n) = kept s := fun s n => by simp [mark]
          clear_value mark done_
          split
          · simp [hd]
          · split
            · simp [hd]
            · refine kept_withLines _ _ _ _ (fun s => ?_)
              rw [hd, kept_ite]
              split <;> simp [hm]

theorem keeps_execSourceReadComplete (w : ReadPurpose) (r : ReadResult) (s : State) (u : State)
    (h : execSourceReadComplete w r s = .next u) : Keeps s u := by
  unfold execSourceReadComplete at h
  injection h with h
  refine Keeps.of_kept ?_
  rw [← h]
  repeat' (first
    | (simp; done)
    | (refine (kept_foldl _ (fun s x => ?_) _ _).trans ?_)
    | (split <;> (try (rename_i h; have e := congrArg (fun p => kept p.1) h; simp at e; rw [e]; clear e h)) <;> (try (rename_i h; have e := kept_takeMsg _ _ _ _ _ h; rw [← e]; clear e h)))
    | dsimp only)

theorem keeps_execParse (th : ThreadId) (cd ca : RegField) (s : State) (u : State) (h : execParse th cd ca s = .next u) :
    Keeps s u := by
  cases h; exact Keeps.of_kept (by simp)

theorem keeps_execBuild (th : ThreadId) (cd ca : RegField) (s : State) (u : State) (h : execBuild th cd ca s = .next u) :
    Keeps s u := by
  cases h; exact Keeps.of_kept (by simp)

theorem keeps_execXmlTokens (th : ThreadId) (cd ca : RegField) (s : State) (u : State)
    (h : execXmlTokens th cd ca s = .next u) : Keeps s u := by
  cases h; exact Keeps.of_kept (by simp)

theorem keeps_execConvert (th : ThreadId) (cd ca : RegField) (s : State) (u : State) (h : execConvert th cd ca s = .next u) :
    Keeps s u := by
  cases h; exact Keeps.of_kept (by simp)

theorem keeps_execCoprocessorResultPosted (pier : PierId) (cp : Fin 3) (s : State) (u : State)
    (h : execCoprocessorResultPosted pier cp s = .next u) : Keeps s u := by
  cases h
  refine Keeps.of_kept ?_
  dsimp only; repeat' split
  all_goals first | (simp; done) | rfl

theorem keeps_execCp4ToCp7 (th : ThreadId) (_n : Fin 4) (_cd _ca : RegField) (_cfn : BitVec 8) (s : State) (u : State)
    (h : execCp4ToCp7 th _n _cd _ca _cfn s = .next u) : Keeps s u := by
  cases h; exact Keeps.of_kept (by simp)

theorem keeps_execFaddD (th : ThreadId) (d a b : RegField) (s : State) (u : State) (h : execFaddD th d a b s = .next u) :
    Keeps s u := by
  cases h; exact Keeps.of_kept (by simp)

theorem keeps_execFsubD (th : ThreadId) (d a b : RegField) (s : State) (u : State) (h : execFsubD th d a b s = .next u) :
    Keeps s u := by
  cases h; exact Keeps.of_kept (by simp)

theorem keeps_execFmulD (th : ThreadId) (d a b : RegField) (s : State) (u : State) (h : execFmulD th d a b s = .next u) :
    Keeps s u := by
  cases h; exact Keeps.of_kept (by simp)

theorem keeps_execFdivD (th : ThreadId) (d a b : RegField) (s : State) (u : State) (h : execFdivD th d a b s = .next u) :
    Keeps s u := by
  cases h; exact Keeps.of_kept (by simp)

theorem keeps_execFsqrtD (th : ThreadId) (d a b : RegField) (s : State) (u : State) (h : execFsqrtD th d a b s = .next u) :
    Keeps s u := by
  cases h; exact Keeps.of_kept (by simp)

theorem keeps_execFminD (th : ThreadId) (d a b : RegField) (s : State) (u : State) (h : execFminD th d a b s = .next u) :
    Keeps s u := by
  cases h; exact Keeps.of_kept (by simp)

theorem keeps_execFmaxD (th : ThreadId) (d a b : RegField) (s : State) (u : State) (h : execFmaxD th d a b s = .next u) :
    Keeps s u := by
  cases h; exact Keeps.of_kept (by simp)

theorem keeps_execFabsD (th : ThreadId) (d a : RegField) (s : State) (u : State) (h : execFabsD th d a s = .next u) :
    Keeps s u := by
  cases h; exact Keeps.of_kept (by simp)

theorem keeps_execFnegD (th : ThreadId) (d a : RegField) (s : State) (u : State) (h : execFnegD th d a s = .next u) :
    Keeps s u := by
  cases h; exact Keeps.of_kept (by simp)

theorem keeps_execFmovD (th : ThreadId) (d a : RegField) (s : State) (u : State) (h : execFmovD th d a s = .next u) :
    Keeps s u := by
  cases h; exact Keeps.of_kept (by simp)

theorem keeps_execFmaddD (th : ThreadId) (d a b : RegField) (s : State) (u : State) (h : execFmaddD th d a b s = .next u) :
    Keeps s u := by
  cases h; exact Keeps.of_kept (by simp)

theorem keeps_execFmsubD (th : ThreadId) (d a b : RegField) (s : State) (u : State) (h : execFmsubD th d a b s = .next u) :
    Keeps s u := by
  cases h; exact Keeps.of_kept (by simp)

theorem keeps_execFnmaddD (th : ThreadId) (d a b : RegField) (s : State) (u : State) (h : execFnmaddD th d a b s = .next u) :
    Keeps s u := by
  cases h; exact Keeps.of_kept (by simp)

theorem keeps_execFnmsubD (th : ThreadId) (d a b : RegField) (s : State) (u : State) (h : execFnmsubD th d a b s = .next u) :
    Keeps s u := by
  cases h; exact Keeps.of_kept (by simp)

theorem keeps_execFeqD (th : ThreadId) (d a b : RegField) (s : State) (u : State) (h : execFeqD th d a b s = .next u) :
    Keeps s u := by
  cases h; exact Keeps.of_kept (by simp)

theorem keeps_execFltD (th : ThreadId) (d a b : RegField) (s : State) (u : State) (h : execFltD th d a b s = .next u) :
    Keeps s u := by
  cases h; exact Keeps.of_kept (by simp)

theorem keeps_execFleD (th : ThreadId) (d a b : RegField) (s : State) (u : State) (h : execFleD th d a b s = .next u) :
    Keeps s u := by
  cases h; exact Keeps.of_kept (by simp)

theorem keeps_execFaddS (th : ThreadId) (d a b : RegField) (s : State) (u : State) (h : execFaddS th d a b s = .next u) :
    Keeps s u := by
  cases h; exact Keeps.of_kept (by simp)

theorem keeps_execFsubS (th : ThreadId) (d a b : RegField) (s : State) (u : State) (h : execFsubS th d a b s = .next u) :
    Keeps s u := by
  cases h; exact Keeps.of_kept (by simp)

theorem keeps_execFmulS (th : ThreadId) (d a b : RegField) (s : State) (u : State) (h : execFmulS th d a b s = .next u) :
    Keeps s u := by
  cases h; exact Keeps.of_kept (by simp)

theorem keeps_execFdivS (th : ThreadId) (d a b : RegField) (s : State) (u : State) (h : execFdivS th d a b s = .next u) :
    Keeps s u := by
  cases h; exact Keeps.of_kept (by simp)

theorem keeps_execFsqrtS (th : ThreadId) (d a b : RegField) (s : State) (u : State) (h : execFsqrtS th d a b s = .next u) :
    Keeps s u := by
  cases h; exact Keeps.of_kept (by simp)

theorem keeps_execFminS (th : ThreadId) (d a b : RegField) (s : State) (u : State) (h : execFminS th d a b s = .next u) :
    Keeps s u := by
  cases h; exact Keeps.of_kept (by simp)

theorem keeps_execFmaxS (th : ThreadId) (d a b : RegField) (s : State) (u : State) (h : execFmaxS th d a b s = .next u) :
    Keeps s u := by
  cases h; exact Keeps.of_kept (by simp)

theorem keeps_execFabsS (th : ThreadId) (d a : RegField) (s : State) (u : State) (h : execFabsS th d a s = .next u) :
    Keeps s u := by
  cases h; exact Keeps.of_kept (by simp)

theorem keeps_execFnegS (th : ThreadId) (d a : RegField) (s : State) (u : State) (h : execFnegS th d a s = .next u) :
    Keeps s u := by
  cases h; exact Keeps.of_kept (by simp)

theorem keeps_execFmovS (th : ThreadId) (d a : RegField) (s : State) (u : State) (h : execFmovS th d a s = .next u) :
    Keeps s u := by
  cases h; exact Keeps.of_kept (by simp)

theorem keeps_execFmaddS (th : ThreadId) (d a b : RegField) (s : State) (u : State) (h : execFmaddS th d a b s = .next u) :
    Keeps s u := by
  cases h; exact Keeps.of_kept (by simp)

theorem keeps_execFmsubS (th : ThreadId) (d a b : RegField) (s : State) (u : State) (h : execFmsubS th d a b s = .next u) :
    Keeps s u := by
  cases h; exact Keeps.of_kept (by simp)

theorem keeps_execFnmaddS (th : ThreadId) (d a b : RegField) (s : State) (u : State) (h : execFnmaddS th d a b s = .next u) :
    Keeps s u := by
  cases h; exact Keeps.of_kept (by simp)

theorem keeps_execFnmsubS (th : ThreadId) (d a b : RegField) (s : State) (u : State) (h : execFnmsubS th d a b s = .next u) :
    Keeps s u := by
  cases h; exact Keeps.of_kept (by simp)

theorem keeps_execFeqS (th : ThreadId) (d a b : RegField) (s : State) (u : State) (h : execFeqS th d a b s = .next u) :
    Keeps s u := by
  cases h; exact Keeps.of_kept (by simp)

theorem keeps_execFltS (th : ThreadId) (d a b : RegField) (s : State) (u : State) (h : execFltS th d a b s = .next u) :
    Keeps s u := by
  cases h; exact Keeps.of_kept (by simp)

theorem keeps_execFleS (th : ThreadId) (d a b : RegField) (s : State) (u : State) (h : execFleS th d a b s = .next u) :
    Keeps s u := by
  cases h; exact Keeps.of_kept (by simp)

theorem keeps_execFcvtDS (th : ThreadId) (d a : RegField) (s : State) (u : State) (h : execFcvtDS th d a s = .next u) :
    Keeps s u := by
  cases h; exact Keeps.of_kept (by simp)

theorem keeps_execFcvtSD (th : ThreadId) (d a : RegField) (s : State) (u : State) (h : execFcvtSD th d a s = .next u) :
    Keeps s u := by
  cases h; exact Keeps.of_kept (by simp)

theorem keeps_execFcvtDW (th : ThreadId) (d a : RegField) (s : State) (u : State) (h : execFcvtDW th d a s = .next u) :
    Keeps s u := by
  cases h; exact Keeps.of_kept (by simp)

theorem keeps_execFcvtDWu (th : ThreadId) (d a : RegField) (s : State) (u : State) (h : execFcvtDWu th d a s = .next u) :
    Keeps s u := by
  cases h; exact Keeps.of_kept (by simp)

theorem keeps_execFcvtWD (th : ThreadId) (d a : RegField) (s : State) (u : State) (h : execFcvtWD th d a s = .next u) :
    Keeps s u := by
  cases h; exact Keeps.of_kept (by simp)

theorem keeps_execFcvtWuD (th : ThreadId) (d a : RegField) (s : State) (u : State) (h : execFcvtWuD th d a s = .next u) :
    Keeps s u := by
  cases h; exact Keeps.of_kept (by simp)

theorem keeps_execFcvtDP (th : ThreadId) (d a : RegField) (s : State) (u : State) (h : execFcvtDP th d a s = .next u) :
    Keeps s u := by
  cases h; exact Keeps.of_kept (by simp)

theorem keeps_execFcvtPD (th : ThreadId) (d a : RegField) (s : State) (u : State) (h : execFcvtPD th d a s = .next u) :
    Keeps s u := by
  cases h; exact Keeps.of_kept (by simp)

theorem keeps_execFmvx (th : ThreadId) (d a : RegField) (s : State) (u : State) (h : execFmvx th d a s = .next u) :
    Keeps s u := by
  cases h; exact Keeps.of_kept (by simp)

theorem keeps_execFmvf (th : ThreadId) (d a : RegField) (s : State) (u : State) (h : execFmvf th d a s = .next u) :
    Keeps s u := by
  cases h; exact Keeps.of_kept (by simp)

theorem keeps_execAdd (th : ThreadId) (d a b : RegField) (s : State) (u : State) (h : execAdd th d a b s = .next u) :
    Keeps s u := by
  cases h; exact Keeps.of_kept (by simp)

theorem keeps_execAdds (th : ThreadId) (d a b : RegField) (s : State) (u : State) (h : execAdds th d a b s = .next u) :
    Keeps s u := by
  cases h; exact Keeps.of_kept (by simp)

theorem keeps_execAddc (th : ThreadId) (d a b : RegField) (s : State) (u : State) (h : execAddc th d a b s = .next u) :
    Keeps s u := by
  cases h; exact Keeps.of_kept (by simp)

theorem keeps_execSub (th : ThreadId) (d a b : RegField) (s : State) (u : State) (h : execSub th d a b s = .next u) :
    Keeps s u := by
  cases h; exact Keeps.of_kept (by simp)

theorem keeps_execSubs (th : ThreadId) (d a b : RegField) (s : State) (u : State) (h : execSubs th d a b s = .next u) :
    Keeps s u := by
  cases h; exact Keeps.of_kept (by simp)

theorem keeps_execSubb (th : ThreadId) (d a b : RegField) (s : State) (u : State) (h : execSubb th d a b s = .next u) :
    Keeps s u := by
  cases h; exact Keeps.of_kept (by simp)

theorem keeps_execSlt (th : ThreadId) (d a b : RegField) (s : State) (u : State) (h : execSlt th d a b s = .next u) :
    Keeps s u := by
  cases h; exact Keeps.of_kept (by simp)

theorem keeps_execSltu (th : ThreadId) (d a b : RegField) (s : State) (u : State) (h : execSltu th d a b s = .next u) :
    Keeps s u := by
  cases h; exact Keeps.of_kept (by simp)

theorem keeps_execAnd (th : ThreadId) (d a b : RegField) (s : State) (u : State) (h : execAnd th d a b s = .next u) :
    Keeps s u := by
  cases h; exact Keeps.of_kept (by simp)

theorem keeps_execOr (th : ThreadId) (d a b : RegField) (s : State) (u : State) (h : execOr th d a b s = .next u) :
    Keeps s u := by
  cases h; exact Keeps.of_kept (by simp)

theorem keeps_execXor (th : ThreadId) (d a b : RegField) (s : State) (u : State) (h : execXor th d a b s = .next u) :
    Keeps s u := by
  cases h; exact Keeps.of_kept (by simp)

theorem keeps_execAndn (th : ThreadId) (d a b : RegField) (s : State) (u : State) (h : execAndn th d a b s = .next u) :
    Keeps s u := by
  cases h; exact Keeps.of_kept (by simp)

theorem keeps_execSll (th : ThreadId) (d a b : RegField) (s : State) (u : State) (h : execSll th d a b s = .next u) :
    Keeps s u := by
  cases h; exact Keeps.of_kept (by simp)

theorem keeps_execSrl (th : ThreadId) (d a b : RegField) (s : State) (u : State) (h : execSrl th d a b s = .next u) :
    Keeps s u := by
  cases h; exact Keeps.of_kept (by simp)

theorem keeps_execSra (th : ThreadId) (d a b : RegField) (s : State) (u : State) (h : execSra th d a b s = .next u) :
    Keeps s u := by
  cases h; exact Keeps.of_kept (by simp)

theorem keeps_execRol (th : ThreadId) (d a b : RegField) (s : State) (u : State) (h : execRol th d a b s = .next u) :
    Keeps s u := by
  cases h; exact Keeps.of_kept (by simp)

theorem keeps_execMul (th : ThreadId) (d a b : RegField) (s : State) (u : State) (h : execMul th d a b s = .next u) :
    Keeps s u := by
  cases h; exact Keeps.of_kept (by simp)

theorem keeps_execMulh (th : ThreadId) (d a b : RegField) (s : State) (u : State) (h : execMulh th d a b s = .next u) :
    Keeps s u := by
  cases h; exact Keeps.of_kept (by simp)

theorem keeps_execMulhu (th : ThreadId) (d a b : RegField) (s : State) (u : State) (h : execMulhu th d a b s = .next u) :
    Keeps s u := by
  cases h; exact Keeps.of_kept (by simp)

theorem keeps_execMulw (th : ThreadId) (d a b : RegField) (s : State) (u : State) (h : execMulw th d a b s = .next u) :
    Keeps s u := by
  cases h; exact Keeps.of_kept (by simp)

theorem keeps_execMulwu (th : ThreadId) (d a b : RegField) (s : State) (u : State) (h : execMulwu th d a b s = .next u) :
    Keeps s u := by
  cases h; exact Keeps.of_kept (by simp)

theorem keeps_execDiv (th : ThreadId) (d a b : RegField) (s : State) (u : State) (h : execDiv th d a b s = .next u) :
    Keeps s u := by
  cases h; exact Keeps.of_kept (by simp)

theorem keeps_execDivu (th : ThreadId) (d a b : RegField) (s : State) (u : State) (h : execDivu th d a b s = .next u) :
    Keeps s u := by
  cases h; exact Keeps.of_kept (by simp)

theorem keeps_execRem (th : ThreadId) (d a b : RegField) (s : State) (u : State) (h : execRem th d a b s = .next u) :
    Keeps s u := by
  cases h; exact Keeps.of_kept (by simp)

theorem keeps_execRemu (th : ThreadId) (d a b : RegField) (s : State) (u : State) (h : execRemu th d a b s = .next u) :
    Keeps s u := by
  cases h; exact Keeps.of_kept (by simp)

theorem keeps_execDadd (th : ThreadId) (d a b : RegField) (s : State) (u : State) (h : execDadd th d a b s = .next u) :
    Keeps s u := by
  cases h; exact Keeps.of_kept (by simp)

theorem keeps_execDaddc (th : ThreadId) (d a b : RegField) (s : State) (u : State) (h : execDaddc th d a b s = .next u) :
    Keeps s u := by
  cases h; exact Keeps.of_kept (by simp)

theorem keeps_execDsub (th : ThreadId) (d a b : RegField) (s : State) (u : State) (h : execDsub th d a b s = .next u) :
    Keeps s u := by
  cases h; exact Keeps.of_kept (by simp)

theorem keeps_execDsubb (th : ThreadId) (d a b : RegField) (s : State) (u : State) (h : execDsubb th d a b s = .next u) :
    Keeps s u := by
  cases h; exact Keeps.of_kept (by simp)

theorem keeps_execDcmp (th : ThreadId) (d a b : RegField) (s : State) (u : State) (h : execDcmp th d a b s = .next u) :
    Keeps s u := by
  cases h; exact Keeps.of_kept (by simp)

theorem keeps_execAddi (th : ThreadId) (d a : RegField) (imm : BitVec 8) (s : State) (u : State)
    (h : execAddi th d a imm s = .next u) : Keeps s u := by
  cases h; exact Keeps.of_kept (by simp)

theorem keeps_execAndi (th : ThreadId) (d a : RegField) (imm : BitVec 8) (s : State) (u : State)
    (h : execAndi th d a imm s = .next u) : Keeps s u := by
  cases h; exact Keeps.of_kept (by simp)

theorem keeps_execOri (th : ThreadId) (d a : RegField) (imm : BitVec 8) (s : State) (u : State)
    (h : execOri th d a imm s = .next u) : Keeps s u := by
  cases h; exact Keeps.of_kept (by simp)

theorem keeps_execXori (th : ThreadId) (d a : RegField) (imm : BitVec 8) (s : State) (u : State)
    (h : execXori th d a imm s = .next u) : Keeps s u := by
  cases h; exact Keeps.of_kept (by simp)

theorem keeps_execSlli (th : ThreadId) (d a : RegField) (imm : BitVec 8) (s : State) (u : State)
    (h : execSlli th d a imm s = .next u) : Keeps s u := by
  cases h; exact Keeps.of_kept (by simp)

theorem keeps_execSrli (th : ThreadId) (d a : RegField) (imm : BitVec 8) (s : State) (u : State)
    (h : execSrli th d a imm s = .next u) : Keeps s u := by
  cases h; exact Keeps.of_kept (by simp)

theorem keeps_execSrai (th : ThreadId) (d a : RegField) (imm : BitVec 8) (s : State) (u : State)
    (h : execSrai th d a imm s = .next u) : Keeps s u := by
  cases h; exact Keeps.of_kept (by simp)

theorem keeps_execSlti (th : ThreadId) (d a : RegField) (imm : BitVec 8) (s : State) (u : State)
    (h : execSlti th d a imm s = .next u) : Keeps s u := by
  cases h; exact Keeps.of_kept (by simp)

theorem keeps_execSltui (th : ThreadId) (d a : RegField) (imm : BitVec 8) (s : State) (u : State)
    (h : execSltui th d a imm s = .next u) : Keeps s u := by
  cases h; exact Keeps.of_kept (by simp)

theorem keeps_execLui (th : ThreadId) (d : RegField) (imm : BitVec 13) (s : State) (u : State)
    (h : execLui th d imm s = .next u) : Keeps s u := by
  cases h; exact Keeps.of_kept (by simp)

theorem keeps_execOrli (th : ThreadId) (d : RegField) (imm : BitVec 13) (s : State) (u : State)
    (h : execOrli th d imm s = .next u) : Keeps s u := by
  cases h; exact Keeps.of_kept (by simp)

theorem keeps_execLb (th : ThreadId) (d a : RegField) (imm : BitVec 8) (s : State) (u : State)
    (h : execLb th d a imm s = .next u) : Keeps s u := by
  cases h; exact Keeps.of_kept (by simp)

theorem keeps_execLbu (th : ThreadId) (d a : RegField) (imm : BitVec 8) (s : State) (u : State)
    (h : execLbu th d a imm s = .next u) : Keeps s u := by
  cases h; exact Keeps.of_kept (by simp)

theorem keeps_execLh (th : ThreadId) (d a : RegField) (imm : BitVec 8) (s : State) (u : State)
    (h : execLh th d a imm s = .next u) : Keeps s u := by
  cases h; exact Keeps.of_kept (by simp)

theorem keeps_execLhu (th : ThreadId) (d a : RegField) (imm : BitVec 8) (s : State) (u : State)
    (h : execLhu th d a imm s = .next u) : Keeps s u := by
  cases h; exact Keeps.of_kept (by simp)

theorem keeps_execLw (th : ThreadId) (d a : RegField) (imm : BitVec 8) (s : State) (u : State)
    (h : execLw th d a imm s = .next u) : Keeps s u := by
  cases h; exact Keeps.of_kept (by simp)

theorem keeps_execLp (th : ThreadId) (d a : RegField) (imm : BitVec 8) (s : State) (u : State)
    (h : execLp th d a imm s = .next u) : Keeps s u := by
  cases h; exact Keeps.of_kept (by simp)

theorem keeps_execFld (th : ThreadId) (d a : RegField) (imm : BitVec 8) (s : State) (u : State)
    (h : execFld th d a imm s = .next u) : Keeps s u := by
  cases h; exact Keeps.of_kept (by simp)

theorem keeps_execFls (th : ThreadId) (d a : RegField) (imm : BitVec 8) (s : State) (u : State)
    (h : execFls th d a imm s = .next u) : Keeps s u := by
  cases h; exact Keeps.of_kept (by simp)

theorem keeps_execSb (th : ThreadId) (d a : RegField) (imm : BitVec 8) (s : State) (u : State)
    (h : execSb th d a imm s = .next u) : Keeps s u := by
  cases h; exact Keeps.of_kept (by simp)

theorem keeps_execSh (th : ThreadId) (d a : RegField) (imm : BitVec 8) (s : State) (u : State)
    (h : execSh th d a imm s = .next u) : Keeps s u := by
  cases h; exact Keeps.of_kept (by simp)

theorem keeps_execSw (th : ThreadId) (d a : RegField) (imm : BitVec 8) (s : State) (u : State)
    (h : execSw th d a imm s = .next u) : Keeps s u := by
  cases h; exact Keeps.of_kept (by simp)

theorem keeps_execSp (th : ThreadId) (d a : RegField) (imm : BitVec 8) (s : State) (u : State)
    (h : execSp th d a imm s = .next u) : Keeps s u := by
  cases h; exact Keeps.of_kept (by simp)

theorem keeps_execFsd (th : ThreadId) (d a : RegField) (imm : BitVec 8) (s : State) (u : State)
    (h : execFsd th d a imm s = .next u) : Keeps s u := by
  cases h; exact Keeps.of_kept (by simp)

theorem keeps_execFss (th : ThreadId) (d a : RegField) (imm : BitVec 8) (s : State) (u : State)
    (h : execFss th d a imm s = .next u) : Keeps s u := by
  cases h; exact Keeps.of_kept (by simp)

theorem keeps_execLbf (th : ThreadId) (d a b : RegField) (s : State) (u : State) (h : execLbf th d a b s = .next u) :
    Keeps s u := by
  cases h; exact Keeps.of_kept (by simp)

theorem keeps_execLbuf (th : ThreadId) (d a b : RegField) (s : State) (u : State) (h : execLbuf th d a b s = .next u) :
    Keeps s u := by
  cases h; exact Keeps.of_kept (by simp)

theorem keeps_execLhf (th : ThreadId) (d a b : RegField) (s : State) (u : State) (h : execLhf th d a b s = .next u) :
    Keeps s u := by
  cases h; exact Keeps.of_kept (by simp)

theorem keeps_execLhuf (th : ThreadId) (d a b : RegField) (s : State) (u : State) (h : execLhuf th d a b s = .next u) :
    Keeps s u := by
  cases h; exact Keeps.of_kept (by simp)

theorem keeps_execLwf (th : ThreadId) (d a b : RegField) (s : State) (u : State) (h : execLwf th d a b s = .next u) :
    Keeps s u := by
  cases h; exact Keeps.of_kept (by simp)

theorem keeps_execLpf (th : ThreadId) (d a b : RegField) (s : State) (u : State) (h : execLpf th d a b s = .next u) :
    Keeps s u := by
  cases h; exact Keeps.of_kept (by simp)

theorem keeps_execFldf (th : ThreadId) (d a b : RegField) (s : State) (u : State) (h : execFldf th d a b s = .next u) :
    Keeps s u := by
  cases h; exact Keeps.of_kept (by simp)

theorem keeps_execFlsf (th : ThreadId) (d a b : RegField) (s : State) (u : State) (h : execFlsf th d a b s = .next u) :
    Keeps s u := by
  cases h; exact Keeps.of_kept (by simp)

theorem keeps_execSbf (th : ThreadId) (d a b : RegField) (s : State) (u : State) (h : execSbf th d a b s = .next u) :
    Keeps s u := by
  cases h; exact Keeps.of_kept (by simp)

theorem keeps_execShf (th : ThreadId) (d a b : RegField) (s : State) (u : State) (h : execShf th d a b s = .next u) :
    Keeps s u := by
  cases h; exact Keeps.of_kept (by simp)

theorem keeps_execSwf (th : ThreadId) (d a b : RegField) (s : State) (u : State) (h : execSwf th d a b s = .next u) :
    Keeps s u := by
  cases h; exact Keeps.of_kept (by simp)

theorem keeps_execSpf (th : ThreadId) (d a b : RegField) (s : State) (u : State) (h : execSpf th d a b s = .next u) :
    Keeps s u := by
  cases h; exact Keeps.of_kept (by simp)

theorem keeps_execFsdf (th : ThreadId) (d a b : RegField) (s : State) (u : State) (h : execFsdf th d a b s = .next u) :
    Keeps s u := by
  cases h; exact Keeps.of_kept (by simp)

theorem keeps_execFssf (th : ThreadId) (d a b : RegField) (s : State) (u : State) (h : execFssf th d a b s = .next u) :
    Keeps s u := by
  cases h; exact Keeps.of_kept (by simp)

theorem keeps_execAmoadd (th : ThreadId) (d a b : RegField) (s : State) (u : State) (h : execAmoadd th d a b s = .next u) :
    Keeps s u := by
  cases h; exact Keeps.of_kept (by simp)

theorem keeps_execAmoswap (th : ThreadId) (d a b : RegField) (s : State) (u : State) (h : execAmoswap th d a b s = .next u) :
    Keeps s u := by
  cases h; exact Keeps.of_kept (by simp)

theorem keeps_execAmocas (th : ThreadId) (d a b : RegField) (s : State) (u : State) (h : execAmocas th d a b s = .next u) :
    Keeps s u := by
  cases h; exact Keeps.of_kept (by simp)

theorem keeps_execAmomin (th : ThreadId) (d a b : RegField) (s : State) (u : State) (h : execAmomin th d a b s = .next u) :
    Keeps s u := by
  cases h; exact Keeps.of_kept (by simp)

theorem keeps_execAmomax (th : ThreadId) (d a b : RegField) (s : State) (u : State) (h : execAmomax th d a b s = .next u) :
    Keeps s u := by
  cases h; exact Keeps.of_kept (by simp)

theorem keeps_execAmopAdd (th : ThreadId) (d a b : RegField) (s : State) (u : State) (h : execAmopAdd th d a b s = .next u) :
    Keeps s u := by
  cases h; exact Keeps.of_kept (by simp)

theorem keeps_execAmopSwap (th : ThreadId) (d a b : RegField) (s : State) (u : State)
    (h : execAmopSwap th d a b s = .next u) : Keeps s u := by
  cases h; exact Keeps.of_kept (by simp)

theorem keeps_execAmopCas (th : ThreadId) (d a b : RegField) (s : State) (u : State) (h : execAmopCas th d a b s = .next u) :
    Keeps s u := by
  cases h; exact Keeps.of_kept (by simp)

theorem keeps_execAmopMin (th : ThreadId) (d a b : RegField) (s : State) (u : State) (h : execAmopMin th d a b s = .next u) :
    Keeps s u := by
  cases h; exact Keeps.of_kept (by simp)

theorem keeps_execAmopMax (th : ThreadId) (d a b : RegField) (s : State) (u : State) (h : execAmopMax th d a b s = .next u) :
    Keeps s u := by
  cases h; exact Keeps.of_kept (by simp)

theorem keeps_execAmofAdd (th : ThreadId) (d a b : RegField) (s : State) (u : State) (h : execAmofAdd th d a b s = .next u) :
    Keeps s u := by
  cases h; exact Keeps.of_kept (by simp)

theorem keeps_execAmofSwap (th : ThreadId) (d a b : RegField) (s : State) (u : State)
    (h : execAmofSwap th d a b s = .next u) : Keeps s u := by
  cases h; exact Keeps.of_kept (by simp)

theorem keeps_execAmofCas (th : ThreadId) (d a b : RegField) (s : State) (u : State) (h : execAmofCas th d a b s = .next u) :
    Keeps s u := by
  cases h; exact Keeps.of_kept (by simp)

theorem keeps_execAmofMin (th : ThreadId) (d a b : RegField) (s : State) (u : State) (h : execAmofMin th d a b s = .next u) :
    Keeps s u := by
  cases h; exact Keeps.of_kept (by simp)

theorem keeps_execAmofMax (th : ThreadId) (d a b : RegField) (s : State) (u : State) (h : execAmofMax th d a b s = .next u) :
    Keeps s u := by
  cases h; exact Keeps.of_kept (by simp)

theorem keeps_execAmopfAdd (th : ThreadId) (d a b : RegField) (s : State) (u : State)
    (h : execAmopfAdd th d a b s = .next u) : Keeps s u := by
  cases h; exact Keeps.of_kept (by simp)

theorem keeps_execAmopfSwap (th : ThreadId) (d a b : RegField) (s : State) (u : State)
    (h : execAmopfSwap th d a b s = .next u) : Keeps s u := by
  cases h; exact Keeps.of_kept (by simp)

theorem keeps_execAmopfCas (th : ThreadId) (d a b : RegField) (s : State) (u : State)
    (h : execAmopfCas th d a b s = .next u) : Keeps s u := by
  cases h; exact Keeps.of_kept (by simp)

theorem keeps_execAmopfMin (th : ThreadId) (d a b : RegField) (s : State) (u : State)
    (h : execAmopfMin th d a b s = .next u) : Keeps s u := by
  cases h; exact Keeps.of_kept (by simp)

theorem keeps_execAmopfMax (th : ThreadId) (d a b : RegField) (s : State) (u : State)
    (h : execAmopfMax th d a b s = .next u) : Keeps s u := by
  cases h; exact Keeps.of_kept (by simp)

theorem keeps_execCompletionTimeout (w : ReadPurpose) (s : State) (u : State) (h : execCompletionTimeout w s = .next u) :
    Keeps s u := by
  unfold execCompletionTimeout at h
  split at h
  · cases h; exact Keeps.refl s
  · exact keeps_execSourceReadComplete w _ s u h

end Sys2Proof.Machine
end

