-- ==== Sys2Proof/Laws/KeptCommands2.lean ====
section
/-! SUPPORT. What each command leaves alone (Safety.Keeps): the queue and the time of the timers stay, and OTP only gains burns. -/

set_option linter.unusedSimpArgs false

set_option linter.unusedTactic false
set_option linter.unreachableTactic false
set_option linter.unusedVariables false

namespace Sys2Proof.Machine

theorem keeps_execSlipWrite (p : Port) (t : TenantId) (off : BitVec 12) (data : List Byte) (s : State) (u : State)
    (h : execSlipWrite p t off data s = .next u) : Keeps s u := by
  cases h; exact Keeps.of_kept (by simp)

theorem keeps_execSlippedDescriptorAccept (half : Port) (s : State) (u : State)
    (h : execSlippedDescriptorAccept half s = .next u) : Keeps s u := by
  cases h; exact Keeps.of_kept (by split <;> simp)

theorem keeps_execSqTailDoorbell (p : Port) (t : TenantId) (sq : Fin 16) (size : Nat) (v : BitVec 32) (s : State)
    (u : State) (h : execSqTailDoorbell p t sq size v s = .next u) : Keeps s u := by
  cases h; exact Keeps.of_kept (by simp)

theorem keeps_execDescriptorFetch (t : TenantId) (sq : Fin 16) (s : State) (u : State)
    (h : execDescriptorFetch t sq s = .next u) : Keeps s u := by
  cases h; exact Keeps.of_kept (by simp)

theorem keeps_execDescriptorFetchComplete (t : TenantId) (sq : Fin 16) (r : ReadResult) (s : State) (u : State)
    (h : execDescriptorFetchComplete t sq r s = .next u) : Keeps s u := by
  cases h
  refine Keeps.of_kept ?_
  dsimp only; repeat' split
  all_goals first | (simp; done) | rfl

theorem keeps_execEqHeadDoorbell (p : Port) (f : FnSel) (eq : Fin 32) (size : Nat) (v : BitVec 32) (s : State)
    (u : State) (h : execEqHeadDoorbell p f eq size v s = .next u) : Keeps s u := by
  cases h; exact Keeps.of_kept (by split <;> (try split) <;> simp)

theorem keeps_execChainTail (t : TenantId) (pool : Fin 64) (v : BitVec 32) (s : State) (u : State)
    (h : execChainTail t pool v s = .next u) : Keeps s u := by
  cases h; exact Keeps.of_kept (by simp)

theorem keeps_execAcceptedRecordStored (seq : Nat) (s : State) (u : State) (h : execAcceptedRecordStored seq s = .next u) :
    Keeps s u := by
  cases h; exact Keeps.of_kept (by split <;> simp)

theorem keeps_execCreditTimeExpiry (t : TenantId) (sq : Fin 16) (s : State) (u : State)
    (h : execCreditTimeExpiry t sq s = .next u) : Keeps s u := by
  cases h
  refine Keeps.of_kept ?_
  dsimp only; repeat' split
  all_goals first | (simp; done) | rfl

theorem keeps_execConsignmentDispatch (th : ThreadId) (s : State) (u : State) (h : execConsignmentDispatch th s = .next u) :
    Keeps s u := by
  cases h; exact Keeps.of_kept (by split <;> (try split) <;> simp)

theorem keeps_execMirrorBasinAck (basin : BasinId) (upTo : Nat) (s : State) (u : State)
    (h : execMirrorBasinAck basin upTo s = .next u) : Keeps s u := by
  cases h; exact Keeps.of_kept (by simp)

theorem keeps_execHostBatchClose (basin : BasinId) (s : State) (u : State) (h : execHostBatchClose basin s = .next u) :
    Keeps s u := by
  cases h
  refine Keeps.of_kept ?_
  dsimp only; repeat' split
  all_goals first | (simp; done) | rfl

theorem keeps_execHostFlushReadComplete (basin : BasinId) (r : ReadResult) (s : State) (u : State)
    (h : execHostFlushReadComplete basin r s = .next u) : Keeps s u := by
  cases h
  refine Keeps.of_kept ?_
  dsimp only; repeat' split
  all_goals first | (simp; done) | rfl

theorem keeps_execDeadlineExpiry (seq : Nat) (s : State) (u : State) (h : execDeadlineExpiry seq s = .next u) : Keeps s u := by
  cases h
  refine Keeps.of_kept ?_
  generalize 0x0503 = code
  cases consOf s seq with
  | none => rfl
  | some c =>
    dsimp only
    cases c.deadlineAt with
    | none => rfl
    | some d =>
      dsimp only
      rw [kept_ite]
      split
      · rfl
      · cases c.state <;> dsimp only
        · cases c.phase <;> simp
        all_goals simp

theorem keeps_execReplayDecide (seq : Nat) (s : State) (u : State) (h : execReplayDecide seq s = .next u) : Keeps s u := by
  unfold execReplayDecide at h
  injection h with h
  refine Keeps.of_kept ?_
  rw [← h]
  repeat' (first
    | (simp; done)
    | (refine (kept_foldl _ (fun s x => ?_) _ _).trans ?_)
    | (split <;> (try (rename_i h; have e := congrArg (fun p => kept p.1) h; simp at e; rw [e]; clear e h)) <;> (try (rename_i h; have e := kept_takeMsg _ _ _ _ _ h; rw [← e]; clear e h)))
    | dsimp only)

theorem keeps_execTideBoundary (s : State) (u : State) (h : execTideBoundary s = .next u) : Keeps s u := by
  cases h; exact Keeps.of_kept (by split <;> simp)

theorem keeps_execSealReport (basin : BasinId) (s : State) (u : State) (h : execSealReport basin s = .next u) : Keeps s u := by
  cases h; exact Keeps.of_kept (by split <;> simp)

theorem keeps_execTideSigned (s : State) (u : State) (h : execTideSigned s = .next u) : Keeps s u := by
  cases h; exact Keeps.of_kept (by split <;> simp)

theorem keeps_execPartitionMapChangeEffect (part : Fin 4096) (s : State) (u : State)
    (h : execPartitionMapChangeEffect part s = .next u) : Keeps s u := by
  unfold execPartitionMapChangeEffect at h
  injection h with h
  refine Keeps.of_kept ?_
  rw [← h]
  extract_lets v
  clear_value v
  cases v.next with
  | none => rfl
  | some x =>
    dsimp only
    exact kept_if _ rfl (kept_if _ (kept_setPart _ _ _) ((kept_mbFinishOp _ _ _ _ _ _).trans (kept_setPart _ _ _)))

theorem keeps_execFlr (p : Port) (t : TenantId) (s : State) (u : State) (h : execFlr p t s = .next u) : Keeps s u := by
  cases h; exact Keeps.of_kept (by simp)

theorem keeps_execQuiesceDrainComplete (t : TenantId) (s : State) (u : State) (h : execQuiesceDrainComplete t s = .next u) :
    Keeps s u := by
  cases h; exact Keeps.of_kept (by simp)

theorem keeps_execQuiesceDrainLimit (t : TenantId) (s : State) (u : State) (h : execQuiesceDrainLimit t s = .next u) :
    Keeps s u := by
  cases h; exact Keeps.of_kept (by simp)

theorem keeps_execFlrDrainTimeout (t : TenantId) (s : State) (u : State) (h : execFlrDrainTimeout t s = .next u) :
    Keeps s u := by
  cases h; exact Keeps.of_kept (by simp)

theorem keeps_execResumeSlotsFreed (t : TenantId) (s : State) (u : State) (h : execResumeSlotsFreed t s = .next u) :
    Keeps s u := by
  cases h; exact Keeps.of_kept (by simp)

theorem keeps_execVfInService (t : TenantId) (s : State) (u : State) (h : execVfInService t s = .next u) : Keeps s u := by
  cases h; exact Keeps.of_kept (by simp)

theorem keeps_execPathWaitExpiry (t : TenantId) (s : State) (u : State) (h : execPathWaitExpiry t s = .next u) : Keeps s u := by
  cases h
  refine Keeps.of_kept ?_
  repeat' (first | (simp; done) | (refine (kept_foldl _ (fun s x => ?_) _ _).trans ?_) | split | dsimp only)

theorem keeps_execPortLinkDown (p : Port) (s : State) (u : State) (h : execPortLinkDown p s = .next u) : Keeps s u := by
  cases h; exact Keeps.of_kept (by simp)

theorem keeps_execPortLinkUp (p : Port) (s : State) (u : State) (h : execPortLinkUp p s = .next u) : Keeps s u := by
  cases h; exact Keeps.of_kept (by simp)

theorem keeps_execQuaysideHalfReset (half : Port) (s : State) (u : State) (h : execQuaysideHalfReset half s = .next u) :
    Keeps s u := by
  cases h; exact Keeps.of_kept (by simp)

theorem keeps_execPerst (p : Port) (asserted : Bool) (s : State) (u : State) (h : execPerst p asserted s = .next u) :
    Keeps s u := by
  cases h; exact Keeps.of_kept (by simp)

theorem keeps_execHotReset (p : Port) (s : State) (u : State) (h : execHotReset p s = .next u) : Keeps s u := by
  cases h; exact Keeps.of_kept (by simp)

theorem keeps_execLinkDisable (p : Port) (s : State) (u : State) (h : execLinkDisable p s = .next u) : Keeps s u := by
  cases h; exact Keeps.of_kept (by simp)

theorem keeps_execPf0Flr (p : Port) (s : State) (u : State) (h : execPf0Flr p s = .next u) : Keeps s u := by
  cases h; exact Keeps.of_kept (by simp)

theorem keeps_execVfEnableClear (p : Port) (numVFs : Fin 1025) (s : State) (u : State)
    (h : execVfEnableClear p numVFs s = .next u) : Keeps s u := by
  cases h; exact Keeps.of_kept (by simp)

theorem keeps_execHelmLeaseExpiry (s : State) (u : State) (h : execHelmLeaseExpiry s = .next u) : Keeps s u := by
  cases h; exact Keeps.of_kept (by split <;> simp)

theorem keeps_execHelmLease75 (s : State) (u : State) (h : execHelmLease75 s = .next u) : Keeps s u := by
  cases h; exact Keeps.of_kept (by simp)

theorem keeps_execAtsInvalidationRequest (p : Port) (page : Nat) (s : State) (u : State)
    (h : execAtsInvalidationRequest p page s = .next u) : Keeps s u := by
  cases h; exact Keeps.of_kept (by simp)

theorem keeps_execIdeIntegrityFailure (p : Port) (stream : Fin 4) (s : State) (u : State)
    (h : execIdeIntegrityFailure p stream s = .next u) : Keeps s u := by
  cases h; exact Keeps.of_kept (by simp)

theorem keeps_execLockInterfaceRequest (p : Port) (t : TenantId) (s : State) (u : State)
    (h : execLockInterfaceRequest p t s = .next u) : Keeps s u := by
  cases h; exact Keeps.of_kept (by simp)

theorem keeps_execStopInterfaceRequest (p : Port) (t : TenantId) (s : State) (u : State)
    (h : execStopInterfaceRequest p t s = .next u) : Keeps s u := by
  cases h; exact Keeps.of_kept (by simp)

theorem keeps_execEvtPost (byPort : Option Port) (size : Nat) (v : BitVec 64) (s : State) (u : State)
    (h : execEvtPost byPort size v s = .next u) : Keeps s u := by
  cases h; exact Keeps.of_kept (by simp)

theorem keeps_execSourceArrival (src : BitVec 12) (detail : BitVec 24) (s : State) (u : State)
    (h : execSourceArrival src detail s = .next u) : Keeps s u := by
  cases h; exact Keeps.of_kept (by simp)

theorem keeps_execSourceTimeThreshold (src : BitVec 12) (s : State) (u : State)
    (h : execSourceTimeThreshold src s = .next u) : Keeps s u := by
  cases h
  refine Keeps.of_kept ?_
  dsimp only; repeat' split
  all_goals first | (simp; done) | rfl

theorem keeps_execSourceRecordWrite (src : BitVec 12) (s : State) (u : State) (h : execSourceRecordWrite src s = .next u) :
    Keeps s u := by
  cases h; exact Keeps.of_kept (by simp)

theorem keeps_execEvtCtl (byPort : Option Port) (src : BitVec 12) (v : BitVec 32) (s : State) (u : State)
    (h : execEvtCtl byPort src v s = .next u) : Keeps s u := by
  cases h; exact Keeps.of_kept (by simp)

theorem keeps_execEvtStatPendingClear (byPort : Option Port) (src : BitVec 12) (s : State) (u : State)
    (h : execEvtStatPendingClear byPort src s = .next u) : Keeps s u := by
  cases h; exact Keeps.of_kept (by simp)

theorem keeps_execLighthouseAlarm (k : Fin 4) (s : State) (u : State) (h : execLighthouseAlarm k s = .next u) : Keeps s u := by
  cases h; exact Keeps.of_kept (by simp)

theorem keeps_execEqVectorDue (p : Port) (f : FnSel) (eq : Fin 32) (s : State) (u : State)
    (h : execEqVectorDue p f eq s = .next u) : Keeps s u := by
  cases h; exact Keeps.of_kept (by split <;> (try split) <;> simp)

theorem keeps_execMsixUnmask (p : Port) (f : FnSel) (entry : Fin 33) (s : State) (u : State)
    (h : execMsixUnmask p f entry s = .next u) : Keeps s u := by
  cases h; exact Keeps.of_kept (by split <;> simp)

theorem keeps_execDStateChange (p : Port) (f : FnSel) (d : DState) (s : State) (u : State)
    (h : execDStateChange p f d s = .next u) : Keeps s u := by
  cases h; exact Keeps.of_kept (by split <;> (try split) <;> simp)

theorem keeps_execPmeEnSet (p : Port) (f : FnSel) (s : State) (u : State) (h : execPmeEnSet p f s = .next u) : Keeps s u := by
  cases h; exact Keeps.of_kept (by split <;> simp)

theorem keeps_execAspmL1Entry (p : Port) (s : State) (u : State) (h : execAspmL1Entry p s = .next u) : Keeps s u := by
  cases h; exact Keeps.of_kept (by simp)

theorem keeps_execGets (basin : BasinId) (agent : Fin 4) (line : Nat) (tag : BitVec 6) (s : State) (u : State)
    (h : execGets basin agent line tag s = .next u) : Keeps s u := by
  cases h; exact Keeps.of_kept (by simp)

theorem keeps_execGetm (basin : BasinId) (agent : Fin 4) (line : Nat) (tag : BitVec 6) (s : State) (u : State)
    (h : execGetm basin agent line tag s = .next u) : Keeps s u := by
  cases h; exact Keeps.of_kept (by simp)

theorem keeps_execUpgr (basin : BasinId) (agent : Fin 4) (line : Nat) (tag : BitVec 6) (s : State) (u : State)
    (h : execUpgr basin agent line tag s = .next u) : Keeps s u := by
  cases h; exact Keeps.of_kept (by simp)

theorem keeps_execPutm (basin : BasinId) (agent : Fin 4) (line : Nat) (tag : BitVec 6) (s : State) (u : State)
    (h : execPutm basin agent line tag s = .next u) : Keeps s u := by
  cases h; exact Keeps.of_kept (by simp)

theorem keeps_execPuto (basin : BasinId) (agent : Fin 4) (line : Nat) (tag : BitVec 6) (s : State) (u : State)
    (h : execPuto basin agent line tag s = .next u) : Keeps s u := by
  cases h; exact Keeps.of_kept (by simp)

theorem keeps_execPute (basin : BasinId) (agent : Fin 4) (line : Nat) (tag : BitVec 6) (s : State) (u : State)
    (h : execPute basin agent line tag s = .next u) : Keeps s u := by
  cases h; exact Keeps.of_kept (by simp)

theorem keeps_execPuts (basin : BasinId) (agent : Fin 4) (line : Nat) (tag : BitVec 6) (s : State) (u : State)
    (h : execPuts basin agent line tag s = .next u) : Keeps s u := by
  cases h
  refine Keeps.of_kept ?_
  dsimp only; repeat' split
  all_goals first | (simp; done) | rfl

theorem keeps_execIord (basin : BasinId) (line : Nat) (tag : BitVec 6) (s : State) (u : State)
    (h : execIord basin line tag s = .next u) : Keeps s u := by
  cases h; exact Keeps.of_kept (by simp)

theorem keeps_execIowr (basin : BasinId) (line : Nat) (tag : BitVec 6) (off : Fin 64) (data : List Byte) (s : State)
    (u : State) (h : execIowr basin line tag off data s = .next u) : Keeps s u := by
  cases h; exact Keeps.of_kept (by simp)

theorem keeps_execAmo (basin : BasinId) (agent : Fin 5) (addr : Nat) (fn : Fin 5) (pair : Bool) (cmp operand : BitVec 48)
    (s : State) (u : State) (h : execAmo basin agent addr fn pair cmp operand s = .next u) : Keeps s u := by
  unfold execAmo at h
  extract_lets n line s1 at h
  injection h with h
  have k : kept s1 = kept s := by simp [s1]
  clear_value s1 n line
  refine Keeps.of_kept ?_
  rw [← h]
  split
  · rfl
  · generalize cohLine s1 _ _ = c
    obtain ⟨d, poison⟩ := c
    dsimp only
    generalize amoNew _ _ _ _ _ = o
    cases o <;> simp [k]

theorem keeps_execData (basin : BasinId) (agent : Fin 4) (line : Nat) (tag : BitVec 6) (s : State) (u : State)
    (h : execData basin agent line tag s = .next u) : Keeps s u := by
  unfold execData at h
  injection h with h
  refine Keeps.of_kept ?_
  rw [← h]
  repeat' (first
    | (simp; done)
    | (refine (kept_foldl _ (fun s x => ?_) _ _).trans ?_)
    | (split <;> (try (rename_i h; have e := congrArg (fun p => kept p.1) h; simp at e; rw [e]; clear e h)) <;> (try (rename_i h; have e := kept_takeMsg _ _ _ _ _ h; rw [← e]; clear e h)))
    | dsimp only)

theorem keeps_execFwddata (basin : BasinId) (agent : Fin 4) (line : Nat) (tag : BitVec 6) (s : State) (u : State)
    (h : execFwddata basin agent line tag s = .next u) : Keeps s u := by
  unfold execFwddata at h
  injection h with h
  refine Keeps.of_kept ?_
  rw [← h]
  repeat' (first
    | (simp; done)
    | (refine (kept_foldl _ (fun s x => ?_) _ _).trans ?_)
    | (split <;> (try (rename_i h; have e := congrArg (fun p => kept p.1) h; simp at e; rw [e]; clear e h)) <;> (try (rename_i h; have e := kept_takeMsg _ _ _ _ _ h; rw [← e]; clear e h)))
    | dsimp only)

theorem keeps_execGrant (basin : BasinId) (agent : Fin 4) (line : Nat) (tag : BitVec 6) (s : State) (u : State)
    (h : execGrant basin agent line tag s = .next u) : Keeps s u := by
  unfold execGrant at h
  injection h with h
  refine Keeps.of_kept ?_
  rw [← h]
  repeat' (first
    | (simp; done)
    | (refine (kept_foldl _ (fun s x => ?_) _ _).trans ?_)
    | (split <;> (try (rename_i h; have e := congrArg (fun p => kept p.1) h; simp at e; rw [e]; clear e h)) <;> (try (rename_i h; have e := kept_takeMsg _ _ _ _ _ h; rw [← e]; clear e h)))
    | dsimp only)

theorem keeps_execFwdgets (basin : BasinId) (agent : Fin 4) (line : Nat) (s : State) (u : State)
    (h : execFwdgets basin agent line s = .next u) : Keeps s u := by
  unfold execFwdgets at h
  injection h with h
  refine Keeps.of_kept ?_
  rw [← h]
  repeat' (first
    | (simp; done)
    | (refine (kept_foldl _ (fun s x => ?_) _ _).trans ?_)
    | (split <;> (try (rename_i h; have e := congrArg (fun p => kept p.1) h; simp at e; rw [e]; clear e h)) <;> (try (rename_i h; have e := kept_takeMsg _ _ _ _ _ h; rw [← e]; clear e h)))
    | dsimp only)

theorem keeps_execFwdgetm (basin : BasinId) (agent : Fin 4) (line : Nat) (s : State) (u : State)
    (h : execFwdgetm basin agent line s = .next u) : Keeps s u := by
  unfold execFwdgetm at h
  injection h with h
  refine Keeps.of_kept ?_
  rw [← h]
  repeat' (first
    | (simp; done)
    | (refine (kept_foldl _ (fun s x => ?_) _ _).trans ?_)
    | (split <;> (try (rename_i h; have e := congrArg (fun p => kept p.1) h; simp at e; rw [e]; clear e h)) <;> (try (rename_i h; have e := kept_takeMsg _ _ _ _ _ h; rw [← e]; clear e h)))
    | dsimp only)

theorem keeps_execInv (basin : BasinId) (agent : Fin 4) (line : Nat) (s : State) (u : State)
    (h : execInv basin agent line s = .next u) : Keeps s u := by
  unfold execInv at h
  injection h with h
  refine Keeps.of_kept ?_
  rw [← h]
  repeat' (first
    | (simp; done)
    | (refine (kept_foldl _ (fun s x => ?_) _ _).trans ?_)
    | (split <;> (try (rename_i h; have e := congrArg (fun p => kept p.1) h; simp at e; rw [e]; clear e h)) <;> (try (rename_i h; have e := kept_takeMsg _ _ _ _ _ h; rw [← e]; clear e h)))
    | dsimp only)

theorem keeps_execNack (basin : BasinId) (agent : Fin 4) (line : Nat) (tag : BitVec 6) (s : State) (u : State)
    (h : execNack basin agent line tag s = .next u) : Keeps s u := by
  unfold execNack at h
  injection h with h
  refine Keeps.of_kept ?_
  rw [← h]
  repeat' (first
    | (simp; done)
    | (refine (kept_foldl _ (fun s x => ?_) _ _).trans ?_)
    | (split <;> (try (rename_i h; have e := congrArg (fun p => kept p.1) h; simp at e; rw [e]; clear e h)) <;> (try (rename_i h; have e := kept_takeMsg _ _ _ _ _ h; rw [← e]; clear e h)))
    | dsimp only)

theorem keeps_execNackRetry (basin : BasinId) (agent : Fin 4) (line : Nat) (tag : BitVec 6) (s : State) (u : State)
    (h : execNackRetry basin agent line tag s = .next u) : Keeps s u := by
  cases h; exact Keeps.of_kept (by split <;> (try split) <;> simp)

theorem keeps_execWback (basin : BasinId) (agent : Fin 4) (line : Nat) (tag : BitVec 6) (s : State) (u : State)
    (h : execWback basin agent line tag s = .next u) : Keeps s u := by
  unfold execWback at h
  injection h with h
  refine Keeps.of_kept ?_
  rw [← h]
  repeat' (first
    | (simp; done)
    | (refine (kept_foldl _ (fun s x => ?_) _ _).trans ?_)
    | (split <;> (try (rename_i h; have e := congrArg (fun p => kept p.1) h; simp at e; rw [e]; clear e h)) <;> (try (rename_i h; have e := kept_takeMsg _ _ _ _ _ h; rw [← e]; clear e h)))
    | dsimp only)

theorem keeps_execWbstale (basin : BasinId) (agent : Fin 4) (line : Nat) (tag : BitVec 6) (s : State) (u : State)
    (h : execWbstale basin agent line tag s = .next u) : Keeps s u := by
  unfold execWbstale at h
  injection h with h
  refine Keeps.of_kept ?_
  rw [← h]
  repeat' (first
    | (simp; done)
    | (refine (kept_foldl _ (fun s x => ?_) _ _).trans ?_)
    | (split <;> (try (rename_i h; have e := congrArg (fun p => kept p.1) h; simp at e; rw [e]; clear e h)) <;> (try (rename_i h; have e := kept_takeMsg _ _ _ _ _ h; rw [← e]; clear e h)))
    | dsimp only)

theorem keeps_execFwdack (basin : BasinId) (agent : Fin 4) (line : Nat) (s : State) (u : State)
    (h : execFwdack basin agent line s = .next u) : Keeps s u := by
  unfold execFwdack at h
  injection h with h
  refine Keeps.of_kept ?_
  rw [← h]
  repeat' (first
    | (simp; done)
    | (refine (kept_foldl _ (fun s x => ?_) _ _).trans ?_)
    | (split <;> (try (rename_i h; have e := congrArg (fun p => kept p.1) h; simp at e; rw [e]; clear e h)) <;> (try (rename_i h; have e := kept_takeMsg _ _ _ _ _ h; rw [← e]; clear e h)))
    | dsimp only)

theorem keeps_execInvack (basin : BasinId) (agent : Fin 4) (line : Nat) (s : State) (u : State)
    (h : execInvack basin agent line s = .next u) : Keeps s u := by
  unfold execInvack at h
  injection h with h
  refine Keeps.of_kept ?_
  rw [← h]
  repeat' (first
    | (simp; done)
    | (refine (kept_foldl _ (fun s x => ?_) _ _).trans ?_)
    | (split <;> (try (rename_i h; have e := congrArg (fun p => kept p.1) h; simp at e; rw [e]; clear e h)) <;> (try (rename_i h; have e := kept_takeMsg _ _ _ _ _ h; rw [← e]; clear e h)))
    | dsimp only)

theorem keeps_execCoherenceTimeout (basin : BasinId) (trigger : Fin 2) (pier : Fin 4) (s : State) (u : State)
    (h : execCoherenceTimeout basin trigger pier s = .next u) : Keeps s u := by
  cases h; exact Keeps.of_kept (by simp)

theorem keeps_execL2Clean (pier : PierId) (s : State) (u : State) (h : execL2Clean pier s = .next u) : Keeps s u := by
  cases h; exact Keeps.of_kept (by simp)

theorem keeps_execL2Inv (pier : PierId) (s : State) (u : State) (h : execL2Inv pier s = .next u) : Keeps s u := by
  cases h; exact Keeps.of_kept (by simp)

theorem keeps_execL2En (pier : PierId) (on : Bool) (s : State) (u : State) (h : execL2En pier on s = .next u) : Keeps s u := by
  cases h; exact Keeps.of_kept (by simp)

theorem keeps_execLockWays (pier : PierId) (n : BitVec 4) (s : State) (u : State) (h : execLockWays pier n s = .next u) :
    Keeps s u := by
  cases h; exact Keeps.of_kept (by simp)

theorem keeps_execPierL1dEn (pier : PierId) (v : BitVec 18) (s : State) (u : State) (h : execPierL1dEn pier v s = .next u) :
    Keeps s u := by
  cases h; exact Keeps.of_kept (by simp)

theorem keeps_execPierL1iEn (pier : PierId) (v : BitVec 18) (s : State) (u : State) (h : execPierL1iEn pier v s = .next u) :
    Keeps s u := by
  cases h; exact Keeps.of_kept (by simp)

theorem keeps_execPierL1Inv (pier : PierId) (v : BitVec 18) (s : State) (u : State) (h : execPierL1Inv pier v s = .next u) :
    Keeps s u := by
  cases h; exact Keeps.of_kept (by simp)

theorem keeps_execPierEvqHead (pier : PierId) (v : BitVec 8) (s : State) (u : State)
    (h : execPierEvqHead pier v s = .next u) : Keeps s u := by
  cases h; exact Keeps.of_kept (by simp)

theorem keeps_execMismatchDetected (pair : PairId) (thread : BitVec 8) (kind : Fin 3) (lane : BitVec 16) (s : State)
    (u : State) (h : execMismatchDetected pair thread kind lane s = .next u) : Keeps s u := by
  cases h; exact Keeps.of_kept (by simp)

theorem keeps_execSelftestDone (pair : PairId) (coreMask partMask : BitVec 8) (s : State) (u : State)
    (h : execSelftestDone pair coreMask partMask s = .next u) : Keeps s u := by
  cases h; exact Keeps.of_kept (by split <;> simp)

theorem keeps_execHandover (pier : PierId) (testPasses : Bool) (lane lanes : BitVec 16) (s : State) (u : State)
    (h : execHandover pier testPasses lane lanes s = .next u) : Keeps s u := by
  cases h
  refine Keeps.of_kept ?_
  dsimp only; repeat' split
  all_goals first | (simp; done) | rfl

theorem keeps_execBerthReconfigure (pair : PairId) (testPasses : Bool) (lane lanes : BitVec 16) (s : State)
    (u : State) (h : execBerthReconfigure pair testPasses lane lanes s = .next u) : Keeps s u := by
  cases h
  refine Keeps.of_kept ?_
  dsimp only; repeat' split
  all_goals first | (simp; done) | rfl

theorem keeps_execDailyComparatorTest (pair : PairId) (lane lanes : BitVec 16) (s : State) (u : State)
    (h : execDailyComparatorTest pair lane lanes s = .next u) : Keeps s u := by
  cases h; exact Keeps.of_kept (by simp)

theorem keeps_execAdoptionComplete (basin : BasinId) (s : State) (u : State) (h : execAdoptionComplete basin s = .next u) :
    Keeps s u := by
  cases h; exact Keeps.of_kept (by split <;> simp)

theorem keeps_execBasinResetDone (basin : BasinId) (passed : Bool) (s : State) (u : State)
    (h : execBasinResetDone basin passed s = .next u) : Keeps s u := by
  cases h; exact Keeps.of_kept (by simp)

theorem keeps_execFairwayRetrain (segment : BasinId) (up : Bool) (s : State) (u : State)
    (h : execFairwayRetrain segment up s = .next u) : Keeps s u := by
  cases h; exact Keeps.of_kept (by simp)

theorem keeps_execPatrolScrub (stack : BasinId) (corrected : BitVec 32) (s : State) (u : State)
    (h : execPatrolScrub stack corrected s = .next u) : Keeps s u := by
  cases h; exact Keeps.of_kept (by simp)

theorem keeps_execNak (link : Fin 2) (seq : BitVec 12) (s : State) (u : State) (h : execNak link seq s = .next u) :
    Keeps s u := by
  cases h
  refine Keeps.of_kept ?_
  dsimp only
  rw [kept_ite]
  split
  · rfl
  · rw [kept_ite]
    split
    · simp
    · generalize findIdx' _ _ _ = o
      cases o <;> simp

theorem keeps_execFlitReplayTimeout (link : Fin 2) (s : State) (u : State) (h : execFlitReplayTimeout link s = .next u) :
    Keeps s u := by
  unfold execFlitReplayTimeout at h
  injection h with h
  refine Keeps.of_kept ?_
  rw [← h]
  repeat' (first
    | (simp; done)
    | (refine (kept_foldl _ (fun s x => ?_) _ _).trans ?_)
    | (split <;> (try (rename_i h; have e := congrArg (fun p => kept p.1) h; simp at e; rw [e]; clear e h)) <;> (try (rename_i h; have e := kept_takeMsg _ _ _ _ _ h; rw [← e]; clear e h)))
    | dsimp only)

theorem keeps_execIdleFlit (link : Fin 2) (ack : Option (BitVec 12)) (cvc : Fin 3) (credits : BitVec 8) (s : State)
    (u : State) (h : execIdleFlit link ack cvc credits s = .next u) : Keeps s u := by
  cases h; exact Keeps.of_kept (by simp)

theorem keeps_execFlitCrcFail (link : Fin 2) (s : State) (u : State) (h : execFlitCrcFail link s = .next u) : Keeps s u := by
  cases h; exact Keeps.of_kept (by simp)

theorem keeps_execHawserRetrain (link : Fin 2) (lanes : Fin 3) (s : State) (u : State)
    (h : execHawserRetrain link lanes s = .next u) : Keeps s u := by
  cases h; exact Keeps.of_kept (by simp)

theorem keeps_execHawserTrainingRetry (link : Fin 2) (s : State) (u : State) (h : execHawserTrainingRetry link s = .next u) :
    Keeps s u := by
  cases h; exact Keeps.of_kept (by simp)

theorem keeps_execHawserLockLost (link : Fin 2) (s : State) (u : State) (h : execHawserLockLost link s = .next u) :
    Keeps s u := by
  cases h; exact Keeps.of_kept (by simp)

theorem keeps_execHawserInit (link : Fin 2) (s : State) (u : State) (h : execHawserInit link s = .next u) : Keeps s u := by
  cases h; exact Keeps.of_kept (by simp)

theorem keeps_execHello (link : Fin 2) (m : HelloMsg) (s : State) (u : State) (h : execHello link m s = .next u) :
    Keeps s u := by
  cases h; exact Keeps.of_kept (by simp)

theorem keeps_execMirrorData (h : FlitHdr) (items : List MirrorItem) (s : State) (u : State)
    (e : execMirrorData h items s = .next u) : Keeps s u := by
  cases e
  refine Keeps.of_kept ?_
  have k := kept_takeData s h 0
  cases x : takeData s h 0 <;> rw [x] at k <;> simp only [Arrived.state] at k
  · exact k
  · exact k
  · rename_i t
    refine Eq.trans ?_ k
    clear k x
    repeat' (first | (simp; done) | split | dsimp only)

theorem keeps_execMirrorAck (h : FlitHdr) (basin : BasinId) (count : Nat) (s : State) (u : State)
    (e : execMirrorAck h basin count s = .next u) : Keeps s u := by
  cases e
  refine Keeps.of_kept ?_
  have k := kept_takeData s h 0
  cases x : takeData s h 0 <;> rw [x] at k <;> simp only [Arrived.state] at k
  · exact k
  · exact k
  · rename_i t
    refine Eq.trans ?_ k
    clear k x
    repeat' (first | (simp; done) | split | dsimp only)

theorem keeps_execSeedEnd (s : State) (u : State) (h : execSeedEnd s = .next u) : Keeps s u := by
  unfold execSeedEnd at h
  injection h with h
  refine Keeps.of_kept ?_
  rw [← h]
  repeat' (first
    | (simp; done)
    | (refine (kept_foldl _ (fun s x => ?_) _ _).trans ?_)
    | (split <;> (try (rename_i h; have e := congrArg (fun p => kept p.1) h; simp at e; rw [e]; clear e h)) <;> (try (rename_i h; have e := kept_takeMsg _ _ _ _ _ h; rw [← e]; clear e h)))
    | dsimp only)

theorem keeps_execTideRecord (h : FlitHdr) (record : List Byte) (retiredTide : BitVec 64) (s : State) (u : State)
    (e : execTideRecord h record retiredTide s = .next u) : Keeps s u := by
  cases e
  refine Keeps.of_kept ?_
  have k := kept_takeData s h 1
  cases x : takeData s h 1 <;> rw [x] at k <;> simp only [Arrived.state] at k
  · exact k
  · exact k
  · rename_i t
    refine Eq.trans ?_ k
    clear k x
    repeat' (first | (simp; done) | split | dsimp only)

theorem keeps_execHeartbeatSend (s : State) (u : State) (h : execHeartbeatSend s = .next u) : Keeps s u := by
  unfold execHeartbeatSend at h
  injection h with h
  refine Keeps.of_kept ?_
  rw [← h]
  repeat' (first
    | (simp; done)
    | (refine (kept_foldl _ (fun s x => ?_) _ _).trans ?_)
    | (split <;> (try (rename_i h; have e := congrArg (fun p => kept p.1) h; simp at e; rw [e]; clear e h)) <;> (try (rename_i h; have e := kept_takeMsg _ _ _ _ _ h; rw [← e]; clear e h)))
    | dsimp only)

theorem keeps_execHeartbeat (h : FlitHdr) (state : Fin 2) (taken : BitVec 4) (s : State) (u : State)
    (e : execHeartbeat h state taken s = .next u) : Keeps s u := by
  cases e
  refine Keeps.of_kept ?_
  have k := kept_takeData s h 2
  cases x : takeData s h 2 <;> rw [x] at k <;> simp only [Arrived.state] at k
  · exact k
  · exact k
  · rename_i t
    refine Eq.trans ?_ k
    clear k x
    repeat' (first | (simp; done) | split | dsimp only)

theorem keeps_execPartnerLost (q : Fin 4) (s : State) (u : State) (h : execPartnerLost q s = .next u) : Keeps s u := by
  unfold execPartnerLost at h
  injection h with h
  refine Keeps.of_kept ?_
  rw [← h]
  repeat' (first
    | (simp; done)
    | (refine (kept_foldl _ (fun s x => ?_) _ _).trans ?_)
    | (split <;> (try (rename_i h; have e := congrArg (fun p => kept p.1) h; simp at e; rw [e]; clear e h)) <;> (try (rename_i h; have e := kept_takeMsg _ _ _ _ _ h; rw [← e]; clear e h)))
    | dsimp only)

theorem keeps_execRoadsteadJoin (m : MbReq) (s : State) (u : State) (h : execRoadsteadJoin m s = .next u) : Keeps s u := by
  cases h
  exact keeps_mbGo _ cmdKeeps_RoadsteadJoin m s

theorem keeps_execRoadsteadStatus (m : MbReq) (s : State) (u : State) (h : execRoadsteadStatus m s = .next u) : Keeps s u := by
  cases h
  exact keeps_mbGo _ cmdKeeps_RoadsteadStatus m s

theorem keeps_execPartnerTakeover (m : MbReq) (s : State) (u : State) (h : execPartnerTakeover m s = .next u) : Keeps s u := by
  cases h
  exact keeps_mbGo _ cmdKeeps_PartnerTakeover m s

theorem keeps_execRegulatorVoltageReported (basin : BasinId) (s : State) (u : State)
    (h : execRegulatorVoltageReported basin s = .next u) : Keeps s u := by
  cases h
  refine Keeps.of_kept ?_
  repeat' (first | (simp; done) | split | dsimp only)

theorem keeps_execAvsNoAnswer (basin : BasinId) (s : State) (u : State) (h : execAvsNoAnswer basin s = .next u) :
    Keeps s u := by
  cases h; exact Keeps.of_kept (by simp)

theorem keeps_execDroopDetected (island : BitVec 10) (s : State) (u : State) (h : execDroopDetected island s = .next u) :
    Keeps s u := by
  cases h; exact Keeps.of_kept (by simp)

theorem keeps_execClockStretchEnd (island : BitVec 10) (s : State) (u : State) (h : execClockStretchEnd island s = .next u) :
    Keeps s u := by
  cases h
  refine Keeps.of_kept ?_
  dsimp only; repeat' split
  all_goals first | (simp; done) | rfl

theorem keeps_execBarometerUpdate (island : BitVec 10) (voltMv : BitVec 10) (temp : BitVec 12) (droops : BitVec 10)
    (s : State) (u : State) (h : execBarometerUpdate island voltMv temp droops s = .next u) : Keeps s u := by
  cases h; exact Keeps.of_kept (by simp)

theorem keeps_execGaleExit (s : State) (u : State) (h : execGaleExit s = .next u) : Keeps s u := by
  cases h; exact Keeps.of_kept (by split <;> simp)

theorem keeps_execCalmEntry (pier : PierId) (s : State) (u : State) (h : execCalmEntry pier s = .next u) : Keeps s u := by
  cases h; exact Keeps.of_kept (by simp)

theorem keeps_execDoldrumsEntry (s : State) (u : State) (h : execDoldrumsEntry s = .next u) : Keeps s u := by
  cases h; exact Keeps.of_kept (by simp)

theorem keeps_execIslandWakeComplete (island : BitVec 10) (s : State) (u : State)
    (h : execIslandWakeComplete island s = .next u) : Keeps s u := by
  cases h; exact Keeps.of_kept (by simp)

theorem keeps_execPpsEdge (s : State) (u : State) (h : execPpsEdge s = .next u) : Keeps s u := by
  cases h; exact Keeps.of_kept (by simp)

theorem keeps_execPpsLockLost (s : State) (u : State) (h : execPpsLockLost s = .next u) : Keeps s u := by
  cases h; exact Keeps.of_kept (by split <;> simp)

theorem keeps_execTenmhzLost (s : State) (u : State) (h : execTenmhzLost s = .next u) : Keeps s u := by
  cases h; exact Keeps.of_kept (by simp)

theorem keeps_execPwrGoodAonRise (s : State) (u : State) (h : execPwrGoodAonRise s = .next u) : Keeps s u := by
  cases h; exact Keeps.of_kept (by simp)

theorem keeps_execPwrGoodCoreRise (s : State) (u : State) (h : execPwrGoodCoreRise s = .next u) : Keeps s u := by
  cases h
  dsimp only
  split
  · exact Keeps.refl s
  · exact Keeps.trans (Keeps.of_kept (by simp)) (keeps_enterStep2 _)

theorem keeps_execPwrGoodCoreFall (s : State) (u : State) (h : execPwrGoodCoreFall s = .next u) : Keeps s u := by
  unfold execPwrGoodCoreFall at h
  injection h with h
  refine Keeps.of_kept ?_
  rw [← h]
  repeat' (first
    | (simp; done)
    | (refine (kept_foldl _ (fun s x => ?_) _ _).trans ?_)
    | (split <;> (try (rename_i h; have e := congrArg (fun p => kept p.1) h; simp at e; rw [e]; clear e h)) <;> (try (rename_i h; have e := kept_takeMsg _ _ _ _ _ h; rw [← e]; clear e h)))
    | dsimp only)

theorem keeps_execPwrGoodAonFall (s : State) (u : State) (h : execPwrGoodAonFall s = .next u) : Keeps s u := by
  cases h; exact Keeps.of_kept (by simp)

theorem keeps_execHarbReset (pulseNs : Nat) (s : State) (u : State) (h : execHarbReset pulseNs s = .next u) : Keeps s u := by
  cases h
  split
  · exact Keeps.refl s
  · split
    · exact Keeps.trans (Keeps.of_kept (by simp)) (keeps_enterStep2 _)
    · exact Keeps.of_kept (by simp)

theorem keeps_execBootFailed (s : State) (u : State) (h : execBootFailed s = .next u) : Keeps s u := by
  cases h
  dsimp only
  split
  · exact Keeps.refl s
  · exact Keeps.trans (Keeps.of_kept (by simp)) (keeps_enterStep2 _)

theorem keeps_execServiceStart (failed : List (BitVec 10)) (s : State) (u : State)
    (h : execServiceStart failed s = .next u) : Keeps s u := by
  unfold execServiceStart at h
  injection h with h
  refine Keeps.of_kept ?_
  rw [← h]
  repeat' (first
    | (simp; done)
    | (refine (kept_foldl _ (fun s x => ?_) _ _).trans ?_)
    | (split <;> (try (rename_i h; have e := congrArg (fun p => kept p.1) h; simp at e; rw [e]; clear e h)) <;> (try (rename_i h; have e := kept_takeMsg _ _ _ _ _ h; rw [← e]; clear e h)))
    | dsimp only)

theorem keeps_execSlipwayEntered (cause : Fin 4) (s : State) (u : State) (h : execSlipwayEntered cause s = .next u) :
    Keeps s u := by
  cases h; exact Keeps.of_kept (by simp)

theorem keeps_execFlashOwnAssert (s : State) (u : State) (h : execFlashOwnAssert s = .next u) : Keeps s u := by
  cases h; exact Keeps.of_kept (by simp)

theorem keeps_execFlashOwnRelease (s : State) (u : State) (h : execFlashOwnRelease s = .next u) : Keeps s u := by
  cases h; exact Keeps.of_kept (by simp)

theorem keeps_execIslandReset (island : BitVec 10) (cause : Fin 3) (dropped : BitVec 32) (s : State) (u : State)
    (h : execIslandReset island cause dropped s = .next u) : Keeps s u := by
  cases h; exact Keeps.of_kept (by simp)

theorem keeps_execPilotRestart (cause : BitVec 8) (s : State) (u : State) (h : execPilotRestart cause s = .next u) :
    Keeps s u := by
  cases h; exact Keeps.of_kept (by simp)

theorem keeps_execGetVersion (r : SpdmReq) (s : State) (u : State) (h : execGetVersion r s = .next u) : Keeps s u := by
  cases h; exact Keeps.of_kept (by simp)

theorem keeps_execGetCapabilities (r : SpdmReq) (s : State) (u : State) (h : execGetCapabilities r s = .next u) :
    Keeps s u := by
  cases h; exact Keeps.of_kept (by simp)

theorem keeps_execNegotiateAlgorithms (r : SpdmReq) (s : State) (u : State) (h : execNegotiateAlgorithms r s = .next u) :
    Keeps s u := by
  cases h; exact Keeps.of_kept (by simp)

theorem keeps_execGetDigests (r : SpdmReq) (s : State) (u : State) (h : execGetDigests r s = .next u) : Keeps s u := by
  cases h; exact Keeps.of_kept (by simp)

theorem keeps_execGetCertificate (r : SpdmReq) (s : State) (u : State) (h : execGetCertificate r s = .next u) : Keeps s u := by
  cases h; exact Keeps.of_kept (by simp)

theorem keeps_execChallenge (r : SpdmReq) (s : State) (u : State) (h : execChallenge r s = .next u) : Keeps s u := by
  cases h; exact Keeps.of_kept (by simp)

theorem keeps_execGetMeasurements (r : SpdmReq) (s : State) (u : State) (h : execGetMeasurements r s = .next u) :
    Keeps s u := by
  cases h; exact Keeps.of_kept (by simp)

theorem keeps_execKeyExchange (r : SpdmReq) (s : State) (u : State) (h : execKeyExchange r s = .next u) : Keeps s u := by
  unfold execKeyExchange at h
  injection h with h
  refine Keeps.of_kept ?_
  rw [← h]
  repeat' (first
    | (simp; done)
    | (refine (kept_foldl _ (fun s x => ?_) _ _).trans ?_)
    | (refine (kept_spdmReady _ _ _ (fun s => ?_)).trans ?_)
    | (split <;> (try (rename_i h; have e := congrArg (fun p => kept p.1) h; simp at e; rw [e]; clear e h)) <;> (try (rename_i h; have e := kept_takeMsg _ _ _ _ _ h; rw [← e]; clear e h)))
    | dsimp only)

theorem keeps_execFinish (r : SpdmReq) (s : State) (u : State) (h : execFinish r s = .next u) : Keeps s u := by
  cases h
  refine Keeps.of_kept ?_
  dsimp only; repeat' split
  all_goals first | (simp; done) | rfl

theorem keeps_execEndSession (r : SpdmReq) (s : State) (u : State) (h : execEndSession r s = .next u) : Keeps s u := by
  cases h; exact Keeps.of_kept (by simp)

theorem keeps_execKeyUpdate (r : SpdmReq) (s : State) (u : State) (h : execKeyUpdate r s = .next u) : Keeps s u := by
  cases h; exact Keeps.of_kept (by simp)

theorem keeps_execSpdmHeartbeat (r : SpdmReq) (s : State) (u : State) (h : execSpdmHeartbeat r s = .next u) : Keeps s u := by
  cases h; exact Keeps.of_kept (by simp)

theorem keeps_execVendorDefinedRequest (r : SpdmReq) (s : State) (u : State) (h : execVendorDefinedRequest r s = .next u) :
    Keeps s u := by
  cases h; exact Keeps.of_kept (by split <;> simp)

end Sys2Proof.Machine
end

