-- ==== Sys2Proof/Laws/KeptCommands3.lean ====
section
/-! SUPPORT. What each command leaves alone (Safety.Keeps): the queue and the time of the timers stay, and OTP only gains burns. -/

set_option linter.unusedSimpArgs false

set_option linter.unusedTactic false
set_option linter.unreachableTactic false
set_option linter.unusedVariables false

namespace Sys2Proof.Machine

theorem keeps_execGetDeviceInfo (m : MbReq) (s : State) (u : State) (h : execGetDeviceInfo m s = .next u) : Keeps s u := by
  cases h
  exact keeps_mbGo _ cmdKeeps_GetDeviceInfo m s

theorem keeps_execGetCaps (m : MbReq) (s : State) (u : State) (h : execGetCaps m s = .next u) : Keeps s u := by
  cases h
  exact keeps_mbGo _ cmdKeeps_GetCaps m s

theorem keeps_execHelmAcquire (m : MbReq) (s : State) (u : State) (h : execHelmAcquire m s = .next u) : Keeps s u := by
  cases h
  exact keeps_mbGo _ cmdKeeps_HelmAcquire m s

theorem keeps_execHelmRelease (m : MbReq) (s : State) (u : State) (h : execHelmRelease m s = .next u) : Keeps s u := by
  cases h
  exact keeps_mbGo _ cmdKeeps_HelmRelease m s

theorem keeps_execTimeSet (m : MbReq) (s : State) (u : State) (h : execTimeSet m s = .next u) : Keeps s u := by
  cases h
  exact keeps_mbGo _ cmdKeeps_TimeSet m s

theorem keeps_execTenantCreate (m : MbReq) (s : State) (u : State) (h : execTenantCreate m s = .next u) : Keeps s u := by
  cases h
  exact keeps_mbGo _ cmdKeeps_TenantCreate m s

theorem keeps_execTenantConfigure (m : MbReq) (s : State) (u : State) (h : execTenantConfigure m s = .next u) : Keeps s u := by
  cases h
  exact keeps_mbGo _ cmdKeeps_TenantConfigure m s

theorem keeps_execTenantQuiesce (m : MbReq) (s : State) (u : State) (h : execTenantQuiesce m s = .next u) : Keeps s u := by
  cases h
  exact keeps_mbGo _ cmdKeeps_TenantQuiesce m s

theorem keeps_execTenantResume (m : MbReq) (s : State) (u : State) (h : execTenantResume m s = .next u) : Keeps s u := by
  cases h
  exact keeps_mbGo _ cmdKeeps_TenantResume m s

theorem keeps_execTenantDestroy (m : MbReq) (s : State) (u : State) (h : execTenantDestroy m s = .next u) : Keeps s u := by
  cases h
  exact keeps_mbGo _ cmdKeeps_TenantDestroy m s

theorem keeps_execTenantResync (m : MbReq) (s : State) (u : State) (h : execTenantResync m s = .next u) : Keeps s u := by
  cases h
  exact keeps_mbGo _ cmdKeeps_TenantResync m s

theorem keeps_execQueueCreate (m : MbReq) (s : State) (u : State) (h : execQueueCreate m s = .next u) : Keeps s u := by
  cases h
  exact keeps_mbGo _ cmdKeeps_QueueCreate m s

theorem keeps_execQueueDestroy (m : MbReq) (s : State) (u : State) (h : execQueueDestroy m s = .next u) : Keeps s u := by
  cases h
  exact keeps_mbGo _ cmdKeeps_QueueDestroy m s

theorem keeps_execClassSet (m : MbReq) (s : State) (u : State) (h : execClassSet m s = .next u) : Keeps s u := by
  cases h
  exact keeps_mbGo _ cmdKeeps_ClassSet m s

theorem keeps_execPartitionMapSet (m : MbReq) (s : State) (u : State) (h : execPartitionMapSet m s = .next u) : Keeps s u := by
  cases h
  exact keeps_mbGo _ cmdKeeps_PartitionMapSet m s

theorem keeps_execChainPoolCreate (m : MbReq) (s : State) (u : State) (h : execChainPoolCreate m s = .next u) : Keeps s u := by
  cases h
  exact keeps_mbGo _ cmdKeeps_ChainPoolCreate m s

theorem keeps_execChainPoolDestroy (m : MbReq) (s : State) (u : State) (h : execChainPoolDestroy m s = .next u) :
    Keeps s u := by
  cases h
  exact keeps_mbGo _ cmdKeeps_ChainPoolDestroy m s

theorem keeps_execHandlerLoad (m : MbReq) (s : State) (u : State) (h : execHandlerLoad m s = .next u) : Keeps s u := by
  cases h
  exact keeps_mbGo _ cmdKeeps_HandlerLoad m s

theorem keeps_execHandlerBind (m : MbReq) (s : State) (u : State) (h : execHandlerBind m s = .next u) : Keeps s u := by
  cases h
  exact keeps_mbGo _ cmdKeeps_HandlerBind m s

theorem keeps_execFormatLoad (m : MbReq) (s : State) (u : State) (h : execFormatLoad m s = .next u) : Keeps s u := by
  cases h
  exact keeps_mbGo _ cmdKeeps_FormatLoad m s

theorem keeps_execLedgerConfigure (m : MbReq) (s : State) (u : State) (h : execLedgerConfigure m s = .next u) : Keeps s u := by
  cases h
  exact keeps_mbGo _ cmdKeeps_LedgerConfigure m s

theorem keeps_execTideGet (m : MbReq) (s : State) (u : State) (h : execTideGet m s = .next u) : Keeps s u := by
  cases h
  exact keeps_mbGo _ cmdKeeps_TideGet m s

theorem keeps_execProofGet (m : MbReq) (s : State) (u : State) (h : execProofGet m s = .next u) : Keeps s u := by
  cases h
  exact keeps_mbGo _ cmdKeeps_ProofGet m s

theorem keeps_execLedgerTrim (m : MbReq) (s : State) (u : State) (h : execLedgerTrim m s = .next u) : Keeps s u := by
  cases h
  exact keeps_mbGo _ cmdKeeps_LedgerTrim m s

theorem keeps_execBerthSplit (m : MbReq) (s : State) (u : State) (h : execBerthSplit m s = .next u) : Keeps s u := by
  cases h
  exact keeps_mbGo _ cmdKeeps_BerthSplit m s

theorem keeps_execBerthJoin (m : MbReq) (s : State) (u : State) (h : execBerthJoin m s = .next u) : Keeps s u := by
  cases h
  exact keeps_mbGo _ cmdKeeps_BerthJoin m s

theorem keeps_execBerthRetire (m : MbReq) (s : State) (u : State) (h : execBerthRetire m s = .next u) : Keeps s u := by
  cases h
  exact keeps_mbGo _ cmdKeeps_BerthRetire m s

theorem keeps_execBasinRecover (m : MbReq) (s : State) (u : State) (h : execBasinRecover m s = .next u) : Keeps s u := by
  cases h
  exact keeps_mbGo _ cmdKeeps_BasinRecover m s

theorem keeps_execErrorInject (m : MbReq) (s : State) (u : State) (h : execErrorInject m s = .next u) : Keeps s u := by
  cases h
  exact keeps_mbGo _ cmdKeeps_ErrorInject m s

theorem keeps_execThermalStatus (m : MbReq) (s : State) (u : State) (h : execThermalStatus m s = .next u) : Keeps s u := by
  cases h
  exact keeps_mbGo _ cmdKeeps_ThermalStatus m s

theorem keeps_execLogbookRead (m : MbReq) (s : State) (u : State) (h : execLogbookRead m s = .next u) : Keeps s u := by
  cases h
  exact keeps_mbGo _ cmdKeeps_LogbookRead m s

theorem keeps_execLogbookClear (m : MbReq) (s : State) (u : State) (h : execLogbookClear m s = .next u) : Keeps s u := by
  cases h
  exact keeps_mbGo _ cmdKeeps_LogbookClear m s

theorem keeps_execDiagRun (m : MbReq) (s : State) (u : State) (h : execDiagRun m s = .next u) : Keeps s u := by
  cases h
  exact keeps_mbGo _ cmdKeeps_DiagRun m s

theorem keeps_execPowerPolicySet (m : MbReq) (s : State) (u : State) (h : execPowerPolicySet m s = .next u) : Keeps s u := by
  cases h
  exact keeps_mbGo _ cmdKeeps_PowerPolicySet m s

theorem keeps_execFwStageBegin (m : MbReq) (s : State) (u : State) (h : execFwStageBegin m s = .next u) : Keeps s u := by
  cases h
  exact keeps_mbGo _ cmdKeeps_FwStageBegin m s

theorem keeps_execFwStageData (m : MbReq) (s : State) (u : State) (h : execFwStageData m s = .next u) : Keeps s u := by
  cases h
  exact keeps_mbGo _ cmdKeeps_FwStageData m s

theorem keeps_execFwStageEnd (m : MbReq) (s : State) (u : State) (h : execFwStageEnd m s = .next u) : Keeps s u := by
  cases h
  exact keeps_mbGo _ cmdKeeps_FwStageEnd m s

theorem keeps_execComponentReady (s : State) (u : State) (h : execComponentReady s = .next u) : Keeps s u := by
  cases h
  cases s.fw.todo with
  | nil => exact Keeps.refl s
  | cons k rest =>
    dsimp only
    split
    · exact Keeps.refl s
    · exact Keeps.trans (Keeps.of_kept (by simp)) (keeps_beginHead _)

theorem keeps_execReadyCheckTimeout (s : State) (u : State) (h : execReadyCheckTimeout s = .next u) : Keeps s u := by
  unfold execReadyCheckTimeout at h
  injection h with h
  refine Keeps.of_kept ?_
  rw [← h]
  repeat' (first
    | (simp; done)
    | (refine (kept_foldl _ (fun s x => ?_) _ _).trans ?_)
    | (split <;> (try (rename_i h; have e := congrArg (fun p => kept p.1) h; simp at e; rw [e]; clear e h)) <;> (try (rename_i h; have e := kept_takeMsg _ _ _ _ _ h; rw [← e]; clear e h)))
    | dsimp only)

theorem keeps_execArmedWaitExpiry (s : State) (u : State) (h : execArmedWaitExpiry s = .next u) : Keeps s u := by
  cases h; exact Keeps.of_kept (by simp)

theorem keeps_execProbationExpiry (s : State) (u : State) (h : execProbationExpiry s = .next u) : Keeps s u := by
  cases h; exact Keeps.of_kept (by simp)

theorem keeps_execProbationLimitNear (s : State) (u : State) (h : execProbationLimitNear s = .next u) : Keeps s u := by
  cases h; exact Keeps.of_kept (by simp)

theorem keeps_execFwActivate (m : MbReq) (s : State) (u : State) (h : execFwActivate m s = .next u) : Keeps s u := by
  cases h
  exact keeps_mbGo _ cmdKeeps_FwActivate m s

theorem keeps_execFwConfirm (m : MbReq) (s : State) (u : State) (h : execFwConfirm m s = .next u) : Keeps s u := by
  cases h
  exact keeps_mbGo _ cmdKeeps_FwConfirm m s

theorem keeps_execFwRevert (m : MbReq) (s : State) (u : State) (h : execFwRevert m s = .next u) : Keeps s u := by
  cases h
  exact keeps_mbGo _ cmdKeeps_FwRevert m s

theorem keeps_execFwStatus (m : MbReq) (s : State) (u : State) (h : execFwStatus m s = .next u) : Keeps s u := by
  cases h
  exact keeps_mbGo _ cmdKeeps_FwStatus m s

theorem keeps_execSettingsBurn (m : MbReq) (s : State) (u : State) (h : execSettingsBurn m s = .next u) : Keeps s u := by
  cases h
  exact keeps_mbGo _ cmdKeeps_SettingsBurn m s

theorem keeps_execEnterSlipway (m : MbReq) (s : State) (u : State) (h : execEnterSlipway m s = .next u) : Keeps s u := by
  cases h
  exact keeps_mbGo _ cmdKeeps_EnterSlipway m s

theorem keeps_execLifecycleAdvance (m : MbReq) (s : State) (u : State) (h : execLifecycleAdvance m s = .next u) :
    Keeps s u := by
  cases h
  exact keeps_mbGo _ cmdKeeps_LifecycleAdvance m s

theorem keeps_execOwnerKeyRotate (m : MbReq) (s : State) (u : State) (h : execOwnerKeyRotate m s = .next u) : Keeps s u := by
  cases h
  exact keeps_mbGo _ cmdKeeps_OwnerKeyRotate m s

theorem keeps_execRequestUpdate (length : BitVec 32) (s : State) (u : State) (h : execRequestUpdate length s = .next u) :
    Keeps s u := by
  unfold execRequestUpdate at h
  injection h with h
  refine Keeps.of_kept ?_
  rw [← h]
  repeat' (first
    | (simp; done)
    | (refine (kept_foldl _ (fun s x => ?_) _ _).trans ?_)
    | (split <;> (try (rename_i h; have e := congrArg (fun p => kept p.1) h; simp at e; rw [e]; clear e h)) <;> (try (rename_i h; have e := kept_takeMsg _ _ _ _ _ h; rw [← e]; clear e h)))
    | dsimp only)

theorem keeps_execPassComponentTable (s : State) (u : State) (h : execPassComponentTable s = .next u) : Keeps s u := by
  cases h; exact Keeps.of_kept (by simp)

theorem keeps_execUpdateComponent (s : State) (u : State) (h : execUpdateComponent s = .next u) : Keeps s u := by
  cases h; exact Keeps.of_kept (by simp)

theorem keeps_execRequestFirmwareData (off : BitVec 32) (bytes : List Byte) (s : State) (u : State)
    (h : execRequestFirmwareData off bytes s = .next u) : Keeps s u := by
  cases h; exact Keeps.of_kept (by simp)

theorem keeps_execActivateFirmware (s : State) (u : State) (h : execActivateFirmware s = .next u) : Keeps s u := by
  cases h; exact Keeps.of_kept (by simp)

theorem keeps_execKeyImportBlock (m : MbReq) (s : State) (u : State) (h : execKeyImportBlock m s = .next u) : Keeps s u := by
  cases h
  exact keeps_mbGo _ cmdKeeps_KeyImportBlock m s

theorem keeps_execKeyGenerate (m : MbReq) (s : State) (u : State) (h : execKeyGenerate m s = .next u) : Keeps s u := by
  cases h
  exact keeps_mbGo _ cmdKeeps_KeyGenerate m s

theorem keeps_execKeyExportBlock (m : MbReq) (s : State) (u : State) (h : execKeyExportBlock m s = .next u) : Keeps s u := by
  cases h
  exact keeps_mbGo _ cmdKeeps_KeyExportBlock m s

theorem keeps_execKeyRetire (m : MbReq) (s : State) (u : State) (h : execKeyRetire m s = .next u) : Keeps s u := by
  cases h
  exact keeps_mbGo _ cmdKeeps_KeyRetire m s

theorem keeps_execKeyQuery (m : MbReq) (s : State) (u : State) (h : execKeyQuery m s = .next u) : Keeps s u := by
  cases h
  exact keeps_mbGo _ cmdKeeps_KeyQuery m s

theorem keeps_execKeystoreConfigure (m : MbReq) (s : State) (u : State) (h : execKeystoreConfigure m s = .next u) :
    Keeps s u := by
  cases h
  exact keeps_mbGo _ cmdKeeps_KeystoreConfigure m s

theorem keeps_execTenantLabelSet (m : MbReq) (s : State) (u : State) (h : execTenantLabelSet m s = .next u) : Keeps s u := by
  cases h
  exact keeps_mbGo _ cmdKeeps_TenantLabelSet m s

theorem keeps_execWakeComplete (s : State) (u : State) (h : execWakeComplete s = .next u) : Keeps s u := by
  cases h
  exact Keeps.trans (Keeps.of_kept (by simp)) (keeps_mbPoll _)

theorem keeps_execIslandResetExit (island : BitVec 10) (s : State) (u : State) (h : execIslandResetExit island s = .next u) :
    Keeps s u := by
  cases h
  dsimp only
  split
  · exact Keeps.refl s
  · exact Keeps.trans (Keeps.of_kept (by simp)) (keeps_mbPoll _)

theorem keeps_execMbTimeout (p : Port) (s : State) (u : State) (h : execMbTimeout p s = .next u) : Keeps s u := by
  unfold execMbTimeout at h
  injection h with h
  refine Keeps.of_kept ?_
  rw [← h]
  repeat' (first
    | (simp; done)
    | (refine (kept_foldl _ (fun s x => ?_) _ _).trans ?_)
    | (split <;> (try (rename_i h; have e := congrArg (fun p => kept p.1) h; simp at e; rw [e]; clear e h)) <;> (try (rename_i h; have e := kept_takeMsg _ _ _ _ _ h; rw [← e]; clear e h)))
    | dsimp only)

theorem keeps_execJournalPageProgrammed (s : State) (u : State) (h : execJournalPageProgrammed s = .next u) : Keeps s u := by
  cases h
  cases s.sroom.pages with
  | nil => exact Keeps.refl s
  | cons pg rest =>
    dsimp only
    split
    · exact Keeps.refl s
    · exact Keeps.trans (Keeps.trans (Keeps.of_kept (by simp)) (Keeps.foldl _ keeps_journalled _ _)) (keeps_mbPoll _)

theorem keeps_execRegisterWrite (r : RegTarget) (size : Nat) (v : BitVec 64) (s : State) (u : State)
    (h : execRegisterWrite r size v s = .next u) : Keeps s u := by
  cases h
  cases r
  · exact keeps_pfWrite _ _ _ _ _
  all_goals exact Keeps.of_kept (by simp)

theorem keeps_execRcRead (p : Port) (off : BitVec 25) (s : State) (u : State) (h : execRcRead p off s = .next u) :
    Keeps s u := by
  unfold execRcRead at h
  injection h with h
  refine Keeps.of_kept ?_
  rw [← h]
  repeat' (first
    | (simp; done)
    | (refine (kept_foldl _ (fun s x => ?_) _ _).trans ?_)
    | (split <;> (try (rename_i h; have e := congrArg (fun p => kept p.1) h; simp at e; rw [e]; clear e h)) <;> (try (rename_i h; have e := kept_takeMsg _ _ _ _ _ h; rw [← e]; clear e h)))
    | dsimp only)

theorem keeps_execTckEdge (tms _tdi : Bool) (s : State) (u : State) (h : execTckEdge tms _tdi s = .next u) : Keeps s u := by
  cases h; exact Keeps.of_kept (by simp)

end Sys2Proof.Machine
end

