-- ==== Sys2Proof/Laws/Table.lean ====
section
/-! SUPPORT. The laws of sparse tables and of byte memories: reading after writing, and the canonical form. -/

namespace Sys2Proof.Machine

variable {α : Type}

@[simp] theorem mget_mset_same (t : Table α) (k : Nat) (v : α) : mget (mset t k v) k = some v := by
  induction t with
  | nil => simp [mset, mget]
  | cons e r ih =>
    obtain ⟨j, w⟩ := e
    simp only [mset]
    split
    · simp [mget]
    · split
      · simp [mget]
      · rename_i h _; simp [mget, h, ih]

theorem mget_mset_other (t : Table α) {k i : Nat} (v : α) (h : i ≠ k) : mget (mset t k v) i = mget t i := by
  induction t with
  | nil => simp [mset, mget, h]
  | cons e r ih =>
    obtain ⟨j, w⟩ := e
    simp only [mset]
    split
    · rename_i hk; subst hk; simp [mget, h]
    · split
      · simp [mget, h]
      · simp only [mget, ih]

@[simp] theorem mget_mdel_same (t : Table α) (k : Nat) : mget (mdel t k) k = none := by
  induction t with
  | nil => rfl
  | cons e r ih =>
    obtain ⟨j, w⟩ := e
    by_cases h : j = k
    · subst h; simpa [mdel] using ih
    · have h' : k ≠ j := fun x => h x.symm
      simpa [mdel, h, mget, h'] using ih

theorem mget_mdel_other (t : Table α) {k i : Nat} (h : i ≠ k) : mget (mdel t k) i = mget t i := by
  induction t with
  | nil => rfl
  | cons e r ih =>
    obtain ⟨j, w⟩ := e
    by_cases hk : j = k
    · subst hk; simpa [mdel, mget, h] using ih
    · have : mdel ((j, w) :: r) k = (j, w) :: mdel r k := by simp [mdel, hk]
      rw [this]
      simp only [mget, ih]

variable [DecidableEq α]

@[simp] theorem tget_tset_same (d : α) (t : Table α) (k : Nat) (v : α) : tget d (tset d t k v) k = v := by
  unfold tget tset
  split
  · rename_i h; simp [h]
  · simp

theorem tget_tset_other (d : α) (t : Table α) {k i : Nat} (v : α) (h : i ≠ k) : tget d (tset d t k v) i = tget d t i := by
  unfold tget tset
  split
  · rw [mget_mdel_other t h]
  · rw [mget_mset_other t v h]

omit [DecidableEq α] in
theorem rising_tail {e : Nat × α} {r : Table α} (h : rising (e :: r) = true) : rising r = true := by
  cases r with
  | nil => rfl
  | cons f r => simp only [rising, Bool.and_eq_true] at h; exact h.2

omit [DecidableEq α] in
/-- Every key behind the first one is larger. -/
theorem rising_head {e : Nat × α} {r : Table α} (h : rising (e :: r) = true) : ∀ f ∈ r, e.1 < f.1 := by
  induction r generalizing e with
  | nil => intro f hf; cases hf
  | cons g r ih =>
    simp only [rising, Bool.and_eq_true, decide_eq_true_eq] at h
    intro f hf
    rcases List.mem_cons.mp hf with rfl | hf
    · exact h.1
    · exact Nat.lt_trans h.1 (ih h.2 f hf)

omit [DecidableEq α] in
theorem rising_cons {e : Nat × α} {r : Table α} (h : rising r = true) (k : ∀ f ∈ r, e.1 < f.1) : rising (e :: r) = true := by
  cases r with
  | nil => rfl
  | cons f r => simp only [rising, Bool.and_eq_true, decide_eq_true_eq]; exact ⟨k f (by simp), h⟩

omit [DecidableEq α] in
theorem mset_mem (t : Table α) (k : Nat) (v : α) : ∀ f ∈ mset t k v, f = (k, v) ∨ f ∈ t := by
  induction t with
  | nil => intro f hf; simp [mset] at hf; exact Or.inl hf
  | cons e r ih =>
    obtain ⟨j, w⟩ := e
    intro f hf
    simp only [mset] at hf
    split at hf
    · rcases List.mem_cons.mp hf with h | h
      · exact Or.inl h
      · exact Or.inr (List.mem_cons_of_mem _ h)
    · split at hf
      · rcases List.mem_cons.mp hf with h | h
        · exact Or.inl h
        · exact Or.inr h
      · rcases List.mem_cons.mp hf with h | h
        · exact Or.inr (h ▸ List.mem_cons_self)
        · rcases ih f h with h | h
          · exact Or.inl h
          · exact Or.inr (List.mem_cons_of_mem _ h)

omit [DecidableEq α] in
theorem rising_mset (t : Table α) (k : Nat) (v : α) (h : rising t = true) : rising (mset t k v) = true := by
  induction t with
  | nil => rfl
  | cons e r ih =>
    obtain ⟨j, w⟩ := e
    have hr := rising_tail h
    have hh := rising_head h
    simp only [mset]
    split
    · rename_i e; subst e; exact rising_cons hr (fun f hf => hh f hf)
    · split
      · rename_i lt; exact rising_cons h (fun f hf => by
          rcases List.mem_cons.mp hf with rfl | hf
          · exact lt
          · exact Nat.lt_trans lt (hh f hf))
      · rename_i ne nlt
        refine rising_cons (ih hr) (fun f hf => ?_)
        rcases mset_mem r k v f hf with rfl | hf
        · show j < k; omega
        · exact hh f hf

omit [DecidableEq α] in
theorem rising_mdel (t : Table α) (k : Nat) (h : rising t = true) : rising (mdel t k) = true := by
  induction t with
  | nil => rfl
  | cons e r ih =>
    have hr := ih (rising_tail h)
    have hh := rising_head h
    by_cases he : e.1 = k
    · simpa [mdel, he] using hr
    · have : mdel (e :: r) k = e :: mdel r k := by simp [mdel, he]
      rw [this]
      exact rising_cons hr (fun f hf => hh f (List.mem_filter.mp hf).1)

/-- A write keeps the canonical form. -/
theorem tableWf_tset (d : α) (t : Table α) (k : Nat) (v : α) (h : tableWf d t = true) : tableWf d (tset d t k v) = true := by
  simp only [tableWf, Bool.and_eq_true, List.all_eq_true, decide_eq_true_eq] at h ⊢
  unfold tset
  split
  · exact ⟨rising_mdel t k h.1, fun f hf => h.2 f (List.mem_filter.mp hf).1⟩
  · rename_i hv
    refine ⟨rising_mset t k v h.1, fun f hf => ?_⟩
    rcases mset_mem t k v f hf with rfl | hf
    · exact hv
    · exact h.2 f hf

/-- Writes of bytes keep the canonical form. -/
theorem tableWf_writeBytes (m : Bytes) (a : Nat) (bs : List Byte) (h : tableWf 0 m = true) : tableWf 0 (writeBytes m a bs) = true := by
  induction bs generalizing m a with
  | nil => exact h
  | cons b bs ih => exact ih _ _ (tableWf_tset 0 m a b h)

/-- A write leaves every byte outside the written ones alone. -/
theorem tget_writeBytes_outside (m : Bytes) (a i : Nat) (bs : List Byte) (h : i < a ∨ a + bs.length ≤ i) :
    tget 0 (writeBytes m a bs) i = tget 0 m i := by
  induction bs generalizing m a with
  | nil => rfl
  | cons b bs ih =>
    simp only [List.length_cons] at h
    rw [writeBytes, ih _ _ (by omega), tget_tset_other]
    omega

/-- A byte just written reads as written. -/
theorem tget_writeBytes_inside (m : Bytes) (a i : Nat) (bs : List Byte) (h : i < bs.length) :
    tget 0 (writeBytes m a bs) (a + i) = bs[i] := by
  induction bs generalizing m a i with
  | nil => cases h
  | cons b bs ih =>
    cases i with
    | zero =>
      show tget 0 (writeBytes (tset 0 m a b) (a + 1) bs) a = b
      rw [tget_writeBytes_outside _ _ _ _ (Or.inl (Nat.lt_succ_self a)), tget_tset_same]
    | succ i =>
      have := ih (tset 0 m a b) (a + 1) i (by simpa using h)
      rw [writeBytes, show a + (i + 1) = a + 1 + i by omega, this]
      rfl

/-- Bytes just written read back whole. -/
theorem readBytes_writeBytes (m : Bytes) (a : Nat) (bs : List Byte) : readBytes (writeBytes m a bs) a bs.length = bs := by
  induction bs generalizing m a with
  | nil => rfl
  | cons b bs ih =>
    rw [List.length_cons, readBytes, writeBytes, ih, tget_writeBytes_outside _ _ _ _ (Or.inl (Nat.lt_succ_self a)), tget_tset_same]

end Sys2Proof.Machine
end

