-- ==== Sys2Proof/Laws/Memory.lean ====
section
/-! SUPPORT. Every memory operation keeps the canonical form of the memories (Memory.wf), and memory after reset has it. -/

namespace Sys2Proof.Machine

/-- The memories of a state have their canonical form. -/
def memOk (s : State) : Prop := Memory.wf s.mem = true

theorem memOk_reset : memOk State.reset := by unfold memOk; decide

/-- A state with the same memories. -/
theorem memOk_of_mem {s t : State} (e : t.mem = s.mem) (h : memOk s) : memOk t := by unfold memOk; rw [e]; exact h

theorem memOk_parts (s : State) : memOk s ↔ tableWf 0 s.mem.hbm = true ∧ tableWf 0 s.mem.ledgered = true ∧
    tableWf 0 s.mem.host = true ∧ tableWf 0 s.mem.device = true ∧ (∀ e ∈ s.mem.near, tableWf 0 e.2 = true) ∧
    (∀ e ∈ s.mem.sysNear, tableWf 0 e.2 = true) ∧ (∀ e ∈ s.mem.staging, tableWf 0 e.2 = true) ∧
    tableWf [] s.mem.near = true ∧ tableWf [] s.mem.sysNear = true ∧ tableWf [] s.mem.staging = true := by
  simp only [memOk, Memory.wf, Bool.and_eq_true, List.all_eq_true, and_assoc]

theorem mem_mget {α : Type} (t : Table α) (k : Nat) (v : α) (h : mget t k = some v) : (k, v) ∈ t := by
  induction t with
  | nil => cases h
  | cons e r ih =>
    obtain ⟨j, w⟩ := e
    simp only [mget] at h
    split at h
    · rename_i e; subst e; cases h; exact List.mem_cons_self
    · exact List.mem_cons_of_mem _ (ih h)

/-- The bytes of one entry of a table of memories. -/
theorem tableWf_entry (t : Table Bytes) (k : Nat) (h : ∀ e ∈ t, tableWf 0 e.2 = true) : tableWf 0 (tget [] t k) = true := by
  unfold tget
  cases e : mget t k with
  | none => rfl
  | some v => exact h _ (mem_mget t k v e)

theorem entries_tset (t : Table Bytes) (k : Nat) (v : Bytes) (h : ∀ e ∈ t, tableWf 0 e.2 = true) (hv : tableWf 0 v = true) :
    ∀ e ∈ tset [] t k v, tableWf 0 e.2 = true := by
  intro e he
  unfold tset at he
  split at he
  · exact h e (List.mem_filter.mp he).1
  · rcases mset_mem t k v e he with rfl | he
    · exact hv
    · exact h e he

theorem memOk_hbm {s : State} (h : memOk s) (m : Bytes) (hm : tableWf 0 m = true) (p : List Nat) :
    memOk { s with mem := { s.mem with hbm := m, poison := p } } := by
  rw [memOk_parts] at h ⊢
  exact ⟨hm, h.2⟩

theorem memOk_ledgered {s : State} (h : memOk s) (m : Bytes) (hm : tableWf 0 m = true) (p : List Nat) :
    memOk { s with mem := { s.mem with ledgered := m, poisonLedger := p } } := by
  rw [memOk_parts] at h ⊢
  exact ⟨h.1, hm, h.2.2⟩

theorem memOk_host {s : State} (h : memOk s) (m : Bytes) (hm : tableWf 0 m = true) :
    memOk { s with mem := { s.mem with host := m } } := by
  rw [memOk_parts] at h ⊢
  exact ⟨h.1, h.2.1, hm, h.2.2.2⟩

theorem memOk_device {s : State} (h : memOk s) (m : Bytes) (hm : tableWf 0 m = true) :
    memOk { s with mem := { s.mem with device := m } } := by
  rw [memOk_parts] at h ⊢
  exact ⟨h.1, h.2.1, h.2.2.1, hm, h.2.2.2.2⟩

theorem memOk_near {s : State} (h : memOk s) (k : Nat) (m : Bytes) (hm : tableWf 0 m = true) :
    memOk { s with mem := { s.mem with near := tset [] s.mem.near k m } } := by
  rw [memOk_parts] at h ⊢
  obtain ⟨a, b, c, d, e, f, g, i, j, l⟩ := h
  exact ⟨a, b, c, d, entries_tset _ _ _ e hm, f, g, tableWf_tset _ _ _ _ i, j, l⟩

theorem memOk_sysNear {s : State} (h : memOk s) (k : Nat) (m : Bytes) (hm : tableWf 0 m = true) :
    memOk { s with mem := { s.mem with sysNear := tset [] s.mem.sysNear k m } } := by
  rw [memOk_parts] at h ⊢
  obtain ⟨a, b, c, d, e, f, g, i, j, l⟩ := h
  exact ⟨a, b, c, d, e, entries_tset _ _ _ f hm, g, i, tableWf_tset _ _ _ _ j, l⟩

theorem memOk_staging {s : State} (h : memOk s) (k : Nat) (m : Bytes) (hm : tableWf 0 m = true) :
    memOk { s with mem := { s.mem with staging := tset [] s.mem.staging k m } } := by
  rw [memOk_parts] at h ⊢
  obtain ⟨a, b, c, d, e, f, g, i, j, l⟩ := h
  exact ⟨a, b, c, d, e, f, entries_tset _ _ _ g hm, i, j, tableWf_tset _ _ _ _ l⟩

theorem memOk_foldl {α : Type} (f : State → α → State) (hf : ∀ s x, memOk s → memOk (f s x)) (l : List α) (s : State)
    (h : memOk s) : memOk (l.foldl f s) := by
  induction l generalizing s with
  | nil => exact h
  | cons a l ih => exact ih _ (hf s a h)

theorem memOk_ite {c : Prop} [Decidable c] {s t : State} (h : memOk s) (k : memOk t) : memOk (if c then s else t) := by
  split
  · exact h
  · exact k

/-! The caches and HBM. -/

theorem memOk_setCoh {s : State} (h : memOk s) (b : Nat) (c : Coh) : memOk (setCoh s b c) := h
theorem memOk_setPc {s : State} (h : memOk s) (p : Nat) (c : PierCache) : memOk (setPc s p c) := h
theorem memOk_setDir {s : State} (h : memOk s) (b l : Nat) (d : Dir) : memOk (setDir s b l d) := h
theorem memOk_modThr {s : State} (h : memOk s) (th : ThreadId) (f : Thread → Thread) : memOk (modThr s th f) := h

theorem memOk_hbmPut {s : State} (h : memOk s) (line : Nat) (d : BitVec 512) (p : Bool) : memOk (hbmPut s line d p) :=
  memOk_hbm h _ (tableWf_writeBytes _ _ _ ((memOk_parts s).mp h).1) _

theorem memOk_l2SetState {s : State} (h : memOk s) (p line : Nat) (st : LState) : memOk (l2SetState s p line st) := by
  unfold l2SetState
  extract_lets pc s1
  have h1 : memOk s1 := memOk_setPc h _ _
  clear_value s1
  refine memOk_ite h1 ?_
  split
  · exact h1
  · exact memOk_setPc h1 _ _

theorem memOk_l3Write {s : State} (h : memOk s) (b line : Nat) (d : BitVec 512) (p : Bool) : memOk (l3Write s b line d p) := by
  unfold l3Write
  extract_lets c
  split
  · exact h
  · exact memOk_hbmPut h _ _ _

theorem memOk_backInvalidate {s : State} (h : memOk s) (b line : Nat) : memOk (backInvalidate s b line).1 := by
  unfold backInvalidate
  generalize List.range 4 = l
  have h0 : memOk ((s, none) : State × Option (BitVec 512 × Bool)).1 := h
  generalize ((s, none) : State × Option (BitVec 512 × Bool)) = acc at h0
  clear h
  induction l generalizing acc with
  | nil => exact h0
  | cons a l ih =>
  rw [List.foldl_cons]
  apply ih
  extract_lets p s1 src
  cases cFind (pcOf acc.1 p).l2 l2Sets l2Ways line with
  | none => exact h0
  | some i =>
    simp -zeta only
    extract_lets l locked s2
    have k1 : memOk s1 := memOk_l2SetState h0 _ _ _
    show memOk s2
    simp only [s2]
    clear_value s1
    split
    · exact memOk_setPc k1 _ _
    · exact k1

theorem memOk_l3Room {s : State} (h : memOk s) (b line : Nat) : memOk (l3Room s b line).1 := by
  unfold l3Room
  extract_lets c wayLine free
  generalize cVictim c.l3 l3Sets l3Ways line free 5 = v
  obtain ⟨l3, w⟩ := v
  simp -zeta only
  extract_lets i s1 l s3 c3
  have h1 : memOk s1 := memOk_setCoh h _ _
  clear_value s1 i l
  have k := memOk_backInvalidate h1 b l.line
  split
  · exact h1
  · refine memOk_setCoh ?_ _ _
    simp only [s3]
    generalize backInvalidate s1 b l.line = r at k ⊢
    split
    · exact memOk_hbmPut k _ _ _
    · split
      · exact memOk_hbmPut k _ _ _
      · exact k

theorem memOk_l3Fetch {s : State} (h : memOk s) (b line age : Nat) : memOk (l3Fetch s b line age).1 := by
  have k := memOk_l3Room h b line
  unfold l3Fetch
  extract_lets c
  generalize l3Room s b line = r at k ⊢
  obtain ⟨t, i⟩ := r
  split
  · exact memOk_setCoh h _ _
  · exact memOk_setCoh k _ _

theorem memOk_l2Evict {s : State} (h : memOk s) (p i : Nat) : memOk (l2Evict s p i) := memOk_of_mem rfl h

theorem memOk_l2Install {s : State} (h : memOk s) (p line : Nat) (st : LState) (d : BitVec 512) (q : Bool) (age : Nat) :
    memOk (l2Install s p line st d q age) := by
  unfold l2Install
  extract_lets pc
  split
  · exact memOk_setPc h _ _
  · generalize cVictim _ _ _ _ _ _ = v
    obtain ⟨l2, w⟩ := v
    cases w with
    | none => exact h
    | some i =>
      simp -zeta only
      extract_lets s1 s2 pc2
      have h1 : memOk s1 := memOk_setPc h _ _
      clear_value s1
      exact memOk_setPc (memOk_ite h1 (memOk_l2Evict h1 _ _)) _ _

theorem memOk_dropOthers {s : State} (h : memOk s) (b a line : Nat) : memOk (dropOthers s b a line) :=
  memOk_foldl _ (fun _ _ h => memOk_ite h (memOk_l2SetState h _ _ _)) _ _ h

theorem memOk_fetchOwned {s : State} (h : memOk s) (p line : Nat) : memOk (fetchOwned s p line) := by
  have k := memOk_l3Fetch h (pierBasin p) line 1
  unfold fetchOwned
  extract_lets b a
  generalize l3Fetch s b line 1 = r at k ⊢
  obtain ⟨t, x⟩ := r
  generalize cohLine t b line = y
  obtain ⟨z, w⟩ := y
  exact memOk_ite k (memOk_l2Install (memOk_setDir (memOk_dropOthers k _ _ _) _ _ _) _ _ _ _ _ _)

theorem memOk_fetchShared {s : State} (h : memOk s) (p line age : Nat) : memOk (fetchShared s p line age) := by
  have k := memOk_l3Fetch h (pierBasin p) line age
  unfold fetchShared
  extract_lets b a
  generalize l3Fetch s b line age = r at k ⊢
  obtain ⟨t, x⟩ := r
  generalize hy : cohLine t b line = y
  obtain ⟨z, w⟩ := y
  dsimp only at k ⊢
  rw [hy]
  refine memOk_ite k ?_
  split
  · exact memOk_l2Install (memOk_setDir k _ _ _) _ _ _ _ _ _
  · exact memOk_l2Install (memOk_setDir k _ _ _) _ _ _ _ _ _
  · exact memOk_l2Install (memOk_setDir (memOk_l2SetState (memOk_ite k (memOk_l3Write k _ _ _ _)) _ _ _) _ _ _) _ _ _ _ _ _
  · exact memOk_l2Install (memOk_setDir k _ _ _) _ _ _ _ _ _

/-! Stores of a thread. -/

theorem memOk_physStore {s : State} (h : memOk s) (th : ThreadId) (pa : Nat) (v : Byte) : memOk (physStore s th pa v) := by
  unfold physStore
  extract_lets p line own l1Own l2Own s1 pc put l2i mine keep l1i pc1
  have k : memOk s1 := by
    exact memOk_ite (memOk_fetchOwned h _ _) h
  clear_value s1 l2i pc1
  cases l2i with
  | some i => exact memOk_setPc k _ _
  | none => exact memOk_ite (memOk_setPc k _ _) (memOk_l3Write k _ _ _ _)

theorem memOk_objStore {s : State} (h : memOk s) (th : ThreadId) (o : Obj) (a : Nat) (v : Byte) : memOk (objStore s th o a v) := by
  have p := (memOk_parts s).mp h
  cases o with
  | near t => exact memOk_near h _ _ (tableWf_tset _ _ _ _ (tableWf_entry _ _ p.2.2.2.2.1))
  | sysNear t => exact memOk_sysNear h _ _ (tableWf_tset _ _ _ _ (tableWf_entry _ _ p.2.2.2.2.2.1))
  | staging t => exact memOk_staging h _ _ (tableWf_tset _ _ _ _ (tableWf_entry _ _ p.2.2.2.2.2.2.1))
  | code n => exact h
  | intake n => exact h
  | ledger => exact h
  | host => exact memOk_host h _ (tableWf_tset _ _ _ _ p.2.2.1)
  | phys => exact memOk_physStore h _ _ _
  | device => exact memOk_device h _ (tableWf_tset _ _ _ _ p.2.2.2.1)

theorem memOk_releaseGated {s : State} (h : memOk s) (th : ThreadId) : memOk (releaseGated s th) :=
  memOk_foldl _ (fun _ _ h => memOk_objStore h _ _ _ _) _ _ (memOk_modThr h th _)

theorem memOk_amoByte {s : State} (h : memOk s) (th : ThreadId) (l : Loc) (v : Byte) : memOk (amoByte s th l v) := by
  have p := (memOk_parts s).mp h
  unfold amoByte
  split
  · split
    · exact memOk_hbm h _ (tableWf_tset _ _ _ _ p.1) s.mem.poison
    · exact memOk_l3Write h _ _ _ _
  · exact memOk_objStore h _ _ _ _

theorem memOk_hbmStore {s : State} (h : memOk s) (g : GStore) : memOk (hbmStore s g) :=
  memOk_hbm h _ (tableWf_tset _ _ _ _ ((memOk_parts s).mp h).1) s.mem.poison

/-! Host memory, near segments and result writes. -/

theorem memOk_ringWrite {s : State} (h : memOk s) (q : Eq) (r : EvRec) : memOk (ringWrite s q r) :=
  memOk_host h _ (tableWf_writeBytes _ _ _ ((memOk_parts s).mp h).2.2.1)

theorem memOk_nearWrite {s : State} (h : memOk s) (th : ThreadId) (off : Nat) (bs : List Byte) : memOk (nearWrite s th off bs) :=
  memOk_near h _ _ (tableWf_writeBytes _ _ _ (tableWf_entry _ _ ((memOk_parts s).mp h).2.2.2.2.1))

theorem memOk_outWrite {s : State} (h : memOk s) (p : Port) (l : List OutSeg) (b : List Byte) : memOk (outWrite s p l b).1 := by
  induction l generalizing s b with
  | nil => exact h
  | cons g r ih =>
    unfold outWrite
    dsimp only
    split
    · exact h
    · split
      · exact ih (memOk_host h _ (tableWf_writeBytes _ _ _ ((memOk_parts s).mp h).2.2.1)) _
      · exact h

theorem wf_fold_writeBytes (l : List (Nat × List Byte)) (m : Bytes) (h : tableWf 0 m = true) :
    tableWf 0 (l.foldl (fun x e => writeBytes x e.1 e.2) m) = true := by
  induction l generalizing m with
  | nil => exact h
  | cons a l ih => exact ih _ (tableWf_writeBytes _ _ _ h)

theorem wf_fold_tset {α : Type} (f : α → Nat) (g : α → Byte) (l : List α) (m : Bytes) (h : tableWf 0 m = true) :
    tableWf 0 (l.foldl (fun x e => tset 0 x (f e) (g e)) m) = true := by
  induction l generalizing m with
  | nil => exact h
  | cons a l ih => exact ih _ (tableWf_tset _ _ _ _ h)

theorem memOk_resultWrite {s : State} (h : memOk s) (seq : Nat) (l : List (Nat × List Byte)) : memOk (resultWrite s seq l).1 := by
  unfold resultWrite
  split
  · exact h
  · split
    · exact memOk_of_mem rfl h
    · split
      · exact h
      · exact memOk_host h _ (wf_fold_writeBytes _ _ ((memOk_parts s).mp h).2.2.1)

/-- The lines that a commit group changes (R86, R109). -/
theorem memOk_group {s : State} (h : memOk s) (g : List (Nat × Byte)) (p : List Nat) :
    memOk { s with mem := { s.mem with ledgered := g.foldl (fun m e => tset 0 m e.1 e.2) s.mem.ledgered, poisonLedger := p } } :=
  memOk_ledgered h _ (wf_fold_tset Prod.fst Prod.snd g _ ((memOk_parts s).mp h).2.1) p

/-- The lines that a partner takes over, at the place k where it keeps them (R489). -/
theorem memOk_takeover {s : State} (h : memOk s) (k : Nat) (g : List (Nat × Byte)) :
    memOk { s with mem := { s.mem with ledgered := g.foldl (fun m e => tset 0 m (k + e.1) e.2) s.mem.ledgered } } := by
  have w := wf_fold_tset (fun (e : Nat × Byte) => k + e.1) Prod.snd g _ ((memOk_parts s).mp h).2.1
  generalize g.foldl (fun m e => tset 0 m (k + e.1) e.2) s.mem.ledgered = m at w ⊢
  exact memOk_ledgered h m w s.mem.poisonLedger

theorem memOk_cleared {s : State} (h : memOk s) (k : Nat) (m : Bytes) (hm : tableWf 0 m = true) :
    memOk { s with mem := { s.mem with near := tset [] s.mem.near k m, sysNear := tset [] s.mem.sysNear k [], staging := tset [] s.mem.staging k [] } } := by
  rw [memOk_parts] at h ⊢
  obtain ⟨a, b, c, d, e, f, g, i, j, l⟩ := h
  have z : tableWf 0 ([] : Bytes) = true := rfl
  exact ⟨a, b, c, d, entries_tset _ k m e hm, entries_tset _ k [] f z, entries_tset _ k [] g z, tableWf_tset [] _ k m i,
    tableWf_tset [] _ k [] j, tableWf_tset [] _ k [] l⟩

theorem memOk_setThr {s : State} (h : memOk s) (th : ThreadId) (t : Thread) : memOk (setThr s th t) := h

theorem memOk_enterHandler {s : State} (h : memOk s) (th : ThreadId) (seq : Nat) (c : Cons) : memOk (enterHandler s th seq c) := by
  have w : tableWf 0 (writeBytes [] 0 (dispatchArea s th seq c)) = true := tableWf_writeBytes _ _ _ rfl
  unfold enterHandler
  generalize writeBytes [] 0 (dispatchArea s th seq c) = m at w ⊢
  exact memOk_setThr (memOk_cleared h th.val m w) _ _

/-- A reset of the power: host memory alone stays, being the host's. -/
theorem memOk_powerReset {s : State} (h : memOk s) (w : Bool) : memOk (powerReset s w) := by
  have p := ((memOk_parts s).mp h).2.2.1
  have e : (powerReset s w).mem = { host := s.mem.host } := rfl
  unfold memOk Memory.wf
  rw [e]
  generalize s.mem.host = m at p ⊢
  simp only [p]
  decide

end Sys2Proof.Machine
end

