-- ==== Sys2Proof/Laws/State.lean ====
section
/-! SUPPORT. Each update of the state leaves every other field alone, and what it wrote is read back. -/

namespace Sys2Proof.Machine

/-! setThr. -/

@[simp] theorem setThr_pending (s : State) (th : ThreadId) (v : Thread) : (setThr s th v).pending = s.pending := rfl
@[simp] theorem setThr_clock (s : State) (th : ThreadId) (v : Thread) : (setThr s th v).clock = s.clock := rfl
@[simp] theorem setThr_mem (s : State) (th : ThreadId) (v : Thread) : (setThr s th v).mem = s.mem := rfl
@[simp] theorem setThr_coh (s : State) (th : ThreadId) (v : Thread) : (setThr s th v).coh = s.coh := rfl
@[simp] theorem setThr_pcache (s : State) (th : ThreadId) (v : Thread) : (setThr s th v).pcache = s.pcache := rfl
@[simp] theorem setThr_piers (s : State) (th : ThreadId) (v : Thread) : (setThr s th v).piers = s.piers := rfl
@[simp] theorem setThr_basins (s : State) (th : ThreadId) (v : Thread) : (setThr s th v).basins = s.basins := rfl
@[simp] theorem setThr_parts (s : State) (th : ThreadId) (v : Thread) : (setThr s th v).parts = s.parts := rfl
@[simp] theorem setThr_cons (s : State) (th : ThreadId) (v : Thread) : (setThr s th v).cons = s.cons := rfl
@[simp] theorem setThr_slipped (s : State) (th : ThreadId) (v : Thread) : (setThr s th v).slipped = s.slipped := rfl
@[simp] theorem setThr_anchorFree (s : State) (th : ThreadId) (v : Thread) : (setThr s th v).anchorFree = s.anchorFree := rfl
@[simp] theorem setThr_seqs (s : State) (th : ThreadId) (v : Thread) : (setThr s th v).seqs = s.seqs := rfl
@[simp] theorem setThr_accepted (s : State) (th : ThreadId) (v : Thread) : (setThr s th v).accepted = s.accepted := rfl
@[simp] theorem setThr_tides (s : State) (th : ThreadId) (v : Thread) : (setThr s th v).tides = s.tides := rfl
@[simp] theorem setThr_tenants (s : State) (th : ThreadId) (v : Thread) : (setThr s th v).tenants = s.tenants := rfl
@[simp] theorem setThr_ledgers (s : State) (th : ThreadId) (v : Thread) : (setThr s th v).ledgers = s.ledgers := rfl
@[simp] theorem setThr_cfg (s : State) (th : ThreadId) (v : Thread) : (setThr s th v).cfg = s.cfg := rfl
@[simp] theorem setThr_dev (s : State) (th : ThreadId) (v : Thread) : (setThr s th v).dev = s.dev := rfl
@[simp] theorem setThr_sources (s : State) (th : ThreadId) (v : Thread) : (setThr s th v).sources = s.sources := rfl
@[simp] theorem setThr_log (s : State) (th : ThreadId) (v : Thread) : (setThr s th v).log = s.log := rfl
@[simp] theorem setThr_logNext (s : State) (th : ThreadId) (v : Thread) : (setThr s th v).logNext = s.logNext := rfl
@[simp] theorem setThr_pilotRing (s : State) (th : ThreadId) (v : Thread) : (setThr s th v).pilotRing = s.pilotRing := rfl
@[simp] theorem setThr_pfEqs (s : State) (th : ThreadId) (v : Thread) : (setThr s th v).pfEqs = s.pfEqs := rfl
@[simp] theorem setThr_watch (s : State) (th : ThreadId) (v : Thread) : (setThr s th v).watch = s.watch := rfl
@[simp] theorem setThr_handlers (s : State) (th : ThreadId) (v : Thread) : (setThr s th v).handlers = s.handlers := rfl
@[simp] theorem setThr_bindings (s : State) (th : ThreadId) (v : Thread) : (setThr s th v).bindings = s.bindings := rfl
@[simp] theorem setThr_duplexReady (s : State) (th : ThreadId) (v : Thread) : (setThr s th v).duplexReady = s.duplexReady := rfl
@[simp] theorem setThr_jobs (s : State) (th : ThreadId) (v : Thread) : (setThr s th v).jobs = s.jobs := rfl
@[simp] theorem setThr_nextJob (s : State) (th : ThreadId) (v : Thread) : (setThr s th v).nextJob = s.nextJob := rfl
@[simp] theorem setThr_islands (s : State) (th : ThreadId) (v : Thread) : (setThr s th v).islands = s.islands := rfl
@[simp] theorem setThr_ports (s : State) (th : ThreadId) (v : Thread) : (setThr s th v).ports = s.ports := rfl
@[simp] theorem setThr_vfs (s : State) (th : ThreadId) (v : Thread) : (setThr s th v).vfs = s.vfs := rfl
@[simp] theorem setThr_otp (s : State) (th : ThreadId) (v : Thread) : (setThr s th v).otp = s.otp := rfl
@[simp] theorem setThr_epoch (s : State) (th : ThreadId) (v : Thread) : (setThr s th v).epoch = s.epoch := rfl
@[simp] theorem setThr_position (s : State) (th : ThreadId) (v : Thread) : (setThr s th v).position = s.position := rfl
@[simp] theorem setThr_road (s : State) (th : ThreadId) (v : Thread) : (setThr s th v).road = s.road := rfl
@[simp] theorem setThr_hlinks (s : State) (th : ThreadId) (v : Thread) : (setThr s th v).hlinks = s.hlinks := rfl
@[simp] theorem setThr_mirrors (s : State) (th : ThreadId) (v : Thread) : (setThr s th v).mirrors = s.mirrors := rfl
@[simp] theorem setThr_ide (s : State) (th : ThreadId) (v : Thread) : (setThr s th v).ide = s.ide := rfl
@[simp] theorem setThr_spdm (s : State) (th : ThreadId) (v : Thread) : (setThr s th v).spdm = s.spdm := rfl
@[simp] theorem setThr_helm (s : State) (th : ThreadId) (v : Thread) : (setThr s th v).helm = s.helm := rfl
@[simp] theorem setThr_mailA (s : State) (th : ThreadId) (v : Thread) : (setThr s th v).mailA = s.mailA := rfl
@[simp] theorem setThr_mailB (s : State) (th : ThreadId) (v : Thread) : (setThr s th v).mailB = s.mailB := rfl
@[simp] theorem setThr_policy (s : State) (th : ThreadId) (v : Thread) : (setThr s th v).policy = s.policy := rfl
@[simp] theorem setThr_disc (s : State) (th : ThreadId) (v : Thread) : (setThr s th v).disc = s.disc := rfl
@[simp] theorem setThr_wardens (s : State) (th : ThreadId) (v : Thread) : (setThr s th v).wardens = s.wardens := rfl
@[simp] theorem setThr_conf (s : State) (th : ThreadId) (v : Thread) : (setThr s th v).conf = s.conf := rfl
@[simp] theorem setThr_fw (s : State) (th : ThreadId) (v : Thread) : (setThr s th v).fw = s.fw := rfl
@[simp] theorem setThr_pldm (s : State) (th : ThreadId) (v : Thread) : (setThr s th v).pldm = s.pldm := rfl
@[simp] theorem setThr_tap (s : State) (th : ThreadId) (v : Thread) : (setThr s th v).tap = s.tap := rfl
@[simp] theorem setThr_sroom (s : State) (th : ThreadId) (v : Thread) : (setThr s th v).sroom = s.sroom := rfl
@[simp] theorem setThr_formats (s : State) (th : ThreadId) (v : Thread) : (setThr s th v).formats = s.formats := rfl
@[simp] theorem setThr_hashAreas (s : State) (th : ThreadId) (v : Thread) : (setThr s th v).hashAreas = s.hashAreas := rfl
@[simp] theorem setThr_iovaDenied (s : State) (th : ThreadId) (v : Thread) : (setThr s th v).iovaDenied = s.iovaDenied := rfl
@[simp] theorem setThr_freeCtr (s : State) (th : ThreadId) (v : Thread) : (setThr s th v).freeCtr = s.freeCtr := rfl

/-! setBasin. -/

@[simp] theorem setBasin_pending (s : State) (b : Nat) (v : Basin) : (setBasin s b v).pending = s.pending := rfl
@[simp] theorem setBasin_clock (s : State) (b : Nat) (v : Basin) : (setBasin s b v).clock = s.clock := rfl
@[simp] theorem setBasin_threads (s : State) (b : Nat) (v : Basin) : (setBasin s b v).threads = s.threads := rfl
@[simp] theorem setBasin_mem (s : State) (b : Nat) (v : Basin) : (setBasin s b v).mem = s.mem := rfl
@[simp] theorem setBasin_coh (s : State) (b : Nat) (v : Basin) : (setBasin s b v).coh = s.coh := rfl
@[simp] theorem setBasin_pcache (s : State) (b : Nat) (v : Basin) : (setBasin s b v).pcache = s.pcache := rfl
@[simp] theorem setBasin_piers (s : State) (b : Nat) (v : Basin) : (setBasin s b v).piers = s.piers := rfl
@[simp] theorem setBasin_parts (s : State) (b : Nat) (v : Basin) : (setBasin s b v).parts = s.parts := rfl
@[simp] theorem setBasin_cons (s : State) (b : Nat) (v : Basin) : (setBasin s b v).cons = s.cons := rfl
@[simp] theorem setBasin_slipped (s : State) (b : Nat) (v : Basin) : (setBasin s b v).slipped = s.slipped := rfl
@[simp] theorem setBasin_anchorFree (s : State) (b : Nat) (v : Basin) : (setBasin s b v).anchorFree = s.anchorFree := rfl
@[simp] theorem setBasin_seqs (s : State) (b : Nat) (v : Basin) : (setBasin s b v).seqs = s.seqs := rfl
@[simp] theorem setBasin_accepted (s : State) (b : Nat) (v : Basin) : (setBasin s b v).accepted = s.accepted := rfl
@[simp] theorem setBasin_tides (s : State) (b : Nat) (v : Basin) : (setBasin s b v).tides = s.tides := rfl
@[simp] theorem setBasin_tenants (s : State) (b : Nat) (v : Basin) : (setBasin s b v).tenants = s.tenants := rfl
@[simp] theorem setBasin_ledgers (s : State) (b : Nat) (v : Basin) : (setBasin s b v).ledgers = s.ledgers := rfl
@[simp] theorem setBasin_cfg (s : State) (b : Nat) (v : Basin) : (setBasin s b v).cfg = s.cfg := rfl
@[simp] theorem setBasin_dev (s : State) (b : Nat) (v : Basin) : (setBasin s b v).dev = s.dev := rfl
@[simp] theorem setBasin_sources (s : State) (b : Nat) (v : Basin) : (setBasin s b v).sources = s.sources := rfl
@[simp] theorem setBasin_log (s : State) (b : Nat) (v : Basin) : (setBasin s b v).log = s.log := rfl
@[simp] theorem setBasin_logNext (s : State) (b : Nat) (v : Basin) : (setBasin s b v).logNext = s.logNext := rfl
@[simp] theorem setBasin_pilotRing (s : State) (b : Nat) (v : Basin) : (setBasin s b v).pilotRing = s.pilotRing := rfl
@[simp] theorem setBasin_pfEqs (s : State) (b : Nat) (v : Basin) : (setBasin s b v).pfEqs = s.pfEqs := rfl
@[simp] theorem setBasin_watch (s : State) (b : Nat) (v : Basin) : (setBasin s b v).watch = s.watch := rfl
@[simp] theorem setBasin_handlers (s : State) (b : Nat) (v : Basin) : (setBasin s b v).handlers = s.handlers := rfl
@[simp] theorem setBasin_bindings (s : State) (b : Nat) (v : Basin) : (setBasin s b v).bindings = s.bindings := rfl
@[simp] theorem setBasin_duplexReady (s : State) (b : Nat) (v : Basin) : (setBasin s b v).duplexReady = s.duplexReady := rfl
@[simp] theorem setBasin_jobs (s : State) (b : Nat) (v : Basin) : (setBasin s b v).jobs = s.jobs := rfl
@[simp] theorem setBasin_nextJob (s : State) (b : Nat) (v : Basin) : (setBasin s b v).nextJob = s.nextJob := rfl
@[simp] theorem setBasin_islands (s : State) (b : Nat) (v : Basin) : (setBasin s b v).islands = s.islands := rfl
@[simp] theorem setBasin_ports (s : State) (b : Nat) (v : Basin) : (setBasin s b v).ports = s.ports := rfl
@[simp] theorem setBasin_vfs (s : State) (b : Nat) (v : Basin) : (setBasin s b v).vfs = s.vfs := rfl
@[simp] theorem setBasin_otp (s : State) (b : Nat) (v : Basin) : (setBasin s b v).otp = s.otp := rfl
@[simp] theorem setBasin_epoch (s : State) (b : Nat) (v : Basin) : (setBasin s b v).epoch = s.epoch := rfl
@[simp] theorem setBasin_position (s : State) (b : Nat) (v : Basin) : (setBasin s b v).position = s.position := rfl
@[simp] theorem setBasin_road (s : State) (b : Nat) (v : Basin) : (setBasin s b v).road = s.road := rfl
@[simp] theorem setBasin_hlinks (s : State) (b : Nat) (v : Basin) : (setBasin s b v).hlinks = s.hlinks := rfl
@[simp] theorem setBasin_mirrors (s : State) (b : Nat) (v : Basin) : (setBasin s b v).mirrors = s.mirrors := rfl
@[simp] theorem setBasin_ide (s : State) (b : Nat) (v : Basin) : (setBasin s b v).ide = s.ide := rfl
@[simp] theorem setBasin_spdm (s : State) (b : Nat) (v : Basin) : (setBasin s b v).spdm = s.spdm := rfl
@[simp] theorem setBasin_helm (s : State) (b : Nat) (v : Basin) : (setBasin s b v).helm = s.helm := rfl
@[simp] theorem setBasin_mailA (s : State) (b : Nat) (v : Basin) : (setBasin s b v).mailA = s.mailA := rfl
@[simp] theorem setBasin_mailB (s : State) (b : Nat) (v : Basin) : (setBasin s b v).mailB = s.mailB := rfl
@[simp] theorem setBasin_policy (s : State) (b : Nat) (v : Basin) : (setBasin s b v).policy = s.policy := rfl
@[simp] theorem setBasin_disc (s : State) (b : Nat) (v : Basin) : (setBasin s b v).disc = s.disc := rfl
@[simp] theorem setBasin_wardens (s : State) (b : Nat) (v : Basin) : (setBasin s b v).wardens = s.wardens := rfl
@[simp] theorem setBasin_conf (s : State) (b : Nat) (v : Basin) : (setBasin s b v).conf = s.conf := rfl
@[simp] theorem setBasin_fw (s : State) (b : Nat) (v : Basin) : (setBasin s b v).fw = s.fw := rfl
@[simp] theorem setBasin_pldm (s : State) (b : Nat) (v : Basin) : (setBasin s b v).pldm = s.pldm := rfl
@[simp] theorem setBasin_tap (s : State) (b : Nat) (v : Basin) : (setBasin s b v).tap = s.tap := rfl
@[simp] theorem setBasin_sroom (s : State) (b : Nat) (v : Basin) : (setBasin s b v).sroom = s.sroom := rfl
@[simp] theorem setBasin_formats (s : State) (b : Nat) (v : Basin) : (setBasin s b v).formats = s.formats := rfl
@[simp] theorem setBasin_hashAreas (s : State) (b : Nat) (v : Basin) : (setBasin s b v).hashAreas = s.hashAreas := rfl
@[simp] theorem setBasin_iovaDenied (s : State) (b : Nat) (v : Basin) : (setBasin s b v).iovaDenied = s.iovaDenied := rfl
@[simp] theorem setBasin_freeCtr (s : State) (b : Nat) (v : Basin) : (setBasin s b v).freeCtr = s.freeCtr := rfl

/-! setPier. -/

@[simp] theorem setPier_pending (s : State) (p : Nat) (v : Pier) : (setPier s p v).pending = s.pending := rfl
@[simp] theorem setPier_clock (s : State) (p : Nat) (v : Pier) : (setPier s p v).clock = s.clock := rfl
@[simp] theorem setPier_threads (s : State) (p : Nat) (v : Pier) : (setPier s p v).threads = s.threads := rfl
@[simp] theorem setPier_mem (s : State) (p : Nat) (v : Pier) : (setPier s p v).mem = s.mem := rfl
@[simp] theorem setPier_coh (s : State) (p : Nat) (v : Pier) : (setPier s p v).coh = s.coh := rfl
@[simp] theorem setPier_pcache (s : State) (p : Nat) (v : Pier) : (setPier s p v).pcache = s.pcache := rfl
@[simp] theorem setPier_basins (s : State) (p : Nat) (v : Pier) : (setPier s p v).basins = s.basins := rfl
@[simp] theorem setPier_parts (s : State) (p : Nat) (v : Pier) : (setPier s p v).parts = s.parts := rfl
@[simp] theorem setPier_cons (s : State) (p : Nat) (v : Pier) : (setPier s p v).cons = s.cons := rfl
@[simp] theorem setPier_slipped (s : State) (p : Nat) (v : Pier) : (setPier s p v).slipped = s.slipped := rfl
@[simp] theorem setPier_anchorFree (s : State) (p : Nat) (v : Pier) : (setPier s p v).anchorFree = s.anchorFree := rfl
@[simp] theorem setPier_seqs (s : State) (p : Nat) (v : Pier) : (setPier s p v).seqs = s.seqs := rfl
@[simp] theorem setPier_accepted (s : State) (p : Nat) (v : Pier) : (setPier s p v).accepted = s.accepted := rfl
@[simp] theorem setPier_tides (s : State) (p : Nat) (v : Pier) : (setPier s p v).tides = s.tides := rfl
@[simp] theorem setPier_tenants (s : State) (p : Nat) (v : Pier) : (setPier s p v).tenants = s.tenants := rfl
@[simp] theorem setPier_ledgers (s : State) (p : Nat) (v : Pier) : (setPier s p v).ledgers = s.ledgers := rfl
@[simp] theorem setPier_cfg (s : State) (p : Nat) (v : Pier) : (setPier s p v).cfg = s.cfg := rfl
@[simp] theorem setPier_dev (s : State) (p : Nat) (v : Pier) : (setPier s p v).dev = s.dev := rfl
@[simp] theorem setPier_sources (s : State) (p : Nat) (v : Pier) : (setPier s p v).sources = s.sources := rfl
@[simp] theorem setPier_log (s : State) (p : Nat) (v : Pier) : (setPier s p v).log = s.log := rfl
@[simp] theorem setPier_logNext (s : State) (p : Nat) (v : Pier) : (setPier s p v).logNext = s.logNext := rfl
@[simp] theorem setPier_pilotRing (s : State) (p : Nat) (v : Pier) : (setPier s p v).pilotRing = s.pilotRing := rfl
@[simp] theorem setPier_pfEqs (s : State) (p : Nat) (v : Pier) : (setPier s p v).pfEqs = s.pfEqs := rfl
@[simp] theorem setPier_watch (s : State) (p : Nat) (v : Pier) : (setPier s p v).watch = s.watch := rfl
@[simp] theorem setPier_handlers (s : State) (p : Nat) (v : Pier) : (setPier s p v).handlers = s.handlers := rfl
@[simp] theorem setPier_bindings (s : State) (p : Nat) (v : Pier) : (setPier s p v).bindings = s.bindings := rfl
@[simp] theorem setPier_duplexReady (s : State) (p : Nat) (v : Pier) : (setPier s p v).duplexReady = s.duplexReady := rfl
@[simp] theorem setPier_jobs (s : State) (p : Nat) (v : Pier) : (setPier s p v).jobs = s.jobs := rfl
@[simp] theorem setPier_nextJob (s : State) (p : Nat) (v : Pier) : (setPier s p v).nextJob = s.nextJob := rfl
@[simp] theorem setPier_islands (s : State) (p : Nat) (v : Pier) : (setPier s p v).islands = s.islands := rfl
@[simp] theorem setPier_ports (s : State) (p : Nat) (v : Pier) : (setPier s p v).ports = s.ports := rfl
@[simp] theorem setPier_vfs (s : State) (p : Nat) (v : Pier) : (setPier s p v).vfs = s.vfs := rfl
@[simp] theorem setPier_otp (s : State) (p : Nat) (v : Pier) : (setPier s p v).otp = s.otp := rfl
@[simp] theorem setPier_epoch (s : State) (p : Nat) (v : Pier) : (setPier s p v).epoch = s.epoch := rfl
@[simp] theorem setPier_position (s : State) (p : Nat) (v : Pier) : (setPier s p v).position = s.position := rfl
@[simp] theorem setPier_road (s : State) (p : Nat) (v : Pier) : (setPier s p v).road = s.road := rfl
@[simp] theorem setPier_hlinks (s : State) (p : Nat) (v : Pier) : (setPier s p v).hlinks = s.hlinks := rfl
@[simp] theorem setPier_mirrors (s : State) (p : Nat) (v : Pier) : (setPier s p v).mirrors = s.mirrors := rfl
@[simp] theorem setPier_ide (s : State) (p : Nat) (v : Pier) : (setPier s p v).ide = s.ide := rfl
@[simp] theorem setPier_spdm (s : State) (p : Nat) (v : Pier) : (setPier s p v).spdm = s.spdm := rfl
@[simp] theorem setPier_helm (s : State) (p : Nat) (v : Pier) : (setPier s p v).helm = s.helm := rfl
@[simp] theorem setPier_mailA (s : State) (p : Nat) (v : Pier) : (setPier s p v).mailA = s.mailA := rfl
@[simp] theorem setPier_mailB (s : State) (p : Nat) (v : Pier) : (setPier s p v).mailB = s.mailB := rfl
@[simp] theorem setPier_policy (s : State) (p : Nat) (v : Pier) : (setPier s p v).policy = s.policy := rfl
@[simp] theorem setPier_disc (s : State) (p : Nat) (v : Pier) : (setPier s p v).disc = s.disc := rfl
@[simp] theorem setPier_wardens (s : State) (p : Nat) (v : Pier) : (setPier s p v).wardens = s.wardens := rfl
@[simp] theorem setPier_conf (s : State) (p : Nat) (v : Pier) : (setPier s p v).conf = s.conf := rfl
@[simp] theorem setPier_fw (s : State) (p : Nat) (v : Pier) : (setPier s p v).fw = s.fw := rfl
@[simp] theorem setPier_pldm (s : State) (p : Nat) (v : Pier) : (setPier s p v).pldm = s.pldm := rfl
@[simp] theorem setPier_tap (s : State) (p : Nat) (v : Pier) : (setPier s p v).tap = s.tap := rfl
@[simp] theorem setPier_sroom (s : State) (p : Nat) (v : Pier) : (setPier s p v).sroom = s.sroom := rfl
@[simp] theorem setPier_formats (s : State) (p : Nat) (v : Pier) : (setPier s p v).formats = s.formats := rfl
@[simp] theorem setPier_hashAreas (s : State) (p : Nat) (v : Pier) : (setPier s p v).hashAreas = s.hashAreas := rfl
@[simp] theorem setPier_iovaDenied (s : State) (p : Nat) (v : Pier) : (setPier s p v).iovaDenied = s.iovaDenied := rfl
@[simp] theorem setPier_freeCtr (s : State) (p : Nat) (v : Pier) : (setPier s p v).freeCtr = s.freeCtr := rfl

/-! setIsland. -/

@[simp] theorem setIsland_pending (s : State) (n : Nat) (v : Island) : (setIsland s n v).pending = s.pending := rfl
@[simp] theorem setIsland_clock (s : State) (n : Nat) (v : Island) : (setIsland s n v).clock = s.clock := rfl
@[simp] theorem setIsland_threads (s : State) (n : Nat) (v : Island) : (setIsland s n v).threads = s.threads := rfl
@[simp] theorem setIsland_mem (s : State) (n : Nat) (v : Island) : (setIsland s n v).mem = s.mem := rfl
@[simp] theorem setIsland_coh (s : State) (n : Nat) (v : Island) : (setIsland s n v).coh = s.coh := rfl
@[simp] theorem setIsland_pcache (s : State) (n : Nat) (v : Island) : (setIsland s n v).pcache = s.pcache := rfl
@[simp] theorem setIsland_piers (s : State) (n : Nat) (v : Island) : (setIsland s n v).piers = s.piers := rfl
@[simp] theorem setIsland_basins (s : State) (n : Nat) (v : Island) : (setIsland s n v).basins = s.basins := rfl
@[simp] theorem setIsland_parts (s : State) (n : Nat) (v : Island) : (setIsland s n v).parts = s.parts := rfl
@[simp] theorem setIsland_cons (s : State) (n : Nat) (v : Island) : (setIsland s n v).cons = s.cons := rfl
@[simp] theorem setIsland_slipped (s : State) (n : Nat) (v : Island) : (setIsland s n v).slipped = s.slipped := rfl
@[simp] theorem setIsland_anchorFree (s : State) (n : Nat) (v : Island) : (setIsland s n v).anchorFree = s.anchorFree := rfl
@[simp] theorem setIsland_seqs (s : State) (n : Nat) (v : Island) : (setIsland s n v).seqs = s.seqs := rfl
@[simp] theorem setIsland_accepted (s : State) (n : Nat) (v : Island) : (setIsland s n v).accepted = s.accepted := rfl
@[simp] theorem setIsland_tides (s : State) (n : Nat) (v : Island) : (setIsland s n v).tides = s.tides := rfl
@[simp] theorem setIsland_tenants (s : State) (n : Nat) (v : Island) : (setIsland s n v).tenants = s.tenants := rfl
@[simp] theorem setIsland_ledgers (s : State) (n : Nat) (v : Island) : (setIsland s n v).ledgers = s.ledgers := rfl
@[simp] theorem setIsland_cfg (s : State) (n : Nat) (v : Island) : (setIsland s n v).cfg = s.cfg := rfl
@[simp] theorem setIsland_dev (s : State) (n : Nat) (v : Island) : (setIsland s n v).dev = s.dev := rfl
@[simp] theorem setIsland_sources (s : State) (n : Nat) (v : Island) : (setIsland s n v).sources = s.sources := rfl
@[simp] theorem setIsland_log (s : State) (n : Nat) (v : Island) : (setIsland s n v).log = s.log := rfl
@[simp] theorem setIsland_logNext (s : State) (n : Nat) (v : Island) : (setIsland s n v).logNext = s.logNext := rfl
@[simp] theorem setIsland_pilotRing (s : State) (n : Nat) (v : Island) : (setIsland s n v).pilotRing = s.pilotRing := rfl
@[simp] theorem setIsland_pfEqs (s : State) (n : Nat) (v : Island) : (setIsland s n v).pfEqs = s.pfEqs := rfl
@[simp] theorem setIsland_watch (s : State) (n : Nat) (v : Island) : (setIsland s n v).watch = s.watch := rfl
@[simp] theorem setIsland_handlers (s : State) (n : Nat) (v : Island) : (setIsland s n v).handlers = s.handlers := rfl
@[simp] theorem setIsland_bindings (s : State) (n : Nat) (v : Island) : (setIsland s n v).bindings = s.bindings := rfl
@[simp] theorem setIsland_duplexReady (s : State) (n : Nat) (v : Island) : (setIsland s n v).duplexReady = s.duplexReady := rfl
@[simp] theorem setIsland_jobs (s : State) (n : Nat) (v : Island) : (setIsland s n v).jobs = s.jobs := rfl
@[simp] theorem setIsland_nextJob (s : State) (n : Nat) (v : Island) : (setIsland s n v).nextJob = s.nextJob := rfl
@[simp] theorem setIsland_ports (s : State) (n : Nat) (v : Island) : (setIsland s n v).ports = s.ports := rfl
@[simp] theorem setIsland_vfs (s : State) (n : Nat) (v : Island) : (setIsland s n v).vfs = s.vfs := rfl
@[simp] theorem setIsland_otp (s : State) (n : Nat) (v : Island) : (setIsland s n v).otp = s.otp := rfl
@[simp] theorem setIsland_epoch (s : State) (n : Nat) (v : Island) : (setIsland s n v).epoch = s.epoch := rfl
@[simp] theorem setIsland_position (s : State) (n : Nat) (v : Island) : (setIsland s n v).position = s.position := rfl
@[simp] theorem setIsland_road (s : State) (n : Nat) (v : Island) : (setIsland s n v).road = s.road := rfl
@[simp] theorem setIsland_hlinks (s : State) (n : Nat) (v : Island) : (setIsland s n v).hlinks = s.hlinks := rfl
@[simp] theorem setIsland_mirrors (s : State) (n : Nat) (v : Island) : (setIsland s n v).mirrors = s.mirrors := rfl
@[simp] theorem setIsland_ide (s : State) (n : Nat) (v : Island) : (setIsland s n v).ide = s.ide := rfl
@[simp] theorem setIsland_spdm (s : State) (n : Nat) (v : Island) : (setIsland s n v).spdm = s.spdm := rfl
@[simp] theorem setIsland_helm (s : State) (n : Nat) (v : Island) : (setIsland s n v).helm = s.helm := rfl
@[simp] theorem setIsland_mailA (s : State) (n : Nat) (v : Island) : (setIsland s n v).mailA = s.mailA := rfl
@[simp] theorem setIsland_mailB (s : State) (n : Nat) (v : Island) : (setIsland s n v).mailB = s.mailB := rfl
@[simp] theorem setIsland_policy (s : State) (n : Nat) (v : Island) : (setIsland s n v).policy = s.policy := rfl
@[simp] theorem setIsland_disc (s : State) (n : Nat) (v : Island) : (setIsland s n v).disc = s.disc := rfl
@[simp] theorem setIsland_wardens (s : State) (n : Nat) (v : Island) : (setIsland s n v).wardens = s.wardens := rfl
@[simp] theorem setIsland_conf (s : State) (n : Nat) (v : Island) : (setIsland s n v).conf = s.conf := rfl
@[simp] theorem setIsland_fw (s : State) (n : Nat) (v : Island) : (setIsland s n v).fw = s.fw := rfl
@[simp] theorem setIsland_pldm (s : State) (n : Nat) (v : Island) : (setIsland s n v).pldm = s.pldm := rfl
@[simp] theorem setIsland_tap (s : State) (n : Nat) (v : Island) : (setIsland s n v).tap = s.tap := rfl
@[simp] theorem setIsland_sroom (s : State) (n : Nat) (v : Island) : (setIsland s n v).sroom = s.sroom := rfl
@[simp] theorem setIsland_formats (s : State) (n : Nat) (v : Island) : (setIsland s n v).formats = s.formats := rfl
@[simp] theorem setIsland_hashAreas (s : State) (n : Nat) (v : Island) : (setIsland s n v).hashAreas = s.hashAreas := rfl
@[simp] theorem setIsland_iovaDenied (s : State) (n : Nat) (v : Island) : (setIsland s n v).iovaDenied = s.iovaDenied := rfl
@[simp] theorem setIsland_freeCtr (s : State) (n : Nat) (v : Island) : (setIsland s n v).freeCtr = s.freeCtr := rfl

/-! setTenant. -/

@[simp] theorem setTenant_pending (s : State) (t : Nat) (v : Tenant) : (setTenant s t v).pending = s.pending := rfl
@[simp] theorem setTenant_clock (s : State) (t : Nat) (v : Tenant) : (setTenant s t v).clock = s.clock := rfl
@[simp] theorem setTenant_threads (s : State) (t : Nat) (v : Tenant) : (setTenant s t v).threads = s.threads := rfl
@[simp] theorem setTenant_mem (s : State) (t : Nat) (v : Tenant) : (setTenant s t v).mem = s.mem := rfl
@[simp] theorem setTenant_coh (s : State) (t : Nat) (v : Tenant) : (setTenant s t v).coh = s.coh := rfl
@[simp] theorem setTenant_pcache (s : State) (t : Nat) (v : Tenant) : (setTenant s t v).pcache = s.pcache := rfl
@[simp] theorem setTenant_piers (s : State) (t : Nat) (v : Tenant) : (setTenant s t v).piers = s.piers := rfl
@[simp] theorem setTenant_basins (s : State) (t : Nat) (v : Tenant) : (setTenant s t v).basins = s.basins := rfl
@[simp] theorem setTenant_parts (s : State) (t : Nat) (v : Tenant) : (setTenant s t v).parts = s.parts := rfl
@[simp] theorem setTenant_cons (s : State) (t : Nat) (v : Tenant) : (setTenant s t v).cons = s.cons := rfl
@[simp] theorem setTenant_slipped (s : State) (t : Nat) (v : Tenant) : (setTenant s t v).slipped = s.slipped := rfl
@[simp] theorem setTenant_anchorFree (s : State) (t : Nat) (v : Tenant) : (setTenant s t v).anchorFree = s.anchorFree := rfl
@[simp] theorem setTenant_seqs (s : State) (t : Nat) (v : Tenant) : (setTenant s t v).seqs = s.seqs := rfl
@[simp] theorem setTenant_accepted (s : State) (t : Nat) (v : Tenant) : (setTenant s t v).accepted = s.accepted := rfl
@[simp] theorem setTenant_tides (s : State) (t : Nat) (v : Tenant) : (setTenant s t v).tides = s.tides := rfl
@[simp] theorem setTenant_ledgers (s : State) (t : Nat) (v : Tenant) : (setTenant s t v).ledgers = s.ledgers := rfl
@[simp] theorem setTenant_cfg (s : State) (t : Nat) (v : Tenant) : (setTenant s t v).cfg = s.cfg := rfl
@[simp] theorem setTenant_dev (s : State) (t : Nat) (v : Tenant) : (setTenant s t v).dev = s.dev := rfl
@[simp] theorem setTenant_sources (s : State) (t : Nat) (v : Tenant) : (setTenant s t v).sources = s.sources := rfl
@[simp] theorem setTenant_log (s : State) (t : Nat) (v : Tenant) : (setTenant s t v).log = s.log := rfl
@[simp] theorem setTenant_logNext (s : State) (t : Nat) (v : Tenant) : (setTenant s t v).logNext = s.logNext := rfl
@[simp] theorem setTenant_pilotRing (s : State) (t : Nat) (v : Tenant) : (setTenant s t v).pilotRing = s.pilotRing := rfl
@[simp] theorem setTenant_pfEqs (s : State) (t : Nat) (v : Tenant) : (setTenant s t v).pfEqs = s.pfEqs := rfl
@[simp] theorem setTenant_watch (s : State) (t : Nat) (v : Tenant) : (setTenant s t v).watch = s.watch := rfl
@[simp] theorem setTenant_handlers (s : State) (t : Nat) (v : Tenant) : (setTenant s t v).handlers = s.handlers := rfl
@[simp] theorem setTenant_bindings (s : State) (t : Nat) (v : Tenant) : (setTenant s t v).bindings = s.bindings := rfl
@[simp] theorem setTenant_duplexReady (s : State) (t : Nat) (v : Tenant) : (setTenant s t v).duplexReady = s.duplexReady := rfl
@[simp] theorem setTenant_jobs (s : State) (t : Nat) (v : Tenant) : (setTenant s t v).jobs = s.jobs := rfl
@[simp] theorem setTenant_nextJob (s : State) (t : Nat) (v : Tenant) : (setTenant s t v).nextJob = s.nextJob := rfl
@[simp] theorem setTenant_islands (s : State) (t : Nat) (v : Tenant) : (setTenant s t v).islands = s.islands := rfl
@[simp] theorem setTenant_ports (s : State) (t : Nat) (v : Tenant) : (setTenant s t v).ports = s.ports := rfl
@[simp] theorem setTenant_vfs (s : State) (t : Nat) (v : Tenant) : (setTenant s t v).vfs = s.vfs := rfl
@[simp] theorem setTenant_otp (s : State) (t : Nat) (v : Tenant) : (setTenant s t v).otp = s.otp := rfl
@[simp] theorem setTenant_epoch (s : State) (t : Nat) (v : Tenant) : (setTenant s t v).epoch = s.epoch := rfl
@[simp] theorem setTenant_position (s : State) (t : Nat) (v : Tenant) : (setTenant s t v).position = s.position := rfl
@[simp] theorem setTenant_road (s : State) (t : Nat) (v : Tenant) : (setTenant s t v).road = s.road := rfl
@[simp] theorem setTenant_hlinks (s : State) (t : Nat) (v : Tenant) : (setTenant s t v).hlinks = s.hlinks := rfl
@[simp] theorem setTenant_mirrors (s : State) (t : Nat) (v : Tenant) : (setTenant s t v).mirrors = s.mirrors := rfl
@[simp] theorem setTenant_ide (s : State) (t : Nat) (v : Tenant) : (setTenant s t v).ide = s.ide := rfl
@[simp] theorem setTenant_spdm (s : State) (t : Nat) (v : Tenant) : (setTenant s t v).spdm = s.spdm := rfl
@[simp] theorem setTenant_helm (s : State) (t : Nat) (v : Tenant) : (setTenant s t v).helm = s.helm := rfl
@[simp] theorem setTenant_mailA (s : State) (t : Nat) (v : Tenant) : (setTenant s t v).mailA = s.mailA := rfl
@[simp] theorem setTenant_mailB (s : State) (t : Nat) (v : Tenant) : (setTenant s t v).mailB = s.mailB := rfl
@[simp] theorem setTenant_policy (s : State) (t : Nat) (v : Tenant) : (setTenant s t v).policy = s.policy := rfl
@[simp] theorem setTenant_disc (s : State) (t : Nat) (v : Tenant) : (setTenant s t v).disc = s.disc := rfl
@[simp] theorem setTenant_wardens (s : State) (t : Nat) (v : Tenant) : (setTenant s t v).wardens = s.wardens := rfl
@[simp] theorem setTenant_conf (s : State) (t : Nat) (v : Tenant) : (setTenant s t v).conf = s.conf := rfl
@[simp] theorem setTenant_fw (s : State) (t : Nat) (v : Tenant) : (setTenant s t v).fw = s.fw := rfl
@[simp] theorem setTenant_pldm (s : State) (t : Nat) (v : Tenant) : (setTenant s t v).pldm = s.pldm := rfl
@[simp] theorem setTenant_tap (s : State) (t : Nat) (v : Tenant) : (setTenant s t v).tap = s.tap := rfl
@[simp] theorem setTenant_sroom (s : State) (t : Nat) (v : Tenant) : (setTenant s t v).sroom = s.sroom := rfl
@[simp] theorem setTenant_formats (s : State) (t : Nat) (v : Tenant) : (setTenant s t v).formats = s.formats := rfl
@[simp] theorem setTenant_hashAreas (s : State) (t : Nat) (v : Tenant) : (setTenant s t v).hashAreas = s.hashAreas := rfl
@[simp] theorem setTenant_iovaDenied (s : State) (t : Nat) (v : Tenant) : (setTenant s t v).iovaDenied = s.iovaDenied := rfl
@[simp] theorem setTenant_freeCtr (s : State) (t : Nat) (v : Tenant) : (setTenant s t v).freeCtr = s.freeCtr := rfl

/-! setPort. -/

@[simp] theorem setPort_pending (s : State) (p : Port) (v : PortState) : (setPort s p v).pending = s.pending := rfl
@[simp] theorem setPort_clock (s : State) (p : Port) (v : PortState) : (setPort s p v).clock = s.clock := rfl
@[simp] theorem setPort_threads (s : State) (p : Port) (v : PortState) : (setPort s p v).threads = s.threads := rfl
@[simp] theorem setPort_mem (s : State) (p : Port) (v : PortState) : (setPort s p v).mem = s.mem := rfl
@[simp] theorem setPort_coh (s : State) (p : Port) (v : PortState) : (setPort s p v).coh = s.coh := rfl
@[simp] theorem setPort_pcache (s : State) (p : Port) (v : PortState) : (setPort s p v).pcache = s.pcache := rfl
@[simp] theorem setPort_piers (s : State) (p : Port) (v : PortState) : (setPort s p v).piers = s.piers := rfl
@[simp] theorem setPort_basins (s : State) (p : Port) (v : PortState) : (setPort s p v).basins = s.basins := rfl
@[simp] theorem setPort_parts (s : State) (p : Port) (v : PortState) : (setPort s p v).parts = s.parts := rfl
@[simp] theorem setPort_cons (s : State) (p : Port) (v : PortState) : (setPort s p v).cons = s.cons := rfl
@[simp] theorem setPort_slipped (s : State) (p : Port) (v : PortState) : (setPort s p v).slipped = s.slipped := rfl
@[simp] theorem setPort_anchorFree (s : State) (p : Port) (v : PortState) : (setPort s p v).anchorFree = s.anchorFree := rfl
@[simp] theorem setPort_seqs (s : State) (p : Port) (v : PortState) : (setPort s p v).seqs = s.seqs := rfl
@[simp] theorem setPort_accepted (s : State) (p : Port) (v : PortState) : (setPort s p v).accepted = s.accepted := rfl
@[simp] theorem setPort_tides (s : State) (p : Port) (v : PortState) : (setPort s p v).tides = s.tides := rfl
@[simp] theorem setPort_tenants (s : State) (p : Port) (v : PortState) : (setPort s p v).tenants = s.tenants := rfl
@[simp] theorem setPort_ledgers (s : State) (p : Port) (v : PortState) : (setPort s p v).ledgers = s.ledgers := rfl
@[simp] theorem setPort_cfg (s : State) (p : Port) (v : PortState) : (setPort s p v).cfg = s.cfg := rfl
@[simp] theorem setPort_dev (s : State) (p : Port) (v : PortState) : (setPort s p v).dev = s.dev := rfl
@[simp] theorem setPort_sources (s : State) (p : Port) (v : PortState) : (setPort s p v).sources = s.sources := rfl
@[simp] theorem setPort_log (s : State) (p : Port) (v : PortState) : (setPort s p v).log = s.log := rfl
@[simp] theorem setPort_logNext (s : State) (p : Port) (v : PortState) : (setPort s p v).logNext = s.logNext := rfl
@[simp] theorem setPort_pilotRing (s : State) (p : Port) (v : PortState) : (setPort s p v).pilotRing = s.pilotRing := rfl
@[simp] theorem setPort_pfEqs (s : State) (p : Port) (v : PortState) : (setPort s p v).pfEqs = s.pfEqs := rfl
@[simp] theorem setPort_watch (s : State) (p : Port) (v : PortState) : (setPort s p v).watch = s.watch := rfl
@[simp] theorem setPort_handlers (s : State) (p : Port) (v : PortState) : (setPort s p v).handlers = s.handlers := rfl
@[simp] theorem setPort_bindings (s : State) (p : Port) (v : PortState) : (setPort s p v).bindings = s.bindings := rfl
@[simp] theorem setPort_duplexReady (s : State) (p : Port) (v : PortState) : (setPort s p v).duplexReady = s.duplexReady := rfl
@[simp] theorem setPort_jobs (s : State) (p : Port) (v : PortState) : (setPort s p v).jobs = s.jobs := rfl
@[simp] theorem setPort_nextJob (s : State) (p : Port) (v : PortState) : (setPort s p v).nextJob = s.nextJob := rfl
@[simp] theorem setPort_islands (s : State) (p : Port) (v : PortState) : (setPort s p v).islands = s.islands := rfl
@[simp] theorem setPort_vfs (s : State) (p : Port) (v : PortState) : (setPort s p v).vfs = s.vfs := rfl
@[simp] theorem setPort_otp (s : State) (p : Port) (v : PortState) : (setPort s p v).otp = s.otp := rfl
@[simp] theorem setPort_epoch (s : State) (p : Port) (v : PortState) : (setPort s p v).epoch = s.epoch := rfl
@[simp] theorem setPort_position (s : State) (p : Port) (v : PortState) : (setPort s p v).position = s.position := rfl
@[simp] theorem setPort_road (s : State) (p : Port) (v : PortState) : (setPort s p v).road = s.road := rfl
@[simp] theorem setPort_hlinks (s : State) (p : Port) (v : PortState) : (setPort s p v).hlinks = s.hlinks := rfl
@[simp] theorem setPort_mirrors (s : State) (p : Port) (v : PortState) : (setPort s p v).mirrors = s.mirrors := rfl
@[simp] theorem setPort_ide (s : State) (p : Port) (v : PortState) : (setPort s p v).ide = s.ide := rfl
@[simp] theorem setPort_spdm (s : State) (p : Port) (v : PortState) : (setPort s p v).spdm = s.spdm := rfl
@[simp] theorem setPort_helm (s : State) (p : Port) (v : PortState) : (setPort s p v).helm = s.helm := rfl
@[simp] theorem setPort_mailA (s : State) (p : Port) (v : PortState) : (setPort s p v).mailA = s.mailA := rfl
@[simp] theorem setPort_mailB (s : State) (p : Port) (v : PortState) : (setPort s p v).mailB = s.mailB := rfl
@[simp] theorem setPort_policy (s : State) (p : Port) (v : PortState) : (setPort s p v).policy = s.policy := rfl
@[simp] theorem setPort_disc (s : State) (p : Port) (v : PortState) : (setPort s p v).disc = s.disc := rfl
@[simp] theorem setPort_wardens (s : State) (p : Port) (v : PortState) : (setPort s p v).wardens = s.wardens := rfl
@[simp] theorem setPort_conf (s : State) (p : Port) (v : PortState) : (setPort s p v).conf = s.conf := rfl
@[simp] theorem setPort_fw (s : State) (p : Port) (v : PortState) : (setPort s p v).fw = s.fw := rfl
@[simp] theorem setPort_pldm (s : State) (p : Port) (v : PortState) : (setPort s p v).pldm = s.pldm := rfl
@[simp] theorem setPort_tap (s : State) (p : Port) (v : PortState) : (setPort s p v).tap = s.tap := rfl
@[simp] theorem setPort_sroom (s : State) (p : Port) (v : PortState) : (setPort s p v).sroom = s.sroom := rfl
@[simp] theorem setPort_formats (s : State) (p : Port) (v : PortState) : (setPort s p v).formats = s.formats := rfl
@[simp] theorem setPort_hashAreas (s : State) (p : Port) (v : PortState) : (setPort s p v).hashAreas = s.hashAreas := rfl
@[simp] theorem setPort_iovaDenied (s : State) (p : Port) (v : PortState) : (setPort s p v).iovaDenied = s.iovaDenied := rfl
@[simp] theorem setPort_freeCtr (s : State) (p : Port) (v : PortState) : (setPort s p v).freeCtr = s.freeCtr := rfl

/-! setVf. -/

@[simp] theorem setVf_pending (s : State) (p : Port) (t : Nat) (v : Vf) : (setVf s p t v).pending = s.pending := rfl
@[simp] theorem setVf_clock (s : State) (p : Port) (t : Nat) (v : Vf) : (setVf s p t v).clock = s.clock := rfl
@[simp] theorem setVf_threads (s : State) (p : Port) (t : Nat) (v : Vf) : (setVf s p t v).threads = s.threads := rfl
@[simp] theorem setVf_mem (s : State) (p : Port) (t : Nat) (v : Vf) : (setVf s p t v).mem = s.mem := rfl
@[simp] theorem setVf_coh (s : State) (p : Port) (t : Nat) (v : Vf) : (setVf s p t v).coh = s.coh := rfl
@[simp] theorem setVf_pcache (s : State) (p : Port) (t : Nat) (v : Vf) : (setVf s p t v).pcache = s.pcache := rfl
@[simp] theorem setVf_piers (s : State) (p : Port) (t : Nat) (v : Vf) : (setVf s p t v).piers = s.piers := rfl
@[simp] theorem setVf_basins (s : State) (p : Port) (t : Nat) (v : Vf) : (setVf s p t v).basins = s.basins := rfl
@[simp] theorem setVf_parts (s : State) (p : Port) (t : Nat) (v : Vf) : (setVf s p t v).parts = s.parts := rfl
@[simp] theorem setVf_cons (s : State) (p : Port) (t : Nat) (v : Vf) : (setVf s p t v).cons = s.cons := rfl
@[simp] theorem setVf_slipped (s : State) (p : Port) (t : Nat) (v : Vf) : (setVf s p t v).slipped = s.slipped := rfl
@[simp] theorem setVf_anchorFree (s : State) (p : Port) (t : Nat) (v : Vf) : (setVf s p t v).anchorFree = s.anchorFree := rfl
@[simp] theorem setVf_seqs (s : State) (p : Port) (t : Nat) (v : Vf) : (setVf s p t v).seqs = s.seqs := rfl
@[simp] theorem setVf_accepted (s : State) (p : Port) (t : Nat) (v : Vf) : (setVf s p t v).accepted = s.accepted := rfl
@[simp] theorem setVf_tides (s : State) (p : Port) (t : Nat) (v : Vf) : (setVf s p t v).tides = s.tides := rfl
@[simp] theorem setVf_tenants (s : State) (p : Port) (t : Nat) (v : Vf) : (setVf s p t v).tenants = s.tenants := rfl
@[simp] theorem setVf_ledgers (s : State) (p : Port) (t : Nat) (v : Vf) : (setVf s p t v).ledgers = s.ledgers := rfl
@[simp] theorem setVf_cfg (s : State) (p : Port) (t : Nat) (v : Vf) : (setVf s p t v).cfg = s.cfg := rfl
@[simp] theorem setVf_dev (s : State) (p : Port) (t : Nat) (v : Vf) : (setVf s p t v).dev = s.dev := rfl
@[simp] theorem setVf_sources (s : State) (p : Port) (t : Nat) (v : Vf) : (setVf s p t v).sources = s.sources := rfl
@[simp] theorem setVf_log (s : State) (p : Port) (t : Nat) (v : Vf) : (setVf s p t v).log = s.log := rfl
@[simp] theorem setVf_logNext (s : State) (p : Port) (t : Nat) (v : Vf) : (setVf s p t v).logNext = s.logNext := rfl
@[simp] theorem setVf_pilotRing (s : State) (p : Port) (t : Nat) (v : Vf) : (setVf s p t v).pilotRing = s.pilotRing := rfl
@[simp] theorem setVf_pfEqs (s : State) (p : Port) (t : Nat) (v : Vf) : (setVf s p t v).pfEqs = s.pfEqs := rfl
@[simp] theorem setVf_watch (s : State) (p : Port) (t : Nat) (v : Vf) : (setVf s p t v).watch = s.watch := rfl
@[simp] theorem setVf_handlers (s : State) (p : Port) (t : Nat) (v : Vf) : (setVf s p t v).handlers = s.handlers := rfl
@[simp] theorem setVf_bindings (s : State) (p : Port) (t : Nat) (v : Vf) : (setVf s p t v).bindings = s.bindings := rfl
@[simp] theorem setVf_duplexReady (s : State) (p : Port) (t : Nat) (v : Vf) : (setVf s p t v).duplexReady = s.duplexReady := rfl
@[simp] theorem setVf_jobs (s : State) (p : Port) (t : Nat) (v : Vf) : (setVf s p t v).jobs = s.jobs := rfl
@[simp] theorem setVf_nextJob (s : State) (p : Port) (t : Nat) (v : Vf) : (setVf s p t v).nextJob = s.nextJob := rfl
@[simp] theorem setVf_islands (s : State) (p : Port) (t : Nat) (v : Vf) : (setVf s p t v).islands = s.islands := rfl
@[simp] theorem setVf_ports (s : State) (p : Port) (t : Nat) (v : Vf) : (setVf s p t v).ports = s.ports := rfl
@[simp] theorem setVf_otp (s : State) (p : Port) (t : Nat) (v : Vf) : (setVf s p t v).otp = s.otp := rfl
@[simp] theorem setVf_epoch (s : State) (p : Port) (t : Nat) (v : Vf) : (setVf s p t v).epoch = s.epoch := rfl
@[simp] theorem setVf_position (s : State) (p : Port) (t : Nat) (v : Vf) : (setVf s p t v).position = s.position := rfl
@[simp] theorem setVf_road (s : State) (p : Port) (t : Nat) (v : Vf) : (setVf s p t v).road = s.road := rfl
@[simp] theorem setVf_hlinks (s : State) (p : Port) (t : Nat) (v : Vf) : (setVf s p t v).hlinks = s.hlinks := rfl
@[simp] theorem setVf_mirrors (s : State) (p : Port) (t : Nat) (v : Vf) : (setVf s p t v).mirrors = s.mirrors := rfl
@[simp] theorem setVf_ide (s : State) (p : Port) (t : Nat) (v : Vf) : (setVf s p t v).ide = s.ide := rfl
@[simp] theorem setVf_spdm (s : State) (p : Port) (t : Nat) (v : Vf) : (setVf s p t v).spdm = s.spdm := rfl
@[simp] theorem setVf_helm (s : State) (p : Port) (t : Nat) (v : Vf) : (setVf s p t v).helm = s.helm := rfl
@[simp] theorem setVf_mailA (s : State) (p : Port) (t : Nat) (v : Vf) : (setVf s p t v).mailA = s.mailA := rfl
@[simp] theorem setVf_mailB (s : State) (p : Port) (t : Nat) (v : Vf) : (setVf s p t v).mailB = s.mailB := rfl
@[simp] theorem setVf_policy (s : State) (p : Port) (t : Nat) (v : Vf) : (setVf s p t v).policy = s.policy := rfl
@[simp] theorem setVf_disc (s : State) (p : Port) (t : Nat) (v : Vf) : (setVf s p t v).disc = s.disc := rfl
@[simp] theorem setVf_wardens (s : State) (p : Port) (t : Nat) (v : Vf) : (setVf s p t v).wardens = s.wardens := rfl
@[simp] theorem setVf_conf (s : State) (p : Port) (t : Nat) (v : Vf) : (setVf s p t v).conf = s.conf := rfl
@[simp] theorem setVf_fw (s : State) (p : Port) (t : Nat) (v : Vf) : (setVf s p t v).fw = s.fw := rfl
@[simp] theorem setVf_pldm (s : State) (p : Port) (t : Nat) (v : Vf) : (setVf s p t v).pldm = s.pldm := rfl
@[simp] theorem setVf_tap (s : State) (p : Port) (t : Nat) (v : Vf) : (setVf s p t v).tap = s.tap := rfl
@[simp] theorem setVf_sroom (s : State) (p : Port) (t : Nat) (v : Vf) : (setVf s p t v).sroom = s.sroom := rfl
@[simp] theorem setVf_formats (s : State) (p : Port) (t : Nat) (v : Vf) : (setVf s p t v).formats = s.formats := rfl
@[simp] theorem setVf_hashAreas (s : State) (p : Port) (t : Nat) (v : Vf) : (setVf s p t v).hashAreas = s.hashAreas := rfl
@[simp] theorem setVf_iovaDenied (s : State) (p : Port) (t : Nat) (v : Vf) : (setVf s p t v).iovaDenied = s.iovaDenied := rfl
@[simp] theorem setVf_freeCtr (s : State) (p : Port) (t : Nat) (v : Vf) : (setVf s p t v).freeCtr = s.freeCtr := rfl

/-! setCons. -/

@[simp] theorem setCons_pending (s : State) (q : Nat) (c : Cons) : (setCons s q c).pending = s.pending := rfl
@[simp] theorem setCons_clock (s : State) (q : Nat) (c : Cons) : (setCons s q c).clock = s.clock := rfl
@[simp] theorem setCons_threads (s : State) (q : Nat) (c : Cons) : (setCons s q c).threads = s.threads := rfl
@[simp] theorem setCons_mem (s : State) (q : Nat) (c : Cons) : (setCons s q c).mem = s.mem := rfl
@[simp] theorem setCons_coh (s : State) (q : Nat) (c : Cons) : (setCons s q c).coh = s.coh := rfl
@[simp] theorem setCons_pcache (s : State) (q : Nat) (c : Cons) : (setCons s q c).pcache = s.pcache := rfl
@[simp] theorem setCons_piers (s : State) (q : Nat) (c : Cons) : (setCons s q c).piers = s.piers := rfl
@[simp] theorem setCons_basins (s : State) (q : Nat) (c : Cons) : (setCons s q c).basins = s.basins := rfl
@[simp] theorem setCons_parts (s : State) (q : Nat) (c : Cons) : (setCons s q c).parts = s.parts := rfl
@[simp] theorem setCons_slipped (s : State) (q : Nat) (c : Cons) : (setCons s q c).slipped = s.slipped := rfl
@[simp] theorem setCons_anchorFree (s : State) (q : Nat) (c : Cons) : (setCons s q c).anchorFree = s.anchorFree := rfl
@[simp] theorem setCons_seqs (s : State) (q : Nat) (c : Cons) : (setCons s q c).seqs = s.seqs := rfl
@[simp] theorem setCons_accepted (s : State) (q : Nat) (c : Cons) : (setCons s q c).accepted = s.accepted := rfl
@[simp] theorem setCons_tides (s : State) (q : Nat) (c : Cons) : (setCons s q c).tides = s.tides := rfl
@[simp] theorem setCons_tenants (s : State) (q : Nat) (c : Cons) : (setCons s q c).tenants = s.tenants := rfl
@[simp] theorem setCons_ledgers (s : State) (q : Nat) (c : Cons) : (setCons s q c).ledgers = s.ledgers := rfl
@[simp] theorem setCons_cfg (s : State) (q : Nat) (c : Cons) : (setCons s q c).cfg = s.cfg := rfl
@[simp] theorem setCons_dev (s : State) (q : Nat) (c : Cons) : (setCons s q c).dev = s.dev := rfl
@[simp] theorem setCons_sources (s : State) (q : Nat) (c : Cons) : (setCons s q c).sources = s.sources := rfl
@[simp] theorem setCons_log (s : State) (q : Nat) (c : Cons) : (setCons s q c).log = s.log := rfl
@[simp] theorem setCons_logNext (s : State) (q : Nat) (c : Cons) : (setCons s q c).logNext = s.logNext := rfl
@[simp] theorem setCons_pilotRing (s : State) (q : Nat) (c : Cons) : (setCons s q c).pilotRing = s.pilotRing := rfl
@[simp] theorem setCons_pfEqs (s : State) (q : Nat) (c : Cons) : (setCons s q c).pfEqs = s.pfEqs := rfl
@[simp] theorem setCons_watch (s : State) (q : Nat) (c : Cons) : (setCons s q c).watch = s.watch := rfl
@[simp] theorem setCons_handlers (s : State) (q : Nat) (c : Cons) : (setCons s q c).handlers = s.handlers := rfl
@[simp] theorem setCons_bindings (s : State) (q : Nat) (c : Cons) : (setCons s q c).bindings = s.bindings := rfl
@[simp] theorem setCons_duplexReady (s : State) (q : Nat) (c : Cons) : (setCons s q c).duplexReady = s.duplexReady := rfl
@[simp] theorem setCons_jobs (s : State) (q : Nat) (c : Cons) : (setCons s q c).jobs = s.jobs := rfl
@[simp] theorem setCons_nextJob (s : State) (q : Nat) (c : Cons) : (setCons s q c).nextJob = s.nextJob := rfl
@[simp] theorem setCons_islands (s : State) (q : Nat) (c : Cons) : (setCons s q c).islands = s.islands := rfl
@[simp] theorem setCons_ports (s : State) (q : Nat) (c : Cons) : (setCons s q c).ports = s.ports := rfl
@[simp] theorem setCons_vfs (s : State) (q : Nat) (c : Cons) : (setCons s q c).vfs = s.vfs := rfl
@[simp] theorem setCons_otp (s : State) (q : Nat) (c : Cons) : (setCons s q c).otp = s.otp := rfl
@[simp] theorem setCons_epoch (s : State) (q : Nat) (c : Cons) : (setCons s q c).epoch = s.epoch := rfl
@[simp] theorem setCons_position (s : State) (q : Nat) (c : Cons) : (setCons s q c).position = s.position := rfl
@[simp] theorem setCons_road (s : State) (q : Nat) (c : Cons) : (setCons s q c).road = s.road := rfl
@[simp] theorem setCons_hlinks (s : State) (q : Nat) (c : Cons) : (setCons s q c).hlinks = s.hlinks := rfl
@[simp] theorem setCons_mirrors (s : State) (q : Nat) (c : Cons) : (setCons s q c).mirrors = s.mirrors := rfl
@[simp] theorem setCons_ide (s : State) (q : Nat) (c : Cons) : (setCons s q c).ide = s.ide := rfl
@[simp] theorem setCons_spdm (s : State) (q : Nat) (c : Cons) : (setCons s q c).spdm = s.spdm := rfl
@[simp] theorem setCons_helm (s : State) (q : Nat) (c : Cons) : (setCons s q c).helm = s.helm := rfl
@[simp] theorem setCons_mailA (s : State) (q : Nat) (c : Cons) : (setCons s q c).mailA = s.mailA := rfl
@[simp] theorem setCons_mailB (s : State) (q : Nat) (c : Cons) : (setCons s q c).mailB = s.mailB := rfl
@[simp] theorem setCons_policy (s : State) (q : Nat) (c : Cons) : (setCons s q c).policy = s.policy := rfl
@[simp] theorem setCons_disc (s : State) (q : Nat) (c : Cons) : (setCons s q c).disc = s.disc := rfl
@[simp] theorem setCons_wardens (s : State) (q : Nat) (c : Cons) : (setCons s q c).wardens = s.wardens := rfl
@[simp] theorem setCons_conf (s : State) (q : Nat) (c : Cons) : (setCons s q c).conf = s.conf := rfl
@[simp] theorem setCons_fw (s : State) (q : Nat) (c : Cons) : (setCons s q c).fw = s.fw := rfl
@[simp] theorem setCons_pldm (s : State) (q : Nat) (c : Cons) : (setCons s q c).pldm = s.pldm := rfl
@[simp] theorem setCons_tap (s : State) (q : Nat) (c : Cons) : (setCons s q c).tap = s.tap := rfl
@[simp] theorem setCons_sroom (s : State) (q : Nat) (c : Cons) : (setCons s q c).sroom = s.sroom := rfl
@[simp] theorem setCons_formats (s : State) (q : Nat) (c : Cons) : (setCons s q c).formats = s.formats := rfl
@[simp] theorem setCons_hashAreas (s : State) (q : Nat) (c : Cons) : (setCons s q c).hashAreas = s.hashAreas := rfl
@[simp] theorem setCons_iovaDenied (s : State) (q : Nat) (c : Cons) : (setCons s q c).iovaDenied = s.iovaDenied := rfl
@[simp] theorem setCons_freeCtr (s : State) (q : Nat) (c : Cons) : (setCons s q c).freeCtr = s.freeCtr := rfl

/-! setPart. -/

@[simp] theorem setPart_pending (s : State) (p : Nat) (v : Part) : (setPart s p v).pending = s.pending := rfl
@[simp] theorem setPart_clock (s : State) (p : Nat) (v : Part) : (setPart s p v).clock = s.clock := rfl
@[simp] theorem setPart_threads (s : State) (p : Nat) (v : Part) : (setPart s p v).threads = s.threads := rfl
@[simp] theorem setPart_mem (s : State) (p : Nat) (v : Part) : (setPart s p v).mem = s.mem := rfl
@[simp] theorem setPart_coh (s : State) (p : Nat) (v : Part) : (setPart s p v).coh = s.coh := rfl
@[simp] theorem setPart_pcache (s : State) (p : Nat) (v : Part) : (setPart s p v).pcache = s.pcache := rfl
@[simp] theorem setPart_piers (s : State) (p : Nat) (v : Part) : (setPart s p v).piers = s.piers := rfl
@[simp] theorem setPart_basins (s : State) (p : Nat) (v : Part) : (setPart s p v).basins = s.basins := rfl
@[simp] theorem setPart_cons (s : State) (p : Nat) (v : Part) : (setPart s p v).cons = s.cons := rfl
@[simp] theorem setPart_slipped (s : State) (p : Nat) (v : Part) : (setPart s p v).slipped = s.slipped := rfl
@[simp] theorem setPart_anchorFree (s : State) (p : Nat) (v : Part) : (setPart s p v).anchorFree = s.anchorFree := rfl
@[simp] theorem setPart_seqs (s : State) (p : Nat) (v : Part) : (setPart s p v).seqs = s.seqs := rfl
@[simp] theorem setPart_accepted (s : State) (p : Nat) (v : Part) : (setPart s p v).accepted = s.accepted := rfl
@[simp] theorem setPart_tides (s : State) (p : Nat) (v : Part) : (setPart s p v).tides = s.tides := rfl
@[simp] theorem setPart_tenants (s : State) (p : Nat) (v : Part) : (setPart s p v).tenants = s.tenants := rfl
@[simp] theorem setPart_ledgers (s : State) (p : Nat) (v : Part) : (setPart s p v).ledgers = s.ledgers := rfl
@[simp] theorem setPart_cfg (s : State) (p : Nat) (v : Part) : (setPart s p v).cfg = s.cfg := rfl
@[simp] theorem setPart_dev (s : State) (p : Nat) (v : Part) : (setPart s p v).dev = s.dev := rfl
@[simp] theorem setPart_sources (s : State) (p : Nat) (v : Part) : (setPart s p v).sources = s.sources := rfl
@[simp] theorem setPart_log (s : State) (p : Nat) (v : Part) : (setPart s p v).log = s.log := rfl
@[simp] theorem setPart_logNext (s : State) (p : Nat) (v : Part) : (setPart s p v).logNext = s.logNext := rfl
@[simp] theorem setPart_pilotRing (s : State) (p : Nat) (v : Part) : (setPart s p v).pilotRing = s.pilotRing := rfl
@[simp] theorem setPart_pfEqs (s : State) (p : Nat) (v : Part) : (setPart s p v).pfEqs = s.pfEqs := rfl
@[simp] theorem setPart_watch (s : State) (p : Nat) (v : Part) : (setPart s p v).watch = s.watch := rfl
@[simp] theorem setPart_handlers (s : State) (p : Nat) (v : Part) : (setPart s p v).handlers = s.handlers := rfl
@[simp] theorem setPart_bindings (s : State) (p : Nat) (v : Part) : (setPart s p v).bindings = s.bindings := rfl
@[simp] theorem setPart_duplexReady (s : State) (p : Nat) (v : Part) : (setPart s p v).duplexReady = s.duplexReady := rfl
@[simp] theorem setPart_jobs (s : State) (p : Nat) (v : Part) : (setPart s p v).jobs = s.jobs := rfl
@[simp] theorem setPart_nextJob (s : State) (p : Nat) (v : Part) : (setPart s p v).nextJob = s.nextJob := rfl
@[simp] theorem setPart_islands (s : State) (p : Nat) (v : Part) : (setPart s p v).islands = s.islands := rfl
@[simp] theorem setPart_ports (s : State) (p : Nat) (v : Part) : (setPart s p v).ports = s.ports := rfl
@[simp] theorem setPart_vfs (s : State) (p : Nat) (v : Part) : (setPart s p v).vfs = s.vfs := rfl
@[simp] theorem setPart_otp (s : State) (p : Nat) (v : Part) : (setPart s p v).otp = s.otp := rfl
@[simp] theorem setPart_epoch (s : State) (p : Nat) (v : Part) : (setPart s p v).epoch = s.epoch := rfl
@[simp] theorem setPart_position (s : State) (p : Nat) (v : Part) : (setPart s p v).position = s.position := rfl
@[simp] theorem setPart_road (s : State) (p : Nat) (v : Part) : (setPart s p v).road = s.road := rfl
@[simp] theorem setPart_hlinks (s : State) (p : Nat) (v : Part) : (setPart s p v).hlinks = s.hlinks := rfl
@[simp] theorem setPart_mirrors (s : State) (p : Nat) (v : Part) : (setPart s p v).mirrors = s.mirrors := rfl
@[simp] theorem setPart_ide (s : State) (p : Nat) (v : Part) : (setPart s p v).ide = s.ide := rfl
@[simp] theorem setPart_spdm (s : State) (p : Nat) (v : Part) : (setPart s p v).spdm = s.spdm := rfl
@[simp] theorem setPart_helm (s : State) (p : Nat) (v : Part) : (setPart s p v).helm = s.helm := rfl
@[simp] theorem setPart_mailA (s : State) (p : Nat) (v : Part) : (setPart s p v).mailA = s.mailA := rfl
@[simp] theorem setPart_mailB (s : State) (p : Nat) (v : Part) : (setPart s p v).mailB = s.mailB := rfl
@[simp] theorem setPart_policy (s : State) (p : Nat) (v : Part) : (setPart s p v).policy = s.policy := rfl
@[simp] theorem setPart_disc (s : State) (p : Nat) (v : Part) : (setPart s p v).disc = s.disc := rfl
@[simp] theorem setPart_wardens (s : State) (p : Nat) (v : Part) : (setPart s p v).wardens = s.wardens := rfl
@[simp] theorem setPart_conf (s : State) (p : Nat) (v : Part) : (setPart s p v).conf = s.conf := rfl
@[simp] theorem setPart_fw (s : State) (p : Nat) (v : Part) : (setPart s p v).fw = s.fw := rfl
@[simp] theorem setPart_pldm (s : State) (p : Nat) (v : Part) : (setPart s p v).pldm = s.pldm := rfl
@[simp] theorem setPart_tap (s : State) (p : Nat) (v : Part) : (setPart s p v).tap = s.tap := rfl
@[simp] theorem setPart_sroom (s : State) (p : Nat) (v : Part) : (setPart s p v).sroom = s.sroom := rfl
@[simp] theorem setPart_formats (s : State) (p : Nat) (v : Part) : (setPart s p v).formats = s.formats := rfl
@[simp] theorem setPart_hashAreas (s : State) (p : Nat) (v : Part) : (setPart s p v).hashAreas = s.hashAreas := rfl
@[simp] theorem setPart_iovaDenied (s : State) (p : Nat) (v : Part) : (setPart s p v).iovaDenied = s.iovaDenied := rfl
@[simp] theorem setPart_freeCtr (s : State) (p : Nat) (v : Part) : (setPart s p v).freeCtr = s.freeCtr := rfl

/-! setCoh. -/

@[simp] theorem setCoh_pending (s : State) (b : Nat) (c : Coh) : (setCoh s b c).pending = s.pending := rfl
@[simp] theorem setCoh_clock (s : State) (b : Nat) (c : Coh) : (setCoh s b c).clock = s.clock := rfl
@[simp] theorem setCoh_threads (s : State) (b : Nat) (c : Coh) : (setCoh s b c).threads = s.threads := rfl
@[simp] theorem setCoh_mem (s : State) (b : Nat) (c : Coh) : (setCoh s b c).mem = s.mem := rfl
@[simp] theorem setCoh_pcache (s : State) (b : Nat) (c : Coh) : (setCoh s b c).pcache = s.pcache := rfl
@[simp] theorem setCoh_piers (s : State) (b : Nat) (c : Coh) : (setCoh s b c).piers = s.piers := rfl
@[simp] theorem setCoh_basins (s : State) (b : Nat) (c : Coh) : (setCoh s b c).basins = s.basins := rfl
@[simp] theorem setCoh_parts (s : State) (b : Nat) (c : Coh) : (setCoh s b c).parts = s.parts := rfl
@[simp] theorem setCoh_cons (s : State) (b : Nat) (c : Coh) : (setCoh s b c).cons = s.cons := rfl
@[simp] theorem setCoh_slipped (s : State) (b : Nat) (c : Coh) : (setCoh s b c).slipped = s.slipped := rfl
@[simp] theorem setCoh_anchorFree (s : State) (b : Nat) (c : Coh) : (setCoh s b c).anchorFree = s.anchorFree := rfl
@[simp] theorem setCoh_seqs (s : State) (b : Nat) (c : Coh) : (setCoh s b c).seqs = s.seqs := rfl
@[simp] theorem setCoh_accepted (s : State) (b : Nat) (c : Coh) : (setCoh s b c).accepted = s.accepted := rfl
@[simp] theorem setCoh_tides (s : State) (b : Nat) (c : Coh) : (setCoh s b c).tides = s.tides := rfl
@[simp] theorem setCoh_tenants (s : State) (b : Nat) (c : Coh) : (setCoh s b c).tenants = s.tenants := rfl
@[simp] theorem setCoh_ledgers (s : State) (b : Nat) (c : Coh) : (setCoh s b c).ledgers = s.ledgers := rfl
@[simp] theorem setCoh_cfg (s : State) (b : Nat) (c : Coh) : (setCoh s b c).cfg = s.cfg := rfl
@[simp] theorem setCoh_dev (s : State) (b : Nat) (c : Coh) : (setCoh s b c).dev = s.dev := rfl
@[simp] theorem setCoh_sources (s : State) (b : Nat) (c : Coh) : (setCoh s b c).sources = s.sources := rfl
@[simp] theorem setCoh_log (s : State) (b : Nat) (c : Coh) : (setCoh s b c).log = s.log := rfl
@[simp] theorem setCoh_logNext (s : State) (b : Nat) (c : Coh) : (setCoh s b c).logNext = s.logNext := rfl
@[simp] theorem setCoh_pilotRing (s : State) (b : Nat) (c : Coh) : (setCoh s b c).pilotRing = s.pilotRing := rfl
@[simp] theorem setCoh_pfEqs (s : State) (b : Nat) (c : Coh) : (setCoh s b c).pfEqs = s.pfEqs := rfl
@[simp] theorem setCoh_watch (s : State) (b : Nat) (c : Coh) : (setCoh s b c).watch = s.watch := rfl
@[simp] theorem setCoh_handlers (s : State) (b : Nat) (c : Coh) : (setCoh s b c).handlers = s.handlers := rfl
@[simp] theorem setCoh_bindings (s : State) (b : Nat) (c : Coh) : (setCoh s b c).bindings = s.bindings := rfl
@[simp] theorem setCoh_duplexReady (s : State) (b : Nat) (c : Coh) : (setCoh s b c).duplexReady = s.duplexReady := rfl
@[simp] theorem setCoh_jobs (s : State) (b : Nat) (c : Coh) : (setCoh s b c).jobs = s.jobs := rfl
@[simp] theorem setCoh_nextJob (s : State) (b : Nat) (c : Coh) : (setCoh s b c).nextJob = s.nextJob := rfl
@[simp] theorem setCoh_islands (s : State) (b : Nat) (c : Coh) : (setCoh s b c).islands = s.islands := rfl
@[simp] theorem setCoh_ports (s : State) (b : Nat) (c : Coh) : (setCoh s b c).ports = s.ports := rfl
@[simp] theorem setCoh_vfs (s : State) (b : Nat) (c : Coh) : (setCoh s b c).vfs = s.vfs := rfl
@[simp] theorem setCoh_otp (s : State) (b : Nat) (c : Coh) : (setCoh s b c).otp = s.otp := rfl
@[simp] theorem setCoh_epoch (s : State) (b : Nat) (c : Coh) : (setCoh s b c).epoch = s.epoch := rfl
@[simp] theorem setCoh_position (s : State) (b : Nat) (c : Coh) : (setCoh s b c).position = s.position := rfl
@[simp] theorem setCoh_road (s : State) (b : Nat) (c : Coh) : (setCoh s b c).road = s.road := rfl
@[simp] theorem setCoh_hlinks (s : State) (b : Nat) (c : Coh) : (setCoh s b c).hlinks = s.hlinks := rfl
@[simp] theorem setCoh_mirrors (s : State) (b : Nat) (c : Coh) : (setCoh s b c).mirrors = s.mirrors := rfl
@[simp] theorem setCoh_ide (s : State) (b : Nat) (c : Coh) : (setCoh s b c).ide = s.ide := rfl
@[simp] theorem setCoh_spdm (s : State) (b : Nat) (c : Coh) : (setCoh s b c).spdm = s.spdm := rfl
@[simp] theorem setCoh_helm (s : State) (b : Nat) (c : Coh) : (setCoh s b c).helm = s.helm := rfl
@[simp] theorem setCoh_mailA (s : State) (b : Nat) (c : Coh) : (setCoh s b c).mailA = s.mailA := rfl
@[simp] theorem setCoh_mailB (s : State) (b : Nat) (c : Coh) : (setCoh s b c).mailB = s.mailB := rfl
@[simp] theorem setCoh_policy (s : State) (b : Nat) (c : Coh) : (setCoh s b c).policy = s.policy := rfl
@[simp] theorem setCoh_disc (s : State) (b : Nat) (c : Coh) : (setCoh s b c).disc = s.disc := rfl
@[simp] theorem setCoh_wardens (s : State) (b : Nat) (c : Coh) : (setCoh s b c).wardens = s.wardens := rfl
@[simp] theorem setCoh_conf (s : State) (b : Nat) (c : Coh) : (setCoh s b c).conf = s.conf := rfl
@[simp] theorem setCoh_fw (s : State) (b : Nat) (c : Coh) : (setCoh s b c).fw = s.fw := rfl
@[simp] theorem setCoh_pldm (s : State) (b : Nat) (c : Coh) : (setCoh s b c).pldm = s.pldm := rfl
@[simp] theorem setCoh_tap (s : State) (b : Nat) (c : Coh) : (setCoh s b c).tap = s.tap := rfl
@[simp] theorem setCoh_sroom (s : State) (b : Nat) (c : Coh) : (setCoh s b c).sroom = s.sroom := rfl
@[simp] theorem setCoh_formats (s : State) (b : Nat) (c : Coh) : (setCoh s b c).formats = s.formats := rfl
@[simp] theorem setCoh_hashAreas (s : State) (b : Nat) (c : Coh) : (setCoh s b c).hashAreas = s.hashAreas := rfl
@[simp] theorem setCoh_iovaDenied (s : State) (b : Nat) (c : Coh) : (setCoh s b c).iovaDenied = s.iovaDenied := rfl
@[simp] theorem setCoh_freeCtr (s : State) (b : Nat) (c : Coh) : (setCoh s b c).freeCtr = s.freeCtr := rfl

/-! setPc. -/

@[simp] theorem setPc_pending (s : State) (p : Nat) (c : PierCache) : (setPc s p c).pending = s.pending := rfl
@[simp] theorem setPc_clock (s : State) (p : Nat) (c : PierCache) : (setPc s p c).clock = s.clock := rfl
@[simp] theorem setPc_threads (s : State) (p : Nat) (c : PierCache) : (setPc s p c).threads = s.threads := rfl
@[simp] theorem setPc_mem (s : State) (p : Nat) (c : PierCache) : (setPc s p c).mem = s.mem := rfl
@[simp] theorem setPc_coh (s : State) (p : Nat) (c : PierCache) : (setPc s p c).coh = s.coh := rfl
@[simp] theorem setPc_piers (s : State) (p : Nat) (c : PierCache) : (setPc s p c).piers = s.piers := rfl
@[simp] theorem setPc_basins (s : State) (p : Nat) (c : PierCache) : (setPc s p c).basins = s.basins := rfl
@[simp] theorem setPc_parts (s : State) (p : Nat) (c : PierCache) : (setPc s p c).parts = s.parts := rfl
@[simp] theorem setPc_cons (s : State) (p : Nat) (c : PierCache) : (setPc s p c).cons = s.cons := rfl
@[simp] theorem setPc_slipped (s : State) (p : Nat) (c : PierCache) : (setPc s p c).slipped = s.slipped := rfl
@[simp] theorem setPc_anchorFree (s : State) (p : Nat) (c : PierCache) : (setPc s p c).anchorFree = s.anchorFree := rfl
@[simp] theorem setPc_seqs (s : State) (p : Nat) (c : PierCache) : (setPc s p c).seqs = s.seqs := rfl
@[simp] theorem setPc_accepted (s : State) (p : Nat) (c : PierCache) : (setPc s p c).accepted = s.accepted := rfl
@[simp] theorem setPc_tides (s : State) (p : Nat) (c : PierCache) : (setPc s p c).tides = s.tides := rfl
@[simp] theorem setPc_tenants (s : State) (p : Nat) (c : PierCache) : (setPc s p c).tenants = s.tenants := rfl
@[simp] theorem setPc_ledgers (s : State) (p : Nat) (c : PierCache) : (setPc s p c).ledgers = s.ledgers := rfl
@[simp] theorem setPc_cfg (s : State) (p : Nat) (c : PierCache) : (setPc s p c).cfg = s.cfg := rfl
@[simp] theorem setPc_dev (s : State) (p : Nat) (c : PierCache) : (setPc s p c).dev = s.dev := rfl
@[simp] theorem setPc_sources (s : State) (p : Nat) (c : PierCache) : (setPc s p c).sources = s.sources := rfl
@[simp] theorem setPc_log (s : State) (p : Nat) (c : PierCache) : (setPc s p c).log = s.log := rfl
@[simp] theorem setPc_logNext (s : State) (p : Nat) (c : PierCache) : (setPc s p c).logNext = s.logNext := rfl
@[simp] theorem setPc_pilotRing (s : State) (p : Nat) (c : PierCache) : (setPc s p c).pilotRing = s.pilotRing := rfl
@[simp] theorem setPc_pfEqs (s : State) (p : Nat) (c : PierCache) : (setPc s p c).pfEqs = s.pfEqs := rfl
@[simp] theorem setPc_watch (s : State) (p : Nat) (c : PierCache) : (setPc s p c).watch = s.watch := rfl
@[simp] theorem setPc_handlers (s : State) (p : Nat) (c : PierCache) : (setPc s p c).handlers = s.handlers := rfl
@[simp] theorem setPc_bindings (s : State) (p : Nat) (c : PierCache) : (setPc s p c).bindings = s.bindings := rfl
@[simp] theorem setPc_duplexReady (s : State) (p : Nat) (c : PierCache) : (setPc s p c).duplexReady = s.duplexReady := rfl
@[simp] theorem setPc_jobs (s : State) (p : Nat) (c : PierCache) : (setPc s p c).jobs = s.jobs := rfl
@[simp] theorem setPc_nextJob (s : State) (p : Nat) (c : PierCache) : (setPc s p c).nextJob = s.nextJob := rfl
@[simp] theorem setPc_islands (s : State) (p : Nat) (c : PierCache) : (setPc s p c).islands = s.islands := rfl
@[simp] theorem setPc_ports (s : State) (p : Nat) (c : PierCache) : (setPc s p c).ports = s.ports := rfl
@[simp] theorem setPc_vfs (s : State) (p : Nat) (c : PierCache) : (setPc s p c).vfs = s.vfs := rfl
@[simp] theorem setPc_otp (s : State) (p : Nat) (c : PierCache) : (setPc s p c).otp = s.otp := rfl
@[simp] theorem setPc_epoch (s : State) (p : Nat) (c : PierCache) : (setPc s p c).epoch = s.epoch := rfl
@[simp] theorem setPc_position (s : State) (p : Nat) (c : PierCache) : (setPc s p c).position = s.position := rfl
@[simp] theorem setPc_road (s : State) (p : Nat) (c : PierCache) : (setPc s p c).road = s.road := rfl
@[simp] theorem setPc_hlinks (s : State) (p : Nat) (c : PierCache) : (setPc s p c).hlinks = s.hlinks := rfl
@[simp] theorem setPc_mirrors (s : State) (p : Nat) (c : PierCache) : (setPc s p c).mirrors = s.mirrors := rfl
@[simp] theorem setPc_ide (s : State) (p : Nat) (c : PierCache) : (setPc s p c).ide = s.ide := rfl
@[simp] theorem setPc_spdm (s : State) (p : Nat) (c : PierCache) : (setPc s p c).spdm = s.spdm := rfl
@[simp] theorem setPc_helm (s : State) (p : Nat) (c : PierCache) : (setPc s p c).helm = s.helm := rfl
@[simp] theorem setPc_mailA (s : State) (p : Nat) (c : PierCache) : (setPc s p c).mailA = s.mailA := rfl
@[simp] theorem setPc_mailB (s : State) (p : Nat) (c : PierCache) : (setPc s p c).mailB = s.mailB := rfl
@[simp] theorem setPc_policy (s : State) (p : Nat) (c : PierCache) : (setPc s p c).policy = s.policy := rfl
@[simp] theorem setPc_disc (s : State) (p : Nat) (c : PierCache) : (setPc s p c).disc = s.disc := rfl
@[simp] theorem setPc_wardens (s : State) (p : Nat) (c : PierCache) : (setPc s p c).wardens = s.wardens := rfl
@[simp] theorem setPc_conf (s : State) (p : Nat) (c : PierCache) : (setPc s p c).conf = s.conf := rfl
@[simp] theorem setPc_fw (s : State) (p : Nat) (c : PierCache) : (setPc s p c).fw = s.fw := rfl
@[simp] theorem setPc_pldm (s : State) (p : Nat) (c : PierCache) : (setPc s p c).pldm = s.pldm := rfl
@[simp] theorem setPc_tap (s : State) (p : Nat) (c : PierCache) : (setPc s p c).tap = s.tap := rfl
@[simp] theorem setPc_sroom (s : State) (p : Nat) (c : PierCache) : (setPc s p c).sroom = s.sroom := rfl
@[simp] theorem setPc_formats (s : State) (p : Nat) (c : PierCache) : (setPc s p c).formats = s.formats := rfl
@[simp] theorem setPc_hashAreas (s : State) (p : Nat) (c : PierCache) : (setPc s p c).hashAreas = s.hashAreas := rfl
@[simp] theorem setPc_iovaDenied (s : State) (p : Nat) (c : PierCache) : (setPc s p c).iovaDenied = s.iovaDenied := rfl
@[simp] theorem setPc_freeCtr (s : State) (p : Nat) (c : PierCache) : (setPc s p c).freeCtr = s.freeCtr := rfl

/-! setLedger. -/

@[simp] theorem setLedger_pending (s : State) (b : Nat) (l : Ledger) : (setLedger s b l).pending = s.pending := rfl
@[simp] theorem setLedger_clock (s : State) (b : Nat) (l : Ledger) : (setLedger s b l).clock = s.clock := rfl
@[simp] theorem setLedger_threads (s : State) (b : Nat) (l : Ledger) : (setLedger s b l).threads = s.threads := rfl
@[simp] theorem setLedger_mem (s : State) (b : Nat) (l : Ledger) : (setLedger s b l).mem = s.mem := rfl
@[simp] theorem setLedger_coh (s : State) (b : Nat) (l : Ledger) : (setLedger s b l).coh = s.coh := rfl
@[simp] theorem setLedger_pcache (s : State) (b : Nat) (l : Ledger) : (setLedger s b l).pcache = s.pcache := rfl
@[simp] theorem setLedger_piers (s : State) (b : Nat) (l : Ledger) : (setLedger s b l).piers = s.piers := rfl
@[simp] theorem setLedger_basins (s : State) (b : Nat) (l : Ledger) : (setLedger s b l).basins = s.basins := rfl
@[simp] theorem setLedger_parts (s : State) (b : Nat) (l : Ledger) : (setLedger s b l).parts = s.parts := rfl
@[simp] theorem setLedger_cons (s : State) (b : Nat) (l : Ledger) : (setLedger s b l).cons = s.cons := rfl
@[simp] theorem setLedger_slipped (s : State) (b : Nat) (l : Ledger) : (setLedger s b l).slipped = s.slipped := rfl
@[simp] theorem setLedger_anchorFree (s : State) (b : Nat) (l : Ledger) : (setLedger s b l).anchorFree = s.anchorFree := rfl
@[simp] theorem setLedger_seqs (s : State) (b : Nat) (l : Ledger) : (setLedger s b l).seqs = s.seqs := rfl
@[simp] theorem setLedger_accepted (s : State) (b : Nat) (l : Ledger) : (setLedger s b l).accepted = s.accepted := rfl
@[simp] theorem setLedger_tides (s : State) (b : Nat) (l : Ledger) : (setLedger s b l).tides = s.tides := rfl
@[simp] theorem setLedger_tenants (s : State) (b : Nat) (l : Ledger) : (setLedger s b l).tenants = s.tenants := rfl
@[simp] theorem setLedger_cfg (s : State) (b : Nat) (l : Ledger) : (setLedger s b l).cfg = s.cfg := rfl
@[simp] theorem setLedger_dev (s : State) (b : Nat) (l : Ledger) : (setLedger s b l).dev = s.dev := rfl
@[simp] theorem setLedger_sources (s : State) (b : Nat) (l : Ledger) : (setLedger s b l).sources = s.sources := rfl
@[simp] theorem setLedger_log (s : State) (b : Nat) (l : Ledger) : (setLedger s b l).log = s.log := rfl
@[simp] theorem setLedger_logNext (s : State) (b : Nat) (l : Ledger) : (setLedger s b l).logNext = s.logNext := rfl
@[simp] theorem setLedger_pilotRing (s : State) (b : Nat) (l : Ledger) : (setLedger s b l).pilotRing = s.pilotRing := rfl
@[simp] theorem setLedger_pfEqs (s : State) (b : Nat) (l : Ledger) : (setLedger s b l).pfEqs = s.pfEqs := rfl
@[simp] theorem setLedger_watch (s : State) (b : Nat) (l : Ledger) : (setLedger s b l).watch = s.watch := rfl
@[simp] theorem setLedger_handlers (s : State) (b : Nat) (l : Ledger) : (setLedger s b l).handlers = s.handlers := rfl
@[simp] theorem setLedger_bindings (s : State) (b : Nat) (l : Ledger) : (setLedger s b l).bindings = s.bindings := rfl
@[simp] theorem setLedger_duplexReady (s : State) (b : Nat) (l : Ledger) : (setLedger s b l).duplexReady = s.duplexReady := rfl
@[simp] theorem setLedger_jobs (s : State) (b : Nat) (l : Ledger) : (setLedger s b l).jobs = s.jobs := rfl
@[simp] theorem setLedger_nextJob (s : State) (b : Nat) (l : Ledger) : (setLedger s b l).nextJob = s.nextJob := rfl
@[simp] theorem setLedger_islands (s : State) (b : Nat) (l : Ledger) : (setLedger s b l).islands = s.islands := rfl
@[simp] theorem setLedger_ports (s : State) (b : Nat) (l : Ledger) : (setLedger s b l).ports = s.ports := rfl
@[simp] theorem setLedger_vfs (s : State) (b : Nat) (l : Ledger) : (setLedger s b l).vfs = s.vfs := rfl
@[simp] theorem setLedger_otp (s : State) (b : Nat) (l : Ledger) : (setLedger s b l).otp = s.otp := rfl
@[simp] theorem setLedger_epoch (s : State) (b : Nat) (l : Ledger) : (setLedger s b l).epoch = s.epoch := rfl
@[simp] theorem setLedger_position (s : State) (b : Nat) (l : Ledger) : (setLedger s b l).position = s.position := rfl
@[simp] theorem setLedger_road (s : State) (b : Nat) (l : Ledger) : (setLedger s b l).road = s.road := rfl
@[simp] theorem setLedger_hlinks (s : State) (b : Nat) (l : Ledger) : (setLedger s b l).hlinks = s.hlinks := rfl
@[simp] theorem setLedger_mirrors (s : State) (b : Nat) (l : Ledger) : (setLedger s b l).mirrors = s.mirrors := rfl
@[simp] theorem setLedger_ide (s : State) (b : Nat) (l : Ledger) : (setLedger s b l).ide = s.ide := rfl
@[simp] theorem setLedger_spdm (s : State) (b : Nat) (l : Ledger) : (setLedger s b l).spdm = s.spdm := rfl
@[simp] theorem setLedger_helm (s : State) (b : Nat) (l : Ledger) : (setLedger s b l).helm = s.helm := rfl
@[simp] theorem setLedger_mailA (s : State) (b : Nat) (l : Ledger) : (setLedger s b l).mailA = s.mailA := rfl
@[simp] theorem setLedger_mailB (s : State) (b : Nat) (l : Ledger) : (setLedger s b l).mailB = s.mailB := rfl
@[simp] theorem setLedger_policy (s : State) (b : Nat) (l : Ledger) : (setLedger s b l).policy = s.policy := rfl
@[simp] theorem setLedger_disc (s : State) (b : Nat) (l : Ledger) : (setLedger s b l).disc = s.disc := rfl
@[simp] theorem setLedger_wardens (s : State) (b : Nat) (l : Ledger) : (setLedger s b l).wardens = s.wardens := rfl
@[simp] theorem setLedger_conf (s : State) (b : Nat) (l : Ledger) : (setLedger s b l).conf = s.conf := rfl
@[simp] theorem setLedger_fw (s : State) (b : Nat) (l : Ledger) : (setLedger s b l).fw = s.fw := rfl
@[simp] theorem setLedger_pldm (s : State) (b : Nat) (l : Ledger) : (setLedger s b l).pldm = s.pldm := rfl
@[simp] theorem setLedger_tap (s : State) (b : Nat) (l : Ledger) : (setLedger s b l).tap = s.tap := rfl
@[simp] theorem setLedger_sroom (s : State) (b : Nat) (l : Ledger) : (setLedger s b l).sroom = s.sroom := rfl
@[simp] theorem setLedger_formats (s : State) (b : Nat) (l : Ledger) : (setLedger s b l).formats = s.formats := rfl
@[simp] theorem setLedger_hashAreas (s : State) (b : Nat) (l : Ledger) : (setLedger s b l).hashAreas = s.hashAreas := rfl
@[simp] theorem setLedger_iovaDenied (s : State) (b : Nat) (l : Ledger) : (setLedger s b l).iovaDenied = s.iovaDenied := rfl
@[simp] theorem setLedger_freeCtr (s : State) (b : Nat) (l : Ledger) : (setLedger s b l).freeCtr = s.freeCtr := rfl

/-! setSrc. -/

@[simp] theorem setSrc_pending (s : State) (n : Nat) (v : Source) : (setSrc s n v).pending = s.pending := rfl
@[simp] theorem setSrc_clock (s : State) (n : Nat) (v : Source) : (setSrc s n v).clock = s.clock := rfl
@[simp] theorem setSrc_threads (s : State) (n : Nat) (v : Source) : (setSrc s n v).threads = s.threads := rfl
@[simp] theorem setSrc_mem (s : State) (n : Nat) (v : Source) : (setSrc s n v).mem = s.mem := rfl
@[simp] theorem setSrc_coh (s : State) (n : Nat) (v : Source) : (setSrc s n v).coh = s.coh := rfl
@[simp] theorem setSrc_pcache (s : State) (n : Nat) (v : Source) : (setSrc s n v).pcache = s.pcache := rfl
@[simp] theorem setSrc_piers (s : State) (n : Nat) (v : Source) : (setSrc s n v).piers = s.piers := rfl
@[simp] theorem setSrc_basins (s : State) (n : Nat) (v : Source) : (setSrc s n v).basins = s.basins := rfl
@[simp] theorem setSrc_parts (s : State) (n : Nat) (v : Source) : (setSrc s n v).parts = s.parts := rfl
@[simp] theorem setSrc_cons (s : State) (n : Nat) (v : Source) : (setSrc s n v).cons = s.cons := rfl
@[simp] theorem setSrc_slipped (s : State) (n : Nat) (v : Source) : (setSrc s n v).slipped = s.slipped := rfl
@[simp] theorem setSrc_anchorFree (s : State) (n : Nat) (v : Source) : (setSrc s n v).anchorFree = s.anchorFree := rfl
@[simp] theorem setSrc_seqs (s : State) (n : Nat) (v : Source) : (setSrc s n v).seqs = s.seqs := rfl
@[simp] theorem setSrc_accepted (s : State) (n : Nat) (v : Source) : (setSrc s n v).accepted = s.accepted := rfl
@[simp] theorem setSrc_tides (s : State) (n : Nat) (v : Source) : (setSrc s n v).tides = s.tides := rfl
@[simp] theorem setSrc_tenants (s : State) (n : Nat) (v : Source) : (setSrc s n v).tenants = s.tenants := rfl
@[simp] theorem setSrc_ledgers (s : State) (n : Nat) (v : Source) : (setSrc s n v).ledgers = s.ledgers := rfl
@[simp] theorem setSrc_cfg (s : State) (n : Nat) (v : Source) : (setSrc s n v).cfg = s.cfg := rfl
@[simp] theorem setSrc_dev (s : State) (n : Nat) (v : Source) : (setSrc s n v).dev = s.dev := rfl
@[simp] theorem setSrc_log (s : State) (n : Nat) (v : Source) : (setSrc s n v).log = s.log := rfl
@[simp] theorem setSrc_logNext (s : State) (n : Nat) (v : Source) : (setSrc s n v).logNext = s.logNext := rfl
@[simp] theorem setSrc_pilotRing (s : State) (n : Nat) (v : Source) : (setSrc s n v).pilotRing = s.pilotRing := rfl
@[simp] theorem setSrc_pfEqs (s : State) (n : Nat) (v : Source) : (setSrc s n v).pfEqs = s.pfEqs := rfl
@[simp] theorem setSrc_watch (s : State) (n : Nat) (v : Source) : (setSrc s n v).watch = s.watch := rfl
@[simp] theorem setSrc_handlers (s : State) (n : Nat) (v : Source) : (setSrc s n v).handlers = s.handlers := rfl
@[simp] theorem setSrc_bindings (s : State) (n : Nat) (v : Source) : (setSrc s n v).bindings = s.bindings := rfl
@[simp] theorem setSrc_duplexReady (s : State) (n : Nat) (v : Source) : (setSrc s n v).duplexReady = s.duplexReady := rfl
@[simp] theorem setSrc_jobs (s : State) (n : Nat) (v : Source) : (setSrc s n v).jobs = s.jobs := rfl
@[simp] theorem setSrc_nextJob (s : State) (n : Nat) (v : Source) : (setSrc s n v).nextJob = s.nextJob := rfl
@[simp] theorem setSrc_islands (s : State) (n : Nat) (v : Source) : (setSrc s n v).islands = s.islands := rfl
@[simp] theorem setSrc_ports (s : State) (n : Nat) (v : Source) : (setSrc s n v).ports = s.ports := rfl
@[simp] theorem setSrc_vfs (s : State) (n : Nat) (v : Source) : (setSrc s n v).vfs = s.vfs := rfl
@[simp] theorem setSrc_otp (s : State) (n : Nat) (v : Source) : (setSrc s n v).otp = s.otp := rfl
@[simp] theorem setSrc_epoch (s : State) (n : Nat) (v : Source) : (setSrc s n v).epoch = s.epoch := rfl
@[simp] theorem setSrc_position (s : State) (n : Nat) (v : Source) : (setSrc s n v).position = s.position := rfl
@[simp] theorem setSrc_road (s : State) (n : Nat) (v : Source) : (setSrc s n v).road = s.road := rfl
@[simp] theorem setSrc_hlinks (s : State) (n : Nat) (v : Source) : (setSrc s n v).hlinks = s.hlinks := rfl
@[simp] theorem setSrc_mirrors (s : State) (n : Nat) (v : Source) : (setSrc s n v).mirrors = s.mirrors := rfl
@[simp] theorem setSrc_ide (s : State) (n : Nat) (v : Source) : (setSrc s n v).ide = s.ide := rfl
@[simp] theorem setSrc_spdm (s : State) (n : Nat) (v : Source) : (setSrc s n v).spdm = s.spdm := rfl
@[simp] theorem setSrc_helm (s : State) (n : Nat) (v : Source) : (setSrc s n v).helm = s.helm := rfl
@[simp] theorem setSrc_mailA (s : State) (n : Nat) (v : Source) : (setSrc s n v).mailA = s.mailA := rfl
@[simp] theorem setSrc_mailB (s : State) (n : Nat) (v : Source) : (setSrc s n v).mailB = s.mailB := rfl
@[simp] theorem setSrc_policy (s : State) (n : Nat) (v : Source) : (setSrc s n v).policy = s.policy := rfl
@[simp] theorem setSrc_disc (s : State) (n : Nat) (v : Source) : (setSrc s n v).disc = s.disc := rfl
@[simp] theorem setSrc_wardens (s : State) (n : Nat) (v : Source) : (setSrc s n v).wardens = s.wardens := rfl
@[simp] theorem setSrc_conf (s : State) (n : Nat) (v : Source) : (setSrc s n v).conf = s.conf := rfl
@[simp] theorem setSrc_fw (s : State) (n : Nat) (v : Source) : (setSrc s n v).fw = s.fw := rfl
@[simp] theorem setSrc_pldm (s : State) (n : Nat) (v : Source) : (setSrc s n v).pldm = s.pldm := rfl
@[simp] theorem setSrc_tap (s : State) (n : Nat) (v : Source) : (setSrc s n v).tap = s.tap := rfl
@[simp] theorem setSrc_sroom (s : State) (n : Nat) (v : Source) : (setSrc s n v).sroom = s.sroom := rfl
@[simp] theorem setSrc_formats (s : State) (n : Nat) (v : Source) : (setSrc s n v).formats = s.formats := rfl
@[simp] theorem setSrc_hashAreas (s : State) (n : Nat) (v : Source) : (setSrc s n v).hashAreas = s.hashAreas := rfl
@[simp] theorem setSrc_iovaDenied (s : State) (n : Nat) (v : Source) : (setSrc s n v).iovaDenied = s.iovaDenied := rfl
@[simp] theorem setSrc_freeCtr (s : State) (n : Nat) (v : Source) : (setSrc s n v).freeCtr = s.freeCtr := rfl

/-! Reading back. -/

@[simp] theorem thr_setThr_same (s : State) (th : ThreadId) (t : Thread) : thr (setThr s th t) th = t := tget_tset_same _ _ _ _
theorem thr_setThr_other (s : State) {th th' : ThreadId} (t : Thread) (h : th' ≠ th) : thr (setThr s th t) th' = thr s th' :=
  tget_tset_other _ _ _ (fun e => h (Fin.ext e))
@[simp] theorem thr_modThr_same (s : State) (th : ThreadId) (f : Thread → Thread) : thr (modThr s th f) th = f (thr s th) :=
  thr_setThr_same _ _ _
theorem thr_modThr_other (s : State) {th th' : ThreadId} (f : Thread → Thread) (h : th' ≠ th) : thr (modThr s th f) th' = thr s th' :=
  thr_setThr_other _ _ h
@[simp] theorem thr_setArch_same (s : State) (th : ThreadId) (a : Arch) : thr (setArch s th a) th = { thr s th with arch := a } :=
  thr_modThr_same _ _ _
theorem thr_setArch_other (s : State) {th th' : ThreadId} (a : Arch) (h : th' ≠ th) : thr (setArch s th a) th' = thr s th' :=
  thr_modThr_other _ _ h
@[simp] theorem basinOf_setBasin_same (s : State) (b : Nat) (v : Basin) : basinOf (setBasin s b v) b = v := tget_tset_same _ _ _ _
theorem basinOf_setBasin_other (s : State) {b c : Nat} (v : Basin) (h : c ≠ b) : basinOf (setBasin s b v) c = basinOf s c :=
  tget_tset_other _ _ _ h
@[simp] theorem pierOf_setPier_same (s : State) (p : Nat) (v : Pier) : pierOf (setPier s p v) p = v := tget_tset_same _ _ _ _
theorem pierOf_setPier_other (s : State) {p q : Nat} (v : Pier) (h : q ≠ p) : pierOf (setPier s p v) q = pierOf s q :=
  tget_tset_other _ _ _ h
@[simp] theorem islandOf_setIsland_same (s : State) (n : Nat) (v : Island) : islandOf (setIsland s n v) n = v := tget_tset_same _ _ _ _
theorem islandOf_setIsland_other (s : State) {n m : Nat} (v : Island) (h : m ≠ n) : islandOf (setIsland s n v) m = islandOf s m :=
  tget_tset_other _ _ _ h
@[simp] theorem tenantOf_setTenant_same (s : State) (t : Nat) (v : Tenant) : tenantOf (setTenant s t v) t = v := tget_tset_same _ _ _ _
theorem tenantOf_setTenant_other (s : State) {t u : Nat} (v : Tenant) (h : u ≠ t) : tenantOf (setTenant s t v) u = tenantOf s u :=
  tget_tset_other _ _ _ h
@[simp] theorem portOf_setPort_same (s : State) (p : Port) (v : PortState) : portOf (setPort s p v) p = v := tget_tset_same _ _ _ _
@[simp] theorem vfOf_setVf_same (s : State) (p : Port) (t : Nat) (v : Vf) : vfOf (setVf s p t v) p t = v := tget_tset_same _ _ _ _
@[simp] theorem consOf_setCons_same (s : State) (q : Nat) (c : Cons) : consOf (setCons s q c) q = some c := mget_mset_same _ _ _
theorem consOf_setCons_other (s : State) {q r : Nat} (c : Cons) (h : r ≠ q) : consOf (setCons s q c) r = consOf s r :=
  mget_mset_other _ _ h
@[simp] theorem partOf_setPart_same (s : State) (p : Nat) (v : Part) : partOf (setPart s p v) p = v := by
  unfold partOf setPart
  rw [mget_mset_same]
  rfl
@[simp] theorem cohOf_setCoh_same (s : State) (b : Nat) (c : Coh) : cohOf (setCoh s b c) b = c := tget_tset_same _ _ _ _
@[simp] theorem pcOf_setPc_same (s : State) (p : Nat) (c : PierCache) : pcOf (setPc s p c) p = c := tget_tset_same _ _ _ _

end Sys2Proof.Machine
end

