-- ==== Sys2Proof/Laws/Threads.lean ====
section
/-! SUPPORT. What the caches, the gated stores and retirement do to the threads. -/

namespace Sys2Proof.Machine

/-! The caches and HBM are all that a fetched, written or evicted line changes. -/

/-- A state without the memories and the caches. -/
def outside (s : State) : State := { s with mem := {}, coh := [], pcache := [] }

theorem outside_ite {c : Prop} [Decidable c] {s t : State} {T : State} (h : outside s = T) (k : outside t = T) :
    outside (if c then s else t) = T := by
  split
  · exact h
  · exact k

theorem outside_foldl {α : Type} (f : State → α → State) (hf : ∀ s x, outside (f s x) = outside s) (l : List α) (s : State) :
    outside (l.foldl f s) = outside s := by
  induction l generalizing s with
  | nil => rfl
  | cons a l ih => exact (ih _).trans (hf s a)

@[simp] theorem hbmPut_outside (s : State) (line : Nat) (d : BitVec 512) (p : Bool) : outside (hbmPut s line d p) = outside s := rfl
@[simp] theorem setCoh_outside (s : State) (b : Nat) (c : Coh) : outside (setCoh s b c) = outside s := rfl
@[simp] theorem setPc_outside (s : State) (p : Nat) (c : PierCache) : outside (setPc s p c) = outside s := rfl
@[simp] theorem setDir_outside (s : State) (b l : Nat) (d : Dir) : outside (setDir s b l d) = outside s := rfl
@[simp] theorem l2Evict_outside (s : State) (p i : Nat) : outside (l2Evict s p i) = outside s := rfl

@[simp] theorem l2SetState_outside (s : State) (p line : Nat) (st : LState) : outside (l2SetState s p line st) = outside s := by
  unfold l2SetState
  extract_lets pc s1
  have h1 : outside s1 = outside s := rfl
  clear_value s1
  refine outside_ite h1 ?_
  split
  · exact h1
  · exact h1

@[simp] theorem l3Write_outside (s : State) (b line : Nat) (d : BitVec 512) (p : Bool) : outside (l3Write s b line d p) = outside s := by
  unfold l3Write
  extract_lets c
  split <;> rfl

@[simp] theorem backInvalidate_outside (s : State) (b line : Nat) : outside (backInvalidate s b line).1 = outside s := by
  unfold backInvalidate
  generalize List.range 4 = l
  have h0 : outside ((s, none) : State × Option (BitVec 512 × Bool)).1 = outside s := rfl
  generalize ((s, none) : State × Option (BitVec 512 × Bool)) = acc at h0
  induction l generalizing acc with
  | nil => exact h0
  | cons a l ih =>
  rw [List.foldl_cons]
  apply ih
  extract_lets p s1 src
  cases cFind (pcOf acc.1 p).l2 l2Sets l2Ways line with
  | none => exact h0
  | some i =>
    simp -zeta only
    extract_lets l locked s2
    have k1 : outside s1 = outside s := (l2SetState_outside _ _ _ _).trans h0
    show outside s2 = outside s
    simp only [s2]
    clear_value s1
    split
    · exact k1
    · exact k1

@[simp] theorem l3Room_outside (s : State) (b line : Nat) : outside (l3Room s b line).1 = outside s := by
  unfold l3Room
  extract_lets c wayLine free
  generalize cVictim c.l3 l3Sets l3Ways line free 5 = v
  obtain ⟨l3, w⟩ := v
  simp -zeta only
  extract_lets i s1 l s3 c3
  have h1 : outside s1 = outside s := rfl
  clear_value s1 i l
  have k := (backInvalidate_outside s1 b l.line).trans h1
  split
  · exact h1
  · refine (setCoh_outside s3 b _).trans ?_
    simp only [s3]
    generalize backInvalidate s1 b l.line = r at k ⊢
    split
    · exact (hbmPut_outside _ _ _ _).trans k
    · split
      · exact (hbmPut_outside _ _ _ _).trans k
      · exact k

@[simp] theorem l3Fetch_outside (s : State) (b line age : Nat) : outside (l3Fetch s b line age).1 = outside s := by
  have k := l3Room_outside s b line
  unfold l3Fetch
  extract_lets c
  generalize l3Room s b line = r at k ⊢
  obtain ⟨t, i⟩ := r
  split
  · rfl
  · exact k

@[simp] theorem l2Install_outside (s : State) (p line : Nat) (st : LState) (d : BitVec 512) (q : Bool) (age : Nat) :
    outside (l2Install s p line st d q age) = outside s := by
  unfold l2Install
  extract_lets pc
  split
  · rfl
  · generalize cVictim _ _ _ _ _ _ = v
    obtain ⟨l2, w⟩ := v
    cases w with
    | none => rfl
    | some i =>
      simp -zeta only
      extract_lets s1 s2 pc2
      show outside s2 = outside s
      have h1 : outside s1 = outside s := rfl
      clear_value s1
      exact outside_ite h1 h1

@[simp] theorem dropOthers_outside (s : State) (b a line : Nat) : outside (dropOthers s b a line) = outside s :=
  outside_foldl _ (fun _ _ => outside_ite rfl (l2SetState_outside _ _ _ _)) _ _

@[simp] theorem fetchOwned_outside (s : State) (p line : Nat) : outside (fetchOwned s p line) = outside s := by
  have k := l3Fetch_outside s (pierBasin p) line 1
  unfold fetchOwned
  extract_lets b a
  generalize l3Fetch s b line 1 = r at k ⊢
  obtain ⟨t, x⟩ := r
  generalize cohLine t b line = y
  obtain ⟨z, w⟩ := y
  exact outside_ite k ((l2Install_outside _ _ _ _ _ _ _).trans ((dropOthers_outside t b a line).trans k))

@[simp] theorem fetchShared_outside (s : State) (p line age : Nat) : outside (fetchShared s p line age) = outside s := by
  have k := l3Fetch_outside s (pierBasin p) line age
  unfold fetchShared
  extract_lets b a
  generalize l3Fetch s b line age = r at k ⊢
  obtain ⟨t, x⟩ := r
  generalize hy : cohLine t b line = y
  obtain ⟨z, w⟩ := y
  dsimp only at k ⊢
  rw [hy]
  refine outside_ite k ?_
  split
  · exact (l2Install_outside _ _ _ _ _ _ _).trans k
  · exact (l2Install_outside _ _ _ _ _ _ _).trans k
  · refine (l2Install_outside _ _ _ _ _ _ _).trans ?_
    rw [setDir_outside, l2SetState_outside]
    exact outside_ite k ((l3Write_outside _ _ _ _ _).trans k)
  · exact (l2Install_outside _ _ _ _ _ _ _).trans k

@[simp] theorem loadFill_outside (s : State) (th : ThreadId) (line : Nat) : outside (loadFill s th line) = outside s := by
  unfold loadFill
  extract_lets p s1
  have h1 : outside s1 = outside s := outside_ite (fetchShared_outside _ _ _ _) rfl
  clear_value s1
  refine outside_ite ?_ h1
  split
  · exact h1
  · exact h1

@[simp] theorem fillAll_outside (s : State) (th : ThreadId) (ls : List Loc) : outside (fillAll s th ls) = outside s :=
  outside_foldl _ (fun _ _ => loadFill_outside _ _ _) _ _

@[simp] theorem physStore_outside (s : State) (th : ThreadId) (pa : Nat) (v : Byte) : outside (physStore s th pa v) = outside s := by
  unfold physStore
  extract_lets p line own l1Own l2Own s1 pc put l2i mine keep l1i pc1
  have k : outside s1 = outside s := outside_ite (fetchOwned_outside _ _ _) rfl
  clear_value s1 l2i pc1
  cases l2i with
  | some i => exact k
  | none => exact outside_ite k ((l3Write_outside _ _ _ _ _).trans k)

/-- The threads, and every other part of the state but the memories and the caches. -/
theorem threads_of_outside {s t : State} (h : outside t = outside s) : t.threads = s.threads := by
  have k := congrArg State.threads h
  exact k

@[simp] theorem fillAll_threads (s : State) (th : ThreadId) (ls : List Loc) : (fillAll s th ls).threads = s.threads :=
  threads_of_outside (fillAll_outside s th ls)
@[simp] theorem physStore_threads (s : State) (th : ThreadId) (pa : Nat) (v : Byte) : (physStore s th pa v).threads = s.threads :=
  threads_of_outside (physStore_outside s th pa v)

theorem threads_ite {c : Prop} [Decidable c] {s t : State} {T : Table Thread} (h : s.threads = T) (k : t.threads = T) :
    (if c then s else t).threads = T := by
  split
  · exact h
  · exact k

theorem threads_foldl {α : Type} (f : State → α → State) (hf : ∀ s x, (f s x).threads = s.threads) (l : List α) (s : State) :
    (l.foldl f s).threads = s.threads := by
  induction l generalizing s with
  | nil => rfl
  | cons a l ih => exact (ih _).trans (hf s a)

/-! A thread without the bytes of its commit set, which alone a released store writes (R106, R335). -/

/-- A thread without the bytes of its commit set. -/
def bare (t : Thread) : Thread := { t with csetBytes := [] }

theorem thr_of_threads {s t : State} (h : t.threads = s.threads) (th : ThreadId) : thr t th = thr s th := by
  unfold thr
  rw [h]

theorem objStore_bare (s : State) (th : ThreadId) (o : Obj) (a : Nat) (v : Byte) (x : ThreadId) :
    bare (thr (objStore s th o a v) x) = bare (thr s x) := by
  cases o with
  | ledger =>
    show bare (thr (modThr s th _) x) = _
    by_cases e : x = th
    · subst e
      rw [thr_modThr_same]
      rfl
    · rw [thr_modThr_other _ _ e]
  | phys => exact congrArg bare (thr_of_threads (physStore_threads s th a v) x)
  | near t => rfl
  | sysNear t => rfl
  | staging t => rfl
  | host => rfl
  | device => rfl
  | code n => rfl
  | intake n => rfl

theorem objStore_other (s : State) (th : ThreadId) (o : Obj) (a : Nat) (v : Byte) {x : ThreadId} (e : x ≠ th) :
    thr (objStore s th o a v) x = thr s x := by
  cases o with
  | ledger =>
    show thr (modThr s th _) x = _
    rw [thr_modThr_other _ _ e]
  | phys => exact thr_of_threads (physStore_threads s th a v) x
  | near t => rfl
  | sysNear t => rfl
  | staging t => rfl
  | host => rfl
  | device => rfl
  | code n => rfl
  | intake n => rfl

theorem foldStore_bare (th : ThreadId) (l : List GStore) (s : State) (x : ThreadId) :
    bare (thr (l.foldl (fun s g => objStore s th g.obj g.addr g.byte) s) x) = bare (thr s x) := by
  induction l generalizing s with
  | nil => rfl
  | cons a l ih => exact (ih _).trans (objStore_bare _ _ _ _ _ _)

theorem foldStore_other (th : ThreadId) (l : List GStore) (s : State) {x : ThreadId} (e : x ≠ th) :
    thr (l.foldl (fun s g => objStore s th g.obj g.addr g.byte) s) x = thr s x := by
  induction l generalizing s with
  | nil => rfl
  | cons a l ih => exact (ih _).trans (objStore_other _ _ _ _ _ e)

/-- What a release of the gated stores leaves of the thread: the buffer is empty, all but the commit set's bytes stays. -/
theorem releaseGated_bare (s : State) (th : ThreadId) :
    bare (thr (releaseGated s th) th) = bare { thr s th with gated := [] } :=
  (foldStore_bare th _ _ th).trans (congrArg bare (thr_modThr_same _ _ _))

theorem releaseGated_other (s : State) {th x : ThreadId} (e : x ≠ th) : thr (releaseGated s th) x = thr s x :=
  (foldStore_other th _ _ e).trans (thr_modThr_other _ _ e)

/-- A state without the memories, the caches, the threads and the places of the berths: all that a released store and a retry
point change. -/
def far (s : State) : State := { s with mem := {}, coh := [], pcache := [], threads := [], piers := [] }

theorem far_of_outside {s t : State} (h : outside t = outside s) : far t = far s := by
  have k := congrArg (fun x : State => { x with threads := [], piers := [] }) h
  exact k

@[simp] theorem objStore_far (s : State) (th : ThreadId) (o : Obj) (a : Nat) (v : Byte) : far (objStore s th o a v) = far s := by
  cases o with
  | phys => exact far_of_outside (physStore_outside s th a v)
  | ledger => rfl
  | near t => rfl
  | sysNear t => rfl
  | staging t => rfl
  | host => rfl
  | device => rfl
  | code n => rfl
  | intake n => rfl

theorem far_foldl {α : Type} (f : State → α → State) (hf : ∀ s x, far (f s x) = far s) (l : List α) (s : State) :
    far (l.foldl f s) = far s := by
  induction l generalizing s with
  | nil => rfl
  | cons a l ih => exact (ih _).trans (hf s a)

theorem far_ite {c : Prop} [Decidable c] {s t T : State} (h : far s = T) (k : far t = T) : far (if c then s else t) = T := by
  split
  · exact h
  · exact k

@[simp] theorem modThr_far (s : State) (th : ThreadId) (f : Thread → Thread) : far (modThr s th f) = far s := rfl
@[simp] theorem setThr_far (s : State) (th : ThreadId) (t : Thread) : far (setThr s th t) = far s := rfl
@[simp] theorem setArch_far (s : State) (th : ThreadId) (a : Arch) : far (setArch s th a) = far s := rfl

@[simp] theorem releaseGated_far (s : State) (th : ThreadId) : far (releaseGated s th) = far s :=
  far_foldl _ (fun _ _ => objStore_far _ _ _ _ _) _ _

@[simp] theorem retryPoint_far (s : State) (th : ThreadId) : far (retryPoint s th) = far s := by
  unfold retryPoint
  extract_lets s1 s2 v left
  have k : far s2 = far s := releaseGated_far s th
  clear_value s2
  exact far_ite (Eq.trans rfl k) k

@[simp] theorem retire_far (s : State) (th : ThreadId) : far (retire s th) = far s := by
  unfold retire
  extract_lets s1
  have k : far s1 = far s := rfl
  clear_value s1
  exact far_ite ((retryPoint_far s1 th).trans k) k

/-- A retry point empties the gated store buffer, takes the registers as the checkpoint and counts from 0 (R335, R336). -/
theorem retryPoint_bare (s : State) (th : ThreadId) :
    bare (thr (retryPoint s th) th) = bare { thr s th with gated := [], ck := (thr s th).arch, sinceCk := 0 } := by
  have h := releaseGated_bare s th
  have key : bare (thr (modThr (releaseGated s th) th (fun t => { t with ck := t.arch, sinceCk := 0 })) th) =
      bare { thr s th with gated := [], ck := (thr s th).arch, sinceCk := 0 } := by
    rw [thr_modThr_same]
    generalize thr (releaseGated s th) th = x at h
    simp only [bare, Thread.mk.injEq] at h ⊢
    simp [h]
  unfold retryPoint
  extract_lets s1 s2 v left
  have e : bare (thr s2 th) = bare { thr s th with gated := [], ck := (thr s th).arch, sinceCk := 0 } := key
  clear_value s2
  split
  · exact (congrArg bare (thr_of_threads rfl th)).trans e
  · exact e

theorem retryPoint_other (s : State) {th x : ThreadId} (e : x ≠ th) : thr (retryPoint s th) x = thr s x := by
  have key : thr (modThr (releaseGated s th) th (fun t => { t with ck := t.arch, sinceCk := 0 })) x = thr s x := by
    rw [thr_modThr_other _ _ e]
    exact releaseGated_other s e
  unfold retryPoint
  extract_lets s1 s2 v left
  have k : thr s2 x = thr s x := key
  clear_value s2
  split
  · exact (thr_of_threads rfl x).trans k
  · exact k

@[simp] theorem retryPoint_arch (s : State) (th : ThreadId) : (thr (retryPoint s th) th).arch = (thr s th).arch := by
  have h := congrArg Thread.arch (retryPoint_bare s th)
  exact h

/-- A retired instruction leaves the registers it wrote. -/
@[simp] theorem retire_arch (s : State) (th : ThreadId) : (thr (retire s th) th).arch = (thr s th).arch := by
  have k : (thr (modThr s th (fun t => { t with sinceCk := t.sinceCk + 1, entering := none })) th).arch = (thr s th).arch := by
    rw [thr_modThr_same]
  unfold retire
  extract_lets s1
  have h : (thr s1 th).arch = (thr s th).arch := k
  clear_value s1
  split
  · exact (retryPoint_arch s1 th).trans h
  · exact h

theorem retire_other (s : State) {th x : ThreadId} (e : x ≠ th) : thr (retire s th) x = thr s x := by
  unfold retire
  extract_lets s1
  have h : thr s1 x = thr s x := thr_modThr_other _ _ e
  clear_value s1
  split
  · exact (retryPoint_other s1 e).trans h
  · exact h

/-- What retirement leaves of the thread: the count since the checkpoint, or, at the 32nd instruction, a retry point (R336). -/
theorem retire_bare (s : State) (th : ThreadId) : bare (thr (retire s th) th) =
    (if 31 ≤ (thr s th).sinceCk then bare { thr s th with entering := none, gated := [], ck := (thr s th).arch, sinceCk := 0 }
     else bare { thr s th with entering := none, sinceCk := (thr s th).sinceCk + 1 }) := by
  unfold retire
  extract_lets s1
  have k : thr s1 th = { thr s th with sinceCk := (thr s th).sinceCk + 1, entering := none } := thr_modThr_same _ _ _
  clear_value s1
  by_cases h : 31 ≤ (thr s th).sinceCk
  · rw [if_pos h, if_pos (by rw [k]; show 32 ≤ (thr s th).sinceCk + 1; omega), retryPoint_bare, k]
  · rw [if_neg h, if_neg (by rw [k]; show ¬ 32 ≤ (thr s th).sinceCk + 1; omega), k]

/-- Retirement leaves whatever of the thread is not the gated stores, the commit set's bytes or the checkpoint. -/
theorem retire_field {α : Type} (f : Thread → α) (hb : ∀ t, f (bare t) = f t)
    (hc : ∀ (t : Thread) (g : List GStore) (c : Arch) (n : Nat), f { t with entering := none, gated := g, ck := c, sinceCk := n } = f t)
    (s : State) (th : ThreadId) : f (thr (retire s th) th) = f (thr s th) := by
  have h := congrArg f (retire_bare s th)
  rw [hb] at h
  rw [h]
  split
  · rw [hb, hc]
  · rw [hb]
    exact hc (thr s th) (thr s th).gated (thr s th).ck _

@[simp] theorem retire_tlb (s : State) (th : ThreadId) : (thr (retire s th) th).tlb = (thr s th).tlb :=
  retire_field Thread.tlb (fun _ => rfl) (fun _ _ _ _ => rfl) s th
@[simp] theorem retire_run (s : State) (th : ThreadId) : (thr (retire s th) th).run = (thr s th).run :=
  retire_field Thread.run (fun _ => rfl) (fun _ _ _ _ => rfl) s th
@[simp] theorem retire_cp (s : State) (th : ThreadId) : (thr (retire s th) th).cp = (thr s th).cp :=
  retire_field Thread.cp (fun _ => rfl) (fun _ _ _ _ => rfl) s th
@[simp] theorem retire_seq (s : State) (th : ThreadId) : (thr (retire s th) th).seq = (thr s th).seq :=
  retire_field Thread.seq (fun _ => rfl) (fun _ _ _ _ => rfl) s th
@[simp] theorem retire_ended (s : State) (th : ThreadId) : (thr (retire s th) th).ended = (thr s th).ended :=
  retire_field Thread.ended (fun _ => rfl) (fun _ _ _ _ => rfl) s th
@[simp] theorem retire_jobs (s : State) (th : ThreadId) : (thr (retire s th) th).jobs = (thr s th).jobs :=
  retire_field Thread.jobs (fun _ => rfl) (fun _ _ _ _ => rfl) s th
@[simp] theorem retire_stores (s : State) (th : ThreadId) : (thr (retire s th) th).stores = (thr s th).stores :=
  retire_field Thread.stores (fun _ => rfl) (fun _ _ _ _ => rfl) s th
@[simp] theorem retire_maps (s : State) (th : ThreadId) : (thr (retire s th) th).maps = (thr s th).maps :=
  retire_field Thread.maps (fun _ => rfl) (fun _ _ _ _ => rfl) s th
@[simp] theorem retire_csetLines (s : State) (th : ThreadId) : (thr (retire s th) th).csetLines = (thr s th).csetLines :=
  retire_field Thread.csetLines (fun _ => rfl) (fun _ _ _ _ => rfl) s th

/-- Between two retry points only the thread itself changes as an instruction retires. -/
theorem retire_between (s : State) (th : ThreadId) (h : (thr s th).sinceCk < 31) :
    retire s th = modThr s th (fun t => { t with sinceCk := t.sinceCk + 1, entering := none }) := by
  unfold retire
  extract_lets s1
  have k : (thr s1 th).sinceCk = (thr s th).sinceCk + 1 := by
    show (thr (modThr s th _) th).sinceCk = _
    rw [thr_modThr_same]
  rw [if_neg (by rw [k]; omega)]

/-- A fetched translation changes nothing of the thread but the translations it holds (R142). -/
theorem tlbFill_thr (s : State) (th : ThreadId) (va : Nat) : ∃ l, tlbFill s th va = s ∨ tlbFill s th va = modThr s th (fun t => { t with tlb := l }) := by
  unfold tlbFill
  extract_lets t
  split
  · exact ⟨[], .inl rfl⟩
  · split
    · exact ⟨[], .inl rfl⟩
    · exact ⟨_, .inr rfl⟩

theorem tlbFill_same (s : State) (th : ThreadId) (va : Nat) : ∃ l, thr (tlbFill s th va) th = { thr s th with tlb := l } := by
  obtain ⟨l, e | e⟩ := tlbFill_thr s th va
  · exact ⟨(thr s th).tlb, by rw [e]⟩
  · exact ⟨l, by rw [e, thr_modThr_same]⟩

@[simp] theorem tlbFill_arch (s : State) (th : ThreadId) (va : Nat) : (thr (tlbFill s th va) th).arch = (thr s th).arch := by
  obtain ⟨l, e⟩ := tlbFill_same s th va
  rw [e]

theorem tlbFill_other (s : State) {th x : ThreadId} (va : Nat) (e : x ≠ th) : thr (tlbFill s th va) x = thr s x := by
  obtain ⟨l, k | k⟩ := tlbFill_thr s th va
  · rw [k]
  · rw [k, thr_modThr_other _ _ e]

end Sys2Proof.Machine
end

