-- ==== Sys2Proof/Laws/Running.lean ====
section
/-! SUPPORT. What the shared operations of the instructions answer when the instruction at the PC is fetched. -/

namespace Sys2Proof.Machine

@[simp] theorem regsOf_fetched (s : State) (th : ThreadId) : (thr (fetched s th) th).arch = regsOf s th := by
  unfold fetched
  rw [thr_modThr_same]
  exact tlbFill_arch _ _ _

theorem fetched_thr (s : State) (th : ThreadId) : ∃ l, thr (fetched s th) th = { thr s th with yielded := false, tlb := l } := by
  obtain ⟨l, e⟩ := tlbFill_same s th (codeVa (regsOf s th) (regsOf s th).pc)
  refine ⟨l, ?_⟩
  unfold fetched
  rw [thr_modThr_same, e]

/-- The instruction at the PC is executed on the fetched state. -/
theorem issue_ready {s : State} {th : ThreadId} (h : ready s th) (body : State → State) : issue th body s = body (fetched s th) := by
  unfold issue
  rw [if_pos h.1, h.2]
  rfl

theorem regInstr_ok {s : State} {th : ThreadId} (h : ready s th) {f : Arch → Except Exn Arch} {a : Arch}
    (k : f (regsOf s th) = .ok a) : regInstr th f s = retired s th (stepPc a) := by
  unfold regInstr
  rw [issue_ready h, regsOf_fetched, k]
  rfl

theorem regInstr_error {s : State} {th : ThreadId} (h : ready s th) {f : Arch → Except Exn Arch} {e : Exn}
    (k : f (regsOf s th) = .error e) : regInstr th f s = takeExn (fetched s th) th e := by
  unfold regInstr
  rw [issue_ready h, regsOf_fetched, k]

theorem jumpInstr_ok {s : State} {th : ThreadId} (h : ready s th) {f : Arch → Except Exn Arch} {a : Arch}
    (k : f (regsOf s th) = .ok a) : jumpInstr th f s = retired s th a := by
  unfold jumpInstr
  rw [issue_ready h, regsOf_fetched, k]
  rfl

theorem jumpInstr_error {s : State} {th : ThreadId} (h : ready s th) {f : Arch → Except Exn Arch} {e : Exn}
    (k : f (regsOf s th) = .error e) : jumpInstr th f s = takeExn (fetched s th) th e := by
  unfold jumpInstr
  rw [issue_ready h, regsOf_fetched, k]

theorem memInstr_ok {s : State} {th : ThreadId} (h : ready s th) {f : Arch → Except Exn MemOp} {op : MemOp}
    (k : f (regsOf s th) = .ok op) : memInstr th f s = access (fetched s th) th op := by
  unfold memInstr
  rw [issue_ready h, regsOf_fetched, k]

theorem memInstr_error {s : State} {th : ThreadId} (h : ready s th) {f : Arch → Except Exn MemOp} {e : Exn}
    (k : f (regsOf s th) = .error e) : memInstr th f s = takeExn (fetched s th) th e := by
  unfold memInstr
  rw [issue_ready h, regsOf_fetched, k]

/-! Registers: a write of an integer register leaves the rest alone (R128). -/

@[simp] theorem wr_pc (a : Arch) (d : RegField) (v : Word) : (wr a d v).pc = a.pc := by
  unfold wr
  split
  · rfl
  · split <;> rfl
@[simp] theorem wr_status (a : Arch) (d : RegField) (v : Word) : (wr a d v).status = a.status := by
  unfold wr
  split
  · rfl
  · split <;> rfl
@[simp] theorem wr_fcsr (a : Arch) (d : RegField) (v : Word) : (wr a d v).fcsr = a.fcsr := by
  unfold wr
  split
  · rfl
  · split <;> rfl
@[simp] theorem wr_f (a : Arch) (d : RegField) (v : Word) : (wr a d v).f = a.f := by
  unfold wr
  split
  · rfl
  · split <;> rfl
@[simp] theorem wrPair_pc (a : Arch) (d : RegField) (v : Pair) : (wrPair a d v).pc = a.pc := rfl
@[simp] theorem wrPair_status (a : Arch) (d : RegField) (v : Pair) : (wrPair a d v).status = a.status := rfl
@[simp] theorem wrTriple_pc (a : Arch) (d : RegField) (v : BitVec 64) : (wrTriple a d v).pc = a.pc := rfl
@[simp] theorem wrF_pc (a : Arch) (d : RegField) (v : BitVec 64) : (wrF a d v).pc = a.pc := rfl
@[simp] theorem wrF32_pc (a : Arch) (d : RegField) (v : BitVec 32) : (wrF32 a d v).pc = a.pc := rfl

/-- An instruction that changes registers alone. -/
theorem regInstr_leaves {s : State} {th : ThreadId} (h : ready s th) {f : Arch → Except Exn Arch} {a : Arch}
    (k : f (regsOf s th) = .ok a) (p : a.pc = (regsOf s th).pc) : (Host.Outcome.next (regInstr th f s) : Out) = leaves s th a := by
  rw [regInstr_ok h k, leaves, stepPc, p]

theorem regInstr_writes {s : State} {th : ThreadId} (h : ready s th) {f : Arch → Except Exn Arch} {d : RegField} {v : Word}
    (k : f (regsOf s th) = .ok (wr (regsOf s th) d v)) : (Host.Outcome.next (regInstr th f s) : Out) = writes s th d v :=
  regInstr_leaves h k (wr_pc _ _ _)

theorem regInstr_raises {s : State} {th : ThreadId} (h : ready s th) {f : Arch → Except Exn Arch} {e : Exn}
    (k : f (regsOf s th) = .error e) : (Host.Outcome.next (regInstr th f s) : Out) = raises s th e := by
  rw [regInstr_error h k, raises]

end Sys2Proof.Machine
end

