-- ==== Sys2Proof/Laws/Outcomes.lean ====
section
/-! SUPPORT. What the entry of an exception and the end of a handler do to the thread. -/

namespace Sys2Proof.Machine

@[simp] theorem arrive_threads (s : State) (n d : Nat) (p : Bool) : (arrive s n d p).threads = s.threads := by
  unfold arrive
  split
  · rfl
  · extract_lets v now first v1 v2 s1
    exact threads_ite rfl rfl

@[simp] theorem arrive_cons (s : State) (n d : Nat) (p : Bool) : (arrive s n d p).cons = s.cons := by
  unfold arrive
  split
  · rfl
  · extract_lets v now first v1 v2 s1
    split <;> rfl

@[simp] theorem logAdd_threads (s : State) (code cls island place tenant seq : Nat) (d : List Byte) :
    (logAdd s code cls island place tenant seq d).threads = s.threads := by
  unfold logAdd
  extract_lets now fresh
  split
  · split
    · rfl
    · exact arrive_threads _ _ _ _
  · exact arrive_threads _ _ _ _

@[simp] theorem logAdd_cons (s : State) (code cls island place tenant seq : Nat) (d : List Byte) :
    (logAdd s code cls island place tenant seq d).cons = s.cons := by
  unfold logAdd
  extract_lets now fresh
  split
  · split
    · rfl
    · exact arrive_cons _ _ _ _
  · exact arrive_cons _ _ _ _

@[simp] theorem logThread_threads (s : State) (th : ThreadId) (code cls : Nat) (d : List Byte) : (logThread s th code cls d).threads = s.threads := by
  unfold logThread
  extract_lets t island
  split
  · exact logAdd_threads _ _ _ _ _ _ _ _
  · exact logAdd_threads _ _ _ _ _ _ _ _

@[simp] theorem releaseHolds_threads (s : State) (b q : Nat) : (releaseHolds s b q).threads = s.threads := rfl
@[simp] theorem releaseHolds_cons (s : State) (b q : Nat) : (releaseHolds s b q).cons = s.cons := rfl

@[simp] theorem cancelJob_threads (s : State) (id : Nat) : (cancelJob s id).threads = s.threads := by
  unfold cancelJob
  split
  · rfl
  · exact threads_ite rfl rfl

/-- The thread after its commit set is discarded (R110). -/
theorem dropCset_thr (s : State) (th : ThreadId) : thr (dropCset s th) th =
    { thr s th with csetLines := [], csetBytes := [], gated := (thr s th).gated.filter (fun g => decide (g.obj ≠ .ledger)) } := by
  unfold dropCset
  extract_lets t s1
  have k : thr s1 th = _ := thr_setThr_same s th _
  split
  · exact k
  · exact (thr_of_threads rfl th).trans k

/-- The thread after its work is cancelled (R110). -/
theorem cancelWork_thr (s : State) (th : ThreadId) : thr (cancelWork s th) th =
    { thr s th with cp := Vector.replicate 3 .idle, jobs := Vector.replicate 8 0, keySlots := Vector.replicate 4 {} } := by
  unfold cancelWork
  extract_lets s1 p cpq s2
  have k1 : s1.threads = s.threads := threads_foldl _ (fun _ _ => cancelJob_threads _ _) _ _
  have k : thr s2 th = thr s th := thr_of_threads k1 th
  rw [thr_modThr_same, k]

theorem dropCset_cons (s : State) (th : ThreadId) : (dropCset s th).cons = s.cons := by
  unfold dropCset
  extract_lets t s1
  split <;> rfl

theorem cons_foldl {α : Type} (f : State → α → State) (hf : ∀ s x, (f s x).cons = s.cons) (l : List α) (s : State) :
    (l.foldl f s).cons = s.cons := by
  induction l generalizing s with
  | nil => rfl
  | cons a l ih => exact (ih _).trans (hf s a)

@[simp] theorem cancelJob_cons (s : State) (id : Nat) : (cancelJob s id).cons = s.cons := by
  unfold cancelJob
  split
  · rfl
  · split <;> rfl

theorem cancelWork_cons (s : State) (th : ThreadId) : (cancelWork s th).cons = s.cons := by
  unfold cancelWork
  extract_lets s1 p cpq s2
  exact cons_foldl _ (fun _ _ => cancelJob_cons _ _) _ _

/-- The thread after its handler has ended (R103, R110). -/
theorem endThread_thr (s : State) (th : ThreadId) (r : Option EndReport) :
    (thr (endThread s th r) th).arch = (thr s th).arch ∧ (thr (endThread s th r) th).run = .ending ∧
    (thr (endThread s th r) th).csetLines = [] ∧ (thr (endThread s th r) th).csetBytes = [] ∧ (thr (endThread s th r) th).seq = (thr s th).seq := by
  unfold endThread
  extract_lets seq s1 s2
  have k1 : thr s1 th = _ := (cancelWork_thr (dropCset s th) th).trans (by rw [dropCset_thr])
  have k : thr s2 th = _ := (thr_modThr_same s1 th _).trans (by rw [k1])
  cases r with
  | none => rw [k]; exact ⟨rfl, rfl, rfl, rfl, rfl⟩
  | some r => rw [show thr (modCons s2 seq _) th = thr s2 th from rfl, k]; exact ⟨rfl, rfl, rfl, rfl, rfl⟩

/-- A freed thread keeps its registers; one that still has work stays as it was (R110). -/
theorem freeIfDone_thr (s : State) (th : ThreadId) : freeIfDone s th = s ∨
    thr (freeIfDone s th) th = { run := .free, arch := (thr s th).arch, ck := (thr s th).ck, stores := (thr s th).stores,
                                 nextStore := (thr s th).nextStore, lateStores := (thr s th).lateStores } := by
  unfold freeIfDone
  extract_lets t bj bc s1
  split
  · exact .inr (thr_setThr_same _ _ _)
  · exact .inl rfl

theorem freeIfDone_arch (s : State) (th : ThreadId) : (thr (freeIfDone s th) th).arch = (thr s th).arch := by
  rcases freeIfDone_thr s th with h | h
  · rw [h]
  · rw [h]

theorem freeIfDone_cons (s : State) (th : ThreadId) : (freeIfDone s th).cons = s.cons := by
  unfold freeIfDone
  extract_lets t bj bc s1
  split <;> rfl

theorem freeIfDone_basins (s : State) (th : ThreadId) : (freeIfDone s th).basins = s.basins := by
  unfold freeIfDone
  extract_lets t bj bc s1
  split <;> rfl

end Sys2Proof.Machine
end

