-- ==== Sys2Proof/Laws/Raising.lean ====
section
/-! SUPPORT. The entry of an exception while a group of the window file is free, and what becomes of the handler. -/

namespace Sys2Proof.Machine

/-- No group is spilled while enough are free (R134). -/
theorem spillTo_free (s : State) (th : ThreadId) (n fuel : Nat) (a : Arch) (g : List GStore) (h : n ≤ 28 - a.res) :
    spillTo s th n fuel a g = some (a, g) := by
  cases fuel with
  | zero => unfold spillTo; exact if_pos h
  | succ f => unfold spillTo; exact if_pos h

/-- No group is filled while enough are resident (R135). -/
theorem fillTo_resident (s : State) (th : ThreadId) (k fuel : Nat) (a : Arch) (h : k ≤ a.res) : fillTo s th k fuel a = some a := by
  cases fuel with
  | zero => unfold fillTo; exact if_pos h
  | succ f => unfold fillTo; exact if_pos h

/-- The registers after an entry that spills nothing (R118, R157). -/
def enteredRegs (a : Arch) (e : Exn) : Arch :=
  let saved := if e.next then a.pc + 3 else a.pc
  { wrW (wrW (slideUp a 1 7 saved) 22 (savedStatus a.status e.code)) 21 (excinfoOf e) with
    status := entryStatus a.status e.code (max 6 (prio a)), excinfo := excinfoOf e, pc := vectorPc a e.code }

theorem entryOf_free (s : State) (th : ThreadId) (e : Exn) (h : 1 ≤ 28 - (regsOf s th).res) :
    entryOf s th e = (enteredRegs (faultRegs (regsOf s th) e) e, (thr s th).gated, e) := by
  unfold entryOf enter
  extract_lets a
  rw [spillTo_free s th 1 1 a _ h]
  rfl

theorem handlerFails_arch (s : State) (th : ThreadId) (d : Ended) (e : Exn) : regsOf (handlerFails s th d e) th = regsOf s th := by
  unfold handlerFails regsOf
  split
  · rw [freeIfDone_arch, (endThread_thr _ _ _).1]
  · rfl
  · rw [freeIfDone_arch, (endThread_thr _ _ _).1, thr_of_threads (logThread_threads _ _ _ _ _) th]

/-- The registers after an exception: those of its entry (R157). -/
theorem takeExn_regs (s : State) (th : ThreadId) (e : Exn) : regsOf (takeExn s th e) th = (entryOf s th e).1 := by
  have k : regsOf (retryPoint (setThr s th { thr s th with arch := (entryOf s th e).1, gated := (entryOf s th e).2.1, entering := none }) th) th =
      (entryOf s th e).1 := by
    unfold regsOf
    rw [retryPoint_arch, thr_setThr_same]
  unfold takeExn
  extract_lets t x s1
  have k' : regsOf s1 th = x.1 := k
  clear_value s1
  split
  · rw [handlerFails_arch]
    exact k'
  · exact k'

end Sys2Proof.Machine
end

