-- ==== Sys2Proof/WellFormed.lean ====
section
/-! DEFINITION. Well-formed commands: the bounds that the constructors' types leave open. The meanings are total and
answer an ill-formed command too; a sender that keeps the spec's formats sends none. -/

namespace Sys2Proof

/-- An island number that the keeper assignment of R18 uses. -/
def islandNumberOk (n : Nat) : Bool := (n / 128 < 4 && n % 128 < 78) || (n / 128 == 4 && n % 128 < 69)

/-- The bytes of a message item (R485): records of 128 bytes, lines of 64 at a line's offset, entries not empty. -/
def MirrorItem.wellFormed : MirrorItem → Bool
  | .record _ _ bytes => bytes.length == 128
  | .intake _ bytes => !bytes.isEmpty
  | .line _ off bytes => bytes.length == 64 && off % 64 == 0

/-- The fields of a HELLO (R484): a key of 64 bytes, hashes and a nonce of 32, a signature of 64, two to four members, and
the ranges of the four basins. -/
def HelloMsg.wellFormed (m : HelloMsg) : Bool :=
  m.key.length == 64 && m.listHash.length == 32 && m.nonce.length == 32 && m.signature.length == 64
    && m.ranges.length == 4 && 2 ≤ m.members && m.members ≤ 4 && m.position.val < m.members

/-- A mailbox request as the Pilot gathers it (R455, R457): the OUT segments name list entries and hold bytes. -/
def MbReq.wellFormed (m : MbReq) : Bool :=
  m.body.length < 2 ^ 32 && m.outs.all (fun o => 0 < o.len && o.len < 2 ^ 32)

/-- An access size of a register: 1, 2, 4 or 8 bytes (R358, R378). -/
def accessSizeOk (n : Nat) : Bool := n == 1 || n == 2 || n == 4 || n == 8

/-- A result of a read brings the bytes that its purpose bounds: a consignment or a job reads at most 16 MiB, a load at
most 8 bytes. -/
def readWellFormed (w : ReadPurpose) (r : ReadResult) : Bool :=
  match r with
  | .ok bs => match w with
    | .hostLoad _ => bs.length ≤ 8
    | _ => bs.length ≤ 2 ^ 24
  | _ => true

/-- A command that keeps the bounds of the spec's formats. -/
def Instr.wellFormed : Instr → Bool
  | .slipWrite _ _ off bs => !bs.isEmpty && off.toNat + bs.length ≤ 0x1000
  | .sqTailDoorbell _ _ _ size _ => accessSizeOk size
  | .eqHeadDoorbell _ _ _ size _ => accessSizeOk size
  | .sourceReadComplete w r => readWellFormed w r
  | .evtPost _ size _ => accessSizeOk size
  | .registerWrite _ size _ => accessSizeOk size
  | .gets _ _ line _ => line < 2 ^ 46
  | .getm _ _ line _ => line < 2 ^ 46
  | .upgr _ _ line _ => line < 2 ^ 46
  | .putm _ _ line _ => line < 2 ^ 46
  | .puto _ _ line _ => line < 2 ^ 46
  | .pute _ _ line _ => line < 2 ^ 46
  | .puts _ _ line _ => line < 2 ^ 46
  | .iord _ line _ => line < 2 ^ 46
  | .iowr _ line _ off bs => line < 2 ^ 46 && !bs.isEmpty && off.val + bs.length ≤ 64
  | .amo _ _ addr _ pair _ _ => addr < 2 ^ 52 && addr % 8 + (if pair then 6 else 3) ≤ 8
  | .droopDetected island => islandNumberOk island.toNat
  | .barometerUpdate island _ _ _ => islandNumberOk island.toNat
  | .islandReset island _ _ => islandNumberOk island.toNat
  | .islandResetExit island => islandNumberOk island.toNat
  | .islandWakeComplete island => islandNumberOk island.toNat
  | .clockStretchEnd island => islandNumberOk island.toNat
  | .serviceStart failed => failed.all (fun n => islandNumberOk n.toNat)
  | .atsInvalidationRequest _ page => page < 2 ^ 52
  | .hello _ m => m.wellFormed
  | .mirrorData _ items => items.all MirrorItem.wellFormed
  | .tideRecord _ record _ => record.length == 352
  | .requestFirmwareData _ bytes => !bytes.isEmpty
  | .getVersion r => r.params.length < 2 ^ 16
  | .vendorDefinedRequest r => r.params.length < 2 ^ 16
  | .getDeviceInfo m | .getCaps m | .helmAcquire m | .helmRelease m | .timeSet m | .tenantCreate m | .tenantConfigure m
  | .tenantQuiesce m | .tenantResume m | .tenantDestroy m | .tenantResync m | .queueCreate m | .queueDestroy m
  | .classSet m | .partitionMapSet m | .chainPoolCreate m | .chainPoolDestroy m | .keyImportBlock m | .keyGenerate m
  | .keyExportBlock m | .keyRetire m | .keyQuery m | .keystoreConfigure m | .tenantLabelSet m | .handlerLoad m
  | .handlerBind m | .formatLoad m | .ledgerConfigure m | .tideGet m | .proofGet m | .ledgerTrim m | .berthSplit m
  | .berthJoin m | .berthRetire m | .basinRecover m | .errorInject m | .powerPolicySet m | .thermalStatus m
  | .logbookRead m | .logbookClear m | .diagRun m | .fwStageBegin m | .fwStageData m | .fwStageEnd m | .fwActivate m
  | .fwConfirm m | .fwRevert m | .fwStatus m | .settingsBurn m | .enterSlipway m | .lifecycleAdvance m
  | .ownerKeyRotate m | .roadsteadJoin m | .roadsteadStatus m | .partnerTakeover m => m.wellFormed
  | _ => true

end Sys2Proof
end

