-- ==== Sys2Proof/Tests/Slice0.lean ====
section
/-! SUPPORT. Tests: ill-formed commands are refused, worked examples of the spec, and for every statement with hypotheses states and
operands that meet them, at the ends of their ranges. -/

-- One theorem after another: many `decide +kernel` side by side would each hold a thread of their own.
set_option Elab.async false

open Sys2Proof Sys2Proof.Machine

/-! States the tests use. -/

/-- A cached mapping of the first 16 MiB, for code and data. -/
def testWin : MapWin := { base := 0, len := 2 ^ 24, x := true, w := true }
/-- A mapping of the next 16 MiB for the system mode. -/
def testSysWin : MapWin := { base := 2 ^ 24, len := 2 ^ 24, user := false, x := true, w := true }
/-- A pier whose first berth has its pair. -/
def testPier : Pier := { pos := (Vector.replicate 16 ({} : Position)).set 0 { pair := some 0 } }
/-- A thread that runs consignment 1. -/
def testThread : Thread := { run := .active, seq := 1, maps := [testWin, testSysWin] }
/-- A Harbour in service. -/
def testUp : State :=
  { dev := { st := .full, pwrAon := true, pwrCore := true }, piers := [(0, testPier)], islands := [(islPair 0, { state := 3 })],
    basins := [(0, { inService := true })], cons := [(1, {})] }
/-- The Harbour in service with thread 0 as given. -/
def testRun (t : Thread) : State := { testUp with threads := [(0, t)] }
/-- The same, the thread's registers being a. -/
def testAt (a : Arch) : State := testRun { testThread with arch := a }
/-- The same registers in system mode, which runs and reads in the second mapping. -/
def testSys (a : Arch) : Arch := { a with status := a.status ||| 1, scseg := 1, snseg := 1 }
/-- Registers with every window register and g register at v. -/
def testAll (v : Word) : Arch := { g := Vector.replicate 7 v, win := Vector.replicate 192 v }
/-- Registers at a window with a LINK, k groups resident. -/
def testFrame (link : BitVec 3) (k : Nat) : Arch := { link := Vector.replicate 32 link, res := k }

/-! The block as a whole and the registers. -/

theorem witness_StepRunsFrontCommand : (∃ (c : Instr) (rest : List Instr) (s : State), s.pending = c :: rest) ∧ (∃ s : State, s.pending = []) :=
  ⟨⟨.flashOwnAssert, [.tideSigned], { State.reset with pending := [.flashOwnAssert, .tideSigned] }, rfl⟩, State.reset, rfl⟩

/-- Three generations of the settings are burnt, and a command burns none. -/
theorem witness_StepsOnlyGrowOtp : ∃ (o : Otp) (s t : State), OtpLegal s.otp ∧ OtpGrown o s.otp ∧ step s = .next t :=
  ⟨State.reset.otp, { State.reset with pending := [.flashOwnAssert] }, _,
    ⟨by decide +kernel, by decide +kernel, by decide +kernel, by decide +kernel⟩,
    ⟨Nat.le_refl _, List.prefix_rfl, List.prefix_rfl, rfl, fun _ => Nat.le_refl _⟩, rfl⟩

theorem witness_RegisterFile : (31 : RegField) ≠ 0 ∧ (8 : RegField) ≠ 9 ∧ pairOk 8 = true ∧ pairOk 30 = true ∧ tripleOk 8 = true ∧ tripleOk 29 = true ∧
    (∃ d e : RegField, tripleOk d = true ∧ (e.val < d.val ∨ d.val + 2 < e.val)) ∧ (∃ d e : RegField, pairOk d = true ∧ e.val ≠ d.val ∧ e.val ≠ d.val + 1) :=
  ⟨by decide, by decide, by decide, by decide, by decide, by decide, ⟨29, 28, by decide, by decide⟩, ⟨30, 29, by decide, by decide, by decide⟩⟩

theorem witness_RetiredFrame : (thr (testRun { testThread with sinceCk := 30 }) 0).sinceCk < 31 ∧ 31 ≤ (thr (testRun { testThread with sinceCk := 31 }) 0).sinceCk :=
  ⟨by decide +kernel, by decide +kernel⟩

/-! The instructions. In every statement about an instruction the thread is ready. -/

/-- In user mode and in system mode, at the first and at the last PC. -/
theorem witness_ready : ready (testAt {}) 0 ∧ ready (testAt (testSys {})) 0 ∧ ready (testAt { pc := 0xFFFFFC }) 0 ∧
    ready (testAt (testSys { status := 0xE, pc := 0xFFFFFC })) 0 :=
  ⟨⟨rfl, rfl⟩, ⟨rfl, rfl⟩, ⟨rfl, rfl⟩, ⟨rfl, rfl⟩⟩

/-- Fields that name a pair or a triple and fields that do not, shift counts in range and out of it. -/
theorem witness_operand_fields : (8 ≤ (8 : RegField).val ∧ (8 : RegField).val ≤ 30) ∧ (8 ≤ (30 : RegField).val ∧ (30 : RegField).val ≤ 30) ∧
    ((7 : RegField).val < 8 ∨ (7 : RegField).val = 31) ∧ ((31 : RegField).val < 8 ∨ (31 : RegField).val = 31) ∧
    (8 ≤ (29 : RegField).val ∧ (29 : RegField).val ≤ 29) ∧ ((30 : RegField).val < 8 ∨ 29 < (30 : RegField).val) ∧
    (23 : BitVec 8).toNat ≤ 23 ∧ 24 ≤ (24 : BitVec 8).toNat ∧ 24 ≤ (255 : BitVec 8).toNat := by decide

/-- FlagArithmetic and DecimalArithmetic: their hypothesis alone, with C set and a nibble above 9. -/
theorem witness_FlagArithmetic : ready (testAt { testAll 0xFFFFFF with status := 0x10 }) 0 := ⟨rfl, rfl⟩
theorem witness_DecimalArithmetic : ready (testAt { testAll 0x99999A with status := 0x10 }) 0 := ⟨rfl, rfl⟩
theorem witness_IntegerResults : ready (testAt (testAll 0x800000)) 0 ∧ rd (regsOf (testAt (testAll 0x800000)) 0) 8 = 0x800000 := ⟨⟨rfl, rfl⟩, by decide +kernel⟩
theorem witness_ImmediateResults : ready (testAt (testAll 0x7FFFFF)) 0 ∧ (23 : BitVec 8).toNat ≤ 23 ∧ 24 ≤ (24 : BitVec 8).toNat := ⟨⟨rfl, rfl⟩, by decide, by decide⟩

/-- Targets at 0, at 0xFF_FFFC, below 0, above the last and off the boundary; each condition true and false. -/
theorem witness_BranchesAndJumps : ready (testAt (testAll 1)) 0 ∧ ready (testAt (testAll 0)) 0 ∧ ready (testAt (testAll 0xFFFFFF)) 0 ∧
    ready (testAt { testAll 0 with status := 0x10 }) 0 ∧
    (0 ≤ ((3 : Word).toNat : Int) + 3 * (-1) ∧ ((3 : Word).toNat : Int) + 3 * (-1) ≤ 0xFFFFFC ∧ (((3 : Word).toNat : Int) + 3 * (-1)) % 3 = 0) ∧
    ((0xFFFFFC : Int) ≤ 0xFFFFFC ∧ (0xFFFFFC : Int) % 3 = 0) ∧ ((0 : Int) + 3 * (-1) < 0) ∧ (0xFFFFFC < (0xFFFFFC : Int) + 3 * 1) ∧ ((1 : Int) % 3 ≠ 0) ∧
    ((1 : Word).toInt ≠ 0 ∧ (0 : Word).toInt = 0 ∧ (0xFFFFFF : Word).toInt < 0 ∧ (0 : Word) ≠ 1) :=
  ⟨⟨rfl, rfl⟩, ⟨rfl, rfl⟩, ⟨rfl, rfl⟩, ⟨rfl, rfl⟩, by decide, by decide, by decide, by decide, by decide, by decide⟩

/-- 27 groups resident leave one group, 25 leave the three of CALLG2 and 24 the four of CALLG3. -/
theorem witness_CallsSlideTheWindow : ready (testAt (testFrame 1 26)) 0 ∧ 1 + 1 ≤ 28 - (regsOf (testAt (testFrame 1 26)) 0).res ∧
    ready (testAt (testFrame 1 24)) 0 ∧ 3 + 1 ≤ 28 - (regsOf (testAt (testFrame 1 24)) 0).res ∧
    ready (testAt (testSys (testFrame 1 24))) 0 ∧ (regsOf (testAt (testSys (testFrame 1 24))) 0).status.getLsbD 0 = true ∧
    (regsOf (testAt (testFrame 1 24)) 0).status.getLsbD 0 = false ∧ (rd (testAll 2) 8).toNat % 3 ≠ 0 :=
  ⟨⟨rfl, rfl⟩, by decide +kernel, ⟨rfl, rfl⟩, by decide +kernel, ⟨rfl, rfl⟩, by decide +kernel, by decide +kernel, by decide +kernel⟩

/-- RET with one and with three groups, the LINK codes that are illegal, and RETS in each mode. -/
theorem witness_ReturnsSlideBack :
    (∀ k ∈ [1, 2, 3], (regsOf (testAt (testFrame (BitVec.ofNat 3 k) k)) 0).link.get 0 = BitVec.ofNat 3 k ∧ k ≤ (regsOf (testAt (testFrame (BitVec.ofNat 3 k) k)) 0).res ∧
      (rdW (regsOf (testAt (testFrame (BitVec.ofNat 3 k) k)) 0) 23).toNat ≤ 0xFFFFFC ∧ (rdW (regsOf (testAt (testFrame (BitVec.ofNat 3 k) k)) 0) 23).toNat % 3 = 0) ∧
    ready (testAt (testFrame 1 1)) 0 ∧ ready (testAt (testFrame 3 3)) 0 ∧ ready (testAt (testFrame 0 1)) 0 ∧ ready (testAt (testFrame 4 1)) 0 ∧
    ready (testAt (testFrame 6 1)) 0 ∧ ready (testAt (testFrame 7 1)) 0 ∧ ready (testAt (testSys (testFrame 7 1))) 0 ∧
    ready (testAt (testSys (testFrame 1 1))) 0 ∧
    signalAbove (thr (testAt (testSys (testFrame 7 1))) 0) ((rdW (regsOf (testAt (testSys (testFrame 7 1))) 0) 22).extractLsb' 1 3).toNat = none :=
  ⟨by decide +kernel, ⟨rfl, rfl⟩, ⟨rfl, rfl⟩, ⟨rfl, rfl⟩, ⟨rfl, rfl⟩, ⟨rfl, rfl⟩, ⟨rfl, rfl⟩, ⟨rfl, rfl⟩, ⟨rfl, rfl⟩, by decide +kernel⟩

theorem witness_RetToTheRuntimeEndsTheHandler : ∃ (s : State) (c : Cons), ready s 0 ∧ (regsOf s 0).link.get (regsOf s 0).wp = 5 ∧ 1 ≤ (regsOf s 0).res ∧
    (regsOf s 0).sretv.toNat ≤ 0xFFFFFC ∧ (regsOf s 0).sretv.toNat % 3 = 0 ∧ (thr s 0).seq ≠ 0 ∧ (thr s 0).ended = .no ∧ consOf s (thr s 0).seq = some c :=
  ⟨testAt { testFrame 5 1 with sretv := 0xFFFFFC }, {}, ⟨rfl, rfl⟩, by decide +kernel, by decide +kernel, by decide +kernel, by decide +kernel, by decide +kernel,
    by decide +kernel, rfl⟩

/-- The last exception code and detail, with one group free, and a handler that has not ended with 27 groups resident. -/
theorem witness_ExceptionEntry : (∃ (s : State) (e : Exn), e.code < 16 ∧ e.detail < 65536 ∧ 1 ≤ 28 - (regsOf s 0).res) ∧
    (∃ (s : State) (c : Cons), (regsOf s 0).status.getLsbD 0 = false ∧ (regsOf s 0).res < 28 ∧ (thr s 0).seq ≠ 0 ∧ (thr s 0).ended = .no ∧
      consOf s (thr s 0).seq = some c) :=
  ⟨⟨testAt (testFrame 1 27), { code := 15, detail := 65535 }, by decide, by decide, by decide +kernel⟩,
    ⟨testAt (testFrame 1 27), {}, by decide +kernel, by decide +kernel, by decide +kernel, by decide +kernel, rfl⟩⟩

theorem witness_IllegalAndSyscall : ready (testAt {}) 0 ∧ (31 : RegField) ≠ 0 := ⟨⟨rfl, rfl⟩, by decide⟩

/-- A PC that is no multiple of 3 and one past the last; a thread that may not issue. -/
theorem witness_FetchFaultComesFirst : (∃ e, canIssue (testAt { pc := 1 }) 0 = true ∧ fetchOk (testAt { pc := 1 }) 0 = .error e) ∧
    (regsOf (testAt { pc := 1 }) 0).pc.toNat % 3 ≠ 0 ∧ 0xFFFFFC < (regsOf (testAt { pc := 0xFFFFFF }) 0).pc.toNat ∧
    canIssue (testRun { testThread with run := .moor }) 0 = false :=
  ⟨⟨_, rfl, rfl⟩, by decide +kernel, by decide +kernel, rfl⟩

theorem witness_SystemRegisters :
    (ready (testAt (testSys {})) 0 ∧ (regsOf (testAt (testSys {})) 0).status.getLsbD 0 = true) ∧
    (regsOf (testAt {}) 0).status.getLsbD 0 = false ∧ ready (testAt {}) 0 ∧ 0x100 ≤ (0x100 : BitVec 10).toNat ∧ (0x0FF : BitVec 10).toNat < 0x100 ∧
    (4 < (5 : BitVec 10).toNat ∧ (7 : BitVec 10).toNat < 8) ∧ (0x108 ≤ (0x108 : BitVec 10).toNat ∧ (0x10D : BitVec 10).toNat ≤ 0x10D) ∧
    0x10F < (0x110 : BitVec 10).toNat :=
  ⟨⟨⟨rfl, rfl⟩, by decide +kernel⟩, by decide +kernel, ⟨rfl, rfl⟩, by decide, by decide, by decide, by decide, by decide⟩

theorem witness_YieldRdtimeTlbinv : ready (testAt {}) 0 ∧ (regsOf (testAt {}) 0).status.getLsbD 0 = false ∧ ready (testAt (testSys {})) 0 ∧
    (regsOf (testAt (testSys {})) 0).status.getLsbD 0 = true ∧ (8 ≤ (29 : RegField).val ∧ (29 : RegField).val ≤ 29) ∧ 29 < (30 : RegField).val :=
  ⟨⟨rfl, rfl⟩, by decide +kernel, ⟨rfl, rfl⟩, by decide +kernel, by decide, by decide⟩

/-- A posted result, none posted, a mailbox entry in state 2 and none, and the fields that WAITCP turns down. -/
theorem witness_WaitcpCollectsOrParks :
    (∃ w, ready (testRun { testThread with cp := Vector.replicate 3 (.posted 7) }) 0 ∧
      (thr (testRun { testThread with cp := Vector.replicate 3 (.posted 7) }) 0).cp.get 2 = .posted w) ∧
    (∀ w : Word, (thr (testRun testThread) 0).cp.get 0 ≠ .posted w) ∧ (∀ i < 8, mboxState (testRun testThread) 0 i ≠ 2) ∧
    (∃ (m : Mem), let s := { testRun { testThread with sinceCk := 30 } with mem := m }
      ready s 0 ∧ mboxState s 0 7 = 2 ∧ (∀ j < 7, mboxState s 0 j ≠ 2) ∧ (thr s 0).sinceCk < 31) ∧
    (4 ≤ (4 : RegField).val ∧ (7 : RegField).val < 8) ∧ 8 ≤ (8 : RegField).val :=
  ⟨⟨7, ⟨rfl, rfl⟩, rfl⟩, (fun w h => nomatch (h : CpReq.idle = .posted w)), by decide +kernel,
    ⟨{ near := [(0, [(0x80 + 7 * 16, 2)])] }, by
      refine ⟨⟨rfl, rfl⟩, ?_, ?_, ?_⟩ <;> decide +kernel⟩, by decide, by decide⟩

/-! Loads, stores and atomics. -/

/-- The first n bytes of the cached mapping. -/
def testPlaces (n : Nat) : List Loc := (List.range n).map (fun i => { obj := .phys, addr := i, type := .cached })
theorem cacheable_of_all {ls : List Loc} (h : ls.all (fun l => decide (l.type = .cached) || decide (l.type = .ledgered)) = true) : cacheable ls :=
  fun l hl => by simpa using List.all_eq_true.mp h l hl
/-- A state whose only line holds poison. -/
def testPoison : State := { testRun testThread with mem := { poison := [0] } }

/-- A load of 8 bytes, of good data and of poison. -/
theorem witness_Loads : ready (testAt {}) 0 ∧ admitted (fetched (testAt {}) 0) 0 (.load 0 8 (.freg 31)) (testPlaces 8) ∧ cacheable (testPlaces 8) ∧
    loadsPoison (fillAll (reached (fetched (testAt {}) 0) 0 (.load 0 8 (.freg 31)) (testPlaces 8)) 0 (testPlaces 8)) 0 (testPlaces 8) = false ∧
    ready testPoison 0 ∧ admitted (fetched testPoison 0) 0 (.load 0 1 (.reg 1 true)) (testPlaces 1) ∧ cacheable (testPlaces 1) ∧
    loadsPoison (fillAll (reached (fetched testPoison 0) 0 (.load 0 1 (.reg 1 true)) (testPlaces 1)) 0 (testPlaces 1)) 0 (testPlaces 1) = true := by
  refine ⟨⟨rfl, rfl⟩, ⟨rfl, rfl, ?_, rfl⟩, cacheable_of_all ?_, ?_, ⟨rfl, rfl⟩, ⟨rfl, rfl, ?_, rfl⟩, cacheable_of_all ?_, ?_⟩ <;> decide +kernel

/-- Bytes of a LEDGERED range in the commit set's reach. -/
theorem witness_Loads_ledgered : ∃ ls, admitted (fetched (testAt {}) 0) 0 (.load ledgerVa 3 (.reg 31 false)) ls ∧ cacheable ls ∧ linesOf ls ≠ [] :=
  ⟨_, ⟨rfl, rfl, by decide +kernel, rfl⟩, cacheable_of_all (by decide +kernel), by decide +kernel⟩

theorem witness_NearAndFarStores : ready (testAt {}) 0 ∧ admitted (fetched (testAt {}) 0) 0 (.store 0 (toLe 8 (2 ^ 64 - 1))) (testPlaces 8) ∧ cacheable (testPlaces 8) := by
  refine ⟨⟨rfl, rfl⟩, ⟨rfl, rfl, ?_, rfl⟩, cacheable_of_all ?_⟩ <;> decide +kernel

/-- A byte stored twice, the byte beside it, and another thread. -/
theorem witness_NearAndFarStores_bytes : ∃ (l m : Loc) (before after : List GStore) (g : GStore),
    g.obj = l.obj ∧ g.addr = l.addr ∧ (∀ h ∈ after, ¬ (h.obj = l.obj ∧ h.addr = l.addr)) ∧
    (∀ h ∈ before ++ g :: after, ¬ (h.obj = m.obj ∧ h.addr = m.addr)) ∧ (1023 : ThreadId) ≠ 0 :=
  ⟨{ obj := .phys, addr := 5, type := .cached }, { obj := .phys, addr := 6, type := .cached }, [{ obj := .phys, addr := 5, byte := 1 }],
    [{ obj := .phys, addr := 4, byte := 3 }], { obj := .phys, addr := 5, byte := 2 }, by decide, by decide, by decide, by decide, by decide⟩

/-- A thread of a basin with an UNCACHED and a DEVICE mapping. -/
def testOutThread : Thread :=
  { run := .active, maps := [{ base := 0, len := 64, type := .uncached, w := true }, { base := 64, len := 64, type := .device, w := true, obj := .device }] }
/-- Thread 0 of basin k runs so. -/
def testOut (k : Fin 4) : State := { testUp with threads := [(k.val * 256, testOutThread)], islands := [(deviceIsland 0, { state := 3 })] }
def testOutTh (k : Fin 4) : ThreadId := ⟨k.val * 256, by omega⟩

theorem testOut_uncached (k : Fin 4) : admitted (testOut k) (testOutTh k) (.store 0 [1]) [{ obj := .phys, addr := 0, type := .uncached }] := by
  match k with
  | 0 => exact ⟨rfl, rfl, by decide +kernel, rfl⟩
  | 1 => exact ⟨rfl, rfl, by decide +kernel, rfl⟩
  | 2 => exact ⟨rfl, rfl, by decide +kernel, rfl⟩
  | 3 => exact ⟨rfl, rfl, by decide +kernel, rfl⟩

theorem witness_StoresOutsideTheCaches :
    (∃ (s : State) (th : ThreadId) (ls : List Loc), admitted s th (.store 0 [1]) ls ∧ ls ≠ [] ∧ (thr s th).gated = [] ∧
      ∀ l ∈ ls, l.type = .uncached ∧ l.obj = .phys ∧ uncachedBasin l.addr = th.basin.val) ∧
    (∃ (s : State) (ls : List Loc) (n : Nat), admitted s 0 (.store 64 [1, 2, 3, 4, 5, 6, 7, 8]) ls ∧ ls ≠ [] ∧ (thr s 0).gated = [] ∧
      (islandOf s n).state = 3 ∧ (islandOf s n).reset = false ∧ ∃ l ∈ ls, l.type = .device ∧ l.obj = .device ∧ deviceIsland l.addr = n) := by
  refine ⟨⟨testOut ⟨uncachedBasin 0, Nat.mod_lt _ (by decide)⟩, testOutTh ⟨uncachedBasin 0, Nat.mod_lt _ (by decide)⟩, _, testOut_uncached _,
    by decide, ?_, ?_⟩, testOut 0, _, deviceIsland 0, ⟨rfl, rfl, by decide +kernel, rfl⟩, by decide, rfl, ?_, ?_, ?_⟩
  · generalize (⟨uncachedBasin 0, Nat.mod_lt _ (by decide)⟩ : Fin 4) = k
    match k with
    | 0 => rfl
    | 1 => rfl
    | 2 => rfl
    | 3 => rfl
  · intro l h
    cases List.mem_singleton.mp h
    exact ⟨rfl, rfl, ((by decide : ∀ k : Fin 4, (testOutTh k).basin.val = k.val) ⟨uncachedBasin 0, Nat.mod_lt _ (by decide)⟩).symm⟩
  · show (tget ({} : Island) [(deviceIsland 0, { state := 3 })] (deviceIsland 0)).state = 3
    simp [tget, mget]
  · show (tget ({} : Island) [(deviceIsland 0, { state := 3 })] (deviceIsland 0)).reset = false
    simp [tget, mget]
  · exact ⟨_, .head _, rfl, rfl, rfl⟩

/-- A store of one DEVICE byte, all of whose places belong to one island. -/
theorem witness_StoresOutsideTheCaches_device : ∃ ls, admitted (testOut 0) 0 (.store 64 [1]) ls ∧
    ∀ l ∈ ls, l.type = .device ∧ l.obj = .device ∧ deviceIsland l.addr = deviceIsland 0 := by
  refine ⟨_, ⟨rfl, rfl, by decide +kernel, rfl⟩, ?_⟩
  intro l h
  cases List.mem_singleton.mp h
  exact ⟨rfl, rfl, rfl⟩

/-- UserStoresBelow0x100 and the near stores: the last offset that user mode may not store to, the first that it may, and an instruction in system mode. -/
theorem witness_UserStoresBelow0x100 :
    ready (testAt (testAll 0xFF)) 0 ∧ (regsOf (testAt (testAll 0xFF)) 0).status.getLsbD 0 = false ∧
    (rd (regsOf (testAt (testAll 0xFF)) 0) 8).toNat < 0x100 ∧ 0x100 ≤ (rd (regsOf (testAt (testAll 0x100)) 0) 8).toNat ∧
    (rd (regsOf (testAt (testAll 0x100)) 0) 8 + (0xFF : BitVec 8).signExtend 24).toNat < 0x100 ∧ ready (testAt (testAll 0x100)) 0 ∧
    (regsOf (testAt (testSys (testAll 0))) 0).status.getLsbD 0 = true :=
  ⟨⟨rfl, rfl⟩, by decide +kernel, by decide +kernel, by decide +kernel, by decide +kernel, ⟨rfl, rfl⟩, by decide +kernel⟩

/-- A thread whose commit set is full, and holds of an older and of a younger consignment. -/
def testFull (k : Nat) : State := testRun { testThread with csetLines := (List.range k).map (· + 100) }
def testHeld (q : Nat) : State := { testRun { testThread with seq := 5 } with basins := [(0, { inService := true, holds := [(0, q)] })] }

theorem error_of {α : Type} {x : Except Exn α} (h : (match x with | .error _ => true | .ok _ => false) = true) : ∃ e, x = .error e := by
  cases x with
  | error e => exact ⟨e, rfl⟩
  | ok a => cases h
/-- The first byte of the LEDGERED ranges. -/
def testLedgerByte : List Loc := [{ obj := .ledger, addr := 0, type := .ledgered }]

theorem witness_AccessesThatDoNotComplete :
    (∃ e, translate (testAt {}) 0 .load (2 ^ 47) 1 = .error e) ∧
    (∃ ls, translate (testRun { testThread with ended := .committed }) 0 .store ledgerVa 1 = .ok ls ∧
      afterEnd (testRun { testThread with ended := .committed }) 0 .store ls = true) ∧
    (∃ ls, translate (testFull 64) 0 .store ledgerVa 1 = .ok ls ∧ afterEnd (testFull 64) 0 .store ls = false ∧
      64 < (thr (testFull 64) 0).csetLines.length + ((linesOf ls).filter (fun l => !((thr (testFull 64) 0).csetLines.contains l))).length) ∧
    (∃ ls, translate (testFull 63) 0 .store ledgerVa 1 = .ok ls ∧
      (thr (testFull 63) 0).csetLines.length + ((linesOf ls).filter (fun l => !((thr (testFull 63) 0).csetLines.contains l))).length ≤ 64) ∧
    (translate (testHeld 4) 0 .store ledgerVa 1 = .ok testLedgerByte ∧ afterEnd (testHeld 4) 0 .store testLedgerByte = false ∧
      conflictOf (testHeld 4) 0 (linesOf testLedgerByte) = some (0, 4)) ∧
    (translate (testHeld 6) 0 .store ledgerVa 1 = .ok testLedgerByte ∧ afterEnd (testHeld 6) 0 .store testLedgerByte = false ∧
      conflictOf (testHeld 6) 0 (linesOf testLedgerByte) = some (0, 6)) ∧
    ((thr (testHeld 6) 0).seq < 6 ∧ 4 ≤ (thr (testHeld 4) 0).seq) := by
  refine ⟨error_of ?_, ⟨_, rfl, ?_⟩, ⟨_, rfl, ?_, ?_⟩, ⟨_, rfl, ?_⟩, ⟨rfl, ?_, ?_⟩, ⟨rfl, ?_, ?_⟩, ?_⟩ <;> decide +kernel

theorem witness_Atomics : ready (testAt {}) 0 ∧ admitted (fetched (testAt {}) 0) 0 (.amo .cas 2 6 30 0 1) ((testPlaces 8).drop 2) ∧ cacheable ((testPlaces 8).drop 2) ∧
    loadsPoison (recalled (reached (fetched (testAt {}) 0) 0 (.amo .cas 2 6 30 0 1) ((testPlaces 8).drop 2)) 0 ((testPlaces 8).drop 2)) 0 ((testPlaces 8).drop 2) = false := by
  refine ⟨⟨rfl, rfl⟩, ⟨rfl, rfl, ?_, rfl⟩, cacheable_of_all ?_, ?_⟩ <;> decide +kernel

/-! Order, stores that leave the berth, and the end of a handler. -/

/-- An outstanding store of a kind. -/
def testStore (k : StoreKind) : OStore := { id := 1, kind := k, va := 64 }

theorem witness_FencesAndMoor : ready (testAt {}) 0 ∧ (31 : RegField) ≠ 0 ∧
    (thr (testRun testThread) 0).stores = [] ∧ (thr (testRun testThread) 0).failures = [] ∧
    ready (testRun { testThread with stores := [testStore (.device 3)] }) 0 ∧ (thr (testRun { testThread with stores := [testStore (.device 3)] }) 0).stores ≠ [] ∧
    (∃ f : SFail, let t := { testThread with failures := [{ id := 2, va := 0, reason := 4, host := false }, f] }
      ready (testRun t) 0 ∧ f ∈ (thr (testRun t) 0).failures ∧ ∀ g ∈ (thr (testRun t) 0).failures, g ≠ f → f.id < g.id) := by
  refine ⟨⟨rfl, rfl⟩, ?_, rfl, rfl, ⟨rfl, rfl⟩, ?_, ⟨{ id := 1, va := 0, reason := 1, host := true }, ⟨rfl, rfl⟩, ?_, ?_⟩⟩ <;> decide +kernel

/-- The store named completes: while the thread runs, as one of two a MOOR awaits, as the last one, and with an error. -/
theorem witness_StoresComplete :
    (∀ r ∈ [Run.active, .moor], ((thr (testRun { testThread with run := r, stores := [testStore (.device 3)] }) 0).stores.find? (fun x => x.id == 1)) = some (testStore (.device 3)) ∧
      (testStore (.device 3)).waiting = [] ∧ (thr (testRun { testThread with run := r }) 0).failures = [] ∧ (thr (testRun { testThread with run := r }) 0).seq ≠ 0 ∧
      (thr (testRun { testThread with run := r }) 0).ended = .no) ∧
    isHostStore (testStore (.device 3)).kind = false ∧ isHostStore (testStore (.host .b 4096)).kind = true ∧
    ([testStore (.host .b 4096), { testStore (.host .a 0) with id := 2 }].filter (fun x => !(hostOn .b x))) ≠ [] ∧
    ([testStore (.host .b 4096), { testStore (.host .b 0) with id := 2 }].filter (fun x => !(hostOn .b x))) = [] := by decide +kernel

/-- A MOOR issued at 0 with one store, the clock at the limit and just before it. -/
def testMoor (k : StoreKind) (ns : Nat) : State :=
  { testRun { testThread with run := .moor, moorAt := some 0, stores := [testStore k] } with clock := { ps := ns * 1000 } }

theorem witness_StoresTimeOut :
    (thr (testMoor (.device 3) 50000) 0).run = .moor ∧ (thr (testMoor (.device 3) 50000) 0).moorAt = some 0 ∧
    (thr (testMoor (.device 3) 50000) 0).stores = [testStore (.device 3)] ∧ (thr (testMoor (.device 3) 50000) 0).failures = [] ∧
    (thr (testMoor (.device 3) 50000) 0).seq ≠ 0 ∧ (thr (testMoor (.device 3) 50000) 0).ended = .no ∧
    0 + 50000 ≤ nowNs (testMoor (.device 3) 50000) ∧ (thr (testMoor (.host .a 0) 50000) 0).moorHostAt + 50000 ≤ nowNs (testMoor (.host .a 0) 50000) ∧
    0 + 20000 ≤ nowNs (testMoor (.otherBasin 3) 20000) ∧ nowNs (testMoor (.device 3) 49999) < 0 + 50000 := by decide +kernel

theorem witness_StoresTimeOut_adoption :
    let w : Wait := { why := .adoption 3, op := none, since := 0 }
    let s := { testRun { testThread with wait := some w } with clock := { ps := 20000000 }, basins := [(3, { checkstopped := true })] }
    (thr s 0).wait = some w ∧ 0 + 20000 ≤ nowNs s ∧ (basinOf s 3).checkstopped = true ∧ (basinOf s 3).adopted = false := by decide +kernel

/-- A result that fits exactly, one byte too long, and a handler that has ended. -/
theorem witness_CommitAndAbort :
    ready (testAt {}) 0 ∧ consOf (testAt {}) (thr (testAt {}) 0).seq = some {} ∧ (thr (testAt {}) 0).ended = .no ∧
    (regsOf (testAt {}) 0).rlen.toNat ≤ ({} : Cons).desc.dstLen.toNat ∧ jobsRun (testAt {}) 0 = false ∧ (thr (testAt {}) 0).failures = [] ∧
    (thr (testAt {}) 0).hostXlatFail = false ∧ (thr (testAt {}) 0).stores.all (fun o => !(isHostStore o.kind) || o.waiting.isEmpty) = true ∧
    fCompress ({} : Cons).desc = false ∧ ready (testAt { rlen := 1 }) 0 ∧ ({} : Cons).desc.dstLen.toNat < (regsOf (testAt { rlen := 1 }) 0).rlen.toNat ∧
    ready (testRun { testThread with ended := .aborted }) 0 ∧ (thr (testRun { testThread with ended := .aborted }) 0).ended ≠ .no := by
  refine ⟨⟨rfl, rfl⟩, rfl, ?_, ?_, ?_, rfl, ?_, ?_, ?_, ⟨rfl, rfl⟩, ?_, ⟨rfl, rfl⟩, ?_⟩ <;> decide +kernel

/-- A cached line, a range of two lines, a ledgered line of a commit set, and the operands that are turned down. -/
theorem witness_CacheMaintenance :
    ready (testAt (testSys {})) 0 ∧ (regsOf (testAt (testSys {})) 0).status.getLsbD 0 = true ∧ ready (testAt {}) 0 ∧ (regsOf (testAt {}) 0).status.getLsbD 0 = false ∧
    (∃ ls, locBytes (fetched (testAt (testSys {})) 0) 0 .load (2 ^ 24) 1 0 = .ok ls ∧ inCset (fetched (testAt (testSys {})) 0) ls = false ∧ physLines ls ≠ []) ∧
    (∃ ls, locBytes (fetched (testAt (testSys {})) 0) 0 .fetch (2 ^ 24) 1 0 = .ok ls ∧ physLines ls ≠ []) ∧
    (∃ ls, rangeLocs (fetched (testAt (testSys {})) 0) 0 (2 ^ 24 + 63) 2 = .ok ls ∧ inCset (fetched (testAt (testSys {})) 0) ls = false ∧ (physLines ls).length = 2) ∧
    (∃ ls, let s := { testHeld 5 with threads := [(0, { testThread with arch := testSys {} })] }
      locBytes (fetched s 0) 0 .load ledgerVa 1 0 = .ok ls ∧ inCset (fetched s 0) ls = true) ∧
    (2 ≤ (2 : RegField).val ∧ (1 : RegField).val = 1 ∧ ¬ (8 ≤ (31 : RegField).val ∧ (31 : RegField).val ≤ 30)) := by
  refine ⟨⟨rfl, rfl⟩, ?_, ⟨rfl, rfl⟩, ?_, ⟨_, rfl, ?_, ?_⟩, ⟨_, rfl, ?_⟩, ⟨_, rfl, ?_, ?_⟩, ⟨_, rfl, ?_⟩, ?_⟩ <;> decide +kernel

/-! The Quayside. -/

/-- The descriptor of an ECHO without a source, keys or destination, with its check. -/
def testSlip : List Byte := [1, 0, 0x60, 0xF0] ++ zeros 20 ++ List.replicate 8 0xFF ++ zeros 30 ++ [0x60, 0x02]
/-- A port in use, with eight VFs. -/
def testPort : PortState := { link := true, perst := false, bme := true, vfMse := true, vfEnable := true, numVFs := 8, crs := false }
/-- A tenant that runs on port A: queue 0 push with one credit, queue 1 pull of 2 entries, queue 2 push without a credit. -/
def testTenant : Tenant :=
  { state := .running, ports := 1, classes := [(0, 2 ^ 31)], pathLive := true,
    sqs := [(0, { exist := true, enabled := true, reservation := 1 }), (1, { exist := true, enabled := true, pull := true, sizeLog2 := 1, reservation := 2 }),
            (2, { exist := true, enabled := true })],
    pools := [(63, { exist := true, sizeLog2 := 4 })] }
def testQuay (v : Tenant) : State := { testUp with ports := [(0, testPort)], vfs := [(0, { bme := true })], tenants := [(0, v)] }
/-- The descriptor as it waits SLIPPED. -/
def testWaiting : Slipped := { desc := parseDesc testSlip, tenant := 0, sq := 0, port := .a }
/-- The other half is out, and the reserves of the ledger leave no room. -/
def testNoRoom : State := { testQuay testTenant with cfg := { areaGib := 0 } }

theorem witness_DescriptorsArrive_accepted :
    let s := testQuay testTenant;
    let u := touchPort s .a;
    let d := parseDesc testSlip;
    vfMmio s .a 0 = true ∧ tenantListens s 0 = true ∧ (sqOf u 0 0).exist = true ∧ (sqOf u 0 0).pull = false ∧ testSlip.length = 64 ∧
    ((0 : BitVec 12).toNat % 256 % 64 = 0 ∧ (192 : BitVec 12).toNat % 256 ≤ 192) ∧ 0 < chost (sqOf u 0 0) ∧
    acceptCheck u 0 0 true d (dockBytes u 0 d) = none ∧
    acceptRoom u (halfFor u .a) { desc := d, tenant := 0, sq := 0, port := .a, dock := dockBytes u 0 d, dur := effDur u 0 d, slot := 0 } = true ∧
    (∀ y ∈ s.slipped, ¬ (y.tenant = 0 ∧ y.sq = 0)) := by decide +kernel

theorem witness_DescriptorsArrive_waits :
    let u := touchPort testNoRoom .a;
    let d := parseDesc testSlip;
    acceptCheck u 0 0 true d (dockBytes u 0 d) = none ∧ 0 < chost (sqOf u 0 0) ∧
    acceptRoom u (halfFor u .a) { desc := d, tenant := 0, sq := 0, port := .a, dock := dockBytes u 0 d, dur := effDur u 0 d, slot := 0 } = false ∧
    vfMmio testNoRoom .a 0 = true ∧ tenantListens testNoRoom 0 = true := by decide +kernel

theorem witness_DescriptorsArrive_turned_down :
    let s := testQuay testTenant;
    let u := touchPort s .a;
    chost (sqOf u 0 2) = 0 ∧ (tenantOf s 0).state = .running ∧ (sqOf u 0 2).enabled = true ∧ (sqOf u 0 1).exist = true ∧ (sqOf u 0 1).pull = true ∧
    ([0, 0, 0] : List Byte).length ∉ [64, 128, 192, 256] ∧
    ((1 : BitVec 32).toNat < 2 ^ (sqOf u 0 1).sizeLog2 ∧ ((1 : BitVec 32).toNat + 2 - (sqOf u 0 1).head) % 2 ≤ 2 - 1 - ((sqOf u 0 1).credits.length + (sqOf u 0 1).pending + (sqOf u 0 1).inTransit)) ∧
    2 ^ (sqOf u 0 1).sizeLog2 ≤ (2 : BitVec 32).toNat := by decide +kernel

theorem witness_DescriptorsArrive_slipped :
    let s := { testQuay testTenant with slipped := [testWaiting] };
    s.slipped = testWaiting :: [] ∧ halfFor s testWaiting.port = .a ∧ halfOut s .a = false ∧ acceptRoom s .a testWaiting = true := by decide +kernel

/-- A fetch of one descriptor, its completion and its failure. -/
theorem witness_QueuesMoveOn :
    let v (q : Sq) : Tenant := { testTenant with sqs := [(15, q)] };
    let q : Sq := { exist := true, pull := true, enabled := true, sizeLog2 := 1, reservation := 1, tail := 1 };
    let s := testQuay (v q);
    (running s = true ∧ (sqOf s 0 15).exist = true ∧ (sqOf s 0 15).pull = true ∧ (sqOf s 0 15).enabled = true ∧ (sqOf s 0 15).stopped = false ∧
      (sqOf s 0 15).fetch = none ∧ 0 < fetchCount s (sqOf s 0 15) ∧ (tenantOf s 0).state = .running ∧ pathUp s 0 = true) ∧
    (sqOf (testQuay (v { q with fetch := some (0, 1) })) 0 15).fetch = some (0, 1) ∧ (sqOf (testQuay (v { q with fetch := some (1, 63) })) 0 15).fetch = some (1, 63) ∧
    (let s := { testQuay (v { q with pending := 1, oldestPending := some 0, creditTime := 2 }) with clock := { ps := 2000000 } };
      (sqOf s 0 15).oldestPending = some 0 ∧ 0 + (sqOf s 0 15).creditTime * 1000 ≤ nowNs s ∧ (sqOf s 0 15).exist = true ∧ (sqOf s 0 15).pending ≠ 0 ∧
      (sqOf s 0 15).inTransit = 0 ∧ (tenantOf s 0).state ≠ .squashed) := by decide +kernel

theorem witness_QueuesMoveOn_heads :
    let s := { testQuay testTenant with pfEqs := [(31, { exist := true, sizeLog2 := 4, tail := 15 })] };
    (awake s = true ∧ (portOf s .a).link = true ∧ (portOf s .a).dstate = .d0 ∧ (getEq s (.pf .a 31)).exist = true ∧
      (15 : BitVec 32).toNat < eqSize (getEq s (.pf .a 31)) ∧
      ((15 : BitVec 32).toNat + 16 - (getEq s (.pf .a 31)).head) % 16 ≤ ((getEq s (.pf .a 31)).tail + 16 - (getEq s (.pf .a 31)).head) % 16 ∧
      (15 : BitVec 32).toNat = (getEq s (.pf .a 31)).tail) ∧
    (tenantListens s 0 = true ∧ (tget {} (tenantOf s 0).pools 63).exist = true ∧ (15 : BitVec 32).toNat < 2 ^ (tget {} (tenantOf s 0).pools 63).sizeLog2) ∧
    (consOf s 1 = some {} ∧ ({} : Cons).recordStored = false) := by decide +kernel

/-- A free thread takes the ready consignment; reads complete, a group is sent and an end is reported. -/
theorem witness_ConsignmentsRun :
    (let s := testRun {};
      canTake s 0 = true ∧ pickReady s 0 = some (1, {})) ∧
    (let c : Cons := { phase := .source, reading := true };
      let s := { testQuay testTenant with cons := [(1, c)] };
      consOf s 1 = some c ∧ c.reading = true ∧ c.state = .accepted ∧ pathUp s c.tenant = true) ∧
    (let c : Cons := { phase := .onThread 0, groupSent := true, group := [(0, 1)] };
      let s := { testRun { testThread with run := .commit 4 } with cons := [(1, c)] };
      consOf s 1 = some c ∧ c.groupSent = true ∧ (basinOf s (stackOf s c.part)).hbmReadable = true ∧ committing s 1 = some 0) ∧
    (∀ b ∈ [true, false], let r : EndReport := { committed := b, status := 0x0603, value := 0, resultLen := 0 };
      let c : Cons := { phase := .ended, report := some r, finalRec := some (0, 0) };
      let s := { testUp with cons := [(1, c)] };
      consOf s 1 = some c ∧ c.state = .accepted ∧ c.phase = .ended ∧ c.scuttling = false ∧ c.report = some r ∧ r.committed = b ∧ c.finalRec.isSome = true) := by
  decide +kernel

theorem witness_LevelsDeadlinesAndReplay :
    (let s := { testUp with basins := [(0, { inService := true }), (1, { inService := true })], ledgers := [(0, { recs := [{}] })] };
      (mirrorOf s 0).isSome = true ∧ (ledgerOf s 0).mirrorAck < min 1 (nextRec (ledgerOf s 0))) ∧
    (let l : Ledger := { batchAt := some 0, batch := List.range 32 };
      l.batchAt = some 0 ∧ 32 ≤ l.batch.length) ∧
    (let s := { testUp with clock := { ps := 500000 }, ledgers := [(3, { batchAt := some 0, batch := [0] })] };
      (ledgerOf s 3).batchAt = some 0 ∧ 0 + 500 ≤ nowNs s) ∧
    (let h : HostBatch := { recs := [0], port := .a, xlatRetry := true };
      let s := { testQuay testTenant with ledgers := [(0, { flushing := [h] })] };
      (ledgerOf s 0).flushing = h :: [] ∧ pf0Ok s h.port = true ∧ h.xlatRetry = true) := by decide +kernel

/-- A deadline at the present moment, of a running and of a ready consignment; the end of the grace; a replay with an attempt left
and with none. -/
theorem witness_LevelsDeadlinesAndReplay_ends :
    (∀ p ∈ [Phase.onThread 0, .ready], let c : Cons := { phase := p, deadlineAt := some 7 };
      let s := { testRun testThread with cons := [(1, c)], clock := { ps := 7 } };
      consOf s 1 = some c ∧ c.deadlineAt = some 7 ∧ 7 ≤ s.clock.ps ∧ c.expired = false ∧ c.state = .accepted ∧ c.phase = p) ∧
    (let s := testRun { testThread with graceAt := some 0 };
      (thr s 0).graceAt = some 0 ∧ 0 ≤ nowNs s ∧ (thr s 0).ended = .no ∧ (thr s 0).seq ≠ 0 ∧ (thr s 0).run = .active ∧ consOf s (thr s 0).seq = some {}) ∧
    (∀ n ∈ [2, 3], let c : Cons := { state := .replaying, attempt := n };
      let s := { testUp with cons := [(1, c)] };
      consOf s 1 = some c ∧ c.state = .replaying ∧ (basinOf s (stackOf s c.part)).hbmReadable = true ∧ (partOf s c.part).stranded = false ∧ c.groupSent = false ∧
      c.entry = true ∧ newestRec (ledgerOf s (stackOf s c.part)) 1 = none ∧ (if n = 3 then s.cfg.replayMax ≤ c.attempt else c.attempt < s.cfg.replayMax)) := by
  decide +kernel

theorem witness_PathsTidesAndPartitions :
    (let s := { testQuay testTenant with helm := { holder := some .a } };
      (portOf s .a).link = true ∧ s.helm.holder = some .a) ∧
    (let s := { testUp with ports := [(1, { perst := false })], islands := [(islPort .b, { state := 3 })] };
      (portOf s .b).link = false ∧ (portOf s .b).perst = false ∧ (islandOf s (islPort .b)).state = 3 ∧ s.dev.pwrCore = true) ∧
    (let s := testUp;
      s.dev.pwrCore = true ∧ (islandOf s (islHalf .a)).reset = false ∧ consOf s 1 = some {} ∧ ({} : Cons).entry = true ∧ ({} : Cons).half = .a ∧ ({} : Cons).phase = .ready) ∧
    (let s := { testUp with tenants := [(1023, { testTenant with pathDownAt := some 0, pathLive := false })], clock := { ps := 50000000 } };
      (tenantOf s 1023).pathDownAt = some 0 ∧ 0 + 50000 ≤ nowNs s ∧ pathUp s 1023 = false ∧ (∀ e ∈ s.cons, e.2.reading = false) ∧ s.threads = []) ∧
    (let x : Tide := { num := 1 };
      let s := { testUp with clock := { ps := 100000000 }, tides := { cur := some x } };
      s.tides.cur = some x ∧ x.since + s.cfg.tidePeriodUs * 1000 ≤ nowNs s) ∧
    (let x : Tide := { num := 1, count := 65536 };
      testUp.cfg.tideMax ≤ x.count) := by decide +kernel

theorem witness_PathsTidesAndPartitions_seals :
    (∀ n ∈ [0, 3], let x : Tide := { num := 1, seals := (List.range n).map (fun b => (b, (0, []))) };
      let s := { testUp with tides := { closing := [x] } };
      s.tides.closing = x :: [] ∧ (n = 0 → (mset x.seals 3 (sealOf s 3 x.num)).length < 4) ∧ (n = 3 → (mset x.seals 3 (sealOf s 3 x.num)).length = 4) ∧ s.cfg.autoTrim = 0) ∧
    (let x : Tide := { num := 1 };
      let s := { testUp with tides := { closed := [x] }, otp := { lifecycle := 2 } };
      s.tides.closed = x :: [] ∧ s.dev.st ≠ .halted ∧ s.otp.lifecycle ≠ 3 ∧
      (s.sroom.openRecs ++ s.sroom.pages.flatten).any (fun r => decide (r = .epoch s.epoch)) = false ∧ (islandOf s islStrongroom).reset = false) ∧
    (let s := { testUp with parts := [(0, { home := some 0, next := some (some 1) }), (4095, { home := some 3, next := some none })], cons := [] };
      (partOf s 4095).next = some none ∧ (∀ e ∈ s.cons, e.2.part ≠ 4095) ∧ (partOf s 4095).home = some 3 ∧ (basinOf s 3).holds = [] ∧
      ∃ e ∈ s.parts, e.1 ≠ 4095 ∧ e.2.next.isSome = true) := by decide +kernel

theorem crc_of_testSlip : descCheck (parseDesc testSlip) = (parseDesc testSlip).check := by decide +kernel

/-! Floating point. -/

/-- Every rounding mode's ends, and a trap that is enabled and raised by 0 / 0. -/
theorem witness_FloatsThatRound :
    ready (testAt { fcsr := 0x001000 }) 0 ∧ ((0x001000 : Word).extractLsb' 10 3).toNat < 5 ∧ ready (testAt { fcsr := 0x001400 }) 0 ∧ 5 ≤ ((0x001400 : Word).extractLsb' 10 3).toNat ∧
    ready (testAt { fcsr := 0x0003E0 }) 0 ∧
    (let r := regsOf (testAt { fcsr := 0x0003E0 }) 0;
      let x := fRead f64 false (rdF r 0).toNat;
      r.fcsr.extractLsb' 5 5 &&& BitVec.ofNat 5 (fDiv f64 0 false x x).2 ≠ 0 ∧ r.fcsr.extractLsb' 5 5 &&& BitVec.ofNat 5 (fAdd f64 0 false x x).2 = 0) := by
  refine ⟨⟨rfl, rfl⟩, ?_, ⟨rfl, rfl⟩, ?_, ⟨rfl, rfl⟩, ?_⟩ <;> decide +kernel

/-- A compare of a NaN with its trap enabled, and of zeros. -/
theorem witness_FloatsThatDoNotRound :
    ready (testAt { fcsr := 0x0003E0, f := Vector.replicate 32 0x7FF0000000000001 }) 0 ∧
    (let r := regsOf (testAt { fcsr := 0x0003E0, f := Vector.replicate 32 0x7FF0000000000001 }) 0;
      let x := fRead f64 false (rdF r 31).toNat;
      r.fcsr.extractLsb' 5 5 &&& BitVec.ofNat 5 (fCompare 1 x x).2 ≠ 0 ∧
      r.fcsr.extractLsb' 5 5 &&& BitVec.ofNat 5 (fCompare 1 (fRead f64 false 0) (fRead f64 false 0)).2 = 0) := by
  refine ⟨⟨rfl, rfl⟩, ?_⟩; decide +kernel

/-- Ties, and the least and the greatest finite values of binary32. -/
theorem witness_RoundingModes : ((-1 : Int) ≤ -1 ∧ (-1 : Int) ≤ 0) ∧ (1 < 2 * fSign f32 ∧ fRead f32 false 1 = .fin false 1 (-149)) ∧
    (0xFF7FFFFF < 2 * fSign f32 ∧ ∃ m e, fRead f32 false 0xFF7FFFFF = .fin true m e) :=
  ⟨by decide, ⟨by decide, rfl⟩, by decide, _, _, rfl⟩

/-! Coprocessors, engines and the Strongroom. -/

/-- The block of a submit at the start of the mapping. -/
def testBlock (b : List Byte) : State := { testAt {} with mem := { hbm := writeBytes [] 0 b } }
/-- A submit whose rCA is 0 finds its block of 16 bytes, which its checks turn down or pass. -/
theorem witness_CoprocessorSubmits_block : ∀ b ∈ [zeros 16, [4] ++ zeros 15],
    ((match translate (fetched (testBlock b) 0) 0 .load 0 16 with
      | .ok bl => (bl.map (seenByte (fetched (testBlock b) 0) 0) == b) && (match wrapPrep b with
        | .ok _ => b == zeros 16
        | .error _ => b != zeros 16)
      | .error _ => false) : Bool) = true := by decide +kernel

/-- The checks of a block pass, and its ranges can be accessed and touch no ledgered line. -/
def testSubmits (b : List Byte) (prep : List Byte → Except Word (List DataRange)) : Bool :=
  match prep b with
  | .ok rs => (match gatherLocs (fetched (testAt {}) 0) 0 rs with
    | .ok all => (linesOf (all.flatMap (·.2))).isEmpty
    | .error _ => false)
  | .error _ => false
/-- The checks of a block turn it down. -/
def testTurnsDown (b : List Byte) (prep : List Byte → Except Word (List DataRange)) : Bool :=
  match prep b with
  | .ok _ => false
  | .error _ => true

theorem witness_CoprocessorSubmits :
    ready (testBlock []) 0 ∧ (thr (testBlock []) 0).ended = .no ∧ (thr (testBlock []) 0).cp.get 0 = .idle ∧ (rd (regsOf (testBlock []) 0) 31).toNat % 8 = 0 ∧
    ready (testAt (testAll 7)) 0 ∧ (rd (regsOf (testAt (testAll 7)) 0) 31).toNat % 8 ≠ 0 ∧ ready (testRun { testThread with ended := .aborted }) 0 ∧
    (thr (testRun { testThread with ended := .aborted }) 0).ended ≠ .no ∧ (thr (testRun { testThread with cp := Vector.replicate 3 (.posted 0) }) 0).cp.get 2 ≠ .idle := by
  refine ⟨⟨rfl, rfl⟩, ?_, ?_, ?_, ⟨rfl, rfl⟩, ?_, ⟨rfl, rfl⟩, ?_, ?_⟩ <;> decide +kernel

theorem witness_CoprocessorSubmits_tally : (∀ n ∈ [0, 1, 2, 3], testSubmits (zeros 48) (tallyPrep n) = true ∧ testTurnsDown ([9, 9, 9] ++ zeros 45) (tallyPrep n) = true) := by
  decide +kernel
theorem witness_CoprocessorSubmits_keys :
    testSubmits (zeros 112) derivePrep = true ∧ testSubmits ([1] ++ zeros 39) dukptPrep = true ∧ testSubmits (zeros 8) loadPrep = true ∧
    testSubmits ([0, 0, 0, 2] ++ zeros 12) unwrapPrep = true ∧ testSubmits (zeros 16) wrapPrep = true ∧
    testTurnsDown ([4] ++ zeros 111) derivePrep = true ∧ testTurnsDown (zeros 40) dukptPrep = true ∧ testTurnsDown ([4] ++ zeros 7) loadPrep = true ∧
    testTurnsDown (zeros 16) unwrapPrep = true ∧ testTurnsDown ([4] ++ zeros 15) wrapPrep = true := by decide +kernel
theorem witness_CoprocessorSubmits_ciphers :
    testSubmits (zeros 36 ++ [8] ++ zeros 27) encryptPrep = true ∧ testSubmits (zeros 36 ++ [16] ++ zeros 27) decryptPrep = true ∧
    testSubmits ([0, 0, 4] ++ zeros 61) (macPrep true) = true ∧ testSubmits ([0, 0, 16, 0] ++ zeros 32 ++ [16] ++ zeros 27) (macPrep false) = true ∧
    testSubmits ([0, 0, 0, 0, 8] ++ zeros 59) pinPrep = true ∧ testSubmits ([0, 0, 0, 0, 1] ++ zeros 31 ++ [12] ++ zeros 27) emvPrep = true ∧
    testTurnsDown (zeros 64) encryptPrep = true ∧ testTurnsDown (zeros 64) decryptPrep = true ∧ testTurnsDown ([0, 0, 3] ++ zeros 61) (macPrep true) = true ∧
    testTurnsDown (zeros 64) (macPrep false) = true ∧ testTurnsDown (zeros 64) pinPrep = true ∧ testTurnsDown (zeros 64) emvPrep = true := by decide +kernel
theorem witness_CoprocessorSubmits_hashes :
    testSubmits (zeros 32) (hashPrep false) = true ∧ testSubmits ([3, 3] ++ zeros 30) (hashPrep true) = true ∧ testTurnsDown ([1] ++ zeros 31) (hashPrep false) = true ∧
    testTurnsDown ([4] ++ zeros 31) (hashPrep true) = true := by decide +kernel

/-- The slots of SLOT_CLEAR and SLOT_INFO, full and empty. -/
theorem witness_CoprocessorSubmits_slots : (slotOf (testAt {}) 0 3).full = false ∧
    (slotOf (testRun { testThread with keySlots := Vector.replicate 4 { full := true } }) 0 3).full = true ∧
    ready (testRun { testThread with keySlots := Vector.replicate 4 { full := true } }) 0 := by
  refine ⟨?_, ?_, ⟨rfl, rfl⟩⟩ <;> decide +kernel

/-- The block of a COMPRESS without data for CP3. -/
def testJobBlock : List Byte := [0x10, 0xF0, 0, 0, 0xFF, 0xFF, 0xFF, 0xFF] ++ zeros 40

/-- A block that CP3 takes and one that it turns down; the first 16 bytes of a block are read back from the mapping above. -/
theorem witness_JobsOfThreads :
    ((match jobBlock testJobBlock with
      | .ok j => testSubmits testJobBlock (fun b => .ok [{ va := fieldLe b 8 8, len := j.srcLen }, { write := true, va := j.dst, len := j.dstLen }])
      | .error _ => false) : Bool) = true ∧
    ((match jobBlock (zeros 48) with
      | .ok _ => false
      | .error st => decide (st < 65536)) : Bool) = true ∧
    (mboxState (fetched (testBlock testJobBlock) 0) 0 0 = 0 ∧
      (let u := fetched { testAt {} with mem := { near := [(0, (List.range 7).map (fun i => (0x80 + 16 * i, 1)))] } } 0;
        (∀ k < 7, ¬ (mboxState u 0 k = 0 ∨ mboxState u 0 k = 3)) ∧ mboxState u 0 7 = 0) ∧
      (let u := fetched { testAt {} with mem := { near := [(0, (List.range 8).map (fun i => (0x80 + 16 * i, 1)))] } } 0;
        ∀ k < 8, ¬ (mboxState u 0 k = 0 ∨ mboxState u 0 k = 3))) := by
  refine ⟨?_, ?_, ?_, ?_, ?_⟩ <;> decide +kernel

theorem witness_JobsOfThreads_ready : ready (testBlock testJobBlock) 0 ∧ (thr (testBlock testJobBlock) 0).ended = .no := ⟨⟨rfl, rfl⟩, rfl⟩

theorem witness_JobsOfThreads_posted :
    (let j : Job := { th := some 0, finished := true, status := 0x0304, mbox := 7 };
      let s := { testRun testThread with jobs := [(9, j)] };
      jobOf s 9 = some j ∧ j.th = some 0 ∧ j.finished = true ∧ j.cancelled = false ∧ j.status ≠ 0 ∧ j.mbox < 8 ∧ (thr s 0).run = .active) ∧
    (let s := { testRun testThread with piers := [(0, { testPier with cpq := Vector.replicate 3 [63] })] };
      (pierOf s 0).cpq.get 2 = 63 :: [] ∧ 63 < 64 ∧ running s = true ∧ (basinOf s (0 / 4)).checkstopped = false) := by decide +kernel

/-- A built-in's consignment that has reached its engine, with its source and its key. -/
def testBuiltin (fn : Nat) (src : List Byte) (keyA : BitVec 32) : Cons :=
  { desc := { handler := BitVec.ofNat 16 fn, keyA := keyA, keyB := if fn = 0xF040 then keyA else 0xFFFFFFFF, dstLen := 1024 }, phase := .builtin, source := some src }
def testKeyed (k : KAttr) (isPublic : Bool) (fn : Nat) (src : List Byte) (keyA : BitVec 32) : State :=
  { testUp with cons := [(1, testBuiltin fn src keyA)], sroom := { keys := [(1, { attr := k, live := true, isPublic := isPublic })] } }
/-- What the checks of a built-in make of it: 0 BAD_HANDLER, 1 LENGTH_LIMIT, 2 another refusal, 3 its job begins. -/
def testChecks (s : State) : Option Nat :=
  (consOf s 1).map (fun c =>
    let full := c.source.getD []
    let b := parseBlock full
    let fn := c.desc.handler.toNat
    if c.phase ≠ .builtin ∨ c.state ≠ .accepted ∨ c.expired ∨ fDock c.desc ∨ running s = false then 9
    else if blockOk fn c.desc.keyA.toNat full = false then 0
    else if lengthsOk fn b.variant b.auxLen b.aux (full.drop 16).length = false then 1
    else if (jobRefusal s {
        seq := 1, attempt := c.attempt, tenant := c.tenant, fn := fn, variant := b.variant, keyA := c.desc.keyA.toNat, keyB := c.desc.keyB.toNat,
        auxLen := b.auxLen, aux := b.aux, src := full.drop 16, srcLen := (full.drop 16).length, dst := c.desc.dstAddr.toNat, dstLen := c.desc.dstLen.toNat }).isSome then 2
    else 3)

/-- A parameter block with its variant, AUX_LEN and AUX. -/
def testParams (v auxLen aux : Nat) : List Byte := toLe 4 v ++ toLe 4 auxLen ++ toLe 8 aux

theorem witness_BuiltinsRun_checks : ∀ fn ∈ [0xF001, 0xF002, 0xF010, 0xF011, 0xF020, 0xF021, 0xF030, 0xF040, 0xF041, 0xF042],
    testChecks (testKeyed {} false fn (testParams 9 0 0) 1) = some 0 := by decide +kernel
theorem witness_BuiltinsRun_lengths :
    testChecks (testKeyed {} false 0xF001 (testParams 0 1 0) 1) = some 1 ∧ testChecks (testKeyed {} false 0xF002 (testParams 0 0 0 ++ zeros 27) 1) = some 1 ∧
    testChecks (testKeyed {} false 0xF020 (testParams 0 1 0) 1) = some 1 ∧ testChecks (testKeyed {} false 0xF021 (testParams 0 0 1) 1) = some 1 ∧
    testChecks (testKeyed {} false 0xF040 (testParams 0 0 0 ++ zeros 9) 1) = some 1 ∧ testChecks (testKeyed {} false 0xF041 (testParams 0 0 3) 1) = some 1 ∧
    testChecks (testKeyed {} false 0xF042 (testParams 0 0 4 ++ zeros 3) 1) = some 1 := by decide +kernel
theorem witness_BuiltinsRun_refusals :
    testChecks (testKeyed {} false 0xF001 (testParams 0 0 0) 1) = some 2 ∧ testChecks (testKeyed {} false 0xF002 (testParams 0 0 0 ++ zeros 28) 1) = some 2 ∧
    testChecks (testKeyed {} false 0xF020 (testParams 0 0 0) 1) = some 2 ∧ testChecks (testKeyed {} false 0xF021 (testParams 0 0 0) 1) = some 2 ∧
    testChecks (testKeyed {} false 0xF030 (testParams 1 0 0) 1) = some 2 ∧ testChecks (testKeyed {} false 0xF040 (testParams 0 0 0 ++ zeros 8) 1) = some 2 ∧
    testChecks (testKeyed {} false 0xF041 (testParams 0 0 4) 1) = some 2 ∧ testChecks (testKeyed {} false 0xF042 (testParams 0 0 4 ++ zeros 4) 1) = some 2 := by decide +kernel
theorem witness_BuiltinsRun_begin :
    testChecks (testKeyed { usage := usD0, mode := chB, alg := chA, bits := 128 } false 0xF001 (testParams 0 0 0) 1) = some 3 ∧
    testChecks (testKeyed { usage := usD0, mode := chB, alg := chA, bits := 128 } false 0xF002 (testParams 0 0 0 ++ zeros 28) 1) = some 3 ∧
    testChecks (testKeyed {} false 0xF010 (testParams 0 0 0) 0xFFFFFFFF) = some 3 ∧ testChecks (testKeyed {} false 0xF011 (testParams 0 0 0) 0xFFFFFFFF) = some 3 ∧
    testChecks (testKeyed { usage := usS0, mode := chS, alg := chE, curve := 1 } false 0xF020 (testParams 0 0 0) 1) = some 3 ∧
    testChecks (testKeyed { usage := usS0, mode := chV, alg := chE, curve := 1 } true 0xF021 (testParams 0 0 0) 1) = some 3 ∧
    testChecks (testKeyed {} false 0xF030 (testParams 0 0 0) 0xFFFFFFFF) = some 3 ∧
    testChecks (testKeyed { usage := usP0, mode := chB, alg := chT, bits := 192 } false 0xF040 (testParams 0 0 0 ++ zeros 8) 1) = some 3 ∧
    testChecks (testKeyed { usage := usM6, mode := chC, alg := chA, bits := 128 } false 0xF041 (testParams 0 0 4) 1) = some 3 ∧
    testChecks (testKeyed { usage := usM6, mode := chC, alg := chA, bits := 128 } false 0xF042 (testParams 0 0 4 ++ zeros 4) 1) = some 3 := by decide +kernel

/-- ECHO into a destination it just fits, PROOF of a record that is absent, unsigned or in a signed tide, and the end of a job with a status. -/
theorem witness_BuiltinsRun_others :
    (let c := { testBuiltin 0xF060 (zeros 1024) 0xFFFFFFFF with state := .accepted };
      c.phase = .builtin ∧ c.desc.handler.toNat = 0xF060 ∧ c.expired = false ∧ (c.source.getD []).length ≤ c.desc.dstLen.toNat) ∧
    (blockOk 0xF050 0xFFFFFFFF (testParams 0 0 5) = true ∧ proofOf testUp (some 0) 5 = .absent ∧
      proofOf { testUp with ledgers := [(0, { recs := [{ seq := 5, tide := 2, state := 3 }] })], tides := { cur := some { num := 2 } } } (some 0) 5 = .wait 2 ∧
      (match proofOf { testUp with ledgers := [(0, { recs := [{ seq := 5, tide := 2, state := 3 }] })], tides := { log := [(2, zeros 4 ++ [1] ++ zeros 347)] } } (some 0) 5 with
        | .proof t bs => decide (t = 2 ∧ bs.length ≤ 65536)
        | _ => false) = true) ∧
    (let j : Job := { finished := true, status := 0x0303, seq := 1 };
      let c : Cons := { phase := .job 4 };
      let s := { testUp with cons := [(1, c)], jobs := [(4, j)] };
      jobOf s 4 = some j ∧ j.finished = true ∧ j.th = none ∧ j.seq = 1 ∧ consOf s 1 = some c ∧ c.state = .accepted ∧ c.phase = .job 4 ∧ j.status ≠ 0) := by
  refine ⟨?_, ⟨?_, ?_, ?_, ?_⟩, ?_⟩ <;> decide +kernel

/-- The last quantum of a lane job, the last step of a Derrick's and the last block of a compression; a scuttle. -/
theorem witness_EnginesFinishJobs :
    (let j : Job := { fn := 0xF001, keyA := 1, src := zeros 3, progress := 0, value := 1, stage := .running 15, seq := 1, result := zeros 31 };
      let s := { testQuay testTenant with islands := [(islLane 15, { state := 3 })], jobs := [(4, j)] };
      jobOf s 4 = some j ∧ s.dev.st ≠ .halted ∧ j.cancelled = false ∧ unitUp s (islLane 15) = true ∧ (jobsAt s .lane (.running 15)).head? = some (4, j) ∧ j.th = none ∧
      pathState s j.tenant = 0 ∧ j.src.length ≤ j.progress + 16384 ∧ j.value = 1 ∧
      (jobWrite s j j.written ((j.result.drop j.written).take (j.result.length - j.written))).2 = 0) ∧
    (let j : Job := { fn := 0xF020, keyA := 1, stage := .running 31, seq := 1 };
      let s := { testQuay testTenant with islands := [(islDerrick 31, { state := 3 })], jobs := [(4, j)] };
      jobOf s 4 = some j ∧ unitUp s (islDerrick 31) = true ∧ (jobsAt s .derrick (.running 31)).head? = some (4, j) ∧ derrickSteps s j ≤ j.progress + 1) ∧
    (let j : Job := { fn := 0xF010, stage := .running 7, src := zeros 9, seq := 1 };
      let s := { testQuay testTenant with islands := [(islStowage 7, { state := 3 })], jobs := [(4, j)] };
      jobOf s 4 = some j ∧ unitUp s (islStowage 7) = true ∧ (jobsAt s .stowage (.running 7)).head? = some (4, j) ∧ stowageBlocks j ≤ j.progress + 1 ∧ j.fn = 0xF010) ∧
    (let j : Job := { fn := 0xF002, stage := .scuttle, seq := 1, status := 0x0303 };
      let s := { testQuay testTenant with jobs := [(4, j)] };
      jobOf s 4 = some j ∧ j.cancelled = false ∧ j.stage = .scuttle ∧ j.value = 0 ∧ dmaDiscarded s j.tenant = false ∧ (tenantOf s j.tenant).state = .running) := by
  decide +kernel

/-- A thread whose key request is in the Strongroom, for which a key is asked. -/
def testAsks (b : List Byte) : State :=
  { testRun { testThread with cp := Vector.replicate 3 (.queued 2 0 b []) } with islands := [(islPair 0, { state := 3 }), (islStrongroom, { state := 3 })] }
def testReq (b : List Byte) : SReq := { kind := .cp1 0 2 b [], seq := 1 }

/-- KEY_LOAD of handle 1: it is absent, it is resident, and it must be loaded from the host. -/
theorem witness_StrongroomWorks_requests :
    let b : List Byte := zeros 4 ++ [1, 0, 0, 0];
    let k : Key := { attr := { usage := usD0, mode := chB, alg := chA, bits := 128, capLog2 := 32 }, live := true };
    let s (ks : Table Key) : State := { testAsks b with sroom := { queue := [testReq b], keys := ks } };
    (∀ ks ∈ [[], [(1, k)], [(1, { k with resident := false })]], (s ks).sroom.queue = testReq b :: [] ∧ sroomUp (s ks) = true ∧ (s ks).sroom.runs.length < 64 ∧
      reqCurrent { s ks with sroom := { (s ks).sroom with queue := [] } } (testReq b) = true) ∧
    (match (serve { s [] with sroom := { (s []).sroom with queue := [] } } (testReq b)).2 with
      | .fail _ => true
      | _ => false) = true ∧
    (match (serve { s [(1, k)] with sroom := { (s [(1, k)]).sroom with queue := [] } } (testReq b)).2 with
      | .ok _ => true
      | _ => false) = true := by decide +kernel

theorem witness_StrongroomWorks_waits :
    let b : List Byte := [0, 1] ++ zeros 2 ++ [1, 0, 0, 0];
    let k : Key := { attr := { usage := usD0, mode := chB, alg := chA, bits := 128, capLog2 := 32 }, live := true };
    let s : State := { testAsks b with sroom := { keys := [(1, k)] } };
    (match (serve s (testReq b)).2 with
      | .wait _ => true
      | _ => false) = true := by decide +kernel

theorem witness_StrongroomWorks_delivery :
    let x : SRun := { req := testReq [], slots := [(3, { full := true })] };
    let s : State := { testAsks [] with sroom := { runs := [(1, x)] } };
    mget s.sroom.runs 1 = some x ∧ sroomUp s = true ∧ x.req.kind = .cp1 0 2 [] [] ∧ reqCurrent s x.req = true ∧ x.out = none ∧ x.slots = [(3, { full := true })] ∧
    (thr s 0).run = .active := by decide +kernel

theorem witness_StrongroomWorks_keys :
    (let s : State := { testAsks [] with sroom := { keys := [(1, { resident := false, live := true })], parked := [{ testReq [] with wait := .load 1 }], base := some 0 } };
      mget s.sroom.keys (1 : BitVec 32).toNat = some { resident := false, live := true } ∧ sroomUp s = true ∧
      (∃ r ∈ s.sroom.parked, r.wait = .load (1 : BitVec 32).toNat) ∧ s.sroom.base.isSome = true) ∧
    (let w : StoreWrite := { port := .a };
      let s : State := { testQuay testTenant with sroom := { keys := [(1, { store := some w })] } };
      mget s.sroom.keys (1 : BitVec 32).toNat = some { store := some w } ∧ pf0Ok s w.port = true) := by decide +kernel

theorem witness_StrongroomWorks_journal :
    (let s : State := { testAsks [] with sroom := { openRecs := List.replicate 128 (.dcSeq 1), openAt := 5 } };
      sroomUp s = true ∧ s.sroom.openRecs ≠ [] ∧ 128 ≤ s.sroom.openRecs.length) ∧
    (let s : State := { testAsks [] with sroom := { openRecs := [.dcSeq 1] }, clock := { ps := 200000000 } };
      sroomUp s = true ∧ s.sroom.openRecs ≠ [] ∧ s.sroom.openAt + 200000 ≤ nowNs s) ∧
    (let s : State := { testAsks [] with sroom := { pages := [[.dcSeq 1]] } };
      sroomUp s = true ∧ s.sroom.pages = [.dcSeq 1] :: []) ∧
    (let c : Comps := { target := 1, count := 2 };
      let s : State := { testUp with sroom := { comps := some c }, clock := { ps := 600000000000000 } };
      s.sroom.comps = some c ∧ c.since + 600000000000 ≤ nowNs s) ∧
    (redrivable { testQuay { testTenant with ports := 3 } with ports := [(0, testPort), (1, testPort)], vfs := [(0, { bme := true }), (1024, { bme := true })] } 0 = true ∧
      redrivable (testQuay testTenant) 0 = false) := by decide +kernel

/-! Threads and berths. -/

theorem witness_ParkedThreadsAndSignals :
    (∀ y ∈ [WaitWhy.hold 1 2, .restart 1 2, .adoption 0, .island 7], let w : Wait := { why := y, op := none };
      let s := { testRun { testThread with run := .hold, wait := some w } with islands := [(islPair 0, { state := 3 }), (7, { state := 3 })] };
      (thr s 0).wait = some w ∧ running s = true ∧ (basinOf s 0).checkstopped = false ∧ consOf s (thr s 0).seq = some {} ∧ holdEnded s 0 1 2 = true ∧
      (islandOf s 7).state = 3 ∧ (islandOf s 7).reset = false) ∧
    (let s := testRun { testThread with sigEv := 3 };
      takesSignal s 0 = true ∧ signalAbove (thr s 0) (prio (thr s 0).arch) = some (3, 0, 3)) ∧
    (takesSignal (testRun testThread) 0 = true ∧ signalAbove (thr (testRun testThread) 0) (prio (thr (testRun testThread) 0).arch) = none) := by decide +kernel

theorem witness_ParkedThreadsAndSignals_entry : ∃ b g, (thr (testRun { testThread with sigEv := 1 }) 0).entering = none ∧
    enter (testRun { testThread with sigEv := 1 }) 0 {} 0 3 0 (BitVec.ofNat 24 1) (BitVec.ofNat 24 0) = some (b, g) := ⟨_, _, rfl, rfl⟩

/-- A pier with its first berth as given. -/
def testBerth (v : Position) (n : Pair18) : State :=
  { testUp with piers := [(0, { pos := (Vector.replicate 16 ({} : Position)).set 0 { v with pair := some 0 }, pairs := (Vector.replicate 18 ({} : Pair18)).set 0 n })] }

theorem witness_BerthsRecover_events :
    (∀ e ∈ [some 1, some 2], let s := testBerth { event := e } { use := .busy };
      running s = true ∧ posOfPair s 0 = some 0 ∧ (posAt s 0 0).selfTest = false ∧ basinUp s 0 = true ∧ (posAt s 0 0).split = false ∧ (posAt s 0 0).event = e) ∧
    (let s := testBerth { selfTest := true } { use := .busy, passes := [0] };
      running s = true ∧ posOfPair s 0 = some 0 ∧ (posAt s 0 0).selfTest = true ∧ (posAt s 0 0).handover = none ∧
      ((pairAt s 0 0).passes.filter (fun t => nowNs s < t + 3600000000000)).length < 2 ∧ (1 : BitVec 8) ≠ 0 ∧ lowestSpare s 0 = some 1) := by decide +kernel

theorem witness_BerthsRecover_handover :
    (let s := testBerth { handover := some (0, 5) } { use := .busy };
      running s = true ∧ basinUp s 0 = true ∧ nextHandover s 0 = some 0 ∧ (posAt s 0 0).handover = some (0, 5) ∧ (posAt s 0 0).pair = some 0 ∧
      (pairAt s 0 0).use ≠ .spare ∧ lowestSpare s 0 = some 1) ∧
    (∀ v ∈ [({ retiring := some .a } : Position), { reconf := some (true, .a) }, { reconf := some (false, .b) }], let s := testBerth v { use := .busy };
      running s = true ∧ basinUp s 0 = true ∧ posOfPair s 0 = some 0 ∧ (∀ x ∈ threadsAt 0 0, (thr s x).run = .free) ∧ (posAt s 0 0).handover = none ∧
      (posAt s 0 0).selfTest = false ∧ (posAt s 0 0).retiring = v.retiring ∧ (posAt s 0 0).reconf = v.reconf) ∧
    (let s := { testBerth {} {} with clock := { ps := 86400000000000000 } };
      running s = true ∧ (pairAt s 0 17).use = .spare ∧ (pairAt s 0 17).tested + 86400000000000 ≤ nowNs s) := by decide +kernel

/-! Coherence of a basin. -/

/-- Basin 0 with line 0 in the directory as given, the ways of pier 3's L2 at its index holding it in a state, and some messages. -/
def testCoh (d : Dir) (st : LState) (msgs : List CohMsg) (reqs : List CohReq) : State :=
  { testUp with coh := [(0, { dir := [(0, d)], msgs := msgs, reqs := reqs })], pcache := [(3, { l2 := [(0, { state := st, line := 0, data := 7 })] })] }

theorem witness_CoherenceRequests :
    (∀ d ∈ [({ state := .bF } : Dir), {}, { state := .ds, sharers := [0, 1] }, { state := .de, owner := 1 }, { state := .dO, owner := 1, sharers := [0] }],
      let s := testCoh d .i [] [];
      mayRequest s 0 3 0 63 = true ∧ l2Held s 3 0 = none ∧ dirOf s 0 0 = d ∧ d.reserve = [] ∧ d.sharers.filter (· != 3) = d.sharers ∧ d.owner ≠ 3) ∧
    dirStable { state := .bF } = false ∧
    (∀ d ∈ [({ state := .ds, sharers := [3] } : Dir), { state := .ds, sharers := [0, 3] }], let s := testCoh d .s [] [];
      mayRequest s 0 3 0 0 = true ∧ wayState s 0 3 0 = .s ∧ (dirOf s 0 0).reserve = [] ∧ (dirOf s 0 0).state = .ds ∧ 3 ∈ (dirOf s 0 0).sharers) := by decide +kernel

theorem witness_CoherenceRequests_puts :
    (∀ x ∈ [(LState.m, ({ state := .de, owner := 3 } : Dir)), (.o, { state := .dO, owner := 3, sharers := [0] }), (.e, { state := .de, owner := 3 }), (.s, { state := .ds, sharers := [3] })],
      let s := testCoh x.2 x.1 [] [];
      cohRuns s 0 = true ∧ (dirOf s 0 0).oweFwd = [] ∧ dirStable (dirOf s 0 0) = true ∧ wayState s 0 3 0 = x.1 ∧ (pcOf s 3).l2En = true ∧
      (∀ e ∈ (pcOf s 3).evict, e.line ≠ 0) ∧ dirLists (dirOf s 0 0) 3 x.1 = true ∧ (∀ r ∈ (cohOf s 0).reqs, ¬ (r.agent = 3 ∧ r.line = 0))) ∧
    (∀ d ∈ [({ state := .ds, sharers := [0, 3] } : Dir), { sharers := [] }], let s := { testCoh d .i [] [] with coh := [(0, { dir := [(0, d)], l3 := [(0, { state := .e })] })] };
      cohRuns s 0 = true ∧ (dirOf s 0 0).reserve = [] ∧ reqOf s 0 4 0 63 = none ∧ (∃ i ∈ [0], cFind (cohOf s 0).l3 l3Sets l3Ways 0 = some i)) ∧
    ((63 : Fin 64).val + [(1 : Byte)].length ≤ 64 ∧ oneChunk 2 6 = true ∧ oneChunk 61 3 = true ∧ 0 = 61 / 64) := by decide +kernel

theorem witness_CoherenceAnswers_data :
    (∀ m ∈ [CohMsg.data 3 0 63 .s 7 false, .fwdData 3 0 63 .s 7 false], ∀ k ∈ [ReqKind.gets, .getm],
      let r : CohReq := { agent := 3, line := 0, tag := 63, kind := k };
      let s := testCoh {} .i [.inv 0 9, m] [r];
      cohRuns s 0 = true ∧ (cohOf s 0).msgs = [.inv 0 9] ++ m :: [] ∧ reqOf s 0 3 0 63 = some r ∧ (pcOf s 3).l2En = true ∧ r.doomed = false ∧ r.needGrant = false) ∧
    (let s := testCoh {} .i [] [];
      (cohOf s 0).msgs = [] ∧ reqOf s 0 3 0 63 = none) ∧
    (let r : CohReq := { agent := 3, line := 0, tag := 63, kind := .upgr, needGrant := true };
      let s := testCoh { state := .bI } .s [.grant 3 0 63] [r];
      (cohOf s 0).msgs = [] ++ .grant 3 0 63 :: [] ∧ reqOf s 0 3 0 63 = some r ∧ r.kind = .upgr ∧ r.got = none ∧ (pcOf s 3).l2En = true ∧
      cFind (pcOf s 3).l2 l2Sets l2Ways 0 = some 0) := by decide +kernel

theorem witness_CoherenceAnswers_snoops :
    (∀ m ∈ [CohMsg.fwdGetS 3 0 1 5, .fwdGetM 3 0 1 5, .inv 3 0, .nack 3 0 63 .gets, .wback 3 0 63, .wbstale 3 0 63],
      ∀ st ∈ [LState.m, .o, .e, .s], let r : CohReq := { agent := 3, line := 0, tag := 63, kind := .gets };
      let s := testCoh {} st [.data 0 1 2 .s 7 false, m] [r];
      cohRuns s 0 = true ∧ (cohOf s 0).msgs = [.data 0 1 2 .s 7 false] ++ m :: [] ∧ (pcOf s 3).l2En = true ∧ cFind (pcOf s 3).l2 l2Sets l2Ways 0 = some 0 ∧ (1 : Nat) ≠ 4 ∧
      reqOf s 0 3 0 63 = some r) ∧
    (let r : CohReq := { agent := 3, line := 0, tag := 63, kind := .gets, retryAt := some 0, nacks := 7 };
      let s := testCoh { state := .bF, reserve := [1] } .i [] [r];
      reqOf s 0 3 0 63 = some r ∧ r.retryAt = some 0 ∧ 0 ≤ nowNs s ∧ dirStable (dirOf s 0 0) = false ∧ 7 ≤ r.nacks ∧ (dirOf s 0 0).reserve ≠ [] ∧ 3 ∉ (dirOf s 0 0).reserve) ∧
    (∀ st ∈ [LState.s, .o, .i], let r : CohReq := { agent := 1, line := 0, tag := 0, kind := if st = .i then .getm else .gets };
      let d : Dir := { state := .bF, owner := 3, oweFwd := [3], req := some r };
      let s := testCoh d .i [.fwdAck 3 0 st none false] [];
      (cohOf s 0).msgs = [] ++ .fwdAck 3 0 st none false :: [] ∧ (dirOf s 0 0).oweFwd = [3] ∧ (dirOf s 0 0).oweInv = [] ∧ (dirOf s 0 0).req = some r) ∧
    (let r : CohReq := { agent := 1, line := 0, tag := 0, kind := .getm };
      let d : Dir := { state := .bI, oweInv := [3], req := some r, withData := true };
      let s := testCoh d .i [.invAck 3 0] [];
      (cohOf s 0).msgs = [] ++ .invAck 3 0 :: [] ∧ (dirOf s 0 0).oweFwd = [] ∧ (dirOf s 0 0).oweInv = [3] ∧ (dirOf s 0 0).req = some r ∧ r.kind = .getm) := by decide +kernel

theorem witness_CachesAndBasins :
    (let d : Dir := { state := .bF, oweFwd := [1] };
      let r : CohReq := { agent := 2, line := 0, tag := 0, kind := .gets };
      let s := { testCoh d .i [] [r] with clock := { ps := 64000000 } };
      cohRuns s 0 = true ∧ (∃ e ∈ (cohOf s 0).dir, dirStable e.2 = false ∧ (e.2.oweFwd ≠ [] ∨ e.2.oweInv ≠ []) ∧ e.2.since + 64000 ≤ nowNs s) ∧
      (∃ r ∈ (cohOf s 0).reqs, r.agent = (2 : Fin 4).val ∧ r.retryAt = none ∧ r.sent + 64000 ≤ nowNs s)) ∧
    (let s := { testUp with basins := [(0, { inService := true, checkstopped := true }), (1, { inService := true })] };
      running s = true ∧ (basinOf s 0).checkstopped = true ∧ (basinOf s 0).adopted = false ∧ (basinOf s 0).policyReset = false ∧ (basinOf s 0).hbmReadable = true ∧
      mirrorOf s 0 = some (1 : BasinId).val) ∧
    (let s := { testUp with basins := [(0, { checkstopped := true, hbmReadable := false, policyReset := true })] };
      (basinOf s 0).policyReset = true ∧ (basinOf s 0).hbmReadable = false ∧ rangesMirrored s 0 = false ∧ (0 < 4096 ∧ (partOf s 0).home = some 0 ∧ (partOf s 0).stranded = false)) ∧
    (let s := { testUp with clock := { ps := 86400000000000000 } };
      running s = true ∧ (basinOf s 0).hbmReadable = true ∧ (basinOf s 0).scrubbed + s.policy.scrubHours * 3600000000000 ≤ nowNs s) ∧
    (let s := { testUp with basins := [(3, { inService := true })], islands := [(islPier 15, { state := 3 })] };
      pierWrite s 15 = true) := by decide +kernel

/-! The mailbox. -/

/-- A request on port A with a body, and one with a co-signature block behind it. -/
def testAsk (b : List Byte) : MbReq := { port := .a, length := BitVec.ofNat 32 b.length, body := b }
def testAskSigned (b : List Byte) : MbReq := { port := .a, flags := 2, length := BitVec.ofNat 32 (b.length + 136), body := b ++ zeros 136 }
/-- A Harbour in service whose helm port A holds. -/
def testHelm : State :=
  { testQuay testTenant with helm := { holder := some .a }, mailA := { st := 1 }, cfg := { configured := true, partLog2 := 16 }, clock := { timeSet := true } }
/-- The Pilot takes the request with its checks passed; the same for a co-signed one, but for the co-signature. -/
def testTaken (c : MbCmd) (s : State) (b : List Byte) : Bool :=
  let m := testAsk b
  mailMmio s m.port && decide ((mailOf s m.port).st ≠ 0) && decide ((mailOf s m.port).st ≠ 2) && pilotUp (heard s m) && (mbCheck c m (heard s m)).isNone
def testSigned (c : MbCmd) (s : State) (b : List Byte) : Bool :=
  let m := testAskSigned b
  mailMmio s m.port && decide ((mailOf s m.port).st ≠ 0) && decide ((mailOf s m.port).st ≠ 2) && pilotUp (heard s m) && decide ((heard s m).dev.st ≠ .slipway) &&
    decide (mbCheck c m (heard s m) = some (0x0803, 0))

theorem taken_of_test {c : MbCmd} {s : State} {b : List Byte} (h : testTaken c s b = true) : taken c (testAsk b) s ∧ (testAsk b).flags.getLsbD 0 = false := by
  simp only [testTaken, Bool.and_eq_true, decide_eq_true_eq, Option.isNone_iff_eq_none] at h
  exact ⟨⟨⟨h.1.1.1.1, h.1.1.1.2, h.1.1.2, h.1.2⟩, (by decide : (0 : BitVec 16).getLsbD 1 = false), h.2⟩, (by decide : (0 : BitVec 16).getLsbD 0 = false)⟩
theorem signed_of_test {c : MbCmd} {s : State} {b : List Byte} (h : testSigned c s b = true) :
    signedFor c (testAskSigned b) s ∧ (testAskSigned b).flags.getLsbD 0 = false := by
  simp only [testSigned, Bool.and_eq_true, decide_eq_true_eq] at h
  exact ⟨⟨⟨h.1.1.1.1.1, h.1.1.1.1.2, h.1.1.1.2, h.1.1.2⟩, (by decide : (2 : BitVec 16).getLsbD 1 = true), h.1.2, .inr h.2⟩,
    (by decide : (2 : BitVec 16).getLsbD 0 = false)⟩

/-- GO while STARTING, BUSY and DONE with the Pilot out; a malformed request. -/
theorem witness_MailboxTenantCommands_go :
    (∀ st ∈ [0, 2, 3], mailMmio { testHelm with mailA := { st := st } } .a = true ∧ (mailOf { testHelm with mailA := { st := st } } .a).st = st) ∧
    pilotUp (heard { testHelm with mailA := { st := 3 }, islands := [(islPilot, { reset := true })] } (testAsk [])) = false ∧
    (let m := testAsk (zeros 11);
      mailMmio testHelm .a = true ∧ pilotUp (heard testHelm m) = true ∧ mbCheck cmdTimeSet m (heard testHelm m) = some (0x0806, 11)) := by decide +kernel

/-- Each command of device, helm, time and tenants with a body that its checks pass. -/
theorem witness_MailboxTenantCommands_taken :
    testTaken cmdGetDeviceInfo testHelm [] = true ∧ testTaken cmdGetCaps testHelm [] = true ∧ testTaken cmdHelmAcquire testHelm (toLe 4 100) = true ∧
    testTaken cmdHelmRelease testHelm [] = true ∧ testTaken cmdTimeSet testHelm (zeros 12) = true ∧ testTaken cmdTimeSet testHelm (zeros 8 ++ [1, 1, 1, 0]) = true ∧
    testTaken cmdTenantCreate testHelm (toLe 2 1023 ++ [3, 0] ++ toLe 4 2097151) = true ∧ testTaken cmdTenantConfigure testHelm ([0, 0, 3, 0] ++ zeros 4) = true ∧
    testTaken cmdTenantQuiesce testHelm (zeros 4 ++ toLe 4 60000) = true ∧ testTaken cmdTenantResume testHelm (zeros 2) = true ∧
    testTaken cmdTenantDestroy testHelm (zeros 2) = true ∧ testTaken cmdTenantResync testHelm (zeros 2) = true := by decide +kernel
theorem witness_MailboxTenantCommands_taken_queues :
    testTaken cmdQueueCreate testHelm ([0xFF, 0xFF, 2, 31, 0, 16] ++ zeros 18) = true ∧ testTaken cmdQueueCreate testHelm ([0, 0, 2, 15, 0, 6] ++ zeros 18) = true ∧
    testTaken cmdQueueCreate testHelm ([0, 0, 0, 15, 0, 0, 1, 0] ++ zeros 16) = true ∧ testTaken cmdQueueDestroy testHelm [0xFE, 0xFF, 2, 31] = true ∧
    testTaken cmdQueueDestroy testHelm [0, 0, 1, 1] = true ∧ testTaken cmdClassSet testHelm ([0, 0, 15, 0] ++ zeros 4) = true ∧
    testTaken cmdPartitionMapSet testHelm (toLe 2 4095 ++ toLe 2 1 ++ [0xFF]) = true ∧ testTaken cmdChainPoolCreate testHelm ([0, 0, 63, 16, 20] ++ zeros 11) = true ∧
    testTaken cmdChainPoolDestroy testHelm [0, 0, 63, 0] = true := by decide +kernel

/-- The other conditions of the clauses, in the state the request is checked in. -/
theorem witness_MailboxTenantCommands_states :
    (let u (s : State) : State := heard s (testAsk []);
      let w (st : TState) : State := testQuay { testTenant with state := st };
      (u testHelm).helm.holder ≠ some .b ∧ (u { testHelm with helm := { holder := some .b } }).helm.holder = some .b ∧ (testAsk []).flags.getLsbD 2 = false ∧
      (u (testQuay testTenant)).cfg.configured = false ∧ (u testHelm).cfg.configured = true ∧ (u testHelm).clock.timeSet = true ∧
      (u { testHelm with clock := {} }).clock.timeSet = false ∧ quiet (u { w .quiesced with cons := [] }) = true ∧
      (tenantOf (u testHelm) 1).state = .absent ∧ (keysOfTenant (u testHelm) 1).length ≤ 0 ∧ storedKeys (u testHelm) 0 ≤ 0 ∧
      0 < storedKeys (u { testHelm with sroom := { keys := [(1, {})] } }) 0 ∧
      (∀ st ∈ [TState.quiesced, .running, .quiescing, .squashed, .error], (tenantOf (u (w st)) 0).state = st ∧ (tenantOf (u (w st)) 0).takenAway = false)) ∧
    (let u (s : State) : State := heard s (testAsk []);
      slotsFree (u testHelm) 0 = false ∧ slotsFree (u { testHelm with cons := [] }) 0 = true ∧
      (let t := destroyKeys (saveConf (dropTenant (u testHelm) 0)) 0;
        keysOfTenant t 0 = [] ∧ mget (u testHelm).sroom.labels 0 = none) ∧
      heldCount (u { testHelm with cons := [(1, { state := .held })] }) 0 ≠ 0 ∧ pfTenant 0xFFFF = some .b ∧ pfTenant 1023 = none ∧
      (tenEq (u testHelm) 0 15).exist = false ∧ (sqOf (u testHelm) 0 15).exist = false ∧
      (tenEq (u { testHelm with tenants := [(0, { testTenant with eqs := [(0, { exist := true })] })] }) 0 0).exist = true ∧
      (getEq (u { testHelm with pfEqs := [(31, { exist := true })] }) (.pf .a 31)).exist = true ∧
      ((sqOf (u testHelm) 0 1).exist = true ∧ (sqOf (u testHelm) 0 1).pull = ((1 : Nat) == 1)) ∧
      (tget {} (tenantOf (u testHelm) 0).pools 1).exist = false ∧ (tget {} (tenantOf (u testHelm) 0).pools 63).exist = true ∧
      basinUp (u testHelm) 0 = true ∧ basinUp (u testHelm) 3 = false) := by decide +kernel

/-- The attributes of an AES-256 key for encryption as a body carries them. -/
def testAttr : List Byte := [0x44, 0x30, 0x41, 0x42, 0x45, 0, 0, 1, 32, 0] ++ zeros 6
def testKey : Key := { attr := attrOf testAttr 0, value := zeros 32, live := true }
/-- A key that exports others, of the manager. -/
def testKbpk : Key := { attr := { usage := usK1, mode := chB, alg := chA, bits := 256, capLog2 := 32 }, live := true, high := 2 ^ 20 }
def testKeys (ks : Table Key) : State := { testHelm with tenants := [(0, { testTenant with quota := 5 })], sroom := { keys := ks, base := some 0 } }

theorem witness_MailboxKeyCommands_taken :
    testTaken cmdKeyImportBlock (testKeys []) (zeros 32) = true ∧ testTaken cmdKeyImportBlock (testKeys [(1, testKey)]) ([0, 0, 0, 0, 1] ++ zeros 27) = true ∧
    testTaken cmdKeyImportBlock testHelm (zeros 32) = true ∧
    testTaken cmdKeyGenerate (testKeys []) (zeros 4 ++ testAttr) = true ∧ testTaken cmdKeyRetire (testKeys []) ([1, 0, 0, 0, 2] ++ zeros 3) = true ∧
    testTaken cmdKeyQuery (testKeys []) [1, 0, 0, 0] = true ∧
    testTaken cmdKeyImportBlock (testKeys []) ([2] ++ zeros 11 ++ [64, 0, 0, 0] ++ [0x53, 0x30, 0x45, 0x56, 0x45, 1, 0, 0] ++ zeros 8 ++ zeros 64) = true := by decide +kernel
theorem witness_MailboxKeyCommands_signed :
    testSigned cmdKeyImportBlock (testKeys []) ([1, 2, 1, 0] ++ zeros 8 ++ [37, 0, 0, 0] ++ testAttr ++ zeros 37) = true ∧ testSigned cmdKeyExportBlock (testKeys []) ([1, 0, 0, 0] ++ toLe 4 (2 ^ 31 + 1)) = true ∧
    testSigned cmdKeystoreConfigure testHelm (toLe 8 4096) = true ∧ testSigned cmdTenantLabelSet testHelm ([0, 0, 32, 0] ++ zeros 32) = true := by decide +kernel
theorem witness_MailboxKeyCommands_states :
    let u (s : State) : State := heard s (testAsk []);
    let s := testKeys [(1, testKey), (2 ^ 31 + 1, testKbpk)];
    targetTaken (u s) 1 = true ∧ targetTaken (u s) 0 = false ∧ (u testHelm).sroom.base = none ∧ (u s).sroom.base.isSome = true ∧
    attrReason (attrOf testAttr 0) false = none ∧ (attrReason { attrOf testAttr 0 with bits := 192 + 1 } false).isSome = true ∧
    attrReason { usage := usS0, alg := chE, mode := chV, exp := chE, curve := 1 } true = none ∧ keyRoom (u s) 0 = true ∧ keyRoom (u testHelm) 0 = false ∧
    (newHandle (u s) 0).isSome = true ∧ keyOf (u s) 2 = none ∧ keyOf (u s) 1 = some testKey ∧ keyOf (u s) (2 ^ 31 + 1) = some testKbpk ∧
    blockKey (u s) 1 (2 ^ 31 + 1) .blockExport none = some testKbpk ∧ testKey.attr.exp = chE ∧ { testKey.attr with exp := chN }.exp ≠ chE ∧ testKey.isPublic = false ∧
    strongEnough (algCode testKbpk.attr) (algCode testKey.attr) = true ∧ hIndex 1 ≠ 0 ∧ testKey.state ≠ 3 ∧ { testKey with state := 3 }.state = 3 ∧ testKbpk.state = 0 ∧
    (draw (u s) (2 ^ 31 + 1) 1).2 = some (0, 1) ∧ retiredState 0 0 ≠ 0 ∧ retiredState 1 0 = 1 ∧ journalLive (u s) = false ∧
    journalLive (u (testKeys [(1, { testKey with journalled := some 0 })])) = true ∧ (tenantOf (u testHelm) 1).state = .absent ∧ (tenantOf (u testHelm) 0).state ≠ .absent ∧
    (mget (u { testHelm with sroom := { labels := [(0, [1])] } }).sroom.labels 0).isSome = true ∧ mget (u testHelm).sroom.labels 0 = none := by decide +kernel

/-- The bodies of the other commands. -/
def testPolicy : List Byte := zeros 8 ++ toLe 2 1400 ++ toLe 2 2400 ++ [105, 168] ++ zeros 162
def testProgram : List Byte := zeros 16
theorem witness_MailboxPlatformCommands_taken :
    testTaken cmdHandlerLoad testHelm (toLe 2 0xEFFF ++ zeros 2 ++ toLe 4 1 ++ zeros 3) = true ∧ testTaken cmdHandlerBind testHelm (zeros 12) = true ∧
    testTaken cmdFormatLoad testHelm ([255, 0, 16, 0] ++ testProgram) = true ∧ testTaken cmdLedgerConfigure testHelm (zeros 24) = true ∧
    testTaken cmdTideGet testHelm (zeros 8 ++ toLe 4 4096) = true ∧ testTaken cmdProofGet testHelm (zeros 12) = true ∧ testTaken cmdLedgerTrim testHelm (zeros 12) = true ∧
    testTaken cmdBerthSplit testHelm (zeros 2) = true ∧ testTaken cmdBerthJoin testHelm (zeros 2) = true ∧ testTaken cmdBerthRetire testHelm (zeros 2) = true ∧
    testTaken cmdBasinRecover testHelm [3, 3] = true ∧ testTaken cmdErrorInject testHelm ([0, 0, 6] ++ zeros 9) = true ∧
    testTaken cmdPowerPolicySet testHelm testPolicy = true ∧ testTaken cmdThermalStatus testHelm [] = true ∧
    testTaken cmdLogbookRead testHelm (zeros 4 ++ toLe 4 16384) = true ∧ testTaken cmdLogbookClear testHelm [] = true ∧ testTaken cmdDiagRun testHelm [0, 0, 2, 0] = true := by
  decide +kernel
theorem witness_MailboxPlatformCommands_taken_firmware :
    testTaken cmdFwStageBegin testHelm (toLe 4 67108864) = true ∧ testTaken cmdFwStageData { testHelm with fw := { phase := 1, len := 1 } } (zeros 4 ++ toLe 4 1 ++ [7]) = true ∧
    testTaken cmdFwStageEnd testHelm [] = true ∧ testTaken cmdFwActivate testHelm (toLe 4 86400) = true ∧ testTaken cmdFwConfirm testHelm [] = true ∧
    testTaken cmdFwRevert testHelm [] = true ∧ testTaken cmdFwStatus testHelm [] = true ∧
    testTaken cmdSettingsBurn { testHelm with otp := { lifecycle := 0 } } (zeros 256) = true ∧ testTaken cmdLifecycleAdvance { testHelm with otp := { lifecycle := 0 } } [3] = true ∧ testTaken cmdOwnerKeyRotate testHelm (zeros 64) = true ∧
    testTaken cmdRoadsteadJoin testHelm (zeros 132) = true ∧ testTaken cmdRoadsteadStatus testHelm [] = true ∧ testSigned cmdEnterSlipway testHelm [] = true ∧
    testSigned cmdPartnerTakeover testHelm [3] = true
    ∧ (∀ n ∈ [0, 1, 2, 3], testSigned cmdLifecycleAdvance { testHelm with otp := { lifecycle := n } } [3] = true) ∧
    testSigned cmdSettingsBurn testHelm (zeros 256) = true ∧ testSigned cmdOwnerKeyRotate testHelm (zeros 64) = true := by decide +kernel

/-- The smallest format program: one END of a parse program. -/
def testFormat : List Byte := [1, 0, 4, 0] ++ zeros 12 ++ [0x0B, 0, 0, 0]
def testRecord : LRec := { seq := 5, tenant := 0, tide := 1 }
def testTide (n : Nat) : List Byte := zeros 4 ++ toLe 4 n ++ zeros 8

theorem witness_MailboxPlatformCommands_states :
    let u (s : State) : State := heard s (testAsk []);
    let h := testHelm;
    runsCode (u h) 0xEFFF = false ∧ (mget (u { h with handlers := [(0xEFFF, [1])] }).handlers 0xEFFF).isSome = true ∧ mget (u h).handlers 0xEFFF = none ∧
    (tenantOf (u h) 0).state ≠ .absent ∧ programFault testProgram = some 0 ∧ programFault testFormat = none ∧ (∀ i < 16, slotInUse (u h) i 255 = false) ∧
    quiet (u h) = false ∧ (u h).cfg.areaGib = orDefault 0 4 ∧ (u h).cfg.partLog2 = orDefault 0 16 ∧ (u h).cfg.partLog2 ≠ orDefault 20 16 ∧ (u h).cfg.mirrorMask = 0 ∧
    (u h).cfg.hostLog2 = 0 ∧ (u h).cfg.hostBase = 0 := by decide +kernel
theorem witness_MailboxPlatformCommands_states_ledger :
    let u (s : State) : State := heard s (testAsk []);
    let h := testHelm;
    let l (t : Tides) : State := { h with tides := t, ledgers := [(0, { recs := [testRecord] })] };
    (u h).tides.log = [] ∧ (((u (l { log := [(1, testTide 1)] })).tides.log.reverse).filter (fun e => decide (0 ≤ e.1))).head?.isSome = true ∧
    (proofOf (u h) (some 0) 5 matches .absent) = true ∧ (proofOf (u (l { cur := some { num := 1 } })) (some 0) 5 matches .wait _) = true ∧
    (proofOf (u (l { log := [(1, testTide 1)] })) (some 0) 5 matches .proof _ _) = true := by decide +kernel
theorem witness_MailboxPlatformCommands_states_berths :
    let u (s : State) : State := heard s (testAsk []);
    let h := testHelm;
    let g : State := { h with piers := (testBerth {} {}).piers };
    berthOf (u h) 72 = none ∧ berthOf (u g) 0 = some (0, 0) ∧ (∀ w ∈ [({} : Position), { split := true }], ({ w with pair := some 0 } : Position).reconf = none ∧ w.retiring = none ∧
      w.handover = none) ∧ pairOfIsland 72 = none ∧ pairOfIsland 455 = some 287 ∧ pairOfIsland 512 = none ∧ pairOfIsland 0 = some 0 ∧ (pairAt (u g) 0 0).use ≠ .retired ∧
    basinUp (u g) 0 = true ∧ posOfPair (u g) 0 = some 0 ∧ (posAt (u g) 0 0).handover = none ∧ posOfPair (u g) 1 = none ∧ (lowestSpare (u g) 0).isSome = true := by decide +kernel
theorem witness_MailboxPlatformCommands_states_errors :
    let u (s : State) : State := heard s (testAsk []);
    let h := testHelm;
    let g : State := { h with piers := (testBerth {} {}).piers };
    let lost : State := { h with basins := [(0, { inService := true }), (1, { inService := true })], parts := [(1, { home := some 0, stranded := true })] };
    strandedOf (u h) 0 = [] ∧ strandedOf (u lost) 0 ≠ [] ∧ mirrorOf (u lost) 0 = some 1 ∧
    (∀ k ∈ [0, 1, 6], (injectError (u g) 0 k 0).isSome = true) ∧ (∀ k ∈ [4, 5], (injectError (u g) (islHbm 0) k (2 ^ 46)).isSome = true) ∧
    (∀ k ∈ List.range 7, (injectError (u h) 512 k 0).isNone = true) ∧ wakeCapable 0xF00 = true ∧ wakeCapable 0xEFF = false ∧
    watchOf (zeros 20 ++ [0, 0x0F] ++ zeros 154) = [(2, 0xF00)] ∧ watchOf (zeros 142 ++ [0xFF, 0x0E] ++ zeros 32) = [(63, 0xEFF)] ∧
    diagOk (u h) 512 = false ∧ diagOk (u { h with islands := [(77, { out := true })] }) 77 = true := by decide +kernel
theorem witness_MailboxPlatformCommands_states_firmware :
    let u (s : State) : State := heard s (testAsk []);
    let h := testHelm;
    let f (n : Nat) : State := { h with fw := { phase := n } };
    (u h).dev.st ≠ .slipway ∧ (∀ n ∈ [0, 1, 2, 3], (u { h with otp := { lifecycle := n } }).otp.lifecycle = n) ∧
    (∀ n ∈ [0, 1, 2, 3, 4, 5, 6], (u (f n)).fw.phase = n ∧ (u (f n)).fw.pldm = false) ∧ (u { h with otp := {} }).otp.owners = [] ∧
    (let us := [zeros 32, List.replicate 32 1];
      joinOk (u { h with otp := { lifecycle := 3 } }) ([0, 2, 1, 0] ++ us.flatten ++ zeros 64) = true ∧ joinOk (u { h with otp := { lifecycle := 3 } }) ([0, 1, 1, 0] ++ us.flatten ++ zeros 64) = false) ∧
    (peerOf (u h) 1).lost = false ∧
    (let s := u { h with road := { members := 4, peers := [(3, { lost := true })] }, mirrors := [(3, {})] };
      3 < s.road.members ∧ (peerOf s 3).lost = true ∧ (mget s.mirrors 3).isSome = true ∧ bitOf s.road.taken 3 = false) := by decide +kernel

/-- HELM_ACQUIRE by force: bit 2 of the flags set beside the co-signature's bit. -/
theorem witness_MailboxTenantCommands_force :
    let m : MbReq := { testAskSigned (toLe 4 100) with flags := 6 };
    let s := { testHelm with helm := { holder := some .b } };
    m.flags.getLsbD 2 = true ∧ m.flags.getLsbD 1 = true ∧ m.flags.getLsbD 0 = false ∧ mailMmio s m.port = true ∧ pilotUp (heard s m) = true ∧
    (heard s m).dev.st ≠ .slipway ∧ mbCheck cmdHelmAcquire m (heard s m) = some (0x0803, 0) := by decide +kernel

/-! Event sources, ports and functions. -/

/-- A Harbour with one source as given. -/
def testSrc (n : Nat) (v : Source) : State := { testHelm with sources := [(n, v)], islands := [(islPilot, { state := 3 })], clock := { ps := 2000000 } }
theorem witness_EventSources_posts :
    evtWriter testHelm none = true ∧ evtWriter testHelm (some .a) = true ∧
    (∀ v ∈ [0, 0xFFFFFF0F23], v < 2 ^ 64 ∧ bitsOf v 15 12 = 0 ∧ bitsOf v 63 40 = 0 ∧ srcDefined (v % 4096) = true) ∧
    (bitsOf (0x1000 : BitVec 64).toNat 15 12 ≠ 0 ∧ bitsOf (0x10000000000 : BitVec 64).toNat 63 40 ≠ 0) ∧
    (∀ n ∈ [0, 77, 0xDFF, 0xF00, 0xF23], srcDefined n = true ∨ n = 0xDFF) ∧ testHelm.dev.pwrAon = true ∧
    (∀ v ∈ [({} : Source)], v.en = false ∧ v.window = none) ∧
    (∀ v ∈ [({ en := true, kind := 1, countTh := 255, count := 253 } : Source)], satInc v.count 255 < v.countTh ∧ v.en = true ∧ v.pending = false ∧ v.fired = false ∧ v.kind ≠ 0) ∧
    (∀ v ∈ [({ en := true, kind := 3, countTh := 255, count := 255 } : Source), { en := true, kind := 1 }], v.countTh ≤ satInc v.count 255 ∧ v.kind ≠ 0) := by decide +kernel
theorem witness_EventSources_fires :
    (let s := testSrc 0xF20 { en := true, kind := 1, window := some (1000, 1) };
      (srcOf s 0xF20).window = some (1000, 1) ∧ 1000 + 1 * 1000 ≤ nowNs s ∧ (srcOf s 0xF20).kind ≠ 0 ∧ (srcOf s 0xF20).en = true) ∧
    (∀ k ∈ [1, 2, 3], let v : Source := { en := true, fired := true, kind := k, target := 0 };
      let s0 := testSrc 5 v;
      let s := { s0 with piers := [(0, { testPier with evqBase := 64 })], pfEqs := [(0, { exist := true, enabled := true, sizeLog2 := 4 })] };
      srcOf s 5 = v ∧ srcReady s v = true ∧ srcBeaten s 5 v = false ∧ iovaOk s ((getEq s (srcEq v)).base + 32 * (getEq s (srcEq v)).tail) 32 = true) ∧
    (∀ k ∈ [0, 3], let s := { testSrc 5 {} with policy := { alarms := [2000, 0, 0, 1] } };
      s.dev.pwrAon = true ∧ s.policy.alarms[k]?.getD 0 ≠ 0 ∧ s.policy.alarms[k]?.getD 0 ≤ harbourNs s) := by decide +kernel
theorem witness_EventSources_vectors :
    (∀ q ∈ [({ exist := true, enabled := true, unsignalled := 1, timeTh := 1, window := some 1000, countTh := 2 } : Eq), { exist := true, enabled := true, unsignalled := 2, countTh := 2 }],
      let s := { testSrc 5 {} with pfEqs := [(31, q)], tenants := [(0, { testTenant with eqs := [(15, q)] })] };
      q.exist = true ∧ vectorDue q (nowNs s) = true ∧ getEq s (.pf .a 31) = q ∧ getEq s (.ten 0 15) = q ∧ (portOf s .a).dstate = .d0 ∧ (portOf s .a).link = true ∧
      Port.a = (tenantOf s 0).currentPort ∧ vfInServiceB s .a 0 = true) ∧
    pfMmio testHelm .a = true ∧ vfMmio testHelm .a 0 = true ∧ (vfOf testHelm .a 0).tdisp ≠ .locked := by decide +kernel

/-- Both ports up, both given to tenant 0. -/
def testPorts (p : PortState) (f : Vf) (v : Tenant) : State :=
  { testHelm with ports := [(0, p), (1, testPort)], vfs := [(0, f)], tenants := [(0, v)], cons := [], clock := { ps := 10 ^ 12, timeSet := true } }
theorem witness_PortsAndFunctions_states :
    let s := testPorts testPort { bme := true } testTenant;
    let g := testPorts { testPort with dstate := .d3hot, pmeEn := true, pmeStatus := true } { dstate := .d3hot, pmeStatus := true } testTenant;
    (portOf s .a).link = true ∧ awake s = true ∧ (portOf s .a).dstate = .d0 ∧ (portOf g .a).dstate = .d3hot ∧ allD3hot g .a = true ∧ (portOf g .a).pmeEn = true ∧
    (portOf g .a).pmeStatus = true ∧ (portOf g .a).pmeSent = 0 ∧ (portOf s .a).vfEnable = true ∧ (0 < (portOf s .a).numVFs ∧ 7 < (portOf s .a).numVFs) ∧
    (vfOf s .a 0).dstate = .d0 ∧ (vfOf g .a 0).dstate = .d3hot ∧ (vfOf g .a 0).pmeStatus = true ∧ (vfOf g .a 0).pmeSent = 0 ∧
    running s = true ∧ bitOf (tenantOf s 0).ports 0 = true ∧
    (∀ n ∈ [1, 7], (∀ e ∈ s.tenants, bitOf e.2.ports 0 = true → e.1 < n ∨ 8 ≤ e.1) ∧ n < (portOf s .a).numVFs) ∧
    (let s0 := { s with tenants := [(8, testTenant)] };
      ∀ e ∈ s0.tenants, bitOf e.2.ports 0 = true → e.1 < 0 ∨ 8 ≤ e.1) := by decide +kernel
theorem witness_PortsAndFunctions_drains :
    (∀ st ∈ [TState.quiescing, .error], let s := testPorts testPort {} { testTenant with state := st, drainAt := some (10 ^ 9), sqs := [] };
      (tenantOf s 0).drainAt = some (10 ^ 9) ∧ 10 ^ 9 ≤ nowNs s ∧ drained s 0 = true) ∧
    (let s := { testPorts testPort {} testTenant with mailA := { st := 2, run := some { opcode := 0x0204, tag := 0, space := 4080 } } };
      mbRuns s .a 0x0204 0 = true ∧ slotsFree s 0 = true) ∧
    (let s := { testPorts testPort {} testTenant with helm := { holder := some .a, since := 0, expiry := 10 ^ 9 } };
      s.helm.holder = some .a ∧ s.helm.expiry ≤ nowNs s) ∧
    (let s := { testPorts testPort {} testTenant with helm := { holder := some .a, since := 0, expiry := 1333333333 } };
      s.helm.told75 = false ∧ 3 * (s.helm.expiry - s.helm.since) ≤ 4 * (nowNs s - s.helm.since)) ∧
    ((3 : Nat) ∉ (portOf { testPorts { testPort with atsCache := [3] } {} testTenant with ports := [] } .a).atsCache) := by decide +kernel
theorem witness_PortsAndFunctions_links :
    (∀ d ∈ [Tdisp.run, .unlocked], let x : IdeSlot := { used := true, secure := true, first := 0, last := 1 };
      let s0 := testPorts testPort { tdisp := d } testTenant;
      let s := { s0 with ide := [(3, x)] };
      let s' := { s with ide := tset {} s.ide 3 { x with secure := false } };
      (portOf s .a).link = true ∧ (tget {} s.ide 3).used = true ∧ (tget {} s.ide 3).secure = true ∧ (∀ e ∈ ({ s with tenants := [] } : State).tenants, bitOf e.2.ports 0 = false) ∧
      s.tenants = [(0, testTenant)] ∧ bitOf testTenant.ports 0 = true ∧ streamCovers s' .a 3 0 = true ∧ (vfOf s .a 0).tdisp = d ∧
      (∃ k ∈ List.range 4, streamCovers s .a k 0 = true ∧ (tget {} s.ide k).secure = true ∧ (tget {} s.ide k).link = false)) ∧
    (vfOf (testPorts testPort { tdisp := .locked } testTenant) .a 0).tdisp ≠ .unlocked ∧
    (let s := testPorts { testPort with aspmEn := true, lastTlp := 10 ^ 9 - 8000 } {} testTenant;
      (portOf s .a).aspmEn = true ∧ (portOf s .a).l1 = false ∧ (portOf s .a).lastTlp + 8000 ≤ nowNs s ∧ dmaBusy s .a = false) := by decide +kernel

/-! The SPDM responder, firmware, power, registers and start-up. -/

def testSpdm (v : Spdm) : State := { testHelm with spdm := [(0, v)], otp := { lifecycle := 2 } }
theorem witness_SpdmResponder_connection :
    doeUp testHelm .a = true ∧ (∀ c ∈ [0, 1, 2, 3], doeUp (testSpdm { conn := c }) .a = true ∧ (spdmOf (testSpdm { conn := c }) .a).conn = c) ∧
    (let b := toLe 4 512 ++ toLe 4 64 ++ zeros 4;
      bitOf (fieldLe b 0 4) 9 = true ∧ bitOf (fieldLe b 4 4) 6 = true ∧ bitOf (fieldLe (zeros 12) 0 4) 9 = false) ∧
    (testSpdm {}).otp.lifecycle ≠ 3 ∧ ({ testSpdm {} with otp := { lifecycle := 3 } } : State).otp.lifecycle = 3 ∧
    (∀ n ∈ [3, 4], ({ testSpdm {} with fw := { phase := n } } : State).fw.phase = n) ∧ fieldLe [0, 0] 0 1 = 0 ∧ fieldLe [0, 0xFF] 1 1 = 0xFF ∧ bitOf (fieldLe [0, 0xFF] 0 1) 0 = false ∧
    fieldLe [1, 14] 1 1 ≤ 14 ∧ bitOf (fieldLe [1, 14] 0 1) 0 = true ∧
    (let v : Spdm := { conn := 3, aead := 2, sessions := [(0, {}), (1, {})] };
      (mget v.sessions 0).isSome = true ∧ (mget v.sessions 1).isSome = true) ∧
    (let v : Spdm := { conn := 3, aead := 8 };
      mget v.sessions 0 = none ∧ v.aead ≠ 0) := by decide +kernel
theorem witness_SpdmResponder_sessions :
    (∀ st ∈ [SpdmSt.handshake, .established], ∀ k ∈ [0, 1], let v : Spdm := { conn := 3, aead := 2, sessions := [(k, { st := st })] };
      mget (spdmOf (testSpdm v) .a).sessions k = some { st := st }) ∧
    (∀ n ∈ [0, 1, 2, 3, 4, 255], fieldLe [BitVec.ofNat 8 n] 0 1 = n) ∧
    (let b : List Byte := [1, 0x86] ++ toLe 2 7 ++ List.replicate 32 9;
      let s := { testSpdm {} with vfs := [(7, { tdisp := .locked, tdiNonce := List.replicate 32 9 })] };
      fieldLe b 0 1 = 1 ∧ fieldLe b 1 1 = 0x86 ∧ fieldLe b 2 2 < 1024 ∧ (vfOf s .a (fieldLe b 2 2)).tdisp = .locked ∧ slice b 4 32 = (vfOf s .a (fieldLe b 2 2)).tdiNonce) ∧
    (vfOf (testSpdm {}) .a 1023).tdisp ≠ .locked ∧
    (∀ set ∈ [0, 1], keysComplete { used := true, keys := ([0, 1, 2].flatMap (fun a => [0, 2].map (fun d => (a * 4 + d + set, ([] : List Byte))))) } set = true) ∧
    (∀ c ∈ [4, 5], fieldLe [0, BitVec.ofNat 8 c, 3, 1] 0 1 = 0 ∧ fieldLe [0, BitVec.ofNat 8 c, 3, 1] 1 1 = c ∧ fieldLe [0, BitVec.ofNat 8 c, 3, 1] 2 1 < 4) := by decide +kernel

def testFw (f : Fw) : State := { testHelm with fw := f, clock := { ps := 10 ^ 18, timeSet := true }, islands := [(islPilot, { state := 3 })] }
theorem witness_FirmwareEventsAndPldm_events :
    (let s := testFw { phase := 3, since := 0, pldm := true };
      s.fw.phase = 3 ∧ s.fw.since + 10000000000 < nowNs s) ∧
    (let s := { testFw { phase := 3 } with mailA := { st := 2, run := some { opcode := 0x0804 } } };
      s.fw.pldm = false ∧ mbRuns s .a 0x0804 0 = true) ∧
    (let s := testFw { phase := 4, todo := [1, 10] };
      running s = true ∧ s.fw.todo = 1 :: [10] ∧ 1 ≠ 10) ∧
    (let s := { testFw { phase := 4, todo := [10] } with piers := [(0, { swap := 16 })] };
      swapDone s = true) ∧
    (let s := testFw { phase := 5, since := 0, limitS := 600 };
      s.fw.since + s.fw.limitS * 1000000000 < nowNs s) ∧
    (let s := testFw { phase := 5, since := 460 * 10 ^ 9, limitS := 600 };
      s.fw.near = false ∧ s.fw.since + s.fw.limitS * 1000000000 ≤ nowNs s + 60000000000) ∧
    (let s := testFw {};
      s.dev.st ≠ .off ∧ (islandOf s islPilot).reset = false ∧ (islandOf s islPilot).out = false ∧ (islandOf s islPilot).state ≠ 0) ∧
    (let r : MbRun := { opcode := 0x0703, since := 0, limitMs := 1000 };
      let s := { testFw {} with mailA := { st := 2, run := some r } };
      (mailOf s .a).run = some r ∧ r.committed = false ∧ pilotUp s = true ∧ r.since + r.limitMs * 1000000 ≤ nowNs s) := by decide +kernel
/-- The ready time of a component is two bytes of its manifest entry. -/
theorem readyMs_bound (s : State) (k : Nat) : readyMs s k < 65536 := by
  have two (b : List Byte) (o : Nat) : fieldLe b o 2 < 65536 := by
    unfold Sys2Proof.Machine.fieldLe slice
    rcases (b.drop o) with _ | ⟨x, _ | ⟨y, l⟩⟩ <;> simp [leNat] <;> omega
  unfold readyMs dflt entryF
  split
  · decide
  · exact two _ _
theorem witness_FirmwareEventsAndPldm_ready (k : Nat) :
    let s := testFw { phase := 4, todo := [k] };
    s.fw.phase = 4 ∧ s.fw.todo = k :: [] ∧ s.fw.since + readyMs s k * 1000000 < nowNs s := by
  have h : 65535 * 1000000 < nowNs (testFw {}) := by decide +kernel
  have := readyMs_bound (testFw { phase := 4, todo := [k] }) k
  exact ⟨rfl, rfl, Nat.lt_of_le_of_lt (show (0 : Nat) + _ * 1000000 ≤ 65535 * 1000000 by omega) h⟩
theorem witness_FirmwareEventsAndPldm_pldm :
    pldmUp (testFw {}) = true ∧ (∀ n ∈ [1, 5], (testFw { phase := n }).fw.phase = n) ∧ (67108864 : BitVec 32).toNat ≤ 67108864 ∧ (testFw {}).fw.phase = 0 ∧ (testFw {}).otp.lifecycle ≠ 3 ∧
    (∀ n ∈ [1, 2, 3, 4], ({ testFw {} with pldm := { st := n } } : State).pldm.st = n) ∧
    (let s := { testFw { phase := 1, len := 2, pldm := true } with pldm := { st := 3 } };
      let full (x : State) : Bool := coveredTo x.fw.written x.fw.len (x.fw.written.length + 1) 0;
      0 + [(7 : Byte)].length ≤ s.fw.len ∧ full (stageBytes s 0 [7]) = false ∧ full (stageBytes s 0 [7, 8]) = true) ∧
    (testFw { phase := 2 }).fw.phase = 2 := by decide +kernel

def testIsl (n : Nat) (i : Island) : State := { testHelm with islands := [(n, i)], clock := { ps := 10 ^ 17, timeSet := true }, sources := [], cons := [] }
theorem witness_PowerStatesAndTime_supply :
    (let s := { testHelm with wardens := [(3, { avs := some (2100, 800), retries := 3 })] };
      (wardenOf s 3).avs = some (2100, 800) ∧ (wardenOf s 3).avs.isSome = true ∧ 3 ≤ (wardenOf s 3).retries ∧ (wardenOf s 3).mhz < 2100) ∧
    (wardenOf testHelm 0).retries < 3 ∧ islRuns (testIsl 580 { state := 3 }) 580 = true ∧
    (let i : Island := { state := 3, stretched := true, stretchAt := some (10 ^ 14 - 1000) };
      (islandOf (testIsl 0 i) 0).stretched = true ∧ 10 ^ 14 - 1000 + 1000 ≤ nowNs (testIsl 0 i)) ∧
    islExists 580 = true ∧ islExists 581 = false ∧ testHelm.dev.thermal = 0 ∧
    (let g := testHelm.policy.galeSetC;
      (1150 : BitVec 12).toInt = 1150 ∧ (849 : BitVec 12).toInt < Int.ofNat g * 10 ∧ Int.ofNat g * 10 ≤ (1149 : BitVec 12).toInt ∧ (1149 : BitVec 12).toInt < 1150) ∧
    (let s := { testIsl 0 {} with dev := { testUp.dev with thermal := 1, coolSince := some (10 ^ 14 - 1000000) } };
      s.dev.coolSince = some (10 ^ 14 - 1000000) ∧ 10 ^ 14 - 1000000 + 1000000 ≤ nowNs s) := by decide +kernel
theorem witness_PowerStatesAndTime_calm :
    (∀ k, (thr (testIsl 0 {}) k).run = .free) ∧
    (let s := testIsl 0 {};
      running s = true ∧ basinUp s 0 = true ∧ (pierOf s 0).calm = false ∧ (pcOf s 0).evict = [] ∧
      (cohOf s (pierBasin 0)).reqs = [] ∧ (pierOf s 0).idleSince + s.policy.calmIdleUs * 1000 ≤ nowNs s) :=
  ⟨fun _ => rfl, by decide +kernel⟩
theorem witness_PowerStatesAndTime_doldrums :
    (let s0 := testIsl 0 {};
      let s := { s0 with dev := { s0.dev with st := .calm }, policy := { doldrumsEn := true }, piers := (List.range 4).map (fun q => (q, { calm := true })) };
      (∀ q < 16, basinUp s (q / 4) = true → (pierOf s q).calm = true) ∧ (∀ e ∈ s.cons, e.2.entry = false) ∧ s.mailA.st ≠ 2 ∧ s.mailB.st ≠ 2 ∧
      s.dev.busyAt + s.policy.doldrumsIdleMs * 1000000 ≤ nowNs s ∧ watched s 0x802 = false ∧ (islandOf s 0).out = false ∧ (∃ e ∈ s.islands, e.1 = 0)) := by decide +kernel
theorem witness_PowerStatesAndTime_wake :
    (let s0 := testIsl 0 {};
      let s := { s0 with dev := { s0.dev with st := .waking, wakeAt := some (10 ^ 14) } };
      s.dev.wakeAt = some (10 ^ 14) ∧ 10 ^ 14 ≤ nowNs s) := by decide +kernel
theorem witness_PowerStatesAndTime_island :
    (let s := { testIsl 568 { state := 1 } with threads := [(0, { wait := some { why := .island 568, op := none } })] };
      running s = true ∧ islExists 568 = true ∧ (islandOf s 568).out = false ∧ (islandOf s 568).reset = false ∧ (islandOf s 568).state ≠ 3 ∧ islandWanted s 568 = true) := by decide +kernel
theorem witness_PowerStatesAndTime_time :
    (∀ e ∈ [-1000000, 0, 1000000], let s0 := testIsl 0 {};
      let s := { s0 with disc := { ppsEn := true, lastPps := some 0, ppsHarb := harbourPs s0 - 1000000000000 - e } };
      s.dev.pwrAon = true ∧ s.dev.pwrCore = true ∧ s.dev.st ≠ .off ∧ s.dev.st ≠ .halted ∧ s.disc.waiting = none ∧ s.disc.lastPps.isSome = true ∧
      harbourPs s - (s.disc.ppsHarb + 1000000000000) = e) ∧
    (({ testIsl 0 {} with disc := { waiting := some { port := .a, time := 0, ppsEn := false, tenEn := false } } } : State).disc.waiting.isSome = true) ∧
    (let s := { testIsl 0 {} with disc := { ppsEn := true, locked := true, lastPps := some 0, tenEn := true } };
      0 + 1500000000 < nowNs s ∧ s.disc.tenLost = false) := by decide +kernel

theorem witness_RegistersAndTestPort :
    mailMmio testHelm .a = true ∧ (mailOf testHelm .a).st ≠ 2 ∧ (mailOf { testHelm with mailA := { st := 2 } } .a).st = 2 ∧
    (∀ o ∈ [0, 0xFFF], o < 0x1000 ∧ o < 2 ^ 25) ∧ pfMmio testHelm .a = true ∧ (∀ n ∈ [0, 580], islExists n = true ∧ 0x100000 + 0x4000 * n + 8 < 2 ^ 25) ∧
    vfMmio testHelm .a 0 = true ∧ 0x7FFFF < 2 ^ 20 ∧ cfgUp testHelm .a = true ∧ awake testHelm = true ∧ (portOf testHelm .a).numVFs ≤ 1024 ∧ vfCfg testHelm .a 7 = true ∧
    (vfOf testHelm .a 7).bme ≠ true ∧ (vfOf testHelm .a 0).bme ≠ false ∧ (vfOf testHelm .a 7).tdisp = .unlocked ∧
    (∀ n ∈ [0, 3], ({ testHelm with otp := { lifecycle := n } } : State).otp.lifecycle = n) ∧ testHelm.dev.pwrCore = true ∧ testHelm.dev.thermTrip = false := by decide +kernel

def testDev (d : Dev) : State := { testHelm with dev := d }
theorem witness_ResetsAndStartUp :
    State.reset.dev.pwrAon = false ∧ ((testDev { pwrAon := true }).dev.pwrAon = true ∧ (testDev { pwrAon := true }).dev.pwrCore = false) ∧
    testHelm.dev.pwrCore = true ∧ testHelm.dev.pwrAon = true ∧ testHelm.dev.thermal ≠ 2 ∧ (testDev { thermal := 2 }).dev.thermal = 2 ∧
    (let s := testDev { st := .starting, pwrAon := true, pwrCore := true, startInProgress := true };
      s.dev.st = .starting ∧ s.dev.bootFails < 2 ∧ s.dev.slipCmd = false ∧ nowNs s ≤ s.dev.startedAt + 5000000000 ∧ fatalStart [] = false ∧ fatalStart [0, 71, 77] = false ∧
      bootSlot s = some 0 ∧ slotAgrees (slotAt s 0) = true ∧ 0 = s.fw.active ∧ settingBit s 2 = false) ∧
    2 ≤ (testDev { st := .starting, bootFails := 2 }).dev.bootFails ∧ (testDev { st := .starting, slipCmd := true }).dev.slipCmd = true ∧
    flashGone (testDev { st := .slipway, flashOwn := true }) = true ∧ testHelm.dev.st ≠ .slipway ∧
    (∀ n ∈ [512, 567], let s := { testHelm with islands := [(n, { state := 3 })] };
      islExists n = true ∧ n ≠ islLighthouse ∧ running s = true ∧ (islandOf s n).reset = false ∧ (islandOf s n).out = false ∧ (islandOf s n).state ≠ 0) ∧
    (∀ n ∈ [568, 577], let s := { testHelm with islands := [(n, { state := 3, reset := true })] };
      islExists n = true ∧ (islandOf s n).reset = true ∧ (islandOf s n).out = false ∧ s.dev.st ≠ .off ∧ s.dev.st ≠ .halted) := by decide +kernel

/-! The roadstead. -/

/-- A Harbour whose link 0 runs between two members, and a flit that comes on it. -/
def testLink (v : HLink) : State :=
  { testHelm with islands := [(islHawser 0, { state := 3 })], hlinks := [(0, v)], clock := { ps := 10 ^ 17, timeSet := true }, road := { members := 2, target := some 1 } }
def testUpLink : HLink := { up := true, lanes := 8, init := true, hello := 3, vcs := [(2, { credit := 4 })] }
def testFlit (q : BitVec 12) (d : Fin 4) : FlitHdr := { link := 0, seq := q, hops := 0, origin := 1, dest := d }
def testTx (n r : Nat) : TxFlit := { vc := 0, origin := 0, dest := 1, msg := .relayed, seq := n, resent := r }
theorem witness_Roadstead_training :
    linkIsland (testLink {}) 0 = true ∧ (linkOf (testLink { training := true }) 0).training = true ∧ (linkOf (testLink {}) 0).training = false ∧ (linkOf (testLink {}) 0).up = false ∧
    (linkOf (testLink {}) 0).draining = false ∧
    (∀ r ∈ [[], [testTx 5 0]], let v : HLink := { testUpLink with lanes := 4, replay := r, trainedAt := 10 ^ 14 - 60000000000 };
      let s := { testLink v with road := {} };
      (linkOf s 0).up = true ∧ (linkOf s 0).lanes = 4 ∧ (linkOf s 0).trainedAt + 60000000000 ≤ nowNs s ∧ otherPath s 0 = true ∧ (linkOf s 0).replay = r ∧ [testTx 5 0] ≠ []) ∧
    (let s := testLink { testUpLink with lanes := 4 };
      otherPath s 0 = false ∧ (linkOf s 0).trainedAt + 60000000000 ≤ nowNs s) ∧
    (srcOf (testLink {}) 0xD00).en = false ∧ (srcOf (testLink {}) 0xD01).window = none := by decide +kernel
theorem witness_Roadstead_flits :
    (let s := testLink { testUpLink with init := false };
      (linkOf s 0).up = true ∧ (linkOf s 0).init = false ∧ s.road.members ≠ 0 ∧ s.road.target = some (cabled s 0) ∧ s.road.mirror ≠ 1 ∧ s.road.goal = none ∧ s.road.selfTaken = false ∧
      s.road.seed = false) ∧
    (let v : HLink := { testUpLink with replay := [testTx 4095 6, testTx 0 0], ackAt := 0 };
      let s := testLink v;
      findIdx' (fun (f : TxFlit) => f.seq == 0) v.replay 0 = some 1 ∧ findIdx' (fun (f : TxFlit) => f.seq == 4095) v.replay 0 = some 0 ∧ (∀ f ∈ v.replay, f.resent < 7) ∧
      v.replay ≠ [] ∧ v.ackAt + 20000 < nowNs s ∧ ¬ (nowNs s ≤ v.ackAt + 20000) ∧ (v.naks.filter (fun t => decide (nowNs s < t + 1000000))).length < 63) ∧
    (let v : HLink := { testUpLink with replay := [testTx 0 7], naks := List.replicate 63 (10 ^ 14), ackAt := 10 ^ 14 - 20000 };
      let s := testLink v;
      63 ≤ (v.naks.filter (fun t => decide (nowNs s < t + 1000000))).length ∧ (∃ f ∈ v.replay, 7 ≤ f.resent) ∧ nowNs s ≤ v.ackAt + 20000 ∧ v.training = false) ∧
    ({ testUpLink with nakSent := true } : HLink).nakSent = true ∧ testUpLink.nakSent = false ∧
    (∀ c ∈ [0, 1, 2], let v : HLink := testUpLink;
      v.init = true ∧ v.queue = [] ∧ v.draining = false ∧ (tget {} v.vcs c).credit + (0 + 256 - (tget {} v.vcs c).last) % 256 ≤ vcRoom c) ∧
    vcRoom 0 < ({ credit := vcRoom 0 } : Vc).credit + (1 + 256 - ({ credit := vcRoom 0 } : Vc).last) % 256 := by decide +kernel
theorem witness_Roadstead_data :
    (let s := testLink testUpLink;
      linkData s 0 = true ∧ (linkOf s 0).rxSeq = (testFlit 0 0).seq.toNat ∧ (testFlit 0 0).dest.val = s.position ∧
      (∀ vc ∈ [0, 1, 2], (takeData s (testFlit 0 0) vc matches .here _) = true) ∧ (takeData s (testFlit 1 0) 2 matches .no _) = true ∧
      (takeData { s with road := { s.road with members := 3 } } (testFlit 0 2) 2 matches .relay _) = true) ∧
    (match takeData (testLink testUpLink) (testFlit 0 0) 2 with
      | .here w => decide (w.road.members ≠ 0) && !(frozen w 1) && decide (1 < w.road.members) && decide (1 ≠ w.position) && !(peerOf w 1).lost
      | _ => false) = true ∧
    (match takeData { testLink testUpLink with road := { members := 2, peers := [(1, { lost := true })] } } (testFlit 0 0) 0 with
      | .here w => frozen w 1 && decide (w.road.members ≠ 0) && (peerOf w 1).lost
      | _ => false) = true ∧ (0 : BitVec 4).getLsbD 0 = false ∧
    (match takeData { testLink testUpLink with mirrors := [(1, { basins := [(3, { next := 7 })] })] } (testFlit 0 0) 0 with
      | .here w => decide ((tget {} (mirrorAt w 1).basins 3).next ≤ 7) && decide (6 < (tget {} (mirrorAt w 1).basins 3).next)
      | _ => false) = true := by decide +kernel
theorem witness_Roadstead_members :
    (let s := testLink testUpLink;
      s.road.members = 2 ∧ s.position < 2 ∧ awake s = true ∧ s.road.beatAt + 10000 ≤ nowNs s ∧ linkTo s (1 - s.position) = some 0 ∧ (linkOf s 0).queue = [] ∧
      (linkOf s 0).replay.length < 2048 ∧ 0 < (tget {} (linkOf s 0).vcs 2).credit) ∧
    (let s := { testLink testUpLink with road := { members := 2, target := some 1, seed := true } };
      s.road.seed = true ∧ ∀ b < 4, nextRec (ledgerOf s b) ≤ (ledgerOf s b).partnerAck) ∧
    (∀ t ∈ [10 ^ 14 - 50001, 10 ^ 14], let s := { testLink testUpLink with road := { members := 2, target := some 1, peers := [(1, { heard := some t })] } };
      (peerOf s 1).heard = some t ∧ 1 < s.road.members ∧ 1 ≠ s.position ∧ (peerOf s 1).lost = false ∧ s.road.target = some 1 ∧ linkTo s 1 ≠ none ∧
      (t + 50000 < nowNs s ∨ nowNs s ≤ t + 50000)) := by decide +kernel

/-! Ill-formed commands: a term for each check that Instr.wellFormed makes, and a well-formed one beside it where the bound is a number. -/

def testItem (l : Nat) : MirrorItem := .record 0 0 (zeros l)
def testHello : HelloMsg :=
  { key := zeros 64, position := 1, members := 2, listHash := zeros 32, nonce := zeros 32, combination := [], areaGib := 4, ranges := [0, 0, 0, 0], signature := zeros 64, accepts := true }
theorem test_illFormed_host :
    (Instr.slipWrite .a 0 0 []).wellFormed = false ∧ (Instr.slipWrite .a 0 0xFFF [0, 0]).wellFormed = false ∧ (Instr.slipWrite .a 0 0xFFF [0]).wellFormed = true ∧
    (Instr.sqTailDoorbell .a 0 0 3 0).wellFormed = false ∧ (Instr.eqHeadDoorbell .a .pf0 0 0 0).wellFormed = false ∧
    (Instr.sourceReadComplete (.hostLoad 0) (.ok (zeros 9))).wellFormed = false ∧ (Instr.sourceReadComplete (.hostLoad 0) (.ok (zeros 8))).wellFormed = true ∧
    (Instr.evtPost none 16 0).wellFormed = false ∧ (Instr.registerWrite (.cfgAspm .a) 5 0).wellFormed = false ∧
    (Instr.atsInvalidationRequest .a (2 ^ 52)).wellFormed = false ∧ (Instr.requestFirmwareData 0 []).wellFormed = false := by decide +kernel
theorem test_illFormed_lines :
    (∀ i ∈ [Instr.gets 0 0 (2 ^ 46) 0, .getm 0 0 (2 ^ 46) 0, .upgr 0 0 (2 ^ 46) 0, .putm 0 0 (2 ^ 46) 0, .puto 0 0 (2 ^ 46) 0, .pute 0 0 (2 ^ 46) 0, .puts 0 0 (2 ^ 46) 0, .iord 0 (2 ^ 46) 0,
      .iowr 0 (2 ^ 46) 0 0 [0], .iowr 0 0 0 0 [], .iowr 0 0 0 63 [0, 0], .amo 0 0 (2 ^ 52) 0 false 0 0, .amo 0 0 6 0 false 0 0, .amo 0 0 3 0 true 0 0], i.wellFormed = false) ∧
    (∀ i ∈ [Instr.gets 0 0 (2 ^ 46 - 1) 0, .iowr 0 0 0 63 [0], .amo 0 0 5 0 false 0 0, .amo 0 0 2 0 true 0 0], i.wellFormed = true) := by decide +kernel
theorem test_illFormed_islands :
    (∀ i ∈ [Instr.droopDetected 78, .barometerUpdate 126 0 0 0, .islandReset 581 0 0, .islandResetExit 1023, .islandWakeComplete 78, .clockStretchEnd 581, .serviceStart [0, 78]],
      i.wellFormed = false) ∧ (Instr.serviceStart [0, 77, 384, 580]).wellFormed = true := by decide +kernel
theorem test_illFormed_messages :
    (Instr.hello 0 { testHello with key := [] }).wellFormed = false ∧ (Instr.hello 0 { testHello with members := 1 }).wellFormed = false ∧
    (Instr.hello 0 { testHello with ranges := [] }).wellFormed = false ∧ (Instr.hello 0 testHello).wellFormed = true ∧
    (Instr.mirrorData (testFlit 0 0) [testItem 127]).wellFormed = false ∧ (Instr.mirrorData (testFlit 0 0) [.intake 0 []]).wellFormed = false ∧
    (Instr.mirrorData (testFlit 0 0) [.line 0 1 (zeros 64)]).wellFormed = false ∧ (Instr.mirrorData (testFlit 0 0) [testItem 128, .line 0 64 (zeros 64)]).wellFormed = true ∧
    (Instr.tideRecord (testFlit 0 0) (zeros 351) 0).wellFormed = false ∧ (Instr.getVersion { port := .a, params := zeros 65536 }).wellFormed = false ∧
    (Instr.vendorDefinedRequest { port := .a, params := zeros 65536 }).wellFormed = false ∧
    (Instr.getCaps { testAsk [] with outs := [{ entry := 0, addr := 0, len := 0 }] }).wellFormed = false := by decide +kernel

/-! Worked examples of the spec. -/

/-- Thread 0's registers after a command, and its registers with values in the named fields. -/
def testAfter (i : Instr) (a : Arch) : Arch :=
  match exec i (testAt a) with
  | .next t => regsOf t 0
  | _ => {}
def testWith (l : List (RegField × Word)) : Arch := l.foldl (fun a e => wr a e.1 e.2) { testFrame 1 5 with status := 0 }

/-- 06: ADDS then ADDC add the pairs 0x0000_0200_0001 and 0x0000_01FF_FFFF. -/
theorem test_pair_add :
    let a := testAfter (.adds 0 8 8 10) (testWith [(8, 0xFFFFFF), (9, 1), (10, 1), (11, 2)]);
    let b := testAfter (.addc 0 9 9 11) { a with pc := 0 };
    rd a 8 = 0 ∧ a.status.getLsbD 4 = true ∧ rd b 9 = 4 ∧ b.status.getLsbD 4 = false := by decide +kernel
/-- 06: DSUB of 5 and 7; DADD of 0x00_00A3 and 0x00_0009; DADD and DADDC of the twelve-digit amounts. -/
theorem test_decimal :
    (let a := testAfter (.dsub 0 8 9 10) (testWith [(9, 5), (10, 7)]);
      rd a 8 = 0x999998 ∧ a.status.getLsbD 4 = true) ∧
    (let a := testAfter (.dadd 0 8 9 10) (testWith [(9, 0xA3), (10, 9)]);
      rd a 8 = 0x112 ∧ a.status.getLsbD 4 = false ∧ a.status.getLsbD 6 = true) ∧
    (let a := testAfter (.dadd 0 8 9 10) (testWith [(9, 0x456789), (10, 0x654321), (11, 0x123)]);
      let b := testAfter (.daddc 0 12 11 13) { a with pc := 0 };
      rd a 8 = 0x111110 ∧ a.status.getLsbD 4 = true ∧ rd b 12 = 0x124 ∧ b.status.getLsbD 4 = false) := by decide +kernel
/-- 05: LUI 0x246 then ORLI 0x456 build 0x12_3456. -/
theorem test_constant : rd (testAfter (.orli 0 13 0x456) { testAfter (.lui 0 13 0x246) (testWith []) with pc := 0 }) 13 = 0x123456 := by decide +kernel
/-- 05: the target of CALLG2 with OFF16 40 is PC + 120; RET with LINK[11] at 2 goes from WP 11 and RES 7 back to WP 9 and RES 5, to the address in w23. -/
theorem test_call_and_return :
    (testAfter (.callg2 0 40) (testWith [])).pc = 120 ∧
    (let r : Arch := { testWith [] with wp := 11, res := 7, link := (Vector.replicate 32 0).set 11 2 };
      let a := testAfter (.ret 0 0 0 0) (wr r 31 3);
      a.wp = 9 ∧ a.res = 5 ∧ a.link.get 11 = 0 ∧ a.pc = 3) := by decide +kernel
/-- 06: FADD.D of the largest finite double and the smallest subnormal. Toward plus infinity with OFE set it raises FP_TRAP and keeps f2 and FCSR; under FCSR 0 it writes
the largest finite double with NX alone. -/
theorem test_float_overflow :
    let r : Arch := { testWith [] with f := ((Vector.replicate 32 0).set 0 0x7FEFFFFFFFFFFFFF).set 1 1 };
    (let a := testAfter (.faddD 0 2 0 1) { r with fcsr := 0xC80 };
      a.f.get 2 = 0 ∧ a.fcsr = 0xC80 ∧ a.excinfo.extractLsb' 0 8 = 7) ∧
    (let a := testAfter (.faddD 0 2 0 1) r;
      a.f.get 2 = 0x7FEFFFFFFFFFFFFF ∧ a.fcsr = 1) := by decide +kernel
/-- 03: AFFINITY 0x0000_0000_0073_1594 gives partition 0x2A5. -/
theorem test_partition : partitionOf 0x731594 = 0x2A5 := by decide +kernel
/-- 02: the fields of the T-A descriptor. -/
theorem test_descriptor :
    let d := parseDesc ([1, 1, 0x20, 1, 0x10, 0, 0, 0] ++ zeros 16 ++ [0x15, 0, 0xA0, 4] ++ zeros 12 ++ [0x6C, 2, 0, 0, 0, 2, 0, 0] ++ zeros 16);
    d.fmt = 1 ∧ d.cls = 1 ∧ d.handler = 0x120 ∧ d.flags = 0x10 ∧ d.orderTag = 0 ∧ d.keyA = 0x04A00015 ∧ d.srcLen = 620 ∧ d.dstLen = 512 := by decide +kernel
/-- 18: QUEUE_CREATE of SQ 2 of tenant 37 takes 256 slots from the free pool and answers OK with the tag. -/
theorem test_queue_create :
    let v : Tenant := { state := .running, ports := 1, eqs := [(2, { exist := true, enabled := true, sizeLog2 := 6 })] };
    let s := { testHelm with tenants := [(37, v)] };
    let m := { testAsk ([0x25, 0, 0, 2, 2, 0, 0, 1, 0x20, 0, 0x14] ++ zeros 13) with tag := 0x107 };
    (match exec (.queueCreate m) s with
      | .next t => decide ((sqOf t 37 2).reservation = 256) && decide ((sqOf t 37 2).creditBatch = 32) && decide ((sqOf t 37 2).creditTime = 20) && (sqOf t 37 2).enabled
          && decide (t.anchorFree + 256 = s.anchorFree) && decide ((mailOf t .a).st = 3) && decide ((mailOf t .a).resp = some { status := 0, tag := 0x107 })
      | _ => false) = true := by decide +kernel
/-- 14: with COUNT_TH 4 the third arrival since the window opened does not fire source 0x905, the fourth does. -/
theorem test_coalescing :
    let v : Source := { en := true, kind := 3, countTh := 4, timeTh := 50, count := 2, pending := true, window := some (0, 50) };
    let s := testSrc 0x905 v;
    (match exec (.sourceArrival 0x905 0) s with
      | .next t => decide ((srcOf t 0x905).count = 3) && !(srcOf t 0x905).fired && (match exec (.sourceArrival 0x905 0) t with
        | .next u => decide ((srcOf u 0x905).count = 4) && (srcOf u 0x905).fired
        | _ => false)
      | _ => false) = true := by decide +kernel
end

section
/-! PROOFS. MFS and MTS (R144, R145): the tables of system registers, and what the two instructions answer from them. -/

namespace Sys2Proof.Machine

/-! The tables of R145. -/

theorem bit_eq_toNat (b : Bool) : bit b = b.toNat := by
  cases b <;> rfl

/-- The registers that MFS reads are those the statement lists. -/
theorem sysRead_eq_some_iff (s : State) (th : ThreadId) (a : Arch) (n : Nat) (v : Word) :
    sysRead s th a n = some v ↔ (n, v) ∈ systemRegisters s th a := by
  have hustat : ustat a =
      BitVec.ofNat 24 ((a.status.getLsbD 6).toNat * 4 + (a.status.getLsbD 5).toNat * 2 + (a.status.getLsbD 4).toNat) := by
    simp only [ustat, flagC, flagV, flagDecinv, bit_eq_toNat]
  constructor
  · intro h
    unfold sysRead at h
    split at h <;> simp_all [systemRegisters, wstat]
  · intro h
    simp only [systemRegisters, List.mem_cons, List.not_mem_nil, or_false, Prod.mk.injEq, ← hustat] at h
    unfold sysRead
    split <;> simp_all [wstat]

/-- The selectors that MTS writes in system mode (R145). -/
def writableSelectors : List Nat :=
  [0x000, 0x001, 0x002, 0x003, 0x004, 0x008, 0x009, 0x100, 0x101, 0x102, 0x103, 0x104, 0x105, 0x106, 0x107, 0x10E, 0x10F]

theorem sysWrite_eq_none_iff (a : Arch) (n : Nat) (v : Word) : sysWrite a n v = none ↔ n ∉ writableSelectors := by
  unfold sysWrite
  split <;> simp_all [writableSelectors]

/-- No system register is the PC. -/
theorem sysWrite_pc {a b : Arch} {n : Nat} {v : Word} (h : sysWrite a n v = some b) : b.pc = a.pc := by
  unfold sysWrite at h
  split at h <;> cases h <;> rfl

/-- An instruction is past the check of R144 in system mode, or where the selector is not privileged. -/
theorem not_refused_iff {sys : Bool} {p : Prop} : ¬ ((!sys) = true ∧ p) ↔ sys = true ∨ ¬ p := by
  cases sys <;> simp

/-! What MFS answers. -/

section Mfs
variable {s : State} {th : ThreadId} {sel : BitVec 10} (d : RegField) (h : ready s th)
include h

theorem mfs_writes {v : Word} (hgate : sysMode (regsOf s th) = true ∨ sel.toNat < 0x100)
    (hv : (sel.toNat, v) ∈ systemRegisters s th (regsOf s th)) : exec (.mfs th d sel) s = writes s th d v := by
  refine regInstr_writes h ?_
  rw [if_neg (not_refused_iff.mpr (hgate.imp_right Nat.not_le.mpr)), (sysRead_eq_some_iff ..).mpr hv]

theorem mfs_privilege (hu : sysMode (regsOf s th) = false) (hsel : 0x100 ≤ sel.toNat) :
    exec (.mfs th d sel) s = raises s th excPrivilege := by
  refine regInstr_raises h ?_
  rw [if_pos (by simp [hu, hsel])]

theorem mfs_illegal (hgate : sysMode (regsOf s th) = true ∨ sel.toNat < 0x100)
    (hv : ∀ v, (sel.toNat, v) ∉ systemRegisters s th (regsOf s th)) : exec (.mfs th d sel) s = raises s th excIllegal := by
  have hnone : sysRead s th (regsOf s th) sel.toNat = none :=
    Option.eq_none_iff_forall_ne_some.mpr fun v e => hv v ((sysRead_eq_some_iff ..).mp e)
  refine regInstr_raises h ?_
  rw [if_neg (not_refused_iff.mpr (hgate.imp_right Nat.not_le.mpr)), hnone]

end Mfs

/-! What MTS answers. -/

/-- The selectors that MTS refuses in user mode with PRIVILEGE: the range of R144, and NSEG and UCSEG, which are read-only there. -/
abbrev mtsPrivileged (n : Nat) : Prop := 0x100 ≤ n ∨ n = 0x008 ∨ n = 0x009

section Mts
variable {s : State} {th : ThreadId} {sel : BitVec 10} (d : RegField) (h : ready s th)
include h

theorem mts_leaves {a : Arch} (hgate : sysMode (regsOf s th) = true ∨ ¬ mtsPrivileged sel.toNat)
    (hw : sysWrite (regsOf s th) sel.toNat (rd (regsOf s th) d) = some a) : exec (.mts th d sel) s = leaves s th a := by
  refine regInstr_leaves h ?_ (sysWrite_pc hw)
  rw [if_neg (not_refused_iff.mpr hgate), hw]

theorem mts_privilege (hu : sysMode (regsOf s th) = false) (hsel : mtsPrivileged sel.toNat) :
    exec (.mts th d sel) s = raises s th excPrivilege := by
  refine regInstr_raises h ?_
  rw [if_pos ⟨by simp [hu], hsel⟩]

theorem mts_illegal (hgate : sysMode (regsOf s th) = true ∨ ¬ mtsPrivileged sel.toNat)
    (hsel : sel.toNat ∉ writableSelectors) : exec (.mts th d sel) s = raises s th excIllegal := by
  refine regInstr_raises h ?_
  rw [if_neg (not_refused_iff.mpr hgate), (sysWrite_eq_none_iff ..).mpr hsel]

end Mts

/-- The selectors of the statement that MTS writes in neither mode: PLACE, the read-only range and the unlisted ones. -/
theorem not_writable_of_ranges {n : Nat} (h : n = 0x00A ∨ (0x108 ≤ n ∧ n ≤ 0x10D) ∨ 0x10F < n ∨ (4 < n ∧ n < 8) ∨ (0x00A < n ∧ n < 0x100)) :
    n ∉ writableSelectors := by
  simp only [writableSelectors, List.mem_cons, List.not_mem_nil, or_false]
  omega

end Sys2Proof.Machine

namespace Sys2Proof.Proofs
open Sys2Proof.Machine

/-- Settles O18: both instructions look their selector up in the tables of R145, behind the mode check of R144. -/
theorem systemRegisters : Obligations.SystemRegisters := by
  unfold Obligations.SystemRegisters
  refine ⟨fun s th d sel h => ⟨?_, ?_, ?_⟩, fun s th d h => ?_⟩
  · exact fun v hv hgate => mfs_writes d h hgate hv
  · exact fun hu hsel => mfs_privilege d h hu hsel
  · exact fun hgate hv => mfs_illegal d h hgate hv
  · have user (sel : BitVec 10) (a : Arch) (hsel : ¬ mtsPrivileged sel.toNat) := mts_leaves (a := a) d h (.inr hsel)
    refine ⟨user _ _ (by decide) rfl, user _ _ (by decide) rfl, user _ _ (by decide) rfl, user _ _ (by decide) rfl,
      user _ _ (by decide) rfl, fun sys => ?_, ?_, ?_, ?_⟩
    · have system (sel : BitVec 10) (a : Arch) := mts_leaves (sel := sel) (a := a) d h (.inl sys)
      exact ⟨system _ _ rfl, system _ _ rfl, system _ _ rfl, system _ _ rfl, system _ _ rfl, system _ _ rfl, system _ _ rfl,
        system _ _ rfl, system _ _ rfl, system _ _ rfl, system _ _ rfl, system _ _ rfl⟩
    · exact fun hu sel hsel => mts_privilege d h (Bool.not_eq_true _ ▸ hu) hsel
    · intro hu sel hsel
      exact mts_illegal d h (.inr (by unfold mtsPrivileged; omega)) (not_writable_of_ranges (by omega))
    · exact fun sys sel hsel => mts_illegal d h (.inl sys) (not_writable_of_ranges hsel)

end Sys2Proof.Proofs
end

section
/-! PROOFS. How descriptors arrive (R30, R31, R36, R39, R43, R54, R63, R84): what an arrival and a ledger's record leave alone, what
acceptance puts into the in-flight table, and the answers of slip writes and tail doorbells. -/

namespace Sys2Proof.Machine

/-! Arrivals at event sources and host writes. -/

/-- An arrival changes event sources and the operating state of the device, and nothing else. -/
@[simp] theorem arrive_unreported (s : State) (n detail : Nat) (posted : Bool) : unreported (arrive s n detail posted) = unreported s := by
  unfold arrive
  split
  · rfl
  · extract_lets v now first v1 v2 s1
    split <;> rfl

@[simp] theorem logAdd_unreported (s : State) (code cls island place tenant seq : Nat) (detail : List Byte) :
    unreported (logAdd s code cls island place tenant seq detail) = unreported s := by
  unfold logAdd
  extract_lets now fresh
  split
  · split
    · rfl
    · exact arrive_unreported _ _ _ _
  · exact arrive_unreported _ _ _ _

/-- What reads neither the sources nor the Logbook nor the operating state is read as before. -/
theorem field_of_unreported {α : Type} {s t : State} (h : unreported t = unreported s) (f : State → α)
    (hf : ∀ x, f (unreported x) = f x) : f t = f s := by
  rw [← hf t, h, hf]

@[simp] theorem arrive_tenants (s : State) (n d : Nat) (p : Bool) : (arrive s n d p).tenants = s.tenants :=
  field_of_unreported (arrive_unreported s n d p) State.tenants fun _ => rfl
@[simp] theorem arrive_slipped (s : State) (n d : Nat) (p : Bool) : (arrive s n d p).slipped = s.slipped :=
  field_of_unreported (arrive_unreported s n d p) State.slipped fun _ => rfl
@[simp] theorem arrive_pfEqs (s : State) (n d : Nat) (p : Bool) : (arrive s n d p).pfEqs = s.pfEqs :=
  field_of_unreported (arrive_unreported s n d p) State.pfEqs fun _ => rfl
@[simp] theorem arrive_clock (s : State) (n d : Nat) (p : Bool) : (arrive s n d p).clock = s.clock :=
  field_of_unreported (arrive_unreported s n d p) State.clock fun _ => rfl

@[simp] theorem touchPort_tenants (s : State) (p : Port) : (touchPort s p).tenants = s.tenants := arrive_tenants _ _ _ _
@[simp] theorem touchPort_slipped (s : State) (p : Port) : (touchPort s p).slipped = s.slipped := arrive_slipped _ _ _ _
@[simp] theorem touchPort_pfEqs (s : State) (p : Port) : (touchPort s p).pfEqs = s.pfEqs := arrive_pfEqs _ _ _ _
@[simp] theorem touchPort_clock (s : State) (p : Port) : (touchPort s p).clock = s.clock := arrive_clock _ _ _ _
@[simp] theorem touchPort_cons (s : State) (p : Port) : (touchPort s p).cons = s.cons := arrive_cons _ _ _ _

@[simp] theorem touchPort_harbourNs (s : State) (p : Port) : harbourNs (touchPort s p) = harbourNs s := by
  simp [harbourNs, harbourAt]

/-! Submission queues. -/

@[simp] theorem sqOf_setSq_same (s : State) (t n : Nat) (q : Sq) : sqOf (setSq s t n q) t n = q := by
  unfold sqOf setSq
  rw [tenantOf_setTenant_same, tget_tset_same]

/-! A change of a queue leaves alone what acceptance looks at. -/

theorem acceptRoom_setSq (s : State) (t n : Nat) (q : Sq) (h : Port) (x : Slipped) :
    acceptRoom (setSq s t n q) h x = acceptRoom s h x := rfl
theorem effDur_setSq (s : State) (t n : Nat) (q : Sq) (d : Desc) : effDur (setSq s t n q) t d = effDur s t d := by
  unfold effDur classOf setSq
  rw [tenantOf_setTenant_same]

/-! The ledger. -/

/-- A state without the ledgers and the host region, the tides, the counters of numbers and what reports change: all that a
record of the ledger, its stream to the host and the number of a new consignment touch. -/
def offLedger (s : State) : State :=
  { unreported s with ledgers := [], tides := {}, seqs := {}, cfg := {}, mem := {} }

theorem offLedger_of_unreported {s t : State} (h : unreported t = unreported s) : offLedger t = offLedger s :=
  congrArg (fun x : State => { x with ledgers := [], tides := {}, seqs := {}, cfg := {}, mem := {} }) h

theorem offLedger_ite {c : Prop} [Decidable c] {s t T : State} (h : offLedger s = T) (k : offLedger t = T) :
    offLedger (if c then s else t) = T := by
  split
  · exact h
  · exact k

/-- What reads nothing of the ledger is read as before. -/
theorem field_of_offLedger {α : Type} {s t : State} (h : offLedger t = offLedger s) (f : State → α)
    (hf : ∀ x, f (offLedger x) = f x) : f t = f s := by
  rw [← hf t, h, hf]

@[simp] theorem arrive_offLedger (s : State) (n d : Nat) (p : Bool) : offLedger (arrive s n d p) = offLedger s :=
  offLedger_of_unreported (arrive_unreported s n d p)
@[simp] theorem logIsland_offLedger (s : State) (code cls island : Nat) (d : List Byte) :
    offLedger (logIsland s code cls island d) = offLedger s :=
  offLedger_of_unreported (logAdd_unreported ..)
@[simp] theorem setLedger_offLedger (s : State) (b : Nat) (l : Ledger) : offLedger (setLedger s b l) = offLedger s := rfl

@[simp] theorem drawSeq_offLedger (s : State) (h : Port) : offLedger (drawSeq s h).1 = offLedger s := by
  cases h <;> rfl

@[simp] theorem openTide_offLedger (s : State) : offLedger (openTide s).1 = offLedger s := by
  unfold openTide
  cases s.tides.cur with
  | some t => rfl
  | none => cases s.cfg.later <;> rfl

@[simp] theorem appendRec_offLedger (s : State) (b : Nat) (r : LRec) : offLedger (appendRec s b r).1 = offLedger s := by
  unfold appendRec
  simp -zeta only
  exact (setLedger_offLedger _ _ _).trans (openTide_offLedger s)

@[simp] theorem hostPut_offLedger (s : State) (b n : Nat) : offLedger (hostPut s b n) = offLedger s := by
  unfold hostPut
  extract_lets l
  split
  · rfl
  · extract_lets host s1 s2
    clear_value host
    have h2 : offLedger s2 = offLedger s := rfl
    exact offLedger_ite h2 ((arrive_offLedger _ _ _ _).trans h2)

@[simp] theorem hostSend_offLedger (s : State) (b k : Nat) : offLedger (hostSend s b k) = offLedger s := by
  induction k generalizing s with
  | zero => rfl
  | succ k ih =>
    unfold hostSend
    extract_lets l
    split
    · rfl
    · exact offLedger_ite ((ih _).trans (hostPut_offLedger _ _ _)) rfl

@[simp] theorem hostQueue_offLedger (s : State) (b n : Nat) : offLedger (hostQueue s b n) = offLedger s := hostSend_offLedger _ _ _

@[simp] theorem ledgerHigh_offLedger (s : State) (b : Nat) : offLedger (ledgerHigh s b) = offLedger s := by
  unfold ledgerHigh
  extract_lets l total high s1
  refine offLedger_ite ?_ (offLedger_ite rfl rfl)
  exact (arrive_offLedger _ _ _ _).trans (logIsland_offLedger s1 _ _ _ _)

/-- The number drawn depends on the counter alone (R83). -/
theorem drawSeq_number (u s : State) (e : u.seqs = s.seqs) (h : Port) : (drawSeq u h).2 = (drawSeq s h).2 := by
  cases h <;> simp only [drawSeq, e]

/-! Acceptance (R62, R63, R84). -/

/-- A number names the consignment of a descriptor in its first attempt, accepted at a moment of the harbour clock. -/
def newlyAccepted (w : State) (seq now : Nat) (y : Slipped) : Prop :=
  ∃ c, consOf w seq = some c ∧ c.desc = y.desc ∧ c.tenant = y.tenant ∧ c.sq = y.sq ∧ c.slot = y.slot ∧ c.dock = y.dock ∧
    c.dur = y.dur ∧ c.state = .accepted ∧ c.acceptTime = now ∧ c.attempt = 1

/-- Acceptance puts the consignment into the in-flight table, under the number drawn, and leaves the SLIPPED descriptors alone. -/
theorem accept_enters (s : State) (h : Port) (x : Slipped) :
    newlyAccepted (accept s h x) (drawSeq s h).2 (harbourNs s) x ∧ (accept s h x).slipped = s.slipped := by
  unfold accept
  simp -zeta only
  extract_lets d part cl c b s3 l s4 s5
  have h1 := drawSeq_offLedger s h
  have h2 := (appendRec_offLedger (drawSeq s h).1 b (formRec (drawSeq s h).1 (drawSeq s h).2 c 1 0 x.dock (zeros 32))).trans h1
  have h3 : offLedger s3 = offLedger s := offLedger_ite ((hostQueue_offLedger _ _ _).trans h2) h2
  have h5 := ledgerHigh_offLedger (setCons { s4 with accepted := s4.accepted + 1 } (drawSeq s h).2 c) b
  have hw := offLedger_ite (c := (s5.cons.filter (fun e => e.2.entry)).length = 235930)
    ((arrive_offLedger s5 0xA04 90 false).trans h5) h5
  refine ⟨⟨c, ?_, rfl, rfl, rfl, rfl, rfl, rfl, rfl, field_of_offLedger h1 harbourNs fun _ => rfl, rfl⟩, ?_⟩
  · exact (field_of_offLedger hw (consOf · _) fun _ => rfl).trans (consOf_setCons_same _ _ _)
  · exact (field_of_offLedger hw State.slipped fun _ => rfl).trans (field_of_offLedger h3 State.slipped fun _ => rfl)

/-- A checked descriptor is accepted where there is room and nothing of its queue waits. -/
theorem acceptOrSlip_room {s : State} {x : Slipped} (hroom : acceptRoom s (halfFor s x.port) x = true)
    (hfirst : ∀ y ∈ s.slipped, ¬ (y.tenant = x.tenant ∧ y.sq = x.sq)) : acceptOrSlip s x = accept s (halfFor s x.port) x := by
  have hany : s.slipped.any (fun y => y.tenant == x.tenant && y.sq == x.sq) = false := by
    simpa only [List.any_eq_false, Bool.and_eq_true, beq_iff_eq] using hfirst
  unfold acceptOrSlip
  simp only [hroom, hany, Bool.not_false, Bool.and_self, if_true]

theorem acceptOrSlip_full {s : State} {x : Slipped} (hroom : acceptRoom s (halfFor s x.port) x = false) :
    acceptOrSlip s x = { s with slipped := s.slipped ++ [x] } := by
  unfold acceptOrSlip
  simp [hroom]

/-! Pushed descriptors (R39 to R44). -/

/-- The descriptor that 64 bytes push to a queue, with what acceptance notes of it. -/
def pushed (s : State) (p : Port) (t n : Nat) (bs : List Byte) : Slipped :=
  { desc := parseDesc bs, tenant := t, sq := n, port := p, dock := dockBytes s t (parseDesc bs), dur := effDur s t (parseDesc bs),
    slot := (sqOf s t n).nextSlot }

section Push
variable {s : State} {p : Port} {t n : Nat} {bs : List Byte}

/-- A descriptor that passes its checks spends a credit and takes a slot. -/
theorem pushOne_checked (hcredit : 0 < chost (sqOf s t n)) (hok : acceptCheck s t n true (parseDesc bs) (dockBytes s t (parseDesc bs)) = none) :
    ∃ q, pushOne s p t n bs = acceptOrSlip (setSq s t n q) (pushed s p t n bs) := by
  refine ⟨{ sqOf s t n with credits := (sqOf s t n).credits ++ [{ num := (sqOf s t n).nextSlot }], nextSlot := (sqOf s t n).nextSlot + 1 }, ?_⟩
  unfold pushOne
  simp only [hcredit, decide_true, hok, effDur_setSq, pushed]

theorem pushOne_room (hcredit : 0 < chost (sqOf s t n)) (hok : acceptCheck s t n true (parseDesc bs) (dockBytes s t (parseDesc bs)) = none)
    (hroom : acceptRoom s (halfFor s p) (pushed s p t n bs) = true) (hfirst : ∀ y ∈ s.slipped, ¬ (y.tenant = t ∧ y.sq = n)) :
    newlyAccepted (pushOne s p t n bs) (drawSeq s (halfFor s p)).2 (harbourNs s) (pushed s p t n bs) := by
  obtain ⟨q, hq⟩ := pushOne_checked (p := p) hcredit hok
  have hin : acceptOrSlip (setSq s t n q) (pushed s p t n bs) = accept (setSq s t n q) (halfFor s p) (pushed s p t n bs) :=
    acceptOrSlip_room (x := pushed s p t n bs) ((acceptRoom_setSq ..).trans hroom) hfirst
  rw [hq, hin, ← drawSeq_number (setSq s t n q) s rfl]
  exact (accept_enters _ _ _).1

theorem pushOne_full (hcredit : 0 < chost (sqOf s t n)) (hok : acceptCheck s t n true (parseDesc bs) (dockBytes s t (parseDesc bs)) = none)
    (hroom : acceptRoom s (halfFor s p) (pushed s p t n bs) = false) :
    (pushOne s p t n bs).slipped = s.slipped ++ [pushed s p t n bs] ∧ (pushOne s p t n bs).cons = s.cons := by
  obtain ⟨q, hq⟩ := pushOne_checked (p := p) hcredit hok
  have hout : acceptOrSlip (setSq s t n q) (pushed s p t n bs) = { setSq s t n q with slipped := s.slipped ++ [pushed s p t n bs] } :=
    acceptOrSlip_full (x := pushed s p t n bs) ((acceptRoom_setSq ..).trans hroom)
  rw [hq, hout]
  exact ⟨rfl, rfl⟩

/-- Without a credit the third check of R39 fails, and the overrun is counted. -/
theorem pushOne_without_credit (hnone : chost (sqOf s t n) = 0) (hrun : (tenantOf s t).state = .running)
    (hen : (sqOf s t n).enabled = true) :
    pushOne s p t n bs = refuse (setSq s t n { sqOf s t n with overrun := satInc (sqOf s t n).overrun 127 }) t n (parseDesc bs) 0x0107 := by
  have hcheck : acceptCheck s t n false (parseDesc bs) (dockBytes s t (parseDesc bs)) = some 0x0107 := by
    simp [acceptCheck, hrun, hen]
  unfold pushOne
  simp [hnone, hcheck]

end Push

/-! Slip writes and tail doorbells (R30, R31, R36). -/

section Writes
variable {s : State} {p : Port} {t : TenantId} (hmmio : vfMmio s p t.val = true) (hlistens : tenantListens s t.val = true)
include hmmio hlistens

/-- What a slip write to an existing queue comes to. -/
theorem slipWrite_heard {off : BitVec 12} {data : List Byte} (hexist : (sqOf (touchPort s p) t.val (off.toNat / 256)).exist = true) :
    exec (.slipWrite p t off data) s = .next (
      let u := touchPort s p
      let n := off.toNat / 256
      let q := sqOf u t.val n
      if q.pull then setSq u t.val n { q with err := satInc q.err 255 }
      else if !([64, 128, 192, 256].contains data.length) ∨ off.toNat % 256 % 64 ≠ 0 ∨ 256 < off.toNat % 256 + data.length then
        notice (setSq u t.val n { q with err := satInc q.err 255 }) t.val q.eq 0x0109 0 n
      else (pieces64 (data.length / 64) data).foldl (fun s bs => pushOne s p t.val n bs) u) := by
  show execSlipWrite p t off data s = _
  simp [execSlipWrite, hmmio, hlistens, hexist]

/-- A slip write of one piece at a descriptor's place pushes it. -/
theorem slipWrite_one {off : BitVec 12} {data : List Byte} (hexist : (sqOf (touchPort s p) t.val (off.toNat / 256)).exist = true)
    (hpush : (sqOf (touchPort s p) t.val (off.toNat / 256)).pull = false) (hlen : data.length = 64)
    (halign : off.toNat % 256 % 64 = 0) :
    exec (.slipWrite p t off data) s = .next (pushOne (touchPort s p) p t.val (off.toNat / 256) data) := by
  have hfit : ¬ 256 < off.toNat % 256 + 64 := by omega
  have hpiece : pieces64 1 data = [data] := by simp [pieces64, List.take_of_length_le hlen.le]
  rw [slipWrite_heard hmmio hlistens hexist]
  simp [hpush, hlen, halign, hfit, hpiece]

/-- What a tail doorbell of an existing queue comes to. -/
theorem sqTailDoorbell_heard {sq : Fin 16} {size : Nat} {v : BitVec 32} (hexist : (sqOf (touchPort s p) t.val sq.val).exist = true) :
    exec (.sqTailDoorbell p t sq size v) s = .next (
      let u := touchPort s p
      let q := sqOf u t.val sq.val
      let sz := 2 ^ q.sizeLog2
      if !q.pull ∨ size ≠ 4 ∨ sz ≤ v.toNat ∨ sz - 1 - (q.credits.length + q.pending + q.inTransit) < (v.toNat + sz - q.head) % sz then
        notice (setSq u t.val sq.val { q with err := satInc q.err 255 }) t.val q.eq 0x010A v.toNat sq.val
      else setSq u t.val sq.val { q with tail := v.toNat }) := by
  show execSqTailDoorbell p t sq size v s = _
  simp [execSqTailDoorbell, hmmio, hlistens, hexist]

end Writes

/-- The oldest SLIPPED descriptor that finds room is accepted (R63, R84). -/
theorem slippedDescriptorAccept_head {s : State} {half : Port} {x : Slipped} {rest : List Slipped} (hs : s.slipped = x :: rest)
    (hhalf : halfFor s x.port = half) (hout : halfOut s half = false) (hroom : acceptRoom s half x = true) :
    exec (.slippedDescriptorAccept half) s = .next (accept { s with slipped := rest } half x) := by
  show execSlippedDescriptorAccept half s = _
  simp [execSlippedDescriptorAccept, hs, hhalf, hout, hroom, removeFirst]

end Sys2Proof.Machine

namespace Sys2Proof.Proofs
open Sys2Proof.Machine

/-- Settles O32: each command reaches its queue by the lemma that says what it comes to there, and acceptance by accept_enters. -/
theorem descriptorsArrive : Obligations.DescriptorsArrive := by
  unfold Obligations.DescriptorsArrive
  intro s p half t off data sq size v x rest
  refine ⟨fun hmmio hlistens => ⟨fun hexist hpush hlen halign _ => ⟨fun hcredit hok => ⟨fun hroom hfirst => ?_, fun hroom => ?_⟩,
    fun hnone hrun hen => ?_⟩, fun hexist hpull => ?_, fun hexist hpush hlen => ?_, ?_⟩, fun hs hhalf hout hroom => ?_⟩
  · refine ⟨_, slipWrite_one hmmio hlistens hexist hpush hlen halign, ?_⟩
    rw [← touchPort_harbourNs s p]
    exact pushOne_room hcredit hok hroom (by simpa using hfirst)
  · refine ⟨_, slipWrite_one hmmio hlistens hexist hpush hlen halign, ?_⟩
    obtain ⟨hslipped, hcons⟩ := pushOne_full hcredit hok hroom
    exact ⟨hslipped.trans (by simp only [touchPort_slipped, pushed]), hcons.trans (touchPort_cons s p)⟩
  · rw [slipWrite_one hmmio hlistens hexist hpush hlen halign,
      pushOne_without_credit hnone (by simpa [tenantOf] using hrun) hen]
  · simp [slipWrite_heard hmmio hlistens hexist, hpull]
  · rw [slipWrite_heard hmmio hlistens hexist, if_neg (by simp [hpush]), if_pos (.inl (by simpa using hlen))]
  · refine fun hexist hpull hsize => ⟨fun hv hroom => ?_, fun hv => ?_⟩
    · simp [sqTailDoorbell_heard hmmio hlistens hexist, hpull, hsize, Nat.not_le.mpr hv, Nat.not_lt.mpr hroom]
    · simp [sqTailDoorbell_heard hmmio hlistens hexist, hv]
  · obtain ⟨hholds, hslipped⟩ := accept_enters { s with slipped := rest } half x
    rw [drawSeq_number { s with slipped := rest } s rfl] at hholds
    exact ⟨_, slippedDescriptorAccept_head hs hhalf hout hroom, hslipped, hholds⟩

end Sys2Proof.Proofs
end

section
/-! PROOFS. How queues move on (R37, R38, R40, R42, R50, R51, R328, R366): what the writing of event records leaves alone, and the
answers of fetches, head doorbells, chain tails, stored records and credit times. -/

namespace Sys2Proof.Machine

/-- Reading after a change of one entry. -/
theorem mget_mmod {α : Type} (t : Table α) (k i : Nat) (f : α → α) :
    mget (mmod t k f) i = if i = k then (mget t i).map f else mget t i := by
  unfold mmod
  by_cases h : i = k
  · subst h
    cases hi : mget t i with
    | none => simp [hi]
    | some v => simp
  · rw [if_neg h]
    cases mget t k with
    | none => rfl
    | some v => exact mget_mset_other t _ h

/-! Queues of a tenant. -/

/-- A change of a tenant that keeps its submission queues keeps every submission queue. -/
theorem sqOf_setTenant (s : State) {u : Nat} {v : Tenant} (hv : v.sqs = (tenantOf s u).sqs) (t n : Nat) :
    sqOf (setTenant s u v) t n = sqOf s t n := by
  unfold sqOf
  by_cases h : t = u
  · rw [h, tenantOf_setTenant_same, hv]
  · rw [tenantOf_setTenant_other _ _ h]

theorem sqOf_setSq_other (s : State) {t n u m : Nat} (q : Sq) (h : ¬ (t = u ∧ n = m)) : sqOf (setSq s u m q) t n = sqOf s t n := by
  unfold sqOf setSq
  by_cases ht : t = u
  · have hn : n ≠ m := fun e => h ⟨ht, e⟩
    rw [ht, tenantOf_setTenant_same, tget_tset_other _ _ _ hn]
  · rw [tenantOf_setTenant_other _ _ ht]

theorem getEq_setEq_same (s : State) (r : EqRef) (q : Eq) : getEq (setEq s r q) r = q := by
  cases r with
  | ten t n => simp [getEq, setEq, tenEq, setTenEq]
  | pf p n => exact tget_tset_same ..

/-! The writing of event records (R46 to R53). -/

/-- A consignment apart from its completion. -/
def unposted (c : Cons) : Cons := { c with state := .accepted, entry := true, recordQueued := false }

/-- A queue without the credits of a record under way, and a consignment apart from its completion: what the writing of records
leaves alone (R42, R62). -/
def besideRecords (t n seq : Nat) (s : State) : Sq × Option Cons :=
  ({ sqOf s t n with inTransit := 0 }, (consOf s seq).map unposted)

section Records
variable (t n seq : Nat)

theorem besideRecords_of {s u : State} (hq : sqOf u t n = sqOf s t n) (hc : u.cons = s.cons) :
    besideRecords t n seq u = besideRecords t n seq s := by
  unfold besideRecords consOf
  rw [hq, hc]

theorem setEq_besideRecords (s : State) (r : EqRef) (q : Eq) : besideRecords t n seq (setEq s r q) = besideRecords t n seq s := by
  cases r with
  | ten u m => exact besideRecords_of t n seq (sqOf_setTenant s (by rfl) t n) rfl
  | pf p m => rfl

theorem noteXlat_besideRecords (s : State) (p : Port) (ats : Bool) (a : Nat) :
    besideRecords t n seq (noteXlat s p ats a) = besideRecords t n seq s := by
  unfold noteXlat
  extract_lets q
  split <;> rfl

theorem eqXlat_besideRecords (s : State) (r : EqRef) (a : Nat) : besideRecords t n seq (eqXlat s r a) = besideRecords t n seq s := by
  cases r <;> exact noteXlat_besideRecords ..

theorem functionVector_besideRecords (s : State) (u : Nat) : besideRecords t n seq (functionVector s u) = besideRecords t n seq s := by
  unfold functionVector
  generalize [Port.a, Port.b] = l
  induction l generalizing s with
  | nil => rfl
  | cons p l ih =>
    refine (ih _).trans ?_
    beta_reduce
    split <;> rfl

theorem enterError_besideRecords (s : State) (u cause : Nat) : besideRecords t n seq (enterError s u cause) = besideRecords t n seq s := by
  unfold enterError
  extract_lets v
  split
  case h_3 => rfl
  all_goals exact besideRecords_of t n seq (sqOf_setTenant s (by rfl) t n) rfl

theorem stopEq_besideRecords (s : State) (r : EqRef) : besideRecords t n seq (stopEq s r) = besideRecords t n seq s := by
  unfold stopEq
  extract_lets q s1
  have h1 : besideRecords t n seq s1 = besideRecords t n seq s := setEq_besideRecords ..
  cases r with
  | pf p m => exact h1
  | ten u m =>
    have h2 := (enterError_besideRecords t n seq s1 u 3).trans h1
    simp only [withVector]
    split
    · exact h2
    · exact (functionVector_besideRecords ..).trans h2

theorem setSq_besideRecords (s : State) (u m : Nat) (q : Sq) (hq : { q with inTransit := 0 } = { sqOf s u m with inTransit := 0 }) :
    besideRecords t n seq (setSq s u m q) = besideRecords t n seq s := by
  by_cases h : t = u ∧ n = m
  · obtain ⟨rfl, rfl⟩ := h
    refine Prod.ext ?_ rfl
    simpa [besideRecords] using hq
  · exact besideRecords_of t n seq (sqOf_setSq_other s q h) rfl

theorem modCons_besideRecords (s : State) (i : Nat) (f : Cons → Cons) (hf : ∀ c, unposted (f c) = unposted c) :
    besideRecords t n seq (modCons s i f) = besideRecords t n seq s := by
  refine Prod.ext rfl ?_
  simp only [besideRecords, consOf, modCons, mget_mmod]
  split
  · simp only [Option.map_map, Function.comp_def, hf]
  · rfl

/-- A written record changes the credits under way, or completes a consignment. -/
theorem recordWritten_besideRecords (s : State) (r : EqRef) (w : EvRec) :
    besideRecords t n seq (recordWritten s r w) = besideRecords t n seq s := by
  cases r with
  | pf p m => rfl
  | ten u m =>
    unfold recordWritten
    simp only
    split
    · exact setSq_besideRecords t n seq s u w.sqId _ (by rfl)
    · split
      · exact modCons_besideRecords t n seq { s with dev := { s.dev with busyAt := nowNs s } } w.seq _ (fun _ => rfl)
      · rfl

theorem drainEq_besideRecords (k : Nat) (s : State) (r : EqRef) :
    besideRecords t n seq (drainEq k s r) = besideRecords t n seq s := by
  induction k generalizing s with
  | zero => rfl
  | succ k ih =>
    unfold drainEq
    extract_lets q
    split
    · rfl
    · split
      · rfl
      · split
        · exact stopEq_besideRecords ..
        · extract_lets outcome s1 q1
          have h1 : besideRecords t n seq s1 = besideRecords t n seq s := eqXlat_besideRecords ..
          rw [ih, recordWritten_besideRecords, setEq_besideRecords, h1]

theorem postEq_besideRecords (s : State) (r : EqRef) (w : EvRec) : besideRecords t n seq (postEq s r w) = besideRecords t n seq s := by
  unfold postEq
  extract_lets q
  split
  · rw [drainEq_besideRecords, setEq_besideRecords]
  · rfl

end Records

/-! Credits and slots (R40 to R42). -/

/-- The credit record of a queue names its pending credits, and none are pending from then on (R42). -/
theorem reportCredits_due {s : State} {t n : Nat} (h : (sqOf s t n).exist = true ∧ (sqOf s t n).pending ≠ 0 ∧ (sqOf s t n).inTransit = 0 ∧
    (tenantOf s t).state ≠ .squashed) :
    (sqOf (reportCredits s t n) t n).pending = 0 ∧ (sqOf (reportCredits s t n) t n).oldestPending = none := by
  unfold reportCredits
  extract_lets q s1
  rw [if_pos h]
  have hq := congrArg Prod.fst (postEq_besideRecords t n 0 s1 (.ten t q.eq) { type := 1, resultLen := q.pending % 65536 + n * 65536, sqId := n })
  have h1 : sqOf s1 t n = { q with pending := 0, inTransit := q.pending, oldestPending := none } := sqOf_setSq_same ..
  simp only [besideRecords, h1] at hq
  exact ⟨congrArg Sq.pending hq, congrArg Sq.oldestPending hq⟩

theorem reportCredits_unposted (s : State) (t n seq : Nat) :
    (consOf (reportCredits s t n) seq).map unposted = (consOf s seq).map unposted := by
  unfold reportCredits
  extract_lets q s1
  split
  · exact congrArg Prod.snd (postEq_besideRecords t n seq s1 _ _)
  · rfl

/-- Freeing a slot completes consignments at most. -/
theorem freeSlot_unposted (s : State) (t n slot seq : Nat) :
    (consOf (freeSlot s t n slot) seq).map unposted = (consOf s seq).map unposted := by
  unfold freeSlot creditCheck
  extract_lets q pooled q1 s1 q2
  split
  · exact reportCredits_unposted s1 t n seq
  · rfl

/-! Descriptor fetches (R37, R38). -/

/-- A fetch takes its entries off the ring into slots. -/
theorem descriptorFetch_takes {s : State} {t : TenantId} {sq : Fin 16}
    (h : running s = true ∧ (sqOf s t.val sq.val).exist = true ∧ (sqOf s t.val sq.val).pull = true ∧ (sqOf s t.val sq.val).enabled = true ∧
      (sqOf s t.val sq.val).stopped = false ∧ (sqOf s t.val sq.val).fetch = none ∧ fetchCount s (sqOf s t.val sq.val) ≠ 0 ∧
      (tenantOf s t.val).state = .running ∧ pathUp s t.val = true) :
    ∃ w, exec (.descriptorFetch t sq) s = .next w ∧ unreported w = unreported (
      let q := sqOf s t.val sq.val
      let k := fetchCount s q
      setSq { s with anchorFree := s.anchorFree - ((takeSlots q k).filter (·.pooled)).length } t.val sq.val
        { q with head := (q.head + k) % 2 ^ q.sizeLog2, fetch := some (q.head, k), credits := q.credits ++ takeSlots q k,
                 nextSlot := q.nextSlot + k }) := by
  obtain ⟨hrun, hexist, hpull, hen, hstop, hfetch, hcount, hstate, hpath⟩ := h
  refine ⟨_, rfl, ?_⟩
  rw [if_pos (by simp [hrun, hexist, hpull, hen, hstop, hfetch, hcount, hstate, hpath])]
  extract_lets slots pooled s1 s2 q k
  split
  · exact arrive_unreported ..
  · rfl

/-- A failed fetch gives its entries back and stops the queue. -/
theorem fetchFail_stops (s : State) (t n h k : Nat) :
    (sqOf (fetchFail s t n h k) t n).head = h ∧ (sqOf (fetchFail s t n h k) t n).fetch = none ∧
      (sqOf (fetchFail s t n h k) t n).stopped = true := by
  unfold fetchFail notice
  extract_lets q back s1 s2
  have hq := congrArg Prod.fst (postEq_besideRecords t n 0 s2 (.ten t q.eq) { status := 0x0504, type := 2, resultLen := h, sqId := n })
  have h2 : sqOf s2 t n = _ := sqOf_setSq_same ..
  simp only [besideRecords, h2] at hq
  exact ⟨congrArg Sq.head hq, congrArg Sq.fetch hq, congrArg Sq.stopped hq⟩

/-! Head doorbells (R50, R51, R366). -/

theorem getEq_retirePassed (s : State) (r : EqRef) (v : Nat) : (getEq (retirePassed s r v) r).head = v ∧
    (getEq (retirePassed s r v) r).tail = (getEq s r).tail := by
  unfold retirePassed
  rw [getEq_setEq_same]
  exact ⟨rfl, rfl⟩

theorem headModeration_head (q : Eq) (now : Nat) : (headModeration q now).head = q.head := by
  unfold headModeration
  split
  · rfl
  · split <;> rfl

theorem headModeration_empty {q : Eq} (now : Nat) (h : q.head = q.tail) :
    (headModeration q now).unsignalled = 0 ∧ (headModeration q now).vectorHeld = false := by
  unfold headModeration
  rw [if_pos h]
  exact ⟨rfl, rfl⟩

/-- A head doorbell of PF0 within the written records retires what it passes, and its moderation follows. -/
theorem eqHeadDoorbell_pf0 {s : State} {p : Port} {eq : Fin 32} {v : BitVec 32} (hawake : awake s = true) (hlink : (portOf s p).link = true)
    (hd0 : (portOf s p).dstate = .d0) (hexist : (getEq s (.pf p eq.val)).exist = true) (hv : v.toNat < eqSize (getEq s (.pf p eq.val)))
    (hwritten : (v.toNat + eqSize (getEq s (.pf p eq.val)) - (getEq s (.pf p eq.val)).head) % eqSize (getEq s (.pf p eq.val)) ≤
      ((getEq s (.pf p eq.val)).tail + eqSize (getEq s (.pf p eq.val)) - (getEq s (.pf p eq.val)).head) % eqSize (getEq s (.pf p eq.val))) :
    exec (.eqHeadDoorbell p .pf0 eq 4 v) s = .next (
      let w := retirePassed (touchPort s p) (.pf p eq.val) v.toNat
      setEq w (.pf p eq.val) (headModeration (getEq w (.pf p eq.val)) (nowNs w))) := by
  show execEqHeadDoorbell p .pf0 eq 4 v s = _
  simp [execEqHeadDoorbell, refOf, hawake, hlink, hd0, hexist, Nat.not_le.mpr hv, Nat.not_lt.mpr hwritten]

/-- A tail of a chain pool below its size is taken (R328). -/
theorem chainTail_taken {s : State} {t : TenantId} {pool : Fin 64} {v : BitVec 32} (hawake : awake s = true)
    (hlistens : tenantListens s t.val = true) (hexist : (tget {} (tenantOf s t.val).pools pool.val).exist = true)
    (hv : v.toNat < 2 ^ (tget {} (tenantOf s t.val).pools pool.val).sizeLog2) :
    exec (.chainTail t pool v) s = .next (setTenant s t.val { tenantOf s t.val with
      pools := tset {} (tenantOf s t.val).pools pool.val { tget {} (tenantOf s t.val).pools pool.val with tail := v.toNat } }) := by
  show execChainTail t pool v s = _
  unfold execChainTail
  rw [if_pos ⟨hawake, hlistens, hexist, hv⟩]

end Sys2Proof.Machine

namespace Sys2Proof.Proofs
open Sys2Proof.Machine

/-- Settles O33: what a command writes is read back, and the records it posts leave it alone (besideRecords). -/
theorem queuesMoveOn : Obligations.QueuesMoveOn := by
  unfold Obligations.QueuesMoveOn
  intro s p t sq data eq v pool seq h k c old
  refine ⟨fun hrun hexist hpull hen hstop hfetch hcount hstate hpath => ?_, fun hfetch => ?_, fun hfetch r hr => ?_,
    fun hawake hlink hd0 hexist hv hwritten => ?_, fun hawake hlistens hexist hv => ?_, fun hc hstored => ?_,
    fun hold hdue hexist hpending htransit hstate => ?_⟩
  · obtain ⟨w, hw, hu⟩ := descriptorFetch_takes ⟨hrun, hexist, hpull, hen, hstop, hfetch, hcount.ne', hstate, hpath⟩
    exact ⟨w, hw, (field_of_unreported hu (sqOf · t.val sq.val) fun _ => rfl).trans (sqOf_setSq_same ..),
      field_of_unreported hu State.anchorFree fun _ => rfl⟩
  · show execDescriptorFetchComplete t sq (.ok data) s = _
    simp [execDescriptorFetchComplete, hfetch]
  · refine ⟨fetchFail s t.val sq.val h k, ?_, fetchFail_stops ..⟩
    show execDescriptorFetchComplete t sq r s = _
    simp only [List.mem_cons, List.not_mem_nil, or_false] at hr
    obtain rfl | rfl := hr <;> simp only [execDescriptorFetchComplete, hfetch]
  · refine ⟨_, eqHeadDoorbell_pf0 hawake hlink hd0 hexist hv hwritten, ?_⟩
    obtain ⟨hhead, htail⟩ := getEq_retirePassed (touchPort s p) (.pf p eq.val) v.toNat
    simp only [getEq_setEq_same]
    refine ⟨(headModeration_head ..).trans hhead, fun he => headModeration_empty _ ?_⟩
    rw [hhead, htail, he]
    simp [getEq]
  · exact ⟨_, chainTail_taken hawake hlistens hexist hv, by simp, rfl⟩
  · refine ⟨freeSlot (setCons s seq { c with recordStored := true }) c.tenant c.sq c.slot, ?_, ?_⟩
    · show execAcceptedRecordStored seq s = _
      simp [execAcceptedRecordStored, hc, hstored]
    · have hw := freeSlot_unposted (setCons s seq { c with recordStored := true }) c.tenant c.sq c.slot seq
      rw [consOf_setCons_same] at hw
      obtain ⟨d, hd, hdc⟩ := Option.map_eq_some_iff.mp hw
      have hstored' := congrArg Cons.recordStored hdc
      have hdesc := congrArg Cons.desc hdc
      exact ⟨d, hd, hstored', hdesc⟩
  · refine ⟨reportCredits s t.val sq.val, ?_, reportCredits_due ⟨hexist, hpending, htransit, hstate⟩⟩
    show execCreditTimeExpiry t sq s = _
    simp [execCreditTimeExpiry, hold, hdue]

end Sys2Proof.Proofs
end

section
/-! PROOFS. The built-in handlers (R58, R59, R62, R301, R515): what a start of a job and the engines' queues leave of the consignment
and of the jobs, and the decisions of R515 in order. -/

namespace Sys2Proof.Machine

/-! Jobs and the in-flight table. -/

/-- The in-flight table, and what a job is and acts for: what the course of jobs leaves alone. -/
def besideJobs (id : Nat) (s : State) : Table Cons × Option (Nat × Nat) :=
  (s.cons, (jobOf s id).map (fun j => (j.fn, j.seq)))

section Course
variable (id : Nat)

/-- A change of jobs that keeps what they are and act for. -/
theorem modJob_besideJobs (s : State) (i : Nat) (f : Job → Job) (hf : ∀ j, (f j).fn = j.fn ∧ (f j).seq = j.seq) :
    besideJobs id (modJob s i f) = besideJobs id s := by
  refine Prod.ext rfl ?_
  simp only [besideJobs, jobOf, modJob, mget_mmod]
  split
  · simp only [Option.map_map, Function.comp_def, hf]
  · rfl

theorem askKeys_besideJobs (s : State) (i : Nat) : besideJobs id (askKeys s i) = besideJobs id s := by
  unfold askKeys
  cases jobOf s i with
  | none => rfl
  | some j => exact modJob_besideJobs id s i _ (fun _ => ⟨rfl, rfl⟩)

theorem grantContexts_besideJobs (k : Nat) (s : State) : besideJobs id (grantContexts k s) = besideJobs id s := by
  induction k generalizing s with
  | zero => rfl
  | succ k ih =>
    unfold grantContexts
    split
    · rfl
    · split
      · rfl
      · exact (ih _).trans (askKeys_besideJobs ..)

theorem assignOne_besideJobs (s : State) (k : EngineKind) : besideJobs id (assignOne s k) = besideJobs id s := by
  unfold assignOne
  split
  · rfl
  · extract_lets us
    split
    · exact modJob_besideJobs id s _ _ (fun _ => ⟨rfl, rfl⟩)
    · rfl

theorem assignAll_besideJobs (k : EngineKind) (n : Nat) (s : State) :
    besideJobs id (iter (fun s => assignOne s k) n s) = besideJobs id s := by
  induction n generalizing s with
  | zero => rfl
  | succ n ih => exact (ih _).trans (assignOne_besideJobs ..)

theorem assignUnits_besideJobs (s : State) : besideJobs id (assignUnits s) = besideJobs id s := by
  unfold assignUnits
  simp only [assignAll_besideJobs, grantContexts_besideJobs]

theorem jobEnd_besideJobs (s : State) (i status len value : Nat) :
    besideJobs id (jobEnd s i status len value) = besideJobs id s :=
  modJob_besideJobs id s i _ (fun _ => ⟨rfl, rfl⟩)

theorem jobResult_besideJobs (s : State) (i : Nat) (o : Nat × List Byte × Nat) :
    besideJobs id (jobResult s i o) = besideJobs id s :=
  (jobEnd_besideJobs ..).trans (modJob_besideJobs id { s with freeCtr := s.freeCtr + 1 } i _ (fun _ => ⟨rfl, rfl⟩))

theorem jobReady_besideJobs (s : State) (i : Nat) : besideJobs id (jobReady s i) = besideJobs id s := by
  unfold jobReady
  cases jobOf s i with
  | none => rfl
  | some j =>
    simp -zeta only
    extract_lets alg
    split
    · exact jobResult_besideJobs ..
    · exact (assignUnits_besideJobs ..).trans (modJob_besideJobs id { s with nextJob := s.nextJob + 1 } i _ (fun _ => ⟨rfl, rfl⟩))
    · exact (assignUnits_besideJobs ..).trans (modJob_besideJobs id { s with nextJob := s.nextJob + 1 } i _ (fun _ => ⟨rfl, rfl⟩))

/-- A job that enters leaves the consignments alone, and stays what it is. -/
theorem jobEnter_besideJobs (s : State) (i : Nat) : besideJobs id (jobEnter s i) = besideJobs id s := by
  unfold jobEnter
  cases jobOf s i with
  | none => rfl
  | some j =>
    simp -zeta only
    split
    · exact (grantContexts_besideJobs ..).trans (modJob_besideJobs id { s with nextJob := s.nextJob + 1 } i _ (fun _ => ⟨rfl, rfl⟩))
    · split
      · exact jobReady_besideJobs ..
      · exact askKeys_besideJobs ..

end Course

/-- The outcome of a job of one piece stands in its job when it is done. -/
theorem jobOf_jobResult {s : State} {id : Nat} {j : Job} (h : jobOf s id = some j) (o : Nat × List Byte × Nat) :
    ∃ k, jobOf (jobResult s id o) id = some k ∧ k.finished = true ∧ k.status = o.1 ∧ k.result = o.2.1 ∧ k.value = o.2.2 := by
  unfold jobOf at h
  simp [jobResult, jobEnd, modJob, jobOf, mget_mmod, h]

/-! The start of a job. -/

/-- The state in which the job of a consignment has been made, with the next number. -/
def jobMade (s : State) (seq : Nat) (c : Cons) (j : Job) : State :=
  setCons { s with nextJob := s.nextJob + 1, jobs := mset s.jobs s.nextJob j } seq { c with phase := .job s.nextJob }

theorem jobOf_jobMade (s : State) (seq : Nat) (c : Cons) (j : Job) : jobOf (jobMade s seq c j) s.nextJob = some j :=
  mget_mset_same ..

/-- A consignment waits for its job, which is there and has its function. -/
def jobBegun (s t : State) (seq : Nat) (c : Cons) (fn : Nat) : Prop :=
  consOf t seq = some { c with phase := .job s.nextJob } ∧ ∃ k, jobOf t s.nextJob = some k ∧ k.fn = fn ∧ k.seq = seq

/-- A job just made has begun in every state that differs in the course of jobs alone. -/
theorem jobBegun_of_besideJobs {s t : State} {seq fn : Nat} {c : Cons} {j : Job} (hfn : j.fn = fn) (hseq : j.seq = seq)
    (h : besideJobs s.nextJob t = besideJobs s.nextJob (jobMade s seq c j)) : jobBegun s t seq c fn := by
  have hcons : t.cons = (jobMade s seq c j).cons := congrArg Prod.fst h
  have hjob := congrArg Prod.snd h
  simp only [besideJobs, jobOf_jobMade, Option.map_some] at hjob
  obtain ⟨k, hk, hkj⟩ := Option.map_eq_some_iff.mp hjob
  obtain ⟨hkf, hks⟩ := Prod.mk.inj hkj
  refine ⟨?_, k, hk, hkf.trans hfn, hks.trans hseq⟩
  unfold consOf
  rw [hcons]
  exact mget_mset_same ..

/-! The decisions of R515. -/

/-- The source of a built-in with its parameter block (R32, R58). -/
def fullSource (c : Cons) : List Byte := if fDock c.desc then c.dock else c.source.getD []

/-- The job of a built-in (R58): ECHO has no parameter block. -/
def builtinJob (seq fn : Nat) (c : Cons) : Job :=
  let full := fullSource c
  let b := if fn = 0xF060 then { variant := 0, auxLen := 0, aux := 0 } else parseBlock full
  let src := if fn = 0xF060 then full else full.drop 16
  { seq := seq, attempt := c.attempt, tenant := c.tenant, fn := fn, variant := b.variant, keyA := c.desc.keyA.toNat,
    keyB := c.desc.keyB.toNat, auxLen := b.auxLen, aux := b.aux, src := src, srcLen := src.length, dst := c.desc.dstAddr.toNat,
    dstLen := c.desc.dstLen.toNat }

/-- The lengths of a job's source are those its function takes (R514). -/
def jobLengthsOk (j : Job) : Bool := lengthsOk j.fn j.variant j.auxLen j.aux j.srcLen

/-- A consignment of a built-in waits for its engine, and its handler is the function. -/
def reachesEngine (s : State) (seq : Nat) (c : Cons) (fn : Nat) : Prop :=
  running s = true ∧ consOf s seq = some c ∧ c.state = .accepted ∧ c.phase = .builtin ∧ c.desc.handler.toNat = fn ∧ c.expired = false

section Start
variable {s : State} {seq fn : Nat} {c : Cons} (h : reachesEngine s seq c fn)
include h

/-- The block decides first, then the lengths, then the key and what else refuses a job; else the job enters. -/
theorem builtinStart_reached :
    builtinStart s fn seq =
      if fn ≠ 0xF060 ∧ !(blockOk fn c.desc.keyA.toNat (fullSource c)) then failCons s seq 0x0104 0 0
      else if fn ≠ 0xF060 ∧ !(jobLengthsOk (builtinJob seq fn c)) then failCons s seq 0x0401 0 0
      else (jobRefusal s (builtinJob seq fn c)).elim (jobEnter (jobMade s seq c (builtinJob seq fn c)) s.nextJob)
        (fun r => failCons s seq r.1 0 r.2) := by
  obtain ⟨hrun, hc, hstate, hphase, hhandler, hexp⟩ := h
  have hreach : ¬ (!(running s) ∨ c.state ≠ .accepted ∨ c.phase ≠ .builtin ∨ c.desc.handler.toNat ≠ fn ∨ c.expired) := by
    simp [hrun, hstate, hphase, hhandler, hexp]
  unfold builtinStart
  simp -zeta only [hc]
  rw [if_neg hreach]
  extract_lets full b keyA src j
  have hj : j = builtinJob seq fn c := by
    by_cases hfn : fn = 0xF060 <;> simp [j, src, b, keyA, full, builtinJob, fullSource, hfn]
  change (if fn ≠ 0xF060 ∧ !(blockOk fn c.desc.keyA.toNat (fullSource c)) then _ else
    if fn ≠ 0xF060 ∧ !(jobLengthsOk j) then _ else _) = _
  rw [hj]
  cases jobRefusal s (builtinJob seq fn c) <;> rfl

theorem builtinStart_bad_block (hfn : fn ≠ 0xF060) (hblock : blockOk fn c.desc.keyA.toNat (fullSource c) = false) :
    builtinStart s fn seq = failCons s seq 0x0104 0 0 := by
  rw [builtinStart_reached h, if_pos ⟨hfn, by simp [hblock]⟩]

theorem builtinStart_bad_lengths (hfn : fn ≠ 0xF060) (hblock : blockOk fn c.desc.keyA.toNat (fullSource c) = true)
    (hlen : jobLengthsOk (builtinJob seq fn c) = false) :
    builtinStart s fn seq = failCons s seq 0x0401 0 0 := by
  rw [builtinStart_reached h, if_neg (by simp [hblock]), if_pos ⟨hfn, by simp [hlen]⟩]

/-- Where block and lengths are right, or ECHO has neither, the key and what else refuses a job decides. -/
theorem builtinStart_good (hgood : fn = 0xF060 ∨ blockOk fn c.desc.keyA.toNat (fullSource c) = true ∧
      jobLengthsOk (builtinJob seq fn c) = true) :
    builtinStart s fn seq =
      (jobRefusal s (builtinJob seq fn c)).elim (jobEnter (jobMade s seq c (builtinJob seq fn c)) s.nextJob)
        (fun r => failCons s seq r.1 0 r.2) := by
  rw [builtinStart_reached h]
  obtain rfl | ⟨hblock, hlen⟩ := hgood
  · simp
  · simp [hblock, hlen]

end Start

theorem jobBegun_of_jobEnter (s : State) (seq fn : Nat) (c : Cons) :
    jobBegun s (jobEnter (jobMade s seq c (builtinJob seq fn c)) s.nextJob) seq c fn :=
  jobBegun_of_besideJobs rfl rfl (jobEnter_besideJobs ..)

/-! Jobs of one piece (R59). -/

/-- A job of one piece without a key is done when it enters, with its outcome. -/
theorem jobEnter_piece {s : State} {id : Nat} {j : Job} {r : List Byte} (hj : jobOf s id = some j)
    (hengine : engineOf j.fn j.variant = .other) (hkeys : jobKeys j = [])
    (hpiece : ∀ algA algB, pieceOutcome s j algA algB = (0, r, 0)) :
    ∃ k, jobOf (jobEnter s id) id = some k ∧ k.finished = true ∧ k.status = 0 ∧ k.result = r := by
  have henter : jobEnter s id = jobResult s id (0, r, 0) := by
    simp [jobEnter, jobReady, hj, hengine, hkeys, hpiece]
  obtain ⟨k, hk, hfin, hstatus, hresult, -⟩ := jobOf_jobResult hj (0, r, 0)
  exact ⟨k, henter ▸ hk, hfin, hstatus, hresult⟩

/-- HASH without a key gives the SM3 of its data. -/
theorem jobEnter_hash {s : State} {id : Nat} {j : Job} (hj : jobOf s id = some j) (hfn : j.fn = 0xF030) (hv : j.variant = 0) :
    ∃ k, jobOf (jobEnter s id) id = some k ∧ k.finished = true ∧ k.status = 0 ∧ k.result = sm3Bytes j.src :=
  jobEnter_piece hj (by rw [hfn]; rfl) (by simp [jobKeys, hfn, hv]) (fun _ _ => by simp [pieceOutcome, hfn, hv])

/-- ECHO gives its source. -/
theorem jobEnter_echo {s : State} {id : Nat} {j : Job} (hj : jobOf s id = some j) (hfn : j.fn = 0xF060) :
    ∃ k, jobOf (jobEnter s id) id = some k ∧ k.finished = true ∧ k.status = 0 ∧ k.result = j.src :=
  jobEnter_piece hj (by rw [hfn]; rfl) (by simp [jobKeys, hfn]) (fun _ _ => by simp [pieceOutcome, hfn])

/-- ECHO is refused only where its destination is too small (R59, R515). -/
theorem jobRefusal_echo (s : State) {j : Job} (hfn : j.fn = 0xF060) (hlen : j.src.length ≤ j.dstLen) : jobRefusal s j = none := by
  simp [jobRefusal, jobCheck, jobKeys, neededLen, hfn, hlen]

/-- The answer of ECHO into a destination that holds its source (R59). -/
theorem builtinStart_echo {s : State} {seq : Nat} {c : Cons} (h : reachesEngine s seq c 0xF060)
    (hfit : (fullSource c).length ≤ c.desc.dstLen.toNat) :
    builtinStart s 0xF060 seq = jobEnter (jobMade s seq c (builtinJob seq 0xF060 c)) s.nextJob := by
  have hnone : jobRefusal s (builtinJob seq 0xF060 c) = none := jobRefusal_echo s rfl (by simpa [builtinJob] using hfit)
  rw [builtinStart_good h (.inl rfl), hnone]
  rfl

/-! PROOF (R301). -/

/-- The job that carries a proof to its destination. -/
def proofJob (seq : Nat) (c : Cons) : Job :=
  { seq := seq, attempt := c.attempt, tenant := c.tenant, fn := 0xF050, dst := c.desc.dstAddr.toNat, dstLen := c.desc.dstLen.toNat }

/-- What PROOF does with what the ledgers give. -/
def proofCourse (s : State) (seq : Nat) (c : Cons) : ProofResult → State
  | .absent => failCons s seq 0x0704 0 0
  | .wait t => setCons s seq { c with proofTide := some t }
  | .proof t bs =>
    if c.desc.dstLen.toNat < bs.length then failCons s seq 0x0403 0 bs.length
    else jobResult (jobMade s seq c (proofJob seq c)) s.nextJob (0, bs, t % 2 ^ 24)

theorem proof_reached {s : State} {seq : Nat} {c : Cons} (h : reachesEngine s seq c 0xF050)
    (hblock : blockOk 0xF050 c.desc.keyA.toNat (fullSource c) = true) (hwait : c.proofTide = none) :
    exec (.proof seq) s = .next (proofCourse s seq c (proofOf s (some c.tenant) (parseBlock (fullSource c)).aux)) := by
  obtain ⟨hrun, hc, hstate, hphase, hhandler, hexp⟩ := h
  have hreach : ¬ (!(running s) ∨ c.state ≠ .accepted ∨ c.phase ≠ .builtin ∨ c.desc.handler.toNat ≠ 0xF050 ∨ c.expired ∨
      c.proofTide.isSome) := by
    simp [hrun, hstate, hphase, hhandler, hexp, hwait]
  show execProof seq s = _
  unfold execProof
  simp -zeta only [hc]
  rw [if_neg hreach]
  extract_lets full
  rw [if_neg (by simpa [fullSource] using hblock)]
  change _ = (.next (proofCourse s seq c (proofOf s (some c.tenant) (parseBlock full).aux)) : Out)
  cases proofOf s (some c.tenant) (parseBlock full).aux <;> rfl

/-- A proof that fits its destination is a finished job's result. -/
theorem proofCourse_fits {s : State} {seq t : Nat} {c : Cons} {bs : List Byte} (hfit : bs.length ≤ c.desc.dstLen.toNat) :
    let u := proofCourse s seq c (.proof t bs)
    jobBegun s u seq c 0xF050 ∧ ∃ k, jobOf u s.nextJob = some k ∧ k.finished = true ∧ k.result = bs ∧ k.value = t % 2 ^ 24 := by
  simp only [proofCourse, Nat.not_lt.mpr hfit, if_false]
  obtain ⟨k, hk, hfin, -, hresult, hvalue⟩ := jobOf_jobResult (jobOf_jobMade s seq c (proofJob seq c)) (0, bs, t % 2 ^ 24)
  exact ⟨jobBegun_of_besideJobs rfl rfl (jobResult_besideJobs ..), k, hk, hfin, hresult, hvalue⟩

end Sys2Proof.Machine

namespace Sys2Proof.Proofs
open Sys2Proof.Machine

/-- Settles O42: the decisions of R515 are those of builtinStart_reached, and the course of a job leaves the consignment and what the
job is alone (besideJobs). -/
theorem builtinsRun : Obligations.BuiltinsRun := by
  unfold Obligations.BuiltinsRun
  intro s seq c id j full b reach job begun runs
  have hjob (fn : Nat) (hfn : fn ≠ 0xF060) : builtinJob seq fn c = job fn := by
    simp only [builtinJob, if_neg hfn]
    rfl
  have run (i : Instr) (fn : Nat) (hi : exec i s = .next (builtinStart s fn seq)) (hfn : fn ≠ 0xF060) : runs i fn := by
    refine fun h => ⟨fun hblock => ?_, fun hblock hlen => ?_, fun hblock hlen => ?_⟩
    · rw [hi, builtinStart_bad_block h hfn hblock]
    · rw [hi, builtinStart_bad_lengths h hfn hblock (by rw [hjob fn hfn]; exact hlen)]
    · have hstart := builtinStart_good h (.inr ⟨hblock, by rw [hjob fn hfn]; exact hlen⟩)
      refine ⟨fun st n hrefused => ?_, fun hnone => ⟨_, hi, ?_⟩⟩
      · rw [hi, hstart, hjob fn hfn, hrefused]
        rfl
      · rw [hstart, hjob fn hfn, hnone, ← hjob fn hfn]
        exact jobBegun_of_jobEnter s seq fn c
  refine ⟨run _ _ rfl (by decide), run _ _ rfl (by decide), run _ _ rfl (by decide), run _ _ rfl (by decide), run _ _ rfl (by decide),
    run _ _ rfl (by decide), run _ _ rfl (by decide), run _ _ rfl (by decide), run _ _ rfl (by decide), run _ _ rfl (by decide),
    fun h hblock hlen hvariant hnone => ?_, fun h hfit => ?_, fun h hblock hwait => ?_,
    fun hj hfin hth hseq hc hstate hphase hstatus => ?_⟩
  · refine ⟨builtinStart s 0xF030 seq, rfl, ?_⟩
    have hlen' : lengthsOk 0xF030 b.variant b.auxLen b.aux (full.drop 16).length = true := by rw [hvariant, hlen]
    have hj := hjob 0xF030 (by decide)
    rw [builtinStart_good h (.inr ⟨hblock, by rw [hj]; exact hlen'⟩), hj, hnone, Option.elim_none]
    have hdone := jobEnter_hash (jobOf_jobMade s seq c (job 0xF030)) rfl hvariant
    exact hdone
  · refine ⟨builtinStart s 0xF060 seq, rfl, ?_⟩
    rw [builtinStart_echo h hfit]
    have hsrc : (builtinJob seq 0xF060 c).src = full := by simp [builtinJob, full, fullSource]
    exact ⟨jobBegun_of_jobEnter s seq 0xF060 c, hsrc ▸ jobEnter_echo (jobOf_jobMade s seq c (builtinJob seq 0xF060 c)) rfl⟩
  · have hproof (r : ProofResult) (hr : proofOf s (some c.tenant) b.aux = r) : exec (.proof seq) s = .next (proofCourse s seq c r) :=
      hr ▸ proof_reached h hblock hwait
    exact ⟨hproof .absent, fun t => hproof (.wait t), fun t bs hp hfit => ⟨_, hproof _ hp, proofCourse_fits hfit⟩⟩
  · show execBuiltinJobEnd id s = _
    simp [execBuiltinJobEnd, hj, hfin, hth, hseq, hc, hstate, hphase, hstatus]

end Sys2Proof.Proofs
end

section
/-! PROOFS. How a consignment runs (R71, R86, R99 to R103, R107, R109): the memory that the caches and a retry point reach, the
registers at handler entry, and what the final record and the commit point leave alone. -/

namespace Sys2Proof.Machine

/-! The caches and HBM are all of memory that a released store to a physical address reaches. -/

/-- A property that neither HBM nor a cache can change. -/
structure BesideCaches (P : State → Prop) : Prop where
  hbm : ∀ {s}, P s → ∀ line d p, P (hbmPut s line d p)
  coh : ∀ {s}, P s → ∀ b c, P (setCoh s b c)
  pc : ∀ {s}, P s → ∀ p c, P (setPc s p c)

theorem prop_ite {α : Type} {P : α → Prop} {c : Prop} [Decidable c] {a b : α} (h : P a) (k : P b) : P (if c then a else b) := by
  split
  · exact h
  · exact k

namespace BesideCaches
variable {P : State → Prop} (hP : BesideCaches P) {s : State}
include hP

theorem l2SetState (h : P s) (p line : Nat) (st : LState) : P (l2SetState s p line st) := by
  unfold Machine.l2SetState
  extract_lets pc s1
  have h1 : P s1 := hP.pc h _ _
  refine prop_ite h1 ?_
  split
  · exact h1
  · exact hP.pc h1 _ _

theorem l3Write (h : P s) (b line : Nat) (d : BitVec 512) (p : Bool) : P (l3Write s b line d p) := by
  unfold Machine.l3Write
  extract_lets c
  split
  · exact hP.coh h _ _
  · exact hP.hbm h _ _ _

theorem backInvalidate (h : P s) (b line : Nat) : P (backInvalidate s b line).1 := by
  unfold Machine.backInvalidate
  refine List.foldlRecOn (motive := fun acc : State × Option (BitVec 512 × Bool) => P acc.1) _ _ h fun acc hacc a _ => ?_
  extract_lets p
  split
  · exact hacc
  · have h1 := hP.l2SetState hacc p line .i
    exact prop_ite (hP.pc h1 _ _) h1

theorem l3Room (h : P s) (b line : Nat) : P (l3Room s b line).1 := by
  unfold Machine.l3Room
  extract_lets c wayLine free
  generalize cVictim c.l3 l3Sets l3Ways line free 5 = v
  obtain ⟨l3, w⟩ := v
  simp -zeta only
  extract_lets i s1 l s2 c2
  have h1 : P s1 := hP.coh h _ _
  have h2 := hP.backInvalidate h1 b l.line
  split
  · exact h1
  · refine hP.coh (s := s2) ?_ _ _
    simp only [s2]
    split
    · exact hP.hbm h2 _ _ _
    · exact prop_ite (hP.hbm h2 _ _ _) h2

theorem l3Fetch (h : P s) (b line age : Nat) : P (l3Fetch s b line age).1 := by
  unfold Machine.l3Fetch
  extract_lets c
  split
  · exact hP.coh h _ _
  · exact hP.coh (hP.l3Room h b line) _ _

theorem l2Install (h : P s) (p line : Nat) (st : LState) (d : BitVec 512) (q : Bool) (age : Nat) :
    P (l2Install s p line st d q age) := by
  unfold Machine.l2Install
  extract_lets pc
  split
  · exact hP.pc h _ _
  · generalize cVictim _ _ _ _ _ _ = v
    obtain ⟨l2, w⟩ := v
    cases w with
    | none => exact h
    | some i => exact hP.pc (prop_ite (hP.pc h _ _) (hP.pc (hP.pc h _ _) _ _)) _ _

theorem dropOthers (h : P s) (b a line : Nat) : P (dropOthers s b a line) :=
  List.foldlRecOn _ _ h fun _ h _ _ => prop_ite h (hP.l2SetState h _ _ _)

theorem fetchOwned (h : P s) (p line : Nat) : P (fetchOwned s p line) := by
  have h1 := hP.l3Fetch h (pierBasin p) line 1
  exact prop_ite h1 (hP.l2Install (hP.coh (hP.dropOthers h1 _ _ _) _ _) _ _ _ _ _ _)

theorem physStore (h : P s) (th : ThreadId) (pa : Nat) (v : Byte) : P (physStore s th pa v) := by
  unfold Machine.physStore
  extract_lets p line own l1Own l2Own s1 pc put l2i mine keep l1i pc1
  have h1 : P s1 := prop_ite (hP.fetchOwned h _ _) h
  clear_value s1 l2i pc1
  cases l2i with
  | some i => exact hP.pc h1 _ _
  | none => exact prop_ite (hP.pc h1 _ _) (hP.l3Write h1 _ _ _ _)

end BesideCaches

/-- A store of a thread to an object changes no ledgered byte: one to a partition range joins the commit set (R106). -/
theorem objStore_ledgered (s : State) (th : ThreadId) (o : Obj) (a : Nat) (v : Byte) :
    (objStore s th o a v).mem.ledgered = s.mem.ledgered := by
  cases o with
  | phys => exact BesideCaches.physStore (P := fun u => u.mem.ledgered = s.mem.ledgered) ⟨fun h _ _ _ => h, fun h _ _ => h, fun h _ _ => h⟩ rfl th a v
  | _ => rfl

theorem releaseGated_ledgered (s : State) (th : ThreadId) : (releaseGated s th).mem.ledgered = s.mem.ledgered :=
  List.foldlRecOn (motive := fun u : State => u.mem.ledgered = s.mem.ledgered) _ _ rfl fun _ h x _ =>
    (objStore_ledgered _ th x.obj x.addr x.byte).trans h

@[simp] theorem retryPoint_ledgered (s : State) (th : ThreadId) : (retryPoint s th).mem.ledgered = s.mem.ledgered := by
  refine Eq.trans ?_ (releaseGated_ledgered s th)
  unfold retryPoint
  extract_lets s1 s2 v left
  exact prop_ite (P := fun u : State => u.mem.ledgered = _) rfl rfl

@[simp] theorem finish_ledgered (s : State) (th : ThreadId) (a : Arch) : (finish s th a).mem.ledgered = s.mem.ledgered := by
  unfold finish retire
  extract_lets s1
  exact prop_ite (P := fun u : State => u.mem.ledgered = _) (retryPoint_ledgered s1 th) rfl

@[simp] theorem retryPoint_cons (s : State) (th : ThreadId) : (retryPoint s th).cons = s.cons := by
  have h := congrArg State.cons (retryPoint_far s th)
  exact h
@[simp] theorem finish_cons (s : State) (th : ThreadId) (a : Arch) : (finish s th a).cons = s.cons := by
  have h := congrArg State.cons (retire_far (setArch s th (stepPc a)) th)
  exact h

/-- What of a thread tells how far its handler has come: neither the gated stores nor the checkpoint. -/
def progress (t : Thread) : Run × Ended × List Nat × Arch := (t.run, t.ended, t.csetLines, t.arch)

theorem retryPoint_progress (s : State) (th : ThreadId) : progress (thr (retryPoint s th) th) = progress (thr s th) := by
  have h := congrArg progress (retryPoint_bare s th)
  exact h

theorem finish_progress (s : State) (th : ThreadId) (a : Arch) :
    progress (thr (finish s th a) th) = progress { thr s th with arch := stepPc a } := by
  unfold finish
  rw [retire_field progress (fun _ => rfl) (fun _ _ _ _ => rfl), thr_setArch_same]

/-! Handler entry (R99 to R102). -/

theorem wrWs_status_fcsr (vs : List Word) (a : Arch) (n : Nat) : (wrWs a n vs).status = a.status ∧ (wrWs a n vs).fcsr = a.fcsr := by
  induction vs generalizing a n with
  | nil => exact ⟨rfl, rfl⟩
  | cons v vs ih => exact ih (wrW a n v) (n + 1)

/-- A handler starts in user mode with FCSR 0 (R102). -/
theorem entryArch_status_fcsr (s : State) (th : ThreadId) (c : Cons) : (entryArch s th c).status = 0 ∧ (entryArch s th c).fcsr = 0 :=
  wrWs_status_fcsr _ _ _

/-- The thread of a handler that starts, and the consignments, which its entry leaves alone. -/
theorem enterHandler_thr (s : State) (th : ThreadId) (seq : Nat) (c : Cons) :
    (thr (enterHandler s th seq c) th).run = .active ∧ (thr (enterHandler s th seq c) th).seq = seq ∧
      (thr (enterHandler s th seq c) th).ended = .no ∧ (thr (enterHandler s th seq c) th).gated = [] ∧
      (thr (enterHandler s th seq c) th).csetLines = [] ∧ (regsOf (enterHandler s th seq c) th).status = 0 ∧
      (regsOf (enterHandler s th seq c) th).fcsr = 0 ∧ (enterHandler s th seq c).cons = s.cons := by
  unfold enterHandler regsOf
  extract_lets t a u
  have ha : a.status = 0 ∧ a.fcsr = 0 := entryArch_status_fcsr s th c
  rw [thr_setThr_same]
  exact ⟨rfl, rfl, rfl, rfl, rfl, ha.1, ha.2, rfl⟩

/-- The dispatched consignment, as it stands on its thread (R71). -/
def dispatched (s : State) (th : ThreadId) (c : Cons) : Cons :=
  { c with phase := .onThread th, headOfList := false,
           place := { basin := th.basin.val, pier := th.pier.val % 4, pair := ((posOf s th).pair).getD 31 } }

theorem consignmentDispatch_taken {s : State} {th : ThreadId} {seq : Nat} {c : Cons} (htake : canTake s th = true)
    (hpick : pickReady s th = some (seq, c)) :
    exec (.consignmentDispatch th) s = .next (
      let u := setBasin s th.basin.val { basinOf s th.basin.val with dispatches := ((basinOf s th.basin.val).dispatches + 1) % 16 }
      enterHandler (setCons u seq (dispatched s th c)) th seq (dispatched s th c)) := by
  show execConsignmentDispatch th s = _
  unfold execConsignmentDispatch
  simp only [htake, hpick]
  rfl

/-! The final record (R62, R79 to R81, R86). -/

/-- The open tide changes nothing but the tides, their numbers and the settings that wait for a boundary (R294). -/
theorem openTide_changes (s : State) : ∃ t q c, (openTide s).1 = { s with tides := t, seqs := q, cfg := c } := by
  unfold openTide
  cases s.tides.cur with
  | some t => exact ⟨s.tides, s.seqs, s.cfg, rfl⟩
  | none =>
    cases s.cfg.later with
    | none => exact ⟨_, _, _, rfl⟩
    | some l => exact ⟨_, _, _, rfl⟩

/-- A record appended to a ledger changes the ledger and the open tide alone. -/
theorem appendRec_changes (s : State) (b : Nat) (r : LRec) :
    ∃ t q c l, (appendRec s b r).1 = { s with tides := t, seqs := q, cfg := c, ledgers := l } := by
  obtain ⟨t, q, c, h⟩ := openTide_changes s
  unfold appendRec
  simp -zeta only
  rw [h]
  exact ⟨_, _, _, _, rfl⟩

/-- The final record of a consignment changes its ledger, the open tide and the consignment alone. -/
theorem appendFinal_changes (s : State) (seq : Nat) (c : Cons) (k : Bool) : ∃ t q g l f,
    appendFinal s seq c k = setCons { s with tides := t, seqs := q, cfg := g, ledgers := l } seq { c with finalRec := some f } := by
  unfold appendFinal
  extract_lets b src out st
  obtain ⟨t, q, g, l, h⟩ := appendRec_changes s b (formRec s seq c (if k then 3 else 4) st src out)
  simp -zeta only
  rw [h]
  exact ⟨_, _, _, _, _, rfl⟩

/-! The commit point (R86, R107, R109). -/

/-- The commit group of a consignment is applied whole: its bytes reach ledgered memory, and its lines lose their poison (R86). -/
def groupWritten (s : State) (c : Cons) : State :=
  { s with mem := { s.mem with
      ledgered := c.group.foldl (fun m e => tset 0 m e.1 e.2) s.mem.ledgered,
      poisonLedger := s.mem.poisonLedger.filter (fun l => !((c.group.filter (fun e => e.1 / 64 == l)).length == 64)) } }

/-- The consignment past its commit point (R86). -/
def groupDone (c : Cons) : Cons := { c with group := [], groupSent := false, phase := if c.state = .accepted then .ended else c.phase }

/-- The state in which the final record has been written and the holds have ended (R86, R107). -/
def groupApplied (s : State) (seq : Nat) (c : Cons) : State :=
  releaseHolds (appendFinal (setCons (groupWritten s c) seq (groupDone c)) seq (groupDone c) true) c.groupFrom seq

theorem groupApplied_reads (s : State) (seq : Nat) (c : Cons) :
    (groupApplied s seq c).mem = (groupWritten s c).mem ∧ (groupApplied s seq c).threads = s.threads ∧
      ∃ f, consOf (groupApplied s seq c) seq = some { groupDone c with finalRec := some f } := by
  obtain ⟨t, q, g, l, f, h⟩ := appendFinal_changes (setCons (groupWritten s c) seq (groupDone c)) seq (groupDone c) true
  unfold groupApplied
  rw [h]
  exact ⟨rfl, rfl, f, consOf_setCons_same _ _ _⟩

/-- The COMMIT that waits at the commit point retires (R109). -/
def commitRetires (s : State) (th : ThreadId) : State :=
  let s := modThr s th (fun t => { t with run := .active, ended := .committed, csetLines := [], csetBytes := [] })
  retryPoint (finish s th (thr s th).arch) th

theorem commitRetires_progress (s : State) (th : ThreadId) :
    progress (thr (commitRetires s th) th) = (.active, .committed, [], stepPc (regsOf s th)) := by
  unfold commitRetires
  simp only [retryPoint_progress, finish_progress, thr_modThr_same]
  rfl

/-- What a commit point comes to: the group is applied, and the waiting COMMIT, where there is one, retires. -/
theorem commitPoint_reached {s : State} {seq : Nat} {c : Cons} (hc : consOf s seq = some c) (hsent : c.groupSent = true)
    (hread : (basinOf s (stackOf s c.part)).hbmReadable = true) :
    exec (.commitPoint seq) s = .next ((committing s seq).elim (groupApplied s seq c) (commitRetires (groupApplied s seq c))) := by
  have hthreads : committing (groupApplied s seq c) seq = committing s seq := by
    unfold committing
    rw [(groupApplied_reads s seq c).2.1]
  show execCommitPoint seq s = _
  unfold execCommitPoint
  simp -zeta only [hc]
  extract_lets whole m s1 d s2 s3
  have hs3 : s3 = groupApplied s seq c := rfl
  clear_value s3
  rw [if_neg (by simp [hsent, hread]), hs3, hthreads]
  cases committing s seq with
  | none => rfl
  | some th => simp only [Option.elim_some, commitRetires]

/-- The COMMIT that waits changes neither the ledgered memory nor a consignment, and no other thread takes part. -/
theorem commitRetires_reads (s : State) (th : ThreadId) :
    (commitRetires s th).mem.ledgered = s.mem.ledgered ∧ (commitRetires s th).cons = s.cons := by
  unfold commitRetires
  simp only [retryPoint_ledgered, finish_ledgered, retryPoint_cons, finish_cons]
  exact ⟨rfl, rfl⟩

/-- What the Quayside makes of the reported end of a handler (R62, R103). -/
theorem commitReport_ended {s : State} {seq : Nat} {c : Cons} {r : EndReport} (hc : consOf s seq = some c) (hstate : c.state = .accepted)
    (hphase : c.phase = .ended) (hscuttle : c.scuttling = false) (hreport : c.report = some r) :
    exec (.commitReport seq) s = .next (if r.committed then (if c.finalRec.isSome then recordFinal s seq true else s)
      else failCons s seq r.status r.value.toNat r.resultLen) := by
  show execCommitReport seq s = _
  unfold execCommitReport
  simp only [hc]
  rw [if_neg (by simp [hstate, hphase, hscuttle]), hreport]

end Sys2Proof.Machine

namespace Sys2Proof.Proofs
open Sys2Proof.Machine

/-- Settles O34: dispatch and reads are read off their commands; at the commit point neither the final record nor the retiring COMMIT
touches what the group wrote. -/
theorem consignmentsRun : Obligations.ConsignmentsRun := by
  unfold Obligations.ConsignmentsRun
  intro s th seq c data r
  refine ⟨fun htake hpick => ?_, fun hc hreading hstate hpath => ⟨?_, ?_⟩, fun hc hsent hread => ?_,
    fun hc hstate hphase hscuttle hreport => ⟨fun hcommitted hfinal => ?_, fun hfailed => ?_⟩⟩
  · refine ⟨_, consignmentDispatch_taken htake hpick, ?_⟩
    obtain ⟨hrun, hseq, hended, hgated, hlines, hstatus, hfcsr, hcons⟩ := enterHandler_thr (setCons (setBasin s th.basin.val
      { basinOf s th.basin.val with dispatches := ((basinOf s th.basin.val).dispatches + 1) % 16 }) seq (dispatched s th c)) th seq (dispatched s th c)
    exact ⟨hrun, hseq, hended, hgated, hlines, by rw [hstatus]; rfl, hfcsr, _,
      (congrArg (mget · seq) hcons).trans (consOf_setCons_same _ _ _), rfl, rfl, rfl⟩
  · show Host.Outcome.next (sourceRead s seq (.ok data)) = _
    simp [sourceRead, hc, hreading, hstate, hpath]
  · show Host.Outcome.next (sourceRead s seq .noTranslation) = _
    simp [sourceRead, hc, hreading, hstate, hpath]
  · obtain ⟨hmem, hthreads, f, hcons⟩ := groupApplied_reads s seq c
    refine ⟨_, commitPoint_reached hc hsent hread, ?_⟩
    generalize groupApplied s seq c = u at hmem hthreads hcons ⊢
    cases hcommit : committing s seq with
    | none => exact ⟨congrArg Mem.ledgered hmem, (fun _ hx => nomatch hx), _, hcons, rfl, rfl, rfl⟩
    | some x =>
      rw [Option.elim_some]
      obtain ⟨hledgered, hsame⟩ := commitRetires_reads u x
      refine ⟨hledgered.trans (congrArg Mem.ledgered hmem), fun y hy => ?_, _, (congrArg (mget · seq) hsame).trans hcons, rfl, rfl, rfl⟩
      cases hy
      have hx := commitRetires_progress u x
      simp only [progress, Prod.mk.injEq, regsOf, thr_of_threads hthreads] at hx
      exact hx
  · rw [commitReport_ended hc hstate hphase hscuttle hreport, if_pos hcommitted, if_pos hfinal]
  · rw [commitReport_ended hc hstate hphase hscuttle hreport, if_neg (by simp [hfailed])]

end Sys2Proof.Proofs
end

section
/-! PROOFS. What the event records, the completions and the paths of a tenant leave alone (R46 to R54, R62, R89 to R92): the helm, the
ledgers, and of a port all but the translations it holds and WAKE#. -/

namespace Sys2Proof.Machine

/-- A port without the translations it holds and WAKE#. -/
def portRest (v : PortState) : PortState := { v with atsCache := [], wake := false }

/-- The helm, the ledgers, and the ports but for the translations they hold and WAKE#. -/
def steady (s : State) : Helm × Table Ledger × (Port → PortState) := (s.helm, s.ledgers, fun p => portRest (portOf s p))

theorem steady_ite {c : Prop} [Decidable c] {s t : State} {x : Helm × Table Ledger × (Port → PortState)} (h : steady s = x)
    (k : steady t = x) : steady (if c then s else t) = x := by
  split
  · exact h
  · exact k

theorem steady_foldl {α : Type} (f : State → α → State) (hf : ∀ s x, steady (f s x) = steady s) (l : List α) (s : State) :
    steady (l.foldl f s) = steady s := by
  induction l generalizing s with
  | nil => rfl
  | cons a l ih => exact (ih _).trans (hf s a)

theorem Port.num_inj {p q : Port} (h : p.num = q.num) : p = q :=
  match p, q with
  | .a, .a | .b, .b => rfl
  | .a, .b | .b, .a => absurd h (by decide)

/-- A change of a port that only its translations and WAKE# show. -/
theorem steady_setPort {s : State} {p : Port} {v : PortState} (h : portRest v = portRest (portOf s p)) :
    steady (setPort s p v) = steady s := by
  refine Prod.ext rfl (Prod.ext rfl (funext fun q => ?_))
  by_cases e : q = p
  · subst e
    exact (congrArg portRest (portOf_setPort_same s q v)).trans h
  · exact congrArg portRest (tget_tset_other _ _ _ fun k => e (Port.num_inj k))

theorem steady_of_unreported {s t : State} (h : unreported t = unreported s) : steady t = steady s :=
  field_of_unreported h steady fun _ => rfl

@[simp] theorem arrive_steady (s : State) (n d : Nat) (p : Bool) : steady (arrive s n d p) = steady s :=
  steady_of_unreported (arrive_unreported s n d p)
@[simp] theorem logAdd_steady (s : State) (code cls island place tenant seq : Nat) (d : List Byte) :
    steady (logAdd s code cls island place tenant seq d) = steady s :=
  steady_of_unreported (logAdd_unreported ..)

/-- A halted Harbour stays halted through the arrivals that report it (R353, R371). -/
theorem arrive_halted {s : State} (h : s.dev.st = .halted) (n d : Nat) (p : Bool) : (arrive s n d p).dev.st = .halted := by
  unfold arrive
  split
  · exact h
  · extract_lets v now first v1 v2 u
    rw [if_neg (by simp [u, setSrc, h])]
    exact h

theorem haltHarbour_halted (s : State) (code : Nat) : (haltHarbour s code).dev.st = .halted :=
  arrive_halted (arrive_halted rfl _ _ _) _ _ _

/-! Event records (R46 to R53). -/

@[simp] theorem setEq_steady (s : State) (r : EqRef) (q : Eq) : steady (setEq s r q) = steady s := by cases r <;> rfl

@[simp] theorem noteXlat_steady (s : State) (p : Port) (ats : Bool) (a : Nat) : steady (noteXlat s p ats a) = steady s := by
  unfold noteXlat
  extract_lets q
  exact steady_ite (steady_setPort rfl) rfl

@[simp] theorem eqXlat_steady (s : State) (r : EqRef) (a : Nat) : steady (eqXlat s r a) = steady s := by
  cases r <;> exact noteXlat_steady ..

@[simp] theorem functionVector_steady (s : State) (t : Nat) : steady (functionVector s t) = steady s :=
  steady_foldl (fun s p => if vfInServiceB s p t then
    setVf s p t { vfOf s p t with msix := tset {} (vfOf s p t).msix 16 (vectorSend (tget {} (vfOf s p t).msix 16)) } else s)
    (fun _ _ => steady_ite rfl rfl) [Port.a, Port.b] s

/-- The function vector adds nothing to what an operation changes. -/
theorem withVector_steady {t : Nat} {f : State → State} {s : State} (h : steady (f s) = steady s) : steady (withVector t f s) = steady s := by
  unfold withVector
  extract_lets u
  exact steady_ite h ((functionVector_steady u t).trans h)

@[simp] theorem enterError_steady (s : State) (t cause : Nat) : steady (enterError s t cause) = steady s := by
  unfold enterError
  extract_lets v
  split <;> rfl

@[simp] theorem stopEq_steady (s : State) (r : EqRef) : steady (stopEq s r) = steady s := by
  unfold stopEq
  extract_lets q u
  have hu : steady u = steady s := setEq_steady ..
  cases r with
  | pf p n => exact hu
  | ten t n => exact (withVector_steady (enterError_steady u t 3)).trans hu

@[simp] theorem recordWritten_steady (s : State) (r : EqRef) (w : EvRec) : steady (recordWritten s r w) = steady s := by
  cases r with
  | pf p n => rfl
  | ten t n => exact steady_ite rfl (steady_ite rfl rfl)

@[simp] theorem drainEq_steady (k : Nat) (s : State) (r : EqRef) : steady (drainEq k s r) = steady s := by
  induction k generalizing s with
  | zero => rfl
  | succ k ih =>
    unfold drainEq
    extract_lets q
    split
    · rfl
    · refine steady_ite rfl (steady_ite (stopEq_steady s r) ?_)
      extract_lets outcome u v
      have hu : steady u = steady s := eqXlat_steady ..
      rw [ih, recordWritten_steady, setEq_steady, hu]

@[simp] theorem postEq_steady (s : State) (r : EqRef) (w : EvRec) : steady (postEq s r w) = steady s := by
  unfold postEq
  extract_lets q
  exact steady_ite ((drainEq_steady ..).trans (setEq_steady ..)) rfl

@[simp] theorem notice_steady (s : State) (t n status len sq : Nat) : steady (notice s t n status len sq) = steady s := postEq_steady ..

/-! Credits and completions (R42, R54, R62, R368). -/

@[simp] theorem creditCheck_steady (s : State) (t n : Nat) : steady (creditCheck s t n) = steady s := by
  unfold creditCheck reportCredits
  extract_lets q
  exact steady_ite (steady_ite (postEq_steady ..) rfl) rfl

@[simp] theorem vfPme_steady (s : State) (p : Port) (t : Nat) : steady (vfPme s p t) = steady s := by
  unfold vfPme
  extract_lets v u
  have hu : steady u = steady s := rfl
  clear_value u
  exact steady_ite rfl (steady_ite rfl (steady_ite ((arrive_steady ..).trans hu) ((steady_setPort (by rfl)).trans hu)))

@[simp] theorem tryComplete_steady (s : State) (seq : Nat) : steady (tryComplete s seq) = steady s := by
  unfold tryComplete
  split
  · rfl
  · refine steady_ite rfl (steady_ite rfl ?_)
    extract_lets v quiet u
    exact steady_ite rfl (steady_ite rfl (steady_ite (vfPme_steady ..) (steady_ite rfl (postEq_steady ..))))

@[simp] theorem settleTenant_steady (s : State) (t : Nat) : steady (settleTenant s t) = steady s :=
  withVector_steady (steady_foldl _ tryComplete_steady _ _)

@[simp] theorem pumpTenant_steady (s : State) (t : Nat) : steady (pumpTenant s t) = steady s := by
  unfold pumpTenant
  extract_lets u w
  have hu : steady u = steady s := steady_foldl _ (fun _ _ => drainEq_steady ..) _ _
  exact (steady_foldl _ (fun _ _ => creditCheck_steady ..) _ _).trans ((settleTenant_steady u t).trans hu)

end Sys2Proof.Machine
end

section
/-! PROOFS. Levels, deadlines and replay (R62, R72 to R76, R86, R93, R121, R516): what an acknowledgement, a batch, a deadline and a
replay come to. -/

namespace Sys2Proof.Machine

/-! Levels (R72 to R76). -/

/-- The consignments that an acknowledgement marks, and what then completes, leave the ledgers alone. -/
theorem markAndSettle_steady (hit : Table Cons) (mark : Cons → Cons) (ts : List Nat) (s : State) :
    steady (ts.foldl settleTenant (hit.foldl (fun s e => modCons s e.1 mark) s)) = steady s :=
  (steady_foldl _ settleTenant_steady _ _).trans (steady_foldl (fun s (e : Nat × Cons) => modCons s e.1 mark) (fun _ _ => rfl) hit s)

theorem ledgerOf_of_steady {s t : State} (h : steady t = steady s) (b : Nat) : ledgerOf t b = ledgerOf s b := by
  unfold ledgerOf
  rw [show t.ledgers = s.ledgers from congrArg (·.2.1) h]

@[simp] theorem ledgerOf_setLedger_same (s : State) (b : Nat) (l : Ledger) : ledgerOf (setLedger s b l) b = l := tget_tset_same ..

/-- A record of the mirror basin's acknowledgement (R72). -/
theorem mirrorBasinAck_records {s : State} {b : BasinId} {upTo : Nat} (hmirror : (mirrorOf s b.val).isSome = true)
    (hnew : (ledgerOf s b.val).mirrorAck < min upTo (nextRec (ledgerOf s b.val))) :
    answers (.mirrorBasinAck b upTo) s (fun w => ledgerOf w b.val =
      { ledgerOf s b.val with mirrorAck := min upTo (nextRec (ledgerOf s b.val)) }) := by
  refine ⟨_, rfl, ?_⟩
  extract_lets l n
  rw [if_pos ⟨hmirror, hnew⟩]
  exact (ledgerOf_of_steady (markAndSettle_steady ..) _).trans (ledgerOf_setLedger_same ..)

/-- A batch closes with its first 32 records, and the flushing read issues on the manager's port (R76). -/
theorem hostBatchClose_due {s : State} {b : BasinId} {first : Nat} (hfirst : (ledgerOf s b.val).batchAt = some first)
    (hdue : 32 ≤ (ledgerOf s b.val).batch.length ∨ first + 500 ≤ nowNs s) :
    answers (.hostBatchClose b) s (fun w => (ledgerOf w b.val).batch = (ledgerOf s b.val).batch.drop 32 ∧
      (ledgerOf w b.val).flushing = (ledgerOf s b.val).flushing ++ [{ recs := (ledgerOf s b.val).batch.take 32, port := managerPort s }]) := by
  refine ⟨_, rfl, ?_⟩
  extract_lets l rest
  simp only [show l.batchAt = some first from hfirst]
  rw [if_pos hdue, ledgerOf_setLedger_same]
  exact ⟨rfl, rfl⟩

section Flush
variable {s : State} {b : BasinId} {h : HostBatch} {more : List HostBatch} (hflush : (ledgerOf s b.val).flushing = h :: more)
  (hport : pf0Ok s h.port = true)
include hflush hport

/-- The flushing read of the oldest batch has completed: the batch is done (R73, R74). -/
theorem hostFlushReadComplete_ok (data : List Byte) :
    answers (.hostFlushReadComplete b (.ok data)) s (fun w => (ledgerOf w b.val).flushing = more) := by
  refine ⟨_, rfl, ?_⟩
  extract_lets l
  simp only [show l.flushing = h :: more from hflush, hport, Bool.not_true, Bool.false_eq_true, if_false]
  rw [ledgerOf_of_steady (markAndSettle_steady ..), ledgerOf_setLedger_same]

theorem hostFlushReadComplete_error : exec (.hostFlushReadComplete b .error) s =
    .next (setLedger s b.val { ledgerOf s b.val with flushing := { h with port := reissuePort s h.port } :: more }) := by
  show execHostFlushReadComplete b .error s = _
  simp [execHostFlushReadComplete, hflush, hport]

theorem hostFlushReadComplete_untranslated (hretry : h.xlatRetry = true) :
    answers (.hostFlushReadComplete b .noTranslation) s (fun w => w.dev.st = .halted) := by
  refine ⟨_, rfl, ?_⟩
  extract_lets l
  simp only [show l.flushing = h :: more from hflush, hport, hretry, Bool.not_true, Bool.false_eq_true, if_false, if_true]
  exact haltHarbour_halted ..

end Flush

/-! Deadlines (R93, R121). -/

section Deadline
variable {s : State} {seq d : Nat} {c : Cons} (hc : consOf s seq = some c) (hd : c.deadlineAt = some d) (hnow : d ≤ s.clock.ps)
  (hfresh : c.expired = false) (hstate : c.state = .accepted)
include hc hd hnow hfresh hstate

/-- A deadline passed on a thread delivers DEADLINE to it. -/
theorem deadlineExpiry_onThread {th : ThreadId} (hphase : c.phase = .onThread th) : exec (.deadlineExpiry seq) s =
    .next (modThr (setCons s seq { c with expired := true }) th (fun t => { t with sigDl := satInc t.sigDl 255 })) := by
  show execDeadlineExpiry seq s = _
  simp [execDeadlineExpiry, hc, hd, Nat.not_lt.mpr hnow, hfresh, hstate, hphase]

theorem deadlineExpiry_ready (hphase : c.phase = .ready) : exec (.deadlineExpiry seq) s =
    .next (failCons (setCons s seq { c with expired := true }) seq 0x0503 0 0) := by
  show execDeadlineExpiry seq s = _
  simp [execDeadlineExpiry, hc, hd, Nat.not_lt.mpr hnow, hfresh, hstate, hphase]

end Deadline

/-- The consignment of a handler that the runtime ends, with what it reports (R103). -/
theorem endThread_reports {s : State} {th : ThreadId} {c : Cons} (hc : consOf s (thr s th).seq = some c) (r : EndReport) :
    consOf (endThread s th (some r)) (thr s th).seq = some { c with report := some r, phase := .ended } := by
  unfold endThread
  extract_lets q u w
  have hcons : w.cons = s.cons := (cancelWork_cons _ _).trans (dropCset_cons s th)
  show mget (mmod w.cons q _) q = _
  rw [mget_mmod, if_pos rfl, hcons, show mget s.cons q = some c from hc]
  rfl

/-- A handler that has not ended when its grace has passed is ended with DEADLINE_EXPIRED (R121). -/
theorem deadlineAbort_reports {s : State} {th : ThreadId} {c : Cons} (hc : consOf s (thr s th).seq = some c) :
    ((thr (deadlineAbort s th) th).run = .ending ∨ (thr (deadlineAbort s th) th).run = .free) ∧
      ∃ e, consOf (deadlineAbort s th) (thr s th).seq = some e ∧
        e.report = some { committed := false, status := 0x0503, value := (regsOf s th).hval, resultLen := 0 } := by
  unfold deadlineAbort
  extract_lets t
  obtain ⟨_, hrun, _⟩ := endThread_thr s th (some { committed := false, status := 0x0503, value := t.arch.hval, resultLen := 0 })
  refine ⟨?_, _, (congrArg (mget · _) (freeIfDone_cons _ th)).trans (endThread_reports hc _), rfl⟩
  rcases freeIfDone_thr (endThread s th (some { committed := false, status := 0x0503, value := t.arch.hval, resultLen := 0 })) th with h | h
  · exact .inl (by rw [h, hrun])
  · exact .inr (by rw [h])

theorem deadlineGraceExpiry_running {s : State} {th : ThreadId} {g : Nat} (hg : (thr s th).graceAt = some g) (hnow : g ≤ nowNs s)
    (hended : (thr s th).ended = .no) (hseq : (thr s th).seq ≠ 0) (hrun : (thr s th).run = .active) :
    exec (.deadlineGraceExpiry th) s = .next (deadlineAbort (setThr s th { thr s th with graceAt := none }) th) := by
  show execDeadlineGraceExpiry th s = _
  unfold execDeadlineGraceExpiry
  simp only [hg]
  rw [if_neg (Nat.not_lt.mpr hnow), if_pos ⟨hended, hseq, by rw [hrun]; decide, by rw [hrun]; decide⟩]

/-! Replay (R86). -/

/-- An attempt of a consignment that is run again (R86). -/
theorem reexecute_attempts (s : State) (seq : Nat) (c : Cons) : ∃ e, consOf (reexecute s seq c) seq = some e ∧ e.state = .accepted ∧
    e.attempt = c.attempt + 1 ∧ e.desc = c.desc ∧ e.phase = startPhase c.desc :=
  ⟨_, consOf_setCons_same _ _ _, rfl, rfl, rfl, rfl⟩

/-- A REPLAYING consignment of which the ledger has no record is run again while attempts are left (R86). -/
theorem replayDecide_unrecorded {s : State} {seq : Nat} {c : Cons} (hc : consOf s seq = some c) (hstate : c.state = .replaying)
    (hread : (basinOf s (stackOf s c.part)).hbmReadable = true) (hstranded : (partOf s c.part).stranded = false) (hsent : c.groupSent = false)
    (hentry : c.entry = true) (hrec : newestRec (ledgerOf s (stackOf s c.part)) seq = none) :
    exec (.replayDecide seq) s = .next (if s.cfg.replayMax ≤ c.attempt then failCons (setCons s seq c) seq 0x0701 0 0 else reexecute s seq c) := by
  have hsame : { c with entry := true } = c := by
    cases c
    cases hentry
    rfl
  show execReplayDecide seq s = _
  unfold execReplayDecide
  simp -zeta only [hc]
  extract_lets b e
  have he : e = c := hsame
  clear_value e
  rw [if_neg (by simp [hstate, b, hread, hstranded, hsent]), if_neg (by simp [hentry]), show newestRec (ledgerOf s b) seq = none from hrec, he]

end Sys2Proof.Machine

namespace Sys2Proof.Proofs
open Sys2Proof.Machine

/-- Settles O35: what completes after an acknowledgement leaves the ledgers alone (settleTenant_steady), and deadlines and replays are
read off their commands. -/
theorem levelsDeadlinesAndReplay : Obligations.LevelsDeadlinesAndReplay := by
  unfold Obligations.LevelsDeadlinesAndReplay
  intro s b upTo seq d g first c th h more l
  refine ⟨fun hmirror hnew => ?_, hostBatchClose_due, fun hflush hport => ⟨hostFlushReadComplete_ok hflush hport [],
    hostFlushReadComplete_error hflush hport, hostFlushReadComplete_untranslated hflush hport⟩,
    fun hc hd hnow hfresh hstate => ⟨fun hphase => ?_, deadlineExpiry_ready hc hd hnow hfresh hstate⟩,
    fun hg hnow hended hseq hrun hc => ?_, fun hc hstate hread hstranded hsent hentry hrec => ⟨fun hlast => ?_, fun hleft => ?_⟩⟩
  · obtain ⟨w, hw, hl⟩ := mirrorBasinAck_records hmirror hnew
    exact ⟨w, hw, congrArg Ledger.mirrorAck hl⟩
  · refine ⟨_, deadlineExpiry_onThread hc hd hnow hfresh hstate hphase, consOf_setCons_same _ _ _, ?_⟩
    rw [thr_modThr_same]
    show satInc (thr s th).sigDl 255 = _
    unfold satInc
    split <;> omega
  · refine ⟨_, deadlineGraceExpiry_running hg hnow hended hseq hrun, ?_⟩
    have h := deadlineAbort_reports (s := setThr s th { thr s th with graceAt := none }) (th := th) (c := c) (by rwa [thr_setThr_same])
    rwa [thr_setThr_same, regsOf, thr_setThr_same] at h
  · rw [replayDecide_unrecorded hc hstate hread hstranded hsent hentry hrec, if_pos hlast]
  · refine ⟨_, replayDecide_unrecorded hc hstate hread hstranded hsent hentry hrec, ?_⟩
    rw [if_neg (Nat.not_le.mpr hleft)]
    exact reexecute_attempts s seq c

end Sys2Proof.Proofs
end

section
/-! PROOFS. Paths, tides and partitions (R63, R67, R69, R89 to R91, R294 to R299, R347): what a path lost or back leaves of the ports,
what a half reset makes of a consignment, and the course of a tide. -/

namespace Sys2Proof.Machine

/-! What the end of a COMMIT and of a handler leave steady (R103, R109, R110, R157). -/

theorem steady_of_far {s t : State} (h : far t = far s) : steady t = steady s := by
  have k := congrArg steady h
  exact k

@[simp] theorem retryPoint_steady (s : State) (th : ThreadId) : steady (retryPoint s th) = steady s := steady_of_far (retryPoint_far s th)
@[simp] theorem finish_steady (s : State) (th : ThreadId) (a : Arch) : steady (finish s th a) = steady s :=
  (steady_of_far (retire_far (setArch s th (stepPc a)) th)).trans rfl

@[simp] theorem cancelJob_steady (s : State) (id : Nat) : steady (cancelJob s id) = steady s := by
  unfold cancelJob
  split
  · rfl
  · exact steady_ite rfl rfl

@[simp] theorem cancelWork_steady (s : State) (th : ThreadId) : steady (cancelWork s th) = steady s := by
  unfold cancelWork
  extract_lets u p cpq w
  exact steady_foldl (fun s (e : Nat × Job) => cancelJob s e.1) (fun s e => cancelJob_steady s e.1) _ s

@[simp] theorem dropCset_steady (s : State) (th : ThreadId) : steady (dropCset s th) = steady s := steady_ite rfl rfl

@[simp] theorem endThread_steady (s : State) (th : ThreadId) (r : Option EndReport) : steady (endThread s th r) = steady s := by
  have h : steady (cancelWork (dropCset s th) th) = steady s := (cancelWork_steady _ th).trans (dropCset_steady s th)
  cases r <;> exact h

@[simp] theorem freeIfDone_steady (s : State) (th : ThreadId) : steady (freeIfDone s th) = steady s := steady_ite rfl rfl

@[simp] theorem logThread_steady (s : State) (th : ThreadId) (code cls : Nat) (d : List Byte) :
    steady (logThread s th code cls d) = steady s := by
  unfold logThread
  extract_lets t island
  split <;> exact logAdd_steady ..

@[simp] theorem handlerFails_steady (s : State) (th : ThreadId) (d : Ended) (e : Exn) : steady (handlerFails s th d e) = steady s := by
  unfold handlerFails
  split
  · simp
  · rfl
  · simp

@[simp] theorem takeExn_steady (s : State) (th : ThreadId) (e : Exn) : steady (takeExn s th e) = steady s := by
  unfold takeExn
  extract_lets t x u
  have hu : steady u = steady s := retryPoint_steady ..
  exact steady_ite ((handlerFails_steady ..).trans hu) hu

@[simp] theorem resultWrite_steady (s : State) (seq : Nat) (l : List (Nat × List Byte)) : steady (resultWrite s seq l).1 = steady s := by
  unfold resultWrite
  split
  · rfl
  · split
    · rfl
    · split <;> rfl

@[simp] theorem takeBuffers_steady (s : State) (t p n : Nat) : steady (takeBuffers s t p n).1 = steady s := by
  induction n generalizing s with
  | zero => rfl
  | succ n ih => exact (ih _).trans rfl

@[simp] theorem placeResult_steady (s : State) (seq : Nat) (data : List Byte) (ends : List Nat) :
    steady (placeResult s seq data ends).1 = steady s := by
  unfold placeResult
  split
  · rfl
  · extract_lets n dstLen dst p q per need have_ room whole fit body count
    split
    · exact resultWrite_steady ..
    · split
      · rfl
      · exact (resultWrite_steady ..).trans (takeBuffers_steady ..)

@[simp] theorem abortNow_steady (s : State) (th : ThreadId) (status n : Nat) : steady (abortNow s th status n) = steady s := by
  unfold abortNow
  extract_lets t r u w x
  have h : steady x = steady s := (cancelWork_steady _ th).trans (dropCset_steady s th)
  rw [retryPoint_steady, finish_steady, h]

@[simp] theorem commitAdvance_steady (s : State) (th : ThreadId) : steady (commitAdvance s th) = steady s := by
  unfold commitAdvance
  extract_lets t
  split
  · refine steady_ite rfl ?_
    split
    · rfl
    · refine steady_ite rfl ?_
      split
      · exact takeExn_steady ..
      · refine steady_ite (abortNow_steady ..) (steady_ite rfl (steady_ite (steady_ite rfl ?_) rfl))
        have h := placeResult_steady s t.seq
        exact steady_ite ((abortNow_steady ..).trans (h _ _)) (steady_ite ((abortNow_steady ..).trans (h _ _)) (h _ _))
  · rfl

/-! Paths (R89 to R91, R188, R393). -/

@[simp] theorem redriven_steady (s : State) (t : Nat) (p : Port) : steady (redriven s t p) = steady s := by
  unfold redriven
  exact (steady_foldl (fun s n => if (tenEq s t n).exist ∧ (tenEq s t n).enabled then notice s t n 0x0501 p.num 0xFFFF else s)
    (fun _ _ => steady_ite (notice_steady ..) rfl) _ _).trans (logAdd_steady ..)

@[simp] theorem pathLost_steady (s : State) (t : Nat) : steady (pathLost s t) = steady s := by
  refine withVector_steady ?_
  extract_lets v cur u w
  have hw : steady w = steady s := steady_foldl redriveHost (fun _ _ => rfl) _ _
  refine steady_ite rfl (steady_ite ((redriven_steady ..).trans hw) ?_)
  cases v.pathDownAt <;> rfl

@[simp] theorem portLost_steady (s : State) (p : Port) : steady (portLost s p) = steady s :=
  steady_foldl (fun s (e : Nat × Tenant) => if bitOf e.2.ports p.num then pathLost s e.1 else s)
    (fun _ _ => steady_ite (pathLost_steady ..) rfl) _ _

@[simp] theorem oweNotices_steady (s : State) (t : Nat) : steady (oweNotices s t) = steady s := by
  unfold oweNotices
  extract_lets v u w eqOf held
  have hw : steady w = steady s := steady_foldl (fun s (e : Nat × Nat) => notice s t (sqOf s t e.1).eq 0x0702 e.2 e.1)
    (fun _ _ => notice_steady ..) _ _
  exact steady_ite rfl ((steady_foldl _ (fun _ _ => steady_ite rfl (notice_steady ..)) _ _).trans hw)

@[simp] theorem releaseHost_steady (s : State) (t : Nat) (th : ThreadId) : steady (releaseHost s t th) = steady s := by
  unfold releaseHost
  extract_lets v waits u cur w
  have hu : steady u = steady s := steady_foldl (fun s (g : GStore) => objStore s th .host g.addr g.byte) (fun _ _ => rfl) _ _
  exact (commitAdvance_steady w th).trans hu

@[simp] theorem pathBack_steady (s : State) (t : Nat) : steady (pathBack s t) = steady s := by
  refine steady_ite rfl (withVector_steady ?_)
  extract_lets v cur first now fresh u w x y
  have hw : steady w = steady s := steady_ite (redriven_steady ..) rfl
  have hx : steady x = steady s := (steady_ite (oweNotices_steady ..) rfl).trans hw
  have hy : steady y = steady s := steady_ite hx ((steady_foldl (fun s th => releaseHost s t th) (fun _ _ => releaseHost_steady ..) _ _).trans hx)
  exact steady_ite ((pumpTenant_steady ..).trans hy) hw

@[simp] theorem portBack_steady (s : State) (p : Port) : steady (portBack s p) = steady s :=
  steady_foldl (fun s (e : Nat × Tenant) => if bitOf e.2.ports p.num then pathBack s e.1 else s)
    (fun _ _ => steady_ite (pathBack_steady ..) rfl) _ _


/-! Links (R90, R91, R385). -/

theorem portRest_of_steady {s t : State} (h : steady t = steady s) (p : Port) : portRest (portOf t p) = portRest (portOf s p) :=
  congrFun (congrArg (·.2.2) h) p

/-- A link that goes down is down, and the helm lapses where its port held it (R385). -/
theorem portLinkDown_records {s : State} {p : Port} (hlink : (portOf s p).link = true) :
    answers (.portLinkDown p) s (fun w => (portOf w p).link = false ∧ (s.helm.holder = some p → w.helm.holder = none)) := by
  refine ⟨_, rfl, ?_⟩
  rw [if_neg (by simp [hlink])]
  extract_lets q u v w
  have hw : steady w = steady u := (arrive_steady ..).trans (logAdd_steady ..)
  have hlapse : steady (helmLapse w p) = ((helmLapse w p).helm, (steady w).2) := by
    unfold helmLapse
    split <;> rfl
  have h := (portLost_steady (helmLapse w p) p).trans hlapse
  refine ⟨?_, fun hheld => ?_⟩
  · have hport : portRest (portOf (portLost (helmLapse w p) p) p) = portRest (portOf u p) := by
      rw [hw] at h
      exact congrFun (congrArg (·.2.2) h) p
    have hu : (portOf u p).link = false := by rw [portOf_setPort_same]
    exact (congrArg PortState.link hport).trans hu
  · have hholder : w.helm.holder = some p := by
      rw [show w.helm = s.helm from congrArg (·.1) hw, hheld]
    have hnone : (helmLapse w p).helm.holder = none := by
      unfold helmLapse
      rw [if_pos hholder]
    rw [show (portLost (helmLapse w p) p).helm = (helmLapse w p).helm from congrArg (·.1) h, hnone]

@[simp] theorem hostSend_portOf (s : State) (b k : Nat) (p : Port) : portOf (hostSend s b k) p = portOf s p :=
  field_of_offLedger (hostSend_offLedger s b k) (portOf · p) fun _ => rfl

theorem foldl_hostSend_portOf (l : List Nat) (s : State) (p : Port) :
    portOf (l.foldl (fun s b => hostSend s b (ledgerOf s b).hostWait.length) s) p = portOf s p := by
  induction l generalizing s with
  | nil => rfl
  | cons b l ih => exact (ih _).trans (hostSend_portOf ..)

/-- A port that trains is up from then on (R91, R398). -/
theorem portLinkUp_records {s : State} {p : Port} (hlink : (portOf s p).link = false) (hperst : (portOf s p).perst = false)
    (hisland : (islandOf s (islPort p)).state = 3) (hpwr : s.dev.pwrCore = true) :
    answers (.portLinkUp p) s (fun w => (portOf w p).link = true ∧ (portOf w p).lastTlp = nowNs s) := by
  refine ⟨_, rfl, ?_⟩
  extract_lets q u v w
  rw [if_neg (by simp [q, hlink, hperst, hisland, hpwr])]
  have hv : portOf v p = portOf u p := field_of_unreported (arrive_unreported u _ _ _) (portOf · p) fun _ => rfl
  have hw : portOf w p = portOf v p := foldl_hostSend_portOf ..
  have h := portRest_of_steady (portBack_steady w p) p
  rw [hw, hv, show portOf u p = { q with link := true, wake := false, lastTlp := nowNs s } from portOf_setPort_same ..] at h
  show (portOf (portBack w p) p).link = true ∧ (portOf (portBack w p) p).lastTlp = nowNs s
  generalize portOf (portBack w p) p = r at h ⊢
  exact ⟨congrArg PortState.link h, congrArg PortState.lastTlp h⟩

/-! Half resets (R63, R353). -/

/-- Reading after a change of the values alone. -/
theorem mget_map {α : Type} (t : Table α) (f : Nat × α → Nat × α) (hf : ∀ e, (f e).1 = e.1) (k : Nat) :
    mget (t.map f) k = (mget t k).map (fun v => (f (k, v)).2) := by
  induction t with
  | nil => rfl
  | cons e r ih =>
    obtain ⟨j, v⟩ := e
    have hj : (f (j, v)).1 = j := hf _
    simp only [List.map_cons, mget, hj]
    split
    · rename_i h
      rw [h]
      rfl
    · exact ih

/-- A consignment that waits for the other half to decide it again (R63). -/
def rebanked (half : Port) (d : Cons) : Prop := d.half = half.other ∧ d.state = .replaying ∧ d.recordQueued = false

/-- Stopping the work of an earlier attempt leaves the consignments alone. -/
theorem rebank_consOf {half : Port} {s : State} {seq : Nat} {c : Cons} (hc : consOf s seq = some c) (n : Nat) :
    ∃ f : Cons → Cons, (∀ d, rebanked half (f d) ∧ (f d).phase = d.phase) ∧
      consOf (rebank half s seq) n = if n = seq then (consOf s n).map f else consOf s n := by
  unfold rebank
  simp -zeta only [hc]
  extract_lets u
  have hu : u.cons = s.cons := by
    simp only [u]
    split
    · split
      · rfl
      · exact (freeIfDone_cons ..).trans ((cancelWork_cons ..).trans (dropCset_cons ..))
    · exact cancelJob_cons ..
    · rfl
  refine ⟨fun c => { c with state := .replaying, half := half.other, recordQueued := false, reading := false,
                            entry := decide (entriesUsed u half.other < 131072) }, fun d => ⟨⟨rfl, rfl, rfl⟩, rfl⟩, ?_⟩
  show mget (mmod u.cons seq _) n = _
  rw [mget_mmod, hu]
  rfl

/-- The consignments of a lost bank are all re-decided (R63). -/
theorem foldl_rebank {half : Port} {seq : Nat} (l : List Nat) (s : State) {c : Cons} (hc : consOf s seq = some c)
    (h : seq ∈ l ∨ rebanked half c) : ∃ d, consOf (l.foldl (rebank half) s) seq = some d ∧ rebanked half d := by
  induction l generalizing s c with
  | nil => exact ⟨c, hc, h.resolve_left (by simp)⟩
  | cons n l ih =>
    rw [List.foldl_cons]
    cases hn : consOf s n with
    | none =>
      have hsame : rebank half s n = s := by
        unfold rebank
        rw [hn]
      have hne : seq ≠ n := fun e => by simp [← e, hc] at hn
      rw [hsame]
      exact ih s hc (h.imp_left fun hm => (List.mem_cons.mp hm).resolve_left hne)
    | some b =>
      obtain ⟨f, hf, hread⟩ := rebank_consOf (half := half) hn seq
      by_cases e : seq = n
      · rw [if_pos e, hc] at hread
        exact ih _ hread (.inr (hf c).1)
      · rw [if_neg e, hc] at hread
        exact ih _ hread (h.imp_left fun hm => (List.mem_cons.mp hm).resolve_left e)

@[simp] theorem haltHarbour_cons (s : State) (code : Nat) : (haltHarbour s code).cons = s.cons := by
  unfold haltHarbour
  extract_lets u v
  rw [arrive_cons, arrive_cons]
  exact logAdd_cons ..

/-- A consignment whose entry lay in the lost bank is REPLAYING in the other half (R63). -/
theorem halfReset_rebanks {s : State} {half : Port} {seq : Nat} {c : Cons} (hc : consOf s seq = some c) (hentry : c.entry = true)
    (hhalf : c.half = half) : ∃ d, consOf (halfReset half s) seq = some d ∧ rebanked half d := by
  unfold halfReset
  extract_lets i lost u v dropRec w x y
  have hlost : seq ∈ lost := List.mem_map.mpr ⟨(seq, c), by simp [mem_mget _ _ _ hc, hentry, hhalf], rfl⟩
  have hw : consOf w seq = some { c with entry := false, half := half.other } := by
    show mget (s.cons.map _) seq = _
    rw [mget_map _ _ fun e => by split <;> rfl, show mget s.cons seq = some c from hc]
    simp [hlost]
  obtain ⟨d, hd, hdone⟩ := foldl_rebank lost w hw (.inl hlost)
  refine ⟨d, ?_, hdone⟩
  have hy : y.cons = x.cons := logAdd_cons ..
  have hend : (if halfOut y half.other then haltHarbour y 0x0501 else y).cons = x.cons := by
    split
    · exact (haltHarbour_cons ..).trans hy
    · exact hy
  exact (congrArg (mget · seq) hend).trans hd

/-! A path that has been down for 50 µs (R38, R58, R91). -/

/-- Whether a path is up depends on three fields of the tenant. -/
theorem pathUp_setTenant {s : State} {t : Nat} {v : Tenant} (hlive : v.pathLive = (tenantOf s t).pathLive) (hports : v.ports = (tenantOf s t).ports)
    (hcur : v.currentPort = (tenantOf s t).currentPort) : pathUp (setTenant s t v) t = pathUp s t := by
  have hin (p : Port) : vfInServiceB (setTenant s t v) p t = vfInServiceB s p t := by
    unfold vfInServiceB
    rw [tenantOf_setTenant_same, hports]
    rfl
  unfold pathUp pathAny
  rw [hin, hin, hin, tenantOf_setTenant_same, hlive, hcur]
  rfl

theorem pathUp_setTenEq (s : State) (t n : Nat) (q : Eq) : pathUp (setTenEq s t n q) t = pathUp s t :=
  pathUp_setTenant (by rfl) (by rfl) (by rfl)
theorem pathUp_setSq (s : State) (t n : Nat) (q : Sq) : pathUp (setSq s t n q) t = pathUp s t :=
  pathUp_setTenant (by rfl) (by rfl) (by rfl)

/-- A record for a tenant without a path waits in its queue (R52, R91). -/
theorem notice_pathDown {s : State} {t : Nat} (h : pathUp s t = false) (n status len sq : Nat) :
    (notice s t n status len sq).cons = s.cons ∧ pathUp (notice s t n status len sq) t = false := by
  unfold notice postEq
  extract_lets q
  split
  · have hset : pathUp (setEq s (.ten t n) { q with waiting := q.waiting ++ [{ status := status, type := 2, resultLen := len, sqId := sq }] }) t = false :=
      (pathUp_setTenEq ..).trans h
    have hwait : ∀ u k, pathUp u t = false → drainEq k u (.ten t n) = u := by
      intro u k hu
      cases k with
      | zero => rfl
      | succ k =>
        unfold drainEq
        simp only [eqReady, eqCarry, hu, Bool.false_and, Bool.and_false, Bool.not_false, if_true]
        split <;> rfl
    rw [hwait _ _ hset]
    exact ⟨rfl, hset⟩
  · exact ⟨rfl, h⟩

/-- The fetch of a queue given up, where one is under way (R38). -/
def fetchGivenUp (s : State) (t n : Nat) : State :=
  match (sqOf s t n).fetch with
  | some (h, k) => fetchFail s t n h k
  | none => s

theorem fetchFail_pathDown {s : State} {t : Nat} (hdown : pathUp s t = false) (n h k : Nat) :
    (fetchFail s t n h k).cons = s.cons ∧ pathUp (fetchFail s t n h k) t = false ∧
      ∀ m, (sqOf s t m).fetch = none → (sqOf (fetchFail s t n h k) t m).fetch = none := by
  unfold fetchFail
  extract_lets q back u w
  obtain ⟨hcons, hpath⟩ := notice_pathDown (s := w) (t := t) ((pathUp_setSq ..).trans hdown) q.eq 0x0504 h n
  refine ⟨hcons, hpath, fun m hm => ?_⟩
  by_cases e : m = n
  · rw [e]
    exact (fetchFail_stops s t n h k).2.1
  · have hsq := congrArg Prod.fst (postEq_besideRecords t m 0 w (.ten t q.eq) { status := 0x0504, type := 2, resultLen := h, sqId := n })
    have hw : sqOf w t m = sqOf s t m := sqOf_setSq_other u _ fun k => e k.2
    simp only [besideRecords, hw] at hsq
    exact (congrArg Sq.fetch hsq).trans hm

theorem fetchGivenUp_pathDown {s : State} {t : Nat} (hdown : pathUp s t = false) (n : Nat) :
    (fetchGivenUp s t n).cons = s.cons ∧ pathUp (fetchGivenUp s t n) t = false ∧ (sqOf (fetchGivenUp s t n) t n).fetch = none ∧
      ∀ m, (sqOf s t m).fetch = none → (sqOf (fetchGivenUp s t n) t m).fetch = none := by
  unfold fetchGivenUp
  cases hf : (sqOf s t n).fetch with
  | none => exact ⟨rfl, hdown, hf, fun _ h => h⟩
  | some x =>
    obtain ⟨hcons, hpath, hothers⟩ := fetchFail_pathDown hdown n x.1 x.2
    exact ⟨hcons, hpath, (fetchFail_stops s t n x.1 x.2).2.1, hothers⟩

theorem foldl_fetchGivenUp {t : Nat} (l : List Nat) (s : State) (hdown : pathUp s t = false) :
    (l.foldl (fun s n => fetchGivenUp s t n) s).cons = s.cons ∧
      ∀ m, m ∈ l ∨ (sqOf s t m).fetch = none → (sqOf (l.foldl (fun s n => fetchGivenUp s t n) s) t m).fetch = none := by
  induction l generalizing s with
  | nil => exact ⟨rfl, fun m h => h.resolve_left (by simp)⟩
  | cons n l ih =>
    obtain ⟨hcons, hpath, hgone, hothers⟩ := fetchGivenUp_pathDown hdown n
    obtain ⟨hrest, hnone⟩ := ih (fetchGivenUp s t n) hpath
    refine ⟨hrest.trans hcons, fun m hm => hnone m ?_⟩
    rcases hm with hm | hm
    · rcases List.mem_cons.mp hm with rfl | hm
      · exact .inr hgone
      · exact .inl hm
    · exact .inr (hothers m hm)

/-- Where no read and no store waits, the end of the wait concerns the fetches alone. -/
theorem pathWaitExpiry_fetches {s : State} {t : TenantId} {since : Nat} (hsince : (tenantOf s t.val).pathDownAt = some since)
    (hnow : since + 50000 ≤ nowNs s) (hdown : pathUp s t.val = false) (hthreads : ∀ th : ThreadId, (thr s th).wait = none ∧ (thr s th).stores = [])
    (hreads : ∀ e ∈ s.cons, e.2.reading = false) :
    exec (.pathWaitExpiry t) s = .next ((List.range 16).foldl (fun s n => fetchGivenUp s t.val n) s) := by
  have hr : failReads s t.val = s := by
    unfold failReads
    have hnone : s.cons.filter (fun e => e.2.tenant == t.val && e.2.reading && decide (e.2.state = .accepted)) = [] :=
      List.filter_eq_nil_iff.mpr fun e he => by simp [hreads e he]
    rw [hnone]
    exact List.foldlRecOn (motive := fun x : State => x = s) _ _ rfl fun x hx th _ => by rw [hx, (hthreads th).1]
  have hst : failHostStores s t.val = s := by
    unfold failHostStores
    exact List.foldlRecOn (motive := fun x : State => x = s) _ _ rfl fun x hx th _ => by rw [hx, if_neg (by simp [hostWaits, (hthreads th).2])]
  show execPathWaitExpiry t s = _
  unfold execPathWaitExpiry
  simp only [hsince]
  rw [if_neg (by simp [Nat.not_lt.mpr hnow, hdown]), hr, hst]
  rfl

/-! Tides (R294 to R299). -/

section Tides
variable {s : State} {x : Tide} {rest : List Tide} {b : BasinId} (hclosing : s.tides.closing = x :: rest)
include hclosing

/-- A seal report joins those of the oldest closing tide (R295). -/
theorem sealReport_waits (hfew : (mset x.seals b.val (sealOf s b.val x.num)).length < 4) : exec (.sealReport b) s =
    .next { s with tides := { s.tides with closing := { x with seals := mset x.seals b.val (sealOf s b.val x.num) } :: rest } } := by
  show execSealReport b s = _
  unfold execSealReport
  simp only [hclosing]
  rw [if_neg hfew.ne]

/-- The fourth seal report closes the tide (R295, R297). -/
theorem sealReport_closes (hall : (mset x.seals b.val (sealOf s b.val x.num)).length = 4) (htrim : s.cfg.autoTrim = 0) :
    answers (.sealReport b) s (fun w => w.tides.closing = rest ∧ w.tides.prevNum = x.num ∧
      ∃ y, w.tides.closed = s.tides.closed ++ [y] ∧ y.num = x.num ∧ y.record = w.tides.prevBody) := by
  refine ⟨_, rfl, ?_⟩
  simp only [hclosing]
  rw [if_pos hall, if_neg fun h => h.1 htrim]
  exact ⟨rfl, rfl, _, rfl, rfl, rfl⟩

end Tides

theorem tideBoundary_places {s : State} {x : Tide} (hcur : s.tides.cur = some x)
    (hdue : x.since + s.cfg.tidePeriodUs * 1000 ≤ nowNs s ∨ s.cfg.tideMax ≤ x.count) : exec .tideBoundary s =
    .next { s with tides := { s.tides with cur := none, closing := s.tides.closing ++ [{ x with closeAt := harbourNs s }] } } := by
  show execTideBoundary s = _
  unfold execTideBoundary
  simp only [hcur]
  rw [if_pos hdue]
  simp only [placeBoundary, hcur]

/-- A tide that a Derrick signs goes to the tide log (R297, R298). -/
theorem tideSigned_logs {s : State} {x : Tide} {rest : List Tide} (hclosed : s.tides.closed = x :: rest) (hrun : s.dev.st ≠ .halted)
    (hlife : s.otp.lifecycle ≠ 3) (hepoch : (s.sroom.openRecs ++ s.sroom.pages.flatten).any (fun r => decide (r = .epoch s.epoch)) = false)
    (hroom : (islandOf s islStrongroom).reset = false) :
    answers .tideSigned s (fun w => w.tides.closed = rest ∧ w.tides.log.head?.map (·.1) = some x.num ∧ w.freeCtr = s.freeCtr + 1) := by
  refine ⟨_, rfl, ?_⟩
  simp only [hclosed]
  rw [if_neg (by simp [hrun, hlife, hepoch, hroom])]
  refine ⟨?_, ?_, ?_⟩
  · exact field_of_unreported (arrive_unreported ..) (·.tides.closed) fun _ => rfl
  · exact field_of_unreported (arrive_unreported ..) (·.tides.log.head?.map (·.1)) fun _ => rfl
  · exact field_of_unreported (arrive_unreported ..) State.freeCtr fun _ => rfl

/-! Partitions (R67, R69). -/

theorem mem_mset_other {α : Type} {t : Table α} {k : Nat} {v : α} {e : Nat × α} (he : e ∈ t) (hk : e.1 ≠ k) : e ∈ mset t k v := by
  induction t with
  | nil => cases he
  | cons x r ih =>
    obtain ⟨j, w⟩ := x
    unfold mset
    split
    · next h =>
      rcases List.mem_cons.mp he with rfl | he
      · exact absurd h.symm hk
      · exact List.mem_cons_of_mem _ he
    · split
      · exact List.mem_cons_of_mem _ he
      · rcases List.mem_cons.mp he with rfl | he
        · exact List.mem_cons_self
        · exact List.mem_cons_of_mem _ (ih he)

/-- A partition none of whose consignments is left and of whose range no line is held moves to its new home; while another change is
under way no mailbox command completes with it (R69). -/
theorem partitionMapChangeEffect_moves {s : State} {part : Fin 4096} {home : Option Nat} (hnext : (partOf s part.val).next = some home)
    (hcons : ∀ e ∈ s.cons, e.2.part ≠ part.val) (hheld : ∀ q, (partOf s part.val).home = some q → (basinOf s q).holds = [])
    (hmore : ∃ e ∈ s.parts, e.1 ≠ part.val ∧ e.2.next.isSome = true) :
    exec (.partitionMapChangeEffect part) s =
      .next (setPart s part.val { partOf s part.val with home := home, next := none, stranded := false }) := by
  show execPartitionMapChangeEffect part s = _
  unfold execPartitionMapChangeEffect
  extract_lets v dispatched held
  have hd : dispatched = false := List.any_eq_false.mpr fun e he => by
    rw [beq_false_of_ne (hcons e he), Bool.false_and, Bool.false_and]
    exact Bool.false_ne_true
  have hh : held = false := by
    simp only [held]
    cases hq : v.home with
    | none => rfl
    | some q => simp [hheld q hq]
  simp only [show v.next = some home from hnext, hd, hh, Bool.false_eq_true, or_self, if_false]
  rw [if_pos]
  obtain ⟨e, he, hne, hsome⟩ := hmore
  exact List.any_eq_true.mpr ⟨e, mem_mset_other he (by rwa [Nat.mod_eq_of_lt part.isLt]), hsome⟩

end Sys2Proof.Machine

namespace Sys2Proof.Proofs
open Sys2Proof.Machine

/-- Settles O36: what a link's change posts leaves the ports alone (steady), a half reset re-decides each consignment of its bank
(foldl_rebank), and a tenant without a path gets no record written (notice_pathDown). -/
theorem pathsTidesAndPartitions : Obligations.PathsTidesAndPartitions := by
  unfold Obligations.PathsTidesAndPartitions
  intro s p t b x rest part home seq since c
  refine ⟨fun hlink => ?_, portLinkUp_records, fun hpwr hreset => ?_, fun hsince hnow hdown hthreads hreads => ?_, tideBoundary_places,
    sealReport_waits, sealReport_closes, tideSigned_logs, fun hnext hcons hheld hmore => ?_⟩
  · obtain ⟨w, hw, hdown, hlapse⟩ := portLinkDown_records hlink
    exact ⟨w, hw, hdown, fun q hheld hq => hlapse (hq ▸ hheld)⟩
  · refine ⟨halfReset p s, ?_, fun hc hentry hhalf _ => halfReset_rebanks hc hentry hhalf⟩
    show execQuaysideHalfReset p s = _
    simp [execQuaysideHalfReset, hpwr, hreset]
  · obtain ⟨hcons, hgone⟩ := foldl_fetchGivenUp (List.range 16) s hdown
    exact ⟨_, pathWaitExpiry_fetches hsince hnow hdown hthreads hreads, hcons, fun n hn => hgone n (.inl (List.mem_range.mpr hn))⟩
  · refine ⟨_, partitionMapChangeEffect_moves hnext hcons hheld hmore, ?_⟩
    show (partOf (setPart ..) _).home = _ ∧ (partOf (setPart ..) _).next = _ ∧ _
    rw [partOf_setPart_same]
    exact ⟨rfl, rfl, rfl⟩

end Sys2Proof.Proofs
end

section
/-! PROOFS. Mailbox commands of handlers, the ledger, berths, power, firmware and the Roadstead (R459, R460, R464, R470 to R473, R483): how a
request that the Pilot takes runs its command, and what each command comes to. -/

namespace Sys2Proof.Machine

/-! A request that the Pilot takes (R455 to R461). -/

section Requests
variable {i : Instr} {c : MbCmd} {m : MbReq} {s : State} {x : MbAct}

theorem mbDeliver_inline (s : State) (p : Port) {r : MbRun} (h : r.dma = false) (y : MbResp) : mbDeliver s p r y = mbAnswer s p y := by
  unfold mbDeliver
  rw [h]
  rfl

/-- The mailbox shows what the command comes to, where the response is inline and fits. -/
theorem mbProceed_shows {u : State} (hact : c.act u m (mbBody m) = x) (hinline : m.flags.getLsbD 0 = false) (hroom : bodyRoom x ≤ 4080) :
    mbProceed c m u = shows c m u x := by
  have hfits : ¬ (mbRunOf u c m).space < bodyRoom x := by
    have hspace : (mbRunOf u c m).space = 4080 := if_neg (by rw [hinline]; exact Bool.false_ne_true)
    omega
  have hdma : (mbRunOf u c m).dma = false := hinline
  unfold mbProceed
  cases x with
  | fail st d => simp only [hact]; rfl
  | done t body =>
    simp only [hact, mbDeliver_inline _ _ hdma, hdma]
    exact if_neg hfits
  | ends t st d body =>
    simp only [hact, mbDeliver_inline _ _ hdma, hdma]
    exact if_neg hfits
  | wait t arg aux need k =>
    simp only [hact]
    exact if_neg hfits
  | again t => simp only [hact]; rfl
  | gone t => simp only [hact]; rfl

/-- A GO that the Pilot takes starts its command in the state it has reached (R452 to R454). -/
theorem mbGo_presented (h : presented m s) : mbGo c m s = mbStart c m (heard s m) := by
  obtain ⟨hmmio, hready, hidle, hup⟩ := h
  unfold mbGo
  simp only [hmmio, hready, hidle, Bool.not_true, Bool.false_eq_true, if_false]
  exact if_neg (by rw [show arrive _ _ _ _ = heard s m from rfl, hup]; decide)

/-- A command whose effect is known gives it as its answer. -/
theorem gives_of_act (hi : exec i s = .next (mbGo c m s)) (hact : c.act (heard s m) m (mbBody m) = x) : gives i c m s x := by
  rintro ⟨hpresented, hplain, hcheck⟩ hinline hroom
  rw [hi, mbGo_presented hpresented, mbStart, hcheck]
  simp only [hplain, Bool.false_and, Bool.false_eq_true, if_false, mbProceed_shows hact hinline hroom]

/-- A co-signed command is journalled before it acts, unless its own conditions or the co-signature turn it down (R257, R458). -/
theorem givesSigned_of_act (hi : exec i s = .next (mbGo c m s)) (hact : c.act (heard s m) m (mbBody m) = x) : givesSigned i c m s x := by
  rintro ⟨hpresented, hsigned, hmode, hcheck⟩ hinline hroom
  refine ⟨?_, mbProceed_shows hact hinline hroom⟩
  rw [hi, mbGo_presented hpresented, mbStart]
  rcases hcheck with hcheck | hcheck
  · cases x <;> simp only [hcheck, hsigned, hmode, ne_eq, not_false_eq_true, decide_true, Bool.and_self, if_true, hact]
  · simp only [hcheck, reduceCtorEq, if_false]

end Requests

/-! Handlers and format programs (R313, R470). -/

section Acts
variable {u : State} {m : MbReq} {b : List Byte}

theorem handlerLoad_act (hidle : runsCode u (fieldLe b 0 2) = false) : cmdHandlerLoad.act u m b =
    if (mget u.handlers (fieldLe b 0 2)).isNone ∧ Config.handlerRoom ≤ loadedHandlers u then .fail 0x080A 0
    else .done { u with handlers := mset u.handlers (fieldLe b 0 2) (b.drop 8) } [] := by
  simp only [cmdHandlerLoad, hidle, Bool.false_eq_true, if_false]

theorem handlerBind_act (ht : (tenantOf u (fieldLe b 0 2)).state ≠ .absent) : cmdHandlerBind.act u m b = .done { u with
    bindings := if fieldLe b 8 1 = 1 then mdel u.bindings (fieldLe b 0 2 * 65536 + fieldLe b 2 2)
      else mset u.bindings (fieldLe b 0 2 * 65536 + fieldLe b 2 2) (fieldLe b 4 4) } [] := by
  simp only [cmdHandlerBind, ht, if_false]

theorem formatLoad_act_fault {o : Nat} (hfault : programFault (b.drop 4) = some o) : cmdFormatLoad.act u m b = .fail 0x0408 o := by
  simp only [cmdFormatLoad, hfault]

/-- A format slot that no pier uses is replaced at once (R314). -/
theorem formatLoad_act_idle (hgood : programFault (b.drop 4) = none) (hidle : ∀ i < 16, slotInUse u i (fieldLe b 0 1) = false) :
    cmdFormatLoad.act u m b = .done { u with formats := mset u.formats (fieldLe b 0 1) (b.drop 4) } [] := by
  have hkeep : (List.range 16).foldl (fun s k => if slotInUse s k (fieldLe b 0 1) ∧ (pierOf s k).oldFormat.isNone then
      setPier s k { pierOf s k with oldFormat := some (tget [] u.formats (fieldLe b 0 1)) } else s) u = u :=
    List.foldlRecOn (motive := fun w : State => w = u) _ _ rfl fun w hw k hk => by
      rw [hw, if_neg (by simp [hidle k (List.mem_range.mp hk)])]
  unfold cmdFormatLoad
  simp only [hgood]
  rw [hkeep, if_neg]
  simp only [List.any_eq_true, not_exists, not_and, Bool.not_eq_true]
  exact fun k hk => hidle k (List.mem_range.mp hk)

/-! The ledger (R471, R75, R85, R301, R517). -/

theorem ledgerConfigure_act_busy (hbusy : quiet u = false) (hother : u.cfg.areaGib ≠ orDefault (fieldLe b 0 1) 4 ∨
      u.cfg.partLog2 ≠ orDefault (fieldLe b 6 1) 16 ∨ u.cfg.mirrorMask ≠ fieldLe b 3 1 ∨ u.cfg.hostLog2 ≠ fieldLe b 2 1 ∨
      u.cfg.hostBase ≠ fieldLe b 16 8) : cmdLedgerConfigure.act u m b = .fail 0x0809 0 := by
  unfold cmdLedgerConfigure
  exact if_pos ⟨hother, by simp [hbusy]⟩

/-- Settings that keep the areas, the mirrors and the region wait for the next tide (R471). -/
theorem ledgerConfigure_act_same (harea : u.cfg.areaGib = orDefault (fieldLe b 0 1) 4) (hpart : u.cfg.partLog2 = orDefault (fieldLe b 6 1) 16)
    (hmask : u.cfg.mirrorMask = fieldLe b 3 1) (hlog : u.cfg.hostLog2 = fieldLe b 2 1) (hbase : u.cfg.hostBase = fieldLe b 16 8) :
    cmdLedgerConfigure.act u m b = .done (saveConf ((List.range 4).foldl ledgerHigh { u with cfg := { u.cfg with
      configured := true, later := some { replayMax := orDefault (fieldLe b 1 1) 3, tidePeriodUs := orDefault (fieldLe b 4 2) 100,
                                          tideMax := orDefault (fieldLe b 8 4) 65536, autoTrim := fieldLe b 12 4 } } })) [] := by
  unfold cmdLedgerConfigure
  simp only [← harea, ← hpart, ← hmask, ← hlog, ← hbase, ne_eq, not_true_eq_false, or_self, false_and, if_false, if_true]

theorem ledgerTrim_act : cmdLedgerTrim.act u m b =
    (let w := { u with cfg := { u.cfg with hostHead := fieldLe b 8 4 } }
     let cut := if fieldLe b 0 8 = 0 then (w, 0) else trimTo (trimMirrors w (fieldLe b 0 8)) (min (fieldLe b 0 8) (newestClosed w))
     .done ((List.range 4).foldl (fun s k => hostSend s k (ledgerOf s k).hostWait.length) cut.1) (toLe 8 cut.2)) := rfl

theorem tideGet_act_none (hnone : ((u.tides.log.reverse).filter (fun e => decide (fieldLe b 0 8 ≤ e.1))).take (fieldLe b 8 4) = []) :
    cmdTideGet.act u m b = .fail 0x0704 0 := by
  simp only [cmdTideGet, hnone, List.head?_nil]

theorem tideGet_act_some {x y : Nat × List Byte}
    (hfirst : (((u.tides.log.reverse).filter (fun e => decide (fieldLe b 0 8 ≤ e.1))).take (fieldLe b 8 4)).head? = some x)
    (hlast : (((u.tides.log.reverse).filter (fun e => decide (fieldLe b 0 8 ≤ e.1))).take (fieldLe b 8 4)).getLast? = some y) :
    cmdTideGet.act u m b =
      (let ts := ((u.tides.log.reverse).filter (fun e => decide (fieldLe b 0 8 ≤ e.1))).take (fieldLe b 8 4)
       .done u (toLe 4 ts.length ++ toLe 4 (certsFor u x.1 y.1).length ++ ts.flatMap (·.2) ++ (certsFor u x.1 y.1).flatten)) := by
  simp only [cmdTideGet, hfirst, hlast]

theorem proofGet_act : cmdProofGet.act u m b =
    match proofOf u (some (fieldLe b 0 2)) (fieldLe b 4 8) with
    | .absent => .fail 0x0704 0
    | .wait _ => .again u
    | .proof _ bs => .done u bs := rfl

/-! Berths (R122, R342, R343). -/

section Berths
variable {pr : PairId} {k : Fin 16}

theorem askReconf_none {p : Port} {n : Nat} (hnone : berthOf u n = none) (split : Bool) : askReconf u p n split = .fail 0x0809 0 := by
  simp only [askReconf, hnone, badState]

/-- A berth with nothing under way is split or joined, unless it already is so (R122). -/
theorem askReconf_some {p : Port} {n : Nat} (hberth : berthOf u n = some (pr, k)) (hreconf : (posAt u pr.pier.val k).reconf = none)
    (hretiring : (posAt u pr.pier.val k).retiring = none) (hhandover : (posAt u pr.pier.val k).handover = none) (split : Bool) :
    askReconf u p n split = if (posAt u pr.pier.val k).split = split then .fail 0x0809 0
      else .wait (setPos u pr.pier.val k { posAt u pr.pier.val k with reconf := some (split, p) }) n 0 0 true := by
  simp only [askReconf, hberth, hreconf, hretiring, hhandover, Option.isSome_none, Bool.false_eq_true, or_false, if_false, badState]

theorem berthRetire_act_none (hnone : pairOfIsland (fieldLe b 0 2) = none) : cmdBerthRetire.act u m b = .fail 0x0809 0 := by
  simp only [cmdBerthRetire, hnone, badState]

section Retire
variable (hpair : pairOfIsland (fieldLe b 0 2) = some pr) (huse : (pairAt u pr.pier.val pr.inPier).use ≠ .retired)
  (hup : basinUp u pr.pier.basin.val = true)
include hpair huse hup

theorem berthRetire_act_spare (hpos : posOfPair u pr = none) : cmdBerthRetire.act u m b = .done (retirePair u pr 2) [] := by
  simp only [cmdBerthRetire, hpair, huse, hup, hpos, Bool.not_true, Bool.false_eq_true, or_self, if_false]

theorem berthRetire_act_berth (hpos : posOfPair u pr = some k) (hhandover : (posAt u pr.pier.val k).handover = none) :
    cmdBerthRetire.act u m b = if (lowestSpare u pr.pier).isSome then .wait (wantHandover u pr.pier k pr 2) (fieldLe b 0 2) 0 0 true
      else .wait (setPos u pr.pier.val k { posAt u pr.pier.val k with retiring := some m.port }) (fieldLe b 0 2) 0 0 true := by
  simp only [cmdBerthRetire, hpair, huse, hup, hpos, hhandover, Option.isSome_none, Bool.not_true, Bool.false_eq_true, or_self, if_false]

end Retire
end Berths

/-! Basins and injected errors (R347, R350, R354). -/

theorem basinRecover_act_policy (h : fieldLe b 1 1 < 2) : cmdBasinRecover.act u m b = .done (setBasin u (fieldLe b 0 1)
    { basinOf u (fieldLe b 0 1) with policyReset := decide (fieldLe b 1 1 = 1) }) (toLe 4 0) := by
  unfold cmdBasinRecover
  obtain h | h : fieldLe b 1 1 = 0 ∨ fieldLe b 1 1 = 1 := by omega
  · simp only [h]; rfl
  · simp only [h]; rfl

theorem basinRecover_act_none (hnone : strandedOf u (fieldLe b 0 1) = []) (h : 2 ≤ fieldLe b 1 1) :
    cmdBasinRecover.act u m b = .fail 0x0809 0 := by
  unfold cmdBasinRecover
  simp only [hnone, List.isEmpty_nil, if_true, badState]
  split
  · omega
  · omega
  · rfl
  · rfl

theorem basinRecover_act_retry (hsome : strandedOf u (fieldLe b 0 1) ≠ []) (h : fieldLe b 1 1 = 2) :
    cmdBasinRecover.act u m b = .done (retryHbm u (fieldLe b 0 1)) (toLe 4 0) := by
  unfold cmdBasinRecover
  simp only [h]
  exact if_neg (by simpa using hsome)

theorem basinRecover_act_fail {a : Nat} (hsome : strandedOf u (fieldLe b 0 1) ≠ []) (h : fieldLe b 1 1 = 3)
    (hmirror : mirrorOf u (fieldLe b 0 1) = some a) : cmdBasinRecover.act u m b =
      .done (resolveStranded u (fieldLe b 0 1) a).1 (toLe 4 (resolveStranded u (fieldLe b 0 1) a).2) := by
  unfold cmdBasinRecover
  simp only [h, hmirror]
  exact if_neg (by simpa using hsome)

theorem errorInject_act : cmdErrorInject.act u m b =
    match injectError u (fieldLe b 0 2) (fieldLe b 2 1) (fieldLe b 4 8) with
    | none => .fail 0x0809 0
    | some go =>
      let l := logIsland u 0x0A03 0 (fieldLe b 0 2) (toLe 1 (fieldLe b 2 1) ++ toLe 2 (fieldLe b 0 2))
      let r := go { l with dev := { l.dev with injecting := true } }
      .done { r with dev := { r.dev with injecting := false } } [] := rfl

/-! Power, the Logbook and diagnostics (R370, R472). -/

theorem powerPolicySet_act_bad (h : ∃ e ∈ watchOf b, wakeCapable e.2 = false) : cmdPowerPolicySet.act u m b = .fail 0x0809 0 := by
  unfold cmdPowerPolicySet
  exact if_pos (by simpa using h)

theorem powerPolicySet_act_good (h : ∀ e ∈ watchOf b, wakeCapable e.2 = true) : cmdPowerPolicySet.act u m b =
    .done (setClocks (saveConf { u with watch := watchOf b, policy := {
      doldrumsEn := decide (fieldLe b 0 1 = 1), l0pEn := decide (fieldLe b 1 1 = 1), calmIdleUs := dflt (fieldLe b 2 2) 50,
      doldrumsIdleMs := dflt (fieldLe b 4 4) 10, berthMin := fieldLe b 8 2, berthMax := fieldLe b 10 2, galeSetC := fieldLe b 12 1,
      scrubHours := fieldLe b 13 1, voltPct := dflt (fieldLe b 14 1) 5, tempBelowGale := dflt (fieldLe b 15 1) 10,
      droopsPerMs := dflt (fieldLe b 16 2) 16, alarms := [fieldLe b 144 8, fieldLe b 152 8, fieldLe b 160 8, fieldLe b 168 8] } })) [] := by
  unfold cmdPowerPolicySet
  exact if_neg (by simpa using h)

theorem diagRun_act : cmdDiagRun.act u m b =
    (let fail := (Config.freeByte (u.freeCtr * 65536)).toNat % 2
     if diagOk u (fieldLe b 0 2) then .done (setIsland { u with freeCtr := u.freeCtr + 2 } (fieldLe b 0 2) { islandOf u (fieldLe b 0 2) with test := fail + 1 })
       (toLe 1 fail ++ zeros 3 ++ randomBytes (u.freeCtr + 1) 32)
     else .fail 0x0809 0) := by
  unfold cmdDiagRun
  cases h : diagOk u (fieldLe b 0 2) <;> simp [h, badState]

/-! Firmware (R434 to R442). -/

section Staging
variable (hmode : u.dev.st ≠ .slipway)
include hmode

theorem fwStageBegin_act : cmdFwStageBegin.act u m b = if u.otp.lifecycle = 3 then .fail 0x0809 0
    else if u.fw.phase = 1 ∨ u.fw.phase = 3 ∨ u.fw.phase = 4 ∨ u.fw.phase = 5 then .fail 0x0816 0
    else .done (openStage u (fieldLe b 0 4) false) [] := by
  simp only [cmdFwStageBegin, hmode, false_and, and_false, or_false, if_false, badState]

theorem fwStageData_act : cmdFwStageData.act u m b = if u.fw.phase ≠ 1 then .fail 0x0817 0 else if u.fw.pldm then .fail 0x0816 0
    else .done (stageBytes u (fieldLe b 0 4) (b.drop 8)) [] := by
  simp only [cmdFwStageData, hmode, false_and, if_false]

theorem fwStageEnd_act : cmdFwStageEnd.act u m b = if u.fw.phase ≠ 1 then .fail 0x0817 0 else if u.fw.pldm then .fail 0x0816 0
    else if (closeStage u).2.1 = 0 then .done (closeStage u).1 [] else .ends (closeStage u).1 (closeStage u).2.1 (closeStage u).2.2 [] := by
  simp only [cmdFwStageEnd, hmode, false_and, if_false]

theorem fwActivate_act : cmdFwActivate.act u m b = if u.fw.phase ≠ 2 then .fail 0x0817 0 else if u.fw.pldm then .fail 0x0816 0
    else .wait (armFw u (fieldLe b 0 4)) 0 0 4 false := by
  simp only [cmdFwActivate, hmode, false_and, if_false]

end Staging

theorem fwRevert_act_probation (h : u.fw.phase = 5) : cmdFwRevert.act u m b = .done (revertFw u 0) [] := by
  simp only [cmdFwRevert, h, if_true]

theorem fwRevert_act_other (h5 : u.fw.phase ≠ 5) (h6 : u.fw.phase ≠ 6) : cmdFwRevert.act u m b = .fail 0x0817 0 := by
  simp only [cmdFwRevert, h5, h6, if_false, ne_eq, not_false_eq_true, if_true]

/-! One-time-programmable memory (R446 to R448). -/

theorem settingsBurn_act : cmdSettingsBurn.act u m b = if 4 ≤ u.otp.settings.length then .fail 0x0818 0
    else if b.all (· == 0) then .done (arrive u 0xC03 u.otp.settings.length false) []
    else .done (arrive { u with otp := { u.otp with settings := u.otp.settings ++ [b] } } 0xC03 (u.otp.settings.length + 1) false) [] := by
  unfold cmdSettingsBurn
  cases h : b.all (· == 0)
  · simp only [h, Bool.false_eq_true, if_false, List.length_append, List.length_singleton]
  · simp only [h, if_true]

theorem lifecycleAdvance_act_last (h : 3 ≤ u.otp.lifecycle) : cmdLifecycleAdvance.act u m b = .fail 0x0818 0 := by
  simp only [cmdLifecycleAdvance, h, if_true]

theorem lifecycleAdvance_act (h : u.otp.lifecycle < 3) : cmdLifecycleAdvance.act u m b =
    if fieldLe b 0 1 ≠ u.otp.lifecycle + 1 ∨ (u.otp.lifecycle = 1 ∧ u.otp.owners.isEmpty) then .fail 0x0809 0
    else .done { u with otp := { u.otp with lifecycle := u.otp.lifecycle + 1 } } [] := by
  simp only [cmdLifecycleAdvance, Nat.not_le.mpr h, if_false, badState]

/-! The Roadstead (R483, R489). -/

theorem roadsteadJoin_act : cmdRoadsteadJoin.act u m b = if joinOk u b then
    .done ([0, 1].foldl (fun s l => setLink s l { linkOf s l with hello := 0, queue := [] }) { u with
      position := fieldLe b 0 1, duplexReady := false, mirrors := u.mirrors.filter (fun e => bitOf u.road.takenHere e.1),
      road := { members := fieldLe b 1 1, units := (joinUnits b).take (fieldLe b 1 1), links := fieldLe b 2 1,
                target := some ((fieldLe b 0 1 + 1) % fieldLe b 1 1), tideSent := ((u.tides.log.head?).map (·.1)).getD 0,
                takenHere := u.road.takenHere, taken := u.road.takenHere } }) []
    else .fail 0x0809 0 := by
  unfold cmdRoadsteadJoin
  cases h : joinOk u b <;> simp [h, badState]

theorem partnerTakeover_act_bad (h : (peerOf u (fieldLe b 0 1)).lost = false) : cmdPartnerTakeover.act u m b = .fail 0x0809 0 := by
  unfold cmdPartnerTakeover
  exact if_pos (.inr (.inl (by rw [h]; rfl)))

/-- The standby tenants of a lost member go on here, with the lines that its mirror holds (R489). -/
theorem partnerTakeover_act {q : Nat} (hq : fieldLe b 0 1 = q) (hmember : q < u.road.members) (hlost : (peerOf u q).lost = true)
    (hmirror : (mget u.mirrors q).isSome = true) (hfree : bitOf u.road.taken q = false) :
    cmdPartnerTakeover.act u m b =
      (let here : State := { u with road := { u.road with taken := u.road.taken + 2 ^ q, takenHere := u.road.takenHere + 2 ^ q } }
       let took : State := { here with mem := { u.mem with
         ledgered := (mirrorAt u q).lines.foldl (fun x e => tset 0 x ((q + 1) * 2 ^ 32 + e.1) e.2) u.mem.ledgered } }
       .done ((standbys took).foldl (takeTenant q (mirrorAt u q)) took) (toLe 4 (standbys took).length)) := by
  subst hq
  unfold cmdPartnerTakeover
  refine if_neg ?_
  rintro (h | h | h | h)
  · omega
  · simp [hlost] at h
  · simp [Option.isNone_iff_eq_none.mp h] at hmirror
  · simp [hfree] at h

end Acts

end Sys2Proof.Machine

namespace Sys2Proof.Proofs
open Sys2Proof.Machine

/-- Settles O54, command by command: a GO that the Pilot takes shows what the command comes to (`gives_of_act`, `givesSigned_of_act`), and
what each command comes to is the equation of its act. -/
theorem mailboxPlatformCommands : Obligations.MailboxPlatformCommands := by
  intro s m pr k x y a go bs o n u p b f bad slipway prog ts w es q trim cut life here took fail burnt advanced rotated
  refine ⟨?handlerReplaced, ?handlerNew, ?handlerBind, ?formatFault, ?formatIdle, ?configBusy, ?configSame, ?tideNone, ?tideSome,
    ?proofAbsent, ?proofWait, ?proof, ?trim, ?berthNone, ?berthSome, ?retireNone, ?retireSome, ?recoverPolicy, ?recoverNone, ?recoverSome,
    ?injectNone, ?injectSome, ?policyBad, ?policyGood, ?thermal, ?logRead, ?logClear, ?diagBad, ?diagGood, ?staging, ?confirm,
    ?revertProbation, ?revertOther, ?status, ?burn, ?burnSigned, ?slipway, ?lifeLast, ?lifeFirst, ?lifeSigned, ?rotate, ?rotateSigned,
    ?joinBad, ?joinGood, ?roadStatus, ?takeoverBad, ?takeover⟩
  case handlerReplaced =>
    intro hidle hloaded
    exact gives_of_act rfl ((handlerLoad_act hidle).trans
      (if_neg fun h => Option.not_isSome_iff_eq_none.mpr (Option.isNone_iff_eq_none.mp h.1) hloaded))
  case handlerNew =>
    intro hnew hidle
    exact gives_of_act rfl ((handlerLoad_act hidle).trans (if_congr (and_iff_right (Option.isNone_iff_eq_none.mpr hnew)) rfl rfl))
  case handlerBind => exact fun ht => gives_of_act rfl (handlerBind_act ht)
  case formatFault => exact fun hfault => gives_of_act rfl (formatLoad_act_fault hfault)
  case formatIdle => exact fun hgood hidle => gives_of_act rfl (formatLoad_act_idle hgood hidle)
  case configBusy => exact fun hbusy hother => gives_of_act rfl (ledgerConfigure_act_busy hbusy hother)
  case configSame => exact fun harea hpart hmask hlog hbase => gives_of_act rfl (ledgerConfigure_act_same harea hpart hmask hlog hbase)
  case tideNone => exact fun hnone => gives_of_act rfl (tideGet_act_none hnone)
  case tideSome => exact fun hfirst hlast => gives_of_act rfl (tideGet_act_some hfirst hlast)
  case proofAbsent => exact fun h => gives_of_act rfl (by rw [proofGet_act, h])
  case proofWait => exact fun h => gives_of_act rfl (by rw [proofGet_act, h])
  case proof => exact fun h => gives_of_act rfl (by rw [proofGet_act, h])
  case trim => exact gives_of_act rfl ledgerTrim_act
  case berthNone => exact fun hnone => ⟨gives_of_act rfl (askReconf_none hnone true), gives_of_act rfl (askReconf_none hnone false)⟩
  case berthSome =>
    intro hberth hreconf hretiring hhandover
    refine ⟨gives_of_act rfl (askReconf_some hberth hreconf hretiring hhandover true),
      gives_of_act rfl ((askReconf_some hberth hreconf hretiring hhandover false).trans ?_)⟩
    by_cases hsplit : w.split = true
    · exact (if_neg (Bool.not_eq_false _ |>.mpr hsplit)).trans (if_pos hsplit).symm
    · exact (if_pos (Bool.eq_false_iff.mpr hsplit)).trans (if_neg hsplit).symm
  case retireNone => exact fun hnone => gives_of_act rfl (berthRetire_act_none hnone)
  case retireSome =>
    intro hpair huse hup
    exact ⟨fun hpos => gives_of_act rfl (berthRetire_act_spare hpair huse hup hpos),
      fun hpos hhandover => gives_of_act rfl (berthRetire_act_berth hpair huse hup hpos hhandover)⟩
  case recoverPolicy => exact fun h => gives_of_act rfl (basinRecover_act_policy h)
  case recoverNone => exact fun hnone h => gives_of_act rfl (basinRecover_act_none hnone h)
  case recoverSome =>
    exact fun hsome => ⟨fun h => gives_of_act rfl (basinRecover_act_retry hsome h),
      fun h hmirror => gives_of_act rfl (basinRecover_act_fail hsome h hmirror)⟩
  case injectNone => exact fun h => gives_of_act rfl (by rw [errorInject_act, h])
  case injectSome => exact fun h => gives_of_act rfl (by rw [errorInject_act, h])
  case policyBad => exact fun h => gives_of_act rfl (powerPolicySet_act_bad h)
  case policyGood => exact fun h => gives_of_act rfl (powerPolicySet_act_good h)
  case thermal => exact gives_of_act rfl rfl
  case logRead => exact gives_of_act rfl rfl
  case logClear => exact gives_of_act rfl rfl
  case diagBad => exact fun h => gives_of_act rfl (diagRun_act.trans (if_neg (Bool.eq_false_iff.mp h)))
  case diagGood => exact fun h => gives_of_act rfl (diagRun_act.trans (if_pos h))
  case staging =>
    intro hmode
    refine ⟨fun h => ?_, fun h => ?_, fun h => ⟨?_, ?_⟩, fun h hpldm => ⟨?_, ?_⟩, fun h => ?_, fun h hpldm => ?_⟩
    · exact gives_of_act rfl ((fwStageBegin_act hmode).trans (if_pos h))
    · exact gives_of_act rfl ((fwStageBegin_act hmode).trans (if_neg h))
    · exact gives_of_act rfl ((fwStageData_act hmode).trans (if_pos h))
    · exact gives_of_act rfl ((fwStageEnd_act hmode).trans (if_pos h))
    · exact gives_of_act rfl ((fwStageData_act hmode).trans ((if_neg (not_not.mpr h)).trans (if_neg (Bool.eq_false_iff.mp hpldm))))
    · exact gives_of_act rfl ((fwStageEnd_act hmode).trans ((if_neg (not_not.mpr h)).trans (if_neg (Bool.eq_false_iff.mp hpldm))))
    · exact gives_of_act rfl ((fwActivate_act hmode).trans (if_pos h))
    · exact gives_of_act rfl ((fwActivate_act hmode).trans ((if_neg (not_not.mpr h)).trans (if_neg (Bool.eq_false_iff.mp hpldm))))
  case confirm => exact gives_of_act rfl rfl
  case revertProbation => exact fun h => gives_of_act rfl (fwRevert_act_probation h)
  case revertOther => exact fun h5 h6 => gives_of_act rfl (fwRevert_act_other h5 h6)
  case status => exact gives_of_act rfl rfl
  case burn => exact gives_of_act rfl settingsBurn_act
  case burnSigned => exact givesSigned_of_act rfl settingsBurn_act
  case slipway => exact givesSigned_of_act rfl rfl
  case lifeLast => exact fun h => givesSigned_of_act rfl (lifecycleAdvance_act_last h)
  case lifeFirst => exact fun h => gives_of_act rfl (lifecycleAdvance_act (h.trans_lt (by decide)))
  case lifeSigned => exact fun _ h => givesSigned_of_act rfl (lifecycleAdvance_act h)
  case rotate => exact fun _ => gives_of_act rfl rfl
  case rotateSigned => exact givesSigned_of_act rfl rfl
  case joinBad => exact fun h => gives_of_act rfl (roadsteadJoin_act.trans (if_neg (Bool.eq_false_iff.mp h)))
  case joinGood => exact fun h => gives_of_act rfl (roadsteadJoin_act.trans (if_pos h))
  case roadStatus => exact gives_of_act rfl rfl
  case takeoverBad => exact fun h => givesSigned_of_act rfl (partnerTakeover_act_bad h)
  case takeover =>
    exact fun hmember hlost hmirror hfree => givesSigned_of_act rfl (partnerTakeover_act rfl hmember hlost hmirror hfree)

end Sys2Proof.Proofs
end

section
/-! PROOFS. The links of the Harbour and the members of the roadstead (R479 to R489): what is read of them after a change and after a
report, and what a retrain, the books of the credits and a sending do. -/

namespace Sys2Proof.Machine

/-! What is read after a change. -/

@[simp] theorem linkOf_setLink_same (s : State) (l : Nat) (v : HLink) : linkOf (setLink s l v) l = v := tget_tset_same _ _ _ _
theorem linkOf_setLink_other (s : State) {l k : Nat} (v : HLink) (h : k ≠ l) : linkOf (setLink s l v) k = linkOf s k :=
  tget_tset_other _ _ _ h
@[simp] theorem peerOf_setPeer_same (s : State) (q : Nat) (v : Peer) : peerOf (setPeer s q v) q = v := tget_tset_same _ _ _ _
@[simp] theorem mirrorAt_setMirror_same (s : State) (q : Nat) (v : Mirror) : mirrorAt (setMirror s q v) q = v := tget_tset_same _ _ _ _

/-! What a report leaves alone: an arrival at a source, an entry of the Logbook, the activity of a link (R355, R357, R371). -/

theorem linkOf_of_unreported {s t : State} (h : unreported t = unreported s) (l : Nat) : linkOf t l = linkOf s l :=
  field_of_unreported h (linkOf · l) fun _ => rfl
theorem road_of_unreported {s t : State} (h : unreported t = unreported s) : t.road = s.road := field_of_unreported h State.road fun _ => rfl
theorem position_of_unreported {s t : State} (h : unreported t = unreported s) : t.position = s.position :=
  field_of_unreported h State.position fun _ => rfl
theorem nowNs_of_unreported {s t : State} (h : unreported t = unreported s) : nowNs t = nowNs s := field_of_unreported h nowNs fun _ => rfl

theorem logIsland_unreported (s : State) (code cls n : Nat) (d : List Byte) : unreported (logIsland s code cls n d) = unreported s :=
  logAdd_unreported ..
theorem linkTold_unreported (s : State) (l : Nat) : unreported (linkTold s l) = unreported s := arrive_unreported ..
theorem linkActive_unreported (s : State) (l : Nat) : unreported (linkActive s l) = unreported s := by
  unfold linkActive
  extract_lets u
  have hu : unreported u = unreported s := arrive_unreported ..
  split
  · exact hu
  · exact hu

@[simp] theorem arrive_road (s : State) (n d : Nat) (p : Bool) : (arrive s n d p).road = s.road := road_of_unreported (arrive_unreported ..)
@[simp] theorem logIsland_linkOf (s : State) (code cls n : Nat) (d : List Byte) (l : Nat) : linkOf (logIsland s code cls n d) l = linkOf s l :=
  linkOf_of_unreported (logIsland_unreported ..) l
@[simp] theorem logIsland_road (s : State) (code cls n : Nat) (d : List Byte) : (logIsland s code cls n d).road = s.road :=
  road_of_unreported (logIsland_unreported ..)
@[simp] theorem logIsland_position (s : State) (code cls n : Nat) (d : List Byte) : (logIsland s code cls n d).position = s.position :=
  position_of_unreported (logIsland_unreported ..)
@[simp] theorem linkTold_linkOf (s : State) (l k : Nat) : linkOf (linkTold s l) k = linkOf s k := linkOf_of_unreported (linkTold_unreported ..) k
@[simp] theorem linkActive_linkOf (s : State) (l k : Nat) : linkOf (linkActive s l) k = linkOf s k :=
  linkOf_of_unreported (linkActive_unreported ..) k
@[simp] theorem linkActive_road (s : State) (l : Nat) : (linkActive s l).road = s.road := road_of_unreported (linkActive_unreported ..)
@[simp] theorem linkActive_position (s : State) (l : Nat) : (linkActive s l).position = s.position :=
  position_of_unreported (linkActive_unreported ..)
@[simp] theorem linkActive_nowNs (s : State) (l : Nat) : nowNs (linkActive s l) = nowNs s := nowNs_of_unreported (linkActive_unreported ..)

/-- A wake from Doldrums is still awake (R371). -/
@[simp] theorem arrive_awake (s : State) (n d : Nat) (p : Bool) : awake (arrive s n d p) = awake s := by
  unfold arrive
  split
  · rfl
  · extract_lets v now first v1 v2 u
    split
    · rename_i h
      have hst : s.dev.st = .doldrums := h.1
      simp [awake, running, hst]
    · rfl

@[simp] theorem linkActive_linkIsland (s : State) (l k : Nat) : linkIsland (linkActive s l) k = linkIsland s k := by
  have hislands : (linkActive s l).islands = s.islands := field_of_unreported (linkActive_unreported s l) State.islands fun _ => rfl
  have hawake : awake (linkActive s l) = awake s := by
    unfold linkActive
    extract_lets u
    have hu : awake u = awake s := arrive_awake ..
    split
    · rename_i h
      rw [← hu]
      simp [awake, running, h]
    · exact hu
  unfold linkIsland islandOf
  rw [hislands, hawake]

/-! What a report tells. -/

/-- An arrival shows at its source, which presents nothing by itself and has no window open (R359 to R362). -/
theorem arrived_arrive {s : State} {n : Nat} (hdef : srcDefined n = true) (hen : (srcOf s n).en = false) (hwindow : (srcOf s n).window = none)
    (d : Nat) (p : Bool) : arrived (arrive s n d p) n := by
  unfold arrive
  rw [if_neg (by simp [hdef])]
  extract_lets v now first v1 v2 u
  have hfirst : first = false := by simp [first, v, hen]
  have hv : fireByCount v2 now = v1 := by simp [fireByCount, v2, v1, v, hfirst, hwindow]
  have hu : (srcOf u n).pending = true := by
    rw [show srcOf u n = v1 from (tget_tset_same _ _ _ _).trans hv]
  split
  · exact hu
  · exact hu

theorem arrive_srcOf_other {s : State} {n k : Nat} (h : k ≠ n) (d : Nat) (p : Bool) : srcOf (arrive s n d p) k = srcOf s k := by
  unfold arrive
  split
  · rfl
  · extract_lets v now first v1 v2 u
    have hu : srcOf u k = srcOf s k := tget_tset_other _ _ _ h
    split
    · exact hu
    · exact hu

theorem linkActive_srcOf (s : State) (l : Nat) : srcOf (linkActive s l) (0xD00 + l) = srcOf s (0xD00 + l) := by
  unfold linkActive
  extract_lets u
  have hu : srcOf u (0xD00 + l) = srcOf s (0xD00 + l) := arrive_srcOf_other (by omega) _ _
  split
  · exact hu
  · exact hu

theorem logIsland_srcOf {s : State} {code cls n k : Nat} {d : List Byte} (h : k ≠ 0x900 + cls) :
    srcOf (logIsland s code cls n d) k = srcOf s k := by
  unfold logIsland logAdd
  extract_lets now fresh
  split
  · split
    · rfl
    · exact arrive_srcOf_other h _ _
  · exact arrive_srcOf_other h _ _

@[simp] theorem arrive_log (s : State) (n d : Nat) (p : Bool) : (arrive s n d p).log = s.log := by
  unfold arrive
  split
  · rfl
  · extract_lets v now first v1 v2 u
    split
    · rfl
    · rfl

/-- An entry stands newest in the Logbook, merged or appended (R355). -/
theorem logged_logIsland (s : State) (code cls n : Nat) (d : List Byte) : logged (logIsland s code cls n d) code := by
  unfold logIsland logAdd
  extract_lets now fresh
  split
  · split
    · rename_i h
      exact congrArg some h.1
    · exact (congrArg (·.head?.map (·.code)) (arrive_log ..)).trans rfl
  · exact (congrArg (·.head?.map (·.code)) (arrive_log ..)).trans rfl

/-! Retrains (R482). -/

/-- The source of a link presents nothing by itself and has no window open. -/
def quietLink (s : State) (l : Nat) : Prop := (srcOf s (0xD00 + l)).en = false ∧ (srcOf s (0xD00 + l)).window = none

theorem linkTold_arrived {s : State} {l : Nat} (hl : l < 2) (hquiet : quietLink s l) : arrived (linkTold s l) (0xD00 + l) :=
  arrived_arrive (by obtain rfl | rfl : l = 0 ∨ l = 1 := by omega
                     · rfl
                     · rfl) hquiet.1 hquiet.2 _ _

/-- A link is down for a training, and its source has told so. -/
def goneDown (quiet : Prop) (l : Nat) (u : State) : Prop :=
  (linkOf u l).up = false ∧ (linkOf u l).training = true ∧ (linkOf u l).lanes = 0 ∧ (quiet → arrived u (0xD00 + l))

theorem goneDown.imp {P Q : Prop} {l : Nat} {u : State} (h : goneDown P l u) (hQP : Q → P) : goneDown Q l u := by
  obtain ⟨hup, htraining, hlanes, htold⟩ := h
  exact ⟨hup, htraining, hlanes, fun hQ => htold (hQP hQ)⟩

theorem quietLink_linkActive {s : State} {l : Nat} (h : quietLink s l) : quietLink (linkActive s l) l := by
  unfold quietLink
  rw [linkActive_srcOf]
  exact h

theorem startRetrain_goneDown {s : State} {l : Nat} (hl : l < 2) (htraining : (linkOf s l).training = false) :
    goneDown (quietLink s l) l (startRetrain s l) := by
  unfold startRetrain
  extract_lets v w s1 q s2
  rw [if_neg (by simp [v, htraining])]
  have hsources : s2.sources = s.sources := by
    simp only [s2, s1]
    split
    · rfl
    · rfl
  have hquiet : quietLink s l → quietLink s2 l := by
    unfold quietLink srcOf
    rw [hsources]
    exact id
  have hlink : linkOf (linkTold s2 l) l = _ := (linkTold_linkOf s2 l l).trans (linkOf_setLink_same ..)
  unfold goneDown
  rw [hlink]
  exact ⟨rfl, rfl, rfl, fun h => linkTold_arrived hl (hquiet h)⟩

end Sys2Proof.Machine
end

section
/-! PROOFS. How the links of the Harbour train, greet, acknowledge and resend (R479 to R484), each command by a lemma. -/

namespace Sys2Proof.Machine

/-! Training (R481, R482). -/

section Training
variable {s : State} {link : Fin 2} (hisland : linkIsland s link.val = true)
include hisland

theorem execHawserRetrain_failed {lanes : Fin 3} (htraining : (linkOf s link.val).training = true) (hlanes : lanes.val = 0) :
    execHawserRetrain link lanes s = .next (linkTold (setLink s link.val { linkOf s link.val with
      up := false, lanes := 0, training := false, draining := false, init := false, trainedAt := nowNs s }) link.val) := by
  simp only [execHawserRetrain, hisland, htraining, hlanes, Bool.not_true, Bool.false_eq_true, or_self, if_false, if_true]

theorem execHawserRetrain_trained {lanes : Fin 3} (htraining : (linkOf s link.val).training = true) (hlanes : lanes.val ≠ 0) :
    execHawserRetrain link lanes s = .next (
      let u := linkTold (linkUp s link.val (4 * lanes.val)) link.val
      if lanes.val = 1 then logIsland u 0x0903 1 (islHawser link.val) (toLe 1 link.val ++ toLe 1 4) else u) := by
  simp only [execHawserRetrain, hisland, htraining, hlanes, Bool.not_true, Bool.false_eq_true, or_self, if_false]

theorem execHawserTrainingRetry_down (htraining : (linkOf s link.val).training = false) (hdraining : (linkOf s link.val).draining = false)
    (hup : (linkOf s link.val).up = false) : execHawserTrainingRetry link s =
      .next (if (linkOf s link.val).trainedAt + 1000000000 ≤ nowNs s then setLink s link.val { linkOf s link.val with training := true } else s) := by
  simp only [execHawserTrainingRetry, hisland, htraining, hdraining, hup, Bool.not_true, Bool.not_false, Bool.false_eq_true, or_self, if_false,
    if_true]

section Degraded
variable (htraining : (linkOf s link.val).training = false) (hdraining : (linkOf s link.val).draining = false)
  (hup : (linkOf s link.val).up = true) (hlanes : (linkOf s link.val).lanes = 4)
  (htime : (linkOf s link.val).trainedAt + 60000000000 ≤ nowNs s)
include htraining hdraining hup hlanes htime

/-- A degraded link trains for x8 where every member has another path, once its replay buffer is empty (R482). -/
theorem execHawserTrainingRetry_degraded (hother : otherPath s link.val = true) : execHawserTrainingRetry link s = .next (
    let u := setLink s (1 - link.val) { linkOf s (1 - link.val) with queue := (linkOf s (1 - link.val)).queue ++ (linkOf s link.val).queue }
    if (linkOf s link.val).replay.isEmpty then startRetrain (setLink u link.val { linkOf s link.val with queue := [] }) link.val
    else setLink u link.val { linkOf s link.val with queue := [], draining := true }) := by
  simp only [execHawserTrainingRetry, hisland, htraining, hdraining, hup, hlanes, htime, hother, Bool.not_true, Bool.false_eq_true, or_self,
    and_self, if_false, if_true]

theorem execHawserTrainingRetry_alone (hother : otherPath s link.val = false) : execHawserTrainingRetry link s = .next s := by
  simp only [execHawserTrainingRetry, hisland, htraining, hdraining, hup, hlanes, htime, hother, Bool.not_true, Bool.false_eq_true, or_self,
    and_false, if_false]

end Degraded

theorem execHawserLockLost_up (hup : (linkOf s link.val).up = true) : execHawserLockLost link s = .next (startRetrain s link.val) := by
  simp only [execHawserLockLost, hisland, hup, Bool.and_self, if_true]

/-- The books of a link with the full buffer of every VC granted (R481). -/
def fullBooks (t : Table Vc) : Table Vc :=
  [0, 1, 2].foldl (fun u k => tset {} u k { tget {} t k with credit := vcRoom k, last := 0 }) t

omit hisland in
theorem fullBooks_credit (t : Table Vc) {k : Nat} (hk : k < 3) : (tget {} (fullBooks t) k).credit = vcRoom k := by
  unfold fullBooks
  simp only [List.foldl_cons, List.foldl_nil]
  obtain rfl | rfl | rfl : k = 0 ∨ k = 1 ∨ k = 2 := by omega
  · rw [tget_tset_other _ _ _ (by decide), tget_tset_other _ _ _ (by decide), tget_tset_same]
  · rw [tget_tset_other _ _ _ (by decide), tget_tset_same]
  · rw [tget_tset_same]

theorem execHawserInit_first (hup : (linkOf s link.val).up = true) (hinit : (linkOf s link.val).init = false) :
    execHawserInit link s = .next (setLink (linkActive s link.val) link.val { linkOf s link.val with
      init := true, ackAt := nowNs s, vcs := fullBooks (linkOf s link.val).vcs }) := by
  simp only [execHawserInit, hisland, hup, hinit, Bool.not_true, Bool.false_eq_true, or_self, if_false]
  rfl

end Training

/-! Resending (R479). -/

/-- The NAKs of a link within the last 1 ms. -/
def recentNaks (s : State) (l : Nat) : List Nat := (linkOf s l).naks.filter (fun t => decide (nowNs s < t + 1000000))

theorem recentNaks_linkActive (s : State) (l : Nat) : recentNaks (linkActive s l) l = recentNaks s l := by
  unfold recentNaks
  rw [linkActive_linkOf, linkActive_nowNs]

theorem countNak_few {s : State} {l : Nat} (h : (recentNaks s l).length < 63) :
    countNak s l = setLink s l { linkOf s l with naks := recentNaks s l ++ [nowNs s] } := by
  unfold countNak
  extract_lets v naks u
  refine if_neg ?_
  rw [show naks = recentNaks s l ++ [nowNs s] from rfl, List.length_append, List.length_singleton]
  omega

theorem countNak_many {s : State} {l : Nat} (hl : l < 2) (htraining : (linkOf s l).training = false) (h : 63 ≤ (recentNaks s l).length) :
    goneDown (quietLink s l) l (countNak s l) := by
  unfold countNak
  extract_lets v naks u
  have hmany : 64 ≤ naks.length := by
    rw [show naks = recentNaks s l ++ [nowNs s] from rfl, List.length_append, List.length_singleton]
    omega
  rw [if_pos hmany]
  exact startRetrain_goneDown (s := u) hl ((congrArg HLink.training (linkOf_setLink_same ..)).trans htraining)

/-- One more resending of a flit. -/
def resentOnce (f : TxFlit) : TxFlit := { f with resent := f.resent + 1 }

theorem resendFrom_few {s : State} {l n : Nat} (h : ∀ f ∈ (linkOf s l).replay.drop n, f.resent < 7) :
    resendFrom s l n = setLink s l { linkOf s l with
      replay := (linkOf s l).replay.take n ++ ((linkOf s l).replay.drop n).map resentOnce, ackAt := nowNs s } := by
  unfold resendFrom
  refine if_neg ?_
  simp only [List.any_eq_true, List.mem_map, not_exists, not_and, decide_eq_true_eq]
  rintro _ ⟨f, hf, rfl⟩ hmany
  exact absurd (h f hf) (Nat.not_lt.mpr (Nat.le_of_succ_le_succ hmany))

theorem resendFrom_many {s : State} {l n : Nat} (hl : l < 2) (htraining : (linkOf s l).training = false)
    (h : ∃ f ∈ (linkOf s l).replay.drop n, 7 ≤ f.resent) : goneDown (quietLink s l) l (resendFrom s l n) := by
  obtain ⟨f, hf, hmany⟩ := h
  unfold resendFrom
  extract_lets v again u
  have hany : again.any (fun f => decide (8 ≤ f.resent)) = true :=
    List.any_eq_true.mpr ⟨resentOnce f, List.mem_map_of_mem hf, decide_eq_true (Nat.succ_le_succ hmany)⟩
  rw [if_pos hany]
  exact startRetrain_goneDown (s := u) hl ((congrArg HLink.training (linkOf_setLink_same ..)).trans htraining)

section Resending
variable {s : State} {link : Fin 2} (hisland : linkIsland s link.val = true) (hup : (linkOf s link.val).up = true)
include hisland hup

theorem execNak_up (seq : BitVec 12) : execNak link seq s = .next (
    let u := countNak (linkActive s link.val) link.val
    if !(linkOf u link.val).up then u
    else match findIdx' (fun (f : TxFlit) => f.seq == seq.toNat) (linkOf u link.val).replay 0 with
      | none => u
      | some n => resendFrom u link.val n) := by
  unfold execNak
  exact congrArg Host.Outcome.next (if_neg (by simp [hisland, hup]))

theorem execFlitReplayTimeout_late (hreplay : (linkOf s link.val).replay ≠ []) (htime : (linkOf s link.val).ackAt + 20000 < nowNs s) :
    execFlitReplayTimeout link s = .next (resendFrom s link.val 0) := by
  simp only [execFlitReplayTimeout, hisland, hup, Bool.not_true, Bool.false_eq_true, List.isEmpty_iff, hreplay, Nat.not_le.mpr htime, or_self,
    if_false]

theorem execFlitCrcFail_up : execFlitCrcFail link s = .next (gapSeen s link.val) := by
  simp only [execFlitCrcFail, hisland, hup, Bool.not_true, Bool.false_eq_true, or_self, if_false]

theorem execIdleFlit_up (hinit : (linkOf s link.val).init = true) (a : Option (BitVec 12)) (cvc : Fin 3) (credits : BitVec 8) :
    execIdleFlit link a cvc credits s = .next (pumpLink (takeAck s link.val a cvc.val credits.toNat) link.val) := by
  simp only [execIdleFlit, hisland, hup, hinit, Bool.not_true, Bool.false_eq_true, or_self, if_false]

theorem execHello_up (hmembers : s.road.members ≠ 0) (m : HelloMsg) : execHello link m s = .next (
    let f := helloFinding s link.val m
    let q := cabled s link.val
    let u := setLink (linkActive s link.val) link.val { linkOf s link.val with hello := f, count := 0 }
    let u := setPeer u q { peerOf u q with hello := f, combination := m.combination }
    let u := if f = 3 then regain u q else u
    if u.road.target ≠ some q then u
    else if f = 3 then beginSeed u
    else if u.road.mirror = 1 ∨ u.road.seed then u
    else setMirroring u (if f = 2 then 2 else 0)) := by
  simp only [execHello, hisland, hup, hmembers, Bool.not_true, Bool.false_eq_true, or_self, if_false]

end Resending

theorem execFlitReplayTimeout_early {s : State} {link : Fin 2} (htime : nowNs s ≤ (linkOf s link.val).ackAt + 20000) :
    execFlitReplayTimeout link s = .next s := by
  simp only [execFlitReplayTimeout, htime, or_true, if_true]

end Sys2Proof.Machine
end

section
/-! PROOFS. Credits, acknowledgements and flits that are sent and taken (R95, R353, R477 to R480, R486). -/

namespace Sys2Proof.Machine

/-! The books of the credits (R95, R353). -/

@[simp] theorem haltHarbour_linkOf (s : State) (code l : Nat) : linkOf (haltHarbour s code) l = linkOf s l := by
  unfold haltHarbour
  extract_lets u w
  exact (linkOf_of_unreported ((arrive_unreported ..).trans (arrive_unreported ..)) l).trans (logIsland_linkOf ..)
@[simp] theorem haltHarbour_position (s : State) (code : Nat) : (haltHarbour s code).position = s.position := by
  unfold haltHarbour
  extract_lets u w
  exact (position_of_unreported ((arrive_unreported ..).trans (arrive_unreported ..))).trans (logIsland_position ..)

@[simp] theorem creditBooks_linkOf (s : State) (l vc k : Nat) : linkOf (creditBooks s l vc) k = linkOf s k := by
  unfold creditBooks
  extract_lets v out got
  split
  · exact (haltHarbour_linkOf ..).trans (logIsland_linkOf ..)
  · rfl
@[simp] theorem creditBooks_position (s : State) (l vc : Nat) : (creditBooks s l vc).position = s.position := by
  unfold creditBooks
  extract_lets v out got
  split
  · exact (haltHarbour_position ..).trans (logIsland_position ..)
  · rfl

/-- A count above the allocation is an imbalance. -/
theorem creditBooks_halted {s : State} {l vc : Nat} (h : vcRoom vc < (tget {} (linkOf s l).vcs vc).credit) :
    (creditBooks s l vc).dev.st = .halted := by
  unfold creditBooks
  extract_lets v out got
  rw [if_pos h]
  exact haltHarbour_halted _ _

/-! ACK and credits of a flit that arrives (R477, R479, R480). -/

section TakeAck
variable (s : State) (l : Nat) (ack : Option (BitVec 12)) (cvc credits : Nat)

@[simp] theorem takeAck_position : (takeAck s l ack cvc credits).position = s.position := creditBooks_position ..

@[simp] theorem takeAck_rxSeq : (linkOf (takeAck s l ack cvc credits) l).rxSeq = (linkOf s l).rxSeq := by
  unfold takeAck
  extract_lets v v1 c gain v2 u
  rw [creditBooks_linkOf, linkOf_setLink_same]
  show v1.rxSeq = v.rxSeq
  simp only [v1]
  split
  · rfl
  · rfl

@[simp] theorem takeAck_queue : (linkOf (takeAck s l ack cvc credits) l).queue = (linkOf s l).queue := by
  unfold takeAck
  extract_lets v v1 c gain v2 u
  rw [creditBooks_linkOf, linkOf_setLink_same]
  show v1.queue = v.queue
  simp only [v1]
  split
  · rfl
  · rfl

/-- Counts of credits are cumulative: what is gained is the difference from the last one. -/
def creditGain (s : State) (l cvc credits : Nat) : Nat := (credits + 256 - (tget {} (linkOf s l).vcs cvc).last) % 256

theorem takeAck_books : tget {} (linkOf (takeAck s l ack cvc credits) l).vcs cvc = { tget {} (linkOf s l).vcs cvc with
    credit := (tget {} (linkOf s l).vcs cvc).credit + creditGain s l cvc credits, last := credits } := by
  unfold takeAck
  extract_lets v v1 c gain v2 u
  have hvcs : v1.vcs = v.vcs := by
    simp only [v1]
    split
    · rfl
    · rfl
  have hc : c = tget {} v.vcs cvc := by rw [← hvcs]
  rw [creditBooks_linkOf, linkOf_setLink_same]
  show tget {} (tset {} v1.vcs cvc _) cvc = _
  rw [tget_tset_same]
  simp only [gain, hc]
  rfl

variable {s l cvc credits} in
theorem takeAck_halted (h : vcRoom cvc < (tget {} (linkOf s l).vcs cvc).credit + creditGain s l cvc credits) :
    (takeAck s l ack cvc credits).dev.st = .halted := by
  have hbooks := takeAck_books s l ack cvc credits
  unfold takeAck at hbooks ⊢
  extract_lets at hbooks ⊢
  rw [creditBooks_linkOf] at hbooks
  exact creditBooks_halted (by rw [hbooks]; exact h)

end TakeAck

/-- ACK frees the replay buffer up to and with the flit it names. -/
theorem takeAck_replay {s : State} {l n : Nat} {a : BitVec 12} (h : findIdx' (fun (f : TxFlit) => f.seq == a.toNat) (linkOf s l).replay 0 = some n)
    (cvc credits : Nat) : (linkOf (takeAck s l (some a) cvc credits) l).replay = (linkOf s l).replay.drop (n + 1) := by
  unfold takeAck
  simp only [Option.bind_some, h, creditBooks_linkOf, linkOf_setLink_same]

/-! Sending (R477 to R480). -/

@[simp] theorem pumpLink_road (s : State) (l : Nat) : (pumpLink s l).road = s.road := by
  unfold pumpLink
  split
  · rfl
  · rfl
@[simp] theorem pumpLink_position (s : State) (l : Nat) : (pumpLink s l).position = s.position := by
  unfold pumpLink
  split
  · rfl
  · rfl
@[simp] theorem pumpLink_dev (s : State) (l : Nat) : (pumpLink s l).dev = s.dev := by
  unfold pumpLink
  split
  · rfl
  · rfl

theorem pumpLink_linkOf_other (s : State) {l k : Nat} (h : k ≠ l) : linkOf (pumpLink s l) k = linkOf s k := by
  unfold pumpLink
  split
  · exact linkOf_setLink_other _ _ h
  · rfl

theorem pumpLink_linkData_other (s : State) {l k : Nat} (h : k ≠ l) : linkData (pumpLink s l) k = linkData s k := by
  have hisland : linkIsland (pumpLink s l) k = linkIsland s k := by
    unfold pumpLink
    split
    · rfl
    · rfl
  unfold linkData
  rw [hisland, pumpLink_linkOf_other s h]

@[simp] theorem pumpLink_nowNs (s : State) (l : Nat) : nowNs (pumpLink s l) = nowNs s := by
  unfold pumpLink
  split
  · rfl
  · rfl

theorem pumpLink_linkOf (s : State) (l : Nat) : linkOf (pumpLink s l) l =
    if linkData s l then iter (sendOne (nowNs s)) (min 2048 (linkOf s l).queue.length) (linkOf s l) else linkOf s l := by
  unfold pumpLink
  split
  · exact linkOf_setLink_same ..
  · rfl

/-- A link with nothing queued sends nothing. -/
theorem pumpLink_idle {s : State} {l : Nat} (h : (linkOf s l).queue = []) : linkOf (pumpLink s l) l = linkOf s l := by
  rw [pumpLink_linkOf, h]
  exact ite_self _

/-- Each link sends by itself. -/
theorem pumpLink_both (s : State) {k : Nat} (hk : k < 2) : linkOf (pumpLink (pumpLink s 0) 1) k = linkOf (pumpLink s k) k := by
  obtain rfl | rfl : k = 0 ∨ k = 1 := by omega
  · exact pumpLink_linkOf_other _ (by decide)
  · simp only [pumpLink_linkOf, pumpLink_linkData_other s (show 1 ≠ 0 by decide), pumpLink_linkOf_other s (show 1 ≠ 0 by decide), pumpLink_nowNs]

/-- The only flit of a queue goes out with the next SEQ where its VC has a credit. -/
theorem sendOne_single {v : HLink} {f : TxFlit} (hqueue : v.queue = [f]) (hvc : f.vc = 2) (hroom : v.replay.length < 2048)
    (hdraining : v.draining = false) (hcredit : 0 < (tget {} v.vcs 2).credit) (now : Nat) :
    (sendOne now v).replay = v.replay ++ [{ f with seq := v.txSeq }] := by
  have hpick : pickVc v = some 2 := by
    simp [pickVc, hqueue, hvc, hcredit]
  unfold sendOne
  rw [if_neg (by simp [hdraining]; omega)]
  simp [hpick, hqueue, hvc]

/-! Flits that are taken (R477, R479, R480, R486). -/

theorem takeData_here {s : State} {h : FlitHdr} (i : Nat) (hdata : linkData s h.link.val = true)
    (hseq : (linkOf s h.link.val).rxSeq = h.seq.toNat) (hdest : h.dest.val = s.position) : ∃ y, takeData s h i = .here y := by
  unfold takeData
  extract_lets l s1 s2 v n c s3 s4
  rw [if_neg (by simp [l, hdata])]
  have hlink1 : linkOf s1 l = linkOf s l := by
    simp only [s1]
    split
    · rfl
    · exact linkActive_linkOf ..
  have hpos1 : s1.position = s.position := by
    simp only [s1]
    split
    · rfl
    · exact linkActive_position ..
  have hv : v.rxSeq = h.seq.toNat := (takeAck_rxSeq ..).trans ((congrArg HLink.rxSeq hlink1).trans hseq)
  have hpos : s4.position = s.position := (pumpLink_position ..).trans ((takeAck_position ..).trans hpos1)
  rw [if_neg (not_not.mpr hv), if_pos (hdest.trans hpos.symm)]
  exact ⟨s4, rfl⟩

end Sys2Proof.Machine
end

section
/-! PROOFS. HELLO, mirrors, heartbeats and losses of the roadstead (R78, R94, R484 to R490). -/

namespace Sys2Proof.Machine

/-! Paths and the beginning of a seed (R484 to R486). -/

/-- A link that carries DATA and is cabled to a member is a path to it. -/
theorem linkTo_ne_none {s : State} {l q : Nat} (hl : l < 2) (hcabled : cabled s l = q) (hdata : linkData s l = true)
    (hdraining : (linkOf s l).draining = false) : linkTo s q ≠ none := by
  have hmem : l ∈ linksTo s q := by
    refine List.mem_append_left _ (List.mem_filter.mpr ⟨?_, beq_iff_eq.mpr hcabled⟩)
    obtain rfl | rfl : l = 0 ∨ l = 1 := by omega
    · exact List.mem_cons_self
    · exact List.mem_cons_of_mem _ List.mem_cons_self
  intro hnone
  exact List.find?_eq_none.mp hnone l hmem (by simp [hdata, hdraining])

theorem linkTo_some {s : State} {q k : Nat} (h : linkTo s q = some k) : k < 2 ∧ linkData s k = true ∧ (linkOf s k).draining = false := by
  have hfound := List.find?_some h
  have hmem : k ∈ linksTo s q := List.mem_of_find?_eq_some h
  simp only [Bool.and_eq_true, Bool.not_eq_true'] at hfound
  refine ⟨?_, hfound⟩
  simp only [linksTo, List.mem_append, List.mem_filter, List.mem_cons, List.not_mem_nil, or_false] at hmem
  omega

/-- All that the beginning of a seed may change. -/
theorem beginSeed_cases (s : State) : beginSeed s = s ∨ beginSeed s = { s with road := { s.road with seed := true } } := by
  simp only [beginSeed]
  split
  · exact .inl rfl
  · split
    · exact .inl rfl
    · split
      · exact .inr rfl
      · exact .inl rfl

/-- What the beginning of a seed leaves alone. -/
theorem beginSeed_keeps {α : Type} (s : State) (f : State → α) (hf : f { s with road := { s.road with seed := true } } = f s) :
    f (beginSeed s) = f s := by
  obtain h | h := beginSeed_cases s
  · rw [h]
  · rw [h, hf]

/-- A target whose HELLO agreed is seeded (R484, R485). -/
theorem beginSeed_seeds {s : State} {q : Nat} (htarget : s.road.target = some q) (hhello : (peerOf s q).hello = 3) (hpath : linkTo s q ≠ none)
    (hself : s.road.selfTaken = false) (hmirror : s.road.mirror ≠ 1) (hgoal : s.road.goal = none) : (beginSeed s).road.seed = true := by
  cases hseed : s.road.seed
  · unfold beginSeed
    simp only [htarget, hhello, hself, hmirror, hgoal, hseed, Bool.false_eq_true, Option.isSome_none, Option.isNone_iff_eq_none, hpath, or_self,
      if_false, true_or, if_true]
  · obtain h | h := beginSeed_cases s
    · rw [h, hseed]
    · rw [h]

/-! HELLO (R484, R488). -/

/-- What a member that is regained keeps: the links, its HELLO, and how mirroring stands. -/
theorem regain_keeps {α : Type} (s : State) (q : Nat) (f : State → α)
    (hf : ∀ (v : Peer) (t : Option Nat), v.hello = (peerOf s q).hello → (t = s.road.target ∨ s.road.target = none) →
      f { setPeer s q v with road := { (setPeer s q v).road with target := t } } = f s) : f (regain s q) = f s := by
  unfold regain
  extract_lets v
  split
  · rfl
  · split
    · split
      · rename_i _ htarget
        exact hf _ _ rfl (.inr (Option.isNone_iff_eq_none.mp htarget))
      · exact hf { v with lost := false, streak := none } s.road.target rfl (.inl rfl)
    · rfl

@[simp] theorem setLink_position (s : State) (l : Nat) (v : HLink) : (setLink s l v).position = s.position := rfl
@[simp] theorem setPeer_position (s : State) (q : Nat) (v : Peer) : (setPeer s q v).position = s.position := rfl
@[simp] theorem setLink_linkIsland (s : State) (l : Nat) (v : HLink) (k : Nat) : linkIsland (setLink s l v) k = linkIsland s k := rfl
@[simp] theorem setPeer_linkIsland (s : State) (q : Nat) (v : Peer) (k : Nat) : linkIsland (setPeer s q v) k = linkIsland s k := rfl

@[simp] theorem regain_linkOf (s : State) (q l : Nat) : linkOf (regain s q) l = linkOf s l :=
  regain_keeps s q (linkOf · l) fun _ _ _ _ => rfl
@[simp] theorem regain_linkTo (s : State) (q k : Nat) : linkTo (regain s q) k = linkTo s k := regain_keeps s q (linkTo · k) fun _ _ _ _ => rfl
@[simp] theorem regain_hello (s : State) (q : Nat) : (peerOf (regain s q) q).hello = (peerOf s q).hello :=
  regain_keeps s q (fun u => (peerOf u q).hello) fun _ _ hv _ => (congrArg Peer.hello (tget_tset_same _ _ _ _)).trans hv

/-- What a member that is regained leaves alone of the roadstead. -/
theorem regain_road {α : Type} (s : State) (q : Nat) (f : Road → α) (hf : ∀ r t p, f { r with target := t, peers := p } = f r) :
    f (regain s q).road = f s.road := regain_keeps s q (fun u => f u.road) fun v t _ _ => hf s.road t (setPeer s q v).road.peers

theorem regain_target {s : State} {q k : Nat} (h : s.road.target = some k) : (regain s q).road.target = some k := by
  refine (regain_keeps s q (fun u => u.road.target) fun v t _ ht => ?_).trans h
  obtain ht | hnone := ht
  · exact ht
  · exact absurd (hnone.symm.trans h) nofun

/-- A HELLO with its finding and combination is kept. -/
def greeted (s : State) (l : Nat) (m : HelloMsg) : State :=
  let u := setLink (linkActive s l) l { linkOf s l with hello := helloFinding s l m, count := 0 }
  setPeer u (cabled s l) { peerOf u (cabled s l) with hello := helloFinding s l m, combination := m.combination }

section Greeting
variable (s : State) (l : Nat) (m : HelloMsg)

@[simp] theorem greeted_linkOf : linkOf (greeted s l m) l = { linkOf s l with hello := helloFinding s l m, count := 0 } := by
  unfold greeted
  exact linkOf_setLink_same ..
@[simp] theorem greeted_peerOf : (peerOf (greeted s l m) (cabled s l)).hello = helloFinding s l m := by
  unfold greeted
  rw [peerOf_setPeer_same]

/-- The roadstead but for its peers is as before. -/
theorem greeted_road : (greeted s l m).road = { s.road with peers := (greeted s l m).road.peers } := by
  unfold greeted
  extract_lets v u
  have hu : u.road = s.road := linkActive_road ..
  unfold setPeer
  rw [hu]

@[simp] theorem greeted_cabled : cabled (greeted s l m) l = cabled s l := by
  have hposition : (greeted s l m).position = s.position := by
    unfold greeted
    rw [setPeer_position, setLink_position, linkActive_position]
  unfold cabled
  rw [greeted_road, hposition]

variable {s l m} in
/-- A HELLO that agrees opens its link for DATA. -/
theorem greeted_linkTo (hl : l < 2) (hisland : linkIsland s l = true) (hup : (linkOf s l).up = true) (hinit : (linkOf s l).init = true)
    (hdraining : (linkOf s l).draining = false) (hfound : helloFinding s l m = 3) : linkTo (greeted s l m) (cabled s l) ≠ none := by
  have hisland' : linkIsland (greeted s l m) l = true := by
    unfold greeted
    rw [setPeer_linkIsland, setLink_linkIsland, linkActive_linkIsland, hisland]
  refine linkTo_ne_none hl (greeted_cabled s l m) ?_ (by rw [greeted_linkOf]; exact hdraining)
  unfold linkData
  rw [hisland', greeted_linkOf]
  simp [hup, hinit, hfound]

end Greeting

/-- A member that greets and agrees is regained where it was lost long enough. -/
def rejoined (s : State) (l : Nat) (m : HelloMsg) : State :=
  if helloFinding s l m = 3 then regain (greeted s l m) (cabled s l) else greeted s l m

/-- What HELLO comes to. -/
def helloed (s : State) (l : Nat) (m : HelloMsg) : State :=
  let u := rejoined s l m
  if u.road.target ≠ some (cabled s l) then u
  else if helloFinding s l m = 3 then beginSeed u
  else if u.road.mirror = 1 ∨ u.road.seed then u
  else setMirroring u (if helloFinding s l m = 2 then 2 else 0)

theorem execHello_helloed {s : State} {link : Fin 2} (hisland : linkIsland s link.val = true) (hup : (linkOf s link.val).up = true)
    (hmembers : s.road.members ≠ 0) (m : HelloMsg) : execHello link m s = .next (helloed s link.val m) := execHello_up hisland hup hmembers m

section Helloed
variable {s : State} {l : Nat} {m : HelloMsg}

/-- What HELLO keeps of the state in which it is kept. -/
theorem helloed_keeps {α : Type} (f : State → α)
    (hregain : ∀ u, f (regain u (cabled s l)) = f u)
    (hseed : ∀ u, f { u with road := { u.road with seed := true } } = f u) (hmirror : ∀ u n, f (setMirroring u n) = f u) :
    f (helloed s l m) = f (greeted s l m) := by
  have hu : f (rejoined s l m) = f (greeted s l m) := by
    unfold rejoined
    split
    · exact hregain _
    · rfl
  unfold helloed
  extract_lets u
  split
  · exact hu
  · split
    · exact (beginSeed_keeps u f (hseed u)).trans hu
    · split
      · exact hu
      · exact (hmirror u _).trans hu

theorem helloed_linkOf : (linkOf (helloed s l m) l).hello = helloFinding s l m :=
  (helloed_keeps (fun u => (linkOf u l).hello) (fun _ => congrArg HLink.hello (regain_linkOf ..)) (fun _ => rfl) fun _ _ => rfl).trans
    (congrArg HLink.hello (greeted_linkOf s l m))

theorem helloed_peerOf : (peerOf (helloed s l m) (cabled s l)).hello = helloFinding s l m :=
  (helloed_keeps (fun u => (peerOf u (cabled s l)).hello) (fun _ => regain_hello _ _) (fun _ => rfl) fun _ _ => rfl).trans (greeted_peerOf s l m)

section Target
variable (htarget : s.road.target = some (cabled s l)) (hmirror : s.road.mirror ≠ 1)
include htarget

theorem greeted_target : (greeted s l m).road.target = some (cabled s l) := by
  rw [greeted_road]
  exact htarget

theorem rejoined_target : (rejoined s l m).road.target = some (cabled s l) := by
  unfold rejoined
  split
  · exact regain_target (greeted_target htarget)
  · exact greeted_target htarget

include hmirror

/-- A HELLO of the target that agrees begins its seed. -/
theorem helloed_seeds (hl : l < 2) (hisland : linkIsland s l = true) (hup : (linkOf s l).up = true) (hinit : (linkOf s l).init = true)
    (hdraining : (linkOf s l).draining = false) (hfound : helloFinding s l m = 3) (hgoal : s.road.goal = none)
    (hself : s.road.selfTaken = false) : (helloed s l m).road.seed = true := by
  have hrejoined : rejoined s l m = regain (greeted s l m) (cabled s l) := if_pos hfound
  have hpath : linkTo (rejoined s l m) (cabled s l) ≠ none := by
    rw [hrejoined, regain_linkTo]
    exact greeted_linkTo hl hisland hup hinit hdraining hfound
  have hhello : (peerOf (rejoined s l m) (cabled s l)).hello = 3 := by
    rw [hrejoined, regain_hello, greeted_peerOf, hfound]
  have hroad : ∀ {α : Type} (f : Road → α), (∀ r t p, f { r with target := t, peers := p } = f r) → f (rejoined s l m).road = f s.road := by
    intro α f hf
    rw [hrejoined, regain_road _ _ f hf, greeted_road]
    exact hf s.road s.road.target _
  unfold helloed
  extract_lets u
  rw [if_neg (not_not.mpr (rejoined_target htarget)), if_pos hfound]
  refine beginSeed_seeds (rejoined_target htarget) hhello hpath ?_ ?_ ?_
  · exact (hroad Road.selfTaken fun _ _ _ => rfl).trans hself
  · exact fun h => hmirror ((hroad Road.mirror fun _ _ _ => rfl).symm.trans h)
  · exact (hroad Road.goal fun _ _ _ => rfl).trans hgoal

/-- A HELLO of the target that does not agree leaves it without a mirror. -/
theorem helloed_refused (hfound : helloFinding s l m ≠ 3) (hseed : s.road.seed = false) :
    (helloed s l m).road.mirror = (if helloFinding s l m = 2 then 2 else 0) ∧ (helloed s l m).duplexReady = false := by
  have hrejoined : rejoined s l m = greeted s l m := if_neg hfound
  have hidle : ¬ ((greeted s l m).road.mirror = 1 ∨ (greeted s l m).road.seed) := by
    rw [greeted_road]
    simp [hmirror, hseed]
  unfold helloed
  extract_lets u
  have hu : u = greeted s l m := hrejoined
  rw [if_neg (not_not.mpr (rejoined_target htarget)), if_neg hfound, hu, if_neg hidle]
  refine ⟨rfl, decide_eq_false ?_⟩
  split
  · decide
  · decide

end Target
end Helloed

/-! Mirrors (R485, R489). -/

theorem foldl_sendRoad_mirrorAt (q o : Nat) (msg : State → Nat → TxMsg) (bs : List Nat) (s : State) :
    mirrorAt (bs.foldl (fun s b => sendRoad s q 0 (msg s b) 12) s) o = mirrorAt s o := by
  induction bs generalizing s with
  | nil => rfl
  | cons b bs ih => exact ih _

section Mirrored
variable {s w : State} {h : FlitHdr}

/-- The items for this member go into the mirror of their sender, and MIRROR_ACK answers. -/
theorem execMirrorData_here (hdata : takeData s h 0 = .here w) (hmembers : w.road.members ≠ 0) (hfree : frozen w h.origin.val = false)
    (items : List MirrorItem) : execMirrorData h items s = .next (
      let u := items.foldl (takeItem h.origin.val) w
      ((items.filterMap itemBasin).eraseDups).foldl
        (fun s b => sendRoad s h.origin.val 0 (.ack b (tget {} (mirrorAt s h.origin.val).basins b).next) 12) u) := by
  simp only [execMirrorData, hdata, hmembers, hfree, Bool.false_eq_true, or_self, if_false]

theorem execMirrorData_frozen (hdata : takeData s h 0 = .here w) (hfrozen : frozen w h.origin.val = true) (items : List MirrorItem) :
    execMirrorData h items s = .next w := by
  simp only [execMirrorData, hdata, hfrozen, or_true, if_true]

theorem execTideRecord_here (hdata : takeData s h 1 = .here w) (hmembers : w.road.members ≠ 0) (hfree : frozen w h.origin.val = false)
    (bs : List Byte) (ret : BitVec 64) : execTideRecord h bs ret s = .next (setMirror w h.origin.val { mirrorAt w h.origin.val with
      tides := ((fieldLe bs 8 8, bs) :: (mirrorAt w h.origin.val).tides).take 1048576, retired := ret.toNat }) := by
  simp only [execTideRecord, hdata, hmembers, hfree, Bool.false_eq_true, or_self, if_false]

/-! Heartbeats (R94, R487 to R490). -/

/-- A member's heartbeat with its TAKEN mask is kept. -/
def heeded (w : State) (o : Nat) (v : Peer) (mask : BitVec 4) : State :=
  let u := setPeer w o v
  { u with road := { u.road with taken := (BitVec.ofNat 4 w.road.taken ||| mask).toNat } }

section Beats
variable (hdata : takeData s h 2 = .here w) (hmember : h.origin.val < w.road.members) (hother : h.origin.val ≠ w.position)
include hdata hmember hother

theorem execHeartbeat_present (hlost : (peerOf w h.origin.val).lost = false) (mode : Fin 2) (mask : BitVec 4) :
    execHeartbeat h mode mask s = .next (
      let u := heeded w h.origin.val { peerOf w h.origin.val with heard := some (nowNs w), state := mode.val } mask
      if mask.getLsbD w.position then takenOver u else u) := by
  simp only [execHeartbeat, hdata, Nat.not_le.mpr hmember, hother, hlost, Bool.false_eq_true, or_self, if_false]
  rfl

/-- A late heartbeat is logged, and the member stays lost. -/
theorem execHeartbeat_late (hlost : (peerOf w h.origin.val).lost = true) (mode : Fin 2) {mask : BitVec 4}
    (hmask : mask.getLsbD w.position = false) : ∃ (v : Peer) (d : List Byte),
      v.lost = true ∧ v.heard = some (nowNs w) ∧
      let u := logIsland (setPeer w h.origin.val v) 0x0502 0 (islHawser h.link.val) d
      execHeartbeat h mode mask s = .next { u with road := { u.road with taken := (BitVec.ofNat 4 u.road.taken ||| mask).toNat } } := by
  unfold execHeartbeat
  simp only [hdata, Nat.not_le.mpr hmember, hother, hlost, or_self, if_false, if_true, logIsland_position]
  refine ⟨_, _, ?_, ?_, congrArg Host.Outcome.next (if_neg ?_)⟩
  · rfl
  · rfl
  · exact Bool.eq_false_iff.mp hmask

end Beats
end Mirrored

theorem sendRoad_queue {s : State} {q k n : Nat} (hpath : linkTo s q = some k) (vc : Nat) (msg : TxMsg) (hone : flitsFor n = 1) :
    linkOf (sendRoad s q vc msg n) k =
      { linkOf s k with queue := (linkOf s k).queue ++ [{ vc := vc, origin := s.position, dest := q, msg := msg }] } := by
  unfold sendRoad
  simp only [hpath, Option.getD_some, hone]
  exact linkOf_setLink_same ..

/-- Of two members, the other one. -/
theorem others_of_two {s : State} (hmembers : s.road.members = 2) (hposition : s.position < 2) : others s = [1 - s.position] := by
  unfold others
  rw [hmembers]
  obtain h | h : s.position = 0 ∨ s.position = 1 := by omega
  · rw [h]; rfl
  · rw [h]; rfl

/-- The heartbeat for the other of two members (R487). -/
def beatFlit (s : State) : TxFlit := { vc := 2, origin := s.position, dest := 1 - s.position, msg := .beat (harbourNs s) s.road.takenHere }

/-- The heartbeat is queued for the other of two members, where there is a path to it. -/
def beatQueued (s : State) : State :=
  if (linkTo s (1 - s.position)).isSome then sendRoad s (1 - s.position) 2 (.beat (harbourNs s) s.road.takenHere) 20 else s

theorem execHeartbeatSend_two {s : State} (hmembers : s.road.members = 2) (hposition : s.position < 2) (hawake : awake s = true)
    (htime : s.road.beatAt + 10000 ≤ nowNs s) : execHeartbeatSend s = .next (
      pumpLink (pumpLink { beatQueued s with road := { (beatQueued s).road with beatAt := nowNs (beatQueued s) } } 0) 1) := by
  unfold execHeartbeatSend
  refine congrArg Host.Outcome.next ((if_neg ?_).trans ?_)
  · simp only [hmembers, hawake, Nat.not_lt.mpr htime]
    decide
  · simp only [others_of_two hmembers hposition]
    rfl

@[simp] theorem beatQueued_nowNs (s : State) : nowNs (beatQueued s) = nowNs s := by
  unfold beatQueued
  split
  · rfl
  · rfl

/-- The heartbeat goes out on an idle link to the other member. -/
theorem beatQueued_sent {s : State} {k : Nat} (r : Road) (hpath : linkTo s (1 - s.position) = some k) (hqueue : (linkOf s k).queue = [])
    (hroom : (linkOf s k).replay.length < 2048) (hcredit : 0 < (tget {} (linkOf s k).vcs 2).credit) :
    (linkOf (pumpLink { beatQueued s with road := r } k) k).replay = (linkOf s k).replay ++ [{ beatFlit s with seq := (linkOf s k).txSeq }] := by
  obtain ⟨hk, hdata, hdraining⟩ := linkTo_some hpath
  have hbeat : beatQueued s = sendRoad s (1 - s.position) 2 (.beat (harbourNs s) s.road.takenHere) 20 := if_pos (by rw [hpath]; rfl)
  have hlink : linkOf { beatQueued s with road := r } k = { linkOf s k with queue := [beatFlit s] } := by
    rw [hbeat]
    exact (sendRoad_queue hpath 2 _ rfl).trans (by rw [hqueue]; rfl)
  have hdata' : linkData { beatQueued s with road := r } k = true := by
    have hisland : linkIsland { beatQueued s with road := r } k = linkIsland s k := by rw [hbeat]; rfl
    unfold linkData at hdata ⊢
    rw [hisland, hlink]
    exact hdata
  rw [pumpLink_linkOf, if_pos hdata', hlink]
  exact sendOne_single (v := { linkOf s k with queue := [beatFlit s] }) rfl rfl hroom hdraining hcredit _

/-! The end of a seed (R78, R485, R488). -/

/-- What the check of the goal leaves alone. -/
theorem mirrorCheck_keeps {α : Type} (s : State) (f : State → α) (hunreported : ∀ x, f (unreported x) = f x)
    (hf : f (setMirroring { s with road := { s.road with goal := none, resumes := true } } 1) = f s) : f (mirrorCheck s) = f s := by
  unfold mirrorCheck
  split
  · rfl
  · split
    · rfl
    · extract_lets again u
      split
      · exact (field_of_unreported (arrive_unreported ..) f hunreported).trans hf
      · exact hf

/-- Mirroring is in service once every record of the goal is acknowledged. -/
theorem mirrorCheck_met {s : State} {g : List Nat} (hgoal : s.road.goal = some g)
    (hmet : ∀ e ∈ g.zipIdx, e.1 ≤ (ledgerOf s e.2).partnerAck) : (mirrorCheck s).road.mirror = 1 ∧ (mirrorCheck s).duplexReady = true := by
  have hany : g.zipIdx.any (fun e => decide ((ledgerOf s e.2).partnerAck < e.1)) = false := by
    simp only [List.any_eq_false, decide_eq_true_eq, not_lt]
    exact hmet
  unfold mirrorCheck
  simp only [hgoal, hany, Bool.false_eq_true, if_false]
  split
  · exact ⟨congrArg Road.mirror (arrive_road ..), field_of_unreported (arrive_unreported ..) State.duplexReady fun _ => rfl⟩
  · exact ⟨rfl, rfl⟩

/-- The ledger of a basin is sent again from its first record that is not acknowledged. -/
def resendLedger (s : State) (b : Nat) : State :=
  setLedger s b { ledgerOf s b with partnerSent := max (ledgerOf s b).first (ledgerOf s b).partnerAck }

theorem foldl_resendLedger (bs : List Nat) (s : State) (b : Nat) : ledgerOf (bs.foldl resendLedger s) b =
    if b ∈ bs then { ledgerOf s b with partnerSent := max (ledgerOf s b).first (ledgerOf s b).partnerAck } else ledgerOf s b := by
  induction bs generalizing s with
  | nil => simp
  | cons c bs ih =>
    rw [List.foldl_cons, ih]
    by_cases hbc : b = c
    · subst hbc
      have hstep : ledgerOf (resendLedger s b) b = _ := tget_tset_same _ _ _ _
      rw [hstep, if_pos List.mem_cons_self]
      split
      · rfl
      · rfl
    · have hstep : ledgerOf (resendLedger s c) b = ledgerOf s b := tget_tset_other _ _ _ hbc
      rw [hstep]
      simp only [List.mem_cons, hbc, false_or]

theorem execSeedEnd_running {s : State} (hseed : s.road.seed = true) (hawake : awake s = true) : execSeedEnd s = .next (mirrorCheck
    (let u := (List.range 4).foldl resendLedger s
     { u with road := { u.road with seed := false, goal := some ((List.range 4).map (fun b => nextRec (ledgerOf s b))) } })) := by
  simp only [execSeedEnd, hseed, hawake, Bool.not_true, Bool.false_eq_true, or_self, if_false]
  rfl

/-! Losses (R78, R488). -/

/-- A lost member is no target. -/
theorem nextTarget_ne_lost {s : State} {q : Nat} (h : (peerOf s q).lost = true) : nextTarget s ≠ some q := by
  intro htarget
  have hfound := List.find?_some htarget
  simp [h] at hfound

/-- The loss of a member is kept, logged and told (R357, R488). -/
def lossTold (s : State) (q : Nat) : State :=
  let u := setPeer s q { peerOf s q with lost := true, streak := none, heard := none }
  let keeper := if (islandOf u (islHawser 0)).out then 1 else 0
  arrive (logIsland u 0x0902 2 (islHawser keeper) (toLe 1 q ++ toLe 4 (duplexPending u))) 0xD02 q false

@[simp] theorem lossTold_road (s : State) (q : Nat) :
    (lossTold s q).road = (setPeer s q { peerOf s q with lost := true, streak := none, heard := none }).road :=
  (arrive_road ..).trans (logIsland_road ..)

theorem lossTold_lost (s : State) (q : Nat) : (peerOf (lossTold s q) q).lost = true := by
  unfold peerOf
  rw [lossTold_road]
  exact congrArg Peer.lost (peerOf_setPeer_same ..)

theorem lossTold_logged (s : State) (q : Nat) : logged (lossTold s q) 0x0902 := by
  unfold lossTold logged
  extract_lets u keeper
  rw [arrive_log]
  exact logged_logIsland ..

/-- The target is lost, and mirroring turns to the next member. -/
def targetMoved (s : State) : State :=
  let u := setMirroring { s with road := { s.road with seed := false, goal := none, resumes := true } } 3
  beginSeed { u with road := { u.road with target := nextTarget u } }

theorem execPartnerLost_lost {s : State} {q : Fin 4} {t : Nat} (hheard : (peerOf s q.val).heard = some t) (hmember : q.val < s.road.members)
    (hother : q.val ≠ s.position) (hlost : (peerOf s q.val).lost = false) (hawake : awake s = true)
    (hgone : t + 50000 < nowNs s ∨ linkTo s q.val = none) : execPartnerLost q s = .next (
      if (lossTold s q.val).road.target ≠ some q.val then lossTold s q.val else targetMoved (lossTold s q.val)) := by
  have hgone' : ¬ (nowNs s ≤ t + 50000 ∧ !(linkTo s q.val).isNone) := by
    rintro ⟨htime, hpath⟩
    obtain h | h := hgone
    · omega
    · rw [h] at hpath
      exact absurd hpath (by decide)
  unfold execPartnerLost
  simp only [hheard]
  exact congrArg Host.Outcome.next (if_neg (by
    rintro (h | h | h | h | h)
    · omega
    · exact hother h
    · exact absurd h (Bool.eq_false_iff.mp hlost)
    · rw [hawake] at h
      exact absurd h (by decide)
    · exact hgone' h))

theorem execPartnerLost_present {s : State} {q : Fin 4} {t : Nat} (hheard : (peerOf s q.val).heard = some t)
    (htime : nowNs s ≤ t + 50000) (hpath : linkTo s q.val ≠ none) : execPartnerLost q s = .next s := by
  unfold execPartnerLost
  simp only [hheard]
  exact congrArg Host.Outcome.next (if_pos (.inr (.inr (.inr (.inr ⟨htime, by simpa [Option.isSome_iff_ne_none] using hpath⟩)))))

end Sys2Proof.Machine
end

section
/-! PROOFS. What each command of the roadstead comes to (R479 to R489), read off the state it answers with. -/

namespace Sys2Proof.Machine

/-! Links (R479 to R482). -/

section Links
variable {s : State} {link : Fin 2} (hisland : linkIsland s link.val = true)
include hisland

/-- A training that ends at x8 or x4 brings the link up with its books empty, and one at x4 is logged (R482). -/
theorem hawserRetrain_trains {lanes : Fin 3} (htraining : (linkOf s link.val).training = true) (hlanes : lanes.val ≠ 0) :
    ∃ u, execHawserRetrain link lanes s = .next u ∧ (linkOf u link.val).up = true ∧ (linkOf u link.val).lanes = 4 * lanes.val ∧
      (linkOf u link.val).training = false ∧ (linkOf u link.val).init = false ∧ (linkOf u link.val).hello = 0 ∧ (linkOf u link.val).vcs = [] ∧
      (quietLink s link.val → arrived u (0xD00 + link.val)) ∧ (lanes.val = 1 → logged u 0x0903) := by
  have hlink : linkOf (linkTold (linkUp s link.val (4 * lanes.val)) link.val) link.val = _ :=
    (linkTold_linkOf ..).trans (linkOf_setLink_same ..)
  have harrived : quietLink s link.val → arrived (linkTold (linkUp s link.val (4 * lanes.val)) link.val) (0xD00 + link.val) :=
    fun hquiet => linkTold_arrived link.isLt hquiet
  refine ⟨_, execHawserRetrain_trained hisland htraining hlanes, ?_⟩
  extract_lets u
  change linkOf u link.val = _ at hlink
  change _ → arrived u _ at harrived
  split
  · rw [logIsland_linkOf, hlink]
    refine ⟨rfl, rfl, rfl, rfl, rfl, rfl, fun hquiet => ?_, fun _ => logged_logIsland ..⟩
    unfold arrived
    rw [logIsland_srcOf (by omega)]
    exact harrived hquiet
  · rename_i hx8
    rw [hlink]
    exact ⟨rfl, rfl, rfl, rfl, rfl, rfl, harrived, fun hx4 => absurd hx4 hx8⟩

variable (hup : (linkOf s link.val).up = true)
include hup

/-- INIT grants the full buffer of every VC (R481). -/
theorem hawserInit_grants (hinit : (linkOf s link.val).init = false) : ∃ u, execHawserInit link s = .next u ∧
    (linkOf u link.val).init = true ∧ ∀ i : Fin 3, (tget {} (linkOf u link.val).vcs i.val).credit = vcRoom i.val := by
  refine ⟨_, execHawserInit_first hisland hup hinit, ?_⟩
  rw [linkOf_setLink_same]
  exact ⟨rfl, fun i => fullBooks_credit _ i.isLt⟩

theorem nak_resends {seq : BitVec 12} {n : Nat} (hfind : findIdx' (fun (f : TxFlit) => f.seq == seq.toNat) (linkOf s link.val).replay 0 = some n)
    (hresent : ∀ f ∈ (linkOf s link.val).replay.drop n, f.resent < 7) (hfew : (recentNaks s link.val).length < 63) :
    ∃ u, execNak link seq s = .next u ∧
      (linkOf u link.val).replay = (linkOf s link.val).replay.take n ++ ((linkOf s link.val).replay.drop n).map resentOnce := by
  have hcount : linkOf (countNak (linkActive s link.val) link.val) link.val =
      { linkOf s link.val with naks := recentNaks s link.val ++ [nowNs s] } := by
    rw [countNak_few (by rw [recentNaks_linkActive]; exact hfew), linkOf_setLink_same, linkActive_linkOf, recentNaks_linkActive, linkActive_nowNs]
  refine ⟨_, execNak_up hisland hup seq, ?_⟩
  rw [if_neg (by rw [hcount]; simp [hup]), hcount]
  simp only [hfind]
  rw [resendFrom_few (by rw [hcount]; exact hresent), linkOf_setLink_same, hcount]

theorem nak_retrains (seq : BitVec 12) (htraining : (linkOf s link.val).training = false) (hmany : 63 ≤ (recentNaks s link.val).length) :
    ∃ u, execNak link seq s = .next u ∧ goneDown (quietLink s link.val) link.val u := by
  have hdown : goneDown (quietLink (linkActive s link.val) link.val) link.val (countNak (linkActive s link.val) link.val) :=
    countNak_many link.isLt (by rw [linkActive_linkOf]; exact htraining) (by rw [recentNaks_linkActive]; exact hmany)
  refine ⟨_, execNak_up hisland hup seq, ?_⟩
  rw [if_pos (by rw [hdown.1]; rfl)]
  exact hdown.imp quietLink_linkActive

theorem flitReplayTimeout_resends (hreplay : (linkOf s link.val).replay ≠ []) (htime : (linkOf s link.val).ackAt + 20000 < nowNs s)
    (hresent : ∀ f ∈ (linkOf s link.val).replay, f.resent < 7) : ∃ u, execFlitReplayTimeout link s = .next u ∧
      linkOf u link.val = { linkOf s link.val with replay := (linkOf s link.val).replay.map resentOnce, ackAt := nowNs s } :=
  ⟨_, execFlitReplayTimeout_late hisland hup hreplay htime,
    (congrArg (linkOf · link.val) (resendFrom_few (n := 0) hresent)).trans (linkOf_setLink_same ..)⟩

/-- The first discard sends a NAK (R479). -/
theorem flitCrcFail_naks (hsent : (linkOf s link.val).nakSent = false) (hfew : (recentNaks s link.val).length < 63) :
    ∃ u, execFlitCrcFail link s = .next u ∧
      linkOf u link.val = { linkOf s link.val with nakSent := true, naks := recentNaks s link.val ++ [nowNs s] } := by
  have hrecent : recentNaks (setLink s link.val { linkOf s link.val with nakSent := true }) link.val = recentNaks s link.val := by
    unfold recentNaks
    rw [linkOf_setLink_same]
    rfl
  have hgap : gapSeen s link.val = countNak (setLink s link.val { linkOf s link.val with nakSent := true }) link.val :=
    if_neg (Bool.eq_false_iff.mp hsent)
  refine ⟨_, execFlitCrcFail_up hisland hup, ?_⟩
  rw [hgap, countNak_few (by rw [hrecent]; exact hfew), linkOf_setLink_same, linkOf_setLink_same, hrecent]
  rfl

/-- Credits gained within the allocation are booked, and ACK frees the replay buffer (R479, R480). -/
theorem idleFlit_books (hinit : (linkOf s link.val).init = true) (hqueue : (linkOf s link.val).queue = []) (a : BitVec 12) (cvc : Fin 3)
    (credits : BitVec 8) (k : Nat) : ∃ u, execIdleFlit link (some a) cvc credits s = .next u ∧
      (tget {} (linkOf u link.val).vcs cvc.val).credit =
        (tget {} (linkOf s link.val).vcs cvc.val).credit + creditGain s link.val cvc.val credits.toNat ∧
      (tget {} (linkOf u link.val).vcs cvc.val).last = credits.toNat ∧
      (findIdx' (fun (f : TxFlit) => f.seq == a.toNat) (linkOf s link.val).replay 0 = some k →
        (linkOf u link.val).replay = (linkOf s link.val).replay.drop (k + 1)) := by
  refine ⟨_, execIdleFlit_up hisland hup hinit (some a) cvc credits, ?_⟩
  rw [pumpLink_idle ((takeAck_queue ..).trans hqueue), takeAck_books]
  exact ⟨rfl, rfl, fun hfind => takeAck_replay hfind _ _⟩

theorem idleFlit_halts (hinit : (linkOf s link.val).init = true) (a : Option (BitVec 12)) {cvc : Fin 3} {credits : BitVec 8}
    (hbooks : vcRoom cvc.val < (tget {} (linkOf s link.val).vcs cvc.val).credit + creditGain s link.val cvc.val credits.toNat) :
    ∃ u, execIdleFlit link a cvc credits s = .next u ∧ u.dev.st = .halted := by
  refine ⟨_, execIdleFlit_up hisland hup hinit a cvc credits, ?_⟩
  rw [pumpLink_dev]
  exact takeAck_halted _ hbooks

end Links

/-! Mirrors (R485). -/

section Records
variable {s w : State} {h : FlitHdr} (hdata : takeData s h 0 = .here w) (hmembers : w.road.members ≠ 0)
  (hfree : frozen w h.origin.val = false) (basin : BasinId) (n : Nat) (bs : List Byte)

/-- A record that the mirror does not hold yet is appended. -/
theorem takeItem_new {m : Mirror} {q : Nat} (hm : mirrorAt w q = m) (hnew : (tget {} m.basins basin.val).next ≤ n) :
    takeItem q w (.record basin n bs) = setMirror w q { m with basins := tset {} m.basins basin.val { tget {} m.basins basin.val with
      recs := (tget {} m.basins basin.val).recs ++ [parseRec bs], next := n + 1 } } := by
  subst hm
  exact if_neg (Nat.not_lt.mpr hnew)

theorem takeItem_held {q : Nat} (hheld : n < (tget {} (mirrorAt w q).basins basin.val).next) : takeItem q w (.record basin n bs) = w :=
  if_pos hheld

include hdata hmembers hfree

theorem mirrorData_record (hn : (tget {} (mirrorAt w h.origin.val).basins basin.val).next ≤ n) :
    ∃ u, execMirrorData h [.record basin n bs] s = .next u ∧ tget {} (mirrorAt u h.origin.val).basins basin.val =
      { tget {} (mirrorAt w h.origin.val).basins basin.val with
        recs := (tget {} (mirrorAt w h.origin.val).basins basin.val).recs ++ [parseRec bs], next := n + 1 } := by
  refine ⟨_, execMirrorData_here hdata hmembers hfree _, ?_⟩
  extract_lets u
  rw [foldl_sendRoad_mirrorAt]
  have hu : u = _ := takeItem_new basin n bs rfl hn
  rw [hu, mirrorAt_setMirror_same]
  exact tget_tset_same ..

theorem mirrorData_held (hn : n < (tget {} (mirrorAt w h.origin.val).basins basin.val).next) :
    ∃ u, execMirrorData h [.record basin n bs] s = .next u ∧ mirrorAt u h.origin.val = mirrorAt w h.origin.val := by
  refine ⟨_, execMirrorData_here hdata hmembers hfree _, ?_⟩
  extract_lets u
  rw [foldl_sendRoad_mirrorAt]
  have hu : u = w := takeItem_held basin n bs hn
  rw [hu]

end Records

/-! Heartbeats, the end of a seed, and losses (R94, R487, R488). -/

theorem execHeartbeat_elsewhere {s w : State} {h : FlitHdr} (hdata : takeData s h 2 = .relay w ∨ takeData s h 2 = .no w) (mode : Fin 2)
    (mask : BitVec 4) : execHeartbeat h mode mask s = .next w := by
  obtain hdata | hdata := hdata
  · simp only [execHeartbeat, hdata]
  · simp only [execHeartbeat, hdata]

/-- A late heartbeat is logged, and its member stays lost (R94, R488). -/
theorem heartbeat_late {s w : State} {h : FlitHdr} (hdata : takeData s h 2 = .here w) (hmember : h.origin.val < w.road.members)
    (hother : h.origin.val ≠ w.position) (hlost : (peerOf w h.origin.val).lost = true) (mode : Fin 2) {mask : BitVec 4}
    (hmask : mask.getLsbD w.position = false) : ∃ u, execHeartbeat h mode mask s = .next u ∧ logged u 0x0502 ∧
      (peerOf u h.origin.val).lost = true ∧ (peerOf u h.origin.val).heard = some (nowNs w) := by
  obtain ⟨v, d, hstill, hheard, hexec⟩ := execHeartbeat_late hdata hmember hother hlost mode hmask
  have hpeer : peerOf (logIsland (setPeer w h.origin.val v) 0x0502 0 (islHawser h.link.val) d) h.origin.val = v := by
    unfold peerOf
    rw [logIsland_road]
    exact peerOf_setPeer_same ..
  exact ⟨_, hexec, logged_logIsland .., (congrArg Peer.lost hpeer).trans hstill, (congrArg Peer.heard hpeer).trans hheard⟩

theorem seedEnd_resends {s : State} (hseed : s.road.seed = true) (hawake : awake s = true) : ∃ u, execSeedEnd s = .next u ∧
    u.road.seed = false ∧ (∀ b < 4, (ledgerOf u b).partnerSent = max (ledgerOf s b).first (ledgerOf s b).partnerAck) ∧
    ((∀ b < 4, nextRec (ledgerOf s b) ≤ (ledgerOf s b).partnerAck) → u.road.mirror = 1 ∧ u.duplexReady = true) := by
  refine ⟨_, execSeedEnd_running hseed hawake, ?_⟩
  extract_lets u r
  have hledger : ∀ b < 4, ledgerOf u b =
      { ledgerOf s b with partnerSent := max (ledgerOf s b).first (ledgerOf s b).partnerAck } := fun b hb =>
    (foldl_resendLedger (List.range 4) s b).trans (if_pos (List.mem_range.mpr hb))
  refine ⟨?_, fun b hb => ?_, fun hacked => mirrorCheck_met rfl ?_⟩
  · exact mirrorCheck_keeps _ (fun u => u.road.seed) (fun _ => rfl) rfl
  · exact (mirrorCheck_keeps _ (fun w => (ledgerOf w b).partnerSent) (fun _ => rfl) rfl).trans (congrArg Ledger.partnerSent (hledger b hb))
  · rintro ⟨n, b⟩ he
    obtain ⟨c, hc, rfl⟩ : ∃ c, (List.range 4)[b]? = some c ∧ nextRec (ledgerOf s c) = n := by
      simpa using List.mem_zipIdx_iff_getElem?.mp he
    obtain ⟨hb, rfl⟩ := List.getElem?_eq_some_iff.mp hc
    rw [List.length_range] at hb
    rw [List.getElem_range]
    exact (hacked b hb).trans (congrArg Ledger.partnerAck (hledger b hb)).ge

theorem targetMoved_mirror {s : State} {q : Nat} (hlost : (peerOf s q).lost = true) (hlogged : logged s 0x0902) :
    (peerOf (targetMoved s) q).lost = true ∧ logged (targetMoved s) 0x0902 ∧ (targetMoved s).road.mirror = 3 ∧
      (targetMoved s).duplexReady = false ∧ (targetMoved s).road.target ≠ some q := by
  unfold targetMoved
  extract_lets r u
  refine ⟨?_, ?_, ?_, ?_, ?_⟩
  · exact (beginSeed_keeps _ (fun u => (peerOf u q).lost) rfl).trans hlost
  · exact (beginSeed_keeps _ (fun u => logged u 0x0902) rfl).mpr hlogged
  · exact beginSeed_keeps _ (fun u => u.road.mirror) rfl
  · exact beginSeed_keeps _ (fun u => u.duplexReady) rfl
  · rw [beginSeed_keeps _ (fun u => u.road.target) rfl]
    exact nextTarget_ne_lost (s := u) hlost

/-- A member lost is logged, and where it is the target, mirroring moves on (R488). -/
theorem partnerLost_moves {s : State} {q : Fin 4} {t : Nat} (hheard : (peerOf s q.val).heard = some t) (hmember : q.val < s.road.members)
    (hother : q.val ≠ s.position) (hpresent : (peerOf s q.val).lost = false) (hawake : awake s = true)
    (hgone : t + 50000 < nowNs s ∨ linkTo s q.val = none) : ∃ u, execPartnerLost q s = .next u ∧ (peerOf u q.val).lost = true ∧
      logged u 0x0902 ∧ (s.road.target = some q.val → u.road.mirror = 3 ∧ u.duplexReady = false ∧ u.road.target ≠ some q.val) := by
  have htarget : (lossTold s q.val).road.target = s.road.target := by
    rw [lossTold_road]
    rfl
  refine ⟨_, execPartnerLost_lost hheard hmember hother hpresent hawake hgone, ?_⟩
  rw [htarget]
  split
  · rename_i hnot
    exact ⟨lossTold_lost .., lossTold_logged .., fun h => absurd h hnot⟩
  · obtain ⟨hlost, hlogged, hmoved⟩ := targetMoved_mirror (lossTold_lost s q.val) (lossTold_logged s q.val)
    exact ⟨hlost, hlogged, fun _ => hmoved⟩

end Sys2Proof.Machine

namespace Sys2Proof.Proofs
open Sys2Proof.Machine

/-- Settles O60, command by command: each command of the roadstead has an equation for its case, and what the statement asks is read off the
state it answers with. -/
theorem roadstead : Obligations.Roadstead := by
  intro s w link lanes m seq a cvc credits h basin n k t bs ret mode mask q l v now calm recent resent down c gain o r x peer p found kin
    heardNow marked
  have hl : l < 2 := link.isLt
  refine ⟨fun hisland => ⟨?failed, ?trained, ?retryDown, ?retryDegraded, fun hup => ⟨?lockLost, ?init, ?hello, ?nak, ?nakRetrain, ?replayLate,
    ?replayEarly, ?crcFirst, ?crcAgain, ?idle⟩⟩, ?taken, ?mirrored, ?mirrorFrozen, ?tide, ?beat, ?beatElsewhere, ?beatSend, ?seedEnd, ?lost⟩
  case failed =>
    exact fun htraining hlanes => ⟨_, execHawserRetrain_failed hisland htraining hlanes, fun hcalm => linkTold_arrived hl hcalm,
      (linkTold_linkOf ..).trans (linkOf_setLink_same ..)⟩
  case trained => exact fun htraining hlanes => hawserRetrain_trains hisland htraining hlanes
  case retryDown => exact fun htraining hdraining hup => execHawserTrainingRetry_down hisland htraining hdraining hup
  case retryDegraded =>
    intro htraining hdraining hup hlanes htime
    refine ⟨fun hother hreplay => ?_, fun hother hreplay => ?_, fun hother => ?_⟩
    · refine ⟨_, execHawserTrainingRetry_degraded hisland htraining hdraining hup hlanes htime hother, ?_⟩
      rw [if_pos (List.isEmpty_iff.mpr hreplay)]
      exact startRetrain_goneDown hl ((congrArg HLink.training (linkOf_setLink_same ..)).trans htraining)
    · refine ⟨_, execHawserTrainingRetry_degraded hisland htraining hdraining hup hlanes htime hother, ?_⟩
      rw [if_neg (fun h => hreplay (List.isEmpty_iff.mp h))]
      exact linkOf_setLink_same ..
    · exact execHawserTrainingRetry_alone hisland htraining hdraining hup hlanes htime hother
  case lockLost => exact fun htraining => ⟨_, execHawserLockLost_up hisland hup, startRetrain_goneDown hl htraining⟩
  case init => exact fun hinit => hawserInit_grants hisland hup hinit
  case hello =>
    intro hmembers
    refine ⟨_, execHello_helloed hisland hup hmembers m, helloed_linkOf, helloed_peerOf, ?_, ?_⟩
    · exact fun hfound hinit hdraining htarget hmirror hgoal hself =>
        helloed_seeds htarget hmirror hl hisland hup hinit hdraining hfound hgoal hself
    · exact fun hfound htarget hmirror hseed => helloed_refused htarget hmirror hfound hseed
  case nak => exact fun hfind hresent hfew => nak_resends hisland hup hfind hresent hfew
  case nakRetrain => exact fun htraining hmany => nak_retrains hisland hup seq htraining hmany
  case replayLate =>
    exact fun hreplay htime => ⟨fun hresent => flitReplayTimeout_resends hisland hup hreplay htime hresent,
      fun htraining hresent => ⟨_, execFlitReplayTimeout_late hisland hup hreplay htime, resendFrom_many (n := 0) hl htraining hresent⟩⟩
  case replayEarly => exact fun htime => execFlitReplayTimeout_early htime
  case crcFirst => exact fun hsent hfew => flitCrcFail_naks hisland hup hsent hfew
  case crcAgain => exact fun hsent => (execFlitCrcFail_up hisland hup).trans (congrArg Host.Outcome.next (if_pos hsent))
  case idle =>
    exact fun hinit hqueue _ => ⟨fun _ => idleFlit_books hisland hup hinit hqueue a cvc credits k,
      fun hbooks => idleFlit_halts hisland hup hinit (some a) hbooks⟩
  case taken => exact fun i hdata hseq hdest => takeData_here i hdata hseq hdest
  case mirrored =>
    exact fun hdata hmembers hfree => ⟨mirrorData_record hdata hmembers hfree basin n bs, mirrorData_held hdata hmembers hfree basin n bs,
      execMirrorData_here hdata hmembers hfree _, execMirrorData_here hdata hmembers hfree _⟩
  case mirrorFrozen => exact fun hdata hfrozen => execMirrorData_frozen hdata hfrozen _
  case tide => exact fun hdata hmembers hfree => execTideRecord_here hdata hmembers hfree bs ret
  case beat =>
    intro hdata hmember hother
    refine ⟨fun hlost => execHeartbeat_present hdata hmember hother hlost mode mask, fun hlost hmask => ?_⟩
    exact heartbeat_late hdata hmember hother hlost mode hmask
  case beatElsewhere => exact fun hdata => execHeartbeat_elsewhere hdata mode mask
  case beatSend =>
    intro hmembers hposition hawake htime
    refine ⟨_, execHeartbeatSend_two hmembers hposition hawake htime, ?_, fun hpath hqueue hroom hcredit => ?_⟩
    · rw [pumpLink_road, pumpLink_road]
      exact beatQueued_nowNs s
    · rw [pumpLink_both _ (linkTo_some hpath).1]
      exact beatQueued_sent _ hpath hqueue hroom hcredit
  case seedEnd => exact fun hseed hawake => seedEnd_resends hseed hawake
  case lost =>
    exact fun hheard hmember hother hpresent hawake => ⟨partnerLost_moves hheard hmember hother hpresent hawake,
      fun htime hpath => execPartnerLost_present hheard htime hpath⟩

end Sys2Proof.Proofs
end

section
/-! PROOFS. What a fetch, a retry point and retirement leave alone beside the registers of their thread (R142, R335, R336). -/

namespace Sys2Proof.Machine

/-- A state without its threads and the places of the berths: what a thread changes when it neither stores nor fetches a line. -/
def besideThreads (s : State) : State := { s with threads := [], piers := [] }

/-- What the state beside the threads holds is the same in two such states. -/
theorem field_of_besideThreads {α : Type} {s t : State} (h : besideThreads t = besideThreads s) (f : State → α)
    (hf : ∀ x, f (besideThreads x) = f x) : f t = f s := by
  rw [← hf t, h, hf]

theorem field_of_far {α : Type} {s t : State} (h : far t = far s) (f : State → α) (hf : ∀ x, f (far x) = f x) : f t = f s := by
  rw [← hf t, h, hf]

theorem tlbFill_besideThreads (s : State) (th : ThreadId) (va : Nat) : besideThreads (tlbFill s th va) = besideThreads s := by
  obtain ⟨l, h | h⟩ := tlbFill_thr s th va
  · rw [h]
  · rw [h]; rfl

theorem tlbFill_piers (s : State) (th : ThreadId) (va : Nat) : (tlbFill s th va).piers = s.piers := by
  obtain ⟨l, h | h⟩ := tlbFill_thr s th va
  · rw [h]
  · rw [h]; rfl

/-- The fetch changes nothing but its thread. -/
theorem fetched_besideThreads (s : State) (th : ThreadId) : besideThreads (fetched s th) = besideThreads s :=
  tlbFill_besideThreads ..

theorem fetched_piers (s : State) (th : ThreadId) : (fetched s th).piers = s.piers := tlbFill_piers ..

@[simp] theorem fetched_consOf (s : State) (th : ThreadId) (seq : Nat) : consOf (fetched s th) seq = consOf s seq :=
  field_of_besideThreads (fetched_besideThreads s th) (consOf · seq) fun _ => rfl
@[simp] theorem fetched_jobs (s : State) (th : ThreadId) : (fetched s th).jobs = s.jobs :=
  field_of_besideThreads (fetched_besideThreads s th) State.jobs fun _ => rfl
@[simp] theorem fetched_nextJob (s : State) (th : ThreadId) : (fetched s th).nextJob = s.nextJob :=
  field_of_besideThreads (fetched_besideThreads s th) State.nextJob fun _ => rfl
@[simp] theorem fetched_sroom (s : State) (th : ThreadId) : (fetched s th).sroom = s.sroom :=
  field_of_besideThreads (fetched_besideThreads s th) State.sroom fun _ => rfl
@[simp] theorem fetched_mboxState (s : State) (th x : ThreadId) (i : Nat) : mboxState (fetched s th) x i = mboxState s x i :=
  field_of_besideThreads (fetched_besideThreads s th) (mboxState · x i) fun _ => rfl
@[simp] theorem fetched_pierOf (s : State) (th : ThreadId) (p : Nat) : pierOf (fetched s th) p = pierOf s p := by
  unfold pierOf
  rw [fetched_piers]

/-- What of a thread a fetch leaves alone: all but the translations it holds and its slot (R96, R142). -/
theorem fetched_field {α : Type} (f : Thread → α) (hf : ∀ (t : Thread) l y, f { t with tlb := l, yielded := y } = f t)
    (s : State) (th : ThreadId) : f (thr (fetched s th) th) = f (thr s th) := by
  obtain ⟨l, h⟩ := fetched_thr s th
  rw [h]
  exact hf ..

@[simp] theorem fetched_seq (s : State) (th : ThreadId) : (thr (fetched s th) th).seq = (thr s th).seq :=
  fetched_field Thread.seq (fun _ _ _ => rfl) s th
@[simp] theorem fetched_ended (s : State) (th : ThreadId) : (thr (fetched s th) th).ended = (thr s th).ended :=
  fetched_field Thread.ended (fun _ _ _ => rfl) s th
@[simp] theorem fetched_cp (s : State) (th : ThreadId) : (thr (fetched s th) th).cp = (thr s th).cp :=
  fetched_field Thread.cp (fun _ _ _ => rfl) s th
@[simp] theorem fetched_sinceCk (s : State) (th : ThreadId) : (thr (fetched s th) th).sinceCk = (thr s th).sinceCk :=
  fetched_field Thread.sinceCk (fun _ _ _ => rfl) s th
@[simp] theorem fetched_keySlots (s : State) (th : ThreadId) : (thr (fetched s th) th).keySlots = (thr s th).keySlots :=
  fetched_field Thread.keySlots (fun _ _ _ => rfl) s th

/-- A retry point leaves whatever of the thread is not the gated stores, the commit set's bytes or the checkpoint. -/
theorem retryPoint_field {α : Type} (f : Thread → α) (hb : ∀ t, f (bare t) = f t)
    (hc : ∀ (t : Thread) (g : List GStore) (c : Arch) (n : Nat), f { t with gated := g, ck := c, sinceCk := n } = f t)
    (s : State) (th : ThreadId) : f (thr (retryPoint s th) th) = f (thr s th) := by
  have h := congrArg f (retryPoint_bare s th)
  rw [hb, hb] at h
  exact h.trans (hc (thr s th) [] (thr s th).arch 0)

@[simp] theorem retryPoint_gated (s : State) (th : ThreadId) : (thr (retryPoint s th) th).gated = [] :=
  congrArg Thread.gated (retryPoint_bare s th)
@[simp] theorem retryPoint_seq (s : State) (th : ThreadId) : (thr (retryPoint s th) th).seq = (thr s th).seq :=
  retryPoint_field Thread.seq (fun _ => rfl) (fun _ _ _ _ => rfl) s th

/-- With no gated store a retry point changes its thread's checkpoint and count alone (R335, R336). -/
theorem retryPoint_quiet {s : State} {th : ThreadId} (h : (thr s th).gated = []) :
    besideThreads (retryPoint s th) = besideThreads s ∧
      thr (retryPoint s th) th = { thr s th with ck := (thr s th).arch, sinceCk := 0 } := by
  unfold retryPoint
  extract_lets s1 s2 v left
  have h1 : s1 = modThr s th (fun t => { t with gated := [] }) := by
    simp only [s1, releaseGated, h, List.foldl_nil]
  have h2 : besideThreads s2 = besideThreads s ∧ thr s2 th = { thr s th with ck := (thr s th).arch, sinceCk := 0 } := by
    refine ⟨(congrArg besideThreads h1).trans rfl, ?_⟩
    simp only [s2, h1, thr_modThr_same, ← h]
  clear_value s2
  split
  · exact h2
  · exact h2

/-- With no gated store an instruction that retires between two retry points changes its thread alone. -/
theorem finish_retryPoint_quiet {s : State} {th : ThreadId} (h : (thr s th).gated = []) (a : Arch) :
    besideThreads (retryPoint (finish s th a) th) = besideThreads s ∧
      thr (retryPoint (finish s th a) th) th =
        { thr s th with arch := stepPc a, ck := stepPc a, sinceCk := 0, entering := none } := by
  have key : ∃ ck n, besideThreads (finish s th a) = besideThreads s ∧
      thr (finish s th a) th = { thr s th with arch := stepPc a, ck := ck, sinceCk := n, entering := none } := by
    unfold finish retire
    extract_lets s1
    have h1 : besideThreads s1 = besideThreads s ∧
        thr s1 th = { thr s th with arch := stepPc a, sinceCk := (thr s th).sinceCk + 1, entering := none } := by
      refine ⟨rfl, ?_⟩
      simp only [s1, thr_modThr_same, thr_setArch_same]
    clear_value s1
    obtain ⟨hbeside, hthr⟩ := h1
    split
    · obtain ⟨hq, ht⟩ := retryPoint_quiet (s := s1) (th := th) (by rw [hthr]; exact h)
      exact ⟨_, _, hq.trans hbeside, by rw [ht, hthr]⟩
    · exact ⟨_, _, hbeside, hthr⟩
  obtain ⟨ck, n, hbeside, hthr⟩ := key
  obtain ⟨hq, ht⟩ := retryPoint_quiet (s := finish s th a) (th := th) (by rw [hthr]; exact h)
  exact ⟨hq.trans hbeside, by rw [ht, hthr]⟩

/-- A retry point leaves the queues of the coprocessors alone: of a pier it changes a berth position at most. -/
theorem retryPoint_cpq (s : State) (th : ThreadId) (p : Nat) : (pierOf (retryPoint s th) p).cpq = (pierOf s p).cpq := by
  have hstore (u : State) (o : Obj) (a : Nat) (v : Byte) : (objStore u th o a v).piers = u.piers := by
    cases o with
    | phys =>
      have h := congrArg State.piers (physStore_outside u th a v)
      exact h
    | _ => rfl
  have hrelease : (releaseGated s th).piers = s.piers :=
    List.foldlRecOn (motive := fun u : State => u.piers = s.piers) _ _ rfl fun u hu g _ => (hstore u g.obj g.addr g.byte).trans hu
  unfold retryPoint
  extract_lets s1 s2 v left
  have h2 : (pierOf s2 p).cpq = (pierOf s p).cpq := by
    have : s2.piers = s.piers := hrelease
    unfold pierOf
    rw [this]
  clear_value s2
  split
  · unfold setPos
    by_cases hp : p = th.pier.val
    · subst hp
      simp only [pierOf_setPier_same, h2]
    · rw [pierOf_setPier_other _ _ hp, h2]
  · exact h2

theorem retire_cpq (s : State) (th : ThreadId) (p : Nat) : (pierOf (retire s th) p).cpq = (pierOf s p).cpq := by
  unfold retire
  extract_lets s1
  split
  · exact retryPoint_cpq s1 th p
  · rfl

end Sys2Proof.Machine
end

section
/-! PROOFS. How a handler ends (R103, R104, R110, R118, R133, R136, R157): the registers an entry leaves, and what becomes of the
consignment, the commit set and the holds. -/

namespace Sys2Proof.Machine

/-! The window registers (R130). -/

@[simp] theorem rdW_wrW_same (a : Arch) (n : Nat) (v : Word) : rdW (wrW a n v) n = v := by
  simp [rdW, wrW, Vector.get_eq_getElem, winIdx]

/-- The 24 registers of a window are different ones. -/
theorem winIdx_ne (wp : Fin 32) {n m : Nat} (hn : n < 24) (hm : m < 24) (h : m ≠ n) : (winIdx wp m).val ≠ (winIdx wp n).val := by
  simp only [winIdx]
  omega

theorem rdW_wrW_other (a : Arch) {n m : Nat} (v : Word) (hn : n < 24) (hm : m < 24) (h : m ≠ n) : rdW (wrW a n v) m = rdW a m := by
  have hne := winIdx_ne a.wp hn hm h
  simp [rdW, wrW, Vector.get_eq_getElem, hne.symm]

/-- After a slide by one group, the first 18 registers of the callee are the caller's from w6 on (R130). -/
theorem rdW_slideUp_shared (a : Arch) (l : BitVec 3) (v : Word) {i : Nat} (h : i < 18) : rdW (slideUp a 1 l v) i = rdW a (i + 6) := by
  have hidx : winIdx (groupAt a.wp 1) i = winIdx a.wp (i + 6) := Fin.ext (by simp only [winIdx, groupAt]; omega)
  unfold slideUp
  extract_lets wp
  rw [rdW_wrW_other _ _ (by decide) (by omega) (by omega)]
  exact congrArg a.win.get hidx

/-! The registers after an entry that spills nothing (R118, R157). -/

section Entered
variable (a : Arch) (e : Exn)

theorem enteredRegs_w23 : rdW (enteredRegs a e) 23 = if e.next then a.pc + 3 else a.pc := by
  show rdW (wrW (wrW (wrW _ 23 _) 22 _) 21 _) 23 = _
  rw [rdW_wrW_other _ _ (by decide) (by decide) (by decide), rdW_wrW_other _ _ (by decide) (by decide) (by decide), rdW_wrW_same]

theorem enteredRegs_w22 : rdW (enteredRegs a e) 22 = savedStatus a.status e.code := by
  show rdW (wrW (wrW _ 22 _) 21 _) 22 = _
  rw [rdW_wrW_other _ _ (by decide) (by decide) (by decide), rdW_wrW_same]

theorem enteredRegs_w21 : rdW (enteredRegs a e) 21 = excinfoOf e := by
  show rdW (wrW _ 21 _) 21 = _
  rw [rdW_wrW_same]

theorem enteredRegs_shared {i : Nat} (h : i < 18) : rdW (enteredRegs a e) i = rdW a (i + 6) := by
  show rdW (wrW (wrW (slideUp _ _ _ _) 22 _) 21 _) i = _
  rw [rdW_wrW_other _ _ (by decide) (by omega) (by omega), rdW_wrW_other _ _ (by decide) (by omega) (by omega), rdW_slideUp_shared _ _ _ h]

theorem enteredRegs_link : (enteredRegs a e).link.get (enteredRegs a e).wp = 7 := by
  show (a.link.set (groupAt a.wp 1).val 7 (groupAt a.wp 1).isLt).get (groupAt a.wp 1) = 7
  simp [Vector.get_eq_getElem]

theorem entryStatus_exception {st : Word} {code : Nat} (hcode : code < 16) :
    entryStatus st code (max 6 (st.extractLsb' 1 3).toNat) =
      ((st &&& 0x000070) ||| BitVec.ofNat 24 (code * 256 + max 6 (st.extractLsb' 1 3).toNat * 2 + 1)) := by
  have hpri : max 6 (st.extractLsb' 1 3).toNat < 8 := by
    have := (st.extractLsb' 1 3).isLt
    omega
  unfold entryStatus
  rw [Nat.mod_eq_of_lt (by omega : code < 256), Nat.mod_eq_of_lt hpri]
  rfl

end Entered

/-! The end of a handler (R103, R110). -/

/-- A handler has ended: its consignment is reported, its commit set and its holds are gone, and the thread no longer runs it. -/
structure HandlerEnded (th : ThreadId) (seq : Nat) (c : Cons) (r : EndReport) (u : State) : Prop where
  run : (thr u th).run = .ending ∨ (thr u th).run = .free
  csetLines : (thr u th).csetLines = []
  csetBytes : (thr u th).csetBytes = []
  cons : consOf u seq = some { c with report := some r, phase := .ended }
  holds : ∀ h ∈ (basinOf u th.basin.val).holds, h.2 ≠ seq

theorem modCons_held {s : State} {seq : Nat} {c : Cons} (hc : consOf s seq = some c) (f : Cons → Cons) :
    consOf (modCons s seq f) seq = some (f c) := by
  unfold consOf at hc
  simp [consOf, modCons, mget_mmod, hc]

theorem cancelWork_basins (s : State) (th : ThreadId) : (cancelWork s th).basins = s.basins := by
  refine List.foldlRecOn (motive := fun u : State => u.basins = s.basins) _ _ rfl fun u hu e _ => ?_
  unfold cancelJob
  split
  · exact hu
  · split
    · exact hu
    · exact hu

/-- A dropped commit set holds no line (R107, R110). -/
theorem dropCset_holds {s : State} {th : ThreadId} (hseq : (thr s th).seq ≠ 0) :
    ∀ h ∈ (basinOf (dropCset s th) th.basin.val).holds, h.2 ≠ (thr s th).seq := by
  unfold dropCset
  extract_lets t s1
  rw [if_neg hseq]
  unfold releaseHolds
  intro h hh
  rw [basinOf_setBasin_same] at hh
  simpa using (List.mem_filter.mp hh).2

theorem endThread_ended {s : State} {th : ThreadId} {c : Cons} (r : EndReport) (hseq : (thr s th).seq ≠ 0)
    (hc : consOf s (thr s th).seq = some c) : HandlerEnded th (thr s th).seq c r (endThread s th (some r)) := by
  obtain ⟨-, hrun, hlines, hbytes, -⟩ := endThread_thr s th (some r)
  refine ⟨.inl hrun, hlines, hbytes, ?_, ?_⟩
  · unfold endThread
    refine modCons_held (c := c) ?_ _
    show mget (cancelWork (dropCset s th) th).cons _ = _
    rw [cancelWork_cons, dropCset_cons]
    exact hc
  · have hbasins : (endThread s th (some r)).basins = (dropCset s th).basins := cancelWork_basins (dropCset s th) th
    unfold basinOf
    rw [hbasins]
    exact dropCset_holds hseq

/-- A thread that becomes free keeps what the end of its handler left (R110). -/
theorem freeIfDone_ended {u : State} {th : ThreadId} {seq : Nat} {c : Cons} {r : EndReport} (h : HandlerEnded th seq c r u) :
    HandlerEnded th seq c r (freeIfDone u th) := by
  have hcons : consOf (freeIfDone u th) seq = consOf u seq := congrArg (mget · seq) (freeIfDone_cons u th)
  have hbasin : basinOf (freeIfDone u th) th.basin.val = basinOf u th.basin.val :=
    congrArg (fun b : Table Basin => tget ({} : Basin) b th.basin.val) (freeIfDone_basins u th)
  rcases freeIfDone_thr u th with hsame | hfree
  · rw [hsame]
    exact h
  · exact ⟨.inr (by rw [hfree]), by rw [hfree], by rw [hfree], hcons.trans h.cons, by rw [hbasin]; exact h.holds⟩

/-- An exception of a handler in user mode that has not ended ends its consignment FAILED (R103). -/
theorem takeExn_ends {s : State} {th : ThreadId} {c : Cons} (e : Exn) (huser : (regsOf s th).status.getLsbD 0 = false)
    (hres : (regsOf s th).res < 28) (hseq : (thr s th).seq ≠ 0) (hended : (thr s th).ended = .no) (hc : consOf s (thr s th).seq = some c) :
    HandlerEnded th (thr s th).seq c (excReport e) (takeExn s th e) := by
  have hentry := entryOf_free s th e (by omega)
  unfold takeExn
  extract_lets t x u
  have hx : x.2.2 = e := congrArg (·.2.2) hentry
  have hu : (thr u th).seq = (thr s th).seq := by
    simp only [u, retryPoint_seq, thr_setThr_same]
    rfl
  have hcu : consOf u (thr u th).seq = some c := by
    rw [hu, ← hc]
    exact congrArg (mget · _) (retryPoint_cons _ th)
  clear_value u
  have hcond : (!(sysMode t.arch) && t.seq ≠ 0) = true := by
    have : sysMode t.arch = false := huser
    simp [this, t, hseq]
  rw [if_pos hcond, hx, show t.ended = .no from hended, ← hu]
  exact freeIfDone_ended (endThread_ended _ (hu ▸ hseq) hcu)

/-! RET into the runtime (R133, R149). -/

theorem goto_valid {a : Arch} {target : Nat} (hle : target ≤ 0xFFFFFC) (hdvd : target % 3 = 0) :
    goto a target = .ok { a with pc := BitVec.ofNat 24 target } := by
  unfold goto
  rw [if_pos ⟨by omega, by simp [validPc, hdvd]; omega⟩]
  simp

/-- What a retired instruction keeps of the handler it belongs to. -/
theorem retired_reads (s : State) (th : ThreadId) (a : Arch) : (thr (retired s th a) th).seq = (thr s th).seq ∧
    (thr (retired s th a) th).ended = (thr s th).ended ∧ regsOf (retired s th a) th = a ∧
    ∀ seq, consOf (retired s th a) seq = consOf s seq := by
  unfold retired regsOf
  refine ⟨by simp, by simp, by simp, fun seq => ?_⟩
  rw [← fetched_consOf s th]
  exact field_of_far (retire_far (setArch (fetched s th) th a) th) (consOf · seq) fun _ => rfl

/-- The registers a RET to the runtime leaves: the window has slid back, and the PC is SRETV in system mode. -/
def runtimeRegs (r : Arch) : Arch := { slideDown r 1 with pc := r.sretv, status := (withMode r true).status }

theorem execRet_runtime {s : State} {th : ThreadId} (h : ready s th) (hlink : (regsOf s th).link.get (regsOf s th).wp = 5)
    (hres : 1 ≤ (regsOf s th).res) (hle : (regsOf s th).sretv.toNat ≤ 0xFFFFFC) (hdvd : (regsOf s th).sretv.toNat % 3 = 0) :
    exec (.ret th 0 0 0) s = .next (endByRet (retired s th (runtimeRegs (regsOf s th))) th) := by
  have hgoto := goto_valid (a := withMode (regsOf s th) true) hle hdvd
  have hl : ((regsOf s th).link.get (regsOf s th).wp).toNat = 5 := by rw [hlink]; rfl
  show execRet th 0 0 0 s = _
  unfold execRet
  rw [issue_ready h]
  simp [regsOf_fetched, hl, hgoto, fillTo_resident _ _ _ _ _ hres]
  rfl

/-- The report of a handler that returns without COMMIT or ABORT (R103). -/
def retReport (c : Cons) (hval : Word) : EndReport :=
  { committed := false, status := if c.expired then 0x0503 else 0x0603, value := hval, resultLen := 0 }

/-- A RET into the runtime ends a handler that has done neither COMMIT nor ABORT, and keeps its registers (R103). -/
theorem endByRet_running {s : State} {th : ThreadId} {c : Cons} (hseq : (thr s th).seq ≠ 0) (hended : (thr s th).ended = .no)
    (hc : consOf s (thr s th).seq = some c) :
    HandlerEnded th (thr s th).seq c (retReport c (regsOf s th).hval) (endByRet s th) ∧ regsOf (endByRet s th) th = regsOf s th := by
  have hreached : endByRet s th = freeIfDone (endThread s th (some (retReport c (regsOf s th).hval))) th := by
    unfold endByRet
    simp only [if_neg hseq, hc, if_pos hended]
    rfl
  rw [hreached]
  exact ⟨freeIfDone_ended (endThread_ended _ hseq hc), (freeIfDone_arch _ _).trans (endThread_thr _ _ _).1⟩

end Sys2Proof.Machine

namespace Sys2Proof.Proofs
open Sys2Proof.Machine

/-- Settles O14: the RET retires with the runtime's registers, and the handler ends as endByRet_running says. -/
theorem retToTheRuntimeEndsTheHandler : Obligations.RetToTheRuntimeEndsTheHandler := by
  unfold Obligations.RetToTheRuntimeEndsTheHandler
  intro s th c h r hlink hres hle hdvd hseq hended hc
  have hstep := execRet_runtime h hlink hres hle hdvd
  obtain ⟨hsequ, hendedu, hregs, hcons⟩ := retired_reads s th (runtimeRegs r)
  generalize retired s th (runtimeRegs r) = u at hstep hsequ hendedu hregs hcons
  rw [← hsequ] at hc hseq ⊢
  rw [← hcons] at hc
  obtain ⟨hend, hkept⟩ := endByRet_running hseq (hendedu.trans hended) hc
  rw [hregs] at hend hkept
  have hmode : (runtimeRegs r).status.getLsbD 0 = true := by simp [runtimeRegs, withMode, putBit]
  exact ⟨_, _, hstep, hend.run, congrArg Arch.pc hkept, (congrArg (fun a => a.status.getLsbD 0) hkept).trans hmode, hend.csetLines,
    hend.cons, rfl⟩

/-- Settles O15: the entry finds a free group (entryOf_free), so its registers are enteredRegs, and a handler in user mode ends as
takeExn_ends says. -/
theorem exceptionEntry : Obligations.ExceptionEntry := by
  unfold Obligations.ExceptionEntry
  refine ⟨?_, fun s th e c huser hres hseq hended hc => ?_⟩
  · intro s th e hcode hdetail r b pri hfree
    have hb : b = enteredRegs (faultRegs r e) e := by
      rw [show b = (entryOf s th e).1 from takeExn_regs s th e, entryOf_free s th e hfree]
    have hexc : excinfoOf e = BitVec.ofNat 24 (e.detail * 256 + e.code) := by
      rw [excinfoOf, Nat.mod_eq_of_lt hdetail]
    rw [hb]
    refine ⟨rfl, rfl, rfl, enteredRegs_link .., enteredRegs_w23 .., ?_, (enteredRegs_w21 ..).trans hexc, hexc,
      entryStatus_exception hcode, rfl, rfl, rfl, rfl, rfl, rfl, fun i hi => enteredRegs_shared _ _ hi⟩
    rw [enteredRegs_w22, savedStatus, Nat.mod_eq_of_lt (by omega : e.code < 256)]
    rfl
  · have hend := takeExn_ends e huser hres hseq hended hc
    exact ⟨_, hend.cons, rfl, rfl, hend.csetLines, hend.csetBytes, hend.run, hend.holds⟩

end Sys2Proof.Proofs
end

section
/-! PROOFS. YIELD, RDTIME, TLBINV and WAITCP (R96, R112, R116, R129, R142, R144, R151). -/

namespace Sys2Proof.Machine

/-- A field of a command is 0 where its number is. -/
theorem field_eq_zero {n : Nat} [NeZero n] {d : Fin n} : d.val = 0 ↔ d = 0 := Fin.val_eq_zero_iff

section System
variable {s : State} {th : ThreadId} (h : ready s th)
include h

theorem execYield_ready (d a b : RegField) : exec (.yield th d a b) s =
    .next (modThr (retired s th (stepPc (regsOf s th))) th (fun t => { t with yielded := true })) := by
  show execYield th d a b s = _
  unfold execYield
  rw [issue_ready h, regsOf_fetched]
  rfl

theorem execRdtime_writes {d : RegField} (hd : tripleOk d = true) :
    exec (.rdtime th d 0 0) s = leaves s th (wrTriple (regsOf s th) d (BitVec.ofNat 64 (harbourNs s))) := by
  show execRdtime th d 0 0 s = _
  exact regInstr_leaves h (by simp [hd]) (wrTriple_pc _ _ _)

theorem execRdtime_illegal {d a b : RegField} (hbad : tripleOk d = false ∨ a ≠ 0 ∨ b ≠ 0) :
    exec (.rdtime th d a b) s = raises s th excIllegal := by
  show execRdtime th d a b s = _
  refine regInstr_raises h (if_neg ?_)
  rcases hbad with hd | ha | hb
  · simp [hd]
  · simp [ha]
  · simp [hb]

theorem execTlbinv_illegal {d a b : RegField} (hbad : d ≠ 0 ∨ a ≠ 0 ∨ b ≠ 0) :
    exec (.tlbinv th d a b) s = raises s th excIllegal := by
  show execTlbinv th d a b s = _
  unfold execTlbinv
  rw [issue_ready h, if_pos (by simpa only [ne_eq, field_eq_zero] using hbad)]
  rfl

theorem execTlbinv_user (huser : sysMode (regsOf s th) = false) : exec (.tlbinv th 0 0 0) s = raises s th excPrivilege := by
  show execTlbinv th 0 0 0 s = _
  unfold execTlbinv
  rw [issue_ready h, if_neg (by simp), regsOf_fetched, if_pos (by simp [huser])]
  rfl

theorem execTlbinv_system (hsys : sysMode (regsOf s th) = true) : exec (.tlbinv th 0 0 0) s =
    .next (finish (modThr (fetched s th) th (fun t => { t with tlb := [] })) th (regsOf s th)) := by
  show execTlbinv th 0 0 0 s = _
  unfold execTlbinv
  rw [issue_ready h, if_neg (by simp), regsOf_fetched, if_neg (by simp [hsys])]

/-! WAITCP (R112, R116). -/

theorem execWaitcp_collects {d a : RegField} (ha : a.val < 4) : exec (.waitcp th d a 0) s = .next (
    (collect (fetched s th) th a.val d).getD (modThr (fetched s th) th (fun t => { t with run := .waitcp a.val d }))) := by
  show execWaitcp th d a 0 s = _
  unfold execWaitcp
  rw [issue_ready h, if_neg (by simp; omega), if_neg (by omega)]
  cases collect (fetched s th) th a.val d <;> rfl

theorem execWaitcp_undefined {d a : RegField} (h4 : 4 ≤ a.val) (h8 : a.val < 8) :
    exec (.waitcp th d a 0) s = raises s th excUndefCp := by
  show execWaitcp th d a 0 s = _
  unfold execWaitcp
  rw [issue_ready h, if_neg (by simp; omega), if_pos h4]
  rfl

theorem execWaitcp_illegal {d a b : RegField} (hbad : 8 ≤ a.val ∨ b ≠ 0) :
    exec (.waitcp th d a b) s = raises s th excIllegal := by
  show execWaitcp th d a b s = _
  unfold execWaitcp
  rw [issue_ready h, if_pos (by simpa only [ne_eq, field_eq_zero] using hbad)]
  rfl

end System

section Collect
variable {s : State} {th : ThreadId} (d : RegField)

/-- A posted result is collected: its status word is written and the request is idle (R112). -/
theorem collect_posted {n : Fin 3} {w : Word} (hposted : (thr s th).cp.get n = .posted w) : collect s th n.val d =
    some (finish (setThr s th { thr s th with run := .active, cp := (thr s th).cp.set n.val .idle n.isLt }) th
      (wr (thr s th).arch d w)) := by
  unfold collect
  rw [dif_pos n.isLt, hposted]

theorem collect_unposted {n : Fin 3} (hnone : ∀ w : Word, (thr s th).cp.get n ≠ .posted w) : collect s th n.val d = none := by
  unfold collect
  rw [dif_pos n.isLt]
  split
  · exact absurd ‹_› (hnone _)
  · rfl

/-- The lowest mailbox entry that a test holds of (R115, R116). -/
theorem find_mailbox {p : Nat → Bool} {i : Nat} (hi : i < 8) (hp : p i = true) (hlow : ∀ j < i, p j = false) :
    (List.range 8).find? p = some i := by
  rw [List.find?_range_eq_some]
  exact ⟨hp, List.mem_range.mpr hi, fun j hj => by simp [hlow j hj]⟩

theorem find_no_mailbox {p : Nat → Bool} (hnone : ∀ i < 8, p i = false) : (List.range 8).find? p = none := by
  rw [List.find?_range_eq_none]
  exact fun i hi => by simp [hnone i hi]

/-- The lowest entry in state 2 is collected: its index is written and its state is 3 (R116). -/
theorem collect_mailbox {i : Nat} (hi : i < 8) (hdone : mboxState s th i = 2) (hlow : ∀ j < i, mboxState s th j ≠ 2) :
    collect s th 3 d = some (finish (modThr (nearWrite s th (0x80 + 16 * i) [3]) th
      (fun t => { t with run := .active, jobs := t.jobs.set i 0 hi })) th (wr (thr s th).arch d (BitVec.ofNat 24 i))) := by
  unfold collect
  rw [dif_neg (by decide), find_mailbox hi (by simp [hdone]) (fun j hj => by simpa using hlow j hj)]
  simp only [dif_pos hi]

theorem collect_no_mailbox (hnone : ∀ i < 8, mboxState s th i ≠ 2) : collect s th 3 d = none := by
  unfold collect
  rw [dif_neg (by decide), find_no_mailbox (fun i hi => by simpa using hnone i hi)]

end Collect

/-- What is written to the state byte of a mailbox entry reads back (R115). -/
theorem mboxState_nearWrite (s : State) (th : ThreadId) (i : Nat) (b : Byte) (bs : List Byte) :
    mboxState (nearWrite s th (0x80 + 16 * i) (b :: bs)) th i = b.toNat := by
  unfold mboxState nearWrite
  rw [tget_tset_same]
  exact congrArg BitVec.toNat (tget_writeBytes_inside _ (0x80 + 16 * i) 0 (b :: bs) (by simp))

/-- The thread that has collected a posted result is active and its request idle, whatever retires (R112). -/
theorem finish_collected (s : State) (th : ThreadId) (n : Fin 3) (a : Arch) :
    let u := finish (setThr s th { thr s th with run := .active, cp := (thr s th).cp.set n.val .idle n.isLt }) th a
    (thr u th).arch = stepPc a ∧ (thr u th).cp.get n = .idle ∧ (thr u th).run = .active := by
  unfold finish
  simp [Vector.get_eq_getElem]

theorem finish_between (s : State) (th : ThreadId) (a : Arch) (h : (thr s th).sinceCk < 31) :
    finish s th a = modThr (setArch s th (stepPc a)) th (fun t => { t with sinceCk := t.sinceCk + 1, entering := none }) := by
  unfold finish
  exact retire_between _ _ (by rw [thr_setArch_same]; exact h)

end Sys2Proof.Machine

namespace Sys2Proof.Proofs
open Sys2Proof.Machine

/-- Settles O19: each instruction has one equation per outcome. -/
theorem yieldRdtimeTlbinv : Obligations.YieldRdtimeTlbinv := by
  unfold Obligations.YieldRdtimeTlbinv
  intro s th d a b h r
  refine ⟨execYield_ready h d a b, fun hd => execRdtime_writes h (by simp [tripleOk, hd]), fun hbad => execRdtime_illegal h ?_,
    fun hsys => ⟨_, execTlbinv_system h hsys, ?_⟩, fun huser => execTlbinv_user h huser, fun hbad => execTlbinv_illegal h hbad⟩
  · have htriple : d.val < 8 ∨ 29 < d.val → tripleOk d = false := by simp [tripleOk]; omega
    tauto
  · unfold finish
    simp [stepPc, r]

/-- Settles O20: WAITCP answers what `collect` finds, or parks. -/
theorem waitcpCollectsOrParks : Obligations.WaitcpCollectsOrParks := by
  unfold Obligations.WaitcpCollectsOrParks
  intro s th d a b h r
  refine ⟨fun n w ha hposted => ?_, fun n ha hnone => ?_, fun ha hnone => ?_, fun i hi ha hdone hlow hck => ?_,
    fun h4 h8 => execWaitcp_undefined h h4 h8, fun hbad => execWaitcp_illegal h hbad⟩
  · refine ⟨_, execWaitcp_collects h (by omega), ?_⟩
    rw [ha, collect_posted d (by rw [fetched_cp]; exact hposted), regsOf_fetched, Option.getD_some]
    obtain ⟨harch, hcp, hrun⟩ := finish_collected (fetched s th) th n (wr r d w)
    exact ⟨harch.trans (by rw [stepPc, wr_pc]), hcp, hrun⟩
  · rw [execWaitcp_collects h (by omega), ha, collect_unposted d (by rw [fetched_cp]; exact hnone), Option.getD_none]
  · rw [execWaitcp_collects h (by omega), ha, collect_no_mailbox d (by simpa using hnone), Option.getD_none]
  · refine ⟨_, execWaitcp_collects h (by omega), ?_⟩
    rw [ha, collect_mailbox d hi (by simpa using hdone) (by simpa using hlow), regsOf_fetched, Option.getD_some, finish_between]
    · refine ⟨?_, mboxState_nearWrite _ th i 3 [], ?_⟩
      · simp [stepPc, r]
      · simp
    · rw [thr_modThr_same]
      show (thr (fetched s th) th).sinceCk < 31
      rwa [fetched_sinceCk]

end Sys2Proof.Proofs
end

section
/-! PROOFS. Accesses of a thread (R105 to R107, R137 to R142, R147, R173, R335): the outcomes of an access by its checks, the near and
the far stores, and what the gated store buffer shows. -/

namespace Sys2Proof.Machine

/-! The outcomes of an access (R105 to R107, R141). -/

/-- Lines of the commit set with those that an access adds (R105). -/
abbrev linesWith (s : State) (th : ThreadId) (ls : List Loc) : Nat :=
  (thr s th).csetLines.length + ((linesOf ls).filter (fun l => !((thr s th).csetLines.contains l))).length

section Outcomes
variable {s : State} {th : ThreadId} {op : MemOp} {ls : List Loc}

theorem access_fault {e : Exn} (hfault : translate s th (opKind op) (opVa op) (opLen op) = .error e) : access s th op = takeExn s th e := by
  unfold access
  rw [hfault]

variable (htranslate : translate s th (opKind op) (opVa op) (opLen op) = .ok ls)
include htranslate

theorem access_afterEnd (hend : afterEnd s th (opKind op) ls = true) : access s th op = takeExn s th excIllegal := by
  unfold access
  rw [htranslate]
  exact if_pos hend

variable (hend : afterEnd s th (opKind op) ls = false)
include hend

theorem access_overflow (hlines : 64 < linesWith s th ls) : access s th op = takeExn s th excOverflow := by
  unfold access
  rw [htranslate]
  simp only [hend, Bool.false_eq_true, if_false]
  exact if_pos hlines

variable (hlines : linesWith s th ls ≤ 64)
include hlines

theorem access_conflict {line holder : Nat} (hconflict : conflictOf s th (linesOf ls) = some (line, holder)) : access s th op =
    if (thr s th).seq < holder then waitFor s th (.hold (line / 2 ^ 14) (line % 2 ^ 14)) op 0 else conflictRestart s th line := by
  unfold access
  rw [htranslate]
  simp only [hend, Bool.false_eq_true, if_false]
  refine (if_neg (Nat.not_lt.mpr hlines)).trans ?_
  rw [hconflict]

end Outcomes

theorem waitFor_thr (s : State) (th : ThreadId) (p l : Nat) (op : MemOp) : thr (waitFor s th (.hold p l) op 0) th =
    { thr s th with run := .hold, wait := some { why := .hold p l, op := some op, since := nowNs s } } := by
  unfold waitFor
  rw [thr_modThr_same]

/-- A younger thread that meets a hold is parked, and all it did is discarded (R107). -/
theorem conflictRestart_thr (s : State) (th : ThreadId) (line : Nat) :
    (thr (conflictRestart s th line) th).run = .hold ∧ (thr (conflictRestart s th line) th).csetLines = [] ∧
      (thr (conflictRestart s th line) th).gated = [] ∧ (thr (conflictRestart s th line) th).csetBytes = [] := by
  unfold conflictRestart
  extract_lets seq s1 s2
  have h1 : thr s1 th = _ := (cancelWork_thr (dropCset s th) th).trans (by rw [dropCset_thr])
  have h2 : thr s2 th = _ := (thr_modThr_same s1 th _).trans (by rw [h1])
  change (thr s2 th).run = _ ∧ (thr s2 th).csetLines = _ ∧ (thr s2 th).gated = _ ∧ (thr s2 th).csetBytes = _
  rw [h2]
  exact ⟨rfl, rfl, rfl, rfl⟩

/-! Stores to CACHED and LEDGERED bytes (R335). -/

section Stores
variable {s : State} {th : ThreadId} {ls : List Loc}

theorem access_admitted {va : Nat} {bs : List Byte} (h : admitted s th (.store va bs) ls) :
    access s th (.store va bs) = doStore (reached s th (.store va bs) ls) th va ls bs := by
  obtain ⟨htranslate, hend, hlines, hconflict⟩ := h
  unfold access
  rw [htranslate]
  simp only [hend, Bool.false_eq_true, if_false]
  rw [if_neg (Nat.not_lt.mpr hlines), hconflict]
  rfl

/-- Cacheable bytes join the gated store buffer in order, and the store retires. -/
theorem doStore_cacheable (hc : cacheable ls) (va : Nat) (bs : List Byte) : doStore s th va ls bs =
    finish (modThr s th (fun t => { t with gated := t.gated ++ piecesOf ls bs })) th (regsOf s th) := by
  have hpiece : ∀ p ∈ ls.zip bs, p.1.type = .cached ∨ p.1.type = .ledgered :=
    fun p hp => hc p.1 (List.of_mem_zip hp).1
  have hgated : (ls.zip bs).filter (fun p => decide (p.1.type = .cached) || decide (p.1.type = .ledgered)) = ls.zip bs :=
    List.filter_eq_self.mpr fun p hp => by simpa using hpiece p hp
  have hnone (f : Loc × Byte → Bool) (hf : ∀ p, f p = true → p.1.type ≠ .cached ∧ p.1.type ≠ .ledgered) : (ls.zip bs).filter f = [] :=
    List.filter_eq_nil_iff.mpr fun p hp hfp => (hpiece p hp).elim (hf p hfp).1 (hf p hfp).2
  unfold doStore
  extract_lets pieces mk gatedP buf unc dev host s1 s2
  have hbuf : buf = [] := hnone _ fun p hp => by simp at hp; simp [hp.1]
  have hunc : unc = [] := hnone _ fun p hp => by simp at hp; simp [hp.1]
  have hdev : dev = [] := hnone _ fun p hp => by simp at hp; simp [hp]
  have hhost : host = [] := hnone _ fun p hp => by simp at hp; simp [hp]
  rw [if_pos (by rw [hbuf, hunc, hdev, hhost]; rfl)]
  have hs1 : s1 = modThr s th (fun t => { t with gated := t.gated ++ piecesOf ls bs }) := by
    simp only [s1, show gatedP = ls.zip bs from hgated]
    rfl
  rw [hs1, thr_modThr_same]
  rfl

@[simp] theorem takeLines_arch (s : State) (th : ThreadId) (l : List Nat) : (thr (takeLines s th l) th).arch = (thr s th).arch := by
  have h : thr (takeLines s th l) th = thr (setThr s th _) th := thr_of_threads rfl th
  rw [h, thr_setThr_same]

@[simp] theorem reached_regsOf (s : State) (th : ThreadId) (op : MemOp) (ls : List Loc) : regsOf (reached s th op ls) th = regsOf s th := by
  unfold regsOf reached
  extract_lets s1
  rw [tlbFill_arch, tlbFill_arch]
  simp only [s1]
  split
  · rfl
  · exact takeLines_arch ..

/-- A store instruction whose operands are good is the access of its bytes. -/
theorem storesAs_of_memInstr {i : Instr} {f : Arch → Except Exn MemOp} {va n v : Nat} (h : ready s th)
    (hi : exec i s = .next (memInstr th f s)) (hf : f (regsOf s th) = .ok (.store va (toLe n v))) : storesAs s th ls i va n v := by
  have haccess := hi.trans (congrArg Host.Outcome.next (memInstr_ok h hf))
  refine ⟨haccess, fun hadmitted hc => haccess.trans (congrArg Host.Outcome.next ?_)⟩
  rw [access_admitted hadmitted, doStore_cacheable hc, reached_regsOf]
  show finish _ th (thr (fetched s th) th).arch = _
  rw [regsOf_fetched]
  rfl

theorem memInstr_raises {f : Arch → Except Exn MemOp} {e : Exn} (h : ready s th) (hf : f (regsOf s th) = .error e) :
    (Host.Outcome.next (memInstr th f s) : Out) = raises s th e := congrArg Host.Outcome.next (memInstr_error h hf)

theorem nearStore_storesAs {i : Instr} {a : RegField} {imm : BitVec 8} {n : Nat} {ok : Bool} (v : Arch → Nat) (h : ready s th)
    (hi : exec i s = nearStore th a imm n ok v s) (hok : ok = true) (hw : nearWritable (regsOf s th) (eaNear (regsOf s th) a imm) = true) :
    storesAs s th ls i (nearVa (regsOf s th) (eaNear (regsOf s th) a imm)) n (v (regsOf s th)) :=
  storesAs_of_memInstr h hi (by simp [hok, hw])

theorem nearStore_illegal {i : Instr} {a : RegField} {imm : BitVec 8} {n : Nat} {ok : Bool} {v : Arch → Nat} (h : ready s th)
    (hi : exec i s = nearStore th a imm n ok v s) (hok : ok = false) : exec i s = raises s th excIllegal :=
  hi.trans (memInstr_raises h (by simp [hok]))

theorem farStore_storesAs {i : Instr} {a b : RegField} {n : Nat} {ok : Bool} (v : Arch → Nat) (h : ready s th)
    (hi : exec i s = farStore th a b n ok v s) (hok : ok = true) (ha : pairOk a = true) :
    storesAs s th ls i (eaFar (regsOf s th) a b).toNat n (v (regsOf s th)) :=
  storesAs_of_memInstr h hi (by simp [hok, ha])

theorem farStore_illegal {i : Instr} {a b : RegField} {n : Nat} {ok : Bool} {v : Arch → Nat} (h : ready s th)
    (hi : exec i s = farStore th a b n ok v s) (hok : ok = false ∨ pairOk a = false) : exec i s = raises s th excIllegal :=
  hi.trans (memInstr_raises h (if_neg (by simpa [imp_iff_not_or] using hok)))

end Stores

/-! The gated store buffer (R106, R173, R335). -/

section Gate
variable (s : State) (th : ThreadId) (l : Loc)

/-- A byte that no gated store of the thread names: its commit set, then the object (R106). -/
def ungatedByte (s : State) (th : ThreadId) (l : Loc) : Byte := seenByte (modThr s th (fun t => { t with gated := [] })) th l

/-- A byte reads as the last gated store to it, else as without the gate. -/
theorem seenByte_gate : seenByte s th l =
    (((thr s th).gated.reverse.find? (fun g => decide (g.obj = l.obj) && g.addr == l.addr)).map GStore.byte).getD (ungatedByte s th l) := by
  have hungated : ungatedByte s th l = if l.obj = .ledger then
      match mget (thr s th).csetBytes l.addr with
      | some v => v
      | none => objByte s th.basin.val l.obj l.addr
    else if l.obj = .phys then
      if l.type = .uncached then tget 0 s.mem.hbm l.addr
      else lineByte (thrLine s th (l.addr / 64)).1 (l.addr % 64)
    else objByte s th.basin.val l.obj l.addr := by
    unfold ungatedByte seenByte
    rw [thr_modThr_same]
    rfl
  rw [hungated]
  unfold seenByte
  extract_lets t
  cases List.find? (fun g => decide (g.obj = l.obj) && g.addr == l.addr) t.gated.reverse <;> rfl

/-- What a thread reads does not depend on the gated stores of another thread. -/
theorem seenByte_other {th x : ThreadId} (h : x ≠ th) (f : Thread → Thread) : seenByte (modThr s th f) x l = seenByte s x l := by
  unfold seenByte
  rw [thr_modThr_other _ _ h]
  rfl

end Gate

/-- The state in which more stores wait in the gate of a thread. -/
def gatedMore (s : State) (th : ThreadId) (gs : List GStore) : State := modThr s th (fun t => { t with gated := t.gated ++ gs })

theorem seenByte_gatedMore (s : State) (th : ThreadId) (gs : List GStore) (l : Loc) : seenByte (gatedMore s th gs) th l =
    ((gs.reverse.find? (fun g => decide (g.obj = l.obj) && g.addr == l.addr)).map GStore.byte).getD (seenByte s th l) := by
  have hsame : ungatedByte (gatedMore s th gs) th l = ungatedByte s th l := by
    unfold ungatedByte gatedMore seenByte
    simp only [thr_modThr_same]
    rfl
  rw [seenByte_gate s, seenByte_gate (gatedMore s th gs), hsame, gatedMore, thr_modThr_same, List.reverse_append, List.find?_append]
  cases List.find? (fun g => decide (g.obj = l.obj) && g.addr == l.addr) gs.reverse <;> rfl

/-- Gated stores that do not name a byte leave what the thread reads of it. -/
theorem seenByte_gatedMore_untouched (s : State) (th : ThreadId) {gs : List GStore} {l : Loc}
    (h : ∀ g ∈ gs, ¬ (g.obj = l.obj ∧ g.addr = l.addr)) : seenByte (gatedMore s th gs) th l = seenByte s th l := by
  have hnone : gs.reverse.find? (fun g => decide (g.obj = l.obj) && g.addr == l.addr) = none :=
    List.find?_eq_none.mpr fun g hg => by simpa using h g (List.mem_reverse.mp hg)
  rw [seenByte_gatedMore, hnone]
  rfl

/-- The last gated store that names a byte is what the thread reads of it. -/
theorem seenByte_gatedMore_last (s : State) (th : ThreadId) (before : List GStore) {after : List GStore} {g : GStore} {l : Loc}
    (hobj : g.obj = l.obj) (haddr : g.addr = l.addr) (h : ∀ k ∈ after, ¬ (k.obj = l.obj ∧ k.addr = l.addr)) :
    seenByte (gatedMore s th (before ++ g :: after)) th l = g.byte := by
  have hlast : (before ++ g :: after).reverse.find? (fun g => decide (g.obj = l.obj) && g.addr == l.addr) = some g := by
    have hnone : after.reverse.find? (fun g => decide (g.obj = l.obj) && g.addr == l.addr) = none :=
      List.find?_eq_none.mpr fun k hk => by simpa using h k (List.mem_reverse.mp hk)
    simp [List.find?_append, hnone, hobj, haddr]
  rw [seenByte_gatedMore, hlast]
  rfl

end Sys2Proof.Machine

namespace Sys2Proof.Proofs
open Sys2Proof.Machine

/-- Settles O22: every store is nearStore or farStore of its operands, and of the gate the last store to a byte is found first. -/
theorem nearAndFarStores : Obligations.NearAndFarStores := by
  unfold Obligations.NearAndFarStores
  refine ⟨?_, ?_⟩
  · intro s th d a b imm ls h r va far
    have hpair (x : RegField) : pairOk x = true ↔ 8 ≤ x.val ∧ x.val ≤ 30 := by simp [pairOk]
    have hunpair (x : RegField) (hx : x.val < 8 ∨ x.val = 31) : pairOk x = false := by simp [pairOk]; omega
    let word (r : Arch) : Nat := (rd r d).toNat
    let pair (r : Arch) : Nat := (rdPair r d).toNat
    let float (r : Arch) : Nat := (rdF r d).toNat
    let float32 (r : Arch) : Nat := (rdF32 r d).toNat
    refine ⟨fun hw => ?_, fun hd => ⟨nearStore_illegal h rfl (hunpair d hd), farStore_illegal h rfl (.inl (hunpair d hd))⟩,
      fun ha => ?_, fun ha i hi => ?_⟩
    · have hw' : nearWritable r (eaNear r a imm) = true := by
        rw [nearWritable, Bool.or_eq_true, decide_eq_true_eq]
        exact hw
      exact ⟨nearStore_storesAs word h rfl rfl hw', nearStore_storesAs word h rfl rfl hw', nearStore_storesAs word h rfl rfl hw',
        nearStore_storesAs float h rfl rfl hw', nearStore_storesAs float32 h rfl rfl hw',
        fun hd => nearStore_storesAs pair h rfl ((hpair d).mpr hd) hw'⟩
    · have ha' := (hpair a).mpr ha
      exact ⟨farStore_storesAs word h rfl rfl ha', farStore_storesAs word h rfl rfl ha', farStore_storesAs word h rfl rfl ha',
        farStore_storesAs float h rfl rfl ha', farStore_storesAs float32 h rfl rfl ha',
        fun hd => farStore_storesAs pair h rfl ((hpair d).mpr hd) ha'⟩
    · have ha' := hunpair a ha
      simp only [List.mem_cons, List.not_mem_nil, or_false] at hi
      rcases hi with rfl | rfl | rfl | rfl | rfl | rfl
      all_goals exact farStore_illegal h rfl (.inr ha')
  · intro s th x l before after g t
    exact ⟨fun hnone => seenByte_gatedMore_untouched s th hnone, fun hobj haddr hlast => seenByte_gatedMore_last s th before hobj haddr hlast,
      fun hx => seenByte_other s l hx _, rfl⟩

/-- Settles O24: `access` takes its checks in order. -/
theorem accessesThatDoNotComplete : Obligations.AccessesThatDoNotComplete := by
  unfold Obligations.AccessesThatDoNotComplete
  intro s th op ls e line holder
  refine ⟨access_fault, fun htranslate => ⟨access_afterEnd htranslate, fun hend => ⟨access_overflow htranslate hend, fun hlines hconflict => ?_⟩⟩⟩
  rw [access_conflict htranslate hend hlines hconflict]
  refine ⟨fun holder_younger => ?_, fun holder_older => ?_⟩
  · rw [if_pos holder_younger, waitFor_thr]
    exact ⟨rfl, rfl, _, rfl, rfl, rfl⟩
  · rw [if_neg (Nat.not_lt.mpr holder_older)]
    exact conflictRestart_thr s th line

end Sys2Proof.Proofs
end

section
/-! PROOFS. The completion of stores, COMMIT and ABORT, parked accesses and signals (R103, R104, R107, R109, R110, R117 to R119, R142, R172,
R186 to R190). -/

namespace Sys2Proof.Machine

/-- An instruction that retires between two retry points leaves whatever of the thread is not its registers, the gated stores, the commit
set's bytes or the checkpoint. -/
theorem retryPoint_finish_field {α : Type} (f : Thread → α) (hb : ∀ t, f (bare t) = f t)
    (hc : ∀ (t : Thread) (g : List GStore) (c : Arch) (n : Nat), f { t with gated := g, ck := c, sinceCk := n } = f t)
    (he : ∀ (t : Thread), f { t with entering := none } = f t) (s : State) (th : ThreadId) (a : Arch) :
    f (thr (retryPoint (finish s th a) th) th) = f { thr s th with arch := stepPc a } := by
  rw [retryPoint_field f hb hc, finish, retire_field f hb (fun t g c n => (he _).trans (hc t g c n)), thr_setArch_same]

/-! A waiting MOOR (R186 to R188). -/

section Moor
variable {s : State} {th : ThreadId}

theorem moorSettle_not_waiting (h : (thr s th).run ≠ .moor) : moorSettle s th = s := by
  unfold moorSettle
  exact if_neg h

variable (hmoor : (thr s th).run = .moor) (hfail : (thr s th).failures = [])
include hmoor hfail

theorem moorSettle_incomplete (hstores : (thr s th).stores ≠ []) : moorSettle s th = s := by
  unfold moorSettle
  extract_lets t
  rw [if_pos hmoor, show t.failures = [] from hfail]
  exact if_neg (by simpa [t] using hstores)

theorem moorSettle_complete (hstores : (thr s th).stores = []) : moorSettle s th =
    retryPoint (finish (modThr s th (fun t => { t with run := .active, moorAt := none })) th (regsOf s th)) th := by
  unfold moorSettle
  extract_lets t
  rw [if_pos hmoor, show t.failures = [] from hfail]
  exact if_pos (by simpa [t] using hstores)

/-- A MOOR whose last store has completed retires (R186). -/
theorem moorSettle_retires (hstores : (thr s th).stores = []) :
    regsOf (moorSettle s th) th = stepPc (regsOf s th) ∧ (thr (moorSettle s th) th).run = .active ∧
      (thr (moorSettle s th) th).stores = [] ∧ (thr (moorSettle s th) th).moorAt = none := by
  have h := retryPoint_finish_field (fun t => (t.arch, t.run, t.stores, t.moorAt)) (fun _ => rfl) (fun _ _ _ _ => rfl) (fun _ => rfl)
    (modThr s th (fun t => { t with run := .active, moorAt := none })) th (regsOf s th)
  rw [← moorSettle_complete hmoor hfail hstores, thr_modThr_same, hstores] at h
  simp only [Prod.mk.injEq] at h
  exact h

end Moor

/-- What a confirmation leaves outstanding: for a HOST store it is the flushing read, which completes every store of its port (R188). -/
def storesLeft (stores : List OStore) (o : OStore) : List OStore :=
  stores.filter (fun x => if isHostStore o.kind then !(match o.kind with
    | .host p _ => hostOn p x
    | _ => false) else x.id != o.id)

section Completion
variable {s : State} {th : ThreadId} {o : OStore} (hfind : (thr s th).stores.find? (fun x => x.id == o.id) = some o)
include hfind

theorem storeCompletion_confirmed (hentered : o.waiting = []) (hhost : isHostStore o.kind = true → (thr s th).run = .moor) (bs : List Byte) :
    exec (.storeCompletion th o.id (.ok bs)) s =
      .next (moorSettle (setThr s th { thr s th with stores := storesLeft (thr s th).stores o }) th) := by
  show execStoreCompletion th o.id (.ok bs) s = _
  unfold execStoreCompletion storesLeft
  extract_lets t
  rw [show t.stores.find? _ = some o from hfind]
  cases hkind : o.kind with
  | device n => simp [hkind, hentered, isHostStore, t]
  | otherBasin b => simp [hkind, hentered, isHostStore, t]
  | host p a => simp [hkind, hentered, isHostStore, t, hhost (by rw [hkind]; rfl)]

/-- The reported drop of a DEVICE store of a running handler is recorded (R188, R190). -/
theorem storeCompletion_dropped {n : Nat} (hkind : o.kind = .device n) (hrun : (thr s th).run = .active) (hseq : (thr s th).seq ≠ 0)
    (hended : (thr s th).ended = .no) : exec (.storeCompletion th o.id .error) s =
      .next (setThr (modThr s th (fun t => { t with stores := t.stores.filter (fun x => x.id != o.id) })) th { thr s th with
        stores := (thr s th).stores.filter (fun x => x.id != o.id),
        failures := (thr s th).failures ++ [{ id := o.id, va := o.va, reason := 4, host := false }] }) := by
  have hfail : execStoreCompletion th o.id .error s = .next (failStore s th o 4) := by
    unfold execStoreCompletion
    simp only [hfind, hkind]
  refine hfail.trans (congrArg Host.Outcome.next ?_)
  unfold failStore recordFails
  extract_lets u t
  have ht : t = { thr s th with stores := (thr s th).stores.filter (fun x => x.id != o.id) } := thr_modThr_same ..
  rw [if_neg (by simp [ht, hrun, hseq, hended]), hkind, moorSettle_not_waiting, ht]
  · rfl
  · rw [thr_setThr_same, ht]
    simp [hrun]

end Completion

/-! COMMIT and ABORT (R103, R104, R109, R110). -/

/-- The report of an outcome that FAILED (R103). -/
def failReport (status len : Nat) (hval : Word) : EndReport := { committed := false, status := status, value := hval, resultLen := len }

theorem thr_modCons (s : State) (seq : Nat) (f : Cons → Cons) (th : ThreadId) : thr (modCons s seq f) th = thr s th := rfl

/-- The state in which an ABORT has decided the outcome, before it retires (R103, R110). -/
def abortDecided (s : State) (th : ThreadId) (status len : Nat) : State :=
  modCons (modThr (cancelWork (dropCset s th) th) th (fun t => { t with run := .active, ended := .aborted, hostXlatFail := false }))
    (thr s th).seq (fun c => { c with report := some (failReport status len (regsOf s th).hval), phase := .ended })

theorem abortDecided_thr (s : State) (th : ThreadId) (status len : Nat) : thr (abortDecided s th status len) th = { thr s th with
    run := .active, ended := .aborted, hostXlatFail := false, csetLines := [], csetBytes := [],
    gated := (thr s th).gated.filter (fun g => decide (g.obj ≠ .ledger)), cp := Vector.replicate 3 .idle, jobs := Vector.replicate 8 0,
    keySlots := Vector.replicate 4 {} } := by
  unfold abortDecided
  rw [thr_modCons, thr_modThr_same, cancelWork_thr, dropCset_thr]

theorem abortDecided_cons {s : State} {th : ThreadId} {c : Cons} (hc : consOf s (thr s th).seq = some c) (status len : Nat) :
    consOf (abortDecided s th status len) (thr s th).seq =
      some { c with report := some (failReport status len (regsOf s th).hval), phase := .ended } := by
  refine modCons_held (c := c) ?_ _
  show mget (cancelWork (dropCset s th) th).cons _ = _
  rw [cancelWork_cons, dropCset_cons]
  exact hc

theorem abortNow_retires (s : State) (th : ThreadId) (status len : Nat) :
    abortNow s th status len = retryPoint (finish (abortDecided s th status len) th (regsOf s th)) th := by
  have harch : (thr (abortDecided s th status len) th).arch = regsOf s th := by
    rw [abortDecided_thr]
    rfl
  rw [← harch]
  rfl

/-- ABORT, where no store is gated: the commit set is gone, the outcome is decided, and the instruction retires (R103, R110). -/
theorem abortNow_outcome {s : State} {th : ThreadId} {c : Cons} (hgate : (thr s th).gated = []) (hc : consOf s (thr s th).seq = some c)
    (status len : Nat) :
    let u := abortNow s th status len
    (thr u th).ended = .aborted ∧ (thr u th).csetLines = [] ∧ (thr u th).csetBytes = [] ∧ (thr u th).run = .active ∧
      regsOf u th = stepPc (regsOf s th) ∧
      consOf u (thr s th).seq = some { c with report := some (failReport status len (regsOf s th).hval), phase := .ended } := by
  intro u
  have hthr := abortDecided_thr s th status len
  obtain ⟨hbeside, hretired⟩ := finish_retryPoint_quiet (s := abortDecided s th status len) (th := th) (by rw [hthr, hgate]; rfl) (regsOf s th)
  rw [← abortNow_retires, hthr] at hretired
  rw [← abortNow_retires] at hbeside
  have hcons := (field_of_besideThreads hbeside (consOf · (thr s th).seq) fun _ => rfl).trans (abortDecided_cons hc status len)
  change _ ∧ _ ∧ _ ∧ _ ∧ (thr u th).arch = _ ∧ _
  rw [show thr u th = _ from hretired]
  exact ⟨rfl, rfl, rfl, rfl, rfl, hcons⟩

/-- A group sent takes the stored bytes of the commit set, and the thread parks until the commit point (R86, R109). -/
theorem sendGroup_outcome {s : State} {th : ThreadId} {seq : Nat} {c : Cons} (hc : consOf s seq = some c) (r : EndReport) :
    let u := sendGroup s th seq r
    (thr u th).run = .commit 4 ∧ (thr u th).ended = .commitSent ∧ regsOf u th = regsOf s th ∧
      ∃ c', consOf u seq = some c' ∧ c'.group = (thr s th).csetBytes ∧ c'.groupSent = true ∧ c'.report = some r := by
  intro u
  have hthr : thr u th = { thr s th with run := .commit 4, ended := .commitSent } := by
    unfold u sendGroup
    rw [thr_modCons, thr_modThr_same]
  unfold regsOf
  rw [hthr]
  exact ⟨rfl, rfl, rfl, _, modCons_held (c := c) hc _, rfl, rfl, rfl⟩

theorem hostWaits_eq_false {t : Thread} (h : t.stores.all (fun o => !(isHostStore o.kind) || o.waiting.isEmpty) = true) : hostWaits t = false := by
  unfold hostWaits
  rw [List.any_eq_false]
  intro o ho
  have := List.all_eq_true.mp h o ho
  cases hk : isHostStore o.kind <;> simp_all

/-- A COMMIT that waits for nothing sends its group (R109 step 4). -/
theorem commitAdvance_sends {s : State} {th : ThreadId} {c : Cons} (hrun : (thr s th).run = .commit 1) (hc : consOf s (thr s th).seq = some c)
    (hjobs : jobsRun s th = false) (hfail : (thr s th).failures = []) (hxlat : (thr s th).hostXlatFail = false)
    (hwaits : hostWaits (thr s th) = false) (hplain : fCompress c.desc = false) : commitAdvance s th =
      sendGroup s th (thr s th).seq { committed := true, status := 0, value := (regsOf s th).hval, resultLen := (regsOf s th).rlen.toNat } := by
  unfold commitAdvance
  simp [hrun, hc, hjobs, hfail, hxlat, hwaits, hplain, oldestFail]
  rfl

/-- The state in which COMMIT and ABORT act: the instruction is fetched and the gated stores are released (R336). -/
def settledStores (s : State) (th : ThreadId) : State := retryPoint (fetched s th) th

/-- Releasing the gated stores changes of the thread the gate, the commit set's bytes, the checkpoint and what the fetch holds. -/
theorem settledStores_field {α : Type} (f : Thread → α) (hb : ∀ t, f (bare t) = f t)
    (hc : ∀ (t : Thread) (g : List GStore) (c : Arch) (n : Nat), f { t with gated := g, ck := c, sinceCk := n } = f t)
    (hf : ∀ (t : Thread) l y, f { t with tlb := l, yielded := y } = f t) (s : State) (th : ThreadId) :
    f (thr (settledStores s th) th) = f (thr s th) :=
  (retryPoint_field f hb hc _ _).trans (fetched_field f hf s th)

theorem settledStores_consOf (s : State) (th : ThreadId) (seq : Nat) : consOf (settledStores s th) seq = consOf s seq :=
  (congrArg (mget · seq) (retryPoint_cons (fetched s th) th)).trans (fetched_consOf s th seq)

theorem settledStores_jobsRun (s : State) (th : ThreadId) : jobsRun (settledStores s th) th = jobsRun s th :=
  (field_of_far (retryPoint_far (fetched s th) th) (jobsRun · th) fun _ => rfl).trans
    (field_of_besideThreads (fetched_besideThreads s th) (jobsRun · th) fun _ => rfl)

theorem consOf_modThr (s : State) (th : ThreadId) (f : Thread → Thread) (seq : Nat) : consOf (modThr s th f) seq = consOf s seq := rfl
theorem jobsRun_modThr (s : State) (th x : ThreadId) (f : Thread → Thread) : jobsRun (modThr s th f) x = jobsRun s x := rfl

/-- The state in which a COMMIT begins its steps (R109). -/
def commitParked (s : State) (th : ThreadId) : State := modThr (settledStores s th) th (fun t => { t with run := .commit 1 })

theorem commitParked_thr (s : State) (th : ThreadId) :
    let t := thr (commitParked s th) th
    t.run = .commit 1 ∧ t.seq = (thr s th).seq ∧ t.arch = regsOf s th ∧ t.failures = (thr s th).failures ∧
      t.hostXlatFail = (thr s th).hostXlatFail ∧ t.stores = (thr s th).stores := by
  have hkept := settledStores_field (fun t => (t.seq, t.arch, t.failures, t.hostXlatFail, t.stores)) (fun _ => rfl) (fun _ _ _ _ => rfl)
    (fun _ _ _ => rfl) s th
  simp only [Prod.mk.injEq] at hkept
  unfold commitParked
  rw [thr_modThr_same]
  generalize thr (settledStores s th) th = t at hkept
  exact ⟨rfl, hkept⟩

theorem commitParked_csetBytes (s : State) (th : ThreadId) :
    (thr (commitParked s th) th).csetBytes = (thr (settledStores s th) th).csetBytes := by
  unfold commitParked
  rw [thr_modThr_same]

theorem commitParked_consOf (s : State) (th : ThreadId) (seq : Nat) : consOf (commitParked s th) seq = consOf s seq := by
  rw [commitParked, consOf_modThr, settledStores_consOf]

theorem commitParked_jobsRun (s : State) (th : ThreadId) : jobsRun (commitParked s th) th = jobsRun s th := by
  rw [commitParked, jobsRun_modThr, settledStores_jobsRun]

section Commit
variable {s : State} {th : ThreadId} {c : Cons} (h : ready s th) (hc : consOf s (thr s th).seq = some c)
include h hc

theorem execCommit_illegal (hended : (thr s th).ended ≠ .no) : exec (.commit th 0 0 0) s = raises s th excIllegal := by
  show execCommit th 0 0 0 s = _
  unfold execCommit
  rw [issue_ready h]
  simp [hc, hended, raises]

theorem execAbort_illegal (hended : (thr s th).ended ≠ .no) : exec (.abort th 0 0 0) s = raises s th excIllegal := by
  show execAbort th 0 0 0 s = _
  unfold execAbort
  rw [issue_ready h]
  simp [hc, hended, raises]

variable (hended : (thr s th).ended = .no)
include hended

theorem execCommit_first : exec (.commit th 0 0 0) s = .next (
    if c.desc.dstLen.toNat < (regsOf s th).rlen.toNat then abortNow (settledStores s th) th 0x0403 (regsOf s th).rlen.toNat
    else commitAdvance (modThr (settledStores s th) th (fun t => { t with run := .commit 1 })) th) := by
  show execCommit th 0 0 0 s = _
  unfold execCommit
  rw [issue_ready h]
  simp [hc, hended, orderForm, settledStores]

theorem execAbort_first : exec (.abort th 0 0 0) s = .next (
    abortNow (settledStores s th) th (if c.expired then 0x0503 else 0x0603) 0) := by
  show execAbort th 0 0 0 s = _
  unfold execAbort
  rw [issue_ready h]
  simp [hc, hended, orderForm, settledStores]

/-- A COMMIT that waits for nothing sends its group at once (R109). -/
theorem execCommit_sends (hfit : (regsOf s th).rlen.toNat ≤ c.desc.dstLen.toNat) (hjobs : jobsRun s th = false)
    (hfail : (thr s th).failures = []) (hxlat : (thr s th).hostXlatFail = false)
    (hhost : (thr s th).stores.all (fun o => !(isHostStore o.kind) || o.waiting.isEmpty) = true) (hplain : fCompress c.desc = false) :
    exec (.commit th 0 0 0) s = .next (sendGroup (commitParked s th) th (thr s th).seq
      { committed := true, status := 0, value := (regsOf s th).hval, resultLen := (regsOf s th).rlen.toNat }) := by
  obtain ⟨hrun, hseq, harch, hfail', hxlat', hstores⟩ := commitParked_thr s th
  rw [execCommit_first h hc hended, if_neg (Nat.not_lt.mpr hfit)]
  change Host.Outcome.next (commitAdvance (commitParked s th) th) = _
  rw [commitAdvance_sends hrun (by rw [commitParked_consOf, hseq, hc]) (by rw [commitParked_jobsRun, hjobs]) (by rw [hfail', hfail])
    (by rw [hxlat', hxlat]) (hostWaits_eq_false (by rw [hstores]; exact hhost)) hplain, hseq, regsOf, harch]

end Commit

/-! Parked accesses and signals (R107, R117 to R119, R142, R189). -/

section Parked
variable {s : State} {th : ThreadId} {w : Wait} (hwait : (thr s th).wait = some w) (hrun : running s = true)
  (hstop : (basinOf s th.basin.val).checkstopped = false)
include hwait hrun hstop

theorem execParkedAccessResume_hold {p l : Nat} (hwhy : w.why = .hold p l) :
    exec (.parkedAccessResume th) s = .next (if holdEnded s th p l then resumeAccess s th else s) := by
  show execParkedAccessResume th s = _
  simp [execParkedAccessResume, hwait, hrun, hstop, hwhy]

/-- A younger thread starts its handler again once the hold it met has ended (R107). -/
theorem execParkedAccessResume_restart {p l : Nat} {c : Cons} (hwhy : w.why = .restart p l) (hc : consOf s (thr s th).seq = some c)
    (hfree : holdEnded s th p l = true) : exec (.parkedAccessResume th) s = .next (enterHandler s th (thr s th).seq c) := by
  show execParkedAccessResume th s = _
  simp [execParkedAccessResume, hwait, hrun, hstop, hwhy, hc, hfree]

theorem execParkedAccessResume_adoption {b : BasinId} (hwhy : w.why = .adoption b)
    (hhome : (basinOf s b.val).adopted = true ∨ (basinOf s b.val).checkstopped = false) :
    exec (.parkedAccessResume th) s = .next (resumeAccess s th) := by
  have hgo : ¬ ((basinOf s b.val).checkstopped ∧ !(basinOf s b.val).adopted) := by
    rcases hhome with h | h
    · simp [h]
    · simp [h]
  show execParkedAccessResume th s = _
  unfold execParkedAccessResume
  simp only [hwait, hrun, hstop, hwhy, Bool.not_true, Bool.false_eq_true, or_self, if_false, if_neg hgo]

theorem execParkedAccessResume_island {n : Nat} (hwhy : w.why = .island n) (hon : (islandOf s n).state = 3)
    (hreset : (islandOf s n).reset = false) : exec (.parkedAccessResume th) s = .next (resumeAccess s th) := by
  show execParkedAccessResume th s = _
  simp [execParkedAccessResume, hwait, hrun, hstop, hwhy, hon, hreset]

end Parked

/-- A handler that starts again waits for nothing and has its entry registers (R107). -/
theorem enterHandler_registers (s : State) (th : ThreadId) (seq : Nat) (c : Cons) :
    (thr (enterHandler s th seq c) th).wait = none ∧ regsOf (enterHandler s th seq c) th = entryArch s th c := by
  unfold enterHandler regsOf
  extract_lets t a u
  rw [thr_setThr_same]
  exact ⟨rfl, rfl⟩

/-- The thread in which an EVENT has been entered (R118): parked on nothing, its counter 0. -/
def eventEntered (t : Thread) (b : Arch) (g : List GStore) (n : Nat) : Thread :=
  { t with run := .active, wait := none, moorAt := none, arch := b, gated := g, entering := some (3, n), sigEv := 0 }

theorem eventEntered_retryPoint (s : State) (th : ThreadId) (t : Thread) (b : Arch) (g : List GStore) (n : Nat) :
    let u := thr (retryPoint (setThr s th (eventEntered t b g n)) th) th
    u.arch = b ∧ u.ck = b ∧ u.run = .active ∧ u.wait = none ∧ u.sigEv = 0 ∧ u.sigDl = t.sigDl ∧ u.sigMc = t.sigMc := by
  have hbare := retryPoint_bare (setThr s th (eventEntered t b g n)) th
  rw [thr_setThr_same] at hbare
  generalize thr (retryPoint (setThr s th (eventEntered t b g n)) th) th = u at hbare
  have hread := congrArg (fun t : Thread => (t.arch, t.ck, t.run, t.wait, t.sigEv, t.sigDl, t.sigMc)) hbare
  simpa only [Prod.mk.injEq, bare, eventEntered] using hread

theorem execSignalEntry_none {s : State} {th : ThreadId} (htakes : takesSignal s th = true)
    (hnone : signalAbove (thr s th) (prio (regsOf s th)) = none) : exec (.signalEntry th) s = .next s := by
  show execSignalEntry th s = _
  unfold execSignalEntry
  extract_lets t
  rw [if_neg (by simp [htakes]), show signalAbove t (prio t.arch) = none from hnone]

theorem execSignalEntry_event {s : State} {th : ThreadId} {sig : Nat × Nat × Nat} {b : Arch} {g : List GStore}
    (htakes : takesSignal s th = true) (hsig : signalAbove (thr s th) (prio (regsOf s th)) = some sig) (hevent : sig.1 = 3)
    (hidle : (thr s th).entering = none)
    (henter : enter s th (regsOf s th) sig.2.1 3 (regsOf s th).pc (BitVec.ofNat 24 sig.2.2) (BitVec.ofNat 24 sig.2.1) = some (b, g)) :
    exec (.signalEntry th) s = .next (retryPoint (setThr s th (eventEntered (thr s th) b g sig.2.2)) th) := by
  have hentered : execSignalEntry th s = .next (enterSignal s th sig) := by
    unfold execSignalEntry
    extract_lets t
    rw [if_neg (by simp [htakes]), show signalAbove t (prio t.arch) = some sig from hsig]
    simp only [t, hidle]
  refine hentered.trans (congrArg Host.Outcome.next ?_)
  unfold enterSignal
  extract_lets t a
  rw [hevent, show enter s th a sig.2.1 3 a.pc _ _ = some (b, g) from henter]
  rfl

end Sys2Proof.Machine

namespace Sys2Proof.Proofs
open Sys2Proof.Machine

/-- Settles O28: a confirmation leaves storesLeft outstanding, on which a waiting MOOR settles. -/
theorem storesComplete : Obligations.StoresComplete := by
  unfold Obligations.StoresComplete
  intro s th o bs t r host left hfind hentered
  have hconfirmed (hhost : host = true → t.run = .moor) :
      exec (.storeCompletion th o.id (.ok bs)) s = .next (moorSettle (setThr s th { t with stores := left }) th) :=
    storeCompletion_confirmed hfind hentered hhost bs
  have hthr : thr (setThr s th { t with stores := left }) th = { t with stores := left } := thr_setThr_same ..
  refine ⟨fun hrun hnear => ?_, fun hrun hleft hfail => ?_, fun hrun hleft hfail => ?_, fun n hkind hrun hseq hended => ?_⟩
  · rw [hconfirmed (by simp [hnear]), moorSettle_not_waiting (by rw [hthr]; simp [hrun])]
  · rw [hconfirmed (fun _ => hrun), moorSettle_incomplete (by rw [hthr]; exact hrun) (by rw [hthr]; exact hfail) (by rw [hthr]; exact hleft)]
  · have hretires := moorSettle_retires (s := setThr s th { t with stores := left }) (th := th) (by rw [hthr]; exact hrun)
      (by rw [hthr]; exact hfail) (by rw [hthr]; exact hleft)
    rw [show regsOf (setThr s th { t with stores := left }) th = r by unfold regsOf; rw [hthr]; rfl] at hretires
    exact ⟨_, hconfirmed (fun _ => hrun), hretires⟩
  · exact ⟨_, storeCompletion_dropped hfind hkind hrun hseq hended, thr_setThr_same .., rfl⟩

/-- Settles O30: COMMIT and ABORT act once the gated stores are released; what they decide is abortNow_outcome or sendGroup. -/
theorem commitAndAbort : Obligations.CommitAndAbort := by
  unfold Obligations.CommitAndAbort
  intro s th c h r t rlen hc aborts
  have hregs : regsOf (settledStores s th) th = r := settledStores_field Thread.arch (fun _ => rfl) (fun _ _ _ _ => rfl) (fun _ _ _ => rfl) s th
  have hseq : (thr (settledStores s th) th).seq = t.seq :=
    settledStores_field Thread.seq (fun _ => rfl) (fun _ _ _ _ => rfl) (fun _ _ _ => rfl) s th
  have hcons : consOf (settledStores s th) (thr (settledStores s th) th).seq = some c := by rw [hseq, settledStores_consOf, hc]
  have haborts {i : Instr} {status len : Nat} (hi : exec i s = .next (abortNow (settledStores s th) th status len)) : aborts i status len := by
    have houtcome := abortNow_outcome (s := settledStores s th) (retryPoint_gated (fetched s th) th) hcons status len
    rw [hregs, hseq] at houtcome
    exact ⟨_, hi, houtcome⟩
  refine ⟨fun hended hfit hjobs hfail hxlat hhost hplain => ?_, fun hended hlong => haborts ?_, fun hended => haborts (execAbort_first h hc hended),
    fun hended => ⟨execCommit_illegal h hc hended, execAbort_illegal h hc hended⟩⟩
  · obtain ⟨hrun, hsent, hkeep, c', hc', hgroup, hgroupSent, hreport⟩ := sendGroup_outcome (s := commitParked s th) (th := th)
      ((commitParked_consOf s th t.seq).trans hc) { committed := true, status := 0, value := r.hval, resultLen := rlen }
    obtain ⟨-, -, harch, -⟩ := commitParked_thr s th
    exact ⟨_, c', execCommit_sends h hc hended hfit hjobs hfail hxlat hhost hplain, hrun, hsent, hkeep.trans harch, hc',
      hgroup.trans (commitParked_csetBytes s th), hgroupSent, hreport⟩
  · rw [execCommit_first h hc hended, if_pos hlong]

/-- Settles O45: a resume and a signal's entry come to one operation each, whose thread is read off it. -/
theorem parkedThreadsAndSignals : Obligations.ParkedThreadsAndSignals := by
  unfold Obligations.ParkedThreadsAndSignals
  intro s th w c sig b g t
  refine ⟨fun hwait hrun hstop => ?_, fun htakes => ⟨fun hnone => execSignalEntry_none htakes hnone, fun hsig hevent hidle henter => ?_⟩⟩
  · refine ⟨fun p l hwhy => execParkedAccessResume_hold hwait hrun hstop hwhy, fun p l hwhy hc hfree => ?_,
      fun a hwhy hhome => execParkedAccessResume_adoption hwait hrun hstop hwhy hhome,
      fun n hwhy hon hreset => execParkedAccessResume_island hwait hrun hstop hwhy hon hreset⟩
    obtain ⟨hactive, hseq, -, hgated, -⟩ := enterHandler_thr s th t.seq c
    obtain ⟨hnowait, hregs⟩ := enterHandler_registers s th t.seq c
    exact ⟨_, execParkedAccessResume_restart hwait hrun hstop hwhy hc hfree, hactive, hnowait, hseq, hregs, hgated⟩
  · refine ⟨_, execSignalEntry_event htakes hsig hevent hidle henter, ?_⟩
    exact eventEntered_retryPoint s th t b g sig.2.2

end Sys2Proof.Proofs
end

section
/-! PROOFS. Submits to the coprocessors CP0 to CP2, the key slots and the coprocessors that do not exist (R111, R112, R154, R261, R263, R270,
R309). -/

namespace Sys2Proof.Machine

/-! What a request reads (R177, R196, R197): the caches are filled, and host bytes are free values. -/

/-- A state without the memories, the caches and the count of free values: what reads of a coprocessor or an engine change. -/
def besideReads (s : State) : State := { s with mem := {}, coh := [], pcache := [], freeCtr := 0 }

theorem field_of_besideReads {α : Type} {s t : State} (h : besideReads t = besideReads s) (f : State → α)
    (hf : ∀ x, f (besideReads x) = f x) : f t = f s := by
  rw [← hf t, h, hf]

theorem besideReads_of_outside {s t : State} (h : outside t = outside s) : besideReads t = besideReads s := by
  have k := congrArg (fun x : State => { x with freeCtr := 0 }) h
  exact k

@[simp] theorem streamFills_outside (s : State) (th : ThreadId) (ls : List Loc) : outside (streamFills s th ls) = outside s :=
  outside_foldl _ (fun _ _ => outside_ite (fetchShared_outside _ _ _ _) rfl) _ _

theorem readRange_besideReads (s : State) (th : ThreadId) (ls : List Loc) : besideReads (readRange s th ls).1 = besideReads s := by
  unfold readRange
  extract_lets u bs
  have hu : besideReads u = besideReads s := besideReads_of_outside (streamFills_outside s th ls)
  show besideReads (if _ then _ else _) = _
  split
  · exact hu
  · exact hu

theorem readInputs_besideReads (th : ThreadId) (l : List (Bool × List Loc)) (s : State) :
    besideReads (readInputs s th l).1 = besideReads s := by
  induction l generalizing s with
  | nil => rfl
  | cons x l ih =>
    obtain ⟨w, ls⟩ := x
    unfold readInputs
    split
    · exact ih s
    · exact (ih _).trans (readRange_besideReads s th ls)

/-! The end of a submit (R261, R309, R336). -/

theorem stepPc_wr (a : Arch) (d : RegField) (v : Word) : stepPc (wr a d v) = { wr a d v with pc := a.pc + 3 } := by
  rw [stepPc, wr_pc]

/-- A submit with no gated store retires with rCD written: beside its thread nothing changes. -/
theorem submitDone_outcome {s : State} {th : ThreadId} (hgate : (thr s th).gated = []) (cd : RegField) (v : Word) :
    besideThreads (submitDone s th cd v) = besideThreads s ∧
      thr (submitDone s th cd v) th = { thr s th with
        arch := { wr (regsOf s th) cd v with pc := (regsOf s th).pc + 3 }, ck := { wr (regsOf s th) cd v with pc := (regsOf s th).pc + 3 },
        sinceCk := 0, entering := none } := by
  obtain ⟨hbeside, hthr⟩ := finish_retryPoint_quiet hgate (wr (regsOf s th) cd v)
  rw [stepPc_wr] at hthr
  exact ⟨hbeside, hthr⟩

theorem submitDone_cpq (s : State) (th : ThreadId) (cd : RegField) (v : Word) (p : Nat) :
    (pierOf (submitDone s th cd v) p).cpq = (pierOf s p).cpq :=
  (retryPoint_cpq _ _ _).trans (retire_cpq _ _ _)

/-! The outcomes of a submit (R104, R111, R154). -/

/-- A request joins the queue of its unit, or of the Strongroom (R111, R263). -/
def enqueueCp (s : State) (th : ThreadId) (n : Fin 3) (toUnit : Bool) (q : SReq) : State :=
  if toUnit then
    setPier s th.pier.val { pierOf s th.pier.val with
      cpq := (pierOf s th.pier.val).cpq.set n.val ((pierOf s th.pier.val).cpq.get n ++ [th.inPier]) n.isLt }
  else { s with sroom := { s.sroom with queue := s.sroom.queue ++ [q] } }

theorem enqueueCp_thr (s : State) (th : ThreadId) (n : Fin 3) (toUnit : Bool) (q : SReq) (x : ThreadId) :
    thr (enqueueCp s th n toUnit q) x = thr s x := by
  unfold enqueueCp
  split <;> rfl

/-- The address of a request block (R137, R154). -/
def blockVa (s : State) (th : ThreadId) (ca : RegField) : Nat := nearVa (regsOf s th) (rd (regsOf s th) ca)

section Submit
variable {s : State} {th : ThreadId} {n : Fin 3} {cd ca : RegField} {size cfn : Nat} {rw precise toUnit : Bool}
  {prep : State → List Byte → Except Word (List DataRange)} (h : ready s th)
include h

theorem cpSubmit_busy (hbusy : (thr s th).ended ≠ .no ∨ (thr s th).cp.get n ≠ .idle) :
    cpSubmit th n cd ca size cfn rw precise toUnit prep s = takeExn (fetched s th) th excIllegal := by
  unfold cpSubmit
  rw [issue_ready h]
  extract_lets t off va
  exact if_pos (by simpa only [t, fetched_ended, fetched_cp] using hbusy)

variable (hended : (thr s th).ended = .no) (hidle : (thr s th).cp.get n = .idle)
include hended hidle

theorem cpSubmit_misaligned (halign : (rd (regsOf s th) ca).toNat % 8 ≠ 0) :
    cpSubmit th n cd ca size cfn rw precise toUnit prep s = takeExn (fetched s th) th (excLoad 4 (blockVa s th ca)) := by
  unfold cpSubmit blockVa
  rw [issue_ready h]
  simp only [fetched_ended, fetched_cp, regsOf_fetched, hended, hidle, ne_eq, not_true_eq_false, or_self, if_false]
  exact if_pos halign

variable (halign : (rd (regsOf s th) ca).toNat % 8 = 0) {bl bw : List Loc}
  (hblock : translate (fetched s th) th .load (blockVa s th ca) size = .ok bl)
  (hwrite : rw = true → translate (fetched s th) th .store (blockVa s th ca) size = .ok bw)
include halign hblock hwrite

/-- A block that the coprocessor turns down posts its status at once. -/
theorem cpSubmit_refused {w : Word} (hprep : prep (fetched s th) (bl.map (seenByte (fetched s th) th)) = .error w) :
    cpSubmit th n cd ca size cfn rw precise toUnit prep s =
      submitDone (setCp (settledStores s th) th n (.posted w)) th cd 0 := by
  unfold cpSubmit settledStores
  unfold blockVa at hblock hwrite
  rw [issue_ready h]
  simp only [fetched_ended, fetched_cp, regsOf_fetched, hended, hidle, halign, ne_eq, not_true_eq_false, or_self, if_false, hblock]
  cases rw with
  | false => simp [hprep]
  | true => simp [hwrite, hprep]

/-- A good block whose ranges touch no ledgered line is queued with its inputs as memory stands. -/
theorem cpSubmit_queued {rs : List DataRange} {all : List (Bool × List Loc)}
    (hprep : prep (fetched s th) (bl.map (seenByte (fetched s th) th)) = .ok rs) (hranges : gatherLocs (fetched s th) th rs = .ok all)
    (hlines : linesOf (all.flatMap (·.2)) = []) : ∃ restarts,
    cpSubmit th n cd ca size cfn rw precise toUnit prep s =
      let u := readInputs (settledStores s th) th all
      let block := bl.map (seenByte (fetched s th) th)
      submitDone (enqueueCp (setCp u.1 th n (.queued cfn (rd (regsOf s th) ca).toNat block u.2)) th n toUnit
        { kind := .cp1 th cfn block u.2, seq := (thr s th).seq, restarts := restarts }) th cd 0 := by
  unfold cpSubmit settledStores
  unfold blockVa at hblock hwrite
  rw [issue_ready h]
  simp only [fetched_ended, fetched_cp, fetched_seq, regsOf_fetched, hended, hidle, halign, ne_eq, not_true_eq_false, or_self, if_false, hblock]
  cases rw with
  | false =>
    simp only [Bool.false_eq_true, if_false, hprep, hranges, withLines, hlines, List.isEmpty_nil, if_true]
    exact ⟨_, rfl⟩
  | true =>
    simp only [hwrite, if_true, hprep, hranges, withLines, hlines, List.isEmpty_nil]
    exact ⟨_, rfl⟩

end Submit

/-- A request's state changes nothing else of its thread, and nothing beside it. -/
theorem setCp_thr (s : State) (th : ThreadId) (n : Fin 3) (q : CpReq) :
    thr (setCp s th n q) th = { thr s th with cp := (thr s th).cp.set n.val q n.isLt } := thr_modThr_same ..

/-- A submit at a retry point leaves the request as it was set, and its registers are those of the instruction. -/
theorem submitDone_setCp {v u : State} {th : ThreadId} {n : Fin 3} {q : CpReq} (hgate : (thr v th).gated = [])
    (hu : thr u th = thr (setCp v th n q) th) (cd : RegField) (w : Word) :
    regsOf (submitDone u th cd w) th = { wr (regsOf v th) cd w with pc := (regsOf v th).pc + 3 } ∧
      (thr (submitDone u th cd w) th).cp.get n = q := by
  rw [setCp_thr] at hu
  obtain ⟨-, hthr⟩ := submitDone_outcome (s := u) (th := th) (by rw [hu]; exact hgate) cd w
  have hregs : regsOf u th = regsOf v th := by
    unfold regsOf
    rw [hu]
  rw [hregs, hu] at hthr
  change (thr _ th).arch = _ ∧ _
  rw [hthr]
  exact ⟨rfl, by simp [Vector.get_eq_getElem]⟩

/-- The registers and the gate of a thread whose instruction is fetched and whose gated stores are released. -/
theorem settledStores_regsOf (s : State) (th : ThreadId) : regsOf (settledStores s th) th = regsOf s th := by
  unfold regsOf settledStores
  rw [retryPoint_arch, regsOf_fetched]
  rfl

theorem settledStores_gated (s : State) (th : ThreadId) : (thr (settledStores s th) th).gated = [] := retryPoint_gated ..

theorem settledStores_cpq (s : State) (th : ThreadId) (p : Nat) : (pierOf (settledStores s th) p).cpq = (pierOf s p).cpq := by
  unfold settledStores
  rw [retryPoint_cpq, fetched_pierOf]

theorem settledStores_sroom (s : State) (th : ThreadId) : (settledStores s th).sroom = s.sroom := by
  unfold settledStores
  rw [field_of_far (retryPoint_far (fetched s th) th) State.sroom fun _ => rfl, fetched_sroom]

/-- What a request's reads leave of the state in which it began. -/
theorem readInputs_reads {s v : State} {th : ThreadId} (h : besideReads v = besideReads (settledStores s th)) :
    (thr v th).gated = [] ∧ regsOf v th = regsOf s th ∧ (∀ p, (pierOf v p).cpq = (pierOf s p).cpq) ∧ v.sroom = s.sroom := by
  have hthr := field_of_besideReads h (thr · th) fun _ => rfl
  refine ⟨(congrArg Thread.gated hthr).trans (settledStores_gated s th), (congrArg Thread.arch hthr).trans (settledStores_regsOf s th),
    fun p => ?_, ?_⟩
  · exact (field_of_besideReads h (fun u => (pierOf u p).cpq) fun _ => rfl).trans (settledStores_cpq s th p)
  · exact (field_of_besideReads h State.sroom fun _ => rfl).trans (settledStores_sroom s th)

/-- What a queued request leaves of the state: its thread's registers, the request, and the queue it has joined. -/
theorem submitDone_enqueueCp {v : State} {th : ThreadId} {n : Fin 3} (hgate : (thr v th).gated = []) (cd : RegField) (req : CpReq)
    (toUnit : Bool) (q : SReq) :
    let t := submitDone (enqueueCp (setCp v th n req) th n toUnit q) th cd 0
    regsOf t th = { wr (regsOf v th) cd 0 with pc := (regsOf v th).pc + 3 } ∧ (thr t th).cp.get n = req ∧
      (toUnit = true → (pierOf t th.pier.val).cpq.get n = (pierOf v th.pier.val).cpq.get n ++ [th.inPier]) ∧
      (toUnit = false → t.sroom.queue = v.sroom.queue ++ [q]) := by
  intro t
  have hsame := enqueueCp_thr (setCp v th n req) th n toUnit q th
  obtain ⟨hregs, hcp⟩ := submitDone_setCp hgate hsame cd 0
  refine ⟨hregs, hcp, fun hunit => ?_, fun hunit => ?_⟩
  · rw [submitDone_cpq, enqueueCp, if_pos hunit, pierOf_setPier_same]
    simp only [Vector.get_eq_getElem, Vector.getElem_set_self]
    rfl
  · have hgate' : (thr (enqueueCp (setCp v th n req) th n toUnit q) th).gated = [] := by
      rw [hsame, setCp_thr]
      exact hgate
    have hsroom := field_of_besideThreads (submitDone_outcome hgate' cd 0).1 State.sroom fun _ => rfl
    rw [show t.sroom = _ from hsroom, enqueueCp, if_neg (by simp [hunit])]
    rfl

/-- The submits of the coprocessors are cpSubmit with their block size, function and checks. -/
theorem submitsAs_of_cpSubmit {s : State} {th : ThreadId} {cd ca : RegField} {i : Instr} {n : Fin 3} {size cfn : Nat}
    {rw precise toUnit : Bool} {prep : List Byte → Except Word (List DataRange)} (h : ready s th)
    (hi : exec i s = .next (cpSubmit th n cd ca size cfn rw precise toUnit (fun _ b => prep b) s)) (hrw : rw = true → n = 0)
    (hunit : toUnit = true ↔ (n ≠ 1 ∨ 0x10 ≤ cfn)) : submitsAs s th cd ca i n size cfn prep := by
  refine ⟨fun hbusy => hi.trans (congrArg _ (cpSubmit_busy h hbusy)), fun hended hidle => ⟨fun halign => ?_, fun bl bw halign hblock hwrite => ?_⟩⟩
  · exact hi.trans (congrArg _ (cpSubmit_misaligned h hended hidle halign))
  · refine ⟨fun w hprep => ?_, fun rs all hprep hranges hlines => ?_⟩
    · rw [cpSubmit_refused h hended hidle halign hblock (fun e => hwrite (hrw e)) hprep] at hi
      obtain ⟨hregs, hcp⟩ := submitDone_setCp (u := setCp (settledStores s th) th n (.posted w)) (settledStores_gated s th) rfl cd 0
      rw [settledStores_regsOf] at hregs
      exact ⟨_, hi, hcp, hregs⟩
    · obtain ⟨restarts, hqueued⟩ := cpSubmit_queued (cd := cd) (cfn := cfn) (precise := precise) (toUnit := toUnit)
        (prep := fun _ b => prep b) h hended hidle halign hblock (fun e => hwrite (hrw e)) hprep hranges hlines
      have hreads := readInputs_besideReads th all (settledStores s th)
      generalize readInputs (settledStores s th) th all = x at hqueued hreads
      obtain ⟨v, ins⟩ := x
      dsimp only at hqueued hreads
      generalize bl.map (seenByte (fetched s th) th) = block at hqueued ⊢
      rw [hqueued] at hi
      obtain ⟨hgate, hregs, hcpq, hsroom⟩ := readInputs_reads hreads
      obtain ⟨hput, hcp, hpier, hstrong⟩ := submitDone_enqueueCp (n := n) hgate cd (.queued cfn (rd (regsOf s th) ca).toNat block ins) toUnit
        { kind := .cp1 th cfn block ins, seq := (thr s th).seq, restarts := restarts }
      rw [hregs] at hput
      rw [hcpq] at hpier
      rw [hsroom] at hstrong
      refine ⟨_, hi, hput, ins, hcp, fun hu => hpier (hunit.mpr hu), fun ⟨hcp1, hlow⟩ => ⟨_, hstrong ?_, rfl, rfl⟩⟩
      simpa [hcp1, Nat.not_le.mpr hlow] using hunit

/-! The key slots (R261), and coprocessors that do not exist (R154). -/

theorem slotOf_of_keySlots {s t : State} {th : ThreadId} (h : (thr t th).keySlots = (thr s th).keySlots) (n : Nat) :
    slotOf t th n = slotOf s th n := by
  unfold slotOf
  rw [h]

theorem finish_keySlots (s : State) (th : ThreadId) (a : Arch) : (thr (finish s th a) th).keySlots = (thr s th).keySlots := by
  unfold finish
  rw [retire_field Thread.keySlots (fun _ => rfl) (fun _ _ _ _ => rfl), thr_setArch_same]

theorem finish_regsOf (s : State) (th : ThreadId) (a : Arch) : regsOf (finish s th a) th = stepPc a := by
  unfold finish regsOf
  rw [retire_arch, thr_setArch_same]

theorem setSlot_arch (s : State) (th : ThreadId) (n : Nat) (k : KeySlot) : (thr (setSlot s th n k) th).arch = (thr s th).arch := by
  unfold setSlot
  rw [thr_modThr_same]

theorem slotOf_setSlot_same (s : State) (th : ThreadId) {n : Nat} (hn : n < 4) (k : KeySlot) : slotOf (setSlot s th n k) th n = k := by
  unfold slotOf setSlot
  rw [thr_modThr_same]
  simp [hn, Vector.get_eq_getElem]

theorem slotOf_setSlot_other (s : State) (th : ThreadId) {n m : Nat} (h : m ≠ n) (k : KeySlot) :
    slotOf (setSlot s th n k) th m = slotOf s th m := by
  unfold slotOf setSlot
  rw [thr_modThr_same]
  split
  · split
    · simp [Vector.get_eq_getElem, h.symm]
    · rfl
  · rfl

/-- What SLOT_INFO says of a slot (R261). -/
def slotInfoWord (k : KeySlot) : Word :=
  if k.full then BitVec.ofNat 24 (k.usage + k.alg * 2 ^ 16 + modeCode k.mode * 2 ^ 20) else 0

theorem execSlotClear_ready {s : State} {th : ThreadId} (h : ready s th) (cd ca : RegField) : exec (.slotClear th cd ca) s =
    .next (finish (setSlot (fetched s th) th ((rd (regsOf s th) ca).toNat % 4) {}) th (wr (regsOf s th) cd 0)) := by
  show Host.Outcome.next (slotInstr th cd ca _ s) = _
  unfold slotInstr
  rw [issue_ready h, regsOf_fetched]
  simp only [setSlot_arch, regsOf_fetched]

theorem execSlotInfo_ready {s : State} {th : ThreadId} (h : ready s th) (cd ca : RegField) : exec (.slotInfo th cd ca) s =
    .next (finish (fetched s th) th (wr (regsOf s th) cd (slotInfoWord (slotOf s th ((rd (regsOf s th) ca).toNat % 4))))) := by
  show Host.Outcome.next (slotInstr th cd ca _ s) = _
  unfold slotInstr
  rw [issue_ready h, regsOf_fetched]
  simp only [regsOf_fetched, slotOf_of_keySlots (fetched_keySlots s th)]
  rfl

end Sys2Proof.Machine

namespace Sys2Proof.Proofs
open Sys2Proof.Machine

/-- Settles O40: every submit is cpSubmit with its size, function and checks; the slot instructions read or clear one slot. -/
theorem coprocessorSubmits : Obligations.CoprocessorSubmits := by
  unfold Obligations.CoprocessorSubmits
  intro s th cd ca n cfn h r slot put
  have submit {i : Instr} {n : Fin 3} {size cfn : Nat} {rw precise toUnit : Bool} {prep : List Byte → Except Word (List DataRange)}
      (hi : exec i s = .next (cpSubmit th n cd ca size cfn rw precise toUnit (fun _ b => prep b) s)) (hrw : rw = true → n = 0)
      (hunit : toUnit = true ↔ (n ≠ 1 ∨ 0x10 ≤ cfn)) := submitsAs_of_cpSubmit h hi hrw hunit
  refine ⟨submit rfl (by decide) (by decide), submit rfl (by decide) (by decide), submit rfl (by decide) (by decide),
    submit rfl (by decide) (by decide), submit rfl (by decide) (by decide), submit rfl (by decide) (by decide),
    submit rfl (by decide) (by decide), submit rfl (by decide) (by decide), submit rfl (by decide) (by decide),
    submit rfl (by decide) (by decide), submit rfl (by decide) (by decide), submit rfl (by decide) (by decide),
    submit rfl (by decide) (by decide), submit rfl (by decide) (by decide), submit rfl (by decide) (by decide),
    submit rfl (by decide) (by decide), submit rfl (by decide) (by decide), ?_, ?_, ?_⟩
  · refine ⟨_, execSlotClear_ready h cd ca, ?_, ?_, fun k _ hk => ?_⟩
    · rw [slotOf_of_keySlots (finish_keySlots ..)]
      exact slotOf_setSlot_same _ th (Nat.mod_lt _ (by decide)) _
    · rw [finish_regsOf, stepPc_wr]
    · rw [slotOf_of_keySlots (finish_keySlots ..), slotOf_setSlot_other _ th hk, slotOf_of_keySlots (fetched_keySlots s th)]
  · refine ⟨_, execSlotInfo_ready h cd ca, ?_, fun hempty => ?_, fun hfull => ?_⟩
    · rw [finish_keySlots, fetched_keySlots]
    · rw [finish_regsOf, stepPc_wr, slotInfoWord, if_neg (by rw [hempty]; decide)]
    · rw [finish_regsOf, stepPc_wr, slotInfoWord, if_pos hfull]
  · exact congrArg Host.Outcome.next (issue_ready h _)

end Sys2Proof.Proofs
end

section
/-! PROOFS. SUBMIT of CP3, the posting of results and the ends of coprocessor requests (R104, R110 to R112, R115, R116, R155). -/

namespace Sys2Proof.Machine

/-! The course of jobs and the erasure of keys leave the rest of the state, and what a job is, alone. -/

/-- A state without the jobs, their numbers, the free values and the Strongroom: what the course of jobs changes. -/
def offJobs (s : State) : State := { s with jobs := [], nextJob := 0, freeCtr := 0, sroom := {} }

/-- The thread, the mailbox entry, the function and the consignment of a job. -/
def jobIs (j : Job) : Option ThreadId × Nat × Nat × Nat := (j.th, j.mbox, j.fn, j.seq)

/-- What the course of jobs leaves alone: the rest of the state, and what a job is. -/
def asideJobs (id : Nat) (s : State) : State × Option (Option ThreadId × Nat × Nat × Nat) := (offJobs s, (jobOf s id).map jobIs)

theorem field_of_offJobs {α : Type} {s t : State} (h : offJobs t = offJobs s) (f : State → α) (hf : ∀ x, f (offJobs x) = f x) :
    f t = f s := by
  rw [← hf t, h, hf]

theorem asideJobs_parts {id : Nat} {s t : State} (h : asideJobs id t = asideJobs id s) :
    offJobs t = offJobs s ∧ (jobOf t id).map jobIs = (jobOf s id).map jobIs := Prod.mk.inj h

section Course
variable (id : Nat)

theorem modJob_asideJobs (s : State) (i : Nat) (f : Job → Job) (hf : ∀ j, jobIs (f j) = jobIs j) :
    asideJobs id (modJob s i f) = asideJobs id s := by
  refine Prod.ext rfl ?_
  simp only [asideJobs, jobOf, modJob, mget_mmod]
  split
  · simp only [Option.map_map, Function.comp_def, hf]
  · rfl

theorem askKeys_asideJobs (s : State) (i : Nat) : asideJobs id (askKeys s i) = asideJobs id s := by
  unfold askKeys
  cases jobOf s i with
  | none => rfl
  | some j => exact modJob_asideJobs id s i _ (fun _ => rfl)

theorem grantContexts_asideJobs (k : Nat) (s : State) : asideJobs id (grantContexts k s) = asideJobs id s := by
  induction k generalizing s with
  | zero => rfl
  | succ k ih =>
    unfold grantContexts
    split
    · rfl
    · split
      · rfl
      · exact (ih _).trans (askKeys_asideJobs ..)

theorem assignOne_asideJobs (s : State) (k : EngineKind) : asideJobs id (assignOne s k) = asideJobs id s := by
  unfold assignOne
  split
  · rfl
  · extract_lets us
    split
    · exact modJob_asideJobs id s _ _ (fun _ => rfl)
    · rfl

theorem assignAll_asideJobs (k : EngineKind) (n : Nat) (s : State) : asideJobs id (iter (fun s => assignOne s k) n s) = asideJobs id s := by
  induction n generalizing s with
  | zero => rfl
  | succ n ih => exact (ih _).trans (assignOne_asideJobs ..)

theorem assignUnits_asideJobs (s : State) : asideJobs id (assignUnits s) = asideJobs id s := by
  unfold assignUnits
  simp only [assignAll_asideJobs, grantContexts_asideJobs]

theorem jobEnd_asideJobs (s : State) (i status len value : Nat) : asideJobs id (jobEnd s i status len value) = asideJobs id s :=
  modJob_asideJobs id s i _ (fun _ => rfl)

theorem jobResult_asideJobs (s : State) (i : Nat) (o : Nat × List Byte × Nat) : asideJobs id (jobResult s i o) = asideJobs id s :=
  (jobEnd_asideJobs ..).trans (modJob_asideJobs id { s with freeCtr := s.freeCtr + 1 } i _ (fun _ => rfl))

theorem jobReady_asideJobs (s : State) (i : Nat) : asideJobs id (jobReady s i) = asideJobs id s := by
  have hstage (f : Job → Job) (hf : ∀ j, jobIs (f j) = jobIs j) :
      asideJobs id (assignUnits (modJob { s with nextJob := s.nextJob + 1 } i f)) = asideJobs id s :=
    (assignUnits_asideJobs ..).trans (modJob_asideJobs id { s with nextJob := s.nextJob + 1 } i f hf)
  unfold jobReady
  cases jobOf s i with
  | none => rfl
  | some j =>
    simp -zeta only
    extract_lets alg
    split
    · exact jobResult_asideJobs ..
    · exact hstage _ fun _ => rfl
    · exact hstage _ fun _ => rfl

theorem jobEnter_asideJobs (s : State) (i : Nat) : asideJobs id (jobEnter s i) = asideJobs id s := by
  unfold jobEnter
  cases jobOf s i with
  | none => rfl
  | some j =>
    simp -zeta only
    split
    · exact (grantContexts_asideJobs ..).trans (modJob_asideJobs id { s with nextJob := s.nextJob + 1 } i _ (fun _ => rfl))
    · split
      · exact jobReady_asideJobs ..
      · exact askKeys_asideJobs ..

/-- A source that has come leaves what the job is, whether the job is refused or enters (R515). -/
theorem jobSource_asideJobs (s : State) (i : Nat) (src : List Byte) : asideJobs id (jobSource s i src) = asideJobs id s := by
  unfold jobSource
  extract_lets u
  have hu : asideJobs id u = asideJobs id s := modJob_asideJobs id s i _ (fun _ => rfl)
  clear_value u
  split
  · exact hu
  · split
    · exact (jobEnd_asideJobs ..).trans hu
    · exact (jobEnter_asideJobs ..).trans hu

theorem modKey_asideJobs (s : State) (k : Nat) (f : Key → Key) : asideJobs id (modKey s k f) = asideJobs id s := rfl

theorem journalAdd_asideJobs (s : State) (r : JRec) : asideJobs id (journalAdd s r) = asideJobs id s := rfl

theorem persistKey_asideJobs (s : State) (k st : Nat) : asideJobs id (persistKey s k st) = asideJobs id s :=
  (journalAdd_asideJobs ..).trans (modKey_asideJobs ..)

theorem reapKeys_asideJobs (s : State) : asideJobs id (reapKeys s) = asideJobs id s := by
  unfold reapKeys
  refine List.foldlRecOn (motive := fun u => asideJobs id u = asideJobs id s) _ _ rfl fun u hu e _ => ?_
  extract_lets v
  have hv : asideJobs id v = asideJobs id u := (persistKey_asideJobs ..).trans (modKey_asideJobs ..)
  clear_value v
  split
  · exact (modKey_asideJobs ..).trans (hv.trans hu)
  · exact hv.trans hu

end Course

/-- A dropped job is gone, and beside jobs and keys nothing changes. -/
theorem dropJob_outcome (s : State) (id : Nat) : offJobs (dropJob s id) = offJobs s ∧ jobOf (dropJob s id) id = none := by
  have h : asideJobs id (dropJob s id) = asideJobs id { s with jobs := mdel s.jobs id } :=
    (reapKeys_asideJobs id _).trans (assignUnits_asideJobs id _)
  obtain ⟨hrest, hjob⟩ := asideJobs_parts h
  have hgone : jobOf { s with jobs := mdel s.jobs id } id = none := mget_mdel_same ..
  rw [hgone] at hjob
  exact ⟨hrest, Option.map_eq_none_iff.mp hjob⟩

/-! Mailbox entries (R115, R116). -/

theorem mboxState_mailEntry (s : State) (th : ThreadId) (i state status len value : Nat) :
    mboxState (mailEntry s th i state status len value) th i = state % 256 :=
  (mboxState_nearWrite _ th i (BitVec.ofNat 8 state) _).trans (by simp)

/-- A shared fetch of a line reaches no more of memory than HBM and the caches. -/
theorem BesideCaches.fetchShared {P : State → Prop} (hP : BesideCaches P) {s : State} (h : P s) (p line age : Nat) :
    P (fetchShared s p line age) := by
  have h1 := hP.l3Fetch h (pierBasin p) line age
  refine prop_ite h1 ?_
  split
  · exact hP.l2Install (hP.coh h1 _ _) _ _ _ _ _ _
  · exact hP.l2Install (hP.coh h1 _ _) _ _ _ _ _ _
  · exact hP.l2Install (hP.coh (hP.l2SetState (prop_ite h1 (hP.l3Write h1 _ _ _ _)) _ _ _) _ _) _ _ _ _ _ _
  · exact hP.l2Install (hP.coh h1 _ _) _ _ _ _ _ _

theorem mailEntry_thr (s : State) (th : ThreadId) (i state status len value : Nat) (x : ThreadId) :
    thr (mailEntry s th i state status len value) x = thr s x := rfl
theorem mailEntry_jobs (s : State) (th : ThreadId) (i state status len value : Nat) : (mailEntry s th i state status len value).jobs = s.jobs := rfl
theorem mboxState_modThr (s : State) (th x : ThreadId) (f : Thread → Thread) (i : Nat) : mboxState (modThr s th f) x i = mboxState s x i := rfl

/-- The reads of a coprocessor or an engine change no near segment. -/
theorem readRange_near (s : State) (th : ThreadId) (ls : List Loc) : (readRange s th ls).1.mem.near = s.mem.near := by
  have hP : BesideCaches fun u => u.mem.near = s.mem.near := ⟨fun h _ _ _ => h, fun h _ _ => h, fun h _ _ => h⟩
  have hfills : (streamFills s th ls).mem.near = s.mem.near :=
    List.foldlRecOn (motive := fun u : State => u.mem.near = s.mem.near) _ _ rfl fun u hu line _ =>
      prop_ite (P := fun v : State => v.mem.near = s.mem.near) (hP.fetchShared hu _ _ _) hu
  unfold readRange
  extract_lets u bs
  exact prop_ite (P := fun v : State => v.mem.near = s.mem.near) hfills hfills

/-! SUBMIT of CP3 (R104, R115, R155). -/

/-- A mailbox entry that SUBMIT may take (R115). -/
def mboxFree (s : State) (th : ThreadId) (i : Nat) : Prop := mboxState s th i = 0 ∨ mboxState s th i = 3

theorem find_free_mailbox {s : State} {th : ThreadId} {i : Nat} (hi : i < 8) (hfree : mboxFree s th i) (hlow : ∀ j < i, ¬ mboxFree s th j) :
    (List.range 8).find? (fun i => mboxState s th i == 0 || mboxState s th i == 3) = some i :=
  find_mailbox hi (by simpa [mboxFree] using hfree) fun j hj => by simpa [mboxFree] using hlow j hj

theorem find_full_mailbox {s : State} {th : ThreadId} (hfull : ∀ j < 8, ¬ mboxFree s th j) :
    (List.range 8).find? (fun i => mboxState s th i == 0 || mboxState s th i == 3) = none :=
  find_no_mailbox fun j hj => by simpa [mboxFree] using hfull j hj

/-- The job of a SUBMIT in the state in which it is made: its entry is in state 1, and its source is still to be read (R115). -/
def submitMade (s : State) (th : ThreadId) (i : Nat) (j : Job) : State :=
  modThr (mailEntry { s with nextJob := s.nextJob + 1, jobs := mset s.jobs s.nextJob { j with stage := .reading } } th i 1 0 0 0) th
    (fun t => { t with jobs := if h : i < 8 then t.jobs.set i s.nextJob h else t.jobs })

/-- The job of a good block, for its thread, its mailbox entry and its consignment (R115). -/
def submitJob (s : State) (th : ThreadId) (i seq : Nat) (j : Job) : Job :=
  { j with seq := seq, attempt := ((consOf s seq).map (·.attempt)).getD 1, tenant := ((consOf s seq).map (·.tenant)).getD 0,
           th := some th, mbox := i }

/-- The source of a job of CP3 is read at once, but for one in host memory (R115, R177). -/
def submitRead (s : State) (th : ThreadId) (id : Nat) (ls : List Loc) : State :=
  if ls.any (fun l => decide (l.obj = .host)) then s else jobSource (readRange s th ls).1 id (readRange s th ls).2

section Submit3
variable {s : State} {th : ThreadId} {cd ca : RegField} (h : ready s th) (hended : (thr s th).ended = .no)
include h hended

theorem execSubmit_misaligned (halign : (rd (regsOf s th) ca).toNat % 8 ≠ 0) :
    exec (.submit th cd ca) s = raises s th (excLoad 4 (blockVa s th ca)) := by
  show execSubmit th cd ca s = _
  unfold execSubmit blockVa
  rw [issue_ready h]
  simp only [fetched_ended, regsOf_fetched, hended, ne_eq, not_true_eq_false, if_false]
  rw [if_pos halign]
  rfl

variable (halign : (rd (regsOf s th) ca).toNat % 8 = 0) {bl : List Loc}
  (hblock : translate (fetched s th) th .load (blockVa s th ca) 48 = .ok bl)
include halign hblock

theorem execSubmit_full (hfull : ∀ j < 8, ¬ mboxFree (fetched s th) th j) :
    exec (.submit th cd ca) s = .next (submitDone (settledStores s th) th cd 0xFFFFFF) := by
  show execSubmit th cd ca s = _
  unfold execSubmit settledStores
  unfold blockVa at hblock
  rw [issue_ready h]
  simp only [fetched_ended, regsOf_fetched, hended, halign, ne_eq, not_true_eq_false, if_false, hblock, find_full_mailbox hfull]

variable {i : Nat} (hi : i < 8) (hfree : mboxFree (fetched s th) th i) (hlow : ∀ j < i, ¬ mboxFree (fetched s th) th j)
include hi hfree hlow

/-- A block that R115 turns down posts its disposition. -/
theorem execSubmit_refused {st : Nat} (hjob : jobBlock (bl.map (seenByte (fetched s th) th)) = .error st) : exec (.submit th cd ca) s =
    .next (submitDone (mailEntry (settledStores s th) th i 2 st 0 0) th cd (BitVec.ofNat 24 i)) := by
  show execSubmit th cd ca s = _
  unfold execSubmit settledStores
  unfold blockVa at hblock
  rw [issue_ready h]
  simp only [fetched_ended, regsOf_fetched, hended, halign, ne_eq, not_true_eq_false, if_false, hblock, find_free_mailbox hi hfree hlow, hjob]

/-- A good block gets a job of the thread, whose source is read at once but from host memory. -/
theorem execSubmit_taken {j : Job} {all : List (Bool × List Loc)} (hjob : jobBlock (bl.map (seenByte (fetched s th) th)) = .ok j)
    (hranges : gatherLocs (fetched s th) th [{ va := fieldLe (bl.map (seenByte (fetched s th) th)) 8 8, len := j.srcLen },
      { write := true, va := j.dst, len := j.dstLen }] = .ok all) (hlines : linesOf (all.flatMap (·.2)) = []) :
    exec (.submit th cd ca) s = .next (submitDone (submitRead
      (submitMade (settledStores s th) th i (submitJob (settledStores s th) th i (thr s th).seq j)) th (settledStores s th).nextJob
      ((all.head?.map (·.2)).getD [])) th cd (BitVec.ofNat 24 i)) := by
  show execSubmit th cd ca s = _
  unfold execSubmit
  unfold blockVa at hblock
  rw [issue_ready h]
  simp only [fetched_ended, fetched_seq, regsOf_fetched, hended, halign, ne_eq, not_true_eq_false, if_false, hblock,
    find_free_mailbox hi hfree hlow, hjob, hranges, withLines, hlines, List.isEmpty_nil, if_true]
  rw [show retryPoint (fetched s th) th = settledStores s th from rfl]
  generalize settledStores s th = u
  rfl

end Submit3

theorem submitMade_outcome (s : State) (th : ThreadId) (i : Nat) (j : Job) :
    (thr (submitMade s th i j) th).gated = (thr s th).gated ∧ (thr (submitMade s th i j) th).arch = (thr s th).arch ∧
      mboxState (submitMade s th i j) th i = 1 ∧ jobOf (submitMade s th i j) s.nextJob = some { j with stage := .reading } := by
  unfold submitMade
  rw [thr_modThr_same, mailEntry_thr, mboxState_modThr, mboxState_mailEntry]
  exact ⟨rfl, rfl, rfl, mget_mset_same ..⟩

theorem readRange_reads (s : State) (th : ThreadId) (ls : List Loc) (id : Nat) :
    thr (readRange s th ls).1 th = thr s th ∧ (∀ i, mboxState (readRange s th ls).1 th i = mboxState s th i) ∧
      jobOf (readRange s th ls).1 id = jobOf s id := by
  have hreads := readRange_besideReads s th ls
  have hnear := readRange_near s th ls
  generalize (readRange s th ls).1 = v at hreads hnear
  refine ⟨field_of_besideReads hreads (thr · th) fun _ => rfl, fun i => ?_, field_of_besideReads hreads (jobOf · id) fun _ => rfl⟩
  unfold mboxState
  rw [hnear]

theorem jobSource_reads (s : State) (th : ThreadId) (id : Nat) (src : List Byte) :
    thr (jobSource s id src) th = thr s th ∧ (∀ i, mboxState (jobSource s id src) th i = mboxState s th i) ∧
      (jobOf (jobSource s id src) id).map jobIs = (jobOf s id).map jobIs := by
  have haside := jobSource_asideJobs id s id src
  generalize jobSource s id src = v at haside
  obtain ⟨hoff, hjobs⟩ := asideJobs_parts haside
  exact ⟨field_of_offJobs hoff (thr · th) fun _ => rfl, fun i => field_of_offJobs hoff (mboxState · th i) fun _ => rfl, hjobs⟩

/-- Whether its source is read or waited for, the thread, its mailbox and what the job is stay. -/
theorem submitRead_reads (s : State) (th : ThreadId) (id : Nat) (ls : List Loc) :
    thr (submitRead s th id ls) th = thr s th ∧ (∀ i, mboxState (submitRead s th id ls) th i = mboxState s th i) ∧
      (jobOf (submitRead s th id ls) id).map jobIs = (jobOf s id).map jobIs := by
  unfold submitRead
  split
  · exact ⟨rfl, fun _ => rfl, rfl⟩
  · obtain ⟨hthr, hmbox, hjob⟩ := readRange_reads s th ls id
    generalize readRange s th ls = x at hthr hmbox hjob
    obtain ⟨hthr', hmbox', hjob'⟩ := jobSource_reads x.1 th id x.2
    refine ⟨hthr'.trans hthr, fun i => (hmbox' i).trans (hmbox i), ?_⟩
    rw [hjob', hjob]

/-- What SUBMIT leaves once its job is made: no gated store, the entry in state 1, and the job, whatever becomes of its source. -/
theorem submitRead_outcome {s : State} {th : ThreadId} {i : Nat} (hgate : (thr s th).gated = []) (j : Job) (ls : List Loc) :
    (thr (submitRead (submitMade s th i j) th s.nextJob ls) th).gated = [] ∧
      regsOf (submitRead (submitMade s th i j) th s.nextJob ls) th = regsOf s th ∧
      mboxState (submitRead (submitMade s th i j) th s.nextJob ls) th i = 1 ∧
      ∃ k, jobOf (submitRead (submitMade s th i j) th s.nextJob ls) s.nextJob = some k ∧ jobIs k = jobIs j := by
  obtain ⟨hgated, harch, hmbox, hjob⟩ := submitMade_outcome s th i j
  generalize submitMade s th i j = v at hgated harch hmbox hjob
  obtain ⟨hsame, hentry, hkept⟩ := submitRead_reads v th s.nextJob ls
  generalize submitRead v th s.nextJob ls = u at hsame hentry hkept
  rw [hjob] at hkept
  obtain ⟨k, hk, his⟩ := Option.map_eq_some_iff.mp hkept
  refine ⟨?_, ?_, (hentry i).trans hmbox, k, hk, his⟩
  · rw [hsame, hgated, hgate]
  · unfold regsOf
    rw [hsame, harch]

theorem settledStores_jobs (s : State) (th : ThreadId) : (settledStores s th).jobs = s.jobs ∧ (settledStores s th).nextJob = s.nextJob := by
  unfold settledStores
  rw [field_of_far (retryPoint_far (fetched s th) th) State.jobs fun _ => rfl,
    field_of_far (retryPoint_far (fetched s th) th) State.nextJob fun _ => rfl, fetched_jobs, fetched_nextJob]
  exact ⟨rfl, rfl⟩

/-- What a submit of CP3 leaves of the state before it retires, and its registers. -/
theorem submitDone_reads {s : State} {th : ThreadId} (hgate : (thr s th).gated = []) (cd : RegField) (v : Word) :
    regsOf (submitDone s th cd v) th = { wr (regsOf s th) cd v with pc := (regsOf s th).pc + 3 } ∧
      (submitDone s th cd v).jobs = s.jobs ∧ ∀ i, mboxState (submitDone s th cd v) th i = mboxState s th i := by
  obtain ⟨hbeside, hthr⟩ := submitDone_outcome hgate cd v
  generalize submitDone s th cd v = t at hbeside hthr ⊢
  refine ⟨?_, field_of_besideThreads hbeside State.jobs fun _ => rfl, fun i => field_of_besideThreads hbeside (mboxState · th i) fun _ => rfl⟩
  rw [regsOf, hthr]

/-! The posting of results (R112, R116). -/

/-- A failed job is posted to its entry, whose thread goes on as it was (R116). -/
theorem execJobPosted_failed {s : State} {th : ThreadId} {id : Nat} {j : Job} (hj : jobOf s id = some j) (hth : j.th = some th)
    (hfin : j.finished = true) (hlive : j.cancelled = false) (hstatus : j.status ≠ 0) (hmbox : j.mbox < 8)
    (hrun : (thr s th).run = .active) : exec (.jobPosted id) s = .next (modThr (mailEntry (dropJob s id) th j.mbox 2 j.status j.resultLen 0) th
      (fun t => { t with jobs := t.jobs.set j.mbox 0 hmbox })) := by
  have hthr : thr (mailEntry (dropJob s id) th j.mbox 2 j.status j.resultLen 0) th = thr s th := by
    have hrest := (dropJob_outcome s id).1
    rw [mailEntry_thr]
    generalize dropJob s id = v at hrest
    exact field_of_offJobs hrest (thr · th) fun _ => rfl
  show execJobPosted id s = _
  unfold execJobPosted
  simp only [hj, hth, hfin, hlive, hstatus, hmbox, Bool.not_true, Bool.false_eq_true, if_false, ne_eq, not_false_eq_true, true_or, if_true, dif_pos,
    thr_modThr_same, hthr, hrun]

theorem execCoprocessorResultPosted_live {s : State} {pier : PierId} {cp : Fin 3} {head : Nat} {more : List Nat}
    (hqueue : (pierOf s pier.val).cpq.get cp = head :: more) (hlive : head < 64) (hrun : running s = true)
    (hstop : (basinOf s (pier.val / 4)).checkstopped = false) : exec (.coprocessorResultPosted pier cp) s =
      .next (runRequest (setPier s pier.val { pierOf s pier.val with cpq := (pierOf s pier.val).cpq.set cp.val more cp.isLt })
        ⟨pier.val * 64 + head % 64, by omega⟩ cp) := by
  show execCoprocessorResultPosted pier cp s = _
  unfold execCoprocessorResultPosted
  simp [hqueue, hrun, hstop, Nat.not_le.mpr hlive]

end Sys2Proof.Machine

namespace Sys2Proof.Proofs
open Sys2Proof.Machine

/-- Settles O41: SUBMIT comes to one of execSubmit's outcomes, and neither its reads nor the course of its job (asideJobs) touches its
entry or its thread. -/
theorem jobsOfThreads : Obligations.JobsOfThreads := by
  unfold Obligations.JobsOfThreads
  intro s th cd ca bl i st j all id pier cp head more r u va free put
  have hput {v : State} (hgate : (thr v th).gated = []) (hregs : regsOf v th = r) (w : Word) : regsOf (submitDone v th cd w) th = put w := by
    rw [(submitDone_reads hgate cd w).1, hregs]
  refine ⟨fun h hended => ⟨fun halign => execSubmit_misaligned h hended halign, fun halign hblock => ⟨fun hfull => ?_, fun hi hfree hlow =>
    ⟨fun hjob _ => ?_, fun hjob hranges hlines => ?_⟩⟩⟩, fun hj hth hfin hlive hstatus hmbox hrun => ?_,
    fun hqueue hlive hrun hstop => execCoprocessorResultPosted_live hqueue hlive hrun hstop⟩
  · refine ⟨_, execSubmit_full h hended halign hblock hfull, hput (settledStores_gated s th) (settledStores_regsOf s th) _, ?_⟩
    obtain ⟨-, hjobs, -⟩ := submitDone_reads (settledStores_gated s th) cd 0xFFFFFF
    exact hjobs.trans (settledStores_jobs s th).1
  · have hgate : (thr (mailEntry (settledStores s th) th i 2 st 0 0) th).gated = [] := by rw [mailEntry_thr, settledStores_gated]
    have hregs : regsOf (mailEntry (settledStores s th) th i 2 st 0 0) th = r := by rw [regsOf, mailEntry_thr]; exact settledStores_regsOf s th
    obtain ⟨-, hjobs, hmbox⟩ := submitDone_reads hgate cd (BitVec.ofNat 24 i)
    refine ⟨_, execSubmit_refused h hended halign hblock hi hfree hlow hjob, hput hgate hregs _, ?_, ?_⟩
    · rw [hmbox, mboxState_mailEntry]
    · rw [hjobs, mailEntry_jobs, (settledStores_jobs s th).1]
  · obtain ⟨hgate, hregs, hentry, k, hk, his⟩ := submitRead_outcome (i := i) (settledStores_gated s th)
      (submitJob (settledStores s th) th i (thr s th).seq j) ((all.head?.map (·.2)).getD [])
    have hexec := execSubmit_taken (cd := cd) h hended halign hblock hi hfree hlow hjob hranges hlines
    generalize submitRead _ th _ _ = v at hexec hgate hregs hentry hk
    obtain ⟨-, hjobs, hmbox⟩ := submitDone_reads hgate cd (BitVec.ofNat 24 i)
    simp only [jobIs, submitJob, Prod.mk.injEq] at his
    obtain ⟨hth, hbox, hfn, hseq⟩ := his
    refine ⟨_, hexec, hput hgate (hregs.trans (settledStores_regsOf s th)) _, ?_, k, ?_, hth, hbox, hfn, hseq⟩
    · rw [hmbox, hentry]
    · rw [jobOf, hjobs, ← (settledStores_jobs s th).2]
      exact hk
  · refine ⟨_, execJobPosted_failed hj hth hfin hlive hstatus hmbox hrun, ?_, ?_, ?_⟩
    · rw [mboxState_modThr, mboxState_mailEntry]
    · have hgone := (dropJob_outcome s id).2
      generalize dropJob s id = v at hgone
      exact hgone
    · rw [thr_modThr_same]
      simp [hmbox]

end Sys2Proof.Proofs
end

section
/-! PROOFS. The registers of Windlass (R128 to R130): what the reading of a register, a pair or a triple returns after a write. -/

namespace Sys2Proof.Machine

/-! Integer registers. A field is g0, one of g1 to g7, or a window register. -/

@[simp] theorem rd_zero (a : Arch) : rd a 0 = 0 := if_pos rfl

theorem rd_general (a : Arch) {d : RegField} (h0 : d.val ≠ 0) (h8 : d.val < 8) : rd a d = a.g.get ⟨d.val - 1, by omega⟩ := by
  rw [rd, if_neg h0, dif_pos h8]

theorem rd_window (a : Arch) {d : RegField} (h8 : 8 ≤ d.val) : rd a d = rdW a (d.val - 8) := by
  rw [rd, if_neg (by omega), dif_neg (by omega)]

@[simp] theorem wr_zero (a : Arch) (v : Word) : wr a 0 v = a := if_pos rfl

theorem wr_general (a : Arch) {d : RegField} (v : Word) (h0 : d.val ≠ 0) (h8 : d.val < 8) :
    wr a d v = { a with g := a.g.set (d.val - 1) v (by omega) } := by
  rw [wr, if_neg h0, dif_pos h8]

theorem wr_window (a : Arch) {d : RegField} (v : Word) (h8 : 8 ≤ d.val) : wr a d v = wrW a (d.val - 8) v := by
  rw [wr, if_neg (by omega), dif_neg (by omega)]

theorem field_ne_zero {d : RegField} : d ≠ 0 ↔ d.val ≠ 0 := not_congr Fin.val_eq_zero_iff.symm

theorem rd_wr_same (a : Arch) {d : RegField} (v : Word) (h : d ≠ 0) : rd (wr a d v) d = v := by
  have h0 := field_ne_zero.mp h
  rcases Nat.lt_or_ge d.val 8 with h8 | h8
  · simp [wr_general a v h0 h8, rd_general _ h0 h8, Vector.get_eq_getElem]
  · rw [wr_window a v h8, rd_window _ h8, rdW_wrW_same]

/-- A write of a window register leaves every other integer register. -/
theorem rd_wrW_other (a : Arch) {e : RegField} {n : Nat} (v : Word) (hn : n < 24) (h : e.val ≠ n + 8) : rd (wrW a n v) e = rd a e := by
  rcases Nat.lt_or_ge e.val 8 with h8 | h8
  · by_cases h0 : e.val = 0
    · rw [Fin.val_eq_zero_iff.mp h0, rd_zero, rd_zero]
    · rw [rd_general _ h0 h8, rd_general _ h0 h8]
      rfl
  · rw [rd_window _ h8, rd_window _ h8, rdW_wrW_other a v hn (by omega) (by omega)]

theorem rd_wr_other (a : Arch) {d e : RegField} (v : Word) (h : e ≠ d) : rd (wr a d v) e = rd a e := by
  have hne : e.val ≠ d.val := Fin.val_ne_of_ne h
  by_cases h0 : d.val = 0
  · rw [Fin.val_eq_zero_iff.mp h0, wr_zero]
  rcases Nat.lt_or_ge d.val 8 with h8 | h8
  · rw [wr_general a v h0 h8]
    unfold rd
    split
    · rfl
    · split
      · simp only [Vector.get_eq_getElem, Vector.getElem_set]
        exact if_neg (by omega)
      · rfl
  · rw [wr_window a v h8, rd_wrW_other a v (by omega) (by omega)]

/-- A write of an integer register changes the g registers and the window file alone. -/
theorem wr_frame (a : Arch) (d : RegField) (v : Word) : { wr a d v with g := a.g, win := a.win } = a := by
  unfold wr
  split
  · rfl
  · split
    · rfl
    · rfl

/-! Pairs and triples. -/

theorem pairOk_iff {d : RegField} : pairOk d = true ↔ 8 ≤ d.val ∧ d.val ≤ 30 := by simp [pairOk]
theorem pairOk_eq_false {d : RegField} (h : d.val < 8 ∨ d.val = 31) : pairOk d = false := by
  rw [← Bool.not_eq_true, pairOk_iff]
  omega
theorem tripleOk_iff {d : RegField} : tripleOk d = true ↔ 8 ≤ d.val ∧ d.val ≤ 29 := by simp [tripleOk]
theorem tripleOk_eq_false {d : RegField} (h : d.val < 8 ∨ 29 < d.val) : tripleOk d = false := by
  rw [← Bool.not_eq_true, tripleOk_iff]
  omega

section Groups
variable (a : Arch) {d e : RegField}

theorem pair_halves (v : Pair) : (v.extractLsb' 24 24 ++ v.extractLsb' 0 24 : BitVec 48) = v :=
  (BitVec.extractLsb'_append_extractLsb'_eq_extractLsb' (start₁ := 0) (len₁ := 24) rfl).trans (BitVec.extractLsb'_eq_self ..)

theorem rdPair_wrPair (v : Pair) (h : pairOk d = true) : rdPair (wrPair a d v) d = v := by
  obtain ⟨hlow, hhigh⟩ := pairOk_iff.mp h
  unfold rdPair wrPair
  rw [rdW_wrW_same, rdW_wrW_other _ _ (by omega) (by omega) (by omega), rdW_wrW_same, pair_halves]

theorem rd_wrPair_low (v : Pair) (h : pairOk d = true) : rd (wrPair a d v) d = v.extractLsb' 0 24 := by
  obtain ⟨hlow, hhigh⟩ := pairOk_iff.mp h
  unfold wrPair
  rw [rd_wrW_other _ _ (by omega) (by omega), rd_window _ hlow, rdW_wrW_same]

theorem rd_wrPair_other (v : Pair) (h : pairOk d = true) (h0 : e.val ≠ d.val) (h1 : e.val ≠ d.val + 1) : rd (wrPair a d v) e = rd a e := by
  obtain ⟨hlow, hhigh⟩ := pairOk_iff.mp h
  unfold wrPair
  rw [rd_wrW_other _ _ (by omega) (by omega), rd_wrW_other _ _ (by omega) (by omega)]

theorem triple_parts (x : BitVec 64) :
    ((((x.extractLsb' 48 16).setWidth 24).extractLsb' 0 16 ++ x.extractLsb' 24 24 : BitVec 40) ++ x.extractLsb' 0 24 : BitVec 64) = x := by
  have htop : ((x.extractLsb' 48 16).setWidth 24).extractLsb' 0 16 = x.extractLsb' 48 16 := by
    ext i hi
    simp [hi]
    omega
  have hhigh : (x.extractLsb' 48 16 ++ x.extractLsb' 24 24 : BitVec 40) = x.extractLsb' 24 40 :=
    BitVec.extractLsb'_append_extractLsb'_eq_extractLsb' (start₁ := 24) (len₁ := 24) rfl
  rw [htop, hhigh]
  exact (BitVec.extractLsb'_append_extractLsb'_eq_extractLsb' (start₁ := 0) (len₁ := 24) rfl).trans (BitVec.extractLsb'_eq_self ..)

theorem rdTriple_wrTriple (x : BitVec 64) (h : tripleOk d = true) : rdTriple (wrTriple a d x) d = x := by
  obtain ⟨hlow, hhigh⟩ := tripleOk_iff.mp h
  unfold rdTriple wrTriple
  rw [rdW_wrW_same, rdW_wrW_other _ _ (by omega) (by omega) (by omega), rdW_wrW_same, rdW_wrW_other _ _ (by omega) (by omega) (by omega),
    rdW_wrW_other _ _ (by omega) (by omega) (by omega), rdW_wrW_same, triple_parts]

theorem rd_wrTriple_low (x : BitVec 64) (h : tripleOk d = true) : rd (wrTriple a d x) d = x.extractLsb' 0 24 := by
  obtain ⟨hlow, hhigh⟩ := tripleOk_iff.mp h
  unfold wrTriple
  rw [rd_wrW_other _ _ (by omega) (by omega), rd_wrW_other _ _ (by omega) (by omega), rd_window _ hlow, rdW_wrW_same]

theorem rd_wrTriple_other (x : BitVec 64) (h : tripleOk d = true) (he : e.val < d.val ∨ d.val + 2 < e.val) :
    rd (wrTriple a d x) e = rd a e := by
  obtain ⟨hlow, hhigh⟩ := tripleOk_iff.mp h
  unfold wrTriple
  rw [rd_wrW_other _ _ (by omega) (by omega), rd_wrW_other _ _ (by omega) (by omega), rd_wrW_other _ _ (by omega) (by omega)]

/-! Floating-point registers. -/

@[simp] theorem rdF_wrF_same (x : BitVec 64) : rdF (wrF a d x) d = x := by simp [rdF, wrF, Vector.get_eq_getElem]

theorem rdF_wrF_other (x : BitVec 64) (h : e ≠ d) : rdF (wrF a d x) e = rdF a e := by
  have hne : d.val ≠ e.val := Fin.val_ne_of_ne h.symm
  simp [rdF, wrF, Vector.get_eq_getElem, hne]

end Groups

end Sys2Proof.Machine

namespace Sys2Proof.Proofs
open Sys2Proof.Machine

/-- Settles O5: reads after writes, by the kind of register. -/
theorem registerFile : Obligations.RegisterFile := by
  unfold Obligations.RegisterFile
  refine ⟨fun a d e v => ⟨rd_zero a, wr_zero a v, rd_wr_same a v, rd_wr_other a v, wr_frame a d v⟩, fun a d e v x w => ?_⟩
  exact ⟨fun h => ⟨rdPair_wrPair a v h, rd_wrPair_low a v h, rd_wrPair_other a v h⟩,
    fun h => ⟨rdTriple_wrTriple a x h, rd_wrTriple_low a x h, rd_wrTriple_other a x h⟩,
    rdF_wrF_same a _, rfl, rdF_wrF_other a _, rfl, rdF_wrF_same a x, rdF_wrF_other a x⟩

end Sys2Proof.Proofs
end

section
/-! PROOFS. The integer instructions that leave the flags alone (R146, R147, R159, R160): their results as the statements write them, and the
two shapes of instruction that compute them. -/

namespace Sys2Proof.Machine

/-! Shifts by 24 or more (R147). -/

theorem sllW_eq (x : Word) (n : Nat) : sllW x n = x <<< n := by
  unfold sllW
  split
  · exact (BitVec.shiftLeft_eq_zero ‹_›).symm
  · rfl

theorem srlW_eq (x : Word) (n : Nat) : srlW x n = x >>> n := by
  unfold srlW
  split
  · exact (BitVec.ushiftRight_eq_zero ‹_›).symm
  · rfl

/-- An arithmetic shift by 24 or more leaves copies of the sign. -/
theorem sraW_eq (x : Word) (n : Nat) : sraW x n = x.sshiftRight n := by
  unfold sraW
  split
  · ext i hi
    rw [BitVec.getElem_sshiftRight, dif_neg (by omega)]
    cases x.msb
    · exact BitVec.getElem_zero hi
    · exact BitVec.getElem_allOnes i hi
  · rfl

/-! Comparisons and products (R159, R160). -/

theorem boolW_slt (x y : Word) : boolW (x.slt y) = if x.toInt < y.toInt then 1 else 0 := by simp [boolW, BitVec.slt]
theorem boolW_ult (x y : Word) : boolW (x.ult y) = if x.toNat < y.toNat then 1 else 0 := by simp [boolW, BitVec.ult]

theorem mulS_high (x y : Word) : (mulS x y).extractLsb' 24 24 = BitVec.ofInt 24 (x.toInt * y.toInt / 2 ^ 24) := by
  apply BitVec.eq_of_toNat_eq
  simp only [mulS, BitVec.extractLsb'_toNat, BitVec.toNat_ofInt, Nat.shiftRight_eq_div_pow]
  omega

theorem mulU_high (x y : Word) : (mulU x y).extractLsb' 24 24 = BitVec.ofNat 24 (x.toNat * y.toNat / 2 ^ 24) := by
  apply BitVec.eq_of_toNat_eq
  simp only [mulU, BitVec.extractLsb'_toNat, BitVec.toNat_ofNat, Nat.shiftRight_eq_div_pow]
  omega

/-! What the shapes answer. -/

section Shapes
variable {s : State} {th : ThreadId} {d a b : RegField} (h : ready s th)
include h

theorem alu_writes {f : Word → Word → Word} {v : Word} (hv : f (rd (regsOf s th) a) (rd (regsOf s th) b) = v) :
    alu th d a b f s = writes s th d v :=
  regInstr_writes h (by rw [hv])

theorem aluImm_writes {f : Word → Word} {v : Word} (hv : f (rd (regsOf s th) a) = v) : aluImm th d a f s = writes s th d v :=
  regInstr_writes h (by rw [hv])

theorem mulPair_leaves (f : Word → Word → Pair) (hd : pairOk d = true) :
    mulPair th d a b f s = leaves s th (wrPair (regsOf s th) d (f (rd (regsOf s th) a) (rd (regsOf s th) b))) :=
  regInstr_leaves h (if_pos hd) (wrPair_pc ..)

theorem mulPair_illegal (f : Word → Word → Pair) (hd : pairOk d = false) : mulPair th d a b f s = raises s th excIllegal :=
  regInstr_raises h (if_neg (by simp [hd]))

theorem shiftImm_writes {imm : BitVec 8} {f : Word → Nat → Word} {v : Word} (himm : imm.toNat ≤ 23)
    (hv : f (rd (regsOf s th) a) imm.toNat = v) : shiftImm th d a imm f s = writes s th d v :=
  regInstr_writes h (by rw [if_pos himm, hv])

theorem shiftImm_illegal {imm : BitVec 8} (f : Word → Nat → Word) (himm : 24 ≤ imm.toNat) : shiftImm th d a imm f s = raises s th excIllegal :=
  regInstr_raises h (if_neg (by omega))

end Shapes

/-- LUI puts its immediate into bits 23:11. -/
theorem lui_value (up : BitVec 13) : (up.setWidth 24 <<< 11 : Word) = BitVec.ofNat 24 (up.toNat * 2048) := by
  apply BitVec.eq_of_toNat_eq
  have := up.isLt
  simp only [BitVec.toNat_shiftLeft, BitVec.toNat_setWidth, BitVec.toNat_ofNat, Nat.shiftLeft_eq]
  omega

theorem boolW_slt_sx8 (x : Word) (imm : BitVec 8) : boolW (x.slt (sx8 imm)) = if x.toInt < imm.toInt then 1 else 0 := by
  rw [boolW_slt, sx8, BitVec.toInt_signExtend_of_le (by decide)]

end Sys2Proof.Machine

namespace Sys2Proof.Proofs
open Sys2Proof.Machine

/-- Settles O7: each instruction is `alu` or `mulPair` of its operation. -/
theorem integerResults : Obligations.IntegerResults := by
  unfold Obligations.IntegerResults exec
  refine ⟨?_, ?_⟩
  · intro s th d a b h
    exact ⟨alu_writes h rfl, alu_writes h rfl, alu_writes h (boolW_slt ..), alu_writes h (boolW_ult ..), alu_writes h rfl, alu_writes h rfl,
      alu_writes h rfl, alu_writes h rfl, alu_writes h (sllW_eq ..), alu_writes h (srlW_eq ..), alu_writes h (sraW_eq ..),
      alu_writes h rfl, alu_writes h rfl, alu_writes h (mulS_high ..), alu_writes h (mulU_high ..), alu_writes h rfl, alu_writes h rfl,
      alu_writes h rfl, alu_writes h rfl⟩
  · intro s th d a b h
    refine ⟨fun hd => ?_, fun hd => ?_⟩
    · have hpair := pairOk_iff.mpr hd
      exact ⟨mulPair_leaves h mulS hpair, mulPair_leaves h mulU hpair⟩
    · have hpair := pairOk_eq_false hd
      exact ⟨mulPair_illegal h mulS hpair, mulPair_illegal h mulU hpair⟩

/-- Settles O10: each instruction is `aluImm` or `shiftImm` of its operation. -/
theorem immediateResults : Obligations.ImmediateResults := by
  unfold Obligations.ImmediateResults exec
  intro s th d a imm up h
  refine ⟨aluImm_writes h rfl, aluImm_writes h rfl, aluImm_writes h rfl, aluImm_writes h rfl, aluImm_writes h (boolW_slt_sx8 ..),
    aluImm_writes h (boolW_ult ..), aluImm_writes h (lui_value up), aluImm_writes h rfl, fun hn => ?_, fun hn => ?_⟩
  · exact ⟨shiftImm_writes h hn (sllW_eq ..), shiftImm_writes h hn (srlW_eq ..), shiftImm_writes h hn (sraW_eq ..)⟩
  · exact ⟨shiftImm_illegal h sllW hn, shiftImm_illegal h srlW hn, shiftImm_illegal h sraW hn⟩

end Sys2Proof.Proofs
end

section
/-! PROOFS. Control flow (R126, R127, R131 to R135, R147, R149, R150, R158): branches and jumps, calls that spill nothing, returns that fill
nothing, undefined words and SYSCALL. -/

namespace Sys2Proof.Machine

/-! Targets (R126). -/

/-- An offset of the code segment at which an instruction may stand (R126). -/
def validTarget (target : Int) : Prop := 0 ≤ target ∧ target ≤ 0xFFFFFC ∧ target % 3 = 0

/-- The FETCH_FAULT with reason ALIGNMENT of a transfer that leaves the segment (R126). -/
def targetFault (va : Nat) : Exn := { code := 4, detail := 4, va := some va }

theorem goto_inside {a : Arch} {target : Int} (h : validTarget target) : goto a target = .ok { a with pc := BitVec.ofInt 24 target } := by
  obtain ⟨hlow, hhigh, hdvd⟩ := h
  obtain ⟨n, rfl⟩ := Int.eq_ofNat_of_zero_le hlow
  exact goto_valid (by omega) (by omega)

theorem goto_outside (a : Arch) {target : Int} (h : target < 0 ∨ 0xFFFFFC < target ∨ target % 3 ≠ 0) :
    ∃ va, goto a target = .error (targetFault va) := by
  unfold goto
  rw [if_neg (by simp [validPc]; omega)]
  exact ⟨_, rfl⟩

/-! Branches and jumps (R126, R147). -/

/-- An answer is the transfer to a target, or the fault of one outside the segment. -/
def landsAt (s : State) (th : ThreadId) (o : Out) (target : Int) : Prop :=
  (0 ≤ target ∧ target ≤ 0xFFFFFC ∧ target % 3 = 0 → o = .next (retired s th { regsOf s th with pc := BitVec.ofInt 24 target })) ∧
  (target < 0 ∨ 0xFFFFFC < target ∨ target % 3 ≠ 0 → ∃ va, o = raises s th (targetFault va))

/-- An answer is a branch by an offset where a condition holds, and the next instruction where it does not. -/
def branchesBy (s : State) (th : ThreadId) (o : Out) (taken : Prop) (off : Int) : Prop :=
  (taken → landsAt s th o (((regsOf s th).pc.toNat : Int) + 3 * off)) ∧ (¬ taken → o = leaves s th (regsOf s th))

section Branches
variable {s : State} {th : ThreadId} (h : ready s th)
include h

theorem jumpInstr_lands {f : Arch → Except Exn Arch} {target : Int} (hf : f (regsOf s th) = goto (regsOf s th) target) :
    landsAt s th (.next (jumpInstr th f s)) target := by
  refine ⟨fun hin => ?_, fun hout => ?_⟩
  · rw [jumpInstr_ok h (hf.trans (goto_inside hin))]
  · obtain ⟨va, hva⟩ := goto_outside (regsOf s th) hout
    exact ⟨va, congrArg Host.Outcome.next (jumpInstr_error h (hf.trans hva))⟩

theorem branch_branchesBy {off : Int} {ok : Bool} {cond : Arch → Bool} {taken : Prop} (hok : ok = true) (hcond : cond (regsOf s th) = true ↔ taken) :
    branchesBy s th (branch th off ok cond s) taken off := by
  refine ⟨fun htaken => ?_, fun hnot => ?_⟩
  · exact jumpInstr_lands h (by simp [hok, hcond.mpr htaken, relTarget])
  · have hfalse : cond (regsOf s th) = false := Bool.eq_false_iff.mpr (mt hcond.mp hnot)
    exact congrArg Host.Outcome.next (jumpInstr_ok h (a := stepPc (regsOf s th)) (by simp [hok, hfalse]))

theorem branch_illegal {off : Int} {ok : Bool} {cond : Arch → Bool} (hok : ok = false) : branch th off ok cond s = raises s th excIllegal :=
  congrArg Host.Outcome.next (jumpInstr_error h (by simp [hok]))

end Branches

theorem slt_iff {x y : Word} : x.slt y = true ↔ x.toInt < y.toInt := decide_eq_true_iff
theorem not_slt_iff {x y : Word} : (!x.slt y) = true ↔ y.toInt ≤ x.toInt := by simp [BitVec.slt]
theorem ult_iff {x y : Word} : x.ult y = true ↔ x.toNat < y.toNat := decide_eq_true_iff
theorem not_ult_iff {x y : Word} : (!x.ult y) = true ↔ y.toNat ≤ x.toNat := by simp [BitVec.ult]

/-! Calls that spill nothing (R131, R133, R134, R149). -/

theorem rdW_slideUp_return (a : Arch) (k : Nat) (l : BitVec 3) (v : Word) : rdW (slideUp a k l v) 23 = v := rdW_wrW_same ..

/-- Below w23 the callee's window is the part of the window file that the slide has reached. -/
theorem rdW_slideUp_below (a : Arch) (k : Nat) (l : BitVec 3) (v : Word) {i : Nat} (h : i < 23) :
    rdW (slideUp a k l v) i = a.win.get (winIdx (groupAt a.wp k) i) :=
  rdW_wrW_other _ _ (by decide) (by omega) (by omega)

theorem winIdx_groupAt (wp : Fin 32) (k i : Nat) : winIdx (groupAt wp k) i = winIdx wp (i + 6 * k) :=
  Fin.ext (by simp only [winIdx, groupAt]; omega)

/-- The fresh registers of a call differ from what stood there at most by zeros in w(24 - 6k) to w22. -/
structure Freshened (k : Nat) (a b : Arch) : Prop where
  frame : b = { a with win := b.win }
  reads : ∀ n < 24, rdW b n = rdW a n ∨ (24 ≤ n + 6 * k ∧ n < 23 ∧ rdW b n = 0)

theorem wrW_freshened {k n : Nat} {a b : Arch} (h : Freshened k a b) (hlow : 24 ≤ n + 6 * k) (hhigh : n < 23) : Freshened k a (wrW b n 0) := by
  refine ⟨?_, fun m hm => ?_⟩
  · rw [h.frame]
    rfl
  · by_cases hmn : m = n
    · subst hmn
      exact .inr ⟨hlow, hhigh, rdW_wrW_same ..⟩
    · rw [rdW_wrW_other _ _ (by omega) hm hmn]
      exact h.reads m hm

theorem freshRegs_freshened (c : Nat) {k : Nat} (hk : k ≤ 4) (a : Arch) : Freshened k a (freshRegs c k a) := by
  unfold freshRegs
  refine List.foldlRecOn (motive := Freshened k a) _ _ ⟨rfl, fun n _ => .inl rfl⟩ fun b hb i hi => ?_
  have hi' := List.mem_range.mp hi
  split
  · exact wrW_freshened hb (by omega) (by omega)
  · exact hb

/-- The registers after a call that spills nothing. -/
def calledRegs (a : Arch) (c k : Nat) (link : BitVec 3) (ret status pc : Word) : Arch :=
  { freshRegs c k (slideUp a k link ret) with pc := pc, status := status }

theorem calledRegs_calledFrom (a : Arch) (c : Nat) {k : Nat} (link : BitVec 3) (ret status pc : Word) (h1 : 1 ≤ k) (h3 : k ≤ 3) :
    calledFrom a k link ret (calledRegs a c k link ret status pc) := by
  obtain ⟨hframe, hreads⟩ := freshRegs_freshened c (k := k) (by omega) (slideUp a k link ret)
  have hreads' : ∀ n < 24, rdW (calledRegs a c k link ret status pc) n = rdW (slideUp a k link ret) n ∨
      (24 ≤ n + 6 * k ∧ n < 23 ∧ rdW (calledRegs a c k link ret status pc) n = 0) := hreads
  have hregs : calledRegs a c k link ret status pc =
      { slideUp a k link ret with win := (freshRegs c k (slideUp a k link ret)).win, pc := pc, status := status } := by
    unfold calledRegs
    rw [hframe]
  generalize calledRegs a c k link ret status pc = b at hreads' hregs
  have hwp : b.wp = groupAt a.wp k := by rw [hregs]; rfl
  refine ⟨by rw [hwp]; rfl, by rw [hregs]; rfl, ?_, fun g hg => ?_, ?_, fun i hi => ?_, fun i hlow hhigh => ?_, by rw [hregs]; rfl⟩
  · rw [hregs]
    show (a.link.set (groupAt a.wp k).val link (groupAt a.wp k).isLt).get (groupAt a.wp k) = link
    simp [Vector.get_eq_getElem]
  · have hne : (groupAt a.wp k).val ≠ g.val := fun e => hg (hwp ▸ (Fin.ext e).symm)
    rw [hregs]
    show (a.link.set (groupAt a.wp k).val link (groupAt a.wp k).isLt).get g = a.link.get g
    simp [Vector.get_eq_getElem, hne]
  · rcases hreads' 23 (by decide) with h | ⟨-, h, -⟩
    · rw [h, rdW_slideUp_return]
    · omega
  · rcases hreads' i (by omega) with h | ⟨h, -, -⟩
    · rw [h, rdW_slideUp_below _ _ _ _ (by omega), winIdx_groupAt]
      rfl
    · omega
  · rcases hreads' i (by omega) with h | ⟨-, -, h⟩
    · exact .inr (by rw [h, rdW_slideUp_below _ _ _ _ hhigh, hwp])
    · exact .inl h

/-- Where the status is the caller's, a call changes of the slid registers the fresh ones and the PC alone. -/
theorem calledRegs_status (a : Arch) (c : Nat) {k : Nat} (link : BitVec 3) (ret pc : Word) (h3 : k ≤ 3) :
    calledRegs a c k link ret a.status pc = { freshRegs c k (slideUp a k link ret) with pc := pc } := by
  have hstatus : a.status = (freshRegs c k (slideUp a k link ret)).status :=
    (congrArg Arch.status (freshRegs_freshened c (k := k) (by omega) (slideUp a k link ret)).frame).symm
  unfold calledRegs
  rw [hstatus]

@[simp] theorem fetched_freeCtr (s : State) (th : ThreadId) : (fetched s th).freeCtr = s.freeCtr :=
  field_of_besideThreads (fetched_besideThreads s th) State.freeCtr fun _ => rfl

/-- The state after a call that leaves the registers b: the next fresh registers are others. -/
def afterCall (s : State) (th : ThreadId) (b : Arch) : State :=
  retire (setArch { fetched s th with freeCtr := s.freeCtr + 1 } th b) th

/-- An answer is a call with k groups, or the fault of a target outside the segment. -/
def callsTo (s : State) (th : ThreadId) (o : Out) (k : Nat) (link : BitVec 3) (ret status : Word) (target : Int) : Prop :=
  (0 ≤ target ∧ target ≤ 0xFFFFFC ∧ target % 3 = 0 → k + 1 ≤ 28 - (regsOf s th).res →
    ∃ b : Arch, calledFrom (regsOf s th) k link ret b ∧ b.pc = BitVec.ofInt 24 target ∧ b.status = status ∧ o = .next (afterCall s th b)) ∧
  (target < 0 ∨ 0xFFFFFC < target ∨ target % 3 ≠ 0 → ∃ va, o = raises s th (targetFault va))

section Calls
variable {s : State} {th : ThreadId} (h : ready s th)
include h

theorem callTo_callsTo {k : Nat} {link : BitVec 3} {f : Arch → Int} {target : Int} {ok : Bool} (hok : ok = true) (h1 : 1 ≤ k) (h3 : k ≤ 3)
    (hlink : BitVec.ofNat 3 k = link) (hf : f (regsOf s th) = target) :
    callsTo s th (callTo th k f ok s) k link ((regsOf s th).pc + 3) (regsOf s th).status target := by
  subst hlink hok hf
  unfold callTo
  rw [issue_ready h]
  refine ⟨fun hin hfree => ⟨_, calledRegs_calledFrom _ s.freeCtr _ _ _ _ h1 h3, rfl, rfl, ?_⟩, fun hout => ?_⟩
  · rw [calledRegs_status _ _ _ _ _ h3]
    simp only [regsOf_fetched, goto_inside hin, spillTo_free _ _ _ _ _ _ hfree, fetched_freeCtr]
    rfl
  · obtain ⟨va, hva⟩ := goto_outside (regsOf s th) hout
    exact ⟨va, by simp only [regsOf_fetched, hva]; rfl⟩

theorem execCallu_callsTo (a : RegField) (hsys : sysMode (regsOf s th) = true) :
    callsTo s th (execCallu th 0 a 0 s) 1 5 (regsOf s th).sretv (putBit (regsOf s th).status 0 false) (rd (regsOf s th) a).toNat := by
  unfold execCallu
  rw [issue_ready h]
  refine ⟨fun hin hfree => ⟨_, calledRegs_calledFrom _ s.freeCtr _ _ _ _ (by decide) (by decide), rfl, rfl, ?_⟩, fun hout => ?_⟩
  · simp only [regsOf_fetched, hsys, goto_inside hin, spillTo_free _ _ _ _ _ _ hfree, fetched_freeCtr]
    rfl
  · obtain ⟨va, hva⟩ := goto_outside (withMode (regsOf s th) false) hout
    exact ⟨va, by simp only [regsOf_fetched, hsys, hva]; rfl⟩

theorem execCallu_user (a : RegField) (huser : sysMode (regsOf s th) = false) : execCallu th 0 a 0 s = raises s th excPrivilege := by
  unfold execCallu
  rw [issue_ready h]
  simp only [regsOf_fetched, huser]
  rfl

end Calls

/-! Returns that fill nothing (R133, R135, R149, R158). -/

section Returns
variable {s : State} {th : ThreadId} (h : ready s th)
include h

theorem execRet_slidesBack {k : Nat} (hlink : ((regsOf s th).link.get (regsOf s th).wp).toNat = k) (h1 : 1 ≤ k) (h3 : k ≤ 3)
    (hres : k ≤ (regsOf s th).res) (hle : (rdW (regsOf s th) 23).toNat ≤ 0xFFFFFC) (hdvd : (rdW (regsOf s th) 23).toNat % 3 = 0) :
    execRet th 0 0 0 s = .next (retired s th { slideDown (regsOf s th) k with pc := rdW (regsOf s th) 23 }) := by
  have hform : ¬ ((0 : RegField).val ≠ 0 ∨ (0 : RegField).val ≠ 0 ∨ (0 : RegField).val ≠ 0 ∨ k = 0 ∨ k = 4 ∨ 6 ≤ k) := by simp; omega
  unfold execRet
  rw [issue_ready h]
  simp only [regsOf_fetched, hlink, if_neg hform, if_neg (show k ≠ 5 from by omega), goto_valid hle hdvd, fillTo_resident _ _ _ _ _ hres]
  simp [retired, slideDown]

theorem execRet_illegal (hlink : let l := ((regsOf s th).link.get (regsOf s th).wp).toNat; l = 0 ∨ l = 4 ∨ 6 ≤ l) :
    execRet th 0 0 0 s = raises s th excIllegal := by
  unfold execRet
  rw [issue_ready h]
  simp only [regsOf_fetched]
  exact congrArg Host.Outcome.next (if_pos (.inr (.inr (.inr hlink))))

/-- RETS in an entry's frame, with no signal to chain to, restores MODE, PRIO and the flags of the saved status (R158). -/
theorem execRets_restores (hsys : sysMode (regsOf s th) = true) (hlink : ((regsOf s th).link.get (regsOf s th).wp).toNat = 7)
    (hres : 1 ≤ (regsOf s th).res) (hle : (rdW (regsOf s th) 23).toNat ≤ 0xFFFFFC) (hdvd : (rdW (regsOf s th) 23).toNat % 3 = 0)
    (hsig : signalAbove (thr s th) ((rdW (regsOf s th) 22).extractLsb' 1 3).toNat = none) :
    execRets th 0 0 0 s = .next (retired s th { slideDown (regsOf s th) 1 with
      pc := rdW (regsOf s th) 23, status := ((regsOf s th).status &&& 0xFFFF80) ||| (rdW (regsOf s th) 22 &&& 0x00007F) }) := by
  have hsig' : signalAbove (thr (fetched s th) th) ((rdW (regsOf s th) 22).extractLsb' 1 3).toNat = none :=
    (fetched_field (signalAbove · _) (fun _ _ _ => rfl) s th).trans hsig
  unfold execRets
  rw [issue_ready h]
  simp only [regsOf_fetched, hlink, hsys, hsig', goto_valid hle hdvd, fillTo_resident _ _ _ _ _ hres]
  simp [retired, slideDown]

theorem execRets_user (huser : sysMode (regsOf s th) = false) (hlink : ((regsOf s th).link.get (regsOf s th).wp).toNat = 7) :
    execRets th 0 0 0 s = raises s th excPrivilege := by
  unfold execRets
  rw [issue_ready h]
  simp only [regsOf_fetched, hlink, huser]
  rfl

theorem execRets_illegal (hlink : ((regsOf s th).link.get (regsOf s th).wp).toNat ≠ 7) : execRets th 0 0 0 s = raises s th excIllegal := by
  unfold execRets
  rw [issue_ready h]
  simp only [regsOf_fetched, if_pos hlink]
  rfl

/-! Undefined words and SYSCALL (R127, R150). -/

theorem execIllegal_raises (w : Word) : execIllegal th w s = raises s th excIllegal :=
  congrArg Host.Outcome.next (issue_ready h _)

theorem execSyscall_raises (d a b : RegField) :
    execSyscall th d a b s = raises s th (if d = 0 then excSyscall (a.val * 32 + b.val) else excIllegal) := by
  simp only [← field_eq_zero]
  exact congrArg Host.Outcome.next (issue_ready h _)

end Returns

end Sys2Proof.Machine

namespace Sys2Proof.Proofs
open Sys2Proof.Machine

/-- Settles O11: every branch is `branch` of its condition. -/
theorem branchesAndJumps : Obligations.BranchesAndJumps := by
  unfold Obligations.BranchesAndJumps exec
  intro s th a b z c j h r x y lands goes
  refine ⟨branch_branchesBy h rfl decide_eq_true_iff, branch_branchesBy h rfl decide_eq_true_iff, branch_branchesBy h rfl decide_eq_true_iff,
    branch_branchesBy h rfl decide_eq_true_iff, branch_branchesBy h rfl decide_eq_true_iff, branch_branchesBy h rfl decide_eq_true_iff,
    branch_branchesBy h rfl Iff.rfl, branch_branchesBy h rfl (Bool.not_eq_true' _).to_iff, fun ha => ?_,
    branch_branchesBy h rfl beq_iff_eq, branch_branchesBy h rfl bne_iff_ne, branch_branchesBy h rfl slt_iff, branch_branchesBy h rfl not_slt_iff,
    branch_branchesBy h rfl ult_iff, branch_branchesBy h rfl not_ult_iff, branch_branchesBy h rfl (iff_of_true rfl trivial), jumpInstr_lands h rfl⟩
  have hform : (a.val == 0) = false := beq_eq_false_iff_ne.mpr (field_ne_zero.mp ha)
  exact ⟨branch_illegal h hform, branch_illegal h hform⟩

/-- Settles O12: a call into the segment leaves calledRegs, whatever the fresh registers are. -/
theorem callsSlideTheWindow : Obligations.CallsSlideTheWindow := by
  unfold Obligations.CallsSlideTheWindow exec
  intro s th a off h r rel call
  exact ⟨callTo_callsTo h rfl (by decide) (by decide) rfl rfl, callTo_callsTo h rfl (by decide) (by decide) rfl rfl,
    callTo_callsTo h rfl (by decide) (by decide) rfl rfl, callTo_callsTo h rfl (by decide) (by decide) rfl rfl,
    callTo_callsTo h rfl (by decide) (by decide) rfl rfl, callTo_callsTo h rfl (by decide) (by decide) rfl rfl,
    execCallu_callsTo h a, execCallu_user h a⟩

/-- Settles O13: RET and RETS look at LINK first, and slide back where the groups are resident. -/
theorem returnsSlideBack : Obligations.ReturnsSlideBack := by
  unfold Obligations.ReturnsSlideBack exec
  intro s th h r l valid back
  refine ⟨fun h1 h3 hres hvalid => ?_, execRet_illegal h, fun hsys hlink hres hvalid hsig => ?_, execRets_user h, execRets_illegal h⟩
  · exact execRet_slidesBack h rfl h1 h3 hres hvalid.1 hvalid.2
  · exact execRets_restores h hsys hlink hres hvalid.1 hvalid.2 hsig

/-- Settles O16: SYSCALL looks at D alone. -/
theorem illegalAndSyscall : Obligations.IllegalAndSyscall := by
  unfold Obligations.IllegalAndSyscall exec
  intro s th w d a b h
  refine ⟨execIllegal_raises h w, fun hd => ?_, fun hd => ?_⟩
  · exact (execSyscall_raises h d a b).trans (by rw [if_pos hd]; rfl)
  · exact (execSyscall_raises h d a b).trans (by rw [if_neg hd]; rfl)

end Sys2Proof.Proofs
end

section
/-! PROOFS. Loads and atomics (R125, R137 to R139, R147, R148, R214, R219): the bytes an access takes, what it writes to its destination, and
the new value of an atomic. -/

namespace Sys2Proof.Machine

/-! Bytes and places. -/

theorem leNat_lt (bs : List Byte) : leNat bs < 2 ^ (8 * bs.length) := by
  induction bs with
  | nil => decide
  | cons b bs ih =>
    have := b.isLt
    rw [leNat, List.length_cons, Nat.mul_succ, Nat.pow_add]
    omega

theorem locBytes_length {s : State} {th : ThreadId} {k : AccKind} {va : Nat} {n i : Nat} {ls : List Loc}
    (h : locBytes s th k va n i = .ok ls) : ls.length = n := by
  induction n generalizing i ls with
  | zero =>
    cases h
    rfl
  | succ n ih =>
    simp only [locBytes] at h
    split at h
    · cases h
    · split at h
      · cases h
      · next hrest =>
        cases h
        rw [List.length_cons, ih hrest]

/-- A translated access has one place for each byte. -/
theorem translate_length {s : State} {th : ThreadId} {k : AccKind} {va n : Nat} {ls : List Loc} (h : translate s th k va n = .ok ls) :
    ls.length = n := by
  unfold translate at h
  split at h
  · cases h
  · next hbytes =>
    simp only at h
    split at h
    · cases h
    · split at h
      · cases h
      · split at h
        · cases h
        · cases h
          exact locBytes_length hbytes

/-! Performing an access (R105 to R107, R141). -/

/-- What an access does where its bytes lie. -/
def performed (s : State) (th : ThreadId) (op : MemOp) (ls : List Loc) : State :=
  match op with
  | .load _ _ dest => doLoad s th ls dest op
  | .store va bs => doStore s th va ls bs
  | .amo fn _ n d cmp operand => doAmo s th ls fn n d cmp operand op

theorem access_performed {s : State} {th : ThreadId} {op : MemOp} {ls : List Loc} (h : admitted s th op ls) :
    access s th op = performed (reached s th op ls) th op ls := by
  obtain ⟨htranslate, hend, hlines, hconflict⟩ := h
  unfold access
  rw [htranslate]
  simp only [hend, Bool.false_eq_true, if_false]
  rw [if_neg (Nat.not_lt.mpr hlines), hconflict]
  rfl

/-- Cacheable bytes are never kept from being accessed (R191). -/
theorem blockedBy_cacheable (s : State) (th : ThreadId) {ls : List Loc} (hc : cacheable ls) : blockedBy s th ls = none := by
  refine List.findSome?_eq_none_iff.mpr fun l hl => ?_
  rcases hc l hl with h | h
  · simp only [h]
  · simp only [h]

theorem any_type_cacheable {ls : List Loc} (hc : cacheable ls) {t : MemType} (h1 : t ≠ .cached) (h2 : t ≠ .ledgered) :
    ls.any (fun l => decide (l.type = t)) = false := by
  refine List.any_eq_false.mpr fun l hl => ?_
  rcases hc l hl with h | h
  · simp [h, h1.symm]
  · simp [h, h2.symm]

theorem doLoad_cacheable (s : State) (th : ThreadId) {ls : List Loc} (hc : cacheable ls) (dest : LoadDest) (op : MemOp) :
    doLoad s th ls dest op = if loadsPoison (fillAll s th ls) th ls then machineCheck (fillAll s th ls) th 0 ls
      else finish (fillAll s th ls) th (writeLoad (regsOf s th) dest (ls.map (seenByte (fillAll s th ls) th))) := by
  have harch : (thr (fillAll s th ls) th).arch = regsOf s th := congrArg Thread.arch (thr_of_threads (fillAll_threads s th ls) th)
  unfold doLoad
  rw [if_neg (by simp [any_type_cacheable hc]), blockedBy_cacheable s th hc]
  simp only [any_type_cacheable hc (t := .device) (by decide) (by decide), Bool.false_eq_true, if_false, harch]

/-! What a load writes (R125, R128, R147). -/

/-- Sign extension of w bits to a word, as the memory operations compute it. -/
theorem signExtend_ofNat {w v : Nat} (hw24 : w ≤ 24) (hv : v < 2 ^ w) :
    (BitVec.ofNat w v).signExtend 24 = if 2 ^ (w - 1) ≤ v then BitVec.ofNat 24 (v + 2 ^ 24 - 2 ^ w) else BitVec.ofNat 24 v := by
  have hle : 2 ^ w ≤ 2 ^ 24 := Nat.pow_le_pow_right (by decide) hw24
  have hnat : (BitVec.ofNat w v).toNat = v := BitVec.toNat_ofNat .. |>.trans (Nat.mod_eq_of_lt hv)
  apply BitVec.eq_of_toNat_eq
  rw [BitVec.toNat_signExtend, BitVec.msb_eq_decide, BitVec.toNat_setWidth, hnat]
  by_cases hsign : 2 ^ (w - 1) ≤ v
  · rw [if_pos hsign, if_pos (by simpa using hsign), BitVec.toNat_ofNat]
    omega
  · rw [if_neg hsign, if_neg (by simpa using hsign), BitVec.toNat_ofNat]
    rfl

section Destinations
variable (a : Arch) (d : RegField) {bs : List Byte}

theorem writeLoad_pc (dest : LoadDest) : (writeLoad a dest bs).pc = a.pc := by
  unfold writeLoad
  cases dest with
  | reg d signed => exact wr_pc ..
  | pair d => rfl
  | freg d => rfl

theorem writeLoad_unsigned : writeLoad a (.reg d false) bs = wr a d (BitVec.ofNat 24 (leNat bs)) := rfl

theorem writeLoad_signed {n : Nat} (h3 : n ≤ 3) (h : bs.length = n) :
    writeLoad a (.reg d true) bs = wr a d ((BitVec.ofNat (8 * n) (leNat bs)).signExtend 24) := by
  subst h
  rw [signExtend_ofNat (by omega) (leNat_lt bs)]
  simp [writeLoad]

theorem writeLoad_binary32 (h : bs.length = 4) : writeLoad a (.freg d) bs = wrF32 a d (BitVec.ofNat 32 (leNat bs)) := by
  have hlt := h ▸ leNat_lt bs
  have hv : BitVec.ofNat 64 (leNat bs) = (BitVec.ofNat 32 (leNat bs)).setWidth 64 := by
    apply BitVec.eq_of_toNat_eq
    simp only [BitVec.toNat_ofNat, BitVec.toNat_setWidth]
    omega
  exact congrArg (wrF a d) hv

end Destinations

section Instructions
variable {s : State} {th : ThreadId} {ls : List Loc} {i : Instr} (h : ready s th)
include h

/-- A load instruction whose operands are good is the access of its bytes. -/
theorem loadsAs_of_memInstr {f : Arch → Except Exn MemOp} {va n : Nat} {dest : LoadDest} {res : Nat → Arch}
    (hi : exec i s = .next (memInstr th f s)) (hf : f (regsOf s th) = .ok (.load va n dest))
    (hres : ∀ bs : List Byte, bs.length = n → writeLoad (regsOf s th) dest bs = res (leNat bs)) : loadsAs s th ls i va n dest res := by
  have haccess := hi.trans (congrArg Host.Outcome.next (memInstr_ok h hf))
  have hregs : regsOf (reached (fetched s th) th (.load va n dest) ls) th = regsOf s th := by rw [reached_regsOf, regsOf, regsOf_fetched]
  refine ⟨haccess, fun hadmitted hc => ?_⟩
  have hperformed := haccess.trans (congrArg Host.Outcome.next ((access_performed hadmitted).trans (doLoad_cacheable _ th hc dest _)))
  have hlength : ls.length = n := translate_length hadmitted.1
  rw [hregs] at hperformed
  refine ⟨fun hgood => ?_, fun hpoison => ?_⟩
  · rw [hperformed, if_neg (by simp [hgood]), finish, stepPc, writeLoad_pc, hres _ (by rw [List.length_map, hlength])]
  · rw [hperformed, if_pos hpoison]

theorem nearLoad_loadsAs {a : RegField} {imm : BitVec 8} {n : Nat} {ok : Bool} {dest : LoadDest} {res : Nat → Arch}
    (hi : exec i s = nearLoad th a imm n ok dest s) (hok : ok = true)
    (hres : ∀ bs : List Byte, bs.length = n → writeLoad (regsOf s th) dest bs = res (leNat bs)) :
    loadsAs s th ls i (nearVa (regsOf s th) (eaNear (regsOf s th) a imm)) n dest res :=
  loadsAs_of_memInstr h hi (if_pos hok) hres

theorem nearLoad_illegal {a : RegField} {imm : BitVec 8} {n : Nat} {ok : Bool} {dest : LoadDest}
    (hi : exec i s = nearLoad th a imm n ok dest s) (hok : ok = false) : exec i s = raises s th excIllegal :=
  hi.trans (memInstr_raises h (by simp [hok]))

theorem farLoad_loadsAs {a b : RegField} {n : Nat} {ok : Bool} {dest : LoadDest} {res : Nat → Arch}
    (hi : exec i s = farLoad th a b n ok dest s) (hok : ok = true) (ha : pairOk a = true)
    (hres : ∀ bs : List Byte, bs.length = n → writeLoad (regsOf s th) dest bs = res (leNat bs)) :
    loadsAs s th ls i (eaFar (regsOf s th) a b).toNat n dest res :=
  loadsAs_of_memInstr h hi (by simp [hok, ha]) hres

theorem farLoad_illegal {a b : RegField} {n : Nat} {ok : Bool} {dest : LoadDest}
    (hi : exec i s = farLoad th a b n ok dest s) (hbad : ok = false ∨ pairOk a = false) : exec i s = raises s th excIllegal :=
  hi.trans (memInstr_raises h (if_neg (by simpa [imp_iff_not_or] using hbad)))

end Instructions

/-! Atomics (R148, R214). -/

/-- The new value of an atomic, on bit vectors (R148). -/
def amoBits {w : Nat} (fn : AmoFn) (cmp y x : BitVec w) : Option (BitVec w) :=
  match fn with
  | .add => some (x + y)
  | .swap => some y
  | .cas => if x = cmp then some y else none
  | .min => some (if y.toInt < x.toInt then y else x)
  | .max => some (if x.toInt < y.toInt then y else x)

/-- The signed value of n bytes is that of the bit vector they make. -/
theorem toInt_of_bytes {n : Nat} (hn : 0 < n) (x : BitVec (8 * n)) :
    x.toInt = if x.toNat < 2 ^ (8 * n - 1) then (x.toNat : Int) else (x.toNat : Int) - 2 ^ (8 * n) := by
  have hhalf : 2 ^ (8 * n) = 2 * 2 ^ (8 * n - 1) := by rw [← Nat.pow_succ', Nat.succ_eq_add_one, Nat.sub_add_cancel (by omega)]
  rw [BitVec.toInt_eq_toNat_cond]
  by_cases h : x.toNat < 2 ^ (8 * n - 1)
  · rw [if_pos h, if_pos (by omega)]
  · rw [if_neg h, if_neg (by omega)]
    simp

theorem amoNew_toNat {n : Nat} (hn : 0 < n) (fn : AmoFn) (cmp y x : BitVec (8 * n)) :
    amoNew fn n x.toNat cmp.toNat y.toNat = (amoBits fn cmp y x).map BitVec.toNat := by
  cases fn with
  | add => rfl
  | swap => rfl
  | cas => simp only [amoNew, amoBits, BitVec.toNat_inj, apply_ite (Option.map BitVec.toNat), Option.map_some, Option.map_none]
  | min | max =>
    rw [amoBits, toInt_of_bytes hn x, toInt_of_bytes hn y, Option.map_some, apply_ite BitVec.toNat]
    rfl

theorem recallAll_outside (s : State) (b line : Nat) : outside (recallAll s b line) = outside s := by
  have k := l3Fetch_outside s b line 1
  unfold recallAll
  generalize l3Fetch s b line 1 = r at k ⊢
  obtain ⟨t, x⟩ := r
  generalize hy : cohLine t b line = y
  obtain ⟨d, p⟩ := y
  simp only [hy, setDir_outside, l3Write_outside]
  exact (outside_foldl _ (fun _ _ => l2SetState_outside ..) _ _).trans k

@[simp] theorem recalled_regsOf (s : State) (th : ThreadId) (ls : List Loc) : regsOf (recalled s th ls) th = regsOf s th := by
  have houtside : outside (recalled s th ls) = outside (retryPoint s th) := outside_foldl _ (fun _ _ => recallAll_outside ..) _ _
  exact (congrArg Thread.arch (thr_of_threads (threads_of_outside houtside) th)).trans (retryPoint_arch s th)

/-- A byte that an atomic writes leaves the registers. -/
theorem amoByte_regsOf (s : State) (th : ThreadId) (l : Loc) (v : Byte) : regsOf (amoByte s th l v) th = regsOf s th := by
  unfold amoByte regsOf
  split
  · split
    · rfl
    · exact congrArg Thread.arch (thr_of_threads (threads_of_outside (l3Write_outside ..)) th)
  · have hbare := congrArg Thread.arch (objStore_bare s th l.obj l.addr v th)
    exact hbare

/-- The state after an atomic has written its new value, where it has one. -/
def amoWritten (s : State) (th : ThreadId) (ls : List Loc) (n : Nat) (new : Option Nat) : State :=
  match new with
  | none => s
  | some v => (ls.zip (toLe n v)).foldl (fun s p => amoByte s th p.1 p.2) s

theorem amoWritten_regsOf (s : State) (th : ThreadId) (ls : List Loc) (n : Nat) (new : Option Nat) :
    regsOf (amoWritten s th ls n new) th = regsOf s th := by
  cases new with
  | none => rfl
  | some v =>
    exact List.foldlRecOn (motive := fun u : State => regsOf u th = regsOf s th) _ _ rfl fun u hu p _ => (amoByte_regsOf u th p.1 p.2).trans hu

theorem doAmo_cacheable {s : State} {th : ThreadId} {ls : List Loc} (hc : cacheable ls) (hgood : loadsPoison (recalled s th ls) th ls = false)
    (fn : AmoFn) (n : Nat) (d : RegField) (cmp operand : Nat) (op : MemOp) :
    let old := leNat (ls.map (seenByte (recalled s th ls) th))
    doAmo s th ls fn n d cmp operand op =
      retryPoint (finish (amoWritten (recalled s th ls) th ls n (amoNew fn n old cmp operand)) th (writeOld (regsOf s th) n d old)) th := by
  intro old
  have harch : (thr (amoWritten (recalled s th ls) th ls n (amoNew fn n old cmp operand)) th).arch = regsOf s th :=
    (amoWritten_regsOf ..).trans (recalled_regsOf ..)
  rw [← harch]
  unfold doAmo
  rw [blockedBy_cacheable s th hc]
  change (if loadsPoison (recalled s th ls) th ls then _ else _) = _
  rw [if_neg (by simp [hgood])]
  rfl

theorem writeOld_pc (a : Arch) (n : Nat) (d : RegField) (old : Nat) : (writeOld a n d old).pc = a.pc := by
  unfold writeOld
  split
  · exact wr_pc ..
  · rfl

section AtomicInstructions
variable {s : State} {th : ThreadId} {ls : List Loc} {i : Instr} {d a b : RegField} {far : Bool} {fn : AmoFn} (h : ready s th)
include h

/-- An atomic instruction whose operands are good is the atomic on its bytes. -/
theorem amoAs_of_memInstr {f : Arch → Except Exn MemOp} {va n cmp operand : Nat} {new : Nat → Option Nat}
    (hi : exec i s = .next (memInstr th f s)) (hf : f (regsOf s th) = .ok (.amo fn va n d cmp operand))
    (hnew : ∀ o < 2 ^ (8 * n), amoNew fn n o cmp operand = new o) :
    amoAs s th ls i fn va n d cmp operand (writeOld (regsOf s th) n d) new := by
  have haccess := hi.trans (congrArg Host.Outcome.next (memInstr_ok h hf))
  have hregs : regsOf (reached (fetched s th) th (.amo fn va n d cmp operand) ls) th = regsOf s th := by
    rw [reached_regsOf, regsOf, regsOf_fetched]
  refine ⟨haccess, fun hadmitted hc hgood => ?_⟩
  have hperformed := haccess.trans (congrArg Host.Outcome.next ((access_performed hadmitted).trans (doAmo_cacheable hc hgood fn n d cmp operand _)))
  have hlength : ls.length = n := translate_length hadmitted.1
  have hold (u : State) : leNat (ls.map (seenByte u th)) < 2 ^ (8 * n) := by
    have hlt := leNat_lt (ls.map (seenByte u th))
    rwa [List.length_map, hlength] at hlt
  rw [hperformed, hregs, hnew _ (hold _), finish, stepPc, writeOld_pc]
  rfl

/-- An AMO on a word, near or far, takes the old word and stores the new one. -/
theorem amoWord_amoAs {va : Nat} (hi : exec i s = amoWord th d a b far fn s)
    (hva : (if far then (rdPair (regsOf s th) a).toNat else nearVa (regsOf s th) (rd (regsOf s th) a)) = va)
    (hok : if far then pairOk a = true else nearWritable (regsOf s th) (rd (regsOf s th) a) = true) :
    amoAs s th ls i fn va 3 d (rd (regsOf s th) d).toNat (rd (regsOf s th) b).toNat (fun o => wr (regsOf s th) d (BitVec.ofNat 24 o))
      (fun o => (amoBits fn (rd (regsOf s th) d) (rd (regsOf s th) b) (BitVec.ofNat 24 o)).map BitVec.toNat) := by
  subst hva
  refine amoAs_of_memInstr h hi ?_ fun o ho => ?_
  · cases far <;> simp_all
  · rw [← amoNew_toNat (n := 3) (by decide), BitVec.toNat_ofNat, Nat.mod_eq_of_lt ho]

theorem amoPair_amoAs {va : Nat} (hi : exec i s = amoPair th d a b far fn s)
    (hva : (if far then (rdPair (regsOf s th) a).toNat else nearVa (regsOf s th) (rd (regsOf s th) a)) = va)
    (hok : if far then pairOk a = true else nearWritable (regsOf s th) (rd (regsOf s th) a) = true)
    (hd : pairOk d = true) (hb : pairOk b = true) :
    amoAs s th ls i fn va 6 d (rdPair (regsOf s th) d).toNat (rdPair (regsOf s th) b).toNat
      (fun o => wrPair (regsOf s th) d (BitVec.ofNat 48 o))
      (fun o => (amoBits fn (rdPair (regsOf s th) d) (rdPair (regsOf s th) b) (BitVec.ofNat 48 o)).map BitVec.toNat) := by
  subst hva
  refine amoAs_of_memInstr h hi ?_ fun o ho => ?_
  · cases far <;> simp_all
  · rw [← amoNew_toNat (n := 6) (by decide), BitVec.toNat_ofNat, Nat.mod_eq_of_lt ho]

theorem amoWord_illegal (hi : exec i s = amoWord th d a b far fn s) (hfar : far = true) (ha : pairOk a = false) :
    exec i s = raises s th excIllegal :=
  hi.trans (memInstr_raises h (by simp [hfar, ha]))

theorem amoPair_illegal (hi : exec i s = amoPair th d a b far fn s) (hbad : pairOk d = false ∨ pairOk b = false) :
    exec i s = raises s th excIllegal :=
  hi.trans (memInstr_raises h (if_pos (by rcases hbad with h | h <;> simp [h])))

/-! Refused stores (R139). -/

theorem nearStore_refused {imm : BitVec 8} {n : Nat} {ok : Bool} {v : Arch → Nat} (hi : exec i s = nearStore th a imm n ok v s)
    (hok : ok = true) (hw : nearWritable (regsOf s th) (eaNear (regsOf s th) a imm) = false) :
    exec i s = raises s th (excStore 2 (nearVa (regsOf s th) (eaNear (regsOf s th) a imm))) :=
  hi.trans (memInstr_raises h (by simp [hok, hw]))

theorem amoWord_refused (hi : exec i s = amoWord th d a b far fn s) (hnear : far = false)
    (hw : nearWritable (regsOf s th) (rd (regsOf s th) a) = false) :
    exec i s = raises s th (excStore 2 (nearVa (regsOf s th) (rd (regsOf s th) a))) :=
  hi.trans (memInstr_raises h (by simp [hnear, hw]))

theorem amoPair_refused (hi : exec i s = amoPair th d a b far fn s) (hnear : far = false) (hd : pairOk d = true) (hb : pairOk b = true)
    (hw : nearWritable (regsOf s th) (rd (regsOf s th) a) = false) :
    exec i s = raises s th (excStore 2 (nearVa (regsOf s th) (rd (regsOf s th) a))) :=
  hi.trans (memInstr_raises h (by simp [hnear, hd, hb, hw]))

end AtomicInstructions

end Sys2Proof.Machine

namespace Sys2Proof.Proofs
open Sys2Proof.Machine

/-- Settles O21: every load is nearLoad or farLoad with its destination, and writes what writeLoad says. -/
theorem loads : Obligations.Loads := by
  unfold Obligations.Loads
  refine ⟨?_, ?_⟩
  · intro s th d a imm ls h r va
    exact ⟨nearLoad_loadsAs h rfl rfl fun _ => writeLoad_signed r d (by decide), nearLoad_loadsAs h rfl rfl fun _ _ => rfl,
      nearLoad_loadsAs h rfl rfl fun _ => writeLoad_signed r d (by decide), nearLoad_loadsAs h rfl rfl fun _ _ => rfl,
      nearLoad_loadsAs h rfl rfl fun _ _ => rfl, nearLoad_loadsAs h rfl rfl fun _ _ => rfl,
      nearLoad_loadsAs h rfl rfl fun _ => writeLoad_binary32 r d, fun hd => nearLoad_loadsAs h rfl (pairOk_iff.mpr hd) fun _ _ => rfl,
      fun hd => nearLoad_illegal h rfl (pairOk_eq_false hd)⟩
  · intro s th d a b ls h r va
    refine ⟨fun ha => ?_, fun ha i hi => ?_, fun hd => farLoad_illegal h rfl (.inl (pairOk_eq_false hd))⟩
    · have ha' := pairOk_iff.mpr ha
      exact ⟨farLoad_loadsAs h rfl rfl ha' fun _ => writeLoad_signed r d (by decide), farLoad_loadsAs h rfl rfl ha' fun _ _ => rfl,
        farLoad_loadsAs h rfl rfl ha' fun _ => writeLoad_signed r d (by decide), farLoad_loadsAs h rfl rfl ha' fun _ _ => rfl,
        farLoad_loadsAs h rfl rfl ha' fun _ _ => rfl, farLoad_loadsAs h rfl rfl ha' fun _ _ => rfl,
        farLoad_loadsAs h rfl rfl ha' fun _ => writeLoad_binary32 r d,
        fun hd => farLoad_loadsAs h rfl (pairOk_iff.mpr hd) ha' fun _ _ => rfl⟩
    · have ha' := pairOk_eq_false ha
      simp only [List.mem_cons, List.not_mem_nil, or_false] at hi
      rcases hi with rfl | rfl | rfl | rfl | rfl | rfl | rfl | rfl
      all_goals exact farLoad_illegal h rfl (.inr ha')

/-- Settles O25: every atomic is amoWord or amoPair of its function, which amoNew computes on bit vectors. -/
theorem atomics : Obligations.Atomics := by
  unfold Obligations.Atomics
  intro s th d a b ls h r near far isPair word pair y z
  have hnot {x : RegField} (hx : ¬ isPair x) : pairOk x = false := Bool.eq_false_iff.mpr (mt pairOk_iff.mp hx)
  refine ⟨fun hw => ?_, fun ha => ?_, fun ha i hi => ?_, fun hbad i hi => ?_⟩
  · have hw' : nearWritable r (rd r a) = true := by
      rw [nearWritable, Bool.or_eq_true, decide_eq_true_eq]
      exact hw
    refine ⟨amoWord_amoAs h rfl rfl hw', amoWord_amoAs h rfl rfl hw', amoWord_amoAs h rfl rfl hw', amoWord_amoAs h rfl rfl hw',
      amoWord_amoAs h rfl rfl hw', fun hd hb => ?_⟩
    have hd' := pairOk_iff.mpr hd
    have hb' := pairOk_iff.mpr hb
    exact ⟨amoPair_amoAs h rfl rfl hw' hd' hb', amoPair_amoAs h rfl rfl hw' hd' hb', amoPair_amoAs h rfl rfl hw' hd' hb',
      amoPair_amoAs h rfl rfl hw' hd' hb', amoPair_amoAs h rfl rfl hw' hd' hb'⟩
  · have ha' := pairOk_iff.mpr ha
    refine ⟨amoWord_amoAs h rfl rfl ha', amoWord_amoAs h rfl rfl ha', amoWord_amoAs h rfl rfl ha', amoWord_amoAs h rfl rfl ha',
      amoWord_amoAs h rfl rfl ha', fun hd hb => ?_⟩
    have hd' := pairOk_iff.mpr hd
    have hb' := pairOk_iff.mpr hb
    exact ⟨amoPair_amoAs h rfl rfl ha' hd' hb', amoPair_amoAs h rfl rfl ha' hd' hb', amoPair_amoAs h rfl rfl ha' hd' hb',
      amoPair_amoAs h rfl rfl ha' hd' hb', amoPair_amoAs h rfl rfl ha' hd' hb'⟩
  · simp only [List.mem_cons, List.not_mem_nil, or_false] at hi
    rcases hi with rfl | rfl | rfl | rfl | rfl
    all_goals exact amoWord_illegal h rfl rfl (hnot ha)
  · have hbad' := hbad.imp hnot hnot
    simp only [List.mem_cons, List.not_mem_nil, or_false] at hi
    rcases hi with rfl | rfl | rfl | rfl | rfl | rfl | rfl | rfl | rfl | rfl
    all_goals exact amoPair_illegal h rfl hbad'

/-- Settles O26: below 0x100 no near store is writable in user mode. -/
theorem userStoresBelow0x100 : Obligations.UserStoresBelow0x100 := by
  unfold Obligations.UserStoresBelow0x100
  intro s th d a b imm h huser r refused
  have hmode : sysMode r = false := huser
  have hva (off : Word) : nearVa r off = r.nseg.toNat * 2 ^ 24 + off.toNat := by simp [nearVa, hmode]
  have hwritable {off : Word} (hoff : off.toNat < 0x100) : nearWritable r off = false := by simp [nearWritable, hmode, hoff]
  refine ⟨fun hoff => ⟨fun i hi => ?_, fun hd => ?_⟩, fun hoff => ⟨fun i hi => ?_, fun hd hb i hi => ?_⟩⟩
  · simp only [List.mem_cons, List.not_mem_nil, or_false] at hi
    simp only [refused, ← hva]
    rcases hi with rfl | rfl | rfl | rfl | rfl
    all_goals exact nearStore_refused h rfl rfl (hwritable hoff)
  · simp only [refused, ← hva]
    exact nearStore_refused h rfl (pairOk_iff.mpr hd) (hwritable hoff)
  · simp only [List.mem_cons, List.not_mem_nil, or_false] at hi
    simp only [refused, ← hva]
    rcases hi with rfl | rfl | rfl | rfl | rfl
    all_goals exact amoWord_refused h rfl rfl (hwritable hoff)
  · simp only [List.mem_cons, List.not_mem_nil, or_false] at hi
    simp only [refused, ← hva]
    rcases hi with rfl | rfl | rfl | rfl | rfl
    all_goals exact amoPair_refused h rfl rfl (pairOk_iff.mpr hd) (pairOk_iff.mpr hb) (hwritable hoff)

end Sys2Proof.Proofs
end

section
/-! PROOFS. Fences, MOOR and cache maintenance (R147, R176, R186 to R190, R205 to R207, R335). -/

namespace Sys2Proof.Machine

/-! Fields that must be 0 (R147). -/

theorem orderForm_eq_false {d a b : RegField} (h : d ≠ 0 ∨ a ≠ 0 ∨ b ≠ 0) : orderForm d a b = false := by
  simp only [orderForm, Bool.and_eq_false_iff, beq_eq_false_iff_ne]
  rcases h with h | h | h
  · exact .inl (.inl (field_ne_zero.mp h))
  · exact .inl (.inr (field_ne_zero.mp h))
  · exact .inr (field_ne_zero.mp h)

section Order
variable {s : State} {th : ThreadId} {d a b : RegField} (h : ready s th)
include h

theorem fence_releases : execFence th 0 0 0 s = .next (finish (settledStores s th) th (regsOf s th)) := by
  unfold execFence
  rw [issue_ready h]
  simp [orderForm, settledStores, regsOf]

theorem fenceLl_leaves : execFenceLl th 0 0 0 s = leaves s th (regsOf s th) := by
  unfold execFenceLl
  rw [issue_ready h, regsOf_fetched]
  exact congrArg Host.Outcome.next (if_pos (by decide))

variable (hbad : orderForm d a b = false)
include hbad

theorem fence_illegal : execFence th d a b s = raises s th excIllegal := by
  unfold execFence
  rw [issue_ready h]
  simp [hbad, raises]

theorem fenceLl_illegal : execFenceLl th d a b s = raises s th excIllegal := by
  unfold execFenceLl
  rw [issue_ready h]
  simp [hbad, raises]

theorem moor_illegal : execMoor th d a b s = raises s th excIllegal := by
  unfold execMoor
  rw [issue_ready h]
  simp [hbad, raises]

theorem commit_illegal : execCommit th d a b s = raises s th excIllegal := by
  unfold execCommit
  rw [issue_ready h]
  cases hc : consOf s (thr s th).seq with
  | none => simp [hc, raises]
  | some c => simp [hc, hbad, raises]

theorem abort_illegal : execAbort th d a b s = raises s th excIllegal := by
  unfold execAbort
  rw [issue_ready h]
  cases hc : consOf s (thr s th).seq with
  | none => simp [hc, raises]
  | some c => simp [hc, hbad, raises]

end Order

/-! The oldest failure (R188). -/

/-- One step of the search for the oldest failure keeps the older of two. -/
def olderFail (acc : Option SFail) (f : SFail) : Option SFail :=
  match acc with
  | none => some f
  | some g => if f.id < g.id then some f else some g

theorem oldestFail_eq_foldl (l : List SFail) : oldestFail l = l.foldl olderFail none := rfl

theorem foldl_olderFail_keeps {f : SFail} {l : List SFail} (h : ∀ g ∈ l, g ≠ f → f.id < g.id) : l.foldl olderFail (some f) = some f := by
  induction l with
  | nil => rfl
  | cons g l ih =>
    have hstep : olderFail (some f) g = some f := by
      by_cases hg : g = f
      · simp [olderFail, hg]
      · exact if_neg (Nat.not_lt.mpr (Nat.le_of_lt (h g List.mem_cons_self hg)))
    rw [List.foldl_cons, hstep]
    exact ih fun x hx => h x (List.mem_cons_of_mem g hx)

/-- The failure whose number is below every other's is the oldest. -/
theorem foldl_olderFail_finds {f : SFail} {l : List SFail} (hf : f ∈ l) (h : ∀ g ∈ l, g ≠ f → f.id < g.id) (acc : Option SFail)
    (hacc : ∀ g ∈ acc, g ≠ f → f.id < g.id) : l.foldl olderFail acc = some f := by
  induction l generalizing acc with
  | nil => cases hf
  | cons x l ih =>
    have htail : ∀ g ∈ l, g ≠ f → f.id < g.id := fun g hg => h g (List.mem_cons_of_mem x hg)
    rw [List.foldl_cons]
    rcases List.mem_cons.mp hf with rfl | hin
    · have hstep : olderFail acc f = some f := by
        cases acc with
        | none => rfl
        | some g =>
          by_cases hg : g = f
          · simp [olderFail, hg]
          · exact if_pos (hacc g rfl hg)
      rw [hstep]
      exact foldl_olderFail_keeps htail
    · refine ih hin htail _ fun g hg => ?_
      cases acc with
      | none =>
        cases hg
        exact h x List.mem_cons_self
      | some y =>
        simp only [olderFail] at hg
        split at hg
        · cases hg
          exact h x List.mem_cons_self
        · exact hacc g hg

theorem oldestFail_eq_some {f : SFail} {l : List SFail} (hf : f ∈ l) (h : ∀ g ∈ l, g ≠ f → f.id < g.id) : oldestFail l = some f :=
  foldl_olderFail_finds hf h none fun g hg => by cases hg

/-! MOOR (R186, R188, R190). -/

/-- The state in which a MOOR begins to wait: the gated stores are released and the limits of R187 begin. -/
def moored (s : State) (th : ThreadId) : State :=
  let u := settledStores s th
  modThr u th (fun t => { t with run := .moor, moorAt := some (nowNs u), moorHostAt := nowNs u })

theorem settledStores_nowNs (s : State) (th : ThreadId) : nowNs (settledStores s th) = nowNs s :=
  (field_of_far (retryPoint_far (fetched s th) th) nowNs fun _ => rfl).trans
    (field_of_besideThreads (fetched_besideThreads s th) nowNs fun _ => rfl)

theorem moored_thr (s : State) (th : ThreadId) :
    let t := thr (moored s th) th
    t.arch = regsOf s th ∧ t.run = .moor ∧ t.stores = (thr s th).stores ∧ t.failures = (thr s th).failures ∧ t.gated = [] ∧
      t.moorAt = some (nowNs s) ∧ t.moorHostAt = nowNs s := by
  have hkept := settledStores_field (fun t => (t.arch, t.stores, t.failures)) (fun _ => rfl) (fun _ _ _ _ => rfl) (fun _ _ _ => rfl) s th
  simp only [Prod.mk.injEq] at hkept
  obtain ⟨harch, hstores, hfailures⟩ := hkept
  have hgated := settledStores_gated s th
  unfold moored
  rw [thr_modThr_same, settledStores_nowNs]
  generalize thr (settledStores s th) th = t at harch hstores hfailures hgated
  exact ⟨harch, rfl, hstores, hfailures, hgated, rfl, rfl⟩

theorem moor_settles {s : State} {th : ThreadId} (h : ready s th) : execMoor th 0 0 0 s = .next (moorSettle (moored s th) th) := by
  unfold execMoor
  rw [issue_ready h]
  exact congrArg Host.Outcome.next (if_neg (by decide))

/-- The state in which a MOOR that waits no more raises BARRIER_FAULT: its failures are taken (R190). -/
def mooringEnded (s : State) (th : ThreadId) : State := modThr s th (fun t => { t with failures := [], moorAt := none, run := .active })

theorem mooringEnded_thr (s : State) (th : ThreadId) :
    let t := thr (mooringEnded s th) th
    t.arch = (thr s th).arch ∧ t.failures = [] ∧ t.run = .active ∧ t.gated = (thr s th).gated := by
  unfold mooringEnded
  rw [thr_modThr_same]
  exact ⟨rfl, rfl, rfl, rfl⟩

theorem moorSettle_fails {s : State} {th : ThreadId} {f : SFail} (hmoor : (thr s th).run = .moor)
    (hf : oldestFail (thr s th).failures = some f) :
    moorSettle s th = takeExn (mooringEnded s th) th { code := 9, detail := f.reason.toNat, moorVa := some f.va } := by
  unfold moorSettle
  extract_lets t
  rw [if_pos hmoor, show oldestFail t.failures = some f from hf]
  rfl

/-- A MOOR that retires leaves no gated store. -/
theorem moorSettle_gated {s : State} {th : ThreadId} (hmoor : (thr s th).run = .moor) (hfail : (thr s th).failures = [])
    (hstores : (thr s th).stores = []) : (thr (moorSettle s th) th).gated = [] := by
  rw [moorSettle_complete hmoor hfail hstores, retryPoint_gated]

/-! Cache maintenance (R205 to R207). -/

theorem cacheVa_near {r : Arch} {d a : RegField} (h : d.val = 0) : cacheVa r d a = some (nearVa r (rd r a)) := if_pos h

theorem cacheVa_far {r : Arch} {d a : RegField} (h : d.val = 1) (ha : pairOk a = true) : cacheVa r d a = some (rdPair r a).toNat := by
  simp [cacheVa, h, ha]

theorem cacheVa_none {r : Arch} {d a : RegField} (h : 2 ≤ d.val ∨ d.val = 1 ∧ pairOk a = false) : cacheVa r d a = none := by
  unfold cacheVa
  rcases h with h | ⟨h, ha⟩
  · rw [if_neg (by omega), if_neg (by omega)]
  · simp [h, ha]

/-- The places that a maintenance instruction acts on. -/
def maintPlaces (s : State) (th : ThreadId) (range : Bool) (va len : Nat) : Except Exn (List Loc) :=
  if range then rangeLocs s th va len else locBytes s th .load va 1 0

section Maintenance
variable {s : State} {th : ThreadId} {d a b : RegField} {range needSys noCset : Bool} {act : State → Nat → State} {va : Nat} {ls : List Loc}
  (h : ready s th)
include h

theorem maint_illegal_address (hva : cacheVa (regsOf s th) d a = none) :
    maint th d a b range needSys noCset act s = raises s th excIllegal := by
  unfold maint
  rw [issue_ready h, regsOf_fetched]
  simp [hva, raises]

variable (hva : cacheVa (regsOf s th) d a = some va)
include hva

theorem maint_illegal_field (hb : b.val ≠ 0) : maint th d a b false needSys noCset act s = raises s th excIllegal := by
  unfold maint
  rw [issue_ready h, regsOf_fetched]
  simp [hva, raises, hb]

variable (hb : range = true ∨ b.val = 0)
include hb

theorem maint_privilege (hsys : sysMode (regsOf s th) = false) : maint th d a b range true noCset act s = raises s th excPrivilege := by
  have hform : ¬ ((!range) = true ∧ b.val ≠ 0) := by rcases hb with h | h <;> simp [h]
  unfold maint
  rw [issue_ready h, regsOf_fetched]
  simp only [hva, if_neg hform, hsys, Bool.not_false, and_self, if_true]
  rfl

variable (hsys : needSys = true → sysMode (regsOf s th) = true) (hls : maintPlaces (fetched s th) th range va (rd (regsOf s th) b).toNat = .ok ls)
include hsys hls

/-- A maintenance instruction whose form, mode and places are good looks for its lines in a commit set, then acts. -/
theorem maint_places : maint th d a b range needSys noCset act s =
    if noCset ∧ inCset (fetched s th) ls then raises s th (excStore 3 va)
    else .next (finish ((physLines ls).foldl act (settledStores s th)) th (regsOf s th)) := by
  have hform : ¬ ((!range) = true ∧ b.val ≠ 0) := by rcases hb with h | h <;> simp [h]
  have hmode : ¬ (needSys = true ∧ (!sysMode (regsOf s th)) = true) := by simpa using hsys
  have harch : (thr (retryPoint (fetched s th) th) th).arch = regsOf s th := (retryPoint_arch ..).trans (regsOf_fetched ..)
  unfold maintPlaces at hls
  unfold maint
  rw [issue_ready h, regsOf_fetched]
  simp only [hva, if_neg hform, if_neg hmode, hls, harch]
  exact (apply_ite Host.Outcome.next ..)

theorem maint_acts (hfree : noCset = true → inCset (fetched s th) ls = false) : maint th d a b range needSys noCset act s =
    .next (finish ((physLines ls).foldl act (settledStores s th)) th (regsOf s th)) := by
  rw [maint_places h hva hb hsys hls, if_neg (by simpa using hfree)]

theorem maint_ledgered (hheld : inCset (fetched s th) ls = true) : maint th d a b range needSys true act s = raises s th (excStore 3 va) := by
  rw [maint_places h hva hb hsys hls, if_pos ⟨rfl, hheld⟩]

end Maintenance

/-- IINV takes a line out of the L1I of the issuing cores (R199, R206). -/
def iinvLine (th : ThreadId) (u : State) (l : Nat) : State :=
  setPc u th.pier.val { pcOf u th.pier.val with
    l1i := (pcOf u th.pier.val).l1i.map (fun e => (e.1, if (coresOf u th).contains e.1 then l1Clear e.2 l else e.2)) }

theorem iinvLine_regsOf (th : ThreadId) (u : State) (ls : List Nat) : regsOf (ls.foldl (iinvLine th) u) th = regsOf u th :=
  List.foldlRecOn (motive := fun v : State => regsOf v th = regsOf u th) _ _ rfl fun _ hv _ _ => hv

section Iinv
variable {s : State} {th : ThreadId} {d a b : RegField} {va : Nat} {ls : List Loc} (h : ready s th)
include h

theorem iinv_illegal_address (hva : cacheVa (regsOf s th) d a = none) : execIinv th d a b s = raises s th excIllegal := by
  unfold execIinv
  rw [issue_ready h, regsOf_fetched]
  simp [hva, raises]

variable (hva : cacheVa (regsOf s th) d a = some va)
include hva

theorem iinv_illegal_field (hb : b.val ≠ 0) : execIinv th d a b s = raises s th excIllegal := by
  unfold execIinv
  rw [issue_ready h, regsOf_fetched]
  simp [hva, raises, hb]

theorem iinv_acts (hls : locBytes (fetched s th) th .fetch va 1 0 = .ok ls) :
    execIinv th d a 0 s = .next (finish ((physLines ls).foldl (iinvLine th) (fetched s th)) th (regsOf s th)) := by
  have harch := (iinvLine_regsOf th (fetched s th) (physLines ls)).trans (regsOf_fetched s th)
  unfold execIinv
  rw [issue_ready h, regsOf_fetched]
  simp only [hva, hls]
  exact congrArg (fun r => Host.Outcome.next (finish ((physLines ls).foldl (iinvLine th) (fetched s th)) th r)) harch

end Iinv

end Sys2Proof.Machine

namespace Sys2Proof.Proofs
open Sys2Proof.Machine

/-- Settles O27: a fence releases the gated stores; a MOOR waits in the state `moored`, which moorSettle settles. -/
theorem fencesAndMoor : Obligations.FencesAndMoor := by
  unfold Obligations.FencesAndMoor
  refine ⟨?_, ?_⟩
  · intro s th d a b h r released
    refine ⟨fence_releases h, fence_releases h, fenceLl_leaves h, retryPoint_gated .., (retryPoint_arch ..).trans (regsOf_fetched ..),
      fun hfields i hi => ?_⟩
    have hbad := orderForm_eq_false hfields
    simp only [List.mem_cons, List.not_mem_nil, or_false] at hi
    rcases hi with rfl | rfl | rfl | rfl | rfl | rfl
    · exact fence_illegal h hbad
    · exact fenceLl_illegal h hbad
    · exact fence_illegal h hbad
    · exact moor_illegal h hbad
    · exact commit_illegal h hbad
    · exact abort_illegal h hbad
  · intro s th f h r t
    obtain ⟨harch, hrun, hstores, hfailures, hgated, hat, hhostAt⟩ := moored_thr s th
    refine ⟨fun hcomplete hnone => ?_, fun hincomplete hnone => ?_, fun hf hleast => ?_⟩
    · have hnone' := hfailures.trans hnone
      have hcomplete' := hstores.trans hcomplete
      obtain ⟨hregs, hactive, -, hend⟩ := moorSettle_retires hrun hnone' hcomplete'
      refine ⟨_, moor_settles h, hregs.trans ?_, hactive, moorSettle_gated hrun hnone' hcomplete', hend⟩
      exact congrArg stepPc harch
    · refine ⟨_, (moor_settles h).trans (congrArg Host.Outcome.next ?_), harch, hrun, hstores, hgated, hat, hhostAt⟩
      exact moorSettle_incomplete hrun (hfailures.trans hnone) (ne_of_eq_of_ne hstores hincomplete)
    · have holdest := (congrArg oldestFail hfailures).trans (oldestFail_eq_some hf hleast)
      refine ⟨mooringEnded (moored s th) th, (moor_settles h).trans (congrArg Host.Outcome.next (moorSettle_fails hrun holdest)), ?_⟩
      obtain ⟨hendArch, hendFailures, hendRun, hendGated⟩ := mooringEnded_thr (moored s th) th
      exact ⟨hendArch.trans harch, hendFailures, hendRun, hendGated.trans hgated⟩

/-- Settles O31: every form but IINV is `maint` with its action. -/
theorem cacheMaintenance : Obligations.CacheMaintenance := by
  unfold Obligations.CacheMaintenance
  intro s th d a b va ls hr r sys h isPair acts clean inv
  refine ⟨fun haddr => ?_, fun hbad i hi => ?_⟩
  · have hva : cacheVa r d a = some va := by
      rcases haddr with ⟨hd, rfl⟩ | ⟨hd, ha, rfl⟩
      · exact cacheVa_near hd
      · exact cacheVa_far hd (pairOk_iff.mpr ha)
    refine ⟨fun hls => ?_, fun hls => ?_, fun hls => iinv_acts hr hva hls, fun huser i hi => ?_, fun hb i hi => ?_⟩
    · have one : false = true ∨ (0 : RegField).val = 0 := .inr rfl
      have free : false = true → inCset (fetched s th) ls = false := nofun
      exact ⟨maint_acts hr hva one nofun hls nofun, maint_acts hr hva one nofun hls nofun,
        fun hsys => ⟨maint_acts hr hva one (fun _ => hsys) hls nofun, maint_acts hr hva one (fun _ => hsys) hls nofun⟩,
        fun hsys hfree => maint_acts hr hva one (fun _ => hsys) hls fun _ => hfree,
        fun hsys hheld => maint_ledgered hr hva one (fun _ => hsys) hls hheld⟩
    · exact ⟨maint_acts hr hva (.inl rfl) nofun hls nofun,
        fun hsys hfree => maint_acts hr hva (.inl rfl) (fun _ => hsys) hls fun _ => hfree,
        fun hsys hheld => maint_ledgered hr hva (.inl rfl) (fun _ => hsys) hls hheld⟩
    · have hmode : sysMode r = false := Bool.eq_false_iff.mpr huser
      simp only [List.mem_cons, List.not_mem_nil, or_false] at hi
      rcases hi with rfl | rfl | rfl | rfl
      · exact maint_privilege hr hva (.inr rfl) hmode
      · exact maint_privilege hr hva (.inl rfl) hmode
      · exact maint_privilege hr hva (.inr rfl) hmode
      · exact maint_privilege hr hva (.inr rfl) hmode
    · have hb' := field_ne_zero.mp hb
      simp only [List.mem_cons, List.not_mem_nil, or_false] at hi
      rcases hi with rfl | rfl | rfl | rfl | rfl | rfl
      · exact maint_illegal_field hr hva hb'
      · exact maint_illegal_field hr hva hb'
      · exact maint_illegal_field hr hva hb'
      · exact iinv_illegal_field hr hva hb'
      · exact maint_illegal_field hr hva hb'
      · exact maint_illegal_field hr hva hb'
  · have hva : cacheVa r d a = none := cacheVa_none (hbad.imp_right fun ⟨hd, ha⟩ => ⟨hd, Bool.eq_false_iff.mpr (mt pairOk_iff.mp ha)⟩)
    simp only [List.mem_cons, List.not_mem_nil, or_false] at hi
    rcases hi with rfl | rfl | rfl | rfl | rfl | rfl | rfl | rfl
    · exact maint_illegal_address hr hva
    · exact maint_illegal_address hr hva
    · exact maint_illegal_address hr hva
    · exact iinv_illegal_address hr hva
    · exact maint_illegal_address hr hva
    · exact maint_illegal_address hr hva
    · exact maint_illegal_address hr hva
    · exact maint_illegal_address hr hva

end Sys2Proof.Proofs
end

section
/-! PROOFS. The floating-point instructions (R128, R129, R152, R163 to R170). -/

namespace Sys2Proof.Machine

/-! Flags and traps (R152, R163, R164, R167). -/

/-- What an instruction with flags answers: FP_TRAP with nothing written where one of them is enabled, else its result with the flags stuck. -/
def flagged (s : State) (th : ThreadId) (o : Out) (flags : Nat) (put : Arch → Arch) : Prop :=
  let r := regsOf s th
  (r.fcsr.extractLsb' 5 5 &&& BitVec.ofNat 5 flags ≠ 0 → o = raises s th excFpTrap) ∧
  (r.fcsr.extractLsb' 5 5 &&& BitVec.ofNat 5 flags = 0 → o = leaves s th (put { r with fcsr := r.fcsr ||| BitVec.ofNat 24 (flags % 32) }))

/-- The same of an instruction that reads RM: ILLEGAL where it holds 5 to 7. -/
def rounded (s : State) (th : ThreadId) (o : Out) (flags : Nat) (put : Arch → Arch) : Prop :=
  (5 ≤ fcsrRm (regsOf s th) → o = raises s th excIllegal) ∧ (fcsrRm (regsOf s th) < 5 → flagged s th o flags put)

theorem fOut_pc (f : Fmt) (a : Arch) (d : RegField) (v : Nat) : (fOut f a d v).pc = a.pc := by
  unfold fOut
  split <;> rfl

/-- With no flag there is no trap, and FCSR stays as it is. -/
theorem flagged_none {s : State} {th : ThreadId} {o : Out} {put : Arch → Arch} (h : flagged s th o 0 put) :
    o = leaves s th (put (regsOf s th)) :=
  (h.2 (by simp)).trans (by simp)

section Shapes
variable {s : State} {th : ThreadId} (h : ready s th)
include h

/-- An instruction whose registers come from raising its flags and then writing its result. -/
theorem regInstr_flagged {f : Arch → Except Exn Arch} {flags : Nat} {put : Arch → Arch}
    (herror : ∀ e, raiseFp (regsOf s th) flags = .error e → f (regsOf s th) = .error e)
    (hok : ∀ q, raiseFp (regsOf s th) flags = .ok q → f (regsOf s th) = .ok (put q)) (hpc : ∀ q, (put q).pc = q.pc) :
    flagged s th (.next (regInstr th f s)) flags put := by
  refine ⟨fun htrap => ?_, fun hquiet => ?_⟩
  · exact regInstr_raises h (herror _ (if_pos htrap))
  · exact regInstr_leaves h (hok _ (if_neg (not_not.mpr hquiet))) (hpc _)

theorem fpPlain_flagged (f : Fmt) (d : RegField) (op : Arch → Nat × Nat) :
    flagged s th (fpPlain th f d op s) (op (regsOf s th)).2 (fun q => fOut f q d (op (regsOf s th)).1) := by
  refine regInstr_flagged h (fun e he => ?_) (fun q hq => ?_) fun q => fOut_pc ..
  · simp only [he]
  · simp only [hq]

theorem fpCompare_flagged (f : Fmt) (kind : Nat) (d a b : RegField) :
    let v := fCompare kind (fIn f (regsOf s th) a) (fIn f (regsOf s th) b)
    flagged s th (fpCompare th f kind d a b s) v.2 (fun q => wr q d (boolW v.1)) := by
  refine regInstr_flagged h (fun e he => ?_) (fun q hq => ?_) fun q => wr_pc ..
  · simp only [he]
  · simp only [hq]

theorem fpBits_double {d a : RegField} {op : Nat → Nat} {v : BitVec 64} (hop : BitVec.ofNat 64 (op (rdF (regsOf s th) a).toNat) = v) :
    fpBits th f64 d a op s = leaves s th (wrF (regsOf s th) d v) :=
  regInstr_leaves h (congrArg (fun v => Except.ok (wrF (regsOf s th) d v)) hop) rfl

theorem fpBits_single {d a : RegField} {op : Nat → Nat} {v : BitVec 64}
    (hop : (BitVec.ofNat 32 (op (rdF32 (regsOf s th) a).toNat)).setWidth 64 = v) :
    fpBits th f32 d a op s = leaves s th (wrF (regsOf s th) d v) :=
  regInstr_leaves h (congrArg (fun v => Except.ok (wrF (regsOf s th) d v)) hop) rfl

theorem fpRound_rounded {ok : Bool} (hform : ok = true) (f : Fmt) (d : RegField) (op : Arch → Nat → Bool → Nat × Nat) :
    let v := op (regsOf s th) (fcsrRm (regsOf s th)) (fcsrFtz (regsOf s th))
    rounded s th (fpRound th ok f d op s) v.2 (fun q => fOut f q d v.1) := by
  subst hform
  refine ⟨fun hrm => ?_, fun hrm => regInstr_flagged h (fun e he => ?_) (fun q hq => ?_) fun q => fOut_pc ..⟩
  · exact regInstr_raises h (if_pos (by simp [hrm]))
  · simp [Nat.not_le.mpr hrm, he]
  · simp [Nat.not_le.mpr hrm, hq]

theorem fpRound_illegal {ok : Bool} (hform : ok = false) (f : Fmt) (d : RegField) (op : Arch → Nat → Bool → Nat × Nat) :
    fpRound th ok f d op s = raises s th excIllegal :=
  regInstr_raises h (if_pos (by simp [hform]))

theorem fpToInt_rounded {ok : Bool} (hform : ok = true) (a : RegField) (lo hi : Int) {put : Arch → Int → Arch}
    (hpc : ∀ q v, (put q v).pc = q.pc) :
    let v := fToInt (fcsrRm (regsOf s th)) lo hi (fIn f64 (regsOf s th) a)
    rounded s th (fpToInt th ok a lo hi put s) v.2 (fun q => put q v.1) := by
  subst hform
  refine ⟨fun hrm => ?_, fun hrm => regInstr_flagged h (fun e he => ?_) (fun q hq => ?_) fun q => hpc q _⟩
  · exact regInstr_raises h (if_pos (by simp [hrm]))
  · simp [Nat.not_le.mpr hrm, he]
  · simp [Nat.not_le.mpr hrm, hq]

theorem fpToInt_illegal {ok : Bool} (hform : ok = false) (a : RegField) (lo hi : Int) (put : Arch → Int → Arch) :
    fpToInt th ok a lo hi put s = raises s th excIllegal :=
  regInstr_raises h (if_pos (by simp [hform]))

/-- FCVT_D_W and its kin: an integer of the registers as binary64, with no flag. -/
theorem fpPlain_convert (d : RegField) (source : Arch → Int) : fpPlain th f64 d (fun r => (fOfInt (source r), 0)) s =
    leaves s th (wrF (regsOf s th) d (BitVec.ofNat 64 (fOfInt (source (regsOf s th))))) :=
  flagged_none (put := fun q => wrF q d (BitVec.ofNat 64 (fOfInt (source (regsOf s th)))))
    (fpPlain_flagged h f64 d fun r => (fOfInt (source r), 0))

theorem fcvtDP_leaves {d a : RegField} (ha : pairOk a = true) : execFcvtDP th d a s =
    leaves s th (wrF (regsOf s th) d (BitVec.ofNat 64 (fOfInt (rdPair (regsOf s th) a).toInt))) :=
  regInstr_leaves h (if_pos ha) rfl

theorem fcvtDP_illegal {d a : RegField} (ha : pairOk a = false) : execFcvtDP th d a s = raises s th excIllegal :=
  regInstr_raises h (if_neg (by simp [ha]))

theorem fmvx_leaves {d a : RegField} (hd : tripleOk d = true) : execFmvx th d a s =
    leaves s th (wrTriple (regsOf s th) d (rdF (regsOf s th) a)) :=
  regInstr_leaves h (if_pos hd) rfl

theorem fmvx_illegal {d a : RegField} (hd : tripleOk d = false) : execFmvx th d a s = raises s th excIllegal :=
  regInstr_raises h (if_neg (by simp [hd]))

theorem fmvf_leaves {d a : RegField} (ha : tripleOk a = true) : execFmvf th d a s =
    leaves s th (wrF (regsOf s th) d (rdTriple (regsOf s th) a)) :=
  regInstr_leaves h (if_pos ha) rfl

theorem fmvf_illegal {d a : RegField} (ha : tripleOk a = false) : execFmvf th d a s = raises s th excIllegal :=
  regInstr_raises h (if_neg (by simp [ha]))

end Shapes

/-! Sign bits (R168). -/

theorem add_two_pow_mod_eq_xor {v n : Nat} (h : v < 2 ^ (n + 1)) : (v + 2 ^ n) % 2 ^ (n + 1) = v ^^^ 2 ^ n := by
  refine Nat.eq_of_testBit_eq fun i => ?_
  rw [Nat.testBit_mod_two_pow, Nat.testBit_xor, Nat.testBit_two_pow, Nat.add_comm v]
  rcases Nat.lt_trichotomy i n with hi | rfl | hi
  · rw [Nat.testBit_two_pow_add_gt hi]
    simp [Nat.lt_succ_of_lt hi, hi.ne']
  · simp [Nat.testBit_two_pow_add_eq]
  · rw [Nat.testBit_lt_two_pow (Nat.lt_of_lt_of_le h (Nat.pow_le_pow_right (by decide) hi))]
    simp [Nat.not_lt.mpr (Nat.succ_le_of_lt hi), hi.ne]

/-- Flipping the sign of n + 1 bits flips their bit n (R168). -/
theorem ofNat_flipped_sign {n : Nat} (y : BitVec (n + 1)) :
    BitVec.ofNat (n + 1) (if y.toNat < 2 ^ n then y.toNat + 2 ^ n else y.toNat - 2 ^ n) = y ^^^ BitVec.twoPow (n + 1) n := by
  have hy := y.isLt
  apply BitVec.eq_of_toNat_eq
  rw [BitVec.toNat_ofNat, BitVec.toNat_xor, BitVec.toNat_twoPow, Nat.mod_eq_of_lt (Nat.pow_lt_pow_succ (by decide)), ← add_two_pow_mod_eq_xor hy]
  split
  · rfl
  · next hhigh =>
    have hsum : y.toNat + 2 ^ n = y.toNat - 2 ^ n + 2 ^ (n + 1) := by
      rw [Nat.pow_succ]
      omega
    rw [hsum, Nat.add_mod_right]

theorem ofNat_cleared_sign {n : Nat} (y : BitVec (n + 1)) :
    BitVec.ofNat (n + 1) (y.toNat % 2 ^ n) = y &&& BitVec.ofNat (n + 1) (2 ^ n - 1) := by
  apply BitVec.eq_of_toNat_eq
  have hlt : 2 ^ n - 1 < 2 ^ (n + 1) := Nat.lt_of_le_of_lt (Nat.sub_le ..) (Nat.pow_lt_pow_succ (by decide))
  rw [BitVec.toNat_and, BitVec.toNat_ofNat, BitVec.toNat_ofNat, Nat.mod_eq_of_lt hlt, Nat.and_two_pow_sub_one_eq_mod,
    Nat.mod_eq_of_lt (Nat.lt_of_le_of_lt (Nat.mod_le ..) y.isLt)]

/-- A binary32 operand fills the register's low half (R128). -/
theorem setWidth_low (x : BitVec 64) : (x.extractLsb' 0 32).setWidth 64 = x &&& 0xFFFFFFFF := by
  apply BitVec.eq_of_toNat_eq
  rw [BitVec.toNat_and, show (0xFFFFFFFF : BitVec 64).toNat = 2 ^ 32 - 1 from rfl, Nat.and_two_pow_sub_one_eq_mod, BitVec.toNat_setWidth,
    BitVec.extractLsb'_toNat]
  omega

theorem single_kept (x : BitVec 64) : (BitVec.ofNat 32 (x.extractLsb' 0 32).toNat).setWidth 64 = x &&& 0xFFFFFFFF := by
  rw [BitVec.ofNat_toNat, BitVec.setWidth_eq, setWidth_low]

theorem single_cleared_sign (x : BitVec 64) :
    (BitVec.ofNat 32 ((x.extractLsb' 0 32).toNat % 2 ^ 31)).setWidth 64 = x &&& 0x7FFFFFFF := by
  rw [ofNat_cleared_sign (n := 31), BitVec.setWidth_and, setWidth_low, BitVec.and_assoc]
  rfl

theorem single_flipped_sign (x : BitVec 64) :
    let v := (x.extractLsb' 0 32).toNat
    (BitVec.ofNat 32 (if v < 2 ^ 31 then v + 2 ^ 31 else v - 2 ^ 31)).setWidth 64 = (x &&& 0xFFFFFFFF) ^^^ 0x80000000 := by
  intro v
  rw [ofNat_flipped_sign (n := 31), BitVec.setWidth_xor, setWidth_low]
  rfl

/-! Whole numbers as binary64 (R165, R170). -/

/-- A magnitude scaled to a 53-bit significand. -/
theorem log2_scaled {m : Nat} (hm : m ≠ 0) (hsmall : m < 2 ^ 53) :
    2 ^ 52 ≤ m * 2 ^ (52 - Nat.log2 m) ∧ m * 2 ^ (52 - Nat.log2 m) < 2 ^ 53 := by
  have hL : Nat.log2 m ≤ 52 := Nat.lt_succ_iff.mp ((Nat.log2_lt hm).mpr hsmall)
  obtain ⟨j, hj⟩ := Nat.exists_eq_add_of_le hL
  have hlow := Nat.mul_le_mul_right (2 ^ j) (Nat.log2_self_le hm)
  have hhigh := Nat.mul_lt_mul_of_pos_right (Nat.lt_log2_self (n := m)) (Nat.two_pow_pos j)
  rw [← Nat.pow_add] at hlow hhigh
  rw [hj, Nat.add_sub_cancel_left]
  rw [show m.log2 + 1 + j = 53 by omega] at hhigh
  exact ⟨hlow, hhigh⟩

theorem quantize_exact {rm m : Nat} {neg : Bool} {e q : Int} (h : q ≤ e) : quantize rm neg m e q = (m * 2 ^ (e - q).toNat, false) := if_pos h

theorem quantize_multiple (rm : Nat) (neg : Bool) (m j : Nat) : quantize rm neg (m * 2 ^ j) (-(j : Int)) 0 = (m, false) := by
  unfold quantize
  rcases Nat.eq_zero_or_pos j with rfl | hj
  · simp
  · rw [if_neg (by omega)]
    simp

/-- The encoding of a whole number below 2^53 is exact (R165, R170). -/
theorem fRound_whole {m : Nat} (hm : m ≠ 0) (hsmall : m < 2 ^ 53) (rm : Nat) (neg : Bool) : (fRound f64 rm false neg m 0).1 =
    withSign f64 neg ((Nat.log2 m + 1023) * 2 ^ 52 + (m * 2 ^ (52 - Nat.log2 m) - 2 ^ 52)) := by
  have hL : Nat.log2 m ≤ 52 := Nat.lt_succ_iff.mp ((Nat.log2_lt hm).mpr hsmall)
  obtain ⟨hlow, hhigh⟩ := log2_scaled hm hsmall
  have hq : max ((0 : Int) + Nat.log2 m - (f64.mb : Nat)) (fEmin f64 - (f64.mb : Nat)) = (Nat.log2 m : Int) - 52 := by
    have hmin : fEmin f64 = -1022 := rfl
    have hmb : f64.mb = 52 := rfl
    rw [hmin, hmb]
    omega
  have hshift : ((0 : Int) - ((Nat.log2 m : Int) - 52)).toNat = 52 - Nat.log2 m := by omega
  have hbiased : (((Nat.log2 m : Int) - 52) + (52 : Nat) + 1023).toNat = Nat.log2 m + 1023 := by omega
  unfold fRound
  simp only [hq]
  rw [quantize_exact (by omega), hshift]
  generalize m * 2 ^ (52 - Nat.log2 m) = k at hlow hhigh
  have hcarry : k ≠ 2 ^ (52 + 1) := by omega
  simp only [show f64.mb = 52 from rfl, show f64.eb = 11 from rfl, show fBias f64 = 1023 from rfl, if_neg hcarry]
  rw [if_neg (by omega), if_neg (by omega), hbiased]

theorem fRead_normal {ex fr : Nat} (hpos : 0 < ex) (hex : ex < 2047) (hfr : fr < 2 ^ 52) (neg : Bool) :
    fRead f64 false (withSign f64 neg (ex * 2 ^ 52 + fr)) = .fin neg (2 ^ 52 + fr) ((ex : Int) - 1023 - 52) := by
  have hsign : fSign f64 = 2 ^ 63 := rfl
  have hbits : withSign f64 neg (ex * 2 ^ 52 + fr) = (if neg then 2 ^ 63 else 0) + (ex * 2 ^ 52 + fr) := by
    cases neg <;> simp [withSign, hsign]
  unfold fRead
  rw [hbits, hsign]
  simp only [show f64.mb = 52 from rfl, show f64.eb = 11 from rfl, show fBias f64 = 1023 from rfl]
  have h1 : ((if neg then 2 ^ 63 else 0) + (ex * 2 ^ 52 + fr)) / 2 ^ 52 % 2 ^ 11 = ex := by cases neg <;> simp <;> omega
  have h2 : ((if neg then 2 ^ 63 else 0) + (ex * 2 ^ 52 + fr)) % 2 ^ 52 = fr := by cases neg <;> simp <;> omega
  have h3 : (((if neg then 2 ^ 63 else 0) + (ex * 2 ^ 52 + fr)) / 2 ^ 63 % 2 == 1) = neg := by cases neg <;> simp <;> omega
  rw [h1, h2, h3, if_neg (by omega), if_neg (by omega)]
  rfl

/-- The value that an integer's encoding reads as. -/
theorem fRead_fOfInt {v : Int} (hv : v ≠ 0) (hsmall : v.natAbs < 2 ^ 53) : fRead f64 false (BitVec.ofNat 64 (fOfInt v)).toNat =
    .fin (decide (v < 0)) (v.natAbs * 2 ^ (52 - Nat.log2 v.natAbs)) (-((52 - Nat.log2 v.natAbs : Nat) : Int)) := by
  have hm : v.natAbs ≠ 0 := Int.natAbs_ne_zero.mpr hv
  have hL : Nat.log2 v.natAbs ≤ 52 := Nat.lt_succ_iff.mp ((Nat.log2_lt hm).mpr hsmall)
  obtain ⟨hlow, hhigh⟩ := log2_scaled hm hsmall
  rw [fOfInt, if_neg hv, fRound_whole hm hsmall]
  generalize v.natAbs * 2 ^ (52 - Nat.log2 v.natAbs) = k at hlow hhigh
  have hfits : withSign f64 (decide (v < 0)) ((Nat.log2 v.natAbs + 1023) * 2 ^ 52 + (k - 2 ^ 52)) < 2 ^ 64 := by
    unfold withSign
    have hsign : fSign f64 = 2 ^ 63 := rfl
    split <;> omega
  rw [BitVec.toNat_ofNat, Nat.mod_eq_of_lt hfits, fRead_normal (by omega) (by omega) (by omega), Nat.add_sub_cancel' hlow]
  refine congrArg (FVal.fin _ k) ?_
  omega

/-- An integer of at most 53 bits converts to binary64 and back exactly (R170). -/
theorem fToInt_fOfInt {v lo hi : Int} (hsmall : v.natAbs < 2 ^ 53) (hlo : lo ≤ v) (hhi : v ≤ hi) :
    fToInt 0 lo hi (fRead f64 false (BitVec.ofNat 64 (fOfInt v)).toNat) = (v, 0) := by
  by_cases hv : v = 0
  · subst hv
    rfl
  · have hvalue : (if decide (v < 0) = true then -(v.natAbs : Int) else v.natAbs) = v := by
      split
      · next h => rw [Int.ofNat_natAbs_of_nonpos (of_decide_eq_true h).le, neg_neg]
      · next h => exact Int.natAbs_of_nonneg (not_lt.mp (by simpa using h))
    rw [fRead_fOfInt hv hsmall]
    simp only [fToInt, quantize_multiple, hvalue]
    rw [if_neg (not_lt.mpr hlo), if_neg (not_lt.mpr hhi)]
    rfl

theorem fToInt_signed {n : Nat} (hn : n < 53) (x : BitVec (n + 1)) :
    fToInt 0 (-2 ^ n) (2 ^ n - 1) (fRead f64 false (BitVec.ofNat 64 (fOfInt x.toInt)).toNat) = (x.toInt, 0) := by
  have hlo := x.le_toInt
  have hhi := x.toInt_lt
  have hpow : (2 : Int) ^ n < 2 ^ 53 := pow_lt_pow_right₀ (by decide) hn
  rw [Nat.add_sub_cancel] at hlo hhi
  refine fToInt_fOfInt ?_ hlo ?_
  · omega
  · omega

theorem fToInt_unsigned {n : Nat} (hn : n < 53) (x : BitVec n) :
    fToInt 0 0 (2 ^ n - 1) (fRead f64 false (BitVec.ofNat 64 (fOfInt x.toNat)).toNat) = ((x.toNat : Int), 0) := by
  have hlt := x.isLt
  have hpow : 2 ^ n < 2 ^ 53 := Nat.pow_lt_pow_right (by decide) hn
  refine fToInt_fOfInt ?_ (Int.natCast_nonneg _) ?_
  · omega
  · have : (x.toNat : Int) < 2 ^ n := by exact_mod_cast hlt
    omega

end Sys2Proof.Machine

namespace Sys2Proof.Proofs
open Sys2Proof.Machine

/-- Settles O37: every such instruction is fpRound of its operation or fpToInt. -/
theorem floatsThatRound : Obligations.FloatsThatRound := by
  unfold Obligations.FloatsThatRound
  intro s th d a b h r rm ftz daz x y out dbl sgl
  have two (f : Fmt) (op : Fmt → Nat → Bool → FVal → FVal → Nat × Nat) :=
    fpRound_rounded h (ok := true) rfl f d fun r rm ftz => op f rm ftz (fIn f r a) (fIn f r b)
  have one (f : Fmt) (op : Nat → Bool → FVal → Nat × Nat) (source : Fmt) :=
    fpRound_rounded h (ok := true) rfl f d fun r rm ftz => op rm ftz (fIn source r a)
  have fused (f : Fmt) (negProduct negSum : Bool) :=
    fpRound_rounded h (ok := true) rfl f d fun r rm ftz => fFma f rm ftz negProduct negSum (fIn f r a) (fIn f r b) (fIn f r d)
  have toWord (lo hi : Int) := fpToInt_rounded h (ok := true) rfl a lo hi (put := fun q v => wr q d (BitVec.ofInt 24 v)) fun _ _ => wr_pc ..
  have toPair (hd : pairOk d = true) := fpToInt_rounded h hd a (-2 ^ 47) (2 ^ 47 - 1) (put := fun q v => wrPair q d (BitVec.ofInt 48 v)) fun _ _ => rfl
  have noPair (hd : pairOk d = false) := fpToInt_illegal h hd a (-2 ^ 47) (2 ^ 47 - 1) fun q v => wrPair q d (BitVec.ofInt 48 v)
  refine ⟨two f64 fAdd, two f64 fSub, two f64 fMul, two f64 fDiv, one f64 (fSqrt f64) f64, fused f64 false false, fused f64 false true,
    fused f64 true true, fused f64 true false, two f32 fAdd, two f32 fSub, two f32 fMul, two f32 fDiv, one f32 (fSqrt f32) f32,
    fused f32 false false, fused f32 false true, fused f32 true true, fused f32 true false, one f32 fNarrow f64,
    toWord (-2 ^ 23) (2 ^ 23 - 1), toWord 0 (2 ^ 24 - 1), fun hd => toPair (pairOk_iff.mpr hd), fun hd => noPair (pairOk_eq_false hd),
    fun hb => ?_⟩
  have hform : (b.val == 0) = false := beq_eq_false_iff_ne.mpr (field_ne_zero.mp hb)
  have root (f : Fmt) := fpRound_illegal h hform f d fun r rm ftz => fSqrt f rm ftz (fIn f r a)
  exact ⟨root f64, root f32⟩

/-- Settles O38: these are fpPlain, fpCompare, fpBits and plain moves; an integer converts to binary64 and back exactly. -/
theorem floatsThatDoNotRound : Obligations.FloatsThatDoNotRound := by
  unfold Obligations.FloatsThatDoNotRound
  intro s th d a b h r daz u w x y out dbl sgl cmp
  have minMax (f : Fmt) (isMax : Bool) := fpPlain_flagged h f d fun r => fMinMax f isMax (fOp f r a) (fOp f r b) (fIn f r a) (fIn f r b)
  have compare (f : Fmt) (kind : Nat) := fpCompare_flagged h f kind d a b
  refine ⟨minMax f64 false, minMax f64 true, minMax f32 false, minMax f32 true, compare f64 0, compare f64 1, compare f64 2,
    compare f32 0, compare f32 1, compare f32 2, fpPlain_flagged h f64 d fun r => fWiden (fIn f32 r a), ?_, ?_, ?_, ?_, ?_, ?_, ?_, ?_,
    fun ha => ?_, fun ha => fcvtDP_illegal h (pairOk_eq_false ha), fun hd => fmvx_leaves h (tripleOk_iff.mpr hd),
    fun ha => fmvf_leaves h (tripleOk_iff.mpr ha), fun hd => fmvx_illegal h (tripleOk_eq_false hd),
    fun ha => fmvf_illegal h (tripleOk_eq_false ha)⟩
  · exact fpBits_double h (op := fun v => v % fSign f64) (ofNat_cleared_sign (n := 63) _)
  · exact fpBits_double h (op := fun v => if v < fSign f64 then v + fSign f64 else v - fSign f64) (ofNat_flipped_sign (n := 63) _)
  · exact fpBits_double h (op := fun v => v) ((BitVec.ofNat_toNat 64 _).trans (BitVec.setWidth_eq _))
  · exact fpBits_single h (op := fun v => v % fSign f32) (single_cleared_sign _)
  · exact fpBits_single h (op := fun v => if v < fSign f32 then v + fSign f32 else v - fSign f32) (single_flipped_sign _)
  · exact fpBits_single h (op := fun v => v) (single_kept _)
  · exact ⟨_, fpPlain_convert h d fun r => (rd r a).toInt, fToInt_signed (n := 23) (by decide) _⟩
  · exact ⟨_, fpPlain_convert h d fun r => (rd r a).toNat, fToInt_unsigned (n := 24) (by decide) _⟩
  · exact ⟨_, fcvtDP_leaves h (pairOk_iff.mpr ha), fToInt_signed (n := 47) (by decide) _⟩

end Sys2Proof.Proofs
end
section
/-! PROOFS. The integer instructions that write C and V, and packed decimal (R159, R161, R162). -/

namespace Sys2Proof.Machine

/-! Bits of STATUS (R159, R162). -/

theorem getLsbD_putBit (w : Word) {i : Nat} (hi : i < 24) (b : Bool) (j : Nat) :
    (putBit w i b).getLsbD j = if j = i then b else w.getLsbD j := by
  have hmask : (1#24 <<< i).getLsbD j = decide (j = i) := by
    rw [← BitVec.twoPow_eq, BitVec.getLsbD_twoPow]
    simp [hi, eq_comm]
  have hhigh : 24 ≤ j → w.getLsbD j = false := BitVec.getLsbD_of_ge w j
  unfold putBit
  cases b
  · simp only [Bool.false_eq_true, if_false, BitVec.getLsbD_and, BitVec.getLsbD_not, hmask]
    by_cases hj : j < 24
    · by_cases hji : j = i <;> simp [hj, hji]
    · simp [hhigh (Nat.not_lt.mp hj)]
  · simp only [if_true, BitVec.getLsbD_or, hmask]
    by_cases hji : j = i <;> simp [hji]

theorem getLsbD_putBit_same (w : Word) {i : Nat} (hi : i < 24) (b : Bool) : (putBit w i b).getLsbD i = b := by
  rw [getLsbD_putBit w hi, if_pos rfl]

theorem getLsbD_putBit_ne (w : Word) {i j : Nat} (hi : i < 24) (b : Bool) (hj : j ≠ i) : (putBit w i b).getLsbD j = w.getLsbD j := by
  rw [getLsbD_putBit w hi, if_neg hj]

/-- Two different bits put: each holds its value, and the others stay. -/
theorem getLsbD_putBits (w : Word) {i j : Nat} (hi : i < 24) (hj : j < 24) (hij : i ≠ j) (b c : Bool) :
    (putBit (putBit w i b) j c).getLsbD i = b ∧ (putBit (putBit w i b) j c).getLsbD j = c ∧
      ∀ k : Nat, k ≠ i → k ≠ j → (putBit (putBit w i b) j c).getLsbD k = w.getLsbD k := by
  refine ⟨?_, getLsbD_putBit_same _ hj c, fun k hki hkj => ?_⟩
  · rw [getLsbD_putBit_ne _ hj c hij, getLsbD_putBit_same w hi]
  · rw [getLsbD_putBit_ne _ hj c hkj, getLsbD_putBit_ne w hi b hki]

/-- An instruction that writes C and V writes its result and these two bits of STATUS (R159). -/
theorem aluCV_writes {s : State} {th : ThreadId} {d a b : RegField} (h : ready s th) {f : Arch → Word → Word → Word × Bool × Bool} {v : Word}
    {c o : Bool} (hf : f (regsOf s th) (rd (regsOf s th) a) (rd (regsOf s th) b) = (v, c, o)) :
    ∃ st : Word, aluCV th d a b f s = leaves s th { wr (regsOf s th) d v with status := st } ∧ st.getLsbD 4 = c ∧ st.getLsbD 5 = o ∧
      ∀ j : Nat, j ≠ 4 → j ≠ 5 → st.getLsbD j = (regsOf s th).status.getLsbD j := by
  refine ⟨putBit (putBit (regsOf s th).status 4 c) 5 o, regInstr_leaves h ?_ (wr_pc ..),
    getLsbD_putBits _ (by decide) (by decide) (by decide) c o⟩
  simp only [hf, setCV, wr_status]

theorem addWithCarry_eq (x y : Word) (cin : Bool) : addWithCarry x y cin = (x + y + BitVec.ofNat 24 cin.toNat,
    decide (2 ^ 24 ≤ x.toNat + y.toNat + cin.toNat),
    decide (x.toInt + y.toInt + cin.toNat < -2 ^ 23 ∨ 2 ^ 23 - 1 < x.toInt + y.toInt + cin.toNat)) := by
  simp only [addWithCarry, bit_eq_toNat, BitVec.ofNat_add, BitVec.ofNat_toNat, BitVec.setWidth_eq]

theorem subWithBorrow_eq (x y : Word) (cin : Bool) : subWithBorrow x y cin = (x - y - BitVec.ofNat 24 cin.toNat,
    decide (x.toNat < y.toNat + cin.toNat),
    decide (x.toInt - y.toInt - cin.toNat < -2 ^ 23 ∨ 2 ^ 23 - 1 < x.toInt - y.toInt - cin.toNat)) := by
  simp only [subWithBorrow, bit_eq_toNat]

theorem addWithCarry_false (x y : Word) : addWithCarry x y false = (x + y, decide (2 ^ 24 ≤ x.toNat + y.toNat),
    decide (x.toInt + y.toInt < -2 ^ 23 ∨ 2 ^ 23 - 1 < x.toInt + y.toInt)) := by
  simp [addWithCarry_eq]

theorem subWithBorrow_false (x y : Word) : subWithBorrow x y false = (x - y, decide (x.toNat < y.toNat),
    decide (x.toInt - y.toInt < -2 ^ 23 ∨ 2 ^ 23 - 1 < x.toInt - y.toInt)) := by
  simp [subWithBorrow_eq]

/-! Packed decimal (R161, R162). -/

theorem nibble_lt (w : Word) (i : Nat) : nibble w i < 16 := Nat.mod_lt _ (by decide)

theorem nibble_ofNat (v : Nat) {i : Nat} (hi : i < 6) : nibble (BitVec.ofNat 24 v) i = v / 16 ^ i % 16 := by
  have hsplit : 2 ^ 24 = 16 ^ i * 16 ^ (6 - i) := by
    rw [← Nat.pow_add, Nat.add_sub_cancel' hi.le]
    rfl
  rw [nibble, BitVec.toNat_ofNat, hsplit, Nat.mod_mul_right_div_self, Nat.mod_mod_of_dvd]
  exact dvd_pow_self 16 (Nat.sub_ne_zero_of_lt hi)

/-- The decimal instructions look at each operand by itself. -/
theorem badDigit_or (x y : Word) :
    (badDigit x || badDigit y) = (List.range 6).any fun i => decide (9 < nibble x i ∨ 9 < nibble y i) := by
  rw [Bool.eq_iff_iff]
  simp only [badDigit, Bool.or_eq_true, List.any_eq_true, decide_eq_true_eq, and_or_left, exists_or]

/-- What a decimal instruction on rA and rB answers: its result and C written, and DECINV set where a digit of an operand is bad (R162). -/
def writesDecimal (s : State) (th : ThreadId) (d a b : RegField) (o : Out) (v : Word) (c : Bool) : Prop :=
  let r := regsOf s th
  ∃ st : Word, o = leaves s th { wr r d v with status := st } ∧ st.getLsbD 4 = c ∧
    st.getLsbD 6 = (r.status.getLsbD 6 || (List.range 6).any fun i => decide (9 < nibble (rd r a) i ∨ 9 < nibble (rd r b) i)) ∧
    ∀ j : Nat, j ≠ 4 → j ≠ 6 → st.getLsbD j = r.status.getLsbD j

/-- C and the sticky DECINV, written to STATUS alone. -/
theorem stickDecinv_setC (r : Arch) (c bad : Bool) : ∃ st : Word, stickDecinv (setC r c) bad = { r with status := st } ∧ st.getLsbD 4 = c ∧
    st.getLsbD 6 = (r.status.getLsbD 6 || bad) ∧ ∀ j : Nat, j ≠ 4 → j ≠ 6 → st.getLsbD j = r.status.getLsbD j := by
  cases bad with
  | false =>
    refine ⟨putBit r.status 4 c, rfl, getLsbD_putBit_same _ (by decide) c, ?_, fun j h4 _ => getLsbD_putBit_ne _ (by decide) c h4⟩
    rw [getLsbD_putBit_ne _ (by decide) c (by decide), Bool.or_false]
  | true =>
    obtain ⟨hcarry, hinvalid, hrest⟩ := getLsbD_putBits r.status (i := 4) (j := 6) (by decide) (by decide) (by decide) c true
    exact ⟨_, rfl, hcarry, hinvalid.trans (Bool.or_true _).symm, hrest⟩

theorem aluDec_writes {s : State} {th : ThreadId} {d a b : RegField} (h : ready s th) {f : Arch → Word → Word → Word × Bool}
    {v : Word} {c : Bool} (hf : f (regsOf s th) (rd (regsOf s th) a) (rd (regsOf s th) b) = (v, c)) :
    writesDecimal s th d a b (aluDec th d a b f s) v c := by
  obtain ⟨st, hregs, hcarry, hinvalid, hrest⟩ :=
    stickDecinv_setC (wr (regsOf s th) d v) c (badDigit (rd (regsOf s th) a) || badDigit (rd (regsOf s th) b))
  rw [wr_status] at hinvalid hrest
  rw [badDigit_or] at hinvalid
  refine ⟨st, regInstr_leaves h ?_ (wr_pc ..), hcarry, hinvalid, hrest⟩
  simp only [hf, hregs]

/-- The carry into digit i (R161). -/
def bcdCarry (f : Nat → Nat → Bool → Nat × Bool) (x y : Word) (cin : Bool) : Nat → Bool
  | 0 => cin
  | i + 1 => (f (nibble x i) (nibble y i) (bcdCarry f x y cin i)).2

section Digits
variable {f : Nat → Nat → Bool → Nat × Bool} (hf : ∀ p q k, (f p q k).1 < 16) (x y : Word) (cin : Bool)

theorem bcdLoop_carry (n i : Nat) : (bcdLoop f x y n i (bcdCarry f x y cin i)).2 = bcdCarry f x y cin (i + n) := by
  induction n generalizing i with
  | zero => rfl
  | succ n ih => exact (ih (i + 1)).trans (congrArg _ (by omega))

include hf

theorem bcdLoop_digit (n i : Nat) {j : Nat} (hj : j < n) : (bcdLoop f x y n i (bcdCarry f x y cin i)).1 / 16 ^ j % 16 =
    (f (nibble x (i + j)) (nibble y (i + j)) (bcdCarry f x y cin (i + j))).1 := by
  induction n generalizing i j with
  | zero => exact absurd hj (Nat.not_lt_zero j)
  | succ n ih =>
    have hlow := hf (nibble x i) (nibble y i) (bcdCarry f x y cin i)
    have hstep : (bcdLoop f x y (n + 1) i (bcdCarry f x y cin i)).1 = (f (nibble x i) (nibble y i) (bcdCarry f x y cin i)).1 +
        16 * (bcdLoop f x y n (i + 1) (bcdCarry f x y cin (i + 1))).1 := rfl
    rw [hstep]
    cases j with
    | zero => rw [pow_zero, Nat.div_one, Nat.add_mul_mod_self_left, Nat.mod_eq_of_lt hlow, Nat.add_zero]
    | succ j =>
      rw [pow_succ', ← Nat.div_div_eq_div_mul, Nat.add_mul_div_left _ _ (by decide), Nat.div_eq_of_lt hlow, Nat.zero_add,
        ih (i + 1) (Nat.lt_of_succ_lt_succ hj), Nat.add_right_comm, Nat.add_assoc]

/-- The decimal operation is the chain of its digits: `g` is one step of R161, on the digits and the carry in. -/
theorem bcd_chain {g : Int → Int → Int → Int × Bool}
    (hg : ∀ {p q : Nat} (k : Bool), p < 16 → q < 16 → g p q k.toNat = (((f p q k).1 : Int), (f p q k).2)) {i : Nat} (hi : i < 6) :
    g (nibble x i) (nibble y i) (bcdCarry f x y cin i).toNat = ((nibble (bcd f x y cin).1 i : Int), bcdCarry f x y cin (i + 1)) := by
  have hdigit : nibble (bcd f x y cin).1 i = (f (nibble x i) (nibble y i) (bcdCarry f x y cin i)).1 := by
    have h := bcdLoop_digit hf x y cin 6 0 hi
    rw [Nat.zero_add] at h
    exact (nibble_ofNat _ hi).trans h
  rw [hg _ (nibble_lt x i) (nibble_lt y i), hdigit]
  rfl

end Digits

theorem bcd_carry (f : Nat → Nat → Bool → Nat × Bool) (x y : Word) (cin : Bool) : (bcd f x y cin).2 = bcdCarry f x y cin 6 :=
  bcdLoop_carry x y cin 6 0

theorem dadd1_lt (p q : Nat) (k : Bool) : (dadd1 p q k).1 < 16 := by
  unfold dadd1
  dsimp only
  split
  · exact Nat.mod_lt _ (by decide)
  · dsimp only
    omega

theorem dsub1_lt (p q : Nat) (k : Bool) : (dsub1 p q k).1 < 16 := by
  unfold dsub1
  dsimp only
  split <;> exact Nat.mod_lt _ (by decide)

/-- R161's step of a sum, on integers. -/
def decimalSum (p q k : Int) : Int × Bool := if 10 ≤ p + q + k then ((p + q + k + 6) % 16, true) else (p + q + k, false)
/-- R161's step of a difference, on integers. -/
def decimalDifference (p q k : Int) : Int × Bool :=
  if p - q - k < 0 then ((p - q - k + 10) % 16, true) else ((p - q - k) % 16, false)

theorem decimalSum_digits (p q : Nat) (k : Bool) : decimalSum p q k.toNat = (((dadd1 p q k).1 : Int), (dadd1 p q k).2) := by
  unfold decimalSum dadd1
  rw [bit_eq_toNat]
  by_cases h : 10 ≤ p + q + k.toNat
  · rw [if_pos (by omega), if_pos h]
    simp
  · rw [if_neg (by omega), if_neg h]
    simp

theorem decimalDifference_digits {p q : Nat} (k : Bool) (hq : q < 16) :
    decimalDifference p q k.toNat = (((dsub1 p q k).1 : Int), (dsub1 p q k).2) := by
  have hk := k.toNat_le
  unfold decimalDifference dsub1
  rw [bit_eq_toNat]
  by_cases h : p < q + k.toNat
  · rw [if_pos (by omega), if_pos h]
    refine Prod.ext ?_ rfl
    dsimp only
    omega
  · rw [if_neg (by omega), if_neg h]
    refine Prod.ext ?_ rfl
    dsimp only
    omega

theorem dcmp_eq (x y : Word) :
    dcmp x y = (if x.toNat < y.toNat then 0xFFFFFF else if x = y then 0 else 1, decide (x.toNat < y.toNat)) := by
  unfold dcmp
  rcases Nat.lt_trichotomy x.toNat y.toNat with hlt | heq | hgt
  · have hne : x ≠ y := fun e => hlt.ne (congrArg BitVec.toNat e)
    simp [hlt, hlt.not_gt, hne]
  · simp [BitVec.eq_of_toNat_eq heq]
  · have hne : x ≠ y := fun e => hgt.ne' (congrArg BitVec.toNat e)
    simp [hgt, hgt.not_gt, hne]

end Sys2Proof.Machine

namespace Sys2Proof.Proofs
open Sys2Proof.Machine

/-- Settles O8: each instruction is `aluCV` of a sum with carry or of a difference with borrow. -/
theorem flagArithmetic : Obligations.FlagArithmetic := by
  unfold Obligations.FlagArithmetic exec
  intro s th d a b h r x y cin out
  exact ⟨aluCV_writes h (addWithCarry_false ..), aluCV_writes h (addWithCarry_eq ..), aluCV_writes h (subWithBorrow_false ..),
    aluCV_writes h (subWithBorrow_eq ..)⟩

/-- Settles O9: each instruction is `aluDec`, of `dcmp` or of the chain of its digits, whose carries are `bcdCarry`. -/
theorem decimalArithmetic : Obligations.DecimalArithmetic := by
  unfold Obligations.DecimalArithmetic exec
  intro s th d a b h r x y digit bad out chain sum dif
  have sums (cin : Bool) : chain sum (bcd dadd1 x y cin).1 (bcdCarry dadd1 x y cin) := fun i hi =>
    bcd_chain dadd1_lt x y cin (g := decimalSum) (fun k _ _ => decimalSum_digits _ _ k) hi
  have differences (cin : Bool) : chain dif (bcd dsub1 x y cin).1 (bcdCarry dsub1 x y cin) := fun i hi =>
    bcd_chain dsub1_lt x y cin (g := decimalDifference) (fun k _ hq => decimalDifference_digits k hq) hi
  have parts (f : Nat → Nat → Bool → Nat × Bool) (cin : Bool) : bcd f x y cin = ((bcd f x y cin).1, bcdCarry f x y cin 6) :=
    Prod.ext rfl (bcd_carry f x y cin)
  refine ⟨⟨_, bcdCarry dadd1 x y false, rfl, sums false, ?_⟩, ⟨_, bcdCarry dadd1 x y (flagC r), rfl, sums (flagC r), ?_⟩,
    ⟨_, bcdCarry dsub1 x y false, rfl, differences false, ?_⟩, ⟨_, bcdCarry dsub1 x y (flagC r), rfl, differences (flagC r), ?_⟩, ?_⟩
  · exact aluDec_writes h (parts dadd1 false)
  · exact aluDec_writes h (parts dadd1 (flagC r))
  · exact aluDec_writes h (parts dsub1 false)
  · exact aluDec_writes h (parts dsub1 (flagC r))
  · exact aluDec_writes h (dcmp_eq x y)

end Sys2Proof.Proofs
end
section
/-! PROOFS. The rounding of floating-point results (R163, R165, R166). -/

namespace Sys2Proof.Machine

/-! Rounding a magnitude (R163). -/

/-- The unit as the rules for natural numbers write it, the spelling kept below. -/
theorem natCast_two_pow (n : Nat) : ((2 ^ n : Nat) : Int) = 2 ^ n := by norm_cast

section Rounding
variable {m sh : Nat}

theorem two_mul_half (hrem : m % 2 ^ sh ≠ 0) : 2 * 2 ^ (sh - 1) = 2 ^ sh := by
  cases sh with
  | zero => exact absurd (Nat.mod_one m) hrem
  | succ n => exact (pow_succ' 2 n).symm

theorem roundUp_nearestEven (neg : Bool) (k : Nat) (hrem : m % 2 ^ sh ≠ 0) :
    roundUp 0 neg k (m % 2 ^ sh) sh = true ↔ 2 ^ sh < 2 * (m % 2 ^ sh) ∨ 2 * (m % 2 ^ sh) = 2 ^ sh ∧ k % 2 = 1 := by
  have hhalf := two_mul_half hrem
  simp only [roundUp, Bool.or_eq_true, decide_eq_true_eq, Bool.and_eq_true, beq_iff_eq]
  omega

theorem roundUp_nearestAway (neg : Bool) (k : Nat) (hrem : m % 2 ^ sh ≠ 0) :
    roundUp 4 neg k (m % 2 ^ sh) sh = true ↔ 2 ^ sh ≤ 2 * (m % 2 ^ sh) := by
  have hhalf := two_mul_half hrem
  simp only [roundUp, decide_eq_true_eq]
  omega

theorem roundUp_towardMinus (neg : Bool) (k : Nat) {r : Nat} (sh : Nat) (hr : r ≠ 0) : roundUp 2 neg k r sh = neg := by simp [roundUp, hr]
theorem roundUp_towardPlus (neg : Bool) (k : Nat) {r : Nat} (sh : Nat) (hr : r ≠ 0) : roundUp 3 neg k r sh = !neg := by simp [roundUp, hr]

end Rounding

/-- The count of `quantize` where its unit is not the finer one. -/
theorem quantize_of_le {e q : Int} (h : e ≤ q) (rm : Nat) (neg : Bool) (m : Nat) :
    let sh := (q - e).toNat
    quantize rm neg m e q =
      (if m % 2 ^ sh ≠ 0 ∧ roundUp rm neg (m / 2 ^ sh) (m % 2 ^ sh) sh then m / 2 ^ sh + 1 else m / 2 ^ sh, m % 2 ^ sh != 0) := by
  intro sh
  unfold quantize
  split
  · next hle =>
    obtain rfl : e = q := le_antisymm h hle
    simp [sh, Nat.mod_one]
  · rfl

/-- The distance of the rounded magnitude above m × 2^e, in units of 2^e. -/
def roundingOffset (rm : Nat) (neg : Bool) (m : Nat) (e q : Int) : Int := ((quantize rm neg m e q).1 : Int) * 2 ^ (q - e).toNat - m

section Offset
variable {e q : Int} (h : e ≤ q) (rm : Nat) (neg : Bool) (m : Nat)
include h

theorem quantize_inexact : (quantize rm neg m e q).2 = (m % 2 ^ (q - e).toNat != 0) := by rw [quantize_of_le h]

theorem quantize_exact_iff : (quantize rm neg m e q).2 = false ↔ (2 : Int) ^ (q - e).toNat ∣ m := by
  rw [quantize_inexact h, bne_eq_false_iff_eq, ← natCast_two_pow, Int.natCast_dvd_natCast, Nat.dvd_iff_mod_eq_zero]

/-- Rounding goes to one of the two neighbours, up where there is a remainder and the mode rounds up. -/
theorem roundingOffset_cases : let sh := (q - e).toNat
    let rem := m % 2 ^ sh
    let up := roundUp rm neg (m / 2 ^ sh) rem sh
    (rem ≠ 0 → up = false) ∧ (quantize rm neg m e q).1 = m / 2 ^ sh ∧ roundingOffset rm neg m e q = -(rem : Int) ∨
    rem ≠ 0 ∧ up = true ∧ (quantize rm neg m e q).1 = m / 2 ^ sh + 1 ∧ roundingOffset rm neg m e q = ((2 ^ sh : Nat) : Int) - rem := by
  intro sh rem up
  have hsplit : ((m / 2 ^ sh : Nat) : Int) * 2 ^ sh + rem = m := by exact_mod_cast Nat.div_add_mod' m (2 ^ sh)
  by_cases hup : rem ≠ 0 ∧ up = true
  · have hcount : (quantize rm neg m e q).1 = m / 2 ^ sh + 1 := by
      rw [quantize_of_le h]
      exact if_pos hup
    obtain ⟨hrem, htrue⟩ := hup
    refine Or.inr ⟨hrem, htrue, hcount, ?_⟩
    rw [roundingOffset, hcount]
    push_cast at hsplit ⊢
    linarith
  · have hcount : (quantize rm neg m e q).1 = m / 2 ^ sh := by
      rw [quantize_of_le h]
      exact if_neg hup
    refine Or.inl ⟨?_, hcount, ?_⟩
    · exact fun hrem => Bool.eq_false_iff.mpr fun htrue => hup ⟨hrem, htrue⟩
    · rw [roundingOffset, hcount]
      linarith

theorem roundingOffset_exact (hexact : (quantize rm neg m e q).2 = false) : roundingOffset rm neg m e q = 0 := by
  rw [quantize_inexact h, bne_eq_false_iff_eq] at hexact
  rcases roundingOffset_cases h rm neg m with ⟨-, -, hoff⟩ | ⟨hrem, -⟩
  · rw [hoff, hexact]
    rfl
  · exact absurd hexact hrem

section Neighbours
variable {rm neg m}

/-- A mode that does not round up stays at or below the magnitude, by less than a unit. -/
theorem roundingOffset_truncated (hdown : ∀ k r sh, r ≠ 0 → roundUp rm neg k r sh = false) :
    roundingOffset rm neg m e q ≤ 0 ∧ -(2 : Int) ^ (q - e).toNat < roundingOffset rm neg m e q := by
  have hlt := Nat.mod_lt m (Nat.two_pow_pos (q - e).toNat)
  rw [← natCast_two_pow]
  rcases roundingOffset_cases h rm neg m with ⟨-, -, hoff⟩ | ⟨hrem, hup, -⟩
  · omega
  · exact absurd ((hdown _ _ _ hrem).symm.trans hup) Bool.false_ne_true

/-- A mode that rounds up goes to the magnitude or above it, by less than a unit. -/
theorem roundingOffset_raised (hup : ∀ k r sh, r ≠ 0 → roundUp rm neg k r sh = true) :
    0 ≤ roundingOffset rm neg m e q ∧ roundingOffset rm neg m e q < 2 ^ (q - e).toNat := by
  have hlt := Nat.mod_lt m (Nat.two_pow_pos (q - e).toNat)
  rw [← natCast_two_pow]
  rcases roundingOffset_cases h rm neg m with ⟨hdown, -, hoff⟩ | ⟨hrem, -, -, hoff⟩
  · have hzero : m % 2 ^ (q - e).toNat = 0 := by
      by_contra hrem
      exact Bool.false_ne_true ((hdown hrem).symm.trans (hup _ _ _ hrem))
    omega
  · omega

end Neighbours

theorem roundingOffset_nearestEven : 2 * ((roundingOffset 0 neg m e q).natAbs : Int) ≤ 2 ^ (q - e).toNat ∧
    (2 * ((roundingOffset 0 neg m e q).natAbs : Int) = 2 ^ (q - e).toNat → ((quantize 0 neg m e q).1 : Int) % 2 = 0) := by
  have hlt := Nat.mod_lt m (Nat.two_pow_pos (q - e).toNat)
  have heven := roundUp_nearestEven (sh := (q - e).toNat) (m := m) neg (m / 2 ^ (q - e).toNat)
  rw [← natCast_two_pow]
  rcases roundingOffset_cases h 0 neg m with ⟨hdown, hcount, hoff⟩ | ⟨hrem, hup, hcount, hoff⟩
  · rw [hcount, hoff]
    by_cases hrem : m % 2 ^ (q - e).toNat = 0
    · omega
    · have := mt (heven hrem).mpr (Bool.eq_false_iff.mp (hdown hrem))
      omega
  · have := (heven hrem).mp hup
    rw [hcount, hoff]
    omega

theorem roundingOffset_nearestAway :
    -(2 : Int) ^ (q - e).toNat < 2 * roundingOffset 4 neg m e q ∧ 2 * roundingOffset 4 neg m e q ≤ 2 ^ (q - e).toNat := by
  have hlt := Nat.mod_lt m (Nat.two_pow_pos (q - e).toNat)
  have haway := roundUp_nearestAway (sh := (q - e).toNat) (m := m) neg (m / 2 ^ (q - e).toNat)
  rw [← natCast_two_pow]
  rcases roundingOffset_cases h 4 neg m with ⟨hdown, -, hoff⟩ | ⟨hrem, hup, -, hoff⟩
  · rw [hoff]
    by_cases hrem : m % 2 ^ (q - e).toNat = 0
    · omega
    · have := mt (haway hrem).mpr (Bool.eq_false_iff.mp (hdown hrem))
      omega
  · have := (haway hrem).mp hup
    rw [hoff]
    omega

end Offset

/-! Values that a format represents (R165, R166). -/

/-- An encoding is its sign, its biased exponent and its fraction. -/
theorem withSign_fields (f : Fmt) {v : Nat} (hv : v < 2 * fSign f) :
    withSign f (v / fSign f % 2 == 1) (v / 2 ^ f.mb % 2 ^ f.eb * 2 ^ f.mb + v % 2 ^ f.mb) = v := by
  have hmagnitude : v / 2 ^ f.mb % 2 ^ f.eb * 2 ^ f.mb + v % 2 ^ f.mb = v % fSign f := by
    rw [fSign, pow_add, Nat.mod_mul, Nat.add_comm, Nat.mul_comm]
  have hsign : v / fSign f < 2 := Nat.div_lt_of_lt_mul (by rwa [Nat.mul_comm])
  have hsplit := Nat.div_add_mod v (fSign f)
  rw [hmagnitude, withSign, Nat.mod_eq_of_lt hsign]
  rcases Nat.le_one_iff_eq_zero_or_eq_one.mp (Nat.le_of_lt_succ hsign) with h | h
  · simpa [h] using hsplit
  · simpa [h] using hsplit

/-- An exact count of units that is no normal significand is a subnormal's fraction. -/
theorem fRound_subnormal (f : Fmt) (rm : Nat) (neg : Bool) {fr : Nat} (hpos : fr ≠ 0) (hfr : fr < 2 ^ f.mb) :
    fRound f rm false neg fr (fEmin f - f.mb) = (withSign f neg fr, 0) := by
  have hlog : Nat.log2 fr < f.mb := (Nat.log2_lt hpos).mpr hfr
  have hcarry : fr ≠ 2 ^ (f.mb + 1) := (hfr.trans (Nat.pow_lt_pow_succ (by decide))).ne
  have hq : max (fEmin f - f.mb + Nat.log2 fr - f.mb) (fEmin f - f.mb) = fEmin f - f.mb := max_eq_right (by omega)
  unfold fRound
  simp only [hq, quantize_exact le_rfl, sub_self, Int.toNat_zero, pow_zero, Nat.mul_one]
  simp [hcarry, hfr]

theorem fRound_normal (f : Fmt) (rm : Nat) (neg : Bool) {ex fr : Nat} (hpos : 0 < ex) (hex : ex < 2 ^ f.eb - 1) (hfr : fr < 2 ^ f.mb) :
    fRound f rm false neg (2 ^ f.mb + fr) (ex - fBias f - f.mb) = (withSign f neg (ex * 2 ^ f.mb + fr), 0) := by
  have hlog : Nat.log2 (2 ^ f.mb + fr) = f.mb := by
    rw [Nat.log2_eq_iff (by positivity), pow_succ]
    omega
  have hcarry : 2 ^ f.mb + fr ≠ 2 ^ (f.mb + 1) := by
    rw [pow_succ]
    omega
  have hq : max (ex - fBias f - f.mb + Nat.log2 (2 ^ f.mb + fr) - f.mb) (fEmin f - f.mb) = ex - fBias f - f.mb := by
    rw [hlog, fEmin]
    omega
  have hfinite : ¬ (2 ^ f.eb - 1 : Int) ≤ ex := by
    zify [Nat.one_le_two_pow] at hex
    omega
  unfold fRound
  simp only [hq, quantize_exact le_rfl, sub_self, Int.toNat_zero, pow_zero, Nat.mul_one]
  simp [hcarry, hfinite]

/-- What a finite non-zero operand is: a subnormal or a normal number. -/
theorem fRead_fin {f : Fmt} {v m : Nat} {neg : Bool} {e : Int} (h : fRead f false v = .fin neg m e) :
    let ex := v / 2 ^ f.mb % 2 ^ f.eb
    let fr := v % 2 ^ f.mb
    neg = (v / fSign f % 2 == 1) ∧
    (ex = 0 ∧ fr ≠ 0 ∧ m = fr ∧ e = fEmin f - f.mb ∨
      0 < ex ∧ ex < 2 ^ f.eb - 1 ∧ m = 2 ^ f.mb + fr ∧ e = ex - fBias f - f.mb) := by
  intro ex fr
  have hlt : ex < 2 ^ f.eb := Nat.mod_lt _ (Nat.two_pow_pos _)
  unfold fRead at h
  dsimp only at h
  split at h
  · split at h <;> cases h
  · next hspecial =>
    split at h
    · next hzero =>
      split at h
      · cases h
      · next hfr =>
        cases h
        exact ⟨rfl, Or.inl ⟨hzero, fun h0 => hfr (Or.inl h0), rfl, rfl⟩⟩
    · next hzero =>
      cases h
      exact ⟨rfl, Or.inr ⟨Nat.pos_of_ne_zero hzero, by omega, rfl, rfl⟩⟩

/-- A value that a format represents rounds to its own encoding. -/
theorem fRound_fRead {f : Fmt} {v m : Nat} {neg : Bool} {e : Int} (hv : v < 2 * fSign f) (h : fRead f false v = .fin neg m e) (rm : Nat) :
    fRound f rm false neg m e = (v, 0) := by
  have hfields := withSign_fields f hv
  have hfr : v % 2 ^ f.mb < 2 ^ f.mb := Nat.mod_lt _ (Nat.two_pow_pos _)
  obtain ⟨rfl, ⟨hzero, hpos, rfl, rfl⟩ | ⟨hpos, hex, rfl, rfl⟩⟩ := fRead_fin h
  · rw [hzero, Nat.zero_mul, Nat.zero_add] at hfields
    rw [fRound_subnormal f rm _ hpos hfr, hfields]
  · rw [fRound_normal f rm _ hpos hex hfr, hfields]

end Sys2Proof.Machine

namespace Sys2Proof.Proofs
open Sys2Proof.Machine

/-- Settles O39: the mode decides which neighbour is taken, and a format's own value is an exact count of its units. -/
theorem roundingModes : Obligations.RoundingModes := by
  unfold Obligations.RoundingModes
  refine ⟨fun rm neg m e q h => ⟨quantize_exact_iff h rm neg m, roundingOffset_exact h rm neg m, ?_, ?_, ?_, ?_, ?_⟩,
    fun f rm v m neg e _ hv hread => fRound_fRead hv hread rm⟩
  · rintro rfl
    exact roundingOffset_nearestEven h neg m
  · rintro rfl
    exact roundingOffset_truncated h fun _ _ _ _ => rfl
  · rintro rfl
    cases neg with
    | false => exact roundingOffset_truncated h fun k _ sh hr => roundUp_towardMinus false k sh hr
    | true => exact roundingOffset_raised h fun k _ sh hr => roundUp_towardMinus true k sh hr
  · rintro rfl
    cases neg with
    | false => exact roundingOffset_raised h fun k _ sh hr => roundUp_towardPlus false k sh hr
    | true => exact roundingOffset_truncated h fun k _ sh hr => roundUp_towardPlus true k sh hr
  · rintro rfl
    exact roundingOffset_nearestAway h neg m

end Sys2Proof.Proofs
end

section
/-! PROOFS. Stores to UNCACHED and DEVICE memory (R172, R188, R193, R336), and the limits of stores and of UNCACHED accesses (R187, R188,
R191). -/

namespace Sys2Proof.Machine

/-! Bytes written in order. -/

/-- A table of bytes after the bytes of stores have been written to it in order. -/
def writtenBytes (gs : List GStore) (m : Table Byte) : Table Byte := gs.foldl (fun m g => tset 0 m g.addr g.byte) m

/-- A state with another memory. -/
def withMem (s : State) (m : Mem) : State := { s with mem := m }

@[simp] theorem withMem_thr (s : State) (m : Mem) (th : ThreadId) : thr (withMem s m) th = thr s th := rfl

theorem foldl_hbmStore (gs : List GStore) (s : State) :
    gs.foldl hbmStore s = withMem s { s.mem with hbm := writtenBytes gs s.mem.hbm } := by
  induction gs generalizing s with
  | nil => rfl
  | cons g gs ih => exact ih (hbmStore s g)

theorem foldl_objStore_device (th : ThreadId) (gs : List GStore) (s : State) :
    gs.foldl (fun s g => objStore s th .device g.addr g.byte) s =
      withMem s { s.mem with device := writtenBytes gs s.mem.device } := by
  induction gs generalizing s with
  | nil => rfl
  | cons g gs ih => exact ih (objStore s th .device g.addr g.byte)

/-! Stores that leave the berth at once (R172, R188, R193). -/

section Leaving
variable {s : State} {th : ThreadId} {ls : List Loc} {bs : List Byte}

/-- An access without LEDGERED places is performed in the state it was issued in but for the translations that its thread holds. -/
theorem reached_unledgered (op : MemOp) (h : ∀ l ∈ ls, l.type ≠ .ledgered) :
    besideThreads (reached s th op ls) = besideThreads s ∧ ∃ l, thr (reached s th op ls) th = { thr s th with tlb := l } := by
  have hlines : linesOf ls = [] := by
    unfold linesOf
    rw [List.filter_eq_nil_iff.mpr fun l hl => by simpa using h l hl]
    rfl
  unfold reached
  simp only [hlines, List.isEmpty_nil, if_true]
  obtain ⟨l1, h1⟩ := tlbFill_same s th (opVa op)
  obtain ⟨l2, h2⟩ := tlbFill_same (tlbFill s th (opVa op)) th ((opVa op + opLen op - 1) % 2 ^ 48)
  exact ⟨(tlbFill_besideThreads ..).trans (tlbFill_besideThreads ..), l2, by rw [h2, h1]⟩

/-- The state after a store whose bytes have left the berth: it has retired, at a retry point (R336). -/
def departed (s : State) (th : ThreadId) : State := retryPoint (finish s th (regsOf s th)) th

/-! doStore sorts the pieces into classes by their places. -/

theorem filter_zip_all {f : Loc × Byte → Bool} (h : ∀ l ∈ ls, ∀ b, f (l, b) = true) : (ls.zip bs).filter f = ls.zip bs :=
  List.filter_eq_self.mpr fun p hp => h p.1 (List.of_mem_zip hp).1 p.2

theorem filter_zip_none {f : Loc × Byte → Bool} (h : ∀ l ∈ ls, ∀ b, f (l, b) = false) : (ls.zip bs).filter f = [] :=
  List.filter_eq_nil_iff.mpr fun p hp => by simp [h p.1 (List.of_mem_zip hp).1 p.2]

/-- The first piece of a store that has places. -/
theorem zip_eq_cons (hne : ls ≠ []) (hlen : ls.length = bs.length) : ∃ l b rest, ls.zip bs = (l, b) :: rest ∧ l ∈ ls := by
  cases ls with
  | nil => exact absurd rfl hne
  | cons l ls =>
    cases bs with
    | nil => cases hlen
    | cons b bs => exact ⟨l, b, ls.zip bs, rfl, List.mem_cons_self⟩

variable (hne : ls ≠ []) (hlen : ls.length = bs.length)
include hne hlen

/-- A store to UNCACHED HBM of the thread's own basin writes its bytes there (R172, R193). -/
theorem doStore_uncached (h : ∀ l ∈ ls, l.type = .uncached ∧ l.obj = .phys ∧ uncachedBasin l.addr = th.basin.val) (va : Nat) :
    doStore s th va ls bs = departed ((piecesOf ls bs).foldl hbmStore (retryPoint s th)) th := by
  obtain ⟨l, b, rest, hzip, hl⟩ := zip_eq_cons hne hlen
  obtain ⟨-, -, hbasin⟩ := h l hl
  unfold doStore
  extract_lets pieces mk gatedP buf unc dev host s1 s2 s3 s4 s5 s6
  have hgated : gatedP = [] := filter_zip_none fun l hl b => by simp [h l hl]
  have hbuf : buf = [] := filter_zip_none fun l hl b => by simp [h l hl]
  have hunc : unc = ls.zip bs := filter_zip_all fun l hl b => by simp [h l hl]
  have hdev : dev = [] := filter_zip_none fun l hl b => by simp [h l hl]
  have hhost : host = [] := filter_zip_none fun l hl b => by simp [h l hl]
  have hs3 : s3 = retryPoint s th := by simp only [s3, hgated, hbuf]; rfl
  have hs4 : s4 = (piecesOf ls bs).foldl hbmStore (retryPoint s th) := by
    simp only [s4, hunc, hzip, if_pos hbasin, hs3]
    rw [← hzip]
    rfl
  have hs6 : s6 = s4 := by simp only [s6, s5, hhost, hdev]; rfl
  rw [if_neg (by simp [hunc, hzip])]
  exact congrArg (departed · th) (hs6.trans hs4)

/-- A store to DEVICE registers of an island that is ON writes its bytes there and is outstanding (R172, R188). -/
theorem doStore_device {n : Nat} (h : ∀ l ∈ ls, l.type = .device ∧ l.obj = .device ∧ deviceIsland l.addr = n)
    (hon : (islandOf (retryPoint s th) n).state = 3) (hreset : (islandOf (retryPoint s th) n).reset = false) (va : Nat) :
    doStore s th va ls bs = departed (addStore
      ((piecesOf ls bs).foldl (fun s g => objStore s th .device g.addr g.byte) (retryPoint s th)) th (.device n) va []) th := by
  obtain ⟨l, b, rest, hzip, hl⟩ := zip_eq_cons hne hlen
  obtain ⟨-, -, hisland⟩ := h l hl
  unfold doStore
  extract_lets pieces mk gatedP buf unc dev host s1 s2 s3 s4 s5 s6
  have hgated : gatedP = [] := filter_zip_none fun l hl b => by simp [h l hl]
  have hbuf : buf = [] := filter_zip_none fun l hl b => by simp [h l hl]
  have hunc : unc = [] := filter_zip_none fun l hl b => by simp [h l hl]
  have hdev : dev = ls.zip bs := filter_zip_all fun l hl b => by simp [h l hl]
  have hhost : host = [] := filter_zip_none fun l hl b => by simp [h l hl]
  have hs4 : s4 = retryPoint s th := by simp only [s4, s3, hgated, hbuf, hunc]; rfl
  have hs5 : s5 = addStore ((piecesOf ls bs).foldl (fun s g => objStore s th .device g.addr g.byte) (retryPoint s th))
      th (.device n) va [] := by
    simp only [s5, hdev, hzip, hs4, hisland, hon, hreset, Bool.not_false, and_self, if_true]
    rw [← hzip]
    rfl
  have hs6 : s6 = s5 := by simp only [s6, hhost]; rfl
  rw [if_neg (by simp [hdev, hzip])]
  exact congrArg (departed · th) (hs6.trans hs5)

end Leaving

/-- With no gated store the end of such a store leaves memory, the registers but for the PC, and the outstanding stores alone (R335,
R336). -/
theorem departed_quiet {s : State} {th : ThreadId} (h : (thr s th).gated = []) : (departed s th).mem = s.mem ∧
    regsOf (departed s th) th = stepPc (regsOf s th) ∧ (thr (departed s th) th).stores = (thr s th).stores := by
  obtain ⟨hbeside, hthr⟩ := finish_retryPoint_quiet h (regsOf s th)
  refine ⟨field_of_besideThreads hbeside State.mem fun _ => rfl, ?_, ?_⟩
  · unfold regsOf departed
    rw [show thr _ th = _ from hthr]
    rfl
  · unfold departed
    rw [show thr _ th = _ from hthr]

/-- The state in which the bytes of a store leave the berth: at a retry point (R336). -/
def leaving (s : State) (th : ThreadId) (op : MemOp) (ls : List Loc) : State := retryPoint (reached s th op ls) th

/-- Without LEDGERED places and gated stores only the thread's translations, checkpoint and count differ there from the state the access
was issued in. -/
theorem leaving_quiet {s : State} {th : ThreadId} {ls : List Loc} (op : MemOp) (h : ∀ l ∈ ls, l.type ≠ .ledgered)
    (hgated : (thr s th).gated = []) : besideThreads (leaving s th op ls) = besideThreads s ∧
      ∃ l, thr (leaving s th op ls) th = { thr s th with tlb := l, ck := regsOf s th, sinceCk := 0 } := by
  obtain ⟨hbeside, l, hthr⟩ := reached_unledgered (s := s) (th := th) op h
  obtain ⟨hbeside', hthr'⟩ := retryPoint_quiet (s := reached s th op ls) (th := th) (by rw [hthr]; exact hgated)
  rw [hthr] at hthr'
  exact ⟨hbeside'.trans hbeside, l, hthr'⟩

theorem addStore_thr (s : State) (th : ThreadId) (kind : StoreKind) (va : Nat) : thr (addStore s th kind va []) th =
    { thr s th with stores := (thr s th).stores ++ [{ id := (thr s th).nextStore, kind := kind, va := BitVec.ofNat 48 va }],
                    nextStore := (thr s th).nextStore + 1 } := thr_modThr_same ..

/-- An admitted store has one place for each byte. -/
theorem admitted_store_length {s : State} {th : ThreadId} {va : Nat} {bs : List Byte} {ls : List Loc}
    (h : admitted s th (.store va bs) ls) : ls.length = bs.length := by
  obtain ⟨htranslate, -⟩ := h
  exact translate_length htranslate

section Outside
variable {s : State} {th : ThreadId} {va : Nat} {bs : List Byte} {ls : List Loc} (hadmitted : admitted s th (.store va bs) ls) (hne : ls ≠ [])
  (hgated : (thr s th).gated = [])
include hadmitted hne hgated

theorem access_uncached (h : ∀ l ∈ ls, l.type = .uncached ∧ l.obj = .phys ∧ uncachedBasin l.addr = th.basin.val) :
    let t := access s th (.store va bs)
    t.mem = { s.mem with hbm := writtenBytes (piecesOf ls bs) s.mem.hbm } ∧ regsOf t th = stepPc (regsOf s th) ∧
      (thr t th).stores = (thr s th).stores := by
  obtain ⟨hbeside, k, hthr⟩ := leaving_quiet (.store va bs) (fun l hl => by simp [h l hl]) hgated
  have hmem : (leaving s th (.store va bs) ls).mem = s.mem := field_of_besideThreads hbeside State.mem fun _ => rfl
  rw [access_admitted hadmitted, doStore_uncached hne (admitted_store_length hadmitted) h, ← leaving, foldl_hbmStore, hmem]
  generalize leaving s th (.store va bs) ls = u at hthr
  obtain ⟨hwritten, hpc, hleft⟩ := departed_quiet (s := withMem u { s.mem with hbm := writtenBytes (piecesOf ls bs) s.mem.hbm }) (th := th)
    (by rw [withMem_thr, hthr]; exact hgated)
  simp only [regsOf, withMem_thr, hthr] at hpc hleft
  exact ⟨hwritten, hpc, hleft⟩

theorem access_device {n : Nat} (h : ∀ l ∈ ls, l.type = .device ∧ l.obj = .device ∧ deviceIsland l.addr = n)
    (hon : (islandOf s n).state = 3) (hreset : (islandOf s n).reset = false) :
    let t := access s th (.store va bs)
    t.mem = { s.mem with device := writtenBytes (piecesOf ls bs) s.mem.device } ∧ regsOf t th = stepPc (regsOf s th) ∧
      (thr t th).stores = (thr s th).stores ++ [{ id := (thr s th).nextStore, kind := .device n, va := BitVec.ofNat 48 va }] := by
  obtain ⟨hbeside, k, hthr⟩ := leaving_quiet (.store va bs) (fun l hl => by simp [h l hl]) hgated
  have hmem : (leaving s th (.store va bs) ls).mem = s.mem := field_of_besideThreads hbeside State.mem fun _ => rfl
  have hisland : islandOf (leaving s th (.store va bs) ls) n = islandOf s n := field_of_besideThreads hbeside (islandOf · n) fun _ => rfl
  rw [access_admitted hadmitted, doStore_device hne (admitted_store_length hadmitted) h (by rw [← leaving, hisland, hon])
    (by rw [← leaving, hisland, hreset]), ← leaving, foldl_objStore_device, hmem]
  generalize leaving s th (.store va bs) ls = u at hthr
  have hadded (m : Mem) := addStore_thr (withMem u m) th (.device n) va
  simp only [withMem_thr, hthr] at hadded
  obtain ⟨hwritten, hpc, hleft⟩ := departed_quiet
    (s := addStore (withMem u { s.mem with device := writtenBytes (piecesOf ls bs) s.mem.device }) th (.device n) va []) (th := th)
    (by rw [hadded]; exact hgated)
  simp only [regsOf, hadded] at hpc hleft
  exact ⟨hwritten, hpc, hleft⟩

end Outside

/-! Failures of stores that are awaited (R187, R188). -/

/-- Failures of a handler that runs or waits at a MOOR are recorded against its thread (R190). -/
theorem recordFails_running {s : State} {th : ThreadId} (hseq : (thr s th).seq ≠ 0) (hrun : (thr s th).run ≠ .ending)
    (hended : (thr s th).ended = .no) (fs : List SFail) :
    recordFails s th fs = setThr s th { thr s th with failures := (thr s th).failures ++ fs } := by
  unfold recordFails
  extract_lets t
  exact if_neg (by simp [t, hseq, hrun, hended])

/-- When the timer of an awaited store began: with the MOOR, and for a HOST store with its flushing read (R187). -/
def timerBegan (t : Thread) (start : Nat) (k : StoreKind) : Nat := if isHostStore k then t.moorHostAt else start

/-- The failure of a store whose timer has expired (R188). -/
def expiredFail (s : State) (o : OStore) : SFail :=
  { id := o.id, va := o.va, reason := BitVec.ofNat 8 (moorReason s o.kind), host := isHostStore o.kind }

theorem expiredFail_reason (s : State) (o : OStore) : (expiredFail s o).reason.toNat = moorReason s o.kind := by
  have hsmall : moorReason s o.kind < 256 := by
    cases o.kind with
    | device n => exact (by decide : 3 < 256)
    | host p a => exact (by decide : 1 < 256)
    | otherBasin b =>
      rw [moorReason]
      split
      · decide
      · decide
  exact Nat.mod_eq_of_lt hsmall

/-- The thread of a MOOR whose only store is awaited no more: an answer to it will be late (R94). -/
def storeExpired (t : Thread) (start : Nat) (o : OStore) : Thread :=
  { t with stores := [], lateStores := mset t.lateStores o.id (timerBegan t start o.kind + moorLimit o.kind) }

/-- The state in which the failure of the only store of a MOOR has been recorded. -/
def expiryRecorded (s : State) (th : ThreadId) (start : Nat) (o : OStore) : State :=
  recordFails (setThr s th (storeExpired (thr s th) start o)) th [expiredFail s o]

theorem expiryRecorded_thr {s : State} {th : ThreadId} (hmoor : (thr s th).run = .moor) (hfail : (thr s th).failures = [])
    (hseq : (thr s th).seq ≠ 0) (hended : (thr s th).ended = .no) (start : Nat) (o : OStore) :
    thr (expiryRecorded s th start o) th = { storeExpired (thr s th) start o with failures := [expiredFail s o] } := by
  unfold expiryRecorded
  rw [recordFails_running (by rw [thr_setThr_same]; exact hseq) (by rw [thr_setThr_same]; simp [storeExpired, hmoor])
    (by rw [thr_setThr_same]; exact hended), thr_setThr_same, thr_setThr_same,
    show (storeExpired (thr s th) start o).failures = [] from hfail]
  rfl

section Expiry
variable {s : State} {th : ThreadId} {o : OStore} {start : Nat} (hmoor : (thr s th).run = .moor)
  (hstart : (thr s th).moorAt = some start) (hstores : (thr s th).stores = [o])
include hmoor hstart hstores

/-- The only store of a MOOR is awaited until its limit and then fails. -/
theorem moorTimerExpiry_single : exec (.moorTimerExpiry th) s =
    .next (if timerBegan (thr s th) start o.kind + moorLimit o.kind ≤ nowNs s then
      moorSettle (expiryRecorded s th start o) th else s) := by
  show execMoorTimerExpiry th s = _
  unfold execMoorTimerExpiry timerBegan
  by_cases hdue : (if isHostStore o.kind then (thr s th).moorHostAt else start) + moorLimit o.kind ≤ nowNs s
  · simp [hstart, hmoor, hstores, hdue, expiryRecorded, storeExpired, expiredFail, timerBegan]
  · simp [hstart, hmoor, hstores, hdue]

/-- Before its limit a store is awaited further. -/
theorem moorTimerExpiry_early (h : nowNs s < timerBegan (thr s th) start o.kind + moorLimit o.kind) :
    exec (.moorTimerExpiry th) s = .next s := by
  rw [moorTimerExpiry_single hmoor hstart hstores, if_neg (Nat.not_le.mpr h)]

/-- An expired store of a running handler ends its MOOR with BARRIER_FAULT (R187, R188, R190). -/
theorem moorTimerExpiry_fault (hfail : (thr s th).failures = []) (hseq : (thr s th).seq ≠ 0) (hended : (thr s th).ended = .no)
    (h : timerBegan (thr s th) start o.kind + moorLimit o.kind ≤ nowNs s) :
    ∃ u, exec (.moorTimerExpiry th) s = .next (takeExn u th { code := 9, detail := moorReason s o.kind, moorVa := some o.va }) ∧
      regsOf u th = regsOf s th ∧ (thr u th).stores = [] ∧ (thr u th).failures = [] ∧ (thr u th).run = .active ∧
        (thr u th).moorAt = none := by
  have hrecorded := expiryRecorded_thr hmoor hfail hseq hended start o
  have hsettle := moorSettle_fails (s := expiryRecorded s th start o) (th := th) (f := expiredFail s o)
    (by rw [hrecorded]; exact hmoor) (by rw [hrecorded]; rfl)
  rw [expiredFail_reason] at hsettle
  refine ⟨mooringEnded (expiryRecorded s th start o) th, ?_, ?_⟩
  · rw [moorTimerExpiry_single hmoor hstart hstores, if_pos h, hsettle]
    rfl
  · simp only [mooringEnded, regsOf, thr_modThr_same, hrecorded, storeExpired, and_self]

end Expiry

/-! UNCACHED accesses that find no home (R191). -/

theorem satInc_eq_min (v m : Nat) : satInc v m = min (v + 1) m := by
  unfold satInc
  split
  · omega
  · omega

/-- MACHINE_CHECK becomes pending and nothing else of the thread changes (R191, R219). -/
theorem machineCheck_thr (s : State) (th : ThreadId) (cause : Nat) (ls : List Loc) :
    thr (machineCheck s th cause ls) th = { thr s th with sigMc := min ((thr s th).sigMc + 1) 255 } := by
  unfold machineCheck
  rw [thr_of_threads (logThread_threads ..), thr_modThr_same, satInc_eq_min]

theorem uncachedAdoptionTimeout_checks {s : State} {th : ThreadId} {w : Wait} {b : BasinId} (hwait : (thr s th).wait = some w)
    (hwhy : w.why = .adoption b) (hdue : w.since + 20000 ≤ nowNs s) (hstop : (basinOf s b.val).checkstopped = true)
    (hhome : (basinOf s b.val).adopted = false) : ∃ ls, exec (.uncachedAdoptionTimeout th) s =
      .next (machineCheck (setThr s th { thr s th with wait := none }) th 1 ls) := by
  show ∃ ls, execUncachedAdoptionTimeout th s = _
  unfold execUncachedAdoptionTimeout
  simp only [hwait, hwhy, hdue, hstop, hhome, Bool.not_false, and_self, if_true]
  exact ⟨_, rfl⟩

end Sys2Proof.Machine

namespace Sys2Proof.Proofs
open Sys2Proof.Machine

/-- Settles O23: where no gated store waits, the retry points on both sides of such a store leave memory and the rest of the thread
alone (`departed_quiet`), and between them its bytes are written in order. -/
theorem storesOutsideTheCaches : Obligations.StoresOutsideTheCaches := by
  unfold Obligations.StoresOutsideTheCaches
  intro s th va bs ls op t r hadmitted hne hgated
  exact ⟨access_uncached hadmitted hne hgated, fun n => access_device hadmitted hne hgated⟩

/-- Settles O29: an expired store is recorded as failed, on which its MOOR settles (`moorTimerExpiry_fault`), and the access without a
home leaves its wait (`uncachedAdoptionTimeout_checks`). -/
theorem storesTimeOut : Obligations.StoresTimeOut := by
  unfold Obligations.StoresTimeOut
  intro s th o start b op since iova t
  refine ⟨?_, fun hwait hdue hstop hhome => ?_⟩
  · intro hmoor hstart hstores hfail hseq hended due
    have hfault (k : StoreKind) (hkind : o.kind = k) : timerBegan t start k + moorLimit k ≤ nowNs s → due (moorReason s k) := by
      subst hkind
      exact moorTimerExpiry_fault hmoor hstart hstores hfail hseq hended
    have hearly (k : StoreKind) (hkind : o.kind = k) : nowNs s < timerBegan t start k + moorLimit k →
        exec (.moorTimerExpiry th) s = .next s := by
      subst hkind
      exact moorTimerExpiry_early hmoor hstart hstores
    exact ⟨fun n => hfault (.device n), fun p a => hfault (.host p a), hfault (.otherBasin b), fun n => hearly (.device n)⟩
  · obtain ⟨ls, hexec⟩ := uncachedAdoptionTimeout_checks hwait rfl hdue hstop hhome
    refine ⟨_, hexec, ?_⟩
    simp only [regsOf, machineCheck_thr, thr_setThr_same, t, and_self]

end Sys2Proof.Proofs
end

section
/-! PROOFS. The home of a basin (R193 to R196, R210 to R217): what a lookup finds, what room in the L3 takes away, what is read of the
messages, the requests and the directory after each of their changes, and what a request, a Put and an access of agent 4 do there. -/

namespace Sys2Proof.Machine

/-! Lookup and replacement in a cache (R193, R196). -/

section Lookup
variable {c : Cache} {sets ways line i : Nat}

theorem cFind_some (h : cFind c sets ways line = some i) : (tget {} c i).state ≠ .i ∧ (tget {} c i).line = line := by
  simpa only [Bool.and_eq_true, decide_eq_true_eq, beq_iff_eq] using List.find?_some h

theorem cFind_none (h : cFind c sets ways line = none) {w : Nat} (hw : w < ways)
    (hvalid : (tget {} c (line % sets * ways + w)).state ≠ .i) : (tget {} c (line % sets * ways + w)).line ≠ line := by
  simpa only [decide_eq_true hvalid, Bool.true_and, beq_iff_eq] using List.find?_eq_none.mp h _ (List.mem_map_of_mem (List.mem_range.mpr hw))

/-- A way that is written and still holds the line is found again. -/
theorem cFind_tset (h : cFind c sets ways line = some i) {l : Line} (hvalid : l.state ≠ .i) (hline : l.line = line) :
    cFind (tset {} c i l) sets ways line = some i := by
  obtain ⟨hstate, hfound⟩ := cFind_some h
  rw [← h]
  unfold cFind
  congr 1
  funext j
  by_cases hj : j = i
  · subst hj
    simp only [tget_tset_same, decide_eq_true hvalid, decide_eq_true hstate, hline, hfound]
  · rw [tget_tset_other {} c l hj]

/-- A cache with one way a step older (R196). -/
def aged (c : Cache) (i : Nat) : Cache := tset {} c i { tget {} c i with age := min 3 ((tget {} c i).age + 1) }

theorem foldl_aged (l : List Nat) (c : Cache) (j : Nat) :
    (tget {} (l.foldl aged c) j).state = (tget {} c j).state ∧ (tget {} (l.foldl aged c) j).line = (tget {} c j).line := by
  refine List.foldlRecOn (motive := fun u : Cache => (tget {} u j).state = _ ∧ (tget {} u j).line = _) _ _ ⟨rfl, rfl⟩ fun u hu k _ => ?_
  by_cases hj : j = k
  · subst hj
    simpa [aged] using hu
  · rwa [aged, tget_tset_other _ _ _ hj]

/-- The choice of a victim ages lines and changes nothing else of them. -/
theorem cVictim_keeps (usable : Nat → Bool) (fuel : Nat) (c : Cache) (j : Nat) :
    (tget {} (cVictim c sets ways line usable fuel).1 j).state = (tget {} c j).state ∧
      (tget {} (cVictim c sets ways line usable fuel).1 j).line = (tget {} c j).line := by
  induction fuel generalizing c with
  | zero => exact ⟨rfl, rfl⟩
  | succ fuel ih =>
    unfold cVictim
    extract_lets idx
    split
    · exact ⟨rfl, rfl⟩
    · split
      · exact ⟨rfl, rfl⟩
      · obtain ⟨hstate, hline⟩ := ih (idx.foldl aged c)
        obtain ⟨hstate', hline'⟩ := foldl_aged idx c j
        exact ⟨hstate.trans hstate', hline.trans hline'⟩

/-- A victim lies in a way of the line's set. -/
theorem cVictim_way (usable : Nat → Bool) (fuel : Nat) (c : Cache) (h : (cVictim c sets ways line usable fuel).2 = some i) :
    ∃ w < ways, i = line % sets * ways + w := by
  have inSet (p : Nat → Bool)
      (hp : (((List.range ways).filter usable).map (fun w => line % sets * ways + w)).find? p = some i) :
      ∃ w < ways, i = line % sets * ways + w := by
    obtain ⟨w, hw, hi⟩ := List.mem_map.mp (List.mem_of_find?_eq_some hp)
    exact ⟨w, List.mem_range.mp (List.mem_filter.mp hw).1, hi.symm⟩
  induction fuel generalizing c with
  | zero => cases h
  | succ fuel ih =>
    unfold cVictim at h
    extract_lets idx at h
    split at h
    · rename_i hp
      exact inSet _ (hp.trans h)
    · split at h
      · rename_i hp
        exact inSet _ (hp.trans h)
      · exact ih _ h

end Lookup

/-! The state of a basin's coherence after its changes. -/

section Changes
variable (s : State) (b : Nat)

@[simp] theorem cohOf_setDir (line : Nat) (d : Dir) :
    cohOf (setDir s b line d) b = { cohOf s b with dir := tset {} (cohOf s b).dir line d } := cohOf_setCoh_same ..
@[simp] theorem cohOf_sendMsg (m : CohMsg) : cohOf (sendMsg s b m) b = { cohOf s b with msgs := (cohOf s b).msgs ++ [m] } :=
  cohOf_setCoh_same ..
@[simp] theorem cohOf_modReq (a line tag : Nat) (f : CohReq → CohReq) : cohOf (modReq s b a line tag f) b =
    { cohOf s b with reqs := mapIf (fun r => r.agent == a && r.line == line && r.tag == tag) f (cohOf s b).reqs } := cohOf_setCoh_same ..
@[simp] theorem cohOf_dropReq (a line tag : Nat) : cohOf (dropReq s b a line tag) b =
    { cohOf s b with reqs := (cohOf s b).reqs.filter (fun r => !(r.agent == a && r.line == line && r.tag == tag)) } := cohOf_setCoh_same ..

theorem cohOf_foldl_sendMsg {α : Type} (f : α → CohMsg) (l : List α) :
    cohOf (l.foldl (fun s x => sendMsg s b (f x)) s) b = { cohOf s b with msgs := (cohOf s b).msgs ++ l.map f } := by
  induction l generalizing s with
  | nil => simp
  | cons x l ih => simp [ih]

theorem l2SetState_coh (p line : Nat) (st : LState) : (l2SetState s p line st).coh = s.coh := by
  unfold l2SetState
  extract_lets pc u
  split
  · rfl
  · split <;> rfl

@[simp] theorem cohOf_l2SetState (p line : Nat) (st : LState) : cohOf (l2SetState s p line st) b = cohOf s b :=
  congrArg (tget ({} : Coh) · b) (l2SetState_coh s p line st)

theorem backInvalidate_coh (line : Nat) : (backInvalidate s b line).1.coh = s.coh := by
  unfold backInvalidate
  refine List.foldlRecOn (motive := fun u : State × Option (BitVec 512 × Bool) => u.1.coh = s.coh) _ _ rfl fun acc hacc a _ => ?_
  extract_lets p
  split
  · exact hacc
  · have hv := (l2SetState_coh acc.1 p line .i).trans hacc
    exact prop_ite (P := fun u : State => u.coh = s.coh) hv hv

end Changes

/-! The L3 (R194 to R196). -/

/-- What a line's home keeps beside the L3: the basin's messages, requests and results, and the directory entry of the line. -/
def homeView (s : State) (b line : Nat) : Coh × Dir := ({ cohOf s b with l3 := [], dir := [] }, dirOf s b line)

section Views
variable {s u : State} {b line : Nat} (h : homeView u b line = homeView s b line)
include h

theorem reqs_of_homeView : (cohOf u b).reqs = (cohOf s b).reqs := by
  have k := congrArg (fun v => v.1.reqs) h
  exact k
theorem dirOf_of_homeView : dirOf u b line = dirOf s b line := congrArg (fun v => v.2) h

end Views

section L3
variable (s : State) (b line : Nat)

/-- Room for a line that the L3 lacks takes at most another line and its directory entry away. -/
theorem l3Room_homeView (hmiss : cFind (cohOf s b).l3 l3Sets l3Ways line = none) :
    homeView (l3Room s b line).1 b line = homeView s b line := by
  unfold l3Room
  extract_lets c wayLine free oldest
  have hkeeps := cVictim_keeps (sets := l3Sets) (ways := l3Ways) (line := line) free 5 c.l3
  have hway := fun i => cVictim_way (i := i) free 5 c.l3 (sets := l3Sets) (ways := l3Ways) (line := line)
  generalize cVictim c.l3 l3Sets l3Ways line free 5 = v at hkeeps hway
  obtain ⟨l3, victim⟩ := v
  simp -zeta only at hkeeps hway ⊢
  extract_lets i s1 l s2 c2
  have hset : ∃ w < l3Ways, i = line % l3Sets * l3Ways + w := by
    cases hv : victim with
    | some j =>
      obtain ⟨w, hw, hj⟩ := hway j hv
      exact ⟨w, hw, by simp only [i, hv, Option.getD_some, hj]⟩
    | none =>
      refine ⟨oldest, ?_, by simp only [i, hv, Option.getD_none]⟩
      refine List.foldlRecOn (motive := fun w => w < l3Ways) _ _ (by decide) fun best hbest w hw => ?_
      split
      · exact List.mem_range.mp hw
      · exact hbest
  have h1 : cohOf s1 b = { c with l3 := l3 } := cohOf_setCoh_same ..
  have hview1 : homeView s1 b line = homeView s b line := by simp only [homeView, dirOf, h1, c]
  split
  · exact hview1
  · rename_i hvalid
    have hother : l.line ≠ line := by
      obtain ⟨w, hw, hi⟩ := hset
      obtain ⟨hstate, hline⟩ := hkeeps i
      rw [show l.line = _ from hline, hi]
      refine cFind_none hmiss hw ?_
      rw [← hi, ← hstate]
      exact hvalid
    have h2 : cohOf s2 b = cohOf s1 b := by
      have hback : cohOf (backInvalidate s1 b l.line).1 b = cohOf s1 b := congrArg (tget ({} : Coh) · b) (backInvalidate_coh ..)
      simp only [s2]
      clear_value s1 l
      generalize backInvalidate s1 b l.line = r at hback ⊢
      split
      · exact hback
      · split
        · exact hback
        · exact hback
    have hdir : tget {} (mdel c.dir l.line) line = tget {} c.dir line := by
      rw [tget, mget_mdel_other _ hother.symm, tget]
    clear_value s1 s2
    simp only [homeView, dirOf, cohOf_setCoh_same, c2, h2, h1, hdir, c]

/-- A line fetched into the L3 changes nothing else of its home. -/
@[simp] theorem l3Fetch_homeView (age : Nat) : homeView (l3Fetch s b line age).1 b line = homeView s b line := by
  unfold l3Fetch
  extract_lets c
  split
  · simp only [homeView, dirOf, cohOf_setCoh_same, c]
  · rename_i hmiss
    have hroom := l3Room_homeView s b line hmiss
    generalize l3Room s b line = v at hroom
    obtain ⟨u, i⟩ := v
    simp only [homeView, dirOf, cohOf_setCoh_same] at hroom ⊢
    exact hroom

@[simp] theorem l3Write_homeView (k : Nat) (d : BitVec 512) (q : Bool) : homeView (l3Write s b line d q) b k = homeView s b k := by
  unfold l3Write
  extract_lets c
  split
  · simp only [homeView, dirOf, cohOf_setCoh_same, c]
  · rfl

end L3

/-! What is read of a basin's home. -/

section Reads
variable (s : State) (b line : Nat)

@[simp] theorem dirOf_setDir (d : Dir) : dirOf (setDir s b line d) b line = d := by simp only [dirOf, cohOf_setDir, tget_tset_same]
@[simp] theorem dirOf_sendMsg (m : CohMsg) : dirOf (sendMsg s b m) b line = dirOf s b line := by simp only [dirOf, cohOf_sendMsg]
@[simp] theorem dirOf_modReq (a l tag : Nat) (f : CohReq → CohReq) : dirOf (modReq s b a l tag f) b line = dirOf s b line := by
  simp only [dirOf, cohOf_modReq]
@[simp] theorem dirOf_l3Copy : dirOf (l3Copy s b line).1 b line = dirOf s b line := dirOf_of_homeView (l3Fetch_homeView s b line 1)
@[simp] theorem reqs_l3Copy : (cohOf (l3Copy s b line).1 b).reqs = (cohOf s b).reqs := reqs_of_homeView (l3Fetch_homeView s b line 1)
@[simp] theorem dirOf_l3Write (k : Nat) (d : BitVec 512) (q : Bool) : dirOf (l3Write s b line d q) b k = dirOf s b k :=
  dirOf_of_homeView (l3Write_homeView s b line k d q)
@[simp] theorem l3Write_pcache (d : BitVec 512) (q : Bool) : (l3Write s b line d q).pcache = s.pcache := by
  unfold l3Write
  extract_lets c
  split
  · rfl
  · rfl

end Reads

theorem l2Held_congr {s u : State} (h : u.pcache = s.pcache) (p line : Nat) : l2Held u p line = l2Held s p line := by
  unfold l2Held
  rw [show pcOf u p = pcOf s p from congrArg (tget ({} : PierCache) · p) h]

/-! The L3 copy of a line. -/

/-- The L3 of a basin holds a line with these bytes and this poison. -/
def L3Holds (s : State) (b line : Nat) (d : BitVec 512) (q : Bool) : Prop :=
  ∃ i, cFind (cohOf s b).l3 l3Sets l3Ways line = some i ∧ (tget {} (cohOf s b).l3 i).data = d ∧ (tget {} (cohOf s b).l3 i).poisoned = q

section Copy
variable {s : State} {b line : Nat} {d : BitVec 512} {q : Bool}

theorem l3Copy_hit {i : Nat} (h : cFind (cohOf s b).l3 l3Sets l3Ways line = some i) :
    l3Copy s b line = (setCoh s b { cohOf s b with l3 := tset {} (cohOf s b).l3 i { tget {} (cohOf s b).l3 i with age := 0 } },
      { tget {} (cohOf s b).l3 i with age := 0 }) := by
  simp only [l3Copy, l3Fetch, h]

/-- A line that the L3 holds is read without a change of its copy or of a pier's caches. -/
theorem l3Copy_holds (h : L3Holds s b line d q) : L3Holds (l3Copy s b line).1 b line d q ∧ (l3Copy s b line).2.data = d ∧
    (l3Copy s b line).2.poisoned = q ∧ (l3Copy s b line).1.pcache = s.pcache := by
  obtain ⟨i, hi, hd, hq⟩ := h
  obtain ⟨hvalid, hline⟩ := cFind_some hi
  rw [l3Copy_hit hi]
  refine ⟨⟨i, ?_, ?_, ?_⟩, hd, hq, rfl⟩
  · simp only [cohOf_setCoh_same]
    exact cFind_tset hi hvalid hline
  · simpa only [cohOf_setCoh_same, tget_tset_same] using hd
  · simpa only [cohOf_setCoh_same, tget_tset_same] using hq

theorem l3Write_holds (h : L3Holds s b line d q) (d' : BitVec 512) (q' : Bool) : L3Holds (l3Write s b line d' q') b line d' q' := by
  obtain ⟨i, hi, -, -⟩ := h
  have hwrite : (cohOf (l3Write s b line d' q') b).l3 =
      tset {} (cohOf s b).l3 i { tget {} (cohOf s b).l3 i with data := d', state := .m, poisoned := q' } := by
    simp only [l3Write, hi, cohOf_setCoh_same]
  refine ⟨i, ?_, ?_, ?_⟩
  · rw [hwrite]
    exact cFind_tset hi nofun (cFind_some hi).2
  · rw [hwrite, tget_tset_same]
  · rw [hwrite, tget_tset_same]

theorem L3Holds.congr {u : State} (h : L3Holds s b line d q) (hl3 : (cohOf u b).l3 = (cohOf s b).l3) : L3Holds u b line d q := by
  unfold L3Holds
  rw [hl3]
  exact h

/-- A line without an owner is as the L3 holds it (R212). -/
theorem cohLine_unowned (h : L3Holds s b line d q) (hdir : (dirOf s b line).state = .di ∨ (dirOf s b line).state = .ds) :
    cohLine s b line = (d, q) := by
  obtain ⟨i, hi, hd, hq⟩ := h
  simp only [cohLine, hdir, if_true, hi, hd, hq]

/-- A line that the L3 holds reads the same once it has been fetched. -/
theorem cohLine_l3Copy (h : L3Holds s b line d q) : cohLine (l3Copy s b line).1 b line = cohLine s b line := by
  obtain ⟨⟨j, hj, hjd, hjq⟩, -, -, hpc⟩ := l3Copy_holds h
  obtain ⟨i, hi, hd, hq⟩ := h
  have hheld (p : Nat) : l2Held (l3Copy s b line).1 p line = l2Held s p line := l2Held_congr hpc p line
  simp only [cohLine, dirOf_l3Copy, hheld, hj, hi, hjd, hjq, hd, hq]

end Copy

/-! Requests at the home (R212, R215). -/

/-- A request of an agent, sent now. -/
def reqBy (s : State) (a line tag : Nat) (k : ReqKind) : CohReq := { agent := a, line := line, tag := tag, kind := k, sent := nowNs s }

/-- A request stands last among the outstanding ones. -/
def requested (s : State) (b : Nat) (r : CohReq) : State := setCoh s b { cohOf s b with reqs := (cohOf s b).reqs ++ [r] }

/-- The home answers a request with its data, granting a state, and keeps a directory entry of the line. -/
def given (s : State) (b : Nat) (r : CohReq) (st : LState) (d : Dir) : State :=
  let c := l3Copy s b r.line
  setDir (sendMsg c.1 b (.data r.agent r.line r.tag st c.2.data c.2.poisoned)) b r.line d

/-- A line is busy: a forward to its owner, where there is one, and invalidations have been sent, and their answers are owed. -/
structure Busied (u : State) (b : Nat) (r : CohReq) (st : DirState) (owner : Option Nat) (own : Bool) (invs : List Nat) : Prop where
  state : (dirOf u b r.line).state = st
  oweFwd : (dirOf u b r.line).oweFwd = owner.toList
  oweInv : (dirOf u b r.line).oweInv = invs
  forwarded : ∀ o ∈ owner, (if own then .fwdGetM o r.line r.agent r.tag else .fwdGetS o r.line r.agent r.tag) ∈ (cohOf u b).msgs
  invalidated : ∀ x ∈ invs, .inv x r.line ∈ (cohOf u b).msgs

section Requests
variable {s : State} {b : Nat} {r : CohReq}

@[simp] theorem cohOf_requested : cohOf (requested s b r) b = { cohOf s b with reqs := (cohOf s b).reqs ++ [r] } := cohOf_setCoh_same ..
@[simp] theorem dirOf_requested (line : Nat) : dirOf (requested s b r) b line = dirOf s b line := by simp only [dirOf, cohOf_requested]

@[simp] theorem given_dirOf (st : LState) (d : Dir) : dirOf (given s b r st d) b r.line = d := dirOf_setDir ..
@[simp] theorem given_reqs (st : LState) (d : Dir) : (cohOf (given s b r st d) b).reqs = (cohOf s b).reqs := by
  simp only [given, cohOf_setDir, cohOf_sendMsg, reqs_l3Copy]
theorem given_sent (st : LState) (d : Dir) : ∃ x q, .data r.agent r.line r.tag st x q ∈ (cohOf (given s b r st d) b).msgs := by
  simp only [given, cohOf_setDir, cohOf_sendMsg]
  exact ⟨_, _, List.mem_append_right _ List.mem_cons_self⟩

theorem makeBusy_busied (s : State) (b : Nat) (r : CohReq) (st : DirState) (owner : Option Nat) (own : Bool) (invs : List Nat) (withData : Bool) :
    Busied (makeBusy s b r st owner own invs withData) b r st owner own invs := by
  unfold makeBusy
  extract_lets d u v
  have hu : dirOf u b r.line = { d with state := st, oweFwd := owner.toList, oweInv := invs, req := some r, withData := withData, since := nowNs s } :=
    dirOf_setDir ..
  have hdir : dirOf v b r.line = dirOf u b r.line := by
    cases owner with
    | none => rfl
    | some o => exact dirOf_sendMsg ..
  have hfwd : ∀ o ∈ owner, (if own then .fwdGetM o r.line r.agent r.tag else .fwdGetS o r.line r.agent r.tag) ∈ (cohOf v b).msgs := by
    rintro o rfl
    simp only [v, cohOf_sendMsg]
    exact List.mem_append_right _ List.mem_cons_self
  have hcoh := cohOf_foldl_sendMsg v b (fun a => .inv a r.line) invs
  clear_value u v
  have hlast : dirOf (invs.foldl (fun s a => sendMsg s b (.inv a r.line)) v) b r.line = _ := (by simp only [dirOf, hcoh] : _ = dirOf v b r.line).trans (hdir.trans hu)
  refine ⟨by rw [hlast], by rw [hlast], by rw [hlast], fun o ho => ?_, fun x hx => ?_⟩
  · rw [hcoh]
    exact List.mem_append_left _ (hfwd o ho)
  · rw [hcoh]
    exact List.mem_append_right _ (List.mem_map_of_mem hx)

/-! What the home does with a request that it serves, by its kind and the state of the line (R212). -/

theorem homeServe_gets_di (hkind : r.kind = .gets) (hdir : (dirOf s b r.line).state = .di) :
    homeServe s b r = given s b r .e { dirOf s b r.line with state := .de, owner := r.agent, sharers := [] } := by
  simp only [homeServe, given, hkind, dirOf_l3Copy, hdir]

theorem homeServe_gets_ds (hkind : r.kind = .gets) (hdir : (dirOf s b r.line).state = .ds) :
    homeServe s b r = given s b r .s { dirOf s b r.line with
      sharers := if (dirOf s b r.line).sharers.contains r.agent then (dirOf s b r.line).sharers else r.agent :: (dirOf s b r.line).sharers } := by
  simp only [homeServe, given, hkind, dirOf_l3Copy, hdir]

theorem homeServe_getm_di (hkind : r.kind = .getm) (hdir : (dirOf s b r.line).state = .di) :
    homeServe s b r = given s b r .m { dirOf s b r.line with state := .de, owner := r.agent, sharers := [] } := by
  simp only [homeServe, given, hkind, dirOf_l3Copy, hdir]

theorem homeServe_gets_owned (hkind : r.kind = .gets) (hdir : (dirOf s b r.line).state = .de ∨ (dirOf s b r.line).state = .dO) :
    Busied (homeServe s b r) b r .bF (some (dirOf s b r.line).owner) false [] := by
  rcases hdir with hdir | hdir
  · simp only [homeServe, hkind, dirOf_l3Copy, hdir]
    exact makeBusy_busied ..
  · simp only [homeServe, hkind, dirOf_l3Copy, hdir]
    exact makeBusy_busied ..

theorem homeServe_getm_owned (hkind : r.kind = .getm) (hdir : (dirOf s b r.line).state = .de ∨ (dirOf s b r.line).state = .dO)
    (howner : (dirOf s b r.line).owner ≠ r.agent) : ∃ invs, Busied (homeServe s b r) b r .bF (some (dirOf s b r.line).owner) true invs := by
  rcases hdir with hdir | hdir
  · simp only [homeServe, hkind, dirOf_l3Copy, hdir, howner, if_false]
    exact ⟨_, makeBusy_busied ..⟩
  · simp only [homeServe, hkind, dirOf_l3Copy, hdir, howner, if_false]
    exact ⟨_, makeBusy_busied ..⟩

/-- GetM and Upgr of a line that others share invalidate them first. -/
theorem homeServe_shared (hkind : r.kind = .getm ∨ r.kind = .upgr) (hdir : (dirOf s b r.line).state = .ds)
    (hothers : (dirOf s b r.line).sharers.filter (· != r.agent) ≠ []) :
    Busied (homeServe s b r) b r .bI none true ((dirOf s b r.line).sharers.filter (· != r.agent)) := by
  rcases hkind with hkind | hkind
  · simp only [homeServe, hkind, dirOf_l3Copy, hdir, List.isEmpty_iff, hothers, if_false]
    exact makeBusy_busied ..
  · simp only [homeServe, hkind, dirOf_l3Copy, hdir, List.isEmpty_iff, hothers, if_false]
    exact makeBusy_busied ..

/-- The only sharer of a line is granted its ownership without data. -/
theorem homeServe_upgr_alone (hkind : r.kind = .upgr) (hdir : (dirOf s b r.line).state = .ds) (hmem : r.agent ∈ (dirOf s b r.line).sharers)
    (hothers : (dirOf s b r.line).sharers.filter (· != r.agent) = []) :
    dirOf (homeServe s b r) b r.line = { dirOf s b r.line with state := .de, owner := r.agent, sharers := [] } ∧
      .grant r.agent r.line r.tag ∈ (cohOf (homeServe s b r) b).msgs := by
  have hheld : (dirOf s b r.line).sharers.contains r.agent = true := List.contains_iff_mem.mpr hmem
  simp only [homeServe, hkind, dirOf_l3Copy, hdir, hothers, hheld, List.isEmpty_nil, beq_self_eq_true, Bool.and_self, if_true, dirOf_sendMsg,
    dirOf_setDir, cohOf_sendMsg, true_and]
  exact List.mem_append_right _ List.mem_cons_self

theorem homeServe_iord_unowned (hkind : r.kind = .iord) (hdir : (dirOf s b r.line).state = .di ∨ (dirOf s b r.line).state = .ds) :
    homeServe s b r = ioFinish (l3Copy s b r.line).1 b r := by
  rcases hdir with hdir | hdir
  · simp only [homeServe, hkind, dirOf_l3Copy, hdir]
  · simp only [homeServe, hkind, dirOf_l3Copy, hdir]

theorem homeServe_iowr_di (hkind : r.kind = .iowr) (hdir : (dirOf s b r.line).state = .di) :
    homeServe s b r = ioFinish (l3Copy s b r.line).1 b r := by
  simp only [homeServe, hkind, dirOf_l3Copy, hdir]

theorem homeServe_iowr_ds (hkind : r.kind = .iowr) (hdir : (dirOf s b r.line).state = .ds) :
    Busied (homeServe s b r) b r .bA none true (dirOf s b r.line).sharers := by
  simp only [homeServe, hkind, dirOf_l3Copy, hdir]
  exact makeBusy_busied ..

/-! Where a request arrives (R215). -/

theorem homeArrive_busy (hbusy : dirStable (dirOf s b r.line) = false) (hagent : r.agent ≠ 4) (hnacks : r.nacks < 7) :
    homeArrive s b r = sendMsg s b (.nack r.agent r.line r.tag r.kind) := by
  have hfew : ¬ 8 ≤ r.nacks + 1 := by omega
  simp only [homeArrive, hbusy, Bool.false_eq_true, false_and, if_false, hfew, decide_false, Bool.false_and, hagent]

theorem homeArrive_stable (hstable : dirStable (dirOf s b r.line) = true) (hfree : (dirOf s b r.line).reserve = []) :
    homeArrive s b r = homeServe s b r := by
  simp only [homeArrive, hstable, hfree, List.isEmpty_nil, List.head?_nil, reduceCtorEq, or_false, and_self, if_true, if_false]

end Requests

section L2Requests
variable {s : State} {basin : BasinId} {agent : Fin 4} {line : Nat} {tag : BitVec 6}
  (hmay : mayRequest s basin agent.val line tag.toNat = true)
include hmay

theorem gets_arrives (hheld : l2Held s (agentPier basin agent.val) line = none) : exec (.gets basin agent line tag) s =
    .next (homeArrive (requested s basin.val (reqBy s agent.val line tag.toNat .gets)) basin.val (reqBy s agent.val line tag.toNat .gets)) :=
  congrArg Host.Outcome.next (if_pos ⟨hmay, by rw [hheld]; rfl⟩)

theorem getm_arrives (hheld : l2Held s (agentPier basin agent.val) line = none) : exec (.getm basin agent line tag) s =
    .next (homeArrive (requested s basin.val (reqBy s agent.val line tag.toNat .getm)) basin.val (reqBy s agent.val line tag.toNat .getm)) :=
  congrArg Host.Outcome.next (if_pos ⟨hmay, by rw [hheld]; rfl⟩)

theorem upgr_arrives (hway : wayState s basin agent.val line = .s) : exec (.upgr basin agent line tag) s =
    .next (homeArrive (requested s basin.val (reqBy s agent.val line tag.toNat .upgr)) basin.val (reqBy s agent.val line tag.toNat .upgr)) :=
  congrArg Host.Outcome.next (if_pos ⟨hmay, .inl hway⟩)

end L2Requests

/-! Puts (R216, R217). -/

section Puts
variable {s : State} {basin : BasinId} {a line : Nat}

theorem wayState_valid {st : LState} (hway : wayState s basin a line = st) (hst : st ≠ .i) :
    ∃ i, cFind (pcOf s (agentPier basin a)).l2 l2Sets l2Ways line = some i ∧ (tget {} (pcOf s (agentPier basin a)).l2 i).state = st := by
  unfold wayState at hway
  split at hway
  · rename_i i hi
    exact ⟨i, hi, hway⟩
  · exact absurd hway.symm hst

/-- An evicted line that its L2 owned stands last in the eviction buffer. -/
theorem l2Evict_buffers {p i : Nat} {st : LState} (hstate : (tget {} (pcOf s p).l2 i).state = st) (hst : st = .m ∨ st = .o ∨ st = .e) :
    ∃ d q, (pcOf (l2Evict s p i) p).evict =
      (pcOf s p).evict ++ [{ line := (tget {} (pcOf s p).l2 i).line, state := st, data := d, poisoned := q }] := by
  refine ⟨(tget {} (pcOf s p).l2 i).data, (tget {} (pcOf s p).l2 i).poisoned, ?_⟩
  obtain rfl | rfl | rfl := hst <;> simp only [l2Evict, pcOf_setPc_same, l1Drop, hstate]

/-- The home takes a Put of a line from an agent that it lists (R217). -/
theorem homePut_listed {b tag : Nat} {st : LState} {data : BitVec 512} {q : Bool} (hfwd : (dirOf s b line).oweFwd = [])
    (hstable : dirStable (dirOf s b line) = true) (hlists : dirLists (dirOf s b line) a st = true) :
    homePut s b a line tag st data q false =
      let u := setDir s b line (dirWithout (dirOf s b line) a st)
      let v := if st = .m ∨ st = .o then l3Write u b line data q else u
      if st = .s then v else sendMsg v b (.wback a line tag) := by
  simp only [homePut, hfwd, hstable, hlists, List.contains_nil, Bool.not_true, Bool.false_eq_true, false_and, if_false]

/-- What a Put of an owned line leaves at the home and of the eviction buffers. -/
theorem homePut_owned {b tag : Nat} {st : LState} (data : BitVec 512) (q : Bool) (hst : st ≠ .s) (hfwd : (dirOf s b line).oweFwd = [])
    (hstable : dirStable (dirOf s b line) = true) (hlists : dirLists (dirOf s b line) a st = true) :
    CohMsg.wback a line tag ∈ (cohOf (homePut s b a line tag st data q false) b).msgs ∧
      dirOf (homePut s b a line tag st data q false) b line = dirWithout (dirOf s b line) a st ∧
      (homePut s b a line tag st data q false).pcache = s.pcache := by
  rw [homePut_listed hfwd hstable hlists]
  extract_lets u v
  have hv : dirOf v b line = dirWithout (dirOf s b line) a st ∧ v.pcache = s.pcache := by
    simp only [v]
    split
    · exact ⟨(dirOf_l3Write ..).trans (dirOf_setDir ..), l3Write_pcache ..⟩
    · exact ⟨dirOf_setDir .., rfl⟩
  clear_value v
  rw [if_neg hst, cohOf_sendMsg, dirOf_sendMsg]
  exact ⟨List.mem_append_right _ List.mem_cons_self, hv⟩

/-- The buffer entry of a line waits for the answer to its Put, by the Put's tag. -/
def putTagged (s : State) (p line tag : Nat) (st : LState) : State :=
  setPc s p { pcOf s p with
    evict := mapIf (fun x => x.line == line && decide (x.state = st) && x.tag.isNone) (fun x => { x with tag := some tag }) (pcOf s p).evict }

/-- An L2 that evicts an owned line which the home lists puts it into its eviction buffer, with the tag of its Put. -/
theorem l2Put_answered {tag : Nat} {st : LState} (hst : st = .m ∨ st = .o ∨ st = .e) (hruns : cohRuns s basin = true)
    (hfwd : (dirOf s basin.val line).oweFwd = []) (hstable : dirStable (dirOf s basin.val line) = true)
    (hway : wayState s basin a line = st) (hen : (pcOf s (agentPier basin a)).l2En = true)
    (hfresh : ∀ e ∈ (pcOf s (agentPier basin a)).evict, e.line ≠ line) (hlists : dirLists (dirOf s basin.val line) a st = true) :
    CohMsg.wback a line tag ∈ (cohOf (l2Put s basin a line tag st) basin.val).msgs ∧
      dirOf (l2Put s basin a line tag st) basin.val line = dirWithout (dirOf s basin.val line) a st ∧
      ∃ e ∈ (pcOf (l2Put s basin a line tag st) (agentPier basin a)).evict, e.line = line ∧ e.state = st ∧ e.tag = some tag := by
  have hne : st ≠ .s ∧ st ≠ .i := by obtain rfl | rfl | rfl := hst <;> exact ⟨nofun, nofun⟩
  obtain ⟨i, hi, hstate⟩ := wayState_valid hway hne.2
  obtain ⟨d, q, hevict⟩ := l2Evict_buffers hstate hst
  rw [(cFind_some hi).2] at hevict
  have hfind : (pcOf (l2Evict s (agentPier basin a) i) (agentPier basin a)).evict.find? (fun e => e.line == line && decide (e.state = st) && e.tag.isNone) =
      some { line := line, state := st, data := d, poisoned := q } := by
    have hnone : (pcOf s (agentPier basin a)).evict.find? (fun e => e.line == line && decide (e.state = st) && e.tag.isNone) = none :=
      List.find?_eq_none.mpr fun e he => by simp [hfresh e he]
    rw [hevict, List.find?_append, hnone]
    simp
  simp only [l2Put, hruns, hway, hen, hi, hfind, Bool.not_true, Bool.false_eq_true, if_false, and_self, if_true]
  obtain ⟨hsent, hdir, hpc⟩ := homePut_owned (b := basin.val) (line := line) (s := putTagged (l2Evict s (agentPier basin a) i) (agentPier basin a) line tag st) (tag := tag) d q
    hne.1 hfwd hstable hlists
  refine ⟨hsent, hdir, { line := line, state := st, data := d, poisoned := q, tag := some tag }, ?_, rfl, rfl, rfl⟩
  have htagged := congrArg (fun t => (tget ({} : PierCache) t (agentPier basin a)).evict) hpc
  refine htagged.symm ▸ ?_
  show _ ∈ (pcOf (putTagged _ _ line tag st) (agentPier basin a)).evict
  rw [putTagged, pcOf_setPc_same, hevict]
  exact List.mem_map.mpr ⟨_, List.mem_append_right _ List.mem_cons_self, by simp⟩

/-- A clean line that its L2 shares leaves the directory, and no message is sent. -/
theorem puts_leaves {agent : Fin 4} {tag : BitVec 6} (hruns : cohRuns s basin = true) (hfwd : (dirOf s basin.val line).oweFwd = [])
    (hstable : dirStable (dirOf s basin.val line) = true) (hen : (pcOf s (agentPier basin agent.val)).l2En = true)
    (hway : wayState s basin agent.val line = .s) (hfree : ∀ r ∈ (cohOf s basin.val).reqs, ¬ (r.agent = agent.val ∧ r.line = line))
    (hlists : dirLists (dirOf s basin.val line) agent.val .s = true) :
    ∃ u, cohOf u basin.val = cohOf s basin.val ∧
      exec (.puts basin agent line tag) s = .next (setDir u basin.val line (dirWithout (dirOf s basin.val line) agent.val .s)) := by
  obtain ⟨i, hi, -⟩ := wayState_valid hway nofun
  have hnone : (cohOf s basin.val).reqs.any (fun r => r.agent == agent.val && r.line == line) = false :=
    List.any_eq_false.mpr fun r hr => by simpa using hfree r hr
  refine ⟨l2Evict s (agentPier basin agent.val) i, rfl, ?_⟩
  show execPuts .. = _
  simp only [execPuts, hruns, hen, hway, hnone, hi, Bool.not_false, and_self, if_true]
  rw [homePut_listed (s := l2Evict s (agentPier basin agent.val) i) hfwd hstable hlists]
  simp only [reduceCtorEq, or_self, if_false, if_true]
  rfl

end Puts
/-! Agent 4 (R212). -/

section Io
variable {s : State} {b : Nat} {r : CohReq}

theorem reqOf_dropReq (s : State) (b a line tag : Nat) : reqOf (dropReq s b a line tag) b a line tag = none := by
  rw [reqOf, cohOf_dropReq]
  exact List.find?_eq_none.mpr fun x hx => by simpa only [Bool.not_eq_true', Bool.not_eq_true] using (List.mem_filter.mp hx).2

/-- What a finished access of agent 4 leaves at the home. -/
theorem ioFinish_done (s : State) (b : Nat) (r : CohReq) : reqOf (ioFinish s b r) b 4 r.line r.tag = none ∧
    dirOf (ioFinish s b r) b r.line = dirOf s b r.line ∧
    ∃ x, mget (cohOf (ioFinish s b r) b).ioDone r.tag = some x ∧ ∀ d q, L3Holds s b r.line d q → x.data = d ∧ x.poisoned = q := by
  unfold ioFinish
  simp -zeta only
  extract_lets u c
  have hu : dirOf u b r.line = dirOf s b r.line := by
    simp only [u]
    split
    · exact (dirOf_l3Write ..).trans (dirOf_l3Copy ..)
    · exact dirOf_l3Copy ..
  refine ⟨?_, ?_, ?_⟩
  · exact reqOf_dropReq ..
  · rw [← hu]
    simp only [dirOf, cohOf_dropReq, cohOf_setCoh_same, c]
  · simp only [cohOf_dropReq, cohOf_setCoh_same, mget_mset_same]
    refine ⟨_, rfl, fun d q hheld => ?_⟩
    obtain ⟨-, hd, hq, -⟩ := l3Copy_holds hheld
    exact ⟨hd, hq⟩

/-- A finished write of agent 4 has put its bytes into the L3 copy. -/
theorem ioFinish_written {d : BitVec 512} {q : Bool} (hkind : r.kind = .iowr) (h : L3Holds s b r.line d q) :
    ∃ q', L3Holds (ioFinish s b r) b r.line (lineSetBytes d r.off r.bytes) q' := by
  obtain ⟨hcopy, hd, -, -⟩ := l3Copy_holds h
  have hwritten := l3Write_holds hcopy (lineSetBytes d r.off r.bytes) ((l3Copy s b r.line).2.poisoned && r.bytes.length < 64)
  refine ⟨_, hwritten.congr ?_⟩
  simp only [ioFinish, hkind, if_true, hd, cohOf_dropReq, cohOf_setCoh_same]

/-- A write of agent 4, sent now. -/
def iowrBy (s : State) (line tag off : Nat) (data : List Byte) : CohReq := { reqBy s 4 line tag .iowr with off := off, bytes := data }

theorem iord_arrives {basin : BasinId} {line : Nat} {tag : BitVec 6} (hruns : cohRuns s basin = true)
    (hfresh : reqOf s basin.val 4 line tag.toNat = none) : exec (.iord basin line tag) s =
      .next (homeArrive (requested s basin.val (reqBy s 4 line tag.toNat .iord)) basin.val (reqBy s 4 line tag.toNat .iord)) := by
  show execIord .. = _
  simp only [execIord, hruns, if_true, ioRequest, hfresh]
  rfl

theorem iowr_arrives {basin : BasinId} {line : Nat} {tag : BitVec 6} {off : Fin 64} {data : List Byte} (hruns : cohRuns s basin = true)
    (hfresh : reqOf s basin.val 4 line tag.toNat = none) (hlen : off.val + data.length ≤ 64) : exec (.iowr basin line tag off data) s =
      .next (homeArrive (requested s basin.val (iowrBy s line tag.toNat off.val data)) basin.val (iowrBy s line tag.toNat off.val data)) := by
  show execIowr .. = _
  simp only [execIowr, hruns, hlen, and_self, if_true, ioRequest, hfresh]
  rfl

end Io

/-! Atomics at the home (R214). -/

section Recall
variable {s : State} {b line : Nat}

/-- Every copy of a line in an L2 that its directory entry lists is taken away. -/
def copiesTaken (s : State) (b line : Nat) : State := (listed (dirOf s b line)).foldl (fun s a => l2SetState s (b * 4 + a) line .i) s

theorem recallAll_eq (s : State) (b line : Nat) : recallAll s b line = setDir (l3Write (copiesTaken (l3Copy s b line).1 b line) b line
    (cohLine (l3Copy s b line).1 b line).1 (cohLine (l3Copy s b line).1 b line).2) b line {} := rfl

theorem recallAll_dirOf (s : State) (b line : Nat) : dirOf (recallAll s b line) b line = {} := by rw [recallAll_eq, dirOf_setDir]

theorem cohOf_copiesTaken (s : State) (b line : Nat) : cohOf (copiesTaken s b line) b = cohOf s b :=
  List.foldlRecOn (motive := fun u : State => cohOf u b = cohOf s b) _ _ rfl fun _ hu _ _ => (cohOf_l2SetState ..).trans hu

/-- A recalled line stands in the L3 as its owner held it. -/
theorem recallAll_holds {d : BitVec 512} {q : Bool} (h : L3Holds s b line d q) :
    L3Holds (recallAll s b line) b line (cohLine s b line).1 (cohLine s b line).2 := by
  obtain ⟨hcopy, -, -, -⟩ := l3Copy_holds h
  have hv := l3Write_holds (hcopy.congr (congrArg Coh.l3 (cohOf_copiesTaken _ b line))) (cohLine s b line).1 (cohLine s b line).2
  rw [recallAll_eq, cohLine_l3Copy h]
  exact hv.congr (by rw [cohOf_setDir])

end Recall

/-! What a request that arrives at the home finds there (R212, R215). -/

section Arrivals
variable {s : State} {b : Nat} {r : CohReq}

theorem mem_requested (s : State) (b : Nat) (r : CohReq) : r ∈ (cohOf (requested s b r) b).reqs := by
  rw [cohOf_requested]
  exact List.mem_append_right _ List.mem_cons_self

theorem request_nacked (hbusy : dirStable (dirOf s b r.line) = false) (hagent : r.agent ≠ 4) (hnacks : r.nacks < 7) :
    r ∈ (cohOf (homeArrive (requested s b r) b r) b).reqs ∧ dirOf (homeArrive (requested s b r) b r) b r.line = dirOf s b r.line ∧
      .nack r.agent r.line r.tag r.kind ∈ (cohOf (homeArrive (requested s b r) b r) b).msgs := by
  rw [homeArrive_busy (by rwa [dirOf_requested]) hagent hnacks, dirOf_sendMsg, dirOf_requested, cohOf_sendMsg]
  exact ⟨mem_requested .., rfl, List.mem_append_right _ List.mem_cons_self⟩

theorem request_served (hstable : dirStable (dirOf s b r.line) = true) (hfree : (dirOf s b r.line).reserve = []) :
    homeArrive (requested s b r) b r = homeServe (requested s b r) b r :=
  homeArrive_stable (by rwa [dirOf_requested]) (by rwa [dirOf_requested])

theorem request_given (s : State) (b : Nat) (r : CohReq) (st : LState) (d : Dir) : r ∈ (cohOf (given (requested s b r) b r st d) b).reqs ∧
    dirOf (given (requested s b r) b r st d) b r.line = d ∧
    ∃ x q, .data r.agent r.line r.tag st x q ∈ (cohOf (given (requested s b r) b r st d) b).msgs :=
  ⟨by rw [given_reqs]; exact mem_requested .., given_dirOf .., given_sent ..⟩

theorem stable_of_state {d : Dir} (h : d.state = .di ∨ d.state = .ds ∨ d.state = .de ∨ d.state = .dO) : dirStable d = true := by
  rcases h with h | h | h | h <;> simp only [dirStable, h]

end Arrivals

section L2Requests
variable {s : State} {basin : BasinId} {agent : Fin 4} {line : Nat} {tag : BitVec 6}
  (hmay : mayRequest s basin agent.val line tag.toNat = true)
include hmay

section NotHeld
variable (hheld : l2Held s (agentPier basin agent.val) line = none)
include hheld

theorem gets_nacked (hbusy : dirStable (dirOf s basin.val line) = false) : answers (.gets basin agent line tag) s (fun u =>
    reqBy s agent.val line tag.toNat .gets ∈ (cohOf u basin.val).reqs ∧ dirOf u basin.val line = dirOf s basin.val line ∧
      .nack agent.val line tag.toNat .gets ∈ (cohOf u basin.val).msgs) :=
  ⟨_, gets_arrives hmay hheld, request_nacked hbusy (Nat.ne_of_lt agent.isLt) (Nat.succ_pos _)⟩

theorem getm_nacked (hbusy : dirStable (dirOf s basin.val line) = false) : answers (.getm basin agent line tag) s (fun u =>
    reqBy s agent.val line tag.toNat .getm ∈ (cohOf u basin.val).reqs ∧ dirOf u basin.val line = dirOf s basin.val line ∧
      .nack agent.val line tag.toNat .getm ∈ (cohOf u basin.val).msgs) :=
  ⟨_, getm_arrives hmay hheld, request_nacked hbusy (Nat.ne_of_lt agent.isLt) (Nat.succ_pos _)⟩

variable (hfree : (dirOf s basin.val line).reserve = [])
include hfree

theorem gets_di (hdir : (dirOf s basin.val line).state = .di) : answers (.gets basin agent line tag) s (fun u =>
    reqBy s agent.val line tag.toNat .gets ∈ (cohOf u basin.val).reqs ∧
      dirOf u basin.val line = { dirOf s basin.val line with state := .de, owner := agent.val, sharers := [] } ∧
      ∃ x q, .data agent.val line tag.toNat .e x q ∈ (cohOf u basin.val).msgs) := by
  refine ⟨_, gets_arrives hmay hheld, ?_⟩
  rw [request_served (stable_of_state (.inl hdir)) hfree, homeServe_gets_di rfl (by rwa [dirOf_requested]), dirOf_requested]
  exact request_given s basin.val (reqBy s agent.val line tag.toNat .gets) .e _

theorem getm_di (hdir : (dirOf s basin.val line).state = .di) : answers (.getm basin agent line tag) s (fun u =>
    reqBy s agent.val line tag.toNat .getm ∈ (cohOf u basin.val).reqs ∧
      dirOf u basin.val line = { dirOf s basin.val line with state := .de, owner := agent.val, sharers := [] } ∧
      ∃ x q, .data agent.val line tag.toNat .m x q ∈ (cohOf u basin.val).msgs) := by
  refine ⟨_, getm_arrives hmay hheld, ?_⟩
  rw [request_served (stable_of_state (.inl hdir)) hfree, homeServe_getm_di rfl (by rwa [dirOf_requested]), dirOf_requested]
  exact request_given s basin.val (reqBy s agent.val line tag.toNat .getm) .m _

theorem gets_ds (hdir : (dirOf s basin.val line).state = .ds) : answers (.gets basin agent line tag) s (fun u =>
    (dirOf u basin.val line).state = .ds ∧ agent.val ∈ (dirOf u basin.val line).sharers ∧
      ∃ x q, .data agent.val line tag.toNat .s x q ∈ (cohOf u basin.val).msgs) := by
  refine ⟨_, gets_arrives hmay hheld, ?_⟩
  rw [request_served (stable_of_state (.inr (.inl hdir))) hfree, homeServe_gets_ds rfl (by rwa [dirOf_requested]), dirOf_requested]
  obtain ⟨-, hentry, hdata⟩ := request_given s basin.val (reqBy s agent.val line tag.toNat .gets) .s { dirOf s basin.val line with
    sharers := if (dirOf s basin.val line).sharers.contains agent.val then (dirOf s basin.val line).sharers
      else agent.val :: (dirOf s basin.val line).sharers }
  refine ⟨(congrArg Dir.state hentry).trans hdir, (congrArg Dir.sharers hentry).symm ▸ ?_, hdata⟩
  show _ ∈ if (dirOf s basin.val line).sharers.contains agent.val then _ else _
  split
  · rename_i hlisted
    exact List.contains_iff_mem.mp hlisted
  · exact List.mem_cons_self

theorem getm_ds (hdir : (dirOf s basin.val line).state = .ds) (hothers : (dirOf s basin.val line).sharers.filter (· != agent.val) ≠ []) :
    answers (.getm basin agent line tag) s (fun u => Busied u basin.val (reqBy s agent.val line tag.toNat .getm) .bI none true
      ((dirOf s basin.val line).sharers.filter (· != agent.val))) := by
  refine ⟨_, getm_arrives hmay hheld, ?_⟩
  rw [request_served (stable_of_state (.inr (.inl hdir))) hfree]
  have h := homeServe_shared (s := requested s basin.val (reqBy s agent.val line tag.toNat .getm)) (b := basin.val)
    (r := reqBy s agent.val line tag.toNat .getm) (.inl rfl) (by rwa [dirOf_requested]) (by rwa [dirOf_requested])
  rwa [dirOf_requested] at h

theorem gets_owned (hdir : (dirOf s basin.val line).state = .de ∨ (dirOf s basin.val line).state = .dO) :
    answers (.gets basin agent line tag) s (fun u => Busied u basin.val (reqBy s agent.val line tag.toNat .gets) .bF
      (some (dirOf s basin.val line).owner) false []) := by
  refine ⟨_, gets_arrives hmay hheld, ?_⟩
  rw [request_served (stable_of_state (.inr (.inr hdir))) hfree]
  have h := homeServe_gets_owned (s := requested s basin.val (reqBy s agent.val line tag.toNat .gets)) (b := basin.val)
    (r := reqBy s agent.val line tag.toNat .gets) rfl (by rwa [dirOf_requested])
  rwa [dirOf_requested] at h

theorem getm_owned (hdir : (dirOf s basin.val line).state = .de ∨ (dirOf s basin.val line).state = .dO)
    (howner : (dirOf s basin.val line).owner ≠ agent.val) : ∃ invs, answers (.getm basin agent line tag) s (fun u =>
      Busied u basin.val (reqBy s agent.val line tag.toNat .getm) .bF (some (dirOf s basin.val line).owner) true invs) := by
  obtain ⟨invs, h⟩ := homeServe_getm_owned (s := requested s basin.val (reqBy s agent.val line tag.toNat .getm)) (b := basin.val)
    (r := reqBy s agent.val line tag.toNat .getm) rfl (by rwa [dirOf_requested]) (by rwa [dirOf_requested])
  refine ⟨invs, _, getm_arrives hmay hheld, ?_⟩
  rw [request_served (stable_of_state (.inr (.inr hdir))) hfree]
  rwa [dirOf_requested] at h

end NotHeld

section Shared
variable (hway : wayState s basin agent.val line = .s) (hfree : (dirOf s basin.val line).reserve = [])
  (hdir : (dirOf s basin.val line).state = .ds)
include hway hfree hdir

theorem upgr_alone (hmem : agent.val ∈ (dirOf s basin.val line).sharers)
    (hothers : (dirOf s basin.val line).sharers.filter (· != agent.val) = []) : answers (.upgr basin agent line tag) s (fun u =>
      dirOf u basin.val line = { dirOf s basin.val line with state := .de, owner := agent.val, sharers := [] } ∧
      .grant agent.val line tag.toNat ∈ (cohOf u basin.val).msgs) := by
  refine ⟨_, upgr_arrives hmay hway, ?_⟩
  rw [request_served (stable_of_state (.inr (.inl hdir))) hfree]
  have h := homeServe_upgr_alone (s := requested s basin.val (reqBy s agent.val line tag.toNat .upgr)) (b := basin.val)
    (r := reqBy s agent.val line tag.toNat .upgr) rfl (by rwa [dirOf_requested]) (by rwa [dirOf_requested]) (by rwa [dirOf_requested])
  rwa [dirOf_requested] at h

theorem upgr_shared (hothers : (dirOf s basin.val line).sharers.filter (· != agent.val) ≠ []) :
    answers (.upgr basin agent line tag) s (fun u => Busied u basin.val (reqBy s agent.val line tag.toNat .upgr) .bI none true
      ((dirOf s basin.val line).sharers.filter (· != agent.val))) := by
  refine ⟨_, upgr_arrives hmay hway, ?_⟩
  rw [request_served (stable_of_state (.inr (.inl hdir))) hfree]
  have h := homeServe_shared (s := requested s basin.val (reqBy s agent.val line tag.toNat .upgr)) (b := basin.val)
    (r := reqBy s agent.val line tag.toNat .upgr) (.inr rfl) (by rwa [dirOf_requested]) (by rwa [dirOf_requested])
  rwa [dirOf_requested] at h

end Shared
end L2Requests

section IoRequests
variable {s : State} {basin : BasinId} {line : Nat} {tag : BitVec 6} (hruns : cohRuns s basin = true)
  (hfree : (dirOf s basin.val line).reserve = []) (hfresh : reqOf s basin.val 4 line tag.toNat = none)
include hruns hfree hfresh

theorem iord_unowned (hdir : (dirOf s basin.val line).state = .di ∨ (dirOf s basin.val line).state = .ds) :
    answers (.iord basin line tag) s (fun u => reqOf u basin.val 4 line tag.toNat = none ∧
      ∃ x, mget (cohOf u basin.val).ioDone tag.toNat = some x ∧
        ∀ d q, L3Holds s basin.val line d q → x.data = d ∧ x.poisoned = q) := by
  refine ⟨_, iord_arrives hruns hfresh, ?_⟩
  rw [request_served (stable_of_state (hdir.elim .inl (.inr ∘ .inl))) hfree, homeServe_iord_unowned rfl (by rwa [dirOf_requested])]
  obtain ⟨hgone, -, x, hdone, hread⟩ := ioFinish_done (l3Copy (requested s basin.val (reqBy s 4 line tag.toNat .iord)) basin.val line).1 basin.val
    (reqBy s 4 line tag.toNat .iord)
  refine ⟨hgone, x, hdone, fun d q hheld => ?_⟩
  obtain ⟨hcopy, -⟩ := l3Copy_holds (hheld.congr (u := requested s basin.val (reqBy s 4 line tag.toNat .iord)) (by rw [cohOf_requested]))
  exact hread d q hcopy

variable {off : Fin 64} {data : List Byte} (hlen : off.val + data.length ≤ 64)
include hlen

theorem iowr_di (hdir : (dirOf s basin.val line).state = .di) :
    answers (.iowr basin line tag off data) s (fun u => reqOf u basin.val 4 line tag.toNat = none ∧
      dirOf u basin.val line = dirOf s basin.val line ∧ (mget (cohOf u basin.val).ioDone tag.toNat).isSome = true ∧
      ∀ d q, L3Holds s basin.val line d q → ∃ q', L3Holds u basin.val line (lineSetBytes d off.val data) q') := by
  refine ⟨_, iowr_arrives hruns hfresh hlen, ?_⟩
  rw [request_served (stable_of_state (.inl hdir)) hfree, homeServe_iowr_di rfl (by rwa [dirOf_requested])]
  obtain ⟨hgone, hsame, _, hdone, -⟩ := ioFinish_done (l3Copy (requested s basin.val (iowrBy s line tag.toNat off.val data)) basin.val line).1 basin.val
    (iowrBy s line tag.toNat off.val data)
  refine ⟨hgone, hsame.trans ((dirOf_l3Copy ..).trans (dirOf_requested _)), Option.isSome_of_mem hdone, fun d q hheld => ?_⟩
  obtain ⟨hcopy, -⟩ := l3Copy_holds (hheld.congr (u := requested s basin.val (iowrBy s line tag.toNat off.val data)) (by rw [cohOf_requested]))
  exact ioFinish_written (r := iowrBy s line tag.toNat off.val data) rfl hcopy

theorem iowr_ds (hdir : (dirOf s basin.val line).state = .ds) : answers (.iowr basin line tag off data) s (fun u =>
    Busied u basin.val (iowrBy s line tag.toNat off.val data) .bA none true (dirOf s basin.val line).sharers) := by
  refine ⟨_, iowr_arrives hruns hfresh hlen, ?_⟩
  rw [request_served (stable_of_state (.inr (.inl hdir))) hfree]
  have h := homeServe_iowr_ds (s := requested s basin.val (iowrBy s line tag.toNat off.val data)) (b := basin.val)
    (r := iowrBy s line tag.toNat off.val data) rfl (by rwa [dirOf_requested])
  rwa [dirOf_requested] at h

end IoRequests

section Amo
variable {s : State} {basin : BasinId} {addr : Nat} {who fn : Fin 5} {pair : Bool} {cmp operand : BitVec 48}

/-- The bytes that an atomic finds. -/
def homeOld (s : State) (b addr : Nat) (pair : Bool) : Nat :=
  leNat ((List.range (if pair then 6 else 3)).map (fun i => lineByte (cohLine s b (addr / 64)).1 (addr % 64 + i)))

/-- The value that an atomic writes, where it writes one. -/
def homeNew (s : State) (b addr : Nat) (fn : Fin 5) (pair : Bool) (cmp operand : BitVec 48) : Option Nat :=
  let n := if pair then 6 else 3
  amoNew (amoFnOf fn.val) n (homeOld s b addr pair) (cmp.toNat % 2 ^ (8 * n)) (operand.toNat % 2 ^ (8 * n))

/-- The L3 copy of a line takes the bytes of a value, where there is one. -/
def homeWritten (s : State) (b addr : Nat) (pair : Bool) (v : Option Nat) : State :=
  v.elim s fun v => l3Write s b (addr / 64)
    (lineSetBytes (cohLine s b (addr / 64)).1 (addr % 64) (toLe (if pair then 6 else 3) v)) (cohLine s b (addr / 64)).2

/-- An atomic has been performed at the home for an agent. -/
def homeAmo (s : State) (b who addr : Nat) (fn : Fin 5) (pair : Bool) (cmp operand : BitVec 48) : State :=
  let t := recallAll s b (addr / 64)
  let u := homeWritten t b addr pair (homeNew t b addr fn pair cmp operand)
  setCoh u b { cohOf u b with amoOld := mset (cohOf u b).amoOld who (homeOld t b addr pair) }

theorem amo_performs (hruns : cohRuns s basin = true) (hstable : dirStable (dirOf s basin.val (addr / 64)) = true)
    (hchunk : oneChunk addr (if pair then 6 else 3) = true) :
    exec (.amo basin who addr fn pair cmp operand) s = .next (homeAmo s basin.val who.val addr fn pair cmp operand) := by
  have hgoes : ¬ ((!cohRuns s basin) = true ∨ (!oneChunk addr (if pair then 6 else 3)) = true ∨
      (!dirStable (dirOf s basin.val (addr / 64))) = true) := by
    simp [hruns, hchunk, hstable]
  refine congrArg Host.Outcome.next ((if_neg hgoes).trans ?_)
  unfold homeAmo homeWritten homeNew homeOld
  dsimp only
  generalize amoNew _ _ _ _ _ = v
  cases v with
  | none => rfl
  | some v => simp only [Option.elim_some]

theorem homeWritten_dirOf (s : State) (b addr : Nat) (pair : Bool) (v : Option Nat) :
    dirOf (homeWritten s b addr pair v) b (addr / 64) = dirOf s b (addr / 64) := by
  cases v with
  | none => rfl
  | some v => exact dirOf_l3Write ..

theorem homeAmo_dirOf (s : State) (b who addr : Nat) (fn : Fin 5) (pair : Bool) (cmp operand : BitVec 48) :
    dirOf (homeAmo s b who addr fn pair cmp operand) b (addr / 64) = {} := by
  have h := homeWritten_dirOf (recallAll s b (addr / 64)) b addr pair (homeNew (recallAll s b (addr / 64)) b addr fn pair cmp operand)
  rw [recallAll_dirOf] at h
  simpa only [homeAmo, dirOf, cohOf_setCoh_same] using h

/-- An atomic on a line that the L3 holds returns what the line's owner held, and its new value stands in the L3. -/
theorem homeAmo_held {b who : Nat} {d : BitVec 512} {q : Bool} (h : L3Holds s b (addr / 64) d q) :
    mget (cohOf (homeAmo s b who addr fn pair cmp operand) b).amoOld who = some (homeOld s b addr pair) ∧
      ∀ v, homeNew s b addr fn pair cmp operand = some v → (cohLine (homeAmo s b who addr fn pair cmp operand) b (addr / 64)).1 =
        lineSetBytes (cohLine s b (addr / 64)).1 (addr % 64) (toLe (if pair then 6 else 3) v) := by
  have hrecalled := recallAll_holds h
  have hdir := recallAll_dirOf s b (addr / 64)
  have hline : cohLine (recallAll s b (addr / 64)) b (addr / 64) = cohLine s b (addr / 64) :=
    cohLine_unowned hrecalled (.inl (by rw [hdir]))
  have hold : homeOld (recallAll s b (addr / 64)) b addr pair = homeOld s b addr pair := by rw [homeOld, hline, homeOld]
  have hnew : homeNew (recallAll s b (addr / 64)) b addr fn pair cmp operand = homeNew s b addr fn pair cmp operand := by
    rw [homeNew, hold, homeNew]
  refine ⟨?_, fun v hv => ?_⟩
  · simp only [homeAmo, cohOf_setCoh_same, mget_mset_same, hold]
  · have hwritten := l3Write_holds hrecalled (lineSetBytes (cohLine s b (addr / 64)).1 (addr % 64) (toLe (if pair then 6 else 3) v))
      (cohLine s b (addr / 64)).2
    refine congrArg Prod.fst (cohLine_unowned (hwritten.congr ?_) (.inl ?_))
    · simp only [homeAmo, hnew, hv, cohOf_setCoh_same, homeWritten, Option.elim_some, hline]
    · rw [homeAmo_dirOf]

end Amo
end Sys2Proof.Machine

namespace Sys2Proof.Proofs
open Sys2Proof.Machine

/-- Settles O47: each request is sent and arrives at the home in one step (log entry 47), where the state of the line's directory entry
decides; a line fetched into the L3 on the way leaves that entry alone (`l3Fetch_homeView`). -/
theorem coherenceRequests : Obligations.CoherenceRequests := by
  unfold Obligations.CoherenceRequests
  intro s basin agent line addr tag off data who fn pair cmp operand b a g p d others sent asked inL3 puts
  have held_of_inL3 : inL3 → ∃ x q, L3Holds s b line x q := fun ⟨i, hi⟩ => ⟨_, _, i, hi, rfl, rfl⟩
  refine ⟨fun hmay hheld => ⟨fun hbusy => ⟨?_, ?_⟩, fun hfree hdir => ⟨?_, ?_⟩, fun hfree hdir => ⟨gets_ds hmay hheld hfree hdir, fun hothers => ?_⟩,
      fun hfree hdir howner => ⟨?_, ?_⟩⟩,
    fun hmay hway hfree hdir hmem => ⟨upgr_alone hmay hway hfree hdir hmem, fun hothers => ?_⟩,
    fun hruns hfwd hstable => ⟨?_, ?_, ?_, fun hen hway hnone hlists => ?_⟩,
    fun hruns hfree hfresh => ⟨fun hdir => ?_, fun hdir hlen => ?_, fun hdir hlen => ?_⟩, fun hruns hstable hline hchunk => ?_⟩
  · obtain ⟨u, hexec, hreq, hrest⟩ := gets_nacked hmay hheld hbusy
    exact ⟨u, hexec, ⟨_, hreq, rfl, rfl, rfl, rfl⟩, hrest⟩
  · obtain ⟨u, hexec, hreq, hrest⟩ := getm_nacked hmay hheld hbusy
    exact ⟨u, hexec, ⟨_, hreq, rfl, rfl, rfl, rfl⟩, hrest⟩
  · obtain ⟨u, hexec, hreq, hrest⟩ := gets_di hmay hheld hfree hdir
    exact ⟨u, hexec, ⟨_, hreq, rfl, rfl, rfl, rfl⟩, hrest⟩
  · obtain ⟨u, hexec, hreq, hrest⟩ := getm_di hmay hheld hfree hdir
    exact ⟨u, hexec, ⟨_, hreq, rfl, rfl, rfl, rfl⟩, hrest⟩
  · obtain ⟨u, hexec, hbusied⟩ := getm_ds hmay hheld hfree hdir hothers
    exact ⟨u, hexec, hbusied.state, hbusied.oweInv, hbusied.invalidated⟩
  · obtain ⟨u, hexec, hbusied⟩ := gets_owned hmay hheld hfree hdir
    exact ⟨u, hexec, hbusied.state, hbusied.oweFwd, hbusied.forwarded _ rfl⟩
  · obtain ⟨_, u, hexec, hbusied⟩ := getm_owned hmay hheld hfree hdir howner
    exact ⟨u, hexec, hbusied.state, hbusied.oweFwd, hbusied.forwarded _ rfl⟩
  · obtain ⟨u, hexec, hbusied⟩ := upgr_shared hmay hway hfree hdir hothers
    exact ⟨u, hexec, hbusied.state, hbusied.oweInv, hbusied.invalidated⟩
  · exact fun hway hen hempty hlists => ⟨_, rfl, l2Put_answered (.inl rfl) hruns hfwd hstable hway hen hempty hlists⟩
  · exact fun hway hen hempty hlists => ⟨_, rfl, l2Put_answered (.inr (.inl rfl)) hruns hfwd hstable hway hen hempty hlists⟩
  · exact fun hway hen hempty hlists => ⟨_, rfl, l2Put_answered (.inr (.inr rfl)) hruns hfwd hstable hway hen hempty hlists⟩
  · obtain ⟨u, hu, hexec⟩ := puts_leaves hruns hfwd hstable hen hway hnone hlists
    refine ⟨_, hexec, dirOf_setDir .., ?_⟩
    show (cohOf (setDir u basin.val line _) basin.val).msgs = _
    rw [cohOf_setDir, hu]
  · obtain ⟨u, hexec, hgone, x, hdone, hread⟩ := iord_unowned hruns hfree hfresh hdir
    refine ⟨u, hexec, hgone, x, hdone, fun hin => ?_⟩
    obtain ⟨y, q, hheld⟩ := held_of_inL3 hin
    rw [cohLine_unowned hheld hdir]
    exact hread y q hheld
  · obtain ⟨u, hexec, hgone, hsame, hdone, hwrite⟩ := iowr_di hruns hfree hfresh hlen hdir
    refine ⟨u, hexec, hgone, hsame, hdone, fun hin => ?_⟩
    obtain ⟨y, q, hheld⟩ := held_of_inL3 hin
    obtain ⟨q', hwritten⟩ := hwrite y q hheld
    rw [cohLine_unowned hheld (.inl hdir), cohLine_unowned hwritten (.inl (hsame.symm ▸ hdir))]
  · obtain ⟨u, hexec, hbusied⟩ := iowr_ds hruns hfree hfresh hlen hdir
    exact ⟨u, hexec, hbusied.state, hbusied.oweInv, hbusied.invalidated⟩
  · subst hline
    refine ⟨_, amo_performs hruns hstable hchunk, homeAmo_dirOf .., fun hin => ?_⟩
    obtain ⟨y, q, hheld⟩ := held_of_inL3 hin
    exact homeAmo_held hheld

end Sys2Proof.Proofs
end

section
/-! PROOFS. The messages of a basin (R212, R215, R217, R220): which message arrives, what it makes of the request, the line or the directory
entry that it concerns, and what is sent on. -/

namespace Sys2Proof.Machine

/-! Which message arrives: the first of those sent that meets the receiver's test. -/

/-- The messages of a basin are these. -/
def withMsgs (s : State) (b : Nat) (l : List CohMsg) : State := setCoh s b { cohOf s b with msgs := l }

section Taking
variable {s : State} {b : Nat} {p : CohMsg → Bool} {m : CohMsg} {before rest : List CohMsg}

@[simp] theorem cohOf_withMsgs (s : State) (b : Nat) (l : List CohMsg) : cohOf (withMsgs s b l) b = { cohOf s b with msgs := l } :=
  cohOf_setCoh_same ..
@[simp] theorem dirOf_withMsgs (s : State) (b line : Nat) (l : List CohMsg) : dirOf (withMsgs s b l) b line = dirOf s b line := by
  simp only [dirOf, cohOf_withMsgs]
@[simp] theorem reqOf_withMsgs (s : State) (b a line tag : Nat) (l : List CohMsg) : reqOf (withMsgs s b l) b a line tag = reqOf s b a line tag := by
  simp only [reqOf, cohOf_withMsgs]
@[simp] theorem withMsgs_pcache (s : State) (b : Nat) (l : List CohMsg) : (withMsgs s b l).pcache = s.pcache := rfl

@[simp] theorem pcOf_withMsgs (s : State) (b p : Nat) (l : List CohMsg) : pcOf (withMsgs s b l) p = pcOf s p := rfl

theorem removeFirst_append (hm : p m = true) (hbefore : ∀ y ∈ before, p y = false) : removeFirst p (before ++ m :: rest) = before ++ rest := by
  induction before with
  | nil => simp only [List.nil_append, removeFirst, hm, if_true]
  | cons y before ih =>
    have hy : p y = false := hbefore y List.mem_cons_self
    simp only [List.cons_append, removeFirst, hy, Bool.false_eq_true, if_false, ih fun z hz => hbefore z (List.mem_cons_of_mem _ hz)]

theorem takeMsg_first (hcame : (cohOf s b).msgs = before ++ m :: rest) (hm : p m = true) (hbefore : ∀ y ∈ before, p y = false) :
    takeMsg s b p = some (m, withMsgs s b (before ++ rest)) := by
  have hfind : (cohOf s b).msgs.find? p = some m :=
    List.find?_eq_some_iff_append.mpr ⟨hm, before, rest, hcame, fun y hy => by rw [hbefore y hy]; rfl⟩
  have hrest : removeFirst p (cohOf s b).msgs = before ++ rest := by rw [hcame, removeFirst_append hm hbefore]
  simp only [takeMsg, hfind, hrest, withMsgs]

theorem takeMsg_none (h : ∀ y ∈ (cohOf s b).msgs, p y = false) : takeMsg s b p = none := by
  have hfind : (cohOf s b).msgs.find? p = none := List.find?_eq_none.mpr fun y hy => by rw [h y hy]; decide
  simp only [takeMsg, hfind]

theorem not_to_line {a a' line line' : Nat} (h : a' = a → line' = line → False) : (a' == a && line' == line) = false := by
  simpa using h

theorem not_to_tag {a a' line line' tag tag' : Nat} (h : a' = a → line' = line → tag' = tag → False) :
    (a' == a && line' == line && tag' == tag) = false := by
  simpa using h

end Taking

/-- The line that an enabled L2 finds in its ways. -/
theorem l2Held_way {s : State} {p line i : Nat} (hen : (pcOf s p).l2En = true) (hfind : cFind (pcOf s p).l2 l2Sets l2Ways line = some i) :
    l2Held s p line = some (tget {} (pcOf s p).l2 i) := by
  simp only [l2Held, hen, hfind, if_true]

section Arriving
variable {s : State} {basin : BasinId} {agent : Fin 4} {line rq t : Nat} {tag : BitVec 6} {before rest : List CohMsg} {st : LState}
  {x : BitVec 512} {back : Option (BitVec 512)} {q : Bool} {k : ReqKind} (hruns : cohRuns s basin = true)
include hruns

theorem data_taken (hcame : (cohOf s basin.val).msgs = before ++ .data agent.val line tag.toNat st x q :: rest)
    (hfirst : ∀ st x q, CohMsg.data agent.val line tag.toNat st x q ∉ before) : exec (.data basin agent line tag) s =
      .next (l2Finish (modReq (withMsgs s basin.val (before ++ rest)) basin.val agent.val line tag.toNat
        (fun r => { r with got := some (st, x, q) })) basin.val agent.val line tag.toNat) := by
  show execData .. = _
  simp only [execData, hruns, Bool.not_true, Bool.false_eq_true, if_false]
  rw [takeMsg_first hcame]
  · simp
  · intro y hy
    cases y with
    | data => exact not_to_tag (by rintro rfl rfl rfl; exact hfirst _ _ _ hy)
    | _ => rfl

theorem data_stray (hnone : ∀ st x q, CohMsg.data agent.val line tag.toNat st x q ∉ (cohOf s basin.val).msgs)
    (hreq : reqOf s basin.val agent.val line tag.toNat = none) :
    exec (.data basin agent line tag) s = .next (checkstop s basin.val 5 (islPier (basin.val * 4 + agent.val))) := by
  show execData .. = _
  simp only [execData, hruns, Bool.not_true, Bool.false_eq_true, if_false]
  rw [takeMsg_none]
  · simp only [hreq]
    rfl
  · intro y hy
    cases y with
    | data => exact not_to_tag (by rintro rfl rfl rfl; exact hnone _ _ _ hy)
    | _ => rfl

theorem fwddata_taken (hcame : (cohOf s basin.val).msgs = before ++ .fwdData agent.val line tag.toNat st x q :: rest)
    (hfirst : ∀ st x q, CohMsg.fwdData agent.val line tag.toNat st x q ∉ before) : exec (.fwddata basin agent line tag) s =
      .next (l2Finish (modReq (withMsgs s basin.val (before ++ rest)) basin.val agent.val line tag.toNat
        (fun r => { r with got := some (st, x, q) })) basin.val agent.val line tag.toNat) := by
  show execFwddata .. = _
  simp only [execFwddata, hruns, Bool.not_true, Bool.false_eq_true, if_false]
  rw [takeMsg_first hcame]
  · simp
  · intro y hy
    cases y with
    | fwdData => exact not_to_tag (by rintro rfl rfl rfl; exact hfirst _ _ _ hy)
    | _ => rfl

theorem grant_taken (hcame : (cohOf s basin.val).msgs = before ++ .grant agent.val line tag.toNat :: rest)
    (hfirst : CohMsg.grant agent.val line tag.toNat ∉ before) : exec (.grant basin agent line tag) s =
      .next (l2Finish (modReq (withMsgs s basin.val (before ++ rest)) basin.val agent.val line tag.toNat
        (fun r => { r with granted := true })) basin.val agent.val line tag.toNat) := by
  show execGrant .. = _
  simp only [execGrant, hruns, Bool.not_true, Bool.false_eq_true, if_false]
  rw [takeMsg_first hcame]
  · simp
  · intro y hy
    cases y with
    | grant => exact not_to_tag (by rintro rfl rfl rfl; exact hfirst hy)
    | _ => rfl

theorem inv_taken (hcame : (cohOf s basin.val).msgs = before ++ .inv agent.val line :: rest) (hfirst : CohMsg.inv agent.val line ∉ before) :
    exec (.inv basin agent line) s = .next (
      let u := l2SetState (withMsgs s basin.val (before ++ rest)) (agentPier basin agent.val) line .i
      sendMsg (setCoh u basin.val { cohOf u basin.val with
        reqs := mapIf (fun r => r.agent == agent.val && r.line == line && decide (r.kind = .gets)) (fun r => { r with doomed := true })
          (cohOf u basin.val).reqs }) basin.val (.invAck agent.val line)) := by
  show execInv .. = _
  simp only [execInv, hruns, Bool.not_true, Bool.false_eq_true, if_false]
  rw [takeMsg_first hcame]
  · simp
  · intro y hy
    cases y with
    | inv => exact not_to_line (by rintro rfl rfl; exact hfirst hy)
    | _ => rfl

theorem nack_taken (hcame : (cohOf s basin.val).msgs = before ++ .nack agent.val line tag.toNat k :: rest)
    (hfirst : ∀ k, CohMsg.nack agent.val line tag.toNat k ∉ before) : exec (.nack basin agent line tag) s =
      .next (modReq (withMsgs s basin.val (before ++ rest)) basin.val agent.val line tag.toNat
        (fun r => { r with nacks := r.nacks + 1, retryAt := some (nowNs s + 11) })) := by
  show execNack .. = _
  simp only [execNack, hruns, Bool.not_true, Bool.false_eq_true, if_false]
  rw [takeMsg_first hcame]
  · rfl
  · simp
  · intro y hy
    cases y with
    | nack => exact not_to_tag (by rintro rfl rfl rfl; exact hfirst _ hy)
    | _ => rfl

theorem wback_taken (hcame : (cohOf s basin.val).msgs = before ++ .wback agent.val line tag.toNat :: rest)
    (hfirst : CohMsg.wback agent.val line tag.toNat ∉ before) : exec (.wback basin agent line tag) s =
      .next (putAnswered (withMsgs s basin.val (before ++ rest)) basin agent.val line tag.toNat) := by
  show execWback .. = _
  simp only [execWback, hruns, Bool.not_true, Bool.false_eq_true, if_false]
  rw [takeMsg_first hcame]
  · simp
  · intro y hy
    cases y with
    | wback => exact not_to_tag (by rintro rfl rfl rfl; exact hfirst hy)
    | _ => rfl

theorem wbstale_taken (hcame : (cohOf s basin.val).msgs = before ++ .wbstale agent.val line tag.toNat :: rest)
    (hfirst : CohMsg.wbstale agent.val line tag.toNat ∉ before) : exec (.wbstale basin agent line tag) s =
      .next (putAnswered (withMsgs s basin.val (before ++ rest)) basin agent.val line tag.toNat) := by
  show execWbstale .. = _
  simp only [execWbstale, hruns, Bool.not_true, Bool.false_eq_true, if_false]
  rw [takeMsg_first hcame]
  · simp
  · intro y hy
    cases y with
    | wbstale => exact not_to_tag (by rintro rfl rfl rfl; exact hfirst hy)
    | _ => rfl

theorem fwdack_taken (hcame : (cohOf s basin.val).msgs = before ++ .fwdAck agent.val line st back q :: rest)
    (hfirst : ∀ st back q, CohMsg.fwdAck agent.val line st back q ∉ before) : ∃ u, dirOf u basin.val line = dirOf s basin.val line ∧
      exec (.fwdack basin agent line) s = .next (homeFinish (setDir u basin.val line { dirOf s basin.val line with
        oweFwd := (dirOf s basin.val line).oweFwd.filter (· != agent.val), ownerSt := some st }) basin.val line (some st) agent.val) := by
  have hexec : exec (.fwdack basin agent line) s = .next (
      let u := back.elim (withMsgs s basin.val (before ++ rest)) (fun d => l3Write (withMsgs s basin.val (before ++ rest)) basin.val line d q)
      homeFinish (setDir u basin.val line { dirOf u basin.val line with
        oweFwd := (dirOf u basin.val line).oweFwd.filter (· != agent.val), ownerSt := some st }) basin.val line (some st) agent.val) := by
    show execFwdack .. = _
    simp only [execFwdack, hruns, Bool.not_true, Bool.false_eq_true, if_false]
    rw [takeMsg_first hcame]
    · cases back with
      | none => rfl
      | some d => rfl
    · simp
    · intro y hy
      cases y with
      | fwdAck => exact not_to_line (by rintro rfl rfl; exact hfirst _ _ _ hy)
      | _ => rfl
  have hdir : dirOf (back.elim (withMsgs s basin.val (before ++ rest)) (fun d => l3Write (withMsgs s basin.val (before ++ rest)) basin.val line d q))
      basin.val line = dirOf s basin.val line := by
    cases back with
    | none => exact dirOf_withMsgs ..
    | some d => exact (dirOf_l3Write ..).trans (dirOf_withMsgs ..)
  refine ⟨_, hdir, hexec.trans ?_⟩
  dsimp only
  rw [hdir]

theorem invack_taken (hcame : (cohOf s basin.val).msgs = before ++ .invAck agent.val line :: rest)
    (hfirst : CohMsg.invAck agent.val line ∉ before) : exec (.invack basin agent line) s =
      .next (homeFinish (setDir (withMsgs s basin.val (before ++ rest)) basin.val line { dirOf s basin.val line with
        oweInv := (dirOf s basin.val line).oweInv.filter (· != agent.val) }) basin.val line
        (dirOf s basin.val line).ownerSt (dirOf s basin.val line).owner) := by
  show execInvack .. = _
  simp only [execInvack, hruns, Bool.not_true, Bool.false_eq_true, if_false]
  rw [takeMsg_first hcame]
  · simp only [dirOf_withMsgs]
  · simp
  · intro y hy
    cases y with
    | invAck => exact not_to_line (by rintro rfl rfl; exact hfirst hy)
    | _ => rfl

/-- What an owner that holds a line in its ways answers a forward with: its copy, and the state in which it keeps the line. -/
def supplied (s : State) (b a p line rq tag : Nat) (l : Line) (st given : LState) : State :=
  sendMsg (sendMsg (l2SetState s p line st) b (.fwdData rq line tag given l.data l.poisoned)) b (.fwdAck a line st none false)

section Owner
variable {i : Nat} (hen : (pcOf s (agentPier basin agent.val)).l2En = true)
  (hfind : cFind (pcOf s (agentPier basin agent.val)).l2 l2Sets l2Ways line = some i) (hrq : rq ≠ 4)
include hen hfind hrq

theorem fwdgets_taken (hcame : (cohOf s basin.val).msgs = before ++ .fwdGetS agent.val line rq t :: rest)
    (hfirst : ∀ rq t, CohMsg.fwdGetS agent.val line rq t ∉ before) :
    let l := tget {} (pcOf s (agentPier basin agent.val)).l2 i
    exec (.fwdgets basin agent line) s = .next (supplied (withMsgs s basin.val (before ++ rest)) basin.val agent.val (agentPier basin agent.val)
      line rq t l (if l.state = .m ∨ l.state = .o then .o else .s) .s) := by
  have hheld : fwdFrom (withMsgs s basin.val (before ++ rest)) (agentPier basin agent.val) line =
      some (tget {} (pcOf s (agentPier basin agent.val)).l2 i) := by
    rw [fwdFrom, l2Held_congr (withMsgs_pcache ..), l2Held_way hen hfind]
  show execFwdgets .. = _
  simp only [execFwdgets, hruns, Bool.not_true, Bool.false_eq_true, if_false]
  rw [takeMsg_first hcame]
  · simp only [hheld, pcOf_withMsgs, hen, hfind, hrq, supplied, Option.isSome_some, Bool.and_self, Bool.not_true, Bool.false_and, Bool.false_eq_true, if_false,
      Bool.or_eq_true, decide_eq_true_eq]
  · simp
  · intro y hy
    cases y with
    | fwdGetS => exact not_to_line (by rintro rfl rfl; exact hfirst _ _ hy)
    | _ => rfl

theorem fwdgetm_taken (hcame : (cohOf s basin.val).msgs = before ++ .fwdGetM agent.val line rq t :: rest)
    (hfirst : ∀ rq t, CohMsg.fwdGetM agent.val line rq t ∉ before) :
    exec (.fwdgetm basin agent line) s = .next (supplied (withMsgs s basin.val (before ++ rest)) basin.val agent.val (agentPier basin agent.val)
      line rq t (tget {} (pcOf s (agentPier basin agent.val)).l2 i) .i .m) := by
  have hheld : fwdFrom (withMsgs s basin.val (before ++ rest)) (agentPier basin agent.val) line =
      some (tget {} (pcOf s (agentPier basin agent.val)).l2 i) := by
    rw [fwdFrom, l2Held_congr (withMsgs_pcache ..), l2Held_way hen hfind]
  show execFwdgetm .. = _
  simp only [execFwdgetm, hruns, Bool.not_true, Bool.false_eq_true, if_false]
  rw [takeMsg_first hcame]
  · simp only [hheld, hrq, supplied, if_false]
  · simp
  · intro y hy
    cases y with
    | fwdGetM => exact not_to_line (by rintro rfl rfl; exact hfirst _ _ hy)
    | _ => rfl

end Owner
end Arriving
/-! What an arrived message does to a request and to a line in an L2. -/

section Effects
variable {s : State} {b a p line tag i : Nat} {r : CohReq}

theorem reqOf_some (h : reqOf s b a line tag = some r) : r.agent = a ∧ r.line = line ∧ r.tag = tag := by
  have hkey := List.find?_some h
  simp only [Bool.and_eq_true, beq_iff_eq] at hkey
  exact ⟨hkey.1.1, hkey.1.2, hkey.2⟩

/-- A change of a request that keeps its agent, line and tag is read back. -/
theorem reqOf_modReq {f : CohReq → CohReq} (hf : ∀ r, (f r).agent = r.agent ∧ (f r).line = r.line ∧ (f r).tag = r.tag)
    (h : reqOf s b a line tag = some r) : reqOf (modReq s b a line tag f) b a line tag = some (f r) := by
  unfold reqOf at h
  have hkey := List.find?_some h
  have hsame : (fun r : CohReq => r.agent == a && r.line == line && r.tag == tag) ∘
      (fun r => if (r.agent == a && r.line == line && r.tag == tag) = true then f r else r) =
        fun r => r.agent == a && r.line == line && r.tag == tag := by
    funext x
    obtain ⟨hagent, hline, htag⟩ := hf x
    simp only [Function.comp]
    split
    · rw [hagent, hline, htag]
    · rfl
  rw [reqOf, cohOf_modReq, mapIf, List.find?_map, hsame, h, Option.map_some, if_pos hkey]

theorem l2Install_coh (s : State) (p line : Nat) (st : LState) (d : BitVec 512) (q : Bool) (age : Nat) :
    (l2Install s p line st d q age).coh = s.coh := by
  unfold l2Install
  extract_lets pc
  split
  · rfl
  · generalize cVictim _ _ _ _ _ _ = v
    obtain ⟨l2, w⟩ := v
    cases w with
    | none => rfl
    | some i => exact prop_ite (P := fun u : State => u.coh = s.coh) rfl rfl

/-- Where a line is installed depends on the caches of the piers alone. -/
theorem l2Install_setCoh (s : State) (b : Nat) (c : Coh) (p line : Nat) (st : LState) (d : BitVec 512) (q : Bool) (age : Nat) :
    l2Install (setCoh s b c) p line st d q age = setCoh (l2Install s p line st d q age) b c := by
  unfold l2Install
  have hpc : pcOf (setCoh s b c) p = pcOf s p := rfl
  simp -zeta only [hpc]
  extract_lets pc
  split
  · rfl
  · generalize cVictim _ _ _ _ _ _ = v
    obtain ⟨l2, w⟩ := v
    cases w with
    | none => rfl
    | some i => 
      simp only []
      split
      · rfl
      · rfl

/-- An invalidation dooms the fills of its line that its agent awaits (R218). -/
theorem doomed_of_inv {l : List CohReq} (hagent : r.agent = a) (hline : r.line = line) (hkind : r.kind = .gets)
    (hr : r ∈ mapIf (fun r => r.agent == a && r.line == line && decide (r.kind = .gets)) (fun r => { r with doomed := true }) l) : r.doomed = true := by
  obtain ⟨y, -, rfl⟩ := List.mem_map.mp hr
  by_cases h : (y.agent == a && y.line == line && decide (y.kind = .gets)) = true
  · rw [if_pos h]
  · rw [if_neg h] at hagent hline hkind
    exact absurd (by simp [hagent, hline, hkind]) h

theorem cohOf_of_coh {u v : State} (h : u.coh = v.coh) (b : Nat) : cohOf u b = cohOf v b := congrArg (tget ({} : Coh) · b) h

/-- Data completes a request that waits for no Grant, or has its Grant: the line is installed (R212). -/
theorem l2Finish_filled {st : LState} {x : BitVec 512} {q : Bool} (hreq : reqOf s b a line tag = some r)
    (hen : (pcOf s (b * 4 + a)).l2En = true) (hdoomed : r.doomed = false) (hgrant : r.needGrant = false ∨ r.granted = true) :
    let u := l2Finish (modReq s b a line tag (fun r => { r with got := some (st, x, q) })) b a line tag
    reqOf u b a line tag = none ∧ (cohOf u b).msgs = (cohOf s b).msgs ∧
      u.pcache = (l2Install s (b * 4 + a) line (if r.kind = .gets then st else .m) x q 1).pcache := by
  have hgoes : (r.needGrant && !r.granted) = false := by
    rcases hgrant with h | h
    · rw [h, Bool.false_and]
    · rw [h, Bool.not_true, Bool.and_false]
  have hdone : l2Finish (modReq s b a line tag (fun r => { r with got := some (st, x, q) })) b a line tag =
      l2Install (dropReq (modReq s b a line tag (fun r => { r with got := some (st, x, q) })) b a line tag) (b * 4 + a) line
        (if r.kind = .gets then st else .m) x q 1 := by
    unfold l2Finish
    simp only [reqOf_modReq (f := fun r => { r with got := some (st, x, q) }) (fun _ => ⟨rfl, rfl, rfl⟩) hreq, hgoes, hdoomed, Bool.false_eq_true,
      if_false, false_or]
    have hon : ¬ (!(pcOf s (b * 4 + a)).l2En) = true := by simp [hen]
    exact if_neg hon
  intro u
  simp only [u, hdone]
  refine ⟨?_, ?_, ?_⟩
  · rw [reqOf, cohOf_of_coh (l2Install_coh ..)]
    exact reqOf_dropReq ..
  · rw [cohOf_of_coh (l2Install_coh ..), cohOf_dropReq, cohOf_modReq]
  · rw [dropReq, l2Install_setCoh, modReq, l2Install_setCoh]
    rfl

theorem l2SetState_way (hen : (pcOf s p).l2En = true) (hfind : cFind (pcOf s p).l2 l2Sets l2Ways line = some i) (st : LState) :
    tget {} (pcOf (l2SetState s p line st) p).l2 i = { tget {} (pcOf s p).l2 i with state := st } := by
  have hbuf : (bufStale (pcOf s p) line).l2En = true := hen
  have hfind' : cFind (bufStale (pcOf s p) line).l2 l2Sets l2Ways line = some i := hfind
  simp only [l2SetState, hbuf, hfind', Bool.not_true, Bool.false_eq_true, if_false, pcOf_setPc_same]
  have hl2 (c : PierCache) : (l1Drop c line).l2 = c.l2 ∧ (l1Share c line).l2 = c.l2 := ⟨rfl, rfl⟩
  split
  · exact tget_tset_same ..
  · split
    · exact tget_tset_same ..
    · exact tget_tset_same ..

/-- A Grant completes an Upgr whose line is still held: it becomes M (R212). -/
theorem l2Finish_granted (hreq : reqOf s b a line tag = some r) (hkind : r.kind = .upgr) (hgot : r.got = none)
    (hen : (pcOf s (b * 4 + a)).l2En = true) (hfind : cFind (pcOf s (b * 4 + a)).l2 l2Sets l2Ways line = some i) :
    let u := l2Finish (modReq s b a line tag (fun r => { r with granted := true })) b a line tag
    reqOf u b a line tag = none ∧ (tget {} (pcOf u (b * 4 + a)).l2 i).state = .m := by
  have hpc : pcOf (modReq s b a line tag (fun r => { r with granted := true })) (b * 4 + a) = pcOf s (b * 4 + a) := rfl
  have hdone : l2Finish (modReq s b a line tag (fun r => { r with granted := true })) b a line tag =
      l2SetState (dropReq (modReq s b a line tag (fun r => { r with granted := true })) b a line tag) (b * 4 + a) line .m := by
    unfold l2Finish
    simp only [reqOf_modReq (f := fun r => { r with granted := true }) (fun _ => ⟨rfl, rfl, rfl⟩) hreq, hgot, hkind, hpc, hfind, decide_true,
      Option.isSome_some, Bool.and_self, if_true]
  intro u
  simp only [u, hdone]
  refine ⟨?_, ?_⟩
  · rw [reqOf, cohOf_l2SetState]
    exact reqOf_dropReq ..
  · exact congrArg Line.state (l2SetState_way (s := dropReq (modReq s b a line tag (fun r => { r with granted := true })) b a line tag) hen hfind .m)

/-- What an owner that answers a forward sends, and the state in which it keeps the line. -/
theorem supplied_done (hen : (pcOf s p).l2En = true) (hfind : cFind (pcOf s p).l2 l2Sets l2Ways line = some i) (rq : Nat) (l : Line) (st given : LState) :
    (tget {} (pcOf (supplied s b a p line rq tag l st given) p).l2 i).state = st ∧
      .fwdAck a line st none false ∈ (cohOf (supplied s b a p line rq tag l st given) b).msgs ∧
      .fwdData rq line tag given l.data l.poisoned ∈ (cohOf (supplied s b a p line rq tag l st given) b).msgs := by
  refine ⟨congrArg Line.state (l2SetState_way hen hfind st), ?_, ?_⟩
  · rw [supplied, cohOf_sendMsg]
    exact List.mem_append_right _ List.mem_cons_self
  · rw [supplied, cohOf_sendMsg, cohOf_sendMsg]
    exact List.mem_append_left _ (List.mem_append_right _ List.mem_cons_self)

end Effects

/-! The end of a line's busy state (R212, R217). -/

section Settling
variable {s : State} {b line owner : Nat} {r : CohReq} {st : Option LState} (hfwd : (dirOf s b line).oweFwd = [])
  (hinv : (dirOf s b line).oweInv = []) (hreq : (dirOf s b line).req = some r)
include hfwd hinv hreq

/-- A directory entry once its line is settled, with the Puts held meanwhile answered. -/
def settled (s : State) (b line : Nat) (next : Dir) : State :=
  (dirOf s b line).heldPuts.foldl (fun u e => sendMsg u b (.wbstale e.1 line e.2)) (setDir s b line next)

omit hfwd hinv hreq in
theorem settled_dirOf (s : State) (b line : Nat) (next : Dir) : dirOf (settled s b line next) b line = next := by
  rw [settled, dirOf, cohOf_foldl_sendMsg _ b fun e : Nat × Nat => CohMsg.wbstale e.1 line e.2]
  exact dirOf_setDir ..

theorem homeFinish_gets_shared (hkind : r.kind = .gets) : dirOf (homeFinish s b line (some .s) owner) b line =
    { reserve := (dirOf s b line).reserve, owner := (dirOf s b line).owner, state := .ds, sharers := [owner, r.agent] } := by
  refine Eq.trans (congrArg (dirOf · b line) ?_) (settled_dirOf s b line _)
  simp only [homeFinish, hfwd, hinv, hreq, hkind, List.isEmpty_nil, Bool.not_true, Bool.false_eq_true, or_self, if_false, settled]

theorem homeFinish_gets_owned (hkind : r.kind = .gets) : dirOf (homeFinish s b line (some .o) owner) b line =
    { reserve := (dirOf s b line).reserve, owner := owner, state := .dO, sharers := r.agent :: (dirOf s b line).sharers.filter (· != r.agent) } := by
  refine Eq.trans (congrArg (dirOf · b line) ?_) (settled_dirOf s b line _)
  simp only [homeFinish, hfwd, hinv, hreq, hkind, List.isEmpty_nil, Bool.not_true, Bool.false_eq_true, or_self, if_false, settled]

/-- A GetM leaves its agent the owner of the line; data goes with it where the home sends it. -/
theorem homeFinish_getm (hkind : r.kind = .getm) :
    dirOf (homeFinish s b line st owner) b line = { reserve := (dirOf s b line).reserve, owner := r.agent, state := .de } ∧
      ((dirOf s b line).withData = true → ∃ x q, .data r.agent line r.tag .m x q ∈ (cohOf (homeFinish s b line st owner) b).msgs) := by
  have hdone : homeFinish s b line st owner =
      let c := l3Copy (settled s b line { reserve := (dirOf s b line).reserve, owner := r.agent, state := .de }) b line
      let u := if (dirOf s b line).withData then sendMsg c.1 b (.data r.agent line r.tag .m c.2.data c.2.poisoned) else c.1
      if ((reqOf u b r.agent line r.tag).map (·.needGrant)).getD false then sendMsg u b (.grant r.agent line r.tag) else u := by
    simp only [homeFinish, hfwd, hinv, hreq, hkind, List.isEmpty_nil, Bool.not_true, Bool.false_eq_true, or_self, if_false, settled]
    rfl
  rw [hdone]
  extract_lets c u
  have hc : dirOf c.1 b line = _ := (dirOf_l3Copy ..).trans (settled_dirOf ..)
  have hu : dirOf u b line = dirOf c.1 b line := prop_ite (P := fun v => dirOf v b line = _) (dirOf_sendMsg ..) rfl
  refine ⟨(prop_ite (P := fun v => dirOf v b line = dirOf u b line) (dirOf_sendMsg ..) rfl).trans (hu.trans hc), fun hdata => ⟨c.2.data, c.2.poisoned, ?_⟩⟩
  have hsent : .data r.agent line r.tag .m c.2.data c.2.poisoned ∈ (cohOf u b).msgs := by
    simp only [u, hdata, if_true, cohOf_sendMsg]
    exact List.mem_append_right _ List.mem_cons_self
  refine prop_ite (P := fun v : State => _ ∈ (cohOf v b).msgs) ?_ hsent
  rw [cohOf_sendMsg]
  exact List.mem_append_left _ hsent

end Settling

section Acknowledged
variable {s : State} {basin : BasinId} {agent : Fin 4} {line : Nat} {before rest : List CohMsg} {st : LState} {back : Option (BitVec 512)} {q : Bool}
  (hruns : cohRuns s basin = true)
include hruns

/-- The only FwdAck that is owed has arrived. -/
theorem fwdack_last (hcame : (cohOf s basin.val).msgs = before ++ .fwdAck agent.val line st back q :: rest)
    (hfirst : ∀ st back q, CohMsg.fwdAck agent.val line st back q ∉ before) (howed : (dirOf s basin.val line).oweFwd = [agent.val]) :
    ∃ t, dirOf t basin.val line = { dirOf s basin.val line with oweFwd := [], ownerSt := some st } ∧
      exec (.fwdack basin agent line) s = .next (homeFinish t basin.val line (some st) agent.val) := by
  obtain ⟨u, -, hexec⟩ := fwdack_taken hruns hcame hfirst
  refine ⟨_, ?_, hexec⟩
  rw [dirOf_setDir, howed]
  simp

/-- The only InvAck that is owed has arrived. -/
theorem invack_last (hcame : (cohOf s basin.val).msgs = before ++ .invAck agent.val line :: rest) (hfirst : CohMsg.invAck agent.val line ∉ before)
    (howed : (dirOf s basin.val line).oweInv = [agent.val]) :
    ∃ t st owner, dirOf t basin.val line = { dirOf s basin.val line with oweInv := [] } ∧
      exec (.invack basin agent line) s = .next (homeFinish t basin.val line st owner) := by
  refine ⟨_, _, _, ?_, invack_taken hruns hcame hfirst⟩
  rw [dirOf_setDir, howed]
  simp

end Acknowledged

section Nacks
variable {s : State} {basin : BasinId} {agent : Fin 4} {line t : Nat} {tag : BitVec 6} {r : CohReq} (hruns : cohRuns s basin = true)
  (hreq : reqOf s basin.val agent.val line tag.toNat = some r) (hretry : r.retryAt = some t) (hdue : t ≤ nowNs s)
include hruns hreq hretry hdue

theorem nackRetry_sent : exec (.nackRetry basin agent line tag) s = .next (
    homeArrive (modReq s basin.val agent.val line tag.toNat (fun _ => { r with retryAt := none, sent := nowNs s })) basin.val
      { r with retryAt := none, sent := nowNs s }) := by
  show execNackRetry .. = _
  simp only [execNackRetry, hreq, hretry, hruns, Nat.not_lt.mpr hdue, Bool.not_true, Bool.false_eq_true, or_self, if_false]

/-- The eighth NACK of a request for a line that others have reserved puts its agent behind them (R215). -/
theorem nackRetry_reserves (hbusy : dirStable (dirOf s basin.val line) = false) (hnacks : 7 ≤ r.nacks)
    (hqueue : (dirOf s basin.val line).reserve ≠ []) (hnew : agent.val ∉ (dirOf s basin.val line).reserve) :
    answers (.nackRetry basin agent line tag) s (fun u => (dirOf u basin.val line).reserve = (dirOf s basin.val line).reserve ++ [agent.val] ∧
      .nack agent.val line tag.toNat r.kind ∈ (cohOf u basin.val).msgs) := by
  refine ⟨_, nackRetry_sent hruns hreq hretry hdue, ?_⟩
  obtain ⟨hagent, hline, htag⟩ := reqOf_some hreq
  have height : 8 ≤ r.nacks + 1 := by omega
  have hlisted : (dirOf s basin.val line).reserve.contains agent.val = false := by simpa using hnew
  have hL2 : agent.val ≠ 4 := Nat.ne_of_lt agent.isLt
  have hsome : (dirOf s basin.val line).reserve.isEmpty = false := by simpa using hqueue
  simp only [homeArrive, hagent, hline, htag, dirOf_modReq, hbusy, height, hlisted, hsome, hL2, Bool.false_eq_true, false_and, if_false,
    decide_true, Bool.not_false, Bool.and_self, Bool.true_or, if_true, dirOf_sendMsg, dirOf_setDir, cohOf_sendMsg, true_and]
  exact List.mem_append_right _ List.mem_cons_self

end Nacks

/-- The eviction buffer keeps no entry that waits for an answer to the answered Put (R217). -/
theorem putAnswered_frees (s : State) (basin : BasinId) (a line tag : Nat) :
    ∀ e ∈ (pcOf (putAnswered s basin a line tag) (agentPier basin a)).evict, e.line = line → e.tag ≠ some tag := by
  intro e he hline htag
  rw [putAnswered, pcOf_setPc_same] at he
  simpa [hline, htag] using (List.mem_filter.mp he).2

end Sys2Proof.Machine

namespace Sys2Proof.Proofs
open Sys2Proof.Machine

/-- Settles O48: the first message that meets a receiver's test is the one that arrives (`takeMsg_first`); what it completes is read off
the request, the line's way or the directory entry that it concerns. -/
theorem coherenceAnswers : Obligations.CoherenceAnswers := by
  unfold Obligations.CoherenceAnswers
  intro s basin agent line i rq t tag before rest st x q r back b a g p d l dirty sent held way came filled hruns
  refine ⟨fun hcame hfirst => ?_, fun hcame hfirst => ?_, data_stray hruns, fun hcame hfirst hreq hkind hgot hheld => ?_,
    fun hcame hfirst hheld hrq => ?_, fun hcame hfirst hheld hrq => ?_, fun hcame hfirst hheld => ?_, fun k hcame hfirst hreq => ?_,
    fun hreq hretry hdue => ⟨nackRetry_sent hruns hreq hretry hdue, fun hbusy hnacks hqueue hnew => ?_⟩, fun hcame hfirst => ?_, fun hcame hfirst => ?_,
    fun hcame hfirst howed hinv hreq => ⟨fun hkind hst => ?_, fun hkind hst => ?_, fun hkind => ?_⟩, fun hcame hfirst hfwd howed hreq hkind => ?_⟩
  · intro hreq hen hdoomed hgrant
    obtain ⟨hgone, hmsgs, hinstalled⟩ := l2Finish_filled (s := withMsgs s b (before ++ rest)) (st := st) (x := x) (q := q)
      ((reqOf_withMsgs ..).trans hreq) hen hdoomed hgrant
    refine ⟨_, data_taken hruns hcame hfirst, hgone, hmsgs.trans (by rw [cohOf_withMsgs]), hinstalled.trans ?_⟩
    rw [withMsgs, l2Install_setCoh]
    rfl
  · intro hreq hen hdoomed hgrant
    obtain ⟨hgone, hmsgs, hinstalled⟩ := l2Finish_filled (s := withMsgs s b (before ++ rest)) (st := st) (x := x) (q := q)
      ((reqOf_withMsgs ..).trans hreq) hen hdoomed hgrant
    refine ⟨_, fwddata_taken hruns hcame hfirst, hgone, hmsgs.trans (by rw [cohOf_withMsgs]), hinstalled.trans ?_⟩
    rw [withMsgs, l2Install_setCoh]
    rfl
  · obtain ⟨hen, hfind⟩ := hheld
    exact ⟨_, grant_taken hruns hcame hfirst, l2Finish_granted (s := withMsgs s b (before ++ rest)) ((reqOf_withMsgs ..).trans hreq) hkind hgot hen hfind⟩
  · obtain ⟨hen, hfind⟩ := hheld
    refine ⟨_, fwdgets_taken hruns hen hfind hrq hcame hfirst, ?_⟩
    obtain ⟨hway, hack, hdata⟩ := supplied_done (s := withMsgs s b (before ++ rest)) (b := b) (a := a) (tag := t) hen hfind rq l
      (if l.state = .m ∨ l.state = .o then .o else .s) .s
    refine ⟨fun hdirty => ?_, fun hclean => ?_, hdata⟩
    · rw [if_pos hdirty] at hway hack ⊢
      exact ⟨hway, hack⟩
    · rw [if_neg hclean] at hway hack ⊢
      exact ⟨hway, hack⟩
  · obtain ⟨hen, hfind⟩ := hheld
    obtain ⟨hway, hack, hdata⟩ := supplied_done (s := withMsgs s b (before ++ rest)) (b := b) (a := a) (tag := t) hen hfind rq l .i .m
    exact ⟨_, fwdgetm_taken hruns hen hfind hrq hcame hfirst, hway, hdata, hack⟩
  · obtain ⟨hen, hfind⟩ := hheld
    refine ⟨_, inv_taken hruns hcame hfirst, ?_, ?_, ?_⟩
    · exact congrArg Line.state (l2SetState_way (s := withMsgs s b (before ++ rest)) hen hfind .i)
    · show _ ∈ (cohOf (sendMsg _ basin.val _) basin.val).msgs
      rw [cohOf_sendMsg]
      exact List.mem_append_right _ List.mem_cons_self
    · show ∀ r ∈ (cohOf (sendMsg _ basin.val _) basin.val).reqs, _
      rw [cohOf_sendMsg, cohOf_setCoh_same]
      exact fun r hr hagent hline hkind => doomed_of_inv hagent hline hkind hr
  · exact ⟨_, nack_taken hruns hcame hfirst, reqOf_modReq (f := fun r => { r with nacks := r.nacks + 1, retryAt := some (nowNs s + 11) })
      (fun _ => ⟨rfl, rfl, rfl⟩) ((reqOf_withMsgs ..).trans hreq)⟩
  · exact nackRetry_reserves hruns hreq hretry hdue hbusy hnacks hqueue hnew
  · exact ⟨_, wback_taken hruns hcame hfirst, putAnswered_frees _ basin a line g⟩
  · exact ⟨_, wbstale_taken hruns hcame hfirst, putAnswered_frees _ basin a line g⟩
  · obtain ⟨u, hu, hexec⟩ := fwdack_last hruns hcame hfirst howed
    subst hst
    exact ⟨_, hexec, (homeFinish_gets_shared (by rw [hu]) (by rw [hu]; exact hinv) (by rw [hu]; exact hreq) hkind).trans (by rw [hu])⟩
  · obtain ⟨u, hu, hexec⟩ := fwdack_last hruns hcame hfirst howed
    subst hst
    exact ⟨_, hexec, (homeFinish_gets_owned (by rw [hu]) (by rw [hu]; exact hinv) (by rw [hu]; exact hreq) hkind).trans (by rw [hu])⟩
  · obtain ⟨u, hu, hexec⟩ := fwdack_last hruns hcame hfirst howed
    obtain ⟨hdir, -⟩ := homeFinish_getm (st := some st) (owner := a) (by rw [hu]) (by rw [hu]; exact hinv) (by rw [hu]; exact hreq) hkind
    exact ⟨_, hexec, hdir.trans (by rw [hu])⟩
  · obtain ⟨u, st', owner, hu, hexec⟩ := invack_last hruns hcame hfirst howed
    obtain ⟨hdir, hdata⟩ := homeFinish_getm (st := st') (owner := owner) (by rw [hu]; exact hfwd) (by rw [hu]) (by rw [hu]; exact hreq) hkind
    exact ⟨_, hexec, hdir.trans (by rw [hu]), fun h => hdata (by rw [hu]; exact h)⟩

end Sys2Proof.Proofs
end

section
/-! PROOFS. Checkstops, recovery and the cache registers (R201 to R204, R220, R346 to R352, R363): what a checkstop leaves of threads,
consignments and the basin, what an adoption, a reset, a retrain and a scrub leave, and the ways of an L2 that is cleaned or locked. -/

namespace Sys2Proof.Machine

/-- What one step of a fold brings about and no step undoes holds at its end. -/
theorem foldl_reaches {α : Type} {P : State → Prop} {f : State → α → State} {l : List α} (hkeeps : ∀ s x, P s → P (f s x)) {s : State}
    (h : P s ∨ ∃ x ∈ l, ∀ s, P (f s x)) : P (l.foldl f s) := by
  induction l generalizing s with
  | nil => exact h.resolve_right (by simp)
  | cons y l ih =>
    refine ih ?_
    rcases h with h | ⟨x, hx, h⟩
    · exact .inl (hkeeps s y h)
    · rcases List.mem_cons.mp hx with rfl | hx
      · exact .inl (h s)
      · exact .inr ⟨x, hx, h⟩

/-! Checkstops (R220, R346). -/

/-- The work that a checkstop stops: the threads, the consignments and the basins. -/
def workOf (s : State) : Table Thread × Table Cons × Table Basin := (s.threads, s.cons, s.basins)

@[simp] theorem setCoh_workOf (s : State) (b : Nat) (c : Coh) : workOf (setCoh s b c) = workOf s := rfl
@[simp] theorem setPc_workOf (s : State) (p : Nat) (c : PierCache) : workOf (setPc s p c) = workOf s := rfl
@[simp] theorem setPier_workOf (s : State) (p : Nat) (v : Pier) : workOf (setPier s p v) = workOf s := rfl
@[simp] theorem arrive_workOf (s : State) (n d : Nat) (p : Bool) : workOf (arrive s n d p) = workOf s :=
  field_of_unreported (arrive_unreported ..) workOf fun _ => rfl
@[simp] theorem logIsland_workOf (s : State) (code cls n : Nat) (d : List Byte) : workOf (logIsland s code cls n d) = workOf s :=
  field_of_unreported (logIsland_unreported ..) workOf fun _ => rfl
@[simp] theorem haltHarbour_workOf (s : State) (code : Nat) : workOf (haltHarbour s code) = workOf s := by
  unfold haltHarbour
  extract_lets u v
  rw [arrive_workOf, arrive_workOf]
  exact logIsland_workOf ..

/-- A thread that has stopped without a trace. -/
def threadGone (t : Thread) : Prop := t.seq = 0 ∧ t.gated = [] ∧ (t.run = .free ∨ t.run = .noPair)

theorem stopThread_same (s : State) (th : ThreadId) : threadGone (thr (stopThread s th) th) := by
  unfold stopThread
  rw [thr_setThr_same]
  refine ⟨rfl, rfl, ?_⟩
  dsimp only
  split
  · exact .inr rfl
  · exact .inl rfl

theorem stopThread_other (s : State) {th x : ThreadId} (h : x ≠ th) : thr (stopThread s th) x = thr s x := by
  unfold stopThread cancelWork
  rw [thr_setThr_other _ _ h, thr_modThr_other _ _ h]
  exact thr_of_threads (threads_foldl _ (fun _ _ => cancelJob_threads ..) _ _) x

theorem stopThread_cons (s : State) (th : ThreadId) : (stopThread s th).cons = s.cons := cancelWork_cons s th
theorem stopThread_basins (s : State) (th : ThreadId) : (stopThread s th).basins = s.basins := cancelWork_basins s th

/-- The threads of a basin stop, one after another. -/
def stopThreads (s : State) (b : Nat) : State :=
  (List.finRange 1024).foldl (fun s th => if th.basin.val = b then stopThread s th else s) s

theorem stopThreads_gone (s : State) {b : Nat} {th : ThreadId} (h : th.basin.val = b) : threadGone (thr (stopThreads s b) th) := by
  refine foldl_reaches (P := fun u => threadGone (thr u th)) (fun u x hu => ?_) (.inr ⟨th, List.mem_finRange th, fun u => ?_⟩)
  · refine prop_ite (P := fun v : State => threadGone (thr v th)) ?_ hu
    by_cases hx : th = x
    · rw [← hx]
      exact stopThread_same u th
    · rwa [stopThread_other u hx]
  · rw [if_pos h]
    exact stopThread_same u th

theorem stopThreads_rest (s : State) (b : Nat) : (stopThreads s b).cons = s.cons ∧ (stopThreads s b).basins = s.basins := by
  refine List.foldlRecOn (motive := fun u : State => u.cons = s.cons ∧ u.basins = s.basins) _ _ ⟨rfl, rfl⟩ fun u hu th _ => ?_
  exact prop_ite (P := fun v : State => v.cons = s.cons ∧ v.basins = s.basins)
    ⟨(stopThread_cons u th).trans hu.1, (stopThread_basins u th).trans hu.2⟩ hu

/-- An accepted consignment that runs in a checkstopped basin is REPLAYING, with its report gone. -/
theorem replayBasin_consOf {s : State} {b q : Nat} {c : Cons} {th : ThreadId} (hc : consOf s q = some c) (hstate : c.state = .accepted)
    (hphase : c.phase = .onThread th) (hbasin : th.basin.val = b) :
    ∃ c', consOf (replayBasin s b) q = some c' ∧ c'.state = .replaying ∧ c'.report = none := by
  unfold replayBasin
  show ∃ c', mget (s.cons.map _) q = some c' ∧ _
  rw [mget_map _ _ fun e => by extract_lets; split <;> rfl, show mget s.cons q = some c from hc, Option.map_some]
  refine ⟨_, rfl, ?_⟩
  extract_lets c0 c1 here
  have h1 : c1.state = .accepted ∧ c1.phase = .onThread th :=
    prop_ite (P := fun d : Cons => d.state = .accepted ∧ d.phase = .onThread th) ⟨hstate, hphase⟩ ⟨hstate, hphase⟩
  have hhere : here = true := by
    simp only [here, h1.2, hbasin, beq_self_eq_true]
  rw [if_pos (by rw [hhere, h1.1]; rfl)]
  exact ⟨rfl, rfl⟩

/-- A basin that forgets its adopter is otherwise as it was. -/
theorem basinOf_map (s : State) (b : Nat) {f : Nat × Basin → Nat × Basin} (hf : ∀ e, (f e).1 = e.1)
    (hkeeps : ∀ e, e.2.checkstopped = true → (f e).2.checkstopped = true) (h : (basinOf s b).checkstopped = true) :
    (basinOf { s with basins := s.basins.map f } b).checkstopped = true := by
  unfold basinOf tget at h ⊢
  rw [mget_map _ _ hf]
  cases hv : mget s.basins b with
  | none =>
    rw [hv] at h
    exact absurd h Bool.false_ne_true
  | some v =>
    rw [hv] at h
    exact hkeeps (b, v) h

/-- The basin of a checkstop, as its entry in the Logbook records it. -/
def basinStopped (s : State) (b trigger island : Nat) : State :=
  let u := logIsland s 0x0301 2 island (toLe 1 b ++ toLe 1 trigger ++ toLe 2 island)
  setBasin u b { basinOf u b with
    checkstopped := true, injected := u.dev.injecting, adopted := false, holds := [], adopter := none, stoppedAt := nowNs u }

/-- The caches, the recovery work and the messages of a checkstopped basin are dropped. -/
def basinDropped (s : State) (b : Nat) : State :=
  let s := (List.range 4).foldl (fun s a => setPc s (b * 4 + a) (emptyPier (pcOf s (b * 4 + a)))) s
  let s := (List.range 4).foldl (fun s a =>
    let p := pierOf s (b * 4 + a)
    setPier s (b * 4 + a) { p with cpq := Vector.replicate 3 [], pos := p.pos.map (fun v => { v with event := none, notPassed := [], selfTest := false, handover := none }) }) s
  setCoh s b {}

/-- Adoptions that a checkstopped basin was making wait for the next adopter, and the checkstop is reported (R347, R353). -/
def basinReported (s : State) (b n : Nat) : State :=
  let s := { s with basins := s.basins.map (fun (e : Nat × Basin) => if e.2.adopter = some b then (e.1, { e.2 with adopter := none }) else e) }
  let s := arrive s (0x904 + b) (n % 2 ^ 24) false
  if (basinsUp s).isEmpty then haltHarbour s 0x0301 else s

theorem checkstop_eq {s : State} {b : Nat} (hup : basinUp s b = true) (trigger island : Nat) : checkstop s b trigger island =
    basinReported (basinDropped (stopThreads (replayBasin (basinStopped s b trigger island) b) b) b) b s.logNext := by
  unfold checkstop
  rw [if_neg (by simp [hup])]
  rfl

theorem basinStopped_rest (s : State) (b trigger island : Nat) : (basinStopped s b trigger island).cons = s.cons ∧
    (basinOf (basinStopped s b trigger island) b).checkstopped = true :=
  ⟨logAdd_cons .., congrArg Basin.checkstopped (basinOf_setBasin_same ..)⟩

theorem basinDropped_workOf (s : State) (b : Nat) : workOf (basinDropped s b) = workOf s := by
  unfold basinDropped
  extract_lets u v
  have hu : workOf u = workOf s :=
    List.foldlRecOn (motive := fun w => workOf w = workOf s) _ _ rfl fun _ hw _ _ => (setPc_workOf ..).trans hw
  have hv : workOf v = workOf s :=
    List.foldlRecOn (motive := fun w => workOf w = workOf s) _ _ hu fun _ hw _ _ => (setPier_workOf ..).trans hw
  exact (setCoh_workOf ..).trans hv

theorem basinReported_rest (s : State) (b n : Nat) : (basinReported s b n).threads = s.threads ∧ (basinReported s b n).cons = s.cons ∧
    ((basinOf s b).checkstopped = true → (basinOf (basinReported s b n) b).checkstopped = true) := by
  unfold basinReported
  extract_lets u v
  have hv : workOf v = workOf u := arrive_workOf ..
  have hend : workOf (if (basinsUp v).isEmpty then haltHarbour v 0x0301 else v) = workOf u :=
    prop_ite (P := fun w => workOf w = workOf u) ((haltHarbour_workOf ..).trans hv) hv
  clear_value v
  simp only [workOf, Prod.mk.injEq] at hend
  obtain ⟨hthreads, hcons, hbasins⟩ := hend
  refine ⟨hthreads, hcons, fun h => ?_⟩
  rw [basinOf, hbasins]
  exact basinOf_map s b (fun e => (apply_ite Prod.fst _ _ _).trans (ite_self _))
    (fun e he => prop_ite (P := fun x : Nat × Basin => x.2.checkstopped = true) he he) h

/-- What a checkstop leaves of its basin: the threads have stopped without a trace, and their consignments are REPLAYING. -/
theorem checkstop_stops {s : State} {b : Nat} (hup : basinUp s b = true) (trigger island : Nat) :
    (basinOf (checkstop s b trigger island) b).checkstopped = true ∧
      (∀ th : ThreadId, th.basin.val = b → threadGone (thr (checkstop s b trigger island) th)) ∧
      ∀ (q : Nat) (c : Cons) (th : ThreadId), consOf s q = some c → c.state = .accepted → c.phase = .onThread th → th.basin.val = b →
        ∃ c', consOf (checkstop s b trigger island) q = some c' ∧ c'.state = .replaying ∧ c'.report = none := by
  rw [checkstop_eq hup]
  obtain ⟨hcons1, hbasin1⟩ := basinStopped_rest s b trigger island
  generalize basinStopped s b trigger island = s1 at hcons1 hbasin1 ⊢
  have hgone (th : ThreadId) := stopThreads_gone (replayBasin s1 b) (b := b) (th := th)
  obtain ⟨hcons2, hbasins2⟩ := stopThreads_rest (replayBasin s1 b) b
  generalize stopThreads (replayBasin s1 b) b = s2 at hgone hcons2 hbasins2 ⊢
  have hdropped := basinDropped_workOf s2 b
  generalize basinDropped s2 b = s3 at hdropped ⊢
  simp only [workOf, Prod.mk.injEq] at hdropped
  obtain ⟨hthreads3, hcons3, hbasins3⟩ := hdropped
  obtain ⟨hthreads, hcons, hstopped⟩ := basinReported_rest s3 b s.logNext
  refine ⟨hstopped ?_, fun th hth => ?_, fun q c th hc hstate hphase hth => ?_⟩
  · rw [basinOf, hbasins3, hbasins2]
    exact hbasin1
  · rw [thr_of_threads (hthreads.trans hthreads3)]
    exact hgone th hth
  · rw [consOf, hcons, hcons3, hcons2]
    refine replayBasin_consOf (s := s1) ?_ hstate hphase hth
    rwa [consOf, hcons1]

/-- Forwards and invalidations that nobody has answered for 64 µs checkstop the basin (row 1 of R220). -/
theorem coherenceTimeout_snoop {s : State} {basin : BasinId} (hruns : cohRuns s basin = true) (sub : Fin 4)
    (hlate : ∃ e ∈ (cohOf s basin.val).dir, dirStable e.2 = false ∧ (e.2.oweFwd ≠ [] ∨ e.2.oweInv ≠ []) ∧ e.2.since + 64000 ≤ nowNs s) :
    exec (.coherenceTimeout basin 0 sub) s = .next (checkstop s basin.val 1 (islHome basin.val)) := by
  have hany : (cohOf s basin.val).dir.any
      (fun e => !(dirStable e.2) && (!e.2.oweFwd.isEmpty || !e.2.oweInv.isEmpty) && decide (e.2.since + 64000 ≤ nowNs s)) = true := by
    obtain ⟨e, he, hbusy, howed, hsince⟩ := hlate
    exact List.any_eq_true.mpr ⟨e, he, by simpa [hbusy, hsince] using howed⟩
  show execCoherenceTimeout .. = _
  simp only [execCoherenceTimeout, hruns, hany, Bool.not_true, Bool.false_eq_true, Fin.val_zero, if_false, if_true]

/-- A request of an L2 that nobody has answered for 64 µs checkstops the basin (row 2 of R220). -/
theorem coherenceTimeout_request {s : State} {basin : BasinId} (hruns : cohRuns s basin = true) {sub : Fin 4}
    (hlate : ∃ r ∈ (cohOf s basin.val).reqs, r.agent = sub.val ∧ r.retryAt = none ∧ r.sent + 64000 ≤ nowNs s) :
    exec (.coherenceTimeout basin 1 sub) s = .next (checkstop s basin.val 2 (islPier (basin.val * 4 + sub.val))) := by
  have hany : (cohOf s basin.val).reqs.any
      (fun r => r.agent == sub.val && r.retryAt.isNone && decide (r.sent + 64000 ≤ nowNs s)) = true := by
    obtain ⟨r, hr, hagent, hretry, hsent⟩ := hlate
    exact List.any_eq_true.mpr ⟨r, hr, by simp [hagent, hretry, hsent]⟩
  show execCoherenceTimeout .. = _
  simp only [execCoherenceTimeout, hruns, hany, Bool.not_true, Bool.false_eq_true, Fin.val_one, one_ne_zero, if_false, if_true]

theorem basinUp_of_cohRuns {s : State} {basin : BasinId} (h : cohRuns s basin = true) : basinUp s basin.val = true := by
  simp only [cohRuns, Bool.and_eq_true] at h
  exact h.2

/-! Partitions of a basin (R67, R69, R348, R349). -/

theorem partOf_setPart {s : State} {p q : Nat} (v : Part) :
    partOf (setPart s p v) q = v ∨ partOf (setPart s p v) q = partOf s q := by
  by_cases h : q % 4096 = p % 4096
  · left
    rw [partOf, h, setPart, mget_mset_same]
    rfl
  · right
    rw [partOf, setPart, mget_mset_other _ _ h, partOf]

/-- What is made of every partition that a basin homes holds of each of them. -/
theorem homed_changed {P : Part → Prop} {g : Part → Part} (hg : ∀ v, P (g v)) (s t : State) {b q : Nat} (hq : q < 4096)
    (hhome : (partOf s q).home = some b) : P (partOf ((homedBy s b).foldl (fun u p => setPart u p (g (partOf u p))) t) q) := by
  refine foldl_reaches (P := fun u => P (partOf u q)) (fun u p hu => ?_) (.inr ⟨q, ?_, fun u => ?_⟩)
  · rcases partOf_setPart (s := u) (p := p) (q := q) (g (partOf u p)) with h | h
    · rw [h]
      exact hg _
    · rwa [h]
  · exact List.mem_filter.mpr ⟨List.mem_range.mpr hq, decide_eq_true hhome⟩
  · rw [partOf_setPart_same]
    exact hg _

/-! What recoveries leave of the partitions, the islands, the basins and the Logbook (R347 to R351). -/

/-- What a recovery is judged by. -/
def recoveryView (s : State) : Table Part × Table Island × Table Basin := (s.parts, s.islands, s.basins)

@[simp] theorem arrive_recoveryView (s : State) (n d : Nat) (p : Bool) : recoveryView (arrive s n d p) = recoveryView s :=
  field_of_unreported (arrive_unreported ..) recoveryView fun _ => rfl
@[simp] theorem logIsland_recoveryView (s : State) (code cls n : Nat) (d : List Byte) :
    recoveryView (logIsland s code cls n d) = recoveryView s :=
  field_of_unreported (logIsland_unreported ..) recoveryView fun _ => rfl

theorem setBasin_recoveryView (s : State) (b : Nat) (v : Basin) :
    recoveryView (setBasin s b v) = (s.parts, s.islands, tset {} s.basins b v) := rfl

theorem logged_of_log {s u : State} {code : Nat} (hlog : u.log = s.log) (h : logged s code) : logged u code := by
  rw [logged, hlog]
  exact h

theorem logged_arrive {s : State} {code : Nat} (h : logged s code) (n d : Nat) (p : Bool) : logged (arrive s n d p) code :=
  logged_of_log (arrive_log ..) h

/-- Stores that go on to the adopter touch memory and threads alone (R188). -/
theorem resendStores_rest (s : State) (b : Nat) : recoveryView (resendStores s b) = recoveryView s ∧ (resendStores s b).log = s.log := by
  unfold resendStores
  refine List.foldlRecOn (motive := fun u : State => recoveryView u = recoveryView s ∧ u.log = s.log) _ _ ⟨rfl, rfl⟩ fun u hu th _ => ?_
  extract_lets mine held w
  refine prop_ite (P := fun u : State => recoveryView u = recoveryView s ∧ u.log = s.log) hu ?_
  have hw : w = withMem u _ := foldl_hbmStore held u
  rw [hw]
  exact hu

/-- An adopter homes every partition of the basin, whose adoption is recorded (R348). -/
theorem adoptBy_done (s : State) (b a : Nat) : (basinOf (adoptBy s b a) b).adopted = true ∧ logged (adoptBy s b a) 0x0302 ∧
    ∀ q < 4096, (partOf s q).home = some b → (partOf (adoptBy s b a) q).home = some a := by
  unfold adoptBy
  extract_lets moved promote s1 n s2 v s3
  obtain ⟨hview, hlog⟩ := resendStores_rest (arrive s3 (0x908 + b) (n % 2 ^ 24) false) b
  rw [arrive_recoveryView] at hview
  have h1 (q : Nat) (hq : q < 4096) (hhome : (partOf s q).home = some b) : (partOf s1 q).home = some a :=
    homed_changed (P := fun v => v.home = some a) (g := fun v => { v with home := some a, stranded := false, stack := if promote then a else v.stack })
      (fun _ => rfl) s s hq hhome
  have h2 : recoveryView s2 = recoveryView s1 := logIsland_recoveryView ..
  have hlog2 : logged s2 0x0302 := by
    simp only [s2]
    exact logged_logIsland ..
  have hlog3 : logged s3 0x0302 := logged_of_log (setBasin_log s2 b _) hlog2
  have h3 : recoveryView s3 = (s2.parts, s2.islands, tset {} s2.basins b { v with adopted := true, adopter := none }) :=
    setBasin_recoveryView ..
  clear_value s1 s2 s3
  rw [h3] at hview
  simp only [recoveryView, Prod.mk.injEq] at hview h2
  obtain ⟨hparts, -, hbasins⟩ := hview
  refine ⟨?_, logged_of_log hlog (logged_arrive hlog3 ..), fun q hq hhome => ?_⟩
  · rw [basinOf, hbasins, tget_tset_same]
  · rw [partOf, hparts, h2.1]
    exact h1 q hq hhome

/-- The partitions of a basin are stranded, and the stranding is recorded (R349). -/
theorem strand_done (s : State) (b : Nat) : (strand s b).islands = s.islands ∧ logged (strand s b) 0x0304 ∧
    ∀ q < 4096, (partOf s q).home = some b → (partOf (strand s b) q).stranded = true := by
  unfold strand
  extract_lets parts n s1 s2
  have h1 (q : Nat) (hq : q < 4096) (hhome : (partOf s q).home = some b) : (partOf s1 q).stranded = true :=
    homed_changed (P := fun v => v.stranded = true) (g := fun v => { v with stranded := true }) (fun _ => rfl) s s hq hhome
  have hislands1 : s1.islands = s.islands := List.foldlRecOn (motive := fun u : State => u.islands = s.islands) _ _ rfl fun _ hu _ _ => hu
  have h2 : recoveryView s2 = recoveryView s1 := logIsland_recoveryView ..
  have hlog2 : logged s2 0x0304 := logged_logIsland s1 0x0304 _ _ _
  have hview : recoveryView (arrive s2 (0x90C + b) (n % 2 ^ 24) false) = recoveryView s1 := (arrive_recoveryView ..).trans h2
  clear_value s1 s2
  simp only [recoveryView, Prod.mk.injEq] at hview
  obtain ⟨hparts, hislands, -⟩ := hview
  refine ⟨hislands.trans hislands1, logged_arrive hlog2 .., fun q hq hhome => ?_⟩
  rw [partOf, hparts]
  exact h1 q hq hhome

/-- What holds whatever the mark of injection says holds of an operation that carries it (R354). -/
theorem asInjected_of {P : State → Prop} (hP : ∀ u d, P u → P { u with dev := d }) {f : State → State} {s : State}
    (h : ∀ d, P (f { s with dev := d })) (b : Bool) : P (asInjected b f s) :=
  hP _ _ (h _)

/-- A segment that retrains carries the accesses of its stack again (R349). -/
def fairwayBack (s : State) (b : Nat) : State :=
  let u := logIsland s 0x0707 2 (islFairway b) (toLe 1 b ++ toLe 1 (bit false))
  setBasin (setIsland u (islFairway b) { islandOf u (islFairway b) with reset := false, state := 3, credits := true }) b
    { basinOf s b with hbmReadable := true }

theorem fairwayBack_rest (s : State) (b : Nat) : (basinOf (fairwayBack s b) b).hbmReadable = true ∧
    (islandOf (fairwayBack s b) (islFairway b)).state = 3 ∧ logged (fairwayBack s b) 0x0707 := by
  unfold fairwayBack
  extract_lets u
  have hlogged : logged u 0x0707 := logged_logIsland ..
  refine ⟨congrArg Basin.hbmReadable (basinOf_setBasin_same ..), ?_, hlogged⟩
  rw [islandOf, setBasin_islands]
  exact congrArg Island.state (islandOf_setIsland_same u (islFairway b) _)

/-- A segment that does not retrain is out of service (R349). -/
def fairwayOut (s : State) (b : Nat) : State :=
  let u := logIsland s 0x0707 2 (islFairway b) (toLe 1 b ++ toLe 1 (bit true))
  setIsland u (islFairway b) { islandOf u (islFairway b) with out := true, state := 0 }

theorem fairwayOut_rest (s : State) (b : Nat) : (fairwayOut s b).parts = s.parts ∧ (fairwayOut s b).cfg = s.cfg ∧
    (islandOf (fairwayOut s b) (islFairway b)).out = true :=
  ⟨congrArg (·.1) (logIsland_recoveryView ..), field_of_unreported (logIsland_unreported ..) State.cfg fun _ => rfl,
    congrArg Island.out (islandOf_setIsland_same ..)⟩

/-! The commands of recovery. -/

section Recovery
variable {s : State} {basin : BasinId} (hrun : running s = true)
include hrun

theorem adoptionComplete_done {adopter : BasinId} (hstop : (basinOf s basin.val).checkstopped = true) (hnew : (basinOf s basin.val).adopted = false)
    (hpolicy : (basinOf s basin.val).policyReset = false) (hread : (basinOf s basin.val).hbmReadable = true ∨ rangesMirrored s basin.val = true)
    (hmirror : mirrorOf s basin.val = some adopter.val) : answers (.adoptionComplete basin) s (fun u => (basinOf u basin.val).adopted = true ∧
      logged u 0x0302 ∧ ∀ q < 4096, (partOf s q).home = some basin.val → (partOf u q).home = some adopter.val) := by
  have hgoes : ¬ ((!running s) = true ∨ (!(basinOf s basin.val).checkstopped) = true ∨ (basinOf s basin.val).adopted = true ∨
      (basinOf s basin.val).policyReset = true ∨ ((!(basinOf s basin.val).hbmReadable) = true ∧ (!rangesMirrored s basin.val) = true)) := by
    rcases hread with h | h <;> simp [hrun, hstop, hnew, hpolicy, h]
  have hexec : exec (.adoptionComplete basin) s = .next (asInjected (basinOf s basin.val).injected (fun s => adoptBy s basin.val adopter.val) s) := by
    refine congrArg Host.Outcome.next ((if_neg hgoes).trans ?_)
    rw [hmirror]
  refine ⟨_, hexec, ?_⟩
  refine asInjected_of (P := fun u => (basinOf u basin.val).adopted = true ∧ logged u 0x0302 ∧
    ∀ q < 4096, (partOf s q).home = some basin.val → (partOf u q).home = some adopter.val) (fun _ _ h => h)
    (fun d => ?_) _
  obtain ⟨hadopted, hlogged, hhomes⟩ := adoptBy_done { s with dev := d } basin.val adopter.val
  exact ⟨hadopted, hlogged, fun q hq hhome => hhomes q hq hhome⟩

/-- A basin whose reset has ended, as R347 goes on. -/
theorem basinResetDone_done (hstop : (basinOf s basin.val).checkstopped = true)
    (hready : (basinOf s basin.val).adopted = true ∨ (basinOf s basin.val).policyReset = true) (passed : Bool) : ∃ w, logged w 0x0303 ∧
      exec (.basinResetDone basin passed) s = .next (
        let v := basinOf s basin.val
        if passed then setBasin w basin.val { v with checkstopped := false, adopted := false, adopter := none, holds := [], dispatches := 0 }
        else if v.policyReset then setBasin w basin.val { v with policyReset := false }
        else setBasin w basin.val { v with inService := false }) := by
  have hgoes : ¬ ((!running s) = true ∨ (!(basinOf s basin.val).checkstopped) = true ∨
      ((!(basinOf s basin.val).adopted) = true ∧ (!(basinOf s basin.val).policyReset) = true)) := by
    rcases hready with h | h <;> simp [hrun, hstop, h]
  refine ⟨_, ?_, congrArg Host.Outcome.next (if_neg hgoes)⟩
  refine List.foldlRecOn (motive := fun u => logged u 0x0303) _ _ ?_ fun _ hu _ _ => hu
  refine List.foldlRecOn (motive := fun u => logged u 0x0303) _ _ ?_ fun _ hu _ _ => hu
  exact logged_logIsland ..

/-- A basin that passes its tests after the reset returns to service (R347). -/
theorem basinReset_passed (hstop : (basinOf s basin.val).checkstopped = true)
    (hready : (basinOf s basin.val).adopted = true ∨ (basinOf s basin.val).policyReset = true) :
    answers (.basinResetDone basin true) s (fun u =>
      (basinOf u basin.val).checkstopped = false ∧ (basinOf u basin.val).adopted = false ∧ logged u 0x0303) := by
  obtain ⟨w, hlogged, hexec⟩ := basinResetDone_done hrun hstop hready true
  refine ⟨_, hexec.trans (congrArg Host.Outcome.next (if_pos rfl)), ?_⟩
  dsimp only
  rw [basinOf_setBasin_same]
  exact ⟨rfl, rfl, logged_of_log (setBasin_log ..) hlogged⟩

/-- A basin that fails its tests after the reset stays out; RESET falls back to ADOPT (R347). -/
theorem basinReset_failed (hstop : (basinOf s basin.val).checkstopped = true)
    (hready : (basinOf s basin.val).adopted = true ∨ (basinOf s basin.val).policyReset = true) :
    answers (.basinResetDone basin false) s (fun u => (basinOf u basin.val).checkstopped = true ∧ logged u 0x0303 ∧
      ((basinOf s basin.val).policyReset = true → (basinOf u basin.val).policyReset = false) ∧
      ((basinOf s basin.val).policyReset = false → (basinOf u basin.val).inService = false)) := by
  obtain ⟨w, hlogged, hexec⟩ := basinResetDone_done hrun hstop hready false
  refine ⟨_, hexec.trans (congrArg Host.Outcome.next (if_neg Bool.false_ne_true)), ?_⟩
  cases hpolicy : (basinOf s basin.val).policyReset with
  | true =>
    rw [if_pos rfl, basinOf_setBasin_same]
    exact ⟨hstop, logged_of_log (setBasin_log ..) hlogged, fun _ => rfl, fun h => absurd h.symm Bool.false_ne_true⟩
  | false =>
    rw [if_neg Bool.false_ne_true, basinOf_setBasin_same]
    exact ⟨hstop, logged_of_log (setBasin_log ..) hlogged, fun h => absurd h Bool.false_ne_true, fun _ => rfl⟩

theorem fairwayRetrain_up (hstop : (basinOf s basin.val).checkstopped = true) (hlost : (basinOf s basin.val).hbmReadable = false) :
    answers (.fairwayRetrain basin true) s (fun u => (basinOf u basin.val).hbmReadable = true ∧
      (islandOf u (islFairway basin.val)).state = 3 ∧ logged u 0x0707) := by
  have hgoes : ¬ ((!running s) = true ∨ (!(basinOf s basin.val).checkstopped) = true ∨ (basinOf s basin.val).hbmReadable = true) := by
    simp [hrun, hstop, hlost]
  exact ⟨fairwayBack s basin.val, congrArg Host.Outcome.next (if_neg hgoes), fairwayBack_rest s basin.val⟩

theorem fairwayRetrain_down (hstop : (basinOf s basin.val).checkstopped = true) (hlost : (basinOf s basin.val).hbmReadable = false)
    (hbare : rangesMirrored s basin.val = false) (hkept : ∃ q ∈ homedBy s basin.val, (partOf s q).stranded = false) :
    answers (.fairwayRetrain basin false) s (fun u => (islandOf u (islFairway basin.val)).out = true ∧ logged u 0x0304 ∧
      ∀ q < 4096, (partOf s q).home = some basin.val → (partOf u q).stranded = true) := by
  have hgoes : ¬ ((!running s) = true ∨ (!(basinOf s basin.val).checkstopped) = true ∨ (basinOf s basin.val).hbmReadable = true) := by
    simp [hrun, hstop, hlost]
  obtain ⟨hparts, hcfg, hout⟩ := fairwayOut_rest s basin.val
  have hpart (q : Nat) : partOf (fairwayOut s basin.val) q = partOf s q := by rw [partOf, hparts, partOf]
  have hhomed : homedBy (fairwayOut s basin.val) basin.val = homedBy s basin.val := by simp only [homedBy, hpart]
  have hbare' : ¬ (rangesMirrored (fairwayOut s basin.val) basin.val = true ∨
      (homedBy (fairwayOut s basin.val) basin.val).all (fun p => (partOf (fairwayOut s basin.val) p).stranded) = true) := by
    rw [rangesMirrored, hcfg, hhomed]
    rintro (hmirrored | hall)
    · exact absurd (hmirrored.symm.trans hbare) (by decide)
    · obtain ⟨q, hq, hfree⟩ := hkept
      have hstranded := List.all_eq_true.mp hall q hq
      rw [hpart, hfree] at hstranded
      exact Bool.false_ne_true hstranded
  have hexec : exec (.fairwayRetrain basin false) s = .next (strand (fairwayOut s basin.val) basin.val) := by
    refine congrArg Host.Outcome.next ((if_neg hgoes).trans ?_)
    dsimp only
    rw [if_neg Bool.false_ne_true]
    exact if_neg hbare'
  obtain ⟨hislands, hlogged, hstrands⟩ := strand_done (fairwayOut s basin.val) basin.val
  refine ⟨_, hexec, ?_, hlogged, fun q hq hhome => hstrands q hq (by rwa [hpart])⟩
  rw [islandOf, hislands]
  exact hout

theorem patrolScrub_due (hread : (basinOf s basin.val).hbmReadable = true)
    (hdue : (basinOf s basin.val).scrubbed + s.policy.scrubHours * 3600000000000 ≤ nowNs s) (corrected : BitVec 32) :
    answers (.patrolScrub basin corrected) s (fun u => (basinOf u basin.val).scrubbed = nowNs s ∧ logged u 0x0406) := by
  have hgoes : ¬ ((!running s) = true ∨ (!(basinOf s basin.val).hbmReadable) = true ∨
      nowNs s < (basinOf s basin.val).scrubbed + s.policy.scrubHours * 3600000000000) := by
    simp [hrun, hread, Nat.not_lt.mpr hdue]
  refine ⟨_, congrArg Host.Outcome.next (if_neg hgoes), ?_, logged_logIsland ..⟩
  have hview := logIsland_recoveryView (setBasin s basin.val { basinOf s basin.val with scrubbed := nowNs s }) 0x0406 0 (islHbm basin.val)
    (toLe 1 basin.val ++ toLe 4 corrected.toNat)
  simp only [recoveryView, Prod.mk.injEq] at hview
  obtain ⟨-, -, hbasins⟩ := hview
  exact congrArg Basin.scrubbed ((congrArg (tget ({} : Basin) · basin.val) hbasins).trans (basinOf_setBasin_same ..))

end Recovery
/-! The ways of an L2 (R201 to R204). -/

/-- The state of a way of an L2. -/
def l2State (s : State) (p i : Nat) : LState := (tget {} (pcOf s p).l2 i).state

/-- The state in which a way is left whose line has been written back. -/
def cleaned : LState → LState
  | .m => .e
  | .o => .s
  | st => st

theorem cleaned_clean (st : LState) : cleaned st ≠ .m ∧ cleaned st ≠ .o := by
  cases st <;> decide

theorem cleaned_of_clean {st : LState} (h : st ≠ .m ∧ st ≠ .o) : cleaned st = st := by
  cases st with
  | m => exact absurd rfl h.1
  | o => exact absurd rfl h.2
  | _ => rfl

theorem pcOf_of_pcache {s u : State} (h : u.pcache = s.pcache) (p : Nat) : pcOf u p = pcOf s p := by
  rw [pcOf, h, pcOf]

/-- The states of the ways of an L2 after a line has been put in one of them. -/
theorem l2State_setPc {s : State} {p i j : Nat} {pc : PierCache} {l : Line} (h : pc.l2 = tset {} (pcOf s p).l2 i l) (u : State) :
    l2State (setPc u p pc) p j = if j = i then l.state else l2State s p j := by
  rw [l2State, pcOf_setPc_same, h]
  split
  case isTrue hj => rw [hj, tget_tset_same]
  case isFalse hj => rw [tget_tset_other _ _ _ hj, l2State]

theorem setDir_pcache (s : State) (b line : Nat) (d : Dir) : (setDir s b line d).pcache = s.pcache := rfl

theorem dirDrop_pcache (s : State) (b a line : Nat) (st : LState) : (dirDrop s b a line st).pcache = s.pcache :=
  prop_ite (P := fun u : State => u.pcache = s.pcache) (setDir_pcache ..) rfl

/-- Cleaning a way changes the state of that way alone (R201). -/
theorem l2State_wayClean (s : State) (p i j : Nat) :
    l2State (wayClean s p i) p j = if j = i then cleaned (l2State s p i) else l2State s p j := by
  have hsame : l2State s p j = if j = i then l2State s p i else l2State s p j := by
    split
    case isTrue hj => rw [hj]
    case isFalse hj => rfl
  unfold wayClean
  extract_lets b l u1 u2 d u3
  have hu1 : u1.pcache = s.pcache := l3Write_pcache ..
  have hu3 : u3.pcache = s.pcache := prop_ite (P := fun u : State => u.pcache = s.pcache) ((setDir_pcache ..).trans hu1) hu1
  clear_value u1 u2 u3
  split
  case h_1 hl =>
    rw [l2State_setPc (s := s) (l := { l with state := .e }) (by rw [pcOf_of_pcache hu1]), show l2State s p i = .m from hl]
    rfl
  case h_2 hl =>
    rw [l2State_setPc (s := s) (l := { l with state := .s }) (by rw [pcOf_of_pcache hu3]), show l2State s p i = .o from hl]
    rfl
  case h_3 hm ho =>
    rw [cleaned_of_clean (st := l2State s p i) ⟨hm, ho⟩]
    exact hsame

theorem l2State_absent {s : State} {p i : Nat} (h : mget (pcOf s p).l2 i = none) : l2State s p i = .i := by
  rw [l2State, tget, h]
  rfl

/-- What a command does to every listed way of an L2 it has done to every way that is not free. -/
theorem l2_foldl_reaches {P : State → Prop} {f : State → Nat × Line → State} (hkeeps : ∀ u e, P u → P (f u e)) {s : State} {p i : Nat}
    (hfree : l2State s p i = .i → P s) (hdone : ∀ (u : State) (l : Line), P (f u (i, l))) : P ((pcOf s p).l2.foldl f s) := by
  refine foldl_reaches hkeeps ?_
  cases hway : mget (pcOf s p).l2 i with
  | none => exact .inl (hfree (l2State_absent hway))
  | some l => exact .inr ⟨(i, l), mem_mget _ _ _ hway, fun u => hdone u l⟩

/-- L2_CLEAN leaves no dirty way (R201). -/
theorem cleanWays_clean (s : State) (p i : Nat) :
    l2State ((pcOf s p).l2.foldl (fun u e => wayClean u p e.1) s) p i ≠ .m ∧
      l2State ((pcOf s p).l2.foldl (fun u e => wayClean u p e.1) s) p i ≠ .o := by
  refine l2_foldl_reaches (i := i) (P := fun u => l2State u p i ≠ .m ∧ l2State u p i ≠ .o) (fun u e hu => ?_) (fun hi => ?_) fun u l => ?_
  · rw [l2State_wayClean]
    exact prop_ite (P := fun st : LState => st ≠ .m ∧ st ≠ .o) (cleaned_clean _) hu
  · rw [hi]
    decide
  · rw [l2State_wayClean, if_pos rfl]
    exact cleaned_clean _

theorem l1Drop_l2 (pc : PierCache) (line : Nat) : (l1Drop pc line).l2 = pc.l2 := rfl

/-- A way that is emptied is free, and the other ways keep their states (R201). -/
theorem l2State_wayEmpty (s : State) (p i j : Nat) :
    l2State (wayEmpty s p i) p j = if j = i then .i else l2State s p j := by
  unfold wayEmpty
  extract_lets l u1 st u2 pc
  split
  case isTrue hi =>
    split
    case isTrue hj => rw [hj]; exact hi
    case isFalse hj => rfl
  case isFalse hi =>
    have hu2 : pcOf u2 p = pcOf u1 p := pcOf_of_pcache (dirDrop_pcache ..) p
    have hpc : pc.l2 = (pcOf u1 p).l2 := (l1Drop_l2 ..).trans (by rw [hu2])
    rw [l2State_setPc (s := u1) (by rw [hpc]), l2State_wayClean]
    split <;> rfl

/-- Ways that become locked are emptied (R204). -/
theorem emptyWays_free (s : State) (p : Nat) {newly : Nat → Bool} {i : Nat} (hnew : newly i = true) :
    l2State ((pcOf s p).l2.foldl (fun u e => if newly e.1 then wayEmpty u p e.1 else u) s) p i = .i := by
  refine l2_foldl_reaches (i := i) (P := fun u => l2State u p i = .i) (fun u e hu => ?_) id fun u l => ?_
  · refine prop_ite (P := fun v : State => l2State v p i = .i) ?_ hu
    rw [l2State_wayEmpty]
    exact prop_ite (P := fun st : LState => st = .i) rfl hu
  · rw [if_pos hnew, l2State_wayEmpty, if_pos rfl]

/-- Lines of ways that become unlocked change their ages alone (R204). -/
theorem state_tget_aged (t : Table Line) (freed : Nat → Bool) (i : Nat) :
    (tget {} (t.map (fun e => if freed e.1 then (e.1, { e.2 with age := 1 }) else e)) i).state = (tget {} t i).state := by
  rw [tget, mget_map t _ fun e => by split <;> rfl, tget]
  cases mget t i with
  | none => rfl
  | some l => exact (apply_ite (fun e : Nat × Line => e.2.state) _ _ _).trans (ite_self _)

/-- The L1 lines that PIER_L1_INV keeps: those of a pair that it does not name, or one of whose L1s is enabled (R203). -/
theorem pairKept_iff (named l1d l1i : Bool) : (!(named && !l1d && !l1i)) = true ↔ ¬ (named = true ∧ l1d = false ∧ l1i = false) := by
  rw [Bool.not_eq_true', ← Bool.not_eq_true]
  simp only [Bool.and_eq_true, Bool.not_eq_true', and_assoc]

/-! The cache registers of a pier (R201 to R204, R363). -/

section Registers
variable {s : State} {pier : PierId} (hwrite : pierWrite s pier = true)
include hwrite

theorem l2Clean_done : answers (.l2Clean pier) s (fun u => ∀ i : Nat,
    (tget {} (pcOf u pier.val).l2 i).state ≠ .m ∧ (tget {} (pcOf u pier.val).l2 i).state ≠ .o) :=
  ⟨_, congrArg Host.Outcome.next (if_pos hwrite), cleanWays_clean s pier.val⟩

theorem l2Inv_done : exec (.l2Inv pier) s =
    .next (if (pcOf s pier.val).l2En then s else setPc s pier.val { pcOf s pier.val with l2 := [] }) := by
  refine congrArg Host.Outcome.next ?_
  dsimp only
  cases (pcOf s pier.val).l2En with
  | true => exact if_neg (by simp)
  | false => exact if_pos (by simp [hwrite])

theorem l2En_done (on : Bool) : answers (.l2En pier on) s (fun u =>
    (pcOf u pier.val).l2En = on ∧ (pcOf u pier.val).l2 = (pcOf s pier.val).l2) := by
  by_cases hen : (pcOf s pier.val).l2En = on
  · exact ⟨s, congrArg Host.Outcome.next (if_pos (.inr hen)), hen, rfl⟩
  have hgoes : ¬ ((!pierWrite s pier) = true ∨ (pcOf s pier.val).l2En = on) := by simp [hwrite, hen]
  refine ⟨_, congrArg Host.Outcome.next (if_neg hgoes), ?_⟩
  cases on with
  | true => simp [pcOf_setPc_same]
  | false =>
    rw [if_neg Bool.false_ne_true]
    extract_lets u
    have hu : u.pcache = s.pcache := by
      refine List.foldlRecOn (motive := fun u : State => u.pcache = s.pcache) _ _ rfl fun u hu e _ => ?_
      exact (dirDrop_pcache ..).trans (prop_ite (P := fun v : State => v.pcache = s.pcache) ((l3Write_pcache ..).trans hu) hu)
    rw [pcOf_setPc_same]
    have hpc : pcOf u pier.val = pcOf s pier.val := pcOf_of_pcache hu pier.val
    exact ⟨rfl, by rw [← hpc]⟩

theorem lockWays_done (n : BitVec 4) : answers (.lockWays pier n) s (fun u => (pcOf u pier.val).lockWays = min 8 n.toNat ∧
    ∀ i : Nat, i % 16 < 16 - (pcOf s pier.val).lockWays → 16 - min 8 n.toNat ≤ i % 16 → (tget {} (pcOf u pier.val).l2 i).state = .i) := by
  have hgoes : ¬ (!pierWrite s pier) = true := by simp [hwrite]
  refine ⟨_, congrArg Host.Outcome.next (if_neg hgoes), ?_⟩
  extract_lets newly u pc freed
  dsimp only
  rw [pcOf_setPc_same]
  refine ⟨rfl, fun i hold hnew => ?_⟩
  dsimp only
  rw [state_tget_aged]
  refine emptyWays_free s pier.val ?_
  simp only [newly, lockedWay, hnew, Nat.not_le.mpr hold, decide_true, decide_false, Bool.not_false, Bool.and_true]

theorem pierL1Inv_done (m : BitVec 18) : answers (.pierL1Inv pier m) s (fun u => ∀ e : Nat × Cache,
    (e ∈ (pcOf u pier.val).l1d ↔ e ∈ (pcOf s pier.val).l1d ∧ ¬ (m.getLsbD (e.1 / 2) = true ∧
      (pcOf s pier.val).l1dEn.getLsbD (e.1 / 2) = false ∧ (pcOf s pier.val).l1iEn.getLsbD (e.1 / 2) = false)) ∧
    (e ∈ (pcOf u pier.val).l1i ↔ e ∈ (pcOf s pier.val).l1i ∧ ¬ (m.getLsbD (e.1 / 2) = true ∧
      (pcOf s pier.val).l1dEn.getLsbD (e.1 / 2) = false ∧ (pcOf s pier.val).l1iEn.getLsbD (e.1 / 2) = false))) := by
  refine ⟨_, congrArg Host.Outcome.next (if_pos hwrite), fun e => ?_⟩
  rw [pcOf_setPc_same]
  exact ⟨List.mem_filter.trans (and_congr_right fun _ => pairKept_iff ..), List.mem_filter.trans (and_congr_right fun _ => pairKept_iff ..)⟩

theorem pierEvqHead_done (h : BitVec 8) : exec (.pierEvqHead pier h) s = .next (
    if (h.toNat + 256 - (pierOf s pier.val).evqHead) % 256 ≤ ((pierOf s pier.val).evqTail + 256 - (pierOf s pier.val).evqHead) % 256 then
      setPier s pier.val { pierOf s pier.val with evqHead := h.toNat }
    else s) :=
  congrArg Host.Outcome.next (if_congr (and_iff_right hwrite) rfl rfl)

end Registers
end Sys2Proof.Machine

namespace Sys2Proof.Proofs
open Sys2Proof.Machine

/-- Settles O49: both timeouts run the checkstop, whose threads, consignments and basin `checkstop_stops` describes; an adoption, a reset and a
stranding are folds over the basin's partitions, islands and piers that end in the stated entries; and a cleaned or a locked L2 is a fold over
its ways that changes each way's own state alone. -/
theorem cachesAndBasins : Obligations.CachesAndBasins := by
  unfold Obligations.CachesAndBasins
  intro s basin adopter sub pier corrected on n m h
  extract_lets b v pc stopped
  have hstopped (hruns : cohRuns s basin = true) (trigger island : Nat) : stopped (checkstop s b trigger island) := by
    obtain ⟨hbasin, hthreads, hcons⟩ := checkstop_stops (basinUp_of_cohRuns hruns) trigger island
    exact ⟨hbasin, fun th hth => hthreads th (congrArg Fin.val hth),
      fun q c th hc hstate hphase hth => hcons q c th hc hstate hphase (congrArg Fin.val hth)⟩
  refine ⟨fun hruns => ⟨fun hlate => ⟨_, coherenceTimeout_snoop hruns sub hlate, hstopped hruns _ _⟩,
    fun hlate => ⟨_, coherenceTimeout_request hruns hlate, hstopped hruns _ _⟩⟩,
    fun hrun hstop => ⟨adoptionComplete_done hrun hstop, fun hready => ⟨basinReset_passed hrun hstop hready, basinReset_failed hrun hstop hready⟩,
      fun hlost => ⟨fairwayRetrain_up hrun hstop hlost, fairwayRetrain_down hrun hstop hlost⟩⟩,
    fun hrun hread hdue => patrolScrub_due hrun hread hdue corrected, fun hwrite => ?_⟩
  exact ⟨l2Clean_done hwrite, l2Inv_done hwrite, l2En_done hwrite on, lockWays_done hwrite n, congrArg Host.Outcome.next (if_pos hwrite),
    congrArg Host.Outcome.next (if_pos hwrite), pierL1Inv_done hwrite m, pierEvqHead_done hwrite h⟩

end Sys2Proof.Proofs
end

section
/-! PROOFS. The Strongroom's requests, deliveries, cold loads and journal (R222, R227 to R230, R246, R263, R374). -/

namespace Sys2Proof.Machine

/-! Requests (R222, R253). -/

/-- The state once the front request has left the queue. -/
def requestTaken (s : State) (rest : List SReq) : State := { s with sroom := { s.sroom with queue := rest } }

/-- Where an answer puts the request: a delivery under way, a parked request, or a refusal. -/
def answered (q : SReq) : State × Served → State
  | (u, .ok x) => { u with sroom := { u.sroom with runs := mset u.sroom.runs u.sroom.nextRun x, nextRun := u.sroom.nextRun + 1 } }
  | (u, .wait w) => { u with sroom := { u.sroom with parked := u.sroom.parked ++ [{ q with wait := w }] } }
  | (u, .fail e) => reapKeys (refuseReq u q e)

/-- A free engine of the Strongroom serves the front request, where it is still wanted. -/
theorem strongroomRequest_answered {s : State} {q : SReq} {rest : List SReq} (hqueue : s.sroom.queue = q :: rest) (hup : sroomUp s = true)
    (hfree : s.sroom.runs.length < 64) (hcurrent : reqCurrent (requestTaken s rest) q = true) :
    exec .strongroomRequest s = .next (answered q (serve (requestTaken s rest) q)) := by
  change execStrongroomRequest s = _
  have hgoes : ¬ ((!sroomUp s) = true ∨ 64 ≤ s.sroom.runs.length) := by simp [hup, hfree]
  unfold requestTaken at hcurrent ⊢
  simp only [execStrongroomRequest, hqueue, if_neg hgoes, hcurrent, Bool.not_true, Bool.false_eq_true, if_false]
  generalize serve _ q = a
  obtain ⟨u, r⟩ := a
  cases r <;> rfl

/-! Deliveries (R222, R263). -/

/-- Erasing dying keys leaves every thread alone (R252). -/
theorem reapKeys_threads (s : State) : (reapKeys s).threads = s.threads := by
  unfold reapKeys
  refine threads_foldl _ (fun u e => ?_) _ s
  extract_lets v
  have hv : v.threads = u.threads := rfl
  clear_value v
  split
  · exact hv
  · exact hv

/-- A status that posts to a thread not waiting for it changes its request alone (R112). -/
theorem cpPost_active {s : State} {th : ThreadId} (hrun : (thr s th).run = .active) (n : Fin 3) (w : Word) :
    cpPost s th n w = setCp s th n (.posted w) := by
  simp only [cpPost, setCp_thr, hrun]

/-- A delivery of one key to an active thread fills its slot and posts success. -/
theorem keyDelivery_slot {s : State} {id cfn n : Nat} {x : SRun} {th : ThreadId} {block : List Byte} {ins : List (List Byte)} {k : KeySlot}
    (hrun : mget s.sroom.runs id = some x) (hup : sroomUp s = true) (hkind : x.req.kind = .cp1 th cfn block ins)
    (hcurrent : reqCurrent s x.req = true) (hout : x.out = none) (hslots : x.slots = [(n, k)]) (hactive : (thr s th).run = .active) :
    exec (.keyDelivery id) s =
      .next (reapKeys (setCp (setSlot { s with sroom := { s.sroom with runs := mdel s.sroom.runs id } } th n k) th 1 (.posted 0))) := by
  change execKeyDelivery id s = _
  have hcurrent' : reqCurrent { s with sroom := { s.sroom with runs := mdel s.sroom.runs id } } x.req = true := hcurrent
  have hactive' : (thr (setSlot { s with sroom := { s.sroom with runs := mdel s.sroom.runs id } } th n k) th).run = .active := by
    unfold setSlot
    rw [thr_modThr_same]
    exact hactive
  simp only [execKeyDelivery, hrun, hup, hcurrent', hkind, hout, hslots, List.foldl_cons, List.foldl_nil, Bool.not_true, Bool.false_eq_true, if_false,
    cpPost_active hactive']

/-- What the filled slot and the posted status leave of the thread. -/
theorem setSlot_posted {s : State} {th : ThreadId} {n : Nat} (hn : n < 4) (k : KeySlot) (w : Word) :
    let t := reapKeys (setCp (setSlot s th n k) th 1 (.posted w))
    slotOf t th n = k ∧ (thr t th).cp.get (1 : Fin 3) = .posted w ∧ regsOf t th = regsOf s th := by
  intro t
  have hthr : thr t th = { thr (setSlot s th n k) th with cp := (thr (setSlot s th n k) th).cp.set 1 (.posted w) } :=
    (thr_of_threads (reapKeys_threads _) th).trans (setCp_thr ..)
  refine ⟨(slotOf_of_keySlots ?_ n).trans (slotOf_setSlot_same s th hn k), ?_, Eq.trans ?_ (setSlot_arch s th n k)⟩
  · rw [hthr]
  · rw [hthr]
    simp [Vector.get_eq_getElem]
  · rw [regsOf, hthr]

/-! Cold loads (R230) and store writes (R227). -/

/-- A record that matches makes its key resident, and the requests that wait for it return to the queue. -/
theorem keyColdLoad_authentic {s : State} {handle : BitVec 32} (hup : sroomUp s = true)
    (hwaits : ∃ r ∈ s.sroom.parked, r.wait = .load handle.toNat) (hbase : s.sroom.base.isSome = true) :
    exec (.keyColdLoad handle true) s =
      .next (unparkReqs (modKey s handle.toNat (fun k => { k with resident := true })) (.load handle.toNat)) := by
  change execKeyColdLoad handle true s = _
  have hmine : ¬ ((s.sroom.parked.filter (fun r => r.wait == .load handle.toNat)).isEmpty = true ∨ (!sroomUp s) = true) := by
    simpa [hup, List.filter_eq_nil_iff] using hwaits
  simp only [execKeyColdLoad, if_neg hmine, hbase, Bool.and_self, if_true]

/-- A flushing read that ends confirms the write, or sends it again through the other PF0 (R76, R401). -/
theorem keyStoreWriteConfirmed_done {s : State} {handle : BitVec 32} {key : Key} {store : StoreWrite} (hkey : mget s.sroom.keys handle.toNat = some key)
    (hstore : key.store = some store) (hport : pf0Ok s store.port = true) :
    exec (.keyStoreWriteConfirmed handle (.ok [])) s =
      .next (destroyDone (settleKey (setKey s handle.toNat { key with store := none }) handle.toNat)) ∧
    exec (.keyStoreWriteConfirmed handle .error) s = .next (setKey s handle.toNat { key with
      store := some { store with port := if pf0Ok s store.port.other then store.port.other else store.port } }) := by
  constructor
  · change execKeyStoreWriteConfirmed handle (.ok []) s = _
    simp only [execKeyStoreWriteConfirmed, hkey, hstore, hport, Bool.not_true, Bool.false_eq_true, if_false]
  · change execKeyStoreWriteConfirmed handle .error s = _
    simp only [execKeyStoreWriteConfirmed, hkey, hstore, hport, Bool.not_true, Bool.false_eq_true, if_false]

/-! The journal (R228) and component sequences (R247). -/

theorem journalBatchClose_due {s : State} (hup : sroomUp s = true) (hopen : s.sroom.openRecs ≠ [])
    (hdue : 128 ≤ s.sroom.openRecs.length ∨ s.sroom.openAt + 200000 ≤ nowNs s) :
    exec .journalBatchClose s = .next { s with sroom := { s.sroom with
      openRecs := s.sroom.openRecs.drop 128, openAt := nowNs s, pages := s.sroom.pages ++ [s.sroom.openRecs.take 128] } } :=
  congrArg Host.Outcome.next (if_pos ⟨hup, by simpa using hopen, hdue⟩)

theorem journalPageProgrammed_oldest {s : State} {pg : List JRec} {pages : List (List JRec)} (hpages : s.sroom.pages = pg :: pages)
    (hup : sroomUp s = true) :
    exec .journalPageProgrammed s = .next (mbPoll (pg.foldl journalled { s with sroom := { s.sroom with pages := pages } })) := by
  change execJournalPageProgrammed s = _
  simp only [execJournalPageProgrammed, hpages, hup, Bool.not_true, Bool.false_eq_true, if_false]

theorem componentSequenceTimeout_due {s : State} {c : Comps} (hcomps : s.sroom.comps = some c) (hdue : c.since + 600000000000 ≤ nowNs s) :
    exec .componentSequenceTimeout s = .next { s with sroom := { s.sroom with comps := none } } := by
  change execComponentSequenceTimeout s = _
  simp only [execComponentSequenceTimeout, hcomps, if_pos hdue]

end Sys2Proof.Machine

namespace Sys2Proof.Proofs
open Sys2Proof.Machine

/-- Settles O44: each command of the Strongroom by the lemma that says what it comes to; a delivery's slot and status outlive the erasure of
dying keys, which leaves every thread alone (`reapKeys_threads`). -/
theorem strongroomWorks : Obligations.StrongroomWorks := by
  intro s u q rest x w e id th cfn block ins n k handle key pg pages store p seqs took
  refine ⟨?request, ?delivery, ?coldLoad, journalBatchClose_due, journalPageProgrammed_oldest, componentSequenceTimeout_due,
    keyStoreWriteConfirmed_done, fun hredrive => if_pos hredrive, fun hlast => if_neg (Bool.eq_false_iff.mp hlast)⟩
  case request =>
    intro hqueue hup hfree hcurrent
    have hserved : exec .strongroomRequest s = .next (answered q (serve took q)) := strongroomRequest_answered hqueue hup hfree hcurrent
    exact ⟨fun h => by rw [hserved, h]; rfl, fun h => by rw [hserved, h]; rfl, fun h => by rw [hserved, h]; rfl⟩
  case delivery =>
    intro hrun hup hkind hcurrent hout hslots hn hactive
    exact ⟨_, keyDelivery_slot hrun hup hkind hcurrent hout hslots hactive, setSlot_posted hn k 0⟩
  case coldLoad =>
    intro hkey hup hwaits hbase
    refine ⟨_, keyColdLoad_authentic hup hwaits hbase, ?_, rfl⟩
    exact (mget_mmod s.sroom.keys handle.toNat handle.toNat _).trans ((if_pos rfl).trans (by rw [hkey]; rfl))

end Sys2Proof.Proofs
end

section
/-! PROOFS. The mailbox commands of keys and labels (R223 to R257, R469 to R472, R511, R512): what each of them comes to. -/

namespace Sys2Proof.Machine

/-- A key that has room and a free handle takes that handle and waits for its records (R229, R469). -/
theorem makeKey_room {u : State} {target h : Nat} (hroom : keyRoom u target = true) (hhandle : newHandle u target = some h) (p : Port) (k : Key)
    (aux need : Nat) : makeKey u p target k aux need = .wait (addKey u p h k) h aux need true := by
  simp only [makeKey, hroom, hhandle, Bool.not_true, Bool.false_eq_true, if_false]

/-- Without room it is refused with reason 8 (R243 check 9). -/
theorem makeKey_full {u : State} {target : Nat} (hfull : keyRoom u target = false) (p : Port) (k : Key) (aux need : Nat) :
    makeKey u p target k aux need = .fail 0x0205 8 := by
  simp only [makeKey, hfull, Bool.not_false, if_true, blockRejected]

section KeyActs
variable {u : State} {m : MbReq} {b : List Byte}

/-! Imports (R243, R247, R469). -/

theorem keyImportBlock_act_taken (htaken : targetTaken u (fieldLe b 4 4) = true) : cmdKeyImportBlock.act u m b = .fail 0x0809 0 :=
  if_pos htaken

section Import
variable (hfree : targetTaken u (fieldLe b 4 4) = false)
include hfree

theorem keyImportBlock_act_noStore (hbase : u.sroom.base = none) : cmdKeyImportBlock.act u m b = .fail 0x0205 9 := by
  simp only [cmdKeyImportBlock, hfree, hbase, Option.isNone_none, Bool.false_eq_true, if_false, if_true, blockRejected]

variable (hbase : u.sroom.base.isSome = true)
include hbase

theorem keyImportBlock_act_block (hformat : fieldLe b 0 1 = 0) : cmdKeyImportBlock.act u m b = importBlock u m.port b := by
  simp only [cmdKeyImportBlock, hfree, Option.isNone_eq_false_iff.mpr hbase, hformat, Bool.false_eq_true, if_false]

theorem keyImportBlock_act_component (hformat : fieldLe b 0 1 = 1) : cmdKeyImportBlock.act u m b = importComponent u m.port b := by
  simp only [cmdKeyImportBlock, hfree, Option.isNone_eq_false_iff.mpr hbase, hformat, Bool.false_eq_true, if_false]

theorem keyImportBlock_act_public (hformat : fieldLe b 0 1 = 2) : cmdKeyImportBlock.act u m b = importPublic u m.port b := by
  simp only [cmdKeyImportBlock, hfree, Option.isNone_eq_false_iff.mpr hbase, hformat, Bool.false_eq_true, if_false]

end Import

/-- A public key whose attributes pass is made without further checks (R244). -/
theorem importPublic_good (hattr : attrReason (attrOf b 16) true = none) (p : Port) :
    importPublic u p b = makeKey u p (fieldLe b 4 4) { attr := attrOf b 16, value := b.drop 32, isPublic := true } 0 10 := by
  simp only [importPublic, hattr]

/-! Generation (R469). -/

/-- The key that KEY_GENERATE draws for the attributes of its body. -/
def generatedKey (u : State) (b : List Byte) : Key :=
  let a := attrOf b 4
  { attr := a, value := if a.alg = chE ∨ a.alg = chR then Config.newPrivate a.curve a.bits u.freeCtr else randomBytes u.freeCtr (a.bits / 8) }

section Generate
variable (hfree : targetTaken u (fieldLe b 0 4) = false) (hbase : u.sroom.base.isSome = true)
include hfree hbase

theorem keyGenerate_act_bad {e : Nat} (hattr : attrReason (attrOf b 4) false = some e) : cmdKeyGenerate.act u m b = .fail 0x0205 e := by
  simp only [cmdKeyGenerate, hfree, Option.isNone_eq_false_iff.mpr hbase, hattr, Bool.false_eq_true, if_false, blockRejected]

theorem keyGenerate_act (hattr : attrReason (attrOf b 4) false = none) : cmdKeyGenerate.act u m b =
    makeKey { u with freeCtr := u.freeCtr + 1 } m.port (fieldLe b 0 4) (generatedKey u b) 0
      (keyBody (fieldLe b 0 4) (generatedKey u b) 0x0302 0).length := by
  simp only [cmdKeyGenerate, hfree, Option.isNone_eq_false_iff.mpr hbase, hattr, Bool.false_eq_true, if_false, generatedKey]

end Generate

/-! KEY_EXPORT_BLOCK (R245, R248). -/

theorem keyExportBlock_act_absent (hnone : keyOf u (fieldLe b 0 4) = none) : cmdKeyExportBlock.act u m b = .fail 0x0201 0 := by
  simp only [cmdKeyExportBlock, hnone]

/-- The two keys of KEY_EXPORT_BLOCK, brought to the Strongroom (R230). -/
def exportLoaded (u : State) (h kb : Nat) : State :=
  modKey (modKey u h (fun k => { k with resident := true })) kb (fun k => { k with resident := true })

/-- The block that protects a key k under a key q (R245). -/
def exportedBlock (r : State) (q k : Key) : List Byte :=
  Config.sealKeyBlock q.value (blockText r (if isTdea (algCode q.attr) then chB else chD) k.attr.usage k.attr.alg k.attr.mode k.version k.attr.exp
    (algCode k.attr) k.value) k.value r.freeCtr

/-- What KEY_EXPORT_BLOCK comes to once its value is asked for: it waits for the journal, or answers the block (R253). -/
def exportDrawn (r : State) (q k : Key) : State × Option (Nat × Nat) → MbAct
  | (x, none) => .again x
  | (x, some _) => .done { x with freeCtr := x.freeCtr + 1 } (toLe 2 (exportedBlock r q k).length ++ exportedBlock r q k)

section ExportBlock
variable {k kb q : Key} (hkey : keyOf u (fieldLe b 0 4) = some k) (hkbpk : keyOf u (fieldLe b 4 4) = some kb)
  (hprot : blockKey u (fieldLe b 0 4) (fieldLe b 4 4) .blockExport none = some q)
include hkey hkbpk hprot

theorem keyExportBlock_act_notExportable (hexp : k.attr.exp ≠ chE) : cmdKeyExportBlock.act u m b = .fail 0x0202 0 := by
  simp only [cmdKeyExportBlock, hkey, hkbpk, hprot]
  exact if_pos (.inl hexp)

variable (hexp : k.attr.exp = chE) (hsecret : k.isPublic = false) (hstrong : strongEnough (algCode q.attr) (algCode k.attr) = true)
  (howner : hIndex (fieldLe b 0 4) ≠ 0 ∨ hMgr (fieldLe b 0 4) = true)
include hexp hsecret hstrong howner

/-- An exportable key is judged by the states of the two keys, then drawn for (R248, R251). -/
theorem keyExportBlock_act : cmdKeyExportBlock.act u m b =
    if k.state = 3 ∨ q.state = 2 then .fail 0x0204 0
    else if q.state = 1 then .fail 0x0203 0
    else exportDrawn (exportLoaded u (fieldLe b 0 4) (fieldLe b 4 4)) q k
      (draw (exportLoaded u (fieldLe b 0 4) (fieldLe b 4 4)) (fieldLe b 4 4) 1) := by
  have hgood : ¬ (k.attr.exp ≠ chE ∨ k.isPublic = true ∨ (!strongEnough (algCode q.attr) (algCode k.attr)) = true ∨
      (hIndex (fieldLe b 0 4) = 0 ∧ (!hMgr (fieldLe b 0 4)) = true)) := by
    simpa [hexp, hsecret, hstrong, or_iff_not_imp_left] using howner
  simp only [cmdKeyExportBlock, hkey, hkbpk, hprot]
  exact if_neg hgood

end ExportBlock

/-! Queries and retirements (R251, R252). -/

theorem keyQuery_act_absent (hnone : keyOf u (fieldLe b 0 4) = none) : cmdKeyQuery.act u m b = .fail 0x0201 0 := by
  simp only [cmdKeyQuery, hnone]

theorem keyQuery_act {k : Key} (hkey : keyOf u (fieldLe b 0 4) = some k) : cmdKeyQuery.act u m b =
    .done u (toLe 1 k.state ++ zeros 3 ++ attrBytes k.attr ++ toLe 8 k.counter ++ toLe 8 k.high ++ kcvOf (algCode k.attr) k.value) := by
  simp only [cmdKeyQuery, hkey]

theorem keyRetire_act_absent (hnone : keyOf u (fieldLe b 0 4) = none) : cmdKeyRetire.act u m b = .fail 0x0201 0 := by
  simp only [cmdKeyRetire, hnone]

section Retire
variable {k : Key} (hkey : keyOf u (fieldLe b 0 4) = some k)
include hkey

theorem keyRetire_act_destroy (hmode : fieldLe b 4 1 = 2) : cmdKeyRetire.act u m b =
    .wait (reapKeys (setKey u (fieldLe b 0 4) { k with dying := true, cmd := some m.port })) (fieldLe b 0 4) 0 0 true := by
  simp only [cmdKeyRetire, hkey, hmode, if_true]

variable (hmode : fieldLe b 4 1 < 2)
include hmode

theorem keyRetire_act_same (hstate : retiredState k.state (fieldLe b 4 1) = k.state) : cmdKeyRetire.act u m b = .done u [] := by
  simp only [cmdKeyRetire, hkey, hmode.ne, hstate, if_false, if_true]

theorem keyRetire_act_moved (hstate : retiredState k.state (fieldLe b 4 1) ≠ k.state) (hstored : hIndex (fieldLe b 0 4) ≠ 0) :
    cmdKeyRetire.act u m b =
      .wait (persistKey (setKey u (fieldLe b 0 4) { k with state := retiredState k.state (fieldLe b 4 1), cmd := some m.port }) (fieldLe b 0 4)
        (retiredState k.state (fieldLe b 4 1))) (fieldLe b 0 4) 0 0 true := by
  simp only [cmdKeyRetire, hkey, hmode.ne, hstate, hstored, false_and, if_false]

end Retire

/-! The store region and the labels (R227, R234, R512). -/

/-- What a store region comes to whose check found a record that does not match, or none. -/
def regionTried (u : State) (base : Nat) : Option Nat → MbAct
  | some slot => .ends { u with freeCtr := u.freeCtr + 1 } 0x0809 slot []
  | none => .done { u with freeCtr := u.freeCtr + 1, sroom := { u.sroom with base := some base } } []

/-- Only a live journal record can turn a region down (R512). -/
theorem keystoreConfigure_act : cmdKeystoreConfigure.act u m b =
    regionTried u (fieldLe b 0 8) (if journalLive u then Config.regionFails (fieldLe b 0 8) u.freeCtr else none) := rfl

theorem tenantLabelSet_act_absent (habsent : (tenantOf u (fieldLe b 0 2)).state = .absent) : cmdTenantLabelSet.act u m b = .fail 0x0809 0 := by
  simp only [cmdTenantLabelSet, badTenant, habsent, if_true, stateCode]

theorem tenantLabelSet_act_labelled (ht : (tenantOf u (fieldLe b 0 2)).state ≠ .absent) (hlabel : (mget u.sroom.labels (fieldLe b 0 2)).isSome = true) :
    cmdTenantLabelSet.act u m b = .fail 0x0202 0 := by
  simp only [cmdTenantLabelSet, ht, hlabel, if_false, if_true]

theorem tenantLabelSet_act (ht : (tenantOf u (fieldLe b 0 2)).state ≠ .absent) (hlabel : mget u.sroom.labels (fieldLe b 0 2) = none) :
    cmdTenantLabelSet.act u m b =
      (let text := slice b 4 (fieldLe b 2 1)
       .wait (journalAdd { u with sroom := { u.sroom with labels := mset u.sroom.labels (fieldLe b 0 2) text } } (.label (fieldLe b 0 2) text))
         (fieldLe b 0 2) 0 0 true) := by
  simp only [cmdTenantLabelSet, ht, hlabel, Option.isSome_none, Bool.false_eq_true, if_false]

end KeyActs

end Sys2Proof.Machine

namespace Sys2Proof.Proofs
open Sys2Proof.Machine

/-- Settles O53, command by command: a GO that the Pilot takes shows what the command comes to (`gives_of_act`, `givesSigned_of_act`), and
what each command comes to is the equation of its act. -/
theorem mailboxKeyCommands : Obligations.MailboxKeyCommands := by
  intro s m h k kb q x u p b f a value made base u1 text
  refine ⟨?importTaken, ?imported, ?generate, ?exportAbsent, ?exported, ?absent, ?held, ?storeEmpty, ?storeLive, ?labelAbsent, ?labelled, ?label⟩
  case importTaken => exact fun htaken => gives_of_act rfl (keyImportBlock_act_taken htaken)
  case imported =>
    refine fun hfree => ⟨fun hbase => gives_of_act rfl (keyImportBlock_act_noStore hfree hbase), fun hbase => ⟨fun hformat => ?_, fun hformat => ?_,
      fun hformat hattr hroom hhandle => ?_⟩⟩
    · exact gives_of_act rfl (keyImportBlock_act_block hfree hbase hformat)
    · exact givesSigned_of_act rfl (keyImportBlock_act_component hfree hbase hformat)
    · exact gives_of_act rfl ((keyImportBlock_act_public hfree hbase hformat).trans
        ((importPublic_good hattr _).trans (makeKey_room hroom hhandle ..)))
  case generate =>
    refine fun hfree hbase => ⟨fun e hattr => ?_, fun hattr hfull => ?_, fun hattr hroom hhandle => ?_⟩
    · exact gives_of_act rfl (keyGenerate_act_bad hfree hbase hattr)
    · exact gives_of_act rfl ((keyGenerate_act hfree hbase hattr).trans (makeKey_full hfull ..))
    · have hact : cmdKeyGenerate.act u m b = .wait (addKey u1 p h made) h 0 (keyBody (f 0 4) made 0x0302 0).length true :=
        (keyGenerate_act hfree hbase hattr).trans (makeKey_room hroom hhandle ..)
      exact ⟨gives_of_act rfl hact, givesSigned_of_act rfl hact⟩
  case exportAbsent => exact fun hnone => givesSigned_of_act rfl (keyExportBlock_act_absent hnone)
  case exported =>
    refine fun hkey hkbpk hprot => ⟨fun hexp => givesSigned_of_act rfl (keyExportBlock_act_notExportable hkey hkbpk hprot hexp),
      fun hexp hsecret hstrong howner => ?_⟩
    have hact := keyExportBlock_act (m := m) hkey hkbpk hprot hexp hsecret hstrong howner
    refine ⟨fun hretired => givesSigned_of_act rfl (hact.trans (if_pos (.inl hretired))), fun hstate hactive n hdraw => ?_⟩
    exact givesSigned_of_act rfl (hact.trans ((if_neg (by simp [hstate, hactive])).trans ((if_neg (by simp [hactive])).trans
      (congrArg (exportDrawn _ q k) hdraw))))
  case absent => exact fun hnone => ⟨gives_of_act rfl (keyRetire_act_absent hnone), gives_of_act rfl (keyQuery_act_absent hnone)⟩
  case held =>
    refine fun hkey => ⟨gives_of_act rfl (keyQuery_act hkey), fun hmode => ?_, fun hmode hstate => ?_, fun hmode hstate hstored => ?_⟩
    · exact ⟨gives_of_act rfl (keyRetire_act_destroy hkey hmode), givesSigned_of_act rfl (keyRetire_act_destroy hkey hmode)⟩
    · exact gives_of_act rfl (keyRetire_act_same hkey hmode hstate)
    · exact gives_of_act rfl (keyRetire_act_moved hkey hmode hstate hstored)
  case storeEmpty =>
    exact fun hlive => givesSigned_of_act rfl (keystoreConfigure_act.trans (congrArg (regionTried u base) (if_neg (Bool.eq_false_iff.mp hlive))))
  case storeLive => exact fun hlive => givesSigned_of_act rfl (keystoreConfigure_act.trans (congrArg (regionTried u base) (if_pos hlive)))
  case labelAbsent => exact fun habsent => givesSigned_of_act rfl (tenantLabelSet_act_absent habsent)
  case labelled => exact fun ht hlabel => givesSigned_of_act rfl (tenantLabelSet_act_labelled ht hlabel)
  case label => exact fun ht hlabel => givesSigned_of_act rfl (tenantLabelSet_act ht hlabel)

end Sys2Proof.Proofs
end

section
/-! PROOFS. The last steps of engine jobs and the end of a scuttle (R274 to R280, R289 to R293, R324): what the assignment of engines
leaves of a job that has ended, and what a failed scuttle does to its tenant. -/

namespace Sys2Proof.Machine

/-! The outcome of a job, which neither the assignment of engines nor the erasure of keys touches. -/

/-- A job without its place in the queues of its engine: the assignment of engines changes that place alone (R274, R289, R324). -/
def unqueued (j : Job) : Job := { j with stage := .done, started := true }

/-- A job with its outcome, before its end is posted. -/
def endedJob (j : Job) (status len value : Nat) : Job :=
  { j with stage := .done, started := true, finished := true, status := status, resultLen := len, value := value }

/-- A job has the outcome of another: it is that job but for its place in the queues. -/
def endsAs (t : State) (id : Nat) (j : Job) : Prop := (jobOf t id).map unqueued = some (unqueued j)

/-- What a job with an outcome shows (R59, R116). -/
theorem endsAs_outcome {t : State} {id : Nat} {j : Job} {status len value : Nat} (h : endsAs t id (endedJob j status len value)) :
    ∃ k, jobOf t id = some k ∧ (k.finished = true ∧ k.status = status ∧ k.fn = j.fn ∧ k.seq = j.seq) ∧ k.progress = j.progress ∧
      (k.written = j.written ∧ k.resultLen = len) ∧ k.result = j.result ∧ k.value = value := by
  obtain ⟨k, hk, hout⟩ : ∃ k, jobOf t id = some k ∧ unqueued k = unqueued (endedJob j status len value) := Option.map_eq_some_iff.mp h
  have field {α : Type} (f : Job → α) (hf : ∀ x, f (unqueued x) = f x) : f k = f (endedJob j status len value) := by
    rw [← hf k, hout, hf]
  exact ⟨k, hk, ⟨field Job.finished fun _ => rfl, field Job.status fun _ => rfl, field Job.fn fun _ => rfl, field Job.seq fun _ => rfl⟩,
    field Job.progress fun _ => rfl, ⟨field Job.written fun _ => rfl, field Job.resultLen fun _ => rfl⟩, field Job.result fun _ => rfl,
    field Job.value fun _ => rfl⟩

theorem jobOf_modJob_same (s : State) (id : Nat) (f : Job → Job) : jobOf (modJob s id f) id = (jobOf s id).map f := by
  rw [jobOf, modJob, mget_mmod, if_pos rfl]
  rfl

theorem jobOf_replaced {s : State} {id : Nat} {j : Job} (h : jobOf s id = some j) (k : Job) : jobOf (modJob s id fun _ => k) id = some k := by
  rw [jobOf_modJob_same, h]
  rfl

theorem jobOf_jobEnd_same {s : State} {id : Nat} {j : Job} (h : jobOf s id = some j) (status len value : Nat) :
    jobOf (jobEnd s id status len value) id = some (endedJob j status len value) := by
  show jobOf (modJob s id (endedJob · status len value)) id = _
  rw [jobOf_modJob_same, h]
  rfl

theorem jobOf_modJob_unqueued (s : State) (i id : Nat) (f : Job → Job) (hf : ∀ j, unqueued (f j) = unqueued j) :
    (jobOf (modJob s i f) id).map unqueued = (jobOf s id).map unqueued := by
  simp only [jobOf, modJob, mget_mmod]
  split
  · simp only [Option.map_map, Function.comp_def, hf]
  · rfl

theorem jobOf_askKeys_unqueued (s : State) (i id : Nat) : (jobOf (askKeys s i) id).map unqueued = (jobOf s id).map unqueued := by
  unfold askKeys
  cases jobOf s i with
  | none => rfl
  | some j => exact jobOf_modJob_unqueued s i id _ fun _ => rfl

/-! What the assignment of engines is made of: contexts granted, whose jobs ask for their keys, and starts of jobs (R274, R289, R324). -/

/-- A job that runs on a unit. -/
def onUnit (n : Nat) (j : Job) : Job := { j with stage := .running n, started := true }

section Assignment
variable {P : State → Prop} (hask : ∀ u i, P u → P (askKeys u i))
  (hstart : ∀ u i n, P u → P (modJob u i (onUnit n)))

include hask in
theorem grantContexts_keeps (n : Nat) {s : State} (h : P s) : P (grantContexts n s) := by
  induction n generalizing s with
  | zero => exact h
  | succ n ih =>
    unfold grantContexts
    split
    · exact h
    · split
      · exact h
      · exact ih (hask _ _ h)

include hstart in
theorem assignOne_keeps {s : State} (h : P s) (k : EngineKind) : P (assignOne s k) := by
  unfold assignOne
  split
  · exact h
  · extract_lets us
    split
    · exact hstart _ _ _ h
    · exact h

include hstart in
theorem assignAll_keeps (k : EngineKind) (n : Nat) {s : State} (h : P s) : P (iter (fun s => assignOne s k) n s) := by
  induction n generalizing s with
  | zero => exact h
  | succ n ih => exact ih (assignOne_keeps hstart h k)

include hask hstart in
theorem assignUnits_keeps {s : State} (h : P s) : P (assignUnits s) := by
  unfold assignUnits
  extract_lets granted lanes derricks
  have hgranted : P granted := grantContexts_keeps hask 16 h
  have hlanes : P lanes := assignAll_keeps hstart .lane 16 hgranted
  have hderricks : P derricks := assignAll_keeps hstart .derrick 32 hlanes
  exact assignAll_keeps hstart .stowage 8 hderricks

end Assignment

/-- Assigning engines changes no more of a job than its place in the queues. -/
theorem jobOf_assignUnits_unqueued (s : State) (id : Nat) : (jobOf (assignUnits s) id).map unqueued = (jobOf s id).map unqueued :=
  assignUnits_keeps (P := fun u => (jobOf u id).map unqueued = (jobOf s id).map unqueued)
    (fun u i h => (jobOf_askKeys_unqueued u i id).trans h) (fun u i n h => (jobOf_modJob_unqueued u i id (onUnit n) fun _ => rfl).trans h) rfl

theorem reapKeys_jobs (s : State) : (reapKeys s).jobs = s.jobs := by
  unfold reapKeys
  exact List.foldlRecOn (motive := fun u : State => u.jobs = s.jobs) _ _ rfl fun u hu e _ => by
    extract_lets v
    have hv : v.jobs = s.jobs := hu
    clear_value v
    exact prop_ite (P := fun x : State => x.jobs = s.jobs) hv hv

/-- The engines take other work, and a job that has ended keeps its outcome. -/
theorem endsAs_assignUnits {s : State} {id : Nat} {j : Job} (h : jobOf s id = some j) : endsAs (assignUnits s) id j :=
  (jobOf_assignUnits_unqueued s id).trans (congrArg (Option.map unqueued) h)

theorem endsAs_reapKeys {s : State} {id : Nat} {j : Job} (h : endsAs s id j) : endsAs (reapKeys s) id j := by
  rwa [endsAs, jobOf, reapKeys_jobs]

theorem endsAs_jobResult {s : State} {id : Nat} {j : Job} (h : jobOf s id = some j) (o : Nat × List Byte × Nat) :
    endsAs (assignUnits (jobResult s id o)) id (endedJob { j with result := o.2.1 } o.1 o.2.1.length o.2.2) := by
  refine endsAs_assignUnits (jobOf_jobEnd_same ?_ _ _ _)
  rw [jobOf_modJob_same]
  exact congrArg (Option.map _) h

/-! Lanes, Derricks and Stowage engines (R274 to R280, R289 to R293, R324). -/

theorem resultWrite_jobs (s : State) (seq : Nat) (l : List (Nat × List Byte)) : (resultWrite s seq l).1.jobs = s.jobs := by
  unfold resultWrite
  split
  · rfl
  · split
    · rfl
    · split <;> rfl

/-- A built-in's job that writes results changes no job. -/
theorem jobWrite_jobs {s : State} {j : Job} (hth : j.th = none) (off : Nat) (bs : List Byte) : (jobWrite s j off bs).1.jobs = s.jobs := by
  simp only [jobWrite, hth, resultWrite_jobs]

theorem laneOut_all (j : Job) : laneOut j j.src.length = j.result.length := if_pos (Nat.le_refl _)

/-- A lane job that has done its whole source and written its whole result. -/
def laneDone (j : Job) : Job := { j with progress := j.src.length, written := j.result.length }

/-- A job one step or block further. -/
def advanced (j : Job) : Job := { j with progress := j.progress + 1 }

section LastStep
variable {s : State} {id : Nat} {j : Job} (hlive : s.dev.st ≠ .halted) (hkeep : j.cancelled = false)
include hlive hkeep

/-- The last quantum of a lane job whose tag holds writes what is left of its result, and the job ends (R274, R275). -/
theorem execLaneQuantumEnd_last {w : State} {lane : Fin 16} (hup : unitUp s (islLane lane.val) = true)
    (hhead : (jobsAt s .lane (.running lane.val)).head? = some (id, j)) (hth : j.th = none) (hpath : pathState s j.tenant = 0)
    (hlast : j.src.length ≤ j.progress + 16384) (htag : j.value = 1)
    (hwrite : jobWrite s j j.written ((j.result.drop j.written).take (j.result.length - j.written)) = (w, 0)) :
    exec (.laneQuantumEnd lane) s = .next (reapKeys (assignUnits (jobEnd (modJob w id fun _ => laneDone j) id 0 j.result.length 0))) := by
  show execLaneQuantumEnd lane s = _
  unfold execLaneQuantumEnd
  rw [if_neg (by simp [hup, hlive]), hhead]
  simp -zeta only
  extract_lets total pos ok upTo path k u
  have hpos : pos = j.src.length := by simp only [pos, total, Nat.min_eq_left hlast, ite_self]
  have hok : ok = true := by simp [ok, htag]
  have hpath : path = 0 := by simp [path, hth, hpath]
  have hupTo : upTo = j.result.length := by simp [upTo, hok, hpos, laneOut_all]
  have hk : k = laneDone j := by simp only [k, hpos, hupTo, laneDone]
  have hu : u = modJob w id fun _ => laneDone j := by simp only [u, hk, hpath, hupTo, show ¬ (0 = 2) by decide, if_false, hwrite]
  clear_value k u
  simp only [hkeep, hpos, total, hpath, hupTo, hok, hk, hu, hwrite, Nat.lt_irrefl, Bool.false_eq_true, Nat.zero_ne_one, show ¬ (0 = 2) by decide,
    ne_eq, not_true_eq_false, false_and, if_false, if_true]
  rfl

/-- The last step of a Derrick's job ends it with what the job computes (R290 to R293). -/
theorem execDerrickStepEnd_last {derrick : Fin 32} (hup : unitUp s (islDerrick derrick.val) = true)
    (hhead : (jobsAt s .derrick (.running derrick.val)).head? = some (id, j)) (hlast : derrickSteps s j ≤ j.progress + 1) :
    exec (.derrickStepEnd derrick) s = .next (reapKeys (assignUnits (jobResult (modJob s id fun _ => advanced j) id
      (derrickOutcome (modJob s id fun _ => advanced j) (advanced j))))) := by
  show execDerrickStepEnd derrick s = _
  unfold execDerrickStepEnd
  rw [if_neg (by simp [hup, hlive]), hhead]
  simp -zeta only
  extract_lets k u
  rw [if_neg (show ¬ k.cancelled = true by simp [k, hkeep]), if_pos (show derrickSteps u k ≤ k.progress from hlast)]
  rfl

/-- The last block of a COMPRESS ends its job with the stream and its index (R324, R327). -/
theorem execStowageBlockEnd_last {engine : Fin 8} (hup : unitUp s (islStowage engine.val) = true)
    (hhead : (jobsAt s .stowage (.running engine.val)).head? = some (id, j)) (hlast : stowageBlocks j ≤ j.progress + 1) (hfn : j.fn = 0xF010) :
    exec (.stowageBlockEnd engine) s = .next (assignUnits (jobResult (modJob s id fun _ => advanced j) id
      (0, streamBytes (jobStream j) ++ indexBytes (jobStream j), (jobStream j).blocks.length))) := by
  show execStowageBlockEnd engine s = _
  unfold execStowageBlockEnd
  rw [if_neg (by simp [hup, hlive]), hhead]
  simp -zeta only
  extract_lets k u
  rw [if_neg (show ¬ k.cancelled = true by simp [k, hkeep]), if_pos (show stowageBlocks k ≤ k.progress from hlast),
    if_pos (show k.fn = 0xF010 from hfn)]
  rfl

end LastStep

/-! Scuttles (R278, R279). -/

/-- The function vector changes VFs alone (R381). -/
theorem functionVector_vfs (s : State) (t : Nat) : ∃ v, functionVector s t = { s with vfs := v } :=
  List.foldlRecOn (motive := fun u : State => ∃ v, u = { s with vfs := v }) [Port.a, Port.b] _ ⟨s.vfs, rfl⟩ fun u hu p _ => by
    obtain ⟨v, rfl⟩ := hu
    exact prop_ite (P := fun u : State => ∃ v, u = { s with vfs := v }) ⟨_, rfl⟩ ⟨v, rfl⟩

theorem withVector_vfs (t : Nat) (f : State → State) (s : State) : ∃ v, withVector t f s = { f s with vfs := v } :=
  prop_ite (P := fun u : State => ∃ v, u = { f s with vfs := v }) ⟨_, rfl⟩ (functionVector_vfs (f s) t)

/-- A failed scuttle puts a running tenant in ERROR with cause 1, and changes no job. -/
theorem scuttleFailed_running {s : State} {t : Nat} (hrun : (tenantOf s t).state = .running) :
    (scuttleFailed s t).jobs = s.jobs ∧ tenantOf (scuttleFailed s t) t = { tenantOf s t with state := .error, errCause := 1 } := by
  have hfail : scuttleFailed s t = withVector t (fun s => enterError s t 1) s := if_neg (by simp [hrun])
  have herror : enterError s t 1 = setTenant s t { tenantOf s t with state := .error, errCause := 1 } := by simp [enterError, hrun]
  obtain ⟨v, hv⟩ := withVector_vfs t (fun s => enterError s t 1) s
  rw [hfail, hv, herror]
  exact ⟨rfl, tenantOf_setTenant_same s t { tenantOf s t with state := .error, errCause := 1 }⟩

/-- The end of a scuttle: the job ends, and beside the jobs and keys only the consignment learns of it. -/
def scuttleEnd (s : State) (id : Nat) (j : Job) (status : Nat) : State :=
  reapKeys (assignUnits (jobEnd (setScuttling s j false) id status 0 0))

theorem endsAs_scuttleEnd {s : State} {id : Nat} {j : Job} (h : jobOf s id = some j) (status : Nat) :
    endsAs (scuttleEnd s id j status) id (endedJob j status 0 0) :=
  endsAs_reapKeys (endsAs_assignUnits (jobOf_jobEnd_same (s := setScuttling s j false) h ..))

theorem tenantOf_scuttleEnd (s : State) (id : Nat) (j : Job) (status t : Nat) : tenantOf (scuttleEnd s id j status) t = tenantOf s t := by
  have hcourse : asideJobs id (scuttleEnd s id j status) = asideJobs id (setScuttling s j false) :=
    (reapKeys_asideJobs id _).trans ((assignUnits_asideJobs id _).trans (jobEnd_asideJobs ..))
  exact field_of_offJobs (asideJobs_parts hcourse).1 (tenantOf · t) fun _ => rfl

/-- A scuttle that is complete, or not, of a job that was not cancelled and whose zeros went out. -/
theorem execScuttleComplete_kept {s : State} {id : Nat} {j : Job} (hj : jobOf s id = some j) (hkeep : j.cancelled = false)
    (hstage : j.stage = .scuttle) (hvalue : j.value = 0) (hdma : dmaDiscarded s j.tenant = false) (confirmed : Bool) :
    exec (.scuttleComplete id confirmed) s =
      .next (scuttleEnd (if confirmed then s else scuttleFailed s j.tenant) id j (if confirmed then j.status else 0x0304)) := by
  show execScuttleComplete id confirmed s = _
  unfold execScuttleComplete scuttleEnd
  simp [hj, hkeep, hstage, hvalue, hdma]

end Sys2Proof.Machine

namespace Sys2Proof.Proofs
open Sys2Proof.Machine

/-- Settles O43: the last step of each engine ends its job, and the outcome stays as the engines take other work (endsAs). -/
theorem enginesFinishJobs : Obligations.EnginesFinishJobs := by
  unfold Obligations.EnginesFinishJobs
  intro s w id j lane derrick engine done hj hlive hkeep
  refine ⟨fun hup hhead hth hpath hlast htag hwrite => ?_, fun hup hhead hlast => ?_, fun hup hhead hlast hfn => ?_,
    fun hstage hvalue hdma => ⟨?_, fun hrun => ?_⟩⟩
  · refine ⟨_, execLaneQuantumEnd_last hlive hkeep hup hhead hth hpath hlast htag hwrite, ?_⟩
    have hjobs : w.jobs = s.jobs := congrArg (·.1.jobs) hwrite ▸ jobWrite_jobs hth ..
    have hw : jobOf w id = some j := by rw [jobOf, hjobs]; exact hj
    obtain ⟨k, hk, hdone, -, hwritten, -⟩ := endsAs_outcome (endsAs_reapKeys (endsAs_assignUnits
      (jobOf_jobEnd_same (jobOf_replaced hw (laneDone j)) 0 j.result.length 0)))
    exact ⟨⟨k, hk, hdone⟩, k, hk, hwritten⟩
  · refine ⟨_, execDerrickStepEnd_last hlive hkeep hup hhead hlast, ?_⟩
    obtain ⟨k, hk, ⟨hfin, -, hfn, -⟩, hprogress, -⟩ := endsAs_outcome (endsAs_reapKeys (endsAs_jobResult (jobOf_replaced hj (advanced j)) _))
    exact ⟨k, hk, hfin, hfn, hprogress⟩
  · refine ⟨_, execStowageBlockEnd_last hlive hkeep hup hhead hlast hfn, ?_⟩
    obtain ⟨k, hk, hdone, -, -, hresult⟩ := endsAs_outcome (endsAs_jobResult (jobOf_replaced hj (advanced j)) _)
    exact ⟨⟨k, hk, hdone⟩, k, hk, hresult⟩
  · refine ⟨_, execScuttleComplete_kept hj hkeep hstage hvalue hdma true, ?_⟩
    obtain ⟨k, hk, hdone, -⟩ := endsAs_outcome (endsAs_scuttleEnd hj j.status)
    exact ⟨k, hk, hdone⟩
  · refine ⟨_, execScuttleComplete_kept hj hkeep hstage hvalue hdma false, ?_⟩
    obtain ⟨hjobs, htenant⟩ := scuttleFailed_running hrun
    have hfailed : jobOf (scuttleFailed s j.tenant) id = some j := by rw [jobOf, hjobs]; exact hj
    obtain ⟨k, hk, hdone, -⟩ := endsAs_outcome (endsAs_scuttleEnd hfailed 0x0304)
    have herror := (tenantOf_scuttleEnd (scuttleFailed s j.tenant) id j 0x0304 j.tenant).trans htenant
    exact ⟨⟨k, hk, hdone⟩, congrArg Tenant.state herror, congrArg Tenant.errCause herror⟩

end Sys2Proof.Proofs
end

section
/-! PROOFS. The SPDM responder of a port (R303 to R307, R402 to R405): how a message is taken, and what each of them comes to. -/

namespace Sys2Proof.Machine

/-! The state of a responder after it has spoken. -/

@[simp] theorem spdmOf_setSpdm_same (s : State) (p : Port) (v : Spdm) : spdmOf (setSpdm s p v) p = v := tget_tset_same ..
@[simp] theorem spdmOf_freeCtr (s : State) (p : Port) (n : Nat) : spdmOf { s with freeCtr := n } p = spdmOf s p := rfl

theorem spdmOf_spdmAnswer (s : State) (r : SpdmReq) (code : Nat) (body : List Byte) : spdmOf (spdmAnswer s r code body) r.port =
    { spdmOf s r.port with resp := some (code, body), transcript := (spdmOf s r.port).transcript ++ r.params ++ body } :=
  spdmOf_setSpdm_same ..

theorem spdmOf_spdmError (s : State) (r : SpdmReq) (code : Nat) :
    spdmOf (spdmError s r code) r.port = { spdmOf s r.port with resp := some (0x7F, toLe 1 code) } :=
  spdmOf_setSpdm_same ..

section Answers
variable (s : State) (r : SpdmReq) (code : Nat) (body : List Byte)

@[simp] theorem spdmAnswer_resp : (spdmOf (spdmAnswer s r code body) r.port).resp = some (code, body) := by rw [spdmOf_spdmAnswer]
@[simp] theorem spdmAnswer_conn : (spdmOf (spdmAnswer s r code body) r.port).conn = (spdmOf s r.port).conn := by rw [spdmOf_spdmAnswer]
@[simp] theorem spdmAnswer_aead : (spdmOf (spdmAnswer s r code body) r.port).aead = (spdmOf s r.port).aead := by rw [spdmOf_spdmAnswer]
@[simp] theorem spdmAnswer_sessions : (spdmOf (spdmAnswer s r code body) r.port).sessions = (spdmOf s r.port).sessions := by
  rw [spdmOf_spdmAnswer]
@[simp] theorem spdmError_resp : (spdmOf (spdmError s r code) r.port).resp = some (0x7F, toLe 1 code) := by rw [spdmOf_spdmError]
@[simp] theorem spdmError_sessions : (spdmOf (spdmError s r code) r.port).sessions = (spdmOf s r.port).sessions := by rw [spdmOf_spdmError]

end Answers

@[simp] theorem vfOf_spdmAnswer (s : State) (r : SpdmReq) (code : Nat) (body : List Byte) (p : Port) (t : Nat) :
    vfOf (spdmAnswer s r code body) p t = vfOf s p t := rfl

/-- The state once a session has heard a message at the present harbour time. -/
def sessionHeard (s : State) (p : Port) (k : Nat) (x : SpdmSession) : State :=
  setSpdm s p { spdmOf s p with sessions := mset (spdmOf s p).sessions k { x with heard := nowNs s } }

section Responder
variable {s : State} {r : SpdmReq} {i : Instr}

/-! The two kinds of answer, as the statement asks for them. -/

theorem answers_error {code : Nat} (h : exec i s = .next (spdmError s r code)) :
    answers i s (fun u => (spdmOf u r.port).resp = some (0x7F, toLe 1 code)) :=
  ⟨_, h, spdmError_resp ..⟩

theorem answers_reply {w : State} {code : Nat} {body : List Byte} {p : State → Prop} (h : exec i s = .next (spdmAnswer w r code body))
    (hp : p (spdmAnswer w r code body)) : answers i s (fun u => (spdmOf u r.port).resp = some (code, body) ∧ p u) :=
  ⟨_, h, spdmAnswer_resp .., hp⟩

variable (hup : doeUp s r.port = true)
include hup

theorem exec_getVersion : exec (.getVersion r) s =
    .next (spdmAnswer (setSpdm s r.port { spdmOf s r.port with conn := 1, transcript := [] }) r 0x04 ([1] ++ toLe 2 0x1200)) :=
  congrArg _ (if_neg (by simp [hup]))

/-! Messages outside a session (R303 to R307). -/

section Plain
variable (hplain : r.session = none)
include hplain

theorem spdmTake_plain (go : State → State) : spdmTake s r go = go s := by
  simp [spdmTake, hup, hplain]

theorem exec_plain {go : State → State} {t : State} (hi : exec i s = .next (spdmTake s r go)) (hgo : go s = t) : exec i s = .next t :=
  hi.trans (congrArg _ ((spdmTake_plain hup hplain go).trans hgo))

theorem exec_getCapabilities_early (hconn : (spdmOf s r.port).conn ≠ 1) : exec (.getCapabilities r) s = .next (spdmError s r 0x04) :=
  exec_plain hup hplain rfl (if_pos hconn)

theorem exec_getCapabilities (hconn : (spdmOf s r.port).conn = 1) : exec (.getCapabilities r) s =
    .next (spdmAnswer (setSpdm s r.port { spdmOf s r.port with conn := 2 }) r 0x61 (toLe 4 0x62F6)) :=
  exec_plain hup hplain rfl (if_neg (not_not_intro hconn))

theorem exec_negotiateAlgorithms_early (hconn : (spdmOf s r.port).conn ≠ 2) :
    exec (.negotiateAlgorithms r) s = .next (spdmError s r 0x04) :=
  exec_plain hup hplain rfl (if_pos hconn)

section Negotiate
variable (hconn : (spdmOf s r.port).conn = 2)
include hconn

/-- A requester that does not offer both SM2 and SM3 is refused (R306). -/
theorem exec_negotiateAlgorithms_unfit (hoffer : bitOf (fieldLe r.params 0 4) 9 = false ∨ bitOf (fieldLe r.params 4 4) 6 = false) :
    exec (.negotiateAlgorithms r) s = .next (spdmError s r 0x01) := by
  refine exec_plain hup hplain rfl ((if_neg (not_not_intro hconn)).trans (if_pos ?_))
  simpa using hoffer

/-- The AEAD chosen of those offered: AES_256_GCM before SM4_GCM (R306). -/
def aeadChosen (offered : Nat) : Nat := if bitOf offered 1 then 2 else if bitOf offered 3 then 8 else 0

theorem exec_negotiateAlgorithms (hasym : bitOf (fieldLe r.params 0 4) 9 = true) (hhash : bitOf (fieldLe r.params 4 4) 6 = true) :
    exec (.negotiateAlgorithms r) s =
      .next (spdmAnswer (setSpdm s r.port { spdmOf s r.port with conn := 3, aead := aeadChosen (fieldLe r.params 10 2) }) r 0x63
        (toLe 4 512 ++ toLe 4 64 ++ toLe 4 64 ++ toLe 2 (if bitOf (fieldLe r.params 8 2) 6 then 64 else 0)
          ++ toLe 2 (aeadChosen (fieldLe r.params 10 2)))) := by
  refine exec_plain hup hplain rfl ((if_neg (not_not_intro hconn)).trans (if_neg ?_))
  simp [hasym, hhash]

end Negotiate

/-- Before the negotiation no message that needs it is answered (R306). -/
theorem answers_unnegotiated {go : State → State} (hi : exec i s = .next (spdmReady s r go)) (hconn : (spdmOf s r.port).conn ≠ 3) :
    answers i s (fun u => (spdmOf u r.port).resp = some (0x7F, toLe 1 0x04)) :=
  answers_error (exec_plain hup hplain hi (if_pos hconn))

section Negotiated
variable (hconn : (spdmOf s r.port).conn = 3)
include hconn

theorem exec_negotiated {go : State → State} {t : State} (hi : exec i s = .next (spdmReady s r go)) (hgo : go s = t) :
    exec i s = .next t :=
  exec_plain hup hplain hi ((if_neg (not_not_intro hconn)).trans hgo)

theorem exec_getDigests :
    exec (.getDigests r) s = .next (spdmAnswer s r 0x01 (if slot0 then [1] ++ chainDigest else [0])) := by
  refine exec_negotiated hup hplain hconn rfl ?_
  cases slot0 <;> rfl

/-! GET_CERTIFICATE (R304, R306). -/

/-- What GET_CERTIFICATE answers of the vendor chain from an offset on. -/
def chainPart (off want : Nat) : List Byte :=
  let len := min want (Config.vendorChain.length - off)
  toLe 2 len ++ toLe 2 (Config.vendorChain.length - off - len) ++ (Config.vendorChain.drop off).take len

theorem exec_getCertificate (hslot : fieldLe r.params 0 1 = 0) (hchain : slot0 = true)
    (hoff : fieldLe r.params 1 2 < Config.vendorChain.length) :
    exec (.getCertificate r) s = .next (spdmAnswer s r 0x02 (chainPart (fieldLe r.params 1 2) (fieldLe r.params 3 2))) := by
  refine exec_negotiated hup hplain hconn rfl (if_neg ?_)
  simp [hslot, hchain, hoff]

theorem exec_getCertificate_refused
    (h : ¬ (fieldLe r.params 0 1 = 0 ∧ slot0 = true ∧ fieldLe r.params 1 2 < Config.vendorChain.length)) :
    exec (.getCertificate r) s = .next (spdmError s r 0x01) := by
  refine exec_negotiated hup hplain hconn rfl (if_pos ?_)
  simpa [or_iff_not_imp_left] using h

theorem getCertificate_answers : answers (.getCertificate r) s (fun u => (spdmOf u r.port).resp =
    if fieldLe r.params 0 1 = 0 ∧ slot0 = true ∧ fieldLe r.params 1 2 < Config.vendorChain.length then
      some (2, chainPart (fieldLe r.params 1 2) (fieldLe r.params 3 2))
    else some (0x7F, toLe 1 1)) := by
  split
  next h =>
    obtain ⟨hslot, hchain, hoff⟩ := h
    exact ⟨_, exec_getCertificate hup hplain hconn hslot hchain hoff, spdmAnswer_resp ..⟩
  next h => exact answers_error (exec_getCertificate_refused hup hplain hconn h)

/-! CHALLENGE (R303, R305, R306). -/

/-- What CHALLENGE answers before its signature. -/
def challengeBody (s : State) (r : SpdmReq) : List Byte :=
  chainDigest ++ randomBytes (s.freeCtr + 1) 32 ++ (if fieldLe r.params 1 1 = 0 then [] else sm3Bytes (measurements s))

theorem exec_challenge_noChain (hchain : slot0 = false) : exec (.challenge r) s = .next (spdmError s r 0x01) := by
  refine exec_negotiated hup hplain hconn rfl (if_pos ?_)
  simp [hchain]

section Challenge
variable (hslot : fieldLe r.params 0 1 = 0) (hchain : slot0 = true)
include hslot hchain

theorem exec_challenge_decommissioned (hlife : s.otp.lifecycle = 3) : exec (.challenge r) s = .next (spdmError s r 0x05) := by
  refine exec_negotiated hup hplain hconn rfl ((if_neg ?_).trans (if_pos ?_))
  · simp [hslot, hchain]
  · simp [canSign, hlife]

theorem exec_challenge (hlife : s.otp.lifecycle ≠ 3) : exec (.challenge r) s =
    .next (spdmAnswer { s with freeCtr := s.freeCtr + 2 } r 0x03 (challengeBody s r ++ spdmSign s r (challengeBody s r))) := by
  refine exec_negotiated hup hplain hconn rfl ((if_neg ?_).trans (if_neg ?_))
  · simp [hslot, hchain]
  · simp [canSign, hlife]

end Challenge

theorem challenge_answers_decommissioned (hlife : s.otp.lifecycle = 3) (hslot : fieldLe r.params 0 1 = 0) :
    answers (.challenge r) s (fun u => (spdmOf u r.port).resp = some (0x7F, toLe 1 (if slot0 then 5 else 1))) := by
  cases hchain : slot0 with
  | false => exact answers_error (exec_challenge_noChain hup hplain hconn hchain)
  | true => exact answers_error (exec_challenge_decommissioned hup hplain hconn hslot hchain hlife)

theorem challenge_answers (hlife : s.otp.lifecycle ≠ 3) (hslot : fieldLe r.params 0 1 = 0) :
    answers (.challenge r) s (fun u => slot0 = true → u.freeCtr = s.freeCtr + 2 ∧
      (spdmOf u r.port).resp = some (3, challengeBody s r ++ spdmSign s r (challengeBody s r))) := by
  cases hchain : slot0 with
  | false => exact ⟨_, exec_challenge_noChain hup hplain hconn hchain, nofun⟩
  | true => exact ⟨_, exec_challenge hup hplain hconn hslot hchain hlife, fun _ => ⟨rfl, spdmAnswer_resp ..⟩⟩

/-! GET_MEASUREMENTS (R305, R307). -/

theorem exec_getMeasurements_switching (hphase : s.fw.phase = 4) : exec (.getMeasurements r) s = .next (spdmError s r 0x03) :=
  exec_negotiated hup hplain hconn rfl (if_pos hphase)

theorem exec_getMeasurements_unsigned (hphase : s.fw.phase ≠ 4) (hall : fieldLe r.params 1 1 = 0xFF)
    (hunsigned : bitOf (fieldLe r.params 0 1) 0 = false) : exec (.getMeasurements r) s =
      .next (spdmAnswer { s with freeCtr := s.freeCtr + 2 } r 0x60
        (toLe 1 0 ++ toLe 1 14 ++ toLe 3 (measurements s).length ++ measurements s ++ randomBytes (s.freeCtr + 1) 32)) := by
  refine exec_negotiated hup hplain hconn rfl ?_
  simp [hphase, hall, hunsigned]

theorem exec_getMeasurements_decommissioned (hphase : s.fw.phase ≠ 4) (hindex : fieldLe r.params 1 1 ≤ 14)
    (hsigned : bitOf (fieldLe r.params 0 1) 0 = true) (hlife : s.otp.lifecycle = 3) :
    exec (.getMeasurements r) s = .next (spdmError s r 0x05) := by
  refine exec_negotiated hup hplain hconn rfl ((if_neg hphase).trans ((if_neg ?_).trans (if_pos ?_)))
  · omega
  · simp [canSign, hsigned, hlife]

/-! KEY_EXCHANGE (R306). -/

theorem exec_keyExchange_full (hfirst : (mget (spdmOf s r.port).sessions 0).isSome = true)
    (hsecond : (mget (spdmOf s r.port).sessions 1).isSome = true) : exec (.keyExchange r) s = .next (spdmError s r 0x0A) := by
  have hnone : [0, 1].find? (fun k => (mget (spdmOf s r.port).sessions k).isNone) = none := by
    simp [Option.isSome_iff_ne_none.mp hfirst, Option.isSome_iff_ne_none.mp hsecond]
  refine exec_negotiated hup hplain hconn rfl ?_
  simp only [hnone]

section KeyExchange
variable (hfree : mget (spdmOf s r.port).sessions 0 = none)
include hfree

omit hup hplain hconn in
theorem firstFreeSession_zero : [0, 1].find? (fun k => (mget (spdmOf s r.port).sessions k).isNone) = some 0 := by
  simp [hfree]

theorem exec_keyExchange_noChain (hchain : slot0 = false) : exec (.keyExchange r) s = .next (spdmError s r 0x01) := by
  refine exec_negotiated hup hplain hconn rfl ?_
  simp only [firstFreeSession_zero hfree]
  exact if_pos (by simp [hchain])

/-- The port's responder with session 0 opened, in its handshake. -/
def sessionOpened (s : State) (p : Port) : State :=
  setSpdm s p { spdmOf s p with sessions := mset (spdmOf s p).sessions 0 { heard := nowNs s } }

/-- What KEY_EXCHANGE answers for session 0 before its signature. -/
def keyExchangeBody (s : State) : List Byte := toLe 2 0 ++ randomBytes (s.freeCtr + 1) 96

theorem exec_keyExchange (hchain : slot0 = true) (hlife : s.otp.lifecycle ≠ 3) (haead : (spdmOf s r.port).aead ≠ 0) :
    exec (.keyExchange r) s = .next (spdmAnswer { sessionOpened s r.port with freeCtr := s.freeCtr + 2 } r 0x64
      (keyExchangeBody s ++ spdmSign (sessionOpened s r.port) r (keyExchangeBody s))) := by
  refine exec_negotiated hup hplain hconn rfl ?_
  simp only [firstFreeSession_zero hfree]
  exact (if_neg (by simp [hchain])).trans (if_neg (by simp [canSign, hlife, haead]))

theorem keyExchange_answers (hlife : s.otp.lifecycle ≠ 3) (haead : (spdmOf s r.port).aead ≠ 0) :
    answers (.keyExchange r) s (fun u => slot0 = true →
      mget (spdmOf u r.port).sessions 0 = some { heard := nowNs s } ∧ ((spdmOf u r.port).resp.map (·.1)) = some 0x64) := by
  cases hchain : slot0 with
  | false => exact ⟨_, exec_keyExchange_noChain hup hplain hconn hfree hchain, nofun⟩
  | true =>
    refine ⟨_, exec_keyExchange hup hplain hconn hfree hchain hlife haead, fun _ => ?_⟩
    simp [sessionOpened]

end KeyExchange
end Negotiated
end Plain

/-! Messages of a session (R306, R402 to R405). -/

section Session
variable {k : Fin 2} {x : SpdmSession} (hk : r.session = some k) (hx : mget (spdmOf s r.port).sessions k.val = some x)
include hk hx

theorem exec_finish_established (hst : x.st ≠ .handshake) : exec (.finish r) s = .next (spdmError s r 0x04) := by
  show execFinish r s = _
  simp [execFinish, hup, hk, hx, hst]

section Handshake
variable (hst : x.st = .handshake)
include hst

theorem exec_finish (hproof : Config.finishOk (spdmOf s r.port).transcript r.params = true) : exec (.finish r) s =
    .next (spdmAnswer (setSpdm s r.port { spdmOf s r.port with
      sessions := mset (spdmOf s r.port).sessions k.val { x with st := .established, heard := nowNs s } }) r 0x65 []) := by
  show execFinish r s = _
  simp [execFinish, hup, hk, hx, hst, hproof]

theorem exec_finish_unproved (hproof : Config.finishOk (spdmOf s r.port).transcript r.params = false) : exec (.finish r) s =
    .next (spdmError (setSpdm s r.port { spdmOf s r.port with sessions := mdel (spdmOf s r.port).sessions k.val }) r 0x06) := by
  show execFinish r s = _
  simp [execFinish, hup, hk, hx, hst, hproof]

/-- A FINISH establishes the session, or ends it with a decryption error. -/
theorem finish_answers : answers (.finish r) s (fun u =>
    (Config.finishOk (spdmOf s r.port).transcript r.params = true →
      mget (spdmOf u r.port).sessions k.val = some { x with st := .established, heard := nowNs s } ∧ (spdmOf u r.port).resp = some (0x65, [])) ∧
    (Config.finishOk (spdmOf s r.port).transcript r.params = false →
      mget (spdmOf u r.port).sessions k.val = none ∧ (spdmOf u r.port).resp = some (0x7F, toLe 1 6))) := by
  cases hproof : Config.finishOk (spdmOf s r.port).transcript r.params with
  | false => exact ⟨_, exec_finish_unproved hup hk hx hst hproof, nofun, fun _ => by simp⟩
  | true => exact ⟨_, exec_finish hup hk hx hst hproof, fun _ => by simp, nofun⟩

end Handshake

/-- A session in its handshake carries nothing but FINISH (R306). -/
theorem answers_unestablished {go : Nat → SpdmSession → State → State} (hi : exec i s = .next (inSession s r go))
    (hst : x.st ≠ .established) : answers i s (fun u => (spdmOf u r.port).resp = some (0x7F, toLe 1 0x04)) := by
  refine answers_error (hi.trans (congrArg _ ?_))
  simp [inSession, spdmTake, hup, hk, hx, hst]

section Established
variable (hst : x.st = .established)
include hst

/-- A message of an established session is heard, then goes on (R306). -/
theorem exec_established {go : Nat → SpdmSession → State → State} {t : State} (hi : exec i s = .next (inSession s r go))
    (hgo : go k.val { x with heard := nowNs s } (sessionHeard s r.port k.val x) = t) : exec i s = .next t := by
  refine hi.trans (congrArg _ (Eq.trans ?_ hgo))
  simp [inSession, spdmTake, hup, hk, hx, hst, sessionHeard]

theorem exec_endSession : exec (.endSession r) s = .next (spdmAnswer (setSpdm (sessionHeard s r.port k.val x) r.port
    { spdmOf (sessionHeard s r.port k.val x) r.port with sessions := mdel (spdmOf (sessionHeard s r.port k.val x) r.port).sessions k.val })
    r 0x6C []) :=
  exec_established hup hk hx hst rfl rfl

theorem exec_spdmHeartbeat : exec (.spdmHeartbeat r) s = .next (spdmAnswer (sessionHeard s r.port k.val x) r 0x68 []) :=
  exec_established hup hk hx hst rfl rfl

/-! KEY_UPDATE (R306). -/

theorem exec_keyUpdate_unknown (hop : fieldLe r.params 0 1 = 0 ∨ 3 < fieldLe r.params 0 1) : exec (.keyUpdate r) s =
    .next (spdmError (sessionHeard s r.port k.val x) r 0x01) :=
  exec_established hup hk hx hst rfl (if_pos hop)

theorem exec_keyUpdate (hlow : 0 < fieldLe r.params 0 1) (hhigh : fieldLe r.params 0 1 ≤ 3) : exec (.keyUpdate r) s =
    .next (spdmAnswer (setSpdm (sessionHeard s r.port k.val x) r.port { spdmOf (sessionHeard s r.port k.val x) r.port with
      sessions := mset (spdmOf (sessionHeard s r.port k.val x) r.port).sessions k.val
        { x with heard := nowNs s, updates := if fieldLe r.params 0 1 = 3 then x.updates else x.updates + 1 } })
      r 0x69 (toLe 1 (fieldLe r.params 0 1))) :=
  exec_established hup hk hx hst rfl (if_neg (by omega))

theorem keyUpdate_answers (hlow : 0 < fieldLe r.params 0 1) (hhigh : fieldLe r.params 0 1 ≤ 3) :
    answers (.keyUpdate r) s (fun u => (spdmOf u r.port).resp = some (0x69, toLe 1 (fieldLe r.params 0 1)) ∧
      mget (spdmOf u r.port).sessions k.val =
        some { x with heard := nowNs s, updates := if fieldLe r.params 0 1 = 3 then x.updates else x.updates + 1 }) :=
  answers_reply (exec_keyUpdate hup hk hx hst hlow hhigh) (by simp)

/-! IDE_KM and TDISP (R402 to R405). -/

theorem exec_vendorDefined_ide (hprotocol : fieldLe r.params 0 1 = 0) :
    exec (.vendorDefinedRequest r) s = .next (ideKm (sessionHeard s r.port k.val x) r) :=
  exec_established hup hk hx hst rfl (by simp only [hprotocol])

theorem exec_vendorDefined_tdisp (hprotocol : fieldLe r.params 0 1 = 1) :
    exec (.vendorDefinedRequest r) s = .next (tdispMsg (sessionHeard s r.port k.val x) r) :=
  exec_established hup hk hx hst rfl (by simp only [hprotocol])

theorem exec_vendorDefined_unknown (hprotocol : 1 < fieldLe r.params 0 1) :
    exec (.vendorDefinedRequest r) s = .next (spdmError (sessionHeard s r.port k.val x) r 0x07) := by
  refine exec_established hup hk hx hst rfl ?_
  split
  · omega
  · omega
  · rfl

end Established
end Session
end Responder

section Vendor
variable {s : State} {r : SpdmReq}

/-- The place of the key slot that an IDE_KM message names (R402). -/
def ideSlotAt (r : SpdmReq) : Nat := r.port.num * 4 + fieldLe r.params 2 1

/-- That key slot, made secure or not (R402). -/
def ideSecured (s : State) (r : SpdmReq) (on : Bool) : State :=
  { s with ide := tset {} s.ide (ideSlotAt r) { tget {} s.ide (ideSlotAt r) with secure := on } }

theorem tget_ideSecured (s : State) (r : SpdmReq) (on : Bool) :
    tget {} (ideSecured s r on).ide (ideSlotAt r) = { tget {} s.ide (ideSlotAt r) with secure := on } :=
  tget_tset_same ..

/-- K_SET_GO of a complete key set secures the stream (R402). -/
theorem ideKm_go (hmsg : fieldLe r.params 1 1 = 4) (hslot : fieldLe r.params 2 1 < 4)
    (hkeys : keysComplete (tget {} s.ide (ideSlotAt r)) (fieldLe r.params 3 1 % 2) = true) :
    ideKm s r = spdmAnswer (ideSecured s r true) r 0x7E ([0, 6] ++ toLe 1 (fieldLe r.params 2 1)) := by
  refine (if_neg (Nat.not_le.mpr hslot)).trans ?_
  simp only [hmsg]
  exact if_neg (by simpa [ideSlotAt] using hkeys)

/-- K_SET_STOP makes it insecure again (R402). -/
theorem ideKm_stop (hmsg : fieldLe r.params 1 1 = 5) (hslot : fieldLe r.params 2 1 < 4) :
    ideKm s r = spdmAnswer (ideSecured s r false) r 0x7E ([0, 6] ++ toLe 1 (fieldLe r.params 2 1)) := by
  refine (if_neg (Nat.not_le.mpr hslot)).trans ?_
  simp only [hmsg]
  rfl

section Start
variable (hmsg : fieldLe r.params 1 1 = 0x86) (hvf : fieldLe r.params 2 2 < 1024)
include hmsg hvf

/-- START_INTERFACE_REQUEST with the nonce of the lock runs a locked interface (R404). -/
theorem tdispMsg_start (hlocked : (vfOf s r.port (fieldLe r.params 2 2)).tdisp = .locked)
    (hnonce : slice r.params 4 32 = (vfOf s r.port (fieldLe r.params 2 2)).tdiNonce) : tdispMsg s r =
      spdmAnswer (setVf s r.port (fieldLe r.params 2 2) { vfOf s r.port (fieldLe r.params 2 2) with tdisp := .run, tdiNonce := [] })
        r 0x7E [1, 0x06] := by
  refine (if_neg (Nat.not_le.mpr hvf)).trans ?_
  simp only [hmsg]
  exact if_pos ⟨hlocked, hnonce⟩

theorem tdispMsg_start_refused (hlocked : (vfOf s r.port (fieldLe r.params 2 2)).tdisp ≠ .locked) :
    tdispMsg s r = spdmAnswer s r 0x7E [1, 0x7F, 4] := by
  refine (if_neg (Nat.not_le.mpr hvf)).trans ?_
  simp only [hmsg]
  exact if_neg fun h => hlocked h.1

end Start
end Vendor

end Sys2Proof.Machine

namespace Sys2Proof.Proofs
open Sys2Proof.Machine

/-- Settles O55: each message by the equation of its case; one that has no session, or an established one, goes on (exec_plain,
exec_established). -/
theorem spdmResponder : Obligations.SpdmResponder := by
  unfold Obligations.SpdmResponder
  intro s r k x
  dsimp only
  refine ⟨fun hup => answers_reply (exec_getVersion hup) (by simp), fun hup hplain => ?_, fun hup hk hx => ?_⟩
  · refine ⟨fun h => answers_error (exec_getCapabilities_early hup hplain h),
      fun h => answers_reply (exec_getCapabilities hup hplain h) (by simp),
      fun h => answers_error (exec_negotiateAlgorithms_early hup hplain h),
      fun h hoffer => answers_error (exec_negotiateAlgorithms_unfit hup hplain h hoffer),
      fun h hasym hhash => answers_reply (exec_negotiateAlgorithms hup hplain h hasym hhash) (by simp [aeadChosen]),
      fun h => ⟨answers_unnegotiated hup hplain rfl h, answers_unnegotiated hup hplain rfl h, answers_unnegotiated hup hplain rfl h,
        answers_unnegotiated hup hplain rfl h, answers_unnegotiated hup hplain rfl h⟩, fun h => ?_⟩
    exact ⟨answers_reply (exec_getDigests hup hplain h) trivial, getCertificate_answers hup hplain h,
      challenge_answers_decommissioned hup hplain h, challenge_answers hup hplain h,
      fun hphase => answers_error (exec_getMeasurements_switching hup hplain h hphase),
      fun hphase hall hunsigned => answers_reply (exec_getMeasurements_unsigned hup hplain h hphase hall hunsigned) rfl,
      fun hphase hindex hsigned hlife => answers_error (exec_getMeasurements_decommissioned hup hplain h hphase hindex hsigned hlife),
      fun hfree hlife haead => keyExchange_answers hup hplain h hfree hlife haead,
      fun hfirst hsecond => answers_error (exec_keyExchange_full hup hplain h hfirst hsecond)⟩
  · refine ⟨fun hst => finish_answers hup hk hx hst, fun hst => answers_error (exec_finish_established hup hk hx hst),
      fun hst => ⟨answers_unestablished hup hk hx rfl hst, answers_unestablished hup hk hx rfl hst, answers_unestablished hup hk hx rfl hst,
        answers_unestablished hup hk hx rfl hst⟩, fun hst => ?_⟩
    refine ⟨answers_reply (exec_endSession hup hk hx hst) (by simp), fun hop => ?_, fun hop => ?_,
      fun hop => ⟨_, exec_keyUpdate_unknown hup hk hx hst hop, spdmError_resp ..⟩,
      answers_reply (exec_spdmHeartbeat hup hk hx hst) (by simp [sessionHeard]), ?_, ?_, ?_, ?_,
      fun hprotocol => ⟨_, exec_vendorDefined_unknown hup hk hx hst hprotocol, spdmError_resp ..⟩⟩
    · have h := keyUpdate_answers hup hk hx hst (by omega) (by omega)
      rwa [if_neg (by omega)] at h
    · have h := keyUpdate_answers hup hk hx hst (by omega) (by omega)
      rwa [if_pos hop, hop] at h
    · intro hprotocol hmsg hvf hlocked hnonce
      exact answers_reply ((exec_vendorDefined_tdisp hup hk hx hst hprotocol).trans (congrArg _ (tdispMsg_start hmsg hvf hlocked hnonce))) (by simp)
    · intro hprotocol hmsg hvf hlocked
      exact answers_reply ((exec_vendorDefined_tdisp hup hk hx hst hprotocol).trans (congrArg _ (tdispMsg_start_refused hmsg hvf hlocked))) rfl
    · intro hprotocol hmsg hslot hkeys
      exact ⟨_, (exec_vendorDefined_ide hup hk hx hst hprotocol).trans (congrArg _ (ideKm_go hmsg hslot hkeys)), tget_ideSecured ..⟩
    · intro hprotocol hmsg hslot
      exact ⟨_, (exec_vendorDefined_ide hup hk hx hst hprotocol).trans (congrArg _ (ideKm_stop hmsg hslot)), tget_ideSecured ..⟩

end Sys2Proof.Proofs
end

section
/-! PROOFS. The block as a whole (R421, R446, R466): the reset state, what a step runs, and that no step unburns OTP. -/

namespace Sys2Proof.Machine

/-! Commands. -/

theorem exec_next (c : Instr) (s : State) : ∃ t, exec c s = .next t := by
  cases c
  case completionTimeout w =>
    show ∃ t, execCompletionTimeout w s = .next t
    unfold execCompletionTimeout
    split <;> exact ⟨_, rfl⟩
  all_goals exact ⟨_, rfl⟩

/-- Each command by the lemma of Laws/Kept*.lean that says what it leaves alone. -/
theorem keeps_exec {c : Instr} {s t : State} (h : exec c s = .next t) : Keeps s t := by
  cases c with
  | slipWrite => exact keeps_execSlipWrite (h := h) ..
  | slippedDescriptorAccept => exact keeps_execSlippedDescriptorAccept (h := h) ..
  | sqTailDoorbell => exact keeps_execSqTailDoorbell (h := h) ..
  | descriptorFetch => exact keeps_execDescriptorFetch (h := h) ..
  | descriptorFetchComplete => exact keeps_execDescriptorFetchComplete (h := h) ..
  | eqHeadDoorbell => exact keeps_execEqHeadDoorbell (h := h) ..
  | chainTail => exact keeps_execChainTail (h := h) ..
  | acceptedRecordStored => exact keeps_execAcceptedRecordStored (h := h) ..
  | creditTimeExpiry => exact keeps_execCreditTimeExpiry (h := h) ..
  | consignmentDispatch => exact keeps_execConsignmentDispatch (h := h) ..
  | sourceReadComplete => exact keeps_execSourceReadComplete (h := h) ..
  | commitPoint => exact keeps_execCommitPoint (h := h) ..
  | commitReport => exact keeps_execCommitReport (h := h) ..
  | builtinJobEnd => exact keeps_execBuiltinJobEnd (h := h) ..
  | mirrorBasinAck => exact keeps_execMirrorBasinAck (h := h) ..
  | hostBatchClose => exact keeps_execHostBatchClose (h := h) ..
  | hostFlushReadComplete => exact keeps_execHostFlushReadComplete (h := h) ..
  | deadlineExpiry => exact keeps_execDeadlineExpiry (h := h) ..
  | deadlineGraceExpiry => exact keeps_execDeadlineGraceExpiry (h := h) ..
  | replayDecide => exact keeps_execReplayDecide (h := h) ..
  | pathWaitExpiry => exact keeps_execPathWaitExpiry (h := h) ..
  | portLinkDown => exact keeps_execPortLinkDown (h := h) ..
  | portLinkUp => exact keeps_execPortLinkUp (h := h) ..
  | quaysideHalfReset => exact keeps_execQuaysideHalfReset (h := h) ..
  | tideBoundary => exact keeps_execTideBoundary (h := h) ..
  | sealReport => exact keeps_execSealReport (h := h) ..
  | tideSigned => exact keeps_execTideSigned (h := h) ..
  | partitionMapChangeEffect => exact keeps_execPartitionMapChangeEffect (h := h) ..
  | illegal th w => exact keeps_execIllegal th w s t h
  | add => exact keeps_execAdd (h := h) ..
  | adds => exact keeps_execAdds (h := h) ..
  | addc => exact keeps_execAddc (h := h) ..
  | sub => exact keeps_execSub (h := h) ..
  | subs => exact keeps_execSubs (h := h) ..
  | subb => exact keeps_execSubb (h := h) ..
  | slt => exact keeps_execSlt (h := h) ..
  | sltu => exact keeps_execSltu (h := h) ..
  | and => exact keeps_execAnd (h := h) ..
  | or => exact keeps_execOr (h := h) ..
  | xor => exact keeps_execXor (h := h) ..
  | andn => exact keeps_execAndn (h := h) ..
  | sll => exact keeps_execSll (h := h) ..
  | srl => exact keeps_execSrl (h := h) ..
  | sra => exact keeps_execSra (h := h) ..
  | rol => exact keeps_execRol (h := h) ..
  | mul => exact keeps_execMul (h := h) ..
  | mulh => exact keeps_execMulh (h := h) ..
  | mulhu => exact keeps_execMulhu (h := h) ..
  | mulw => exact keeps_execMulw (h := h) ..
  | mulwu => exact keeps_execMulwu (h := h) ..
  | div => exact keeps_execDiv (h := h) ..
  | divu => exact keeps_execDivu (h := h) ..
  | rem => exact keeps_execRem (h := h) ..
  | remu => exact keeps_execRemu (h := h) ..
  | dadd => exact keeps_execDadd (h := h) ..
  | daddc => exact keeps_execDaddc (h := h) ..
  | dsub => exact keeps_execDsub (h := h) ..
  | dsubb => exact keeps_execDsubb (h := h) ..
  | dcmp => exact keeps_execDcmp (h := h) ..
  | addi => exact keeps_execAddi (h := h) ..
  | andi => exact keeps_execAndi (h := h) ..
  | ori => exact keeps_execOri (h := h) ..
  | xori => exact keeps_execXori (h := h) ..
  | slli => exact keeps_execSlli (h := h) ..
  | srli => exact keeps_execSrli (h := h) ..
  | srai => exact keeps_execSrai (h := h) ..
  | slti => exact keeps_execSlti (h := h) ..
  | sltui => exact keeps_execSltui (h := h) ..
  | lui => exact keeps_execLui (h := h) ..
  | orli => exact keeps_execOrli (h := h) ..
  | lb => exact keeps_execLb (h := h) ..
  | lbu => exact keeps_execLbu (h := h) ..
  | lh => exact keeps_execLh (h := h) ..
  | lhu => exact keeps_execLhu (h := h) ..
  | lw => exact keeps_execLw (h := h) ..
  | sb => exact keeps_execSb (h := h) ..
  | sh => exact keeps_execSh (h := h) ..
  | sw => exact keeps_execSw (h := h) ..
  | lp => exact keeps_execLp (h := h) ..
  | sp => exact keeps_execSp (h := h) ..
  | fld => exact keeps_execFld (h := h) ..
  | fsd => exact keeps_execFsd (h := h) ..
  | fls => exact keeps_execFls (h := h) ..
  | fss => exact keeps_execFss (h := h) ..
  | lbf => exact keeps_execLbf (h := h) ..
  | lbuf => exact keeps_execLbuf (h := h) ..
  | lhf => exact keeps_execLhf (h := h) ..
  | lhuf => exact keeps_execLhuf (h := h) ..
  | lwf => exact keeps_execLwf (h := h) ..
  | lpf => exact keeps_execLpf (h := h) ..
  | fldf => exact keeps_execFldf (h := h) ..
  | flsf => exact keeps_execFlsf (h := h) ..
  | sbf => exact keeps_execSbf (h := h) ..
  | shf => exact keeps_execShf (h := h) ..
  | swf => exact keeps_execSwf (h := h) ..
  | spf => exact keeps_execSpf (h := h) ..
  | fsdf => exact keeps_execFsdf (h := h) ..
  | fssf => exact keeps_execFssf (h := h) ..
  | amoadd => exact keeps_execAmoadd (h := h) ..
  | amoswap => exact keeps_execAmoswap (h := h) ..
  | amocas => exact keeps_execAmocas (h := h) ..
  | amomin => exact keeps_execAmomin (h := h) ..
  | amomax => exact keeps_execAmomax (h := h) ..
  | amopAdd => exact keeps_execAmopAdd (h := h) ..
  | amopSwap => exact keeps_execAmopSwap (h := h) ..
  | amopCas => exact keeps_execAmopCas (h := h) ..
  | amopMin => exact keeps_execAmopMin (h := h) ..
  | amopMax => exact keeps_execAmopMax (h := h) ..
  | amofAdd => exact keeps_execAmofAdd (h := h) ..
  | amofSwap => exact keeps_execAmofSwap (h := h) ..
  | amofCas => exact keeps_execAmofCas (h := h) ..
  | amofMin => exact keeps_execAmofMin (h := h) ..
  | amofMax => exact keeps_execAmofMax (h := h) ..
  | amopfAdd => exact keeps_execAmopfAdd (h := h) ..
  | amopfSwap => exact keeps_execAmopfSwap (h := h) ..
  | amopfCas => exact keeps_execAmopfCas (h := h) ..
  | amopfMin => exact keeps_execAmopfMin (h := h) ..
  | amopfMax => exact keeps_execAmopfMax (h := h) ..
  | beqz => exact keeps_execBeqz (h := h) ..
  | bnez => exact keeps_execBnez (h := h) ..
  | bltz => exact keeps_execBltz (h := h) ..
  | bgez => exact keeps_execBgez (h := h) ..
  | bgtz => exact keeps_execBgtz (h := h) ..
  | blez => exact keeps_execBlez (h := h) ..
  | bcs => exact keeps_execBcs (h := h) ..
  | bcc => exact keeps_execBcc (h := h) ..
  | beq => exact keeps_execBeq (h := h) ..
  | bne => exact keeps_execBne (h := h) ..
  | blt => exact keeps_execBlt (h := h) ..
  | bge => exact keeps_execBge (h := h) ..
  | bltu => exact keeps_execBltu (h := h) ..
  | bgeu => exact keeps_execBgeu (h := h) ..
  | j => exact keeps_execJ (h := h) ..
  | callg1 => exact keeps_execCallg1 (h := h) ..
  | callg2 => exact keeps_execCallg2 (h := h) ..
  | callg3 => exact keeps_execCallg3 (h := h) ..
  | jr => exact keeps_execJr (h := h) ..
  | callrg1 => exact keeps_execCallrg1 (h := h) ..
  | callrg2 => exact keeps_execCallrg2 (h := h) ..
  | callrg3 => exact keeps_execCallrg3 (h := h) ..
  | ret => exact keeps_execRet (h := h) ..
  | rets => exact keeps_execRets (h := h) ..
  | callu => exact keeps_execCallu (h := h) ..
  | syscall => exact keeps_execSyscall (h := h) ..
  | yield th d a b => exact keeps_execYield th d a b s t h
  | mfs => exact keeps_execMfs (h := h) ..
  | mts => exact keeps_execMts (h := h) ..
  | waitcp => exact keeps_execWaitcp (h := h) ..
  | rdtime => exact keeps_execRdtime (h := h) ..
  | tlbinv => exact keeps_execTlbinv (h := h) ..
  | fence => exact keeps_execFence (h := h) ..
  | fenceLl => exact keeps_execFenceLl (h := h) ..
  | fenceSs => exact keeps_execFenceSs (h := h) ..
  | moor => exact keeps_execMoor (h := h) ..
  | storeCompletion => exact keeps_execStoreCompletion (h := h) ..
  | moorTimerExpiry => exact keeps_execMoorTimerExpiry (h := h) ..
  | uncachedAdoptionTimeout => exact keeps_execUncachedAdoptionTimeout (h := h) ..
  | commit => exact keeps_execCommit (h := h) ..
  | abort => exact keeps_execAbort (h := h) ..
  | dclean => exact keeps_execDclean (h := h) ..
  | dinv => exact keeps_execDinv (h := h) ..
  | dclinv => exact keeps_execDclinv (h := h) ..
  | iinv => exact keeps_execIinv (h := h) ..
  | rclean => exact keeps_execRclean (h := h) ..
  | rinv => exact keeps_execRinv (h := h) ..
  | clock => exact keeps_execClock (h := h) ..
  | cunlock => exact keeps_execCunlock (h := h) ..
  | faddD => exact keeps_execFaddD (h := h) ..
  | fsubD => exact keeps_execFsubD (h := h) ..
  | fmulD => exact keeps_execFmulD (h := h) ..
  | fdivD => exact keeps_execFdivD (h := h) ..
  | fsqrtD => exact keeps_execFsqrtD (h := h) ..
  | fminD => exact keeps_execFminD (h := h) ..
  | fmaxD => exact keeps_execFmaxD (h := h) ..
  | fabsD => exact keeps_execFabsD (h := h) ..
  | fnegD => exact keeps_execFnegD (h := h) ..
  | fmovD => exact keeps_execFmovD (h := h) ..
  | faddS => exact keeps_execFaddS (h := h) ..
  | fsubS => exact keeps_execFsubS (h := h) ..
  | fmulS => exact keeps_execFmulS (h := h) ..
  | fdivS => exact keeps_execFdivS (h := h) ..
  | fsqrtS => exact keeps_execFsqrtS (h := h) ..
  | fminS => exact keeps_execFminS (h := h) ..
  | fmaxS => exact keeps_execFmaxS (h := h) ..
  | fabsS => exact keeps_execFabsS (h := h) ..
  | fnegS => exact keeps_execFnegS (h := h) ..
  | fmovS => exact keeps_execFmovS (h := h) ..
  | fmaddD => exact keeps_execFmaddD (h := h) ..
  | fmsubD => exact keeps_execFmsubD (h := h) ..
  | fnmaddD => exact keeps_execFnmaddD (h := h) ..
  | fnmsubD => exact keeps_execFnmsubD (h := h) ..
  | fmaddS => exact keeps_execFmaddS (h := h) ..
  | fmsubS => exact keeps_execFmsubS (h := h) ..
  | fnmaddS => exact keeps_execFnmaddS (h := h) ..
  | fnmsubS => exact keeps_execFnmsubS (h := h) ..
  | fcvtDS => exact keeps_execFcvtDS (h := h) ..
  | fcvtSD => exact keeps_execFcvtSD (h := h) ..
  | fcvtDW => exact keeps_execFcvtDW (h := h) ..
  | fcvtDWu => exact keeps_execFcvtDWu (h := h) ..
  | fcvtWD => exact keeps_execFcvtWD (h := h) ..
  | fcvtWuD => exact keeps_execFcvtWuD (h := h) ..
  | fcvtDP => exact keeps_execFcvtDP (h := h) ..
  | fcvtPD => exact keeps_execFcvtPD (h := h) ..
  | fmvx => exact keeps_execFmvx (h := h) ..
  | fmvf => exact keeps_execFmvf (h := h) ..
  | feqD => exact keeps_execFeqD (h := h) ..
  | fltD => exact keeps_execFltD (h := h) ..
  | fleD => exact keeps_execFleD (h := h) ..
  | feqS => exact keeps_execFeqS (h := h) ..
  | fltS => exact keeps_execFltS (h := h) ..
  | fleS => exact keeps_execFleS (h := h) ..
  | cp4ToCp7 th n cd ca cfn => exact keeps_execCp4ToCp7 th n cd ca cfn s t h
  | parse => exact keeps_execParse (h := h) ..
  | build => exact keeps_execBuild (h := h) ..
  | xmlTokens => exact keeps_execXmlTokens (h := h) ..
  | convert => exact keeps_execConvert (h := h) ..
  | keyDerive => exact keeps_execKeyDerive (h := h) ..
  | keyDukpt => exact keeps_execKeyDukpt (h := h) ..
  | keyLoad => exact keeps_execKeyLoad (h := h) ..
  | keyUnwrap => exact keeps_execKeyUnwrap (h := h) ..
  | keyWrap => exact keeps_execKeyWrap (h := h) ..
  | encrypt => exact keeps_execEncrypt (h := h) ..
  | decrypt => exact keeps_execDecrypt (h := h) ..
  | cp1MacGenerate => exact keeps_execCp1MacGenerate (h := h) ..
  | cp1MacVerify => exact keeps_execCp1MacVerify (h := h) ..
  | cp1PinTranslate => exact keeps_execCp1PinTranslate (h := h) ..
  | emvVerify => exact keeps_execEmvVerify (h := h) ..
  | slotClear => exact keeps_execSlotClear (h := h) ..
  | slotInfo => exact keeps_execSlotInfo (h := h) ..
  | sm3 => exact keeps_execSm3 (h := h) ..
  | hmacSm3 => exact keeps_execHmacSm3 (h := h) ..
  | submit => exact keeps_execSubmit (h := h) ..
  | coprocessorResultPosted => exact keeps_execCoprocessorResultPosted (h := h) ..
  | jobPosted => exact keeps_execJobPosted (h := h) ..
  | strongroomRequest => exact keeps_execStrongroomRequest (h := h) ..
  | keyDelivery => exact keeps_execKeyDelivery (h := h) ..
  | keyColdLoad => exact keeps_execKeyColdLoad (h := h) ..
  | journalBatchClose => exact keeps_execJournalBatchClose (h := h) ..
  | journalPageProgrammed => exact keeps_execJournalPageProgrammed (h := h) ..
  | componentSequenceTimeout => exact keeps_execComponentSequenceTimeout (h := h) ..
  | bulkEncrypt => exact keeps_execBulkEncrypt (h := h) ..
  | bulkDecrypt => exact keeps_execBulkDecrypt (h := h) ..
  | compress => exact keeps_execCompress (h := h) ..
  | decompress => exact keeps_execDecompress (h := h) ..
  | sign => exact keeps_execSign (h := h) ..
  | verify => exact keeps_execVerify (h := h) ..
  | hash => exact keeps_execHash (h := h) ..
  | pinTranslate => exact keeps_execPinTranslate (h := h) ..
  | macGenerate => exact keeps_execMacGenerate (h := h) ..
  | macVerify => exact keeps_execMacVerify (h := h) ..
  | proof => exact keeps_execProof (h := h) ..
  | echo => exact keeps_execEcho (h := h) ..
  | laneQuantumEnd => exact keeps_execLaneQuantumEnd (h := h) ..
  | scuttleComplete => exact keeps_execScuttleComplete (h := h) ..
  | derrickStepEnd => exact keeps_execDerrickStepEnd (h := h) ..
  | stowageBlockEnd => exact keeps_execStowageBlockEnd (h := h) ..
  | parkedAccessResume => exact keeps_execParkedAccessResume (h := h) ..
  | signalEntry => exact keeps_execSignalEntry (h := h) ..
  | mismatchDetected => exact keeps_execMismatchDetected (h := h) ..
  | selftestDone => exact keeps_execSelftestDone (h := h) ..
  | handover => exact keeps_execHandover (h := h) ..
  | berthReconfigure => exact keeps_execBerthReconfigure (h := h) ..
  | dailyComparatorTest => exact keeps_execDailyComparatorTest (h := h) ..
  | gets => exact keeps_execGets (h := h) ..
  | getm => exact keeps_execGetm (h := h) ..
  | upgr => exact keeps_execUpgr (h := h) ..
  | putm => exact keeps_execPutm (h := h) ..
  | puto => exact keeps_execPuto (h := h) ..
  | pute => exact keeps_execPute (h := h) ..
  | puts => exact keeps_execPuts (h := h) ..
  | iord => exact keeps_execIord (h := h) ..
  | iowr => exact keeps_execIowr (h := h) ..
  | amo => exact keeps_execAmo (h := h) ..
  | data => exact keeps_execData (h := h) ..
  | fwdgets => exact keeps_execFwdgets (h := h) ..
  | fwdgetm => exact keeps_execFwdgetm (h := h) ..
  | inv => exact keeps_execInv (h := h) ..
  | grant => exact keeps_execGrant (h := h) ..
  | nack => exact keeps_execNack (h := h) ..
  | nackRetry => exact keeps_execNackRetry (h := h) ..
  | wback => exact keeps_execWback (h := h) ..
  | wbstale => exact keeps_execWbstale (h := h) ..
  | fwddata => exact keeps_execFwddata (h := h) ..
  | fwdack => exact keeps_execFwdack (h := h) ..
  | invack => exact keeps_execInvack (h := h) ..
  | coherenceTimeout => exact keeps_execCoherenceTimeout (h := h) ..
  | adoptionComplete => exact keeps_execAdoptionComplete (h := h) ..
  | basinResetDone => exact keeps_execBasinResetDone (h := h) ..
  | fairwayRetrain => exact keeps_execFairwayRetrain (h := h) ..
  | patrolScrub => exact keeps_execPatrolScrub (h := h) ..
  | l2Clean => exact keeps_execL2Clean (h := h) ..
  | l2Inv => exact keeps_execL2Inv (h := h) ..
  | l2En => exact keeps_execL2En (h := h) ..
  | lockWays => exact keeps_execLockWays (h := h) ..
  | pierL1dEn => exact keeps_execPierL1dEn (h := h) ..
  | pierL1iEn => exact keeps_execPierL1iEn (h := h) ..
  | pierL1Inv => exact keeps_execPierL1Inv (h := h) ..
  | pierEvqHead => exact keeps_execPierEvqHead (h := h) ..
  | evtPost => exact keeps_execEvtPost (h := h) ..
  | sourceArrival => exact keeps_execSourceArrival (h := h) ..
  | sourceTimeThreshold => exact keeps_execSourceTimeThreshold (h := h) ..
  | sourceRecordWrite => exact keeps_execSourceRecordWrite (h := h) ..
  | evtCtl => exact keeps_execEvtCtl (h := h) ..
  | evtStatPendingClear => exact keeps_execEvtStatPendingClear (h := h) ..
  | lighthouseAlarm => exact keeps_execLighthouseAlarm (h := h) ..
  | eqVectorDue => exact keeps_execEqVectorDue (h := h) ..
  | msixUnmask => exact keeps_execMsixUnmask (h := h) ..
  | dStateChange => exact keeps_execDStateChange (h := h) ..
  | pmeEnSet => exact keeps_execPmeEnSet (h := h) ..
  | flr => exact keeps_execFlr (h := h) ..
  | flrDrainTimeout => exact keeps_execFlrDrainTimeout (h := h) ..
  | perst => exact keeps_execPerst (h := h) ..
  | hotReset => exact keeps_execHotReset (h := h) ..
  | linkDisable => exact keeps_execLinkDisable (h := h) ..
  | pf0Flr => exact keeps_execPf0Flr (h := h) ..
  | vfEnableClear => exact keeps_execVfEnableClear (h := h) ..
  | vfInService => exact keeps_execVfInService (h := h) ..
  | quiesceDrainComplete => exact keeps_execQuiesceDrainComplete (h := h) ..
  | quiesceDrainLimit => exact keeps_execQuiesceDrainLimit (h := h) ..
  | resumeSlotsFreed => exact keeps_execResumeSlotsFreed (h := h) ..
  | helmLeaseExpiry => exact keeps_execHelmLeaseExpiry (h := h) ..
  | helmLease75 => exact keeps_execHelmLease75 (h := h) ..
  | atsInvalidationRequest => exact keeps_execAtsInvalidationRequest (h := h) ..
  | ideIntegrityFailure => exact keeps_execIdeIntegrityFailure (h := h) ..
  | lockInterfaceRequest => exact keeps_execLockInterfaceRequest (h := h) ..
  | stopInterfaceRequest => exact keeps_execStopInterfaceRequest (h := h) ..
  | getVersion => exact keeps_execGetVersion (h := h) ..
  | getCapabilities => exact keeps_execGetCapabilities (h := h) ..
  | negotiateAlgorithms => exact keeps_execNegotiateAlgorithms (h := h) ..
  | getDigests => exact keeps_execGetDigests (h := h) ..
  | getCertificate => exact keeps_execGetCertificate (h := h) ..
  | challenge => exact keeps_execChallenge (h := h) ..
  | getMeasurements => exact keeps_execGetMeasurements (h := h) ..
  | keyExchange => exact keeps_execKeyExchange (h := h) ..
  | finish => exact keeps_execFinish (h := h) ..
  | endSession => exact keeps_execEndSession (h := h) ..
  | keyUpdate => exact keeps_execKeyUpdate (h := h) ..
  | spdmHeartbeat => exact keeps_execSpdmHeartbeat (h := h) ..
  | vendorDefinedRequest => exact keeps_execVendorDefinedRequest (h := h) ..
  | regulatorVoltageReported => exact keeps_execRegulatorVoltageReported (h := h) ..
  | avsNoAnswer => exact keeps_execAvsNoAnswer (h := h) ..
  | droopDetected => exact keeps_execDroopDetected (h := h) ..
  | barometerUpdate => exact keeps_execBarometerUpdate (h := h) ..
  | galeExit => exact keeps_execGaleExit (h := h) ..
  | islandReset => exact keeps_execIslandReset (h := h) ..
  | islandResetExit => exact keeps_execIslandResetExit (h := h) ..
  | calmEntry => exact keeps_execCalmEntry (h := h) ..
  | doldrumsEntry => exact keeps_execDoldrumsEntry (h := h) ..
  | wakeComplete => exact keeps_execWakeComplete (h := h) ..
  | pwrGoodCoreRise => exact keeps_execPwrGoodCoreRise (h := h) ..
  | pwrGoodCoreFall => exact keeps_execPwrGoodCoreFall (h := h) ..
  | pwrGoodAonFall => exact keeps_execPwrGoodAonFall (h := h) ..
  | harbReset => exact keeps_execHarbReset (h := h) ..
  | serviceStart => exact keeps_execServiceStart (h := h) ..
  | bootFailed => exact keeps_execBootFailed (h := h) ..
  | flashOwnAssert => exact keeps_execFlashOwnAssert (h := h) ..
  | flashOwnRelease => exact keeps_execFlashOwnRelease (h := h) ..
  | ppsEdge => exact keeps_execPpsEdge (h := h) ..
  | ppsLockLost => exact keeps_execPpsLockLost (h := h) ..
  | tenmhzLost => exact keeps_execTenmhzLost (h := h) ..
  | probationExpiry => exact keeps_execProbationExpiry (h := h) ..
  | probationLimitNear => exact keeps_execProbationLimitNear (h := h) ..
  | armedWaitExpiry => exact keeps_execArmedWaitExpiry (h := h) ..
  | componentReady => exact keeps_execComponentReady (h := h) ..
  | readyCheckTimeout => exact keeps_execReadyCheckTimeout (h := h) ..
  | pilotRestart => exact keeps_execPilotRestart (h := h) ..
  | mbTimeout => exact keeps_execMbTimeout (h := h) ..
  | getDeviceInfo => exact keeps_execGetDeviceInfo (h := h) ..
  | getCaps => exact keeps_execGetCaps (h := h) ..
  | helmAcquire => exact keeps_execHelmAcquire (h := h) ..
  | helmRelease => exact keeps_execHelmRelease (h := h) ..
  | timeSet => exact keeps_execTimeSet (h := h) ..
  | tenantCreate => exact keeps_execTenantCreate (h := h) ..
  | tenantConfigure => exact keeps_execTenantConfigure (h := h) ..
  | tenantQuiesce => exact keeps_execTenantQuiesce (h := h) ..
  | tenantResume => exact keeps_execTenantResume (h := h) ..
  | tenantDestroy => exact keeps_execTenantDestroy (h := h) ..
  | tenantResync => exact keeps_execTenantResync (h := h) ..
  | queueCreate => exact keeps_execQueueCreate (h := h) ..
  | queueDestroy => exact keeps_execQueueDestroy (h := h) ..
  | classSet => exact keeps_execClassSet (h := h) ..
  | partitionMapSet => exact keeps_execPartitionMapSet (h := h) ..
  | chainPoolCreate => exact keeps_execChainPoolCreate (h := h) ..
  | chainPoolDestroy => exact keeps_execChainPoolDestroy (h := h) ..
  | keyImportBlock => exact keeps_execKeyImportBlock (h := h) ..
  | keyGenerate => exact keeps_execKeyGenerate (h := h) ..
  | keyExportBlock => exact keeps_execKeyExportBlock (h := h) ..
  | keyRetire => exact keeps_execKeyRetire (h := h) ..
  | keyQuery => exact keeps_execKeyQuery (h := h) ..
  | keystoreConfigure => exact keeps_execKeystoreConfigure (h := h) ..
  | tenantLabelSet => exact keeps_execTenantLabelSet (h := h) ..
  | handlerLoad => exact keeps_execHandlerLoad (h := h) ..
  | handlerBind => exact keeps_execHandlerBind (h := h) ..
  | formatLoad => exact keeps_execFormatLoad (h := h) ..
  | ledgerConfigure => exact keeps_execLedgerConfigure (h := h) ..
  | tideGet => exact keeps_execTideGet (h := h) ..
  | proofGet => exact keeps_execProofGet (h := h) ..
  | ledgerTrim => exact keeps_execLedgerTrim (h := h) ..
  | berthSplit => exact keeps_execBerthSplit (h := h) ..
  | berthJoin => exact keeps_execBerthJoin (h := h) ..
  | berthRetire => exact keeps_execBerthRetire (h := h) ..
  | basinRecover => exact keeps_execBasinRecover (h := h) ..
  | errorInject => exact keeps_execErrorInject (h := h) ..
  | powerPolicySet => exact keeps_execPowerPolicySet (h := h) ..
  | thermalStatus => exact keeps_execThermalStatus (h := h) ..
  | logbookRead => exact keeps_execLogbookRead (h := h) ..
  | logbookClear => exact keeps_execLogbookClear (h := h) ..
  | diagRun => exact keeps_execDiagRun (h := h) ..
  | fwStageBegin => exact keeps_execFwStageBegin (h := h) ..
  | fwStageData => exact keeps_execFwStageData (h := h) ..
  | fwStageEnd => exact keeps_execFwStageEnd (h := h) ..
  | fwActivate => exact keeps_execFwActivate (h := h) ..
  | fwConfirm => exact keeps_execFwConfirm (h := h) ..
  | fwRevert => exact keeps_execFwRevert (h := h) ..
  | fwStatus => exact keeps_execFwStatus (h := h) ..
  | settingsBurn => exact keeps_execSettingsBurn (h := h) ..
  | enterSlipway => exact keeps_execEnterSlipway (h := h) ..
  | lifecycleAdvance => exact keeps_execLifecycleAdvance (h := h) ..
  | ownerKeyRotate => exact keeps_execOwnerKeyRotate (h := h) ..
  | roadsteadJoin => exact keeps_execRoadsteadJoin (h := h) ..
  | roadsteadStatus => exact keeps_execRoadsteadStatus (h := h) ..
  | partnerTakeover => exact keeps_execPartnerTakeover (h := h) ..
  | requestUpdate => exact keeps_execRequestUpdate (h := h) ..
  | passComponentTable => exact keeps_execPassComponentTable (h := h) ..
  | updateComponent => exact keeps_execUpdateComponent (h := h) ..
  | requestFirmwareData => exact keeps_execRequestFirmwareData (h := h) ..
  | activateFirmware => exact keeps_execActivateFirmware (h := h) ..
  | hello => exact keeps_execHello (h := h) ..
  | hawserInit => exact keeps_execHawserInit (h := h) ..
  | nak => exact keeps_execNak (h := h) ..
  | idleFlit => exact keeps_execIdleFlit (h := h) ..
  | mirrorData => exact keeps_execMirrorData (e := h) ..
  | mirrorAck => exact keeps_execMirrorAck (e := h) ..
  | tideRecord => exact keeps_execTideRecord (e := h) ..
  | heartbeat => exact keeps_execHeartbeat (e := h) ..
  | heartbeatSend => exact keeps_execHeartbeatSend (h := h) ..
  | flitReplayTimeout => exact keeps_execFlitReplayTimeout (h := h) ..
  | hawserRetrain => exact keeps_execHawserRetrain (h := h) ..
  | hawserTrainingRetry => exact keeps_execHawserTrainingRetry (h := h) ..
  | seedEnd => exact keeps_execSeedEnd (h := h) ..
  | partnerLost => exact keeps_execPartnerLost (h := h) ..
  | registerWrite => exact keeps_execRegisterWrite (h := h) ..
  | pwrGoodAonRise => exact keeps_execPwrGoodAonRise (h := h) ..
  | slipwayEntered => exact keeps_execSlipwayEntered (h := h) ..
  | aspmL1Entry => exact keeps_execAspmL1Entry (h := h) ..
  | completionTimeout => exact keeps_execCompletionTimeout (h := h) ..
  | islandWakeComplete => exact keeps_execIslandWakeComplete (h := h) ..
  | clockStretchEnd => exact keeps_execClockStretchEnd (h := h) ..
  | hawserLockLost => exact keeps_execHawserLockLost (h := h) ..
  | flitCrcFail => exact keeps_execFlitCrcFail (h := h) ..
  | keyStoreWriteConfirmed => exact keeps_execKeyStoreWriteConfirmed (h := h) ..
  | rcRead => exact keeps_execRcRead (h := h) ..
  | tckEdge tms tdi => exact keeps_execTckEdge tms tdi s t h

/-! Steps. -/

/-- An idle step too only grows OTP: the Pilot may end a command that burns (R446). -/
theorem idle_otp (s : State) : OtpGrown s.otp (idle s).otp ∧ (OtpLegal s.otp → OtpLegal (idle s).otp) := by
  have hroad : Keeps (mbPoll (tick s)) (idle s) := Keeps.of_kept (by simp [idle])
  obtain ⟨-, -, hgrown, hlegal⟩ := (keeps_mbPoll (tick s)).trans hroad
  exact ⟨hgrown, hlegal⟩

theorem step_otp {s t : State} (h : step s = .next t) : OtpGrown s.otp t.otp ∧ (OtpLegal s.otp → OtpLegal t.otp) := by
  unfold step at h
  split at h
  next c rest _ =>
    obtain ⟨-, -, hgrown, hlegal⟩ := keeps_exec h
    exact ⟨hgrown, hlegal⟩
  next =>
    cases h
    exact idle_otp s

end Sys2Proof.Machine

namespace Sys2Proof.Proofs
open Sys2Proof.Machine

/-- Settles O1: the two branches of the step. -/
theorem stepRunsFrontCommand : Obligations.StepRunsFrontCommand := by
  unfold Obligations.StepRunsFrontCommand
  refine ⟨fun c rest s hfront => ?_, fun s hempty => ?_⟩
  · unfold step
    simp only [hfront]
  · unfold step
    simp only [hempty]

/-- Settles O2: the answer exists by exec_next, and what it keeps is said by keeps_exec. -/
theorem everyCommandAnswersNext : Obligations.EveryCommandAnswersNext := by
  unfold Obligations.EveryCommandAnswersNext
  intro c s
  obtain ⟨t, ht⟩ := exec_next c s
  obtain ⟨hpending, hps, -, -⟩ := keeps_exec ht
  exact ⟨t, ht, hpending, hps⟩

/-- Settles O3: the growth of one step (step_otp), behind the growth so far. -/
theorem stepsOnlyGrowOtp : Obligations.StepsOnlyGrowOtp := by
  unfold Obligations.StepsOnlyGrowOtp
  intro o s t hlegal hgrown hstep
  obtain ⟨hstepGrown, hstepLegal⟩ := step_otp hstep
  exact ⟨hstepLegal hlegal, hgrown.trans hstepGrown⟩

/-- Settles O4: the tables of the reset state are empty, so that each entry reads as its default. -/
theorem resetState : Obligations.ResetState := by
  unfold Obligations.ResetState
  refine ⟨⟨rfl, rfl, rfl, rfl, fun th => ⟨rfl, rfl, rfl⟩, fun q => rfl, fun t => rfl, fun p => rfl⟩, ?_⟩
  unfold OtpLegal
  decide

end Sys2Proof.Proofs
end

section
/-! PROOFS. What an instruction that changes only registers leaves unchanged (R335, R336). -/

namespace Sys2Proof.Machine

/-- A fetch changes the table of threads alone. -/
theorem fetched_threads (s : State) (th : ThreadId) : ∃ l, fetched s th = { s with threads := l } := by
  obtain ⟨l, h | h⟩ := tlbFill_thr s th (codeVa (regsOf s th) (regsOf s th).pc)
  · exact ⟨_, by unfold fetched; rw [h]; rfl⟩
  · exact ⟨_, by unfold fetched; rw [h]; rfl⟩

theorem fetched_other (s : State) {th x : ThreadId} (h : x ≠ th) : thr (fetched s th) x = thr s x := by
  unfold fetched
  rw [thr_modThr_other _ _ h, tlbFill_other _ _ h]

/-- Between two retry points an instruction of registers changes the table of threads alone. -/
theorem retired_threads {s : State} {th : ThreadId} (a : Arch) (h : (thr s th).sinceCk < 31) : ∃ l, retired s th a = { s with threads := l } := by
  obtain ⟨l, hl⟩ := fetched_threads s th
  unfold retired
  rw [retire_between _ _ (by simpa using h), hl]
  exact ⟨_, rfl⟩

/-- What it leaves of its thread there: the registers, the count, and the end of an entry and of a yield. -/
theorem retired_thr {s : State} {th : ThreadId} (a : Arch) (h : (thr s th).sinceCk < 31) : ∃ l, thr (retired s th a) th =
    { thr s th with arch := a, sinceCk := (thr s th).sinceCk + 1, entering := none, yielded := false, tlb := l } := by
  obtain ⟨l, hl⟩ := fetched_thr s th
  unfold retired
  rw [retire_between _ _ (by simpa using h), thr_modThr_same, thr_setArch_same, hl]
  exact ⟨l, rfl⟩

/-- The 32nd instruction takes a retry point. -/
theorem retired_retryPoint {s : State} {th : ThreadId} (a : Arch) (h : 31 ≤ (thr s th).sinceCk) :
    (thr (retired s th a) th).ck = a ∧ (thr (retired s th a) th).sinceCk = 0 ∧ (thr (retired s th a) th).gated = [] := by
  have hbare := retire_bare (setArch (fetched s th) th a) th
  rw [if_pos (by simpa using h), thr_setArch_same] at hbare
  unfold retired
  generalize thr (retire (setArch (fetched s th) th a) th) th = x at hbare ⊢
  exact ⟨congrArg Thread.ck hbare, congrArg Thread.sinceCk hbare, congrArg Thread.gated hbare⟩

end Sys2Proof.Machine

namespace Sys2Proof.Proofs
open Sys2Proof.Machine

/-- Settles O6: an instruction of registers is a fetch, a write of the registers and a retirement. -/
theorem retiredFrame : Obligations.RetiredFrame := by
  unfold Obligations.RetiredFrame
  refine fun s th a => ⟨?_, fun x hx => ?_, fun hbetween => ⟨?_, retired_thr a hbetween⟩, retired_retryPoint a⟩
  · unfold retired
    rw [retire_arch, thr_setArch_same]
  · unfold retired
    rw [retire_other _ hx, thr_setArch_other _ _ hx, fetched_other _ hx]
  · obtain ⟨l, hl⟩ := retired_threads a hbetween
    rw [hl]

end Sys2Proof.Proofs
end

section
/-! PROOFS. Registers without a row of their own and the test port (R358, R368, R382, R398, R400, R420, R452, R454, R475, R495). -/

namespace Sys2Proof.Machine

theorem bitOf_zero (n : Nat) : bitOf n 0 = n.testBit 0 := by
  simp [bitOf, Nat.testBit_zero, BEq.beq]

/-- The lowest bit of a value written with 4 bytes is the register's lowest bit. -/
theorem bitOf_zero_written (v : BitVec 64) : bitOf (v.toNat % 256 ^ 4) 0 = v.getLsbD 0 := by
  rw [bitOf_zero, show (256 : Nat) ^ 4 = 2 ^ 32 from rfl, Nat.testBit_mod_two_pow]
  rfl

@[simp] theorem mailOf_setMail_same (s : State) (p : Port) (m : Mailbox) : mailOf (setMail s p m) p = m := by
  cases p <;> rfl

/-! Writes and reads through PF BAR0 (R420, R452, R454, R475). -/

section Mail
variable {s : State} {p : Port} {off : BitVec 25} (hmmio : mailMmio s p = true)
include hmmio

theorem exec_mailWrite (hoff : off.toNat < 0x3000) (size : Nat) (v : BitVec 64) :
    exec (.registerWrite (.pfBar p off) size v) s = .next (mailWrite s p off.toNat size (v.toNat % 256 ^ size)) := by
  show Host.Outcome.next (pfWrite s p off.toNat size _) = _
  unfold pfWrite
  rw [if_pos hoff, if_pos hmmio]

theorem exec_bufferWrite (hoff : off.toNat < 0x1000) (size : Nat) (v : BitVec 64) :
    exec (.registerWrite (.pfBar p off) size v) s = .next (if (mailOf s p).st = 2 then mbIgnored s p
      else setMail s p { mailOf s p with buf := writeBytes (mailOf s p).buf off.toNat (toLe (min size (0x1000 - off.toNat)) (v.toNat % 256 ^ size)) }) := by
  rw [exec_mailWrite hmmio (by omega)]
  unfold mailWrite
  rw [if_pos hoff]

theorem exec_irqEnWrite (hoff : off.toNat = 0x2008) (v : BitVec 64) :
    exec (.registerWrite (.pfBar p off) 4 v) s = .next (setMail s p { mailOf s p with irqEn := v.getLsbD 0 }) := by
  rw [exec_mailWrite hmmio (by omega)]
  simp only [mailWrite, hoff, bitOf_zero_written, Nat.reduceLT, Nat.reduceEqDiff, if_false, if_true, ne_eq, not_true_eq_false]

theorem exec_iovaHiWrite (hoff : off.toNat = 0x200C) (hst : (mailOf s p).st ≠ 2) (v : BitVec 64) :
    exec (.registerWrite (.pfBar p off) 4 v) s = .next (setMail s p { mailOf s p with iovaHi := v.toNat % 2 ^ 32 }) := by
  rw [exec_mailWrite hmmio (by omega)]
  simp only [mailWrite, hoff, hst, Nat.reduceLT, Nat.reduceEqDiff, if_false, if_true, ne_eq, not_true_eq_false, Nat.reducePow]

theorem exec_ignoredRead (hoff : off.toNat = 0x2004) : exec (.rcRead p off) s = .next (setMail s p { mailOf s p with ignored := 0 }) := by
  show execRcRead p off s = _
  simp [execRcRead, hmmio, hoff]

/-- A read in the block of an island clears the counts of its two registers (R420, R475). -/
theorem exec_islandRead {n k : Nat} (hpf : pfMmio s p = true) (hn : islExists n = true) (hk : k < 0x4000) (hoff : off.toNat = 0x100000 + 0x4000 * n + k) :
    exec (.rcRead p off) s = .next (
      if k = 4 then setIsland s n { islandOf s n with stretch := 0 }
      else if k = 8 then setIsland s n { islandOf s n with overrun := false, disagree := 0, drops := 0 }
      else s) := by
  have hisland : (off.toNat - 0x100000) / 0x4000 = n := by omega
  have hreg : (off.toNat - 0x100000) % 0x4000 = k := by omega
  show execRcRead p off s = _
  unfold execRcRead
  simp only [hmmio, hpf, hisland, hn, hreg, Bool.not_true, Bool.false_eq_true, if_false, or_false]
  rw [if_neg (by omega), if_neg (by omega)]

end Mail

/-- The dock window of a VF (R32, R379). -/
theorem dockWrite_dock {s : State} {p : Port} {t : TenantId} {voff : BitVec 20} (hmmio : vfMmio s p t.val = true) (hlow : 0x40000 ≤ voff.toNat)
    (hhigh : voff.toNat < 0x80000) (size : Nat) (v : BitVec 64) : answers (.registerWrite (.vfBar p t voff) size v) s (fun u =>
      (tenantOf u t.val).dock = writeBytes (tenantOf s t.val).dock (voff.toNat - 0x40000) (toLe (min size (0x80000 - voff.toNat)) (v.toNat % 256 ^ size))) := by
  have hwrite : vfWrite s p t.val voff.toNat size (v.toNat % 256 ^ size) =
      setTenant (touchPort s p) t.val { tenantOf (touchPort s p) t.val with
        dock := writeBytes (tenantOf (touchPort s p) t.val).dock (voff.toNat - 0x40000) (toLe (min size (0x80000 - voff.toNat)) (v.toNat % 256 ^ size)) } := by
    unfold vfWrite
    simp only [hmmio, hlow, hhigh, Bool.not_true, Bool.false_eq_true, if_false, and_self, if_true]
  refine ⟨_, congrArg Host.Outcome.next hwrite, ?_⟩
  refine (congrArg Tenant.dock (tenantOf_setTenant_same ..)).trans ?_
  simp only [tenantOf, touchPort_tenants]

/-! Configuration space (R368, R382, R398, R400). -/

section Config
variable {s : State} {p : Port} (size : Nat) (v : BitVec 64)

theorem exec_aspmWrite (hcfg : cfgUp s p = true) : exec (.registerWrite (.cfgAspm p) size v) s =
    .next (setPort s p { portOf s p with aspmEn := v.getLsbD 0, l1 := (portOf s p).l1 && v.getLsbD 0 }) :=
  congrArg Host.Outcome.next (if_pos hcfg)

theorem exec_atsWrite_pf0 (hcfg : cfgUp s p = true) : exec (.registerWrite (.cfgAts p .pf0) size v) s =
    .next (setPort s p { portOf s p with ats := v.getLsbD 0 }) :=
  congrArg Host.Outcome.next (if_pos hcfg)

theorem exec_pmeStatusWrite_pf0 (hcfg : cfgUp s p = true) : exec (.registerWrite (.cfgPmeStatus p .pf0) size v) s =
    .next (if v.getLsbD 0 then setPort s p { portOf s p with pmeStatus := false } else s) := by
  show Host.Outcome.next (pmeStatusWrite s p .pf0 (v.getLsbD 0)) = _
  unfold pmeStatusWrite
  simp only [hcfg, true_and]

theorem exec_vfEnableWrite_grow (hcfg : cfgUp s p = true) (hawake : awake s = true) (hmax : v.toNat ≤ 1024) (hgrow : (portOf s p).numVFs ≤ v.toNat) :
    exec (.registerWrite (.cfgVfEnable p) size v) s =
      .next (portBack (setPort s p { portOf s p with vfEnable := decide (v.toNat ≠ 0), numVFs := v.toNat }) p) := by
  show Host.Outcome.next (vfEnableWrite s p v.toNat) = _
  unfold vfEnableWrite
  rw [if_neg (by simp [hcfg, hawake, hmax]), if_neg (by omega)]

theorem exec_busMaster_vf {t : TenantId} (hcfg : vfCfg s p t.val = true) (hnew : (vfOf s p t.val).bme ≠ v.getLsbD 0)
    (htdisp : (vfOf s p t.val).tdisp = .unlocked) : exec (.registerWrite (.cfgBusMaster p (.vf t)) size v) s =
      .next (pathChange (setVf s p t.val { vfOf s p t.val with bme := v.getLsbD 0 }) p t.val) := by
  show Host.Outcome.next (busMaster s p (.vf t) (v.getLsbD 0)) = _
  unfold busMaster
  simp only [hcfg, hnew, htdisp, Bool.not_true, Bool.false_eq_true, or_self, if_false, reduceCtorEq]

end Config

/-! The test port (R495). -/

/-- Five edges with TMS high reach Test-Logic-Reset from every state of the controller. -/
theorem tapNext_five (y : Tap) : tapNext (tapNext (tapNext (tapNext (tapNext y true) true) true) true) true = .testLogicReset := by
  cases y <;> rfl

end Sys2Proof.Machine

namespace Sys2Proof.Proofs
open Sys2Proof.Machine

/-- Settles O58: each register by the lemma that says what a write or a read of it comes to. -/
theorem registersAndTestPort : Obligations.RegistersAndTestPort := by
  unfold Obligations.RegistersAndTestPort
  intro s p t off voff size n v tms tdi on
  refine ⟨fun hmmio => ⟨fun hoff hst => ?_, fun hoff hst => ?_, fun hoff => exec_irqEnWrite hmmio hoff v, fun hoff hst => ?_, exec_ignoredRead hmmio,
    fun hpf hn => ⟨exec_islandRead hmmio hpf hn (by decide), exec_islandRead hmmio hpf hn (by decide)⟩⟩,
    fun hmmio hlow hhigh => dockWrite_dock hmmio hlow hhigh size v,
    fun hcfg => ⟨exec_aspmWrite size v hcfg, exec_atsWrite_pf0 size v hcfg, exec_pmeStatusWrite_pf0 size v hcfg, exec_vfEnableWrite_grow size v hcfg⟩,
    ?_, fun hlife => ?_, fun hlife hpwr htrip => ?_, tapNext_five⟩
  · rw [exec_bufferWrite hmmio hoff, if_neg hst]
  · rw [exec_bufferWrite hmmio hoff, if_pos hst, mbIgnored]
  · exact ⟨_, exec_iovaHiWrite hmmio hoff hst v, congrArg Mailbox.iovaHi (mailOf_setMail_same ..)⟩
  · rintro hcfg rfl hnew htdisp
    exact exec_busMaster_vf size v hcfg hnew htdisp
  · show execTckEdge tms tdi s = _
    simp [execTckEdge, hlife]
  · show execTckEdge tms tdi s = _
    simp [execTckEdge, hlife, hpwr, htrip]

end Sys2Proof.Proofs
end

section
/-! PROOFS. What reports, changes of islands and answers of the mailbox leave alone (R355, R357, R371, R407, R414, R453, R457). -/

namespace Sys2Proof.Machine

/-! The operating state through an arrival (R371). -/

theorem nowNs_arrive (s : State) (n d : Nat) (p : Bool) : nowNs (arrive s n d p) = nowNs s := nowNs_of_unreported (arrive_unreported ..)

/-- An arrival wakes the device from Doldrums alone, and there from a watched source alone. -/
theorem arrive_dev {s : State} {n : Nat} (h : s.dev.st ≠ .doldrums ∨ watched s n = false) (d : Nat) (p : Bool) : (arrive s n d p).dev = s.dev := by
  unfold arrive
  split
  · rfl
  · extract_lets v now first v1 v2 u
    rw [if_neg fun ⟨hst, hwatched⟩ => h.elim (· hst) fun hw => absurd (hw.symm.trans hwatched) Bool.false_ne_true]
    rfl

theorem devState_st {s : State} {st : DevSt} {code : Nat} (h : st ≠ .doldrums ∨ watched s 0x802 = false) : (devState s st code).dev.st = st := by
  unfold devState
  split
  · assumption
  · exact congrArg Dev.st (arrive_dev h ..)

theorem devState_wakeAt {s : State} {st : DevSt} {code : Nat} (h : st ≠ .doldrums ∨ watched s 0x802 = false) :
    (devState s st code).dev.wakeAt = s.dev.wakeAt := by
  unfold devState
  split
  · rfl
  · exact (congrArg Dev.wakeAt (arrive_dev h ..)).trans rfl

theorem devState_unreported (s : State) (st : DevSt) (code : Nat) : unreported (devState s st code) = unreported s := by
  unfold devState
  split
  · rfl
  · exact arrive_unreported ..

/-! Operations that change islands alone. -/

theorem foldl_islands {α : Type} {f : State → α → State} (hf : ∀ u x, ∃ v, f u x = { u with islands := v }) (l : List α) (s : State) :
    ∃ v, l.foldl f s = { s with islands := v } :=
  List.foldlRecOn (motive := fun u : State => ∃ v, u = { s with islands := v }) l f ⟨s.islands, rfl⟩ fun u hu x _ => by
    obtain ⟨v, rfl⟩ := hu
    obtain ⟨w, hw⟩ := hf { s with islands := v } x
    exact ⟨w, hw⟩

theorem stepClock_islands (s : State) (b mhz : Nat) : ∃ v, stepClock s b mhz = { s with islands := v } :=
  foldl_islands (fun u _ => prop_ite (P := fun w : State => ∃ v, w = { u with islands := v }) ⟨_, rfl⟩ ⟨_, rfl⟩) _ s

theorem sharedState_islands (s : State) (p st : Nat) : ∃ v, sharedState s p st = { s with islands := v } :=
  prop_ite (P := fun w : State => ∃ v, w = { s with islands := v }) ⟨_, rfl⟩ ⟨_, rfl⟩

theorem pairStates_islands (s : State) (p busy spare : Nat) : ∃ v, pairStates s p busy spare = { s with islands := v } :=
  foldl_islands (fun u _ => prop_ite (P := fun w : State => ∃ v, w = { u with islands := v }) ⟨_, rfl⟩ ⟨_, rfl⟩) _ s

/-- What is made of every island by its number is read of one of them. -/
theorem islandOf_map (s : State) {f : Nat × Island → Nat × Island} (hf : ∀ e, (f e).1 = e.1) {n : Nat} (h : ∃ e ∈ s.islands, e.1 = n) :
    islandOf { s with islands := s.islands.map f } n = (f (n, islandOf s n)).2 := by
  have hsome : ∀ t : Table Island, (∃ e ∈ t, e.1 = n) → ∃ v, mget t n = some v := by
    intro t
    induction t with
    | nil => simp
    | cons e r ih =>
      intro hmem
      by_cases hn : e.1 = n
      · exact ⟨e.2, by simp [mget, hn]⟩
      · obtain ⟨v, hv⟩ := ih (by simpa [hn] using hmem)
        exact ⟨v, by simp [mget, Ne.symm hn, hv]⟩
  obtain ⟨v, hv⟩ := hsome s.islands h
  unfold islandOf tget
  rw [mget_map _ _ hf, hv]
  rfl

/-- A wake of the islands that wait: the stores go to memory and their threads (R414). -/
theorem deliverStores_far (s : State) (n : Nat) : far (deliverStores s n) = far s :=
  far_foldl _ (fun u th => by
    extract_lets held w
    refine far_ite rfl ?_
    exact (modThr_far w th _).trans (far_foldl _ (fun _ _ => objStore_far ..) held u)) _ _

/-! The clocks of the berths (R408). -/

/-- A step of the clock names every pair of the basin that is in service. -/
theorem stepClock_targetMhz (s : State) (b mhz : Nat) {k : Nat} (hk : k < 72) (hin : (islandOf s (b * 128 + k)).out = false) :
    (islandOf (stepClock s b mhz) (b * 128 + k)).targetMhz = mhz := by
  have hout : (islandOf (stepClock s b mhz) (b * 128 + k)).out = false :=
    List.foldlRecOn (motive := fun u => (islandOf u (b * 128 + k)).out = false) _ _ hin fun u hu n _ => by
      extract_lets i
      refine prop_ite (P := fun w => (islandOf w (b * 128 + k)).out = false) hu ?_
      by_cases h : k = n
      · subst h
        exact (congrArg Island.out (islandOf_setIsland_same ..)).trans hu
      · exact (congrArg Island.out (islandOf_setIsland_other _ _ (by omega))).trans hu
  have hmhz : (islandOf (stepClock s b mhz) (b * 128 + k)).out = false → (islandOf (stepClock s b mhz) (b * 128 + k)).targetMhz = mhz :=
    foldl_reaches (P := fun u => (islandOf u (b * 128 + k)).out = false → (islandOf u (b * 128 + k)).targetMhz = mhz) (fun u n hu => by
      extract_lets i
      refine prop_ite (P := fun w => (islandOf w (b * 128 + k)).out = false → (islandOf w (b * 128 + k)).targetMhz = mhz) hu ?_
      by_cases h : k = n
      · subst h
        exact fun _ => congrArg Island.targetMhz (islandOf_setIsland_same ..)
      · rw [islandOf_setIsland_other _ _ (by omega)]
        exact hu) (.inr ⟨k, List.mem_range.mpr hk, fun u => by
      extract_lets i
      by_cases h : i.out = true
      · rw [if_pos h]
        exact fun hno => absurd (hno.symm.trans h) Bool.false_ne_true
      · rw [if_neg h]
        exact fun _ => congrArg Island.targetMhz (islandOf_setIsland_same ..)⟩)
  exact hmhz hout

theorem setClock_rest (s : State) (b : Nat) : ∃ w v, setClock s b = { s with wardens := w, islands := v } := by
  unfold setClock
  extract_lets w m cmd
  refine prop_ite (P := fun u : State => ∃ w v, u = { s with wardens := w, islands := v }) ⟨_, _, rfl⟩ ?_
  refine prop_ite (P := fun u : State => ∃ w v, u = { s with wardens := w, islands := v }) ⟨_, _, rfl⟩ ?_
  obtain ⟨v, hv⟩ := stepClock_islands s b m
  rw [hv]
  exact ⟨_, _, rfl⟩

/-- The wardens change clocks alone. -/
theorem setClocks_rest (s : State) : ∃ w v, setClocks s = { s with wardens := w, islands := v } :=
  List.foldlRecOn (motive := fun u : State => ∃ w v, u = { s with wardens := w, islands := v }) _ _ ⟨s.wardens, s.islands, rfl⟩ fun u hu b _ => by
    obtain ⟨w, v, rfl⟩ := hu
    obtain ⟨w', v', h⟩ := setClock_rest { s with wardens := w, islands := v } b
    exact ⟨w', v', h⟩

@[simp] theorem setClocks_dev (s : State) : (setClocks s).dev = s.dev := by
  obtain ⟨w, v, h⟩ := setClocks_rest s
  rw [h]

@[simp] theorem setClocks_log (s : State) : (setClocks s).log = s.log := by
  obtain ⟨w, v, h⟩ := setClocks_rest s
  rw [h]

/-! The answers of a mailbox (R453, R455, R457). -/

/-- A state without what an answer of a mailbox changes: the mailboxes, the ports' vectors, host memory and the reports. -/
def besideMail (s : State) : State := { s with dev := {}, sources := [], mailA := {}, mailB := {}, ports := [], mem := {} }

theorem field_of_besideMail {α : Type} {s t : State} (h : besideMail t = besideMail s) (f : State → α) (hf : ∀ x, f (besideMail x) = f x) :
    f t = f s := by
  rw [← hf t, h, hf]

@[simp] theorem setMail_besideMail (s : State) (p : Port) (m : Mailbox) : besideMail (setMail s p m) = besideMail s := by cases p <;> rfl

@[simp] theorem arrive_besideMail (s : State) (n d : Nat) (p : Bool) : besideMail (arrive s n d p) = besideMail s := by
  unfold arrive
  split
  · rfl
  · extract_lets v now first v1 v2 u
    split <;> rfl

@[simp] theorem mbAnswer_besideMail (s : State) (p : Port) (r : MbResp) : besideMail (mbAnswer s p r) = besideMail s := by
  unfold mbAnswer
  extract_lets dev mail u w
  have hu : besideMail u = besideMail s := setMail_besideMail ..
  have hw : besideMail w = besideMail u := prop_ite (P := fun x => besideMail x = besideMail u) rfl rfl
  exact (arrive_besideMail ..).trans (hw.trans hu)

theorem outWrite_mem (p : Port) (l : List OutSeg) (s : State) (b : List Byte) : ∃ m, (outWrite s p l b).1 = { s with mem := m } := by
  induction l generalizing s b with
  | nil => exact ⟨s.mem, rfl⟩
  | cons g r ih =>
    unfold outWrite
    extract_lets n
    split
    · exact ⟨s.mem, rfl⟩
    · split
      · obtain ⟨m, hm⟩ := ih { s with mem := { s.mem with host := writeBytes s.mem.host g.addr.toNat (b.take n) } } (b.drop n)
        exact ⟨m, hm⟩
      · exact ⟨s.mem, rfl⟩

@[simp] theorem mbDeliver_besideMail (s : State) (p : Port) (r : MbRun) (x : MbResp) : besideMail (mbDeliver s p r x) = besideMail s := by
  unfold mbDeliver
  obtain ⟨m, hm⟩ := outWrite_mem p r.outs s x.body
  have ht : besideMail (outWrite s p r.outs x.body).1 = besideMail s := by
    rw [hm]
    rfl
  generalize outWrite s p r.outs x.body = o at ht ⊢
  obtain ⟨t, i⟩ := o
  refine prop_ite (P := fun u => besideMail u = besideMail s) (mbAnswer_besideMail ..) ?_
  cases i with
  | none => exact (mbAnswer_besideMail ..).trans ht
  | some i => exact (mbAnswer_besideMail ..).trans ht

@[simp] theorem mbFinish_besideMail (s : State) (p : Port) (st d : Nat) (b : List Byte) : besideMail (mbFinish s p st d b) = besideMail s := by
  unfold mbFinish
  split
  · rfl
  · exact prop_ite (P := fun u => besideMail u = besideMail s) (mbAnswer_besideMail ..) (mbDeliver_besideMail ..)

@[simp] theorem mbFinishOp_besideMail (s : State) (op arg st d : Nat) (b : List Byte) : besideMail (mbFinishOp s op arg st d b) = besideMail s :=
  List.foldlRecOn (motive := fun u => besideMail u = besideMail s) _ _ rfl fun _ hu _ _ =>
    prop_ite (P := fun w => besideMail w = besideMail s) ((mbFinish_besideMail ..).trans hu) hu

end Sys2Proof.Machine
end

section
/-! PROOFS. Power states, thermal levels and the harbour clock (R408, R409, R414 to R418, R465, R497 to R503): what each command comes to. -/

namespace Sys2Proof.Machine

@[simp] theorem wardenOf_setWarden_same (s : State) (b : Nat) (w : Warden) : wardenOf (setWarden s b w) b = w := tget_tset_same ..

@[simp] theorem islandOf_setWarden (s : State) (b n : Nat) (w : Warden) : islandOf (setWarden s b w) n = islandOf s n := rfl

/-! The regulator and droops (R408, R409, R500). -/

theorem regulatorVoltageReported_steps {s : State} {basin : BasinId} {mhz mv : Nat} (h : (wardenOf s basin.val).avs = some (mhz, mv)) :
    answers (.regulatorVoltageReported basin) s (fun u =>
      wardenOf u basin.val = { wardenOf s basin.val with mhz := mhz, railMv := mv, avs := none, retries := 0 } ∧
      ((wardenOf s basin.val).mhz < mhz → ∀ k < 72, (islandOf s (basin.val * 128 + k)).out = false →
        (islandOf u (basin.val * 128 + k)).targetMhz = mhz)) := by
  have hexec : execRegulatorVoltageReported basin s = .next (setWarden (if (wardenOf s basin.val).mhz < mhz then stepClock s basin.val mhz else s)
      basin.val { wardenOf s basin.val with mhz := mhz, railMv := mv, avs := none, retries := 0 }) := by
    unfold execRegulatorVoltageReported
    simp only [h]
  refine ⟨_, hexec, wardenOf_setWarden_same .., fun hraise k hk hin => ?_⟩
  rw [islandOf_setWarden, if_pos hraise]
  exact stepClock_targetMhz s basin.val mhz hk hin

theorem exec_avsNoAnswer_retry {s : State} {basin : BasinId} (h : (wardenOf s basin.val).avs.isSome = true) (hfew : (wardenOf s basin.val).retries < 3) :
    exec (.avsNoAnswer basin) s = .next (setWarden s basin.val { wardenOf s basin.val with retries := (wardenOf s basin.val).retries + 1 }) := by
  show execAvsNoAnswer basin s = _
  unfold execAvsNoAnswer
  simp only [hfew, if_true]
  rw [if_neg (by simpa [Option.isSome_iff_ne_none] using h)]

/-- The fourth unanswered command caps the clock, which is logged (R500). -/
theorem avsNoAnswer_caps {s : State} {basin : BasinId} (h : (wardenOf s basin.val).avs.isSome = true) (hmany : 3 ≤ (wardenOf s basin.val).retries) :
    answers (.avsNoAnswer basin) s (fun u => wardenOf u basin.val =
      { wardenOf s basin.val with mhz := min 2000 (wardenOf s basin.val).mhz, avs := none, retries := 0, capped := true } ∧
      logged u (Config.degradedCode 0)) := by
  have hexec : execAvsNoAnswer basin s = .next (logIsland (setWarden (if 2000 < (wardenOf s basin.val).mhz then stepClock s basin.val 2000 else s) basin.val
      { wardenOf s basin.val with mhz := min 2000 (wardenOf s basin.val).mhz, avs := none, retries := 0, capped := true })
      (Config.degradedCode 0) 1 (islHome basin.val) []) := by
    unfold execAvsNoAnswer
    simp only []
    rw [if_neg (by simpa [Option.isSome_iff_ne_none] using h), if_neg (by omega)]
  refine ⟨_, hexec, ?_, logged_logIsland ..⟩
  exact (field_of_unreported (logIsland_unreported ..) (wardenOf · basin.val) fun _ => rfl).trans (wardenOf_setWarden_same ..)

theorem exec_droopDetected {s : State} {island : BitVec 10} (h : islRuns s island.toNat = true) : exec (.droopDetected island) s =
    .next (setIsland s island.toNat { islandOf s island.toNat with stretched := true, stretchAt := some (nowNs s), stretch :=
      if (islandOf s island.toNat).stretched then (islandOf s island.toNat).stretch else satInc (islandOf s island.toNat).stretch 255 }) :=
  congrArg Host.Outcome.next (if_neg (by simp [h]))

theorem exec_clockStretchEnd {s : State} {island : BitVec 10} {t : Nat} (hon : (islandOf s island.toNat).stretched = true)
    (hat : (islandOf s island.toNat).stretchAt = some t) (hlate : t + 1000 ≤ nowNs s) : exec (.clockStretchEnd island) s =
      .next (setIsland s island.toNat { islandOf s island.toNat with stretched := false, stretchAt := none }) := by
  show execClockStretchEnd island s = _
  unfold execClockStretchEnd
  simp only [hat, hon, hlate, and_self, if_true]

/-! Barometers and thermal levels (R417, R418, R503). -/

/-- The alarms of a reading are arrivals. -/
theorem alarms_unreported (s : State) (n volt : Nat) (temp : Int) (droops : Nat) : unreported (alarms s n volt temp droops) = unreported s := by
  unfold alarms
  extract_lets t off u w
  have hu : unreported u = unreported s := prop_ite (P := fun x => unreported x = unreported s) (arrive_unreported ..) rfl
  have hw : unreported w = unreported s := prop_ite (P := fun x => unreported x = unreported s) ((arrive_unreported ..).trans hu) hu
  exact prop_ite (P := fun x => unreported x = unreported s) ((arrive_unreported ..).trans hw) hw

/-- The state in which a reading of a Barometer is judged: it shows at its island, and its alarms have arrived. -/
def readingShown (s : State) (n volt temp droops : Nat) (t : Int) : State :=
  let u := setIsland s n { islandOf s n with voltMv := volt, temp := temp, droops := droops }
  if 2 ≤ (islandOf s n).state then brownOut (alarms u n volt t droops) n volt else u

theorem readingShown_temp (s : State) (n volt temp droops : Nat) (t : Int) : (islandOf (readingShown s n volt temp droops t) n).temp = temp := by
  unfold readingShown
  extract_lets i u
  have hu : (islandOf u n).temp = temp := congrArg Island.temp (islandOf_setIsland_same ..)
  have halarms : (islandOf (alarms u n volt t droops) n).temp = temp :=
    (field_of_unreported (alarms_unreported ..) (fun x => (islandOf x n).temp) fun _ => rfl).trans hu
  refine prop_ite (P := fun w => (islandOf w n).temp = temp) ?_ hu
  unfold brownOut
  refine prop_ite (P := fun w => (islandOf w n).temp = temp) ?_ halarms
  exact (congrArg Island.temp (islandOf_setIsland_same ..)).trans halarms

/-- A reading leaves the thermal level, the policy and the counts of GALEs alone. -/
theorem readingShown_field {α : Type} (f : State → α) (hf : ∀ x, f (unreported x) = f x) (hi : ∀ (x : State) v, f { x with islands := v } = f x)
    (s : State) (n volt temp droops : Nat) (t : Int) : f (readingShown s n volt temp droops t) = f s := by
  unfold readingShown
  extract_lets i u
  have hu : f u = f s := hi ..
  have halarms : f (alarms u n volt t droops) = f s := (field_of_unreported (alarms_unreported ..) f hf).trans hu
  exact prop_ite (P := fun w => f w = f s) (prop_ite (P := fun w => f w = f s) ((hi ..).trans halarms) halarms) hu

/-- A halt leaves the thermal level as it is (R353). -/
theorem haltHarbour_thermal (s : State) (code : Nat) :
    ((haltHarbour s code).dev.thermal, (haltHarbour s code).dev.thermTrip) = (s.dev.thermal, s.dev.thermTrip) := by
  have hlog := logIsland_unreported s 0x0A02 3 islLighthouse (toLe 2 code)
  unfold haltHarbour
  generalize logIsland s 0x0A02 3 islLighthouse (toLe 2 code) = u at hlog ⊢
  refine (field_of_unreported ((arrive_unreported ..).trans (arrive_unreported ..)) (fun x : State => (x.dev.thermal, x.dev.thermTrip)) fun _ => rfl).trans ?_
  exact field_of_unreported hlog (fun x : State => (x.dev.thermal, x.dev.thermTrip)) fun _ => rfl

section Barometer
variable {s : State} {island volt droops : BitVec 10} {temp : BitVec 12} (hn : islExists island.toNat = true) (haon : s.dev.pwrAon = true)
  (hcore : s.dev.pwrCore = true) (hlevel : s.dev.thermal = 0)
include hn haon hcore hlevel

/-- What a reading comes to outside GALE and STORM. -/
theorem exec_barometerUpdate : exec (.barometerUpdate island volt temp droops) s = .next (
    let u := readingShown s island.toNat volt.toNat temp.toNat droops.toNat temp.toInt
    if 1150 ≤ temp.toInt then enterStorm u island.toNat temp.toInt
    else if Int.ofNat s.policy.galeSetC * 10 ≤ temp.toInt then enterGale u island.toNat temp.toInt
    else u) := by
  have hthermal : (readingShown s island.toNat volt.toNat temp.toNat droops.toNat temp.toInt).dev.thermal = 0 :=
    (readingShown_field (·.dev.thermal) (fun _ => rfl) (fun _ _ => rfl) ..).trans hlevel
  have hpolicy : (readingShown s island.toNat volt.toNat temp.toNat droops.toNat temp.toInt).policy = s.policy :=
    readingShown_field State.policy (fun _ => rfl) (fun _ _ => rfl) ..
  generalize hu : readingShown s island.toNat volt.toNat temp.toNat droops.toNat temp.toInt = u at hthermal hpolicy ⊢
  have hexec : ∃ w, exec (.barometerUpdate island volt temp droops) s =
      .next (if !(islExists island.toNat) ∨ !s.dev.pwrAon ∨ (island.toNat ≠ islLighthouse ∧ !s.dev.pwrCore) then s
        else if u.dev.thermal ≠ 2 ∧ 1150 ≤ temp.toInt then enterStorm u island.toNat temp.toInt
        else if u.dev.thermal = 0 ∧ Int.ofNat u.policy.galeSetC * 10 ≤ temp.toInt then enterGale u island.toNat temp.toInt
        else if u.dev.thermal = 1 then w else u) := by
    rw [← hu]
    exact ⟨_, rfl⟩
  obtain ⟨w, hexec⟩ := hexec
  refine hexec.trans ?_
  simp [hn, haon, hcore, hthermal, hpolicy]

theorem barometerUpdate_calm (hset : temp.toInt < Int.ofNat s.policy.galeSetC * 10) (htop : temp.toInt < 1150) :
    answers (.barometerUpdate island volt temp droops) s (fun u => u.dev.thermal = 0 ∧ (islandOf u island.toNat).temp = temp.toNat) := by
  refine ⟨_, exec_barometerUpdate hn haon hcore hlevel, ?_⟩
  rw [if_neg (by omega), if_neg (by omega)]
  exact ⟨(readingShown_field (·.dev.thermal) (fun _ => rfl) (fun _ _ => rfl) ..).trans hlevel, readingShown_temp ..⟩

theorem barometerUpdate_gale (hset : Int.ofNat s.policy.galeSetC * 10 ≤ temp.toInt) (htop : temp.toInt < 1150) :
    answers (.barometerUpdate island volt temp droops) s (fun u =>
      u.dev.thermal = 1 ∧ u.dev.galeWarn = true ∧ u.dev.gales = s.dev.gales + 1 ∧ logged u 0x0705) := by
  refine ⟨_, exec_barometerUpdate hn haon hcore hlevel, ?_⟩
  rw [if_neg (by omega), if_pos hset]
  have hgales : (readingShown s island.toNat volt.toNat temp.toNat droops.toNat temp.toInt).dev.gales = s.dev.gales :=
    readingShown_field (·.dev.gales) (fun _ => rfl) (fun _ _ => rfl) ..
  generalize readingShown s island.toNat volt.toNat temp.toNat droops.toNat temp.toInt = u at hgales ⊢
  unfold enterGale
  extract_lets dev w
  have hw : w.dev.gales = s.dev.gales + 1 := congrArg (· + 1) hgales
  have hreport (f : State → Nat × Bool × Nat) (hf : ∀ x, f (unreported x) = f x) :
      f (logIsland (arrive w 0x800 1 false) 0x0705 1 island.toNat (toLe 2 island.toNat ++ toLe 2 (tempWord temp.toInt))) = f w :=
    field_of_unreported ((logIsland_unreported ..).trans (arrive_unreported ..)) f hf
  have hdev := hreport (fun x => (x.dev.thermal, x.dev.galeWarn, x.dev.gales)) fun _ => rfl
  simp only [Prod.mk.injEq] at hdev
  obtain ⟨hthermal, hwarn, hcount⟩ := hdev
  simp only [setClocks_dev]
  exact ⟨hthermal, hwarn, hcount.trans hw, logged_of_log (setClocks_log _) (logged_logIsland ..)⟩

theorem barometerUpdate_storm (htop : 1150 ≤ temp.toInt) : answers (.barometerUpdate island volt temp droops) s (fun u =>
    u.dev.thermal = 2 ∧ u.dev.thermTrip = true ∧ u.dev.st = .halted) := by
  refine ⟨_, exec_barometerUpdate hn haon hcore hlevel, ?_⟩
  rw [if_pos htop]
  generalize readingShown s island.toNat volt.toNat temp.toNat droops.toNat temp.toInt = u
  unfold enterStorm
  extract_lets dev w
  have hlog : (w.dev.thermal, w.dev.thermTrip) = (2, true) :=
    field_of_unreported (logIsland_unreported ..) (fun x : State => (x.dev.thermal, x.dev.thermTrip)) fun _ => rfl
  have hboth := (haltHarbour_thermal w 0x0706).trans hlog
  simp only [Prod.mk.injEq] at hboth
  obtain ⟨hthermal, htrip⟩ := hboth
  exact ⟨hthermal, htrip, haltHarbour_halted ..⟩

end Barometer

theorem galeExit_ends {s : State} {t : Nat} (hlevel : s.dev.thermal = 1) (hcool : s.dev.coolSince = some t) (hlate : t + 1000000 ≤ nowNs s) :
    answers .galeExit s (fun u => u.dev.thermal = 0 ∧ u.dev.galeWarn = false) := by
  have hexec : execGaleExit s =
      .next (setClocks (arrive { s with dev := { s.dev with thermal := 0, galeWarn := false, coolSince := none } } 0x801 0 false)) := by
    unfold execGaleExit
    simp only [hcool, hlevel, hlate, and_self, if_true]
  have hdev := field_of_unreported (arrive_unreported { s with dev := { s.dev with thermal := 0, galeWarn := false, coolSince := none } } 0x801 0 false)
    (fun x : State => (x.dev.thermal, x.dev.galeWarn)) fun _ => rfl
  simp only [Prod.mk.injEq] at hdev
  refine ⟨_, hexec, ?_⟩
  simp only [setClocks_dev]
  exact hdev

/-! Calm, Doldrums and wakes (R414 to R416). -/

theorem dirDrop_outside (s : State) (b a line : Nat) (st : LState) : outside (dirDrop s b a line st) = outside s :=
  prop_ite (P := fun u => outside u = outside s) rfl rfl

theorem wayClean_outside (s : State) (p i : Nat) : outside (wayClean s p i) = outside s := by
  unfold wayClean
  extract_lets b l
  split
  · exact (setPc_outside ..).trans (l3Write_outside ..)
  · exact (setPc_outside ..).trans (prop_ite (P := fun x => outside x = outside s) (l3Write_outside ..) (l3Write_outside ..))
  · rfl

theorem wayEmpty_outside (s : State) (p i : Nat) : outside (wayEmpty s p i) = outside s := by
  unfold wayEmpty
  extract_lets l u st w pc
  exact prop_ite (P := fun x => outside x = outside s) rfl
    ((setPc_outside ..).trans ((dirDrop_outside ..).trans (wayClean_outside ..)))

/-- Pairs that go to RETAIN leave in RETAIN what already is. -/
theorem pairStates_retain {s : State} {p n : Nat} (h : (islandOf s n).state = 1) : (islandOf (pairStates s p 1 1) n).state = 1 :=
  List.foldlRecOn (motive := fun u => (islandOf u n).state = 1) _ _ h fun u hu k _ => by
    extract_lets i held
    refine prop_ite (P := fun w => (islandOf w n).state = 1) hu ?_
    by_cases hn : n = islPair (p * 18 + k)
    · rw [← hn, islandOf_setIsland_same]
      exact ite_self _
    · rwa [islandOf_setIsland_other _ _ hn]

theorem sharedState_state {s : State} {p st : Nat} (h : (islandOf s (islPier p)).out = false) :
    (islandOf (sharedState s p st) (islPier p)).state = st := by
  unfold sharedState
  extract_lets i
  rw [if_neg (by simp [i, h]), islandOf_setIsland_same]
  rfl

/-- A pier with its caches cleaned, marked in Calm, and its islands in RETAIN. -/
def pierRetained (s : State) (p : Nat) : State :=
  let u := ((pcOf s p).l2.map (·.1)).foldl (fun s i => if lockedWay (pcOf s p) i then s else wayEmpty s p i) s
  let w := setPc u p { pcOf u p with l1d := [], l1i := [] }
  pairStates (sharedState (setPier w p { pierOf s p with calm := true }) p 1) p 1 1

theorem pierRetained_rest (s : State) (p : Nat) : (pierOf (pierRetained s p) p).calm = true ∧ (pcOf (pierRetained s p) p).l1d = [] ∧
    (pcOf (pierRetained s p) p).l1i = [] ∧ ((islandOf s (islPier p)).out = false → (islandOf (pierRetained s p) (islPier p)).state = 1) := by
  unfold pierRetained
  extract_lets u pc w v
  generalize hx : setPier w p { v with calm := true } = x
  have hu : outside u = outside s := outside_foldl _ (fun _ _ => outside_ite rfl (wayEmpty_outside ..)) _ _
  have hislands : x.islands = s.islands := by
    have h : (outside u).islands = (outside s).islands := congrArg State.islands hu
    rw [← hx]
    exact h
  have hcalm : (pierOf x p).calm = true := hx ▸ congrArg Pier.calm (pierOf_setPier_same ..)
  have hcaches : pcOf x p = { pc with l1d := [], l1i := [] } := hx ▸ pcOf_setPc_same u p _
  obtain ⟨v1, h1⟩ := sharedState_islands x p 1
  obtain ⟨v2, h2⟩ := pairStates_islands (sharedState x p 1) p 1 1
  refine ⟨?_, ?_, ?_, fun hout => pairStates_retain (sharedState_state (by rwa [islandOf, hislands]))⟩
  · rw [h2, h1]
    exact hcalm
  · rw [h2, h1]
    exact congrArg PierCache.l1d hcaches
  · rw [h2, h1]
    exact congrArg PierCache.l1i hcaches

/-- The state that an entry into Calm leaves, its reports included. -/
def calmEntered (s : State) (pier : PierId) : State :=
  let x := pierRetained s pier.val
  let y := devState { x with dev := { x.dev with busyAt := nowNs x } } .calm 1
  arrive y (0x806 + pier.basin.val) (calmPiers y pier.basin.val).length false

theorem calmEntry_enters {s : State} {pier : PierId} (hrun : running s = true) (hup : basinUp s pier.basin.val = true)
    (hcalm : (pierOf s pier.val).calm = false) (hfree : ∀ th ∈ pierThreads pier, (thr s th).run = .free) (hevict : (pcOf s pier.val).evict = [])
    (hreqs : ∀ r ∈ (cohOf s (pierBasin pier.val)).reqs, r.agent ≠ pierAgent pier.val)
    (hidle : (pierOf s pier.val).idleSince + s.policy.calmIdleUs * 1000 ≤ nowNs s) :
    answers (.calmEntry pier) s (fun u => (pierOf u pier.val).calm = true ∧ u.dev.st = .calm ∧ (pcOf u pier.val).l1d = [] ∧ (pcOf u pier.val).l1i = [] ∧
      ((islandOf s (islPier pier.val)).out = false → (islandOf u (islPier pier.val)).state = 1)) := by
  have hthreads : (pierThreads pier).all (fun th => decide ((thr s th).run = .free) || decide ((thr s th).run = .noPair)) = true :=
    List.all_eq_true.mpr fun th hth => by simp [hfree th hth]
  have hquiet : ((pcOf s pier.val).evict.isEmpty && (cohOf s (pierBasin pier.val)).reqs.all (fun r => r.agent != pierAgent pier.val)) = true := by
    simpa [hevict] using hreqs
  have hexec : exec (.calmEntry pier) s = .next (calmEntered s pier) := by
    show execCalmEntry pier s = _
    unfold execCalmEntry calmEntered pierRetained
    extract_lets p v idle quietL2
    rw [if_neg (by simp only [idle, quietL2, v, p, hrun, hup, hcalm, hthreads, hquiet, Nat.not_lt.mpr hidle, Bool.not_true, Bool.false_eq_true,
      or_self, not_false_eq_true])]
  obtain ⟨hpier, hl1d, hl1i, hisland⟩ := pierRetained_rest s pier.val
  refine ⟨_, hexec, ?_⟩
  unfold calmEntered
  generalize pierRetained s pier.val = x at hpier hl1d hl1i hisland ⊢
  extract_lets z dev y
  have hy : unreported y = unreported { x with dev := { x.dev with busyAt := nowNs x } } := devState_unreported ..
  have hst : y.dev.st = .calm := devState_st (.inl (by decide))
  have hfield {α : Type} (f : State → α) (hf : ∀ x, f (unreported x) = f x) (hd : ∀ (x : State) d, f { x with dev := d } = f x) (n d : Nat) (b : Bool) :
      f (arrive y n d b) = f x := (field_of_unreported ((arrive_unreported ..).trans hy) f hf).trans (hd ..)
  refine ⟨(hfield (fun u => (pierOf u pier.val).calm) (fun _ => rfl) (fun _ _ => rfl) ..).trans hpier, ?_,
    (hfield (fun u => (pcOf u pier.val).l1d) (fun _ => rfl) (fun _ _ => rfl) ..).trans hl1d,
    (hfield (fun u => (pcOf u pier.val).l1i) (fun _ => rfl) (fun _ _ => rfl) ..).trans hl1i, fun hout => ?_⟩
  · rw [arrive_dev (.inl (by rw [hst]; decide))]
    exact hst
  · exact (hfield (fun u => (islandOf u (islPier pier.val)).state) (fun _ => rfl) (fun _ _ => rfl) ..).trans (hisland hout)

theorem doldrumsEntry_enters {s : State} {n : Nat} (hst : s.dev.st = .calm) (hen : s.policy.doldrumsEn = true)
    (hpiers : ∀ q < 16, basinUp s (q / 4) = true → (pierOf s q).calm = true) (hcons : ∀ e ∈ s.cons, e.2.entry = false) (ha : s.mailA.st ≠ 2)
    (hb : s.mailB.st ≠ 2) (hidle : s.dev.busyAt + s.policy.doldrumsIdleMs * 1000000 ≤ nowNs s) (hwatch : watched s 0x802 = false) :
    answers .doldrumsEntry s (fun u => u.dev.st = .doldrums ∧
      ((islandOf s n).out = false → (∃ e ∈ s.islands, e.1 = n) → (islandOf u n).state = doldrumsState n)) := by
  have hall : ((List.range 16).filter (fun p => basinUp s (p / 4))).all (fun p => (pierOf s p).calm) = true := by
    simpa only [List.all_filter, List.all_eq_true, List.mem_range, Bool.or_eq_true, Bool.not_eq_true', or_iff_not_imp_left, Bool.not_eq_false]
      using hpiers
  have hnone : s.cons.all (fun e => !e.2.entry) = true := by
    simpa using hcons
  have hexec : exec .doldrumsEntry s = .next (devState { s with
      islands := s.islands.map (fun e => if e.2.out then e else (e.1, islAt e.2 (doldrumsState e.1) e.2.targetMhz)) } .doldrums 2) := by
    show execDoldrumsEntry s = _
    unfold execDoldrumsEntry
    simp only [hall, hnone]
    rw [if_pos ⟨hst, hen, trivial, trivial, ha, hb, hidle⟩]
  refine ⟨_, hexec, devState_st (.inr hwatch), fun hout hmem => ?_⟩
  refine (field_of_unreported (devState_unreported ..) (fun u => (islandOf u n).state) fun _ => rfl).trans ?_
  refine (congrArg Island.state (islandOf_map s (f := fun e => if e.2.out then e else (e.1, islAt e.2 (doldrumsState e.1) e.2.targetMhz))
    (fun e => (apply_ite Prod.fst _ _ _).trans (ite_self _)) hmem)).trans ?_
  rw [if_neg (by simp [hout])]
  rfl

/-- A wake whose time has come leaves the device Full. -/
theorem wakeDone_full {s : State} {t : Nat} (hst : s.dev.st = .waking) (hat : s.dev.wakeAt = some t) (hlate : t ≤ nowNs s) :
    (wakeDone s).dev.st = .full ∧ (wakeDone s).dev.wakeAt = none := by
  unfold wakeDone
  simp only [hst, hat, hlate, if_true]
  unfold wakeAll
  extract_lets u w
  exact ⟨devState_st (.inl DevSt.noConfusion), devState_wakeAt (.inl DevSt.noConfusion)⟩

theorem islandWakeComplete_on {s : State} {island : BitVec 10} (hrun : running s = true) (hn : islExists island.toNat = true)
    (hout : (islandOf s island.toNat).out = false) (hreset : (islandOf s island.toNat).reset = false) (hoff : (islandOf s island.toNat).state ≠ 3)
    (hwanted : islandWanted s island.toNat = true) : answers (.islandWakeComplete island) s (fun u => (islandOf u island.toNat).state = 3) := by
  have hexec : exec (.islandWakeComplete island) s =
      .next (deliverStores (setIsland s island.toNat (islAt (islandOf s island.toNat) 3 (islandOf s island.toNat).targetMhz)) island.toNat) :=
    congrArg Host.Outcome.next (if_neg (by simp [hrun, hn, hout, hreset, hoff, hwanted]))
  refine ⟨_, hexec, ?_⟩
  refine (field_of_far (deliverStores_far ..) (fun u => (islandOf u island.toNat).state) fun _ => rfl).trans ?_
  exact congrArg Island.state (islandOf_setIsland_same ..)

/-! Time inputs (R465, R497, R498). -/

/-- A state in which the edges of the time input are looked at: the supplies are good, and the device runs (R497). -/
def edgesCount (s : State) : Prop := s.dev.pwrAon = true ∧ s.dev.pwrCore = true ∧ s.dev.st ≠ .off ∧ s.dev.st ≠ .halted

/-- An arrival neither powers the device nor stops it. -/
theorem edgesCount_arrive {s : State} (h : edgesCount s) (n d : Nat) (p : Bool) : edgesCount (arrive s n d p) := by
  obtain ⟨haon, hcore, hoff, hhalted⟩ := h
  unfold arrive
  split
  · exact ⟨haon, hcore, hoff, hhalted⟩
  · extract_lets v now first v1 v2 u
    split
    · exact ⟨haon, hcore, DevSt.noConfusion, DevSt.noConfusion⟩
    · exact ⟨haon, hcore, hoff, hhalted⟩

/-- What an edge comes to once its arrival is told. -/
theorem exec_ppsEdge {s : State} (h : edgesCount s) : exec .ppsEdge s = .next (
    let u := arrive s 0xF08 0 false
    if u.disc.waiting.isSome then { timeAtEdge u with disc := { (timeAtEdge u).disc with lastPps := some (nowNs (timeAtEdge u)), ppsHarb := harbourPs (timeAtEdge u) } }
    else if u.disc.ppsEn then
      let w := disciplineEdge u
      { w with disc := { w.disc with lastPps := some (nowNs w), ppsHarb := if w.disc.locked then (w.disc.ppsHarb + 1000000000000) else harbourPs u } }
    else u) := by
  obtain ⟨-, hcore, hoff, hhalted⟩ := edgesCount_arrive h 0xF08 0 false
  show execPpsEdge s = _
  unfold execPpsEdge
  simp only [h.1, hcore, hoff, hhalted, Bool.not_true, Bool.false_eq_true, if_false, or_self]

theorem setTime_done (s : State) (ns : Nat) (pps ten : Bool) : (setTime s ns pps ten).disc.waiting = none ∧ (setTime s ns pps ten).clock.timeSet = true ∧
    nowNs (setTime s ns pps ten) = nowNs s := by
  unfold setTime
  extract_lets d disc
  exact prop_ite (P := fun u : State => u.disc.waiting = none ∧ u.clock.timeSet = true ∧ nowNs u = nowNs s) ⟨rfl, rfl, rfl⟩ ⟨rfl, rfl, rfl⟩

theorem timeAtEdge_done {s : State} (h : s.disc.waiting.isSome = true) : (timeAtEdge s).disc.waiting = none ∧
    (timeAtEdge s).clock.timeSet = true ∧ nowNs (timeAtEdge s) = nowNs s := by
  obtain ⟨w, hw⟩ := Option.isSome_iff_exists.mp h
  have heq : timeAtEdge s = mbFinishOp (setTime s w.time w.ppsEn w.tenEn) 0x0C01 0 0 0 (toLe 8 (harbourNs s)) := by
    unfold timeAtEdge
    rw [hw]
  obtain ⟨hwaiting, hset, hnow⟩ := setTime_done s w.time w.ppsEn w.tenEn
  have hmail := mbFinishOp_besideMail (setTime s w.time w.ppsEn w.tenEn) 0x0C01 0 0 0 (toLe 8 (harbourNs s))
  rw [heq]
  exact ⟨(field_of_besideMail hmail (·.disc.waiting) fun _ => rfl).trans hwaiting, (field_of_besideMail hmail (·.clock.timeSet) fun _ => rfl).trans hset,
    (field_of_besideMail hmail nowNs fun _ => rfl).trans hnow⟩

theorem arrive_disc (s : State) (n d : Nat) (p : Bool) : (arrive s n d p).disc = s.disc := field_of_unreported (arrive_unreported ..) State.disc fun _ => rfl

/-- The first edge after a TIME_SET that waits for one sets the clock (R465). -/
theorem ppsEdge_sets {s : State} (h : edgesCount s) (hwaiting : s.disc.waiting.isSome = true) :
    answers .ppsEdge s (fun u => u.disc.waiting = none ∧ u.clock.timeSet = true ∧ u.disc.lastPps = some (nowNs s)) := by
  have hsome : (arrive s 0xF08 0 false).disc.waiting.isSome = true := by rwa [arrive_disc]
  obtain ⟨hdone, hset, hnow⟩ := timeAtEdge_done hsome
  refine ⟨_, exec_ppsEdge h, ?_⟩
  simp only [hsome, if_true]
  exact ⟨hdone, hset, congrArg some (hnow.trans (nowNs_arrive ..))⟩

/-- An edge within 1 µs of the prediction slews the clock by the error and holds the lock (R497, R498). -/
theorem ppsEdge_slews {s : State} (h : edgesCount s) (hnone : s.disc.waiting = none) (hen : s.disc.ppsEn = true) (hlast : s.disc.lastPps.isSome = true)
    (hlow : -1000000 ≤ harbourPs s - (s.disc.ppsHarb + 1000000000000)) (hhigh : harbourPs s - (s.disc.ppsHarb + 1000000000000) ≤ 1000000) :
    answers .ppsEdge s (fun u => u.disc.locked = true ∧ u.disc.slew = -(harbourPs s - (s.disc.ppsHarb + 1000000000000)) ∧ u.disc.lastPps = some (nowNs s)) := by
  obtain ⟨t, ht⟩ := Option.isSome_iff_exists.mp hlast
  refine ⟨_, exec_ppsEdge h, ?_⟩
  have hdisc : (arrive s 0xF08 0 false).disc = s.disc := arrive_disc ..
  have hharb : harbourPs (arrive s 0xF08 0 false) = harbourPs s := field_of_unreported (arrive_unreported ..) harbourPs fun _ => rfl
  have hnow : nowNs (arrive s 0xF08 0 false) = nowNs s := nowNs_arrive ..
  generalize arrive s 0xF08 0 false = u at hdisc hharb hnow ⊢
  have hedge : (disciplineEdge u).disc = { s.disc with slew := -(harbourPs s - (s.disc.ppsHarb + 1000000000000)), locked := true } ∧
      nowNs (disciplineEdge u) = nowNs s := by
    unfold disciplineEdge
    simp only [hdisc, ht, hharb, hlow, hhigh, and_self, if_true]
    split
    · exact ⟨rfl, hnow⟩
    · exact ⟨arrive_disc .., (nowNs_arrive ..).trans hnow⟩
  simp only [hdisc, hnone, hen, hedge.1, hedge.2, Option.isSome_none, Bool.false_eq_true, if_false, if_true, and_self]

theorem ppsLockLost_unlocks {s : State} {t : Nat} (hen : s.disc.ppsEn = true) (hlocked : s.disc.locked = true) (hlast : s.disc.lastPps = some t)
    (hlate : t + 1500000000 < nowNs s) : answers .ppsLockLost s (fun u => u.disc = { s.disc with locked := false }) := by
  have hexec : exec .ppsLockLost s = .next (losePps s) := by
    show execPpsLockLost s = _
    unfold execPpsLockLost
    simp only [hlast, hen, hlocked, hlate, and_self, if_true]
  exact ⟨_, hexec, arrive_disc ..⟩

theorem tenmhzLost_tells {s : State} (hen : s.disc.tenEn = true) (hnew : s.disc.tenLost = false) (hcore : s.dev.pwrCore = true) :
    answers .tenmhzLost s (fun u => u.disc = { s.disc with tenLost := true }) :=
  ⟨_, congrArg Host.Outcome.next (if_pos (by simp [hen, hnew, hcore])), arrive_disc ..⟩

end Sys2Proof.Machine

namespace Sys2Proof.Proofs
open Sys2Proof.Machine

/-- Settles O57: each command by the lemma that says what it comes to. -/
theorem powerStatesAndTime : Obligations.PowerStatesAndTime := by
  unfold Obligations.PowerStatesAndTime
  intro s basin island volt droops temp pier mhz mv t x
  refine ⟨regulatorVoltageReported_steps, fun havs => ⟨exec_avsNoAnswer_retry havs, avsNoAnswer_caps havs⟩, fun hruns => ?_, fun hon hat hlate => ?_,
    fun ⟨hn, haon, hcore⟩ hlevel => ⟨barometerUpdate_calm hn haon hcore hlevel, barometerUpdate_gale hn haon hcore hlevel,
      barometerUpdate_storm hn haon hcore hlevel⟩, galeExit_ends, calmEntry_enters, doldrumsEntry_enters, rfl, wakeDone_full, islandWakeComplete_on,
    ppsEdge_sets, ppsEdge_slews, ppsLockLost_unlocks, tenmhzLost_tells⟩
  · exact ⟨_, exec_droopDetected hruns, islandOf_setIsland_same ..⟩
  · exact ⟨_, exec_clockStretchEnd hon hat hlate, islandOf_setIsland_same ..⟩

end Sys2Proof.Proofs
end

section
/-! PROOFS. Resets and start-up (R411 to R413, R418, R421 to R426, R448, R450, R466, R496, R504): what each command comes to. -/

namespace Sys2Proof.Machine

/-- A report outside Doldrums leaves the device alone. -/
theorem logIsland_dev {s : State} (h : s.dev.st ≠ .doldrums) (code cls n : Nat) (d : List Byte) : (logIsland s code cls n d).dev = s.dev := by
  unfold logIsland logAdd
  extract_lets now fresh
  have harrive (l : List LogEntry) (n k : Nat) : (arrive { s with log := l, logNext := s.logNext + 1 } n k false).dev = s.dev :=
    arrive_dev (s := { s with log := l, logNext := s.logNext + 1 }) (.inl h) ..
  split
  · split
    · rfl
    · exact harrive ..
  · exact harrive ..

/-! Step 2 of the start-up (R421, R422, R424, R466). -/

/-- A Harbour that a reset has brought to step 2, from a state before it. -/
def freshStart (s u : State) (fails : Nat) : Prop :=
  u.dev.st = .starting ∧ u.dev.bootFails = fails ∧ u.dev.startInProgress = true ∧ harbourNs u = 0x8000000000000000 ∧
    u.clock.timeSet = false ∧ u.cons = [] ∧ u.tenants = [] ∧ u.threads = [] ∧ u.mem.hbm = [] ∧ u.mem.ledgered = [] ∧ u.conf = s.conf ∧ u.pending = s.pending

/-- The boot failures that step 2 counts (R424). -/
def bootsCounted (s : State) : Nat := if s.dev.startInProgress then s.dev.bootFails + 1 else s.dev.bootFails

/-- The clock at its start value, whatever the timers count (R466). -/
theorem harbourNs_start {s : State} (hoff : s.clock.off = 0x8000000000000000 * 1000 - Int.ofNat s.clock.ps) : harbourNs s = 0x8000000000000000 := by
  unfold harbourNs harbourAt
  rw [hoff]
  omega

theorem enterStep2_rest (s : State) : ∃ d o f p i, enterStep2 s = { s with
      dev := d, clock := { s.clock with off := 0x8000000000000000 * 1000 - Int.ofNat s.clock.ps, timeSet := false }, otp := o, fw := f, ports := p, islands := i } ∧
    d.st = .starting ∧ d.bootFails = bootsCounted s ∧ d.startInProgress = true ∧ d.pwrCore = s.dev.pwrCore :=
  ⟨_, _, _, _, _, rfl, rfl, rfl, rfl, rfl⟩

/-- A reset that goes to step 2 leaves a fresh start; a warm one keeps the Logbook. -/
theorem enterStep2_fresh (s : State) (warm core : Bool) :
    let u := enterStep2 { powerReset s warm with dev := { (powerReset s warm).dev with pwrCore := core } }
    freshStart s u (bootsCounted s) ∧ u.dev.pwrCore = core ∧ u.log = if warm then s.log else [] := by
  obtain ⟨d, o, f, p, i, hu, hst, hfails, hprogress, hcore⟩ :=
    enterStep2_rest { powerReset s warm with dev := { (powerReset s warm).dev with pwrCore := core } }
  simp only [hu]
  exact ⟨⟨hst, hfails, hprogress, harbourNs_start rfl, rfl, rfl, rfl, rfl, rfl, rfl, rfl, rfl⟩, hcore, rfl⟩

theorem pwrGoodAonRise_lights {s : State} (h : s.dev.pwrAon = false) :
    answers .pwrGoodAonRise s (fun u => u.dev = { s.dev with pwrAon := true } ∧ (islandOf u islLighthouse).state = 3) := by
  refine ⟨_, congrArg Host.Outcome.next (if_neg (by simp [h])), rfl, ?_⟩
  exact congrArg Island.state (islandOf_setIsland_same ..)

theorem pwrGoodCoreRise_starts {s : State} (haon : s.dev.pwrAon = true) (hcore : s.dev.pwrCore = false) :
    answers .pwrGoodCoreRise s (fun u => freshStart s u (bootsCounted s) ∧ u.dev.pwrCore = true ∧ u.log = []) :=
  ⟨_, congrArg Host.Outcome.next (if_neg (by simp [haon, hcore])), enterStep2_fresh s false true⟩

theorem pwrGoodCoreFall_loses {s : State} (h : s.dev.pwrCore = true) : answers .pwrGoodCoreFall s (fun u => u.dev.st = .off ∧ u.dev.pwrCore = false ∧
    u.dev.thermTrip = false ∧ u.cons = [] ∧ u.tenants = [] ∧ u.threads = [] ∧ u.otp = s.otp ∧ u.conf = s.conf ∧ u.sources = s.sources) :=
  ⟨_, congrArg Host.Outcome.next (if_pos h), rfl, rfl, rfl, rfl, rfl, rfl, rfl, rfl, rfl⟩

theorem pwrGoodAonFall_loses {s : State} (h : s.dev.pwrAon = true) : answers .pwrGoodAonFall s (fun u =>
    u.dev.st = .off ∧ u.dev.pwrAon = false ∧ u.islands = [] ∧ u.sources = [] ∧ u.cons = [] ∧ u.otp = s.otp) :=
  ⟨_, congrArg Host.Outcome.next (if_neg (by simp [h])), rfl, rfl, rfl, rfl, rfl, rfl⟩

/-- A pulse of 1 µs resets (R496). -/
theorem harbReset_starts {s : State} {pulse : Nat} (hcore : s.dev.pwrCore = true) (haon : s.dev.pwrAon = true) (hlevel : s.dev.thermal ≠ 2)
    (hlong : 1000 ≤ pulse) : answers (.harbReset pulse) s (fun u => freshStart s u (bootsCounted s) ∧ u.log = s.log) := by
  have hexec : exec (.harbReset pulse) s = .next (enterStep2 (powerReset s true)) := by
    show execHarbReset pulse s = _
    unfold execHarbReset
    rw [if_neg (by simp [hcore, haon, hlevel]; omega), if_pos (.inl hlong), if_pos hlong]
  obtain ⟨hfresh, -, hlog⟩ := enterStep2_fresh s true s.dev.pwrCore
  exact ⟨_, hexec, hfresh, hlog⟩

/-- A short pulse does not reset, and STORM is not left by a reset (R418, R496). -/
theorem exec_harbReset_none {s : State} {pulse : Nat} (h : pulse < 200 ∨ s.dev.thermal = 2) : exec (.harbReset pulse) s = .next s :=
  congrArg Host.Outcome.next (if_pos (.inr (.inr h.symm)))

theorem bootFailed_restarts {s : State} (h : s.dev.st = .starting) :
    answers .bootFailed s (fun u => freshStart s u (bootsCounted s) ∧ logged u 0x0803) := by
  have hexec : exec .bootFailed s = .next (enterStep2 (powerReset (logIsland s 0x0803 1 islPilot (toLe 1 (s.dev.bootFails + 1))) true)) :=
    congrArg Host.Outcome.next (if_neg (by simp [h]))
  have hlogged := logged_logIsland s 0x0803 1 islPilot (toLe 1 (s.dev.bootFails + 1))
  have hun := logIsland_unreported s 0x0803 1 islPilot (toLe 1 (s.dev.bootFails + 1))
  refine ⟨_, hexec, ?_⟩
  generalize logIsland s 0x0803 1 islPilot (toLe 1 (s.dev.bootFails + 1)) = w at hlogged hun ⊢
  obtain ⟨hfresh, -, hlog⟩ := enterStep2_fresh w true w.dev.pwrCore
  have hcount : bootsCounted w = bootsCounted s := field_of_unreported hun bootsCounted fun _ => rfl
  have hconf : w.conf = s.conf := field_of_unreported hun State.conf fun _ => rfl
  have hpending : w.pending = s.pending := field_of_unreported hun State.pending fun _ => rfl
  have hfresh' : freshStart s (enterStep2 (powerReset w true)) (bootsCounted s) := by
    rw [← hcount]
    unfold freshStart
    rw [← hconf, ← hpending]
    exact hfresh
  exact ⟨hfresh', logged_of_log hlog hlogged⟩

/-! The start of service (R422 to R426). -/

/-- What of the boot the start of service leaves alone until the new EPOCH: what runs, and the EPOCH. -/
def bootOf (s : State) : Fw × Nat := (s.fw, s.epoch)

@[simp] theorem logAdd_bootOf (s : State) (code cls island place tenant seq : Nat) (d : List Byte) :
    bootOf (logAdd s code cls island place tenant seq d) = bootOf s := field_of_unreported (logAdd_unreported ..) bootOf fun _ => rfl
@[simp] theorem logIsland_bootOf (s : State) (code cls n : Nat) (d : List Byte) : bootOf (logIsland s code cls n d) = bootOf s := logAdd_bootOf ..

theorem foldl_bootOf {α : Type} {f : State → α → State} (hf : ∀ u x, bootOf (f u x) = bootOf u) (l : List α) (s : State) :
    bootOf (l.foldl f s) = bootOf s :=
  List.foldlRecOn (motive := fun u => bootOf u = bootOf s) l f rfl fun u hu x _ => (hf u x).trans hu

theorem bootOf_ite {c : Prop} [Decidable c] {s u w : State} (h : bootOf u = bootOf s) (k : bootOf w = bootOf s) :
    bootOf (if c then u else w) = bootOf s := prop_ite (P := fun x => bootOf x = bootOf s) h k

theorem startIsland_bootOf (failed : List Nat) (s : State) (n : Nat) : bootOf (startIsland failed s n) = bootOf s :=
  bootOf_ite (bootOf_ite (logIsland_bootOf ..) (logIsland_bootOf ..)) rfl

theorem startPier_bootOf (failed : List Nat) (s : State) (p : Nat) : bootOf (startPier failed s p) = bootOf s := by
  unfold startPier
  extract_lets v ok pass pos held pairs u w x lost y active
  have hw : bootOf w = bootOf s := by
    refine Eq.trans (foldl_bootOf ?_ _ u) rfl
    exact fun _ _ => bootOf_ite rfl rfl
  have hx : bootOf x = bootOf s := by
    refine (foldl_bootOf ?_ _ w).trans hw
    exact fun _ _ => rfl
  have hy : bootOf y = bootOf s := by
    refine (foldl_bootOf ?_ _ x).trans hx
    exact fun _ _ => (logAdd_bootOf ..).trans rfl
  exact bootOf_ite ((logIsland_bootOf ..).trans hy) hy

theorem startBasins_bootOf (failed : List Nat) (s : State) : bootOf (startBasins failed s) = bootOf s := by
  unfold startBasins
  extract_lets u
  have hu : bootOf u = bootOf s := by
    refine foldl_bootOf ?_ _ s
    exact fun _ _ => rfl
  clear_value u
  generalize (List.range 4096).filterMap _ = l
  exact hu

theorem startSources_bootOf (s : State) : bootOf (startSources s) = bootOf s := by
  unfold startSources
  generalize (List.range 4096).filterMap _ = l
  rfl

theorem newEpoch_bootOf (s : State) : bootOf (newEpoch s) = (s.fw, s.epoch + 1) := by
  unfold newEpoch
  extract_lets e u
  split
  · rfl
  · rfl

/-- Service begins with the mailboxes ready and a new EPOCH (R299, R422). -/
theorem startService_full (failed : List Nat) (s : State) :
    (startService failed s).dev.st = .full ∧ (startService failed s).dev.bootFails = 0 ∧ (startService failed s).dev.startInProgress = false ∧
    bootOf (startService failed s) = (s.fw, s.epoch + 1) ∧ (startService failed s).mailA.st = 1 ∧ (startService failed s).mailB.st = 1 := by
  unfold startService
  extract_lets u1 u2 u3 u4 u5 u6 dev u7
  have h1 : bootOf u1 = bootOf s := foldl_bootOf (startIsland_bootOf failed) _ s
  clear_value u1
  have h2 : bootOf u2 = bootOf s := (foldl_bootOf (startPier_bootOf failed) _ _).trans h1
  clear_value u2
  have h3 : bootOf u3 = bootOf s := by
    refine (foldl_bootOf ?_ _ u2).trans h2
    exact fun _ _ => bootOf_ite rfl rfl
  clear_value u3
  have h4 : bootOf u4 = bootOf s := (startSources_bootOf _).trans ((startBasins_bootOf failed u3).trans h3)
  clear_value u4
  have h5 : bootOf u5 = (s.fw, s.epoch + 1) := by
    obtain ⟨w, v, hw⟩ := setClocks_rest (newEpoch (applyConf u4))
    have happly : bootOf (applyConf u4) = bootOf s := h4
    simp only [bootOf, Prod.mk.injEq] at happly
    refine (congrArg bootOf hw).trans ((newEpoch_bootOf (applyConf u4)).trans ?_)
    rw [happly.1, happly.2]
  have h6 : bootOf u6 = (s.fw, s.epoch + 1) := by
    simp only [u6]
    split
    · exact (logIsland_bootOf ..).trans h5
    · exact h5
  clear_value u6
  have hrest (f : State → Nat × Bool × (Fw × Nat) × Nat × Nat) (hf : ∀ x, f (unreported x) = f x) :=
    field_of_unreported (devState_unreported { u7 with hlinks := tset {} (tset {} [] 0 { training := true }) 1 { training := true } } .full 0) f hf
  have hparts := hrest (fun x => (x.dev.bootFails, x.dev.startInProgress, bootOf x, x.mailA.st, x.mailB.st)) fun _ => rfl
  simp only [Prod.mk.injEq] at hparts
  obtain ⟨hfails, hprogress, hboot, ha, hb⟩ := hparts
  exact ⟨devState_st (.inl DevSt.noConfusion), hfails, hprogress, hboot.trans h6, ha, hb⟩

theorem serviceStart_full {s : State} {failed : List (BitVec 10)} {k : Nat} (hst : s.dev.st = .starting) (hfails : s.dev.bootFails < 2)
    (hcmd : s.dev.slipCmd = false) (htime : nowNs s ≤ s.dev.startedAt + 5000000000) (hfatal : fatalStart (failed.map (·.toNat)) = false)
    (hboot : bootSlot s = some k) (hagrees : slotAgrees (slotAt s k) = true) (hactive : k = s.fw.active) :
    answers (.serviceStart failed) s (fun u => u.dev.st = .full ∧ u.dev.bootFails = 0 ∧ u.dev.startInProgress = false ∧ u.fw.running = slotAt s k ∧
      u.mailA.st = 1 ∧ u.mailB.st = 1 ∧ u.epoch = s.epoch + 1) := by
  have hexec : exec (.serviceStart failed) s =
      .next (startService (failed.map (·.toNat)) { s with fw := { s.fw with running := slotAt s k, previous := slotAt s k } }) := by
    show execServiceStart failed s = _
    unfold execServiceStart
    simp only [hboot]
    rw [if_neg (by simp [hst, hcmd, hfatal]; omega), if_neg (by simp [hagrees]), if_pos hactive]
  obtain ⟨hfull, hzero, hdone, hboots, ha, hb⟩ :=
    startService_full (failed.map (·.toNat)) { s with fw := { s.fw with running := slotAt s k, previous := slotAt s k } }
  exact ⟨_, hexec, hfull, hzero, hdone, congrArg (·.1.running) hboots, ha, hb, congrArg Prod.snd hboots⟩

/-! The Slipway (R448, R450). -/

/-- The cause of an entry into the Slipway that is given: the boots, the strap or the command. -/
def slipwayCause (s : State) (why : Fin 4) : Prop :=
  (why = 1 ∧ 2 ≤ s.dev.bootFails) ∨ (why = 2 ∧ settingBit s 2 = false) ∨ (why = 3 ∧ s.dev.slipCmd = true)

theorem exec_slipwayEntered {s : State} {why : Fin 4} (hst : s.dev.st = .starting) (hcause : slipwayCause s why) : exec (.slipwayEntered why) s =
    .next (openPorts (logIsland { s with dev := { s.dev with st := .slipway, slipCmd := false, slipwayStrap := decide (why.val = 2) } } 0x0804 3 islPilot
      (toLe 1 why.val))) := by
  rcases hcause with ⟨rfl, h⟩ | ⟨rfl, h⟩ | ⟨rfl, h⟩
  all_goals exact congrArg Host.Outcome.next (if_neg (by simp [hst, h]))

theorem slipwayEntered_opens {s : State} {why : Fin 4} (hst : s.dev.st = .starting) (hcause : slipwayCause s why) : answers (.slipwayEntered why) s (fun u =>
    u.dev.st = .slipway ∧ u.mailA.st = 1 ∧ u.mailB.st = 1 ∧ logged u 0x0804) := by
  refine ⟨_, exec_slipwayEntered hst hcause, ?_, rfl, rfl, logged_logIsland ..⟩
  exact congrArg Dev.st (logIsland_dev DevSt.noConfusion ..)

theorem flashOwnRelease_restarts {s : State} (hgone : flashGone s = true) (hst : s.dev.st = .slipway) :
    answers .flashOwnRelease s (fun u => u.dev.flashOwn = false ∧ u.dev.st = .starting ∧ u.mailA.st = 0 ∧ u.mailB.st = 0) :=
  ⟨_, congrArg Host.Outcome.next (if_pos ⟨hgone, hst⟩), rfl, rfl, rfl, rfl⟩

/-! Resets of islands (R411 to R413). -/

theorem islands_ite {c : Prop} [Decidable c] {u w : State} {x : Table Island} (h : u.islands = x) (k : w.islands = x) :
    (if c then u else w).islands = x := prop_ite (P := fun u : State => u.islands = x) h k

theorem freeIfDone_islands (s : State) (th : ThreadId) : (freeIfDone s th).islands = s.islands := islands_ite rfl rfl

theorem resultWrite_islands (s : State) (seq : Nat) (l : List (Nat × List Byte)) : (resultWrite s seq l).1.islands = s.islands := by
  unfold resultWrite
  split
  · rfl
  · split
    · rfl
    · split <;> rfl

theorem writeLocs_islands (s : State) (th : ThreadId) (ls : List Loc) (bs : List Byte) : (writeLocs s th ls bs).1.islands = s.islands := by
  have hfold (l : List (Loc × Byte)) : (l.foldl (fun s p => objStore s th p.1.obj p.1.addr p.2) s).islands = s.islands :=
    field_of_far (far_foldl (fun s (p : Loc × Byte) => objStore s th p.1.obj p.1.addr p.2) (fun _ _ => objStore_far ..) l s) State.islands fun _ => rfl
  unfold writeLocs
  extract_lets host
  split
  · rfl
  · split
    · rfl
    · exact hfold _

theorem writeRange_islands (s : State) (th : ThreadId) (va : Nat) (bs : List Byte) : (writeRange s th va bs).1.islands = s.islands := by
  unfold writeRange
  split
  · rfl
  · exact writeLocs_islands ..

theorem jobWrite_islands (s : State) (j : Job) (off : Nat) (bs : List Byte) : (jobWrite s j off bs).1.islands = s.islands := by
  unfold jobWrite
  split
  · exact resultWrite_islands ..
  · split
    · rfl
    · exact writeRange_islands ..

theorem islands_of_asideJobs {id : Nat} {s u : State} (h : asideJobs id u = asideJobs id s) : u.islands = s.islands :=
  field_of_offJobs (asideJobs_parts h).1 State.islands fun _ => rfl

theorem jobStop_islands (s : State) (id : Nat) (j : Job) : (jobStop s id j).islands = s.islands := by
  have hscuttle (st : Nat) : (startScuttle s id j st).islands = s.islands := by
    have hw := jobWrite_islands s j 0 (zeros (touched j))
    unfold startScuttle
    generalize jobWrite s j 0 (zeros (touched j)) = r at hw ⊢
    obtain ⟨u, n⟩ := r
    simp only
    split
    · exact (freeIfDone_islands ..).trans hw
    · exact hw
  have hdrop : (dropJob s id).islands = s.islands := field_of_offJobs (dropJob_outcome s id).1 State.islands fun _ => rfl
  unfold jobStop
  refine islands_ite (hscuttle _) (islands_ite ?_ ?_)
  · extract_lets u
    split
    · exact (freeIfDone_islands ..).trans hdrop
    · exact hdrop
  · exact islands_of_asideJobs (id := id) ((assignUnits_asideJobs ..).trans (jobEnd_asideJobs ..))

/-- The reset of an engine starts its job again, which touches no island. -/
theorem engineReset_islands (s : State) (k : EngineKind) (code u n : Nat) : (engineReset s k code u n).islands = s.islands := by
  unfold engineReset
  split
  · rfl
  · rename_i id j _
    have hlog : (logIsland s 0x0704 2 n (toLe 1 code ++ toLe 1 u)).islands = s.islands :=
      field_of_unreported (logIsland_unreported ..) State.islands fun _ => rfl
    refine Eq.trans ?_ hlog
    generalize logIsland s 0x0704 2 n (toLe 1 code ++ toLe 1 u) = s
    unfold restartJob
    split
    · rfl
    · exact islands_ite (jobStop_islands ..) (islands_ite (islands_of_asideJobs (id := id) ((jobReady_asideJobs ..).trans (modJob_asideJobs id s id _ fun _ => rfl)))
        (islands_of_asideJobs (id := id) ((askKeys_asideJobs ..).trans (modJob_asideJobs id s id _ fun _ => rfl))))

theorem resetWork_engine_islands (s : State) {n : Nat} (hlow : 512 ≤ n) (hhigh : n < 568) : (resetWork s n).islands = s.islands := by
  unfold resetWork
  extract_lets b k p
  rw [dif_neg (by omega), if_neg (by omega), if_neg (by omega), if_neg (by omega)]
  refine islands_ite (engineReset_islands ..) (islands_ite (engineReset_islands ..) ?_)
  rw [if_pos hhigh]
  exact engineReset_islands ..

theorem islandReset_holds {s : State} {island : BitVec 10} (hn : islExists island.toNat = true) (hlight : island.toNat ≠ islLighthouse)
    (hrun : running s = true) (hreset : (islandOf s island.toNat).reset = false) (hout : (islandOf s island.toNat).out = false)
    (hon : (islandOf s island.toNat).state ≠ 0) (hhigh : island.toNat < 568) (hlow : 512 ≤ island.toNat) (cause : Fin 3) (dropped : BitVec 32) :
    answers (.islandReset island cause dropped) s (fun u => (islandOf u island.toNat).reset = true ∧ (islandOf u island.toNat).credits = false ∧
      (islandOf u island.toNat).resets = satInc (islandOf s island.toNat).resets 65535) := by
  have hoff : s.dev.st ≠ .off := fun h => by simp [running, h] at hrun
  have hhalted : s.dev.st ≠ .halted := fun h => by simp [running, h] at hrun
  have hhalf : (island.toNat == islHalf .a || island.toNat == islHalf .b) = false := by
    simp only [islHalf, Port.num, Bool.or_eq_false_iff, beq_eq_false_iff_ne]
    omega
  obtain ⟨w, hexec⟩ : ∃ w : State, exec (.islandReset island cause dropped) s = .next (resetWork (setIsland w island.toNat { islandOf w island.toNat with
      reset := true, resets := satInc (islandOf s island.toNat).resets 65535, credits := false, resync := true }) island.toNat) := by
    refine ⟨dropStores (dropsAt (logIsland s 0x0703 (Config.resetClass cause.val).val island.toNat (toLe 1 cause.val)) island.toNat dropped.toNat) island.toNat, ?_⟩
    show execIslandReset island cause dropped s = _
    unfold execIslandReset
    simp only [hhalf]
    rw [if_neg (by simp [hn, hlight, hoff, hhalted, hreset, hout, hon])]
    rfl
  refine ⟨_, hexec, ?_⟩
  have hsame (u : State) : islandOf (resetWork u island.toNat) island.toNat = islandOf u island.toNat := by
    unfold islandOf
    rw [resetWork_engine_islands u hlow hhigh]
  simp only [hsame, islandOf_setIsland_same]
  exact ⟨trivial, trivial, trivial⟩

theorem exec_islandResetExit {s : State} {island : BitVec 10} (hn : islExists island.toNat = true) (hreset : (islandOf s island.toNat).reset = true)
    (hout : (islandOf s island.toNat).out = false) (hoff : s.dev.st ≠ .off) (hhalted : s.dev.st ≠ .halted) :
    exec (.islandResetExit island) s = .next (mbPoll (islandBack s island.toNat)) :=
  congrArg Host.Outcome.next (if_neg (by simp [hn, hreset, hout, hoff, hhalted]))

/-- An island of the Quayside that leaves its reset is ON, with its credits granted (R413). -/
theorem islandBack_on (s : State) {n : Nat} (hlow : 568 ≤ n) (hhigh : n < 578) : (islandOf (islandBack s n) n).reset = false ∧
    (islandOf (islandBack s n) n).credits = true ∧ (islandOf (islandBack s n) n).state = 3 := by
  have hpair : pairOfIsland n = none := dif_neg (by omega)
  have hback : islandBack s n = deliverStores (setIsland s n { islAt (islandOf s n) 3 (islandOf s n).targetMhz with
      reset := false, resync := false, credits := true }) n := by
    unfold islandBack
    simp only [hpair]
    rw [if_neg (by unfold islStrongroom; omega), if_neg (by unfold islPilot; omega), if_pos (.inr hlow)]
    rfl
  have hisland (i : Island) : islandOf (deliverStores (setIsland s n i) n) n = i :=
    (field_of_far (deliverStores_far ..) (islandOf · n) fun _ => rfl).trans (islandOf_setIsland_same ..)
  rw [hback, hisland]
  exact ⟨rfl, rfl, rfl⟩

end Sys2Proof.Machine

namespace Sys2Proof.Proofs
open Sys2Proof.Machine

/-- Settles O59: each command by the lemma that says what it comes to; step 2 by enterStep2_fresh, the start of service by startService_full. -/
theorem resetsAndStartUp : Obligations.ResetsAndStartUp := by
  unfold Obligations.ResetsAndStartUp
  intro s island cause dropped pulse k why failed
  refine ⟨pwrGoodAonRise_lights, pwrGoodCoreRise_starts, pwrGoodCoreFall_loses, pwrGoodAonFall_loses, harbReset_starts, exec_harbReset_none,
    bootFailed_restarts, serviceStart_full, slipwayEntered_opens, rfl, flashOwnRelease_restarts, fun hst _ => ?_,
    fun hn hlight hrun hreset hout hon hhigh hlow => islandReset_holds hn hlight hrun hreset hout hon hhigh hlow cause dropped,
    fun hn hreset hout hoff hhalted => ⟨exec_islandResetExit hn hreset hout hoff hhalted, islandBack_on s⟩⟩
  exact congrArg Host.Outcome.next (if_neg fun h => hst h.2)

end Sys2Proof.Proofs
end

section
/-! PROOFS. Berth retry, hand-over, split, join and retirement (R337 to R344): what each command comes to. -/

namespace Sys2Proof.Machine

/-! Positions and pairs of a pier. -/

theorem posAt_of_piers {s u : State} (h : u.piers = s.piers) (p : Nat) (k : Fin 16) : posAt u p k = posAt s p k := by rw [posAt, pierOf, h]; rfl
theorem pairAt_of_piers {s u : State} (h : u.piers = s.piers) (p n : Nat) : pairAt u p n = pairAt s p n := by
  unfold pairAt pierOf
  rw [h]
theorem islandOf_of_islands {s u : State} (h : u.islands = s.islands) (n : Nat) : islandOf u n = islandOf s n := by
  unfold islandOf
  rw [h]
theorem lowestSpare_of_piers {s u : State} (h : u.piers = s.piers) (p : PierId) : lowestSpare u p = lowestSpare s p := by
  unfold lowestSpare
  simp only [pairAt_of_piers h]

@[simp] theorem posAt_setPos_same (s : State) (p : Nat) (k : Fin 16) (v : Position) : posAt (setPos s p k v) p k = v := by
  unfold posAt setPos
  simp only [pierOf_setPier_same]
  exact Vector.getElem_set_self k.isLt

theorem pairAt_setPier (s : State) (p q n : Nat) {v : Pier} (h : v.pairs = (pierOf s p).pairs) : pairAt (setPier s p v) q n = pairAt s q n := by
  unfold pairAt
  by_cases hq : q = p
  · rw [hq, pierOf_setPier_same, h]
  · rw [pierOf_setPier_other s v hq]

@[simp] theorem pairAt_setPos (s : State) (p n : Nat) (k : Fin 16) (v : Position) : pairAt (setPos s p k v) p n = pairAt s p n :=
  pairAt_setPier s p p n rfl

@[simp] theorem posAt_setPair (s : State) (p n : Nat) (k : Fin 16) (v : Pair18) : posAt (setPair s p n v) p k = posAt s p k := by
  unfold posAt setPair
  split
  · simp only [pierOf_setPier_same]
  · rfl

theorem pairAt_setPair_same (s : State) (p : Nat) {n : Nat} (h : n < 18) (v : Pair18) : pairAt (setPair s p n v) p n = v := by
  unfold pairAt setPair
  simp only [h, dite_true, pierOf_setPier_same]
  exact Vector.getElem_set_self h

theorem pairAt_setPair_other (s : State) (p : Nat) {n m : Nat} (h : m ≠ n) (v : Pair18) : pairAt (setPair s p n v) p m = pairAt s p m := by
  unfold setPair
  split
  · unfold pairAt
    simp only [pierOf_setPier_same]
    split
    · exact Vector.getElem_set_ne _ _ h.symm
    · rfl
  · rfl

@[simp] theorem setPair_threads (s : State) (p n : Nat) (v : Pair18) : (setPair s p n v).threads = s.threads := by
  unfold setPair
  split <;> rfl
@[simp] theorem setPair_islands (s : State) (p n : Nat) (v : Pair18) : (setPair s p n v).islands = s.islands := by
  unfold setPair
  split <;> rfl

theorem inPier_lt (pr : PairId) : pr.inPier < 18 := Nat.mod_lt _ (by omega)

theorem pairId_inPier (pr : PairId) (h : pr.inPier < 18) : pairId pr.pier ⟨pr.inPier, h⟩ = pr :=
  Fin.ext (by simp only [pairId, PairId.pier, PairId.inPier]; omega)

/-- A spare that a pier wakes is one of its own. -/
theorem lowestSpare_some {s : State} {p : PierId} {sp : PairId} (h : lowestSpare s p = some sp) : sp.pier = p ∧ (pairAt s p.val sp.inPier).use = .spare := by
  obtain ⟨n, hn, rfl⟩ := Option.map_eq_some_iff.mp h
  have huse := List.find?_some hn
  have hpier : (pairId p n).pier = p := Fin.ext (by simp only [pairId, PairId.pier]; omega)
  have hinPier : (pairId p n).inPier = n.val := by simp only [pairId, PairId.inPier]; omega
  rw [hpier, hinPier]
  exact ⟨rfl, of_decide_eq_true huse⟩

/-! Entries of pairs, and the completion of what waited for a berth. -/

theorem logged_logAdd (s : State) (code cls island place tenant seq : Nat) (d : List Byte) :
    logged (logAdd s code cls island place tenant seq d) code := by
  unfold logAdd
  extract_lets now fresh
  split
  · split
    · rename_i h
      exact congrArg some h.1
    · exact (congrArg (·.head?.map (·.code)) (arrive_log ..)).trans rfl
  · exact (congrArg (·.head?.map (·.code)) (arrive_log ..)).trans rfl

@[simp] theorem logPair_logged (s : State) (code cls : Nat) (pr : PairId) (d : List Byte) : logged (logPair s code cls pr d) code := logged_logAdd ..
theorem logPair_piers (s : State) (code cls : Nat) (pr : PairId) (d : List Byte) : (logPair s code cls pr d).piers = s.piers :=
  field_of_unreported (logAdd_unreported ..) State.piers fun _ => rfl
theorem logPair_islands (s : State) (code cls : Nat) (pr : PairId) (d : List Byte) : (logPair s code cls pr d).islands = s.islands :=
  field_of_unreported (logAdd_unreported ..) State.islands fun _ => rfl
@[simp] theorem logPair_clock (s : State) (code cls : Nat) (pr : PairId) (d : List Byte) : (logPair s code cls pr d).clock = s.clock :=
  field_of_unreported (logAdd_unreported ..) State.clock fun _ => rfl

theorem endBerthOps_besideMail (s : State) (pr : PairId) : besideMail (endBerthOps s pr) = besideMail s := by
  simp only [endBerthOps, mbFinishOp_besideMail]
theorem endBerthOps_piers (s : State) (pr : PairId) : (endBerthOps s pr).piers = s.piers :=
  field_of_besideMail (endBerthOps_besideMail ..) State.piers fun _ => rfl
theorem endBerthOps_islands (s : State) (pr : PairId) : (endBerthOps s pr).islands = s.islands :=
  field_of_besideMail (endBerthOps_besideMail ..) State.islands fun _ => rfl
theorem endBerthOps_logged {s : State} {code : Nat} (h : logged s code) (pr : PairId) : logged (endBerthOps s pr) code :=
  logged_of_log (field_of_besideMail (endBerthOps_besideMail ..) State.log fun _ => rfl) h

/-! A retired pair (R340, R342). -/

theorem retirePair_holds (s : State) (pr : PairId) (reason : Nat) :
    (pairAt (retirePair s pr reason) pr.pier.val pr.inPier).use = .retired ∧
    (islandOf (retirePair s pr reason) (islPair pr.val)).state = 0 ∧ (islandOf (retirePair s pr reason) (islPair pr.val)).out = true ∧
    logged (retirePair s pr reason) 0x0105 ∧ (∀ k, posAt (retirePair s pr reason) pr.pier.val k = posAt s pr.pier.val k) ∧
    (∀ n, n ≠ pr.inPier → pairAt (retirePair s pr reason) pr.pier.val n = pairAt s pr.pier.val n) := by
  unfold retirePair
  extract_lets q u i w
  have hpiers := logPair_piers w 0x0105 1 pr (toLe 1 pr.inPier ++ toLe 1 reason)
  have hislands := logPair_islands w 0x0105 1 pr (toLe 1 pr.inPier ++ toLe 1 reason)
  have hpair (n : Nat) : pairAt (logPair w 0x0105 1 pr (toLe 1 pr.inPier ++ toLe 1 reason)) pr.pier.val n = pairAt u pr.pier.val n := pairAt_of_piers hpiers ..
  have hisland : islandOf (logPair w 0x0105 1 pr (toLe 1 pr.inPier ++ toLe 1 reason)) (islPair pr.val) = _ :=
    (islandOf_of_islands hislands _).trans (islandOf_setIsland_same ..)
  refine ⟨?_, congrArg Island.state hisland, congrArg Island.out hisland, logPair_logged .., fun k => ?_, fun n hn => ?_⟩
  · rw [hpair, pairAt_setPair_same _ _ (inPier_lt pr)]
  · exact (posAt_of_piers hpiers ..).trans (posAt_setPair ..)
  · exact (hpair n).trans (pairAt_setPair_other _ _ hn _)

/-! Restored threads (R337). -/

/-- A thread that goes back to its checkpoint. -/
def restoredThread (t : Thread) : Thread :=
  if t.run = .free ∨ t.run = .noPair ∨ t.arch = t.ck then { t with gated := [], sinceCk := 0 }
  else { t with arch := t.ck, gated := [], sinceCk := 0, wait := none, moorAt := none,
                run := match t.run with
                  | .waitcp _ _ => .active
                  | .hold => .active
                  | .moor => .active
                  | r => r }

theorem restoreThread_eq (s : State) (th : ThreadId) : restoreThread s th = modThr s th restoredThread := rfl

/-- The thread runs its checkpoint, and none of its gated stores is left (R337). -/
theorem restoredThread_ck {t : Thread} (hfree : t.run ≠ .free) (hpair : t.run ≠ .noPair) :
    (restoredThread t).arch = t.ck ∧ (restoredThread t).gated = [] := by
  unfold restoredThread
  split
  · rename_i h
    exact ⟨(h.resolve_left hfree).resolve_left hpair, rfl⟩
  · exact ⟨rfl, rfl⟩

/-- A change made to each thread of a list that names none twice. -/
theorem thr_foldl_modThr (f : Thread → Thread) {l : List ThreadId} (hl : l.Nodup) (s : State) (x : ThreadId) :
    thr (l.foldl (fun s th => modThr s th f) s) x = if x ∈ l then f (thr s x) else thr s x := by
  induction l generalizing s with
  | nil => rfl
  | cons a l ih =>
    obtain ⟨ha, hl⟩ := List.nodup_cons.mp hl
    rw [List.foldl_cons, ih hl]
    by_cases hx : x = a
    · subst hx
      simp [ha]
    · simp [hx, thr_modThr_other s f hx]

theorem threadsAt_nodup (p : PierId) (k : Fin 16) : (threadsAt p k).Nodup :=
  (List.nodup_finRange 4).map fun a b h => Fin.ext (by simpa [threadAt] using congrArg Fin.val h)

theorem foldl_restoreThread_rest (l : List ThreadId) (s : State) : (l.foldl restoreThread s).piers = s.piers ∧ (l.foldl restoreThread s).islands = s.islands ∧
    (l.foldl restoreThread s).log = s.log :=
  List.foldlRecOn (motive := fun u : State => u.piers = s.piers ∧ u.islands = s.islands ∧ u.log = s.log) l _ ⟨rfl, rfl, rfl⟩ fun _ hu _ _ => hu

/-- A restored berth: the threads named go back to their checkpoints, the others stay, and its self-test stands as it stood. -/
theorem restoreBerth_holds (s : State) (p : PierId) (k : Fin 16) (which : ThreadId → Bool) :
    (∀ x ∈ threadsAt p k, thr (restoreBerth s p k which) x = if which x then restoredThread (thr s x) else thr s x) ∧
    (restoreBerth s p k which).log = s.log ∧ (posAt (restoreBerth s p k which) p.val k).selfTest = (posAt s p.val k).selfTest := by
  unfold restoreBerth
  extract_lets ths u wait v
  obtain ⟨hpiers, -, hlog⟩ := foldl_restoreThread_rest ths s
  refine ⟨fun x hx => ?_, hlog, ?_⟩
  · refine (thr_foldl_modThr restoredThread ((threadsAt_nodup p k).filter _) s x).trans ?_
    simp [hx]
  · rw [posAt_setPos_same]
    exact congrArg Position.selfTest (a₁ := v) (posAt_of_piers hpiers ..)

/-- Threads that go back to their checkpoints, or stay, from a state with the same threads. -/
theorem restoreBerth_threads {s w : State} (h : w.threads = s.threads) (p : PierId) (k : Fin 16) (which : ThreadId → Bool) :
    (∀ x ∈ threadsAt p k, which x = true → (thr s x).run ≠ .free → (thr s x).run ≠ .noPair →
      (thr (restoreBerth w p k which) x).arch = (thr s x).ck ∧ (thr (restoreBerth w p k which) x).gated = []) ∧
    (∀ x ∈ threadsAt p k, which x = false → thr (restoreBerth w p k which) x = thr s x) := by
  obtain ⟨hthr, -, -⟩ := restoreBerth_holds w p k which
  have hsame (x : ThreadId) : thr w x = thr s x := by rw [thr, h]; rfl
  refine ⟨fun x hx hw hfree hpair => ?_, fun x hx hw => ?_⟩
  · rw [hthr x hx, if_pos hw, hsame]
    exact restoredThread_ck hfree hpair
  · rw [hthr x hx, if_neg (by simp [hw]), hsame]

theorem answers_of_exec {c : Instr} {s t : State} {P : State → Prop} (hexec : exec c s = .next t) (ht : P t) : answers c s P := ⟨t, hexec, ht⟩

/-- An operation that carries the mark of injection answers what it comes to without the mark (R354). -/
theorem answers_asInjected {c : Instr} {s : State} {P : State → Prop} (hP : ∀ u d, P u → P { u with dev := d })
    {b : Bool} {f : State → State} (hexec : exec c s = .next (asInjected b f s)) (hf : ∀ d, P (f { s with dev := d })) : answers c s P :=
  ⟨_, hexec, asInjected_of hP hf b⟩

/-- An entry, a position that is written and threads that go back to their checkpoints. -/
theorem restoreBerth_logged (s w : State) (h : w.threads = s.threads) (code cls : Nat) (pr : PairId) (d : List Byte) (p : PierId) (k : Fin 16) (v : Position)
    (which : ThreadId → Bool) :
    let u := restoreBerth (setPos (logPair w code cls pr d) p.val k v) p k which
    logged u code ∧ (posAt u p.val k).selfTest = v.selfTest ∧
    (∀ x ∈ threadsAt p k, which x = true → (thr s x).run ≠ .free → (thr s x).run ≠ .noPair → (thr u x).arch = (thr s x).ck ∧ (thr u x).gated = []) ∧
    (∀ x ∈ threadsAt p k, which x = false → thr u x = thr s x) := by
  have hthreads : (logPair w code cls pr d).threads = w.threads := logAdd_threads ..
  obtain ⟨-, hlog, htest⟩ := restoreBerth_holds (setPos (logPair w code cls pr d) p.val k v) p k which
  refine ⟨logged_of_log hlog (logPair_logged ..), htest.trans (congrArg Position.selfTest (posAt_setPos_same ..)), restoreBerth_threads ?_ ..⟩
  exact hthreads.trans h

/-- The same where every thread of the berth goes back. -/
theorem restoreBerth_all (s w : State) (h : w.threads = s.threads) (code cls : Nat) (pr : PairId) (d : List Byte) (p : PierId) (k : Fin 16) {v : Position}
    (hv : v.selfTest = false) :
    let u := restoreBerth (setPos (logPair w code cls pr d) p.val k v) p k (fun _ => true)
    logged u code ∧ (posAt u p.val k).selfTest = false ∧
    (∀ x ∈ threadsAt p k, (thr s x).run ≠ .free → (thr s x).run ≠ .noPair → (thr u x).arch = (thr s x).ck ∧ (thr u x).gated = []) := by
  obtain ⟨hlogged, htest, hthreads, -⟩ := restoreBerth_logged s w h code cls pr d p k v fun _ => true
  exact ⟨hlogged, htest.trans hv, fun x hx => hthreads x hx rfl⟩

theorem wantHandover_asks {s : State} {p : PierId} {sp : PairId} (h : lowestSpare s p = some sp) (k : Fin 16) (pr : PairId) (reason : Nat) :
    wantHandover s p k pr reason = setPos s p.val k { posAt s p.val k with handover := some (reason, nowNs s), selfTest := true } := by
  unfold wantHandover
  rw [h]

/-! A berth that moves, and one that is lost (R340, R341). -/

theorem moveBerth_holds (s : State) (k : Fin 16) (old : PairId) {new : PairId} (reason since : Nat) (hne : new.inPier ≠ old.inPier) :
    let u := moveBerth s old.pier k old new reason since
    (posAt u old.pier.val k).pair = some new.inPier ∧ (posAt u old.pier.val k).handover = none ∧ (posAt u old.pier.val k).selfTest = false ∧
    (pairAt u old.pier.val new.inPier).use = .busy ∧ (pairAt u old.pier.val old.inPier).use = .retired ∧
    (islandOf u (islPair old.val)).state = 0 ∧ (islandOf u (islPair old.val)).out = true ∧ logged u 0x0105 := by
  unfold moveBerth
  extract_lets v s1 q s2 s3 s4 s5 i s6 s7
  obtain ⟨hpiers4, -, -⟩ := foldl_restoreThread_rest (threadsAt old.pier k) s3
  have hpiers5 : s5.piers = s4.piers := by
    refine List.foldlRecOn (motive := fun u : State => u.piers = s4.piers) _ _ rfl fun u hu th _ => ?_
    exact prop_ite (P := fun w : State => w.piers = s4.piers) hu hu
  have hpiers53 : s5.piers = s3.piers := hpiers5.trans hpiers4
  clear_value s5
  have hpiers : s7.piers = s3.piers := (logPair_piers ..).trans hpiers53
  clear_value s7
  obtain ⟨hretired, hstate, hout, hlogged, hposs, hpairs⟩ := retirePair_holds s7 old reason
  have hpiersE := endBerthOps_piers (retirePair s7 old reason) old
  have hislandsE := endBerthOps_islands (retirePair s7 old reason) old
  have hpos (j : Fin 16) : posAt (endBerthOps (retirePair s7 old reason) old) old.pier.val j = posAt s3 old.pier.val j :=
    (posAt_of_piers hpiersE ..).trans ((hposs j).trans (posAt_of_piers hpiers ..))
  have hisland := islandOf_of_islands hislandsE (islPair old.val)
  rw [hpos, hisland, pairAt_of_piers hpiersE, pairAt_of_piers hpiersE, hpairs _ hne, pairAt_of_piers hpiers, posAt_setPos_same, pairAt_setPos,
    pairAt_setPair_same _ _ (inPier_lt new)]
  exact ⟨rfl, rfl, rfl, rfl, hretired, hstate, hout, endBerthOps_logged hlogged old⟩

theorem loseThread_pairAt (s : State) (th : ThreadId) (p n : Nat) : pairAt (loseThread s th) p n = pairAt s p n := by
  have hdrop (u : State) : (dropCset u th).piers = u.piers := prop_ite (P := fun w : State => w.piers = u.piers) rfl rfl
  have hcancel (u : State) : pairAt (cancelWork u th) p n = pairAt u p n := by
    have hjobs : ∀ l : List (Nat × Job), (l.foldl (fun s e => cancelJob s e.1) u).piers = u.piers := fun l =>
      List.foldlRecOn (motive := fun w : State => w.piers = u.piers) l _ rfl fun w hw e _ => by
        refine Eq.trans ?_ hw
        unfold cancelJob
        split
        · rfl
        · exact prop_ite (P := fun x : State => x.piers = w.piers) rfl rfl
    unfold cancelWork
    extract_lets w v cpq x
    have hw : pairAt w p n = pairAt u p n := pairAt_of_piers (hjobs _) p n
    clear_value w
    show pairAt x p n = _
    exact (pairAt_setPier w th.pier.val p n (v := { v with cpq := cpq }) rfl).trans hw
  refine (hcancel _).trans (pairAt_of_piers ?_ p n)
  exact prop_ite (P := fun w : State => w.piers = s.piers) (hdrop s) rfl

/-- A pair that is retired stays so when a berth of its pier is lost. -/
theorem loseBerth_retired {s : State} {pr : PairId} {n : Nat} (h : (pairAt s pr.pier.val n).use = .retired) (k : Fin 16) (reason : Nat) :
    (pairAt (loseBerth s pr.pier k pr reason) pr.pier.val n).use = .retired := by
  unfold loseBerth
  extract_lets ths lost s1 s2 s3
  have h1 : pairAt s1 pr.pier.val n = pairAt s pr.pier.val n :=
    List.foldlRecOn (motive := fun u => pairAt u pr.pier.val n = pairAt s pr.pier.val n) ths _ rfl fun _ hu _ _ => (loseThread_pairAt ..).trans hu
  have hpiers3 : s3.piers = s2.piers := logPair_piers ..
  have h3 : pairAt s3 pr.pier.val n = pairAt s pr.pier.val n := (pairAt_of_piers hpiers3 ..).trans ((pairAt_setPos ..).trans h1)
  clear_value s3
  obtain ⟨hretired, -, -, -, -, hpairs⟩ := retirePair_holds (clearL1 s3 pr.pier pr.inPier) pr reason
  have hpiersE := endBerthOps_piers (retirePair (clearL1 s3 pr.pier pr.inPier) pr reason) pr
  rw [pairAt_of_piers hpiersE]
  by_cases hn : n = pr.inPier
  · rw [hn]
    exact hretired
  · rw [hpairs n hn]
    exact (congrArg Pair18.use h3).trans h

/-! The commands. -/

/-- The entry of a berth whose position is written, with what waited for it. -/
theorem reconfigured_holds (w : State) (pair : PairId) (k : Fin 16) (v : Position) (code cls : Nat) (d : List Byte) :
    let u := endBerthOps (logPair (setPos w pair.pier.val k v) code cls pair d) pair
    posAt u pair.pier.val k = v ∧ logged u code := by
  refine ⟨?_, endBerthOps_logged (logPair_logged ..) pair⟩
  rw [posAt_of_piers (endBerthOps_piers ..), posAt_of_piers (logPair_piers ..), posAt_setPos_same]

section Commands
variable {s : State} {pair : PairId} {k : Fin 16} (hrun : running s = true)
include hrun

section Detection
variable {thread : BitVec 8} {kind : Fin 3} {lane : BitVec 16} (htest : (posAt s pair.pier.val k).selfTest = false)
  (hup : basinUp s pair.pier.basin.val = true) (hsplit : (posAt s pair.pier.val k).split = true → kind.val ≠ 0)
include htest hup hsplit

theorem mismatchDetected_goes : ¬ ((!running s) = true ∨ (!basinUp s pair.pier.basin.val) = true ∨ (posAt s pair.pier.val k).selfTest = true ∨
    ((posAt s pair.pier.val k).split = true ∧ kind.val = 0)) := by
  simp only [hrun, hup, htest]
  simpa using hsplit

variable (hpos : posOfPair s pair = some k)
include hpos

theorem mismatchDetected_restores (htries : (posAt s pair.pier.val k).event.getD 0 < 2) :
    answers (.mismatchDetected pair thread kind lane) s (fun u => logged u 0x0101 ∧
      (∀ x ∈ threadsAt pair.pier k, coreThreads (posAt s pair.pier.val k) thread.toNat x = true → (thr s x).run ≠ .free → (thr s x).run ≠ .noPair →
        (thr u x).arch = (thr s x).ck ∧ (thr u x).gated = []) ∧
      (∀ x ∈ threadsAt pair.pier k, coreThreads (posAt s pair.pier.val k) thread.toNat x = false → thr u x = thr s x)) := by
  have hgoes := mismatchDetected_goes hrun htest hup hsplit
  refine answers_asInjected (b := ?b) (f := ?f) (fun _ _ h => h) ?hexec fun d => ?hdone
  case hexec =>
    show Host.Outcome.next (mismatchAt s pair thread.toNat kind.val lane.toNat) = _
    unfold mismatchAt
    simp only [hpos]
    rw [if_neg hgoes, if_pos htries]
  case hdone =>
    obtain ⟨hlogged, -, hthreads⟩ := restoreBerth_logged s { s with dev := d } rfl 0x0101 0 pair
      (toLe 1 thread.toNat ++ toLe 1 kind.val ++ toLe 1 ((posAt s pair.pier.val k).event.getD 0 + 1) ++ toLe 2 lane.toNat) pair.pier k
      { posAt s pair.pier.val k with
        injected := if (posAt s pair.pier.val k).event.isSome then (posAt s pair.pier.val k).injected else s.dev.injecting,
        event := some ((posAt s pair.pier.val k).event.getD 0 + 1) }
      (coreThreads (posAt s pair.pier.val k) thread.toNat)
    exact ⟨hlogged, hthreads⟩

theorem mismatchDetected_tests (htries : 2 ≤ (posAt s pair.pier.val k).event.getD 0) :
    exec (.mismatchDetected pair thread kind lane) s = .next (setPos s pair.pier.val k { posAt s pair.pier.val k with selfTest := true }) := by
  have hgoes := mismatchDetected_goes hrun htest hup hsplit
  have hevent : (posAt s pair.pier.val k).event.isSome = true := by
    cases h : (posAt s pair.pier.val k).event with
    | none => simp [h] at htries
    | some n => rfl
  show Host.Outcome.next (mismatchAt s pair thread.toNat kind.val lane.toNat) = _
  unfold mismatchAt
  simp only [hpos]
  rw [if_neg hgoes, if_neg (by omega), if_pos hevent]

end Detection

section SelfTest
variable {core parts : BitVec 8} (hpos : posOfPair s pair = some k) (htest : (posAt s pair.pier.val k).selfTest = true)
  (hhandover : (posAt s pair.pier.val k).handover = none)
include hpos htest hhandover

theorem selftestDone_passed (hcore : core = 0)
    (hpasses : ((pairAt s pair.pier.val pair.inPier).passes.filter (fun t => nowNs s < t + 3600000000000)).length < 2) :
    answers (.selftestDone pair core parts) s (fun u => logged u 0x0102 ∧ (posAt u pair.pier.val k).selfTest = false ∧
      ∀ x ∈ threadsAt pair.pier k, (thr s x).run ≠ .free → (thr s x).run ≠ .noPair → (thr u x).arch = (thr s x).ck ∧ (thr u x).gated = []) := by
  refine answers_asInjected (b := ?b) (f := ?f) (fun _ _ h => h) ?hexec fun d => ?hdone
  case hexec =>
    show execSelftestDone pair core parts s = _
    unfold execSelftestDone
    simp only [hpos]
    rw [if_neg (by simp [hrun, htest, hhandover])]
  case hdone =>
    rw [if_neg (by simp [hcore]), if_neg (by exact Nat.ne_of_lt hpasses)]
    generalize hw : setPair _ _ _ _ = w
    have hthreads : w.threads = s.threads := by
      rw [← hw]
      exact setPair_threads ..
    exact restoreBerth_all s w hthreads 0x0102 0 pair _ pair.pier k rfl

theorem selftestDone_failed {sp : PairId} (hcore : core ≠ 0) (hspare : lowestSpare s pair.pier = some sp) :
    answers (.selftestDone pair core parts) s (fun u => logged u 0x0103 ∧ (posAt u pair.pier.val k).handover = some (0, nowNs s)) := by
  refine answers_asInjected (b := ?b) (f := ?f) (fun _ _ h => h) ?hexec fun d => ?hdone
  case hexec =>
    show execSelftestDone pair core parts s = _
    unfold execSelftestDone
    simp only [hpos]
    rw [if_neg (by simp [hrun, htest, hhandover])]
  case hdone =>
    rw [if_pos hcore]
    have hpiers := logPair_piers (clearL1 { s with dev := d } pair.pier pair.inPier) 0x0103 1 pair (toLe 1 core.toNat ++ toLe 1 parts.toNat)
    rw [wantHandover_asks ((lowestSpare_of_piers (s := s) hpiers pair.pier).trans hspare), posAt_setPos_same]
    refine ⟨logged_of_log rfl (logPair_logged ..), ?_⟩
    exact congrArg (fun c : Clock => some (0, c.ps / 1000)) (logPair_clock ..)

end SelfTest

section Handover
variable {sp : PairId} {reason t0 : Nat} {lane lanes : BitVec 16} (hup : basinUp s pair.pier.basin.val = true) (hnext : nextHandover s pair.pier = some k)
  (hasked : (posAt s pair.pier.val k).handover = some (reason, t0)) (hheld : (posAt s pair.pier.val k).pair = some pair.inPier)
  (hspare : lowestSpare s pair.pier = some sp)
include hup hnext hasked hheld hspare

theorem handover_moves (huse : (pairAt s pair.pier.val pair.inPier).use ≠ .spare) : answers (.handover pair.pier true lane lanes) s (fun u =>
    (posAt u pair.pier.val k).pair = some sp.inPier ∧ (posAt u pair.pier.val k).handover = none ∧ (posAt u pair.pier.val k).selfTest = false ∧
    (pairAt u pair.pier.val sp.inPier).use = .busy ∧ (pairAt u pair.pier.val pair.inPier).use = .retired ∧
    (islandOf u (islPair pair.val)).state = 0 ∧ (islandOf u (islPair pair.val)).out = true ∧ logged u 0x0105) := by
  obtain ⟨-, hspareUse⟩ := lowestSpare_some hspare
  have hne : sp.inPier ≠ pair.inPier := fun h => huse (h ▸ hspareUse)
  refine answers_asInjected (b := ?b) (f := ?f) (fun _ _ h => h) ?hexec fun d => ?hdone
  case hexec =>
    show execHandover pair.pier true lane lanes s = _
    unfold execHandover
    simp only [hnext, hasked, hheld, hspare]
    rw [if_neg (by simp [hrun, hup]), dif_pos (inPier_lt pair)]
  case hdone =>
    simp only [if_true, pairId_inPier]
    exact moveBerth_holds _ k pair reason t0 hne

theorem handover_retires : answers (.handover pair.pier false lane lanes) s (fun u => (pairAt u pair.pier.val sp.inPier).use = .retired) := by
  obtain ⟨hpier, -⟩ := lowestSpare_some hspare
  refine answers_asInjected (b := ?b) (f := ?f) (fun _ _ h => h) ?hexec fun d => ?hdone
  case hexec =>
    show execHandover pair.pier false lane lanes s = _
    unfold execHandover
    simp only [hnext, hasked, hheld, hspare]
    rw [if_neg (by simp [hrun, hup]), dif_pos (inPier_lt pair)]
  case hdone =>
    simp only [Bool.false_eq_true, if_false, pairId_inPier]
    generalize logPair _ 0x0107 1 sp _ = s1
    obtain ⟨hretired, -⟩ := retirePair_holds s1 sp 4
    rw [hpier] at hretired
    split
    · exact loseBerth_retired hretired k reason
    · exact hretired

end Handover

section Reconfigure
variable {pass : Bool} {lane lanes : BitVec 16} {port : Port} (hup : basinUp s pair.pier.basin.val = true)
  (hdrained : ∀ x ∈ threadsAt pair.pier k, (thr s x).run = .free) (hhandover : (posAt s pair.pier.val k).handover = none)
  (htest : (posAt s pair.pier.val k).selfTest = false)
include hup hdrained hhandover htest

theorem berthReconfigure_goes : ¬ ((!running s) = true ∨ (!basinUp s pair.pier.basin.val) = true ∨
    (!(threadsAt pair.pier k).all (fun th => decide ((thr s th).run = .free))) = true ∨ (posAt s pair.pier.val k).handover.isSome = true ∨
    (posAt s pair.pier.val k).selfTest = true) := by
  have hall : (threadsAt pair.pier k).all (fun th => decide ((thr s th).run = .free)) = true :=
    List.all_eq_true.mpr fun x hx => decide_eq_true (hdrained x hx)
  simp [hrun, hup, hall, hhandover, htest]

variable (hpos : posOfPair s pair = some k)
include hpos

theorem berthReconfigure_retires (hretiring : (posAt s pair.pier.val k).retiring = some port) :
    answers (.berthReconfigure pair pass lane lanes) s (fun u => posAt u pair.pier.val k = {} ∧ (pairAt u pair.pier.val pair.inPier).use = .retired ∧
      (islandOf u (islPair pair.val)).state = 0 ∧ logged u 0x0105) := by
  have hgoes := berthReconfigure_goes hrun hup hdrained hhandover htest
  refine answers_of_exec (t := ?t) ?hexec ?hdone
  case hexec =>
    show execBerthReconfigure pair pass lane lanes s = _
    unfold execBerthReconfigure
    simp only [hpos, hretiring]
    rw [if_neg hgoes]
  case hdone =>
    generalize hw : clearL1 _ _ _ = w
    obtain ⟨hretired, hstate, -, hlogged, hposs, -⟩ := retirePair_holds w pair 2
    have hposw : posAt w pair.pier.val k = {} := by
      rw [← hw]
      exact posAt_setPos_same ..
    refine ⟨?_, ?_, ?_, endBerthOps_logged hlogged pair⟩
    · exact (posAt_of_piers (endBerthOps_piers ..) ..).trans ((hposs k).trans hposw)
    · exact (congrArg Pair18.use (pairAt_of_piers (endBerthOps_piers ..) ..)).trans hretired
    · exact (congrArg Island.state (islandOf_of_islands (endBerthOps_islands ..) _)).trans hstate

theorem berthReconfigure_splits (hretiring : (posAt s pair.pier.val k).retiring = none) (hreconf : (posAt s pair.pier.val k).reconf = some (true, port)) :
    answers (.berthReconfigure pair pass lane lanes) s (fun u =>
      posAt u pair.pier.val k = { posAt s pair.pier.val k with split := true, reconf := none } ∧ logged u 0x0109) := by
  have hgoes := berthReconfigure_goes hrun hup hdrained hhandover htest
  refine answers_of_exec (t := ?t) ?hexec ?hdone
  case hexec =>
    show execBerthReconfigure pair pass lane lanes s = _
    unfold execBerthReconfigure
    simp only [hpos, hretiring, hreconf]
    rw [if_neg hgoes]
  case hdone => exact And.imp_left (fun h => h.trans (by simp only [hretiring])) (reconfigured_holds ..)

theorem berthReconfigure_joins (hretiring : (posAt s pair.pier.val k).retiring = none) (hreconf : (posAt s pair.pier.val k).reconf = some (false, port)) :
    answers (.berthReconfigure pair true lane lanes) s (fun u =>
      posAt u pair.pier.val k = { posAt s pair.pier.val k with split := false, reconf := none } ∧ logged u 0x010A) := by
  have hgoes := berthReconfigure_goes hrun hup hdrained hhandover htest
  refine answers_of_exec (t := ?t) ?hexec ?hdone
  case hexec =>
    show execBerthReconfigure pair true lane lanes s = _
    unfold execBerthReconfigure
    simp only [hpos, hretiring, hreconf]
    rw [if_neg hgoes]
  case hdone => exact And.imp_left (fun h => h.trans (by simp only [hretiring])) (reconfigured_holds ..)

end Reconfigure

section DailyTest
variable {lane lanes : BitVec 16} (huse : (pairAt s pair.pier.val pair.inPier).use = .spare)
  (hdue : (pairAt s pair.pier.val pair.inPier).tested + 86400000000000 ≤ nowNs s)
include huse hdue

theorem dailyComparatorTest_goes : ¬ ((!running s) = true ∨ (pairAt s pair.pier.val pair.inPier).use ≠ .spare ∨
    nowNs s < (pairAt s pair.pier.val pair.inPier).tested + 86400000000000) := by
  simp [hrun, huse]
  omega

theorem dailyComparatorTest_passes : answers (.dailyComparatorTest pair lane 0) s (fun u => (islandOf u (islPair pair.val)).test = 1 ∧
    (pairAt u pair.pier.val pair.inPier).use = .spare ∧ (pairAt u pair.pier.val pair.inPier).tested = nowNs s) := by
  have hexec : exec (.dailyComparatorTest pair lane 0) s = .next (setIsland
      (setPair s pair.pier.val pair.inPier { pairAt s pair.pier.val pair.inPier with tested := nowNs s }) (islPair pair.val)
      { islandOf (setPair s pair.pier.val pair.inPier { pairAt s pair.pier.val pair.inPier with tested := nowNs s }) (islPair pair.val) with test := 1 }) :=
    congrArg Host.Outcome.next ((if_neg (dailyComparatorTest_goes hrun huse hdue)).trans (if_pos rfl))
  refine ⟨_, hexec, congrArg Island.test (islandOf_setIsland_same ..), ?_, ?_⟩
  · exact (congrArg Pair18.use (pairAt_setPair_same s _ (inPier_lt pair) _)).trans huse
  · exact congrArg Pair18.tested (pairAt_setPair_same s _ (inPier_lt pair) _)

theorem dailyComparatorTest_fails (hlanes : lanes ≠ 0) : answers (.dailyComparatorTest pair lane lanes) s (fun u =>
    (pairAt u pair.pier.val pair.inPier).use = .retired ∧ (islandOf u (islPair pair.val)).out = true ∧ logged u 0x0105) := by
  refine answers_of_exec (t := retirePair ?w pair 5) ?hexec ?hdone
  case hexec =>
    show execDailyComparatorTest pair lane lanes s = _
    unfold execDailyComparatorTest
    rw [if_neg (dailyComparatorTest_goes hrun huse hdue)]
    dsimp only
    rw [if_neg hlanes]
  case hdone =>
    generalize logPair _ _ _ _ _ = w
    obtain ⟨hretired, -, hout, hlogged, -⟩ := retirePair_holds w pair 5
    exact ⟨hretired, hout, hlogged⟩

end DailyTest

end Commands

end Sys2Proof.Machine

namespace Sys2Proof.Proofs
open Sys2Proof.Machine

/-- Settles O46: each command by the lemma that says what it comes to; restored threads by restoreBerth_holds, retired pairs by retirePair_holds. -/
theorem berthsRecover : Obligations.BerthsRecover := by
  unfold Obligations.BerthsRecover
  intro s pair sp k thread core parts kind lane lanes pass reason n t0 port
  refine ⟨fun hrun hpos htest hup hsplit => ⟨mismatchDetected_restores hrun htest hup hsplit hpos, mismatchDetected_tests hrun htest hup hsplit hpos⟩,
    fun hrun hpos htest hhandover => ⟨selftestDone_passed hrun hpos htest hhandover, selftestDone_failed hrun hpos htest hhandover⟩,
    fun hrun hup hnext hasked hheld huse hspare => ⟨handover_moves hrun hup hnext hasked hheld hspare huse, handover_retires hrun hup hnext hasked hheld hspare⟩,
    fun hrun hup hpos hdrained hhandover htest => ⟨berthReconfigure_retires hrun hup hdrained hhandover htest hpos,
      berthReconfigure_splits hrun hup hdrained hhandover htest hpos, berthReconfigure_joins hrun hup hdrained hhandover htest hpos⟩, ?_⟩
  rintro hrun huse rfl hdue
  exact ⟨dailyComparatorTest_passes hrun huse hdue, dailyComparatorTest_fails hrun huse hdue⟩

end Sys2Proof.Proofs
end

section
/-! PROOFS. Event sources, their records and their vectors (R358 to R367, R372): what each command comes to. -/

namespace Sys2Proof.Machine

/-! Arrivals (R359 to R361). -/

/-- A source that an arrival has reached, before COUNT is looked at (R359). -/
def reachedSource (v : Source) (detail : Nat) (posted : Bool) : Source :=
  { v with pending := true, count := satInc v.count 255, detail := detail, sw := v.sw || posted }

/-- A source whose arrivals are answered or discarded (R358, R362). -/
def clearedSource (v : Source) : Source := { v with pending := false, sw := false, fired := false, count := 0, window := none }

/-- What an arrival makes of its source: a first one opens a window, and a COUNT that has reached its threshold fires (R359, R361). -/
def comes (s u : State) (n detail : Nat) (posted : Bool) : Prop :=
  ((srcOf s n).en = false → (srcOf s n).window = none → srcOf u n = reachedSource (srcOf s n) detail posted) ∧
  ((srcOf s n).en = true → (srcOf s n).pending = false → (srcOf s n).fired = false → (srcOf s n).kind ≠ 0 →
    (satInc (srcOf s n).count 255 < (srcOf s n).countTh →
      srcOf u n = { reachedSource (srcOf s n) detail posted with window := some (nowNs s, (srcOf s n).timeTh) }) ∧
    ((srcOf s n).countTh ≤ satInc (srcOf s n).count 255 →
      srcOf u n = { reachedSource (srcOf s n) detail posted with fired := true, firedAt := nowNs s, openedAt := nowNs s, window := none }))

@[simp] theorem srcOf_setSrc_same (s : State) (n : Nat) (v : Source) : srcOf (setSrc s n v) n = v := tget_tset_same ..

theorem srcOf_of_sources {s u : State} (h : u.sources = s.sources) (n : Nat) : srcOf u n = srcOf s n := by
  unfold srcOf
  rw [h]

theorem srcOf_arrive {n : Nat} (hdef : srcDefined n = true) (s : State) (d : Nat) (p : Bool) : srcOf (arrive s n d p) n =
    fireByCount (if (!(srcOf s n).pending && (srcOf s n).en && !(srcOf s n).fired) = true
      then { reachedSource (srcOf s n) d p with window := some (nowNs s, (srcOf s n).timeTh) } else reachedSource (srcOf s n) d p) (nowNs s) := by
  unfold arrive
  rw [if_neg (by simp [hdef])]
  extract_lets v now first v1 v2 u
  exact prop_ite (P := fun w => srcOf w n = fireByCount v2 now) (srcOf_setSrc_same s n _) (srcOf_setSrc_same s n _)

theorem fireByCount_waits {v : Source} (now : Nat) (h : v.window = none ∨ v.count < v.countTh) : fireByCount v now = v := by
  unfold fireByCount
  rcases h with h | h
  · rw [h]
    rfl
  · rw [if_neg (by simp only [Bool.and_eq_true, decide_eq_true_eq]; omega)]

theorem fireByCount_fires {v : Source} {now w th : Nat} (hwindow : v.window = some (w, th)) (hkind : v.kind ≠ 0) (hcount : v.countTh ≤ v.count) :
    fireByCount v now = { v with fired := true, firedAt := now, openedAt := w, window := none } := by
  unfold fireByCount fireSrc
  rw [hwindow, if_pos (by simp [hcount]), if_neg hkind]

theorem arrive_comes {n : Nat} (hdef : srcDefined n = true) (s : State) (d : Nat) (p : Bool) : comes s (arrive s n d p) n d p := by
  have hsrc := srcOf_arrive hdef s d p
  refine ⟨fun hen hwindow => ?_, fun hen hpending hfired hkind => ⟨fun hcount => ?_, fun hcount => ?_⟩⟩
  · rw [hsrc, if_neg (by simp [hen])]
    exact fireByCount_waits _ (.inl hwindow)
  · rw [hsrc, if_pos (by simp [hen, hpending, hfired])]
    exact fireByCount_waits _ (.inr hcount)
  · rw [hsrc, if_pos (by simp [hen, hpending, hfired])]
    exact fireByCount_fires rfl hkind hcount

/-! Posts, writes of the registers, arrivals and alarms (R358 to R361, R372). -/

section Sources
variable {s : State} {src : BitVec 12}

theorem evtPost_comes {by' : Option Port} {v : BitVec 64} (hwriter : evtWriter s by' = true) (hlow : bitsOf v.toNat 15 12 = 0)
    (hhigh : bitsOf v.toNat 63 40 = 0) (hdef : srcDefined (v.toNat % 4096) = true) :
    answers (.evtPost by' 8 v) s (fun u => comes s u (v.toNat % 4096) (bitsOf v.toNat 39 16) true) :=
  ⟨_, congrArg Host.Outcome.next (if_neg (by simp [hwriter, hlow, hhigh])), arrive_comes hdef ..⟩

theorem exec_evtPost_reserved {by' : Option Port} {v : BitVec 64} (h : bitsOf v.toNat 15 12 ≠ 0 ∨ bitsOf v.toNat 63 40 ≠ 0) :
    exec (.evtPost by' 8 v) s = .next s := congrArg Host.Outcome.next (if_pos (.inr (.inr h)))

theorem fireSrc_ctl (v : Source) (now : Nat) : (fireSrc v now).en = v.en ∧ (fireSrc v now).kind = v.kind ∧ (fireSrc v now).prio = v.prio := by
  unfold fireSrc
  extract_lets opened
  split <;> exact ⟨rfl, rfl, rfl⟩

theorem fireByCount_ctl (v : Source) (now : Nat) :
    (fireByCount v now).en = v.en ∧ (fireByCount v now).kind = v.kind ∧ (fireByCount v now).prio = v.prio := by
  unfold fireByCount
  split
  · exact fireSrc_ctl v now
  · exact ⟨rfl, rfl, rfl⟩

/-- EVT_CTL takes its fields as written, and clearing EN closes the window alone (R358). -/
theorem ctlWrite_fields (v : Source) (w now : Nat) : (ctlWrite v w now).en = bitOf w 31 ∧ (ctlWrite v w now).kind = bitsOf w 29 28 ∧
    (ctlWrite v w now).prio = bitsOf w 15 12 ∧ (bitOf w 31 = false → (ctlWrite v w now).window = none ∧ (ctlWrite v w now).pending = v.pending) := by
  unfold ctlWrite
  extract_lets kind en v1
  split
  · rename_i h
    obtain ⟨hen, hkind, hprio⟩ := fireByCount_ctl { v1 with window := some (now, v.timeTh) } now
    exact ⟨hen, hkind, hprio, fun hoff => absurd (h.1.symm.trans hoff) Bool.noConfusion⟩
  · split
    · exact ⟨rfl, rfl, rfl, fun _ => ⟨rfl, rfl⟩⟩
    · rename_i h
      exact ⟨rfl, rfl, rfl, fun hoff => absurd (by simpa [en] using hoff) h⟩

theorem bitOf_toNat {w : Nat} (v : BitVec w) (i : Nat) : bitOf v.toNat i = v.getLsbD i := by
  rw [← BitVec.testBit_toNat, Nat.testBit_eq_decide_div_mod_eq]
  rfl

theorem evtCtl_writes {by' : Option Port} (hwriter : evtWriter s by' = true) (hdef : srcDefined src.toNat = true) (v : BitVec 32) :
    answers (.evtCtl by' src v) s (fun u => (srcOf u src.toNat).en = v.getLsbD 31 ∧ (srcOf u src.toNat).kind = bitsOf v.toNat 29 28 ∧
      (srcOf u src.toNat).prio = bitsOf v.toNat 15 12 ∧
      (v.getLsbD 31 = false → (srcOf u src.toNat).window = none ∧ (srcOf u src.toNat).pending = (srcOf s src.toNat).pending)) := by
  refine answers_of_exec (congrArg Host.Outcome.next (if_neg (by simp [hwriter, hdef]))) ?_
  rw [srcOf_setSrc_same, ← bitOf_toNat]
  exact ctlWrite_fields ..

theorem evtStatPendingClear_clears {by' : Option Port} (hwriter : evtWriter s by' = true) (hdef : srcDefined src.toNat = true) :
    answers (.evtStatPendingClear by' src) s (fun u => srcOf u src.toNat = clearedSource (srcOf s src.toNat)) :=
  ⟨_, congrArg Host.Outcome.next (if_neg (by simp [hwriter, hdef])), srcOf_setSrc_same ..⟩

theorem sourceArrival_comes {detail : BitVec 24} (haon : s.dev.pwrAon = true) (hdef : srcDefined src.toNat = true)
    (hpier : src.toNat < 0xE00 ∨ 0xF00 ≤ src.toNat) : answers (.sourceArrival src detail) s (fun u => comes s u src.toNat detail.toNat false) := by
  refine answers_of_exec (congrArg Host.Outcome.next (if_neg (by simp [haon]; omega))) ?_
  split
  · exact arrive_comes hdef { s with dev := { s.dev with gpio := detail.setWidth 8 } } ..
  · exact arrive_comes hdef ..

theorem sourceTimeThreshold_fires {w th : Nat} (hen : (srcOf s src.toNat).en = true) (hwindow : (srcOf s src.toNat).window = some (w, th))
    (hopen : w + th * 1000 ≤ nowNs s) (hkind : (srcOf s src.toNat).kind ≠ 0) : answers (.sourceTimeThreshold src) s (fun u =>
      srcOf u src.toNat = { srcOf s src.toNat with fired := true, firedAt := nowNs s, openedAt := w, window := none }) := by
  have hexec : exec (.sourceTimeThreshold src) s = .next (setSrc s src.toNat (fireSrc (srcOf s src.toNat) (nowNs s))) := by
    show execSourceTimeThreshold src s = _
    unfold execSourceTimeThreshold
    simp only [hwindow]
    rw [if_pos ⟨hen, hopen⟩]
  refine ⟨_, hexec, (srcOf_setSrc_same ..).trans ?_⟩
  unfold fireSrc
  rw [if_neg hkind]
  simp only [hwindow]

theorem lighthouseAlarm_comes {k : Fin 4} (haon : s.dev.pwrAon = true) (hset : s.policy.alarms[k.val]?.getD 0 ≠ 0)
    (hdue : s.policy.alarms[k.val]?.getD 0 ≤ harbourNs s) :
    answers (.lighthouseAlarm k) s (fun u => u.policy.alarms = s.policy.alarms.set k.val 0 ∧ comes s u (0xF20 + k.val) k.val false) := by
  have hdef : srcDefined (0xF20 + k.val) = true := by
    fin_cases k <;> rfl
  refine answers_of_exec (congrArg Host.Outcome.next (if_neg (by simp [haon, hset]; omega))) ⟨?_, ?_⟩
  · exact field_of_unreported (arrive_unreported ..) (fun u => u.policy.alarms) fun _ => rfl
  · exact arrive_comes hdef { s with policy := { s.policy with alarms := s.policy.alarms.set k.val 0 } } ..

/-! Records (R362 to R364). -/

theorem cachedWrite_outside (s : State) (b pa : Nat) (bs : List Byte) : outside (cachedWrite s b pa bs) = outside s := by
  unfold cachedWrite
  extract_lets line u
  have hu : outside u = outside s := recallAll_outside ..
  clear_value u
  exact (l3Write_outside ..).trans hu

/-- A record in a pier's ring: the next place of the ring, and one more EVENT for the thread (R117, R363). -/
theorem pierRecord_holds (s : State) (th : ThreadId) (r : EvRec) : (pierRecord s th r).sources = s.sources ∧
    (thr (pierRecord s th r) th).sigEv = satInc (thr s th).sigEv 255 ∧
    (pierOf (pierRecord s th r) th.pier.val).evqTail = ((pierOf s th.pier.val).evqTail + 1) % 256 := by
  unfold pierRecord
  extract_lets p w t u
  have hw : outside w = outside s := cachedWrite_outside ..
  clear_value w
  have hsources : w.sources = s.sources := (congrArg State.sources hw : (outside w).sources = (outside s).sources)
  have hthreads : w.threads = s.threads := threads_of_outside hw
  refine ⟨hsources, ?_, ?_⟩
  · rw [thr_modThr_same]
    exact congrArg (fun l : Table Thread => satInc (tget {} l th.val).sigEv 255) hthreads
  · exact congrArg Pier.evqTail (pierOf_setPier_same ..)

section Records
variable (hfired : (srcOf s src.toNat).fired = true) (hen : (srcOf s src.toNat).en = true) (hready : srcReady s (srcOf s src.toNat) = true)
  (hbeaten : srcBeaten s src.toNat (srcOf s src.toNat) = false)
include hfired hen hready hbeaten

theorem sourceRecordWrite_goes (hkind : (srcOf s src.toNat).kind ≠ 0) : ¬ ((!(srcOf s src.toNat).fired) = true ∨ (!(srcOf s src.toNat).en) = true ∨
    (srcOf s src.toNat).kind = 0 ∨ (!srcReady s (srcOf s src.toNat)) = true ∨ srcBeaten s src.toNat (srcOf s src.toNat) = true) := by
  simp [hfired, hen, hkind, hready, hbeaten]

theorem sourceRecordWrite_pier (hkind : (srcOf s src.toNat).kind = 1) : answers (.sourceRecordWrite src) s (fun u =>
    srcOf u src.toNat = clearedSource (srcOf s src.toNat) ∧
    (thr u (srcThread (srcOf s src.toNat))).sigEv = satInc (thr s (srcThread (srcOf s src.toNat))).sigEv 255 ∧
    (pierOf u (srcThread (srcOf s src.toNat)).pier.val).evqTail = ((pierOf s (srcThread (srcOf s src.toNat)).pier.val).evqTail + 1) % 256) := by
  have hexec : exec (.sourceRecordWrite src) s = .next (pierRecord (setSrc s src.toNat (clearedSource (srcOf s src.toNat)))
      (srcThread (srcOf s src.toNat)) (srcRecord s src.toNat (srcOf s src.toNat))) :=
    congrArg Host.Outcome.next ((if_neg (sourceRecordWrite_goes hfired hen hready hbeaten (by omega))).trans
      ((if_neg fun h => by omega).trans (if_pos hkind)))
  obtain ⟨hsources, hevents, htail⟩ := pierRecord_holds (setSrc s src.toNat (clearedSource (srcOf s src.toNat))) (srcThread (srcOf s src.toNat))
    (srcRecord s src.toNat (srcOf s src.toNat))
  refine ⟨_, hexec, ?_, hevents, htail⟩
  exact (srcOf_of_sources hsources _).trans (srcOf_setSrc_same ..)

theorem sourceRecordWrite_pilot (hkind : (srcOf s src.toNat).kind = 2) : answers (.sourceRecordWrite src) s (fun u =>
    srcOf u src.toNat = clearedSource (srcOf s src.toNat) ∧ u.pilotRing = s.pilotRing ++ [srcRecord s src.toNat (srcOf s src.toNat)]) := by
  have hexec : exec (.sourceRecordWrite src) s = .next { setSrc s src.toNat (clearedSource (srcOf s src.toNat)) with
      pilotRing := s.pilotRing ++ [srcRecord s src.toNat (srcOf s src.toNat)] } :=
    congrArg Host.Outcome.next ((if_neg (sourceRecordWrite_goes hfired hen hready hbeaten (by omega))).trans
      ((if_neg fun h => by omega).trans ((if_neg (by omega)).trans (if_pos hkind))))
  exact ⟨_, hexec, srcOf_setSrc_same .., rfl⟩

theorem exec_sourceRecordWrite_queue (hkind : (srcOf s src.toNat).kind = 3)
    (hiova : iovaOk s ((getEq s (srcEq (srcOf s src.toNat))).base + 32 * (getEq s (srcEq (srcOf s src.toNat))).tail) 32 = true) :
    exec (.sourceRecordWrite src) s = .next (postEq (setSrc s src.toNat (clearedSource (srcOf s src.toNat))) (srcEq (srcOf s src.toNat))
      (srcRecord s src.toNat (srcOf s src.toNat))) :=
  congrArg Host.Outcome.next ((if_neg (sourceRecordWrite_goes hfired hen hready hbeaten (by omega))).trans
    ((if_neg (by simp [hiova])).trans ((if_neg (by omega)).trans (if_neg (by omega)))))

end Records
end Sources

/-! Vectors (R365 to R367). -/

/-- A message-signalled entry that is unmasked sends what it held (R367). -/
def unmasked (m : Msix) : Msix := { m with masked := false, held := false, sent := if m.held then m.sent + 1 else m.sent }

section Vectors
variable {s : State} {p : Port} {t : TenantId} {eq : Fin 32} {entry : Fin 33}


theorem eqVectorDue_pf {r : EqRef} (hr : r = .pf p eq.val) (hexist : (getEq s r).exist = true) (hdue : vectorDue (getEq s r) (nowNs s) = true)
    (hd0 : (portOf s p).dstate = .d0) (hlink : (portOf s p).link = true) : answers (.eqVectorDue p .pf0 eq) s (fun u =>
      getEq u r = signalled (getEq s r) false ∧ tget {} (portOf u p).msix eq.val = vectorSend (tget {} (portOf s p).msix eq.val)) := by
  subst hr
  have hexec : exec (.eqVectorDue p .pf0 eq) s =
      .next (setEq (sentTlp (pfVector s p eq.val) p) (.pf p eq.val) (signalled (getEq s (.pf p eq.val)) false)) :=
    congrArg Host.Outcome.next ((if_neg (by simp [hexist, hdue])).trans ((if_pos hd0).trans (if_pos hlink)))
  refine ⟨_, hexec, getEq_setEq_same .., ?_⟩
  show tget {} (portOf (sentTlp (pfVector s p eq.val) p) p).msix eq.val = _
  unfold sentTlp pfVector
  simp only [portOf_setPort_same]
  exact tget_tset_same ..

theorem eqVectorDue_vf {r : EqRef} (hr : r = .ten t.val eq.val) (hexist : (getEq s r).exist = true) (hdue : vectorDue (getEq s r) (nowNs s) = true)
    (heq : eq.val < 16) (hport : p = (tenantOf s t.val).currentPort) (hservice : vfInServiceB s p t.val = true) :
    answers (.eqVectorDue p (.vf t) eq) s (fun u => getEq u r = signalled (getEq s r) false ∧
      tget {} (vfOf u p t.val).msix eq.val = vectorSend (tget {} (vfOf s p t.val).msix eq.val)) := by
  subst hr
  have hd0 : (vfOf s p t.val).dstate = .d0 := by
    simp only [vfInServiceB, Bool.and_eq_true, decide_eq_true_eq] at hservice
    exact hservice.1.1.2
  have hexec : exec (.eqVectorDue p (.vf t) eq) s =
      .next (setEq (sentTlp (vfVector s p t.val eq.val) p) (.ten t.val eq.val) (signalled (getEq s (.ten t.val eq.val)) false)) := by
    show execEqVectorDue p (.vf t) eq s = _
    unfold execEqVectorDue
    simp only [refOf, heq, if_true]
    rw [if_neg (by simp [hexist, hdue]), if_neg (by simp [hport]), if_pos hd0, if_pos hservice]
  refine ⟨_, hexec, getEq_setEq_same .., ?_⟩
  have hvf : vfOf (vfVector s p t.val eq.val) p t.val = _ := vfOf_setVf_same ..
  show tget {} (vfOf (vfVector s p t.val eq.val) p t.val).msix eq.val = _
  rw [hvf]
  exact tget_tset_same ..

theorem msixUnmask_pf (h : pfMmio s p = true) : answers (.msixUnmask p .pf0 entry) s (fun u =>
    tget {} (portOf u p).msix entry.val = unmasked (tget {} (portOf s p).msix entry.val)) := by
  refine answers_of_exec (congrArg Host.Outcome.next (if_neg (by simp [h]))) ?_
  rw [portOf_setPort_same]
  exact tget_tset_same ..

theorem msixUnmask_vf (h : vfMmio s p t.val = true) (hentry : entry.val ≤ 16) (hlocked : (vfOf s p t.val).tdisp ≠ .locked) :
    answers (.msixUnmask p (.vf t) entry) s (fun u => tget {} (vfOf u p t.val).msix entry.val = unmasked (tget {} (vfOf s p t.val).msix entry.val)) := by
  refine answers_of_exec (congrArg Host.Outcome.next ((if_neg (by simp [h]; omega)).trans (if_neg hlocked))) ?_
  rw [vfOf_setVf_same]
  exact tget_tset_same ..

end Vectors

end Sys2Proof.Machine

namespace Sys2Proof.Proofs
open Sys2Proof.Machine

/-- Settles O50: arrivals by arrive_comes, records by pierRecord_holds, vectors by the lemma of each function. -/
theorem eventSources : Obligations.EventSources := by
  unfold Obligations.EventSources
  intro s src detail by' v64 v32 k w0 th p t eq entry r
  refine ⟨fun hwriter => ⟨evtPost_comes hwriter, exec_evtPost_reserved, fun hdef => ⟨evtCtl_writes hwriter hdef v32, evtStatPendingClear_clears hwriter hdef⟩⟩,
    sourceArrival_comes, sourceTimeThreshold_fires,
    fun hfired hen hready hbeaten => ⟨sourceRecordWrite_pier hfired hen hready hbeaten, sourceRecordWrite_pilot hfired hen hready hbeaten,
      exec_sourceRecordWrite_queue hfired hen hready hbeaten⟩,
    lighthouseAlarm_comes, fun hexist hdue => ⟨fun hr => eqVectorDue_pf hr hexist hdue, fun hr => eqVectorDue_vf hr hexist hdue⟩,
    msixUnmask_pf, msixUnmask_vf⟩

end Sys2Proof.Proofs
end

section
/-! PROOFS. Ports, functions and the loss of a path (R368, R369, R385, R390 to R405): what each command comes to. -/

namespace Sys2Proof.Machine

/-! How a tenant stands (R383, R391). -/

/-- What a tenant's records say of its standing: its state, its cause, and which submission queues are enabled. -/
def standOf (v : Tenant) : TState × Nat × (Nat → Bool) := (v.state, v.errCause, fun k => (tget {} v.sqs k).enabled)

/-- A tenant that takes no work has the same standing in a later state. -/
structure Stays (t : Nat) (s u : State) : Prop where
  standing : (tenantOf s t).state ≠ .running → (tenantOf s t).state ≠ .quiescing → standOf (tenantOf u t) = standOf (tenantOf s t)

theorem tenantOf_of_tenants {s u : State} (h : u.tenants = s.tenants) (t : Nat) : tenantOf u t = tenantOf s t := by
  unfold tenantOf
  rw [h]

theorem stays_of_tenants {t : Nat} {s u : State} (h : u.tenants = s.tenants) : Stays t s u :=
  ⟨fun _ _ => congrArg standOf (tenantOf_of_tenants h t)⟩

theorem stays_trans {t : Nat} {s u w : State} (h : Stays t s u) (k : Stays t u w) : Stays t s w := by
  refine ⟨fun hr hq => ?_⟩
  have hu := h.standing hr hq
  have hstate : (tenantOf u t).state = (tenantOf s t).state := congrArg Prod.fst hu
  exact (k.standing (hstate ▸ hr) (hstate ▸ hq)).trans hu

theorem stays_ite {t : Nat} {s u w : State} {c : Prop} [Decidable c] (h : Stays t s u) (k : Stays t s w) : Stays t s (if c then u else w) :=
  prop_ite (P := Stays t s) h k

theorem stays_foldl {α : Type} {t : Nat} {f : State → α → State} (hf : ∀ u x, Stays t u (f u x)) (l : List α) (s : State) : Stays t s (l.foldl f s) :=
  List.foldlRecOn (motive := Stays t s) l f (stays_of_tenants rfl) fun u hu x _ => stays_trans hu (hf u x)

theorem setTenant_stays {t : Nat} {s : State} {u : Nat} {v : Tenant} (h : standOf v = standOf (tenantOf s u)) : Stays t s (setTenant s u v) := by
  refine ⟨fun _ _ => ?_⟩
  by_cases ht : t = u
  · rw [ht, tenantOf_setTenant_same, h]
  · rw [tenantOf_setTenant_other s v ht]

theorem setEq_stays (s : State) (r : EqRef) (q : Eq) (t : Nat) : Stays t s (setEq s r q) := by
  cases r with
  | ten u n => exact setTenant_stays rfl
  | pf p n => exact stays_of_tenants rfl

theorem setSq_stays {t : Nat} {s : State} {u n : Nat} {q : Sq} (h : q.enabled = (sqOf s u n).enabled) : Stays t s (setSq s u n q) := by
  refine setTenant_stays (v := { tenantOf s u with sqs := tset {} (tenantOf s u).sqs n q })
    (congrArg (fun e => ((tenantOf s u).state, (tenantOf s u).errCause, e)) (funext fun k => ?_))
  by_cases hk : k = n
  · rw [hk, tget_tset_same]
    exact h
  · rw [tget_tset_other _ _ _ hk]

theorem noteXlat_tenants (s : State) (p : Port) (ats : Bool) (a : Nat) : (noteXlat s p ats a).tenants = s.tenants :=
  prop_ite (P := fun u : State => u.tenants = s.tenants) rfl rfl
theorem eqXlat_tenants (s : State) (r : EqRef) (a : Nat) : (eqXlat s r a).tenants = s.tenants := by cases r <;> exact noteXlat_tenants ..

theorem withVector_tenants (t : Nat) (f : State → State) (s : State) : (withVector t f s).tenants = (f s).tenants := by
  obtain ⟨v, hv⟩ := withVector_vfs t f s
  rw [hv]

/-- A tenant enters ERROR out of service alone (R383). -/
theorem enterError_stays (s : State) (u cause t : Nat) : Stays t s (enterError s u cause) := by
  refine ⟨fun hr hq => ?_⟩
  unfold enterError
  extract_lets v
  by_cases ht : t = u
  · subst ht
    split
    · exact absurd ‹_› hr
    · exact absurd ‹_› hq
    · rfl
  · split
    · rw [tenantOf_setTenant_other _ _ ht]
    · rw [tenantOf_setTenant_other _ _ ht]
    · rfl

theorem stopEq_stays (s : State) (r : EqRef) (t : Nat) : Stays t s (stopEq s r) := by
  unfold stopEq
  extract_lets q u
  have hu : Stays t s u := setEq_stays ..
  cases r with
  | pf p n => exact hu
  | ten m n => exact stays_trans hu (stays_trans (enterError_stays u m 3 t) (stays_of_tenants (withVector_tenants m (fun s => enterError s m 3) u)))

theorem recordWritten_stays (s : State) (r : EqRef) (w : EvRec) (t : Nat) : Stays t s (recordWritten s r w) := by
  cases r with
  | pf p n => exact stays_of_tenants rfl
  | ten m n => exact stays_ite (setSq_stays rfl) (stays_ite (stays_of_tenants rfl) (stays_of_tenants rfl))

theorem drainEq_stays (k : Nat) (s : State) (r : EqRef) (t : Nat) : Stays t s (drainEq k s r) := by
  induction k generalizing s with
  | zero => exact stays_of_tenants rfl
  | succ k ih =>
    unfold drainEq
    extract_lets q
    split
    · exact stays_of_tenants rfl
    · refine stays_ite (stays_of_tenants rfl) (stays_ite (stopEq_stays s r t) ?_)
      extract_lets outcome u v
      have hu : Stays t s u := stays_of_tenants (eqXlat_tenants ..)
      exact stays_trans hu (stays_trans (setEq_stays u r v t) (stays_trans (recordWritten_stays ..) (ih _)))

theorem postEq_stays (s : State) (r : EqRef) (w : EvRec) (t : Nat) : Stays t s (postEq s r w) := by
  unfold postEq
  extract_lets q
  exact stays_ite (stays_trans (setEq_stays ..) (drainEq_stays ..)) (stays_of_tenants rfl)

theorem vfPme_tenants (s : State) (p : Port) (t : Nat) : (vfPme s p t).tenants = s.tenants := by
  unfold vfPme
  extract_lets v u
  have hu : u.tenants = s.tenants := rfl
  clear_value u
  exact prop_ite (P := fun w : State => w.tenants = s.tenants) rfl (prop_ite (P := fun w : State => w.tenants = s.tenants) rfl
    (prop_ite (P := fun w : State => w.tenants = s.tenants) ((arrive_tenants ..).trans hu) hu))

theorem tryComplete_stays (s : State) (seq t : Nat) : Stays t s (tryComplete s seq) := by
  have hrefl : Stays t s s := stays_of_tenants rfl
  unfold tryComplete
  split
  · exact hrefl
  · refine stays_ite hrefl (stays_ite (stays_of_tenants rfl) ?_)
    extract_lets v quiet dev u
    have hu : Stays t s u := stays_of_tenants rfl
    exact stays_ite (stays_of_tenants rfl) (stays_ite hrefl (stays_ite (stays_of_tenants (vfPme_tenants ..))
      (stays_ite (stays_of_tenants rfl) (stays_trans hu (postEq_stays ..)))))

theorem redriven_stays (s : State) (u : Nat) (p : Port) (t : Nat) : Stays t s (redriven s u p) := by
  unfold redriven
  extract_lets w
  have hw : Stays t s w := stays_of_tenants (field_of_unreported (logAdd_unreported ..) State.tenants fun _ => rfl)
  exact stays_trans hw (stays_foldl (fun _ _ => stays_ite (postEq_stays ..) (stays_of_tenants rfl)) _ _)

theorem pathLost_stays (s : State) (u t : Nat) : Stays t s (pathLost s u) := by
  refine stays_trans ?_ (stays_of_tenants (withVector_tenants ..))
  extract_lets v cur x w
  have hx : Stays t s x := setTenant_stays rfl
  have hw : Stays t x w := stays_of_tenants (List.foldlRecOn (motive := fun y : State => y.tenants = x.tenants) _ _ rfl fun _ hy _ _ => hy)
  refine stays_ite (stays_of_tenants rfl) (stays_ite (stays_trans hx (stays_trans hw (redriven_stays ..))) ?_)
  cases v.pathDownAt with
  | none => exact setTenant_stays rfl
  | some d => exact setTenant_stays rfl

/-- Submission queues that are all disabled. -/
theorem tget_map_disabled (l : Table Sq) (k : Nat) : (tget ({} : Sq) (l.map fun e : Nat × Sq => (e.1, { e.2 with enabled := false })) k).enabled = false := by
  unfold tget
  rw [mget_map l (fun e => (e.1, { e.2 with enabled := false })) fun _ => rfl]
  cases mget l k <;> rfl

/-- A squash leaves the tenant SQUASHED, with no cause and no submission queue enabled (R391). -/
theorem squash_standOf (s : State) (t cause : Nat) : standOf (tenantOf (squash s t cause) t) = (.squashed, 0, fun _ => false) := by
  unfold squash
  rw [tenantOf_of_tenants (withVector_tenants ..)]
  generalize dropSlipped s t (fun _ => true) false = r
  obtain ⟨u, counts⟩ := r
  dsimp -zeta only
  extract_lets w x v off y z
  clear_value x v
  have hy : standOf (tenantOf y t) = (.squashed, 0, fun _ => false) := by
    rw [tenantOf_setTenant_same]
    exact congrArg (fun e => (TState.squashed, 0, e)) (funext fun k => tget_map_disabled v.sqs k)
  clear_value y
  have hz : standOf (tenantOf z t) = (.squashed, 0, fun _ => false) := hy
  clear_value z
  have hstate : (tenantOf z t).state = .squashed := congrArg Prod.fst hz
  exact ((stays_foldl (fun u seq => tryComplete_stays u seq t) _ z).standing (by simp [hstate]) (by simp [hstate])).trans hz

/-- A TDI in ERROR leaves its tenant in ERROR, with cause 2 (R405). -/
theorem tdiError_holds (s : State) (p : Port) (t : Nat) : (tenantOf (tdiError s p t) t).state = .error ∧ (tenantOf (tdiError s p t) t).errCause = 2 := by
  unfold tdiError
  extract_lets v u w
  have hw : (tenantOf w t).state = .error ∧ (tenantOf w t).errCause = 2 := by
    rw [tenantOf_of_tenants (withVector_tenants ..)]
    simp only [tenantOf_setTenant_same]
    exact ⟨trivial, trivial⟩
  clear_value w
  obtain ⟨hstate, hcause⟩ := hw
  have hstand := (pathLost_stays w t t).standing (by simp [hstate]) (by simp [hstate])
  rw [tenantEvent, tenantOf_of_tenants (arrive_tenants ..)]
  exact ⟨(congrArg Prod.fst hstand).trans hstate, (congrArg (·.2.1) hstand).trans hcause⟩

theorem mbFinishOp_tenants (s : State) (op arg st d : Nat) (b : List Byte) : (mbFinishOp s op arg st d b).tenants = s.tenants :=
  field_of_besideMail (mbFinishOp_besideMail ..) State.tenants fun _ => rfl

/-- A drained tenant is QUIESCED, or in the ERROR it came from, and no submission queue is enabled (R392). -/
theorem quiesceDrainComplete_holds {s : State} {t : TenantId} {d : Nat} (hdrain : (tenantOf s t.val).drainAt = some d) (hdrained : drained s t.val = true) :
    answers (.quiesceDrainComplete t) s (fun u => (tenantOf u t.val).drainAt = none ∧
      (tenantOf u t.val).state = (if (tenantOf s t.val).state = .error then .error else .quiesced) ∧ ∀ k, (sqOf u t.val k).enabled = false) := by
  refine answers_of_exec (congrArg Host.Outcome.next (if_neg (by simp [hdrain, hdrained]))) ?_
  have htenant (w : State) (f : State → State) (v : Tenant) (hf : f w = setTenant w t.val v) (p : Port) (op : Nat) :
      tenantOf (mbFinishOp (tenantEvent (withVector t.val f w) t.val 3 p) op t.val 0 0 []) t.val = v := by
    rw [tenantOf_of_tenants (mbFinishOp_tenants ..), tenantEvent, tenantOf_of_tenants (arrive_tenants ..), tenantOf_of_tenants (withVector_tenants ..), hf,
      tenantOf_setTenant_same]
  unfold sqOf
  rw [htenant _ _ _ rfl]
  exact ⟨rfl, rfl, fun k => tget_map_disabled _ k⟩

/-! D-states and power management events (R368, R369, R396, R397). -/

section Functions
variable {s : State} {p : Port} {t : TenantId} (hlink : (portOf s p).link = true)
include hlink

section DStates
variable (hawake : awake s = true)
include hawake

theorem dStateChange_goes : ¬ ((!(portOf s p).link) = true ∨ (!awake s) = true) := by simp [hlink, hawake]

theorem exec_dStateChange_pfSleeps (hd : (portOf s p).dstate = .d0) :
    exec (.dStateChange p .pf0 .d3hot) s = .next (setPort (helmLapse s p) p { portOf s p with dstate := .d3hot, pmeSent := 0 }) :=
  congrArg Host.Outcome.next ((if_neg (dStateChange_goes hlink hawake)).trans (if_pos hd))

theorem exec_dStateChange_pfWakes (hd : (portOf s p).dstate = .d3hot) :
    exec (.dStateChange p .pf0 .d0) s = .next (sendAllPf (setPort s p { portOf s p with dstate := .d0 }) p) :=
  congrArg Host.Outcome.next ((if_neg (dStateChange_goes hlink hawake)).trans (if_pos hd))

theorem exec_dStateChange_cold (hall : allD3hot s p = true) (hpme : (portOf s p).pmeEn = true) :
    exec (.dStateChange p .pf0 .d3cold) s = .next (portReset s p (portOf s p).perst) :=
  congrArg Host.Outcome.next ((if_neg (dStateChange_goes hlink hawake)).trans (if_pos ⟨hall, hpme⟩))

variable (henable : (portOf s p).vfEnable = true) (hnum : t.val < (portOf s p).numVFs)
include henable hnum

theorem exec_dStateChange_vfSleeps (hd : (vfOf s p t.val).dstate = .d0) : exec (.dStateChange p (.vf t) .d3hot) s = .next (vfSleep s p t.val) :=
  congrArg Host.Outcome.next ((if_neg (dStateChange_goes hlink hawake)).trans ((if_neg (by simp [henable, hnum])).trans (if_pos hd)))

theorem exec_dStateChange_vfWakes (hd : (vfOf s p t.val).dstate = .d3hot) : exec (.dStateChange p (.vf t) .d0) s = .next (vfWake s p t.val) :=
  congrArg Host.Outcome.next ((if_neg (dStateChange_goes hlink hawake)).trans ((if_neg (by simp [henable, hnum])).trans (if_pos hd)))

end DStates

end Functions

/-- A power management event of PF0 keeps PME_En, and is sent once in D3hot (R368). -/
theorem pf0Pme_holds (s : State) (p : Port) : (portOf (pf0Pme s p) p).pmeEn = (portOf s p).pmeEn ∧
    ((portOf s p).pmeEn = true → (portOf s p).dstate = .d3hot → (portOf s p).pmeSent = 0 → (portOf (pf0Pme s p) p).pmeSent = 1) := by
  unfold pf0Pme
  extract_lets q
  split
  · rename_i h
    refine ⟨rfl, fun _ hd hsent => ?_⟩
    rcases h with hd0 | hne
    · exact absurd (hd0.symm.trans hd) DState.noConfusion
    · exact absurd hsent hne
  · split
    · rename_i h
      rw [portOf_setPort_same]
      exact ⟨rfl, fun hen => absurd hen (by simpa using h)⟩
    · rw [portOf_setPort_same]
      exact ⟨rfl, fun _ _ _ => rfl⟩

/-- The same for a VF. -/
theorem vfPme_holds (s : State) (p : Port) (t : Nat) : (vfOf (vfPme s p t) p t).pmeEn = (vfOf s p t).pmeEn ∧
    ((vfOf s p t).pmeEn = true → (vfOf s p t).dstate = .d3hot → (vfOf s p t).pmeSent = 0 → (vfOf (vfPme s p t) p t).pmeSent = 1) := by
  unfold vfPme
  extract_lets v u
  have hu : vfOf u p t = { v with pmeStatus := true, pmeSent := 1 } := vfOf_setVf_same ..
  clear_value u
  split
  · rename_i h
    refine ⟨rfl, fun _ hd hsent => ?_⟩
    rcases h with hd0 | hne
    · exact absurd (hd0.symm.trans hd) DState.noConfusion
    · exact absurd hsent hne
  · split
    · rename_i h
      rw [vfOf_setVf_same]
      exact ⟨rfl, fun hen => absurd hen (by simpa using h)⟩
    · have hw (w : State) (h : w.vfs = u.vfs) : (vfOf w p t).pmeEn = v.pmeEn ∧ (v.pmeEn = true → v.dstate = .d3hot → v.pmeSent = 0 → (vfOf w p t).pmeSent = 1) := by
        have hvf : vfOf w p t = { v with pmeStatus := true, pmeSent := 1 } := Eq.trans (by rw [vfOf, h]; rfl) hu
        rw [hvf]
        exact ⟨rfl, fun _ _ _ => rfl⟩
      split
      · exact hw _ (field_of_unreported (arrive_unreported ..) State.vfs fun _ => rfl)
      · exact hw _ rfl

theorem pmeEnSet_pf {s : State} {p : Port} (hlink : (portOf s p).link = true) : answers (.pmeEnSet p .pf0) s (fun u => (portOf u p).pmeEn = true ∧
    ((portOf s p).pmeStatus = true → (portOf s p).dstate = .d3hot → (portOf s p).pmeSent = 0 → (portOf u p).pmeSent = 1)) := by
  have hu : portOf (setPort s p { portOf s p with pmeEn := true }) p = { portOf s p with pmeEn := true } := portOf_setPort_same ..
  have hexec : exec (.pmeEnSet p .pf0) s = .next (if (portOf s p).pmeStatus = true ∧ (portOf s p).dstate = .d3hot
      then pf0Pme (setPort s p { portOf s p with pmeEn := true }) p else setPort s p { portOf s p with pmeEn := true }) :=
    congrArg Host.Outcome.next (if_neg (by simp [hlink]))
  refine answers_of_exec hexec ?_
  generalize setPort s p _ = u at hu ⊢
  have hpme := pf0Pme_holds u p
  rw [hu] at hpme
  split
  · exact ⟨hpme.1, fun _ => hpme.2 rfl⟩
  · rename_i h
    rw [hu]
    exact ⟨rfl, fun hstatus hd => absurd ⟨hstatus, hd⟩ h⟩

theorem pmeEnSet_vf {s : State} {p : Port} {t : TenantId} (hlink : (portOf s p).link = true) (henable : (portOf s p).vfEnable = true)
    (hnum : t.val < (portOf s p).numVFs) : answers (.pmeEnSet p (.vf t)) s (fun u => (vfOf u p t.val).pmeEn = true ∧
      ((vfOf s p t.val).pmeStatus = true → (vfOf s p t.val).dstate = .d3hot → (vfOf s p t.val).pmeSent = 0 → (vfOf u p t.val).pmeSent = 1)) := by
  have hu : vfOf (setVf s p t.val { vfOf s p t.val with pmeEn := true }) p t.val = { vfOf s p t.val with pmeEn := true } := vfOf_setVf_same ..
  have hexec : exec (.pmeEnSet p (.vf t)) s = .next (if (vfOf s p t.val).pmeStatus = true ∧ (vfOf s p t.val).dstate = .d3hot
      then vfPme (setVf s p t.val { vfOf s p t.val with pmeEn := true }) p t.val else setVf s p t.val { vfOf s p t.val with pmeEn := true }) :=
    congrArg Host.Outcome.next ((if_neg (by simp [hlink])).trans (if_neg (by simp [henable, hnum])))
  refine answers_of_exec hexec ?_
  generalize setVf s p t.val _ = u at hu ⊢
  have hpme := vfPme_holds u p t.val
  rw [hu] at hpme
  split
  · exact ⟨hpme.1, fun _ => hpme.2 rfl⟩
  · rename_i h
    rw [hu]
    exact ⟨rfl, fun hstatus hd => absurd ⟨hstatus, hd⟩ h⟩

/-! Resets of functions and ports, drains and resumes (R390 to R395). -/

theorem exec_flr {s : State} {p : Port} {t : TenantId} (hrun : running s = true) (hlink : (portOf s p).link = true) (henable : (portOf s p).vfEnable = true)
    (hnum : t.val < (portOf s p).numVFs) (hport : bitOf (tenantOf s t.val).ports p.num = true) :
    exec (.flr p t) s = .next (tenantEvent (flrEffect (tenantEvent s t.val 0 p) p t.val) t.val 1 p) :=
  congrArg Host.Outcome.next (if_neg (by simp [hrun, hlink, henable, hnum, hport]))

theorem exec_flrDrainTimeout {s : State} {t : TenantId} {d : Nat} (hdrain : (tenantOf s t.val).drainAt = some d) (hdue : d ≤ nowNs s) :
    exec (.flrDrainTimeout t) s = .next (mbFinishOp (squash s t.val (if (tenantOf s t.val).state = .error then (tenantOf s t.val).errCause else 0))
      0x0203 t.val 0x0702 0 []) := by
  show Host.Outcome.next (drainExpire s t.val) = _
  unfold drainExpire
  simp only [hdrain]
  rw [if_neg (by omega)]

theorem exec_resumeSlotsFreed {s : State} {p : Port} {t : TenantId} (hwaits : mbRuns s p 0x0204 t.val = true) (hfree : slotsFree s t.val = true) :
    exec (.resumeSlotsFreed t) s = .next (mbFinishOp (resumeNow s t.val) 0x0204 t.val 0 0 []) :=
  congrArg Host.Outcome.next (if_pos (by cases p <;> simp [hwaits, hfree]))

theorem exec_portReset {s : State} {p : Port} (hlink : (portOf s p).link = true) :
    exec (.hotReset p) s = .next (portReset s p false) ∧ exec (.linkDisable p) s = .next (portReset s p false) :=
  ⟨congrArg Host.Outcome.next (if_pos hlink), congrArg Host.Outcome.next (if_pos hlink)⟩

/-- PF0 that is reset has no VF enabled and does not hold the helm (R385, R395). -/
theorem resetPf0_holds (s : State) (p : Port) (perst : Bool) : (portOf (resetPf0 s p perst) p).vfEnable = false ∧
    (portOf (resetPf0 s p perst) p).numVFs = 0 ∧ (portOf (resetPf0 s p perst) p).bme = false ∧ (resetPf0 s p perst).helm.holder ≠ some p := by
  have hport : portOf (resetPf0 s p perst) p = _ := portOf_setPort_same ..
  have hhelm (u : State) : (helmLapse u p).helm.holder ≠ some p := by
    unfold helmLapse
    split
    · exact (Option.some_ne_none p).symm
    · assumption
  rw [hport]
  exact ⟨rfl, rfl, rfl, hhelm _⟩

theorem exec_pf0Flr {s : State} {p : Port} (hlink : (portOf s p).link = true) : exec (.pf0Flr p) s =
    .next (portLost (setPort (resetPf0 (flrAll s p) p false) p { portOf (resetPf0 (flrAll s p) p false) p with link := true }) p) :=
  congrArg Host.Outcome.next (if_neg (by simp [hlink]))

/-- An operation that changes nothing for each element of a list changes nothing. -/
theorem foldl_eq_self {α : Type} {f : State → α → State} {l : List α} {s : State} (h : ∀ x ∈ l, f s x = s) : l.foldl f s = s :=
  List.foldlRecOn (motive := fun u => u = s) l f rfl fun u hu x hx => by
    rw [hu]
    exact h x hx

theorem exec_vfEnableClear {s : State} {p : Port} {n : Fin 1025} (hlink : (portOf s p).link = true) (henable : (portOf s p).vfEnable = true)
    (hnum : n.val < (portOf s p).numVFs) (hnone : ∀ e ∈ s.tenants, bitOf e.2.ports p.num = true → e.1 < n.val ∨ (portOf s p).numVFs ≤ e.1) :
    exec (.vfEnableClear p n) s = .next (portLost (setPort s p { portOf s p with vfEnable := decide (n.val ≠ 0), numVFs := n.val }) p) := by
  show execVfEnableClear p n s = _
  unfold execVfEnableClear
  simp only
  rw [if_neg (by simp [hlink, henable, hnum]), foldl_eq_self]
  intro e he
  exact if_neg fun h => by have := hnone e he h.1; omega

/-! The helm's lease and translations (R385, R400). -/

theorem helmLeaseExpiry_lapses {s : State} {p : Port} (hholder : s.helm.holder = some p) (hdue : s.helm.expiry ≤ nowNs s) :
    answers .helmLeaseExpiry s (fun u => u.helm.holder = none ∧ u.helm.last = p) := by
  have hexec : exec .helmLeaseExpiry s = .next { s with helm := { s.helm with holder := none, last := p } } := by
    show execHelmLeaseExpiry s = _
    unfold execHelmLeaseExpiry helmLapse
    simp only [hholder]
    rw [if_pos hdue]
    rfl
  exact ⟨_, hexec, rfl, rfl⟩

theorem fireByCount_detail (v : Source) (now : Nat) : (fireByCount v now).detail = v.detail := by
  unfold fireByCount fireSrc
  extract_lets opened
  split
  · split <;> rfl
  · rfl

theorem helmLease75_told {s : State} {p : Port} (hholder : s.helm.holder = some p) (htold : s.helm.told75 = false)
    (hdue : 3 * (s.helm.expiry - s.helm.since) ≤ 4 * (nowNs s - s.helm.since)) :
    answers .helmLease75 s (fun u => u.helm = { s.helm with told75 := true } ∧ (srcOf u 0xB02).detail = 75) := by
  refine answers_of_exec (congrArg Host.Outcome.next (if_pos ⟨by simp [hholder], by simp [htold], hdue⟩)) ⟨?_, ?_⟩
  · exact field_of_unreported (arrive_unreported ..) State.helm fun _ => rfl
  · rw [srcOf_arrive rfl, fireByCount_detail]
    exact prop_ite (P := fun v : Source => v.detail = 75) rfl rfl

theorem atsInvalidationRequest_drops {s : State} {p : Port} (hlink : (portOf s p).link = true) (page : Nat) :
    answers (.atsInvalidationRequest p page) s (fun u => page ∉ (portOf u p).atsCache ∧
      (∀ x ≠ page, x ∈ (portOf s p).atsCache → x ∈ (portOf u p).atsCache) ∧ (portOf u p).invalidations = (portOf s p).invalidations + 1) := by
  refine answers_of_exec (congrArg Host.Outcome.next (if_pos hlink)) ?_
  rw [portOf_setPort_same]
  refine ⟨by simp, fun x hx hmem => ?_, rfl⟩
  exact List.mem_filter.mpr ⟨hmem, by simpa using hx⟩

/-! IDE and TDISP (R402 to R405). -/

section Ide
variable {s : State} {p : Port} {stream : Fin 4} (hused : (tget {} s.ide (p.num * 4 + stream.val)).used = true)
  (hsecure : (tget {} s.ide (p.num * 4 + stream.val)).secure = true)
include hused hsecure

/-- The state in which the stream is Insecure (R403). -/
def insecure (s : State) (p : Port) (stream : Nat) : State :=
  { s with ide := tset {} s.ide (p.num * 4 + stream) { tget {} s.ide (p.num * 4 + stream) with secure := false } }

theorem exec_ideIntegrityFailure_alone (hnone : ∀ e ∈ s.tenants, bitOf e.2.ports p.num = false) :
    exec (.ideIntegrityFailure p stream) s = .next (insecure s p stream.val) := by
  refine congrArg Host.Outcome.next ((if_neg (by simp [hused, hsecure])).trans (foldl_eq_self fun e he => if_neg ?_))
  simp [hnone e he]

theorem exec_ideIntegrityFailure_one {t : TenantId} (htenants : s.tenants = [(t.val, tenantOf s t.val)])
    (hport : bitOf (tenantOf s t.val).ports p.num = true) (hcovers : streamCovers (insecure s p stream.val) p stream.val t.val = true) :
    exec (.ideIntegrityFailure p stream) s = .next (if (vfOf s p t.val).tdisp = .locked ∨ (vfOf s p t.val).tdisp = .run
      then tdiError (insecure s p stream.val) p t.val else pathLost (insecure s p stream.val) t.val) := by
  have hfold (f : State → Nat × Tenant → State) : (insecure s p stream.val).tenants.foldl f (insecure s p stream.val) =
      f (insecure s p stream.val) (t.val, tenantOf s t.val) := by
    rw [show (insecure s p stream.val).tenants = [(t.val, tenantOf s t.val)] from htenants]
    rfl
  exact congrArg Host.Outcome.next ((if_neg (by simp [hused, hsecure])).trans ((hfold _).trans (if_pos ⟨hport, hcovers⟩)))

end Ide

theorem lockInterfaceRequest_locks {s : State} {p : Port} {t : TenantId} (hlink : (portOf s p).link = true) (hunlocked : (vfOf s p t.val).tdisp = .unlocked)
    (hcovered : ∃ k < 4, streamCovers s p k t.val = true ∧ (tget {} s.ide (p.num * 4 + k)).secure = true ∧ (tget {} s.ide (p.num * 4 + k)).link = false)
    (hport : bitOf (tenantOf s t.val).ports p.num = true) : answers (.lockInterfaceRequest p t) s (fun u => (vfOf u p t.val).tdisp = .locked) := by
  obtain ⟨k, hk, hcovers, hsecure, hlinkStream⟩ := hcovered
  have hany : (List.range 4).any (fun k => streamCovers s p k t.val && (tget {} s.ide (p.num * 4 + k)).secure && !(tget {} s.ide (p.num * 4 + k)).link) = true :=
    List.any_eq_true.mpr ⟨k, List.mem_range.mpr hk, by simp [hcovers, hsecure, hlinkStream]⟩
  exact ⟨_, congrArg Host.Outcome.next (if_pos ⟨hlink, hunlocked, hany, hport⟩), congrArg Vf.tdisp (vfOf_setVf_same ..)⟩

end Sys2Proof.Machine

namespace Sys2Proof.Proofs
open Sys2Proof.Machine

/-- Settles O51: each command by the lemma that says what it comes to; the standing of a tenant by squash_standOf and pathLost_stays. -/
theorem portsAndFunctions : Obligations.PortsAndFunctions := by
  unfold Obligations.PortsAndFunctions
  intro s p t n page stream d
  have hsquash := squash_standOf s t.val 0
  refine ⟨fun hlink hawake => ⟨exec_dStateChange_pfSleeps hlink hawake, exec_dStateChange_pfWakes hlink hawake, exec_dStateChange_cold hlink hawake,
      fun ⟨_, henable, hnum⟩ => exec_dStateChange_vfSleeps hlink hawake henable hnum, fun ⟨_, henable, hnum⟩ => exec_dStateChange_vfWakes hlink hawake henable hnum⟩,
    pmeEnSet_pf, fun ⟨hlink, henable, hnum⟩ => pmeEnSet_vf hlink henable hnum, fun hrun ⟨hlink, henable, hnum⟩ hport => exec_flr hrun hlink henable hnum hport,
    congrArg Prod.fst hsquash, fun k => congrFun (congrArg (·.2.2) hsquash) k, fun hdrain hdue => ⟨exec_flrDrainTimeout hdrain hdue, rfl⟩,
    quiesceDrainComplete_holds, exec_resumeSlotsFreed, rfl, exec_portReset, fun hlink => ⟨exec_pf0Flr hlink, resetPf0_holds ..⟩, exec_vfEnableClear,
    helmLeaseExpiry_lapses, helmLease75_told, fun hlink => atsInvalidationRequest_drops hlink page,
    fun hused hsecure => ⟨exec_ideIntegrityFailure_alone hused hsecure, fun htenants hport hcovers => ⟨fun hrun => ?_, fun hunlocked => ?_⟩⟩,
    (tdiError_holds s p t.val).1, (tdiError_holds s p t.val).2, lockInterfaceRequest_locks,
    fun hlink hlocked => congrArg Host.Outcome.next (if_pos ⟨hlink, hlocked⟩),
    fun hlink haspm hl1 hidle hbusy => congrArg Host.Outcome.next (if_pos ⟨hlink, haspm, by simp [hl1], hidle, by simp [hbusy]⟩)⟩
  · exact (exec_ideIntegrityFailure_one hused hsecure htenants hport hcovers).trans (congrArg Host.Outcome.next (if_pos (.inr hrun)))
  · exact (exec_ideIntegrityFailure_one hused hsecure htenants hport hcovers).trans (congrArg Host.Outcome.next (if_neg (by simp [hunlocked])))

end Sys2Proof.Proofs
end

section
/-! PROOFS. The events of a firmware activation, and PLDM (R438 to R445, R461, R462, R473): what each command comes to. -/

namespace Sys2Proof.Machine

/-! Answers of a mailbox (R453, R457). -/

theorem mailOf_setMail_other {p q : Port} (h : q ≠ p) (s : State) (m : Mailbox) : mailOf (setMail s p m) q = mailOf s q := by
  cases p <;> cases q <;> simp_all [mailOf, setMail]

theorem mailOf_of_unreported {s u : State} (h : unreported u = unreported s) (q : Port) : mailOf u q = mailOf s q :=
  field_of_unreported h (mailOf · q) fun _ => by cases q <;> rfl

/-- The mailboxes after an answer: that of the port is DONE, with the response, and the other is as it was. -/
theorem mailOf_mbAnswer (s : State) (p q : Port) (r : MbResp) :
    mailOf (mbAnswer s p r) q = if q = p then { mailOf s p with st := 3, resp := some r, run := none } else mailOf s q := by
  unfold mbAnswer
  extract_lets dev m u w
  have hw : mailOf w q = mailOf u q := prop_ite (P := fun x : State => mailOf x q = mailOf u q) (by cases q <;> rfl) rfl
  rw [mailOf_of_unreported (arrive_unreported ..), hw]
  split
  · subst q
    exact mailOf_setMail_same ..
  · exact (mailOf_setMail_other ‹_› ..).trans (by cases q <;> rfl)

theorem outWrite_nil (s : State) (p : Port) (l : List OutSeg) : outWrite s p l [] = (s, none) := by
  cases l <;> rfl

/-- A command in progress ends with an answer of its tag; without a body, with the status given (R457, R463). -/
theorem mbFinish_answers {s : State} {p : Port} {r : MbRun} (hrun : (mailOf s p).run = some r) (st d : Nat) (b : List Byte) :
    ∃ m x, mbFinish s p st d b = mbAnswer { s with mem := m } p x ∧ x.tag = r.tag ∧ (b = [] → x.status = st) := by
  unfold mbFinish
  simp only [hrun]
  split
  · rename_i hlong
    exact ⟨s.mem, _, rfl, rfl, fun hb => by simp [hb] at hlong⟩
  · unfold mbDeliver
    split
    · exact ⟨s.mem, _, rfl, rfl, fun _ => rfl⟩
    · obtain ⟨m, hm⟩ := outWrite_mem p r.outs s b
      split
      · rename_i t ht
        simp only [ht] at hm
        exact ⟨m, _, by rw [hm], rfl, fun _ => rfl⟩
      · rename_i t i ht
        simp only [ht] at hm
        refine ⟨m, _, by rw [hm], prop_ite (P := fun x : MbResp => x.tag = r.tag) rfl rfl, fun hb => ?_⟩
        rw [hb, outWrite_nil] at ht
        exact absurd (congrArg Prod.snd ht) (Option.some_ne_none i).symm

theorem mailOf_mem (s : State) (m : Mem) (q : Port) : mailOf { s with mem := m } q = mailOf s q := by cases q <;> rfl

theorem mailOf_mbFinish_other {p q : Port} (h : q ≠ p) (s : State) (st d : Nat) (b : List Byte) : mailOf (mbFinish s p st d b) q = mailOf s q := by
  cases hrun : (mailOf s p).run with
  | none =>
    unfold mbFinish
    rw [hrun]
  | some r =>
    obtain ⟨m, x, hx, -, -⟩ := mbFinish_answers hrun st d b
    rw [hx, mailOf_mbAnswer, if_neg h, mailOf_mem]

theorem mailOf_mbFinish_done {s : State} {p : Port} {r : MbRun} (hrun : (mailOf s p).run = some r) (st d : Nat) (b : List Byte) :
    (mailOf (mbFinish s p st d b) p).st = 3 := by
  obtain ⟨m, x, hx, -, -⟩ := mbFinish_answers hrun st d b
  rw [hx, mailOf_mbAnswer, if_pos rfl]

theorem mbRuns_some {s : State} {q : Port} {op arg : Nat} (h : mbRuns s q op arg = true) : ∃ r, (mailOf s q).run = some r := by
  unfold mbRuns at h
  split at h
  · exact ⟨_, ‹_›⟩
  · exact absurd h Bool.false_ne_true

/-- The command of a mailbox that waits for an opcode and an argument is answered (R461). -/
theorem mbFinishOp_done {s : State} {q : Port} {op arg : Nat} (h : mbRuns s q op arg = true) (st d : Nat) (b : List Byte) :
    (mailOf (mbFinishOp s op arg st d b) q).st = 3 := by
  have hstep (u : State) (p : Port) (hq : q ≠ p) : mailOf (if mbRuns u p op arg then mbFinish u p st d b else u) q = mailOf u q :=
    prop_ite (P := fun w : State => mailOf w q = mailOf u q) (mailOf_mbFinish_other hq ..) rfl
  have hend (u : State) (hu : mailOf u q = mailOf s q) : (mailOf (if mbRuns u q op arg then mbFinish u q st d b else u) q).st = 3 := by
    have hruns : mbRuns u q op arg = true := by rw [mbRuns, hu]; exact h
    rw [if_pos hruns]
    obtain ⟨r, hr⟩ := mbRuns_some hruns
    exact mailOf_mbFinish_done hr ..
  unfold mbFinishOp
  simp only [List.foldl_cons, List.foldl_nil]
  cases q with
  | a => exact (congrArg Mailbox.st (hstep _ .b (by decide))).trans (hend s rfl)
  | b => exact hend _ (hstep s .a (by decide))

/-! The phase of an activation (R438, R439). -/

theorem setPhase_unreported (s : State) (n : Nat) : unreported (setPhase s n) = unreported { s with fw := { s.fw with phase := n } } := by
  unfold setPhase
  split
  · rename_i h
    rw [← h]
  · exact arrive_unreported ..

theorem setPhase_fw (s : State) (n : Nat) : (setPhase s n).fw = { s.fw with phase := n } := field_of_unreported (setPhase_unreported s n) State.fw fun _ => rfl
theorem setPhase_pldm (s : State) (n : Nat) : (setPhase s n).pldm = s.pldm := field_of_unreported (setPhase_unreported s n) State.pldm fun _ => rfl
theorem mailOf_setPhase (s : State) (n : Nat) (q : Port) : mailOf (setPhase s n) q = mailOf s q :=
  (mailOf_of_unreported (setPhase_unreported s n) q).trans (by cases q <;> rfl)

theorem mbRuns_setPhase (s : State) (n : Nat) (q : Port) (op arg : Nat) : mbRuns (setPhase s n) q op arg = mbRuns s q op arg := by
  rw [mbRuns, mailOf_setPhase]
  rfl

theorem endActivate_fw (s : State) (st phase comp : Nat) : (endActivate s st phase comp).fw = s.fw :=
  field_of_besideMail (mbFinishOp_besideMail ..) State.fw fun _ => rfl
theorem endActivate_log (s : State) (st phase comp : Nat) : (endActivate s st phase comp).log = s.log :=
  field_of_besideMail (mbFinishOp_besideMail ..) State.log fun _ => rfl

/-- What is switched back is STAGED again, and the entry says so (R438). -/
theorem revertFw_holds (s : State) (comp : Nat) : (revertFw s comp).fw.phase = 2 ∧ (revertFw s comp).fw.todo = [] ∧
    (revertFw s comp).fw.running = (if s.fw.phase = 5 then s.fw.previous else s.fw.running) ∧ logged (revertFw s comp) 0x0802 := by
  unfold revertFw
  extract_lets ph f u w code
  have hw : w.fw = { u.fw with phase := 2 } := (field_of_unreported (logIsland_unreported ..) State.fw fun _ => rfl).trans (setPhase_fw u 2)
  have hlogged : logged w 0x0802 := logged_logIsland ..
  clear_value w
  have hfields : w.fw.phase = 2 ∧ w.fw.todo = [] ∧ w.fw.running = (if s.fw.phase = 5 then s.fw.previous else s.fw.running) := by
    rw [hw]
    exact ⟨rfl, rfl, rfl⟩
  obtain ⟨hphase, htodo, hrunning⟩ := hfields
  split
  · exact ⟨hphase, htodo, hrunning, hlogged⟩
  · exact ⟨hphase, htodo, hrunning, hlogged⟩

section Events
variable {s : State}

theorem armedWaitExpiry_stages (hphase : s.fw.phase = 3) (hdue : s.fw.since + 10000000000 < nowNs s) : answers .armedWaitExpiry s (fun u =>
    u.fw.phase = 2 ∧ (s.fw.pldm = true → u.pldm.code = 1) ∧ (∀ q, s.fw.pldm = false → mbRuns s q 0x0804 0 = true → (mailOf u q).st = 3)) := by
  refine answers_of_exec (congrArg Host.Outcome.next (if_neg (by simp [hphase]; omega))) ?_
  have hfw := setPhase_fw s 2
  have hruns := mbRuns_setPhase s 2
  generalize setPhase s 2 = w at hfw hruns ⊢
  have hpldm : w.fw.pldm = s.fw.pldm := by rw [hfw]
  have hphase2 : w.fw.phase = 2 := by rw [hfw]
  dsimp only
  split
  · rename_i h
    exact ⟨hphase2, fun _ => rfl, fun _ hoff => absurd (hoff.symm.trans (hpldm.symm.trans h)) Bool.false_ne_true⟩
  · rename_i h
    refine ⟨(congrArg Fw.phase (endActivate_fw ..)).trans hphase2, fun hon => absurd (hpldm.trans hon) h, fun q _ hq => ?_⟩
    exact mbFinishOp_done ((hruns q 0x0804 0).trans hq) ..

theorem exec_componentReady {k : Nat} {rest : List Nat} (hphase : s.fw.phase = 4) (hrun : running s = true) (htodo : s.fw.todo = k :: rest)
    (hswap : k ≠ 10 ∨ swapDone s = true) : exec .componentReady s =
      .next (beginHead (switchEffect { s with fw := { s.fw with todo := rest, done := s.fw.done ++ [k] } } k)) := by
  show execComponentReady s = _
  unfold execComponentReady
  simp only [htodo]
  rw [if_neg]
  rintro (h | h | ⟨hk, h⟩)
  · exact h hphase
  · simp [hrun] at h
  · rcases hswap with hne | hdone
    · exact hne hk
    · simp [hdone] at h

theorem readyCheckTimeout_reverts {k : Nat} {rest : List Nat} (hphase : s.fw.phase = 4) (htodo : s.fw.todo = k :: rest)
    (hdue : s.fw.since + readyMs s k * 1000000 < nowNs s) : answers .readyCheckTimeout s (fun u =>
      u.fw.phase = 2 ∧ u.fw.todo = [] ∧ u.fw.running = s.fw.running ∧ logged u 0x0802) := by
  have hexec : exec .readyCheckTimeout s = .next (endActivate (revertFw s (compId k)) 0x0819 2 (compId k)) := by
    show execReadyCheckTimeout s = _
    unfold execReadyCheckTimeout
    simp only [htodo]
    rw [if_neg (by simp [hphase]; omega)]
  obtain ⟨hphase2, hnone, hrunning, hlogged⟩ := revertFw_holds s (compId k)
  refine ⟨_, hexec, ?_, ?_, ?_, logged_of_log (endActivate_log ..) hlogged⟩
  · rw [endActivate_fw, hphase2]
  · rw [endActivate_fw, hnone]
  · rw [endActivate_fw, hrunning, if_neg (by omega)]

theorem probationExpiry_reverts (hphase : s.fw.phase = 5) (hdue : s.fw.since + s.fw.limitS * 1000000000 < nowNs s) :
    answers .probationExpiry s (fun u => u.fw.phase = 2 ∧ u.fw.running = s.fw.previous ∧ logged u 0x0802) := by
  obtain ⟨hphase2, -, hrunning, hlogged⟩ := revertFw_holds s 0
  exact ⟨_, congrArg Host.Outcome.next (if_pos ⟨hphase, hdue⟩), hphase2, hrunning.trans (if_pos hphase), hlogged⟩

theorem probationLimitNear_tells (hphase : s.fw.phase = 5) (hnear : s.fw.near = false)
    (hdue : s.fw.since + s.fw.limitS * 1000000000 ≤ nowNs s + 60000000000) :
    answers .probationLimitNear s (fun u => u.fw = { s.fw with near := true } ∧ (srcOf u 0xC02).detail = 5) := by
  refine answers_of_exec (congrArg Host.Outcome.next (if_pos ⟨hphase, by simp [hnear], hdue⟩)) ⟨?_, ?_⟩
  · exact field_of_unreported (arrive_unreported ..) State.fw fun _ => rfl
  · rw [srcOf_arrive rfl, fireByCount_detail]
    exact prop_ite (P := fun v : Source => v.detail = 5) rfl rfl

/-! The Pilot's restart, and a command that outlives its limit (R461, R462). -/

theorem pilotDown_besideMail (s : State) : besideMail (pilotDown s) = besideMail s :=
  List.foldlRecOn (motive := fun u => besideMail u = besideMail s) _ _ rfl fun _ hu _ _ => (setMail_besideMail ..).trans hu

theorem pilotDown_st (s : State) (q : Port) : (mailOf (pilotDown s) q).st = (mailOf s q).st := by
  refine List.foldlRecOn (motive := fun u => (mailOf u q).st = (mailOf s q).st) _ _ rfl fun u hu p _ => ?_
  by_cases h : q = p
  · subst q
    exact (congrArg Mailbox.st (mailOf_setMail_same ..)).trans hu
  · exact (congrArg Mailbox.st (mailOf_setMail_other h ..)).trans hu

theorem pilotRestart_holds (hoff : s.dev.st ≠ .off) (hreset : (islandOf s islPilot).reset = false) (hout : (islandOf s islPilot).out = false)
    (hon : (islandOf s islPilot).state ≠ 0) (cause : BitVec 8) : answers (.pilotRestart cause) s (fun u => (islandOf u islPilot).reset = true ∧
      (islandOf u islPilot).resets = satInc (islandOf s islPilot).resets 65535 ∧ logged u 0x0708 ∧ (∀ q, (mailOf u q).st = (mailOf s q).st)) := by
  refine answers_of_exec (congrArg Host.Outcome.next (if_neg (by simp [hoff, hreset, hout, hon]))) ?_
  have hlogged := logged_logIsland s 0x0708 0 islPilot (toLe 1 cause.toNat)
  have hmail := mailOf_of_unreported (logIsland_unreported s 0x0708 0 islPilot (toLe 1 cause.toNat))
  dsimp only
  generalize logIsland s 0x0708 0 islPilot (toLe 1 cause.toNat) = w at hlogged hmail ⊢
  have hisland (i : Island) : islandOf (pilotDown (setIsland w islPilot i)) islPilot = i :=
    (islandOf_of_islands (field_of_besideMail (pilotDown_besideMail ..) State.islands fun _ => rfl) _).trans (islandOf_setIsland_same ..)
  rw [hisland]
  refine ⟨rfl, rfl, logged_of_log (field_of_besideMail (pilotDown_besideMail ..) State.log fun _ => rfl) hlogged, fun q => ?_⟩
  refine (pilotDown_st _ q).trans ((congrArg Mailbox.st ?_).trans (congrArg Mailbox.st (hmail q)))
  cases q <;> rfl

theorem mbTimeout_answers {p : Port} {r : MbRun} (hrun : (mailOf s p).run = some r) (hcommitted : r.committed = false) (hup : pilotUp s = true)
    (hdue : r.since + r.limitMs * 1000000 ≤ nowNs s) : answers (.mbTimeout p) s (fun u => (mailOf u p).st = 3 ∧ (mailOf u p).run = none ∧
      ∃ x, (mailOf u p).resp = some x ∧ (r.dma = false → x.status = 0x0805) ∧ x.tag = r.tag) := by
  have hexec : ∃ w, exec (.mbTimeout p) s = .next (mbFinish w p 0x0805 0 []) ∧ mailOf w p = mailOf s p := by
    refine ⟨?w, ?hexec, ?hmail⟩
    case hexec =>
      show execMbTimeout p s = _
      unfold execMbTimeout
      simp only [hrun]
      rw [if_neg (by simp [hcommitted, hup]; omega)]
    case hmail =>
      refine prop_ite (P := fun w : State => mailOf w p = mailOf s p) ((mailOf_setPhase ..).trans ?_) ?_
      · exact prop_ite (P := fun w : State => mailOf w p = mailOf s p) (by cases p <;> rfl) rfl
      · exact prop_ite (P := fun w : State => mailOf w p = mailOf s p) (by cases p <;> rfl) rfl
  obtain ⟨w, hexec, hmail⟩ := hexec
  obtain ⟨m, x, hx, htag, hstatus⟩ := mbFinish_answers (s := w) (p := p) ((congrArg Mailbox.run hmail).trans hrun) 0x0805 0 []
  refine answers_of_exec hexec ?_
  rw [hx, mailOf_mbAnswer, if_pos rfl]
  exact ⟨rfl, rfl, x, rfl, fun _ => hstatus rfl, htag⟩

/-! PLDM (R445). -/

section Pldm
variable (hup : pldmUp s = true)
include hup

theorem pldmUp_goes : ¬ (!pldmUp s) = true := by simp [hup]

theorem exec_requestUpdate_busy {length : BitVec 32} (hphase : 1 ≤ s.fw.phase ∧ s.fw.phase ≤ 5) : exec (.requestUpdate length) s = .next (pldmCode s 0x81) :=
  congrArg Host.Outcome.next ((if_neg (pldmUp_goes hup)).trans (if_pos (by omega)))

theorem requestUpdate_opens {length : BitVec 32} (hphase : s.fw.phase = 0 ∨ s.fw.phase = 6) (hlife : s.otp.lifecycle ≠ 3) (hlen : length.toNat ≤ 67108864) :
    answers (.requestUpdate length) s (fun u => u.pldm = { st := 1 } ∧ u.fw.phase = 1 ∧ u.fw.len = length.toNat ∧ u.fw.bytes = [] ∧ u.fw.pldm = true) := by
  refine answers_of_exec (congrArg Host.Outcome.next ((if_neg (pldmUp_goes hup)).trans ((if_neg (by omega)).trans (if_neg (by omega))))) ⟨rfl, ?_⟩
  have hfw : (openStage s length.toNat true).fw = { (setSlotAt s (inactive s) .empty).fw with
      len := length.toNat, bytes := [], written := [], pldm := true, todo := [], done := [], near := false, phase := 1 } := setPhase_fw ..
  show (openStage s length.toNat true).fw.phase = 1 ∧ _
  rw [hfw]
  exact ⟨rfl, rfl, rfl, rfl⟩

theorem exec_passComponentTable_next (h : s.pldm.st = 1) : exec .passComponentTable s = .next { s with pldm := { st := 2 } } :=
  congrArg Host.Outcome.next ((if_neg (pldmUp_goes hup)).trans (if_pos h))
theorem exec_passComponentTable_early (h : s.pldm.st ≠ 1) : exec .passComponentTable s = .next (pldmCode s 0x84) :=
  congrArg Host.Outcome.next ((if_neg (pldmUp_goes hup)).trans (if_neg h))
theorem exec_updateComponent_next (h : s.pldm.st = 2) : exec .updateComponent s = .next { s with pldm := { st := 3 } } :=
  congrArg Host.Outcome.next ((if_neg (pldmUp_goes hup)).trans (if_pos h))
theorem exec_updateComponent_early (h : s.pldm.st ≠ 2) : exec .updateComponent s = .next (pldmCode s 0x84) :=
  congrArg Host.Outcome.next ((if_neg (pldmUp_goes hup)).trans (if_neg h))

theorem exec_requestFirmwareData_early {off : BitVec 32} {bytes : List Byte} (h : s.pldm.st ≠ 3) :
    exec (.requestFirmwareData off bytes) s = .next (pldmCode s 0x84) :=
  congrArg Host.Outcome.next ((if_neg (pldmUp_goes hup)).trans (if_pos (.inl h)))

section Data
variable {off : BitVec 32} {bytes : List Byte} (hst : s.pldm.st = 3) (hphase : s.fw.phase = 1) (hfits : off.toNat + bytes.length ≤ s.fw.len)
include hst hphase hfits

omit hup in
theorem requestFirmwareData_goes : ¬ (s.pldm.st ≠ 3 ∨ s.fw.phase ≠ 1 ∨ s.fw.len < off.toNat + bytes.length) := by omega

theorem requestFirmwareData_stages (hfull : coveredTo (stageBytes s off.toNat bytes).fw.written (stageBytes s off.toNat bytes).fw.len
      ((stageBytes s off.toNat bytes).fw.written.length + 1) 0 = false) :
    answers (.requestFirmwareData off bytes) s (fun u => u.fw = (stageBytes s off.toNat bytes).fw ∧ u.pldm.st = 3 ∧ u.pldm.code = 0) :=
  ⟨_, congrArg Host.Outcome.next ((if_neg (pldmUp_goes hup)).trans ((if_neg (requestFirmwareData_goes hst hphase hfits)).trans
    (if_pos (by simp [hfull])))), rfl, hst, rfl⟩

theorem exec_requestFirmwareData_full {t : State} {st d : Nat} (hfull : coveredTo (stageBytes s off.toNat bytes).fw.written
      (stageBytes s off.toNat bytes).fw.len ((stageBytes s off.toNat bytes).fw.written.length + 1) 0 = true)
    (hclose : closeStage (stageBytes s off.toNat bytes) = (t, st, d)) : exec (.requestFirmwareData off bytes) s =
      .next { t with pldm := if st = 0 then { st := 4 } else { st := 0, code := 1 } } := by
  show execRequestFirmwareData off bytes s = _
  unfold execRequestFirmwareData
  rw [if_neg (pldmUp_goes hup), if_neg (requestFirmwareData_goes hst hphase hfits)]
  dsimp only
  rw [if_neg (by simp [hfull]), hclose]
  dsimp only
  split <;> rfl

end Data

theorem exec_activateFirmware_early (h : s.pldm.st ≠ 4 ∨ s.fw.phase ≠ 2) : exec .activateFirmware s = .next (pldmCode s 0x84) :=
  congrArg Host.Outcome.next ((if_neg (pldmUp_goes hup)).trans (if_pos h))

theorem activateFirmware_arms (hst : s.pldm.st = 4) (hphase : s.fw.phase = 2) : answers .activateFirmware s (fun u =>
    u.fw.phase = 3 ∧ u.fw.limitS = 60 ∧ u.fw.since = nowNs s ∧ u.pldm.code = 0) := by
  refine answers_of_exec (congrArg Host.Outcome.next ((if_neg (pldmUp_goes hup)).trans (if_neg (by omega)))) ?_
  have hfw : (armFw s 60).fw = { s.fw with limitS := 60, since := nowNs s, phase := 3 } := setPhase_fw ..
  show (armFw s 60).fw.phase = 3 ∧ (armFw s 60).fw.limitS = 60 ∧ (armFw s 60).fw.since = nowNs s ∧ _
  rw [hfw]
  exact ⟨rfl, rfl, rfl, rfl⟩

end Pldm
end Events

end Sys2Proof.Machine

namespace Sys2Proof.Proofs
open Sys2Proof.Machine

/-- Settles O56: each event and each PLDM command by the lemma that says what it comes to; phases by setPhase_fw, answers by mbFinish_answers. -/
theorem firmwareEventsAndPldm : Obligations.FirmwareEventsAndPldm := by
  unfold Obligations.FirmwareEventsAndPldm
  intro s length off bytes k rest p r cause t st d
  exact ⟨armedWaitExpiry_stages, exec_componentReady, readyCheckTimeout_reverts, probationExpiry_reverts, probationLimitNear_tells,
    fun hoff hreset hout hon => pilotRestart_holds hoff hreset hout hon cause, mbTimeout_answers,
    fun hup => ⟨exec_requestUpdate_busy hup, requestUpdate_opens hup, exec_passComponentTable_next hup, exec_passComponentTable_early hup,
      exec_updateComponent_next hup, exec_updateComponent_early hup, exec_requestFirmwareData_early hup,
      fun hst hphase hfits => ⟨requestFirmwareData_stages hup hst hphase hfits, exec_requestFirmwareData_full hup hst hphase hfits⟩,
      exec_activateFirmware_early hup, activateFirmware_arms hup⟩⟩

end Sys2Proof.Proofs
end

section
/-! PROOFS. The mailbox commands of device, helm, time, tenants and queues (R384 to R394, R453 to R468): what a GO comes to that the Pilot
does not take, and what the act of each command comes to. -/

namespace Sys2Proof.Machine

/-! A GO that the Pilot does not take (R452, R453, R459, R462). -/

section Requests
variable {c : MbCmd} {m : MbReq} {s : State}

/-- While STARTING a GO is answered with MB_NOT_READY (R453). -/
theorem mbGo_starting (hmmio : mailMmio s m.port = true) (hst : (mailOf s m.port).st = 0) : mbGo c m s =
    setMail s m.port { mailOf s m.port with resp := some { status := 0x0808, tag := m.tag.toNat } } := by
  unfold mbGo
  simp only [hmmio, hst, Bool.not_true, Bool.false_eq_true, if_false, if_true]

/-- While BUSY a GO is counted (R453). -/
theorem mbGo_busy (hmmio : mailMmio s m.port = true) (hst : (mailOf s m.port).st = 2) : mbGo c m s =
    setMail (heard s m) m.port { mailOf s m.port with ignored := satInc (mailOf s m.port).ignored 255 } := by
  unfold mbGo
  simp only [hmmio, hst, Bool.not_true, Bool.false_eq_true, if_false, if_true, OfNat.ofNat_ne_zero]
  rfl

/-- A GO stays BUSY until the Pilot runs again (R462). -/
theorem mbGo_pilotDown (hmmio : mailMmio s m.port = true) (hst : (mailOf s m.port).st = 3) (hpilot : pilotUp (heard s m) = false) :
    mbGo c m s = mbBusy (heard s m) m.port { mbRunOf (heard s m) c m with req := some m } := by
  have hdown : (!pilotUp (heard s m)) = true := by rw [hpilot]; rfl
  unfold mbGo
  simp only [hmmio, hst, Bool.not_true, Bool.false_eq_true, if_false, OfNat.ofNat_ne_zero, Nat.reduceEqDiff]
  exact if_pos hdown

/-- A request that fails a check is refused with the check's status (R459). -/
theorem mbGo_refused {st d : Nat} (hready : presented m s) (hcheck : mbCheck c m (heard s m) = some (st, d)) :
    mbGo c m s = mbAnswer (heard s m) m.port { status := st, tag := m.tag.toNat, detail := d } := by
  rw [mbGo_presented hready, mbStart, hcheck]
  rfl

end Requests

/-! The helm and the clock (R384 to R388, R465). -/

/-- Taking the helm names its holder and the end of its lease (R385), whatever follows the change of manager. -/
theorem takeHelm_lease (s : State) (p : Port) (ms : Nat) : (takeHelm s p ms).helm.holder = some p ∧
    (takeHelm s p ms).helm.expiry = nowNs s + ms * 1000000 := by
  unfold takeHelm
  extract_lets h now lease moved
  have hlease : lease.helm.holder = some p ∧ lease.helm.expiry = nowNs s + ms * 1000000 := ⟨rfl, rfl⟩
  have hmoved : moved.helm = lease.helm := prop_ite (P := fun u : State => u.helm = lease.helm) rfl rfl
  have harrive : (arrive moved 0xB03 p.num false).helm = moved.helm :=
    field_of_unreported (arrive_unreported ..) State.helm fun _ => rfl
  refine prop_ite (P := fun u : State => u.helm.holder = some p ∧ u.helm.expiry = nowNs s + ms * 1000000) hlease ?_
  rw [harrive, hmoved]
  exact hlease

/-- No PF0 keeps the helm that it has let go (R385). -/
theorem helmLapse_holder (s : State) (p : Port) : (helmLapse s p).helm.holder ≠ some p := by
  unfold helmLapse
  split
  · exact (Option.some_ne_none p).symm
  · assumption

/-- With nothing in service or in flight the clock steps to the time it is given (R465). -/
theorem setTime_quiet {s : State} (hquiet : quiet s = true) (ns : Nat) (pps ten : Bool) : harbourNs (setTime s ns pps ten) = ns := by
  have hclock : (setTime s ns pps ten).clock =
      { s.clock with off := s.clock.off + (Int.ofNat (ns * 1000) - (Int.ofNat s.clock.ps + s.clock.off)), timeSet := true } :=
    congrArg State.clock (if_pos hquiet)
  unfold harbourNs harbourAt
  rw [hclock]
  simp only [Int.ofNat_eq_natCast]
  omega

/-! A change and the function vectors it moves (R381). -/

/-- What a change comes to in its vector depends on the state it is made in alone. -/
theorem withVector_congr {t : Nat} {f g : State → State} {s : State} (h : f s = g s) : withVector t f s = withVector t g s := by
  unfold withVector
  rw [h]

section Acts
variable {u : State} {m : MbReq} {b : List Byte}

theorem helmAcquire_act (hfree : u.helm.holder = some m.port.other → m.flags.getLsbD 2 = true) {ms : Nat}
    (hms : (if fieldLe b 0 4 = 0 then 10000 else fieldLe b 0 4) = ms) : cmdHelmAcquire.act u m b =
      .done (takeHelm u m.port ms) (toLe 4 ms ++ toLe 8 (harbourAt (takeHelm u m.port ms) ((nowNs u + ms * 1000000) * 1000))) := by
  obtain ⟨-, hexpiry⟩ := takeHelm_lease u m.port ms
  simp only [cmdHelmAcquire, hms, hexpiry]
  exact if_neg fun ⟨hheld, hforce⟩ => absurd hforce (by rw [hfree hheld]; decide)

theorem helmAcquire_act_held (hheld : u.helm.holder = some m.port.other) (hforce : m.flags.getLsbD 2 = false) :
    cmdHelmAcquire.act u m b = .fail 0x0804 0 :=
  if_pos ⟨hheld, by rw [hforce]; rfl⟩

theorem timeSet_act_now (hmode : fieldLe b 8 1 = 0) : cmdTimeSet.act u m b =
    .done (setTime u (fieldLe b 0 8) (bitOf (fieldLe b 9 1) 0) (bitOf (fieldLe b 10 1) 0)) (toLe 8 (harbourNs u)) :=
  if_neg (by rw [hmode]; decide)

theorem timeSet_act_edge (hmode : fieldLe b 8 1 = 1) : cmdTimeSet.act u m b = .wait { u with disc := { u.disc with
    waiting := some { port := m.port, time := fieldLe b 0 8, ppsEn := bitOf (fieldLe b 9 1) 0, tenEn := bitOf (fieldLe b 10 1) 0 } } } 0 0 8 false :=
  if_pos hmode

/-! Tenants (R382, R390 to R394, R468). -/

theorem tenantCreate_act_unconfigured (hcfg : u.cfg.configured = false) : cmdTenantCreate.act u m b = .fail 0x0809 0xFFFFFFFF :=
  if_pos (by rw [hcfg]; rfl)

theorem tenantCreate_act_present (hcfg : u.cfg.configured = true) (hstate : (tenantOf u (fieldLe b 0 2)).state ≠ .absent) :
    cmdTenantCreate.act u m b = badTenant u (fieldLe b 0 2) := by
  simp only [cmdTenantCreate, hcfg, Bool.not_true, Bool.false_eq_true, if_false, hstate, ne_eq, not_false_eq_true, if_true]

theorem tenantCreate_act (hcfg : u.cfg.configured = true) (hstate : (tenantOf u (fieldLe b 0 2)).state = .absent)
    (hquota : (keysOfTenant u (fieldLe b 0 2)).length ≤ fieldLe b 4 4) : cmdTenantCreate.act u m b =
      .done (pathBack (saveConf (withVector (fieldLe b 0 2)
        (fun s => setTenant s (fieldLe b 0 2) { state := .quiesced, ports := fieldLe b 2 1, quota := fieldLe b 4 4 }) u)) (fieldLe b 0 2)) [] := by
  simp only [cmdTenantCreate, hcfg, Bool.not_true, Bool.false_eq_true, if_false, hstate, ne_eq, not_true_eq_false]
  exact if_neg (Nat.not_lt.mpr hquota)

/-- A tenant that is given both ports loses none (R468). -/
theorem tenantConfigure_act_both (hstate : (tenantOf u (fieldLe b 0 2)).state ≠ .absent)
    (hquota : storedKeys u (fieldLe b 0 2) ≤ fieldLe b 4 4) (hports : fieldLe b 2 1 = 3) : cmdTenantConfigure.act u m b =
      .done (saveConf (pathBack (setTenant u (fieldLe b 0 2) { tenantOf u (fieldLe b 0 2) with ports := 3, quota := fieldLe b 4 4 })
        (fieldLe b 0 2))) [] := by
  have hkeep : [Port.a, Port.b].foldl (fun s p => if bitOf 3 p.num then s else dropPort s (fieldLe b 0 2) p) u = u := rfl
  simp only [cmdTenantConfigure, hports, hkeep]
  exact (if_neg hstate).trans (if_neg (Nat.not_lt.mpr hquota))

theorem tenantConfigure_act_quota (hstate : (tenantOf u (fieldLe b 0 2)).state ≠ .absent)
    (hquota : fieldLe b 4 4 < storedKeys u (fieldLe b 0 2)) : cmdTenantConfigure.act u m b = .fail 0x080A 0 :=
  (if_neg hstate).trans (if_pos hquota)

theorem tenantQuiesce_act (hstate : (tenantOf u (fieldLe b 0 2)).state = .running ∨ (tenantOf u (fieldLe b 0 2)).state = .error) :
    cmdTenantQuiesce.act u m b = .wait
      (withVector (fieldLe b 0 2) (fun s => setTenant s (fieldLe b 0 2) { tenantOf u (fieldLe b 0 2) with
        state := if (tenantOf u (fieldLe b 0 2)).state = .running then .quiescing else .error,
        drainAt := some (nowNs u + (if fieldLe b 4 4 = 0 then 100 else fieldLe b 4 4) * 1000000) }) u) (fieldLe b 0 2) 0 0 true := by
  unfold cmdTenantQuiesce
  refine (if_neg fun ⟨hrun, herr⟩ => hstate.elim hrun herr).trans ?_
  exact congrArg (MbAct.wait · _ 0 0 true) (withVector_congr rfl)

theorem tenantQuiesce_act_bad (hrun : (tenantOf u (fieldLe b 0 2)).state ≠ .running) (herr : (tenantOf u (fieldLe b 0 2)).state ≠ .error) :
    cmdTenantQuiesce.act u m b = badTenant u (fieldLe b 0 2) :=
  if_pos ⟨hrun, herr⟩

/-- What a resume comes to, for a tenant that may be resumed (R393). -/
theorem tenantResume_act (hstate : ((tenantOf u (fieldLe b 0 2)).state = .quiesced ∨ (tenantOf u (fieldLe b 0 2)).state = .squashed) ∨
      (tenantOf u (fieldLe b 0 2)).state = .error) (htaken : (tenantOf u (fieldLe b 0 2)).takenAway = false) :
    cmdTenantResume.act u m b =
      if !u.cfg.configured then .fail 0x0809 0xFFFFFFFF
      else if !u.clock.timeSet then .fail 0x0809 0xFFFFFFFE
      else if slotsFree u (fieldLe b 0 2) then .done (resumeNow u (fieldLe b 0 2)) []
      else .wait u (fieldLe b 0 2) 0 0 false := by
  unfold cmdTenantResume
  rcases hstate with (h | h) | h
  all_goals simp only [h, htaken, Bool.false_eq_true, if_false]

theorem tenantDestroy_act (hidle : (tenantOf u (fieldLe b 0 2)).state = .quiesced ∨ (tenantOf u (fieldLe b 0 2)).state = .squashed)
    (hkeys : keysOfTenant (destroyKeys (saveConf (dropTenant u (fieldLe b 0 2))) (fieldLe b 0 2)) (fieldLe b 0 2) = [])
    (hlabel : mget u.sroom.labels (fieldLe b 0 2) = none) : cmdTenantDestroy.act u m b =
      .done (destroyKeys (saveConf (dropTenant u (fieldLe b 0 2))) (fieldLe b 0 2)) (toLe 4 (storedKeys u (fieldLe b 0 2))) := by
  unfold cmdTenantDestroy
  rcases hidle with h | h
  all_goals
    simp only [h]
    exact if_pos ⟨by rw [hkeys]; rfl, by rw [hlabel]; rfl⟩

/-- A destroyed tenant is ABSENT (R394). -/
theorem dropTenant_absent (s : State) (t : Nat) : (tenantOf (dropTenant s t) t).state = .absent := by
  unfold dropTenant
  rw [tenantOf_of_tenants (withVector_tenants ..)]
  exact congrArg Tenant.state (tenantOf_setTenant_same ..)

theorem tenantResync_act (hrun : (tenantOf u (fieldLe b 0 2)).state = .running) (hheld : heldCount u (fieldLe b 0 2) ≠ 0) :
    cmdTenantResync.act u m b = .done (withVector (fieldLe b 0 2) (fun s => releaseHeld (heldCount u (fieldLe b 0 2))
      (setTenant s (fieldLe b 0 2) { tenantOf s (fieldLe b 0 2) with needResync := false }) (fieldLe b 0 2)) u)
      (toLe 4 (heldCount u (fieldLe b 0 2))) :=
  if_neg fun h => h.elim (fun hne => hne hrun) hheld

/-! Queues, classes, partitions and pools (R328, R467, R468). -/

/-- The event queue that the fields of QUEUE_CREATE describe (R467). -/
def eqAsked (b : List Byte) : Eq :=
  { exist := true, enabled := true, sizeLog2 := fieldLe b 5 1, base := fieldLe b 16 8, timeTh := orOne (fieldLe b 14 2), countTh := orOne (fieldLe b 12 1) }

theorem queueCreate_act_pf {p : Port} (hpf : pfTenant (fieldLe b 0 2) = some p) : cmdQueueCreate.act u m b =
    if (getEq u (.pf p (fieldLe b 3 1))).exist then .fail 0x0809 0 else .done (setEq u (.pf p (fieldLe b 3 1)) (eqAsked b)) [] := by
  simp only [cmdQueueCreate, hpf]
  rfl

theorem queueCreate_act_eq (hpf : pfTenant (fieldLe b 0 2) = none) (hstate : (tenantOf u (fieldLe b 0 2)).state ≠ .absent)
    (hkind : fieldLe b 2 1 = 2) (hnew : (tenEq u (fieldLe b 0 2) (fieldLe b 3 1)).exist = false) : cmdQueueCreate.act u m b =
      .done (setTenEq u (fieldLe b 0 2) (fieldLe b 3 1)
        { eqAsked b with enabled := decide ((tenantOf u (fieldLe b 0 2)).state = .running) }) [] := by
  simp only [cmdQueueCreate, hpf, hkind, hnew, Bool.false_eq_true, if_false, if_true]
  exact if_neg hstate

theorem queueCreate_act_sq (hpf : pfTenant (fieldLe b 0 2) = none) (hstate : (tenantOf u (fieldLe b 0 2)).state ≠ .absent)
    (hkind : fieldLe b 2 1 ≠ 2) (hnew : (sqOf u (fieldLe b 0 2) (fieldLe b 3 1)).exist = false)
    (heq : (tenEq u (fieldLe b 0 2) (fieldLe b 4 1)).exist = true) : cmdQueueCreate.act u m b =
      if u.anchorFree < fieldLe b 6 2 then .fail 0x080A 0
      else .done (setSq { u with anchorFree := u.anchorFree - fieldLe b 6 2 } (fieldLe b 0 2) (fieldLe b 3 1)
        { exist := true, pull := fieldLe b 2 1 == 1, eq := fieldLe b 4 1, reservation := fieldLe b 6 2,
          enabled := decide ((tenantOf u (fieldLe b 0 2)).state = .running), base := fieldLe b 16 8, sizeLog2 := fieldLe b 5 1,
          creditBatch := orOne (fieldLe b 8 2), creditTime := orOne (fieldLe b 10 2) }) [] := by
  simp only [cmdQueueCreate, hpf, hkind, if_false]
  exact (if_neg hstate).trans (if_neg (by simp [hnew, heq]))

theorem queueDestroy_act_pf {p : Port} (hpf : pfTenant (fieldLe b 0 2) = some p) (hexist : (getEq u (.pf p (fieldLe b 3 1))).exist = true) :
    cmdQueueDestroy.act u m b = .done (setEq u (.pf p (fieldLe b 3 1)) {}) [] := by
  simp only [cmdQueueDestroy, hpf]
  exact if_pos hexist

theorem queueDestroy_act_sq (hpf : pfTenant (fieldLe b 0 2) = none)
    (hidle : (tenantOf u (fieldLe b 0 2)).state = .quiesced ∨ (tenantOf u (fieldLe b 0 2)).state = .squashed) (hkind : fieldLe b 2 1 ≠ 2)
    (hexist : (sqOf u (fieldLe b 0 2) (fieldLe b 3 1)).exist = true)
    (hpull : (sqOf u (fieldLe b 0 2) (fieldLe b 3 1)).pull = (fieldLe b 2 1 == 1)) : cmdQueueDestroy.act u m b =
      .done (setSq { u with anchorFree := u.anchorFree + (sqOf u (fieldLe b 0 2) (fieldLe b 3 1)).reservation }
        (fieldLe b 0 2) (fieldLe b 3 1) {}) [] := by
  simp only [cmdQueueDestroy, hpf, hkind, if_false]
  exact if_neg (by simpa [hexist, hpull] using or_iff_not_imp_left.mp hidle)

/-- No queue of a tenant goes while the tenant is neither QUIESCED nor SQUASHED (R468). -/
theorem queueDestroy_act_busy (hpf : pfTenant (fieldLe b 0 2) = none)
    (hbusy : ¬ ((tenantOf u (fieldLe b 0 2)).state = .quiesced ∨ (tenantOf u (fieldLe b 0 2)).state = .squashed)) :
    cmdQueueDestroy.act u m b = badTenant u (fieldLe b 0 2) := by
  have hidle : (!(decide ((tenantOf u (fieldLe b 0 2)).state = .quiesced) || decide ((tenantOf u (fieldLe b 0 2)).state = .squashed))) = true := by
    simpa using hbusy
  simp only [cmdQueueDestroy, hpf]
  by_cases hkind : fieldLe b 2 1 = 2
  · exact (if_pos hkind).trans (if_pos (.inl hidle))
  · exact (if_neg hkind).trans (if_pos (.inl hidle))

theorem partitionMapSet_act_down (hdown : ∃ e ∈ (b.drop 4).zipIdx, e.1 ≠ 0xFF ∧ basinUp u e.1.toNat = false) :
    cmdPartitionMapSet.act u m b = .fail 0x0809 0 := by
  refine if_pos (List.any_eq_true.mpr ?_)
  obtain ⟨e, hmem, hhome, hbasin⟩ := hdown
  exact ⟨e, hmem, Bool.and_eq_true_iff.mpr ⟨bne_iff_ne.mpr hhome, by rw [hbasin]; rfl⟩⟩

theorem partitionMapSet_act {w : State} (hup : ∀ e ∈ (b.drop 4).zipIdx, e.1 ≠ 0xFF → basinUp u e.1.toNat = true)
    (hw : saveConf ((b.drop 4).zipIdx.foldl (fun s e =>
      let v := partOf s (fieldLe b 0 2 + e.2)
      let h : Option Nat := if e.1 = 0xFF then none else some e.1.toNat
      setPart s (fieldLe b 0 2 + e.2) { v with next := if v.home = h then none else some h }) u) = w) :
    cmdPartitionMapSet.act u m b = if w.parts.any (fun e => e.2.next.isSome) then .wait w 0 0 0 true else .done w [] := by
  subst hw
  refine if_neg fun hany => ?_
  obtain ⟨e, hmem, hdown⟩ := List.any_eq_true.mp hany
  simp only [Bool.and_eq_true, bne_iff_ne, Bool.not_eq_true'] at hdown
  obtain ⟨hhome, hbasin⟩ := hdown
  exact Bool.false_ne_true (hbasin.symm.trans (hup e hmem hhome))

theorem chainPoolCreate_act (hstate : (tenantOf u (fieldLe b 0 2)).state ≠ .absent)
    (hnew : (tget {} (tenantOf u (fieldLe b 0 2)).pools (fieldLe b 2 1)).exist = false) : cmdChainPoolCreate.act u m b =
      .done (setPool u (fieldLe b 0 2) (fieldLe b 2 1) { exist := true, sizeLog2 := fieldLe b 3 1, bufLog2 := fieldLe b 4 1, base := fieldLe b 8 8 }) [] :=
  if_neg (by simp [hstate, hnew])

theorem chainPoolDestroy_act (hidle : (tenantOf u (fieldLe b 0 2)).state = .quiesced ∨ (tenantOf u (fieldLe b 0 2)).state = .squashed)
    (hexist : (tget {} (tenantOf u (fieldLe b 0 2)).pools (fieldLe b 2 1)).exist = true) :
    cmdChainPoolDestroy.act u m b = .done (setPool u (fieldLe b 0 2) (fieldLe b 2 1) {}) [] := by
  refine if_neg fun h => h.elim (fun ⟨hq, hs⟩ => hidle.elim hq hs) ?_
  simp [hexist]

end Acts

end Sys2Proof.Machine

namespace Sys2Proof.Proofs
open Sys2Proof.Machine

/-- Settles O52, command by command: a GO that the Pilot takes shows what the command comes to (`gives_of_act`, `givesSigned_of_act`), and
what each command comes to is the equation of its act. -/
theorem mailboxTenantCommands : Obligations.MailboxTenantCommands := by
  intro s m p' st d u p b f t v code ms sq eq idle homes homed
  refine ⟨?notTaken, ?refused, gives_of_act rfl rfl, gives_of_act rfl rfl, ?helmFree, ?helmForced, ?helmHeld, gives_of_act rfl rfl,
    helmLapse_holder u p, ?timeNow, fun hquiet => setTime_quiet hquiet .., ?timeEdge, ?createUnconfigured, ?createPresent, ?create,
    ?configure, ?configureQuota, ?quiesce, ?quiesceBad, ?resume, ?destroy, dropTenant_absent u t, ?resync, ?pfQueue, ?eventQueue, ?slipQueue,
    ?pfQueueGone, ?slipQueueGone, ?queueBusy, ?classSet, ?mapDown, ?map, ?poolCreate, ?poolDestroy⟩
  case notTaken =>
    exact fun hmmio => ⟨fun hst => congrArg Host.Outcome.next (mbGo_starting hmmio hst), fun hst => congrArg Host.Outcome.next (mbGo_busy hmmio hst),
      fun hst hpilot => congrArg Host.Outcome.next (mbGo_pilotDown hmmio hst hpilot)⟩
  case refused => exact fun hready hcheck => congrArg Host.Outcome.next (mbGo_refused hready hcheck)
  case helmFree =>
    intro hfree
    obtain ⟨hholder, -⟩ := takeHelm_lease u p ms
    exact ⟨gives_of_act rfl (helmAcquire_act (fun hheld => absurd hheld hfree) rfl), hholder⟩
  case helmForced => exact fun hforce => givesSigned_of_act rfl (helmAcquire_act (fun _ => hforce) rfl)
  case helmHeld => exact fun hheld hforce => gives_of_act rfl (helmAcquire_act_held hheld hforce)
  case timeNow => exact fun hmode => gives_of_act rfl (timeSet_act_now hmode)
  case timeEdge => exact fun hmode => gives_of_act rfl (timeSet_act_edge hmode)
  case createUnconfigured => exact fun hcfg => gives_of_act rfl (tenantCreate_act_unconfigured hcfg)
  case createPresent => exact fun hcfg hstate => gives_of_act rfl (tenantCreate_act_present hcfg hstate)
  case create => exact fun hcfg hstate hquota => gives_of_act rfl (tenantCreate_act hcfg hstate hquota)
  case configure => exact fun hstate hquota hports => gives_of_act rfl (tenantConfigure_act_both hstate hquota hports)
  case configureQuota => exact fun hstate hquota => gives_of_act rfl (tenantConfigure_act_quota hstate hquota)
  case quiesce => exact fun hstate => gives_of_act rfl (tenantQuiesce_act hstate)
  case quiesceBad => exact fun hrun herr => gives_of_act rfl (tenantQuiesce_act_bad hrun herr)
  case resume =>
    intro hstate htaken
    have hact := tenantResume_act (m := m) hstate htaken
    refine ⟨fun hcfg => gives_of_act rfl (hact.trans (if_pos ?_)), fun hcfg htime => gives_of_act rfl (hact.trans ((if_neg ?_).trans (if_pos ?_))),
      fun hcfg htime => gives_of_act rfl (hact.trans ((if_neg ?_).trans (if_neg ?_)))⟩
    all_goals simp [*]
  case destroy => exact fun hidle hkeys hlabel => gives_of_act rfl (tenantDestroy_act hidle hkeys hlabel)
  case resync => exact fun hrun hheld => gives_of_act rfl (tenantResync_act hrun hheld)
  case pfQueue => exact fun hpf => gives_of_act rfl (queueCreate_act_pf hpf)
  case eventQueue => exact fun hpf hstate hkind hnew => gives_of_act rfl (queueCreate_act_eq hpf hstate hkind hnew)
  case slipQueue => exact fun hpf hstate hkind hnew heq => gives_of_act rfl (queueCreate_act_sq hpf hstate hkind hnew heq)
  case pfQueueGone => exact fun hpf hexist => gives_of_act rfl (queueDestroy_act_pf hpf hexist)
  case slipQueueGone => exact fun hpf hidle hkind hexist hpull => gives_of_act rfl (queueDestroy_act_sq hpf hidle hkind hexist hpull)
  case queueBusy => exact fun hpf hbusy => gives_of_act rfl (queueDestroy_act_busy hpf hbusy)
  case classSet => exact fun hstate => gives_of_act rfl (if_neg hstate)
  case mapDown => exact fun hdown => gives_of_act rfl (partitionMapSet_act_down hdown)
  case map => exact fun hup => gives_of_act rfl (partitionMapSet_act hup rfl)
  case poolCreate => exact fun hstate hnew => gives_of_act rfl (chainPoolCreate_act hstate hnew)
  case poolDestroy => exact fun hidle hexist => gives_of_act rfl (chainPoolDestroy_act hidle hexist)

end Sys2Proof.Proofs
end
